-- ==== Sys2Proof/Word.lean ====
section
/-! DEFINITION. The word types of the DRV-8160 (R4, R5, R20): bytes, 64-bit scalars, 1,024-bit vectors, 128-bit
predicates and 52-bit virtual addresses. Nothing but names of types stands here. -/

namespace Sys2Proof

/-- A byte (R5). -/
abbrev Byte := BitVec 8

/-- A dword, the width of a scalar register (R5, R20). -/
abbrev Word := BitVec 64

/-- A vector register's width (R115). -/
abbrev VWord := BitVec 1024

/-- A predicate register's width, one bit for each byte of a vector (R116). -/
abbrev PWord := BitVec 128

/-- A virtual address (R77, R170). -/
abbrev Addr := BitVec 52

/-- A scalar register number, 0 to 31 (R20). -/
abbrev SReg := Fin 32

/-- A vector register number, 0 to 15 (R20). -/
abbrev VReg := Fin 16

/-- A predicate register number, 0 to 7 (R20). -/
abbrev PReg := Fin 8

end Sys2Proof
end

