-- ==== Sys2Proof/Syntax.lean ====
section
/-! DEFINITION. The abstract syntax: one constructor of Instr for each row of spec/opcode_table.json, the 183 instructions
of Emvel (R49) and the 88 further steps of the part (95_what_each_step_holds.md). Register codes, condition codes and
suffix codes are names here, never raw bits. Every instruction carries its switch marker S first (R24, R37). -/

namespace Sys2Proof

/-- A scalar source field: s0 to s31, or codes 56 and 57 (R38, R83). -/
inductive Src where
  | s (r : SReg)
  | tags
  | time
  deriving DecidableEq, Repr

/-- A register of any class that has a presence bit (codes 0 to 55, R38). -/
inductive Reg where
  | s (r : SReg)
  | v (r : VReg)
  | p (r : PReg)
  deriving DecidableEq, Repr

/-- What RFULL may name: codes 0 to 57 (R220). -/
inductive FullSrc where
  | reg (r : Reg)
  | tags
  | time
  deriving DecidableEq, Repr

/-- The destination of CMP and CMPI, scalar or predicate (R93). -/
inductive CmpDst where
  | s (r : SReg)
  | p (r : PReg)
  deriving DecidableEq, Repr

/-- Condition codes 0 to 9 (R92). -/
inductive Cond where
  | eq | ne | lt | ge | gt | le | ltu | geu | gtu | leu
  deriving DecidableEq, Repr

/-- The type suffixes, T codes 1 to 10 (R40). -/
inductive Ty where
  | i8 | u8 | i16 | i32 | f16 | bf16 | f32 | e4m3 | e5m2 | bpi
  deriving DecidableEq, Repr

/-- Rounding modes, RM codes 0 to 4 (R40, R60). -/
inductive Rm where
  | rne | rz | ru | rd | rs
  deriving DecidableEq, Repr

/-- Scopes, SC codes 0 to 5, narrowest first (R2, R40). -/
inductive Scope where
  | t | c | k | m | g | s
  deriving DecidableEq, Repr

/-- Size suffixes, SZ codes 0 to 3 (R40). -/
inductive Sz where
  | b | h | w | d
  deriving DecidableEq, Repr

/-- AMO operations, F codes 0 to 10 (R196). -/
inductive AmoOp where
  | swap | add | and | or | xor | min | max | minu | maxu | cas | fadd
  deriving DecidableEq, Repr

/-- AMO orderings, E bits 1:0 (R196). -/
inductive AmoOrd where
  | rlx | acq | rel | acqrel
  deriving DecidableEq, Repr

/-- REDU operations, F codes 0 to 2 (R197). -/
inductive ReduOp where
  | add | max | min
  deriving DecidableEq, Repr

/-- A unit offered to an arbiter: owner (VD 0 to 15, or 16 for the system bucket), size in units, class 0 to 3 (R395, R396), and
the number of the operation whose unit it is. -/
structure Offer where
  owner : Nat
  size : Nat
  cls : Nat
  op : Nat
  deriving DecidableEq, Repr

/-- Where an access that reaches its home comes from (R181, R239): part `part` of entry `id` of core `core`'s port, or
element `elem` of a running copy or matrix store of that core. -/
inductive HomeSrc where
  | port (core id part : Nat)
  | copy (core id elem : Nat)
  | matrix (core id elem : Nat)
  deriving DecidableEq, Repr

/-- What a scrub pass finds at one code unit (R444). -/
inductive ScrubFind where
  | clean | corrected | uncorrectable
  deriving DecidableEq, Repr

/-- The memories that a scrub pass reads (R443, R444). -/
inductive ScrubMem where
  | dram | l2 | scratchpad
  deriving DecidableEq, Repr

/-- Alarm sources, rows 1 to 8 of the source table of R431. -/
inductive AlarmSource where
  | roleSignature | firmwareOrRecord | linkAuthentication | temperature | debugNamingVd | debugNoVd | glitch | tamper
  deriving DecidableEq, Repr

/-- The rate classes, in the order of R393 with DRAM last. -/
inductive RateClass where
  | matrix | copy | mesh | vertical | bridge | slice | link | cxl | dram
  deriving DecidableEq, Repr

/-- The instructions and steps of the part. Thread, core, team and function numbers are those of Machine/State.lean. -/
inductive Instr where
  -- control (R101)
  | nop (sw : Bool)
  | br (sw : Bool) (delta : BitVec 11) (h : BitVec 5)
  | brz (sw : Bool) (a : Src) (delta : BitVec 11) (h : BitVec 5)
  | brnz (sw : Bool) (a : Src) (delta : BitVec 11) (h : BitVec 5)
  | jmp (sw : Bool) (a : Src)
  | jal (sw : Bool) (d : SReg) (delta : BitVec 11) (h : BitVec 5)
  | jalr (sw : Bool) (d : SReg) (a : Src)
  | loop (sw : Bool) (k : Bool) (a : Src) (delta : BitVec 11) (h : BitVec 5)
  | lbrk (sw : Bool) (k : Bool)
  | halt (sw : Bool)
  -- what a head that is no instruction does (R50)
  | encodingNotAnInstruction (head : BitVec 16) (u0 u1 u2 : BitVec 16)
  -- integer operations between registers (R86, R87, R89)
  | add (sw : Bool) (d : SReg) (a b : Src)
  | sub (sw : Bool) (d : SReg) (a b : Src)
  | and (sw : Bool) (d : SReg) (a b : Src)
  | or (sw : Bool) (d : SReg) (a b : Src)
  | xor (sw : Bool) (d : SReg) (a b : Src)
  | andn (sw : Bool) (d : SReg) (a b : Src)
  | shl (sw : Bool) (d : SReg) (a b : Src)
  | shr (sw : Bool) (d : SReg) (a b : Src)
  | sar (sw : Bool) (d : SReg) (a b : Src)
  | rotl (sw : Bool) (d : SReg) (a b : Src)
  | min (sw : Bool) (d : SReg) (a b : Src)
  | max (sw : Bool) (d : SReg) (a b : Src)
  | minu (sw : Bool) (d : SReg) (a b : Src)
  | maxu (sw : Bool) (d : SReg) (a b : Src)
  | mul (sw : Bool) (d : SReg) (a b : Src)
  | mulh (sw : Bool) (d : SReg) (a b : Src)
  | mulhu (sw : Bool) (d : SReg) (a b : Src)
  | div (sw : Bool) (d : SReg) (a b : Src)
  | divu (sw : Bool) (d : SReg) (a b : Src)
  | rem (sw : Bool) (d : SReg) (a b : Src)
  | remu (sw : Bool) (d : SReg) (a b : Src)
  | clz (sw : Bool) (d : SReg) (a : Src)
  | ctz (sw : Bool) (d : SReg) (a : Src)
  | popc (sw : Bool) (d : SReg) (a : Src)
  | mov (sw : Bool) (d : SReg) (a : Src)
  -- immediates, comparisons, bit fields, constants (R90 to R96)
  | sext (sw : Bool) (d : SReg) (a : Src) (n : BitVec 7)
  | zext (sw : Bool) (d : SReg) (a : Src) (n : BitVec 7)
  | addi (sw : Bool) (d : SReg) (a : Src) (imm : BitVec 16)
  | andi (sw : Bool) (d : SReg) (a : Src) (imm : BitVec 16)
  | ori (sw : Bool) (d : SReg) (a : Src) (imm : BitVec 16)
  | xori (sw : Bool) (d : SReg) (a : Src) (imm : BitVec 16)
  | cmp (sw : Bool) (d : CmpDst) (a b : Src) (cond : Cond)
  | cmpi (sw : Bool) (d : CmpDst) (a : Src) (imm : BitVec 16) (cond : Cond)
  | sel (sw : Bool) (d : SReg) (a b : Src) (p : PReg)
  | bfx (sw : Bool) (d : SReg) (a : Src) (pos lenm1 : BitVec 6)
  | bfi (sw : Bool) (d : SReg) (a b : Src) (pos lenm1 : BitVec 6)
  | li (sw : Bool) (d : SReg) (imm : BitVec 16)
  | liw (sw : Bool) (d : SReg) (imm : BitVec 32)
  | lix (sw : Bool) (d : SReg) (imm : BitVec 32)
  -- fat pointers (R97 to R99)
  | padd (sw : Bool) (d : SReg) (a b : Src)
  | pidx (sw : Bool) (d : SReg) (a b : Src)
  | pstrip (sw : Bool) (d : SReg) (a : Src)
  | pget (sw : Bool) (d : SReg) (a : Src)
  | pfmt (sw : Bool) (d : SReg) (a b : Src)
  | paddi (sw : Bool) (d : SReg) (a : Src) (imm : BitVec 16)
  -- predicates (R100)
  | pand (sw : Bool) (d a b : PReg)
  | por (sw : Bool) (d a b : PReg)
  | pxor (sw : Bool) (d a b : PReg)
  | pnot (sw : Bool) (d a : PReg)
  | pmov (sw : Bool) (d a : PReg)
  | pcnt (sw : Bool) (d : SReg) (a : PReg)
  | pfirst (sw : Bool) (d : SReg) (a : PReg)
  -- vector (R119, R120)
  | vadd (sw : Bool) (ty : Ty) (rm : Rm) (sat : Bool) (pg : PReg) (d a b : VReg)
  | vsub (sw : Bool) (ty : Ty) (rm : Rm) (sat : Bool) (pg : PReg) (d a b : VReg)
  | vmul (sw : Bool) (ty : Ty) (rm : Rm) (sat : Bool) (pg : PReg) (d a b : VReg)
  | vmulh (sw : Bool) (ty : Ty) (pg : PReg) (d a b : VReg)
  | vmin (sw : Bool) (ty : Ty) (pg : PReg) (d a b : VReg)
  | vmax (sw : Bool) (ty : Ty) (pg : PReg) (d a b : VReg)
  | vfma (sw : Bool) (ty : Ty) (rm : Rm) (sat : Bool) (pg : PReg) (d a b c : VReg)
  | vfms (sw : Bool) (ty : Ty) (rm : Rm) (sat : Bool) (pg : PReg) (d a b c : VReg)
  | vabs (sw : Bool) (ty : Ty) (sat : Bool) (pg : PReg) (d a : VReg)
  | vneg (sw : Bool) (ty : Ty) (sat : Bool) (pg : PReg) (d a : VReg)
  | vand (sw : Bool) (sz : Sz) (pg : PReg) (d a b : VReg)
  | vor (sw : Bool) (sz : Sz) (pg : PReg) (d a b : VReg)
  | vxor (sw : Bool) (sz : Sz) (pg : PReg) (d a b : VReg)
  | vshl (sw : Bool) (sz : Sz) (pg : PReg) (d a b : VReg)
  | vshr (sw : Bool) (sz : Sz) (pg : PReg) (d a b : VReg)
  | vsar (sw : Bool) (sz : Sz) (pg : PReg) (d a b : VReg)
  | vcmp (sw : Bool) (ty : Ty) (pg : PReg) (d : PReg) (a b : VReg) (cond : Cond)
  | vsel (sw : Bool) (sz : Sz) (pn : PReg) (d a b : VReg)
  | vbcast (sw : Bool) (sz : Sz) (pg : PReg) (d : VReg) (a : Src)
  | vins (sw : Bool) (sz : Sz) (d : VReg) (a : Src) (i : BitVec 16)
  | vext (sw : Bool) (sz : Sz) (d : SReg) (a : VReg) (i : BitVec 16)
  | vshuf (sw : Bool) (sz : Sz) (pg : PReg) (d a b : VReg)
  | vrot (sw : Bool) (sz : Sz) (pg : PReg) (d a : VReg) (n : BitVec 16)
  | vcvt (sw : Bool) (dty sty : Ty) (rm : Rm) (sat : Bool) (pg : PReg) (d a : VReg)
  | vqnt (sw : Bool) (sty : Ty) (rm : Rm) (pg : PReg) (pm2 : BitVec 3) (d a : VReg)
  | vdqnt (sw : Bool) (ty : Ty) (rm : Rm) (sat : Bool) (pg : PReg) (pm2 rpl : BitVec 3) (d a : VReg) (c : Src)
  | vredsum (sw : Bool) (ty : Ty) (rm : Rm) (pg : PReg) (d : SReg) (a : VReg)
  | vredmax (sw : Bool) (ty : Ty) (pg : PReg) (d : SReg) (a : VReg)
  | vredmin (sw : Bool) (ty : Ty) (pg : PReg) (d : SReg) (a : VReg)
  | vscan (sw : Bool) (ty : Ty) (rm : Rm) (sat : Bool) (pg : PReg) (d a : VReg)
  | vrcp (sw : Bool) (ty : Ty) (rm : Rm) (sat : Bool) (pg : PReg) (d a : VReg)
  | vrsq (sw : Bool) (ty : Ty) (rm : Rm) (sat : Bool) (pg : PReg) (d a : VReg)
  | vexp2 (sw : Bool) (ty : Ty) (rm : Rm) (sat : Bool) (pg : PReg) (d a : VReg)
  | vlog2 (sw : Bool) (ty : Ty) (rm : Rm) (sat : Bool) (pg : PReg) (d a : VReg)
  | vdot4 (sw : Bool) (ty : Ty) (rm : Rm) (sat : Bool) (pg : PReg) (d a b c : VReg)
  | vpopc (sw : Bool) (sz : Sz) (pg : PReg) (d a : VReg)
  -- memory (R183, R184)
  | ld (sw : Bool) (sz : Sz) (d : SReg) (a : Src) (off : BitVec 16)
  | lda (sw : Bool) (sz : Sz) (sc : Scope) (d : SReg) (a : Src) (off : BitVec 16)
  | st (sw : Bool) (sz : Sz) (a b : Src) (off : BitVec 16)
  | stl (sw : Bool) (sz : Sz) (sc : Scope) (a b : Src) (off : BitVec 16)
  | vld (sw : Bool) (sz : Sz) (pg : PReg) (d : VReg) (a : Src) (off : BitVec 16)
  | vlds (sw : Bool) (sz : Sz) (pg : PReg) (d : VReg) (a : Src) (stride : BitVec 16)
  | vst (sw : Bool) (sz : Sz) (pg : PReg) (a : Src) (b : VReg) (off : BitVec 16)
  | vsts (sw : Bool) (sz : Sz) (pg : PReg) (a : Src) (b : VReg) (stride : BitVec 16)
  | vgath (sw : Bool) (sz : Sz) (pg : PReg) (d : VReg) (a : Src) (c : VReg)
  | vscat (sw : Bool) (sz : Sz) (pg : PReg) (a : Src) (b c : VReg)
  | ldf (sw : Bool) (sc : Scope) (d : SReg) (a : Src) (off : BitVec 16)
  | ste (sw : Bool) (sc : Scope) (a b : Src) (off : BitVec 16)
  | ldfp (sw : Bool) (d : SReg) (p : PReg) (a : Src) (off : BitVec 16)
  | setfe (sw : Bool) (a b : Src) (off : BitVec 16)
  | amo (sw : Bool) (sz : Sz) (sc : Scope) (op : AmoOp) (ord : AmoOrd) (d : SReg) (a b c : Src)
  | redu (sw : Bool) (ty : Ty) (rm : Rm) (sat : Bool) (op : ReduOp) (a b : Src)
  | waitge (sw : Bool) (sz : Sz) (sc : Scope) (d : SReg) (a b : Src) (off : BitVec 16)
  | fence (sw : Bool) (sc : Scope)
  | pref (sw : Bool) (a : Src) (b : Option Src) (off : BitVec 16)
  | tflush (sw : Bool) (a : Src) (b : Option Src) (off : BitVec 16)
  | tinv (sw : Bool) (a : Src) (b : Option Src) (off : BitVec 16)
  -- register fabric (R207 to R222)
  | send (sw : Bool) (a b : Src) (off : BitVec 4)
  | sendv (sw : Bool) (a : Src) (b : VReg) (off : BitVec 4)
  | sendr (sw : Bool) (sc : Scope) (a b : Src) (off : BitVec 4)
  | mintcap (sw : Bool) (d : SReg) (base : BitVec 6) (lenm1 : BitVec 4)
  | revcap (sw : Bool) (d : SReg)
  | rclr (sw : Bool) (d : Reg)
  | rfull (sw : Bool) (d : SReg) (a : FullSrc)
  | rwait (sw : Bool) (a b : Reg)
  | landm (sw : Bool) (base : BitVec 6) (lenm1 : BitVec 4) (mode : BitVec 2)
  -- copies, tags and collectives (R263 to R279)
  | cpy (sw : Bool) (d a : SReg)
  | cpynb (sw : Bool) (d a : SReg)
  | cpyc (sw : Bool) (d : SReg) (a : Src)
  | cpyq (sw : Bool) (d : SReg) (a : Src)
  | twany (sw : Bool) (d : SReg) (a : Src)
  | twall (sw : Bool) (d : SReg) (a : Src)
  | tffr (sw : Bool) (d : SReg) (a : Src)
  | tclr (sw : Bool) (a : Src)
  | pbinv (sw : Bool) (a : Src)
  | gathq (sw : Bool) (sz : Sz) (pg : PReg) (d : VReg) (a : Src) (b : VReg)
  | planset (sw : Bool) (d : SReg) (a : Src)
  | planfire (sw : Bool) (a b : Src)
  | plandrop (sw : Bool) (a : Src)
  -- sillage (R288 to R303)
  | tapeopen (sw : Bool) (d : SReg) (a : Src)
  | tapeclose (sw : Bool) (a : Src)
  | tapefree (sw : Bool) (a : Src)
  | tapeq (sw : Bool) (d : SReg) (a : Src)
  | mcast (sw : Bool) (tag : BitVec 6) (a : SReg) (b : Src) (cls : BitVec 2) (ret : Bool)
  | gathr (sw : Bool) (tag : BitVec 6) (a : SReg) (b : Src) (cls : BitVec 2) (ret : Bool)
  | a2a (sw : Bool) (tag : BitVec 6) (a : SReg) (b : Src) (cls : BitVec 2) (ret : Bool)
  | retrace (sw : Bool) (tag : BitVec 6) (a : SReg) (b : Src) (c : SReg) (ty : Ty) (cls : BitVec 2) (land : Bool)
  | genbump (sw : Bool) (d : SReg) (a : Src)
  -- expert routing (R314 to R322)
  | hsinit (sw : Bool) (a b : Src)
  | hsift (sw : Bool) (d : SReg) (a b : Src)
  | hpop (sw : Bool) (d : SReg) (a : Src)
  | hist (sw : Bool) (sz : Sz) (pg : PReg) (a : Src) (b : VReg)
  | histOvf (sw : Bool) (sz : Sz) (pg : PReg) (a : Src) (b : VReg)
  | remapw (sw : Bool) (a b : Src)
  | remapx (sw : Bool) (a : Src)
  -- matrix (R150)
  | mcfg (sw : Bool) (tag : BitVec 6) (a : Src)
  | mzero (sw : Bool) (tag : BitVec 6) (mask : BitVec 8)
  | mlda (sw : Bool) (tag : BitVec 6) (a b : Src) (mc buf tr : Bool) (g : BitVec 3) (pe : BitVec 10)
  | mldb (sw : Bool) (tag : BitVec 6) (a b : Src) (mc buf tr : Bool) (g : BitVec 3) (pe : BitVec 10)
  | mldacc (sw : Bool) (tag : BitVec 6) (a : Src) (acc : BitVec 3) (pe : BitVec 10)
  | mmap (sw : Bool) (tag : BitVec 6) (acc : BitVec 3) (ab bb : Bool)
  | mmah (sw : Bool) (tag : BitVec 6) (acc : BitVec 3) (ab bb : Bool)
  | mmas (sw : Bool) (tag : BitVec 6) (acc : BitVec 3) (ab bb : Bool)
  | mst (sw : Bool) (tag : BitVec 6) (rm : Rm) (sat : Bool) (a : Src) (acc : BitVec 3) (pe : BitVec 10)
  | mstq (sw : Bool) (tag : BitVec 6) (rm : Rm) (a b : Src) (acc : BitVec 3) (pe : BitVec 10)
  | mscl (sw : Bool) (tag : BitVec 6) (rm : Rm) (sat : Bool) (a : Src) (acc : BitVec 3)
  -- scheduling, barriers, traps, control registers, translation (R339, R343, R351, R360, R411, R413)
  | wfw (sw : Bool) (d : SReg)
  | disp (sw : Bool) (d a : SReg) (prio : BitVec 3) (sc : Scope)
  | prog (sw : Bool) (a : Src)
  | ckpt (sw : Bool) (sc : Scope) (a : Src)
  | sleep (sw : Bool) (a : Src)
  | bararv (sw : Bool) (sc : Scope) (n : BitVec 7) (g : BitVec 8)
  | barwt (sw : Bool) (sc : Scope) (n : BitVec 7)
  | barsync (sw : Bool) (sc : Scope) (n : BitVec 7) (g : BitVec 8)
  | trap (sw : Bool) (n : BitVec 16)
  | eret (sw : Bool)
  | ctlr (sw : Bool) (d : SReg) (num : BitVec 10)
  | ctlw (sw : Bool) (num : BitVec 10) (a : Src)
  | tdef (sw : Bool) (a : SReg) (b : Src) (loge : BitVec 2) (id : BitVec 12)
  | tlbpin (sw : Bool) (sc : Scope) (d a : SReg)
  | tlbinv (sw : Bool) (d a : SReg) (b : Src) (force : Bool)
  -- steps of the part (95_what_each_step_holds.md)
  | lineFetch (t : Nat)
  | deferredResultReturn (t id : Nat)
  | switchPointCommit (t : Nat)
  | asyncCauseDelivery (t : Nat)
  | parklong (t : Nat)
  | translationWalkEnd (router vk page : Nat)
  | accessAtHome (src : HomeSrc)
  | syncretry (core id : Nat)
  | syncRequestRepresent (core id : Nat)
  | watchReread (core id : Nat)
  | gatherEngineServe (core id : Nat)
  | sendArrival (t id : Nat)
  | revocationEffective (t : Nat)
  | capbadStop (vd team : Nat)
  | copyDispatch (core id : Nat)
  | copyComplete (core id : Nat)
  | matrixEntryStart (core id : Nat)
  | matrixEntryComplete (core id : Nat)
  | multicastDelivery (core id dest : Nat)
  | planTrigger (vk : Nat)
  | planFireStart (vk plan member : Nat)
  | planFiringComplete (vk plan member : Nat)
  | sillageDelivery (op idx : Nat) (path : List Nat)
  | sillageTransferComplete (op : Nat)
  | retraceChunkArrival (op idx : Nat) (detoured : Bool)
  | accordEmit (router port : Nat)
  | retraceComplete (op : Nat)
  | dispPostArrival (id : Nat)
  | dispenserBind (cluster vd team : Nat)
  | sleepWake (t : Nat)
  | barrierArrivalCounted (id : Nat)
  | barrierPhaseComplete (vd team n g : Nat)
  | ckptRecord (id : Nat)
  | bucketAccrual (arb : Nat)
  | arbiterGrant (arb : Nat) (offers : List Offer)
  | rateEpoch (pkg : Nat)
  | progressAdditionApplied (id : Nat)
  | doorbell (fn q val : Nat)
  | launchEntry (fn q : Nat)
  | launchSelect (vk : Nat)
  | launchBind (vk : Nat)
  | bootTreeForward (vd team core : Nat)
  | threadStart (vd team core : Nat)
  | teamComplete (vd team : Nat)
  | preemptEntry (fn q : Nat)
  | preemptDeadline (vd team : Nat)
  | discard (vd team : Nat)
  | saveComplete (vd team : Nat)
  | invalidateEntry (fn q : Nat)
  | defineHandle (fn q : Nat)
  | dropHandle (fn q : Nat)
  | answer (fn q : Nat)
  | hostAnswerTimeout (token : Nat)
  | tlbinvDeadline (id : Nat)
  | eventRingDrain (fn r : Nat)
  | eheadWrite (fn r : Nat) (val : Word)
  | ectlWrite (fn r : Nat) (val : Word)
  | qctlEn (fn q : Nat) (en : Bool)
  | qctlRst (fn q : Nat)
  | vdCreate (vk : Nat)
  | vdDestroy (vk : Nat)
  | vdReenable (vk : Nat)
  | l2useWrite (vk : Nat) (val : Word)
  | l2limWrite (vk : Nat) (val : Word)
  | rateWrite (vk : Nat) (cls : RateClass) (val : Word)
  | qpriWrite (vk : Nat) (val : Word)
  | slotMapWrite (vk core : Nat) (val : BitVec 8)
  | grantMapWrite (vk core : Nat) (val : BitVec 32)
  | rmodeWrite (pkg : Nat) (vd : Option Nat) (val : Word)
  | registerWrite (fn off : Nat) (val : Word)
  | hostHdmRead (vk off len : Nat)
  | hostHdmWrite (vk off : Nat) (bytes : List Byte)
  | spdmMessage (fn : Nat) (nonce : BitVec 256)
  | throttleChange (pkg : Nat) (cores : List Nat) (factor : Nat)
  | thermalLimit (pkg massif layer : Nat)
  | flitReplay (link : Nat)
  | linkDown (link : Nat)
  | thopeifBringup (pkg link : Nat)
  | thopeifLinkFail (pkg link : Nat) (auth : Bool)
  | timeSync (offsets : List (Nat × Nat))
  | scrub (pkg : Nat) (mem : ScrubMem) (unit : Nat) (found : ScrubFind)
  | wearSample (pkg cluster index : Nat) (failing : Option Nat)
  | lifeRecompute (pkg : Nat)
  | securityAlarm (pkg : Nat) (src : AlarmSource) (vd : Option Nat)
  | olushOutput (pkg : Nat) (erase : Bool) (cluster val : Nat)
  | packageReset (pkg : Nat)
  | layerTemperatureChange (pkg massif layer band : Nat)
  deriving DecidableEq, Repr

end Sys2Proof
end

