-- ==== Sys2Proof/WellFormed.lean ====
section
/-! DEFINITION. Which instructions have an encoding: the operand ranges, type sets and modifier rows that each
instruction's description admits. An instruction that fails `Instr.wf` is one that raises ILLEGAL at issue (R50). -/

namespace Sys2Proof

namespace Ty
/-- The set I of R120. -/
def isInt : Ty → Bool
  | i8 | u8 | i16 | i32 => true
  | _ => false
/-- The set F of R120. -/
def isFloat : Ty → Bool
  | f16 | bf16 | f32 => true
  | _ => false
/-- The set Q of R120. -/
def isQ : Ty → Bool
  | e4m3 | e5m2 => true
  | _ => false
/-- The types of REDU and RETRACE (R184, R301). -/
def isReduTy : Ty → Bool
  | i32 | f16 | bf16 | f32 => true
  | _ => false
/-- Lane width in bits (R115); zero for `.bpi`, which has no lanes. -/
def width : Ty → Nat
  | i8 | u8 | e4m3 | e5m2 => 8
  | i16 | f16 | bf16 => 16
  | i32 | f32 => 32
  | bpi => 0
end Ty

namespace Sz
/-- Size in bytes (R40). -/
def bytes : Sz → Nat
  | b => 1 | h => 2 | w => 4 | d => 8
/-- Size in bits. -/
def bits (z : Sz) : Nat := 8 * z.bytes
end Sz

/-- Lanes of a size suffix (R115). -/
def Sz.lanes (z : Sz) : Nat := 1024 / z.bits

/-- A vector form's size suffix: `.b`, `.h` or `.w` (R115). -/
def laneSz (z : Sz) : Bool := z != .d

/-- Type and rounding of VADD, VSUB, VMUL, VFMA and VFMS (R120). -/
def wfArith (ty : Ty) (rm : Rm) : Bool := ty.isFloat || (ty.isInt && rm == .rne)

/-- Type set I or F (R120). -/
def wfIF (ty : Ty) : Bool := ty.isInt || ty.isFloat

/-- The floating condition codes of VCMP are 0 to 5 (R126). -/
def Cond.ordered : Cond → Bool
  | .eq | .ne | .lt | .ge | .gt | .le => true
  | _ => false

/-- A register window given by base code and length − 1 stays within the scalar or the vector codes (R204, R207). -/
def wfWindow (base lenm1 : Nat) : Bool := base + lenm1 ≤ 31 || (32 ≤ base && base + lenm1 ≤ 47)

/-- The assigned control register numbers (R351 and the maps of chapters 16, 20, 21 and 23). -/
def ctlNums : List Nat :=
  [0x000, 0x001, 0x002, 0x003, 0x004, 0x005, 0x006, 0x007, 0x008, 0x010, 0x011, 0x012, 0x013, 0x014, 0x015, 0x018,
   0x020, 0x021, 0x022, 0x023, 0x024, 0x025, 0x026, 0x028, 0x029, 0x030, 0x031, 0x032, 0x038, 0x039, 0x03A, 0x040,
   0x041, 0x042, 0x043, 0x044, 0x045] ++
  [0x080, 0x081, 0x082, 0x083, 0x088, 0x089, 0x08A, 0x090, 0x091, 0x092, 0x093, 0x094, 0x095, 0x096, 0x097, 0x098,
   0x0A0, 0x0B0, 0x0B1, 0x0B2]

/-- An unassigned register number raises ILLEGAL (R351). -/
def wfCtl (num : BitVec 10) : Bool := ctlNums.contains num.toNat

/-- RWAIT names two registers of one class, scalar or vector, in order (R220, R222). -/
def wfRwait : Reg → Reg → Bool
  | .s a, .s b => a ≤ b
  | .v a, .v b => a ≤ b
  | _, _ => false

/-- REDU's types and the RM and SA rows that each operation admits (R184, R197). -/
def wfRedu (ty : Ty) (rm : Rm) (sat : Bool) (op : ReduOp) : Bool :=
  ty.isReduTy && rm != .rs &&
  match op with
  | .add => ty.isFloat || rm == .rne
  | .max | .min => rm == .rne && !sat

/-- The planes read: RPL 0, or RPL + 1 not above p (R130). -/
def wfPlanes (pm2 rpl : BitVec 3) : Bool :=
  pm2.toNat ≤ 6 && (rpl.toNat == 0 || rpl.toNat + 1 ≤ pm2.toNat + 2)

/-- Whether an instruction has an encoding. A step of the part is not encoded at all; it is well formed as it stands. -/
def Instr.wf : Instr → Bool
  | .sext _ _ _ n | .zext _ _ _ n => 1 ≤ n.toNat && n.toNat ≤ 64
  | .vadd _ ty rm .. | .vsub _ ty rm .. | .vmul _ ty rm .. | .vfma _ ty rm .. | .vfms _ ty rm .. => wfArith ty rm
  | .vmulh _ ty .. => ty.isInt
  | .vmin _ ty .. | .vmax _ ty .. | .vredmax _ ty .. | .vredmin _ ty .. => wfIF ty
  | .vabs _ ty sat .. | .vneg _ ty sat .. => ty.isInt || (ty.isFloat && !sat)
  | .vand _ sz .. | .vor _ sz .. | .vxor _ sz .. | .vshl _ sz .. | .vshr _ sz .. | .vsar _ sz .. => laneSz sz
  | .vcmp _ ty _ _ _ _ cond => ty.isInt || (ty.isFloat && cond.ordered)
  | .vsel _ sz .. | .vbcast _ sz .. | .vshuf _ sz .. | .vpopc _ sz .. => laneSz sz
  | .vins _ sz _ _ i | .vext _ sz _ _ i => laneSz sz && i.toNat < sz.lanes
  | .vrot _ sz _ _ _ n => laneSz sz && n.toNat < sz.lanes
  | .vcvt _ dty sty .. => dty != .bpi && sty != .bpi
  | .vqnt _ sty _ _ pm2 .. => sty.isReduTy && pm2.toNat ≤ 6
  | .vdqnt _ ty rm sat _ pm2 rpl .. => (ty.isFloat || (ty == .i32 && rm == .rne && !sat)) && wfPlanes pm2 rpl
  | .vredsum _ ty rm .. => wfArith ty rm
  | .vscan _ ty rm sat .. => (ty.isInt && rm == .rne) || (ty.isFloat && !sat)
  | .vrcp _ ty .. | .vrsq _ ty .. | .vexp2 _ ty .. | .vlog2 _ ty .. => ty.isFloat
  | .vdot4 _ ty rm .. => ty.isQ || ((ty == .i8 || ty == .u8) && rm == .rne)
  | .vld _ sz .. | .vlds _ sz .. | .vst _ sz .. | .vsts _ sz .. | .vgath _ sz .. | .vscat _ sz .. => laneSz sz
  | .amo _ sz _ op _ _ _ _ c => (sz == .w || (sz == .d && op != .fadd)) && (op == .cas || c == .s 0)
  | .redu _ ty rm sat op .. => wfRedu ty rm sat op
  | .waitge _ sz .. => sz == .w || sz == .d
  | .pref _ _ b _ | .tflush _ _ b _ | .tinv _ _ b _ => b != some (.s 0)
  | .mintcap _ _ base lenm1 => wfWindow base.toNat lenm1.toNat
  | .landm _ base lenm1 mode => wfWindow base.toNat lenm1.toNat && mode.toNat != 3
  | .rwait _ a b => wfRwait a b
  | .cpy _ _ a | .cpynb _ _ a => a.val ≤ 28
  | .gathq _ sz .. => laneSz sz
  | .mcast _ _ a .. | .gathr _ _ a .. | .a2a _ _ a .. => a.val ≤ 28
  | .retrace _ _ a _ c ty _ land => a.val ≤ 29 && ty.isReduTy && (land || c == 0)
  | .hist _ sz .. | .histOvf _ sz .. => sz == .h || sz == .w
  | .mlda _ _ _ _ _ _ tr g pe | .mldb _ _ _ _ _ _ tr g pe =>
      g.toNat ≤ 4 && (tr || g.toNat == 0) && pe.toNat != 0
  | .mldacc _ _ _ _ pe => pe.toNat != 0
  | .mst _ _ _ _ _ _ pe | .mstq _ _ _ _ _ _ pe => pe.toNat != 0
  | .wfw _ d => d.val ≤ 28
  | .disp _ _ a .. => a.val ≤ 28
  | .ctlr _ _ num => wfCtl num
  | .ctlw _ num _ => wfCtl num
  | .tdef _ a .. => a.val ≤ 30
  | .tlbpin _ sc _ a => (sc == .k || sc == .m || sc == .g) && a.val ≤ 30
  | .tlbinv _ _ a b force => a.val ≤ 30 && (force || b == .s 0)
  | _ => true

end Sys2Proof
end

