-- ==== Sys2Proof/Decode.lean ====
section
/-! DEFINITION. Heads and tails (R37 to R41) and the opcode map (R49): a decoder, total on any units and rejecting by
name, and after it an encoder written from the same tables. Units are numbers below 65,536 taken apart by division. -/

namespace Sys2Proof

/-- Why units are not an instruction (the rows of R50 that a head can meet). -/
inductive DecErr where
  /-- No unit at all was given. -/
  | noUnits
  /-- The major opcode is unassigned (R49). -/
  | major
  /-- The minor opcode or the operand that F carries is out of range (R49, R50). -/
  | minor
  /-- TL is not the major's tail length, or the tail is not the stated length (R41). -/
  | tail
  /-- A reserved bit or an unused field is not zero (R38, R50). -/
  | reserved
  /-- A register code is reserved or of the wrong class (R38). -/
  | register
  /-- The modifier unit holds a reserved code (R40). -/
  | modifier
  /-- The instruction's own description excludes the operands. -/
  | operand
  deriving DecidableEq, Repr

/-- The result of decoding. -/
abbrev Dec (α : Type) := Except DecErr α

/-- Refuse with `e` unless `b` holds. -/
def req (b : Bool) (e : DecErr) : Dec Unit := if b then .ok () else .error e

/-- A field that must be zero (R50). -/
def zero (n : Nat) : Dec Unit := req (n == 0) .reserved

/-! ### Register codes (R38) -/

def Src.code : Src → Nat
  | .s r => r.val
  | .tags => 56
  | .time => 57

def Reg.code : Reg → Nat
  | .s r => r.val
  | .v r => r.val + 32
  | .p r => r.val + 48

def FullSrc.code : FullSrc → Nat
  | .reg r => r.code
  | .tags => 56
  | .time => 57

def CmpDst.code : CmpDst → Nat
  | .s r => r.val
  | .p r => r.val + 48

def vCode (r : VReg) : Nat := r.val + 32
def pCode (r : PReg) : Nat := r.val + 48

def decS (n : Nat) : Dec SReg := if h : n < 32 then .ok ⟨n, h⟩ else .error .register

def decV (n : Nat) : Dec VReg := if h : n - 32 < 16 ∧ 32 ≤ n then .ok ⟨n - 32, h.1⟩ else .error .register

def decP (n : Nat) : Dec PReg := if h : n - 48 < 8 ∧ 48 ≤ n then .ok ⟨n - 48, h.1⟩ else .error .register

def decSrc (n : Nat) : Dec Src :=
  if h : n < 32 then .ok (.s ⟨n, h⟩) else if n = 56 then .ok .tags else if n = 57 then .ok .time else .error .register

def decReg (n : Nat) : Dec Reg :=
  if h : n < 32 then .ok (.s ⟨n, h⟩)
  else if h : n - 32 < 16 then .ok (.v ⟨n - 32, h⟩)
  else if h : n - 48 < 8 then .ok (.p ⟨n - 48, h⟩)
  else .error .register

def decFull (n : Nat) : Dec FullSrc :=
  if n = 56 then .ok .tags else if n = 57 then .ok .time else do return .reg (← decReg n)

def decCmpDst (n : Nat) : Dec CmpDst :=
  if h : n < 32 then .ok (.s ⟨n, h⟩)
  else if h : n - 48 < 8 ∧ 48 ≤ n then .ok (.p ⟨n - 48, h.1⟩)
  else .error .register

/-- The optional length register of PREF, TFLUSH and TINV: B = 0 is none (R200). -/
def optCode : Option Src → Nat
  | none => 0
  | some b => b.code

def decOpt (n : Nat) : Dec (Option Src) := if n = 0 then .ok none else do return some (← decSrc n)

/-! ### Suffix and operand codes (R40, R92, R196, R197) -/

def Ty.code : Ty → Nat
  | .i8 => 1 | .u8 => 2 | .i16 => 3 | .i32 => 4 | .f16 => 5 | .bf16 => 6 | .f32 => 7 | .e4m3 => 8 | .e5m2 => 9 | .bpi => 10

def decTy : Nat → Dec Ty
  | 1 => .ok .i8 | 2 => .ok .u8 | 3 => .ok .i16 | 4 => .ok .i32 | 5 => .ok .f16 | 6 => .ok .bf16 | 7 => .ok .f32
  | 8 => .ok .e4m3 | 9 => .ok .e5m2 | 10 => .ok .bpi
  | _ => .error .modifier

def Rm.code : Rm → Nat
  | .rne => 0 | .rz => 1 | .ru => 2 | .rd => 3 | .rs => 4

def decRm : Nat → Dec Rm
  | 0 => .ok .rne | 1 => .ok .rz | 2 => .ok .ru | 3 => .ok .rd | 4 => .ok .rs
  | _ => .error .modifier

def Scope.code : Scope → Nat
  | .t => 0 | .c => 1 | .k => 2 | .m => 3 | .g => 4 | .s => 5

def decScope : Nat → Dec Scope
  | 0 => .ok .t | 1 => .ok .c | 2 => .ok .k | 3 => .ok .m | 4 => .ok .g | 5 => .ok .s
  | _ => .error .modifier

def Sz.code : Sz → Nat
  | .b => 0 | .h => 1 | .w => 2 | .d => 3

def decSz : Nat → Dec Sz
  | 0 => .ok .b | 1 => .ok .h | 2 => .ok .w | 3 => .ok .d
  | _ => .error .modifier

def Cond.code : Cond → Nat
  | .eq => 0 | .ne => 1 | .lt => 2 | .ge => 3 | .gt => 4 | .le => 5 | .ltu => 6 | .geu => 7 | .gtu => 8 | .leu => 9

def decCond : Nat → Dec Cond
  | 0 => .ok .eq | 1 => .ok .ne | 2 => .ok .lt | 3 => .ok .ge | 4 => .ok .gt | 5 => .ok .le | 6 => .ok .ltu
  | 7 => .ok .geu | 8 => .ok .gtu | 9 => .ok .leu
  | _ => .error .minor

def AmoOp.code : AmoOp → Nat
  | .swap => 0 | .add => 1 | .and => 2 | .or => 3 | .xor => 4 | .min => 5 | .max => 6 | .minu => 7 | .maxu => 8
  | .cas => 9 | .fadd => 10

def decAmoOp : Nat → Dec AmoOp
  | 0 => .ok .swap | 1 => .ok .add | 2 => .ok .and | 3 => .ok .or | 4 => .ok .xor | 5 => .ok .min | 6 => .ok .max
  | 7 => .ok .minu | 8 => .ok .maxu | 9 => .ok .cas | 10 => .ok .fadd
  | _ => .error .minor

def AmoOrd.code : AmoOrd → Nat
  | .rlx => 0 | .acq => 1 | .rel => 2 | .acqrel => 3

def decAmoOrd : Nat → Dec AmoOrd
  | 0 => .ok .rlx | 1 => .ok .acq | 2 => .ok .rel | 3 => .ok .acqrel
  | _ => .error .reserved

def ReduOp.code : ReduOp → Nat
  | .add => 0 | .max => 1 | .min => 2

def decReduOp : Nat → Dec ReduOp
  | 0 => .ok .add | 1 => .ok .max | 2 => .ok .min
  | _ => .error .minor

/-- A one-bit field. -/
def bit (n : Nat) : Bool := n % 2 == 1

/-! ### Units (R37, R39, R40, R43) -/

/-- The head (R37). -/
def mkHead (sw : Bool) (tl op d : Nat) : Nat := sw.toNat * 32768 + tl * 8192 + op * 64 + d
/-- The ABF unit (R39). -/
def mkAbf (a b f : Nat) : Nat := a * 1024 + b * 16 + f
/-- The C unit (R39). -/
def mkC (c e : Nat) : Nat := c * 1024 + e
/-- The M unit (R40). -/
def mkM (t rm sa sc pr sz : Nat) : Nat := t * 4096 + rm * 512 + sa * 256 + sc * 32 + pr * 4 + sz
/-- The BI unit (R43). -/
def mkBi (delta : BitVec 11) (h : BitVec 5) : Nat := delta.toNat * 32 + h.toNat

/-- A head with no tail, and with one, two and three tail units. -/
def enc0 (sw : Bool) (op d : Nat) : List Nat := [mkHead sw 0 op d]
def enc1 (sw : Bool) (op d u0 : Nat) : List Nat := [mkHead sw 1 op d, u0]
def enc2 (sw : Bool) (op d u0 u1 : Nat) : List Nat := [mkHead sw 2 op d, u0, u1]
def enc3 (sw : Bool) (op d u0 u1 u2 : Nat) : List Nat := [mkHead sw 3 op d, u0, u1, u2]

/-- A head's fields with its tail units as they stand. -/
structure Fields where
  sw : Bool
  tl : Nat
  op : Nat
  d : Nat
  u0 : Nat
  u1 : Nat
  u2 : Nat
  deriving DecidableEq, Repr

def headSw (h : Nat) : Bool := h / 32768 % 2 == 1
def headTl (h : Nat) : Nat := h / 8192 % 4
def headOp (h : Nat) : Nat := h / 64 % 128
def headD (h : Nat) : Nat := h % 64

def fieldsOf (h u0 u1 u2 : Nat) : Fields := ⟨headSw h, headTl h, headOp h, headD h, u0, u1, u2⟩

def abfA (u : Nat) : Nat := u / 1024 % 64
def abfB (u : Nat) : Nat := u / 16 % 64
def abfF (u : Nat) : Nat := u % 16
def cC (u : Nat) : Nat := u / 1024 % 64
def cE (u : Nat) : Nat := u % 1024
def mT (u : Nat) : Nat := u / 4096 % 16
def mRm (u : Nat) : Nat := u / 512 % 8
def mSa (u : Nat) : Nat := u / 256 % 2
def mSc (u : Nat) : Nat := u / 32 % 8
def mPr (u : Nat) : Nat := u / 4 % 8
def mSz (u : Nat) : Nat := u % 4
def biDelta (u : Nat) : BitVec 11 := BitVec.ofNat 11 (u / 32)
def biH (u : Nat) : BitVec 5 := BitVec.ofNat 5 (u % 32)

/-- The governing predicate that the PR row names (R40). -/
def decPr (n : Nat) : PReg := ⟨n % 8, Nat.mod_lt _ (by decide)⟩

/-- An imm16 (R39). -/
def imm16 (u : Nat) : BitVec 16 := BitVec.ofNat 16 u

/-- The W kind, two units, the lower first (R39). -/
def imm32 (u0 u1 : Nat) : BitVec 32 := BitVec.ofNat 32 (u0 + 65536 * u1)

namespace Fields
def a (f : Fields) : Nat := abfA f.u0
def b (f : Fields) : Nat := abfB f.u0
def f (f : Fields) : Nat := abfF f.u0
end Fields

/-- The tail length that R49 gives each assigned major; none for an unassigned one. -/
def majorTail (op : Nat) : Option Nat :=
  if op < 0x10 then
    match op with
    | 0x00 => some 0 | 0x01 => some 1 | 0x02 => some 2 | 0x03 => some 1 | 0x04 => some 1 | 0x05 => some 1 | 0x06 => some 2
    | 0x07 => some 1 | 0x08 => some 0
    | _ => none
  else if op < 0x30 then
    match op with
    | 0x10 => some 1 | 0x11 => some 1 | 0x12 => some 1 | 0x13 => some 2 | 0x14 => some 2 | 0x15 => some 1 | 0x16 => some 2
    | 0x17 => some 1 | 0x18 => some 2 | 0x19 => some 1 | 0x1A => some 2 | 0x1B => some 2 | 0x1C => some 1 | 0x1D => some 2
    | 0x1E => some 1
    | _ => none
  else if op < 0x50 then
    match op with
    | 0x30 => some 2 | 0x31 => some 3 | 0x32 => some 2 | 0x33 => some 2 | 0x34 => some 2 | 0x35 => some 2 | 0x36 => some 2
    | 0x37 => some 2 | 0x38 => some 3 | 0x39 => some 2 | 0x3A => some 3 | 0x3B => some 2 | 0x3C => some 3 | 0x3D => some 2
    | 0x3E => some 2 | 0x3F => some 3 | 0x40 => some 2
    | _ => none
  else if op < 0x60 then
    match op with
    | 0x50 => some 3 | 0x51 => some 3 | 0x52 => some 3 | 0x53 => some 3 | 0x54 => some 3 | 0x55 => some 3 | 0x56 => some 3
    | 0x57 => some 2 | 0x58 => some 3 | 0x59 => some 2 | 0x5A => some 3
    | _ => none
  else if op < 0x70 then
    match op with
    | 0x60 => some 3 | 0x61 => some 2 | 0x62 => some 1 | 0x63 => some 1 | 0x64 => some 2 | 0x68 => some 1 | 0x69 => some 1
    | 0x6A => some 1 | 0x6B => some 1 | 0x6C => some 2 | 0x6D => some 1
    | _ => none
  else
    match op with
    | 0x70 => some 1 | 0x71 => some 2 | 0x72 => some 2 | 0x73 => some 1 | 0x74 => some 1 | 0x75 => some 2 | 0x76 => some 1
    | 0x78 => some 2 | 0x79 => some 3 | 0x7A => some 1 | 0x7B => some 3 | 0x7C => some 2 | 0x7D => some 2 | 0x7E => some 2
    | _ => none

/-! ### Control (R101) -/

def decBr (x : Fields) : Dec Instr := do
  zero x.d; return .br x.sw (biDelta x.u0) (biH x.u0)

def decBrz (x : Fields) : Dec Instr := do
  zero x.d; zero x.b
  let a ← decSrc x.a
  match x.f with
  | 0 => return .brz x.sw a (biDelta x.u1) (biH x.u1)
  | 1 => return .brnz x.sw a (biDelta x.u1) (biH x.u1)
  | _ => .error .minor

def decJmp (x : Fields) : Dec Instr := do
  zero x.d; zero x.b; zero x.f; return .jmp x.sw (← decSrc x.a)

def decJal (x : Fields) : Dec Instr := do
  return .jal x.sw (← decS x.d) (biDelta x.u0) (biH x.u0)

def decJalr (x : Fields) : Dec Instr := do
  zero x.b; zero x.f; return .jalr x.sw (← decS x.d) (← decSrc x.a)

def decLoop (x : Fields) : Dec Instr := do
  zero x.d; zero x.b; req (x.f < 2) .minor
  return .loop x.sw (bit x.f) (← decSrc x.a) (biDelta x.u1) (biH x.u1)

def decLbrk (x : Fields) : Dec Instr := do
  zero x.d; zero x.a; zero x.b; req (x.f < 2) .minor; return .lbrk x.sw (bit x.f)

/-! ### Scalar, address and predicate (R85 to R100) -/

def decInt (x : Fields) : Dec Instr := do
  let d ← decS x.d; let a ← decSrc x.a; let b ← decSrc x.b
  match x.f with
  | 0 => return .add x.sw d a b
  | 1 => return .sub x.sw d a b
  | 2 => return .and x.sw d a b
  | 3 => return .or x.sw d a b
  | 4 => return .xor x.sw d a b
  | 5 => return .andn x.sw d a b
  | 6 => return .shl x.sw d a b
  | 7 => return .shr x.sw d a b
  | 8 => return .sar x.sw d a b
  | 9 => return .rotl x.sw d a b
  | 10 => return .min x.sw d a b
  | 11 => return .max x.sw d a b
  | 12 => return .minu x.sw d a b
  | 13 => return .maxu x.sw d a b
  | _ => .error .minor

def decMulDiv (x : Fields) : Dec Instr := do
  let d ← decS x.d; let a ← decSrc x.a; let b ← decSrc x.b
  match x.f with
  | 0 => return .mul x.sw d a b
  | 1 => return .mulh x.sw d a b
  | 2 => return .mulhu x.sw d a b
  | 3 => return .div x.sw d a b
  | 4 => return .divu x.sw d a b
  | 5 => return .rem x.sw d a b
  | 6 => return .remu x.sw d a b
  | _ => .error .minor

def decUnary (x : Fields) : Dec Instr := do
  let d ← decS x.d; let a ← decSrc x.a; zero x.b
  match x.f with
  | 0 => return .clz x.sw d a
  | 1 => return .ctz x.sw d a
  | 2 => return .popc x.sw d a
  | 3 => return .mov x.sw d a
  | _ => .error .minor

def decExtend (x : Fields) : Dec Instr := do
  let d ← decS x.d; let a ← decSrc x.a; zero x.b; req (x.u1 < 128) .reserved
  match x.f with
  | 0 => return .sext x.sw d a (BitVec.ofNat 7 x.u1)
  | 1 => return .zext x.sw d a (BitVec.ofNat 7 x.u1)
  | _ => .error .minor

def decImm (x : Fields) : Dec Instr := do
  let d ← decS x.d; let a ← decSrc x.a; zero x.b
  match x.f with
  | 0 => return .addi x.sw d a (imm16 x.u1)
  | 1 => return .andi x.sw d a (imm16 x.u1)
  | 2 => return .ori x.sw d a (imm16 x.u1)
  | 3 => return .xori x.sw d a (imm16 x.u1)
  | _ => .error .minor

def decCmp (x : Fields) : Dec Instr := do
  return .cmp x.sw (← decCmpDst x.d) (← decSrc x.a) (← decSrc x.b) (← decCond x.f)

def decCmpi (x : Fields) : Dec Instr := do
  zero x.b; return .cmpi x.sw (← decCmpDst x.d) (← decSrc x.a) (imm16 x.u1) (← decCond x.f)

def decSel (x : Fields) : Dec Instr := do
  req (x.f < 8) .minor
  return .sel x.sw (← decS x.d) (← decSrc x.a) (← decSrc x.b) (decPr x.f)

def decBits (x : Fields) : Dec Instr := do
  let d ← decS x.d; let a ← decSrc x.a; req (x.u1 < 4096) .reserved
  match x.f with
  | 0 => do zero x.b; return .bfx x.sw d a (BitVec.ofNat 6 (x.u1 % 64)) (BitVec.ofNat 6 (x.u1 / 64))
  | 1 => do return .bfi x.sw d a (← decSrc x.b) (BitVec.ofNat 6 (x.u1 % 64)) (BitVec.ofNat 6 (x.u1 / 64))
  | _ => .error .minor

def decPtr (x : Fields) : Dec Instr := do
  let d ← decS x.d; let a ← decSrc x.a
  match x.f with
  | 0 => do return .padd x.sw d a (← decSrc x.b)
  | 1 => do return .pidx x.sw d a (← decSrc x.b)
  | 2 => do zero x.b; return .pstrip x.sw d a
  | 3 => do zero x.b; return .pget x.sw d a
  | 4 => do return .pfmt x.sw d a (← decSrc x.b)
  | _ => .error .minor

def decPaddi (x : Fields) : Dec Instr := do
  zero x.b; zero x.f; return .paddi x.sw (← decS x.d) (← decSrc x.a) (imm16 x.u1)

def decPred (x : Fields) : Dec Instr := do
  let a ← decP x.a
  match x.f with
  | 0 => do return .pand x.sw (← decP x.d) a (← decP x.b)
  | 1 => do return .por x.sw (← decP x.d) a (← decP x.b)
  | 2 => do return .pxor x.sw (← decP x.d) a (← decP x.b)
  | 3 => do zero x.b; return .pnot x.sw (← decP x.d) a
  | 4 => do zero x.b; return .pmov x.sw (← decP x.d) a
  | 5 => do zero x.b; return .pcnt x.sw (← decS x.d) a
  | 6 => do zero x.b; return .pfirst x.sw (← decS x.d) a
  | _ => .error .minor

/-! ### Vector (R119, R120) -/

/-- The M unit of a typed vector form: T, RM, SA and PR may stand, SC and SZ are zero. -/
def typedM (u : Nat) : Dec (Ty × Rm × Bool × PReg) := do
  zero (mSc u); zero (mSz u)
  return (← decTy (mT u), ← decRm (mRm u), bit (mSa u), decPr (mPr u))

/-- The M unit of a typed vector form that takes no RM: SA may stand. -/
def typedSatM (u : Nat) : Dec (Ty × Bool × PReg) := do
  zero (mSc u); zero (mSz u); zero (mRm u)
  return (← decTy (mT u), bit (mSa u), decPr (mPr u))

/-- The M unit of a typed vector form that takes neither RM nor SA. -/
def typedPlainM (u : Nat) : Dec (Ty × PReg) := do
  zero (mSc u); zero (mSz u); zero (mRm u); zero (mSa u)
  return (← decTy (mT u), decPr (mPr u))

/-- The M unit of an untyped form with a predicate: only SZ and PR may stand. -/
def sizedM (u : Nat) : Dec (Sz × PReg) := do
  zero (mT u); zero (mRm u); zero (mSa u); zero (mSc u)
  return (← decSz (mSz u), decPr (mPr u))

/-- The M unit of an untyped form without a predicate. -/
def sizeOnlyM (u : Nat) : Dec Sz := do
  zero (mT u); zero (mRm u); zero (mSa u); zero (mSc u); zero (mPr u)
  decSz (mSz u)

/-- The M unit of a scoped form: SC and SZ may stand. -/
def scopedM (u : Nat) : Dec (Sz × Scope) := do
  zero (mT u); zero (mRm u); zero (mSa u); zero (mPr u)
  return (← decSz (mSz u), ← decScope (mSc u))

/-- An M unit in which only SC may stand. -/
def scopeOnlyM (u : Nat) : Dec Scope := do
  zero (mT u); zero (mRm u); zero (mSa u); zero (mPr u); zero (mSz u)
  decScope (mSc u)

/-- An M unit in which RM and SA may stand. -/
def roundM (u : Nat) : Dec (Rm × Bool) := do
  zero (mT u); zero (mSc u); zero (mPr u); zero (mSz u)
  return (← decRm (mRm u), bit (mSa u))

def decVarith (x : Fields) : Dec Instr := do
  let d ← decV x.d; let a ← decV x.a; let b ← decV x.b
  match x.f with
  | 0 => do let (ty, rm, sat, pg) ← typedM x.u1; return .vadd x.sw ty rm sat pg d a b
  | 1 => do let (ty, rm, sat, pg) ← typedM x.u1; return .vsub x.sw ty rm sat pg d a b
  | 2 => do let (ty, rm, sat, pg) ← typedM x.u1; return .vmul x.sw ty rm sat pg d a b
  | 3 => do let (ty, pg) ← typedPlainM x.u1; return .vmulh x.sw ty pg d a b
  | 4 => do let (ty, pg) ← typedPlainM x.u1; return .vmin x.sw ty pg d a b
  | 5 => do let (ty, pg) ← typedPlainM x.u1; return .vmax x.sw ty pg d a b
  | _ => .error .minor

def decVfma (x : Fields) : Dec Instr := do
  let d ← decV x.d; let a ← decV x.a; let b ← decV x.b
  let c ← decV (cC x.u1); zero (cE x.u1)
  let (ty, rm, sat, pg) ← typedM x.u2
  match x.f with
  | 0 => return .vfma x.sw ty rm sat pg d a b c
  | 1 => return .vfms x.sw ty rm sat pg d a b c
  | _ => .error .minor

def decVabs (x : Fields) : Dec Instr := do
  let d ← decV x.d; let a ← decV x.a; zero x.b
  let (ty, sat, pg) ← typedSatM x.u1
  match x.f with
  | 0 => return .vabs x.sw ty sat pg d a
  | 1 => return .vneg x.sw ty sat pg d a
  | _ => .error .minor

def decVlogic (x : Fields) : Dec Instr := do
  let d ← decV x.d; let a ← decV x.a; let b ← decV x.b
  let (sz, pg) ← sizedM x.u1
  match x.f with
  | 0 => return .vand x.sw sz pg d a b
  | 1 => return .vor x.sw sz pg d a b
  | 2 => return .vxor x.sw sz pg d a b
  | _ => .error .minor

def decVshift (x : Fields) : Dec Instr := do
  let d ← decV x.d; let a ← decV x.a; let b ← decV x.b
  let (sz, pg) ← sizedM x.u1
  match x.f with
  | 0 => return .vshl x.sw sz pg d a b
  | 1 => return .vshr x.sw sz pg d a b
  | 2 => return .vsar x.sw sz pg d a b
  | _ => .error .minor

def decVcmp (x : Fields) : Dec Instr := do
  let d ← decP x.d; let a ← decV x.a; let b ← decV x.b; let cond ← decCond x.f
  let (ty, pg) ← typedPlainM x.u1
  return .vcmp x.sw ty pg d a b cond

def decVsel (x : Fields) : Dec Instr := do
  let d ← decV x.d; let a ← decV x.a; let b ← decV x.b; zero x.f
  let (sz, pn) ← sizedM x.u1
  return .vsel x.sw sz pn d a b

def decVbcast (x : Fields) : Dec Instr := do
  let d ← decV x.d; let a ← decSrc x.a; zero x.b; zero x.f
  let (sz, pg) ← sizedM x.u1
  return .vbcast x.sw sz pg d a

def decVins (x : Fields) : Dec Instr := do
  zero x.b
  let sz ← sizeOnlyM x.u2
  match x.f with
  | 0 => do return .vins x.sw sz (← decV x.d) (← decSrc x.a) (imm16 x.u1)
  | 1 => do return .vext x.sw sz (← decS x.d) (← decV x.a) (imm16 x.u1)
  | _ => .error .minor

def decVshuf (x : Fields) : Dec Instr := do
  let d ← decV x.d; let a ← decV x.a; let b ← decV x.b; zero x.f
  let (sz, pg) ← sizedM x.u1
  return .vshuf x.sw sz pg d a b

def decVrot (x : Fields) : Dec Instr := do
  let d ← decV x.d; let a ← decV x.a; zero x.b; zero x.f
  let (sz, pg) ← sizedM x.u2
  return .vrot x.sw sz pg d a (imm16 x.u1)

def decVcvt (x : Fields) : Dec Instr := do
  let d ← decV x.d; let a ← decV x.a; zero x.b
  let sty ← decTy x.f
  let (dty, rm, sat, pg) ← typedM x.u1
  return .vcvt x.sw dty sty rm sat pg d a

def decVqnt (x : Fields) : Dec Instr := do
  let d ← decV x.d; let a ← decV x.a; zero x.b
  let e := cE x.u1
  match x.f with
  | 0 => do
    zero (cC x.u1); zero (e / 8 % 8)
    let sty ← decTy (e / 64)
    let (ty, rm, sat, pg) ← typedM x.u2
    req (ty == .bpi && !sat) .modifier
    return .vqnt x.sw sty rm pg (BitVec.ofNat 3 (e % 8)) d a
  | 1 => do
    let c ← decSrc (cC x.u1)
    zero (e / 64)
    let (ty, rm, sat, pg) ← typedM x.u2
    return .vdqnt x.sw ty rm sat pg (BitVec.ofNat 3 (e % 8)) (BitVec.ofNat 3 (e / 8)) d a c
  | _ => .error .minor

def decVred (x : Fields) : Dec Instr := do
  let a ← decV x.a; zero x.b
  match x.f with
  | 0 => do
    let d ← decS x.d
    let (ty, rm, sat, pg) ← typedM x.u1
    req (!sat) .modifier
    return .vredsum x.sw ty rm pg d a
  | 1 => do let d ← decS x.d; let (ty, pg) ← typedPlainM x.u1; return .vredmax x.sw ty pg d a
  | 2 => do let d ← decS x.d; let (ty, pg) ← typedPlainM x.u1; return .vredmin x.sw ty pg d a
  | 3 => do let d ← decV x.d; let (ty, rm, sat, pg) ← typedM x.u1; return .vscan x.sw ty rm sat pg d a
  | _ => .error .minor

def decVspecial (x : Fields) : Dec Instr := do
  let d ← decV x.d; let a ← decV x.a; zero x.b
  let (ty, rm, sat, pg) ← typedM x.u1
  match x.f with
  | 0 => return .vrcp x.sw ty rm sat pg d a
  | 1 => return .vrsq x.sw ty rm sat pg d a
  | 2 => return .vexp2 x.sw ty rm sat pg d a
  | 3 => return .vlog2 x.sw ty rm sat pg d a
  | _ => .error .minor

def decVdot4 (x : Fields) : Dec Instr := do
  let d ← decV x.d; let a ← decV x.a; let b ← decV x.b; zero x.f
  let c ← decV (cC x.u1); zero (cE x.u1)
  let (ty, rm, sat, pg) ← typedM x.u2
  return .vdot4 x.sw ty rm sat pg d a b c

def decVpopc (x : Fields) : Dec Instr := do
  let d ← decV x.d; let a ← decV x.a; zero x.b; zero x.f
  let (sz, pg) ← sizedM x.u1
  return .vpopc x.sw sz pg d a

/-! ### Memory (R183, R184) -/

def decLd (x : Fields) : Dec Instr := do
  let d ← decS x.d; let a ← decSrc x.a; zero x.b
  let (sz, sc) ← scopedM x.u2
  match x.f with
  | 0 => do zero (mSc x.u2); return .ld x.sw sz d a (imm16 x.u1)
  | 1 => return .lda x.sw sz sc d a (imm16 x.u1)
  | _ => .error .minor

def decSt (x : Fields) : Dec Instr := do
  zero x.d
  let a ← decSrc x.a; let b ← decSrc x.b
  let (sz, sc) ← scopedM x.u2
  match x.f with
  | 0 => do zero (mSc x.u2); return .st x.sw sz a b (imm16 x.u1)
  | 1 => return .stl x.sw sz sc a b (imm16 x.u1)
  | _ => .error .minor

def decVld (x : Fields) : Dec Instr := do
  let d ← decV x.d; let a ← decSrc x.a; zero x.b
  let (sz, pg) ← sizedM x.u2
  match x.f with
  | 0 => return .vld x.sw sz pg d a (imm16 x.u1)
  | 1 => return .vlds x.sw sz pg d a (imm16 x.u1)
  | _ => .error .minor

def decVst (x : Fields) : Dec Instr := do
  zero x.d
  let a ← decSrc x.a; let b ← decV x.b
  let (sz, pg) ← sizedM x.u2
  match x.f with
  | 0 => return .vst x.sw sz pg a b (imm16 x.u1)
  | 1 => return .vsts x.sw sz pg a b (imm16 x.u1)
  | _ => .error .minor

def decVgath (x : Fields) : Dec Instr := do
  let a ← decSrc x.a
  let c ← decV (cC x.u1); zero (cE x.u1)
  let (sz, pg) ← sizedM x.u2
  match x.f with
  | 0 => do zero x.b; return .vgath x.sw sz pg (← decV x.d) a c
  | 1 => do zero x.d; return .vscat x.sw sz pg a (← decV x.b) c
  | _ => .error .minor

def decSync (x : Fields) : Dec Instr := do
  let a ← decSrc x.a
  let (sz, sc) ← scopedM x.u2
  req (sz == .d) .modifier
  match x.f with
  | 0 => do zero x.b; return .ldf x.sw sc (← decS x.d) a (imm16 x.u1)
  | 1 => do zero x.d; return .ste x.sw sc a (← decSrc x.b) (imm16 x.u1)
  | 2 => do zero (mSc x.u2); return .ldfp x.sw (← decS x.d) (← decP x.b) a (imm16 x.u1)
  | 3 => do zero (mSc x.u2); zero x.d; return .setfe x.sw a (← decSrc x.b) (imm16 x.u1)
  | _ => .error .minor

def decAmo (x : Fields) : Dec Instr := do
  let d ← decS x.d; let a ← decSrc x.a; let b ← decSrc x.b; let c ← decSrc (cC x.u1)
  let op ← decAmoOp x.f; let ord ← decAmoOrd (cE x.u1)
  let (sz, sc) ← scopedM x.u2
  return .amo x.sw sz sc op ord d a b c

def decRedu (x : Fields) : Dec Instr := do
  zero x.d
  let a ← decSrc x.a; let b ← decSrc x.b; let op ← decReduOp x.f
  zero (mPr x.u1)
  let (ty, rm, sat, _) ← typedM x.u1
  return .redu x.sw ty rm sat op a b

def decWaitge (x : Fields) : Dec Instr := do
  zero x.f
  let d ← decS x.d; let a ← decSrc x.a; let b ← decSrc x.b
  let (sz, sc) ← scopedM x.u2
  return .waitge x.sw sz sc d a b (imm16 x.u1)

def decFence (x : Fields) : Dec Instr := do
  zero x.d; zero x.u0; return .fence x.sw (← scopeOnlyM x.u1)

def decTiles (x : Fields) : Dec Instr := do
  zero x.d; zero x.u2
  let a ← decSrc x.a; let b ← decOpt x.b
  match x.f with
  | 0 => return .pref x.sw a b (imm16 x.u1)
  | 1 => return .tflush x.sw a b (imm16 x.u1)
  | 2 => return .tinv x.sw a b (imm16 x.u1)
  | _ => .error .minor

/-! ### Register fabric, copies, tags and collectives (R207 to R222, R263 to R279) -/

def decSend (x : Fields) : Dec Instr := do
  zero x.d; req (x.u1 < 16) .reserved
  let a ← decSrc x.a
  let sc ← scopeOnlyM x.u2
  match x.f with
  | 0 => do zero x.u2; return .send x.sw a (← decSrc x.b) (BitVec.ofNat 4 x.u1)
  | 1 => do zero x.u2; return .sendv x.sw a (← decV x.b) (BitVec.ofNat 4 x.u1)
  | 2 => do return .sendr x.sw sc a (← decSrc x.b) (BitVec.ofNat 4 x.u1)
  | _ => .error .minor

def decMintcap (x : Fields) : Dec Instr := do
  zero x.u0; req (x.u1 < 1024) .reserved
  return .mintcap x.sw (← decS x.d) (BitVec.ofNat 6 (x.u1 % 64)) (BitVec.ofNat 4 (x.u1 / 64))

def decRevcap (x : Fields) : Dec Instr := do
  zero x.u0; return .revcap x.sw (← decS x.d)

def decPresence (x : Fields) : Dec Instr :=
  match x.f with
  | 0 => do zero x.a; zero x.b; return .rclr x.sw (← decReg x.d)
  | 1 => do zero x.b; return .rfull x.sw (← decS x.d) (← decFull x.a)
  | 2 => do zero x.d; return .rwait x.sw (← decReg x.a) (← decReg x.b)
  | _ => .error .minor

def decLandm (x : Fields) : Dec Instr := do
  zero x.d; zero x.u0; req (x.u1 < 4096) .reserved
  return .landm x.sw (BitVec.ofNat 6 (x.u1 % 64)) (BitVec.ofNat 4 (x.u1 / 64)) (BitVec.ofNat 2 (x.u1 / 1024))

def decCpy (x : Fields) : Dec Instr := do
  let d ← decS x.d; let a ← decS x.a; zero x.b
  match x.f with
  | 0 => return .cpy x.sw d a
  | 1 => return .cpynb x.sw d a
  | _ => .error .minor

def decCpyc (x : Fields) : Dec Instr := do
  let d ← decS x.d; let a ← decSrc x.a; zero x.b
  match x.f with
  | 0 => return .cpyc x.sw d a
  | 1 => return .cpyq x.sw d a
  | _ => .error .minor

def decTags (x : Fields) : Dec Instr := do
  let a ← decSrc x.a; zero x.b
  match x.f with
  | 0 => do return .twany x.sw (← decS x.d) a
  | 1 => do return .twall x.sw (← decS x.d) a
  | 2 => do return .tffr x.sw (← decS x.d) a
  | 3 => do zero x.d; return .tclr x.sw a
  | _ => .error .minor

def decPbinv (x : Fields) : Dec Instr := do
  zero x.d; zero x.b; zero x.f; return .pbinv x.sw (← decSrc x.a)

def decGathq (x : Fields) : Dec Instr := do
  zero x.f
  let d ← decV x.d; let a ← decSrc x.a; let b ← decV x.b
  let (sz, pg) ← sizedM x.u1
  return .gathq x.sw sz pg d a b

def decPlan (x : Fields) : Dec Instr := do
  let a ← decSrc x.a
  match x.f with
  | 0 => do zero x.b; return .planset x.sw (← decS x.d) a
  | 1 => do zero x.d; return .planfire x.sw a (← decSrc x.b)
  | 2 => do zero x.d; zero x.b; return .plandrop x.sw a
  | _ => .error .minor

/-! ### Sillage and expert routing (R288 to R322) -/

def decTape (x : Fields) : Dec Instr := do
  let a ← decSrc x.a; zero x.b
  match x.f with
  | 0 => do return .tapeopen x.sw (← decS x.d) a
  | 1 => do zero x.d; return .tapeclose x.sw a
  | 2 => do zero x.d; return .tapefree x.sw a
  | 3 => do return .tapeq x.sw (← decS x.d) a
  | _ => .error .minor

def decSillage (x : Fields) : Dec Instr := do
  let a ← decS x.a; let b ← decSrc x.b
  req (x.u1 < 8) .reserved
  let tag := BitVec.ofNat 6 x.d
  let cls := BitVec.ofNat 2 (x.u1 / 2)
  match x.f with
  | 0 => return .mcast x.sw tag a b cls (bit x.u1)
  | 1 => return .gathr x.sw tag a b cls (bit x.u1)
  | 2 => return .a2a x.sw tag a b cls (bit x.u1)
  | _ => .error .minor

def decRetrace (x : Fields) : Dec Instr := do
  zero x.f
  let a ← decS x.a; let b ← decSrc x.b; let c ← decS (cC x.u1)
  let e := cE x.u1
  zero (e / 128)
  let ty ← decTy (e % 16)
  return .retrace x.sw (BitVec.ofNat 6 x.d) a b c ty (BitVec.ofNat 2 (e / 16)) (bit (e / 64))

def decGenbump (x : Fields) : Dec Instr := do
  zero x.b; zero x.f; return .genbump x.sw (← decS x.d) (← decSrc x.a)

def decHeap (x : Fields) : Dec Instr := do
  let a ← decSrc x.a
  match x.f with
  | 0 => do zero x.d; return .hsinit x.sw a (← decSrc x.b)
  | 1 => do return .hsift x.sw (← decS x.d) a (← decSrc x.b)
  | 2 => do zero x.b; return .hpop x.sw (← decS x.d) a
  | _ => .error .minor

def decHist (x : Fields) : Dec Instr := do
  zero x.d
  let a ← decSrc x.a; let b ← decV x.b
  let (sz, pg) ← sizedM x.u1
  match x.f with
  | 0 => return .hist x.sw sz pg a b
  | 1 => return .histOvf x.sw sz pg a b
  | _ => .error .minor

def decRemap (x : Fields) : Dec Instr := do
  zero x.d
  let a ← decSrc x.a
  match x.f with
  | 0 => do return .remapw x.sw a (← decSrc x.b)
  | 1 => do zero x.b; return .remapx x.sw a
  | _ => .error .minor

/-! ### Matrix (R150, R154): D is a tag number -/

def decMcfg (x : Fields) : Dec Instr := do
  zero x.b
  let tag := BitVec.ofNat 6 x.d
  match x.f with
  | 0 => do zero x.u1; return .mcfg x.sw tag (← decSrc x.a)
  | 1 => do zero x.a; req (x.u1 < 256) .reserved; return .mzero x.sw tag (BitVec.ofNat 8 x.u1)
  | _ => .error .minor

def decMld (x : Fields) : Dec Instr := do
  zero x.u2
  let tag := BitVec.ofNat 6 x.d
  let a ← decSrc x.a
  let u := x.u1
  let g := BitVec.ofNat 3 (u / 1024)
  let pe := BitVec.ofNat 10 (u % 1024)
  match x.f with
  | 0 => do return .mlda x.sw tag a (← decSrc x.b) (bit (u / 32768)) (bit (u / 16384)) (bit (u / 8192)) g pe
  | 1 => do return .mldb x.sw tag a (← decSrc x.b) (bit (u / 32768)) (bit (u / 16384)) (bit (u / 8192)) g pe
  | 2 => do zero x.b; req (u < 8192) .reserved; return .mldacc x.sw tag a g pe
  | _ => .error .minor

def decMma (x : Fields) : Dec Instr := do
  req (x.a < 8) .reserved
  req (x.b < 4) .reserved
  let tag := BitVec.ofNat 6 x.d
  let acc := BitVec.ofNat 3 x.a
  match x.f with
  | 0 => return .mmap x.sw tag acc (bit x.b) (bit (x.b / 2))
  | 1 => return .mmah x.sw tag acc (bit x.b) (bit (x.b / 2))
  | 2 => return .mmas x.sw tag acc (bit x.b) (bit (x.b / 2))
  | _ => .error .minor

def decMst (x : Fields) : Dec Instr := do
  let tag := BitVec.ofNat 6 x.d
  let a ← decSrc x.a
  let u := x.u1
  let acc := BitVec.ofNat 3 (u / 8192)
  let pe := BitVec.ofNat 10 (u % 1024)
  zero (u / 1024 % 8)
  let (rm, sat) ← roundM x.u2
  match x.f with
  | 0 => do zero x.b; return .mst x.sw tag rm sat a acc pe
  | 1 => do zero (mSa x.u2); return .mstq x.sw tag rm a (← decSrc x.b) acc pe
  | 2 => do zero x.b; zero (u % 1024); return .mscl x.sw tag rm sat a acc
  | _ => .error .minor

/-! ### Scheduling and system (R339, R343, R351, R360, R411, R413) -/

def decSched (x : Fields) : Dec Instr := do
  let u := x.u1
  match x.f with
  | 0 => do zero x.a; zero x.b; zero u; return .wfw x.sw (← decS x.d)
  | 1 => do
    zero x.b; req (u < 64) .reserved
    return .disp x.sw (← decS x.d) (← decS x.a) (BitVec.ofNat 3 (u % 8)) (← decScope (u / 8))
  | 2 => do zero x.d; zero x.b; zero u; return .prog x.sw (← decSrc x.a)
  | 3 => do zero x.d; zero x.b; zero (u % 8); return .ckpt x.sw (← decScope (u / 8)) (← decSrc x.a)
  | 4 => do zero x.d; zero x.b; zero u; return .sleep x.sw (← decSrc x.a)
  | _ => .error .minor

def decBar (x : Fields) : Dec Instr := do
  zero x.a; zero x.b
  let u := x.u1
  let n := BitVec.ofNat 7 (u % 128)
  match x.f with
  | 0 => do req (u < 32768) .reserved; return .bararv x.sw (← decScope x.d) n (BitVec.ofNat 8 (u / 128))
  | 1 => do req (u < 128) .reserved; return .barwt x.sw (← decScope x.d) n
  | 2 => do req (u < 32768) .reserved; return .barsync x.sw (← decScope x.d) n (BitVec.ofNat 8 (u / 128))
  | 3 => do zero x.d; return .trap x.sw (imm16 u)
  | 4 => do zero x.d; zero u; return .eret x.sw
  | _ => .error .minor

def decSys (x : Fields) : Dec Instr := do
  let u := x.u1
  match x.f with
  | 0 => do zero x.a; zero x.b; req (u < 1024) .reserved; return .ctlr x.sw (← decS x.d) (BitVec.ofNat 10 u)
  | 1 => do zero x.d; zero x.b; req (u < 1024) .reserved; return .ctlw x.sw (BitVec.ofNat 10 u) (← decSrc x.a)
  | 2 => do
    zero x.d; req (u < 16384) .reserved
    return .tdef x.sw (← decS x.a) (← decSrc x.b) (BitVec.ofNat 2 (u / 4096)) (BitVec.ofNat 12 (u % 4096))
  | 3 => do
    zero x.b; zero (u % 8)
    return .tlbpin x.sw (← decScope (u / 8)) (← decS x.d) (← decS x.a)
  | 4 => do
    req (u < 2) .reserved
    return .tlbinv x.sw (← decS x.d) (← decS x.a) (← decSrc x.b) (bit u)
  | _ => .error .minor

/-! ### The whole map (R49) -/

def decBody (x : Fields) : Dec Instr :=
  if x.op < 0x10 then
    match x.op with
    | 0x00 => do zero x.d; return .nop x.sw
    | 0x01 => decBr x
    | 0x02 => decBrz x
    | 0x03 => decJmp x
    | 0x04 => decJal x
    | 0x05 => decJalr x
    | 0x06 => decLoop x
    | 0x07 => decLbrk x
    | 0x08 => do zero x.d; return .halt x.sw
    | _ => .error .major
  else if x.op < 0x30 then
    match x.op with
    | 0x10 => decInt x
    | 0x11 => decMulDiv x
    | 0x12 => decUnary x
    | 0x13 => decExtend x
    | 0x14 => decImm x
    | 0x15 => decCmp x
    | 0x16 => decCmpi x
    | 0x17 => decSel x
    | 0x18 => decBits x
    | 0x19 => do return .li x.sw (← decS x.d) (imm16 x.u0)
    | 0x1A => do return .liw x.sw (← decS x.d) (imm32 x.u0 x.u1)
    | 0x1B => do return .lix x.sw (← decS x.d) (imm32 x.u0 x.u1)
    | 0x1C => decPtr x
    | 0x1D => decPaddi x
    | 0x1E => decPred x
    | _ => .error .major
  else if x.op < 0x50 then
    match x.op with
    | 0x30 => decVarith x
    | 0x31 => decVfma x
    | 0x32 => decVabs x
    | 0x33 => decVlogic x
    | 0x34 => decVshift x
    | 0x35 => decVcmp x
    | 0x36 => decVsel x
    | 0x37 => decVbcast x
    | 0x38 => decVins x
    | 0x39 => decVshuf x
    | 0x3A => decVrot x
    | 0x3B => decVcvt x
    | 0x3C => decVqnt x
    | 0x3D => decVred x
    | 0x3E => decVspecial x
    | 0x3F => decVdot4 x
    | 0x40 => decVpopc x
    | _ => .error .major
  else if x.op < 0x60 then
    match x.op with
    | 0x50 => decLd x
    | 0x51 => decSt x
    | 0x52 => decVld x
    | 0x53 => decVst x
    | 0x54 => decVgath x
    | 0x55 => decSync x
    | 0x56 => decAmo x
    | 0x57 => decRedu x
    | 0x58 => decWaitge x
    | 0x59 => decFence x
    | 0x5A => decTiles x
    | _ => .error .major
  else if x.op < 0x70 then
    match x.op with
    | 0x60 => decSend x
    | 0x61 => decMintcap x
    | 0x62 => decRevcap x
    | 0x63 => decPresence x
    | 0x64 => decLandm x
    | 0x68 => decCpy x
    | 0x69 => decCpyc x
    | 0x6A => decTags x
    | 0x6B => decPbinv x
    | 0x6C => decGathq x
    | 0x6D => decPlan x
    | _ => .error .major
  else
    match x.op with
    | 0x70 => decTape x
    | 0x71 => decSillage x
    | 0x72 => decRetrace x
    | 0x73 => decGenbump x
    | 0x74 => decHeap x
    | 0x75 => decHist x
    | 0x76 => decRemap x
    | 0x78 => decMcfg x
    | 0x79 => decMld x
    | 0x7A => decMma x
    | 0x7B => decMst x
    | 0x7C => decSched x
    | 0x7D => decBar x
    | 0x7E => decSys x
    | _ => .error .major

/-- The instruction that a head's fields name, once TL is the major's (R41); the last check is the instruction's own
description (`Instr.wf`). -/
def decFields (x : Fields) : Dec Instr :=
  match majorTail x.op with
  | none => .error .major
  | some n => do
    req (x.tl == n) .tail
    let i ← decBody x
    req i.wf .operand
    return i

/-- The instruction of a head and exactly the tail units that it states. -/
def decode : List Nat → Dec Instr
  | [] => .error .noUnits
  | h :: tail => do
    req (headTl h == tail.length) .tail
    decFields (fieldsOf h (tail.getD 0 0) (tail.getD 1 0) (tail.getD 2 0))

/-- The instruction of a word numbered as spec/opcode_table.json numbers it: the head is the top unit, and the tail units
follow it downwards; units below the word are zero. -/
def decodeTableWord (nbits w : Nat) : Option Instr :=
  let units := nbits / 16
  let unit (k : Nat) : Nat := if k < units then w / 2 ^ (16 * (units - 1 - k)) % 65536 else 0
  match decFields (fieldsOf (unit 0) (unit 1) (unit 2) (unit 3)) with
  | .ok i => some i
  | .error _ => none

/-- The units of an instruction: its head, then its tail. A step of the part has none. -/
def encode : Instr → List Nat
  | .nop sw => enc0 sw 0x00 0
  | .br sw delta h => enc1 sw 0x01 0 (mkBi delta h)
  | .brz sw a delta h => enc2 sw 0x02 0 (mkAbf a.code 0 0) (mkBi delta h)
  | .brnz sw a delta h => enc2 sw 0x02 0 (mkAbf a.code 0 1) (mkBi delta h)
  | .jmp sw a => enc1 sw 0x03 0 (mkAbf a.code 0 0)
  | .jal sw d delta h => enc1 sw 0x04 d.val (mkBi delta h)
  | .jalr sw d a => enc1 sw 0x05 d.val (mkAbf a.code 0 0)
  | .loop sw k a delta h => enc2 sw 0x06 0 (mkAbf a.code 0 k.toNat) (mkBi delta h)
  | .lbrk sw k => enc1 sw 0x07 0 (mkAbf 0 0 k.toNat)
  | .halt sw => enc0 sw 0x08 0
  | .add sw d a b => enc1 sw 0x10 d.val (mkAbf a.code b.code 0)
  | .sub sw d a b => enc1 sw 0x10 d.val (mkAbf a.code b.code 1)
  | .and sw d a b => enc1 sw 0x10 d.val (mkAbf a.code b.code 2)
  | .or sw d a b => enc1 sw 0x10 d.val (mkAbf a.code b.code 3)
  | .xor sw d a b => enc1 sw 0x10 d.val (mkAbf a.code b.code 4)
  | .andn sw d a b => enc1 sw 0x10 d.val (mkAbf a.code b.code 5)
  | .shl sw d a b => enc1 sw 0x10 d.val (mkAbf a.code b.code 6)
  | .shr sw d a b => enc1 sw 0x10 d.val (mkAbf a.code b.code 7)
  | .sar sw d a b => enc1 sw 0x10 d.val (mkAbf a.code b.code 8)
  | .rotl sw d a b => enc1 sw 0x10 d.val (mkAbf a.code b.code 9)
  | .min sw d a b => enc1 sw 0x10 d.val (mkAbf a.code b.code 10)
  | .max sw d a b => enc1 sw 0x10 d.val (mkAbf a.code b.code 11)
  | .minu sw d a b => enc1 sw 0x10 d.val (mkAbf a.code b.code 12)
  | .maxu sw d a b => enc1 sw 0x10 d.val (mkAbf a.code b.code 13)
  | .mul sw d a b => enc1 sw 0x11 d.val (mkAbf a.code b.code 0)
  | .mulh sw d a b => enc1 sw 0x11 d.val (mkAbf a.code b.code 1)
  | .mulhu sw d a b => enc1 sw 0x11 d.val (mkAbf a.code b.code 2)
  | .div sw d a b => enc1 sw 0x11 d.val (mkAbf a.code b.code 3)
  | .divu sw d a b => enc1 sw 0x11 d.val (mkAbf a.code b.code 4)
  | .rem sw d a b => enc1 sw 0x11 d.val (mkAbf a.code b.code 5)
  | .remu sw d a b => enc1 sw 0x11 d.val (mkAbf a.code b.code 6)
  | .clz sw d a => enc1 sw 0x12 d.val (mkAbf a.code 0 0)
  | .ctz sw d a => enc1 sw 0x12 d.val (mkAbf a.code 0 1)
  | .popc sw d a => enc1 sw 0x12 d.val (mkAbf a.code 0 2)
  | .mov sw d a => enc1 sw 0x12 d.val (mkAbf a.code 0 3)
  | .sext sw d a n => enc2 sw 0x13 d.val (mkAbf a.code 0 0) n.toNat
  | .zext sw d a n => enc2 sw 0x13 d.val (mkAbf a.code 0 1) n.toNat
  | .addi sw d a imm => enc2 sw 0x14 d.val (mkAbf a.code 0 0) imm.toNat
  | .andi sw d a imm => enc2 sw 0x14 d.val (mkAbf a.code 0 1) imm.toNat
  | .ori sw d a imm => enc2 sw 0x14 d.val (mkAbf a.code 0 2) imm.toNat
  | .xori sw d a imm => enc2 sw 0x14 d.val (mkAbf a.code 0 3) imm.toNat
  | .cmp sw d a b cond => enc1 sw 0x15 d.code (mkAbf a.code b.code cond.code)
  | .cmpi sw d a imm cond => enc2 sw 0x16 d.code (mkAbf a.code 0 cond.code) imm.toNat
  | .sel sw d a b p => enc1 sw 0x17 d.val (mkAbf a.code b.code p.val)
  | .bfx sw d a pos lenm1 => enc2 sw 0x18 d.val (mkAbf a.code 0 0) (lenm1.toNat * 64 + pos.toNat)
  | .bfi sw d a b pos lenm1 => enc2 sw 0x18 d.val (mkAbf a.code b.code 1) (lenm1.toNat * 64 + pos.toNat)
  | .li sw d imm => enc1 sw 0x19 d.val imm.toNat
  | .liw sw d imm => enc2 sw 0x1A d.val (imm.toNat % 65536) (imm.toNat / 65536)
  | .lix sw d imm => enc2 sw 0x1B d.val (imm.toNat % 65536) (imm.toNat / 65536)
  | .padd sw d a b => enc1 sw 0x1C d.val (mkAbf a.code b.code 0)
  | .pidx sw d a b => enc1 sw 0x1C d.val (mkAbf a.code b.code 1)
  | .pstrip sw d a => enc1 sw 0x1C d.val (mkAbf a.code 0 2)
  | .pget sw d a => enc1 sw 0x1C d.val (mkAbf a.code 0 3)
  | .pfmt sw d a b => enc1 sw 0x1C d.val (mkAbf a.code b.code 4)
  | .paddi sw d a imm => enc2 sw 0x1D d.val (mkAbf a.code 0 0) imm.toNat
  | .pand sw d a b => enc1 sw 0x1E (pCode d) (mkAbf (pCode a) (pCode b) 0)
  | .por sw d a b => enc1 sw 0x1E (pCode d) (mkAbf (pCode a) (pCode b) 1)
  | .pxor sw d a b => enc1 sw 0x1E (pCode d) (mkAbf (pCode a) (pCode b) 2)
  | .pnot sw d a => enc1 sw 0x1E (pCode d) (mkAbf (pCode a) 0 3)
  | .pmov sw d a => enc1 sw 0x1E (pCode d) (mkAbf (pCode a) 0 4)
  | .pcnt sw d a => enc1 sw 0x1E d.val (mkAbf (pCode a) 0 5)
  | .pfirst sw d a => enc1 sw 0x1E d.val (mkAbf (pCode a) 0 6)
  | .vadd sw ty rm sat pg d a b => enc2 sw 0x30 (vCode d) (mkAbf (vCode a) (vCode b) 0) (mkM ty.code rm.code sat.toNat 0 pg.val 0)
  | .vsub sw ty rm sat pg d a b => enc2 sw 0x30 (vCode d) (mkAbf (vCode a) (vCode b) 1) (mkM ty.code rm.code sat.toNat 0 pg.val 0)
  | .vmul sw ty rm sat pg d a b => enc2 sw 0x30 (vCode d) (mkAbf (vCode a) (vCode b) 2) (mkM ty.code rm.code sat.toNat 0 pg.val 0)
  | .vmulh sw ty pg d a b => enc2 sw 0x30 (vCode d) (mkAbf (vCode a) (vCode b) 3) (mkM ty.code 0 0 0 pg.val 0)
  | .vmin sw ty pg d a b => enc2 sw 0x30 (vCode d) (mkAbf (vCode a) (vCode b) 4) (mkM ty.code 0 0 0 pg.val 0)
  | .vmax sw ty pg d a b => enc2 sw 0x30 (vCode d) (mkAbf (vCode a) (vCode b) 5) (mkM ty.code 0 0 0 pg.val 0)
  | .vfma sw ty rm sat pg d a b c =>
      enc3 sw 0x31 (vCode d) (mkAbf (vCode a) (vCode b) 0) (mkC (vCode c) 0) (mkM ty.code rm.code sat.toNat 0 pg.val 0)
  | .vfms sw ty rm sat pg d a b c =>
      enc3 sw 0x31 (vCode d) (mkAbf (vCode a) (vCode b) 1) (mkC (vCode c) 0) (mkM ty.code rm.code sat.toNat 0 pg.val 0)
  | .vabs sw ty sat pg d a => enc2 sw 0x32 (vCode d) (mkAbf (vCode a) 0 0) (mkM ty.code 0 sat.toNat 0 pg.val 0)
  | .vneg sw ty sat pg d a => enc2 sw 0x32 (vCode d) (mkAbf (vCode a) 0 1) (mkM ty.code 0 sat.toNat 0 pg.val 0)
  | .vand sw sz pg d a b => enc2 sw 0x33 (vCode d) (mkAbf (vCode a) (vCode b) 0) (mkM 0 0 0 0 pg.val sz.code)
  | .vor sw sz pg d a b => enc2 sw 0x33 (vCode d) (mkAbf (vCode a) (vCode b) 1) (mkM 0 0 0 0 pg.val sz.code)
  | .vxor sw sz pg d a b => enc2 sw 0x33 (vCode d) (mkAbf (vCode a) (vCode b) 2) (mkM 0 0 0 0 pg.val sz.code)
  | .vshl sw sz pg d a b => enc2 sw 0x34 (vCode d) (mkAbf (vCode a) (vCode b) 0) (mkM 0 0 0 0 pg.val sz.code)
  | .vshr sw sz pg d a b => enc2 sw 0x34 (vCode d) (mkAbf (vCode a) (vCode b) 1) (mkM 0 0 0 0 pg.val sz.code)
  | .vsar sw sz pg d a b => enc2 sw 0x34 (vCode d) (mkAbf (vCode a) (vCode b) 2) (mkM 0 0 0 0 pg.val sz.code)
  | .vcmp sw ty pg d a b cond => enc2 sw 0x35 (pCode d) (mkAbf (vCode a) (vCode b) cond.code) (mkM ty.code 0 0 0 pg.val 0)
  | .vsel sw sz pn d a b => enc2 sw 0x36 (vCode d) (mkAbf (vCode a) (vCode b) 0) (mkM 0 0 0 0 pn.val sz.code)
  | .vbcast sw sz pg d a => enc2 sw 0x37 (vCode d) (mkAbf a.code 0 0) (mkM 0 0 0 0 pg.val sz.code)
  | .vins sw sz d a i => enc3 sw 0x38 (vCode d) (mkAbf a.code 0 0) i.toNat (mkM 0 0 0 0 0 sz.code)
  | .vext sw sz d a i => enc3 sw 0x38 d.val (mkAbf (vCode a) 0 1) i.toNat (mkM 0 0 0 0 0 sz.code)
  | .vshuf sw sz pg d a b => enc2 sw 0x39 (vCode d) (mkAbf (vCode a) (vCode b) 0) (mkM 0 0 0 0 pg.val sz.code)
  | .vrot sw sz pg d a n => enc3 sw 0x3A (vCode d) (mkAbf (vCode a) 0 0) n.toNat (mkM 0 0 0 0 pg.val sz.code)
  | .vcvt sw dty sty rm sat pg d a =>
      enc2 sw 0x3B (vCode d) (mkAbf (vCode a) 0 sty.code) (mkM dty.code rm.code sat.toNat 0 pg.val 0)
  | .vqnt sw sty rm pg pm2 d a =>
      enc3 sw 0x3C (vCode d) (mkAbf (vCode a) 0 0) (mkC 0 (sty.code * 64 + pm2.toNat)) (mkM 10 rm.code 0 0 pg.val 0)
  | .vdqnt sw ty rm sat pg pm2 rpl d a c =>
      enc3 sw 0x3C (vCode d) (mkAbf (vCode a) 0 1) (mkC c.code (rpl.toNat * 8 + pm2.toNat))
        (mkM ty.code rm.code sat.toNat 0 pg.val 0)
  | .vredsum sw ty rm pg d a => enc2 sw 0x3D d.val (mkAbf (vCode a) 0 0) (mkM ty.code rm.code 0 0 pg.val 0)
  | .vredmax sw ty pg d a => enc2 sw 0x3D d.val (mkAbf (vCode a) 0 1) (mkM ty.code 0 0 0 pg.val 0)
  | .vredmin sw ty pg d a => enc2 sw 0x3D d.val (mkAbf (vCode a) 0 2) (mkM ty.code 0 0 0 pg.val 0)
  | .vscan sw ty rm sat pg d a => enc2 sw 0x3D (vCode d) (mkAbf (vCode a) 0 3) (mkM ty.code rm.code sat.toNat 0 pg.val 0)
  | .vrcp sw ty rm sat pg d a => enc2 sw 0x3E (vCode d) (mkAbf (vCode a) 0 0) (mkM ty.code rm.code sat.toNat 0 pg.val 0)
  | .vrsq sw ty rm sat pg d a => enc2 sw 0x3E (vCode d) (mkAbf (vCode a) 0 1) (mkM ty.code rm.code sat.toNat 0 pg.val 0)
  | .vexp2 sw ty rm sat pg d a => enc2 sw 0x3E (vCode d) (mkAbf (vCode a) 0 2) (mkM ty.code rm.code sat.toNat 0 pg.val 0)
  | .vlog2 sw ty rm sat pg d a => enc2 sw 0x3E (vCode d) (mkAbf (vCode a) 0 3) (mkM ty.code rm.code sat.toNat 0 pg.val 0)
  | .vdot4 sw ty rm sat pg d a b c =>
      enc3 sw 0x3F (vCode d) (mkAbf (vCode a) (vCode b) 0) (mkC (vCode c) 0) (mkM ty.code rm.code sat.toNat 0 pg.val 0)
  | .vpopc sw sz pg d a => enc2 sw 0x40 (vCode d) (mkAbf (vCode a) 0 0) (mkM 0 0 0 0 pg.val sz.code)
  | .ld sw sz d a off => enc3 sw 0x50 d.val (mkAbf a.code 0 0) off.toNat (mkM 0 0 0 0 0 sz.code)
  | .lda sw sz sc d a off => enc3 sw 0x50 d.val (mkAbf a.code 0 1) off.toNat (mkM 0 0 0 sc.code 0 sz.code)
  | .st sw sz a b off => enc3 sw 0x51 0 (mkAbf a.code b.code 0) off.toNat (mkM 0 0 0 0 0 sz.code)
  | .stl sw sz sc a b off => enc3 sw 0x51 0 (mkAbf a.code b.code 1) off.toNat (mkM 0 0 0 sc.code 0 sz.code)
  | .vld sw sz pg d a off => enc3 sw 0x52 (vCode d) (mkAbf a.code 0 0) off.toNat (mkM 0 0 0 0 pg.val sz.code)
  | .vlds sw sz pg d a stride => enc3 sw 0x52 (vCode d) (mkAbf a.code 0 1) stride.toNat (mkM 0 0 0 0 pg.val sz.code)
  | .vst sw sz pg a b off => enc3 sw 0x53 0 (mkAbf a.code (vCode b) 0) off.toNat (mkM 0 0 0 0 pg.val sz.code)
  | .vsts sw sz pg a b stride => enc3 sw 0x53 0 (mkAbf a.code (vCode b) 1) stride.toNat (mkM 0 0 0 0 pg.val sz.code)
  | .vgath sw sz pg d a c => enc3 sw 0x54 (vCode d) (mkAbf a.code 0 0) (mkC (vCode c) 0) (mkM 0 0 0 0 pg.val sz.code)
  | .vscat sw sz pg a b c => enc3 sw 0x54 0 (mkAbf a.code (vCode b) 1) (mkC (vCode c) 0) (mkM 0 0 0 0 pg.val sz.code)
  | .ldf sw sc d a off => enc3 sw 0x55 d.val (mkAbf a.code 0 0) off.toNat (mkM 0 0 0 sc.code 0 3)
  | .ste sw sc a b off => enc3 sw 0x55 0 (mkAbf a.code b.code 1) off.toNat (mkM 0 0 0 sc.code 0 3)
  | .ldfp sw d p a off => enc3 sw 0x55 d.val (mkAbf a.code (pCode p) 2) off.toNat (mkM 0 0 0 0 0 3)
  | .setfe sw a b off => enc3 sw 0x55 0 (mkAbf a.code b.code 3) off.toNat (mkM 0 0 0 0 0 3)
  | .amo sw sz sc op ord d a b c =>
      enc3 sw 0x56 d.val (mkAbf a.code b.code op.code) (mkC c.code ord.code) (mkM 0 0 0 sc.code 0 sz.code)
  | .redu sw ty rm sat op a b => enc2 sw 0x57 0 (mkAbf a.code b.code op.code) (mkM ty.code rm.code sat.toNat 0 0 0)
  | .waitge sw sz sc d a b off => enc3 sw 0x58 d.val (mkAbf a.code b.code 0) off.toNat (mkM 0 0 0 sc.code 0 sz.code)
  | .fence sw sc => enc2 sw 0x59 0 0 (mkM 0 0 0 sc.code 0 0)
  | .pref sw a b off => enc3 sw 0x5A 0 (mkAbf a.code (optCode b) 0) off.toNat 0
  | .tflush sw a b off => enc3 sw 0x5A 0 (mkAbf a.code (optCode b) 1) off.toNat 0
  | .tinv sw a b off => enc3 sw 0x5A 0 (mkAbf a.code (optCode b) 2) off.toNat 0
  | .send sw a b off => enc3 sw 0x60 0 (mkAbf a.code b.code 0) off.toNat 0
  | .sendv sw a b off => enc3 sw 0x60 0 (mkAbf a.code (vCode b) 1) off.toNat 0
  | .sendr sw sc a b off => enc3 sw 0x60 0 (mkAbf a.code b.code 2) off.toNat (mkM 0 0 0 sc.code 0 0)
  | .mintcap sw d base lenm1 => enc2 sw 0x61 d.val 0 (lenm1.toNat * 64 + base.toNat)
  | .revcap sw d => enc1 sw 0x62 d.val 0
  | .rclr sw d => enc1 sw 0x63 d.code (mkAbf 0 0 0)
  | .rfull sw d a => enc1 sw 0x63 d.val (mkAbf a.code 0 1)
  | .rwait sw a b => enc1 sw 0x63 0 (mkAbf a.code b.code 2)
  | .landm sw base lenm1 mode => enc2 sw 0x64 0 0 (mode.toNat * 1024 + lenm1.toNat * 64 + base.toNat)
  | .cpy sw d a => enc1 sw 0x68 d.val (mkAbf a.val 0 0)
  | .cpynb sw d a => enc1 sw 0x68 d.val (mkAbf a.val 0 1)
  | .cpyc sw d a => enc1 sw 0x69 d.val (mkAbf a.code 0 0)
  | .cpyq sw d a => enc1 sw 0x69 d.val (mkAbf a.code 0 1)
  | .twany sw d a => enc1 sw 0x6A d.val (mkAbf a.code 0 0)
  | .twall sw d a => enc1 sw 0x6A d.val (mkAbf a.code 0 1)
  | .tffr sw d a => enc1 sw 0x6A d.val (mkAbf a.code 0 2)
  | .tclr sw a => enc1 sw 0x6A 0 (mkAbf a.code 0 3)
  | .pbinv sw a => enc1 sw 0x6B 0 (mkAbf a.code 0 0)
  | .gathq sw sz pg d a b => enc2 sw 0x6C (vCode d) (mkAbf a.code (vCode b) 0) (mkM 0 0 0 0 pg.val sz.code)
  | .planset sw d a => enc1 sw 0x6D d.val (mkAbf a.code 0 0)
  | .planfire sw a b => enc1 sw 0x6D 0 (mkAbf a.code b.code 1)
  | .plandrop sw a => enc1 sw 0x6D 0 (mkAbf a.code 0 2)
  | .tapeopen sw d a => enc1 sw 0x70 d.val (mkAbf a.code 0 0)
  | .tapeclose sw a => enc1 sw 0x70 0 (mkAbf a.code 0 1)
  | .tapefree sw a => enc1 sw 0x70 0 (mkAbf a.code 0 2)
  | .tapeq sw d a => enc1 sw 0x70 d.val (mkAbf a.code 0 3)
  | .mcast sw tag a b cls ret => enc2 sw 0x71 tag.toNat (mkAbf a.val b.code 0) (mkC 0 (cls.toNat * 2 + ret.toNat))
  | .gathr sw tag a b cls ret => enc2 sw 0x71 tag.toNat (mkAbf a.val b.code 1) (mkC 0 (cls.toNat * 2 + ret.toNat))
  | .a2a sw tag a b cls ret => enc2 sw 0x71 tag.toNat (mkAbf a.val b.code 2) (mkC 0 (cls.toNat * 2 + ret.toNat))
  | .retrace sw tag a b c ty cls land =>
      enc2 sw 0x72 tag.toNat (mkAbf a.val b.code 0) (mkC c.val (land.toNat * 64 + cls.toNat * 16 + ty.code))
  | .genbump sw d a => enc1 sw 0x73 d.val (mkAbf a.code 0 0)
  | .hsinit sw a b => enc1 sw 0x74 0 (mkAbf a.code b.code 0)
  | .hsift sw d a b => enc1 sw 0x74 d.val (mkAbf a.code b.code 1)
  | .hpop sw d a => enc1 sw 0x74 d.val (mkAbf a.code 0 2)
  | .hist sw sz pg a b => enc2 sw 0x75 0 (mkAbf a.code (vCode b) 0) (mkM 0 0 0 0 pg.val sz.code)
  | .histOvf sw sz pg a b => enc2 sw 0x75 0 (mkAbf a.code (vCode b) 1) (mkM 0 0 0 0 pg.val sz.code)
  | .remapw sw a b => enc1 sw 0x76 0 (mkAbf a.code b.code 0)
  | .remapx sw a => enc1 sw 0x76 0 (mkAbf a.code 0 1)
  | .mcfg sw tag a => enc2 sw 0x78 tag.toNat (mkAbf a.code 0 0) 0
  | .mzero sw tag mask => enc2 sw 0x78 tag.toNat (mkAbf 0 0 1) mask.toNat
  | .mlda sw tag a b mc buf tr g pe =>
      enc3 sw 0x79 tag.toNat (mkAbf a.code b.code 0)
        (mc.toNat * 32768 + buf.toNat * 16384 + tr.toNat * 8192 + g.toNat * 1024 + pe.toNat) 0
  | .mldb sw tag a b mc buf tr g pe =>
      enc3 sw 0x79 tag.toNat (mkAbf a.code b.code 1)
        (mc.toNat * 32768 + buf.toNat * 16384 + tr.toNat * 8192 + g.toNat * 1024 + pe.toNat) 0
  | .mldacc sw tag a acc pe => enc3 sw 0x79 tag.toNat (mkAbf a.code 0 2) (acc.toNat * 1024 + pe.toNat) 0
  | .mmap sw tag acc ab bb => enc1 sw 0x7A tag.toNat (mkAbf acc.toNat (bb.toNat * 2 + ab.toNat) 0)
  | .mmah sw tag acc ab bb => enc1 sw 0x7A tag.toNat (mkAbf acc.toNat (bb.toNat * 2 + ab.toNat) 1)
  | .mmas sw tag acc ab bb => enc1 sw 0x7A tag.toNat (mkAbf acc.toNat (bb.toNat * 2 + ab.toNat) 2)
  | .mst sw tag rm sat a acc pe =>
      enc3 sw 0x7B tag.toNat (mkAbf a.code 0 0) (acc.toNat * 8192 + pe.toNat) (mkM 0 rm.code sat.toNat 0 0 0)
  | .mstq sw tag rm a b acc pe =>
      enc3 sw 0x7B tag.toNat (mkAbf a.code b.code 1) (acc.toNat * 8192 + pe.toNat) (mkM 0 rm.code 0 0 0 0)
  | .mscl sw tag rm sat a acc =>
      enc3 sw 0x7B tag.toNat (mkAbf a.code 0 2) (acc.toNat * 8192) (mkM 0 rm.code sat.toNat 0 0 0)
  | .wfw sw d => enc2 sw 0x7C d.val (mkAbf 0 0 0) 0
  | .disp sw d a prio sc => enc2 sw 0x7C d.val (mkAbf a.val 0 1) (sc.code * 8 + prio.toNat)
  | .prog sw a => enc2 sw 0x7C 0 (mkAbf a.code 0 2) 0
  | .ckpt sw sc a => enc2 sw 0x7C 0 (mkAbf a.code 0 3) (sc.code * 8)
  | .sleep sw a => enc2 sw 0x7C 0 (mkAbf a.code 0 4) 0
  | .bararv sw sc n g => enc2 sw 0x7D sc.code (mkAbf 0 0 0) (g.toNat * 128 + n.toNat)
  | .barwt sw sc n => enc2 sw 0x7D sc.code (mkAbf 0 0 1) n.toNat
  | .barsync sw sc n g => enc2 sw 0x7D sc.code (mkAbf 0 0 2) (g.toNat * 128 + n.toNat)
  | .trap sw n => enc2 sw 0x7D 0 (mkAbf 0 0 3) n.toNat
  | .eret sw => enc2 sw 0x7D 0 (mkAbf 0 0 4) 0
  | .ctlr sw d num => enc2 sw 0x7E d.val (mkAbf 0 0 0) num.toNat
  | .ctlw sw num a => enc2 sw 0x7E 0 (mkAbf a.code 0 1) num.toNat
  | .tdef sw a b loge id => enc2 sw 0x7E 0 (mkAbf a.val b.code 2) (loge.toNat * 4096 + id.toNat)
  | .tlbpin sw sc d a => enc2 sw 0x7E d.val (mkAbf a.val 0 3) (sc.code * 8)
  | .tlbinv sw d a b force => enc2 sw 0x7E d.val (mkAbf a.val b.code 4) force.toNat
  | _ => []

end Sys2Proof
end

