-- ==== Sys2Proof/Config.lean ====
section
/-! DEFINITION. The figures that the part fixes for the machine (R7 to R13, Appendix rules cited at each), and the free
values: opaque constants with no body, so that nothing can evaluate them. A free value stands where the spec leaves a
value open and the machine goes on (log entries 20 to 29). -/

namespace Sys2Proof.Config

/-- Packages of the modelled domain (R9; the domain holds one package at reset, log entry 12). -/
def packages : Nat := 64
/-- Massifs of a package in the full shape (R8, R10). -/
def massifs : Nat := 8
/-- Clusters of a massif (R8). -/
def clusters : Nat := 16
/-- Cores of a cluster (R8). -/
def coresPerCluster : Nat := 128
/-- Cores of a package in the full shape (R8, R10). -/
def coresPerPackage : Nat := massifs * clusters * coresPerCluster
/-- Virtual devices of a package (R386). -/
def vds : Nat := 16

/-- A byte that the spec leaves undefined: the destination of a failed or cancelled engine operation, of overlapping copy
elements, or of a reset in flight (log entry 20). The argument is the state's free-value counter. -/
opaque freeByte : Nat → Byte
/-- A 64-bit value that the spec leaves open (log entry 21). -/
opaque freeWord : Nat → Word
/-- The address of a VD's trigger word, which the part sets when the VD is created (R280; log entry 26). -/
opaque trigAddr : Nat → Addr
/-- The base voltage setpoint of a physical cluster, in units of 0.1 mV (R453; log entry 27). -/
opaque baseSetpoint : Nat → Nat
/-- A choice that the spec leaves to the part, such as which clean line a cache evicts (log entry 22). -/
opaque freeBool : Nat → Bool
/-- The 256-bit team key drawn at launch from the random source (R205; log entry 23). -/
opaque teamKey : Nat → BitVec 256
/-- The SM3 digest of a byte string; the standard's text is not in the spec (R437; log entry 24). -/
opaque sm3 : List Byte → BitVec 256
/-- HMAC-SM3 of a message under a key (R205, R437; log entry 24). -/
opaque hmacSm3 : BitVec 256 → List Byte → BitVec 256
/-- Verification of an SM2 signature (r, s) over a digest under a public key (R437; log entry 24). -/
opaque sm2Verify : BitVec 512 → BitVec 256 → BitVec 256 → BitVec 256 → Bool
/-- An SM2 signature (r, s) by the package's attestation key over a message (R434; log entry 24). -/
opaque sm2Sign : Nat → List Byte → BitVec 512

/-- The digest of a health record as the controller signs it, by its sequence number: the record's text is the firmware's (R452; log
entry 24). -/
opaque healthDigest : Nat → BitVec 256

end Sys2Proof.Config
end

