-- ==== Sys2Proof/Machine/State.lean ====
section
/-! DEFINITION. The state of the domain as plain data: threads, cores, routers, virtual devices, teams, functions and
packages, memory, and the model's own fields (which step comes next, counters). Numbers: core gc = package * 16384 +
massif * 2048 + cluster * 128 + core; thread t = gc * 8 + slot; router = gc / 8; VD key = package * 16 + VD; function
fn = package * 32 + 0 for the physical function, + 1 + VD for a virtual one. -/

namespace Sys2Proof.Machine

/-- A sparse table: keys strictly rising, an absent key holds the kind's default. -/
abbrev Tbl (α : Type) := List (Nat × α)

/-! ### Threads -/

/-- A write of one register. -/
inductive RegWrite where
  | s (r : SReg) (x : Word)
  | v (r : VReg) (x : VWord)
  | p (r : PReg) (x : PWord)
  deriving DecidableEq, Repr

/-- What a deferred result is formed from when it returns (R274, R279, R291); `plain` results are formed already. -/
inductive Form where
  | plain
  | cpyq (d : SReg) (a : Word)
  | tapeq (d : SReg) (a : Word)
  | planset (d : SReg) (addr : Addr) (desc : List Byte) (cls : BitVec 2)
  deriving DecidableEq, Repr

/-- An entry of the result buffer (R44 to R48). -/
structure BufEntry where
  /-- Issue number of the instruction. -/
  id : Nat
  /-- Its address. -/
  pc : Addr
  /-- The writes that it commits. -/
  writes : List RegWrite
  form : Form
  /-- The value is formed (a load: every part has taken its value). -/
  done : Bool
  /-- It has returned to the buffer. -/
  returned : Bool
  /-- It failed: the code of MEMUE or SYNCRETRY. -/
  fail : Option Nat
  /-- It is the value of an acquire, which every later event of the thread follows (R188, R234). -/
  acq : Bool
  deriving DecidableEq, Repr

/-- A pending asynchronous cause (R347). -/
structure Pending where
  code : Nat
  tval : Word
  /-- REGOVW shows its source in ctl.fsrc at delivery (R219). -/
  fsrc : Option Word
  /-- The number of the arrival that a REGOVW refused. -/
  arr : Nat
  deriving DecidableEq, Repr

/-- A loop context (R107). -/
structure LoopCtx where
  arm : Bool
  start : Addr
  stop : Addr
  count : Word
  deriving DecidableEq, Repr

/-- What follows once a switch point has committed (R24, R348, R350, R103). -/
inductive After where
  | go
  | trap (async : Bool) (code : Nat) (epc : Addr) (tval : Word) (fsrc : Option Word)
  | eret
  | halt
  deriving DecidableEq, Repr

/-- Where a thread stands (R327). Bubbles and the parked state are `ready` with `park` set or an instruction that does
not advance: the same head is executed again at the next turn. -/
inductive TStatus where
  | absent
  | loading
  | ready
  | switchWait (after : After)
  | waitWork (d : SReg)
  | sleeping (until_ : Word)
  | retired
  deriving DecidableEq, Repr

/-- A park or a send-queue stall (R328, R329). -/
structure Park where
  /-- The cycle at which it began. -/
  start : Nat
  /-- The limit it began under, in units of 1,024 cycles. -/
  limit : Nat
  /-- What PARKLONG would show. -/
  tval : Word
  /-- The codes of the empty registers that it awaits; none where it awaits a value, a tag, a barrier or room for a send. -/
  regs : List Nat
  /-- A cause arose during it that ends it (R330). -/
  cut : Bool
  deriving DecidableEq, Repr

/-- A wait that a form has entered and that outlasts its turn (R198, R275, R345, R208). -/
inductive Wait where
  | none
  /-- TWANY 0, TWALL 1, TFFR 2 with the mask; the result once it has ended (R276). -/
  | tag (form : Nat) (mask : Word) (seq : Nat) (result : Option Word)
  /-- A WAITGE's access in the port, with its value once observed, or its error (R198). -/
  | waitge (id : Nat) (result : Option Word) (failed : Bool)
  /-- A barrier's number; over once the completion has cleared the arrived bit (R345). -/
  | barrier (n : Nat) (ended : Bool)
  /-- A hold, by the form that holds: 0 a condition that the form tests itself, 1 REVCAP, 2 TAPEOPEN, 3 TLBINV, 4
  REMAPX, 5 GENBUMP, 6 RETRACE. Whether a step of its own has ended it, and the value that the destination takes (R208, R289, R415). -/
  | hold (kind : Nat) (ended : Bool) (result : Word)
  deriving DecidableEq, Repr

/-- A line of code held for a thread: its address and its 32 slots (R33, R35). -/
structure Line where
  addr : Addr
  slots : List (BitVec 16)
  deriving DecidableEq, Repr

/-- A send in a send queue (R211 to R213). -/
structure SendEntry where
  id : Nat
  cap : Word
  target : Nat
  reg : Nat
  vec : Bool
  value : VWord
  /-- SENDR's scope. -/
  rel : Option Scope
  /-- It travels; it keeps its place in the queue until its target has taken it (R212, R215). -/
  gone : Bool
  /-- Its target has refused it for want of a landing-buffer entry: it stands in the queue again (R212, R215). -/
  back : Bool
  /-- The class of its flits: ctl.tcls at issue (R396). -/
  cls : BitVec 2
  deriving DecidableEq, Repr

/-! ### Accesses in a core's port -/

/-- What an access does at its home. -/
inductive AccKind where
  | load
  /-- A GATHQ, which the gather engines serve (R201, R277). -/
  | gath
  | store
  | ldf
  | ste
  | ldfp
  | setfe (full : Bool)
  | amo (op : AmoOp) (b c : Word)
  /-- REDU; the source's bytes once read. -/
  | redu (ty : Ty) (rm : Rm) (sat : Bool) (op : ReduOp) (src : Option (List Byte))
  | waitge (threshold : Nat)
  | hist (ovf : Bool)
  | tflush
  | tinv
  deriving DecidableEq, Repr

/-- One single-copy atomic part of an access (R182): its destination lane, virtual address, location, length, data. -/
structure Part where
  lane : Nat
  va : Addr
  loc : Nat
  len : Nat
  data : List Byte
  deriving DecidableEq, Repr

/-- An access that its port has taken and that is not wholly performed (R180). -/
structure Access where
  /-- Issue number; port order among the core's accesses. -/
  id : Nat
  tid : Nat
  pc : Addr
  kind : AccKind
  sc : Scope
  acq : Bool
  rel : Bool
  /-- The destination of a load. -/
  dst : Option Reg
  dst2 : Option PReg
  /-- Lane width in bits of a vector load; 0 for a scalar one. -/
  width : Nat
  parts : List Part
  /-- It stands in its home's sync-wait queue or watch table (R193, R198). -/
  waiting : Bool
  /-- Its home's queue was full and it is presented again (R193, R198). -/
  turnedAway : Bool
  /-- Its place in the queue or table, by the issue counter at its entry. -/
  arrived : Nat
  retries : Nat
  /-- A CNTOVF report of this HIST has been sent (R319). -/
  reported : Bool
  /-- A posted write has left the store queue for its home (R180). -/
  sent : Bool
  /-- Ranges that a REDU, TFLUSH or TINV names: first byte and length of each (R187, R322). -/
  named : List (Nat × Nat)
  /-- The class of its units: ctl.tcls at issue (R396). -/
  cls : BitVec 2
  deriving DecidableEq, Repr

structure Thread where
  id : Nat
  /-- The VD that owns it (ctl.vd, R389). -/
  vd : Nat
  st : TStatus
  pc : Addr
  sregs : Vector Word 32
  sFull : BitVec 32
  vregs : Vector VWord 16
  vFull : BitVec 16
  pregs : Vector PWord 8
  pFull : BitVec 8
  l0 : LoopCtx
  l1 : LoopCtx
  rng : BitVec 32
  tvec : Addr
  epc : Addr
  cause : Word
  tval : Word
  tscratch : Word
  hm : Bool
  pend : List Pending
  fsrc : Word
  wdog : BitVec 32
  syncl : BitVec 8
  lands : Word
  landv : BitVec 32
  capgen : BitVec 32
  mgrp : BitVec 8
  tcls : BitVec 2
  self : Word
  place : Word
  args : Word
  team : Word
  groups : Word
  shape : Word
  shapex : Word
  buf : List BufEntry
  sendq : List SendEntry
  park : Option Park
  wait : Wait
  /-- Vector store entries that have not yet entered the store queue (R180). -/
  storeHold : List Access
  /-- Earliest cycle of the next turn (R326). -/
  nextTurn : Nat
  /-- The line held for the thread, and a second one whose descriptor LOOP or the next head needs (R106, R108). -/
  line : Option Line
  line2 : Option Line
  /-- A line other than pc's that the issuing head waits for (R108). -/
  want : Option Addr
  /-- Pages whose walk failed for the thread's issuing instruction, with the cause (R410). -/
  walkFail : List (Nat × Nat)
  /-- A pre-emption stops the thread (R365): 0 no, 1 at the boundary after its next head, 2 stopped. -/
  stop : Nat
  deriving DecidableEq, Repr

/-- A thread that does not exist: every register at the value that a new context starts with (R55, R107, R328, R194,
R396, R336). -/
def Thread.blank (id : Nat) : Thread :=
  { id := id, vd := 0, st := .absent, pc := 0,
    sregs := Vector.replicate 32 0, sFull := 0, vregs := Vector.replicate 16 0, vFull := 0,
    pregs := Vector.replicate 8 0, pFull := 0,
    l0 := ⟨false, 0, 0, 0⟩, l1 := ⟨false, 0, 0, 0⟩, rng := 0,
    tvec := 0, epc := 0, cause := 0, tval := 0, tscratch := 0, hm := false, pend := [],
    fsrc := 0, wdog := 0x4000, syncl := 0xFF, lands := 0, landv := 0, capgen := 0, mgrp := 0, tcls := 1,
    self := 0, place := 0, args := 0, team := 0, groups := 0,
    shape := 0x0180_1008#64, shapex := 0x84_2108_4210#64,
    buf := [], sendq := [], park := none, wait := .none, storeHold := [], nextTurn := 0,
    line := none, line2 := none, want := none, walkFail := [], stop := 0 }

/-! ### Cores -/

/-- An arrival in a landing buffer, held or refused (R215, R216, R219). -/
structure Landing where
  tid : Nat
  reg : Nat
  vec : Bool
  value : VWord
  /-- The capability of a send (R223); zero for a completion. -/
  cap : Word
  /-- SRC and ENG of ctl.fsrc (R219). -/
  src : Word
  /-- Sender and window: 0 and the sender's thread for a send, 1 and the engine for a completion (R218). -/
  sender : Nat × Nat
  window : Nat × Nat
  /-- It stands in the target's own entry, not in a shared one. -/
  own : Bool
  /-- A FAULT refusal whose REGOVW has not been delivered. -/
  refused : Bool
  /-- The order of its arrival. -/
  arr : Nat
  deriving DecidableEq, Repr

/-- A range-lock entry (R147, R186, R268): the VD's addresses from `lo` to `hi`, and the operation that holds it. -/
structure Lock where
  vk : Nat
  lo : Nat
  hi : Nat
  write : Bool
  owner : Nat
  deriving DecidableEq, Repr

/-- The tag bitmap of one VD on a core with the last status of each tag (R261). -/
structure Tags where
  bits : Word
  stat : Vector (BitVec 4) 64
  deriving DecidableEq, Repr

def Tags.zero : Tags := ⟨0, Vector.replicate 64 0⟩

/-- A unit of a running copy, one element or one block: locations of the source's bytes and of its scale bytes, of the
destination's bytes and its scale bytes; its elements and their draws (R74, R265, R267, R270). -/
structure CopyElem where
  src : List Nat
  srcScales : List Nat
  dst : List Nat
  dstScales : List Nat
  n : Nat
  rnd : List Nat
  /-- The source's bytes and then its scale bytes, once read; a byte is none where an uncorrectable error was met. -/
  got : Option (List (Option Byte))
  deriving DecidableEq, Repr

/-- Where an engine operation stands. -/
inductive OpState where
  | queued
  | running
  /-- Its tag is set; its completion word has still to be taken by a landing buffer (R215, R271). -/
  | landing
  | settled
  deriving DecidableEq, Repr

/-- A copy request (R263 to R274). -/
structure CopyReq where
  id : Nat
  seq : BitVec 32
  vk : Nat
  tid : Nat
  w0 : Word
  w1 : Word
  w2 : Word
  w3 : Word
  /-- The draws that RS took at issue (R267). -/
  rnd : List Nat
  state : OpState
  todo : List CopyElem
  /-- The destination's bytes (R262, R273). -/
  dsts : List Nat
  /-- Destination bytes that are undefined when it completes (R262, R270). -/
  undef : List Nat
  /-- Completion status as it stands (R262). -/
  status : Nat
  /-- The order of its completion (R271). -/
  ended : Nat
  /-- First and last addresses of the ranges that it uses, once it has left the FIFO (R322, R415). -/
  spans : List (Nat × Nat)
  /-- Bytes of the copy engine's units that it has started and not yet moved (R392). -/
  paid : Nat
  deriving DecidableEq, Repr

/-- A block of 32 elements of an operand buffer: class 0 ordinary, 1 zero, 2 NaN; exponent; codes, or bit patterns on the
BF16 and FP32 paths (R157). -/
structure Block where
  cls : Nat
  exp : Nat
  vals : List Int
  deriving DecidableEq, Repr

/-- An operand buffer (R145, R152, R157, R158). -/
structure OpBuf where
  planes : Nat
  failed : Option Nat
  /-- Blocks by row * 16 + block along K; an absent one is of class zero. -/
  blocks : Tbl Block
  deriving DecidableEq, Repr

/-- What a matrix entry does, with its operands as read at issue (R150 to R166). -/
inductive MOp where
  | mcfg (word : Word)
  | mzero (mask : BitVec 8)
  | mld (b : Bool) (a sp : Word) (mc buf tr : Bool) (g pe : Nat) (grp : Nat)
  | mldacc (a : Word) (acc pe : Nat)
  | mma (path : Nat) (acc : Nat) (ab bb : Bool)
  | mst (rm : Rm) (sat : Bool) (a : Word) (acc pe : Nat) (rnd : List Nat)
  | mstq (rm : Rm) (a sp : Word) (acc pe : Nat) (rnd : List Nat)
  | mscl (rm : Rm) (sat : Bool) (f : Word) (acc : Nat) (rnd : List Nat)
  /-- A multicast's contents that have arrived at a recipient: buffer, contents, the issuer's core and entry (R159). -/
  | deliver (buf : Nat) (x : OpBuf) (gc id : Nat)
  deriving DecidableEq, Repr

/-- A memory read or write that a matrix entry still has to make, with the bytes of a write. -/
structure MElem where
  idx : Nat
  locs : List Nat
  /-- none for a read. -/
  data : Option (List Byte)
  deriving DecidableEq, Repr

/-- An entry of the matrix queue (R146 to R149). -/
structure MEntry where
  id : Nat
  tid : Nat
  vk : Nat
  tag : Nat
  op : MOp
  /-- The configuration under which the entry executes (R144, R152). -/
  cfg : Word
  running : Bool
  todo : List MElem
  got : Tbl (List Byte)
  /-- A product's units still to start, and the size of each (R392). -/
  units : Nat
  unit : Nat
  status : Nat
  /-- Cores that still take the delivery of a multicast (R159). -/
  dests : List Nat
  /-- The class of its units: ctl.tcls at issue (R396). -/
  cls : BitVec 2
  /-- The destination's bytes of a store (R262, R415). -/
  dsts : List Nat
  /-- The first status other than OK with which a recipient took a multicast (R159). -/
  refused : Nat
  deriving DecidableEq, Repr

/-- A barrier instance of a core (R344). -/
structure BarInst where
  vk : Nat
  team : Nat
  n : Nat
  group : Nat
  arrived : BitVec 8
  counted : BitVec 8
  phase : Nat
  deriving DecidableEq, Repr

/-- A scratchpad or matrix grant of a VD on a core (R143, R172). -/
structure Grant where
  spBase : Nat
  spLimit : Nat
  accs : BitVec 8
  bufs : BitVec 4
  deriving DecidableEq, Repr

/-- A partition's configurations: the one ctl.mcfg shows (R144) and the active one (R152). -/
structure MPart where
  shown : Word
  active : Word
  deriving DecidableEq, Repr

/-- A pinned parameter block of a copy engine (R269); the list is in order of use. -/
structure ParamBlock where
  vk : Nat
  addr : Addr
  bytes : List Byte
  deriving DecidableEq, Repr

structure Core where
  port : List Access
  landing : List Landing
  locks : List Lock
  tags : Tbl Tags
  copies : List CopyReq
  copySeq : Tbl (BitVec 32)
  params : List ParamBlock
  grants : Tbl Grant
  mparts : Tbl MPart
  mq : List MEntry
  accs : Vector (Vector (BitVec 32) 1024) 8
  accFail : Vector (Option Nat) 8
  bufs : Vector OpBuf 4
  bars : List BarInst
  /-- ctl.thr FACTOR (R401). -/
  factor : Nat
  deriving DecidableEq, Repr

/-- A core after reset (log entries 4 and 5 for what the spec gives no reset value). -/
def Core.blank : Core :=
  { port := [], landing := [], locks := [], tags := [], copies := [], copySeq := [], params := [], grants := [],
    mparts := [], mq := [], accs := Vector.replicate 8 (Vector.replicate 1024 0), accFail := Vector.replicate 8 none,
    bufs := Vector.replicate 4 ⟨0, none, []⟩, bars := [], factor := 256 }

/-! ### Routers -/

/-- An entry of a router's translation cache (R408): a leaf of VD `vk`, its first 4 KiB page, whether it is a 2 MiB leaf,
its fields, and the teams that pin it, one entry for each pin (R414). -/
structure TlbEntry where
  vk : Nat
  page : Nat
  big : Bool
  r : Bool
  w : Bool
  x : Bool
  il : Bool
  pa : Nat
  pins : List Nat
  deriving DecidableEq, Repr

/-- An entry of a miss table (R409, R410): what the coalesced accesses need, the waiting threads, and the answer token
while the entry is held for the host. -/
structure Miss where
  vk : Nat
  page : Nat
  needR : Bool
  needW : Bool
  needX : Bool
  waiters : List Nat
  held : Option Nat
  retried : Bool
  /-- A TLBINV marked the page: the walk's result is discarded (R415, R417). -/
  dead : Bool
  /-- The failure that the host has been told of was one of permission. -/
  perm : Bool
  /-- The virtual address of the access that entered it (R410). -/
  va : Nat
  /-- Engine operations that wait for it (R409). -/
  ops : List Nat
  deriving DecidableEq, Repr

/-- Chunks collected for one origin core at one output port of a router (R305). -/
structure AccordEntry where
  port : Nat
  origin : Nat
  /-- Retrace, record index and chunk number of each. -/
  chunks : List (Nat × Nat × Nat)
  since : Nat
  deriving DecidableEq, Repr

/-- A record in a router's log: its VD on the package of its segment's run, team, segment, index and words (R286). -/
structure LogEntry where
  vk : Nat
  team : Nat
  seg : Nat
  idx : Nat
  words : List Word
  deriving DecidableEq, Repr

structure Router where
  tlb : List TlbEntry
  misses : List Miss
  accord : List AccordEntry
  /-- Records that have not yet been written to their slots, oldest first (R286). -/
  log : List LogEntry
  /-- Engine operations whose walk of a page has failed, with the page's VD key and number (R410). -/
  fails : List (Nat × Nat × Nat)
  deriving DecidableEq, Repr

def Router.blank : Router := ⟨[], [], [], [], []⟩

/-! ### Rates and arbiters -/

/-- The rate fields of one class (R393); `rate` is DGBS for DRAM. -/
structure Rate where
  rate : Nat
  depth : Nat
  lend : Bool
  borrow : Bool
  deriving DecidableEq, Repr

/-- A bucket: its level in tokens and its accrual fraction in 1/262,144 tokens (R391, R401). -/
structure Bucket where
  level : Int
  frac : Nat
  /-- Grants made to the VD at this arbiter on its own tokens (R395). -/
  grants : Nat
  deriving DecidableEq, Repr

def Bucket.zero : Bucket := ⟨0, 0, 0⟩

/-- An arbiter (R391, R392, R395). Key 16 of `buckets` is the system bucket. -/
structure Arbiter where
  buckets : Tbl Bucket
  pool : Nat
  poolFrac : Nat
  /-- The bucket that it last granted; 16 before the first grant. -/
  last : Nat
  pending : List Offer
  /-- The cycle of its last accrual, and the cycle until which its server is busy. -/
  accrued : Nat
  busy : Nat
  deriving DecidableEq, Repr

def Arbiter.blank : Arbiter := ⟨[], 0, 0, 16, [], 0, 0⟩

/-! ### Virtual devices -/

/-- A tensor definition (R29, R411). -/
structure Tensor where
  base : Nat
  len : Nat
  pitch : Nat
  elem : Nat
  deriving DecidableEq, Repr

/-- A remap window (R320 to R322) with the team that defined it. -/
structure Remap where
  team : Nat
  rowBytes : Nat
  rows : List Nat
  deriving DecidableEq, Repr

/-- A member's part of a firing (R281, R282): its position, start stamp, status, the bytes read from its SRC and the start
value read from its DST; phase 0 started, 1 its tag set with its completion word still to land, 2 finished. -/
structure PlanPart where
  pos : Nat
  stamp : Nat
  status : Nat
  src : Option (List Byte)
  start : Option (List Byte)
  phase : Nat
  /-- The order of its completion (R271). -/
  ended : Nat
  /-- 64-byte units that its copy engine has moved (R392). -/
  paid : Nat
  deriving DecidableEq, Repr

/-- A plan firing. -/
structure Firing where
  seq : BitVec 32
  fireTime : Word
  late : Bool
  parts : List PlanPart
  /-- The thread and issue number of the store that fired it; none for a write of the host or of another package (R280). -/
  by_ : Option (Nat × Nat)
  deriving DecidableEq, Repr

/-- A plan (R278 to R283). -/
structure Plan where
  team : Nat
  desc : List Byte
  cls : BitVec 2
  members : List Nat
  next : BitVec 32
  running : Option Firing
  pendingFire : Option Firing
  /-- A PLANDROP waits for it (R283). -/
  dropped : Bool
  deriving DecidableEq, Repr

/-- A store or a host write that has reached the trigger word and is still to be applied there (R280): the trigger, its fire time,
and the store's core, access and lane. -/
structure Trigger where
  word : Word
  fireTime : Word
  src : Option (Nat × Nat × Nat)
  deriving DecidableEq, Repr

/-- A buffer handle (R424): its range, its last writer (0 the host, else a team) and its reading teams. -/
structure Handle where
  base : Nat
  len : Nat
  writer : Nat
  readers : List Nat
  deriving DecidableEq, Repr

structure Vd where
  isVd : Bool
  quar : Bool
  ways : Nat
  smax : Nat
  sways : Nat
  /-- A split accepted while a team runs (R178). -/
  newSways : Option Nat
  qpri : BitVec 24
  lrate : Word
  /-- Tokens of the eight launch buckets, in launches x 1,000,000 ns (R394), and the time to which they accrued. -/
  ltokens : Vector Nat 8
  ltime : Nat
  rates : Vector Rate 9
  /-- An accepted rate write that takes effect at the next epoch (R394). -/
  newRates : Vector (Option Rate) 9
  lastSel : Vector Nat 8
  selections : Nat
  slotMap : Tbl (BitVec 8)
  grantMap : Tbl (BitVec 32)
  trig : Addr
  plans : Tbl Plan
  planGen : Tbl (BitVec 7)
  triggers : List Trigger
  tensors : Tbl Tensor
  tensorGen : Tbl (BitVec 12)
  remaps : Tbl Remap
  handles : Tbl Handle
  rmode : BitVec 4
  newRmode : Option (BitVec 4)
  /-- The VD's copies of ctl.eccm by massif: CE and UE (R445). -/
  eccCe : Tbl Nat
  eccUe : Tbl Nat
  /-- The VD's measurement register, extended with each role image launched (R430). -/
  measured : BitVec 256
  /-- Last FACTOR reported of a core that it holds matrix grants on; 256 where absent (R402). -/
  thrReported : Tbl Nat
  deriving DecidableEq, Repr

/-- A virtual device at reset (R177, R178, R334, R393, R394, R423). -/
def Vd.blank : Vd :=
  { isVd := false, quar := false, ways := 0, smax := 0, sways := 0, newSways := none, qpri := 0xFAC688, lrate := 0,
    ltokens := Vector.replicate 8 0, ltime := 0, rates := Vector.replicate 9 ⟨0, 0, false, false⟩,
    newRates := Vector.replicate 9 none, lastSel := Vector.replicate 8 7, selections := 0, slotMap := [], grantMap := [],
    trig := 0, plans := [], planGen := [], triggers := [], tensors := [], tensorGen := [], remaps := [], handles := [],
    rmode := 0, newRmode := none, eccCe := [], eccUe := [], measured := 0, thrReported := [] }

/-! ### Teams -/

/-- A role of a launched module: load address, place in the module and length of its text and of its data, of length 0 where it
has none (R51 to R53, R56, R460). -/
structure Role where
  textAddr : Nat
  textOff : Nat
  textLen : Nat
  dataAddr : Nat
  dataOff : Nat
  dataLen : Nat
  deriving DecidableEq, Repr

/-- A thread of a team: role, slot, groups (R28, R203, R336). -/
structure Seat where
  fab : Nat
  role : Nat
  tid : Nat
  deriving DecidableEq, Repr

/-- A segment of the sillage (R286, R287). -/
structure Segment where
  gen : BitVec 7
  isOpen : Bool
  quota : Nat
  used : Nat
  closed : Bool
  /-- Package and first byte of its run in the spill region, and the run's length. -/
  pkg : Nat
  run : Nat
  runLen : Nat
  /-- Indices of the records made, in a router's log or in their slots of the run; any other slot is empty (R286, R296). -/
  records : List Nat
  /-- Those of them that were made before the team was restored on other slots: their paths are detoured (R309). -/
  old : List Nat
  deriving DecidableEq, Repr

/-- Where a team stands (R334 to R337, R356, R364, R366). -/
inductive TeamSt where
  | selected
  | bound
  | saved
  | completed
  | refused
  | stopped
  | discarded
  | reposted
  deriving DecidableEq, Repr

/-- A pre-emption request (R356 to R363): the action chosen (0 none yet, 1 drain, 2 discard, 3 save; 4 a stop for
CAPBAD, R224, and 5 a discard without reposting, R431), late, chosen by the host, the TOKEN of its entry, and the answer token while
the host is asked (R420). -/
structure PreReq where
  fn : Nat
  q : Nat
  entTok : Nat
  deadline : Nat
  allow : BitVec 3
  action : Nat
  late : Bool
  byHost : Bool
  token : Option Nat
  deriving DecidableEq, Repr

/-- What a save keeps of a core (R366). -/
structure SavedCore where
  gc : Nat
  tags : Tags
  copySeq : BitVec 32
  copies : List CopyReq
  locks : List Lock
  bars : List BarInst
  bytes : Tbl Byte
  full : List Nat
  part : MPart
  accs : Vector (Vector (BitVec 32) 1024) 8
  accFail : Vector (Option Nat) 8
  bufs : Vector OpBuf 4
  deriving DecidableEq, Repr

structure Team where
  vd : Nat
  num : Nat
  pkg : Nat
  st : TeamSt
  /-- Queue and token of the launch entry, descriptor address, the team it depends on, handle uses (R420, R331). -/
  q : Nat
  token : Nat
  descAddr : Nat
  dep : Option Nat
  uses : List (Nat × Bool × Bool)
  args : Word
  pkgs : Word
  spBase : Nat
  spSize : Nat
  fanout : Nat
  roles : List Role
  /-- `.place` entries: role, threads per core, count (R53). -/
  places : List (Nat × Nat × Nat)
  /-- Tensor entries, as id and definition (R53), the module's address, and whether the launch still stands at the head of its
  ring (R425). -/
  tensors : List (Nat × Tensor)
  modAddr : Nat
  inRing : Bool
  seats : List Seat
  groups : Tbl (List Nat)
  key : Nat
  spill : Word
  ctxsave : Word
  progTotal : BitVec 32
  progDone : BitVec 32
  mark : BitVec 32
  cdone : BitVec 32
  restarts : BitVec 8
  segs : Tbl Segment
  capbads : Nat
  t0 : Nat
  d0 : BitVec 32
  /-- Cores that hold the role image (R56). -/
  loaded : List Nat
  pre : Option PreReq
  shadows : List Thread
  heldLists : Tbl (List Landing)
  savedCores : List SavedCore
  /-- COUNT of each retired thread that a save keeps no shadow of (R209, R366). -/
  counts : Tbl (BitVec 32)
  /-- Pins to install again after a save: router, page, and whether it is one of 2 MiB (R414). -/
  pins : List (Nat × Nat × Bool)
  deriving DecidableEq, Repr

/-- A dispenser's task (R338). -/
structure Task where
  words : List Word
  prio : Nat
  deriving DecidableEq, Repr

/-- A team's queue in a cluster's dispenser (R338 to R341). -/
structure Disp where
  cluster : Nat
  vd : Nat
  team : Nat
  tasks : List Task
  places : Nat
  waiters : List Nat
  deriving DecidableEq, Repr

/-- A post of DISP, a barrier arrival, an addition of PROG or a record of CKPT that still travels (R340, R344, R358,
R360). -/
inductive Posted where
  | disp (id tid : Nat) (sc : Scope) (cluster vd team : Nat) (words : List Word) (prio : Nat)
  | arrival (id tid : Nat) (sc : Scope) (vk team n group : Nat) (cls : BitVec 2)
  | prog (id tid : Nat) (amount : BitVec 32)
  | ckpt (id tid : Nat) (sc : Scope) (mark : BitVec 32)
  deriving DecidableEq, Repr

/-! ### Sillage operations -/

/-- One delivery of a forward transfer (R293 to R298): record index, fabric numbers, addresses. -/
structure Delivery where
  idx : Nat
  orig : Nat
  recv : Nat
  key : BitVec 32
  saddr : Nat
  daddr : Nat
  /-- 64-byte units that the copy engine has moved (R296, R392). -/
  paid : Nat
  deriving DecidableEq, Repr

/-- A forward transfer (R295, R296). With a list it begins when the list is read (R294); the generations are those of the
reservation (R300). -/
structure Forward where
  id : Nat
  kind : Nat
  tid : Nat
  vk : Nat
  team : Nat
  seg : Nat
  tag : Nat
  cls : BitVec 2
  ret : Bool
  len : Nat
  naddr : Nat
  begun : Bool
  /-- Record count, first record, list address and base address, for a list still to be read. -/
  n : Nat
  first : Nat
  list : Nat
  base : Nat
  gens : Tbl (BitVec 12)
  todo : List Delivery
  status : Nat
  deriving DecidableEq, Repr

/-- A record of a retrace's range: its index, the origin that takes its place, whether it is lost or has failed (R303,
R307). -/
structure RetraceRec where
  idx : Nat
  origin : Nat
  out : Bool
  deriving DecidableEq, Repr

/-- A chunk of a gradient span (R304 to R306): record index, chunk number, whether it has been requested, its bytes once it has
arrived; on its way back, the router where it is, the router that the tables take it to, the recorded ports that it takes from
there on, and whether it has been detoured. -/
structure Chunk where
  recIdx : Nat
  num : Nat
  asked : Bool
  here : Nat
  toward : Option Nat
  way : List Nat
  turned : Bool
  data : Option (List Byte)
  deriving DecidableEq, Repr

/-- A target element: the locations of its bytes, what is still to be added (record index and offset in its span, in the order of
R302), the accumulator once the element has been read, and the records that cover it. -/
structure Target where
  locs : List Nat
  adds : List (Nat × Nat)
  acc : Option Nat
  recs : List Nat
  deriving DecidableEq, Repr

/-- A retrace (R301 to R309). Phase 0: lost records wait for the host; 1: queued or in its data pass; 2: its tag is set and
its completion word has still to land. Retraces of one segment run in list order (R309). -/
structure Retrace where
  id : Nat
  tid : Nat
  vk : Nat
  team : Nat
  seg : Nat
  tag : Nat
  cls : BitVec 2
  ty : Ty
  land : Option SReg
  soff : Word
  doff : Word
  phase : Nat
  recs : List RetraceRec
  begun : Bool
  chunks : List Chunk
  targets : List Target
  detour : Bool
  status : Nat
  /-- The order of its completion (R271). -/
  ended : Nat
  deriving DecidableEq, Repr

/-! ### Functions: submission queues and event rings (R420 to R422) -/

structure Queue where
  base : Nat
  log : Nat
  head : Nat
  tail : Nat
  en : Bool
  err : Bool
  /-- An entry whose action waits holds the head of the queue (R425): the answer token or invalidation that it waits for. -/
  waiting : Option Nat
  /-- A launch reposted at the front of the queue (R364): its team number. -/
  front : List Nat
  deriving DecidableEq, Repr

def Queue.blank : Queue := ⟨0, 6, 0, 0, false, false, none, []⟩

structure Ring where
  base : Nat
  log : Nat
  ehead : Nat
  etail : Nat
  lost : Nat
  mask : Bool
  en : Bool
  seq : Nat
  /-- Records held, oldest first, 48 bytes each. -/
  hold : List (List Byte)
  /-- Records dropped since the last record of type 9. -/
  dropped : Nat
  /-- Times that the ring's MSI-X vector has been raised (R418, R422). -/
  raised : Nat
  deriving DecidableEq, Repr

def Ring.blank : Ring := ⟨0, 6, 0, 0, 0, false, false, 0, [], 0, 0⟩

structure Function where
  queues : Vector Queue 8
  rings : Vector Ring 2
  /-- The last quote that its mailbox holds for the host (R430). -/
  quote : List Byte
  deriving DecidableEq, Repr

def Function.blank : Function := ⟨Vector.replicate 8 Queue.blank, Vector.replicate 2 Ring.blank, []⟩

/-! ### Packages -/

/-- Wear of a physical cluster (R447, R448, R452). -/
structure Wear where
  index : Nat
  guard : Nat
  i30 : Nat
  life : Nat
  /-- The daily index history, newest first. -/
  history : List Nat
  setpoint : Nat
  deriving DecidableEq, Repr

def Wear.blank : Wear := ⟨0, 0, 0, 0xFFFF, [], 0⟩

/-- An image in flash that the boot ROM checks: the SM3 digest of its text, and what the SM2 check of its signature finds (R429). -/
structure Image where
  digest : BitVec 256
  verifies : Bool
  deriving DecidableEq, Repr

/-- The Olush controller's RISC-V core: its registers and pc, whether it is in machine mode, its 16 memory-protection regions as
configuration and address, and its 2 MiB of memory, zero where no byte is listed (R454; values at reset DESIGN CHOICE, log entry
109). -/
structure Olush where
  regs : List Word
  pc : Word
  machine : Bool
  pmp : List (BitVec 8 × Word)
  mem : List Host.Cell
  deriving DecidableEq, Repr

def Olush.blank : Olush := ⟨List.replicate 32 0, 0, true, List.replicate 16 (0, 0), []⟩

/-- The part of the health record that a reset leaves as the last write of the record made it: the error counts of R445 by massif,
and the physical massifs that were withdrawn as worn out (R452). -/
structure Health where
  ce : Tbl Nat
  ue : Tbl Nat
  massifs : List Nat
  deriving DecidableEq, Repr

structure Pkg where
  /-- The cycle of its last reset, from which its cores count their slots (R326) and its arbiters accrue (R391). -/
  resetAt : Nat
  /-- Offset of ctl.time from the domain's count, in ns (R14). -/
  timeOff : Nat
  /-- Launches are accepted (R455). -/
  booted : Bool
  /-- The latch of the glitch and tamper sensors; the keys are erased, until the part is enrolled again (R431, R453). -/
  latch : Bool
  erased : Bool
  rmode : BitVec 3
  newRmode : Option (BitVec 3)
  /-- The shape: cluster counts of the logical massifs, and core counts of logical clusters where below 128 (R3, R451). -/
  shape : List Nat
  cores : Tbl Nat
  /-- Physical cluster of a logical one (massif * 16 + cluster), itself where absent; physical cores of a logical cluster in
  logical order, 0 to 127 where absent (R10, R451). -/
  phys : Tbl Nat
  physCores : Tbl (List Nat)
  /-- Worn-out flags of the health record: clusters by massif * 16 + cluster, cores by cluster * 128 + core (R452). -/
  wornClusters : List Nat
  wornCores : List Nat
  healthSeq : Nat
  mirrorSeq : Nat
  configVersion : Nat
  rollback : Nat
  /-- The configuration record's number for this package, domain, fan-out for boot, the far end of each link, setpoint
  window, operator keys (R428, R429, R453, R455, R458). -/
  number : Nat
  domain : Nat
  bootFanout : Nat
  farEnd : Tbl Nat
  window : Nat × Nat
  opKeys : List (BitVec 512)
  wear : Tbl Wear
  eccCe : Tbl Nat
  eccUe : Tbl Nat
  /-- Corrections by 4 KiB unit since the last event of type 22 (R444). -/
  corrections : Tbl Nat
  /-- Thopeif links up, and mesh, vertical and bridge links down (R427, R428, R446). With n = physical massif * 256 +
  a router's place in it, link n joins the router to the one east of it, 2^11 + n to the one north of it, 2^12 + n and 2^12 + 2^11 + n
  by a bridge to the massif in the next column and in the next row, and 2^14 + n to the slice beneath it (R9, R11, R13). -/
  linksUp : List Nat
  linksDown : List Nat
  /-- Slices that a reset has deconfigured, by physical massif * 256 + the place of the router above (R446, R451). -/
  slicesOut : List Nat
  /-- Failures in a row of the flit that a link is sending (R446). -/
  replays : Tbl Nat
  /-- Route-table generation of the package's routers (R306, R446). -/
  routeGen : Nat
  /-- Layers by massif * 8 + layer: 0 base rate, 1 twice, 2 four times the base rate (R18); massifs withheld. -/
  bands : Tbl Nat
  withheld : List Nat
  /-- Measurement registers (R430): firmware, configuration record, health record. -/
  measured : List (BitVec 256)
  /-- The images in flash, in the same order, and what the health record holds beside the fields above (R429, R452). -/
  images : List Image
  health : Health
  olush : Olush
  deriving DecidableEq, Repr

/-- A package after boot in the full shape (log entries 2, 8 and 9). -/
def Pkg.blank : Pkg :=
  { resetAt := 0, timeOff := 0, booted := true, latch := false, erased := false, rmode := 0, newRmode := none,
    shape := [16, 16, 16, 16, 16, 16, 16, 16], cores := [], phys := [], physCores := [], wornClusters := [], wornCores := [],
    healthSeq := 0, mirrorSeq := 0, configVersion := 0, rollback := 0, number := 0, domain := 0, bootFanout := 4,
    farEnd := [], window := (0, 0), opKeys := [], wear := [], eccCe := [], eccUe := [], corrections := [],
    linksUp := [], linksDown := [], slicesOut := [], replays := [], routeGen := 0, bands := [], withheld := [],
    measured := [0, 0, 0], images := [⟨0, true⟩, ⟨0, true⟩, ⟨0, true⟩], health := ⟨[], [], []⟩, olush := Olush.blank }

/-! ### Cases held for the host, and invalidations in progress -/

/-- What an answer of the host decides (R289, R307, R357, R410, R447, R450). -/
inductive CaseKind where
  | spill (tid : Nat) (quota : Nat)
  | retrace (tid : Nat) (rec : Nat)
  | preempt (vd team : Nat)
  | walk (router vk page : Nat)
  | guard (pkg cluster step : Nat)
  | deconf (pkg cluster : Nat) (core : Option Nat)
  deriving DecidableEq, Repr

structure HostCase where
  token : Nat
  fn : Nat
  kind : CaseKind
  /-- The time after which an answer is ignored. -/
  until_ : Nat
  answer : Option Word
  deriving DecidableEq, Repr

/-- A TLBINV or an invalidate entry that waits for holders (R415). -/
structure Invalidation where
  id : Nat
  /-- The waiting thread, or none for a queue entry. -/
  tid : Option Nat
  fn : Nat
  token : Nat
  vk : Nat
  lo : Nat
  hi : Nat
  deadline : Option Nat
  /-- Engine operations that still hold a marked entry, and issue number up to which accesses may hold one. -/
  holders : List Nat
  before : Nat
  cancelled : Nat
  deriving DecidableEq, Repr

/-! ### What comes next -/

/-- The next thing that happens: a turn of a thread in the barrel (R326), a step of the part, the passing of time; the eviction of
the tile that holds a byte of a VD's DRAM window (R176), the oldest record of a router's log going to its slot (R286); a store of
the host into its own memory, one into the system region by BAR2 (R423), a change of what the host's IOMMU refuses (R419); an error
that arises in the code unit at a location (R443); a flit that passes on a link after replays (R446); a new image in flash (R429), the
enrolment of a part whose keys are erased (R431), and what the controller's firmware makes of its core (R454, log entry 109). -/
inductive Pick where
  | turn (t : Nat)
  | event (i : Instr)
  | tick (cycles : Nat)
  | evict (vk off : Nat)
  | logWrite (router : Nat)
  | hostStore (pasid addr : Nat) (bytes : List Byte)
  | regionStore (pkg off : Nat) (bytes : List Byte)
  | iommu (pasid page : Nat) (refuses : Bool)
  | decay (mem : ScrubMem) (loc : Nat) (corrects : Bool)
  | flitOk (link : Nat)
  | flash (pkg image : Nat) (x : Image)
  | enrol (pkg : Nat)
  | firmware (pkg : Nat) (x : Olush)
  deriving DecidableEq, Repr

/-! ### The state -/

structure State where
  /-- The thread in focus; instructions execute in it (log entry 11). -/
  thr : Thread
  /-- Every other thread that exists. -/
  threads : Tbl Thread
  cores : Tbl Core
  routers : Tbl Router
  arbiters : Tbl Arbiter
  vds : Tbl Vd
  teams : List Team
  disps : List Disp
  posted : List Posted
  forwards : List Forward
  retraces : List Retrace
  fns : Tbl Function
  pkgs : Tbl Pkg
  cases : List HostCase
  invs : List Invalidation
  /-- Memory: listed bytes, addresses strictly rising, none zero (R455: memory is zeroed). -/
  mem : List Host.Cell
  /-- What DRAM holds under bytes written since their tile was last written back (R176, R200). -/
  back : Tbl Byte
  /-- Scratchpad words that are full (R191). -/
  full : List Nat
  /-- Code units that hold an uncorrectable error: first location and length of each (R443). -/
  ue : List (Nat × Nat)
  /-- Code units that hold a correctable error, which the next read of them corrects (R443). -/
  ce : List (Nat × Nat)
  /-- I/O pages that the host's IOMMU refuses: function that stands for the PASID, and page (R419). -/
  iommu : List (Nat × Nat)
  /-- Cycles of the core clock (R326), the base of ctl.time (R14); a package counts from its own reset, `Pkg.resetAt`. -/
  cycle : Nat
  /-- Number given to the next instruction, access or operation. -/
  seq : Nat
  /-- Number of the next free value. -/
  free : Nat
  /-- Number of the next answer token. -/
  token : Nat
  agenda : List Pick
  deriving DecidableEq, Repr

/-- Why a step stops with a fault. -/
inductive Fault where
  /-- Raised by `step` when the agenda names an instruction where a step of the part belongs; safe: the schedule is no
  schedule of the part. -/
  | agendaNamesInstruction
  deriving DecidableEq, Repr

/-- Why an instruction has no meaning. -/
inductive Refusal where
  /-- Raised by `exec` for an instruction that is not modelled; safe. -/
  | notModelled (mnemonic : String)
  deriving DecidableEq, Repr

/-- The record of type 26 that the controller posts at the end of boot (R455, R353): source kind 2. -/
def bootRecord : List Byte :=
  [0, 0, 0, 0, 0, 0, 0, 0] ++ [26, 0, 0, 0] ++ [0, 0, 0, 0x80] ++ [0, 0, 0, 0] ++ [0xFF, 0xFF, 0xFF, 0xFF] ++
  [0x08, 0x10, 0x80, 0x01, 0, 0, 0, 0] ++ [0x10, 0x42, 0x08, 0x21, 0x84, 0, 0, 0] ++ [0, 0, 0, 0, 0, 0, 0, 0]

/-- The domain of one package in the full shape, right after its reset has run to the end of boot (R455): no thread, no
virtual device, memory zero, and the event of type 26 held because the ring's EN is 0 (R422). -/
def State.reset : State :=
  { thr := Thread.blank 0, threads := [], cores := [], routers := [], arbiters := [], vds := [], teams := [], disps := [],
    posted := [], forwards := [], retraces := [],
    fns := [(0, ⟨Vector.replicate 8 Queue.blank, Vector.ofFn fun i =>
      if i.val = 0 then { Ring.blank with hold := [bootRecord] } else Ring.blank, []⟩)],
    pkgs := [(0, Pkg.blank)], cases := [], invs := [],
    mem := [], back := [], full := [], ue := [], ce := [], iommu := [], cycle := 0, seq := 0, free := 0, token := 0, agenda := [] }

end Sys2Proof.Machine
end

