-- ==== Sys2Proof/Machine/Bits.lean ====
section
/-! DEFINITION. Bit fields, byte order, sparse tables and the list of memory bytes. -/

namespace Sys2Proof.Machine

/-! ### Sparse tables -/

/-- The entry of a key, if listed. -/
def tblFind {α : Type} : Tbl α → Nat → Option α
  | [], _ => none
  | (k, a) :: t, n => if k = n then some a else tblFind t n

/-- The entry of a key, or a default. -/
def tblGet {α : Type} (t : Tbl α) (n : Nat) (d : α) : α := (tblFind t n).getD d

/-- Set the entry of a key, keys kept rising. -/
def tblPut {α : Type} : Tbl α → Nat → α → Tbl α
  | [], n, x => [(n, x)]
  | (k, a) :: t, n, x => if n < k then (n, x) :: (k, a) :: t else if k = n then (n, x) :: t else (k, a) :: tblPut t n x

/-- Remove a key. -/
def tblDel {α : Type} (t : Tbl α) (n : Nat) : Tbl α := t.filter fun e => e.1 != n

/-! ### Bytes (R4: little-endian) -/

/-- The `n` low bytes of a number, lowest first. -/
def toBytes : Nat → Nat → List Byte
  | 0, _ => []
  | n + 1, x => BitVec.ofNat 8 x :: toBytes n (x / 256)

/-- The number whose bytes, lowest first, these are. -/
def ofBytes : List Byte → Nat
  | [] => 0
  | b :: bs => b.toNat + 256 * ofBytes bs

/-- A field of a number: bits hi down to lo. -/
def fieldN (x hi lo : Nat) : Nat := x / 2 ^ lo % 2 ^ (hi + 1 - lo)

/-- A field of a word: bits hi down to lo. -/
def field (x : Word) (hi lo : Nat) : Nat := fieldN x.toNat hi lo

/-- A bit of a word as a Bool. -/
def bitOf (x : Word) (i : Nat) : Bool := x.getLsbD i

/-- x[n-1:0] sign-extended to 64 bits, 1 ≤ n ≤ 64 (R32). -/
def signExt (x : Word) (n : Nat) : Word := (x <<< (64 - n)).sshiftRight (64 - n)

/-- x[n-1:0] zero-extended to 64 bits (R32). -/
def zeroExt (x : Word) (n : Nat) : Word := (x <<< (64 - n)) >>> (64 - n)

/-- An imm16, sign-extended. -/
def imm (i : BitVec 16) : Word := i.signExtend 64

/-- Lane `i` of `w` bits of a vector register (R115). -/
def lane (v : VWord) (w i : Nat) : Nat := v.toNat / 2 ^ (w * i) % 2 ^ w

/-- A vector register built from its lanes of `w` bits, lane 0 first. -/
def ofLanes (w : Nat) : List Nat → Nat
  | [] => 0
  | x :: xs => x % 2 ^ w + 2 ^ w * ofLanes w xs

/-- The 1,024-bit value of a list of lanes. -/
def vOfLanes (w : Nat) (xs : List Nat) : VWord := BitVec.ofNat 1024 (ofLanes w xs)

/-- The lanes of a register, lane 0 first. -/
def lanes (v : VWord) (w : Nat) : List Nat := (List.range (1024 / w)).map (lane v w)

/-- Two's-complement reading of `w` bits. -/
def toSigned (w x : Nat) : Int := if x % 2 ^ w < 2 ^ (w - 1) then (x % 2 ^ w : Nat) else (x % 2 ^ w : Nat) - (2 ^ w : Nat)

/-- The low `w` bits of an integer. -/
def ofSigned (w : Nat) (x : Int) : Nat := (x % (2 ^ w : Nat)).toNat

/-- Whether lane `i` of width `w` is active under a predicate (R116). -/
def activeLane (p : PWord) (w i : Nat) : Bool := p.getLsbD (i * w / 8)

/-- Number of one bits among the low `n`. -/
def popcount : Nat → Nat → Nat
  | 0, _ => 0
  | n + 1, x => x % 2 + popcount n (x / 2)

/-- Index of the lowest one bit among `n`, or `n`. -/
def lowestOne : Nat → Nat → Nat
  | 0, _ => 0
  | n + 1, x => if x % 2 = 1 then 0 else 1 + lowestOne n (x / 2)

/-- Number of zero bits above the highest one bit of an `n`-bit number; `n` for zero. -/
def leadingZeros : Nat → Nat → Nat
  | 0, _ => 0
  | n + 1, x => if x / 2 ^ n % 2 = 1 then 0 else 1 + leadingZeros n x

/-- Division rounded up. -/
def ceilDiv (a b : Nat) : Nat := (a + b - 1) / b

/-- Put an element into a list sorted by a key, after its equals. -/
def insertBy {α : Type} (f : α → Nat) (x : α) : List α → List α
  | [] => [x]
  | y :: ys => if f x < f y then x :: y :: ys else y :: insertBy f x ys

/-- A list sorted by a key, equals in their order. -/
def sortBy {α : Type} (f : α → Nat) (xs : List α) : List α := xs.foldl (fun acc x => insertBy f x acc) []

/-- Two ranges of addresses meet. -/
def overlaps (a la b lb : Nat) : Bool := a < b + lb && b < a + la

/-! ### Memory bytes -/

/-- The byte at a location; an unlisted one reads as zero (R455, log entry 7). -/
def memRead : List Host.Cell → Nat → Byte
  | [], _ => 0
  | (k, b) :: m, a => if k = a then b else memRead m a

/-- Put a byte at its place in the list. -/
def memInsert : List Host.Cell → Nat → Byte → List Host.Cell
  | [], a, b => [(a, b)]
  | (k, c) :: m, a, b =>
    if a < k then (a, b) :: (k, c) :: m else if k = a then (a, b) :: m else (k, c) :: memInsert m a b

/-- Write a byte; writing what an unlisted location reads as removes the entry. -/
def memWrite (m : List Host.Cell) (a : Nat) (b : Byte) : List Host.Cell :=
  if b = 0 then m.filter fun c => c.1 != a else memInsert m a b

/-- The `n` bytes from a location on. -/
def memReadN (m : List Host.Cell) (a n : Nat) : List Byte := (List.range n).map fun i => memRead m (a + i)

/-- Write bytes from a location on. -/
def memWriteN : List Host.Cell → Nat → List Byte → List Host.Cell
  | m, _, [] => m
  | m, a, b :: bs => memWriteN (memWrite m a b) (a + 1) bs

/-- The canonical form: locations strictly rising, no entry zero. -/
def memWf : List Host.Cell → Bool
  | [] => true
  | [(_, b)] => b != 0
  | (k, b) :: (k', b') :: m => b != 0 && decide (k < k') && memWf ((k', b') :: m)

end Sys2Proof.Machine
end

