-- ==== Sys2Proof/Machine/Ops.lean ====
section
/-! DEFINITION. The named operations over the state: tables of threads, cores and teams, the time base, registers and
their presence bits, the result buffer, the program counter and the loop contexts, parks, event records, landings, traps
and the return from one. -/

namespace Sys2Proof.Machine

/-- The outcome of an instruction or step. -/
abbrev Out := Host.Outcome State Fault Refusal

/-! ### Numbers of things -/

def coreOf (t : Nat) : Nat := t / 8
def slotOf (t : Nat) : Nat := t % 8
def clusterOf (gc : Nat) : Nat := gc / 128
def massifOf (gc : Nat) : Nat := gc / 2048 % 8
def pkgOf (gc : Nat) : Nat := gc / 16384
def pkgOfThread (t : Nat) : Nat := t / 131072
/-- The VD key of a VD number on a package. -/
def vdKey (pkg vd : Nat) : Nat := pkg * 16 + vd
/-- The function of a VD key: virtual function v + 1 of its package (R418). -/
def fnOfVd (vk : Nat) : Nat := vk / 16 * 32 + 1 + vk % 16
/-- The physical function of a package. -/
def pfOf (pkg : Nat) : Nat := pkg * 32

/-! ### Reading and writing the tables -/

def State.thread (s : State) (t : Nat) : Thread :=
  if s.thr.id = t then s.thr else tblGet s.threads t (Thread.blank t)

def State.setThread (s : State) (x : Thread) : State :=
  if s.thr.id = x.id then { s with thr := x } else { s with threads := tblPut s.threads x.id x }

def State.modThread (s : State) (t : Nat) (f : Thread → Thread) : State := s.setThread (f (s.thread t))

/-- Change the thread in focus. -/
def State.modThr (s : State) (f : Thread → Thread) : State := { s with thr := f s.thr }

/-- Bring a thread into focus. -/
def State.focus (s : State) (t : Nat) : State :=
  if s.thr.id = t then s
  else { s with thr := tblGet s.threads t (Thread.blank t),
                threads := tblDel (tblPut s.threads s.thr.id s.thr) t }

def State.core (s : State) (gc : Nat) : Core := tblGet s.cores gc Core.blank
def State.setCore (s : State) (gc : Nat) (c : Core) : State := { s with cores := tblPut s.cores gc c }
def State.modCore (s : State) (gc : Nat) (f : Core → Core) : State := s.setCore gc (f (s.core gc))

def State.router (s : State) (r : Nat) : Router := tblGet s.routers r Router.blank
def State.modRouter (s : State) (r : Nat) (f : Router → Router) : State :=
  { s with routers := tblPut s.routers r (f (s.router r)) }

def State.vd (s : State) (vk : Nat) : Vd := tblGet s.vds vk Vd.blank
def State.modVd (s : State) (vk : Nat) (f : Vd → Vd) : State := { s with vds := tblPut s.vds vk (f (s.vd vk)) }

def State.fn (s : State) (n : Nat) : Function := tblGet s.fns n Function.blank
def State.modFn (s : State) (n : Nat) (f : Function → Function) : State := { s with fns := tblPut s.fns n (f (s.fn n)) }

def State.pkg (s : State) (p : Nat) : Pkg := tblGet s.pkgs p Pkg.blank
def State.modPkg (s : State) (p : Nat) (f : Pkg → Pkg) : State := { s with pkgs := tblPut s.pkgs p (f (s.pkg p)) }

/-- Whether a team is the one named. -/
def Team.is (vd num : Nat) (t : Team) : Bool := t.vd == vd && t.num == num

def State.findTeam (s : State) (vd num : Nat) : Option Team := s.teams.find? (Team.is vd num)

def State.modTeam (s : State) (vd num : Nat) (f : Team → Team) : State :=
  { s with teams := s.teams.map fun t => if t.is vd num then f t else t }

/-- The core of the thread in focus. -/
def State.gc (s : State) : Nat := coreOf s.thr.id
/-- The VD key of the thread in focus on its own package. -/
def Thread.vk (t : Thread) : Nat := vdKey (pkgOfThread t.id) t.vd
def Thread.teamNum (t : Thread) : Nat := t.team.toNat
/-- The fabric number that ctl.self shows (R336). -/
def Thread.fabno (t : Thread) : Nat := field t.self 19 0

/-- The tag bitmap of a VD on a core (R261). -/
def Core.tagsOf (c : Core) (vk : Nat) : Tags := tblGet c.tags vk Tags.zero
def Core.grantOf (c : Core) (vk : Nat) : Grant := tblGet c.grants vk ⟨0, 0, 0, 0⟩
def Core.mpartOf (c : Core) (vk : Nat) : MPart := tblGet c.mparts vk ⟨0, 0⟩

/-- Whether a thread's team is bound and running: a thread that exists and has not retired. -/
def Thread.live (t : Thread) : Bool := t.st != .absent && t.st != .retired

/-! ### Numbers and free values -/

/-- Take an issue number. -/
def State.bump (s : State) : State := { s with seq := s.seq + 1 }

/-- The time base of a package, in ns: 1.000 GHz beside the 850 MHz clock (R14). -/
def State.time (s : State) (pkg : Nat) : Nat := s.cycle * 20 / 17 + (s.pkg pkg).timeOff

/-! ### Registers and presence bits (R20, R38, R84) -/

def Thread.hasS (t : Thread) (r : SReg) : Bool := t.sFull.getLsbD r.val
def Thread.hasV (t : Thread) (r : VReg) : Bool := t.vFull.getLsbD r.val
/-- `p0` is always full (R38, R220). -/
def Thread.hasP (t : Thread) (r : PReg) : Bool := r.val == 0 || t.pFull.getLsbD r.val

def Thread.getS (t : Thread) (r : SReg) : Word := t.sregs[r.val]
def Thread.getV (t : Thread) (r : VReg) : VWord := t.vregs[r.val]
/-- `p0` reads all ones (R38). -/
def Thread.getP (t : Thread) (r : PReg) : PWord := if r.val = 0 then BitVec.allOnes 128 else t.pregs[r.val]

def Reg.isFull (t : Thread) : Reg → Bool
  | .s r => t.hasS r
  | .v r => t.hasV r
  | .p r => t.hasP r

/-- The code of a register (R38), for ctl.tval and windows. -/
def regCode : Reg → Nat
  | .s r => r.val
  | .v r => r.val + 32
  | .p r => r.val + 48

def regOfWrite : RegWrite → Reg
  | .s r _ => .s r
  | .v r _ => .v r
  | .p r _ => .p r

/-- Discard the buffered results for a register (R45, R221). -/
def Thread.supersede (t : Thread) (r : Reg) : Thread :=
  { t with buf := t.buf.map fun e => { e with writes := e.writes.filter fun w => regOfWrite w != r } }

/-- Put a value into a register and set its presence bit; a write to `p0` is discarded (R32, R38). -/
def Thread.putReg (t : Thread) : RegWrite → Thread
  | .s r x => { t with sregs := t.sregs.set r.val x, sFull := t.sFull ||| (1#32 <<< r.val) }
  | .v r x => { t with vregs := t.vregs.set r.val x, vFull := t.vFull ||| (1#16 <<< r.val) }
  | .p r x => if r.val = 0 then t else { t with pregs := t.pregs.set r.val x, pFull := t.pFull ||| (1#8 <<< r.val) }

/-- A simple result: it supersedes every buffered result for its register (R32, R45). -/
def Thread.write (t : Thread) (w : RegWrite) : Thread := (t.supersede (regOfWrite w)).putReg w

/-- Empty a register: presence bit cleared, data zero, buffered results discarded (R221). -/
def Thread.clear (t : Thread) (r : Reg) : Thread :=
  let t := t.supersede r
  match r with
  | .s r => { t with sregs := t.sregs.set r.val 0, sFull := t.sFull &&& ~~~(1#32 <<< r.val) }
  | .v r => { t with vregs := t.vregs.set r.val 0, vFull := t.vFull &&& ~~~(1#16 <<< r.val) }
  | .p r => if r.val = 0 then t else { t with pregs := t.pregs.set r.val 0, pFull := t.pFull &&& ~~~(1#8 <<< r.val) }

def State.writeS (s : State) (r : SReg) (x : Word) : State := s.modThr fun t => t.write (.s r x)
def State.writeV (s : State) (r : VReg) (x : VWord) : State := s.modThr fun t => t.write (.v r x)
def State.writeP (s : State) (r : PReg) (x : PWord) : State := s.modThr fun t => t.write (.p r x)

/-! ### Event records (R352, R353, R422) -/

/-- The 48 bytes of a record. -/
def evRecord (time type cause vd kind num team fab i0 i1 : Nat) : List Byte :=
  toBytes 8 time ++ toBytes 2 type ++ toBytes 1 cause ++ toBytes 1 vd ++ toBytes 4 (kind * 2 ^ 30 + num) ++
  toBytes 4 team ++ toBytes 4 fab ++ toBytes 8 i0 ++ toBytes 8 i1 ++ toBytes 8 0

/-- No fabric number (R353). -/
def noFab : Nat := 0xFFFFFFFF

/-- Location of byte `a` of the I/O address space of a function (R418, R419). -/
def hostLoc (fn a : Nat) : Nat := 2 ^ 62 + fn * 2 ^ 52 + a

def Ring.size (r : Ring) : Nat := 2 ^ r.log
def Ring.isFull (r : Ring) : Bool := (r.etail + 1) % r.size == r.ehead

/-- Write one record into the slot at ETAIL; the ring's vector is raised where it is not masked (R418, R422). -/
def ringWrite (s : State) (fn r : Nat) (rec : List Byte) : State :=
  let f := s.fn fn
  match f.rings[r]? with
  | none => s
  | some g =>
    let seq := g.seq + 1
    let s := { s with mem := memWriteN s.mem (hostLoc fn (g.base + 64 * g.etail)) (rec ++ toBytes 8 seq ++ toBytes 8 0) }
    s.modFn fn fun f => { f with rings := f.rings.setIfInBounds r { g with
      seq := seq, etail := (g.etail + 1) % g.size, raised := if g.mask then g.raised else g.raised + 1 } }

/-- Post a record: written if the ring has room and nothing waits, else held, else dropped and counted (R422). -/
def ringPost (s : State) (fn r : Nat) (rec : List Byte) : State :=
  match (s.fn fn).rings[r]? with
  | none => s
  | some g =>
    if g.en && !g.isFull && g.hold.isEmpty then ringWrite s fn r rec
    else
      let g' : Ring := if g.hold.length < 256 then { g with hold := g.hold ++ [rec] }
        else { g with lost := min (g.lost + 1) 0xFFFF, dropped := g.dropped + 1 }
      s.modFn fn fun f => { f with rings := f.rings.setIfInBounds r g' }

/-- The ring that a record of this type and source goes to (R422): its function and its ring number. -/
def ringOf (pkg vd type kind : Nat) : Nat × Nat :=
  if 21 ≤ type && type ≤ 26 then (pfOf pkg, 0)
  else if (16 ≤ type && type ≤ 20) || type == 27 then (fnOfVd (vdKey pkg vd), 0)
  else if kind == 2 then (pfOf pkg, 0)
  else if kind == 1 then (fnOfVd (vdKey pkg vd), 0)
  else (fnOfVd (vdKey pkg vd), 1)

/-- Post an event of a package with its time stamp (R352, R353). Kind 0 cluster, 1 command processor, 2 Olush. -/
def postEvent (s : State) (pkg vd type cause kind num team fab i0 i1 : Nat) : State :=
  let (fn, r) := ringOf pkg vd type kind
  ringPost s fn r (evRecord (s.time pkg) type cause vd kind num team fab i0 i1)

/-- Post an event of a VD's command processor (kind 1, numbered by its VD). -/
def postCp (s : State) (vk type team i0 i1 : Nat) : State :=
  postEvent s (vk / 16) (vk % 16) type 0 1 (vk % 16) team noFab i0 i1

/-- Post an event of the Olush controller (kind 2). -/
def postOlush (s : State) (pkg vd type i0 i1 : Nat) : State := postEvent s pkg vd type 0 2 0 0 noFab i0 i1

/-! ### Asynchronous causes (R347, R330) -/

/-- Put a cause behind those that are pending; held refusals stand in the order of their arrivals (R219, R347). -/
def pendPut (p : Pending) (ps : List Pending) : List Pending :=
  let late (q : Pending) : Bool := p.fsrc.isSome && q.fsrc.isSome && p.arr < q.arr
  ps.takeWhile (fun q => !late q) ++ p :: ps.dropWhile fun q => !late q

/-- A register is full, by its code (R38). -/
def Thread.fullCode (t : Thread) (c : Nat) : Bool :=
  if c < 32 then t.sFull.getLsbD c else if c < 48 then t.vFull.getLsbD (c - 32) else c == 48 || t.pFull.getLsbD (c - 48)

/-- What a park waits for has come: the wait's result, every awaited register, or room for the stalled send (R329, R330). -/
def Thread.parkOver (t : Thread) (p : Park) : Bool :=
  match t.wait with
  | .tag _ _ _ r => r.isSome
  | .waitge _ r _ => r.isSome
  | .barrier _ ended => ended
  | _ => if p.regs.isEmpty then decide (t.sendq.length < 4) else p.regs.all t.fullCode

/-- A park whose end has not come is cut by a cause that a boundary delivers, which handler mode does not (R330, R349). -/
def Thread.cutPark (t : Thread) : Thread :=
  if t.hm then t else { t with park := t.park.map fun p => if t.parkOver p then p else { p with cut := true } }

/-- Add a pending cause to a thread that has not retired. -/
def Thread.addCause (t : Thread) (p : Pending) : Thread :=
  if t.live then { t with pend := pendPut p t.pend }.cutPark else t

def Thread.pendCause (t : Thread) (code : Nat) (tval : Word) : Thread := t.addCause ⟨code, tval, none, 0⟩

def State.pend (s : State) (t : Nat) (code : Nat) (tval : Word) : State :=
  s.modThread t fun x => x.pendCause code tval

/-- A pending cause ends what the thread waits in, or is delivered at its next boundary (R330, R347, R349). -/
def Thread.called (t : Thread) : Bool := !t.pend.isEmpty && !t.hm && t.stop != 2

/-! ### Cause codes (R350) -/

def cIllegal : Nat := 0x01
def cLinefmt : Nat := 0x02
def cAlign : Nat := 0x03
def cXlate : Nat := 0x04
def cPerm : Nat := 0x05
def cRlock : Nat := 0x06
def cParklong : Nat := 0x07
def cSyncretry : Nat := 0x08
def cRegovw : Nat := 0x09
def cCapbad : Nat := 0x0A
def cSendfail : Nat := 0x0B
def cTapefull : Nat := 0x0C
def cStalegen : Nat := 0x0D
def cMemue : Nat := 0x0E
def cFmtbad : Nat := 0x0F
def cTrapi : Nat := 0x10
def cLoopbusy : Nat := 0x11
def cPriv : Nat := 0x12
def cCntovf : Nat := 0x13
def cPreempt : Nat := 0x14

/-! ### Landings (R215 to R219, R225) -/

/-- Landing mode of a register code: 0 PARK, 1 FAULT, 2 LATEST (R217). -/
def Thread.landMode (t : Thread) (code : Nat) : Nat :=
  if code < 32 then fieldN t.lands.toNat (2 * code + 1) (2 * code)
  else fieldN t.landv.toNat (2 * (code - 32) + 1) (2 * (code - 32))

/-- The register that a landing writes. -/
def Landing.write (l : Landing) : Option RegWrite :=
  if h : l.reg < 32 then some (.s ⟨l.reg, h⟩ (l.value.setWidth 64))
  else if h : l.reg - 32 < 16 then some (.v ⟨l.reg - 32, h⟩ l.value)
  else none

/-- Registers that a WFW has emptied and whose binding has not landed (R341). -/
def Thread.awaitsWork (t : Thread) (code : Nat) : Bool :=
  match t.st with
  | .waitWork d => d.val ≤ code && code ≤ d.val + 3
  | _ => false

/-- What happens to an arrival (R216). -/
inductive LandResult where
  | land (t : Thread)
  | hold
  | refuse
  | drop

/-- Handle an arrival against a thread and the arrivals held before it (R216). -/
def landTest (t : Thread) (held : List Landing) (l : Landing) : LandResult :=
  match l.write with
  | none => .drop
  | some w =>
    let r := regOfWrite w
    if held.any fun h => !h.refused && h.sender == l.sender && h.window == l.window then .hold
    else if t.buf.any fun e => e.writes.any fun w => regOfWrite w == r then .hold
    else if t.awaitsWork l.reg then .hold
    else if !Reg.isFull t r then .land (t.putReg w)
    else match t.landMode l.reg with
      | 1 => .refuse
      | 2 => .land (t.putReg w)
      | _ => .hold

/-- A refusal: REGOVW becomes pending with the refused value and its source (R219). -/
def refuseInto (t : Thread) (l : Landing) : Thread := t.addCause ⟨cRegovw, l.value.setWidth 64, some l.src, l.arr⟩

/-- An older arrival is held for the same register: of those held, the older lands first (R216). -/
def olderHeld (before : List Landing) (l : Landing) : Bool := before.any fun h => !h.refused && h.reg == l.reg

/-- Handle the held arrivals of a thread again, oldest first (R216, R217, R221). -/
def landAgain (t : Thread) (before : List Landing) : List Landing → Thread × List Landing
  | [] => (t, before)
  | l :: rest =>
    if l.tid != t.id || l.refused || olderHeld (before.filter fun h => h.tid == t.id) l then landAgain t (before ++ [l]) rest
    else match landTest t (before.filter fun h => h.tid == t.id) l with
      | .land t' => landAgain t' before rest
      | .refuse => landAgain (refuseInto t l) (before ++ [{ l with refused := true }]) rest
      | .drop => landAgain t before rest
      | .hold => landAgain t (before ++ [l]) rest

/-- Handle again what a thread's core holds for it. -/
def State.reland (s : State) (t : Nat) : State :=
  let gc := coreOf t
  match (s.core gc).landing with
  | [] => s
  | ls =>
    let (x, ls') := landAgain (s.thread t) [] ls
    (s.setThread x).modCore gc fun c => { c with landing := ls' }

/-- The landing-buffer entry that a new arrival for a thread may take: its own, else a shared one (R215). -/
def freeLanding (ls : List Landing) (t : Nat) : Option Bool :=
  if !(ls.any fun l => l.tid == t && l.own) then some true
  else if (ls.filter fun l => !l.own).length < 8 then some false
  else none

/-- The held list of a restored thread that still waits for entries (R226). -/
def State.heldRest (s : State) (t : Nat) : List Landing :=
  match s.findTeam (s.thread t).vd (s.thread t).teamNum with
  | some team => if team.savedCores.isEmpty then tblGet team.heldLists t [] else []
  | none => []

/-- Arrivals move into a landing buffer in order, as far as there are entries. -/
def moveIn (ls : List Landing) : List Landing → List Landing × List Landing
  | [] => (ls, [])
  | l :: rest => match freeLanding ls l.tid with
    | none => (ls, l :: rest)
    | some own => moveIn (ls ++ [{ l with own := own }]) rest

/-- The held list of a restored thread moves into the landing buffer as entries allow (R226). -/
def State.refillHeld (s : State) (t : Nat) : State :=
  match s.heldRest t with
  | [] => s
  | ls =>
    let (buf, rest) := moveIn (s.core (coreOf t)).landing ls
    let s := s.modCore (coreOf t) fun c => { c with landing := buf }
    (s.modTeam (s.thread t).vd (s.thread t).teamNum fun x =>
      { x with heldLists := if rest.isEmpty then tblDel x.heldLists t else tblPut x.heldLists t rest }).reland t

/-- What became of an arrival. -/
inductive Arrived where
  | landed
  | held
  | turnedAway
  deriving DecidableEq

/-- An arrival at a running thread (R215, R216); none passes what a restored thread has still to take in (R226). -/
def State.arrive (s : State) (l : Landing) : State × Arrived :=
  let gc := coreOf l.tid
  let l := { l with arr := s.seq }
  let s := s.bump
  let t := s.thread l.tid
  let ls := (s.core gc).landing
  let keep (t : Thread) (l : Landing) : State × Arrived :=
    match freeLanding ls l.tid with
    | none => (s, .turnedAway)
    | some own => ((s.setThread t).modCore gc fun c => { c with landing := ls ++ [{ l with own := own }] }, .held)
  if !(s.heldRest l.tid).isEmpty then (s, .turnedAway)
  else match landTest t (ls.filter fun h => h.tid == l.tid) l with
  | .land t' => (s.setThread t', .landed)
  | .drop => (s, .landed)
  | .hold => keep t l
  | .refuse => keep (refuseInto t l) { l with refused := true }

/-! ### Retirement (R223, R337) -/

/-- Discard the arrivals held for a thread; each sender that has not retired takes SENDFAIL (R223). -/
def State.dropHeld (s : State) (t : Nat) : State :=
  let gc := coreOf t
  let mine := ((s.core gc).landing ++ s.heldRest t).filter fun l => l.tid == t && !l.refused
  let s := s.modCore gc fun c => { c with landing := c.landing.filter fun l => l.tid != t }
  let s := if (s.heldRest t).isEmpty then s else
    s.modTeam (s.thread t).vd (s.thread t).teamNum fun x => { x with heldLists := tblDel x.heldLists t }
  mine.foldl (fun s l => if l.sender.1 = 0 then s.pend l.sender.2 cSendfail l.cap else s) s

/-- Retire a thread: its slot is a bubble from then on. -/
def State.retire (s : State) (t : Nat) : State :=
  (s.modThread t fun x => { x with st := .retired, buf := [], park := none, wait := .none, pend := [], want := none,
                                   storeHold := [] }).dropHeld t

/-! ### Traps (R346 to R350) -/

/-- ctl.cause of an entry (R346, R348). -/
def causeWord (async : Bool) (code : Nat) : Word :=
  (if async then 0x8000000000000000#64 else 0#64) ||| BitVec.ofNat 64 code

/-- Trap entry once the outstanding results have committed: the saved address, cause and value, handler mode, and the
handler's head; with no handler the thread retires and its cluster posts event 1 (R348). -/
def State.trapEnter (s : State) (async : Bool) (code : Nat) (epc : Addr) (tval : Word) (fsrc : Option Word) : State :=
  let s := s.modThr fun t =>
    { t with epc := epc &&& ~~~1#52, cause := causeWord async code, tval := tval, fsrc := fsrc.getD t.fsrc, hm := true,
             st := .ready, pc := t.tvec, park := none, wait := .none, want := none, walkFail := [],
             stop := if t.stop = 1 then 2 else t.stop }
  if s.thr.tvec = 0 then
    let t := s.thr
    postEvent (s.retire t.id) (pkgOfThread t.id) t.vd 1 code 0 (clusterOf (coreOf t.id)) t.teamNum t.fabno
      t.epc.toNat tval.toNat
  else s

/-- A double fault: the thread retires and event 2 is posted with the new cause and address; the trap registers keep the
first trap's values (R349). -/
def State.doubleFault (s : State) (code : Nat) (tval : Word) : State :=
  let t := s.thr
  postEvent (s.retire t.id) (pkgOfThread t.id) t.vd 2 code 0 (clusterOf (coreOf t.id)) t.teamNum t.fabno
    t.pc.toNat tval.toNat

/-- Take a trap: a double fault for a synchronous cause in handler mode; otherwise entry, which is a switch point, so that
outstanding results commit first (R46, R348, R349). -/
def State.takeTrap (s : State) (async : Bool) (code : Nat) (epc : Addr) (tval : Word) (fsrc : Option Word) : State :=
  if s.thr.hm then s.doubleFault code tval
  else if s.thr.buf.isEmpty then s.trapEnter async code epc tval fsrc
  else s.modThr fun t => { t with st := .switchWait (.trap async code epc tval fsrc), park := none, wait := .none,
                                  want := none, walkFail := [] }

/-- Raise a synchronous cause at the issuing head, with no other effect of the instruction (R347). -/
def State.trap (s : State) (code : Nat) (tval : Word) : State := s.takeTrap false code s.thr.pc tval none

/-- What ILLEGAL shows: the head in bits 15:0 and its tail units above (R50). -/
def illegalWord (us : List Nat) : Word :=
  BitVec.ofNat 64 (us.getD 0 0 + 65536 * us.getD 1 0 + 4294967296 * us.getD 2 0 + 281474976710656 * us.getD 3 0)

/-- Return from a trap: handler mode ends and execution goes on at EPC (R350). -/
def State.eretGo (s : State) : State :=
  s.modThr fun t => { t with hm := false, pc := t.epc, st := .ready, park := none }

/-! ### The program counter and the loop contexts (R42, R106 to R112) -/

def lineAddr (pc : Addr) : Addr := pc &&& ~~~63#52
def headIndex (pc : Addr) : Nat := pc.toNat % 64 / 2

/-- Head count that a line's descriptor states (R33). -/
def Line.n (l : Line) : Nat := (l.slots.getD 0 0).toNat % 32

/-- A line held for the thread (R106). -/
def Thread.lineAt (t : Thread) (a : Addr) : Option Line :=
  match t.line with
  | some l => if l.addr = a then some l else match t.line2 with
    | some l2 => if l2.addr = a then some l2 else none
    | none => none
  | none => match t.line2 with
    | some l2 => if l2.addr = a then some l2 else none
    | none => none

/-- The head after an address: the next of its line, or head 1 of the line above (R42). -/
def Thread.headAfter (t : Thread) (a : Addr) : Addr :=
  let n := match t.lineAt (lineAddr a) with
    | some l => l.n
    | none => 31
  if headIndex a < n then a + 2 else lineAddr a + 66

/-- One step of loop matching for a context that ends at the completed head (R109). -/
def matchLoop (c : LoopCtx) (x next : Addr) : LoopCtx × Addr × Bool :=
  if c.arm && c.stop == x then
    if c.count.toNat ≤ 1 then ({ c with arm := false, count := 0 }, next, false)
    else ({ c with count := c.count - 1 }, c.start, true)
  else (c, next, false)

/-- The head that follows a completed head at `x` with `n` after it in sequence, and the loop contexts after matching; none
in handler mode (R109, R112). -/
def nextHead (hm : Bool) (l0 l1 : LoopCtx) (x n : Addr) : LoopCtx × LoopCtx × Addr :=
  if hm then (l0, l1, n)
  else
    let r1 := matchLoop l1 x n
    if r1.2.2 then (l0, r1.1, r1.2.1)
    else
      let r0 := matchLoop l0 x n
      (r0.1, r1.1, r0.2.1)

/-- The thread at the head that follows its completed head. -/
def Thread.next (t : Thread) : Thread :=
  let r := nextHead t.hm t.l0 t.l1 t.pc (t.headAfter t.pc)
  { t with l0 := r.1, l1 := r.2.1, pc := r.2.2 }

/-- A context that a taken transfer to `x` leaves is disarmed (R110). -/
def leaveLoop (c : LoopCtx) (x : Addr) : LoopCtx := if c.arm && (x < c.start || c.stop < x) then { c with arm := false } else c

/-- A loop context after a taken transfer to `x`; untouched in handler mode (R110, R112). -/
def leftLoop (hm : Bool) (c : LoopCtx) (x : Addr) : LoopCtx := if hm then c else leaveLoop c x

/-- A taken transfer (R106). -/
def Thread.goto (t : Thread) (x : Addr) : Thread :=
  { t with pc := x, l0 := leftLoop t.hm t.l0 x, l1 := leftLoop t.hm t.l1 x }

/-- A boundary has been reached at which a thread that is to stop stops (R365). -/
def Thread.stopped (t : Thread) : Nat := if t.stop = 1 then 2 else t.stop

/-- The thread has issued its head: the park and the waits of that head are over. -/
def Thread.unpark (t : Thread) : Thread :=
  { t with park := none, wait := .none, want := none, walkFail := [], st := .ready, stop := t.stopped }

/-- Where the thread stands after an instruction that may be a switch point (R24, R45): nothing to do with no result
outstanding. The head before a stop is one as if it carried S (R365). -/
def Thread.afterSwitch (t : Thread) (sw : Bool) : TStatus :=
  if (sw || t.stop == 2) && !t.buf.isEmpty then .switchWait .go else t.st

def Thread.switch (t : Thread) (sw : Bool) : Thread := { t with st := t.afterSwitch sw }

/-- The instruction has completed: on to the next head, and a switch point where the head carries S. -/
def State.finish (s : State) (sw : Bool) : State := s.modThr fun t => (t.unpark.next).switch sw

/-- The instruction has completed with a taken transfer. -/
def State.finishAt (s : State) (sw : Bool) (x : Addr) : State := s.modThr fun t => (t.unpark.goto x).switch sw

/-- A thread that issues no more (R365). -/
def Thread.halted (t : Thread) : Bool :=
  match t.st with
  | .absent | .retired | .loading => true
  | .switchWait _ => false
  | .ready | .waitWork _ | .sleeping _ => t.stop == 2 && t.storeHold.isEmpty

def Team.tids (t : Team) : List Nat := t.seats.map fun x => x.tid

def allHalted (s : State) (t : Team) : Bool := t.tids.all fun x => (s.thread x).halted

/-- A stop of the thread's team has come to all its threads: no request of it leaves a FIFO any more (R365). -/
def State.teamStopped (s : State) (x : Thread) : Bool :=
  x.stop != 0 && match s.findTeam x.vd x.teamNum with
    | none => true
    | some t => allHalted s t

/-! ### Parks (R328, R329) -/

/-- The head does not issue: a park begins, or goes on; what it waits for now is shown by PARKLONG. -/
def State.parkFor (s : State) (tval : Word) (regs : List Nat) : State :=
  s.modThr fun t =>
    { t with park := match t.park with
        | some p => some { p with tval := tval, regs := regs }
        | none => some ⟨s.cycle, t.wdog.toNat, tval, regs, false⟩ }

/-- The same where no register is awaited. -/
def State.parkOn (s : State) (tval : Word) : State := s.parkFor tval []

/-- A bubble: the head issues again at the thread's next turn (R327). -/
def State.bubble (s : State) : State := s.modThr fun t => { t with park := none }

/-- Whether a park has lasted its limit at this cycle (R329). -/
def Park.expired (p : Park) (cycle : Nat) : Bool := p.limit != 0 && p.start + p.limit * 1024 ≤ cycle

/-- The empty registers among those that an instruction reads, by code (R84). -/
def Thread.empties (t : Thread) (rs : List Reg) : List Nat := (rs.filter fun r => !Reg.isFull t r).map regCode

/-- Smallest number of a list. -/
def minOf : Nat → List Nat → Nat
  | m, [] => m
  | m, x :: xs => minOf (min m x) xs

/-- The value of an acquire is outstanding: no later event of the thread may come before it, a register read or write no
more than an access (R234). -/
def Thread.acquiring (t : Thread) : Bool := t.buf.any fun e => e.acq && !e.done

/-- Issue only with every source present: an empty one parks the thread, and PARKLONG would show the lowest code of an
empty one (R84, R329). While an acquire's value is outstanding a head that reads or writes a register, an event of the thread by
R232, waits with bubbles (R234, log entry 65). -/
def State.withRegs (s : State) (rs : List Reg) (k : State → State) : State :=
  match s.thr.empties rs with
  | [] => if s.thr.acquiring then s.bubble else k s
  | c :: cs => s.parkFor (BitVec.ofNat 64 (minOf c cs)) (c :: cs)

/-! ### The result buffer (R44 to R47) -/

/-- A ninth outstanding result does not issue until the eight before it have returned and committed (R46). -/
def State.withSlot (s : State) (k : State → State) : State :=
  if s.thr.buf.length < 8 then k s else s.modThr fun t => { t with st := .switchWait .go }

/-- Put a deferred result behind those that the buffer holds. An earlier result for its register stays until this one has
committed, since one that fails writes nothing (R44, R45, R47); `acq` marks an acquire. -/
def State.deferAs (s : State) (acq : Bool) (writes : List RegWrite) (form : Form) (done : Bool) : State :=
  let id := s.seq
  s.bump.modThr fun t => { t with buf := t.buf ++ [⟨id, t.pc, writes, form, done, false, none, acq⟩] }

def State.defer (s : State) (writes : List RegWrite) (form : Form) (done : Bool) : State := s.deferAs false writes form done

/-- Commit the buffer in issue order; failed entries become pending causes in that order (R45, R47, R195). -/
def Thread.commit (t : Thread) : Thread :=
  let t' := t.buf.foldl (fun x e => match e.fail with
    | none => e.writes.foldl Thread.putReg x
    | some _ => x) t
  let fails := t.buf.filterMap fun e => e.fail.map fun c => (⟨c, e.pc.setWidth 64, none, 0⟩ : Pending)
  { t' with buf := [], pend := t'.pend ++ fails }

end Sys2Proof.Machine
end

