-- ==== Sys2Proof/Machine/Topology.lean ====
section
/-! DEFINITION. Routers, the links between them, and routes (R9 to R13, R299, R306, R446, R451, R458).

A router's number is its package times 2048 plus massif * 256 plus its place in the massif; the eight cores of a router are the
cores of that number times 8, in physical numbers (R10). -/

namespace Sys2Proof.Machine

/-! ### Physical places (R10, R451) -/

/-- Physical cluster of a logical one, by massif * 16 + cluster. -/
def Pkg.physCluster (p : Pkg) (cl : Nat) : Nat := tblGet p.phys cl cl
/-- Physical massif of a logical one, and physical core of a logical one, within the package. -/
def physMassif (p : Pkg) (m : Nat) : Nat := p.physCluster (m * 16) / 16
def physCore (p : Pkg) (core : Nat) : Nat :=
  p.physCluster (core / 128) * 128 + ((tblGet p.physCores (core / 128) [])[core % 128]?).getD (core % 128)

/-- The router that serves a core. -/
def State.routerOf (s : State) (gc : Nat) : Nat := pkgOf gc * 2048 + physCore (s.pkg (pkgOf gc)) (gc % 16384) / 8

def routerPkg (r : Nat) : Nat := r / 2048
def routerMassif (r : Nat) : Nat := r / 256 % 8
/-- Column and row of a router in its massif's mesh. -/
def routerX (r : Nat) : Nat := r / 16 % 4 * 4 + r % 4
def routerY (r : Nat) : Nat := r / 64 % 4 * 4 + r / 4 % 4
/-- The router of a package at a massif, column and row. -/
def routerAt (pkg m x y : Nat) : Nat := pkg * 2048 + m * 256 + (y / 4 * 4 + x / 4) * 16 + y % 4 * 4 + x % 4

/-! ### Ports (R9, R13, R299, R458) -/

/-- What leaves a router by east 0, west 1, north 2, south 3 of its mesh: the link and the router at its far end. East leads to
column x + 1 and north to row y + 1 (log entry 71). -/
def meshPort (r : Nat) : Nat → Option (Nat × Nat)
  | 0 => if routerX r < 15 then some (r % 2048, routerAt (routerPkg r) (routerMassif r) (routerX r + 1) (routerY r)) else none
  | 1 => if 0 < routerX r then
      let f := routerAt (routerPkg r) (routerMassif r) (routerX r - 1) (routerY r)
      some (f % 2048, f) else none
  | 2 => if routerY r < 15 then some (2048 + r % 2048, routerAt (routerPkg r) (routerMassif r) (routerX r) (routerY r + 1)) else none
  | 3 => if 0 < routerY r then
      let f := routerAt (routerPkg r) (routerMassif r) (routerX r) (routerY r - 1)
      some (2048 + f % 2048, f) else none
  | _ => none

/-- The bridge port of a router at an edge that faces a neighbouring massif: the link and the router at its far end. A corner that
faces two neighbours has its one port toward the one in its row (log entry 71). -/
def bridgePort (r : Nat) : Option (Nat × Nat) :=
  let p := routerPkg r
  let m := routerMassif r
  let x := routerX r
  let y := routerY r
  if x = 15 && m % 4 < 3 then some (4096 + r % 2048, routerAt p (m + 1) 0 y)
  else if x = 0 && 0 < m % 4 then
    let f := routerAt p (m - 1) 15 y
    some (4096 + f % 2048, f)
  else if y = 15 && m < 4 then some (6144 + r % 2048, routerAt p (m + 4) x 0)
  else if y = 0 && 4 ≤ m then
    let f := routerAt p (m - 4) x 15
    some (6144 + f % 2048, f)
  else none

/-- The Thopeif link whose port a router carries, and the router that carries a link's port (R458). -/
def linkPort (r : Nat) : Option Nat :=
  if routerX r = 0 && routerY r = 0 then some (2 * routerMassif r)
  else if routerX r = 15 && routerY r = 15 then some (2 * routerMassif r + 1)
  else none
def linkRouter (pkg link : Nat) : Nat := routerAt pkg (link / 2) (link % 2 * 15) (link % 2 * 15)

/-- The number that a package's configuration record gives it, and the package of the same domain that has a number (R428). -/
def State.pkgNo (s : State) (pkg : Nat) : Nat := (s.pkg pkg).number
def State.named (s : State) (pkg n : Nat) : Option Nat :=
  if (s.pkg pkg).number = n then some pkg
  else (s.pkgs.find? fun e => e.2.domain == (s.pkg pkg).domain && e.2.number == n).map fun e => e.1

/-- The package at the far end of a link, as the record names it. -/
def State.farPkg (s : State) (pkg link : Nat) : Option Nat := (tblFind (s.pkg pkg).farEnd link).bind (s.named pkg)

/-- The far end of a link: its package, and the link there whose record names this package. -/
def farLink (s : State) (pkg link : Nat) (up : Bool) : Option (Nat × Nat) :=
  match s.farPkg pkg link with
  | none => none
  | some q => ((s.pkg q).farEnd.find? fun (l, r) => r == s.pkgNo pkg && (s.pkg q).linksUp.contains l == up).map fun x => (q, x.1)

/-! ### Routes between packages (R428, R458) -/

/-- Packages that some route from `p` reaches by links that are up at both ends and cross only packages with the VD (R458). -/
def reach (s : State) (vd : Nat) : Nat → List Nat → List Nat
  | 0, ps => ps
  | n + 1, ps =>
    let more := (ps.map fun p => (s.pkg p).linksUp.filterMap fun l => (s.farPkg p l).bind fun q =>
      if (s.vd (vdKey q vd)).isVd && !ps.contains q then some q else none).flatten
    match more with
    | [] => ps
    | _ => reach s vd n (ps ++ more.eraseDups)

/-- A peer package reachable for a VD (R171). -/
def reachable (s : State) (vd p q : Nat) : Bool :=
  (tblFind s.pkgs q).isSome && (s.vd (vdKey q vd)).isVd && (reach s vd 64 [p]).contains q

/-- The links of the shortest route from one package to another for a VD; none where no route is left. -/
def linkDistance (s : State) (vd p q : Nat) : Option Nat := (List.range 64).find? fun n => (reach s vd n [p]).contains q

/-- The route table of a package as it stands: for a VD and a package, the links that begin the routes with the fewest links
(R428, R458). -/
def State.routeTable (s : State) (pkg vd dest : Nat) : List Nat :=
  match linkDistance s vd pkg dest with
  | none => []
  | some n => (s.pkg pkg).linksUp.filter fun l => match s.farPkg pkg l with
      | none => false
      | some q => (s.vd (vdKey q vd)).isVd && match linkDistance s vd q dest with
          | some k => k < n
          | none => false

/-! ### Hops and paths (R13, R299, R446, R458) -/

/-- The router at the far end of a port, and the link. -/
def State.portLink (s : State) (r code : Nat) : Option (Nat × Nat) :=
  if code < 4 then meshPort r code
  else if code = 4 then bridgePort r
  else if code = 5 then (linkPort r).bind fun l =>
    ((farLink s (routerPkg r) l true).or (farLink s (routerPkg r) l false)).map fun x => (l, linkRouter x.1 x.2)
  else none
def State.portEnd (s : State) (r code : Nat) : Option Nat := (s.portLink r code).map fun x => x.2

/-- The same for a port whose link is up. -/
def State.upPort (s : State) (r code : Nat) : Option Nat :=
  let p := s.pkg (routerPkg r)
  (s.portLink r code).bind fun (l, f) =>
    if if code = 5 then p.linksUp.contains l && (s.pkg (routerPkg f)).linksUp.any (fun k => linkRouter (routerPkg f) k == f)
       else !p.linksDown.contains l then some f else none

/-- The router that a packet of a VD for package `dest` reaches from router `r` by a port: a link that is up; and at a Thopeif
link, one that begins a route with the fewest links. -/
def State.hop (s : State) (vd dest r code : Nat) : Option Nat :=
  (s.upPort r code).bind fun f =>
    if code < 5 then some f
    else (linkPort r).bind fun l => if (s.routeTable (routerPkg r) vd dest).contains l then some f else none

/-- Where a list of ports leads from a router, if each can be taken. -/
def State.follow (s : State) (vd dest : Nat) : Nat → List Nat → Option Nat
  | r, [] => some r
  | r, c :: cs => match s.hop vd dest r c with
    | none => none
    | some f => s.follow vd dest f cs

/-- The routers one hop further than those of `front` that have not been seen. -/
def State.spread (s : State) (vd dest : Nat) (front : List (Nat × List Nat)) (seen : List Nat) : List (Nat × List Nat) × List Nat :=
  (front.flatMap fun (r, path) => (List.range 6).filterMap fun c => (s.hop vd dest r c).map fun f => (f, c :: path)).foldl
    (fun (acc, seen) (f, path) => if seen.contains f then (acc, seen) else (acc ++ [(f, path)], f :: seen)) ([], seen)

/-- A shortest route to a router that meets `goal`, by the links that are up: the ports taken, last first, at each router reached. -/
def State.search (s : State) (vd dest : Nat) (goal : Nat → Bool) : Nat → List (Nat × List Nat) → List Nat → Option (Nat × List Nat)
  | 0, _, _ => none
  | n + 1, front, seen => match front.find? fun x => goal x.1 with
    | some x => some x
    | none => match s.spread vd dest front seen with
      | ([], _) => none
      | (more, seen') => s.search vd dest goal n more seen'

/-- A route by the current tables to the nearest router that meets `goal`: that router, and the ports in order. -/
def State.routeTo (s : State) (vd dest r : Nat) (goal : Nat → Bool) : Option (Nat × List Nat) :=
  (s.search vd dest goal 4096 [(r, [])] [r]).map fun x => (x.1, x.2.reverse)

end Sys2Proof.Machine
end

