-- ==== Sys2Proof/Machine/Memory.lean ====
section
/-! DEFINITION. Memory: windows (R170, R171), tensors, tiles and homes (R173 to R176, R179), page tables and translation
(R405 to R410), remap windows (R320, R321), the checks of R185 and R186, reading and writing at a home, the sync-wait queue
and the watch tables (R193, R198).

Locations: DRAM of package p at physical address a is p * 2^38 + a; byte o of the scratchpad of core gc is
2^60 + gc * 2^18 + o; shared memory of VD key k on massif m is 2^61 + (k * 8 + m) * 2^30 + o; the host's is `hostLoc`. -/

namespace Sys2Proof.Machine

/-! ### The shape (R3) -/

def Pkg.massifs (p : Pkg) : Nat := (p.shape.filter fun n => n != 0).length
def Pkg.clustersOf (p : Pkg) (m : Nat) : Nat := p.shape.getD m 0
/-- The routers of a massif with a slice of the shape beneath them, by physical massif * 256 + place, ascending: those of the
clusters presented, but for slices that are deconfigured (R11, R451; log entry 89). -/
def Pkg.slicePlaces (p : Pkg) (m : Nat) : List Nat :=
  (sortBy id ((List.range (p.clustersOf m)).flatMap fun k => (List.range 16).map fun i => p.physCluster (m * 16 + k) * 16 + i)).filter
    fun x => !p.slicesOut.contains x
/-- Slices of a massif: 16 for each cluster presented, but for those deconfigured. -/
def Pkg.slicesOf (p : Pkg) (m : Nat) : Nat :=
  if p.slicesOut.isEmpty then 16 * p.clustersOf m else (p.slicePlaces m).length
/-- Where a slice of a massif lies (R451). -/
def Pkg.slicePlace (p : Pkg) (m k : Nat) : Nat :=
  if p.slicesOut.isEmpty && p.phys.isEmpty then m * 256 + k else ((p.slicePlaces m)[k]?).getD 0
/-- Cores of a cluster of the package, by massif * 16 + cluster. -/
def Pkg.coresOf (p : Pkg) (cl : Nat) : Nat := tblGet p.cores cl 128

/-! ### Windows (R170, R171) -/

def dramEnd : Nat := 2 ^ 40
def remapBase : Nat := 0xF000000000
def spadBytes : Nat := 0x30000

/-- Where an address leads before translation: the DRAM window of a package, shared memory, a scratchpad, the host. -/
inductive Where where
  | dram (pkg off : Nat)
  | l2 (massif off : Nat)
  | spad (gc off : Nat)
  | host (off : Nat)
  deriving DecidableEq, Repr

/-- Bytes of shared memory of a VD on a massif (R179). -/
def sharedBytes (s : State) (vk m : Nat) : Nat := (s.vd vk).sways * (s.pkg (vk / 16)).slicesOf m * 0x30000

/-- The window of an address for a core and VD; none outside every window (R170, R171). -/
def whereIs (s : State) (gc vd va : Nat) : Option Where :=
  let p := pkgOf gc
  if va < dramEnd then some (.dram p va)
  else if va < 2 ^ 40 + 8 * 2 ^ 30 then
    let m := (va - 2 ^ 40) / 2 ^ 30
    let off := (va - 2 ^ 40) % 2 ^ 30
    if off < sharedBytes s (vdKey p vd) m then some (.l2 m off) else none
  else if va < 2 ^ 41 then none
  else if va < 2 ^ 41 + spadBytes then some (.spad gc (va - 2 ^ 41))
  else if 0x20100000000 ≤ va && va < 0x20100000000 + 128 * 0x40000 then
    let c := (va - 0x20100000000) / 0x40000
    let off := (va - 0x20100000000) % 0x40000
    if off < spadBytes && c < (s.pkg p).coresOf (clusterOf gc % 128) then some (.spad (clusterOf gc * 128 + c) off) else none
  else if 2 ^ 51 ≤ va && va < 3 * 2 ^ 50 then some (.host (va - 2 ^ 51))
  else if 3 * 2 ^ 50 ≤ va && va < 2 ^ 52 then
    let n := (va - 3 * 2 ^ 50) / 2 ^ 44
    let off := (va - 3 * 2 ^ 50) % 2 ^ 44
    (s.named p n).bind fun q => if off < remapBase && (q == p || reachable s vd p q) then some (.dram q off) else none
  else none

/-- The window that an address lies in, by number; two of them are outside every window (R170). -/
def winOf (va : Nat) : Nat :=
  if va < dramEnd then 0
  else if va < 2 ^ 40 + 8 * 2 ^ 30 then 1 + (va - 2 ^ 40) / 2 ^ 30
  else if va < 2 ^ 41 then 9
  else if va < 2 ^ 41 + spadBytes then 10
  else if 0x20100000000 ≤ va && va < 0x20100000000 + 128 * 0x40000 then 16 + (va - 0x20100000000) / 0x40000
  else if 2 ^ 51 ≤ va && va < 3 * 2 ^ 50 then 11
  else if 3 * 2 ^ 50 ≤ va && va < 2 ^ 52 then 256 + (va - 3 * 2 ^ 50) / 2 ^ 44
  else 12

/-- An address as the core's own windows name it, for range locks (R186). -/
def normVa (s : State) (gc va : Nat) : Nat :=
  let own := 3 * 2 ^ 50 + s.pkgNo (pkgOf gc) * 2 ^ 44
  if va == 0x20100000000 + gc % 128 * 0x40000 + va % 0x40000 then 2 ^ 41 + va % 0x40000
  else if own ≤ va && va < own + dramEnd then va - own
  else va

/-- A remap window's row address for an offset of the DRAM window; none where no window translates it (R321). -/
def remapped (s : State) (vk off : Nat) : Option Nat :=
  if off < remapBase then some off
  else
    let w := (off - remapBase) / 2 ^ 30
    let o := (off - remapBase) % 2 ^ 30
    match tblFind (s.vd vk).remaps w with
    | none => none
    | some r => (r.rows[o / r.rowBytes]?).map fun row => row + o % r.rowBytes

/-- Bytes of an offset's stretch of `k` bytes before the VD's trigger word begins or ends, which lies apart (R280). -/
def trigCut (s : State) (vk off k : Nat) : Nat :=
  let t := (s.vd vk).trig.toNat
  if t = 0 || t + 8 ≤ off then k else if off < t then min k (t - off) else min k (t + 8 - off)

/-- Bytes from an address to the end of its 4 KiB page and, in a remap window, of its row (R321). -/
def pieceLen (s : State) (gc vd va : Nat) : Nat :=
  let k := 4096 - va % 4096
  match whereIs s gc vd va with
  | some (.dram pkg off) =>
    let vk := vdKey pkg vd
    if off < remapBase then trigCut s vk off k
    else
      let o := (off - remapBase) % 2 ^ 30
      match tblFind (s.vd vk).remaps ((off - remapBase) / 2 ^ 30) with
      | none => k
      | some r => match r.rows[o / r.rowBytes]? with
        | none => k
        | some row => trigCut s vk (row + o % r.rowBytes)
            (min (4096 - (row + o % r.rowBytes) % 4096) (r.rowBytes - o % r.rowBytes))
  | _ => k

/-- A range cut where its translation may change: address and length of each piece. -/
def pieces (s : State) (gc vd : Nat) : Nat → Nat → Nat → List (Nat × Nat)
  | 0, _, _ => []
  | n + 1, va, len =>
    if len = 0 then []
    else
      let k := min len (pieceLen s gc vd va)
      (va, k) :: pieces s gc vd n (va + k) (len - k)

def piecesOf (s : State) (gc vd va len : Nat) : List (Nat × Nat) := pieces s gc vd (len / 64 + 4) va len

/-! ### Locations -/

def dramLoc (pkg pa : Nat) : Nat := pkg * 2 ^ 38 + pa
def spadLoc (gc off : Nat) : Nat := 2 ^ 60 + gc * 2 ^ 18 + off
def l2Loc (vk m off : Nat) : Nat := 2 ^ 61 + (vk * 8 + m) * 2 ^ 30 + off
def isDram (loc : Nat) : Bool := loc < 2 ^ 44
def isSpad (loc : Nat) : Bool := 2 ^ 60 ≤ loc && loc < 2 ^ 61
def isHost (loc : Nat) : Bool := 2 ^ 62 ≤ loc
/-- The trigger word of a VD key: it always reads as zero and no write changes it (R280). -/
def trigLoc (vk i : Nat) : Nat := 2 ^ 58 + vk * 8 + i
def isTrig (loc : Nat) : Bool := 2 ^ 58 ≤ loc && loc < 2 ^ 59
/-- The core whose scratchpad holds a location. -/
def spadCore (loc : Nat) : Nat := (loc - 2 ^ 60) / 2 ^ 18

/-! ### Page tables (R405 to R407, R423) -/

def sysBase : Nat := 0x7C0000000
def sysEnd : Nat := 0x800000000

/-- A leaf of a page table. -/
structure Leaf where
  big : Bool
  r : Bool
  w : Bool
  x : Bool
  il : Bool
  pa : Nat
  deriving DecidableEq, Repr

/-- The 8-byte word of a table at a physical address; one that holds an uncorrectable error gives no data, and stands as an entry
that is not valid (R443, log entry 90). -/
def ptWord (s : State) (pkg pa : Nat) : Nat :=
  if s.ue.any fun u => overlaps u.1 u.2 (dramLoc pkg pa) 8 then 0 else ofBytes (memReadN s.mem (dramLoc pkg pa) 8)

/-- Physical address of unit `u` of a leaf (R406). -/
def unitPa (m : Nat) (il : Bool) (pa u : Nat) : Nat :=
  if il then
    let g := fieldN pa 34 12 + u
    g % m * 2 ^ 35 + g / m * 4096
  else pa + 4096 * u

/-- The location of a unit is no system memory and lies in the DRAM of the shape (R407). -/
def unitOk (m pa : Nat) : Bool := pa / 2 ^ 35 < m && !(sysBase ≤ pa && pa < sysEnd)

/-- A leaf entry that is not malformed (R407). -/
def leafOf (m : Nat) (big : Bool) (e : Nat) : Option Leaf :=
  let il := e / 2 ^ 58 % 2 == 1
  let pa := fieldN e 37 12 * 4096
  let wx := e / 2 ^ 60 % 2 == 1 && e / 2 ^ 59 % 2 == 1
  let units := if big then 512 else 1
  let shapeOk :=
    if il then pa / 2 ^ 35 == 0 && (fieldN pa 34 12 + units - 1) / m * 4096 < 2 ^ 35 &&
      (List.range units).all fun u => unitOk m (unitPa m true pa u)
    else unitOk m pa && unitOk m (pa + 4096 * (units - 1)) && decide (m ≠ 0)
  if fieldN e 57 38 == 0 && fieldN e 11 0 == 0 && !wx && (!big || fieldN e 20 12 == 0) && shapeOk then
    some ⟨big, e / 2 ^ 61 % 2 == 1, e / 2 ^ 60 % 2 == 1, e / 2 ^ 59 % 2 == 1, il, pa⟩
  else none

/-- Walk the table of a VD for a 4 KiB page of the DRAM window; none is an XLATE failure (R407). -/
def walk (s : State) (vk page : Nat) : Option Leaf :=
  let pkg := vk / 16
  let m := (s.pkg pkg).massifs
  let e1 := ptWord s pkg (sysBase + vk % 16 * 2 ^ 22 + 8 * (page / 512))
  if e1 / 2 ^ 63 % 2 = 0 then none
  else if e1 / 2 ^ 62 % 2 = 1 then leafOf m true e1
  else
    let pa := fieldN e1 37 12 * 4096
    if fieldN e1 57 38 != 0 || fieldN e1 11 0 != 0 || fieldN e1 60 59 == 3 || pa < sysBase || sysEnd ≤ pa then none
    else
      let e2 := ptWord s pkg (pa + 8 * (page % 512))
      if e2 / 2 ^ 63 % 2 = 0 || e2 / 2 ^ 62 % 2 = 0 then none else leafOf m false e2

/-! ### Translation caches (R408, R409) -/

def TlbEntry.serves (vk page : Nat) (e : TlbEntry) : Bool :=
  e.vk == vk && if e.big then e.page / 512 == page / 512 else e.page == page

def Router.find (r : Router) (vk page : Nat) : Option TlbEntry := r.tlb.find? (TlbEntry.serves vk page)

/-- Physical address of an address in a cached page. -/
def TlbEntry.phys (m : Nat) (e : TlbEntry) (off : Nat) : Nat :=
  unitPa m e.il e.pa (off / 4096 - e.page) + off % 4096

/-- The offset in a cached page that a physical address is the place of, if it lies in the page. -/
def TlbEntry.offset (m : Nat) (e : TlbEntry) (pa : Nat) : Option Nat :=
  let g := if e.il then pa % 2 ^ 35 / 4096 * m + pa / 2 ^ 35 else pa / 4096
  let g0 := if e.il then fieldN e.pa 34 12 else e.pa / 4096
  if g0 ≤ g && g - g0 < (if e.big then 512 else 1) then some ((e.page + (g - g0)) * 4096 + pa % 4096) else none

def entryOf (vk page : Nat) (l : Leaf) : TlbEntry :=
  ⟨vk, if l.big then page / 512 * 512 else page, l.big, l.r, l.w, l.x, l.il, l.pa, []⟩

/-- How a page of a VD is mapped on its package: as a router caches it, which a host edit of the table does not change, else as the
table says (R408). -/
def State.mapOf (s : State) (vk page : Nat) : Option TlbEntry :=
  (s.routers.findSome? fun (k, r) => if k / 2048 = vk / 16 then r.find vk page else none).or
    ((walk s vk page).map (entryOf vk page))

/-- Where a byte of a VD's DRAM window stands. -/
def mappedLoc (s : State) (vk off : Nat) : Option Nat :=
  (s.mapOf vk (off / 4096)).map fun e => dramLoc (vk / 16) (e.phys (s.pkg (vk / 16)).massifs off)

/-- The VD and the offset of its DRAM window whose byte stands at a location, where a router of the package caches it. -/
def State.ownerOf (s : State) (loc : Nat) : Option (Nat × Nat) :=
  s.routers.findSome? fun (k, r) =>
    if k / 2048 = loc / 2 ^ 38 then
      r.tlb.findSome? fun e =>
        if e.vk / 16 = k / 2048 then (e.offset (s.pkg (k / 2048)).massifs (loc % 2 ^ 38)).map fun o => (e.vk, o) else none
    else none

/-- Put an entry into a cache of 1,024, the oldest unpinned entry making room; one that is cached stays as it is. -/
def Router.fill (r : Router) (vk page : Nat) (l : Leaf) : Router :=
  if (r.find vk page).isSome then r
  else
    let t := if r.tlb.length < 1024 then r.tlb
      else match r.tlb.find? fun e => e.pins.isEmpty with
        | some v => r.tlb.erase v
        | none => r.tlb
    { r with tlb := t ++ [entryOf vk page l] }

/-- What an access to one page of a DRAM window meets. -/
inductive Res where
  | loc (l : Nat)
  | miss (vk page : Nat)
  | xlate
  | perm
  deriving DecidableEq, Repr

/-- Key of a failed walk. -/
def walkKey (vk page : Nat) : Nat := vk * 2 ^ 40 + page

/-- A range that the part keeps for itself: a team's spill region or save region (R285, R366). -/
def inRegion (w : Word) (off : Nat) : Bool :=
  let base := field w 39 12 * 4096
  base ≤ off && off < base + field w 63 40 * 4096

/-- A team that is bound, or saved, and so holds its regions. -/
def Team.holds (t : Team) : Bool :=
  match t.st with
  | .bound | .saved => true
  | .selected | .reposted => !t.savedCores.isEmpty
  | _ => false

/-- A team whose context is saved: its threads are shadows until it is restored (R225, R366). -/
def Team.away (t : Team) : Bool := !t.savedCores.isEmpty

/-- A save of the team is in progress (R365). -/
def Team.inSave (t : Team) : Bool :=
  match t.pre with
  | some p => p.action == 3
  | none => false

def reserved (s : State) (vk off : Nat) : Bool :=
  s.teams.any fun t => t.vd == vk % 16 && t.holds && (t.seats.any fun x => pkgOfThread x.tid == vk / 16) &&
    (inRegion t.spill off || inRegion t.ctxsave off)

/-- Resolve an access against the cache of a core's router, with what the thread's walks have failed on (R185, R407, R410):
`fails` are failed pages with their causes; XLATE comes before PERM. -/
def resolve (s : State) (gc vd : Nat) (fails : List (Nat × Nat)) (r w x : Bool) (va : Nat) : Res :=
  match whereIs s gc vd va with
  | none => .xlate
  | some (.l2 m off) => if x then .perm else .loc (l2Loc (vdKey (pkgOf gc) vd) m off)
  | some (.host off) =>
    let fn := fnOfVd (vdKey (pkgOf gc) vd)
    if x then .perm else if s.iommu.contains (fn, off / 4096) then .xlate else .loc (hostLoc fn off)
  | some (.spad c off) =>
    let g := (s.core c).grantOf (vdKey (pkgOf c) vd)
    if !x && g.spBase * 4096 ≤ off && off < g.spLimit * 4096 then .loc (spadLoc c off) else .perm
  | some (.dram pkg off0) =>
    let vk := vdKey pkg vd
    if x && (pkg != pkgOf gc || remapBase ≤ off0) then .perm
    else match remapped s vk off0 with
    | none => .xlate
    | some off =>
      let page := off / 4096
      match tblFind (fails.map fun f => (f.1, f.2)) (walkKey vk page) with
      | some c => if c = cXlate then .xlate else .perm
      | none => match (s.router (s.routerOf gc)).find vk page with
        | none => .miss vk page
        | some e =>
          if (r && !e.r) || (w && !e.w) || (x && !e.x) || reserved s vk off then .perm
          else
            let t := (s.vd vk).trig.toNat
            if t != 0 && t ≤ off && off < t + 8 then .loc (trigLoc vk (off - t))
            else .loc (dramLoc pkg (e.phys (s.pkg pkg).massifs off))

/-! ### Misses (R409) -/

/-- Enter a miss of the page of an address, coalesced with one of the same page; a full table keeps it waiting in its core. -/
def Router.want (r : Router) (vk page t : Nat) (nr nw nx : Bool) (va : Nat) : Router :=
  if r.misses.any fun m => m.vk == vk && m.page == page then
    { r with misses := r.misses.map fun m =>
        if m.vk == vk && m.page == page then
          { m with needR := m.needR || nr, needW := m.needW || nw, needX := m.needX || nx,
                   waiters := if m.waiters.contains t then m.waiters else m.waiters ++ [t] }
        else m }
  else if r.misses.length < 32 then { r with misses := r.misses ++ [⟨vk, page, nr, nw, nx, [t], none, false, false, false, va, []⟩] }
  else r

/-! ### Checks of an instruction (R185, R186) -/

/-- Whether a form takes an access to this window (R192, R196 to R198, R314, R318). -/
inductive Forms where
  | any
  | noHost
  | spadOnly
  | ownSpad
  | sliceOnly
  deriving DecidableEq, Repr

def Forms.takes (va : Nat) : Forms → Where → Bool
  | .any, _ => true
  | .noHost, .host _ => false
  | .noHost, _ => true
  | .spadOnly, .spad .. => true
  | .spadOnly, _ => false
  | .ownSpad, .spad .. => va < 2 ^ 41 + spadBytes
  | .ownSpad, _ => false
  | .sliceOnly, .dram .. => true
  | .sliceOnly, .l2 .. => true
  | .sliceOnly, _ => false

/-- One thing that an instruction accesses: an address that translates as one piece, its length, whether it reads or writes it,
the windows it takes. -/
structure Item where
  va : Nat
  len : Nat
  r : Bool
  w : Bool
  forms : Forms
  /-- The address that the instruction names for it, which differs behind a remap window (R323), and the first byte of the
  access that it is a piece of, which decides the window (R170) and shows in ctl.tval for RLOCK (R186). -/
  named : Nat
  base : Nat
  /-- Range locks take it as a write: every form but those that R186 lists. -/
  lockW : Bool
  deriving DecidableEq, Repr

/-- An access that is one piece, as every aligned access of up to 8 bytes is. -/
def Item.one (va len : Nat) (r w : Bool) (forms : Forms) : Item := ⟨va, len, r, w, forms, va, va, w⟩

/-- The pieces of an access. -/
def itemsOf (s : State) (gc vd : Nat) (va len : Nat) (r w : Bool) (forms : Forms) : List Item :=
  (piecesOf s gc vd va len).map fun p => ⟨p.1, p.2, r, w, forms, p.1, va, w⟩

/-- The outcome of the checks of XLATE and PERM: the location of each item, walks to wait for, or a cause. -/
inductive Chk where
  | ok (locs : List Nat)
  | wait (pages : List (Nat × Nat × Item))
  | trap (code va : Nat)
  deriving DecidableEq, Repr

/-- An access meets a lock of its own core: a read a write lock, a write any lock (R186). -/
def lockMeets (s : State) (gc vk : Nat) (i : Item) : Bool :=
  (s.core gc).locks.any fun l =>
    l.vk == vk && (i.lockW || l.write) &&
    (overlaps i.named i.len l.lo (l.hi + 1 - l.lo) ||
      overlaps (normVa s gc i.named) i.len (normVa s gc l.lo) (l.hi + 1 - l.lo))

/-- An item lacks a permission, or its window does not take the form. -/
def itemPerm (s : State) (gc vd : Nat) (i : Item) (r : Res) : Bool :=
  r == .perm || match whereIs s gc vd i.va with
    | some w => !i.forms.takes i.va w
    | none => false

/-- What an item meets; one whose access has left the window of its first byte meets XLATE (R170). -/
def Item.res (s : State) (t : Thread) (i : Item) : Res :=
  if winOf i.va = winOf i.base then resolve s (coreOf t.id) t.vd t.walkFail i.r i.w false i.va else .xlate

/-- XLATE over every item, then PERM over every item (R185). -/
def checkItems (s : State) (t : Thread) (items : List Item) : Chk :=
  let gc := coreOf t.id
  let rs := items.map fun i => (i, i.res s t)
  let misses := rs.filterMap fun (i, r) => match r with
    | .miss vk page => some (vk, page, i)
    | _ => none
  match misses with
  | m :: ms => .wait (m :: ms)
  | [] =>
    match rs.find? fun (_, r) => r == .xlate with
    | some (i, _) => .trap cXlate i.named
    | none =>
      match rs.find? fun (i, r) => itemPerm s gc t.vd i r with
      | some (i, _) => .trap cPerm i.named
      | none => .ok (rs.filterMap fun (_, r) => match r with
          | .loc l => some l
          | _ => none)

/-- Enter the misses of a check and leave a bubble (R47, R409). -/
def State.awaitWalks (s : State) (pages : List (Nat × Nat × Item)) : State :=
  let t := s.thr.id
  let s := pages.foldl (fun s (vk, page, i) => s.modRouter (s.routerOf (coreOf t)) fun r => r.want vk page t i.r i.w false i.va) s
  s.modThr fun x => { x with park := none }

/-- XLATE and PERM, then what comes before RLOCK, then RLOCK (R185, R197). -/
def State.checkedMid (s : State) (items : List Item) (mid : Option (Nat × Nat)) (k : List Nat → State → State) : State :=
  match checkItems s s.thr items with
  | .wait pages => s.awaitWalks pages
  | .trap code va => s.trap code (BitVec.ofNat 64 va)
  | .ok locs => match mid with
    | some (code, va) => s.trap code (BitVec.ofNat 64 va)
    | none => match items.find? (lockMeets s s.gc s.thr.vk) with
      | some i => s.trap cRlock (BitVec.ofNat 64 i.base)
      | none => k locs s

/-- Make the checks of R185 from ALIGN on, and go on with the locations. -/
def State.checked (s : State) (align : Nat) (items : List Item) (k : List Nat → State → State) : State :=
  match items.find? fun i => i.base % align != 0 with
  | some i => s.trap cAlign (BitVec.ofNat 64 i.base)
  | none => s.checkedMid items none k

/-! ### Translation for engines: by the cache, else by a walk that fills it -/

/-- The location of an engine access, or none where it fails, as where the host has left its walk failed (R410). -/
def engResolve (s : State) (gc vd : Nat) (r w : Bool) (va : Nat) : Option Nat :=
  match resolve s gc vd [] r w false va with
  | .loc l => some l
  | .miss vk page => match if (s.router (s.routerOf gc)).fails.any (fun f => f.2 == (vk, page)) then none else walk s vk page with
    | none => none
    | some l => match resolve (s.modRouter (s.routerOf gc) fun x => x.fill vk page l) gc vd [] r w false va with
      | .loc a => some a
      | _ => none
  | .xlate => none
  | .perm => none

/-- Fill the cache for the pages that an engine's addresses touch. -/
def engFill (s : State) (gc vd : Nat) (vas : List Nat) : State :=
  vas.foldl (fun s va => match resolve s gc vd [] false false false va with
    | .miss vk page => match walk s vk page with
      | some l => s.modRouter (s.routerOf gc) fun x => x.fill vk page l
      | none => s
    | _ => s) s

/-- The same for every piece of ranges: first address and length of each. -/
def engFillRanges (s : State) (gc vd : Nat) (rs : List (Nat × Nat)) : State :=
  engFill s gc vd (rs.flatMap fun r => (piecesOf s gc vd r.1 r.2).map fun p => p.1)

/-! ### Tensors and tiles (R174, R175) -/

/-- The tensor that holds a byte of a VD's DRAM window: id and definition; tensor 0 where none is defined over it. -/
def tensorOf (s : State) (vk off : Nat) : Nat × Tensor :=
  match (s.vd vk).tensors.find? fun (_, t) => t.base ≤ off && off < t.base + t.len with
  | some e => e
  | none => (0, ⟨0, dramEnd, 32, 1⟩)

/-- A tile: tensor id, tensor, row index, column index. -/
structure Tile where
  id : Nat
  t : Tensor
  tr : Nat
  tc : Nat
  deriving DecidableEq, Repr

def tileOf (s : State) (vk off : Nat) : Tile :=
  let (id, t) := tensorOf s vk off
  ⟨id, t, (off - t.base) / t.pitch / 16, (off - t.base) % t.pitch / 32⟩

/-- The rows of a tile that the tensor contains: address and length of each (R174). -/
def Tile.rows (x : Tile) : List (Nat × Nat) :=
  (List.range 16).filterMap fun r =>
    let off := (16 * x.tr + r) * x.t.pitch + 32 * x.tc
    let len := min 32 (min (x.t.pitch - 32 * x.tc) (x.t.len - off))
    if off < x.t.len && 0 < len then some (x.t.base + off, len) else none

/-- What is left of a range once the tensors of a list have taken their bytes. -/
def cutRange (lo hi : Nat) : Tbl Tensor → List (Nat × Nat)
  | [] => if lo < hi then [(lo, hi - lo)] else []
  | (_, t) :: ts => cutRange lo (min hi (max lo t.base)) ts ++ cutRange (max lo (min hi (t.base + t.len))) hi ts

/-- The bytes of a tile, as address and length of each run: a tile of tensor 0 holds none that a defined tensor owns (R174). -/
def tileRows (s : State) (vk : Nat) (x : Tile) : List (Nat × Nat) :=
  if x.id = 0 then (x.rows.map fun r => cutRange r.1 (r.1 + r.2) (s.vd vk).tensors).flatten else x.rows

/-- A tile of 16 whole rows (R197). -/
def wholeRows (rows : List (Nat × Nat)) : Bool := rows.length == 16 && rows.all fun r => r.2 == 32

/-- First byte of a tile. -/
def Tile.first (x : Tile) : Nat := x.t.base + 16 * x.tr * x.t.pitch + 32 * x.tc

/-- Starts of the pieces of a range, one for each page: address and length. -/
def pagesOf (va len : Nat) : List (Nat × Nat) :=
  (List.range ((va + len - 1) / 4096 - va / 4096 + 1)).map fun k =>
    let lo := max va ((va / 4096 + k) * 4096)
    (lo, min (va + len) ((va / 4096 + k + 1) * 4096) - lo)

/-- Bytes from an offset of the DRAM window on that lie in one row of one tile (R174). -/
def tileRun (s : State) (vk off : Nat) : Nat :=
  let (id, t) := tensorOf s vk off
  let o := off - t.base
  let k := min (32 - o % t.pitch % 32) (min (t.pitch - o % t.pitch) (t.base + t.len - off))
  if id = 0 then (s.vd vk).tensors.foldl (fun k (_, x) => if off < x.base then min k (x.base - off) else k) k else k

/-- The tiles that hold bytes of a stretch of the DRAM window, in order, put behind those found before it. -/
def tilesIn (s : State) (vk : Nat) : Nat → Nat → Nat → List Tile → List Tile
  | 0, _, _, acc => acc
  | n + 1, off, len, acc =>
    if len = 0 then acc
    else
      let k := tileRun s vk off
      let t := tileOf s vk off
      tilesIn s vk n (off + k) (len - k) (if acc.contains t then acc else acc ++ [t])

/-- The locations of a VD's bytes in a tile, as first one and length of each run. -/
def tileLocs (s : State) (vk : Nat) (x : Tile) : List (Nat × Nat) :=
  (tileRows s vk x).flatMap fun r => (pagesOf r.1 r.2).filterMap fun p => (mappedLoc s vk p.1).map fun l => (l, p.2)

/-- A location belongs to a tile of the VD that holds bytes of a range, under the tagging in force. -/
def rangeHolds (s : State) (vk lo len loc : Nat) : Bool :=
  ((tilesIn s vk len lo len []).flatMap (tileLocs s vk)).any fun r => r.1 ≤ loc && loc < r.1 + r.2

/-- The pieces of a range with the location of each that translates: address, location, length. -/
def spans (s : State) (gc vd va len : Nat) : List (Nat × Nat × Nat) :=
  (piecesOf s gc vd va len).filterMap fun p => (engResolve s gc vd false false p.1).map fun l => (p.1, l, p.2)

/-- The massif that homes a tile's first byte, as its page is mapped; that of the byte accessed where the first byte is not mapped
(R175, R408, log entry 69). -/
def tileMassif (s : State) (vk : Nat) (x : Tile) (loc : Nat) : Nat := ((mappedLoc s vk x.first).getD loc) % 2 ^ 38 / 2 ^ 35

/-- The number of a slice in the domain: package * 2048 + massif * 256 + slice. -/
def sliceNo (pkg m k : Nat) : Nat := pkg * 2048 + m * 256 + k

/-- The home slice of a tile that holds the byte at this location (R175). -/
def sliceOf (s : State) (vk : Nat) (x : Tile) (loc : Nat) : Nat :=
  let m := tileMassif s vk x loc
  sliceNo (vk / 16) m ((13 * x.id + 7 * x.tr + x.tc) % max ((s.pkg (vk / 16)).slicesOf m) 1)

/-- The slice that holds an offset of a massif's shared memory (R179). -/
def sharedSlice (s : State) (pkg m off : Nat) : Nat := sliceNo pkg m (off / 512 % max ((s.pkg pkg).slicesOf m) 1)

/-- The home of a byte, by number: its slice, the port of the core that owns its scratchpad, or the host (R175, R176, R179). -/
def homeOf (s : State) (gc vd va loc : Nat) : Nat :=
  match whereIs s gc vd va with
  | some (.dram pkg off0) =>
    let vk := vdKey pkg vd
    sliceOf s vk (tileOf s vk ((remapped s vk off0).getD off0)) loc
  | some (.l2 m off) => sharedSlice s (pkgOf gc) m off
  | some (.spad c _) => 2 ^ 32 + c
  | _ => 2 ^ 33

/-! ### Slices that a vertical link's failure cuts off (R446) -/

/-- Where a byte stands whose home slice is unreachable: a place that holds no data. -/
def lostLoc (loc : Nat) : Nat := 2 ^ 59 + loc % 2 ^ 58
def isLost (loc : Nat) : Bool := 2 ^ 59 ≤ loc && loc < 2 ^ 60

/-- The vertical link above a slice, by number of the slice in the shape, is down. -/
def sliceDown (s : State) (pkg sl : Nat) : Bool :=
  (s.pkg pkg).linksDown.contains (2 ^ 14 + (s.pkg pkg).slicePlace (sl % 2048 / 256) (sl % 256))

/-- The location of a byte of a VD's DRAM window as its home slice serves it. -/
def homeAt (s : State) (vk off loc : Nat) : Nat :=
  if (s.pkg (vk / 16)).linksDown.isEmpty then loc
  else if sliceDown s (vk / 16) (sliceOf s vk (tileOf s vk off) loc) then lostLoc loc else loc

/-- The location of an address as its home serves it. -/
def reached (s : State) (gc vd va loc : Nat) : Nat :=
  if s.pkgs.all fun p => p.2.linksDown.isEmpty then loc
  else match whereIs s gc vd va with
    | some (.dram pkg off) => homeAt s (vdKey pkg vd) ((remapped s (vdKey pkg vd) off).getD off) loc
    | some (.l2 m off) =>
      if sliceDown s (pkgOf gc) (sharedSlice s (pkgOf gc) m off) then lostLoc loc else loc
    | _ => loc

/-! ### Reading and writing at a home -/

/-- Whether a range touches a code unit with an uncorrectable error, or is cut off (R443, R446). -/
def State.bad (s : State) (loc len : Nat) : Bool := isLost loc || s.ue.any fun u => overlaps u.1 u.2 loc len

/-- The bytes of a range, or none at an uncorrectable error. -/
def State.readLoc (s : State) (loc len : Nat) : Option (List Byte) :=
  if s.bad loc len then none else some (memReadN s.mem loc len)

/-- A range can be written: every bad unit that it touches it covers whole (R187, R443). -/
def State.canWrite (s : State) (loc len : Nat) : Bool :=
  !isLost loc && s.ue.all fun u => !overlaps u.1 u.2 loc len || (loc ≤ u.1 && u.1 + u.2 ≤ loc + len)

/-- Keep what DRAM holds under a byte that a tile in the cache has written since (R176, R200). -/
def keepBack (mem : List Host.Cell) : Nat → Nat → Tbl Byte → Tbl Byte
  | 0, _, b => b
  | n + 1, a, b => keepBack mem n (a + 1) (if (tblFind b a).isSome then b else tblPut b a (memRead mem a))

/-- Apply a write at its home, with no further consequence. A byte has one copy by its place, so that two mappings of it are coherent
(DESIGN CHOICE, log entry 108). -/
def State.rawWrite (s : State) (loc : Nat) (bs : List Byte) : State :=
  if isTrig loc then s else
  { s with mem := memWriteN s.mem loc bs,
           back := if isDram loc then keepBack s.mem bs.length loc s.back else s.back,
           ue := s.ue.filter fun u => !overlaps u.1 u.2 loc bs.length,
           ce := s.ce.filter fun u => !(loc ≤ u.1 && u.1 + u.2 ≤ loc + bs.length) }

/-! ### Lines of the cache (R12, R176, R178) -/

/-- The tile of a VD that holds the byte at a location, where the part still knows it. -/
def State.tileAt (s : State) (loc : Nat) : Option (Nat × Tile) := (s.ownerOf loc).map fun (vk, off) => (vk, tileOf s vk off)

/-- The dirty tiles of a VD. -/
def State.dirtyTiles (s : State) (vk : Nat) : List Tile :=
  (s.back.filterMap fun e => (s.tileAt e.1).bind fun x => if x.1 = vk then some x.2 else none).eraseDups

/-- A location lies in one of these ranges. -/
def within (ls : List (Nat × Nat)) (loc : Nat) : Bool := ls.any fun r => r.1 ≤ loc && loc < r.1 + r.2

/-- Errors that are left once the words in which a slice caches these ranges are gone (R443, log entry 91). -/
def dropWords (ls : List (Nat × Nat)) (us : List (Nat × Nat)) : List (Nat × Nat) :=
  us.filter fun u => !(u.2 < 64 && isDram u.1 && within ls u.1)

/-- Tiles at these ranges are written back where they are dirty: what DRAM holds there is what their home holds. -/
def State.cleanLocs (s : State) (ls : List (Nat × Nat)) : State := { s with back := s.back.filter fun e => !within ls e.1 }

/-- A tile leaves the cache, written back where it is dirty (R176). -/
def State.cleanTile (s : State) (vk : Nat) (x : Tile) : State :=
  let ls := tileLocs s vk x
  if s.back.any fun e => within ls e.1 then s.cleanLocs ls
  else { s with ue := dropWords ls s.ue, ce := dropWords ls s.ce }

/-- Lines of a slice that may cache tiles of a VD: 384 sets of its cache ways (R12, R178). -/
def linesOf (v : Vd) : Nat := 384 * (v.ways - v.sways)

/-- After a write: a slice that would hold more dirty tiles of the VD than its lines writes one of them back, which one is the
part's choice (R176, log entry 81). -/
def State.spill (s : State) (loc : Nat) : State :=
  if s.back.isEmpty || !isDram loc then s
  else match s.tileAt loc with
    | none => s
    | some (vk, x) =>
      if s.back.length ≤ linesOf (s.vd vk) then s
      else
        let home := sliceOf s vk x loc
        let ls := (s.dirtyTiles vk).filter fun y => sliceOf s vk y ((mappedLoc s vk y.first).getD loc) == home
        if ls.length ≤ linesOf (s.vd vk) then s
        else
          let chosen := ls.zipIdx.find? fun (_, i) => Config.freeBool (s.free + i)
          (({ s with free := s.free + ls.length } : State).cleanTile vk ((chosen.map fun c => c.1).getD x))

/-! ### Full and empty words (R191) -/

/-- The aligned 8-byte word of a location. -/
def wordOf (loc : Nat) : Nat := loc / 8 * 8

def State.isFull (s : State) (loc : Nat) : Bool := s.full.contains (wordOf loc)
def State.setFull (s : State) (loc : Nat) (b : Bool) : State :=
  { s with full := if b then if s.full.contains (wordOf loc) then s.full else s.full ++ [wordOf loc]
                   else s.full.filter fun w => w != wordOf loc }

/-! ### Results of accesses -/

/-- Replace lane `i` of width `w`. -/
def setLane (v : VWord) (w i x : Nat) : VWord :=
  vOfLanes w ((List.range (1024 / w)).map fun j => if j = i then x else lane v w j)

/-- A value taken by an access goes into its result: a whole scalar, a lane, or LDFP's predicate. -/
def putResult (a : Access) (p : Part) (x : Nat) (st : PWord) : RegWrite → RegWrite
  | .s r _ => .s r (BitVec.ofNat 64 x)
  | .v r v => .v r (setLane v a.width p.lane x)
  | .p r _ => .p r st

/-- Change the buffered result with this number. -/
def Thread.modEntry (t : Thread) (id : Nat) (f : BufEntry → BufEntry) : Thread :=
  { t with buf := t.buf.map fun e => if e.id = id then f e else e }

/-- Put bytes over a list from a place on; what lies before it and is missing reads as zero. -/
def putAt (bs : List Byte) (o : Nat) (xs : List Byte) : List Byte :=
  bs.take o ++ List.replicate (o - bs.length) 0 ++ xs ++ bs.drop (o + xs.length)

/-- PLANSET's descriptor is kept, piece by piece, until its result is formed (R279). -/
def Form.take (p : Part) (x : Nat) : Form → Form
  | .planset d a bs cls => .planset d a (putAt bs (p.va - a).toNat (toBytes p.len x)) cls
  | f => f

/-! ### Error counts (R445) -/

/-- Package and logical massif of the memory that holds a location; none for the host's. -/
def massifAt (loc : Nat) : Option (Nat × Nat) :=
  if isDram loc then some (loc / 2 ^ 38, loc % 2 ^ 38 / 2 ^ 35)
  else if isSpad loc then some (pkgOf (spadCore loc), massifOf (spadCore loc))
  else if 2 ^ 61 ≤ loc && loc < 2 ^ 62 then some ((loc - 2 ^ 61) / 2 ^ 30 / 8 / 16, (loc - 2 ^ 61) / 2 ^ 30 % 8)
  else none

/-- One more, up to a limit. -/
def tblCount (t : Tbl Nat) (k limit : Nat) : Tbl Nat := tblPut t k (min (tblGet t k 0 + 1) limit)

/-- What INFO0 of type 22 names a code unit by (R444): DRAM by its physical address, a word of a slice or scratchpad by the physical
slice or core. A unit of 8 bytes in DRAM's range is a word of the slice that caches it (log entry 91). -/
def unitInfo (s : State) (loc len : Nat) : Nat :=
  let slice (pkg sl : Nat) : Nat := 2 ^ 62 + (s.pkg pkg).slicePlace (sl % 2048 / 256) (sl % 256)
  if isDram loc then
    if 64 ≤ len then loc % 2 ^ 38
    else slice (loc / 2 ^ 38) (((s.tileAt loc).map fun x => sliceOf s x.1 x.2 loc).getD 0)
  else if isSpad loc then 2 ^ 63 + physCore (s.pkg (pkgOf (spadCore loc))) (spadCore loc % 16384)
  else
    let k := (loc - 2 ^ 61) / 2 ^ 30
    slice (k / 8 / 16) (sharedSlice s (k / 8 / 16) (k % 8) (loc % 2 ^ 30))

/-- In host-assisted mode a memory error is reported, and the unit's count starts afresh (R444). -/
def postMemory (s : State) (pkg loc len : Nat) (ue : Bool) : State :=
  if !(s.pkg pkg).rmode.getLsbD 1 then s
  else
    let n := tblGet (s.pkg pkg).corrections (loc / 4096) 0
    if !ue && n < 16 then s
    else
      (postOlush s pkg 0 22 (unitInfo s loc len + if ue then 2 ^ 61 else 0) n).modPkg pkg fun p =>
        { p with corrections := tblDel p.corrections (loc / 4096) }

/-- The package counts an uncorrectable error, or a correction, of the unit at a location (R444, R445). -/
def Pkg.countEcc (p : Pkg) (m loc : Nat) (ue : Bool) : Pkg :=
  if ue then { p with eccUe := tblCount p.eccUe m 0xFFFF }
  else { p with eccCe := tblCount p.eccCe m 0xFFFFFFFF,
                corrections := tblPut p.corrections (loc / 4096) (tblGet p.corrections (loc / 4096) 0 + 1) }

/-- An error of a unit counts in the package's copy, and in the copy of the VD whose access met it (R445). -/
def State.countUnit (s : State) (vd : Option Nat) (loc len : Nat) (ue : Bool) : State :=
  match massifAt loc with
  | none => s
  | some (p, m) =>
    let s := s.modPkg p fun x => x.countEcc m loc ue
    let s := match vd with
      | none => s
      | some v => s.modVd (vdKey p v) fun v =>
          if ue then { v with eccUe := tblCount v.eccUe m 0xFFFF } else { v with eccCe := tblCount v.eccCe m 0xFFFFFFFF }
    postMemory s p loc len ue

/-- A read of these bytes at their homes, by a VD's access or engine operation or for the part itself: an uncorrectable error is
counted, and a correctable one is corrected, the word written back, and counted (R443, R445). -/
def State.meets (s : State) (vd : Option Nat) (locs : List Nat) : State :=
  if s.ue.isEmpty && s.ce.isEmpty then s
  else match locs.find? fun l => s.bad l 1 with
    | some l => s.countUnit vd l (((s.ue.find? fun u => overlaps u.1 u.2 l 1).map fun u => u.2).getD 8) true
    | none =>
      let mended := s.ce.filter fun u => locs.any fun l => u.1 ≤ l && l < u.1 + u.2
      mended.foldl (fun s u => s.countUnit vd u.1 u.2 false) { s with ce := s.ce.filter fun u => !mended.contains u }

/-- The same for a VD's access or engine operation. -/
def State.countUe (s : State) (vd : Nat) (locs : List Nat) : State := s.meets (some vd) locs

/-- The bytes from a location on. -/
def bytesAt (loc len : Nat) : List Nat := (List.range len).map fun i => loc + i

/-- A part of an access reads its bytes at their home. -/
def State.metBy (s : State) (a : Access) (p : Part) : State := s.countUe (s.thread a.tid).vd (bytesAt p.loc p.len)

/-- A part of an access that returns a value has taken it, or has failed. -/
def State.takeValue (s : State) (a : Access) (p : Part) (x : Option Nat) (st : PWord) : State :=
  let s := if x.isNone then s.metBy a p else s
  s.modThread a.tid fun t => t.modEntry a.id fun e =>
    match x with
    | some x => { e with writes := e.writes.map (putResult a p x st), form := e.form.take p x }
    | none => { e with fail := some cMemue }

/-! ### The port's list -/

/-- Remove the part or parts of a lane; an access without parts leaves the port, and what an acquire held is taken by the
port only then. -/
def dropLane (port : List Access) (id lane : Nat) : List Access :=
  match port.find? fun a => a.id = id with
  | none => port
  | some a =>
    let ps := a.parts.filter fun p => p.lane != lane
    match ps with
    | _ :: _ => port.map fun b => if b.id = id then { b with parts := ps } else b
    | [] =>
      if a.acq then
        let pre := port.takeWhile fun b => b.id != id
        let post := (port.dropWhile fun b => b.id != id).tail
        pre ++ post.filter (fun b => b.tid != a.tid) ++ post.filter (fun b => b.tid == a.tid)
      else port.filter fun b => b.id != id

/-- A part is done: it leaves the port, and a result whose parts are all done is formed. -/
def State.partDone (s : State) (gc : Nat) (a : Access) (lane : Nat) : State :=
  let s := s.modCore gc fun c => { c with port := dropLane c.port a.id lane }
  if (s.core gc).port.any fun b => b.id = a.id then s
  else s.modThread a.tid fun t => t.modEntry a.id fun e => { e with done := true }

/-! ### Sync-wait queue and watch tables (R193, R198) -/

/-- Whether a waiting form's condition holds for its word. -/
def waitHolds (s : State) (a : Access) (p : Part) : Bool :=
  match a.kind with
  | .ldf => s.isFull p.loc
  | .ste => !s.isFull p.loc
  | .waitge n => match s.readLoc p.loc p.len with
    | some bs => decide (n ≤ ofBytes bs)
    | none => true
  | _ => false

/-- Perform an LDF, STE or WAITGE whose condition holds, without a scan (R192, R198). A word with an uncorrectable error
fails an LDF and a WAITGE. -/
def performWait (s : State) (gc : Nat) (a : Access) (p : Part) : State :=
  match a.kind with
  | .ldf => match s.readLoc p.loc p.len with
    | some bs => (((s.metBy a p).takeValue a p (some (ofBytes bs)) 0).setFull p.loc false).partDone gc a p.lane
    | none => (s.takeValue a p none 0).partDone gc a p.lane
  | .ste => ((s.rawWrite p.loc p.data).setFull p.loc true).partDone gc a p.lane
  | .waitge _ =>
    let x := s.readLoc p.loc p.len
    let s := (s.countUe (s.thread a.tid).vd (bytesAt p.loc p.len)).partDone gc a p.lane
    s.modThread a.tid fun t => match t.wait with
      | .waitge id _ _ =>
        if id != a.id then t
        else match x with
          | some bs => { t with wait := .waitge id (some (BitVec.ofNat 64 (ofBytes bs))) false }
          | none => ({ t with wait := .none, pend := t.pend ++ [⟨cMemue, p.va.setWidth 64, none, 0⟩] } : Thread).cutPark
      | _ => t
  | _ => s

/-- Entries that wait for a word, oldest first, each with its core. -/
def waitersOf (s : State) (word : Nat) : List (Nat × Access × Part) :=
  let all := (s.cores.map fun (gc, c) => c.port.filterMap fun a =>
    if a.waiting then match a.parts with
      | [p] => if wordOf p.loc = word then some (gc, a, p) else none
      | _ => none
    else none).flatten
  sortBy (fun x => x.2.1.arrived) all

/-- Its retry count has reached the thread's LIMIT (R194, R195), as ctl.syncl holds it now: a CTLW counts for an entry that is
already queued (DESIGN CHOICE, log entry 92). -/
def State.exhausted (s : State) (a : Access) : Bool :=
  let limit := (s.thread a.tid).syncl.toNat
  limit != 0 && limit ≤ a.retries

/-- One scan of a word's waiters: `failed` holds the numbers of LDF and STE entries that have failed in it (R193). -/
def scan (word : Nat) : Nat → List Nat → State → State × List Nat
  | 0, failed, s => (s, failed)
  | n + 1, failed, s =>
    let ws := (waitersOf s word).filter fun (_, a, _) => !s.exhausted a
    match ws.find? fun (_, a, p) => waitHolds s a p with
    | none => (s, failed ++ ws.map fun (_, a, _) => a.id)
    | some (gc, a, p) =>
      let before := (ws.takeWhile fun (_, b, _) => b.id != a.id).map fun (_, b, _) => b.id
      scan word n (failed ++ before) (performWait s gc a p)

def Access.counted (a : Access) : Bool :=
  match a.kind with
  | .ldf => true
  | .ste => true
  | _ => false

/-- One more retry for an entry still queued that failed in a scan. -/
def Access.retry (failed : List Nat) (a : Access) : Access :=
  if a.waiting && a.counted && failed.contains (a.id) then { a with retries := a.retries + 1 } else a

/-- Count one retry for each entry still queued that failed in a scan. -/
def countRetries (failed : List Nat) (s : State) : State :=
  { s with cores := s.cores.map fun (gc, c) => (gc, { c with port := c.port.map (Access.retry failed) }) }

/-- What follows a change of a word: a scan of its waiters (R193), or its watchers evaluated again (R198). -/
def wordChanged (s : State) (word : Nat) : State :=
  let n := (waitersOf s word).length
  if n = 0 then s
  else
    let (s, failed) := scan word (n + 1) [] s
    if isSpad word then countRetries failed s else s

/-- The words of a range. -/
def wordsOf (loc len : Nat) : List Nat := (List.range ((loc + len - 1) / 8 - loc / 8 + 1)).map fun i => (loc / 8 + i) * 8

/-- Eight bytes reach a trigger word, once for each store (R280). -/
def noteTrigger (s : State) (loc : Nat) (g : Trigger) : State :=
  s.modVd ((loc - 2 ^ 58) / 8) fun v =>
    if g.src.isSome && v.triggers.any (fun x => x.src == g.src) then v else { v with triggers := v.triggers ++ [g] }

/-- Apply a write at its home with what follows from it; a write that a bad unit refuses is not applied (R187). -/
def State.writeLoc (s : State) (loc : Nat) (bs : List Byte) : State × Bool :=
  if s.canWrite loc bs.length then
    ((wordsOf loc bs.length).foldl wordChanged ((s.rawWrite loc bs).spill loc), true)
  else (s, false)

end Sys2Proof.Machine
end

