-- ==== Sys2Proof/Machine/Buckets.lean ====
section
/-! DEFINITION. Token buckets and arbiters (R391, R392, R395 to R397).

An arbiter's number is its class times 2^40 plus its place: the core for the matrix and copy classes, else the package times
2^24 plus a number within the class. An arbiter that nothing has used stands as every other such one of its class does on its
package, and on its massif for the matrix and copy classes: one entry, its template, stands for all of them. -/

namespace Sys2Proof.Machine

/-! ### The classes (R392) -/

def classNum : RateClass → Nat
  | .matrix => 0
  | .copy => 1
  | .mesh => 2
  | .vertical => 3
  | .bridge => 4
  | .slice => 5
  | .link => 6
  | .cxl => 7
  | .dram => 8

/-- Tokens per 1,024 cycles of one arbiter. -/
def capacity (c : Nat) : Nat :=
  match c with
  | 1 => 2048
  | 6 => 4216
  | 7 => 1204
  | 8 => 1176
  | _ => 1024

/-- What VDs may reserve of it. -/
def reservable (c : Nat) : Nat :=
  match c with
  | 0 => 1024
  | 1 => 2048
  | 6 => 4200
  | 7 => 1188
  | 8 => 1160
  | _ => 1008

def classUmax (c : Nat) : Nat :=
  match c with
  | 0 => 768
  | 1 => 4
  | 6 => 3
  | 7 => 1
  | 8 => 7
  | _ => 9

/-- The largest unit: what a server serves without a break (R12, R392). -/
def unitMax (c : Nat) : Nat :=
  match c with
  | 0 => 768
  | 1 => 8
  | 7 => 1
  | 8 => 8
  | _ => 9

def classVmax (c : Nat) : Nat :=
  match c with
  | 0 => 2
  | 1 => 8
  | _ => 17

def arbKey (c i : Nat) : Nat := c * 2 ^ 40 + i
def arbClass (arb : Nat) : Nat := arb / 2 ^ 40
/-- The place from which templates of the matrix and copy classes are numbered, by package * 8 + massif. -/
def coreTemplates : Nat := 2 ^ 39
/-- The number of the template of another class on a package. -/
def classTemplate (pkg : Nat) : Nat := pkg * 2 ^ 24 + 0xFFFFFF

def arbPkg (arb : Nat) : Nat :=
  let i := arb % 2 ^ 40
  if 1 < arbClass arb then i / 2 ^ 24 else if coreTemplates ≤ i then (i - coreTemplates) / 8 else pkgOf i

/-- The template of an arbiter. -/
def templateOf (arb : Nat) : Nat :=
  let i := arb % 2 ^ 40
  if 1 < arbClass arb then arbKey (arbClass arb) (classTemplate (arbPkg arb))
  else if coreTemplates ≤ i then arb else arbKey (arbClass arb) (coreTemplates + pkgOf i * 8 + massifOf i)

/-- Every template of a package. -/
def templatesOf (pkg : Nat) : List Nat :=
  (List.range 8).flatMap (fun m => [arbKey 0 (coreTemplates + pkg * 8 + m), arbKey 1 (coreTemplates + pkg * 8 + m)]) ++
  (List.range 7).map fun c => arbKey (c + 2) (classTemplate pkg)

/-- An arbiter as nothing has used it; every bucket and pool starts at 0 at package reset (R391). -/
def State.freshArb (s : State) (arb : Nat) : Arbiter :=
  tblGet s.arbiters (templateOf arb) { Arbiter.blank with accrued := (s.pkg (arbPkg arb)).resetAt }

def State.arb (s : State) (a : Nat) : Arbiter := tblGet s.arbiters a (s.freshArb a)
def State.modArb (s : State) (a : Nat) (f : Arbiter → Arbiter) : State :=
  { s with arbiters := tblPut s.arbiters a (f (s.arb a)) }

/-! ### Rates in force (R393) -/

def zeroRate : Rate := ⟨0, 0, false, false⟩

/-- A VD's rate fields of a class. -/
def Vd.rateOf (v : Vd) (c : Nat) : Rate := v.rates[c]?.getD zeroRate

/-- Tokens per 1,024 cycles at one arbiter: at a DRAM channel, ⌈DGBS × 1,024 / (54.4 × N)⌉ with 64 channels a massif. -/
def tokens (s : State) (pkg c : Nat) (r : Rate) : Nat :=
  if c = 8 then ceilDiv (r.rate * 10240) (544 * (64 * (s.pkg pkg).massifs)) else r.rate

/-- Rate, depth, LEND and BORROW of an owner at an arbiter; the system bucket holds 16 and 16 (R392). -/
def ownerRate (s : State) (arb owner : Nat) : Rate :=
  let c := arbClass arb
  let pkg := arbPkg arb
  if owner = 16 then (if c ≤ 1 then zeroRate else ⟨16, 16, false, false⟩)
  else
    let v := s.vd (vdKey pkg owner)
    if v.isVd then { v.rateOf c with rate := tokens s pkg c (v.rateOf c) } else zeroRate

/-- The owners that have a bucket at an arbiter. -/
def owners (s : State) (arb : Nat) : List Nat :=
  (List.range 17).filter fun o => if o = 16 then 1 < arbClass arb else (s.vd (vdKey (arbPkg arb) o)).isVd

/-- FACTOR of a core: 0 while every token of its massif is withheld (R18, R401). -/
def State.factorOf (s : State) (gc : Nat) : Nat :=
  if (s.pkg (pkgOf gc)).withheld.contains (massifOf gc) then 0 else (s.core gc).factor

/-- The accrual factor in 256ths: ctl.thr's at a matrix arbiter (R401). -/
def factorAt (s : State) (arb : Nat) : Nat :=
  let i := arb % 2 ^ 40
  if arbClass arb != 0 then 256
  else if coreTemplates ≤ i then (if (s.pkg (arbPkg arb)).withheld.contains (i % 8) then 0 else 256)
  else s.factorOf i

/-! ### Accrual (R391, R397) -/

def poolMax : Nat := 64

/-- Some cycles of one bucket in which nothing starts; the tokens that go to the lend pool. -/
def accrue (r : Rate) (factor cycles : Nat) (pending : Bool) (b : Bucket) : Bucket × Nat :=
  let x := b.frac + r.rate * factor * cycles
  let n := x / 262144
  let room := (r.depth - b.level).toNat
  let lent := if r.lend && !pending then n - min n room else 0
  ({ b with frac := x % 262144, level := b.level + (min n room : Nat) }, lent)

/-- An arbiter with everything accrued up to the present cycle. -/
def State.accrued (s : State) (arb : Nat) : Arbiter :=
  let a := s.arb arb
  let n := s.cycle - a.accrued
  let f := factorAt s arb
  let rs := (owners s arb).map fun o => (o, ownerRate s arb o)
  let (bs, lent) := rs.foldl (fun (bs, lent) (o, r) =>
    let (b, l) := accrue r f n (a.pending.any fun u => u.owner == o) (tblGet a.buckets o Bucket.zero)
    (tblPut bs o b, lent + l)) (a.buckets, 0)
  let free := capacity (arbClass arb) - (rs.map fun x => x.2.rate).sum
  let x := a.poolFrac + free * f * n
  { a with buckets := bs, pool := min (a.pool + lent + x / 262144) poolMax, poolFrac := x % 262144, accrued := s.cycle }

/-- Accrue at an arbiter; a cycle accrues once. -/
def State.accrueAt (s : State) (arb : Nat) : State :=
  if (s.arb arb).accrued ≥ s.cycle then s else s.modArb arb fun _ => s.accrued arb

/-- Accrue at every arbiter of a package, those that nothing has used among them, before what they accrue by changes. -/
def State.accruePkg (s : State) (pkg : Nat) : State :=
  ((s.arbiters.filterMap fun e => if arbPkg e.1 = pkg then some e.1 else none) ++ templatesOf pkg).foldl State.accrueAt s

/-- One cycle's accrual of an arbiter, with the cycles before it that have not accrued there. -/
def execBucketAccrual (arb : Nat) (s : State) : Out := .next (s.accrueAt arb)

/-! ### Arbitration (R395, R396) -/

/-- Units of a VD, oldest first; the one that it starts next. -/
def nextOf (grants : Nat) (us : List Offer) : Option Offer :=
  if (grants + 1) % 16 = 0 then us.head?
  else us.find? fun u => us.all fun v => u.cls ≤ v.cls

/-- The owner that a round robin after `last` finds first. -/
def roundRobin (last : Nat) (os : List Nat) : Option Nat :=
  ((List.range 17).map fun i => (last + 1 + i) % 17).find? fun o => os.contains o

/-- The choice of a free server: the unit and whether it is borrowed. A core whose FACTOR is 0 starts no block (R403). -/
def choose (s : State) (arb : Nat) (a : Arbiter) : Option (Offer × Bool) :=
  if factorAt s arb = 0 then none else
  let ready := (owners s arb).filter fun o =>
    (a.pending.any fun u => u.owner == o) && decide (1 ≤ (tblGet a.buckets o Bucket.zero).level)
  match roundRobin a.last ready with
  | some o => (nextOf (tblGet a.buckets o Bucket.zero).grants (a.pending.filter fun u => u.owner == o)).map fun u => (u, false)
  | none => match a.pending.find? fun u => (ownerRate s arb u.owner).borrow with
    | some u => if u.size ≤ a.pool then some (u, true) else none
    | none => none

/-- Start a unit: its size is charged to the bucket or to the pool, and the server is busy for its service. -/
def startUnit (s : State) (arb : Nat) (u : Offer) (borrowed : Bool) : State :=
  s.modArb arb fun a =>
    let busy := s.cycle + max 1 (ceilDiv (u.size * 1024) (capacity (arbClass arb)))
    let a : Arbiter := { a with pending := a.pending.erase u, busy := busy }
    if borrowed then { a with pool := a.pool - u.size }
    else
      let b := tblGet a.buckets u.owner Bucket.zero
      { a with last := u.owner,
               buckets := tblPut a.buckets u.owner { b with level := b.level - u.size, grants := b.grants + 1 } }

/-- A unit of an operation asks a server: it joins the units that wait, and starts if the server is free and chooses it. -/
def State.askUnit (s : State) (arb : Nat) (u : Offer) : State × Bool :=
  let s := s.accrueAt arb
  let s := if (s.arb arb).pending.contains u then s else s.modArb arb fun a => { a with pending := a.pending ++ [u] }
  if s.cycle < (s.arb arb).busy then (s, false)
  else match choose s arb (s.arb arb) with
    | some (v, borrowed) => if v = u then (startUnit s arb u borrowed, true) else (s, false)
    | none => (s, false)

/-- Some units that wait are gone; the cycles in which they waited have accrued as such (R391, R397, R403). -/
def State.dropUnits (s : State) (gone : Nat → Offer → Bool) : State :=
  { s with arbiters := s.arbiters.map fun (k, a) =>
      if a.pending.any (gone k) then (k, { s.accrued k with pending := a.pending.filter fun u => !gone k u }) else (k, a) }

/-- A unit of an owner may start at an arbiter: on a token of its bucket, or on a borrowed one (R391, R395). -/
def State.mayAsk (s : State) (arb owner : Nat) : Bool :=
  let a := s.accrued arb
  decide (1 ≤ (tblGet a.buckets owner Bucket.zero).level) || ((ownerRate s arb owner).borrow && 1 ≤ a.pool)

/-- Some of the `total` 64-byte units of an operation have moved; the next ones ask the copy engine. How many have moved then. -/
def State.moveNext (s : State) (gc vk op total paid : Nat) (cls : BitVec 2) : State × Nat :=
  let n := min (unitMax 1) (total - paid)
  let (s, started) := s.askUnit (arbKey 1 gc) ⟨vk % 16, n, cls.toNat, op⟩
  (s, if started then paid + n else paid)

/-- A unit of `bytes` bytes of an engine operation at a core's copy engine (R392, R396). -/
def copyUnit (vk op bytes : Nat) (cls : BitVec 2) : Offer := ⟨vk % 16, max 1 (ceilDiv bytes 64), cls.toNat, op⟩

end Sys2Proof.Machine
end

