-- ==== Sys2Proof/Machine/Operands.lean ====
section
/-! DEFINITION. Every operand form: register sources with what they read and park on (R38, R83, R84), immediates, branch
targets (R43, R104), base plus offset (R188), and the shapes of the instructions that compute from registers alone. -/

namespace Sys2Proof.Machine

/-- The registers that a scalar source parks on: codes 56 and 57 are always present (R38). -/
def srcRegs : Src → List Reg
  | .s r => [.s r]
  | .tags => []
  | .time => []

/-- The value of a scalar source as it stands at issue: a register's committed value, the tag bitmap of the thread's VD on
its core, or the time base (R83, R84). -/
def State.src (s : State) : Src → Word
  | .s r => s.thr.getS r
  | .tags => ((s.core s.gc).tagsOf s.thr.vk).bits
  | .time => BitVec.ofNat 64 (s.time (pkgOfThread s.thr.id))

/-- The registers of an optional scalar source. -/
def optRegs : Option Src → List Reg
  | none => []
  | some a => srcRegs a

/-- What RFULL tests: codes 56 and 57 are always present (R38, R220). -/
def FullSrc.isFull (t : Thread) : FullSrc → Bool
  | .reg r => Reg.isFull t r
  | .tags => true
  | .time => true

/-- Line and head that a BI unit names (R43, R104); one outside the 52-bit address space wraps in it (log entry 66). -/
def biTarget (pc : Addr) (delta : BitVec 11) (h : BitVec 5) : Addr :=
  lineAddr pc + (delta.signExtend 52 <<< 6) + (h.setWidth 52 <<< 1)

/-- The same as an integer, without a bound (R31). -/
def biTargetInt (pc : Addr) (delta : BitVec 11) (h : BitVec 5) : Int :=
  (lineAddr pc).toNat + 64 * delta.toInt + 2 * h.toNat

/-- Byte address of a base plus a signed offset, wrapping in 52 bits; bits 63:52 of the base are ignored (R188). -/
def baseOff (a : Word) (off : BitVec 16) : Addr := a.setWidth 52 + off.signExtend 52

/-- An instruction of two scalar sources with a simple scalar result (R84, R85). -/
def simple2 (sw : Bool) (d : SReg) (a b : Src) (f : Word → Word → Word) (s : State) : State :=
  s.withRegs (srcRegs a ++ srcRegs b) fun s => (s.writeS d (f (s.src a) (s.src b))).finish sw

/-- An instruction of one scalar source with a simple scalar result (R84, R89). -/
def simple1 (sw : Bool) (d : SReg) (a : Src) (f : Word → Word) (s : State) : State :=
  s.withRegs (srcRegs a) fun s => (s.writeS d (f (s.src a))).finish sw

/-- An instruction of two scalar sources with a deferred scalar result that is formed at issue (R44, R46, R88). -/
def deferred2 (sw : Bool) (d : SReg) (a b : Src) (f : Word → Word → Word) (s : State) : State :=
  s.withSlot fun s => s.withRegs (srcRegs a ++ srcRegs b) fun s =>
    (s.defer [.s d (f (s.src a) (s.src b))] .plain true).finish sw

/-- Two predicate sources, simple predicate result (R100). -/
def pred2 (sw : Bool) (d a b : PReg) (f : PWord → PWord → PWord) (s : State) : State :=
  s.withRegs [.p a, .p b] fun s => (s.writeP d (f (s.thr.getP a) (s.thr.getP b))).finish sw

/-- One predicate source, simple predicate result (R100). -/
def pred1 (sw : Bool) (d a : PReg) (f : PWord → PWord) (s : State) : State :=
  s.withRegs [.p a] fun s => (s.writeP d (f (s.thr.getP a))).finish sw

/-- One predicate source, simple scalar result (R100). -/
def predS (sw : Bool) (d : SReg) (a : PReg) (f : PWord → Word) (s : State) : State :=
  s.withRegs [.p a] fun s => (s.writeS d (f (s.thr.getP a))).finish sw

/-- A scalar register some places above another, for blocks of consecutive registers; the callers' well-formedness keeps
the number below 32. -/
def sregAt (r : SReg) (k : Nat) : SReg := ⟨(r.val + k) % 32, Nat.mod_lt _ (by decide)⟩

/-- `n` consecutive scalar registers from one on. -/
def sregs (r : SReg) (n : Nat) : List Reg := (List.range n).map fun k => .s (sregAt r k)

end Sys2Proof.Machine
end

