-- ==== Sys2Proof/Machine/Formats.lean ====
section
/-! DEFINITION. Number formats to the bit (R57 to R82): exact values, decoding, rounding once in one of five modes, the
generator of stochastic rounding, conversions, fresh scales, re-blocking, and the four special functions of R137. -/

namespace Sys2Proof.Machine

/-! ### The generator (R61, R62) -/

/-- One step of the Galois register. -/
def rngStep (g : BitVec 32) : BitVec 32 := if g.getLsbD 0 then (g >>> 1) ^^^ 0x80200003#32 else g >>> 1

/-- Draw: 16 steps from a nonzero state; the low 16 bits (R62). -/
def draw (g : BitVec 32) : BitVec 32 × Nat :=
  let g := Nat.repeat rngStep 16 (if g = 0 then 1 else g)
  (g, g.toNat % 65536)

/-- `n` draws in order. -/
def drawN : Nat → BitVec 32 → BitVec 32 × List Nat
  | 0, g => (g, [])
  | n + 1, g =>
    let (g', u) := draw g
    let (g'', us) := drawN n g'
    (g'', u :: us)

/-! ### Exact values -/

/-- An exact value: NaN, an infinity, or (−1)^neg × m × 2^e; zeros keep their sign (R58, R65). -/
inductive Val where
  | nan
  | inf (neg : Bool)
  | fin (neg : Bool) (m : Nat) (e : Int)
  deriving DecidableEq, Repr

/-- A floating format: exponent bits, mantissa bits, bias, and whether it has an infinity (R58). -/
structure Fmt where
  w : Nat
  m : Nat
  bias : Nat
  hasInf : Bool
  deriving DecidableEq, Repr

def fF32 : Fmt := ⟨8, 23, 127, true⟩
def fBf16 : Fmt := ⟨8, 7, 127, true⟩
def fF16 : Fmt := ⟨5, 10, 15, true⟩
def fE5m2 : Fmt := ⟨5, 2, 15, true⟩
def fE4m3 : Fmt := ⟨4, 3, 7, false⟩

def Fmt.bits (f : Fmt) : Nat := 1 + f.w + f.m

/-- The floating format of a type suffix; f32 for the others, which never ask. -/
def fmtOf : Ty → Fmt
  | .f16 => fF16
  | .bf16 => fBf16
  | .e4m3 => fE4m3
  | .e5m2 => fE5m2
  | _ => fF32

/-- The value of a bit pattern (R58). -/
def Fmt.decode (f : Fmt) (x : Nat) : Val :=
  let neg := x / 2 ^ (f.w + f.m) % 2 == 1
  let e := x / 2 ^ f.m % 2 ^ f.w
  let m := x % 2 ^ f.m
  let top := 2 ^ f.w - 1
  if e = 0 then .fin neg m (1 - f.bias - f.m)
  else if e = top && f.hasInf then if m = 0 then .inf neg else .nan
  else if e = top && m = 2 ^ f.m - 1 then .nan
  else .fin neg (2 ^ f.m + m) ((e : Int) - f.bias - f.m)

/-- The sign bit in its place. -/
def Fmt.sign (f : Fmt) (neg : Bool) : Nat := if neg then 2 ^ (f.w + f.m) else 0

/-- The canonical NaN, sign 0 (R58, R66). -/
def Fmt.nan (f : Fmt) : Nat := if f.hasInf then (2 ^ f.w - 1) * 2 ^ f.m + 2 ^ (f.m - 1) else 2 ^ (f.w + f.m) - 1

/-- Infinity; the canonical NaN where the format has none (R64). -/
def Fmt.infinity (f : Fmt) (neg : Bool) : Nat := if f.hasInf then f.sign neg + (2 ^ f.w - 1) * 2 ^ f.m else f.nan

/-- The largest finite magnitude, signed (R58). -/
def Fmt.largest (f : Fmt) (neg : Bool) : Nat :=
  f.sign neg + if f.hasInf then (2 ^ f.w - 1) * 2 ^ f.m - 1 else 2 ^ (f.w + f.m) - 2

/-- Round a magnitude k + rem / 2^sh to a whole number in a mode (R60, R61). -/
def roundMag (rm : Rm) (u : Nat) (neg : Bool) (k rem sh : Nat) : Nat :=
  if rem = 0 then k
  else match rm with
    | .rne => if 2 * rem > 2 ^ sh || (2 * rem == 2 ^ sh && k % 2 == 1) then k + 1 else k
    | .rz => k
    | .ru => if neg then k else k + 1
    | .rd => if neg then k + 1 else k
    | .rs => if rem * 65536 / 2 ^ sh > u then k + 1 else k

/-- m × 2^e split at the unit 2^q: whole units, the rest, and the rest's width. -/
def splitAt (m : Nat) (e q : Int) : Nat × Nat × Nat :=
  if q ≤ e then (m * 2 ^ (e - q).toNat, 0, 0)
  else
    let sh := (q - e).toNat
    (m / 2 ^ sh, m % 2 ^ sh, sh)

/-- What an overflowing result becomes (R64). -/
def Fmt.overflow (f : Fmt) (rm : Rm) (sat neg : Bool) : Nat :=
  if sat then f.largest neg
  else match rm with
    | .rne | .rs => f.infinity neg
    | .rz => f.largest neg
    | .ru => if neg then f.largest neg else f.infinity neg
    | .rd => if neg then f.infinity neg else f.largest neg

/-- Round(x, f, m): one rounding of an exact value into a format (R60 to R66). -/
def Fmt.round (f : Fmt) (rm : Rm) (sat : Bool) (u : Nat) : Val → Nat
  | .nan => f.nan
  | .inf neg => if sat then f.largest neg else f.infinity neg
  | .fin neg m e =>
    if m = 0 then f.sign neg
    else
      let lead := (m.log2 : Int) + e
      let q := max (lead - f.m) (1 - (f.bias : Int) - f.m)
      let (k, rem, sh) := splitAt m e q
      let k := roundMag rm u neg k rem sh
      let (k, q) := if k = 2 ^ (f.m + 1) then (2 ^ f.m, q + 1) else (k, q)
      if k < 2 ^ f.m then f.sign neg + k
      else
        let ef := (q + f.m + f.bias).toNat
        let x := ef * 2 ^ f.m + (k - 2 ^ f.m)
        if x > f.largest false then f.overflow rm sat neg else f.sign neg + x

/-- Round(x, int, m) of a finite value (R60). -/
def roundInt (rm : Rm) (u : Nat) (neg : Bool) (m : Nat) (e : Int) : Int :=
  let (k, rem, sh) := splitAt m e 0
  let k := roundMag rm u neg k rem sh
  if neg then -(k : Int) else k

def saturate (x lo hi : Int) : Int := if x < lo then lo else if x > hi then hi else x

/-! ### Exact arithmetic -/

def Val.neg : Val → Val
  | .nan => .nan
  | .inf n => .inf (!n)
  | .fin n m e => .fin (!n) m e

def Val.abs : Val → Val
  | .nan => .nan
  | .inf _ => .inf false
  | .fin _ m e => .fin false m e

/-- The value of an integer; zero is +0. -/
def ofInt (x : Int) : Val := .fin (x < 0) x.natAbs 0

/-- Numerator over 2^-e for an exponent not above the value's own. -/
def scaled (neg : Bool) (m : Nat) (e q : Int) : Int :=
  let x : Int := m * 2 ^ (e - q).toNat
  if neg then -x else x

/-- The exact sum; a zero sum of operands of opposite sign is −0 in RD and +0 otherwise (R65, R66). -/
def addV (rm : Rm) : Val → Val → Val
  | .nan, _ => .nan
  | _, .nan => .nan
  | .inf a, .inf b => if a = b then .inf a else .nan
  | .inf a, .fin .. => .inf a
  | .fin .., .inf b => .inf b
  | .fin na ma ea, .fin nb mb eb =>
    if ma = 0 && mb = 0 then .fin (if na = nb then na else rm == .rd) 0 0
    else
      let q := min ea eb
      let x := scaled na ma ea q + scaled nb mb eb q
      if x = 0 then .fin (rm == .rd) 0 0 else .fin (x < 0) x.natAbs q

/-- The exact product (R66). -/
def mulV : Val → Val → Val
  | .nan, _ => .nan
  | _, .nan => .nan
  | .inf a, .inf b => .inf (a != b)
  | .inf a, .fin b m _ => if m = 0 then .nan else .inf (a != b)
  | .fin a m _, .inf b => if m = 0 then .nan else .inf (a != b)
  | .fin a ma ea, .fin b mb eb => .fin (a != b) (ma * mb) (ea + eb)

/-- Order of two values with ±0 equal; none with a NaN. -/
def cmpV : Val → Val → Option Ordering
  | .nan, _ => none
  | _, .nan => none
  | .inf a, .inf b => some (if a = b then .eq else if a then .lt else .gt)
  | .inf a, .fin .. => some (if a then .lt else .gt)
  | .fin .., .inf b => some (if b then .gt else .lt)
  | .fin na ma ea, .fin nb mb eb =>
    let q := min ea eb
    let x := scaled na ma ea q
    let y := scaled nb mb eb q
    some (if x < y then .lt else if x = y then .eq else .gt)

def Val.isNeg : Val → Bool
  | .nan => false
  | .inf n => n
  | .fin n _ _ => n

/-- The smaller of two values: NaN wins, and −0 is below +0 (R124). -/
def minV (a b : Val) : Val :=
  match cmpV a b with
  | none => .nan
  | some .lt => a
  | some .gt => b
  | some .eq => if a.isNeg then a else b

/-- The larger of two values (R124). -/
def maxV (a b : Val) : Val :=
  match cmpV a b with
  | none => .nan
  | some .gt => a
  | some .lt => b
  | some .eq => if a.isNeg then b else a

/-- m × 2^e times 2^k. -/
def Val.scale (k : Int) : Val → Val
  | .fin n m e => .fin n m (e + k)
  | v => v

/-! ### Integers of a type (R57, R123) -/

def Ty.isSigned : Ty → Bool
  | .u8 => false
  | _ => true

/-- The value of an integer lane (R123). -/
def intOf (ty : Ty) (x : Nat) : Int := if Ty.isSigned ty then toSigned ty.width x else (x % 2 ^ ty.width : Nat)

def minOfTy (ty : Ty) : Int := if Ty.isSigned ty then -(2 ^ (ty.width - 1) : Nat) else 0
def maxOfTy (ty : Ty) : Int := if Ty.isSigned ty then (2 ^ (ty.width - 1) : Nat) - 1 else (2 ^ ty.width : Nat) - 1

/-- Narrow an exact integer into a lane: wrap, or saturate with `.sat` (R123, R69). -/
def narrow (ty : Ty) (sat : Bool) (x : Int) : Nat :=
  ofSigned ty.width (if sat then saturate x (minOfTy ty) (maxOfTy ty) else x)

/-! ### Conversion (R67 to R69) -/

/-- The value of a lane of any type but `.bpi`. -/
def valOf (ty : Ty) (x : Nat) : Val :=
  if ty.isInt then ofInt (intOf ty x) else (fmtOf ty).decode x

/-- A floating value as an integer of a range: round, then saturate; NaN is 0 (R68). -/
def toIntSat (rm : Rm) (u : Nat) (lo hi : Int) : Val → Int
  | .nan => 0
  | .inf n => if n then lo else hi
  | .fin n m e => saturate (roundInt rm u n m e) lo hi

/-- Convert between any two types but `.bpi`, bits to bits (R67, R68, R69; R129). -/
def convert (dty sty : Ty) (rm : Rm) (sat : Bool) (u x : Nat) : Nat :=
  if dty.isInt then
    if sty.isInt then narrow dty sat (intOf sty x)
    else ofSigned dty.width (toIntSat rm u (minOfTy dty) (maxOfTy dty) ((fmtOf sty).decode x))
  else (fmtOf dty).round rm sat u (valOf sty x)

/-! ### Bit planes and block scales (R70 to R76) -/

/-- The code of element `j` of a block of `q` plane words, plane 0 first (R70, R71). -/
def bpiCode (planes : List Nat) (j : Nat) : Int :=
  toSigned planes.length (planes.foldl (fun acc w => 2 * acc + w / 2 ^ j % 2) 0)

/-- The `p` plane words of 32 codes (R70). -/
def bpiPlanes (p : Nat) (codes : List Int) : List Nat :=
  (List.range p).map fun i =>
    (List.range 32).foldl (fun acc j => acc + (ofSigned p (codes.getD j 0) / 2 ^ (p - 1 - i) % 2) * 2 ^ j) 0

/-- code × 2^(e−127), +0 under scale 0 and NaN under scale 255, with `k` more powers of two (R71, R73, R76). -/
def scaledVal (code : Int) (e : Nat) (k : Nat) : Val :=
  if e = 0 then .fin false 0 0
  else if e = 255 then .nan
  else match ofInt code with
    | .fin n m x => .fin n m (x + k + (e : Int) - 127)
    | v => v

/-- |x| ≤ k × 2^q for a finite value. -/
def leScaled (m : Nat) (e : Int) (k : Nat) (q : Int) : Bool :=
  let z := min e q
  decide (m * 2 ^ (e - z).toNat ≤ k * 2 ^ (q - z).toNat)

/-- The least exponent from `e` on, at most 254, under which every magnitude fits (R75). -/
def leastExp (k : Nat) (xs : List (Nat × Int)) : Nat → Nat → Nat
  | 0, _ => 254
  | n + 1, e => if xs.all fun x => leScaled x.1 x.2 k ((e : Int) - 127) then e else leastExp k xs n (e + 1)

/-- Quantize a block to p-bit codes with a fresh scale; one draw for each element (R75). -/
def quantize (p : Nat) (rm : Rm) (us : List Nat) (xs : List Val) : Nat × List Int :=
  let bad := xs.any fun x => match x with
    | .fin .. => false
    | _ => true
  if bad then (255, xs.map fun _ => 0)
  else
    let mags := xs.map fun x => match x with
      | .fin _ m e => (m, e)
      | _ => (0, 0)
    if mags.all fun x => x.1 == 0 then (0, xs.map fun _ => 0)
    else
      let lim : Int := (2 ^ (p - 1) : Nat)
      let e := leastExp (2 ^ (p - 1) - 1) mags 254 1
      let codes := xs.zipIdx.map fun (x, j) => match x with
        | .fin n m ex => saturate (roundInt rm (us.getD j 0) n m (ex - ((e : Int) - 127))) (-lim) (lim - 1)
        | _ => 0
      (if codes.all (· == 0) then 0 else e, codes)

/-- Re-block a tile of 32 old blocks (R81): codes c[j][i] and exponents e[j] of `p` read planes, `g` guard planes asked.
Gives the new exponent, the new plane count and the codes n[i][j]. -/
def reblock (p g : Nat) (cs : List (List Int)) (es : List Nat) : Nat × Nat × List (List Int) :=
  let top := if es.contains 255 then 255 else es.foldl max 0
  if top = 0 || top = 255 then (top, p, List.replicate 32 (List.replicate 32 0))
  else
    let gq := min (min g (8 - p)) (top - 1)
    let lim : Int := (2 ^ (p + gq - 1) : Nat)
    let code (i j : Nat) : Int :=
      let e := es.getD j 0
      if e = 0 then 0
      else
        let c := (cs.getD j []).getD i 0
        saturate (roundInt .rne 0 (c < 0) c.natAbs ((gq : Int) - ((top : Int) - e))) (-lim) (lim - 1)
    (top - gq, p + gq, (List.range 32).map fun i => (List.range 32).map fun j => code i j)

/-! ### Fat pointers (R77 to R80) -/

def ptrFmt (p : Word) : Nat := field p 63 58
def ptrBlog (p : Word) : Nat := field p 57 55
def ptrRpl (p : Word) : Nat := field p 54 52
def ptrVa (p : Word) : Nat := field p 51 0

/-- BPIp's plane count, or 0 (R78). -/
def bpiP (fmt : Nat) : Nat := if 0x12 ≤ fmt && fmt ≤ 0x18 then fmt - 0x10 else 0

/-- A format code is assigned (R78). -/
def fmtAssigned (fmt : Nat) : Bool := fmt ≤ 0x0C || (0x12 ≤ fmt && fmt ≤ 0x18) || fmt == 0x20

/-- Element size in bytes of a format that is not BPI (R78). -/
def fmtSize (fmt : Nat) : Nat :=
  if fmt == 0x03 || fmt == 0x04 || fmt == 0x08 || fmt == 0x09 then 2
  else if fmt == 0x05 || fmt == 0x06 || fmt == 0x0A then 4
  else if fmt == 0x07 then 8
  else 1

/-- The format takes scales (R78). -/
def fmtScales (fmt : Nat) : Bool := fmt == 0x01 || fmt == 0x0B || fmt == 0x0C || bpiP fmt != 0

/-- The checks of R79 on a typed pointer, the accepted formats apart. -/
def ptrOk (p : Word) : Bool :=
  let f := ptrFmt p
  let b := ptrBlog p
  let r := ptrRpl p
  fmtAssigned f && b != 1 && b != 2 && (b == 0 || fmtScales f) && (r == 0 || (bpiP f != 0 && r + 1 ≤ bpiP f))

/-- Planes read (R71, R77). -/
def ptrQ (p : Word) : Nat := if ptrRpl p = 0 then bpiP (ptrFmt p) else ptrRpl p + 1

/-- The alignment of a typed operand's address (R80). -/
def ptrAlign (p : Word) : Nat := if bpiP (ptrFmt p) != 0 then 4 else fmtSize (ptrFmt p)

/-! ### Special functions (R137)

Each gives the exact value as a dyadic: exact where the result is exact, and otherwise cut to many bits with one further bit
set below them, so that one rounding of it in any mode is one rounding of the exact value (log entry 25). -/

/-- Floor square root by bits, from bit `n` down. -/
def isqrt (x : Nat) : Nat → Nat → Nat
  | 0, r => if (r + 1) * (r + 1) ≤ x then r + 1 else r
  | n + 1, r =>
    let c := r + 2 ^ (n + 1)
    isqrt x n (if c * c ≤ x then c else r)

/-- A value cut at its last bit, with a further bit below it if something was cut off. -/
def cut (neg : Bool) (m : Nat) (e : Int) (exact : Bool) : Val :=
  if exact then .fin neg m e else .fin neg (2 * m + 1) (e - 1)

/-- 1 / a. -/
def rcpV : Val → Val
  | .nan => .nan
  | .inf n => .fin n 0 0
  | .fin n m e =>
    if m = 0 then .inf n
    else
      let s := m.log2 + 64
      cut n (2 ^ s / m) (-e - s) (2 ^ s % m == 0)

/-- 1 / √a. -/
def rsqV : Val → Val
  | .nan => .nan
  | .inf n => if n then .nan else .fin false 0 0
  | .fin n m e =>
    if m = 0 then .inf n
    else if n then .nan
    else
      let m' : Nat := if e % 2 = 0 then m else 2 * m
      let e' : Int := if e % 2 = 0 then e else e - 1
      let t : Nat := m'.log2 + 64
      let x : Nat := 2 ^ (2 * t) / m'
      let r : Nat := isqrt x (x.log2 / 2 + 1) 0
      cut false r (-(e' / 2) - t) (r * r * m' == 2 ^ (2 * t))

/-- Fraction bits of the fixed-point work of 2^a and log2 a. -/
def fxBits : Nat := 448

/-- Σ z^(2k+1) / (2k+1) in fixed point: atanh z. `p` is z^(2k+1), `z2` is z². -/
def atanhSum (z2 : Nat) : Nat → Nat → Nat → Nat
  | 0, _, _ => 0
  | n + 1, k, p => p / (2 * k + 1) + atanhSum z2 n (k + 1) (p * z2 / 2 ^ fxBits)

/-- ln 2 = 2 atanh (1/3). -/
def ln2Fx : Nat :=
  let z := 2 ^ fxBits / 3
  2 * atanhSum (2 ^ fxBits / 9) 150 0 z

/-- Σ x^k / k! in fixed point. -/
def expSum (x : Nat) : Nat → Nat → Nat → Nat
  | 0, _, _ => 0
  | n + 1, k, p => p + expSum x n (k + 1) (p * x / 2 ^ fxBits / (k + 1))

/-- 2^a. -/
def exp2V : Val → Val
  | .nan => .nan
  | .inf n => if n then .fin false 0 0 else .inf false
  | .fin n m e =>
    if m = 0 then .fin false 1 0
    else if e + m.log2 ≥ 20 then if n then .fin false 1 (-5000) else .fin false 1 5000
    else
      let num : Int := if n then -(m : Int) else m
      let whole := if e ≥ 0 then num * 2 ^ e.toNat else num / 2 ^ (-e).toNat
      let frac : Nat := if e ≥ 0 then 0 else (num % 2 ^ (-e).toNat).toNat
      if frac = 0 then .fin false 1 whole
      else
        let f := frac * 2 ^ fxBits / 2 ^ (-e).toNat
        let x := f * ln2Fx / 2 ^ fxBits
        cut false (expSum x 110 0 (2 ^ fxBits) / 2 ^ 32) (whole - fxBits + 32) false

/-- log2 a. -/
def log2V : Val → Val
  | .nan => .nan
  | .inf n => if n then .nan else .inf false
  | .fin n m e =>
    if m = 0 then .inf true
    else if n then .nan
    else
      let l := m.log2
      let whole : Int := (l : Int) + e
      if m = 2 ^ l then ofInt whole
      else
        let z := (m - 2 ^ l) * 2 ^ fxBits / (m + 2 ^ l)
        let ln := 2 * atanhSum (z * z / 2 ^ fxBits) 150 0 z
        let frac : Nat := ln * 2 ^ fxBits / ln2Fx / 2 ^ 32
        let tot : Int := whole * 2 ^ (fxBits - 32) + frac
        if tot ≥ 0 then cut false tot.toNat (-(fxBits - 32 : Nat)) false
        else cut true (tot.natAbs - 1) (-(fxBits - 32 : Nat)) false

end Sys2Proof.Machine
end

