-- ==== Sys2Proof/Machine/Port.lean ====
section
/-! DEFINITION. The core's port (R180, R181, R230, R231): the store queue, what an access waits for before it is applied,
forwarding, and what each kind of access does at its home (R187 to R200, R318, R319). -/

namespace Sys2Proof.Machine

/-! ### Kinds of access -/

/-- The access is a posted write and takes an entry of the store queue until it is applied (R180). -/
def AccKind.posted : AccKind → Bool
  | .store | .ste | .setfe _ | .amo .. | .redu .. | .hist _ | .tflush | .tinv => true
  | .load | .ldf | .ldfp | .waitge _ | .gath => false

/-- The access has still to take a value for its thread, or to read a REDU's source (R181, R199). -/
def Access.readPending (a : Access) : Bool :=
  match a.kind with
  | .load | .ldf | .ldfp | .amo .. | .waitge _ => true
  | .redu _ _ _ _ src => src.isNone
  | .store | .ste | .setfe _ | .hist _ | .tflush | .tinv | .gath => false

/-- The access holds later writes and sends of its thread until it has taken its value; a REDU takes its own at its home (R230,
R232). -/
def Access.valuePending (a : Access) : Bool :=
  match a.kind with
  | .load | .ldf | .ldfp | .amo .. | .waitge _ | .redu .. => true
  | .store | .ste | .setfe _ | .hist _ | .tflush | .tinv | .gath => false

/-- The access writes (R230). -/
def Access.writes (a : Access) : Bool :=
  match a.kind with
  | .load | .ldfp | .waitge _ | .gath => false
  | _ => true

/-- It waits at its home, or in the network for room there. -/
def Access.atHome (a : Access) : Bool := a.waiting || a.turnedAway

/-- The parts of an access that are still to be applied: a REDU's source counts no more once it is read. -/
def Access.todo (a : Access) : List Part :=
  match a.kind with
  | .redu .. => a.parts.filter fun p => p.lane == 0 || p.data.isEmpty
  | _ => a.parts

/-- The parts that an access has still to read at their homes. -/
def Access.toRead (a : Access) : List Part :=
  match a.kind with
  | .load | .ldfp | .amo .. => a.parts
  | .ldf | .waitge _ => if a.atHome then [] else a.parts
  | .redu .. => a.parts.filter fun p => p.lane != 0 && p.data.isEmpty
  | .store | .ste | .setfe _ | .hist _ | .tflush | .tinv | .gath => []

/-- Entries of the store queue in use (R180). -/
def queued (port : List Access) : Nat := (port.filter fun a => a.kind.posted && !a.sent).length

/-- The store queue has no room. -/
def queueFull (port : List Access) : Bool := 16 ≤ queued port

/-! ### What an access waits for -/

/-- An acquire of the thread earlier in the list holds it (R188). -/
def heldBy (before : List Access) (a : Access) : Bool := before.any fun b => b.tid == a.tid && b.acq

/-- Entries before an access in port order that the port has taken: none that an acquire still holds. -/
def taken (before : List Access) : List Access :=
  before.filter fun b => !heldBy (before.takeWhile fun c => c.id != b.id) b

/-- Entries whose order with a later access of the core to their location still matters: not an LDF or WAITGE that waits at
its home, which a write of the same core may end (R193, R198), and not a gather, an engine operation (R239). -/
def ordered (before : List Access) : List Access :=
  (taken before).filter fun b => match b.kind with
    | .ldf => !b.atHome
    | .waitge _ => !b.atHome
    | .gath => false
    | _ => true

/-- Sends of a thread that have not landed or been held are outstanding; `id` bounds which are earlier. -/
def sendsBefore (t : Thread) (id : Nat) : Bool := t.sendq.any fun e => e.id < id

/-- What a release at a scope waits for: earlier accesses of the thread performed at the scope, and its earlier sends
(R181, R188, R234). -/
def releaseOk (t : Thread) (before : List Access) (a : Access) : Bool :=
  let mine := before.filter fun b => b.tid == a.tid && b.kind != .gath
  !sendsBefore t a.id &&
  match a.sc with
  | .t | .c => !mine.any Access.readPending
  | .k | .m | .g | .s => mine.isEmpty

/-- A part meets a byte. -/
def Part.covers (p : Part) (loc : Nat) : Bool := p.loc ≤ loc && loc < p.loc + p.len

/-- What the queue has for a byte that a load asks for: nothing, the byte, or an entry that the load waits for. -/
inductive FwdByte where
  | home
  | byte (b : Byte)
  | wait
  deriving DecidableEq, Repr

/-- The youngest entry that covers a byte: a queued plain store gives its byte; an STL at `.g` or `.s`, a store that has left
the queue and a store to the trigger word do not (R180, R231, R280). -/
def fwdByte (before : List Access) (loc : Nat) : FwdByte :=
  match (ordered before).reverse.find? fun b => b.todo.any fun p => p.covers loc with
  | none => .home
  | some b => match b.kind with
    | .store =>
      if b.sent || isTrig loc || (b.rel && (b.sc == .g || b.sc == .s)) then .wait
      else match b.parts.reverse.find? fun p => p.covers loc with
        | some p => .byte (p.data.getD (loc - p.loc) 0)
        | none => .wait
    | _ => .wait

/-- Where a load takes its value. -/
inductive Fwd where
  | home
  | value (bs : List Byte)
  | wait
  deriving DecidableEq, Repr

/-- Forwarding over the bytes of a load: all from the queue, or none (R180). -/
def fwd (before : List Access) (loc len : Nat) : Fwd :=
  let bs := (List.range len).map fun i => fwdByte before (loc + i)
  if bs.all fun b => b == .home then .home
  else if bs.all fun b => match b with
      | .byte _ => true
      | _ => false then
    .value (bs.map fun b => match b with
      | .byte x => x
      | _ => 0)
  else .wait

/-- An earlier access of the core to the same bytes is still to be applied, or an earlier part of the same access (R180,
R189). -/
def locBusy (before : List Access) (a : Access) (p : Part) : Bool :=
  ((ordered before).any fun b => b.todo.any fun q => overlaps q.loc q.len p.loc p.len) ||
  (a.parts.takeWhile fun q => q.lane != p.lane).any fun q => overlaps q.loc q.len p.loc p.len

/-- The same for every piece of a lane. -/
def laneBusy (before : List Access) (ps : List Part) : Bool :=
  ps.any fun q => (ordered before).any fun b => b.todo.any fun r => overlaps r.loc r.len q.loc q.len

/-- The entries before an access. -/
def beforeOf (port : List Access) (a : Access) : List Access := port.takeWhile fun b => b.id != a.id

/-- The port may send the access now: nothing holds it, a write has no earlier value of its thread outstanding, a release
has its earlier accesses performed (R188, R230). -/
def mayGo (t : Thread) (before : List Access) (a : Access) : Bool :=
  !a.atHome && !heldBy before a &&
  (!a.writes || !(before.any fun b => b.tid == a.tid && b.valuePending)) &&
  (!a.rel || releaseOk t before a)

/-- An access of the core that came before has still to read at this part's home: the port lets reads of different homes alone
pass one another (R180). A gather is no access of the port. -/
def homeBusy (s : State) (gc : Nat) (before : List Access) (a : Access) (p : Part) : Bool :=
  a.kind != .gath && (taken before).any fun b => b.kind != .gath && b.toRead.any fun q =>
    homeOf s gc (s.thread b.tid).vd q.va.toNat q.loc == homeOf s gc (s.thread a.tid).vd p.va.toNat p.loc

/-- A queued write may leave for its home; a REDU once its source is read (R197). -/
def mayLeave (s : State) (port : List Access) (b : Access) : Bool :=
  mayGo (s.thread b.tid) (beforeOf port b) b && match b.kind with
    | .redu _ _ _ _ src => src.isSome
    | _ => true

/-- Writes that stand in the store queue before an access. -/
def queuedBefore (before : List Access) : List Access := (taken before).filter fun b => b.kind.posted && !b.sent

/-- Every write that stands in the queue before an access may leave: writes leave in order (R180). -/
def earlierLeave (s : State) (port before : List Access) : Bool := (queuedBefore before).all (mayLeave s port)

/-- An access and the queued writes before it have left for their homes. -/
def State.leave (s : State) (gc : Nat) (before : List Access) (a : Access) : State :=
  let ids := a.id :: (queuedBefore before).map fun b => b.id
  s.modCore gc fun c => { c with port := c.port.map fun b => if ids.contains b.id then { b with sent := true } else b }

/-! ### Entering the port -/

/-- Put an access at the end of the list. -/
def State.toPort (s : State) (gc : Nat) (a : Access) : State := s.modCore gc fun c => { c with port := c.port ++ [a] }

/-- An access of the thread in focus, not yet in the port, numbered by the issue counter. -/
def State.newAccess (s : State) (kind : AccKind) (sc : Scope) (acq rel : Bool) (dst : Option Reg) (width : Nat)
    (parts : List Part) : Access :=
  { id := s.seq, tid := s.thr.id, pc := s.thr.pc, kind := kind, sc := sc, acq := acq, rel := rel, dst := dst, dst2 := none,
    width := width, parts := parts, waiting := false, turnedAway := false, arrived := 0, retries := 0, reported := false,
    sent := false, named := [], cls := s.thr.tcls }

/-- Vector store entries enter as room frees (R180). -/
def pushHeld (gc : Nat) : List Access → State → State
  | [], s => s.modThr fun t => { t with storeHold := [] }
  | a :: rest, s =>
    if queueFull (s.core gc).port then s.modThr fun t => { t with storeHold := a :: rest }
    else pushHeld gc rest (s.toPort gc a)

def State.pushStores (s : State) : State := pushHeld s.gc s.thr.storeHold s

/-! ### Arithmetic at the home (R196, R197) -/

/-- The new value of an AMO on `w` bits (R196). -/
def amoNew (op : AmoOp) (w old b c : Nat) : Nat :=
  let so := toSigned w old
  let sb := toSigned w b
  match op with
  | .swap => b
  | .add => (old + b) % 2 ^ w
  | .and => old &&& b
  | .or => old ||| b
  | .xor => old ^^^ b
  | .min => if so ≤ sb then old else b
  | .max => if so ≤ sb then b else old
  | .minu => min old b
  | .maxu => max old b
  | .cas => if old = c then b else old
  | .fadd => fF32.round .rne false 0 (addV .rne (fF32.decode old) (fF32.decode b))

/-- One element of a REDU (R197). -/
def reduElem (ty : Ty) (rm : Rm) (sat : Bool) (op : ReduOp) (old x : Nat) : Nat :=
  if ty.isInt then
    let a := intOf ty old
    let b := intOf ty x
    match op with
    | .add => narrow ty sat (a + b)
    | .max => ofSigned ty.width (max a b)
    | .min => ofSigned ty.width (min a b)
  else
    let f := fmtOf ty
    let a := f.decode old
    let b := f.decode x
    match op with
    | .add => f.round rm sat 0 (addV rm a b)
    | .max => f.round .rne false 0 (maxV a b)
    | .min => f.round .rne false 0 (minV a b)

/-- Cut bytes into elements of `n` bytes and back. -/
def elems (n : Nat) (bs : List Byte) : List Nat :=
  (List.range (bs.length / n)).map fun i => ofBytes ((bs.drop (i * n)).take n)

def unelems (n : Nat) (xs : List Nat) : List Byte := (xs.map (toBytes n)).flatten

/-- Combine the bytes of a tile with its source bytes. -/
def reduRow (ty : Ty) (rm : Rm) (sat : Bool) (op : ReduOp) (old src : List Byte) : List Byte :=
  let n := ty.width / 8
  unelems n (((elems n old).zip (elems n src)).map fun (x, y) => reduElem ty rm sat op x y)

/-- One increment of a counter, and whether it found COUNT at its maximum (R317, R318). -/
def histNew (x : Nat) : Nat × Bool :=
  if x % 2 ^ 32 = 2 ^ 32 - 1 then (if x / 2 ^ 32 % 2 = 1 then x else x + 2 ^ 32, true) else (x + 1, false)

/-! ### Applying an access -/

/-- A posted write that was not applied: MEMUE at the next boundary (R187). -/
def State.writeFailed (s : State) (a : Access) (p : Part) (va : Addr) : State :=
  (s.countUe (s.thread a.tid).vd (bytesAt p.loc p.len)).pend a.tid cMemue (va.setWidth 64)

/-- The sync-wait queue of a core, or the watch table of a slice, has room for one more (R193, R198). -/
def homeHasRoom (s : State) (gc : Nat) (a : Access) (p : Part) : Bool :=
  let home := homeOf s gc (s.thread a.tid).vd p.va.toNat p.loc
  let there := (s.cores.map fun (g, c) => c.port.filter fun b => b.waiting && b.parts.any fun q =>
    homeOf s g (s.thread b.tid).vd q.va.toNat q.loc == home).flatten
  there.length < if isSpad p.loc then 32 else 64

/-- Set the flags of an entry. -/
def State.modAccess (s : State) (gc id : Nat) (f : Access → Access) : State :=
  s.modCore gc fun c => { c with port := c.port.map fun a => if a.id = id then f a else a }

/-- An LDF, STE or WAITGE reaches its home: performed, queued, or turned away (R192, R193, R198). -/
def arriveSync (s : State) (gc : Nat) (a : Access) (p : Part) : State :=
  if waitHolds s a p then
    let s := performWait s gc a p
    match a.kind with
    | .ldf => wordChanged s (wordOf p.loc)
    | .ste => wordChanged s (wordOf p.loc)
    | _ => s
  else if homeHasRoom s gc a p then
    s.bump.modAccess gc a.id fun a => { a with waiting := true, turnedAway := false, arrived := s.seq }
  else s.modAccess gc a.id fun a => { a with turnedAway := true }

/-- A part of a load takes its value at its home. -/
def readHome (s : State) (gc : Nat) (a : Access) (p : Part) : State :=
  match s.readLoc p.loc p.len with
  | some bs => ((s.metBy a p).takeValue a p (some (ofBytes bs)) 0).partDone gc a p.lane
  | none => (s.takeValue a p none 0).partDone gc a p.lane

/-- A part of a load takes its value (R180, R188, R231). -/
def applyLoad (s : State) (gc : Nat) (a : Access) (p : Part) (before : List Access) : State :=
  match fwd before p.loc p.len with
  | .wait => s
  | .value bs => (s.takeValue a p (some (ofBytes bs)) 0).partDone gc a p.lane
  | .home =>
    if homeBusy s gc before a p then s else readHome s gc a p

/-- A store at its home. One that has reached a trigger word stays until PLAN_TRIGGER applies it; PLANFIRE's data carries its
fire time in eight bytes above the trigger (R280). -/
def applyStore (s : State) (gc : Nat) (a : Access) (p : Part) : State :=
  if isTrig p.loc then
    if p.len = 8 then
      noteTrigger s p.loc ⟨BitVec.ofNat 64 (ofBytes (p.data.take 8)), BitVec.ofNat 64 (ofBytes (p.data.drop 8)),
        some (gc, a.id, p.lane)⟩
    else s.partDone gc a p.lane
  else
    let (s, ok) := s.writeLoc p.loc p.data
    (if ok then s else s.writeFailed a p p.va).partDone gc a p.lane

/-- One element of a gather, read at its home as one atomic access, after the core's earlier accesses to its bytes: no queue gives
it one (R180, R201, R239). -/
def serveGather (s : State) (gc : Nat) (a : Access) (p : Part) : State :=
  let before := beforeOf (s.core gc).port a
  if heldBy before a || fwd before p.loc p.len != .home then s else readHome s gc a p

/-- LDFP: value and state in one step (R192). -/
def applyLdfp (s : State) (gc : Nat) (a : Access) (p : Part) : State :=
  let st : PWord := if s.isFull p.loc then BitVec.allOnes 128 else 0
  let x := s.readLoc p.loc p.len
  ((if x.isSome then s.metBy a p else s).takeValue a p (x.map ofBytes) st).partDone gc a p.lane

/-- SETFE: the value is unchanged (R192). -/
def applySetfe (s : State) (gc : Nat) (a : Access) (p : Part) (full : Bool) : State :=
  if s.bad p.loc p.len then (s.writeFailed a p p.va).partDone gc a p.lane
  else wordChanged ((s.setFull p.loc full).partDone gc a p.lane) (wordOf p.loc)

/-- AMO: read, compute, write and return the old value, in one step (R196). -/
def applyAmo (s : State) (gc : Nat) (a : Access) (p : Part) (op : AmoOp) (b c : Word) : State :=
  match s.readLoc p.loc p.len with
  | none => (s.takeValue a p none 0).partDone gc a p.lane
  | some bs =>
    let w := 8 * p.len
    let old := ofBytes bs
    let new := amoNew op w old (b.toNat % 2 ^ w) (c.toNat % 2 ^ w)
    let s := ((s.metBy a p).takeValue a p (some old) 0).partDone gc a p.lane
    (s.writeLoc p.loc (toBytes p.len new)).1

/-- Source bytes that a REDU's parts have read, in order. -/
def reduSrc (a : Access) : Option (List Byte) :=
  let ps := a.parts.filter fun p => p.lane != 0
  if ps.all fun p => !p.data.isEmpty then some (ps.map fun p => p.data).flatten else none

/-- Put bytes over pieces, in order, with no further consequence. -/
def putPieces : List Part → List Byte → State → State
  | [], _, s => s
  | p :: ps, bs, s => putPieces ps (bs.drop p.len) ((s.rawWrite p.loc (bs.take p.len)).spill p.loc)

/-- Write bytes over pieces in one step: what waits for a word of theirs sees all of them changed (R197). -/
def writePieces (ps : List Part) (bs : List Byte) (s : State) : State :=
  ((ps.flatMap fun p => wordsOf p.loc p.len).eraseDups).foldl wordChanged (putPieces ps bs s)

/-- A REDU: a block of its source is read (lanes 1 to 8), or its tile is combined in one step (lane 0) (R197). -/
def applyRedu (s : State) (gc : Nat) (a : Access) (lane : Nat) (before : List Access) (ty : Ty) (rm : Rm) (sat : Bool)
    (op : ReduOp) (src : Option (List Byte)) : State :=
  let ps := a.parts.filter fun p => p.lane = lane
  if lane = 0 then
    match src with
    | none => s
    | some bs =>
      let drop (s : State) : State := s.modCore gc fun c => { c with port := c.port.filter fun b => b.id != a.id }
      match ps with
      | [] => s
      | p :: _ =>
        if ps.any fun q => s.bad q.loc q.len then
          drop (s.writeFailed a p (BitVec.ofNat 52 ((a.named.head?.map fun n => n.1).getD p.va.toNat)))
        else
          let old := (ps.map fun q => memReadN s.mem q.loc q.len).flatten
          let s := ps.foldl (fun s q => s.metBy a q) s
          drop (writePieces ps (reduRow ty rm sat op old bs) s)
  else match ps with
    | [] => s
    | p :: _ =>
      if !p.data.isEmpty then s
      else
        let got : Option (Option (List Byte)) := match fwd before p.loc p.len with
          | .wait => none
          | .value bs => some (some bs)
          | .home => if homeBusy s gc before a p then none else some (s.readLoc p.loc p.len)
        match got with
        | none => s
        | some none =>
          let unit := match s.ue.find? fun u => overlaps u.1 u.2 p.loc p.len with
            | some u => p.va + BitVec.ofNat 52 (u.1 - p.loc)
            | none => p.va
          (s.writeFailed a p unit).modCore gc fun c => { c with port := c.port.filter fun b => b.id != a.id }
        | some (some bs) => (s.metBy a p).modAccess gc a.id fun b =>
            let b : Access := { b with parts := b.parts.map fun q => if q.lane = lane then { q with data := bs } else q }
            { b with kind := .redu ty rm sat op (reduSrc b) }

/-- One increment of a HIST at its counter's home (R318, R319). -/
def applyHist (s : State) (gc : Nat) (a : Access) (p : Part) (ovf : Bool) : State :=
  match s.readLoc p.loc 8 with
  | none => (s.writeFailed a p p.va).partDone gc a p.lane
  | some bs =>
    let (x, hit) := histNew (ofBytes bs)
    let s := s.metBy a p
    let report := ovf && hit && !a.reported
    let s := if report then (s.modAccess gc a.id fun a => { a with reported := true }).pend a.tid cCntovf (p.va.setWidth 64)
      else s
    ((s.writeLoc p.loc (toBytes 8 x)).1).partDone gc a p.lane

/-- TINV: the tile's bytes hold what DRAM holds (R200). -/
def State.dropLocs (s : State) (ps : List (Nat × Nat)) : State :=
  let lost := s.back.filter fun e => within ps e.1
  ({ s with mem := lost.foldl (fun m e => memWrite m e.1 e.2) s.mem, ue := dropWords ps s.ue, ce := dropWords ps s.ce } : State).cleanLocs ps

/-- An access with its parts where their homes serve them (R446). -/
def reachedParts (s : State) (gc : Nat) (a : Access) : Access :=
  { a with parts := a.parts.map fun p => { p with loc := reached s gc (s.thread a.tid).vd p.va.toNat p.loc } }

/-- Apply a write at its home: no earlier access of the core to its bytes is to come, every write before it in the queue leaves
with it, and it leaves itself (R180). -/
def writeNow (s : State) (gc : Nat) (before : List Access) (a : Access) (busy : Bool) (k : State → State) : State :=
  if busy || !earlierLeave s (s.core gc).port before then s else k (s.leave gc before a)

/-- The lane of an access is applied at its home, if the port may send it (R180, R181). -/
def applyPort (s : State) (gc : Nat) (a : Access) (lane : Nat) : State :=
  let a := reachedParts s gc a
  let before := beforeOf (s.core gc).port a
  match a.parts.find? fun p => p.lane = lane with
  | none => s
  | some p =>
    if !mayGo (s.thread a.tid) before a then s
    else match a.kind with
      | .load => applyLoad s gc a p before
      | .gath => s
      | .redu ty rm sat op src =>
        if lane != 0 then applyRedu s gc a lane before ty rm sat op src
        else writeNow s gc before a (src.isNone || laneBusy before (a.parts.filter fun q => q.lane = 0)) fun s =>
          applyRedu s gc a lane before ty rm sat op src
      | .tflush | .tinv =>
        let ps := (a.parts.filter fun q => q.lane = lane)
        writeNow s gc before a (laneBusy before ps) fun s =>
          let ls := ps.map fun q => (q.loc, q.len)
          (if a.kind == .tflush then s.cleanLocs ls else s.dropLocs ls).partDone gc a lane
      | .store => writeNow s gc before a (locBusy before a p) fun s => applyStore s gc a p
      | .ldf => if locBusy before a p || homeBusy s gc before a p then s else arriveSync s gc a p
      | .ste => writeNow s gc before a (locBusy before a p) fun s => arriveSync s gc a p
      | .waitge _ => if locBusy before a p || homeBusy s gc before a p then s else arriveSync s gc a p
      | .ldfp => if locBusy before a p || homeBusy s gc before a p then s else applyLdfp s gc a p
      | .setfe full => writeNow s gc before a (locBusy before a p) fun s => applySetfe s gc a p full
      | .amo op b c => writeNow s gc before a (locBusy before a p || homeBusy s gc before a p) fun s => applyAmo s gc a p op b c
      | .hist ovf => writeNow s gc before a (locBusy before a p) fun s => applyHist s gc a p ovf

end Sys2Proof.Machine
end

