-- ==== Sys2Proof/Machine/Flags.lean ====
section
/-! DEFINITION. Every condition: the codes of CMP and CMPI (R92), their meaning in VCMP on integers and on floating values
(R126), and what a comparison writes (R93). The part has no flag register. -/

namespace Sys2Proof.Machine

/-- A condition on an unsigned and a signed reading of two values (R92). -/
def condHolds (c : Cond) (a b : Nat) (sa sb : Int) : Bool :=
  match c with
  | .eq => a == b
  | .ne => a != b
  | .lt => decide (sa < sb)
  | .ge => decide (sb ≤ sa)
  | .gt => decide (sb < sa)
  | .le => decide (sa ≤ sb)
  | .ltu => decide (a < b)
  | .geu => decide (b ≤ a)
  | .gtu => decide (b < a)
  | .leu => decide (a ≤ b)

/-- A condition on two 64-bit values (R92). -/
def condWord (c : Cond) (a b : Word) : Bool := condHolds c a.toNat b.toNat a.toInt b.toInt

/-- A condition on two floating values: any comparison with a NaN fails but `ne`, and −0 equals +0 (R126). -/
def condFloat (c : Cond) (a b : Val) : Bool :=
  match cmpV a b with
  | none => c == .ne
  | some o => match c with
    | .eq => o == .eq
    | .ne => o != .eq
    | .lt => o == .lt
    | .ge => o != .lt
    | .gt => o == .gt
    | .le => o != .gt
    | .ltu | .geu | .gtu | .leu => false

/-- The scalar result of a comparison (R93). -/
def boolWord (b : Bool) : Word := if b then 1 else 0

/-- The predicate result of a comparison (R93). -/
def boolPred (b : Bool) : PWord := if b then BitVec.allOnes 128 else 0

end Sys2Proof.Machine
end

