-- ==== Sys2Proof/Machine/Vector.lean ====
section
/-! DEFINITION. Vector instructions on registers (R115 to R140). -/

namespace Sys2Proof.Machine

/-! ### Shapes (R116 to R118, R62) -/

/-- The sources of a governed form: the predicate, and D unless the predicate is `p0` (R117). -/
def govRegs (pg : PReg) (d : Reg) : List Reg := if pg.val = 0 then [] else [.p pg, d]

/-- Draws that an instruction takes from the thread's generator: `n` under RS, none otherwise (R62). -/
def State.takeDraws (s : State) (rm : Rm) (n : Nat) : State × List Nat :=
  if rm = .rs then
    let (g, us) := drawN n s.thr.rng
    (s.modThr fun t => { t with rng := g }, us)
  else (s, [])

/-- Lanes of `w` bits: the new value where active, the old one elsewhere (R117). -/
def mergeLanes (w : Nat) (p : PWord) (old : VWord) (new : Nat → Nat) : VWord :=
  vOfLanes w ((List.range (1024 / w)).map fun i => if activeLane p w i then new i else lane old w i)

/-- A governed form: sources and, under a predicate other than `p0`, D are read at issue; one draw for each lane (R117). -/
def governed (sw : Bool) (w : Nat) (pg : PReg) (d : VReg) (srcs : List Reg) (rm : Rm)
    (f : State → List Nat → Nat → Nat) (s : State) : State :=
  s.withRegs (srcs ++ govRegs pg (.v d)) fun s =>
    let r := s.takeDraws rm (1024 / w)
    (r.1.writeV d (mergeLanes w (s.thr.getP pg) (s.thr.getV d) (f s r.2))).finish sw

/-- Lane `i` of a register of the thread in focus. -/
def State.vlane (s : State) (w : Nat) (r : VReg) (i : Nat) : Nat := lane (s.thr.getV r) w i

/-- An integer or a floating result of two lanes, narrowed or rounded once (R122 to R124). -/
def arith2 (ty : Ty) (rm : Rm) (sat : Bool) (fi : Int → Int → Int) (ff : Rm → Val → Val → Val) (u x y : Nat) : Nat :=
  if ty.isInt then narrow ty sat (fi (intOf ty x) (intOf ty y))
  else (fmtOf ty).round rm sat u (ff rm ((fmtOf ty).decode x) ((fmtOf ty).decode y))

/-- The same of three lanes. -/
def arith3 (ty : Ty) (rm : Rm) (sat : Bool) (fi : Int → Int → Int → Int) (ff : Rm → Val → Val → Val → Val)
    (u x y z : Nat) : Nat :=
  if ty.isInt then narrow ty sat (fi (intOf ty x) (intOf ty y) (intOf ty z))
  else (fmtOf ty).round rm sat u (ff rm ((fmtOf ty).decode x) ((fmtOf ty).decode y) ((fmtOf ty).decode z))

def subV (rm : Rm) (a b : Val) : Val := addV rm a b.neg

def vec2 (sw : Bool) (ty : Ty) (rm : Rm) (sat : Bool) (pg : PReg) (d a b : VReg) (fi : Int → Int → Int)
    (ff : Rm → Val → Val → Val) (s : State) : State :=
  governed sw ty.width pg d [.v a, .v b] rm
    (fun s us i => arith2 ty rm sat fi ff (us.getD i 0) (s.vlane ty.width a i) (s.vlane ty.width b i)) s

def vec3 (sw : Bool) (ty : Ty) (rm : Rm) (sat : Bool) (pg : PReg) (d a b c : VReg) (fi : Int → Int → Int → Int)
    (ff : Rm → Val → Val → Val → Val) (s : State) : State :=
  governed sw ty.width pg d [.v a, .v b, .v c] rm
    (fun s us i => arith3 ty rm sat fi ff (us.getD i 0) (s.vlane ty.width a i) (s.vlane ty.width b i)
      (s.vlane ty.width c i)) s

/-- A lane-wise form of one or two sources on the lanes' bits (R125). -/
def bits2 (sw : Bool) (w : Nat) (pg : PReg) (d a b : VReg) (f : Nat → Nat → Nat) (s : State) : State :=
  governed sw w pg d [.v a, .v b] .rne (fun s _ i => f (s.vlane w a i) (s.vlane w b i)) s

def bits1 (sw : Bool) (w : Nat) (pg : PReg) (d a : VReg) (f : Nat → Nat) (s : State) : State :=
  governed sw w pg d [.v a] .rne (fun s _ i => f (s.vlane w a i)) s

/-! ### Element arithmetic (R122 to R124) -/

def execVadd (sw : Bool) (ty : Ty) (rm : Rm) (sat : Bool) (pg : PReg) (d a b : VReg) (s : State) : Out :=
  .next (vec2 sw ty rm sat pg d a b (fun x y => x + y) addV s)

def execVsub (sw : Bool) (ty : Ty) (rm : Rm) (sat : Bool) (pg : PReg) (d a b : VReg) (s : State) : Out :=
  .next (vec2 sw ty rm sat pg d a b (fun x y => x - y) subV s)

def execVmul (sw : Bool) (ty : Ty) (rm : Rm) (sat : Bool) (pg : PReg) (d a b : VReg) (s : State) : Out :=
  .next (vec2 sw ty rm sat pg d a b (fun x y => x * y) (fun _ => mulV) s)

def execVmulh (sw : Bool) (ty : Ty) (pg : PReg) (d a b : VReg) (s : State) : Out :=
  .next (bits2 sw ty.width pg d a b (fun x y => ofSigned ty.width (intOf ty x * intOf ty y / (2 ^ ty.width : Nat))) s)

def execVmin (sw : Bool) (ty : Ty) (pg : PReg) (d a b : VReg) (s : State) : Out :=
  .next (vec2 sw ty .rne false pg d a b (fun x y => min x y) (fun _ => minV) s)

def execVmax (sw : Bool) (ty : Ty) (pg : PReg) (d a b : VReg) (s : State) : Out :=
  .next (vec2 sw ty .rne false pg d a b (fun x y => max x y) (fun _ => maxV) s)

def execVfma (sw : Bool) (ty : Ty) (rm : Rm) (sat : Bool) (pg : PReg) (d a b c : VReg) (s : State) : Out :=
  .next (vec3 sw ty rm sat pg d a b c (fun x y z => x * y + z) (fun rm x y z => addV rm (mulV x y) z) s)

def execVfms (sw : Bool) (ty : Ty) (rm : Rm) (sat : Bool) (pg : PReg) (d a b c : VReg) (s : State) : Out :=
  .next (vec3 sw ty rm sat pg d a b c (fun x y z => x * y - z) (fun rm x y z => subV rm (mulV x y) z) s)

/-- An integer or floating result of one lane. -/
def vec1 (sw : Bool) (ty : Ty) (sat : Bool) (pg : PReg) (d a : VReg) (fi : Int → Int) (ff : Val → Val) (s : State) :
    State :=
  bits1 sw ty.width pg d a (fun x =>
    if ty.isInt then narrow ty sat (fi (intOf ty x))
    else (fmtOf ty).round .rne false 0 (ff ((fmtOf ty).decode x))) s

def execVabs (sw : Bool) (ty : Ty) (sat : Bool) (pg : PReg) (d a : VReg) (s : State) : Out :=
  .next (vec1 sw ty sat pg d a (fun x => x.natAbs) Val.abs s)

def execVneg (sw : Bool) (ty : Ty) (sat : Bool) (pg : PReg) (d a : VReg) (s : State) : Out :=
  .next (vec1 sw ty sat pg d a (fun x => -x) Val.neg s)

/-! ### Bits and shifts (R125) -/

def execVand (sw : Bool) (sz : Sz) (pg : PReg) (d a b : VReg) (s : State) : Out :=
  .next (bits2 sw sz.bits pg d a b (fun x y => x &&& y) s)

def execVor (sw : Bool) (sz : Sz) (pg : PReg) (d a b : VReg) (s : State) : Out :=
  .next (bits2 sw sz.bits pg d a b (fun x y => x ||| y) s)

def execVxor (sw : Bool) (sz : Sz) (pg : PReg) (d a b : VReg) (s : State) : Out :=
  .next (bits2 sw sz.bits pg d a b (fun x y => x ^^^ y) s)

/-- A lane's shift amount: bits 4:0, modulo the width (R125). -/
def laneAmount (w y : Nat) : Nat := y % 32 % w

def execVshl (sw : Bool) (sz : Sz) (pg : PReg) (d a b : VReg) (s : State) : Out :=
  .next (bits2 sw sz.bits pg d a b (fun x y => x * 2 ^ laneAmount sz.bits y % 2 ^ sz.bits) s)

def execVshr (sw : Bool) (sz : Sz) (pg : PReg) (d a b : VReg) (s : State) : Out :=
  .next (bits2 sw sz.bits pg d a b (fun x y => x / 2 ^ laneAmount sz.bits y) s)

def execVsar (sw : Bool) (sz : Sz) (pg : PReg) (d a b : VReg) (s : State) : Out :=
  .next (bits2 sw sz.bits pg d a b
    (fun x y => ofSigned sz.bits (toSigned sz.bits x / (2 ^ laneAmount sz.bits y : Nat))) s)

def execVpopc (sw : Bool) (sz : Sz) (pg : PReg) (d a : VReg) (s : State) : Out :=
  .next (bits1 sw sz.bits pg d a (fun x => popcount sz.bits x) s)

/-! ### Comparing and selecting (R126, R127) -/

/-- Whether a lane's condition holds, in VCMP's reading (R126). -/
def laneCond (ty : Ty) (c : Cond) (x y : Nat) : Bool :=
  if ty.isInt then condHolds c x y (intOf ty x) (intOf ty y)
  else condFloat c ((fmtOf ty).decode x) ((fmtOf ty).decode y)

/-- The predicate that VCMP writes: every bit of an active lane alike, D's bits elsewhere. -/
def vcmpBits (w : Nat) (p old : PWord) (f : Nat → Bool) : PWord :=
  BitVec.ofNat 128 (ofLanes 1 ((List.range 128).map fun j =>
    let i := j * 8 / w
    let b := if activeLane p w i then f i else old.getLsbD j
    if b then 1 else 0))

def execVcmp (sw : Bool) (ty : Ty) (pg : PReg) (d : PReg) (a b : VReg) (cond : Cond) (s : State) : Out :=
  .next (s.withRegs ([.v a, .v b] ++ govRegs pg (.p d)) fun s =>
    (s.writeP d (vcmpBits ty.width (s.thr.getP pg) (s.thr.getP d) fun i =>
      laneCond ty cond (s.vlane ty.width a i) (s.vlane ty.width b i))).finish sw)

def execVsel (sw : Bool) (sz : Sz) (pn : PReg) (d a b : VReg) (s : State) : Out :=
  .next (s.withRegs [.v a, .v b, .p pn] fun s =>
    (s.writeV d (mergeLanes sz.bits (s.thr.getP pn) (s.thr.getV b) (s.vlane sz.bits a))).finish sw)

/-! ### Moving lanes (R128) -/

def execVbcast (sw : Bool) (sz : Sz) (pg : PReg) (d : VReg) (a : Src) (s : State) : Out :=
  .next (governed sw sz.bits pg d (srcRegs a) .rne (fun s _ _ => (s.src a).toNat % 2 ^ sz.bits) s)

def execVins (sw : Bool) (sz : Sz) (d : VReg) (a : Src) (i : BitVec 16) (s : State) : Out :=
  .next (s.withRegs (srcRegs a ++ [.v d]) fun s =>
    (s.writeV d (vOfLanes sz.bits ((List.range sz.lanes).map fun j =>
      if j = i.toNat then (s.src a).toNat % 2 ^ sz.bits else s.vlane sz.bits d j))).finish sw)

def execVext (sw : Bool) (sz : Sz) (d : SReg) (a : VReg) (i : BitVec 16) (s : State) : Out :=
  .next (s.withRegs [.v a] fun s => (s.writeS d (BitVec.ofNat 64 (s.vlane sz.bits a i.toNat))).finish sw)

def execVshuf (sw : Bool) (sz : Sz) (pg : PReg) (d a b : VReg) (s : State) : Out :=
  .next (governed sw sz.bits pg d [.v a, .v b] .rne
    (fun s _ j => s.vlane sz.bits a (s.vlane sz.bits b j % sz.lanes)) s)

def execVrot (sw : Bool) (sz : Sz) (pg : PReg) (d a : VReg) (n : BitVec 16) (s : State) : Out :=
  .next (governed sw sz.bits pg d [.v a] .rne (fun s _ j => s.vlane sz.bits a ((j + n.toNat) % sz.lanes)) s)

/-! ### Conversion, quantizing (R129 to R132) -/

def execVcvt (sw : Bool) (dty sty : Ty) (rm : Rm) (sat : Bool) (pg : PReg) (d a : VReg) (s : State) : Out :=
  let n := 1024 / max dty.width sty.width
  .next (s.withRegs ([.v a] ++ govRegs pg (.v d)) fun s =>
    let r := s.takeDraws rm n
    (r.1.writeV d (vOfLanes dty.width ((List.range (1024 / dty.width)).map fun j =>
      if n ≤ j then 0
      else if activeLane (s.thr.getP pg) dty.width j then convert dty sty rm sat (r.2.getD j 0) (s.vlane sty.width a j)
      else s.vlane dty.width d j))).finish sw)

/-- The block that VQNT writes: plane words in lanes 0 to p − 1, the exponent in lane 31 (R131). -/
def blockLanes (p e : Nat) (codes : List Int) : List Nat :=
  bpiPlanes p codes ++ List.replicate (31 - p) 0 ++ [e]

def execVqnt (sw : Bool) (sty : Ty) (rm : Rm) (pg : PReg) (pm2 : BitVec 3) (d a : VReg) (s : State) : Out :=
  let p := pm2.toNat + 2
  .next (s.withRegs [.v a, .p pg] fun s =>
    let r := s.takeDraws rm 32
    let xs := (List.range 32).map fun j =>
      if activeLane (s.thr.getP pg) sty.width j then valOf sty (s.vlane sty.width a j) else .fin false 0 0
    let q := quantize p rm r.2 xs
    (r.1.writeV d (vOfLanes 32 (blockLanes p q.1 q.2))).finish sw)

def execVdqnt (sw : Bool) (ty : Ty) (rm : Rm) (sat : Bool) (pg : PReg) (pm2 rpl : BitVec 3) (d a : VReg) (c : Src)
    (s : State) : Out :=
  let p := pm2.toNat + 2
  let q := if rpl = 0 then p else rpl.toNat + 1
  .next (s.withRegs ([.v a] ++ srcRegs c ++ govRegs pg (.v d)) fun s =>
    let r := if ty.isInt then (s, []) else s.takeDraws rm 32
    let planes := (List.range q).map (s.vlane 32 a)
    let e := (s.src c).toNat % 256
    let x (j : Nat) : Nat :=
      if ty.isInt then ofSigned 32 (bpiCode planes j)
      else (fmtOf ty).round rm sat (r.2.getD j 0) (scaledVal (bpiCode planes j) e (p - q))
    (r.1.writeV d (vOfLanes ty.width ((List.range (1024 / ty.width)).map fun j =>
      if 32 ≤ j then 0
      else if activeLane (s.thr.getP pg) ty.width j then x j else s.vlane ty.width d j))).finish sw)

/-! ### Reductions and scans (R134, R135) -/

/-- An exact integer reduction's result as 64 bits. -/
def intWord (x : Int) : Word := BitVec.ofInt 64 x

/-- The lanes of a reduction: the identity where inactive. -/
def redLanes (w : Nat) (p : PWord) (v : VWord) {α : Type} (f : Nat → α) (identity : α) : List α :=
  (List.range (1024 / w)).map fun i => if activeLane p w i then f (lane v w i) else identity

/-- One level of VREDSUM's tree: pairs added and rounded to f32, one draw each (R134). -/
def treeLevel (rm : Rm) : List Nat → List Nat → List Nat × List Nat
  | x :: y :: xs, us =>
    let t := fF32.round rm false (us.headD 0) (addV rm (fF32.decode x) (fF32.decode y))
    let (rest, us') := treeLevel rm xs us.tail
    (t :: rest, us')
  | xs, us => (xs, us)

/-- The levels of the tree. -/
def tree (rm : Rm) : Nat → List Nat → List Nat → Nat
  | 0, xs, _ => xs.headD 0
  | n + 1, xs, us =>
    let (ys, us') := treeLevel rm xs us
    tree rm n ys us'

/-- A lane as f32 bits, exactly (R67). -/
def toF32 (ty : Ty) (x : Nat) : Nat := fF32.round .rne false 0 ((fmtOf ty).decode x)

def execVredsum (sw : Bool) (ty : Ty) (rm : Rm) (pg : PReg) (d : SReg) (a : VReg) (s : State) : Out :=
  .next (s.withRegs [.v a, .p pg] fun s =>
    let p := s.thr.getP pg
    let v := s.thr.getV a
    if ty.isInt then
      (s.writeS d (intWord ((redLanes ty.width p v (intOf ty) 0).foldl (fun x y => x + y) 0))).finish sw
    else
      let r := s.takeDraws rm (1024 / ty.width - 1)
      (r.1.writeS d (BitVec.ofNat 64 (tree rm 7 (redLanes ty.width p v (toF32 ty) 0x80000000) r.2))).finish sw)

/-- VREDMAX and VREDMIN. -/
def redExtreme (sw : Bool) (ty : Ty) (pg : PReg) (d : SReg) (a : VReg) (fi : Int → Int → Int) (ff : Val → Val → Val)
    (i0 : Int) (f0 : Val) (s : State) : State :=
  s.withRegs [.v a, .p pg] fun s =>
    let p := s.thr.getP pg
    let v := s.thr.getV a
    let x := if ty.isInt then intWord ((redLanes ty.width p v (intOf ty) i0).foldl fi i0)
      else BitVec.ofNat 64 (fF32.round .rne false 0 ((redLanes ty.width p v (fmtOf ty).decode f0).foldl ff f0))
    (s.writeS d x).finish sw

def execVredmax (sw : Bool) (ty : Ty) (pg : PReg) (d : SReg) (a : VReg) (s : State) : Out :=
  .next (redExtreme sw ty pg d a max maxV (minOfTy ty) (.inf true) s)

def execVredmin (sw : Bool) (ty : Ty) (pg : PReg) (d : SReg) (a : VReg) (s : State) : Out :=
  .next (redExtreme sw ty pg d a min minV (maxOfTy ty) (.inf false) s)

/-- The running prefixes of VSCAN: one step for each lane (R135). -/
def scanFrom {α : Type} (step : α → Nat → α → α) : α → Nat → List α → List α
  | _, _, [] => []
  | acc, i, x :: xs =>
    let acc := step acc i x
    acc :: scanFrom step acc (i + 1) xs

def execVscan (sw : Bool) (ty : Ty) (rm : Rm) (sat : Bool) (pg : PReg) (d a : VReg) (s : State) : Out :=
  let w := ty.width
  .next (s.withRegs ([.v a] ++ govRegs pg (.v d)) fun s =>
    let r := s.takeDraws rm (1024 / w)
    let p := s.thr.getP pg
    let v := s.thr.getV a
    let f := fmtOf ty
    let out : List Nat :=
      if ty.isInt then
        (scanFrom (fun acc _ x => intOf ty (narrow ty sat (acc + x))) 0 0 (redLanes w p v (intOf ty) 0)).map (ofSigned w)
      else
        scanFrom (fun acc i x => f.round rm false (r.2.getD i 0) (addV rm (f.decode acc) (f.decode x))) (f.sign true) 0
          (redLanes w p v id (f.sign true))
    (r.1.writeV d (mergeLanes w p (s.thr.getV d) fun i => out.getD i 0)).finish sw)

/-! ### Reciprocal, root, power, logarithm (R137, R138) -/

/-- A deferred governed form of one floating source; inactive lanes are D's at issue (R138). -/
def special (sw : Bool) (ty : Ty) (rm : Rm) (sat : Bool) (pg : PReg) (d a : VReg) (f : Val → Val) (s : State) : State :=
  s.withSlot fun s => s.withRegs ([.v a] ++ govRegs pg (.v d)) fun s =>
    let w := ty.width
    let r := s.takeDraws rm (1024 / w)
    let x := mergeLanes w (s.thr.getP pg) (s.thr.getV d) fun i =>
      (fmtOf ty).round rm sat (r.2.getD i 0) (f ((fmtOf ty).decode (s.vlane w a i)))
    (r.1.defer [.v d x] .plain true).finish sw

def execVrcp (sw : Bool) (ty : Ty) (rm : Rm) (sat : Bool) (pg : PReg) (d a : VReg) (s : State) : Out :=
  .next (special sw ty rm sat pg d a rcpV s)
def execVrsq (sw : Bool) (ty : Ty) (rm : Rm) (sat : Bool) (pg : PReg) (d a : VReg) (s : State) : Out :=
  .next (special sw ty rm sat pg d a rsqV s)
def execVexp2 (sw : Bool) (ty : Ty) (rm : Rm) (sat : Bool) (pg : PReg) (d a : VReg) (s : State) : Out :=
  .next (special sw ty rm sat pg d a exp2V s)
def execVlog2 (sw : Bool) (ty : Ty) (rm : Rm) (sat : Bool) (pg : PReg) (d a : VReg) (s : State) : Out :=
  .next (special sw ty rm sat pg d a log2V s)

/-! ### Four-way dot products (R139) -/

/-- Four products and a 32-bit accumulator: exact, narrowed or rounded once. -/
def dot4 (ty : Ty) (rm : Rm) (sat : Bool) (u : Nat) (xs ys : List Nat) (c : Nat) : Nat :=
  if ty.isInt then
    narrow .i32 sat (((xs.zip ys).map fun (x, y) => intOf ty x * intOf ty y).foldl (fun x y => x + y) (toSigned 32 c))
  else
    let f := fmtOf ty
    fF32.round rm sat u
      (((xs.zip ys).map fun (x, y) => mulV (f.decode x) (f.decode y)).foldl (addV rm) (fF32.decode c))

def execVdot4 (sw : Bool) (ty : Ty) (rm : Rm) (sat : Bool) (pg : PReg) (d a b c : VReg) (s : State) : Out :=
  let four (s : State) (r : VReg) (j : Nat) : List Nat := (List.range 4).map fun k => s.vlane 8 r (4 * j + k)
  .next (governed sw 32 pg d [.v a, .v b, .v c] rm
    (fun s us j => dot4 ty rm sat (us.getD j 0) (four s a j) (four s b j) (s.vlane 32 c j)) s)

end Sys2Proof.Machine
end

