-- ==== Sys2Proof/Machine/MemInstr.lean ====
section
/-! DEFINITION. The memory instructions at issue (R183 to R200): operands, checks, and the access that enters the port. -/

namespace Sys2Proof.Machine

/-! ### Shapes -/

/-- One part of an access. -/
def onePart (va : Addr) (loc len : Nat) (data : List Byte) : List Part := [⟨0, va, loc, len, data⟩]

/-- A load of one word: base and offset, checks, a deferred result and an access (R188). -/
def loadForm (sw : Bool) (n : Nat) (kind : AccKind) (sc : Scope) (acq : Bool) (w : Bool) (forms : Forms)
    (writes : List RegWrite) (a : Src) (off : BitVec 16) (s : State) : State :=
  s.withSlot fun s => s.withRegs (srcRegs a) fun s =>
    let va := baseOff (s.src a) off
    s.checked n [.one va.toNat n true w forms] fun locs s =>
      let acc := s.newAccess kind sc acq false none 0 (onePart va (locs.headD 0) n [])
      ((s.deferAs acq writes .plain false).toPort s.gc acc).finish sw

/-- A posted write of one word: it needs room in the store queue (R180, R188). -/
def storeForm (sw : Bool) (n : Nat) (kind : AccKind) (sc : Scope) (rel : Bool) (forms : Forms) (va : Addr)
    (data : List Byte) (s : State) : State :=
  s.checked n [.one va.toNat n false true forms] fun locs s =>
    if queueFull (s.core s.gc).port then s.bubble
    else
      let acc := s.newAccess kind sc false rel none 0 (onePart va (locs.headD 0) n data)
      (s.bump.toPort s.gc acc).finish sw

/-! ### LD, LDA, ST, STL (R188) -/

def execLd (sw : Bool) (sz : Sz) (d : SReg) (a : Src) (off : BitVec 16) (s : State) : Out :=
  .next (loadForm sw sz.bytes .load .t false false .any [.s d 0] a off s)

def execLda (sw : Bool) (sz : Sz) (sc : Scope) (d : SReg) (a : Src) (off : BitVec 16) (s : State) : Out :=
  .next (loadForm sw sz.bytes .load sc true false .any [.s d 0] a off s)

def execSt (sw : Bool) (sz : Sz) (a b : Src) (off : BitVec 16) (s : State) : Out :=
  .next (s.withRegs (srcRegs a ++ srcRegs b) fun s =>
    storeForm sw sz.bytes .store .t false .any (baseOff (s.src a) off) (toBytes sz.bytes (s.src b).toNat) s)

def execStl (sw : Bool) (sz : Sz) (sc : Scope) (a b : Src) (off : BitVec 16) (s : State) : Out :=
  .next (s.withRegs (srcRegs a ++ srcRegs b) fun s =>
    storeForm sw sz.bytes .store sc true .any (baseOff (s.src a) off) (toBytes sz.bytes (s.src b).toNat) s)

/-! ### Vector loads and stores (R189, R190) -/

/-- The active lanes of a vector access with the address of each. -/
def activeAddrs (p : PWord) (w n : Nat) (f : Nat → Addr) : List (Nat × Addr) :=
  (List.range n).filterMap fun i => if activeLane p w i then some (i, f i) else none

/-- Address `k` bytes from a base, wrapping in 52 bits. -/
def addrPlus (a : Word) (k : Int) : Addr := a.setWidth 52 + BitVec.ofInt 52 k

/-- Items of lanes. -/
def laneItems (n : Nat) (r w : Bool) (forms : Forms) (ls : List (Nat × Addr)) : List Item :=
  ls.map fun (_, va) => .one va.toNat n r w forms

/-- Parts of lanes with their locations and data. -/
def laneParts (n : Nat) (ls : List (Nat × Addr)) (locs : List Nat) (data : Nat → List Byte) : List Part :=
  (ls.zip locs).map fun ((i, va), loc) => ⟨i, va, loc, n, data i⟩

/-- A vector load once its sources are present: checks over the active lanes, a deferred result that starts at `init`. -/
def vloadForm (sw : Bool) (w : Nat) (d : VReg) (init : VWord) (ls : List (Nat × Addr)) (s : State) : State :=
  s.checked (w / 8) (laneItems (w / 8) true false .any ls) fun locs s =>
    let acc := s.newAccess .load .t false false none w (laneParts (w / 8) ls locs fun _ => [])
    let s := s.defer [.v d init] .plain ls.isEmpty
    (if ls.isEmpty then s else s.toPort s.gc acc).finish sw

def execVld (sw : Bool) (sz : Sz) (pg : PReg) (d : VReg) (a : Src) (off : BitVec 16) (s : State) : Out :=
  .next (s.withSlot fun s => s.withRegs (srcRegs a ++ govRegs pg (.v d)) fun s =>
    vloadForm sw sz.bits d (s.thr.getV d) (activeAddrs (s.thr.getP pg) sz.bits sz.lanes fun i =>
      addrPlus (s.src a) (off.toInt + i * sz.bytes)) s)

def execVlds (sw : Bool) (sz : Sz) (pg : PReg) (d : VReg) (a : Src) (stride : BitVec 16) (s : State) : Out :=
  .next (s.withSlot fun s => s.withRegs (srcRegs a ++ govRegs pg (.v d)) fun s =>
    vloadForm sw sz.bits d (s.thr.getV d) (activeAddrs (s.thr.getP pg) sz.bits sz.lanes fun i =>
      addrPlus (s.src a) (i * stride.toInt)) s)

/-- Address of element j of a gather or scatter (R190). -/
def elemAddr (s : State) (a : Src) (c : VReg) (n : Nat) (j : Nat) : Addr :=
  addrPlus (s.src a) (toSigned 32 (s.vlane 32 c j) * n)

/-- The value that a gather starts from: D's lanes below 32, zero above (R190). -/
def gatherInit (w : Nat) (old : VWord) : VWord :=
  vOfLanes w ((List.range (1024 / w)).map fun j => if j < 32 then lane old w j else 0)

def execVgath (sw : Bool) (sz : Sz) (pg : PReg) (d : VReg) (a : Src) (c : VReg) (s : State) : Out :=
  .next (s.withSlot fun s => s.withRegs (srcRegs a ++ [.v c] ++ govRegs pg (.v d)) fun s =>
    vloadForm sw sz.bits d (gatherInit sz.bits (s.thr.getV d))
      (activeAddrs (s.thr.getP pg) sz.bits 32 (elemAddr s a c sz.bytes)) s)

/-- Cut the parts of a vector store into entries: runs of consecutive lanes in one aligned 64-byte block (R180). -/
def runs : List Part → List (List Part)
  | [] => []
  | p :: ps => match runs ps with
    | (q :: qs) :: rest =>
      if p.lane + 1 = q.lane && p.va.toNat / 64 = q.va.toNat / 64 then (p :: q :: qs) :: rest else [p] :: (q :: qs) :: rest
    | rest => [p] :: rest

/-- Number the entries of a vector store. -/
def holdRuns : List (List Part) → State → State
  | [], s => s
  | ps :: rest, s =>
    let acc := s.newAccess .store .t false false none 0 ps
    holdRuns rest (s.bump.modThr fun t => { t with storeHold := t.storeHold ++ [acc] })

/-- A vector store once its sources are present: every check, then its entries enter as room frees (R180, R189). -/
def vstoreForm (sw : Bool) (n : Nat) (ls : List (Nat × Addr)) (data : Nat → List Byte) (s : State) : State :=
  s.checked n (laneItems n false true .any ls) fun locs s =>
    ((holdRuns (runs (laneParts n ls locs data)) s).pushStores).finish sw

/-- Bytes of a lane of a register. -/
def laneBytes (s : State) (w : Nat) (b : VReg) (i : Nat) : List Byte := toBytes (w / 8) (s.vlane w b i)

def execVst (sw : Bool) (sz : Sz) (pg : PReg) (a : Src) (b : VReg) (off : BitVec 16) (s : State) : Out :=
  .next (s.withRegs (srcRegs a ++ [.v b, .p pg]) fun s =>
    vstoreForm sw sz.bytes (activeAddrs (s.thr.getP pg) sz.bits sz.lanes fun i =>
      addrPlus (s.src a) (off.toInt + i * sz.bytes)) (laneBytes s sz.bits b) s)

def execVsts (sw : Bool) (sz : Sz) (pg : PReg) (a : Src) (b : VReg) (stride : BitVec 16) (s : State) : Out :=
  .next (s.withRegs (srcRegs a ++ [.v b, .p pg]) fun s =>
    vstoreForm sw sz.bytes (activeAddrs (s.thr.getP pg) sz.bits sz.lanes fun i =>
      addrPlus (s.src a) (i * stride.toInt)) (laneBytes s sz.bits b) s)

def execVscat (sw : Bool) (sz : Sz) (pg : PReg) (a : Src) (b c : VReg) (s : State) : Out :=
  .next (s.withRegs (srcRegs a ++ [.v b, .v c, .p pg]) fun s =>
    vstoreForm sw sz.bytes (activeAddrs (s.thr.getP pg) sz.bits 32 (elemAddr s a c sz.bytes)) (laneBytes s sz.bits b) s)

/-! ### Full/empty words (R192) -/

def execLdf (sw : Bool) (sc : Scope) (d : SReg) (a : Src) (off : BitVec 16) (s : State) : Out :=
  .next (loadForm sw 8 .ldf sc true true .spadOnly [.s d 0] a off s)

def execLdfp (sw : Bool) (d : SReg) (p : PReg) (a : Src) (off : BitVec 16) (s : State) : Out :=
  .next (loadForm sw 8 .ldfp .t false false .spadOnly [.s d 0, .p p 0] a off s)

/-- STE holds a result-buffer entry for its acknowledgment (R44, R192). -/
def execSte (sw : Bool) (sc : Scope) (a b : Src) (off : BitVec 16) (s : State) : Out :=
  .next (s.withSlot fun s => s.withRegs (srcRegs a ++ srcRegs b) fun s =>
    let va := baseOff (s.src a) off
    s.checked 8 [.one va.toNat 8 false true .spadOnly] fun locs s =>
      if queueFull (s.core s.gc).port then s.bubble
      else
        let acc := s.newAccess .ste sc false true none 0 (onePart va (locs.headD 0) 8 (toBytes 8 (s.src b).toNat))
        ((s.defer [] .plain false).toPort s.gc acc).finish sw)

def execSetfe (sw : Bool) (a b : Src) (off : BitVec 16) (s : State) : Out :=
  .next (s.withRegs (srcRegs a ++ srcRegs b) fun s =>
    storeForm sw 8 (.setfe ((s.src b).getLsbD 0)) .t false .spadOnly (baseOff (s.src a) off) [] s)

/-! ### AMO, REDU, WAITGE (R196 to R198) -/

def execAmo (sw : Bool) (sz : Sz) (sc : Scope) (op : AmoOp) (ord : AmoOrd) (d : SReg) (a b c : Src) (s : State) : Out :=
  let acq := ord == .acq || ord == .acqrel
  let rel := ord == .rel || ord == .acqrel
  let rc := if op = .cas then srcRegs c else []
  .next (s.withSlot fun s => s.withRegs (srcRegs a ++ srcRegs b ++ rc) fun s =>
    let va := baseOff (s.src a) 0
    s.checked sz.bytes [.one va.toNat sz.bytes true true .noHost] fun locs s =>
      if queueFull (s.core s.gc).port then s.bubble
      else
        let acc := s.newAccess (.amo op (s.src b) (s.src c)) sc acq rel none 0 (onePart va (locs.headD 0) sz.bytes [])
        ((s.deferAs acq [.s d 0] .plain false).toPort s.gc acc).finish sw)

/-- The tile that a destination names, as its rows: address named, address, length; none where it is not the first byte of a
whole tile (R197). Shared memory has tiles of 512 consecutive bytes (R179). -/
def reduTile (s : State) (gc vd va : Nat) : Option (List (Nat × Nat × Nat)) :=
  match whereIs s gc vd va with
  | some (.l2 _ off) =>
    if off % 512 = 0 then some ((List.range 16).map fun r => (va + 32 * r, va + 32 * r, 32)) else none
  | some (.dram pkg off0) =>
    let vk := vdKey pkg vd
    match remapped s vk off0 with
    | none => none
    | some off =>
      let x := tileOf s vk off
      let rows := tileRows s vk x
      if wholeRows rows && x.first == off then some (rows.map fun r => (va + (r.1 - off), r.1 + (va - off0), r.2)) else none
  | _ => none

/-- What a REDU accesses of its destination; its first byte alone where that is no whole tile. -/
def reduDst (s : State) (gc vd dst : Nat) : List Item :=
  (((reduTile s gc vd dst).getD [(dst, dst, 1)]).map fun (nm, va, n) => (piecesOf s gc vd va n).map fun p =>
    (⟨p.1, p.2, true, true, .sliceOnly, nm + (p.1 - va), dst, true⟩ : Item)).flatten

/-- What a REDU reads of its source: eight blocks of 64 bytes. For range locks the form is a write (R186). -/
def reduSrcItems (s : State) (gc vd src : Nat) : List Item :=
  ((List.range 8).map fun k => (itemsOf s gc vd (src + 64 * k) 64 true false .any).map fun i =>
    { i with base := src, lockW := true }).flatten

/-- Parts of a REDU: the tile's pieces in lane 0, its source's after them. -/
def reduParts (dst src : List (Item × Nat)) : List Part :=
  (dst.map fun (i, loc) => (⟨0, BitVec.ofNat 52 i.va, loc, i.len, []⟩ : Part)) ++
  src.zipIdx.map fun ((i, loc), k) => ⟨k + 1, BitVec.ofNat 52 i.va, loc, i.len, []⟩

/-- REDU; its destination is checked before its source where both fail one check (DESIGN CHOICE, log entry 93). -/
def execRedu (sw : Bool) (ty : Ty) (rm : Rm) (sat : Bool) (op : ReduOp) (a b : Src) (s : State) : Out :=
  .next (s.withRegs (srcRegs a ++ srcRegs b) fun s =>
    let dst := (baseOff (s.src a) 0).toNat
    let src := (baseOff (s.src b) 0).toNat
    if src % 64 != 0 then s.trap cAlign (BitVec.ofNat 64 src)
    else
      let ds := reduDst s s.gc s.thr.vd dst
      let ss := reduSrcItems s s.gc s.thr.vd src
      s.checkedMid (ds ++ ss) (if (reduTile s s.gc s.thr.vd dst).isSome then none else some (cAlign, dst)) fun locs s =>
        if queueFull (s.core s.gc).port then s.bubble
        else
          let acc := s.newAccess (.redu ty rm sat op none) .t false false none 0
            (reduParts (ds.zip locs) (ss.zip (locs.drop ds.length)))
          (s.bump.toPort s.gc { acc with named := [(dst, 512)] }).finish sw)

/-- R198: parks with its access in the port until the value has been observed. -/
def execWaitge (sw : Bool) (sz : Sz) (sc : Scope) (d : SReg) (a b : Src) (off : BitVec 16) (s : State) : Out :=
  .next <| match s.thr.wait with
    | .waitge _ (some x) _ => (s.writeS d x).finish sw
    | .waitge _ none _ => match s.thr.park with
      | some p => s.parkOn p.tval
      | none => s.parkOn 0
    | _ => s.withRegs (srcRegs a ++ srcRegs b) fun s =>
      let va := baseOff (s.src a) off
      s.checked sz.bytes [.one va.toNat sz.bytes true false .noHost] fun locs s =>
        let acc := s.newAccess (.waitge (s.src b).toNat) sc true false none 0
          (onePart va (locs.headD 0) sz.bytes [])
        ((s.bump.toPort s.gc acc).modThr fun t => { t with wait := .waitge acc.id none false }).parkOn (va.setWidth 64)

/-! ### FENCE, PREF, TFLUSH, TINV (R199, R200) -/

/-- What a FENCE waits for: earlier loads have their values, earlier writes are performed at the scope, flushes and
invalidations are complete, sends have landed or are held. -/
def fenceOk (s : State) (sc : Scope) : Bool :=
  let mine := (s.core s.gc).port.filter fun a => a.tid == s.thr.id && a.kind != .gath
  s.thr.sendq.isEmpty &&
  match sc with
  | .t | .c => !(mine.any fun a => a.readPending || a.kind == .tflush || a.kind == .tinv)
  | .k | .m | .g | .s => mine.isEmpty

/-- A hold: the instruction has issued, and completes once its condition holds; bubbles in its own slot until then. -/
def State.holdUntil (s : State) (b : Bool) (k : State → State) : State :=
  if b then k s else s.modThr fun t => { t with wait := .hold 0 false 0, park := none }

def execFence (sw : Bool) (sc : Scope) (s : State) : Out :=
  .next (s.holdUntil (fenceOk s sc) fun s => s.finish sw)

/-- R200: no effect on any value or order, and no fault. -/
def execPref (sw : Bool) (a : Src) (b : Option Src) (_off : BitVec 16) (s : State) : Out :=
  .next (s.withRegs (srcRegs a ++ optRegs b) fun s => s.finish sw)

/-- Bytes of a range form: max(b[23:0], 1). -/
def rangeLen (s : State) (b : Option Src) : Nat :=
  match b with
  | none => 1
  | some b => max ((s.src b).toNat % 2 ^ 24) 1

/-- The tiles of the issuer's package that a range touches. -/
def tilesOf (s : State) (gc vd va len : Nat) : List Tile :=
  let vk := vdKey (pkgOf gc) vd
  (piecesOf s gc vd va len).foldl (fun acc p => match whereIs s gc vd p.1 with
    | some (.dram pkg off0) =>
      if pkg != pkgOf gc then acc
      else match remapped s vk off0 with
        | none => acc
        | some off => tilesIn s vk p.2 off p.2 acc
    | _ => acc) []

/-- One part for each piece of each tile, a lane for each tile. -/
def tileParts (s : State) (gc vd : Nat) (xs : List Tile) : List Part :=
  (xs.zipIdx.map fun (x, k) =>
    ((tileRows s (vdKey (pkgOf gc) vd) x).map fun r => spans s gc vd r.1 r.2).flatten.map fun (v, l, n) =>
      (⟨k, BitVec.ofNat 52 v, l, n, []⟩ : Part)).flatten

/-- TFLUSH and TINV at issue: the checks over every page, then one part for each piece of each tile (R200). -/
def tileForm (sw : Bool) (kind : AccKind) (w : Bool) (a : Src) (b : Option Src) (off : BitVec 16) (s : State) : State :=
  s.withRegs (srcRegs a ++ optRegs b) fun s =>
    let va := (baseOff (s.src a) off).toNat
    let len := rangeLen s b
    s.checkedMid (itemsOf s s.gc s.thr.vd va len (!w) w .any) none fun _ s =>
      let parts := tileParts s s.gc s.thr.vd (tilesOf s s.gc s.thr.vd va len)
      if parts.isEmpty then s.finish sw
      else if queueFull (s.core s.gc).port then s.bubble
      else (s.bump.toPort s.gc { s.newAccess kind .t false false none 0 parts with named := [(va, len)] }).finish sw

def execTflush (sw : Bool) (a : Src) (b : Option Src) (off : BitVec 16) (s : State) : Out :=
  .next (tileForm sw .tflush false a b off s)

def execTinv (sw : Bool) (a : Src) (b : Option Src) (off : BitVec 16) (s : State) : Out :=
  .next (tileForm sw .tinv true a b off s)

end Sys2Proof.Machine
end

