-- ==== Sys2Proof/Machine/Fabric.lean ====
section
/-! DEFINITION. Registers as fabric addresses: capabilities, sends, landings, presence (R203 to R223). -/

namespace Sys2Proof.Machine

/-! ### Capabilities (R204 to R208) -/

def capTgt (c : Word) : Nat := field c 63 44
def capBase (c : Word) : Nat := field c 43 38
def capLen (c : Word) : Nat := field c 37 34
def capRights (c : Word) : Nat := field c 33 32
def capGen (c : Word) : Nat := field c 31 24
def capCheck (c : Word) : Nat := field c 23 0

/-- CHECK of a capability whose bits 63:24 are `hi`, under a team key and a revocation count (R205). -/
def checkOf (key hi count : Nat) : Nat :=
  (Config.hmacSm3 (Config.teamKey key) (toBytes 5 hi ++ toBytes 4 count)).toNat % 2 ^ 24

/-- A capability from its fields (R205). -/
def mkCap (key tgt base len rights count : Nat) : Word :=
  let hi := tgt * 2 ^ 20 + base * 2 ^ 14 + len * 2 ^ 10 + rights * 2 ^ 8 + count % 256
  BitVec.ofNat 64 (hi * 2 ^ 24 + checkOf key hi count)

/-- The team of the thread in focus. -/
def State.myTeam (s : State) : Option Team := s.findTeam s.thr.vd s.thr.teamNum

/-- The thread of a fabric number in a team (R203). -/
def Team.seat (t : Team) (fab : Nat) : Option Seat := t.seats.find? fun x => x.fab == fab

/-- A retired thread that a save keeps no shadow of: its COUNT is all that is left (R209, R366). -/
def Team.retired (t : Team) (tid : Nat) : Thread := { Thread.blank tid with st := .retired, capgen := tblGet t.counts tid 0 }

/-- The running thread or the shadow of a seat. -/
def State.seatThread (s : State) (t : Team) (x : Seat) : Thread :=
  if t.away then (t.shadows.find? fun y => y.id == x.tid).getD (t.retired x.tid) else s.thread x.tid

/-- A capability verifies against a target's current count for a form's class and an offset (R211). -/
def capOk (key count rights off : Nat) (c : Word) : Bool :=
  capCheck c == checkOf key (field c 63 24) count && capGen c == count % 256 && capRights c == rights && off ≤ capLen c

def execMintcap (sw : Bool) (d : SReg) (base : BitVec 6) (lenm1 : BitVec 4) (s : State) : Out :=
  let key := match s.myTeam with
    | some t => t.key
    | none => 0
  let rights := if base.toNat < 32 then 1 else 2
  .next (s.withSlot fun s =>
    (s.defer [.s d (mkCap key s.thr.fabno base.toNat lenm1.toNat rights s.thr.capgen.toNat)] .plain true).finish sw)

/-- R208: the count and D change at issue; the thread then holds until the revocation is effective. -/
def execRevcap (sw : Bool) (d : SReg) (s : State) : Out :=
  .next <| match s.thr.wait with
    | .hold 1 true _ => s.finish sw
    | .hold 1 false _ => s.bubble
    | _ =>
      if s.thr.capgen = 0xFFFFFFFF then s.trap cPerm 0xFFFFFFFF
      else s.withRegs [] fun s =>
        let n := s.thr.capgen + 1
        (s.writeS d (n.setWidth 64)).modThr fun t => { t with capgen := n, wait := .hold 1 false 0, park := none }

/-- A revocation is effective: every landing buffer has handled what it had accepted, and later presentations are checked
against the new count (R208). -/
def execRevocationEffective (t : Nat) (s : State) : Out :=
  let s := s.focus t
  .next <| match s.thr.wait with
    | .hold 1 _ r => s.modThr fun t => { t with wait := .hold 1 true r }
    | _ => s

/-! ### Sends (R210 to R213) -/

/-- The check of R211 and the queue. -/
def sendForm (sw : Bool) (a : Src) (regs : List Reg) (value : State → VWord) (vec : Bool) (off : BitVec 4)
    (rel : Option Scope) (s : State) : State :=
  s.withRegs (srcRegs a ++ regs) fun s =>
    let c := s.src a
    let bad (s : State) : State :=
      (s.modTeam s.thr.vd s.thr.teamNum fun t => { t with capbads := t.capbads + 1 }).trap cCapbad c
    match s.myTeam with
    | none => bad s
    | some team => match team.seat (capTgt c) with
      | none => bad s
      | some seat =>
        let target := s.seatThread team seat
        if !capOk team.key target.capgen.toNat (if vec then 2 else 1) off.toNat c then bad s
        else if target.st == .retired then s.trap cSendfail c
        else if 4 ≤ s.thr.sendq.length then s.parkOn c
        else
          let e : SendEntry := ⟨s.seq, c, capTgt c, capBase c + off.toNat, vec, value s, rel, false, false, s.thr.tcls⟩
          (s.bump.modThr fun t => { t with sendq := t.sendq ++ [e] }).finish sw

def execSend (sw : Bool) (a b : Src) (off : BitVec 4) (s : State) : Out :=
  .next (sendForm sw a (srcRegs b) (fun s => (s.src b).setWidth 1024) false off none s)

def execSendv (sw : Bool) (a : Src) (b : VReg) (off : BitVec 4) (s : State) : Out :=
  .next (sendForm sw a [.v b] (fun s => s.thr.getV b) true off none s)

def execSendr (sw : Bool) (sc : Scope) (a b : Src) (off : BitVec 4) (s : State) : Out :=
  .next (sendForm sw a (srcRegs b) (fun s => (s.src b).setWidth 1024) false off (some sc) s)

/-- An entry may leave the queue: no earlier value of the thread is outstanding (R230), an earlier SENDR has left (R212), and a
SENDR has its earlier accesses and sends behind it (R213). -/
def sendLeaves (s : State) (t : Thread) (e : SendEntry) : Bool :=
  let mine := (s.core (coreOf t.id)).port.filter fun a => a.tid == t.id && a.id < e.id && a.kind != .gath
  let earlier := t.sendq.filter fun f => f.id < e.id
  e.gone || (!(mine.any Access.valuePending) && match e.rel with
    | some sc => earlier.isEmpty && (match sc with
        | .t | .c => true
        | .k | .m | .g | .s => mine.isEmpty)
    | none => true)

/-- The network may bring the entry to its target: it and every entry before it have left the queue or leave it now, none of
those stands refused in the queue, and no earlier send to its window is still to land (R212, R218). -/
def sendGoes (s : State) (t : Thread) (e : SendEntry) : Bool :=
  let earlier := t.sendq.filter fun f => f.id < e.id
  sendLeaves s t e && (earlier.all fun f => sendLeaves s t f && !f.back) &&
  !(earlier.any fun f => f.target == e.target && capBase f.cap == capBase e.cap && capLen f.cap == capLen e.cap)

/-- ctl.fsrc of an arrival (R219). -/
def fsrcWord (eng vec : Bool) (reg fab : Nat) : Word :=
  BitVec.ofNat 64 ((if eng then 2 ^ 28 else 0) + (if vec then 2 ^ 27 else 0) + reg * 2 ^ 20 + fab)

/-- The arrival that a send makes at a thread. -/
def sendLanding (t : Thread) (e : SendEntry) (target : Nat) : Landing :=
  { tid := target, reg := e.reg, vec := e.vec, value := e.value, cap := e.cap, src := fsrcWord false e.vec e.reg t.fabno,
    sender := (0, t.id), window := (capBase e.cap, capLen e.cap), own := false, refused := false, arr := 0 }

/-- An entry is done with, and those before it have left the queue; the room may end a stall. -/
def State.unqueue (s : State) (t id : Nat) : State :=
  s.modThread t fun x => ({ x with sendq := (x.sendq.filter fun e => e.id != id).map fun e =>
    if e.id < id then { e with gone := true } else e } : Thread)

/-- An entry that its target cannot take stands in the queue again (R215, R225). -/
def State.sendBack (s : State) (t id : Nat) : State :=
  s.modThread t fun x => { x with sendq := x.sendq.map fun e =>
    if e.id = id then { e with gone := false, back := true } else if e.id < id then { e with gone := true } else e }

/-- An arrival at a shadow, in place of the thread (R225): true where it was taken. -/
def landShadow (x : Thread) (held : List Landing) (l : Landing) : Thread × List Landing × Bool :=
  match landTest x held l with
  | .land x => (x, held, true)
  | .drop => (x, held, true)
  | .refuse => (refuseInto x l, held, true)
  | .hold => if held.length < 32 then (x, held ++ [l], true) else (x, held, false)

/-- An arrival at a saved team's shadow. -/
def State.arriveSaved (s : State) (team : Team) (tid : Nat) (l : Landing) : State × Bool :=
  match team.shadows.find? fun x => x.id == tid with
  | none => (s, true)
  | some x =>
    let l := { l with arr := s.seq }
    let s := s.bump
    let (x', held, ok) := landShadow x (tblGet team.heldLists tid []) l
    (s.modTeam team.vd team.num fun t =>
      { t with shadows := t.shadows.map fun y => if y.id = tid then x' else y, heldLists := tblPut t.heldLists tid held }, ok)

/-- An entry is presented at its target: checked again, then handled by R216, refused with CAPBAD after a revocation, or
discarded with SENDFAIL at a retired target (R208, R216, R223, R226); false where the target cannot take it (R215). -/
def State.presentSend (s : State) (x : Thread) (e : SendEntry) (team : Team) : State × Bool :=
  match team.seat e.target with
  | none => (s, true)
  | some seat =>
    let target := s.seatThread team seat
    if !capOk team.key target.capgen.toNat (if e.vec then 2 else 1) 0 e.cap then (s.pend x.id cCapbad e.cap, true)
    else if target.st == .retired then (s.pend x.id cSendfail e.cap, true)
    else if team.away then s.arriveSaved team seat.tid (sendLanding x e seat.tid)
    else match s.arrive (sendLanding x e seat.tid) with
      | (_, .turnedAway) => (s, false)
      | (s, .landed) => (s, true)
      | (s, .held) => (s, true)

/-- A send arrives at its target's network interface: it leaves its queue, or stands in it again (R215). -/
def execSendArrival (t id : Nat) (s : State) : Out :=
  let x := s.thread t
  .next <| match x.sendq.find? fun e => e.id = id, s.findTeam x.vd x.teamNum with
    | some e, some team =>
      if !sendGoes s x e then s
      else
        let (s', ok) := s.presentSend x e team
        if ok then s'.unqueue t id else s.sendBack t id
    | some _, none => s.unqueue t id
    | none, _ => s

/-- No send of a thread's queue could be taken now: those that are left stand refused, or behind one that does (R225). -/
def sendsSettled (s : State) (team : Team) (t : Nat) : Bool :=
  let x := s.thread t
  x.sendq.all fun e => !sendGoes s x e || !(s.presentSend x e team).2

/-! ### Presence and landing modes (R217, R220 to R222) -/

def execRclr (sw : Bool) (d : Reg) (s : State) : Out :=
  .next (s.withRegs [] fun s => ((s.modThr fun x => x.clear d).finish sw).reland s.thr.id)

def execRfull (sw : Bool) (d : SReg) (a : FullSrc) (s : State) : Out :=
  .next (s.withRegs [] fun s => (s.writeS d (if FullSrc.isFull s.thr a then 1 else 0)).finish sw)

/-- The registers of a window that RWAIT awaits. -/
def regsFromTo : Reg → Reg → List Reg
  | .s a, .s b => (List.finRange 32).filterMap fun r => if a ≤ r && r ≤ b then some (.s r) else none
  | .v a, .v b => (List.finRange 16).filterMap fun r => if a ≤ r && r ≤ b then some (.v r) else none
  | _, _ => []

def execRwait (sw : Bool) (a b : Reg) (s : State) : Out :=
  .next (s.withRegs (regsFromTo a b) fun s => s.finish sw)

/-- Set the mode of `n` consecutive registers in a field of two bits each. -/
def setModes (w mode : Nat) : Nat → Nat → Nat
  | 0, _ => w
  | n + 1, r =>
    let w' := w - fieldN w (2 * r + 1) (2 * r) * 2 ^ (2 * r) + mode * 2 ^ (2 * r)
    setModes w' mode n (r + 1)

def execLandm (sw : Bool) (base : BitVec 6) (lenm1 : BitVec 4) (mode : BitVec 2) (s : State) : Out :=
  let n := lenm1.toNat + 1
  let b := base.toNat
  let t := s.thr.id
  let s := s.modThr fun x =>
    if b < 32 then { x with lands := BitVec.ofNat 64 (setModes x.lands.toNat mode.toNat n b) }
    else { x with landv := BitVec.ofNat 32 (setModes x.landv.toNat mode.toNat n (b - 32)) }
  .next ((s.finish sw).reland t)

end Sys2Proof.Machine
end

