-- ==== Sys2Proof/Machine/Engine.lean ====
section
/-! DEFINITION. What the engines share: completion statuses (R262), tags and tag waits (R261, R275, R276), range locks
(R147, R268), free values, completion words (R271). -/

namespace Sys2Proof.Machine

/-! ### Completion statuses (R262) -/

def stOk : Nat := 0
def stCancelled : Nat := 1
def stMemue : Nat := 2
def stXlate : Nat := 3
def stDetour : Nat := 4
def stRoutelost : Nat := 5
def stLate : Nat := 6
def stSkew : Nat := 7
def stStalegen : Nat := 8
def stFmtbad : Nat := 9

/-- The first of two conditions in the order in which a completion records them. -/
def worse (a b : Nat) : Nat := ([1, 2, 3, 9, 5, 8, 7, 6, 4].find? fun c => a = c || b = c).getD 0

/-! ### Free values -/

/-- `n` bytes that the spec leaves undefined (log entry 20). -/
def freeBytes (c n : Nat) : List Byte := (List.range n).map fun i => Config.freeByte (c + i)

/-! ### Range locks (R147) -/

def lockRoom : Nat := 32

/-- The core's range-lock table has room for `n` more entries. -/
def locksFit (c : Core) (n : Nat) : Bool := c.locks.length + n ≤ lockRoom

def State.lock (s : State) (gc : Nat) (ls : List Lock) : State := s.modCore gc fun c => { c with locks := c.locks ++ ls }
def State.unlock (s : State) (gc owner : Nat) : State :=
  s.modCore gc fun c => { c with locks := c.locks.filter fun l => l.owner != owner }

/-! ### Tags (R261, R276) -/

def State.modTags (s : State) (gc vk : Nat) (f : Tags → Tags) : State :=
  s.modCore gc fun c => { c with tags := tblPut c.tags vk (f (c.tagsOf vk)) }

/-- What a tag wait finds: its result, and the bits it clears (R275). -/
def tagTest (form : Nat) (bits mask : Word) : Option (Word × Word) :=
  let m := bits &&& mask
  if form = 1 then if m = mask then some (mask, 0) else none
  else if form = 0 then if mask = 0 || m != 0 then some (m, 0) else none
  else if mask = 0 then some (64, 0)
  else if m = 0 then none
  else
    let n := lowestOne 64 m.toNat
    some (BitVec.ofNat 64 n, 1#64 <<< n)

/-- Threads of a core that wait on the bitmap of a VD, in the order in which they began; a wait that a cause has cut short is
over (R330). -/
def tagWaiters (s : State) (gc vk : Nat) : List Nat :=
  let ws := (List.range 8).filterMap fun k =>
    let t := s.thread (gc * 8 + k)
    let cut := match t.park with
      | some p => p.cut
      | none => false
    if t.vk != vk || cut then none
    else match t.wait with
      | .tag _ _ seq none => some (seq, t.id)
      | _ => none
  (sortBy (fun x => x.1) ws).map fun x => x.2

/-- Evaluate one parked tag wait (R276). -/
def evalTagWait (gc vk : Nat) (s : State) (t : Nat) : State :=
  match (s.thread t).wait with
  | .tag form mask seq none =>
    match tagTest form ((s.core gc).tagsOf vk).bits mask with
    | none => s
    | some (r, clr) =>
      (s.modTags gc vk fun g => { g with bits := g.bits &&& ~~~clr }).modThread t fun x =>
        { x with wait := .tag form mask seq (some r) }
  | _ => s

/-- After a change of the bitmap its parked waits are evaluated one at a time (R276). -/
def tagsChanged (s : State) (gc vk : Nat) : State := (tagWaiters s gc vk).foldl (evalTagWait gc vk) s

/-- SetTag (R32, R261). -/
def State.setTag (s : State) (gc vk n status : Nat) : State :=
  tagsChanged (s.modTags gc vk fun g =>
    { bits := g.bits ||| (1#64 <<< (n % 64)), stat := g.stat.setIfInBounds (n % 64) (BitVec.ofNat 4 status) }) gc vk

/-- TCLR, and CTLW to ctl.tags (R261, R275). -/
def State.clearTags (s : State) (gc vk : Nat) (mask : Word) : State :=
  tagsChanged (s.modTags gc vk fun g => { g with bits := g.bits &&& ~~~mask }) gc vk

/-- A tag-wait form: ends at once where its condition holds, else parks (R275, R276). -/
def tagWaitForm (sw : Bool) (form : Nat) (d : SReg) (a : Src) (s : State) : State :=
  match s.thr.wait with
  | .tag _ _ _ (some r) => (s.writeS d r).finish sw
  | .tag _ mask _ none => s.parkOn mask
  | _ => s.withRegs (srcRegs a) fun s =>
    let mask := s.src a
    let vk := s.thr.vk
    match tagTest form ((s.core s.gc).tagsOf vk).bits mask with
    | some (r, clr) =>
      let s := if clr = 0 then s else s.clearTags s.gc vk clr
      (s.writeS d r).finish sw
    | none =>
      (s.bump.modThr fun t => { t with wait := .tag form mask s.seq none }).parkOn mask

/-! ### Completion words (R271) -/

def completionWord (seq : BitVec 32) (tag status : Nat) : Word :=
  BitVec.ofNat 64 (seq.toNat * 2 ^ 32 + tag % 64 * 16 + status % 16)

/-- The arrival that a completion word makes at the thread that issued the operation (R219, R271). -/
def wordLanding (t : Thread) (engine reg : Nat) (w : Word) : Landing :=
  { tid := t.id, reg := reg, vec := false, value := w.setWidth 1024, cap := 0, src := fsrcWord true false reg t.fabno,
    sender := (1, engine), window := (1, engine), own := false, refused := false, arr := 0 }

/-- The completion words of a thread that wait for a landing-buffer entry, by the order of their completions: copies, retraces,
plan parts. -/
def wordsWaiting (s : State) (tid : Nat) : List Nat :=
  ((s.core (coreOf tid)).copies.filterMap fun r => if r.tid == tid && r.state == .landing then some r.ended else none) ++
  (s.retraces.filterMap fun r => if r.tid == tid && r.phase == 2 then some r.ended else none) ++
  s.vds.flatMap fun e => e.2.plans.flatMap fun p => match p.2.running with
    | none => []
    | some f => f.parts.filterMap fun x => if x.phase == 1 && p.2.members[x.pos]? == some tid then some x.ended else none

/-- Land the completion word of the operation that ended at `ended` in a register of the issuing thread, after those of earlier
completions (R271); false where one of them still waits or no landing-buffer entry is free (R215). A retired thread's is
discarded (R223). -/
def State.landWord (s : State) (engine tid reg ended : Nat) (w : Word) : State × Bool :=
  let t := s.thread tid
  if !t.live then (s, true)
  else if (wordsWaiting s tid).any fun n => n < ended then (s, false)
  else match s.arrive (wordLanding t engine reg w) with
    | (s', .turnedAway) => (s', false)
    | (s', .landed) => (s', true)
    | (s', .held) => (s', true)

/-! ### Bytes of engine operands -/

/-- The bytes at these locations, or none at an uncorrectable error. -/
def State.gatherBytes (s : State) (locs : List Nat) : Option (List Byte) :=
  if locs.any fun l => s.bad l 1 then none else some (locs.map (memRead s.mem))

/-- Runs of consecutive locations with their bytes, cut at multiples of `n`. -/
def byteRuns (n : Nat) : List (Nat × Byte) → List (Nat × List Byte)
  | [] => []
  | (l, b) :: rest => match byteRuns n rest with
    | (l', bs) :: rs => if l + 1 = l' && l' % n != 0 then (l, b :: bs) :: rs else (l, [b]) :: (l', bs) :: rs
    | [] => [(l, [b])]

/-- Write runs one after another; false where one was refused. -/
def writeRuns (rs : List (Nat × List Byte)) (s : State) : State × Bool :=
  rs.foldl (fun (s, ok) (l, b) =>
    let (s', o) := s.writeLoc l b
    (s', ok && o)) (s, true)

/-- An engine's write of bytes at their locations: what a bad unit refuses is not applied, and reported (R187, R443). -/
def State.engWrite (s : State) (vd : Nat) (locs : List Nat) (bs : List Byte) : State × Bool :=
  (byteRuns 64 (locs.zip bs)).foldl (fun (s, ok) (l, b) =>
    if s.canWrite l b.length then ((s.writeLoc l b).1, ok)
    else
      let s := s.countUe vd (bytesAt l b.length)
      let (s', _) := writeRuns (byteRuns 8 (b.zipIdx.map fun (x, i) => (l + i, x))) s
      (s', false)) (s, true)

/-- Give each of these locations an undefined byte; a bad code unit that they cover only in part stays as it is (R187, R443). -/
def State.scramble (s : State) (locs : List Nat) : State :=
  let bs := freeBytes s.free locs.length
  let s := (byteRuns 64 (locs.zip bs)).foldl (fun s (l, b) =>
    if s.canWrite l b.length then s.rawWrite l b
    else (byteRuns 8 (b.zipIdx.map fun (x, i) => (l + i, x))).foldl (fun s (m, c) => if s.canWrite m c.length then s.rawWrite m c else s) s) s
  { s with free := s.free + locs.length }

/-- Locations of `n` bytes from an address, or none where one does not translate or lies in another window than the first
(R170). -/
def engLocs (s : State) (gc vd : Nat) (r w : Bool) (va n : Nat) : Option (List Nat) :=
  (piecesOf s gc vd va n).foldr (fun (lo, len) acc =>
    match acc, if winOf lo = winOf va then engResolve s gc vd r w lo else none with
    | some ls, some l => some ((List.range len).map (fun i => reached s gc vd (lo + i) (l + i)) ++ ls)
    | _, _ => none) (some [])

/-- An address in a peer-package window (R170). -/
def isPeer (va : Nat) : Bool := 3 * 2 ^ 50 ≤ va

/-- A peer-package address whose package no route reaches (R458). -/
def unreachable (s : State) (gc vd va : Nat) : Bool :=
  isPeer va && match s.named (pkgOf gc) ((va - 3 * 2 ^ 50) / 2 ^ 44) with
    | none => false
    | some q => (s.vd (vdKey q vd)).isVd && q != pkgOf gc && !reachable s vd (pkgOf gc) q

/-! ### Order against the issuing thread (R230, R234, R239) -/

/-- An engine access may be made: no acquire of the issuing thread before the operation is outstanding, no earlier value of it
where the engine writes, and no earlier access of it to these bytes. -/
def engClear (s : State) (tid id : Nat) (locs : List Nat) (write : Bool) : Bool :=
  (s.core (coreOf tid)).port.all fun a =>
    !(a.tid == tid && a.id < id && a.kind != .gath) ||
    !(a.acq || (write && a.valuePending) || a.parts.any fun p => locs.any p.covers)

/-! ### Cases held for the host (R442) -/

def nsMax : Nat := 1000000

/-- Hold a case for the host for at most 1,000,000 ns, under the next answer token. -/
def State.openCase (s : State) (fn pkg : Nat) (kind : CaseKind) : State :=
  { s with token := s.token + 1,
           cases := s.cases ++ [⟨s.token, fn, kind, s.time pkg + nsMax, none⟩] }

/-! ### Walks of engines (R409, R410) -/

/-- The pages of a VD that an engine operation's access misses, and whose walks fail: VD key, page, address, and whether for want of
a right. -/
def engMissed (s : State) (gc vd : Nat) (r w : Bool) (va len : Nat) : List (Nat × Nat × Nat × Bool) :=
  (piecesOf s gc vd va len).filterMap fun p => match resolve s gc vd [] r w false p.1 with
    | .miss vk page => match walk s vk page with
      | none => some (vk, page, p.1, false)
      | some l => if (r && !l.r) || (w && !l.w) then some (vk, page, p.1, true) else none
    | _ => none

/-- An operation's failed walk enters the miss table, or joins the one that is there, in host-assisted mode: a type 19 event is posted
and the entry is held for the host (R409, R410). A full table lets it wait. -/
def holdWalk (op gc : Nat) (s : State) (x : Nat × Nat × Nat × Bool) : State :=
  let r := s.routerOf gc
  let (vk, page, va, perm) := x
  let add (m : Miss) : Miss := if m.ops.contains op then m else { m with ops := m.ops ++ [op] }
  if (s.router r).misses.any fun m => m.vk == vk && m.page == page then
    s.modRouter r fun y => { y with misses := y.misses.map fun m => if m.vk == vk && m.page == page then add m else m }
  else if (s.router r).misses.length < 32 then
    let tok := s.token
    let s := postCp s vk 19 0 va ((if perm then 1 else 0) + tok % 2 ^ 32 * 2 ^ 32)
    (s.openCase (fnOfVd vk) (vk / 16) (.walk r vk page)).modRouter r fun y =>
      { y with misses := y.misses ++ [⟨vk, page, false, false, false, [], some tok, false, false, perm, va, [op]⟩] }
  else s

/-- An operation's walks at a router are over: it waits for none, and what the host answered of them is gone. -/
def State.forgetAt (op : Nat) (s : State) (r : Nat) : State :=
  let y := s.router r
  if y.fails.all (fun f => f.1 != op) && y.misses.all (fun m => !m.ops.contains op) then s
  else s.modRouter r fun y =>
    { y with fails := y.fails.filter fun f => f.1 != op,
             misses := y.misses.map fun m => { m with ops := m.ops.filter fun o => o != op } }

def State.forgetWalks (s : State) (op gc : Nat) : State := s.forgetAt op (s.routerOf gc)
def State.dropWalks (s : State) (op : Nat) : State := s.routers.foldl (fun s e => s.forgetAt op e.1) s

/-- The accesses of an engine operation to some ranges: core, VD, whether it reads, whether it writes, first byte, length. The caches
take what walks find; a walk that fails in host-assisted mode holds the operation until the host has answered (R409, R410; log entry
94). -/
def State.withWalks (s : State) (op : Nat) (rs : List (Nat × Nat × Bool × Bool × Nat × Nat)) (k : State → State) : State :=
  let held := rs.flatMap fun (gc, vd, r, w, va, len) => (engMissed s gc vd r w va len).filterMap fun x =>
    if (s.vd x.1).rmode.getLsbD 0 && !(s.router (s.routerOf gc)).fails.contains (op, x.1, x.2.1) then some (gc, x) else none
  match held with
  | [] =>
    rs.foldl (fun s x => s.forgetWalks op x.1) (k (rs.foldl (fun s (gc, vd, _, _, va, len) => engFillRanges s gc vd [(va, len)]) s))
  | _ => held.foldl (fun s (gc, x) => holdWalk op gc s x) s

/-! ### Tag instructions (R275) -/

def execTwany (sw : Bool) (d : SReg) (a : Src) (s : State) : Out := .next (tagWaitForm sw 0 d a s)
def execTwall (sw : Bool) (d : SReg) (a : Src) (s : State) : Out := .next (tagWaitForm sw 1 d a s)
def execTffr (sw : Bool) (d : SReg) (a : Src) (s : State) : Out := .next (tagWaitForm sw 2 d a s)
def execTclr (sw : Bool) (a : Src) (s : State) : Out :=
  .next (s.withRegs (srcRegs a) fun s => (s.clearTags s.gc s.thr.vk (s.src a)).finish sw)

end Sys2Proof.Machine
end

