-- ==== Sys2Proof/Machine/Copy.lean ====
section
/-! DEFINITION. The copy engine: requests, dispatch, elements, completion, cancel and query (R263 to R274), and GATHQ
(R277). -/

namespace Sys2Proof.Machine

/-! ### Number formats of fat pointers (R78) -/

inductive Num where
  | int (signed : Bool) (w : Nat)
  | flt (f : Fmt)
  deriving DecidableEq, Repr

/-- The element kind of a format; BPIp is a signed integer of p bits, bytes and scale arrays unsigned bytes. -/
def numOf (fmt : Nat) : Num :=
  if bpiP fmt != 0 then .int true (bpiP fmt)
  else match fmt with
    | 0x01 => .int true 8
    | 0x03 => .int true 16
    | 0x04 => .int false 16
    | 0x05 => .int true 32
    | 0x06 => .int false 32
    | 0x07 => .int true 64
    | 0x08 => .flt fF16
    | 0x09 => .flt fBf16
    | 0x0A => .flt fF32
    | 0x0B => .flt fE4m3
    | 0x0C => .flt fE5m2
    | _ => .int false 8

def Num.lo : Num → Int
  | .int true w => -(2 ^ (w - 1) : Nat)
  | _ => 0

def Num.hi : Num → Int
  | .int true w => (2 ^ (w - 1) : Nat) - 1
  | .int false w => (2 ^ w : Nat) - 1
  | .flt _ => 0

/-- A source element: an integer, or an exact value. -/
inductive Elem where
  | int (x : Int)
  | val (v : Val)
  deriving DecidableEq, Repr

/-- Into an unscaled destination element (R67 to R69, R76). -/
def Num.store (n : Num) (rm : Rm) (sat : Bool) (u : Nat) (x : Elem) : Nat :=
  match n, x with
  | .int sg w, .int i => ofSigned w (if sat then saturate i (Num.int sg w).lo (Num.int sg w).hi else i)
  | .int sg w, .val v => ofSigned w (toIntSat rm u (Num.int sg w).lo (Num.int sg w).hi v)
  | .flt f, .int i => f.round rm sat u (ofInt i)
  | .flt f, .val v => f.round rm sat u v

def Elem.toVal : Elem → Val
  | .int x => ofInt x
  | .val v => v

/-- An element of a scaled operand under its exponent (R73). -/
def scaleElem (e : Nat) (v : Val) : Val :=
  if e = 0 then .fin false 0 0 else if e = 255 then .nan else v.scale ((e : Int) - 127)

/-! ### Operands (R80) -/

/-- Elements of one unit of work: 32 where a BPI or scaled operand takes part, else one. -/
def ptrScaled (p : Word) : Bool := ptrBlog p != 0
def inBlocks (p : Word) : Bool := bpiP (ptrFmt p) != 0 || ptrScaled p

/-- Byte offset of element index `e` (a multiple of 32 for BPI). -/
def elemOff (p : Word) (e : Int) : Int :=
  if bpiP (ptrFmt p) != 0 then 4 * bpiP (ptrFmt p) * (e / 32) else e * fmtSize (ptrFmt p)

/-- The bytes of `n` elements from index `e` on, as offset and length of each run: `planes` words of every BPI block. -/
def unitRuns (p : Word) (e : Int) (n planes : Nat) : List (Int × Nat) :=
  let b := bpiP (ptrFmt p)
  if b != 0 then
    (List.range ((e + n + 31) / 32 - e / 32).toNat).map fun (g : Nat) => (elemOff p e + ((4 * b * g : Nat) : Int), 4 * planes)
  else [(elemOff p e, n * fmtSize (ptrFmt p))]

/-- Address of an offset from a pointer. -/
def ptrAt (p : Word) (off : Int) : Nat := (p.setWidth 52 + BitVec.ofInt 52 off).toNat

/-- Element `j` of a BPI unit, from the bytes of its plane words; none where one that it needs is missing (R70, R71). -/
def bpiAt (planes : Nat) (bs : List (Option Byte)) (j : Nat) : Option Int :=
  let at_ (i : Nat) : Option Byte := bs.getD ((j / 32 * planes + i) * 4 + j % 32 / 8) none
  if (List.range planes).all fun i => (at_ i).isSome then
    some (bpiCode ((List.range planes).map fun i => ((at_ i).getD 0).toNat / 2 ^ (j % 8)) 0)
  else none

/-- The source elements of a unit, from its bytes and scale bytes; none where a byte that the element depends on is missing
(R71, R73, R76, R262). The elements of a BPI or scaled source come in runs of 32, each of which begins a plane group and a scale
block (R265). -/
def unitElems (p : Word) (n : Nat) (bs scales : List (Option Byte)) : List (Option Elem) :=
  let f := ptrFmt p
  let e (j : Nat) : Option Nat := (scales.getD (j / 2 ^ min (ptrBlog p) 5) none).map BitVec.toNat
  (List.range n).map fun j =>
    if bpiP f != 0 then
      let k := bpiP f - ptrQ p
      match bpiAt (ptrQ p) bs j, e j with
      | none, _ => none
      | some c, some e => if ptrScaled p then some (.val (scaledVal c e k)) else some (.int (c * (2 ^ k : Nat)))
      | some c, none => if ptrScaled p then none else some (.int (c * (2 ^ k : Nat)))
    else
      let z := fmtSize f
      let xs := (bs.drop (z * j)).take z
      if xs.any Option.isNone then none
      else
        let x := ofBytes (xs.map fun b => b.getD 0)
        let v : Elem := match numOf f with
          | .int sg w => .int (if sg then toSigned w x else x)
          | .flt g => .val (g.decode x)
        if ptrScaled p then (e j).map fun e => .val (scaleElem e v.toVal) else some v

/-- Bytes of BPI codes: a byte of a plane word is none where a code of its eight is (R70). -/
def bpiBytes (w : Nat) (cs : List (Option Int)) : List (Option Byte) :=
  ((List.range (cs.length / 32)).map fun g =>
    let c := (cs.drop (32 * g)).take 32
    (unelems 4 (bpiPlanes w (c.map fun x => x.getD 0))).zipIdx.map fun (b, i) =>
      if (((c.drop (8 * (i % 4))).take 8).any Option.isNone) then none else some b).flatten

/-- Quantize a unit as one block with a fresh scale: the codes and the exponent; none where an element is missing (R75). -/
def quantizeUnit (w : Nat) (rm : Rm) (us : List Nat) (xs : List (Option Elem)) : List (Option Int) × Option Nat :=
  if xs.any Option.isNone then (xs.map fun _ => none, none)
  else
    let (e, codes) := quantize w rm us (xs.map fun y => (y.getD (.int 0)).toVal)
    (codes.map some, some e)

/-- The destination bytes and scale bytes of a unit; a byte is none where the spec leaves it open: it depends on a missing one,
or a scaled floating format has no rule for its fresh scales (log entry 20). The unit is one block of R75, whose exponent stands in
each of its scale bytes, and a BPI destination without scales takes its elements as integers of p bits by R68 and R69 (log entry
70). -/
def unitStore (p : Word) (rm : Rm) (sat : Bool) (us : List Nat) (xs : List (Option Elem)) (nscales : Nat) :
    List (Option Byte) × List (Option Byte) :=
  let f := ptrFmt p
  let each (w : Nat) (g : Elem → Nat → Nat) : List (Option Byte) := (xs.zipIdx.map fun (x, j) => match x with
    | none => List.replicate (w / 8) none
    | some x => (toBytes (w / 8) (g x (us.getD j 0))).map some).flatten
  match numOf f with
  | .int sg w =>
    if ptrScaled p then
      let q := quantizeUnit w rm us xs
      (if bpiP f != 0 then bpiBytes w q.1 else q.1.map fun x => x.map (BitVec.ofInt 8),
       List.replicate nscales (q.2.map (BitVec.ofNat 8)))
    else if bpiP f != 0 then
      (bpiBytes w (xs.zipIdx.map fun (x, j) => x.map fun x => toSigned w ((Num.int sg w).store rm sat (us.getD j 0) x)), [])
    else (each w fun x u => (Num.int sg w).store rm sat u x, [])
  | .flt g =>
    if ptrScaled p then (List.replicate (xs.length * (g.bits / 8)) none, List.replicate nscales none)
    else (each g.bits fun x u => (Num.flt g).store rm sat u x, [])

/-! ### The request at issue (R263 to R268) -/

def w0Opn (w : Word) : Nat := field w 63 60
def w0Ord (w : Word) : Bool := bitOf w 59
def w0Can (w : Word) : Bool := bitOf w 58
def w0Pin (w : Word) : Bool := bitOf w 57
def w0Pb (w : Word) : Bool := bitOf w 56
def w0Land (w : Word) : Bool := bitOf w 55
def w0Rm (w : Word) : Nat := field w 54 52
def w0Sat (w : Word) : Bool := bitOf w 51
def w0Cls (w : Word) : Nat := field w 49 48
def w0Tag (w : Word) : Nat := field w 47 42
def w0Lreg (w : Word) : Nat := field w 41 36
def w0Len (w : Word) : Nat := field w 35 0

def rmOf (n : Nat) : Rm :=
  match n with
  | 1 => .rz
  | 2 => .ru
  | 3 => .rd
  | 4 => .rs
  | _ => .rne

/-- Step 2 of R266: word 0. -/
def w0Bad (w : Word) : Bool :=
  4 < w0Opn w || 4 < w0Rm w || bitOf w 50 || w0Len w == 0 || (w0Lreg w != 0 && !w0Land w) || (w0Land w && 31 < w0Lreg w) ||
  (w0Pin w && !w0Pb w) || ((w0Rm w != 0 || w0Sat w) && w0Opn w != 1) || (w0Rm w == 4 && w0Pb w)

/-- The shape of a request: counts and strides in elements, fill pattern, scale pointers (R265). -/
structure CopyShape where
  len : Nat
  n1 : Nat
  n2 : Nat
  s1 : Int
  s2 : Int
  d1 : Int
  d2 : Int
  fill : Word
  sscale : Word
  dscale : Word
  deriving DecidableEq, Repr

/-- The inline row form (R265). -/
def inlineShape (w0 w1 w3 : Word) : CopyShape :=
  ⟨w0Len w0, max 1 (field w3 63 48), 1, field w3 47 24, 0, field w3 23 0, 0, w1, 0, 0⟩

/-- The parameter block (R265). -/
def blockShape (w0 : Word) (bs : List Byte) : CopyShape :=
  let dw (o : Nat) : Word := BitVec.ofNat 64 (ofBytes ((bs.drop o).take 8))
  ⟨w0Len w0, field (dw 16) 31 0, field (dw 16) 63 32, (dw 24).toInt, (dw 32).toInt, (dw 40).toInt, (dw 48).toInt, dw 56, dw 0,
   dw 8⟩

/-- LEN and every pitch are multiples of 32 where an operand is BPI or scaled (R265). -/
def CopyShape.in32 (h : CopyShape) (fill : Bool) (w1 w2 : Word) : Bool :=
  (!(inBlocks w2 || (!fill && inBlocks w1))) ||
  (h.len % 32 == 0 && (fill || !inBlocks w1 || (h.s1 % 32 == 0 && h.s2 % 32 == 0)) &&
    (!inBlocks w2 || (h.d1 % 32 == 0 && h.d2 % 32 == 0)))

/-- Step 3 of R266: the word that fails, if any. An inline LEN or pitch that R265 does not allow counts as a pointer that fails, with
word 0 or word 3 in `ctl.tval` (log entry 95). -/
def ptrsBad (w0 w1 w2 w3 : Word) : Option Word :=
  let f1 := ptrFmt w1
  let f2 := ptrFmt w2
  let h := inlineShape w0 w1 w3
  let blocks : Option Word :=
    if !w0Pb w0 && !h.in32 (w0Opn w0 == 2) w1 w2 then some (if h.len % 32 != 0 then w0 else w3) else none
  match w0Opn w0 with
  | 1 =>
    if !ptrOk w1 || f1 == 0 || f1 == 0x20 then some w1
    else if !ptrOk w2 || f2 == 0 || f2 == 0x20 then some w2
    else if f1 == f2 || ((ptrScaled w1 || ptrScaled w2) && !w0Pb w0) then some w2
    else blocks
  | 2 => if !ptrOk w2 || bpiP f2 != 0 || f2 == 0x20 then some w2 else blocks
  | _ =>
    if !ptrOk w1 then some w1
    else if !ptrOk w2 then some w2
    else if f1 != f2 || ptrBlog w1 != ptrBlog w2 || ptrRpl w1 != 0 || ptrRpl w2 != 0 then some w2
    else blocks

/-- Step 4 of R266: the misaligned address, if any. -/
def copyMisaligned (w0 w1 w2 w3 : Word) : Option Word :=
  let off (p : Word) : Bool := ptrVa p % ptrAlign p != 0
  if w0Opn w0 != 2 && off w1 then some (BitVec.ofNat 64 (ptrVa w1))
  else if off w2 then some (BitVec.ofNat 64 (ptrVa w2))
  else if w0Pb w0 && ptrVa w3 % 64 != 0 then some (BitVec.ofNat 64 (ptrVa w3))
  else none

/-- First and last byte that a request can touch of an operand, of which it takes `planes` words of a BPI block. -/
def spanOf (p : Word) (planes len n1 n2 : Nat) (s1 s2 : Int) : Nat × Nat :=
  let a := s1 * ((n1 : Int) - 1)
  let b := s2 * ((n2 : Int) - 1)
  let lo := min 0 a + min 0 b
  let hi := max 0 a + max 0 b
  let bpi := bpiP (ptrFmt p)
  let unit := if bpi != 0 then 4 * bpi * ((len + 31) / 32 - 1) + 4 * planes else len * fmtSize (ptrFmt p)
  (ptrAt p (elemOff p lo), ptrAt p (elemOff p hi + unit - 1))

/-- Plane words that a request reads of a source block. -/
def srcPlanes (w0 w1 : Word) : Nat := if w0Opn w0 = 1 then ptrQ w1 else bpiP (ptrFmt w1)

def srcSpan (w0 w1 : Word) (h : CopyShape) : Nat × Nat := spanOf w1 (srcPlanes w0 w1) h.len h.n1 h.n2 h.s1 h.s2
def dstSpan (w2 : Word) (h : CopyShape) : Nat × Nat := spanOf w2 (bpiP (ptrFmt w2)) h.len h.n1 h.n2 h.d1 h.d2

/-- The locks of a request: source for read, destination for write; a fill's destination only (R268). -/
def copyLocks (vk owner : Nat) (w0 w1 w2 : Word) (h : CopyShape) : List Lock :=
  let s := srcSpan w0 w1 h
  let d := dstSpan w2 h
  (if w0Opn w0 = 2 then [] else [⟨vk, s.1, s.2, false, owner⟩]) ++ [⟨vk, d.1, d.2, true, owner⟩]

/-- Requests of a core that stand in the FIFO. -/
def fifoLen (c : Core) : Nat := (c.copies.filter fun r => r.state == .queued).length

/-- CPY and CPYNB (R266, R268). -/
def copyForm (sw nb : Bool) (d a : SReg) (s : State) : State :=
  s.withRegs (sregs a 4) fun s =>
    let w0 := s.thr.getS a
    let w1 := s.thr.getS (sregAt a 1)
    let w2 := s.thr.getS (sregAt a 2)
    let w3 := s.thr.getS (sregAt a 3)
    if w0Bad w0 then s.trap cFmtbad w0
    else match ptrsBad w0 w1 w2 w3 with
    | some w => s.trap cFmtbad w
    | none => match copyMisaligned w0 w1 w2 w3 with
    | some x => s.trap cAlign x
    | none =>
      let c := s.core s.gc
      let vk := s.thr.vk
      let locks := if w0Pb w0 then [] else copyLocks vk s.seq w0 w1 w2 (inlineShape w0 w1 w3)
      if 16 ≤ fifoLen c || !locksFit c locks.length then
        if nb then (s.writeS d (BitVec.allOnes 64)).finish sw else s.bubble
      else
        let h := inlineShape w0 w1 w3
        let r := s.takeDraws (rmOf (w0Rm w0)) (h.len * h.n1)
        let seq := tblGet c.copySeq vk 0 + 1
        let req : CopyReq :=
          { id := s.seq, seq := seq, vk := vk, tid := s.thr.id, w0 := w0, w1 := w1, w2 := w2, w3 := w3, rnd := r.2,
            state := .queued, todo := [], dsts := [], undef := [], status := stOk, ended := 0, spans := [], paid := 0 }
        let s := r.1.bump.modCore s.gc fun c =>
          { c with copies := c.copies ++ [req], copySeq := tblPut c.copySeq vk seq, locks := c.locks ++ locks }
        (s.writeS d (if w0Can w0 then BitVec.ofNat 64 (2 ^ 32 + seq.toNat) else 0)).finish sw

def execCpy (sw : Bool) (d a : SReg) (s : State) : Out := .next (copyForm sw false d a s)
def execCpynb (sw : Bool) (d a : SReg) (s : State) : Out := .next (copyForm sw true d a s)

/-! ### Dispatch (R265 to R269) -/

/-- Take a parameter block: from the cache for PIN, else from memory; a PIN request fills the cache, the least recently used
of a VD's eight entries making room (R269). -/
def takeParam (c : Core) (vk : Nat) (addr : Addr) (pin : Bool) (mem : Option (List Byte)) : Option (List Byte) × Core :=
  if !pin then (mem, c)
  else match c.params.find? fun p => p.vk = vk && p.addr = addr with
    | some p => (some p.bytes, { c with params := c.params.erase p ++ [p] })
    | none => match mem with
      | none => (none, c)
      | some bs =>
        let mine := c.params.filter fun p => p.vk == vk
        let ps := match mine with
          | p :: _ => if 8 ≤ mine.length then c.params.erase p else c.params
          | [] => c.params
        (some bs, { c with params := ps ++ [⟨vk, addr, bs⟩] })

/-- The checks of a parameter block (R265). -/
def blockOk (w0 w1 w2 : Word) (h : CopyShape) : Bool :=
  let okp (p : Word) (need : Bool) : Bool := if p == 0 then !need else ptrFmt p == 0x20 && ptrOk p
  let conv := w0Opn w0 == 1
  okp h.sscale (conv && ptrScaled w1) && okp h.dscale (conv && ptrScaled w2) && 1 ≤ h.n1 && 1 ≤ h.n2 &&
  h.in32 (w0Opn w0 == 2) w1 w2

/-- A piece of a request: elements of one row, from an element index of the source and of the destination on, after `before` other
elements in ascending order. -/
structure CopyPiece where
  src : Int
  dst : Int
  before : Nat
  n : Nat
  deriving DecidableEq, Repr

/-- The pieces of a request in ascending order: single elements, or 32 where a BPI or scaled operand takes part (R80, R265). -/
def copyPieces (w0 w1 w2 : Word) (h : CopyShape) : List CopyPiece :=
  let m := if inBlocks w2 || (w0Opn w0 != 2 && inBlocks w1) then 32 else 1
  (List.range h.n2).flatMap fun (i2 : Nat) => (List.range h.n1).flatMap fun (i1 : Nat) =>
    (List.range (ceilDiv h.len m)).map fun (k : Nat) =>
      ⟨(m * k : Nat) + (i1 : Int) * h.s1 + (i2 : Int) * h.s2, (m * k : Nat) + (i1 : Int) * h.d1 + (i2 : Int) * h.d2,
       (i2 * h.n1 + i1) * h.len + m * k, min m (h.len - m * k)⟩

/-- Pieces gathered by the block of 2^b destination elements in which they lie. -/
def byBlock (b : Nat) : List CopyPiece → List (List CopyPiece)
  | [] => []
  | u :: rest =>
    let k (v : CopyPiece) : Int := v.dst / (2 ^ b : Nat)
    let gs := byBlock b rest
    match gs.find? fun g => g.head?.map k == some (k u) with
    | some g => (u :: g) :: gs.erase g
    | none => [u] :: gs

/-- The units of a request: its pieces, but for a scaled destination of more than 32 elements a block, where those of one block are
one unit (R74, R75). -/
def copyUnits (w0 w1 w2 : Word) (h : CopyShape) : List (List CopyPiece) :=
  let us := copyPieces w0 w1 w2 h
  if w0Opn w0 = 1 && 5 < ptrBlog w2 then byBlock (ptrBlog w2) us else us.map fun u => [u]

/-- The scale bytes of `n` elements from index `e` on: offset and count (R74). -/
def scaleRun (p : Word) (e : Int) (n : Nat) : Int × Nat :=
  let b : Int := (2 ^ ptrBlog p : Nat)
  (e / b, ((e + n - 1) / b - e / b + 1).toNat)

/-- The ranges of a unit, as first address and length: source, its scales, destination, its scales. -/
structure UnitRanges where
  src : List (Nat × Nat)
  srcScales : List (Nat × Nat)
  dst : List (Nat × Nat)
  dstScales : List (Nat × Nat)
  deriving DecidableEq, Repr

def unitRanges (w0 w1 w2 : Word) (h : CopyShape) (u : List CopyPiece) : UnitRanges :=
  let at_ (p : Word) (r : Int × Nat) : Nat × Nat := (ptrAt p r.1, r.2)
  { src := if w0Opn w0 = 2 then [] else u.flatMap fun p => (unitRuns w1 p.src p.n (srcPlanes w0 w1)).map (at_ w1),
    srcScales := if w0Opn w0 = 1 && ptrScaled w1 then u.map fun p => at_ h.sscale (scaleRun w1 p.src p.n) else [],
    dst := u.flatMap fun p => (unitRuns w2 p.dst p.n (bpiP (ptrFmt w2))).map (at_ w2),
    dstScales := if w0Opn w0 = 1 && ptrScaled w2 then (u.take 1).map fun p => at_ h.dscale (scaleRun w2 p.dst p.n) else [] }

/-- First and last addresses of what a request of a known shape uses: source, destination and scale arrays (R265). -/
def shapeSpans (w0 w1 w2 : Word) (h : CopyShape) : List (Nat × Nat) :=
  let scales (p q : Word) (d1 d2 : Int) : List (Nat × Nat) :=
    if w0Opn w0 = 1 && ptrScaled p then
      let b : Int := (2 ^ ptrBlog p : Nat)
      let a := d1 * ((h.n1 : Int) - 1)
      let c := d2 * ((h.n2 : Int) - 1)
      [(ptrAt q ((min 0 a + min 0 c) / b), ptrAt q ((max 0 a + max 0 c + h.len - 1) / b))]
    else []
  (if w0Opn w0 = 2 then [] else [srcSpan w0 w1 h]) ++ [dstSpan w2 h] ++ scales w1 h.sscale h.s1 h.s2 ++ scales w2 h.dscale h.d1 h.d2

/-- First and last addresses of what a request still uses: those of its shape; its parameter block while it is queued, whose contents
give the rest (R265, R322, R415). -/
def CopyReq.uses (r : CopyReq) : List (Nat × Nat) :=
  match r.state with
  | .queued =>
    if w0Pb r.w0 then [((r.w3.setWidth 52).toNat, (r.w3.setWidth 52).toNat + 63)]
    else shapeSpans r.w0 r.w1 r.w2 (inlineShape r.w0 r.w1 r.w3)
  | .running => r.spans
  | .landing => []
  | .settled => []

/-- Locations of an operand's runs, or none; and whether one fails otherwise than for want of a route. -/
def runLocs (s : State) (gc vd : Nat) (r w : Bool) (ok : Nat → Bool) (runs : List (Nat × Nat)) : Option (List Nat) × Bool :=
  runs.foldr (fun (va, n) (acc, bad) =>
    match (if ok va then engLocs s gc vd r w va n else none), acc with
    | some ls, some rest => (some (ls ++ rest), bad)
    | some _, none => (none, bad)
    | none, _ => (none, bad || !(ok va && unreachable s gc vd va))) (some [], false)

/-- Resolve one unit of a request: the unit where all of it translates, and whether it fails with XLATE. -/
def copyElem (s : State) (gc vd : Nat) (req : CopyReq) (h : CopyShape) (u : List CopyPiece) : Option CopyElem × Bool :=
  let opn := w0Opn req.w0
  let x := unitRanges req.w0 req.w1 req.w2 h u
  let local_ (va : Nat) : Bool := !isPeer va
  let peer (va : Nat) : Bool := isPeer va
  let src := runLocs s gc vd true false (if opn = 3 then peer else local_) x.src
  let dst := runLocs s gc vd false true (if opn = 4 then peer else local_) x.dst
  let ss := runLocs s gc vd true false local_ x.srcScales
  let ds := runLocs s gc vd false true local_ x.dstScales
  let got := if opn = 2 then some (((toBytes 8 h.fill.toNat).take (fmtSize (ptrFmt req.w2))).map some) else none
  (match src.1, dst.1, ss.1, ds.1 with
    | some a, some b, some c, some d =>
      some ⟨a, c, b, d, (u.map fun p => p.n).sum, u.flatMap fun p => (req.rnd.drop p.before).take p.n, got⟩
    | _, _, _, _ => none,
   src.2 || dst.2 || ss.2 || ds.2)

/-- Destination bytes that coincide with one another or with a source byte, with the whole of a scaled block in which one does: its
exponent depends on each of its elements (R75, R270). -/
def overlapping (es : List CopyElem) : List Nat :=
  let ds := (es.map fun e => e.dst ++ e.dstScales).flatten
  let ss := (es.map fun e => e.src ++ e.srcScales).flatten
  let hit := ds.filter fun l => 1 < ds.count l || ss.contains l
  hit ++ es.flatMap fun e => if !e.dstScales.isEmpty && e.dst.any hit.contains then e.dst ++ e.dstScales else []

/-- Change one request of a core. -/
def State.modCopy (s : State) (gc id : Nat) (f : CopyReq → CopyReq) : State :=
  s.modCore gc fun c => { c with copies := c.copies.map fun r => if r.id = id then f r else r }

/-- A request runs with nothing to do but fail: its destination is undefined (R262). -/
def failCopy (gc id status : Nat) (dsts : List Nat) (s : State) : State :=
  s.modCopy gc id fun r => { r with state := .running, todo := [], dsts := dsts, undef := dsts, status := worse r.status status }

/-- The bytes of a range that a VD may write, whether or not a route leads to them now: those of a package that is out of reach are
where that package's own tables put them. -/
def writableLocs (s : State) (gc vd va n : Nat) : List Nat :=
  let there : Nat × Nat :=
    if unreachable s gc vd va then
      match s.named (pkgOf gc) ((va - 3 * 2 ^ 50) / 2 ^ 44) with
      | some q => (q * 2 ^ 14, va % 2 ^ 44)
      | none => (gc, va)
    else (gc, va)
  (piecesOf s there.1 vd there.2 n).flatMap fun (lo, len) => (engLocs s there.1 vd false true lo len).getD []

/-- The destination of a request: the bytes that a failure leaves undefined, scales included (R262). -/
def destLocs (s : State) (gc : Nat) (req : CopyReq) (h : CopyShape) : List Nat :=
  (copyUnits req.w0 req.w1 req.w2 h).flatMap fun u =>
    let x := unitRanges req.w0 req.w1 req.w2 h u
    (x.dst ++ x.dstScales).flatMap fun r => writableLocs s gc (req.vk % 16) r.1 r.2

/-- Begin a request whose shape is known: windows and translation of every byte (R266, R267). -/
def startCopy (s : State) (gc : Nat) (req : CopyReq) (h : CopyShape) : State :=
  let es := (copyUnits req.w0 req.w1 req.w2 h).map (copyElem s gc (req.vk % 16) req h)
  let s := s.modCopy gc req.id fun r => { r with spans := shapeSpans req.w0 req.w1 req.w2 h }
  if es.any fun e => e.2 then failCopy gc req.id stXlate (destLocs s gc req h) s
  else if es.any fun e => e.1.isNone then failCopy gc req.id stRoutelost (destLocs s gc req h) s
  else
    let todo := es.filterMap fun e => e.1
    s.modCopy gc req.id fun r =>
      { r with state := .running, todo := todo, dsts := todo.flatMap fun e => e.dst ++ e.dstScales, undef := overlapping todo }

/-- The shape that a request has whatever its parameter block holds: its first row. -/
def rowShape (req : CopyReq) : CopyShape := ⟨w0Len req.w0, 1, 1, 0, 0, 0, 0, 0, 0, 0⟩

/-- The shape whose destination a block that fails its checks leaves undefined: a count of 0 stands for one row. -/
def CopyShape.covered (h : CopyShape) : CopyShape := { h with n1 := max 1 h.n1, n2 := max 1 h.n2 }

/-- The walks that beginning a request takes. -/
def copyWalks (gc : Nat) (req : CopyReq) (h : CopyShape) : List (Nat × Nat × Bool × Bool × Nat × Nat) :=
  (copyUnits req.w0 req.w1 req.w2 h).flatMap fun u =>
    let x := unitRanges req.w0 req.w1 req.w2 h u
    ((x.src ++ x.srcScales).map fun r => (gc, req.vk % 16, true, false, r.1, r.2)) ++
    (x.dst ++ x.dstScales).map fun r => (gc, req.vk % 16, false, true, r.1, r.2)

/-- A request with PB reads its block, from the parameter cache where PIN finds it there, and begins; its spans are locked then
(R262, R265, R268, R269). -/
def startWithBlock (gc : Nat) (req : CopyReq) (addr : Addr) (s : State) : State :=
  let vd := req.vk % 16
  let kept := w0Pin req.w0 && (s.core gc).params.any fun p => p.vk = req.vk && p.addr = addr
  match if kept then some [] else engLocs s gc vd true false addr.toNat 64 with
  | none => failCopy gc req.id stXlate (destLocs s gc req (rowShape req)) s
  | some locs =>
    if !engClear s req.tid req.id locs false then s
    else
      let (bs, c') := takeParam (s.core gc) req.vk addr (w0Pin req.w0) (s.gatherBytes locs)
      match bs with
      | none => failCopy gc req.id stMemue (destLocs s gc req (rowShape req)) (s.countUe vd locs)
      | some bs =>
        let h := blockShape req.w0 bs
        if !blockOk req.w0 req.w1 req.w2 h then
          failCopy gc req.id stFmtbad (destLocs s gc req h.covered) ((s.meets (some vd) locs).setCore gc c')
        else
          let locks := copyLocks req.vk req.id req.w0 req.w1 req.w2 h
          if !locksFit c' locks.length then s
          else s.withWalks req.id (copyWalks gc req h) fun s =>
            startCopy (((s.meets (some vd) locs).modCore gc fun c => { c with params := c'.params }).lock gc locks) gc req h

/-- A request leaves the FIFO: earlier ones of its VD have left, the VD's bucket at the copy engine allows it, and its team is not being
saved or discarded (R234, R239, R268, R365). -/
def execCopyDispatch (gc id : Nat) (s : State) : Out :=
  let c := s.core gc
  .next <| match c.copies.find? fun r => r.id = id && r.state == .queued with
    | none => s
    | some req =>
      let earlier := (c.copies.takeWhile fun r => r.id != id).any fun r => r.vk == req.vk && r.state == .queued
      if earlier || s.teamStopped (s.thread req.tid) || !s.mayAsk (arbKey 1 gc) (req.vk % 16) then s
      else if !w0Pb req.w0 then
        let h := inlineShape req.w0 req.w1 req.w3
        s.withWalks id (copyWalks gc req h) fun s => startCopy s gc req h
      else
        let addr := req.w3.setWidth 52
        s.withWalks id [(gc, req.vk % 16, true, false, addr.toNat, 64)] (startWithBlock gc req addr)

/-- PBINV: the entries whose block contains the address (R269). -/
def execPbinv (sw : Bool) (a : Src) (s : State) : Out :=
  .next (s.withRegs (srcRegs a) fun s =>
    let va := (s.src a).setWidth 52
    let vk := s.thr.vk
    (s.modCore s.gc fun c => { c with params := c.params.filter fun p =>
      !(p.vk == vk && p.addr.toNat / 64 == va.toNat / 64) }).finish sw)

/-! ### Elements and completion (R270 to R272) -/

/-- An ordered pair: both ORD and both local, or both remote to the same package (R272). -/
def orderedPair (a b : CopyReq) : Bool :=
  let remote (r : CopyReq) : Option Nat :=
    if w0Opn r.w0 = 3 then some (ptrVa r.w1 / 2 ^ 44) else if w0Opn r.w0 = 4 then some (ptrVa r.w2 / 2 ^ 44) else none
  a.tid == b.tid && w0Ord a.w0 && w0Ord b.w0 && remote a == remote b

/-- An earlier request of an ordered pair is still to complete. -/
def orderBlocks (c : Core) (req : CopyReq) : Bool :=
  (c.copies.takeWhile fun r => r.id != req.id).any fun r => orderedPair r req && (r.state == .queued || r.state == .running)

/-- The bytes that a unit writes: copied, or converted; none where one is undefined. -/
def elemOut (req : CopyReq) (e : CopyElem) (bs : List (Option Byte)) : List (Option Byte) × List (Option Byte) :=
  if w0Opn req.w0 = 1 then
    unitStore req.w2 (rmOf (w0Rm req.w0)) (w0Sat req.w0) e.rnd
      (unitElems req.w1 e.n (bs.take e.src.length) (bs.drop e.src.length)) e.dstScales.length
  else ((List.replicate (e.dst.length / max bs.length 1) bs).flatten, [])

/-- An element still to be read has source bytes among those that this one writes: only the overlapping destination bytes
are undefined, so no element that lies outside the overlap may take a byte that the request itself has written (R270). -/
def readFirst (todo : List CopyElem) (e : CopyElem) : Bool :=
  todo.any fun o => o.got.isNone && (o.src ++ o.srcScales).any fun l => e.dst.contains l || e.dstScales.contains l

/-- Bytes of these locations; one is none where it holds an uncorrectable error. -/
def State.gatherEach (s : State) (locs : List Nat) : List (Option Byte) :=
  locs.map fun l => if s.bad l 1 then none else some (memRead s.mem l)

/-- Write bytes to their locations; those that are none become undefined. -/
def State.writeEach (s : State) (vd : Nat) (locs : List Nat) (bs : List (Option Byte)) : State × Bool :=
  let s := s.scramble ((locs.zip bs).filterMap fun (l, b) => if b.isNone then some l else none)
  s.engWrite vd ((locs.zip bs).filterMap fun (l, b) => if b.isSome then some l else none) (bs.filterMap id)

/-- A unit's peer package can no longer be reached (R267, R458). -/
def peerLost (s : State) (gc vd : Nat) (locs : List Nat) : Bool :=
  locs.any fun l => isDram l && l / 2 ^ 38 != pkgOf gc && !reachable s vd (pkgOf gc) (l / 2 ^ 38)

/-- A request moves some bytes: those of a unit that it has started, else of new ones, which spend tokens in its class (R268, R392,
R396). What is left of them then; none while they wait. -/
def State.payCopy (s : State) (gc : Nat) (req : CopyReq) (bytes : Nat) : State × Option Nat :=
  if bytes ≤ req.paid then (s, some (req.paid - bytes))
  else
    let n := ceilDiv (bytes - req.paid) 64
    let (s, started) := s.askUnit (arbKey 1 gc) ⟨req.vk % 16, n, w0Cls req.w0, req.id⟩
    (s, if started then some (req.paid + 64 * n - bytes) else none)

/-- One unit of a running copy: its source is read, or its destination written, once its bytes may move (R239, R270). -/
def copyStep (s : State) (gc id k : Nat) : State :=
  let c := s.core gc
  match c.copies.find? fun r => r.id = id && r.state == .running with
  | none => s
  | some req => match req.todo[k]? with
    | none => s
    | some e =>
      let vd := req.vk % 16
      if peerLost s gc vd (e.src ++ e.dst) then failCopy gc id stRoutelost req.dsts s
      else match e.got with
        | none =>
          let locs := e.src ++ e.srcScales
          if !engClear s req.tid req.id locs false then s
          else
            let got := s.gatherEach locs
            (s.countUe vd locs).modCopy gc id fun r =>
              { r with todo := r.todo.set k { e with got := some got },
                       status := if got.any Option.isNone then worse r.status stMemue else r.status }
        | some got =>
          if orderBlocks c req || readFirst req.todo e || !engClear s req.tid req.id (e.dst ++ e.dstScales) true then s
          else match s.payCopy gc req (e.dst ++ e.dstScales).length with
            | (s, none) => s
            | (s, some paid) =>
              let out := elemOut req e got
              let (s, ok) := s.writeEach vd (e.dst ++ e.dstScales) (out.1 ++ out.2)
              s.modCopy gc id fun r =>
                { r with todo := r.todo.eraseIdx k, status := if ok then r.status else worse r.status stMemue, paid := paid }

/-- Settle a request: undefined bytes, locks, tag, completion word (R262, R270, R271). -/
def settleCopy (s : State) (gc : Nat) (req : CopyReq) (status : Nat) : State :=
  let s := (((s.dropUnits fun k u => arbClass k == 1 && u.op == req.id).forgetWalks req.id gc).scramble req.undef).unlock gc req.id
  let ended := s.seq
  let s := s.bump.modCopy gc req.id fun r => { r with state := .landing, todo := [], status := status, ended := ended }
  let s := s.setTag gc req.vk (w0Tag req.w0) status
  if w0Land req.w0 then
    let (s', ok) := s.landWord gc req.tid (w0Lreg req.w0) ended (completionWord req.seq (w0Tag req.w0) status)
    if ok then s'.modCopy gc req.id fun r => { r with state := .settled } else s
  else s.modCopy gc req.id fun r => { r with state := .settled }

/-- A request with nothing left to do completes; a completion word that found no landing-buffer entry is presented again. -/
def execCopyComplete (gc id : Nat) (s : State) : Out :=
  let c := s.core gc
  .next <| match c.copies.find? fun r => r.id = id with
    | none => s
    | some req => match req.state with
      | .running => if req.todo.isEmpty && !orderBlocks c req then settleCopy s gc req req.status else s
      | .landing =>
        let (s', ok) := s.landWord gc req.tid (w0Lreg req.w0) req.ended (completionWord req.seq (w0Tag req.w0) req.status)
        if ok then s'.modCopy gc id fun r => { r with state := .settled } else s
      | _ => s

/-- Cancel a request: CANCELLED, its destination undefined if it ran (R273, R415). -/
def cancelCopy (s : State) (gc : Nat) (req : CopyReq) : State :=
  let undef := if req.state == .running then req.dsts else []
  settleCopy s gc { req with undef := undef } stCancelled

/-! ### Cancel and query (R273, R274) -/

/-- The request of a handle: bit 32 set, bits 63:33 zero, the youngest of its number, issued with CAN. -/
def byHandle (c : Core) (vk : Nat) (h : Word) : Option CopyReq :=
  if field h 63 32 = 1 then (c.copies.reverse.find? fun r => r.vk == vk && r.seq == h.setWidth 32).filter fun r => w0Can r.w0
  else none

def execCpyc (sw : Bool) (d : SReg) (a : Src) (s : State) : Out :=
  .next (s.withRegs (srcRegs a) fun s =>
    match byHandle (s.core s.gc) s.thr.vk (s.src a) with
    | none => (s.writeS d 3).finish sw
    | some req => match req.state with
      | .queued => ((cancelCopy s s.gc req).writeS d 1).finish sw
      | .running => ((cancelCopy s s.gc req).writeS d 2).finish sw
      | .landing => (s.writeS d 0).finish sw
      | .settled => (s.writeS d 0).finish sw)

/-- CPYQ's result is formed when it returns (R274). -/
def execCpyq (sw : Bool) (d : SReg) (a : Src) (s : State) : Out :=
  .next (s.withSlot fun s => s.withRegs (srcRegs a) fun s =>
    (s.defer [.s d 0] (.cpyq d (s.src a)) true).finish sw)

/-- What CPYQ reports of the state as it stands (R274). -/
def cpyqValue (s : State) (gc vk : Nat) (a : Word) : Word :=
  if bitOf a 32 then
    match byHandle (s.core gc) vk a with
    | none => 3 <<< 8
    | some r => match r.state with
      | .queued => 0
      | .running => 1 <<< 8
      | .landing => (2 <<< 8) ||| BitVec.ofNat 64 r.status
      | .settled => (2 <<< 8) ||| BitVec.ofNat 64 r.status
  else
    let n := field a 5 0
    let g := (s.core gc).tagsOf vk
    (if bitOf g.bits n then 16 else 0) ||| (g.stat[n]?.getD 0).setWidth 64

/-! ### GATHQ (R277) -/

/-- Windows of a gather: the issuer's own DRAM window and shared memory. -/
def gatherItems (n : Nat) (s : State) (ls : List (Nat × Addr)) : List Item :=
  ls.map fun (_, va) =>
    let other := isPeer va.toNat && (va.toNat - 3 * 2 ^ 50) / 2 ^ 44 != s.pkgNo (pkgOf s.gc)
    .one va.toNat n true false (if other then .ownSpad else .sliceOnly)

def execGathq (sw : Bool) (sz : Sz) (pg : PReg) (d : VReg) (a : Src) (b : VReg) (s : State) : Out :=
  .next (s.withSlot fun s => s.withRegs (srcRegs a ++ [.v b] ++ govRegs pg (.v d)) fun s =>
    let n := sz.bytes
    let ls := activeAddrs (s.thr.getP pg) sz.bits 32 (elemAddr s a b n)
    s.checked n (gatherItems n s ls) fun locs s =>
      let acc := s.newAccess .gath .t false false none sz.bits (laneParts n ls locs fun _ => [])
      let s := s.defer [.v d (gatherInit sz.bits (s.thr.getV d))] .plain ls.isEmpty
      (if ls.isEmpty then s else s.toPort s.gc acc).finish sw)

/-- The gather engines read one more element, in ascending lane order; R201 gives no order (log entry 96). -/
def execGatherEngineServe (gc id : Nat) (s : State) : Out :=
  .next <| match (s.core gc).port.find? fun a => a.id = id && a.kind == .gath with
    | none => s
    | some a =>
      let a := reachedParts s gc a
      match a.parts with
      | [] => s
      | p :: _ => serveGather s gc a p

end Sys2Proof.Machine
end

