-- ==== Sys2Proof/Machine/Plan.lean ====
section
/-! DEFINITION. Collective plans: descriptors, handles, triggers, firings and the ordered combination (R278 to R284). -/

namespace Sys2Proof.Machine

/-! ### The descriptor (R278) -/

def dword (desc : List Byte) (o : Nat) : Nat := ofBytes ((desc.drop o).take 8)

def planKind (d : List Byte) : Nat := fieldN (dword d 0) 3 0
def planT (d : List Byte) : Nat := fieldN (dword d 0) 7 4
def planOpr (d : List Byte) : Nat := fieldN (dword d 0) 9 8
def planStrict (d : List Byte) : Bool := fieldN (dword d 0) 10 10 == 1
def planLand (d : List Byte) : Bool := fieldN (dword d 0) 11 11 == 1
def planGroup (d : List Byte) : Nat := fieldN (dword d 0) 23 16
def planTag (d : List Byte) : Nat := fieldN (dword d 0) 29 24
def planLreg (d : List Byte) : Nat := fieldN (dword d 0) 35 30
def planRoot (d : List Byte) : Nat := fieldN (dword d 0) 63 48
def planSlot (d : List Byte) : Nat := if dword d 8 = 0 then 2000 else dword d 8
def planSrc (d : List Byte) : Nat := dword d 16
def planDst (d : List Byte) : Nat := dword d 24
def planCount (d : List Byte) : Nat := dword d 32

/-- Element type: none for bytes. -/
def planTy (d : List Byte) : Option Ty :=
  match planT d with
  | 4 => some .i32
  | 5 => some .f16
  | 6 => some .bf16
  | 7 => some .f32
  | _ => none

def planElem (d : List Byte) : Nat :=
  match planTy d with
  | some ty => ty.width / 8
  | none => 1

/-- Bytes that one member reads and that one member writes. -/
def planSrcLen (d : List Byte) (m : Nat) : Nat := planCount d * planElem d * (if planKind d = 4 then m else 1)
def planDstLen (d : List Byte) (m : Nat) : Nat := planCount d * planElem d * (if planKind d = 3 then m else 1)

/-- A range in the DRAM window or in the member's own scratchpad. -/
def planRange (va len : Nat) : Bool :=
  va + len ≤ dramEnd || (2 ^ 41 ≤ va && va + len ≤ 2 ^ 41 + spadBytes)

/-- The fields of a descriptor that are valid for a group of any size. -/
def planFields (d : List Byte) : Bool :=
  let kind := planKind d
  let t := planT d
  kind ≤ 4 && (t == 0 || (4 ≤ t && t ≤ 7)) && planOpr d ≤ 2 && fieldN (dword d 0) 47 36 == 0 &&
  (if planLand d then planLreg d ≤ 31 else planLreg d == 0) && dword d 8 ≤ 1000000 &&
  (t != 0 || kind == 0 || kind == 3) && (planOpr d == 0 || (kind != 0 && kind != 3)) && 1 ≤ planCount d &&
  planSrc d % planElem d == 0 && planDst d % planElem d == 0 && (d.drop 40).all fun b => b == 0

/-- A valid descriptor for a group of `m` members. -/
def planOk (d : List Byte) (m : Nat) : Bool :=
  planFields d && (1 < planKind d || planRoot d < m) && planRange (planSrc d) (planSrcLen d m) &&
  planRange (planDst d) (planDstLen d m)

/-! ### Handles (R279) -/

def planHandle (idx : Nat) (gen : BitVec 7) : Word := BitVec.ofNat 64 (2 ^ 31 + gen.toNat * 2 ^ 24 + idx)

/-- The entry that a handle names: bit 31 set, its generation, every other bit zero. -/
def planByHandle (v : Vd) (h : Word) : Option (Nat × Plan) :=
  let idx := field h 5 0
  if h == planHandle idx (tblGet v.planGen idx 0) then (tblFind v.plans idx).map fun p => (idx, p) else none

/-- Drop a plan: its entry is free and its generation advances. -/
def dropPlan (vk idx : Nat) (s : State) : State :=
  s.modVd vk fun v => { v with plans := tblDel v.plans idx, planGen := tblPut v.planGen idx (tblGet v.planGen idx 0 + 1) }

def State.modPlan (s : State) (vk idx : Nat) (f : Plan → Plan) : State :=
  s.modVd vk fun v => match tblFind v.plans idx with
    | some p => { v with plans := tblPut v.plans idx (f p) }
    | none => v

/-- The members of a group of a team, by position (R332). -/
def groupThreads (t : Team) (g : Nat) : List Nat :=
  (tblGet t.groups g []).filterMap fun fab => (t.seat fab).map fun x => x.tid

/-- The lowest free entry of 64. -/
def freePlan (v : Vd) : Option Nat := (List.range 64).find? fun i => (tblFind v.plans i).isNone

/-- PLANSET's result, formed when it returns, with the class that the thread had at issue (R279, R396). Whether stream entries are to be
had is open (log entry 22). R279 does not order the results: the model tests the fields (2), the group and its members (3), ROOT and
the ranges (2), then the entries (1) (log entry 97). -/
def planReserve (s : State) (t : Thread) (desc : List Byte) (cls : BitVec 2) : State × Word :=
  let vk := t.vk
  let v := s.vd vk
  match s.findTeam t.vd t.teamNum with
  | none => (s, 3)
  | some team =>
    let ms := groupThreads team (planGroup desc)
    if !planFields desc then (s, 2)
    else if ms.isEmpty || ms.any (fun m => !(s.thread m).live) then (s, 3)
    else if !planOk desc ms.length then (s, 2)
    else match freePlan v with
      | none => (s, 1)
      | some idx =>
        let s' := { s with free := s.free + 1 }
        if Config.freeBool s.free then
          (s'.modVd vk fun v => { v with plans := tblPut v.plans idx ⟨team.num, desc, cls, ms, 1, none, none, false⟩ },
           planHandle idx (tblGet v.planGen idx 0))
        else (s', 1)

/-- One part for each piece of a descriptor. -/
def planParts (items : List Item) (locs : List Nat) : List Part :=
  (items.zip locs).zipIdx.map fun ((i, l), k) => ⟨k, BitVec.ofNat 52 i.va, l, i.len, []⟩

def execPlanset (sw : Bool) (d : SReg) (a : Src) (s : State) : Out :=
  .next (s.withSlot fun s => s.withRegs (srcRegs a) fun s =>
    let va := baseOff (s.src a) 0
    let items := itemsOf s s.gc s.thr.vd va.toNat 64 true false .any
    s.checked 64 items fun locs s =>
      let acc := s.newAccess .load .t false false none 0 (planParts items locs)
      ((s.defer [.s d 0] (.planset d va [] s.thr.tcls) false).toPort s.gc acc).finish sw)

/-- PLANFIRE: the trigger as a release at `.s`, with the fire time above it (R280). -/
def execPlanfire (sw : Bool) (a b : Src) (s : State) : Out :=
  .next (s.withRegs (srcRegs a ++ srcRegs b) fun s =>
    let va := (s.vd s.thr.vk).trig
    let loc := trigLoc s.thr.vk 0
    if queueFull (s.core s.gc).port then s.bubble
    else
      let acc := s.newAccess .store .s false true none 0
        (onePart va loc 8 (toBytes 8 (s.src a).toNat ++ toBytes 8 (s.src b).toNat))
      (s.bump.toPort s.gc acc).finish sw)

/-- PLANDROP: later triggers are ignored from its issue on; it holds until no firing runs or is pending (R283). -/
def execPlandrop (sw : Bool) (a : Src) (s : State) : Out :=
  .next (s.withRegs (srcRegs a) fun s =>
    let vk := s.thr.vk
    match planByHandle (s.vd vk) (s.src a) with
    | none => s.finish sw
    | some (idx, p) =>
      (s.modPlan vk idx fun p => { p with dropped := true }).holdUntil (p.running.isNone && p.pendingFire.isNone)
        fun s => (dropPlan vk idx s).finish sw)

/-! ### Triggers (R280, R282) -/

/-- The store that brought a trigger is performed. -/
def State.triggerStored (s : State) (g : Trigger) : State :=
  match g.src with
  | none => s
  | some (gc, id, lane) => match (s.core gc).port.find? fun a => a.id = id with
    | some a => s.partDone gc a lane
    | none => s

/-- The oldest trigger that has reached a VD's trigger word is applied: the plan accepts it or ignores it. -/
def execPlanTrigger (vk : Nat) (s : State) : Out :=
  let v := s.vd vk
  .next <| match v.triggers with
    | [] => s
    | g :: rest =>
      let by_ := g.src.bind fun x => ((s.core x.1).port.find? fun a => a.id == x.2.1).map fun a => (a.tid, a.id)
      let s := (s.modVd vk fun v => { v with triggers := rest }).triggerStored g
      match planByHandle v (g.word &&& 0xFFFFFFFF) with
      | none => s
      | some (idx, p) =>
        let away := match s.findTeam (vk % 16) p.team with
          | some t => t.away
          | none => true
        if away || p.dropped || p.next != BitVec.ofNat 32 (field g.word 63 32) || p.pendingFire.isSome then s
        else
          let late := g.fireTime != 0 && decide (g.fireTime.toNat < s.time (vk / 16))
          let f : Firing := ⟨p.next, g.fireTime, late, [], by_⟩
          s.modPlan vk idx fun p =>
            if p.running.isNone then { p with next := p.next + 1, running := some f }
            else { p with next := p.next + 1, pendingFire := some f }

/-! ### Firings (R281, R282) -/

/-- A member can be reached from the plan's package (R458). -/
def memberReached (s : State) (vk m : Nat) : Bool :=
  pkgOfThread m == vk / 16 || reachable s (vk % 16) (vk / 16) (pkgOfThread m)

/-- Whether a member's DST holds a start value. -/
def planStart (d : List Byte) (pos : Nat) : Bool :=
  match planKind d with
  | 1 => pos == planRoot d
  | 2 => pos == 0
  | 4 => true
  | _ => false

/-- A firing's access to these bytes comes behind what the thread that fired it had under way there (R234, R239, R280). -/
def fireClear (s : State) (f : Firing) (locs : List Nat) (write : Bool) : Bool :=
  match f.by_ with
  | none => true
  | some (tid, id) => engClear s tid id locs write

/-- The ranges that member `k` of `n` reads and writes. -/
def planWalks (d : List Byte) (gc vd n k : Nat) : List (Nat × Nat × Bool × Bool × Nat × Nat) :=
  (gc, vd, true, false, planSrc d, planSrcLen d n) ::
  (if planKind d != 1 || k == planRoot d then [(gc, vd, planStart d k, true, planDst d, planDstLen d n)] else [])

/-- The number by which a plan's firing is held; issue numbers stay below it. -/
def firingId (vk plan : Nat) (seq : BitVec 32) : Nat := 2 ^ 64 + (vk * 64 + plan) * 2 ^ 32 + seq.toNat

/-- Read a member's bytes: their value, or the status of what fails. -/
def planRead (s : State) (gc vd va len : Nat) : State × Option (List Byte) × Nat :=
  match engLocs s gc vd true false va len with
  | none => (s, none, stXlate)
  | some locs => match s.gatherBytes locs with
    | none => (s.countUe vd locs, none, stMemue)
    | some bs => (s.meets (some vd) locs, some bs, stOk)

/-- A member starts its part at the fire time: it stamps its time and reads its source (R281, R282). -/
def execPlanFireStart (vk plan member : Nat) (s : State) : Out :=
  .next <| match tblFind (s.vd vk).plans plan with
    | none => s
    | some p => match p.running, p.members[member]? with
      | some f, some m =>
        let now := s.time (pkgOfThread m)
        if f.parts.any (fun x => x.pos == member) || (!f.late && now < f.fireTime.toNat) then s
        else
          let gc := coreOf m
          let vd := vk % 16
          let n := p.members.length
          let put (x : PlanPart) (s : State) : State :=
            s.modPlan vk plan fun p => { p with running := some { f with parts := f.parts ++ [x] } }
          if !memberReached s vk m then put ⟨member, now, stRoutelost, none, none, 0, 0, 0⟩ s
          else s.withWalks (firingId vk plan f.seq) (planWalks p.desc gc vd n member) fun s =>
            let begins := planStart p.desc member
            let locs := (engLocs s gc vd true false (planSrc p.desc) (planSrcLen p.desc n)).getD [] ++
              (if begins then (engLocs s gc vd true false (planDst p.desc) (planDstLen p.desc n)).getD [] else [])
            if !fireClear s f locs false then s
            else
              let (s, src, st1) := planRead s gc vd (planSrc p.desc) (planSrcLen p.desc n)
              let (s, start, st2) := if begins then planRead s gc vd (planDst p.desc) (planDstLen p.desc n) else (s, none, stOk)
              put ⟨member, now, worse st1 st2, src, start, 0, 0, 0⟩ s
      | _, _ => s

/-- One step of the combination at an element: the accumulator in binary32, or as i32 (R281). -/
def combineStep (ty : Ty) (opr acc y : Nat) : Nat :=
  if ty.isInt then
    let a := toSigned 32 acc
    let b := toSigned 32 y
    match opr with
    | 0 => (acc + y) % 2 ^ 32
    | 1 => if a ≤ b then y else acc
    | _ => if a ≤ b then acc else y
  else
    let a := fF32.decode acc
    let b := (fmtOf ty).decode y
    fF32.round .rne false 0 (match opr with
      | 0 => addV .rne a b
      | 1 => maxV a b
      | _ => minV a b)

/-- Combine one element: the start value, then the members' elements in ascending position (R281). -/
def combine1 (ty : Ty) (opr start : Nat) (ys : List Nat) : Nat :=
  if ty.isInt then ys.foldl (combineStep ty opr) start
  else
    let acc := fF32.round .rne false 0 ((fmtOf ty).decode start)
    (fmtOf ty).round .rne false 0 (fF32.decode (ys.foldl (combineStep ty opr) acc))

/-- Combine whole operands of elements of `n` bytes. -/
def combineAll (ty : Ty) (opr n : Nat) (start : List Byte) (xs : List (List Byte)) : List Byte :=
  let cols := xs.map (elems n)
  unelems n ((elems n start).zipIdx.map fun (x, i) => combine1 ty opr x (cols.map fun c => c.getD i 0))

/-- The sources of a firing by position; none where one could not be read. -/
def planSources (f : Firing) (n : Nat) : Option (List (List Byte)) :=
  (List.range n).foldr (fun k acc => match acc, (f.parts.find? fun x => x.pos = k).bind fun x => x.src with
    | some xs, some x => some (x :: xs)
    | _, _ => none) (some [])

/-- What member `k` writes to its DST: nothing, bytes, or bytes that are open because an operand is missing. -/
def planOutput (d : List Byte) (f : Firing) (n k : Nat) : Option (Option (List Byte)) :=
  let start (j : Nat) : Option (List Byte) := (f.parts.find? fun x => x.pos = j).bind fun x => x.start
  let comb (j : Nat) (cut : List Byte → List Byte) : Option (List Byte) :=
    match planTy d, start j, planSources f n with
    | some ty, some st, some xs => some (combineAll ty (planOpr d) (planElem d) st (xs.map cut))
    | _, _, _ => none
  match planKind d with
  | 0 => some ((f.parts.find? fun x => x.pos = planRoot d).bind fun x => x.src)
  | 1 => if k = planRoot d then some (comb k id) else none
  | 2 => some (comb 0 id)
  | 3 => some ((planSources f n).map List.flatten)
  | _ =>
    let len := planCount d * planElem d
    some (comb k fun x => (x.drop (k * len)).take len)

/-- Clocks of two members that have started differ by more than the slot (R282). -/
def planSkew (d : List Byte) (f : Firing) : Bool :=
  let ps := f.parts.filter fun x => x.status != stRoutelost
  ps.any fun a => ps.any fun b => decide (a.stamp + planSlot d < b.stamp)

/-- Status of a member: its own conditions, those of the operands that it needs, and those of the firing. -/
def planStatus (d : List Byte) (f : Firing) (x : PlanPart) (missing : Bool) : Nat :=
  let others := if missing then f.parts.foldl (fun st y => if y.status = stRoutelost then st else worse st y.status) stOk
    else stOk
  worse (worse x.status others) (worse (if planSkew d f then stSkew else stOk) (if f.late then stLate else stOk))

/-- A member's part is over once its completion word has landed; the last one lets the pending firing start (R280). -/
def planFinish (vk plan member : Nat) (s : State) : State :=
  s.modPlan vk plan fun p => match p.running with
    | none => p
    | some f =>
      let parts := f.parts.map fun x => if x.pos = member then { x with phase := 2 } else x
      if parts.length = p.members.length && parts.all (fun x => x.phase == 2) then
        { p with running := p.pendingFire, pendingFire := none }
      else { p with running := some { f with parts := parts } }

/-- Land a member's completion word, if it is asked for, and finish the part. -/
def planLanding (vk plan member m : Nat) (d : List Byte) (seq : BitVec 32) (status ended : Nat) (s : State) : State :=
  if planLand d then
    let (s', ok) := s.landWord (coreOf m) m (planLreg d) ended (completionWord seq (planTag d) status)
    if ok then planFinish vk plan member s' else s
  else planFinish vk plan member s

/-- 64-byte units that a member's copy engine moves. -/
def planUnits (d : List Byte) (n : Nat) : Nat := ceilDiv (max (planSrcLen d n) (planDstLen d n)) 64

/-- What a member's part leaves in its DST, and its status: bytes, or undefined ones, or nothing where none is due (R262, R281, R282). -/
def planWrite (s : State) (vk m : Nat) (d : List Byte) (len : Nat) (lost : Bool) (out : Option (Option (List Byte))) (status : Nat) :
    State × Nat :=
  let gc := coreOf m
  let vd := vk % 16
  if lost then (s.scramble (writableLocs s gc vd (planDst d) len), status)
  else match out with
  | none => (s, status)
  | some bytes => match engLocs s gc vd false true (planDst d) len with
    | none => (s.scramble (writableLocs s gc vd (planDst d) len), worse status stXlate)
    | some locs => match bytes with
      | none => (s.scramble locs, status)
      | some bs =>
        let (s, ok) := s.engWrite vd locs bs
        (s, if ok then status else worse status stMemue)

/-- A member whose package has been lost since it started (R282, R458). -/
def PlanPart.lostNow (x : PlanPart) (s : State) (vk m : Nat) : PlanPart :=
  if x.phase == 0 && !memberReached s vk m then { x with status := worse x.status stRoutelost } else x

/-- A member writes its DST and sets its tag, every member having started, its copy engine having moved its bytes in the plan's class,
and what the firing thread had under way there being over (R239, R281, R282, R396). -/
def execPlanFiringComplete (vk plan member : Nat) (s : State) : Out :=
  .next <| match tblFind (s.vd vk).plans plan with
    | none => s
    | some p => match p.running, p.members[member]? with
      | some f, some m => match f.parts.find? fun x => x.pos = member with
        | none => s
        | some x0 =>
          let x := x0.lostNow s vk m
          let d := p.desc
          let n := p.members.length
          let gc := coreOf m
          let lost := x.status == stRoutelost || x.status != x0.status
          if f.parts.length < n || x.phase == 2 then s
          else
            let out := planOutput d f n member
            let status := planStatus d f x (out == some none)
            if x.phase == 1 then planLanding vk plan member m d f.seq x.status x.ended s
            else if !lost && x.paid < planUnits d n then
              let (s, paid) := s.moveNext gc vk (firingId vk plan f.seq) (planUnits d n) x.paid p.cls
              s.modPlan vk plan fun p => { p with running := some { f with parts := f.parts.map fun y =>
                if y.pos = member then { y with paid := paid } else y } }
            else if !fireClear s f ((engLocs s gc (vk % 16) false true (planDst d) (planDstLen d n)).getD []) true then s
            else
              let (s, status) := planWrite s vk m d (planDstLen d n) lost (if planStrict d && planSkew d f then some none else out) status
              let s := s.setTag gc (vdKey (pkgOfThread m) (vk % 16)) (planTag d) status
              let s := s.modPlan vk plan fun p => { p with running := some { f with parts := f.parts.map fun y =>
                if y.pos = member then { y with phase := 1, status := status, ended := s.seq } else y } }
              planLanding vk plan member m d f.seq status (s.seq) s.bump
      | _, _ => s

end Sys2Proof.Machine
end

