-- ==== Sys2Proof/Machine/Sillage.lean ====
section
/-! DEFINITION. The sillage: segments, forward transfers, records and RETRACE (R285 to R311). -/

namespace Sys2Proof.Machine

/-! ### Segments (R285 to R291) -/

def segHandle (seg : Nat) (gen : BitVec 7) : Word := BitVec.ofNat 64 (2 ^ 31 + gen.toNat * 2 ^ 24 + seg)

/-- The live segment of a team that a handle names; none for a stale handle (R287). -/
def segByHandle (t : Team) (h : Word) : Option (Nat × Segment) :=
  let n := field h 5 0
  match tblFind t.segs n with
  | some g => if g.isOpen && h == segHandle n g.gen then some (n, g) else none
  | none => none

def State.modSeg (s : State) (vd num seg : Nat) (f : Segment → Segment) : State :=
  s.modTeam vd num fun t => match tblFind t.segs seg with
    | some g => { t with segs := tblPut t.segs seg (f g) }
    | none => t

/-- 4 KiB units that `q` records take, 64 bytes of record and 8 of notice each (R286); the two slots of a record stand together
(log entry 72). -/
def runUnits (q : Nat) : Nat := ceilDiv (q * 72) 4096

def Segment.empty (gen : BitVec 7) : Segment :=
  { gen := gen, isOpen := false, quota := 0, used := 0, closed := false, pkg := 0, run := 0, runLen := 0, records := [], old := [] }

/-- The lowest free segment entry of 64, with its generation. -/
def freeSeg (t : Team) : Option (Nat × BitVec 7) :=
  ((List.range 64).map fun n => (n, (tblGet t.segs n (Segment.empty 0)))).findSome? fun (n, g) =>
    if g.isOpen then none else some (n, g.gen)

/-- The runs of a package that segments hold: first unit and count, by rising first unit. -/
def heldRuns (t : Team) (pkg : Nat) : List (Nat × Nat) :=
  sortBy (fun r => r.1) (t.segs.filterMap fun (_, g) =>
    if g.isOpen && g.pkg == pkg && g.runLen != 0 then some (g.run / 4096, g.runLen) else none)

/-- First fit of `n` units between `at_` and `stop` beside the held runs (log entry 33). -/
def fitRun (n stop : Nat) : Nat → List (Nat × Nat) → Option Nat
  | at_, [] => if at_ + n ≤ stop then some at_ else none
  | at_, (a, len) :: rest => if at_ + n ≤ a then some at_ else fitRun n stop (max at_ (a + len)) rest

/-- Open a segment, or the result that says why not (R289). -/
def openSegment (s : State) (t : Thread) (q : Nat) : State × Word :=
  match s.findTeam t.vd t.teamNum with
  | none => (s, 2)
  | some team =>
    if q = 0 || 2 ^ 26 ≤ q then (s, 3)
    else match freeSeg team with
      | none => (s, 1)
      | some (n, gen) =>
        let pkg := pkgOfThread t.id
        let base := field team.spill 39 12
        match fitRun (runUnits q) (base + field team.spill 63 40) base (heldRuns team pkg) with
        | none => (s, 2)
        | some u =>
          let g : Segment := ⟨gen, true, q, 0, false, pkg, u * 4096, runUnits q, [], []⟩
          (s.modTeam t.vd t.teamNum fun x => { x with segs := tblPut x.segs n g }, segHandle n gen)

/-- The spill management bit of a VD (R442). -/
def hostSpill (s : State) (vk : Nat) : Bool := (s.vd vk).rmode.getLsbD 1
def hostRetrace (s : State) (vk : Nat) : Bool := (s.vd vk).rmode.getLsbD 3

def execTapeopen (sw : Bool) (d : SReg) (a : Src) (s : State) : Out :=
  .next <| match s.thr.wait with
    | .hold 2 true r => (s.writeS d r).finish sw
    | .hold 2 false _ => s.bubble
    | _ => s.withRegs (srcRegs a) fun s =>
      let q := (s.src a).toNat
      let (s, r) := openSegment s s.thr q
      let vk := s.thr.vk
      if r = 2 && hostSpill s vk then
        let s := (postCp s vk 7 s.thr.teamNum q 0).openCase (fnOfVd vk) (vk / 16) (.spill s.thr.id q)
        s.modThr fun t => { t with wait := .hold 2 false 2, park := none }
      else (s.writeS d r).finish sw

/-! ### Slots and router logs (R286, R297, R303)

A record rests in the log of the router that made it until it is written to its slot. -/

/-- Where the part finds the bytes of a range of the DRAM window that it keeps for itself, by the page table; none where a page is
not mapped (R285). -/
def regionLocs (s : State) (vk va n : Nat) : Option (List Nat) :=
  (pagesOf va n).foldr (fun (lo, len) acc => match acc, walk s vk (lo / 4096) with
    | some ls, some l =>
      let pa := unitPa (s.pkg (vk / 16)).massifs l.il l.pa (if l.big then lo / 4096 % 512 else 0) + lo % 4096
      some ((List.range len).map (fun i => homeAt s vk (lo + i) (dramLoc (vk / 16) pa + i)) ++ ls)
    | _, _ => none) (some [])

/-- The slot of record `idx`, and its notice slot. -/
def slotLocs (s : State) (vd : Nat) (g : Segment) (idx : Nat) : Option (List Nat) :=
  regionLocs s (vdKey g.pkg vd) (g.run + 72 * idx) 64
def noticeLocs (s : State) (vd : Nat) (g : Segment) (idx : Nat) : Option (List Nat) :=
  regionLocs s (vdKey g.pkg vd) (g.run + 72 * idx + 64) 8

def LogEntry.is (vd team seg idx : Nat) (e : LogEntry) : Bool := e.vk % 16 == vd && e.team == team && e.seg == seg && e.idx == idx

/-- The router log that holds a record, with the record. -/
def loggedAt (s : State) (vd team seg idx : Nat) : Option (Nat × List Word) :=
  s.routers.findSome? fun (r, x) => (x.log.find? (LogEntry.is vd team seg idx)).map fun e => (r, e.words)

/-- A record as it rests; none for an empty slot, and for one whose slot cannot be read. -/
def State.record (s : State) (t : Team) (seg idx : Nat) : Option (List Word) :=
  match tblFind t.segs seg with
  | none => none
  | some g =>
    if !g.records.contains idx then none
    else match loggedAt s t.vd t.num seg idx with
      | some x => some x.2
      | none => ((slotLocs s t.vd g idx).bind s.gatherBytes).map fun bs =>
          (List.range 8).map fun i => BitVec.ofNat 64 (ofBytes ((bs.drop (8 * i)).take 8))

/-- The package where a record rests: its router's, or its segment's. -/
def restPkg (s : State) (t : Team) (seg idx : Nat) : Nat :=
  match loggedAt s t.vd t.num seg idx with
  | some x => routerPkg x.1
  | none => ((tblFind t.segs seg).map fun g => g.pkg).getD t.pkg

/-- A record goes to its slot. -/
def writeSlot (s : State) (e : LogEntry) : State :=
  match (s.findTeam (e.vk % 16) e.team).bind fun t => (tblFind t.segs e.seg).bind fun g => slotLocs s (e.vk % 16) g e.idx with
  | none => s
  | some locs => (s.engWrite (e.vk % 16) locs (e.words.flatMap fun w => toBytes 8 w.toNat)).1

def logRoom : Nat := 512

/-- A record is made at a router: in its log while it has room, else straight in its slot. -/
def State.makeRecord (s : State) (router : Nat) (e : LogEntry) : State :=
  let s := s.modSeg (e.vk % 16) e.team e.seg fun g => { g with records := if g.records.contains e.idx then g.records else g.records ++ [e.idx] }
  if (s.router router).log.length < logRoom then s.modRouter router fun x => { x with log := x.log ++ [e] }
  else writeSlot s e

/-- The oldest record of a router's log goes to its slot. -/
def State.logWrite (s : State) (router : Nat) : State :=
  match (s.router router).log with
  | [] => s
  | e :: rest => (writeSlot s e).modRouter router fun x => { x with log := rest }

/-- Drop the logged records of a team, of one segment or of all. -/
def dropLog (s : State) (vd team : Nat) (seg : Option Nat) : State :=
  { s with routers := s.routers.map fun (k, x) =>
      (k, { x with log := x.log.filter fun e => !(e.vk % 16 == vd && e.team == team && (seg.isNone || seg == some e.seg)) }) }

/-- Every record of a team in router logs goes to its slot (R309). -/
def flushLog (s : State) (vd team : Nat) : State :=
  dropLog ((s.routers.flatMap fun e => e.2.log.filter fun x => x.vk % 16 == vd && x.team == team).foldl writeSlot s) vd team none

/-! ### TAPECLOSE, TAPEFREE, TAPEQ (R290, R291) -/

/-- Operations that keep a segment busy. -/
def forwardsOf (s : State) (vd team seg : Nat) : Bool :=
  s.forwards.any fun f => f.vk % 16 == vd && f.team == team && f.seg == seg
def retracesOf (s : State) (vd team seg : Nat) : Bool :=
  s.retraces.any fun r => r.vk % 16 == vd && r.team == team && r.seg == seg && r.phase != 2
def teamRetraces (s : State) (vd team : Nat) : Bool :=
  s.retraces.any fun r => r.vk % 16 == vd && r.team == team && r.phase != 2

/-- TAPECLOSE: CLOSED at once; complete once the transfers that reserved records are (R290). -/
def execTapeclose (sw : Bool) (a : Src) (s : State) : Out :=
  .next (s.withRegs (srcRegs a) fun s =>
    let h := s.src a
    match s.myTeam.bind fun t => segByHandle t h with
    | none => s.trap cPerm h
    | some (n, g) =>
      let vd := s.thr.vd
      let num := s.thr.teamNum
      (s.modSeg vd num n fun g => { g with closed := true }).holdUntil (!forwardsOf s vd num n) fun s =>
        (if g.closed && g.quota == g.used then s
         else s.modSeg vd num n fun g => { g with quota := g.used, runLen := runUnits g.used }).finish sw)

/-- TAPEFREE: complete once no retrace of the segment runs or is queued (R290). -/
def execTapefree (sw : Bool) (a : Src) (s : State) : Out :=
  .next (s.withRegs (srcRegs a) fun s =>
    let h := s.src a
    match s.myTeam.bind fun t => segByHandle t h with
    | none => s.trap cPerm h
    | some (n, _) =>
      let vd := s.thr.vd
      let num := s.thr.teamNum
      s.holdUntil (!retracesOf s vd num n) fun s =>
        ((dropLog s vd num (some n)).modSeg vd num n fun g => Segment.empty (g.gen + 1)).finish sw)

/-- TAPEQ's result is formed when it returns (R291). -/
def execTapeq (sw : Bool) (d : SReg) (a : Src) (s : State) : Out :=
  .next (s.withSlot fun s => s.withRegs (srcRegs a) fun s =>
    (s.defer [.s d 0] (.tapeq d (s.src a)) true).finish sw)

/-- The state of a segment as TAPEQ reports it. -/
def tapeqValue (s : State) (t : Thread) (h : Word) : Word :=
  match (s.findTeam t.vd t.teamNum).bind fun x => segByHandle x h with
  | none => BitVec.allOnes 64
  | some (n, g) =>
    BitVec.ofNat 64 ((if retracesOf s t.vd t.teamNum n then 2 ^ 53 else 0) + (if g.closed then 2 ^ 52 else 0) +
      g.quota * 2 ^ 26 + g.used)

/-! ### Generations (R300) -/

def genOf (gens : Tbl (BitVec 12)) (id : Nat) : BitVec 12 := if id = 0 then 0 else tblGet gens id 0

/-- GENBUMP: the generation moves on every package of the VD; the thread holds until no retrace of its team runs. -/
def execGenbump (sw : Bool) (d : SReg) (a : Src) (s : State) : Out :=
  .next <| match s.thr.wait with
    | .hold 5 _ r =>
      if teamRetraces s s.thr.vd s.thr.teamNum then s.bubble else (s.writeS d r).finish sw
    | _ => s.withRegs (srcRegs a) fun s =>
      let x := s.src a
      let id := field x 11 0
      if id = 0 || field x 63 12 != 0 then s.trap cPerm x
      else
        let g := genOf (s.vd s.thr.vk).tensorGen id + 1
        let s := s.pkgs.foldl (fun s (p, _) =>
          s.modVd (vdKey p s.thr.vd) fun v => { v with tensorGen := tblPut v.tensorGen id g }) s
        if teamRetraces s s.thr.vd s.thr.teamNum then
          s.modThr fun t => { t with wait := .hold 5 false (g.setWidth 64), park := none }
        else (s.writeS d (g.setWidth 64)).finish sw

/-! ### Forward transfers at issue (R292 to R295) -/

/-- The windows of R293. -/
def ownSpad (va : Nat) : Bool := 2 ^ 41 ≤ va && va < 2 ^ 41 + spadBytes
def sillageWindow (va : Nat) : Bool := va < dramEnd || ownSpad va

def wordVa (w : Word) : Nat := field w 51 0

/-- Step 1 of R295: the request word that breaks R293. -/
def forwardBad (kind : Nat) (w2 w3 : Word) : Option Word :=
  let len := field w2 23 0
  let n := field w2 39 24
  if len % 4 != 0 || len < 4 then some w2
  else if kind != 0 && (field w2 63 40 != 0 || n < 1 || 4096 < n) then some w2
  else if kind == 1 && w3 != 0 then some w3
  else none

/-- The misaligned address, if any. -/
def forwardMisaligned (kind : Nat) (w0 w1 w3 : Word) : Option Nat :=
  let list := if kind = 1 then some (wordVa w0) else if kind = 2 then some (wordVa w1) else none
  match list.filter fun a => a % 16 != 0 with
  | some a => some a
  | none => if wordVa w3 % 8 != 0 then some (wordVa w3) else none

/-- The address outside the windows, if any. -/
def forwardOutside (kind : Nat) (w0 w1 w3 : Word) : Option Nat :=
  let src := if kind = 1 then [] else [wordVa w0]
  let dst := if kind = 2 then [] else [wordVa w1]
  match (src ++ dst).find? fun a => !sillageWindow a with
  | some a => some a
  | none => if wordVa w3 != 0 && !ownSpad (wordVa w3) then some (wordVa w3) else none

/-- The receivers of an MCAST: position and fabric number of the members of its group but the issuer. -/
def mcastReceivers (t : Team) (g self : Nat) : List (Nat × Nat) :=
  ((tblGet t.groups g []).zipIdx.map fun (fab, k) => (k, fab)).filter fun x => x.2 != self

/-- An MCAST's deliveries (R297, R298). -/
def mcastDeliveries (rs : List (Nat × Nat)) (first self : Nat) (w0 w1 w2 : Word) : List Delivery :=
  rs.zipIdx.map fun ((k, fab), i) =>
    ⟨first + i, self, fab, BitVec.ofNat 32 (field w2 63 32 + k), wordVa w0, wordVa w1, 0⟩

/-- MCAST 0, GATHR 1, A2A 2. -/
def forwardForm (sw : Bool) (kind : Nat) (tag : BitVec 6) (a : SReg) (b : Src) (cls : BitVec 2) (ret : Bool) (s : State) :
    State :=
  s.withRegs (sregs a 4 ++ srcRegs b) fun s =>
    let w0 := s.thr.getS a
    let w1 := s.thr.getS (sregAt a 1)
    let w2 := s.thr.getS (sregAt a 2)
    let w3 := s.thr.getS (sregAt a 3)
    let h := s.src b
    match forwardBad kind w2 w3 with
    | some w => s.trap cFmtbad w
    | none => match forwardMisaligned kind w0 w1 w3 with
    | some x => s.trap cAlign (BitVec.ofNat 64 x)
    | none => match forwardOutside kind w0 w1 w3 with
    | some x => s.trap cXlate (BitVec.ofNat 64 x)
    | none => match s.myTeam with
    | none => s.trap cPerm h
    | some team => match segByHandle team h with
    | none => s.trap cPerm h
    | some (seg, g) =>
      let self := s.thr.fabno
      let rs := mcastReceivers team (field w2 31 24) self
      let n := if kind = 0 then rs.length else field w2 39 24
      let full (reason : Nat) : State :=
        s.trap cTapefull (BitVec.ofNat 64 (reason * 2 ^ 58 + n % 2 ^ 26 * 2 ^ 32 + h.toNat % 2 ^ 32))
      if g.closed then full 2
      else if g.quota < g.used + n then full 1
      else
        let op : Forward :=
          { id := s.seq, kind := kind, tid := s.thr.id, vk := s.thr.vk, team := team.num, seg := seg, tag := tag.toNat,
            cls := cls, ret := ret, len := field w2 23 0, naddr := wordVa w3, begun := kind == 0, n := n, first := g.used,
            list := if kind = 1 then wordVa w0 else wordVa w1, base := if kind = 1 then wordVa w1 else wordVa w0,
            gens := (s.vd s.thr.vk).tensorGen,
            todo := if kind = 0 then mcastDeliveries rs g.used self w0 w1 w2 else [], status := stOk }
        let s := s.bump.modSeg s.thr.vd team.num seg fun g => { g with used := g.used + n }
        ({ s with forwards := s.forwards ++ [op] } : State).finish sw

def execMcast (sw : Bool) (tag : BitVec 6) (a : SReg) (b : Src) (cls : BitVec 2) (ret : Bool) (s : State) : Out :=
  .next (forwardForm sw 0 tag a b cls ret s)
def execGathr (sw : Bool) (tag : BitVec 6) (a : SReg) (b : Src) (cls : BitVec 2) (ret : Bool) (s : State) : Out :=
  .next (forwardForm sw 1 tag a b cls ret s)
def execA2a (sw : Bool) (tag : BitVec 6) (a : SReg) (b : Src) (cls : BitVec 2) (ret : Bool) (s : State) : Out :=
  .next (forwardForm sw 2 tag a b cls ret s)

/-! ### Deliveries (R294, R296 to R299) -/

def State.modForward (s : State) (id : Nat) (f : Forward → Forward) : State :=
  { s with forwards := s.forwards.map fun x => if x.id = id then f x else x }

/-- The deliveries of a list (R294). -/
def listDeliveries (op : Forward) (self : Nat) (bs : List Byte) : List Delivery :=
  (List.range op.n).map fun i =>
    let lo := ofBytes ((bs.drop (16 * i)).take 4)
    let key := BitVec.ofNat 32 (ofBytes ((bs.drop (16 * i + 4)).take 4))
    let addr := ofBytes ((bs.drop (16 * i + 8)).take 8) % 2 ^ 52
    if op.kind = 1 then ⟨op.first + i, lo % 2 ^ 20, self, key, addr, (op.base + i * op.len) % 2 ^ 52, 0⟩
    else ⟨op.first + i, self, lo % 2 ^ 20, key, (op.base + lo / 2 ^ 20 * op.len) % 2 ^ 52, addr, 0⟩

/-- The operation starts: its list is read, once. A list that cannot be read fails every delivery. -/
def beginForward (s : State) (op : Forward) : State :=
  let gc := coreOf op.tid
  let vd := op.vk % 16
  s.withWalks op.id [(gc, vd, true, false, op.list, 16 * op.n)] fun s =>
    match engLocs s gc vd true false op.list (16 * op.n) with
    | none => s.modForward op.id fun f => { f with begun := true, status := worse f.status stXlate }
    | some locs =>
      if !engClear s op.tid op.id locs false then s
      else match s.gatherBytes locs with
        | none => (s.countUe vd locs).modForward op.id fun f => { f with begun := true, status := worse f.status stMemue }
        | some bs => (s.meets (some vd) locs).modForward op.id fun f =>
            { f with begun := true, todo := listDeliveries op (s.thread op.tid).fabno bs }

/-- Tensor id of an address in a package's DRAM window, of its row's in a remap window; 0 for a scratchpad (R297, R323). -/
def tensorIdAt (s : State) (vk va : Nat) : Nat :=
  if va < dramEnd then ((remapped s vk va).map fun off => (tensorOf s vk off).1).getD 0 else 0

/-- A path's last 48 hops, in words 5 to 7 of a record (R299). -/
def pathWords (path : List Nat) : Nat :=
  let p := path.drop (path.length - 48)
  ofDigits (p ++ List.replicate (48 - p.length) 15)
where
  ofDigits : List Nat → Nat
    | [] => 0
    | d :: ds => d % 16 + 16 * ofDigits ds

/-- The eight words of a record (R297). -/
def recordOf (op : Forward) (x : Delivery) (rgen stid dtid : Nat) (path : List Nat) : List Word :=
  let p := pathWords path
  let w (n : Nat) : Word := BitVec.ofNat 64 n
  [w (rgen % 2 ^ 16 * 2 ^ 48 + min path.length 48 * 2 ^ 37 + (if op.ret then 2 ^ 36 else 0) + op.kind * 2 ^ 32 +
      op.seg * 2 ^ 26 + x.idx),
   w (dtid * 2 ^ 52 + x.recv * 2 ^ 32 + stid * 2 ^ 20 + x.orig),
   w ((genOf op.gens stid).toNat * 2 ^ 52 + x.saddr),
   w ((genOf op.gens dtid).toNat * 2 ^ 52 + x.daddr),
   w (x.key.toNat * 2 ^ 32 + op.len), w (p % 2 ^ 64), w (p / 2 ^ 64 % 2 ^ 64), w (p / 2 ^ 128)]

/-- The core of a fabric number, if the team has it and, for an entry of a list, its thread has not retired (R294). -/
def fabCore (s : State) (t : Team) (list : Bool) (fab : Nat) : Option Nat :=
  match t.seat fab with
  | none => none
  | some x => if list && !(s.thread x.tid).live then none else some (coreOf x.tid)

/-- Both packages of a delivery are reached. -/
def coresMeet (s : State) (vd a b : Nat) : Bool := pkgOf a == pkgOf b || reachable s vd (pkgOf a) (pkgOf b)

/-- Make one delivery of a transfer by a route: the copy engine moves its bytes in the transfer's class, and when they have all
moved, the bytes, the record and the notice are written (R296). A delivery that fails makes no record. -/
def deliver (s : State) (op : Forward) (x : Delivery) (path : List Nat) : State :=
  let vd := op.vk % 16
  let done (s : State) (st : Nat) : State := s.modForward op.id fun f =>
    { f with todo := f.todo.filter fun y => y.idx != x.idx, status := worse f.status st }
  match s.findTeam vd op.team with
  | none => done s stRoutelost
  | some t => match fabCore s t (op.kind == 1) x.orig, fabCore s t (op.kind == 2) x.recv with
    | some oc, some rc =>
      if !coresMeet s vd oc rc then done (s.scramble (writableLocs s rc vd x.daddr op.len)) stRoutelost
      else s.withWalks op.id ([(oc, vd, true, false, x.saddr, op.len), (rc, vd, false, true, x.daddr, op.len)] ++
          if op.naddr = 0 then [] else [(rc, vd, true, true, op.naddr, 8)]) fun s =>
        let src := if sillageWindow x.saddr then engLocs s oc vd true false x.saddr op.len else none
        let dst := if sillageWindow x.daddr then engLocs s rc vd false true x.daddr op.len else none
        let note := if op.naddr = 0 then some [] else engLocs s rc vd true true op.naddr 8
        match src, dst, note with
        | some src, some dst, some note =>
          let total := ceilDiv op.len 64
          if s.follow vd (pkgOf rc) (s.routerOf oc) path != some (s.routerOf rc) || !engClear s op.tid op.id src false ||
            !engClear s op.tid op.id (dst ++ note) true then s
          else if x.paid < total then
            let (s, paid) := s.moveNext (coreOf op.tid) op.vk op.id total x.paid op.cls
            s.modForward op.id fun f => { f with todo := f.todo.map fun y => if y.idx = x.idx then { y with paid := paid } else y }
          else match s.gatherBytes src with
            | none => done ((s.countUe vd src).scramble dst) stMemue
            | some bs =>
              let (s, ok) := (s.meets (some vd) src).engWrite vd dst bs
              if !ok then done s stMemue
              else match s.gatherBytes note with
                | none => done (s.countUe vd note) stMemue
                | some old =>
                  let ovk := vdKey (pkgOf oc) vd
                  let rvk := vdKey (pkgOf rc) vd
                  let rec_ := recordOf op x (s.pkg (pkgOf rc)).routeGen (tensorIdAt s ovk x.saddr) (tensorIdAt s rvk x.daddr) path
                  let s := (s.meets (some vd) note).makeRecord (s.routerOf rc) ⟨rvk, op.team, op.seg, x.idx, rec_⟩
                  done (s.engWrite vd note (toBytes note.length ((ofBytes old + 1) % 2 ^ 64))).1 stOk
        | _, _, _ => done (s.scramble (if sillageWindow x.daddr then writableLocs s rc vd x.daddr op.len else [])) stXlate
    | _, _ => done s stRoutelost

/-- A route that a delivery may take, for the default schedule: a shortest one (log entry 10). -/
def deliveryRoute (s : State) (op : Forward) (x : Delivery) : List Nat :=
  match (s.findTeam (op.vk % 16) op.team).map fun t => (fabCore s t (op.kind == 1) x.orig, fabCore s t (op.kind == 2) x.recv) with
  | some (some oc, some rc) =>
    ((s.routeTo (op.vk % 16) (pkgOf rc) (s.routerOf oc) fun r => r == s.routerOf rc).map fun y => y.2).getD []
  | _ => []

/-- One delivery of a forward transfer by the hops of `path`; a transfer with a list starts by reading it (R294, R296, R299). -/
def execSillageDelivery (op idx : Nat) (path : List Nat) (s : State) : Out :=
  .next <| match s.forwards.find? fun f => f.id = op with
    | none => s
    | some f =>
      if !f.begun then beginForward s f
      else match f.todo.find? fun x => x.idx = idx with
        | none => s
        | some x => deliver s f x path

/-- Every delivery has been written or has failed: the tag (R296). -/
def execSillageTransferComplete (op : Nat) (s : State) : Out :=
  .next <| match s.forwards.find? fun f => f.id = op with
    | none => s
    | some f =>
      if f.begun && f.todo.isEmpty then
        (({ s with forwards := s.forwards.filter fun x => x.id != op } : State).dropUnits fun _ u => u.op == op).setTag
          (coreOf f.tid) f.vk f.tag f.status
      else s

/-! ### RETRACE at issue (R301, R303) -/

/-- Fields of a record. -/
def recW (r : List Word) (i hi lo : Nat) : Nat := field (r.getD i 0) hi lo
def recIndex (r : List Word) : Nat := recW r 0 25 0
def recRecv (r : List Word) : Nat := recW r 1 51 32
def recOrig (r : List Word) : Nat := recW r 1 19 0
def recLen (r : List Word) : Nat := recW r 4 23 0
def recSaddr (r : List Word) : Nat := recW r 2 51 0
def recDaddr (r : List Word) : Nat := recW r 3 51 0
def recKey (r : List Word) : Nat := recW r 4 63 32
def recHops (r : List Word) : Nat := recW r 0 42 37
def recPath (r : List Word) : Nat := (r.getD 5 0).toNat + 2 ^ 64 * (r.getD 6 0).toNat + 2 ^ 128 * (r.getD 7 0).toNat

/-- A record whose tensors have moved on (R303). -/
def recStale (gens : Tbl (BitVec 12)) (r : List Word) : Bool :=
  let stid := recW r 1 31 20
  let dtid := recW r 1 63 52
  (stid != 0 && recW r 0 36 36 == 0 && (genOf gens stid).toNat != recW r 2 63 52) ||
  (dtid != 0 && (genOf gens dtid).toNat != recW r 3 63 52)

/-- The records of a range in the order of R302: ascending KEY, RECV, DADDR; empty slots are skipped. One that cannot be read
comes last. -/
def rangeRecords (s : State) (t : Team) (seg : Nat) (g : Segment) (first cnt : Nat) : List (Nat × List Word) :=
  let rs := (g.records.filter fun i => first ≤ i && i < first + cnt).map fun i => (i, (s.record t seg i).getD [])
  sortBy (fun x => (recKey x.2 * 2 ^ 20 + recRecv x.2) * 2 ^ 52 + recDaddr x.2) (rs.filter fun x => !x.2.isEmpty) ++
    rs.filter fun x => x.2.isEmpty

/-- An origin can be reached from where a record rests (R303, R458). -/
def originReached (s : State) (t : Team) (seg idx fab : Nat) : Bool :=
  match t.seat fab with
  | none => false
  | some x => coresMeet s t.vd (restPkg s t seg idx * 16384) (coreOf x.tid)

/-- Post a lost record to the host and hold it (R307). -/
def askRetrace (vk seg : Nat) (h : Word) (s : State) (idx : Nat) : State :=
  (postCp s vk 8 s.thr.teamNum h.toNat idx).openCase (fnOfVd vk) (vk / 16) (.retrace s.thr.id (seg * 2 ^ 26 + idx))

/-- Cases of a thread's retrace that the host still holds. -/
def retraceHeld (s : State) (t : Nat) : Bool := s.cases.any fun c => match c.kind with
  | .retrace u _ => u == t
  | _ => false

def execRetrace (sw : Bool) (tag : BitVec 6) (a : SReg) (b : Src) (c : SReg) (ty : Ty) (cls : BitVec 2) (land : Bool)
    (s : State) : Out :=
  .next <| match s.thr.wait with
    | .hold 6 _ r =>
      if retraceHeld s s.thr.id then s.bubble
      else ({ s with retraces := s.retraces.map fun x => if x.id = r.toNat then { x with phase := 1 } else x } : State).finish sw
    | _ => s.withRegs (sregs a 3 ++ srcRegs b) fun s =>
      let soff := s.thr.getS a
      let doff := s.thr.getS (sregAt a 1)
      let v2 := s.thr.getS (sregAt a 2)
      let h := s.src b
      match s.myTeam with
      | none => s.trap cPerm h
      | some team => match segByHandle team h with
      | none => s.trap cPerm h
      | some (seg, g) =>
        let first := field v2 25 0
        let cnt := field v2 51 26
        if !g.closed then s.trap cPerm h
        else if g.used < first + cnt || field v2 63 52 != 0 then s.trap cFmtbad v2
        else
          let recs := rangeRecords s team seg g first (if cnt = 0 then g.used - first else cnt)
          let vk := s.thr.vk
          let stale := (recs.filter fun x => recStale (s.vd vk).tensorGen x.2).length
          if stale != 0 then s.trap cStalegen (BitVec.ofNat 64 (stale * 2 ^ 32 + h.toNat % 2 ^ 32))
          else
            let rs : List RetraceRec := recs.map fun x =>
              ⟨x.1, recOrig x.2, !x.2.isEmpty && !originReached s team seg x.1 (recOrig x.2)⟩
            let lost := (rs.filter fun x => x.out).map fun x => x.idx
            let ask := hostRetrace s vk && !lost.isEmpty
            let id := s.seq
            let op : Retrace :=
              { id := id, tid := s.thr.id, vk := vk, team := team.num, seg := seg, tag := tag.toNat, cls := cls, ty := ty,
                land := if land then some c else none, soff := soff, doff := doff, phase := if ask then 0 else 1, recs := rs,
                begun := false, chunks := [], targets := [], detour := false, status := stOk, ended := 0 }
            let notices := (rs.filter fun x => !x.out).flatMap fun x => (noticeLocs s s.thr.vd g x.idx).getD []
            let s := ({ s.bump with retraces := s.retraces ++ [op] } : State).scramble notices
            if ask then
              (lost.foldl (askRetrace vk seg h) s).modThr fun t =>
                { t with wait := .hold 6 false (BitVec.ofNat 64 id), park := none }
            else s.finish sw

/-! ### The data pass (R302, R304 to R306) -/

def State.modRetrace (s : State) (id : Nat) (f : Retrace → Retrace) : State :=
  { s with retraces := s.retraces.map fun x => if x.id = id then f x else x }

/-- The record of a retrace. -/
def retraceRecord (s : State) (t : Team) (r : Retrace) (idx : Nat) : Option (List Word) := s.record t r.seg idx

/-- The locations of a record's target span, an element at a time; none where the record fails (R302). -/
def targetLocs (s : State) (t : Team) (r : Retrace) (x : RetraceRec) (w : List Word) : Option (List (List Nat)) :=
  let n := r.ty.width / 8
  match t.seat x.origin with
  | none => none
  | some seat =>
    if recLen w % n != 0 then none
    else
      let va := (recSaddr w + r.soff.toNat) % 2 ^ 52
      (List.range (recLen w / n)).foldr (fun k acc =>
        match acc, engLocs s (coreOf seat.tid) (r.vk % 16) true true ((va + n * k) % 2 ^ 52) n with
        | some ls, some l => some (l :: ls)
        | _, _ => none) (some [])

/-- The locations of a chunk of a record's gradient span (R304). -/
def chunkLocs (s : State) (t : Team) (r : Retrace) (w : List Word) (k : Nat) : Option (List Nat) :=
  match t.seat (recRecv w) with
  | none => none
  | some seat =>
    let va := (recDaddr w + r.doff.toNat + 64 * k) % 2 ^ 52
    engLocs s (coreOf seat.tid) (r.vk % 16) true false va (min 64 (recLen w - 64 * k))

/-- Add a contribution to the targets, in the order in which the records come. -/
def addTarget (idx off : Nat) (locs : List Nat) : List Target → List Target
  | [] => [⟨locs, [(idx, off)], none, [idx]⟩]
  | t :: ts => if t.locs = locs then { t with adds := t.adds ++ [(idx, off)], recs := t.recs ++ [idx] } :: ts
    else t :: addTarget idx off locs ts

/-- A record fails: what it has not yet added is left out (R307). -/
def failRecord (status : Nat) (r : Retrace) (idx : Nat) : Retrace :=
  { r with recs := r.recs.map fun x => if x.idx = idx then { x with out := true } else x,
           chunks := r.chunks.filter fun c => c.recIdx != idx,
           targets := r.targets.map fun t => { t with adds := t.adds.filter fun a => a.1 != idx },
           status := worse r.status status }

/-- Lay out the targets and the chunks of a retrace whose turn has come. -/
def layRetrace (s : State) (t : Team) (r : Retrace) : Retrace :=
  let n := r.ty.width / 8
  r.recs.foldl (fun r x =>
    if x.out then { r with status := worse r.status stRoutelost }
    else match retraceRecord s t r x.idx with
      | none => failRecord stMemue r x.idx
      | some w => match targetLocs s t r x w with
        | none => failRecord stXlate r x.idx
        | some ls =>
          { r with targets := ls.zipIdx.foldl (fun ts (l, k) => addTarget x.idx (n * k) l ts) r.targets,
                   chunks := r.chunks ++ (List.range (ceilDiv (recLen w) 64)).map fun k => ⟨x.idx, k, false, 0, none, [], false, none⟩ })
    { r with begun := true }

/-! ### The way back (R299, R304 to R306) -/

/-- The other end's port of a hop. -/
def reversedPort : Nat → Nat
  | 0 => 1
  | 1 => 0
  | 2 => 3
  | 3 => 2
  | c => c

/-- The ports of a record's path, last hop first, each reversed. -/
def reversedPath (w : List Word) : List Nat :=
  (List.range (recHops w)).reverse.map fun h => reversedPort (recPath w / 16 ^ h % 16)

/-- The routers that a list of ports leads to, each with the ports that follow it. -/
def routersAlong (s : State) : Nat → List Nat → List (Nat × List Nat)
  | _, [] => []
  | r, c :: cs => match s.portEnd r c with
    | none => []
    | some f => (f, cs) :: routersAlong s f cs

/-- The router that serves the origin of a record. -/
def originRouter (s : State) (t : Team) (r : Retrace) (idx : Nat) : Nat :=
  (((r.recs.find? fun x => x.idx = idx).bind fun x => t.seat x.origin).map fun x => s.routerOf (coreOf x.tid)).getD 0

/-- A record's path leads from its receiver to its origin, or may do so beyond the hops that it kept; that of a record made before a
restore on other slots (R309), or for a replaced origin, does not (log entry 73). -/
def pathHolds (s : State) (g : Segment) (idx : Nat) (w : List Word) (here origin : Nat) : Bool :=
  !g.old.contains idx && (recHops w = 48 || (let rs := routersAlong s here (reversedPath w)
    rs.length = recHops w && (rs.getLast?.map fun x => x.1).getD here = origin))

/-- The port that a chunk takes next, none where it has come to its origin; or no route is left. It takes the recorded port unless
the port's link is down or the router's tables are of another generation than the record: then the tables take it to the nearest
router further on, and it is detoured. A path that ends short of the origin is completed by the tables (R306). -/
def chunkPort (s : State) (vd origin : Nat) (w : List Word) (c : Chunk) : Option (Chunk × Option Nat) :=
  let dest := routerPkg origin
  let c := if c.toward = some c.here then { c with toward := none } else c
  let tables (goal : Nat → Bool) : Option (Nat × Option Nat) := (s.routeTo vd dest c.here goal).map fun x => (x.1, x.2.head?)
  match c.toward, c.way with
  | some g, _ => (tables fun r => r == g).map fun x => (c, x.2)
  | none, [] => if c.here = origin then some (c, none) else (tables fun r => r == origin).map fun x => ({ c with toward := some origin }, x.2)
  | none, p :: ps =>
    if (s.pkg (routerPkg c.here)).routeGen % 2 ^ 16 = recW w 0 63 48 && (s.upPort c.here p).isSome then some (c, some p)
    else
      let later := (routersAlong s c.here (p :: ps)).filter fun x => x.1 != c.here
      match tables fun r => later.any fun x => x.1 == r with
      | some (g, port) => some ({ c with toward := some g, turned := true, way := ((later.find? fun x => x.1 = g).map fun x => x.2).getD [] }, port)
      | none => (tables fun r => r == origin).map fun x => ({ c with toward := some origin, turned := true, way := [] }, x.2)

def State.modChunk (s : State) (id idx k : Nat) (f : Chunk → Chunk) : State :=
  s.modRetrace id fun r => { r with chunks := r.chunks.map fun c => if c.recIdx = idx && c.num = k then f c else c }

/-- A chunk of a retrace. -/
def findChunk (s : State) (id idx k : Nat) : Option (Retrace × Chunk) :=
  (s.retraces.find? fun r => r.id = id).bind fun r => (r.chunks.find? fun c => c.recIdx = idx && c.num = k).map fun c => (r, c)

/-- A chunk crosses the link of a port. -/
def crossPort (s : State) (id idx k port : Nat) : State :=
  s.modChunk id idx k fun c => match s.upPort c.here port with
    | none => c
    | some f => { c with here := f, way := if c.toward.isNone then c.way.tail else c.way }

/-- A chunk enters the accord table of an output port: an entry for its origin core that holds fewer than eight, or a new one; none
where the table is full (R305). -/
def accordEnter (port origin cycle : Nat) (key : Nat × Nat × Nat) (x : Router) : Option Router :=
  let fits (e : AccordEntry) : Bool := e.port == port && e.origin == origin && e.chunks.length < 8
  if x.accord.any fits then
    some { x with accord := x.accord.map fun e => if fits e then { e with chunks := e.chunks ++ [key] } else e }
  else if (x.accord.filter fun e => e.port == port).length < 64 then
    some { x with accord := x.accord ++ [⟨port, origin, [key], cycle⟩] }
  else none

/-- A chunk goes on from the router where it is, to an accord table or, past full ones, to its origin. -/
def sendChunk : Nat → Nat → Nat → Nat → State → State
  | 0, _, _, _, s => s
  | n + 1, id, idx, k, s => match findChunk s id idx k with
    | none => s
    | some (r, c) => match s.findTeam (r.vk % 16) r.team with
      | none => s
      | some t => match retraceRecord s t r idx with
        | none => s.modRetrace id fun r => failRecord stMemue r idx
        | some w =>
          let origin := originRouter s t r idx
          match chunkPort s (r.vk % 16) origin w c with
          | none => s.modRetrace id fun r => failRecord stRoutelost r idx
          | some (c', none) => s.modChunk id idx k fun _ => c'
          | some (c', some port) =>
            let s := s.modChunk id idx k fun _ => c'
            let core := (((r.recs.find? fun x => x.idx = idx).bind fun x => t.seat x.origin).map fun x => coreOf x.tid).getD 0
            match accordEnter port core s.cycle (id, idx, k) (s.router c'.here) with
            | some x => s.modRouter c'.here fun _ => x
            | none => sendChunk n id idx k (crossPort s id idx k port)

/-- More hops than a route has. -/
def hopFuel : Nat := 65536

/-- A chunk is outstanding until each of its elements has been added. -/
def chunkOpen (r : Retrace) (c : Chunk) : Bool :=
  c.data.isNone || r.targets.any fun t => t.adds.any fun a => a.1 == c.recIdx && a.2 / 64 == c.num

/-- Request the chunks that the windows of 64 of the origins' copy engines admit (R304). -/
def askChunks (s : State) (t : Team) (id : Nat) : State :=
  match s.retraces.find? fun r => r.id = id with
  | none => s
  | some r =>
    let originOf (idx : Nat) : Nat := ((r.recs.find? fun x => x.idx = idx).map fun x => x.origin).getD 0
    let waiting := (r.chunks.zipIdx.filter fun (c, i) =>
      !c.asked && ((r.chunks.take i).filter fun d => chunkOpen r d && originOf d.recIdx == originOf c.recIdx).length < 64).map fun x => x.1
    waiting.foldl (fun s c => match retraceRecord s t r c.recIdx with
      | none => s.modRetrace id fun r => failRecord stMemue r c.recIdx
      | some w => match t.seat (recRecv w) with
        | none => s.modRetrace id fun r => failRecord stXlate r c.recIdx
        | some x =>
          let here := s.routerOf (coreOf x.tid)
          let ok := pathHolds s (tblGet t.segs r.seg (Segment.empty 0)) c.recIdx w here (originRouter s t r c.recIdx)
          sendChunk hopFuel id c.recIdx c.num (s.modChunk id c.recIdx c.num fun c =>
            { c with asked := true, here := here, way := if ok then reversedPath w else [], turned := !ok })) s

/-- A retrace whose turn it is: no earlier one of its segment is at work (R309). -/
def retraceTurn (s : State) (r : Retrace) : Bool :=
  r.phase == 1 && !((s.retraces.takeWhile fun x => x.id != r.id).any fun x =>
    x.vk % 16 == r.vk % 16 && x.team == r.team && x.seg == r.seg && x.phase != 2)

/-! ### The adds (R302, R307) -/

/-- An element of a chunk that has arrived. -/
def chunkElem (r : Retrace) (n idx off : Nat) : Option Nat :=
  (r.chunks.find? fun c => c.recIdx == idx && c.num == off / 64).bind fun c =>
    c.data.map fun bs => ofBytes ((bs.drop (off % 64)).take n)

/-- Read the element at its first addition: exact in binary32, or as i32 (R302). -/
def startAcc (ty : Ty) (x : Nat) : Nat := if ty.isInt then x else fF32.round .rne false 0 ((fmtOf ty).decode x)

/-- What is written back (R302). -/
def endAcc (ty : Ty) (x : Nat) : Nat := if ty.isInt then x else (fmtOf ty).round .rne false 0 (fF32.decode x)

/-- Add what has arrived to a list of contributions, in order: the accumulator and what is still to come. -/
def addArrived (r : Retrace) (n : Nat) : Nat → List (Nat × Nat) → Nat × List (Nat × Nat)
  | acc, [] => (acc, [])
  | acc, (idx, off) :: rest => match chunkElem r n idx off with
    | none => (acc, (idx, off) :: rest)
    | some y => addArrived r n (combineStep r.ty 0 acc y) rest

/-- Advance one target of a retrace: read at its first addition, written after its last (R302, R304). An uncorrectable error at it
fails every record that covers it (R307). -/
def advanceTarget (id : Nat) (s : State) (locs : List Nat) : State :=
  match s.retraces.find? fun r => r.id = id with
  | none => s
  | some r => match r.targets.find? fun t => t.locs = locs with
    | none => s
    | some t =>
      let n := r.ty.width / 8
      let put (x : Option Target) (s : State) : State := s.modRetrace id fun r =>
        { r with targets := r.targets.flatMap fun y => if y.locs = locs then x.toList else [y] }
      let bad (s : State) : State := s.modRetrace id fun r => t.recs.foldl (failRecord stMemue) r
      let go (s : State) (acc : Nat) : State :=
        let (acc', rest) := addArrived r n acc t.adds
        if !rest.isEmpty || !engClear s r.tid r.id locs true then put (some { t with adds := rest, acc := some acc' }) s
        else
          let (s', ok) := s.engWrite (r.vk % 16) locs (toBytes n (endAcc r.ty acc'))
          put none (if ok then s' else bad s')
      match t.acc, t.adds with
      | some acc, _ => go s acc
      | none, [] => put none s
      | none, (idx, off) :: _ =>
        if (chunkElem r n idx off).isNone || !engClear s r.tid r.id locs false then s
        else match s.gatherBytes locs with
          | none => put none (bad (s.countUe (r.vk % 16) locs))
          | some bs => (fun s => go s (startAcc r.ty (ofBytes bs))) (s.meets (some (r.vk % 16)) locs)

/-- Advance every target of a retrace, and request what its windows then admit. -/
def advanceRetrace (s : State) (id : Nat) : State :=
  match s.retraces.find? fun r => r.id = id with
  | none => s
  | some r =>
    let s := (r.targets.map fun t => t.locs).foldl (advanceTarget id) s
    match s.findTeam (r.vk % 16) r.team with
    | none => s
    | some t => askChunks s t id

/-- The walks of a retrace's target spans. -/
def targetWalks (s : State) (t : Team) (r : Retrace) : List (Nat × Nat × Bool × Bool × Nat × Nat) :=
  r.recs.filterMap fun x => match retraceRecord s t r x.idx, t.seat x.origin with
    | some w, some o =>
      if x.out then none else some (coreOf o.tid, r.vk % 16, true, true, (recSaddr w + r.soff.toNat) % 2 ^ 52, recLen w)
    | _, _ => none

/-- A chunk is in an accord table. -/
def inAccord (s : State) (key : Nat × Nat × Nat) : Bool := s.routers.any fun (_, x) => x.accord.any fun e => e.chunks.contains key

/-- A chunk arrives at its origin, detoured on its way or not; or a retrace whose turn has come begins its data pass (R304 to R307).
The origin's copy engine moves it in the retrace's class (R396). -/
def execRetraceChunkArrival (op idx : Nat) (detoured : Bool) (s : State) : Out :=
  .next <| match s.retraces.find? fun r => r.id = op with
    | none => s
    | some r => match s.findTeam (r.vk % 16) r.team with
      | none => s
      | some t =>
        if !retraceTurn s r then s
        else if !r.begun then
          s.withWalks op (targetWalks s t r) fun s => askChunks (s.modRetrace op fun r => layRetrace s t r) t op
        else match r.chunks[idx]? with
          | none => s
          | some c =>
            if !c.asked || c.data.isSome || inAccord s (op, c.recIdx, c.num) || !c.way.isEmpty ||
              c.here != originRouter s t r c.recIdx || c.turned != detoured then s
            else match retraceRecord s t r c.recIdx with
              | none => advanceRetrace (s.modRetrace op fun r => failRecord stMemue r c.recIdx) op
              | some w =>
                let walks := (t.seat (recRecv w)).toList.map fun seat =>
                  (coreOf seat.tid, r.vk % 16, true, false, (recDaddr w + r.doff.toNat + 64 * c.num) % 2 ^ 52, min 64 (recLen w - 64 * c.num))
                s.withWalks op walks fun s => match chunkLocs s t r w c.num with
                | none => advanceRetrace (s.modRetrace op fun r => failRecord stXlate r c.recIdx) op
                | some locs =>
                  if !engClear s r.tid r.id locs false then s
                  else
                    let core := (((r.recs.find? fun x => x.idx = c.recIdx).bind fun x => t.seat x.origin).map fun x => coreOf x.tid).getD 0
                    let (s, started) := s.askUnit (arbKey 1 core) (copyUnit r.vk op locs.length r.cls)
                    if !started then s
                    else
                      let s := s.modRetrace op fun r => { r with detour := r.detour || detoured }
                      match s.gatherBytes locs with
                      | none => advanceRetrace ((s.countUe (r.vk % 16) locs).modRetrace op fun r => failRecord stMemue r c.recIdx) op
                      | some bs => advanceRetrace ((s.meets (some (r.vk % 16)) locs).modChunk op c.recIdx c.num fun d => { d with data := some bs }) op

/-- An entry of an accord table is emitted as one packet: eight chunks, or 32 cycles after its first. Its chunks enter the tables of
the next router (R305); where the port's link has gone down they are sent again from this one (R446). -/
def execAccordEmit (router port : Nat) (s : State) : Out :=
  .next <| match (s.router router).accord.find? fun e => e.port == port && (8 ≤ e.chunks.length || e.since + 32 ≤ s.cycle) with
    | none => s
    | some e => e.chunks.foldl (fun s (id, idx, k) => sendChunk hopFuel id idx k (crossPort s id idx k port))
        (s.modRouter router fun x => { x with accord := x.accord.erase e })

/-- The word that LAND lands (R308). -/
def retraceWord (r : Retrace) : Word :=
  BitVec.ofNat 64 ((r.recs.filter fun x => x.out).length * 2 ^ 32 + r.tag % 64 * 16 + r.status)

/-- Every element of the range is written: tag, then the word (R308). A target that an earlier access of the thread held back is
tried again. -/
def execRetraceComplete (op : Nat) (s : State) : Out :=
  let gone (s : State) : State := ({ s with retraces := s.retraces.filter fun x => x.id != op } : State).dropUnits fun _ u => u.op == op
  let landing (r : Retrace) (s : State) : State := match r.land with
    | none => gone s
    | some d =>
      let (s', ok) := s.landWord (coreOf r.tid) r.tid d.val r.ended (retraceWord r)
      if ok then gone s' else s
  .next <| match s.retraces.find? fun r => r.id = op with
    | none => s
    | some r =>
      if r.phase == 2 then landing r s
      else if !retraceTurn s r || !r.begun then s
      else if !r.targets.isEmpty || r.chunks.any (fun c => c.data.isNone) then advanceRetrace s op
      else
        let st := if r.status = stOk && r.detour then stDetour else r.status
        let r' : Retrace := { r with phase := 2, status := st, ended := s.seq }
        landing r' ((s.bump.modRetrace op fun _ => r').setTag (coreOf r.tid) r.vk r.tag st)

end Sys2Proof.Machine
end

