-- ==== Sys2Proof/Machine/Expert.lean ====
section
/-! DEFINITION. Expert routing: the heap, counters, and remap windows (R312 to R325). -/

namespace Sys2Proof.Machine

/-! ### The heap (R312 to R315) -/

def heapScore (x : Word) : Val := fF32.decode (field x 63 32)
def heapId (x : Word) : Nat := field x 15 0

def Val.isNan : Val → Bool
  | .nan => true
  | _ => false

/-- Entry x beats entry y (R313). -/
def beats (x y : Word) : Bool :=
  match cmpV (heapScore x) (heapScore y) with
  | some .gt => true
  | some .eq => decide (heapId x < heapId y)
  | some .lt => false
  | none =>
    if (heapScore x).isNan then (heapScore y).isNan && decide (heapId x < heapId y) else true

/-- Put b above every entry that it beats and below every other (R315). -/
def place (b : Word) (es : List Word) : List Word :=
  (es.filter fun e => beats b e) ++ [b] ++ es.filter fun e => !beats b e

def heapK (h : Word) : Nat := field h 3 0
def heapN (h : Word) : Nat := field h 7 4
def heapInvalid (h : Word) : Bool := field h 63 8 != 0 || heapK h == 0 || 8 < heapK h || heapK h < heapN h

/-- A heap's word `i`. -/
def heapWord (s : State) (loc i : Nat) : Word := BitVec.ofNat 64 (ofBytes (memReadN s.mem (loc + 8 * i) 8))

/-- Write words of a heap from word `i` on. -/
def heapWrite (loc : Nat) (s : State) (i : Nat) (ws : List Word) : State :=
  (s.writeLoc (loc + 8 * i) (ws.map fun w => toBytes 8 w.toNat).flatten).1

/-- The step stands in port order behind what the core's port has taken of these bytes, behind the writes in the store queue,
which leave with it, and behind the values that the thread still awaits (R180, R230, R314). -/
def heapClear (s : State) (loc : Nat) : Bool :=
  let port := (s.core s.gc).port
  !(port.any fun a => a.tid == s.thr.id && (a.acq || a.valuePending)) && earlierLeave s port port &&
  !((ordered port).any fun a => a.todo.any fun p => overlaps p.loc p.len loc 72)

/-- The writes in the store queue have left. -/
def State.leaveAll (s : State) : State :=
  let ids := (queuedBefore (s.core s.gc).port).map fun b => b.id
  if ids.isEmpty then s
  else s.modCore s.gc fun c => { c with port := c.port.map fun b => if ids.contains b.id then { b with sent := true } else b }

/-- The checks of R185 on the 72 bytes, then the step once its turn in port order has come. -/
def heapForm (a : Src) (rs : List Reg) (pre : State → Option Word) (wait : State → State) (k : Nat → State → State)
    (s : State) : State :=
  s.withRegs (srcRegs a ++ rs) fun s =>
    let va := baseOff (s.src a) 0
    s.checked 8 (itemsOf s s.gc s.thr.vd va.toNat 72 false true .ownSpad) fun locs s =>
      match pre s with
      | some w => s.trap cFmtbad w
      | none => if heapClear s (locs.headD 0) then k (locs.headD 0) s.leaveAll else wait s

/-- The hold of HSINIT and HSIFT. -/
def heapHold (s : State) : State := s.holdUntil false id

def execHsinit (sw : Bool) (a b : Src) (s : State) : Out :=
  .next (heapForm a (srcRegs b) (fun s => if s.src b = 0 || 8 < (s.src b).toNat then some (s.src b) else none) heapHold
    (fun loc s => (heapWrite loc s 0 (s.src b :: List.replicate 8 0)).finish sw) s)

/-- A heap word that holds an uncorrectable error: its address, if any (R187). -/
def heapBad (s : State) (loc : Nat) : Option Nat := (List.range 9).find? fun i => s.bad (loc + 8 * i) 8

/-- The nine words of a heap are read at their home, a correctable error corrected and counted (R443, R445). -/
def State.heapMeets (s : State) (loc : Nat) : State := s.countUe s.thr.vd (bytesAt loc 72)

/-- The state after HSIFT's step, and D (R315). -/
def sift (loc : Nat) (b : Word) (s : State) : State × Word :=
  let h := heapWord s loc 0
  let n := heapN h
  let es := (List.range n).map fun i => heapWord s loc (i + 1)
  if (heapScore b).isNan then (s, 0)
  else if n < heapK h then (heapWrite loc s 0 ((h + 16) :: place b es), 1)
  else if beats b (es.headD 0) then (heapWrite loc s 1 (place b es.tail), 2)
  else (s, 0)

/-- The step of HSIFT: a bad word leaves the heap as it is and D open (R187, log entry 21). -/
def execHsift (sw : Bool) (d : SReg) (a b : Src) (s : State) : Out :=
  .next (heapForm a (srcRegs b) (fun s => if field (s.src b) 31 16 != 0 then some (s.src b) else none) heapHold
    (fun loc s =>
      match heapBad s loc with
      | some i =>
        let w := Config.freeWord s.free
        let va := (s.src a).setWidth 52 + BitVec.ofNat 52 (8 * i)
        (((({ s with free := s.free + 1 } : State).countUe s.thr.vd (bytesAt loc (8 * i + 8))).pend s.thr.id cMemue
          (va.setWidth 64)).writeS d w).finish sw
      | none =>
        let s := s.heapMeets loc
        if heapInvalid (heapWord s loc 0) then s.trap cFmtbad (heapWord s loc 0)
        else
          let (s', r) := sift loc (s.src b) s
          (s'.writeS d r).finish sw) s)

def execHpop (sw : Bool) (d : SReg) (a : Src) (s : State) : Out :=
  .next (s.withSlot fun s => heapForm a [] (fun _ => none) State.bubble
    (fun loc s =>
      match heapBad s loc with
      | some i =>
        let id := s.seq
        (((s.countUe s.thr.vd (bytesAt loc (8 * i + 8))).defer [.s d 0] .plain true).modThr fun t => t.modEntry id fun e => { e with fail := some cMemue }).finish sw
      | none =>
        let s := s.heapMeets loc
        let h := heapWord s loc 0
        let n := heapN h
        if heapInvalid h then s.trap cFmtbad h
        else if n = 0 then (s.defer [.s d (BitVec.allOnes 64)] .plain true).finish sw
        else
          let e := heapWord s loc n
          let s := heapWrite loc (heapWrite loc s n [0]) 0 [h - 16]
          (s.defer [.s d e] .plain true).finish sw) s)

/-! ### Counters (R317 to R319) -/

/-- HIST at issue: one increment for each active lane, in ascending order. -/
def histForm (sw : Bool) (sz : Sz) (pg : PReg) (a : Src) (b : VReg) (ovf : Bool) (s : State) : State :=
  s.withRegs (srcRegs a ++ [.v b, .p pg]) fun s =>
    let ls := activeAddrs (s.thr.getP pg) sz.bits sz.lanes fun i => addrPlus (s.src a) (8 * s.vlane sz.bits b i)
    s.checked 8 (laneItems 8 true true .sliceOnly ls) fun locs s =>
      if ls.isEmpty then s.finish sw
      else if queueFull (s.core s.gc).port then s.bubble
      else
        let acc := s.newAccess (.hist ovf) .t false false none 0 (laneParts 8 ls locs fun _ => [])
        (s.bump.toPort s.gc acc).finish sw

def execHist (sw : Bool) (sz : Sz) (pg : PReg) (a : Src) (b : VReg) (s : State) : Out :=
  .next (histForm sw sz pg a b false s)
def execHistOvf (sw : Bool) (sz : Sz) (pg : PReg) (a : Src) (b : VReg) (s : State) : Out :=
  .next (histForm sw sz pg a b true s)

/-! ### Remap windows (R320 to R322) -/

/-- The word of a descriptor that breaks R321, if any. -/
def remapBad (w0 w1 : Word) : Option Word :=
  if field w0 63 52 != 0 || w0.toNat % 8 != 0 then some w0
  else if field w1 63 26 != 0 || field w1 15 13 != 0 || field w1 12 0 < 1 || 4096 < field w1 12 0 then some w1
  else none

/-- The row that breaks R321, if any. -/
def rowBad (rowBytes : Nat) (rows : List Nat) : Option Nat :=
  rows.find? fun r => 2 ^ 52 ≤ r || r % 64 != 0 || remapBase < r + rowBytes

/-- Read `n` 8-byte words for an instruction that reads a structure in one hold: it waits behind the thread's earlier
accesses to them; none at an uncorrectable error. -/
def holdWords (s : State) (locs : List Nat) (k : Option (List Nat) → State → State) : State :=
  if engClear s s.thr.id s.seq locs false then
    k ((s.gatherBytes locs).map (elems 8)) (s.countUe s.thr.vd locs)
  else s.holdUntil false id

/-- A structure that could not be read: MEMUE, and nothing defined (log entry 34). -/
def structUe (sw : Bool) (va : Nat) (s : State) : State := (s.pend s.thr.id cMemue (BitVec.ofNat 64 va)).finish sw

/-- Locations of bytes from checked pieces. -/
def pieceLocs (s : State) (items : List Item) (locs : List Nat) : List Nat :=
  ((items.zip locs).map fun (p, l) => (List.range p.len).map fun i => reached s s.gc s.thr.vd (p.va + i) (l + i)).flatten

def execRemapw (sw : Bool) (a b : Src) (s : State) : Out :=
  .next (s.withRegs (srcRegs a ++ srcRegs b) fun s =>
    let va := (baseOff (s.src a) 0).toNat
    let w := s.src b
    let vk := s.thr.vk
    let items := itemsOf s s.gc s.thr.vd va 16 true false .any
    s.checked 16 items fun locs s =>
      if 63 < w.toNat then s.trap cFmtbad w
      else if (tblFind (s.vd vk).remaps w.toNat).isSome then s.trap cPerm w
      else holdWords s (pieceLocs s items locs) fun ws s =>
        match ws with
        | none => structUe sw va s
        | some ws =>
          let w0 : Word := BitVec.ofNat 64 (ws.getD 0 0)
          let w1 : Word := BitVec.ofNat 64 (ws.getD 1 0)
          match remapBad w0 w1 with
          | some x => s.trap cFmtbad x
          | none =>
            let n := field w1 12 0
            let rowBytes := (field w1 25 16 + 1) * 64
            let items := itemsOf s s.gc s.thr.vd w0.toNat (8 * n) true false .any
            s.checkedMid items none fun ls s =>
              holdWords s (pieceLocs s items ls) fun rows s =>
                match rows with
                | none => structUe sw w0.toNat s
                | some rows => match rowBad rowBytes rows with
                  | some x => s.trap cFmtbad (BitVec.ofNat 64 x)
                  | none => (s.modVd vk fun v =>
                      { v with remaps := tblPut v.remaps w.toNat ⟨s.thr.teamNum, rowBytes, rows⟩ }).finish sw)

/-- A range names a byte of a window. -/
def inWindow (w lo len : Nat) : Bool := overlaps lo len (remapBase + w * 2 ^ 30) (2 ^ 30)

/-- The package of a member of a team. -/
def seatPkg (t : Team) (fab : Nat) : Option Nat := (t.seat fab).map fun x => pkgOfThread x.tid

/-- An access of a thread names a byte of a window, by a part or by the range that it names. -/
def Access.inWindow (w : Nat) (a : Access) : Bool :=
  (a.parts.any fun p => Machine.inWindow w p.va.toNat p.len) || a.named.any fun r => Machine.inWindow w r.1 r.2

/-- Accesses of the VD's threads that have translated through a window: in the ports, and vector stores still to enter one. -/
def accessesIn (s : State) (vk w : Nat) : Bool :=
  (s.cores.any fun (_, c) => c.port.any fun a => (s.thread a.tid).vk == vk && a.inWindow w) ||
  (s.thr :: s.threads.map fun e => e.2).any fun t => t.vk == vk && t.storeHold.any (Access.inWindow w)

/-- Running copies that use a window, their scale arrays included, and running matrix entries with locks on it. -/
def enginesIn (s : State) (vk w : Nat) : Bool :=
  s.cores.any fun (gc, c) => pkgOf gc == vk / 16 &&
    ((c.copies.any fun r => r.vk == vk && r.state == .running && r.uses.any fun u => inWindow w u.1 (u.2 + 1 - u.1)) ||
     c.locks.any fun l => l.vk == vk && inWindow w l.lo (l.hi + 1 - l.lo) && c.mq.any fun m => m.id == l.owner && m.running)

/-- Records that a forward transfer has made. -/
def madeRecords (s : State) (t : Team) (f : Forward) : List (List Word) :=
  match tblFind t.segs f.seg with
  | none => []
  | some g => (g.records.filter fun i => f.first ≤ i && i < f.first + f.n).filterMap (s.record t f.seg)

/-- A forward transfer, of any package of the VD, that has read its list through a window of this one, or has a delivery, made or still
to make, whose origin or receiver reads or writes through it. -/
def forwardIn (s : State) (vk w : Nat) (f : Forward) : Bool :=
  f.vk % 16 == vk % 16 && ((f.kind != 0 && f.vk == vk && inWindow w f.list (16 * f.n)) ||
    match s.findTeam (vk % 16) f.team with
    | none => false
    | some t =>
      let meets (orig saddr recv daddr : Nat) : Bool := (seatPkg t orig == some (vk / 16) && inWindow w saddr f.len) ||
        (seatPkg t recv == some (vk / 16) && inWindow w daddr f.len)
      (f.todo.any fun d => meets d.orig d.saddr d.recv d.daddr) ||
        (madeRecords s t f).any fun x => meets (recOrig x) (recSaddr x) (recRecv x) (recDaddr x))

/-- A running retrace of any package with a record whose target or gradient span stands in a window of this one. -/
def retraceIn (s : State) (vk w : Nat) (r : Retrace) : Bool :=
  r.vk % 16 == vk % 16 && r.phase == 1 && r.begun && match s.findTeam (vk % 16) r.team with
    | none => false
    | some t => r.recs.any fun x => match retraceRecord s t r x.idx with
      | none => false
      | some y => (seatPkg t x.origin == some (vk / 16) && inWindow w ((recSaddr y + r.soff.toNat) % 2 ^ 52) (recLen y)) ||
          (seatPkg t (recRecv y) == some (vk / 16) && inWindow w ((recDaddr y + r.doff.toNat) % 2 ^ 52) (recLen y))

/-- A firing of any package with a member here that has started and whose SRC or DST stands in a window. -/
def planIn (vk w : Nat) (p : Plan) : Bool :=
  let n := p.members.length
  match p.running with
  | none => false
  | some f => (f.parts.any fun x => x.phase == 0 && (p.members[x.pos]?.map pkgOfThread) == some (vk / 16)) &&
      (inWindow w (planSrc p.desc) (planSrcLen p.desc n) || inWindow w (planDst p.desc) (planDstLen p.desc n))

/-- An access or engine operation of the VD has translated through the window and is not complete (R322). -/
def windowBusy (s : State) (vk w : Nat) : Bool :=
  accessesIn s vk w || enginesIn s vk w || s.forwards.any (forwardIn s vk w) || s.retraces.any (retraceIn s vk w) ||
  s.vds.any fun (k, v) => k % 16 == vk % 16 && v.plans.any fun (_, p) => planIn vk w p

def execRemapx (sw : Bool) (a : Src) (s : State) : Out :=
  .next (s.withRegs (srcRegs a) fun s =>
    let w := s.src a
    let vk := s.thr.vk
    if 63 < w.toNat then s.trap cFmtbad w
    else if (tblFind (s.vd vk).remaps w.toNat).isNone then s.finish sw
    else s.holdUntil (!windowBusy s vk w.toNat) fun s =>
      (s.modVd vk fun v => { v with remaps := tblDel v.remaps w.toNat }).finish sw)

end Sys2Proof.Machine
end

