-- ==== Sys2Proof/Machine/Rates.lean ====
section
/-! DEFINITION. Units of traffic, rate writes and throttling (R391 to R404). -/

namespace Sys2Proof.Machine

/-! ### Units (R392, R395, R396) -/

/-- The work that a VD has under way somewhere on its packages and its class, each by the number that names its units: accesses,
sends and barrier arrivals; copies; transfers and retraces; plan firings (R396). -/
def workItems (s : State) (vk : Nat) : List (Nat × Nat) :=
  (s.cores.flatMap fun (_, c) =>
    (c.port.filterMap fun a => if (s.thread a.tid).vk == vk then some (a.id, a.cls.toNat) else none) ++
    (c.mq.filterMap fun m => if m.vk == vk then some (m.id, m.cls.toNat) else none) ++
    c.copies.filterMap fun r => if r.vk == vk && r.state != .settled then some (r.id, w0Cls r.w0) else none) ++
  ((s.thr :: s.threads.map fun e => e.2).flatMap fun t => if t.vk == vk then t.sendq.map fun e => (e.id, e.cls.toNat) else []) ++
  (s.posted.filterMap fun p => match p with
    | .arrival n _ _ v _ _ _ cls => if v = vk then some (n, cls.toNat) else none
    | _ => none) ++
  (s.forwards.filterMap fun f => if f.vk % 16 == vk % 16 then some (f.id, f.cls.toNat) else none) ++
  (s.retraces.filterMap fun r => if r.vk % 16 == vk % 16 then some (r.id, r.cls.toNat) else none) ++
  s.vds.flatMap fun (k, v) => if k % 16 != vk % 16 then [] else
    v.plans.filterMap fun (i, p) => p.running.map fun f => (firingId k i f.seq, p.cls.toNat)

/-- The number of the units of the part's own work for a VD, whose class is normal (R396). -/
def ownWork : Nat := 0

/-- A product's next unit, at a matrix arbiter: the entry, running with units still to start. -/
def productUnits (s : State) (arb : Nat) (u : Offer) : Bool :=
  (s.core (arb % 2 ^ 40)).mq.any fun m =>
    m.id == u.op && m.vk == vdKey (arbPkg arb) u.owner && m.running && m.units != 0 && m.unit == u.size && m.cls.toNat == u.cls

/-- A unit that may be offered: of an owner that has a bucket here, no longer than a server serves without a break (R392). At a
matrix arbiter it is the next unit of a running product, which waits only once (R149). A copy engine's units come with the steps of
its operations, and any other's with work of the VD, in the class of that work, or with the part's own for it or for none (R396). -/
def offerOk (s : State) (arb : Nat) (u : Offer) : Bool :=
  (owners s arb).contains u.owner && 1 ≤ u.size && u.size ≤ unitMax (arbClass arb) &&
  match arbClass arb with
  | 0 => productUnits s arb u && !(s.arb arb).pending.any fun v => v.op == u.op
  | 1 => false
  | _ => (u.op == ownWork && u.cls == 1) || (u.owner != 16 && (workItems s (vdKey (arbPkg arb) u.owner)).contains (u.op, u.cls))

/-- A started unit of a product (R392). -/
def startBlock (arb : Nat) (u : Offer) (s : State) : State :=
  if arbClass arb != 0 then s
  else s.modCore (arb % 2 ^ 40) fun c =>
    { c with mq := c.mq.map fun m => if m.id = u.op then { m with units := m.units - 1 } else m }

/-- Units arrive at an arbiter, which has accrued up to now, and one starts if its server is free; a copy engine's start in the steps
of its operations. -/
def execArbiterGrant (arb : Nat) (offers : List Offer) (s : State) : Out :=
  let s := s.accrueAt arb
  let s := offers.foldl (fun s u => if offerOk s arb u then s.modArb arb fun a => { a with pending := a.pending ++ [u] } else s) s
  let a := s.arb arb
  .next <| if arbClass arb = 1 || s.cycle < a.busy then s
    else match choose s arb a with
      | none => s
      | some (u, borrowed) => startBlock arb u (startUnit s arb u borrowed)

/-- A matrix entry of a VD may start: a token in its bucket, or one to borrow, with no token withheld from the core (R18, R149, R395,
R403). -/
def mayStart (s : State) (gc vk : Nat) : Bool :=
  factorAt s (arbKey 0 gc) != 0 && s.mayAsk (arbKey 0 gc) (vk % 16)

/-- The units that wait for work of a VD which is over, or saved, are gone (R403). -/
def State.dropIdle (s : State) (vk : Nat) : State :=
  s.dropUnits fun arb u => 1 < arbClass arb && arbPkg arb == vk / 16 && u.owner == vk % 16 && u.op != ownWork &&
    !(workItems s vk).contains (u.op, u.cls)

/-! ### Rate writes (R393, R394) -/

/-- The fields of a rate register. -/
def rateOfWord (c : Nat) (w : Word) : Rate :=
  ⟨if c = 8 then field w 14 0 else field w 12 0, field w 35 24, bitOf w 38, bitOf w 39⟩

/-- The rate that a VD will have once what it has accepted takes effect. -/
def Vd.nextRate (v : Vd) (c : Nat) : Rate := ((v.newRates[c]?).getD none).getD (v.rateOf c)

/-- The groups of VDs that can reach one arbiter of a class (R394). -/
def reachGroups (s : State) (pkg c : Nat) : List (List Nat) :=
  let vds := (List.range 16).filter fun v => (s.vd (vdKey pkg v)).isVd
  if c = 0 then
    s.cores.filterMap fun (gc, x) => if pkgOf gc = pkg then
        some (vds.filter fun v => let g := x.grantOf (vdKey pkg v)
                                  g.accs != 0 || g.bufs != 0)
      else none
  else if c = 1 then
    (List.range 16384).filterMap fun k =>
      match vds.filter fun v => tblGet (s.vd (vdKey pkg v)).slotMap k 0 != 0 with
      | [] => none
      | g => some g
  else [vds]

/-- A rate write that the command processor refuses. -/
def rateRefused (s : State) (vk c : Nat) (r : Rate) : Bool :=
  let pkg := vk / 16
  let of (v : Nat) : Nat := tokens s pkg c (if v = vk % 16 then r else (s.vd (vdKey pkg v)).nextRate c)
  (r.rate != 0 && r.depth == 0) || (c == 8 && 32000 < r.rate) ||
  (reachGroups s pkg c).any fun g => g.contains (vk % 16) && reservable c < (g.map of).sum

/-- A write of a rate register (R393, R394). -/
def execRateWrite (vk : Nat) (cls : RateClass) (val : Word) (s : State) : Out :=
  let c := classNum cls
  let r := rateOfWord c val
  .next <| if !(s.vd vk).isVd || rateRefused s vk c r then s
    else s.modVd vk fun v => { v with newRates := v.newRates.setIfInBounds c (some r) }

/-- Clamp the levels of a VD's buckets of a class to a new depth. -/
def clampLevels (s : State) (vk c depth : Nat) : State :=
  { s with arbiters := s.arbiters.map fun (k, a) =>
      if arbClass k = c && arbPkg k = vk / 16 then
        match tblFind a.buckets (vk % 16) with
        | some b => (k, { a with buckets := tblPut a.buckets (vk % 16) { b with level := min b.level depth } })
        | none => (k, a)
      else (k, a) }

/-- What a VD has accepted of a class takes effect. -/
def applyRate (vk : Nat) (s : State) (c : Nat) : State :=
  match ((s.vd vk).newRates[c]?).getD none with
  | none => s
  | some r =>
    clampLevels (s.modVd vk fun v => { v with rates := v.rates.setIfInBounds c r, newRates := v.newRates.setIfInBounds c none })
      vk c r.depth

/-- A package has accepted rates or modes that wait for the next multiple of 1,024 cycles (R394, R442). -/
def epochDue (s : State) (pkg : Nat) : Bool :=
  (s.pkg pkg).newRmode.isSome || s.vds.any fun (k, v) => k / 16 == pkg && (v.newRmode.isSome || v.newRates.toList.any Option.isSome)

/-- Accepted rates and recovery modes of a package take effect, at every arbiter at once (R394, R442). -/
def applyEpoch (s : State) (pkg : Nat) : State :=
  if !epochDue s pkg then s
  else
    let s := (List.range 16).foldl (fun s v => (List.range 9).foldl (applyRate (vdKey pkg v)) s) (s.accruePkg pkg)
    let s := (List.range 16).foldl (fun s v => match (s.vd (vdKey pkg v)).newRmode with
      | some m => s.modVd (vdKey pkg v) fun x => { x with rmode := m, newRmode := none }
      | none => s) s
    match (s.pkg pkg).newRmode with
    | some m => s.modPkg pkg fun p => { p with rmode := m, newRmode := none }
    | none => s

/-- The next multiple of 1,024 cycles of a package's clock, from the present cycle on. -/
def nextEpoch (s : State) (pkg : Nat) : Nat :=
  let base := (s.pkg pkg).resetAt
  base + ceilDiv (s.cycle - base) 1024 * 1024

/-- A multiple of 1,024 cycles of the package's clock. -/
def execRateEpoch (pkg : Nat) (s : State) : Out := .next (if nextEpoch s pkg = s.cycle then applyEpoch s pkg else s)

/-- Time passes to a cycle; what was accepted takes effect at the first multiple of 1,024 cycles on the way. -/
def State.passTo (s : State) (c : Nat) : State :=
  let due := sortBy (fun x => x.1) (s.pkgs.filterMap fun e =>
    let n := if nextEpoch s e.1 = s.cycle then s.cycle + 1024 else nextEpoch s e.1
    if epochDue s e.1 && n ≤ c then some (n, e.1) else none)
  let s := due.foldl (fun s (n, pkg) => applyEpoch { s with cycle := n } pkg) s
  { s with cycle := c }

/-- Worst-case blocking of a class for the current tables: V × Umax + 2, and one refresh at a DRAM channel (R399); 0, its reset value,
while no VD may start a unit there (R393). -/
def blocking (s : State) (pkg c : Nat) : Nat :=
  let vs := (List.range 16).filter fun v => let r := (s.vd (vdKey pkg v)).rateOf c
                                            (s.vd (vdKey pkg v)).isVd && (r.rate != 0 || r.borrow)
  let n := min (vs.length + (if c ≤ 1 then 0 else 1)) (classVmax c)
  if vs.isEmpty then 0 else n * classUmax c + 2 + (if c = 8 then 280 else 0)

/-- What a rate register reads (R393). -/
def rateWord (s : State) (vk c : Nat) : Word :=
  let r := (s.vd vk).rateOf c
  BitVec.ofNat 64 (blocking s (vk / 16) c * 2 ^ 48 + (if r.borrow then 2 ^ 39 else 0) + (if r.lend then 2 ^ 38 else 0) +
    r.depth * 2 ^ 24 + r.rate)

/-! ### Throttling (R401, R402) -/

/-- A change of a core's factor is one that the part reports: it leaves 256, moves by 16 or more from the last value reported, or
returns to 256. -/
def throttleMoved (last now : Nat) : Bool :=
  (last = 256 && now != 256) || (now = 256 && last != 256) || 16 ≤ (if now < last then last - now else now - last)

/-- Report the throttle of a massif to a VD that holds matrix grants on changed cores there: the clusters of the cores whose factor has
moved, and the lowest factor among them. -/
def reportThrottle (pkg : Nat) (cores : List Nat) (s : State) (vm : Nat × Nat) : State :=
  let (v, m) := vm
  let vk := vdKey pkg v
  let mine := cores.filter fun gc => massifOf gc == m && (s.vd vk).isVd &&
    (let g := (s.core gc).grantOf vk
     g.accs != 0 || g.bufs != 0) && throttleMoved (tblGet (s.vd vk).thrReported gc 256) (s.factorOf gc)
  match mine with
  | [] => s
  | g :: gs =>
    let lowest := gs.foldl (fun x gc => min x (s.factorOf gc)) (s.factorOf g)
    let mask := (List.range 16).foldl (fun x c => if mine.any fun gc => clusterOf gc % 16 == c then x + 2 ^ c else x) 0
    (postCp s vk 18 0 (m + mask * 16) lowest).modVd vk fun x =>
      { x with thrReported := mine.foldl (fun r gc => tblPut r gc (s.factorOf gc)) x.thrReported }

/-- Report a changed throttle of cores to every VD. -/
def reportCores (pkg : Nat) (cores : List Nat) (s : State) : State :=
  ((List.range 16).map fun v => (List.range 8).map fun m => (v, m)).flatten.foldl (reportThrottle pkg cores) s

/-- The controller sets the factor of cores, at a multiple of 1,024 cycles. -/
def execThrottleChange (pkg : Nat) (cores : List Nat) (factor : Nat) (s : State) : Out :=
  .next <| if nextEpoch s pkg != s.cycle || 256 < factor then s
    else
      let mine := cores.filter fun gc => pkgOf gc == pkg
      let s := mine.foldl (fun s gc =>
        (s.modArb (arbKey 0 gc) fun _ => s.accrued (arbKey 0 gc)).modCore gc fun c => { c with factor := factor }) s
      reportCores pkg mine s

end Sys2Proof.Machine
end

