-- ==== Sys2Proof/Machine/Fetch.lean ====
section
/-! DEFINITION. Lines of code (R33 to R35): well-formedness, the units of a head, and a line built around one
instruction. -/

namespace Sys2Proof.Machine

/-- Slot `k` of a line. -/
def Line.slot (l : Line) (k : Nat) : Nat := (l.slots.getD k 0).toNat

/-- P(h): tail units of the heads up to h (R34). -/
def Line.tails (l : Line) : Nat → Nat
  | 0 => 0
  | h + 1 => l.tails h + headTl (l.slot (h + 1))

/-- A well-formed line (R35). -/
def Line.ok (l : Line) : Bool :=
  let d := l.slot 0
  d / 32 == 0 && 1 ≤ l.n && 1 + l.n + l.tails l.n ≤ 32 &&
  (List.range 32).all fun k => k ≤ l.n || 32 - l.tails l.n ≤ k || l.slot k == 0

/-- The units of head `h`, 1 ≤ h ≤ n: the head, then its tail (R34). -/
def Line.units (l : Line) (h : Nat) : List Nat :=
  let head := l.slot h
  head :: (List.range (headTl head)).map fun k => l.slot (32 - l.tails h + k)

/-- The line of 64 bytes (R4, R33). -/
def lineOfBytes (a : Addr) (bs : List Byte) : Line :=
  ⟨a, (List.range 32).map fun k => BitVec.ofNat 16 ((bs.getD (2 * k) 0).toNat + 256 * (bs.getD (2 * k + 1) 0).toNat)⟩

/-- A line whose only head carries these units: head in slot 1, tail at the end. -/
def lineOfUnits (a : Addr) (us : List Nat) : Line :=
  let tl := us.length - 1
  ⟨a, (List.range 32).map fun k =>
    if k = 0 then 1 else if k = 1 then BitVec.ofNat 16 (us.getD 0 0)
    else if 32 - tl ≤ k then BitVec.ofNat 16 (us.getD (k - (32 - tl) + 1) 0) else 0⟩

/-- The instruction of head `h`. -/
def Line.instr (l : Line) (h : Nat) : Dec Instr := decode (l.units h)

/-- The step that a head which is no instruction takes (R50). -/
def illegalOf (us : List Nat) : Instr :=
  .encodingNotAnInstruction (BitVec.ofNat 16 (us.getD 0 0)) (BitVec.ofNat 16 (us.getD 1 0)) (BitVec.ofNat 16 (us.getD 2 0))
    (BitVec.ofNat 16 (us.getD 3 0))

/-- The units of a table word of `nbits` bits: head on top, units below the word zero, and as many tail units as the head
states. -/
def tableUnits (nbits w : Nat) : List Nat :=
  let units := nbits / 16
  let unit (k : Nat) : Nat := if k < units then w / 2 ^ (16 * (units - 1 - k)) % 65536 else 0
  (List.range (1 + headTl (unit 0))).map unit

/-! ### The turn (R326) -/

/-- The first cycle from `c` on in which slot `slot` issues, with the package reset at cycle `base`. -/
def slotCycle (base c slot : Nat) : Nat := c + (slot + 8 - (c - base) % 8) % 8

/-- The cycle of a thread's next turn: the first of its slot that no earlier turn of it has used. -/
def State.turnCycle (s : State) (x : Thread) : Nat :=
  slotCycle (s.pkg (pkgOfThread x.id)).resetAt (max s.cycle x.nextTurn) (slotOf x.id)

/-- Bring a thread into focus for a turn. -/
def State.atTurn (s : State) (t : Nat) : State :=
  let s := s.focus t
  let c := s.turnCycle s.thr
  (s.passTo c).modThr fun x => { x with nextTurn := c + 1 }

/-- A fault of the line that the thread in focus waits for takes the turn that comes next (R348). -/
def State.useTurn (s : State) : State := s.modThr fun x => { x with nextTurn := s.turnCycle x + 1 }

/-- What a thread does at its turn. -/
inductive TurnAct where
  | bubble
  | deliver
  | pushStores
  /-- A thread that waits for work or sleeps stops (R365). -/
  | stop
  | badIndex (line : Addr)
  | issue (i : Instr)
  deriving DecidableEq, Repr

/-- A pending cause is delivered at this turn: outside handler mode, unless what the park waits for came before the cause arose, or
the instruction has issued and holds (R330, R347, R349). -/
def Thread.delivers (t : Thread) : Bool :=
  t.called &&
  (match t.park with
   | some p => p.cut || !t.parkOver p
   | none => true) &&
  match t.wait with
  | .hold .. => false
  | _ => true

/-- The head at the pc of a held line: its instruction or what is wrong with it (R35, R37). -/
def Thread.head (t : Thread) : TurnAct :=
  let la := lineAddr t.pc
  match t.lineAt la with
  | none => .bubble
  | some l =>
    let h := headIndex t.pc
    if h = 0 || h > l.n then .badIndex la
    else match l.instr h with
      | .ok i => .issue i
      | .error _ => .issue (illegalOf (l.units h))

/-- What the thread does at its turn (R327). -/
def Thread.turn (t : Thread) : TurnAct :=
  match t.st with
  | .absent | .loading | .retired | .switchWait _ => .bubble
  | .waitWork _ | .sleeping _ => if t.delivers then .deliver else if t.stop = 1 then .stop else .bubble
  | .ready =>
    if !t.storeHold.isEmpty then .pushStores
    else if t.stop = 2 then .bubble
    else if t.delivers then .deliver
    else match t.want with
      | some _ => .bubble
      | none => t.head

/-- A park of this thread has lasted its limit at this turn (R329). -/
def State.parkExpired (s : State) : Bool :=
  match s.thr.park with
  | some p => p.expired s.cycle
  | none => false

end Sys2Proof.Machine
end

