-- ==== Sys2Proof/Machine/Matrix.lean ====
section
/-! DEFINITION. The matrix engine: configuration, queue, operand loads, products, accumulator loads and stores (R141 to
R168). -/

namespace Sys2Proof.Machine

/-! ### The configuration word (R144, R145) -/

def cfgM (w : Word) : Nat := 8 * 2 ^ field w 5 4
def cfgN (w : Word) : Nat := 8 * 2 ^ field w 9 8
def cfgK (w : Word) : Nat := 32 * (field w 15 12 + 1)
def cfgAccm (w : Word) : Nat := field w 17 16
def cfgA (w : Word) : Nat := field w 23 18
def cfgB (w : Word) : Nat := field w 29 24

/-- The path of a configuration: 0 plane, 1 BF16, 2 FP32. -/
def cfgPath (w : Word) : Nat := if bpiP (cfgA w) != 0 then 0 else if cfgA w = 0x09 then 1 else 2

/-- A configuration word fits a row of R145. -/
def cfgOk (w : Word) : Bool :=
  field w 63 30 == 0 && field w 11 10 == 0 && field w 7 6 == 0 && field w 3 0 == 0 && field w 5 4 != 3 && field w 9 8 != 3 &&
  ((bpiP (cfgA w) != 0 && bpiP (cfgB w) != 0 && cfgAccm w != 3) ||
   (cfgA w == 0x09 && cfgB w == 0x09 && cfgAccm w == 0 && cfgK w ≤ 256) ||
   (cfgA w == 0x0A && cfgB w == 0x0A && cfgAccm w == 0 && cfgK w ≤ 128))

/-! ### Tiles of an entry (R146) -/

/-- Tiles by number: 0 to 7 accumulators, 8 to 11 operand buffers (R143). -/
def bufTile (b buf : Bool) : Nat := 8 + (if b then 2 else 0) + (if buf then 1 else 0)

def maskTiles (mask : Nat) : List Nat := (List.range 8).filter fun i => mask / 2 ^ i % 2 = 1

/-- The tiles that an operation names. -/
def MOp.tiles : MOp → List Nat
  | .mcfg _ => List.range 12
  | .mzero mask => maskTiles mask.toNat
  | .mld b _ _ _ buf .. => [bufTile b buf]
  | .mldacc _ acc _ => [acc]
  | .mma _ acc ab bb => [acc, bufTile false ab, bufTile true bb]
  | .mst _ _ _ acc .. => [acc]
  | .mstq _ _ _ acc .. => [acc]
  | .mscl _ _ _ acc _ => [acc]
  | .deliver buf .. => [buf]

def MOp.isCfg : MOp → Bool
  | .mcfg _ => true
  | _ => false

def MOp.isDelivery : MOp → Bool
  | .deliver .. => true
  | _ => false

/-- A tile is granted to a VD on a core (R143). -/
def Grant.hasTile (g : Grant) (n : Nat) : Bool := if n < 8 then g.accs.getLsbD n else g.bufs.getLsbD (n - 8)

/-! ### Windows of memory (R155, R163 to R165) -/

/-- The row pitch in elements. -/
def pitch (pe : Nat) : Nat := 8 * pe

/-- One element to read or write: its number, address and length. -/
abbrev MRef := Nat × Nat × Nat

/-- Address of byte offset `o` of a pointer. -/
def mAt (p : Word) (o : Nat) : Nat := (ptrVa p + o) % 2 ^ 52

/-- Numbers: plane word `i` of block `k` of row `r`; scale bytes from 2^20 on. -/
def planeNum (r k i : Nat) : Nat := (r * 16 + k) * 8 + i
def scaleNum (r k : Nat) : Nat := 2 ^ 20 + r * 16 + k

/-- Index of the first element of the stored block that belongs to row `r`, block `k`: without TR, row r from 32k on; with
TR, old block `j` of tile `k` (R155, R157). -/
def blockIdx (tr : Bool) (p r k j : Nat) : Nat := if tr then (32 * k + j) * p else r * p + 32 * k

/-- What an operand load of `rows` rows and `kb` blocks reads (R155 to R157). With TR its tiles are numbered by old block. -/
def loadRefs (path : Nat) (a sp : Word) (tr : Bool) (pe rows kb : Nat) : List MRef :=
  let p := pitch pe
  if path = 0 then
    let q := ptrQ a
    let pl := bpiP (ptrFmt a)
    let lines := if tr then 32 else rows
    ((List.range lines).map fun r => ((List.range kb).map fun k =>
      let x := blockIdx tr p r k r
      ((List.range q).map fun i => (planeNum r k i, mAt a (4 * pl * (x / 32) + 4 * i), 4)) ++
      (if ptrScaled a then [(scaleNum r k, mAt sp (x / 2 ^ ptrBlog a), 1)] else [])).flatten).flatten
  else
    let n := fmtSize (ptrFmt a)
    ((List.range rows).map fun r => (List.range (32 * kb)).map fun k =>
      (r * 512 + k, mAt a ((if tr then k * p + r else r * p + k) * n), n)).flatten

/-- First and last byte of references. -/
def refSpan (rs : List MRef) : Nat × Nat :=
  match rs with
  | [] => (0, 0)
  | (_, a, n) :: rest => rest.foldl (fun (lo, hi) (_, b, m) => (min lo b, max hi (b + m - 1))) (a, a + n - 1)

/-- The references of an accumulator's elements in row-major order, `n` bytes each. -/
def accRefs (a : Word) (pe m n size : Nat) : List MRef :=
  ((List.range m).map fun i => (List.range n).map fun j => (i * 32 + j, mAt a ((i * pitch pe + j) * size), size)).flatten

/-- The references of a quantized store: a row's planes in one run, then its exponent (R165). A row's offset is an exact fraction of
the pitch, whether or not that is a multiple of 32 (log entry 78). -/
def quantRefs (a sp : Word) (pe m : Nat) : List MRef :=
  let pl := bpiP (ptrFmt a)
  ((List.range m).map fun r =>
    [(r, mAt a (4 * pl * (r * pitch pe) / 32), 4 * pl), (2 ^ 20 + r, mAt sp (r * pitch pe / 32), 1)]).flatten

/-- The element and scale references of an entry under its configuration. -/
def MOp.refs (cfg : Word) : MOp → List MRef
  | .mld b a sp _ _ tr _ pe _ => loadRefs (cfgPath cfg) a sp tr pe (if b then cfgN cfg else cfgM cfg) (cfgK cfg / 32)
  | .mldacc a _ pe => accRefs a pe (cfgM cfg) (cfgN cfg) 4
  | .mst _ _ a _ pe _ => accRefs a pe (cfgM cfg) (cfgN cfg) (fmtSize (ptrFmt a))
  | .mstq _ a sp _ pe _ => quantRefs a sp pe (cfgM cfg)
  | _ => []

def MOp.stores : MOp → Bool
  | .mst .. => true
  | .mstq .. => true
  | _ => false

/-- The ranges that an entry registers; the window of a nested read ends with the last plane that is read (R147, log entry 77). -/
def MOp.locks (vk owner : Nat) (cfg : Word) (op : MOp) : List Lock :=
  let rs := op.refs cfg
  let main := rs.filter fun r => r.1 < 2 ^ 20
  let scale := rs.filter fun r => 2 ^ 20 ≤ r.1
  let lock (x : List MRef) : List Lock :=
    if x.isEmpty then [] else [⟨vk, (refSpan x).1, (refSpan x).2, op.stores, owner⟩]
  lock main ++ lock scale

/-! ### Issue (R146 to R151) -/

/-- Entries of a core's queue; deliveries have a slot of their own. -/
def queuedEntries (c : Core) : Nat := (c.mq.filter fun m => !m.op.isDelivery).length

/-- Queue an entry, with its locks; a full queue or lock table leaves a bubble. -/
def enqueue (sw : Bool) (tag : BitVec 6) (op : MOp) (cfg : Word) (pre : State → State) (s : State) : State :=
  let gc := s.gc
  let c := s.core gc
  let ls := op.locks s.thr.vk s.seq cfg
  if 8 ≤ queuedEntries c || !locksFit c ls.length then s.bubble
  else
    let e : MEntry :=
      { id := s.seq, tid := s.thr.id, vk := s.thr.vk, tag := tag.toNat, op := op, cfg := cfg, running := false, todo := [],
        got := [], units := 0, unit := 0, status := stOk, dests := [], cls := s.thr.tcls, dsts := [], refused := stOk }
    (((pre s).bump.modCore gc fun c => { c with mq := c.mq ++ [e], locks := c.locks ++ ls }).finish sw)

/-- The configuration that ctl.mcfg shows (R144). -/
def State.mcfg (s : State) : Word := ((s.core s.gc).mpartOf s.thr.vk).shown

/-- ILLEGAL raised by a matrix instruction: the head and its tail (R50, R151). -/
def State.illegal (s : State) (i : Instr) : State := s.trap cIllegal (illegalWord (encode i))

/-- The checks at issue, in order: the configuration, the path and the restrictions that it decides; the tiles, of which PERM shows
the first that is not granted, the accumulator before `ab` and `bb` and the lowest of a mask (log entry 74); then, with the sources
present, the pointers' own (R143, R151). -/
def matrixForm (i : Instr) (rs : List Reg) (ok : Word → Bool) (tiles : List Nat) (ptr : Word → State → Option (Nat × Word))
    (k : Word → State → State) (s : State) : State :=
  let cfg := s.mcfg
  if !bitOf cfg 0 || !ok cfg then s.illegal i
  else match tiles.find? fun n => !((s.core s.gc).grantOf s.thr.vk).hasTile n with
  | some n => s.trap cPerm (BitVec.ofNat 64 n)
  | none => s.withRegs rs fun s => match ptr cfg s with
    | some (code, v) => s.trap code v
    | none => k cfg s

def execMcfg (sw : Bool) (tag : BitVec 6) (a : Src) (s : State) : Out :=
  .next (s.withRegs (srcRegs a) fun s =>
    let w := s.src a
    if !cfgOk w then s.illegal (.mcfg sw tag a)
    else
      let gc := s.gc
      let vk := s.thr.vk
      enqueue sw tag (.mcfg (w ||| 1)) (w ||| 1) (fun s => s.modCore gc fun c =>
        { c with mparts := tblPut c.mparts vk { c.mpartOf vk with shown := w ||| 1 } }) s)

def execMzero (sw : Bool) (tag : BitVec 6) (mask : BitVec 8) (s : State) : Out :=
  .next (matrixForm (.mzero sw tag mask) [] (fun _ => true) (maskTiles mask.toNat) (fun _ _ => none)
    (fun cfg s => enqueue sw tag (.mzero mask) cfg id s) s)

/-- The element pointer of an operand load is none that the path takes (R155, R156). -/
def loadPtrBad (b : Bool) (pe : Nat) (cfg a : Word) : Bool :=
  let f := ptrFmt a
  let allowed := match cfgPath cfg with
    | 0 => f == (if b then cfgB cfg else cfgA cfg)
    | 1 => f == 0x09 || ((f == 0x0B || f == 0x0C) && ptrBlog a == 0)
    | _ => f == 0x0A
  !ptrOk a || !allowed || (1 ≤ ptrBlog a && ptrBlog a ≤ 4) || ((bpiP f != 0 || ptrScaled a) && pitch pe % 32 != 0)

/-- The scale pointer and the alignment of an operand load (R156). -/
def loadScaleBad (a sp : Word) : Option (Nat × Word) :=
  if ptrScaled a && ptrFmt sp != 0x20 then some (cFmtbad, sp)
  else if ptrVa a % ptrAlign a != 0 then some (cAlign, BitVec.ofNat 64 (ptrVa a))
  else none

/-- MLDA and MLDB (R154 to R159). The scale pointer is read only where the operand is scaled. A BPI source under TR is ILLEGAL where
the swapped dimension is not 32, on whatever path (R156); it is judged with the pointer (log entry 76). -/
def loadOperand (i : Instr) (sw : Bool) (tag : BitVec 6) (op : Bool) (a b : Src) (mc buf tr : Bool) (g : BitVec 3)
    (pe : BitVec 10) (s : State) : State :=
  matrixForm i (srcRegs a) (fun _ => true) [bufTile op buf]
    (fun cfg s =>
      if tr && bpiP (ptrFmt (s.src a)) != 0 && (if op then cfgN cfg else cfgM cfg) != 32 then
        some (cIllegal, illegalWord (encode i))
      else if loadPtrBad op pe.toNat cfg (s.src a) then some (cFmtbad, s.src a) else none)
    (fun cfg s => s.withRegs (if ptrScaled (s.src a) then srcRegs b else []) fun s =>
      let sp := if ptrScaled (s.src a) then s.src b else 0
      match loadScaleBad (s.src a) sp with
      | some (code, v) => s.trap code v
      | none => enqueue sw tag (.mld op (s.src a) sp mc buf tr g.toNat pe.toNat s.thr.mgrp.toNat) cfg id s) s

def execMlda (sw : Bool) (tag : BitVec 6) (a b : Src) (mc buf tr : Bool) (g : BitVec 3) (pe : BitVec 10) (s : State) : Out :=
  .next (loadOperand (.mlda sw tag a b mc buf tr g pe) sw tag false a b mc buf tr g pe s)
def execMldb (sw : Bool) (tag : BitVec 6) (a b : Src) (mc buf tr : Bool) (g : BitVec 3) (pe : BitVec 10) (s : State) : Out :=
  .next (loadOperand (.mldb sw tag a b mc buf tr g pe) sw tag true a b mc buf tr g pe s)

/-- A pointer that must have one of these formats, with BLOG 0 and RPL 0. -/
def plainPtr (fmts : List Nat) (a : Word) : Option (Nat × Word) :=
  if !ptrOk a || !fmts.contains (ptrFmt a) || ptrBlog a != 0 || ptrRpl a != 0 then some (cFmtbad, a)
  else if ptrVa a % ptrAlign a != 0 then some (cAlign, BitVec.ofNat 64 (ptrVa a))
  else none

def execMldacc (sw : Bool) (tag : BitVec 6) (a : Src) (acc : BitVec 3) (pe : BitVec 10) (s : State) : Out :=
  .next (matrixForm (.mldacc sw tag a acc pe) (srcRegs a) (fun _ => true) [acc.toNat]
    (fun cfg s => plainPtr [if cfgAccm cfg = 0 then 0x0A else 0x05] (s.src a))
    (fun cfg s => enqueue sw tag (.mldacc (s.src a) acc.toNat pe.toNat) cfg id s) s)

/-- MMAP, MMAH, MMAS: path 0, 1, 2 (R151). -/
def productForm (i : Instr) (path : Nat) (sw : Bool) (tag : BitVec 6) (acc : BitVec 3) (ab bb : Bool) (s : State) : State :=
  matrixForm i [] (fun cfg => cfgPath cfg == path) [acc.toNat, bufTile false ab, bufTile true bb] (fun _ _ => none)
    (fun cfg s => enqueue sw tag (.mma path acc.toNat ab bb) cfg id s) s

def execMmap (sw : Bool) (tag : BitVec 6) (acc : BitVec 3) (ab bb : Bool) (s : State) : Out :=
  .next (productForm (.mmap sw tag acc ab bb) 0 sw tag acc ab bb s)
def execMmah (sw : Bool) (tag : BitVec 6) (acc : BitVec 3) (ab bb : Bool) (s : State) : Out :=
  .next (productForm (.mmah sw tag acc ab bb) 1 sw tag acc ab bb s)
def execMmas (sw : Bool) (tag : BitVec 6) (acc : BitVec 3) (ab bb : Bool) (s : State) : Out :=
  .next (productForm (.mmas sw tag acc ab bb) 2 sw tag acc ab bb s)

/-- Queue an entry that draws `n` times under RS at issue (R62). -/
def enqueueDraws (sw : Bool) (tag : BitVec 6) (rm : Rm) (n : Nat) (op : List Nat → MOp) (cfg : Word) (s : State) : State :=
  let r := s.takeDraws rm n
  let c := s.core s.gc
  if 8 ≤ queuedEntries c || !locksFit c ((op []).locks s.thr.vk s.seq cfg).length then s.bubble
  else enqueue sw tag (op r.2) cfg id r.1

def execMst (sw : Bool) (tag : BitVec 6) (rm : Rm) (sat : Bool) (a : Src) (acc : BitVec 3) (pe : BitVec 10) (s : State) : Out :=
  .next (matrixForm (.mst sw tag rm sat a acc pe) (srcRegs a) (fun _ => true) [acc.toNat]
    (fun _ s => plainPtr [0x0A, 0x08, 0x09, 0x0B, 0x0C, 0x05, 0x03, 0x01] (s.src a))
    (fun cfg s => enqueueDraws sw tag rm (cfgM cfg * cfgN cfg) (.mst rm sat (s.src a) acc.toNat pe.toNat) cfg s) s)

def execMstq (sw : Bool) (tag : BitVec 6) (rm : Rm) (a b : Src) (acc : BitVec 3) (pe : BitVec 10) (s : State) : Out :=
  .next (matrixForm (.mstq sw tag rm a b acc pe) (srcRegs a ++ srcRegs b) (fun cfg => cfgN cfg == 32) [acc.toNat]
    (fun _ s =>
      let p := s.src a
      if !ptrOk p || bpiP (ptrFmt p) == 0 || ptrBlog p != 5 || ptrRpl p != 0 then some (cFmtbad, p)
      else if ptrFmt (s.src b) != 0x20 then some (cFmtbad, s.src b)
      else if ptrVa p % 4 != 0 then some (cAlign, BitVec.ofNat 64 (ptrVa p))
      else none)
    (fun cfg s => enqueueDraws sw tag rm (cfgM cfg * 32) (.mstq rm (s.src a) (s.src b) acc.toNat pe.toNat) cfg s) s)

def execMscl (sw : Bool) (tag : BitVec 6) (rm : Rm) (sat : Bool) (a : Src) (acc : BitVec 3) (s : State) : Out :=
  .next (matrixForm (.mscl sw tag rm sat a acc) (srcRegs a) (fun cfg => cfgAccm cfg == 0 || (rm == .rne && !sat)) [acc.toNat]
    (fun _ _ => none)
    (fun cfg s => enqueueDraws sw tag rm (cfgM cfg * cfgN cfg) (.mscl rm sat (s.src a) acc.toNat) cfg s) s)

/-! ### Operand buffers from bytes (R157) -/

def blockKey (r k : Nat) : Nat := r * 16 + k

/-- The block held for a class, exponent and codes; a zero block's codes are zero. -/
def heldBlock (e lift : Nat) (codes : List Int) : Block :=
  if e = 0 then ⟨0, 0, List.replicate 32 0⟩ else if e = 255 then ⟨2, 255, codes⟩ else ⟨1, e + lift, codes⟩

/-- What an element reference has read, as a number. -/
def gotNum (got : Tbl (List Byte)) (n : Nat) : Nat := ofBytes (tblGet got n [])

/-- The stored exponent of a line's block; 127 without scales. -/
def gotScale (a : Word) (got : Tbl (List Byte)) (r k : Nat) : Nat := if ptrScaled a then gotNum got (scaleNum r k) else 127

/-- The codes of a line's block. -/
def gotCodes (a : Word) (got : Tbl (List Byte)) (r k : Nat) : List Int :=
  let planes := (List.range (ptrQ a)).map fun i => gotNum got (planeNum r k i)
  (List.range 32).map (bpiCode planes)

/-- A plane-path buffer (R157). -/
def planeBuf (a : Word) (tr : Bool) (g rows kb : Nat) (got : Tbl (List Byte)) : OpBuf :=
  let q := ptrQ a
  let lift := bpiP (ptrFmt a) - q
  if !tr then
    ⟨q, none, (List.range rows).foldl (fun t r => (List.range kb).foldl (fun t k =>
      tblPut t (blockKey r k) (heldBlock (gotScale a got r k) lift (gotCodes a got r k))) t) []⟩
  else
    ⟨q + min g (8 - q), none, (List.range kb).foldl (fun t k =>
      let (e, _, n) := reblock q g ((List.range 32).map fun j => gotCodes a got j k) ((List.range 32).map fun j => gotScale a got j k)
      (List.range 32).foldl (fun t i => tblPut t (blockKey i k) (heldBlock e lift (n.getD i []))) t) []⟩

/-- A BF16 or FP32 buffer: bit patterns. -/
def floatBuf (path : Nat) (a : Word) (rows kb : Nat) (got : Tbl (List Byte)) : OpBuf :=
  let f := ptrFmt a
  let conv (x : Nat) : Nat :=
    if path = 1 && f != 0x09 then fBf16.round .rne false 0 ((if f = 0x0B then fE4m3 else fE5m2).decode x) else x
  ⟨0, none, (List.range rows).foldl (fun t r => (List.range kb).foldl (fun t k =>
    tblPut t (blockKey r k) ⟨1, 127, (List.range 32).map fun j => ((conv (gotNum got (r * 512 + 32 * k + j)) : Nat) : Int)⟩) t) []⟩

/-- The buffer that a load leaves. -/
def loadedBuf (cfg : Word) (b : Bool) (a : Word) (tr : Bool) (g : Nat) (got : Tbl (List Byte)) : OpBuf :=
  let rows := if b then cfgN cfg else cfgM cfg
  if cfgPath cfg = 0 then planeBuf a tr g rows (cfgK cfg / 32) got else floatBuf (cfgPath cfg) a rows (cfgK cfg / 32) got

def failedBuf (st : Nat) : OpBuf := ⟨0, some st, []⟩

/-- Block `k` of row `r`; an absent one is of class zero, every element +0 (R152). -/
def OpBuf.block (x : OpBuf) (r k : Nat) : Block := tblGet x.blocks (blockKey r k) ⟨0, 0, List.replicate 32 0⟩

/-! ### Products (R160 to R162) -/

def dot : List Int → List Int → Int
  | x :: xs, y :: ys => x * y + dot xs ys
  | _, _ => 0

/-- One block of an element of MMAP. -/
def mmapBlock (accm : Nat) (ba bb : Block) (acc : BitVec 32) : BitVec 32 :=
  let s := dot ba.vals bb.vals
  if accm = 0 then
    let t : Val :=
      if ba.cls = 2 || bb.cls = 2 then .nan
      else if ba.cls = 0 || bb.cls = 0 then .fin false 0 0
      else .fin (s < 0) s.natAbs ((ba.exp : Int) - 127 + ((bb.exp : Int) - 127))
    BitVec.ofNat 32 (fF32.round .rne false 0 (addV .rne (fF32.decode acc.toNat) t))
  else
    let x := acc.toInt + s
    BitVec.ofInt 32 (if accm = 1 then x else saturate x (-(2 ^ 31 : Nat)) ((2 ^ 31 : Nat) - 1))

/-- The terms of a pair of f32 operands (R162). -/
def splitBf16 (x : Val) : Val × Val × Val :=
  let cutB (v : Val) : Val := fBf16.decode (fBf16.round .rz false 0 v)
  let hi := cutB x
  let r := addV .rne x (negV hi)
  let mid := cutB r
  (hi, mid, cutB (addV .rne r (negV mid)))
where
  negV : Val → Val
    | .nan => .nan
    | .inf n => .inf (!n)
    | .fin n m e => .fin (!n) m e

/-- A value that is neither NaN nor infinite. -/
def finite : Val → Bool
  | .fin .. => true
  | _ => false

/-- The exact terms that a group adds. -/
def groupTerms (path : Nat) (xs ys : List Val) : List Val :=
  let ps := xs.zip ys
  if path = 1 || ps.any (fun p => !finite p.1 || !finite p.2) then ps.map fun p => mulV p.1 p.2
  else (ps.map fun (a, b) =>
    let (ah, am, al) := splitBf16 a
    let (bh, bm, bl) := splitBf16 b
    [mulV al bh, mulV ah bl, mulV am bm, mulV am bh, mulV ah bm, mulV ah bh]).flatten

/-- One group of eight: the sum with the accumulator, formed exactly and rounded once (R161, R162). -/
def groupAdd (path : Nat) (acc : BitVec 32) (xs ys : List Val) : BitVec 32 :=
  BitVec.ofNat 32 (fF32.round .rne false 0 ((groupTerms path xs ys).foldl (addV .rne) (fF32.decode acc.toNat)))

/-- One block of an element of MMAH or MMAS: four groups of eight. -/
def floatBlock (path : Nat) (ba bb : Block) (acc : BitVec 32) : BitVec 32 :=
  let f := if path = 1 then fBf16 else fF32
  let vs (b : Block) : List Val := b.vals.map fun x => f.decode x.toNat
  (List.range 4).foldl (fun acc g => groupAdd path acc (((vs ba).drop (8 * g)).take 8) (((vs bb).drop (8 * g)).take 8)) acc

/-- The accumulator after a product. -/
def product (path : Nat) (cfg : Word) (a b : OpBuf) (acc : Vector (BitVec 32) 1024) : Vector (BitVec 32) 1024 :=
  Vector.ofFn fun i =>
    let m := i.val / 32
    let n := i.val % 32
    if m < cfgM cfg && n < cfgN cfg then
      (List.range (cfgK cfg / 32)).foldl (fun x k =>
        if path = 0 then mmapBlock (cfgAccm cfg) (a.block m k) (b.block n k) x else floatBlock path (a.block m k) (b.block n k) x)
        acc[i.val]
    else acc[i.val]

/-- Cycles of one unit of a product (R392). -/
def unitCycles (path : Nat) (cfg : Word) (a b : OpBuf) : Nat :=
  match path with
  | 0 => a.planes * b.planes
  | 1 => cfgM cfg * cfgN cfg * 32 / 256
  | _ => 6 * (cfgM cfg * cfgN cfg * 32 / 256)

/-! ### Accumulators to bytes (R163 to R166) -/

/-- An accumulator element as a store reads it. -/
def accElem (accm : Nat) (x : BitVec 32) : Elem := if accm = 0 then .val (fF32.decode x.toNat) else .int x.toInt

/-- The elements that MST writes, in row-major order. -/
def mstData (cfg : Word) (rm : Rm) (sat : Bool) (a : Word) (rnd : List Nat) (acc : Vector (BitVec 32) 1024) : List (List Byte) :=
  let n := fmtSize (ptrFmt a)
  ((List.range (cfgM cfg)).map fun i => (List.range (cfgN cfg)).map fun j =>
    toBytes n ((numOf (ptrFmt a)).store rm sat (rnd.getD (i * cfgN cfg + j) 0)
      (accElem (cfgAccm cfg) ((acc[i * 32 + j]?).getD 0)))).flatten

/-- The runs that MSTQ writes: each row's planes and its exponent. -/
def mstqData (cfg : Word) (rm : Rm) (a : Word) (rnd : List Nat) (acc : Vector (BitVec 32) 1024) : List (List Byte) :=
  let p := bpiP (ptrFmt a)
  ((List.range (cfgM cfg)).map fun i =>
    let xs := (List.range 32).map fun j => (accElem (cfgAccm cfg) ((acc[i * 32 + j]?).getD 0)).toVal
    let (e, codes) := quantize p rm ((rnd.drop (i * 32)).take 32) xs
    [unelems 4 (bpiPlanes p codes), [BitVec.ofNat 8 e]]).flatten

/-- The accumulator after MSCL (R166). -/
def scaledAcc (cfg : Word) (rm : Rm) (sat : Bool) (f : Word) (rnd : List Nat) (acc : Vector (BitVec 32) 1024) :
    Vector (BitVec 32) 1024 :=
  Vector.ofFn fun i =>
    let m := i.val / 32
    let n := i.val % 32
    let x := acc[i.val]
    if m < cfgM cfg && n < cfgN cfg then
      if cfgAccm cfg = 0 then
        BitVec.ofNat 32 (fF32.round rm sat (rnd.getD (m * cfgN cfg + n) 0) (mulV (fF32.decode x.toNat) (fF32.decode (field f 31 0))))
      else
        let y := x.toInt * toSigned 32 (field f 31 0)
        BitVec.ofInt 32 (if cfgAccm cfg = 1 then y else saturate y (-(2 ^ 31 : Nat)) ((2 ^ 31 : Nat) - 1))
    else x

/-! ### Start and completion (R146 to R149, R152, R158, R159) -/

def State.modEntry (s : State) (gc id : Nat) (f : MEntry → MEntry) : State :=
  s.modCore gc fun c => { c with mq := c.mq.map fun m => if m.id = id then f m else m }

def Core.acc (c : Core) (n : Nat) : Vector (BitVec 32) 1024 := (c.accs[n]?).getD (Vector.replicate 1024 0)
def Core.accBad (c : Core) (n : Nat) : Option Nat := (c.accFail[n]?).getD none
def Core.buf (c : Core) (n : Nat) : OpBuf := (c.bufs[n - 8]?).getD ⟨0, none, []⟩

def Core.setAcc (c : Core) (n : Nat) (x : Vector (BitVec 32) 1024) (fail : Option Nat) : Core :=
  { c with accs := c.accs.setIfInBounds n x, accFail := c.accFail.setIfInBounds n fail }
def Core.setBuf (c : Core) (n : Nat) (x : OpBuf) : Core := { c with bufs := c.bufs.setIfInBounds (n - 8) x }

/-- Two ranges hold a byte in common, whatever windows or pages name it. -/
def rangesShare (s : State) (gc vd : Nat) (x y : Lock) : Bool :=
  overlaps x.lo (x.hi + 1 - x.lo) y.lo (y.hi + 1 - y.lo) ||
  (spans s gc vd x.lo (x.hi + 1 - x.lo)).any fun p => (spans s gc vd y.lo (y.hi + 1 - y.lo)).any fun q =>
    overlaps p.2.1 p.2.2 q.2.1 q.2.2

/-- Two entries of a partition that may not overlap: a tile in common, a memory range in common, or an MCFG (R146, R152). -/
def conflict (s : State) (gc : Nat) (a b : MEntry) : Bool :=
  a.op.isCfg || b.op.isCfg || a.op.tiles.any (fun t => b.op.tiles.contains t) ||
  (a.op.locks 0 0 a.cfg).any fun x => (b.op.locks 0 0 b.cfg).any (rangesShare s gc (a.vk % 16) x)

/-- An earlier entry of the partition holds the entry back. -/
def heldBack (s : State) (gc : Nat) (e : MEntry) : Bool :=
  ((s.core gc).mq.takeWhile fun m => m.id != e.id).any fun m => m.vk == e.vk && conflict s gc m e

/-- A status that keeps an operation from its work: that of a failed accumulator or buffer (R158, R163). -/
def blockedBy (c : Core) : MOp → Option Nat
  | .mma _ acc ab bb =>
    match [c.accBad acc, (c.buf (bufTile false ab)).failed, (c.buf (bufTile true bb)).failed].filterMap id with
    | [] => none
    | st :: sts => some (sts.foldl worse st)
  | .mst _ _ _ acc .. => c.accBad acc
  | .mstq _ _ _ acc .. => c.accBad acc
  | .mscl _ _ _ acc _ => c.accBad acc
  | _ => none

/-- The bytes that a store writes, one for each reference. -/
def storeData (c : Core) (e : MEntry) : List (List Byte) :=
  match e.op with
  | .mst rm sat a acc _ rnd => mstData e.cfg rm sat a rnd (c.acc acc)
  | .mstq rm a _ acc _ rnd => mstqData e.cfg rm a rnd (c.acc acc)
  | _ => []

/-- The recipients of a multicast: cores of the issuer's cluster with a member thread of the group, but the issuer's (R159). -/
def mcastCores (s : State) (e : MEntry) (gc grp : Nat) : List Nat :=
  match s.findTeam (e.vk % 16) (s.thread e.tid).teamNum with
  | none => []
  | some t => (((groupThreads t grp).map coreOf).filter fun c => clusterOf c == clusterOf gc && c != gc).eraseDups

/-- An entry starts: a token, its place in its partition's order, its translations, and what a store will write. -/
def execMatrixEntryStart (gc id : Nat) (s : State) : Out :=
  let c := s.core gc
  .next <| match c.mq.find? fun m => m.id = id && !m.running && !m.op.isDelivery with
    | none => s
    | some e =>
      let isProduct := match e.op with
        | .mma .. => true
        | _ => false
      let busy := isProduct && c.mq.any fun m => m.vk == e.vk && m.running && m.units != 0
      if heldBack s gc e || busy || !mayStart s gc e.vk then s
      else match blockedBy c e.op with
        | some st => s.modEntry gc id fun m => { m with running := true, status := st }
        | none =>
          let vd := e.vk % 16
          let rs := e.op.refs e.cfg
          let w := e.op.stores
          s.withWalks id (rs.map fun r => (gc, vd, !w, w, r.2.1, r.2.2)) fun s =>
          let locs := rs.map fun r => engLocs s gc vd (!w) w r.2.1 r.2.2
          let data := storeData c e
          let dests := match e.op with
            | .mld _ _ _ true _ _ _ _ grp => mcastCores s e gc grp
            | _ => []
          if locs.any fun l => l.isNone then
            s.modEntry gc id fun m => { m with running := true, status := stXlate, dests := dests,
                                               dsts := if w then rs.flatMap fun r => writableLocs s gc vd r.2.1 r.2.2 else [] }
          else
            let todo : List MElem := (rs.zip locs).zipIdx.map fun ((r, l), i) =>
              ⟨r.1, l.getD [], if w then some (data.getD i []) else none⟩
            let units := match e.op with
              | .mma path _ ab bb =>
                (cfgK e.cfg / 32, unitCycles path e.cfg (c.buf (bufTile false ab)) (c.buf (bufTile true bb)))
              | _ => (0, 0)
            s.modEntry gc id fun m =>
              { m with running := true, todo := todo, dests := dests, dsts := if w then todo.flatMap fun x => x.locs else [], units := if units.2 = 0 then 0 else units.1, unit := units.2 }

/-- One element of a running entry is read or written at its home; a store's elements that overlap go in order (R164). -/
def matrixStep (s : State) (gc id k : Nat) : State :=
  match (s.core gc).mq.find? fun m => m.id = id && m.running with
  | none => s
  | some e => match e.todo[k]? with
    | none => s
    | some x =>
      let done (s : State) : State := s.modEntry gc id fun m => { m with todo := m.todo.eraseIdx k }
      let bad (s : State) : State := s.modEntry gc id fun m => { m with status := worse m.status stMemue }
      match x.data with
      | none =>
        if !engClear s e.tid e.id x.locs false then s
        else match s.gatherBytes x.locs with
          | none => bad (done (s.countUe (e.vk % 16) x.locs))
          | some bs => (done (s.meets (some (e.vk % 16)) x.locs)).modEntry gc id fun m => { m with got := tblPut m.got x.idx bs }
      | some bs =>
        if !engClear s e.tid e.id x.locs true || ((e.todo.take k).any fun y => y.locs.any x.locs.contains) then s
        else
          let (s, ok) := s.engWrite (e.vk % 16) x.locs bs
          done (if ok then s else bad s)

/-- What an operation leaves in its core's tiles. -/
def applyEntry (c : Core) (e : MEntry) : Core :=
  let fail := if e.status = stOk then none else some e.status
  match e.op with
  | .mcfg w =>
    let g := c.grantOf e.vk
    let c := (List.range 8).foldl (fun c n => if g.hasTile n then c.setAcc n (Vector.replicate 1024 0) none else c) c
    let c := [8, 9, 10, 11].foldl (fun c n => if g.hasTile n then c.setBuf n ⟨0, none, []⟩ else c) c
    { c with mparts := tblPut c.mparts e.vk { c.mpartOf e.vk with active := w } }
  | .mzero mask => (maskTiles mask.toNat).foldl (fun c n => c.setAcc n (Vector.replicate 1024 0) none) c
  | .mld b a _ _ buf tr g _ _ =>
    c.setBuf (bufTile b buf) (match fail with
      | some st => failedBuf st
      | none => loadedBuf e.cfg b a tr g e.got)
  | .mldacc _ acc _ => match fail with
    | some st => c.setAcc acc (c.acc acc) (some st)
    | none => c.setAcc acc (Vector.ofFn fun i =>
        if i.val / 32 < cfgM e.cfg && i.val % 32 < cfgN e.cfg then BitVec.ofNat 32 (gotNum e.got i.val)
        else ((c.acc acc)[i.val])) none
  | .mma path acc ab bb =>
    if fail.isSome then c
    else c.setAcc acc (product path e.cfg (c.buf (bufTile false ab)) (c.buf (bufTile true bb)) (c.acc acc)) none
  | .mscl rm sat f acc rnd => if fail.isSome then c else c.setAcc acc (scaledAcc e.cfg rm sat f rnd (c.acc acc)) none
  | .deliver buf x _ _ => c.setBuf buf x
  | .mst .. => c
  | .mstq .. => c

/-- The status that an entry's tag takes: a multicast's is the first other than OK among its deliveries (R148, R159). -/
def MEntry.tagStatus (e : MEntry) : Nat := if e.refused = stOk then e.status else e.refused

/-- An entry completes: its effect, what a failed store leaves undefined, its locks, its tag (R148, R262). -/
def finishEntry (s : State) (gc : Nat) (e : MEntry) : State :=
  let s := s.modCore gc fun c => { applyEntry c e with mq := c.mq.filter fun m => m.id != e.id }
  let s := if e.status = stXlate || e.status = stCancelled then s.scramble e.dsts else s
  (((s.dropUnits fun arb u => arb == arbKey 0 gc && u.op == e.id).forgetWalks e.id gc).unlock gc e.id).setTag gc e.vk e.tag e.tagStatus

/-- An entry with nothing left to do completes, a multicast once every delivery is written. -/
def execMatrixEntryComplete (gc id : Nat) (s : State) : Out :=
  .next <| match (s.core gc).mq.find? fun m => m.id = id && m.running && !m.op.isDelivery with
    | none => s
    | some e => if e.todo.isEmpty && e.units = 0 && e.dests.isEmpty then finishEntry s gc e else s

/-- The buffer that a multicast delivers; a failed one where its fetch has failed (log entry 75). -/
def deliveredBuf (e : MEntry) : Option (Nat × OpBuf) :=
  match e.op with
  | .mld b a _ _ buf tr g _ _ =>
    some (bufTile b buf, if e.status = stOk then loadedBuf e.cfg b a tr g e.got else failedBuf e.status)
  | _ => none

/-- The delivery of a multicast that stands in a core's queue. -/
def Core.delivery (c : Core) (gc id : Nat) : Option MEntry :=
  c.mq.find? fun m => match m.op with
    | .deliver _ _ g i => g == gc && i == id
    | _ => false

/-- A delivery's turn has come: no earlier entry of its VD, whose buffer it is, reads or writes that (R146, R159). -/
def deliveryTurn (c : Core) (m : MEntry) : Bool :=
  !(c.mq.takeWhile fun y => y.id != m.id).any fun y => y.vk == m.vk && m.op.tiles.any fun n => y.op.tiles.contains n

/-- A multicast reaches a recipient, or is written there (R159): a recipient without the grant takes nothing; one that is
ready takes its place in the recipient's order, and is written once no earlier entry uses the buffer. One whose multicast has been
cancelled is written as it then stands (R415). -/
def execMulticastDelivery (gc id dest : Nat) (s : State) : Out :=
  let d := s.core dest
  .next <| match (s.core gc).mq.find? fun m => m.id = id && m.running with
    | none => match d.delivery gc id with
      | some m => if deliveryTurn d m then finishEntry s dest m else s
      | none => s
    | some e =>
      let gone (st : Nat) (s : State) : State := s.modEntry gc id fun m =>
        { m with dests := m.dests.filter fun d => d != dest, refused := if m.refused = stOk then st else m.refused }
      if !e.todo.isEmpty || !e.dests.contains dest then s
      else match deliveredBuf e with
        | none => s
        | some (n, x) =>
          if !(d.grantOf e.vk).hasTile n then gone stCancelled s
          else match d.delivery gc id with
            | none =>
              if d.mq.any fun m => m.op.isDelivery then s
              else
                let m : MEntry :=
                  { id := s.seq, tid := e.tid, vk := e.vk, tag := e.tag, op := .deliver n x gc id, cfg := e.cfg, running := true,
                    todo := [], got := [], units := 0, unit := 0, status := e.status, dests := [], cls := e.cls, dsts := [], refused := stOk }
                s.bump.modCore dest fun c => { c with mq := c.mq ++ [m] }
            | some m => if deliveryTurn d m then gone e.status (finishEntry s dest m) else s

/-- The deliveries that a cancelled multicast has placed fail their buffers, in their turn (R158, R415). -/
def cancelDeliveries (gc id : Nat) (s : State) : State :=
  { s with cores := s.cores.map fun (k, c) => (k, { c with mq := c.mq.map fun m => match m.op with
      | .deliver n _ g i => if g = gc && i = id then { m with op := .deliver n (failedBuf stCancelled) g i, status := stCancelled } else m
      | _ => m }) }

end Sys2Proof.Machine
end

