-- ==== Sys2Proof/Machine/Cancel.lean ====
section
/-! DEFINITION. Engine operations under an invalidation or a discard: which of them hold a translation, and how one is
cancelled (R262, R364, R415). -/

namespace Sys2Proof.Machine

/-! ### Ranges that an operation names -/

/-- A range of a VD's DRAM window meets another, directly or by rows of its remap windows (R321, R415). -/
def rangeMeets (s : State) (vk lo len a l : Nat) : Bool :=
  overlaps a l lo len ||
  (remapBase < a + l && (s.vd vk).remaps.any fun (w, r) => inWindow w a l && r.rows.any fun x => overlaps x r.rowBytes lo len)

/-- A part of an access lies in a range of the VD's DRAM window. -/
def partMeets (s : State) (gc vk lo len : Nat) (p : Part) : Bool :=
  match whereIs s gc (vk % 16) p.va.toNat with
  | some (.dram pkg off) => vdKey pkg (vk % 16) == vk && overlaps ((remapped s vk off).getD off) p.len lo len
  | _ => false

/-- A record's spans meet a range of a VD: the source on the origin's package, the destination on the receiver's. -/
def recordMeets (s : State) (t : Team) (vk lo len : Nat) (soff doff : Nat) (w : List Word) : Bool :=
  (seatPkg t (recOrig w) == some (vk / 16) && rangeMeets s vk lo len ((recSaddr w + soff) % 2 ^ 52) (recLen w)) ||
  (seatPkg t (recRecv w) == some (vk / 16) && rangeMeets s vk lo len ((recDaddr w + doff) % 2 ^ 52) (recLen w))

def forwardMeets (s : State) (vk lo len : Nat) (f : Forward) : Bool :=
  f.vk % 16 == vk % 16 && f.begun && match s.findTeam (vk % 16) f.team with
  | none => false
  | some t =>
    (f.kind != 0 && f.vk == vk && rangeMeets s vk lo len f.list (16 * f.n)) ||
    (madeRecords s t f).any (recordMeets s t vk lo len 0 0)

def retraceMeets (s : State) (vk lo len : Nat) (r : Retrace) : Bool :=
  r.vk % 16 == vk % 16 && r.phase == 1 && r.begun && match s.findTeam (vk % 16) r.team with
  | none => false
  | some t => r.recs.any fun x => match retraceRecord s t r x.idx with
    | none => false
    | some w => recordMeets s t vk lo len r.soff.toNat r.doff.toNat w

/-- A member that has started its part of a plan's firing reads and writes in a range of its package's VD. -/
def planMeets (s : State) (vk lo len : Nat) (p : Plan) : Bool :=
  match p.running with
  | none => false
  | some f => f.parts.any fun x => match p.members[x.pos]? with
    | none => false
    | some m => pkgOfThread m == vk / 16 && x.phase == 0 &&
      (rangeMeets s vk lo len (planSrc p.desc) (planSrcLen p.desc p.members.length) ||
       rangeMeets s vk lo len (planDst p.desc) (planDstLen p.desc p.members.length))

/-! ### Holders (R415) -/

/-- A range of addresses that an operation of a core names meets a range of a VD, its own package's or, through the peer window, another's. -/
def spanMeets (s : State) (gc vd vk lo len : Nat) (u : Nat × Nat) : Bool :=
  let a := normVa s gc u.1
  let n := u.2 + 1 - u.1
  vd == vk % 16 &&
  if isPeer a then s.named (pkgOf gc) ((a - 3 * 2 ^ 50) / 2 ^ 44) == some (vk / 16) && overlaps (a % 2 ^ 44) n lo len
  else pkgOf gc == vk / 16 && rangeMeets s vk lo len a n

/-- A running copy holds the translations of all that it uses: its locks' ranges, its scale arrays. -/
def copyMeets (s : State) (gc vk lo len : Nat) (r : CopyReq) : Bool :=
  r.state == .running && r.uses.any (spanMeets s gc (r.vk % 16) vk lo len)

/-- A running matrix entry holds the translations of its locks' ranges. -/
def entryMeets (s : State) (c : Core) (gc vk lo len : Nat) (m : MEntry) : Bool :=
  m.running && c.locks.any fun l => l.owner == m.id && spanMeets s gc (l.vk % 16) vk lo len (l.lo, l.hi)

/-- Engine operations that hold a translation of a range: copies and matrix entries that run, GATHQs, forward transfers,
retraces, plan firings. -/
def holdersOf (s : State) (vk lo len : Nat) : List Nat :=
  (s.cores.map fun (gc, c) =>
    (c.copies.filterMap fun r => if copyMeets s gc vk lo len r then some r.id else none) ++
    (c.mq.filterMap fun m => if entryMeets s c gc vk lo len m then some m.id else none) ++
    (c.port.filterMap fun a => if a.kind == .gath && (s.thread a.tid).vd == vk % 16 && a.parts.any (partMeets s gc vk lo len)
      then some a.id else none)).flatten ++
  (s.forwards.filterMap fun f => if forwardMeets s vk lo len f then some f.id else none) ++
  (s.retraces.filterMap fun r => if retraceMeets s vk lo len r then some r.id else none) ++
  (s.vds.map fun (k, v) => if k % 16 != vk % 16 then [] else
    v.plans.filterMap fun (i, p) => if planMeets s vk lo len p then p.running.map (fun f => firingId k i f.seq) else none).flatten

/-- An operation with this number still runs: its tag, a firing's tag at some member, is still to be set. -/
def opAlive (s : State) (id : Nat) : Bool :=
  (s.cores.any fun (_, c) =>
    (c.copies.any fun r => r.id == id && r.state == .running) || (c.mq.any fun m => m.id == id) ||
    c.port.any fun a => a.id == id && a.kind == .gath) ||
  (s.forwards.any fun f => f.id == id) || (s.retraces.any fun r => r.id == id && r.phase == 1) ||
  s.vds.any fun (k, v) => v.plans.any fun (i, p) => match p.running with
    | some f => firingId k i f.seq == id && (f.parts.filter fun x => x.phase != 0).length < p.members.length
    | none => false

/-- Accesses of threads issued before a number that hold a translation of a range, vector stores still to enter a port too. -/
def accessesHold (s : State) (vk lo len before : Nat) : Bool :=
  let holds (gc : Nat) (a : Access) : Bool :=
    a.kind != .gath && a.id < before && (s.thread a.tid).vd == vk % 16 && a.parts.any (partMeets s gc vk lo len)
  (s.cores.any fun (gc, c) => c.port.any (holds gc)) ||
  (s.thr :: s.threads.map fun e => e.2).any fun t => t.storeHold.any (holds (coreOf t.id))

/-! ### Cancelling (R262, R415) -/

/-- A matrix entry: a store's destination is undefined, a load fails its tile, and those of its deliveries. -/
def cancelEntry (s : State) (gc : Nat) (e : MEntry) : State := finishEntry (cancelDeliveries gc e.id s) gc { e with status := stCancelled, refused := stOk }

/-- A GATHQ: the lanes that it had still to read are undefined. -/
def cancelGather (s : State) (gc : Nat) (a : Access) : State :=
  a.parts.foldl (fun s p =>
    let x := (Config.freeWord s.free).toNat
    (({ s with free := s.free + 1 } : State).takeValue a p (some x) 0).partDone gc a p.lane) s

/-- A forward transfer: the destinations of all its deliveries are undefined, those that it has made too (R262). -/
def cancelForward (s : State) (f : Forward) : State :=
  let vd := f.vk % 16
  let locs := match s.findTeam vd f.team with
    | none => []
    | some t => (f.todo.map (fun x => (x.recv, x.daddr)) ++ (madeRecords s t f).map fun w => (recRecv w, recDaddr w)).flatMap
        fun x => match t.seat x.1 with
        | none => []
        | some seat => writableLocs s (coreOf seat.tid) vd x.2 f.len
  let s := ((s.scramble locs).dropUnits fun _ u => u.op == f.id).dropWalks f.id
  ({ s with forwards := s.forwards.filter fun x => x.id != f.id } : State).setTag (coreOf f.tid) f.vk f.tag stCancelled

/-- A retrace: its targets are undefined, those that it has written too (R262); its word lands by RETRACE_COMPLETE. -/
def cancelRetrace (s : State) (r : Retrace) : State :=
  let written := match s.findTeam (r.vk % 16) r.team with
    | none => []
    | some t => r.recs.flatMap fun x => match retraceRecord s t r x.idx with
      | none => []
      | some w => ((targetLocs s t r x w).getD []).flatten
  let s := ((s.scramble written).dropUnits fun _ u => u.op == r.id).dropWalks r.id
  let s := s.bump.modRetrace r.id fun x => { x with phase := 2, status := stCancelled, chunks := [], targets := [], ended := s.seq }
  let s : State := { s with routers := s.routers.map fun (k, x) =>
    (k, { x with accord := x.accord.map fun e => { e with chunks := e.chunks.filter fun c => c.1 != r.id } }) }
  s.setTag (coreOf r.tid) r.vk r.tag stCancelled

/-- One member of a firing: its DST is undefined and its tag is set, unless its part is over. -/
def cancelPart (vk idx : Nat) (p : Plan) (f : Firing) (s : State) (k : Nat) : State :=
  match p.members[k]? with
  | none => s
  | some m =>
    let gc := coreOf m
    match f.parts.find? fun x => x.pos = k with
    | some ⟨_, _, _, _, _, _ + 1, _, _⟩ => s
    | _ =>
      let n := p.members.length
      let s := s.scramble (writableLocs s gc (vk % 16) (planDst p.desc) (planDstLen p.desc n))
      let s := s.setTag gc (vdKey (pkgOfThread m) (vk % 16)) (planTag p.desc) stCancelled
      let s := s.modPlan vk idx fun q => { q with running := q.running.map fun g =>
        { g with parts := (g.parts.filter fun x => x.pos != k) ++ [⟨k, 0, stCancelled, none, none, 1, s.seq, 0⟩] } }
      planLanding vk idx k m p.desc f.seq stCancelled s.seq s.bump

/-- A plan firing. -/
def cancelFiring (vk idx : Nat) (p : Plan) (s : State) : State :=
  match p.running with
  | none => s
  | some f => (List.range p.members.length).foldl (cancelPart vk idx p f) ((s.dropUnits fun _ u => u.op == firingId vk idx f.seq).dropWalks (firingId vk idx f.seq))

/-- Cancel the operation of this number, wherever it runs. -/
def cancelOp (s : State) (id : Nat) : State :=
  let s := s.cores.foldl (fun s (gc, c) =>
    let s := match c.copies.find? fun r => r.id = id && r.state == .running with
      | some r => cancelCopy s gc r
      | none => s
    let s := match c.mq.find? fun m => m.id = id with
      | some m => cancelEntry s gc m
      | none => s
    match c.port.find? fun a => a.id = id && a.kind == .gath with
    | some a => cancelGather s gc a
    | none => s) s
  let s := match s.forwards.find? fun f => f.id = id with
    | some f => cancelForward s f
    | none => s
  let s := match s.retraces.find? fun r => r.id = id && r.phase == 1 with
    | some r => cancelRetrace s r
    | none => s
  s.vds.foldl (fun s (k, v) => v.plans.foldl (fun s (i, p) => match p.running with
    | some f => if firingId k i f.seq = id then cancelFiring k i p s else s
    | none => s) s) s

end Sys2Proof.Machine
end

