-- ==== Sys2Proof/Machine/Translate.lean ====
section
/-! DEFINITION. Translation: tensor definitions, pinning, invalidation, the walker (R405 to R417). -/

namespace Sys2Proof.Machine

/-! ### TDEF (R411, R412) -/

/-- Every tile that holds bytes of a range is written back: what DRAM holds there is what its home holds (R412, log entry 35). -/
def State.cleanRange (s : State) (vk lo len : Nat) : State :=
  if len = 0 then s else { s with back := s.back.filter fun e => !rangeHolds s vk lo len e.1 }

/-- The value that breaks a limit of R29 and R411, if any: id, pitch, base, length (log entry 36). -/
def tdefBad (id e base len pitch : Nat) : Option Nat :=
  if id = 0 then some id
  else if pitch = 0 || pitch % e != 0 || 2 ^ 32 < pitch then some pitch
  else if base % e != 0 then some base
  else if len % pitch != 0 then some len
  else none

/-- A tensor of another id whose range a range overlaps; an empty range overlaps none. -/
def tdefMeets (v : Vd) (id base len : Nat) : Option Nat :=
  (v.tensors.find? fun (i, t) => i != id && len != 0 && overlaps t.base t.len base len).map fun x => x.1

/-- Define, replace or remove a tensor of a VD on one package. -/
def State.defineTensor (s : State) (vk id : Nat) (t : Tensor) : State :=
  let s := match tblFind (s.vd vk).tensors id with
    | some old => s.cleanRange vk old.base old.len
    | none => s
  if t.len = 0 then s.modVd vk fun v => { v with tensors := tblDel v.tensors id }
  else (s.cleanRange vk t.base t.len).modVd vk fun v => { v with tensors := tblPut v.tensors id t }

def execTdef (sw : Bool) (a : SReg) (b : Src) (loge : BitVec 2) (id : BitVec 12) (s : State) : Out :=
  .next (s.withRegs (sregs a 2 ++ srcRegs b) fun s =>
    let base := field (s.thr.getS a) 51 0
    let len := (s.thr.getS (sregAt a 1)).toNat
    let pitch := (s.src b).toNat
    let e := 2 ^ loge.toNat
    let n (x : Nat) : Word := BitVec.ofNat 64 x
    match tdefBad id.toNat e base len pitch with
    | some x => s.trap cFmtbad (n x)
    | none =>
      if len != 0 && remapBase < base + len then s.trap cXlate (n base)
      else match tdefMeets (s.vd s.thr.vk) id.toNat base len with
        | some x => s.trap cPerm (n x)
        | none => (s.defineTensor s.thr.vk id.toNat ⟨base, len, pitch, e⟩).finish sw)

/-! ### The range of TLBPIN and TLBINV (R413) -/

/-- The cause and value with which a range fails. -/
def rangeBad (lo len : Nat) : Option (Nat × Nat) :=
  if len = 0 then some (cFmtbad, 0)
  else if remapBase < lo + len then some (cXlate, max lo remapBase)
  else none

/-- The operands of both forms, checked. -/
def rangeForm (a : SReg) (rs : List Reg) (k : Nat → Nat → State → State) (s : State) : State :=
  s.withRegs (sregs a 2 ++ rs) fun s =>
    let lo := field (s.thr.getS a) 51 0
    let len := (s.thr.getS (sregAt a 1)).toNat
    match rangeBad lo len with
    | some (code, x) => s.trap code (BitVec.ofNat 64 x)
    | none => k lo len s

/-! ### TLBPIN (R414) -/

/-- What a walk of a page gives for a pin: the cause with which it fails, or its leaf. A leaf without any permission fails
with PERM (log entry 37). -/
def pinWalk (s : State) (vk page : Nat) : Nat ⊕ Leaf :=
  match walk s vk page with
  | none => .inl cXlate
  | some l => if l.r || l.w || l.x then .inr l else .inl cPerm

/-- The entries that the pages of a range make, one for each leaf. -/
def pinEntries (s : State) (vk : Nat) (pages : List Nat) : List TlbEntry :=
  (pages.filterMap fun p => match pinWalk s vk p with
    | .inr l => some (entryOf vk p l)
    | .inl _ => none).eraseDups

/-- Pinned entries of a VD at a router. -/
def Router.pinned (r : Router) (vk : Nat) : Nat := (r.tlb.filter fun e => e.vk == vk && !e.pins.isEmpty).length

/-- New pinned entries that a router would take. -/
def Router.newPins (r : Router) (es : List TlbEntry) : Nat :=
  (es.filter fun e => !(r.tlb.any fun x => x.vk == e.vk && x.page == e.page && x.big == e.big && !x.pins.isEmpty)).length

/-- Install entries as pinned by a team, afresh from the walk. -/
def Router.pin (r : Router) (team : Nat) (es : List TlbEntry) : Router :=
  es.foldl (fun r e =>
    let old := (r.tlb.find? fun x => x.vk == e.vk && x.page == e.page && x.big == e.big).toList.flatMap fun x => x.pins
    let rest := r.tlb.filter fun x => !(x.vk == e.vk && x.page == e.page && x.big == e.big)
    let rest := if rest.length < 1024 then rest
      else match rest.find? fun x => x.pins.isEmpty with
        | some v => rest.erase v
        | none => rest
    { r with tlb := rest ++ [{ e with pins := old ++ [team] }] }) r

/-- The routers of a router's cluster, massif or package. -/
def scopeRouters (sc : Scope) (r : Nat) : List Nat :=
  let n := match sc with
    | .t | .c | .k => 16
    | .m => 256
    | .g | .s => 2048
  (List.range n).map fun i => r / n * n + i

def execTlbpin (sw : Bool) (sc : Scope) (d a : SReg) (s : State) : Out :=
  .next (rangeForm a [] (fun lo len s =>
    let vk := s.thr.vk
    let gc := s.gc
    let pages := (pagesOf lo len).map fun p => p.1 / 4096
    let failed := pages.filterMap fun p => match pinWalk s vk p with
      | .inl c => some (p, c)
      | .inr _ => none
    match failed with
    | (p, c) :: _ =>
      if c = cPerm then s.trap c (BitVec.ofNat 64 (p * 4096))
      else match tblFind s.thr.walkFail (walkKey vk p) with
        | some c => s.trap c (BitVec.ofNat 64 (p * 4096))
        | none => (s.modRouter (s.routerOf gc) fun r => r.want vk p s.thr.id false false false (p * 4096)).bubble
    | [] =>
      let es := pinEntries s vk pages
      let rs := scopeRouters sc (s.routerOf gc)
      if rs.any fun r => 64 < (s.router r).pinned vk + (s.router r).newPins es then
        (s.writeS d (BitVec.allOnes 64)).finish sw
      else
        let team := s.thr.teamNum
        let s := rs.foldl (fun s r => s.modRouter r fun x => x.pin team es) s
        let s := s.modTeam s.thr.vd team fun t => { t with pins := t.pins ++ es.flatMap fun e => rs.map fun r => (r, e.page, e.big) }
        (s.writeS d (BitVec.ofNat 64 es.length)).finish sw) s)

/-! ### Invalidation (R415) -/

def pageLen (big : Bool) : Nat := if big then 2 ^ 21 else 4096
def TlbEntry.len (e : TlbEntry) : Nat := pageLen e.big

/-- Mark what a range touches in a router: its entries go, and walks in flight for its pages are discarded. -/
def Router.mark (r : Router) (vk lo len : Nat) : Router :=
  { r with
    tlb := r.tlb.filter fun e => !(e.vk == vk && overlaps (e.page * 4096) e.len lo len),
    misses := r.misses.map fun m => if m.vk == vk && overlaps (m.page * 4096) 4096 lo len then { m with dead := true } else m }

/-- Begin an invalidation: the marks, and who holds what is marked. -/
def State.openInv (s : State) (tid : Option Nat) (fn token vk lo len : Nat) (deadline : Option Nat) : State :=
  let holders := holdersOf s vk lo len
  { s with seq := s.seq + 1,
           routers := s.routers.map fun (k, r) => (k, r.mark vk lo len),
           teams := s.teams.map fun t => if t.vd = vk % 16 then
             { t with pins := t.pins.filter fun p => !(p.1 / 2048 == vk / 16 && overlaps (p.2.1 * 4096) (pageLen p.2.2) lo len) } else t,
           invs := s.invs ++ [⟨s.seq, tid, fn, token, vk, lo, lo + len, deadline, holders, s.seq, 0⟩] }

/-- No holder is left. -/
def invEnds (s : State) (i : Invalidation) : Bool :=
  !(i.holders.any (opAlive s)) && !accessesHold s i.vk i.lo (i.hi - i.lo) i.before

/-- At the deadline the engine operations that still hold are cancelled and counted. -/
def State.forceInv (s : State) (i : Invalidation) : State :=
  let due := match i.deadline with
    | some d => decide (d ≤ s.time (i.vk / 16))
    | none => false
  if due then
    let alive := i.holders.filter (opAlive s)
    let s := alive.foldl cancelOp s
    { s with invs := s.invs.map fun x => if x.id = i.id then { x with cancelled := x.cancelled + alive.length } else x }
  else s

/-- The deadline of a waiting invalidation. -/
def execTlbinvDeadline (id : Nat) (s : State) : Out :=
  .next <| match s.invs.find? fun i => i.id = id with
    | none => s
    | some i => s.forceInv i

/-- A waiting TLBINV: it ends once no holder is left, and D is the count. -/
def waitInv (sw : Bool) (d : SReg) (s : State) : State :=
  let mine (s : State) : Option Invalidation := s.invs.find? fun i => i.tid == some s.thr.id
  match mine s with
  | none => s.finish sw
  | some i =>
    let s := s.forceInv i
    match mine s with
    | none => s.finish sw
    | some i =>
      if invEnds s i then
        (({ s with invs := s.invs.filter fun x => x.id != i.id } : State).writeS d (BitVec.ofNat 64 i.cancelled)).finish sw
      else s.modThr fun t => { t with wait := .hold 3 false 0, park := none }

def execTlbinv (sw : Bool) (d a : SReg) (b : Src) (force : Bool) (s : State) : Out :=
  .next <| match s.thr.wait with
    | .hold 3 _ _ => waitInv sw d s
    | _ => rangeForm a (if force then srcRegs b else []) (fun lo len s =>
        waitInv sw d (s.openInv (some s.thr.id) 0 0 s.thr.vk lo len (if force then some (s.src b).toNat else none))) s

/-! ### The walker (R409, R410) -/

/-- A leaf permits all that the accesses of a miss need. -/
def Miss.permits (m : Miss) (l : Leaf) : Bool := !((m.needR && !l.r) || (m.needW && !l.w) || (m.needX && !l.x))

/-- The end of a walk that fails, in hardware mode: the waiting accesses meet XLATE, or PERM at the entry that was filled, and the
waiting engine operations go on without the page. A failure that the host was told of ends them so even where the page has been mapped since. -/
def failWalk (router vk page : Nat) (s : State) : State :=
  let r := s.router router
  match r.misses.find? fun m => m.vk == vk && m.page == page with
  | none => s
  | some m =>
    let s := s.modRouter router fun r => { r with misses := r.misses.filter fun x => !(x.vk == vk && x.page == page) }
    let fail (cause : Nat) : State := m.waiters.foldl (fun s t => s.modThread t fun x =>
      { x with walkFail := x.walkFail ++ [(walkKey vk page, cause)] })
      (s.modRouter router fun r => { r with fails := r.fails ++ m.ops.map fun op => (op, vk, page) })
    match walk s vk page with
    | some l => if m.held.isSome && m.permits l then fail (if m.perm then cPerm else cXlate)
      else s.modRouter router fun r => r.fill vk page l
    | none => fail cXlate

/-- A walk ends: an entry fills the cache; a failure ends the accesses or is held for the host; a walk whose page has been
marked is made again (R409, R410, R417). -/
def execTranslationWalkEnd (router vk page : Nat) (s : State) : Out :=
  let mod (f : Miss → Miss) (s : State) : State := s.modRouter router fun r =>
    { r with misses := r.misses.map fun m => if m.vk == vk && m.page == page then f m else m }
  .next <| match (s.router router).misses.find? fun m => m.vk == vk && m.page == page with
    | none => s
    | some m =>
      if m.held.isSome then s
      else if m.dead then mod (fun m => { m with dead := false }) s
      else
        let bad : Option Nat := match walk s vk page with
          | none => some 0
          | some l => if m.permits l then none else some 1
        match bad with
        | some perm =>
          if (s.vd vk).rmode.getLsbD 0 && !m.retried then
            let tok := s.token
            mod (fun m => { m with held := some tok, perm := perm == 1 })
              ((postCp s vk 19 0 m.va (perm + tok % 2 ^ 32 * 2 ^ 32)).openCase (fnOfVd vk) (vk / 16) (.walk router vk page))
          else failWalk router vk page s
        | none => failWalk router vk page s

end Sys2Proof.Machine
end

