-- ==== Sys2Proof/Machine/System.lean ====
section
/-! DEFINITION. Scheduling, barriers, traps, control registers, progress and checkpoints (R338 to R351, R358 to R360). -/

namespace Sys2Proof.Machine

/-! ### Releases that travel (R213, R340, R344, R360) -/

/-- Every earlier access and send of a thread is performed at a scope, for what it posted under this number. -/
def releaseReady (s : State) (tid id : Nat) (sc : Scope) : Bool :=
  let mine := (s.core (coreOf tid)).port.filter fun a => a.tid == tid && a.id < id && a.kind != .gath
  !sendsBefore (s.thread tid) id && !(mine.any Access.valuePending) &&
  match sc with
  | .t | .c => true
  | .k | .m | .g | .s => mine.isEmpty

def Posted.id : Posted → Nat
  | .disp id .. => id
  | .arrival id .. => id
  | .prog id .. => id
  | .ckpt id .. => id

def Posted.tid : Posted → Nat
  | .disp _ tid .. => tid
  | .arrival _ tid .. => tid
  | .prog _ tid _ => tid
  | .ckpt _ tid .. => tid

/-- Post something under the next number. -/
def State.post (s : State) (f : Nat → Posted) : State := { s with seq := s.seq + 1, posted := s.posted ++ [f s.seq] }
def State.unpost (s : State) (id : Nat) : State := { s with posted := s.posted.filter fun p => p.id != id }

/-! ### The dispenser (R338 to R341) -/

def Disp.is (cluster vd team : Nat) (d : Disp) : Bool := d.cluster == cluster && d.vd == vd && d.team == team

def State.disp (s : State) (cluster vd team : Nat) : Disp :=
  (s.disps.find? (Disp.is cluster vd team)).getD ⟨cluster, vd, team, [], 0, []⟩

def State.modDisp (s : State) (cluster vd team : Nat) (f : Disp → Disp) : State :=
  let d := f (s.disp cluster vd team)
  { s with disps := s.disps.filter (fun x => !x.is cluster vd team) ++ [d] }

/-- A thread leaves its dispenser's waiters. -/
def State.leaveDisp (s : State) (t : Nat) : State :=
  { s with disps := s.disps.map fun d => { d with waiters := d.waiters.filter fun w => w != t } }

/-- WFW: the four registers are emptied and the thread waits for work; it completes once its binding has landed (R341). -/
def execWfw (sw : Bool) (d : SReg) (s : State) : Out :=
  .next <| match s.thr.wait with
    | .hold 7 _ _ => s.finish sw
    | _ =>
      let t := s.thr
      let s := (sregs d 4).foldl (fun s r => s.modThr fun t => t.clear r) s
      (s.modThr fun t => { t with st := .waitWork d, park := none }).modDisp (clusterOf (coreOf t.id)) t.vd t.teamNum fun q =>
        { q with waiters := q.waiters ++ [t.id] }

/-- DISP: a place at issue, and a post that travels (R340). -/
def execDisp (sw : Bool) (d a : SReg) (prio : BitVec 3) (sc : Scope) (s : State) : Out :=
  .next (s.withRegs (sregs a 4) fun s =>
    let t := s.thr
    let cl := clusterOf (coreOf t.id)
    let q := s.disp cl t.vd t.teamNum
    if 128 ≤ q.tasks.length + q.places then (s.writeS d 1).finish sw
    else
      let words := (List.range 4).map fun k => t.getS (sregAt a k)
      let s := s.modDisp cl t.vd t.teamNum fun q => { q with places := q.places + 1 }
      let s := s.post fun id => .disp id t.id sc cl t.vd t.teamNum words prio.toNat
      (s.writeS d 0).finish sw)

/-- A post reaches its dispenser, posts of one thread in issue order; at a saved team's it waits (R340, R369). -/
def execDispPostArrival (id : Nat) (s : State) : Out :=
  .next <| match s.posted.find? fun p => p.id = id with
    | some (.disp _ tid sc cl vd team words prio) =>
      let earlier := s.posted.any fun p => match p with
        | .disp id' tid' _ _ vd' team' _ _ => tid' == tid && vd' == vd && team' == team && id' < id
        | _ => false
      let saved := match s.findTeam vd team with
        | some t => t.away
        | none => false
      if earlier || saved || !releaseReady s tid id sc then s
      else (s.unpost id).modDisp cl vd team fun q => { q with tasks := q.tasks ++ [⟨words, prio⟩], places := q.places - 1 }
    | _ => s

/-- The oldest task of the highest level. -/
def bestTask (ts : List Task) : Option Task := ts.find? fun t => ts.all fun u => u.prio ≤ t.prio

/-- The oldest task of the highest level binds to the oldest waiter: its words land as one step, and held arrivals are then
handled (R341). A waiter that a cause ends takes none (R330). -/
def execDispenserBind (cluster vd team : Nat) (s : State) : Out :=
  let q := s.disp cluster vd team
  .next <| match bestTask q.tasks, q.waiters.find? fun w => !(s.thread w).called with
    | some task, some w =>
      let s := s.modDisp cluster vd team fun q => { q with tasks := q.tasks.erase task, waiters := q.waiters.filter fun x => x != w }
      match (s.thread w).st with
      | .waitWork d =>
        let s := s.modThread w fun t =>
          (List.range 4).foldl (fun t k => t.putReg (.s (sregAt d k) (task.words.getD k 0)))
            { t with st := .ready, wait := .hold 7 true 0 }
        s.reland w
      | _ => s
    | _, _ => s

/-! ### SLEEP (R342) -/

def execSleep (sw : Bool) (a : Src) (s : State) : Out :=
  .next <| match s.thr.wait with
    | .hold 8 true _ => s.finish sw
    | _ => s.withRegs (srcRegs a) fun s =>
      if (s.src a).toNat ≤ s.time (pkgOfThread s.thr.id) then s.finish sw
      else s.modThr fun t => { t with st := .sleeping (s.src a), park := none }

/-- The time base reaches the sleeper's time, before a cause ends the sleep (R330). -/
def execSleepWake (t : Nat) (s : State) : Out :=
  .next <| match (s.thread t).st with
    | .sleeping x =>
      if x.toNat ≤ s.time (pkgOfThread t) && !(s.thread t).called then s.modThread t fun y => { y with st := .ready, wait := .hold 8 true 0 } else s
    | _ => s

/-! ### Barriers (R344, R345) -/

def BarInst.is (vk team n : Nat) (b : BarInst) : Bool := b.vk == vk && b.team == team && b.n == n

def State.modBar (s : State) (gc vk team n g : Nat) (f : BarInst → BarInst) : State :=
  s.modCore gc fun c =>
    let old := (c.bars.find? fun b => b.is vk team n && b.group == g).getD ⟨vk, team, n, g, 0, 0, 0⟩
    { c with bars := (c.bars.filter fun b => !(b.is vk team n && b.group == g)) ++ [f old] }

/-- The thread's arrived bit for a barrier of its team. -/
def State.arrivedBit (s : State) (n : Nat) : Bool :=
  (s.core s.gc).bars.any fun b => b.is s.thr.vk s.thr.teamNum n && b.arrived.getLsbD (slotOf s.thr.id)

/-- The thread may not arrive: it is no member of the group, or the core's barrier holds arrivals for another one. -/
def barRefused (s : State) (n g : Nat) : Bool :=
  (match s.myTeam with
   | some t => !(tblGet t.groups g []).contains s.thr.fabno
   | none => true) ||
  (s.core s.gc).bars.any fun b => b.is s.thr.vk s.thr.teamNum n && b.group != g && b.arrived != 0

/-- An arrival: the bit is set, and unless it stood already the arrival travels to be counted. -/
def State.barArrive (s : State) (sc : Scope) (n g : Nat) : State :=
  if s.arrivedBit n then s
  else
    let t := s.thr
    (s.modBar s.gc t.vk t.teamNum n g fun b => { b with arrived := b.arrived ||| (1#8 <<< slotOf t.id) }).post fun id =>
      .arrival id t.id sc t.vk t.teamNum n g t.tcls

def execBararv (sw : Bool) (sc : Scope) (n : BitVec 7) (g : BitVec 8) (s : State) : Out :=
  .next <| if barRefused s n.toNat g.toNat then s.trap cPerm (g.setWidth 64)
    else (s.barArrive sc n.toNat g.toNat).finish sw

/-- The wait of BARWT and BARSYNC. -/
def barWait (sw : Bool) (n : Nat) (s : State) : State :=
  match s.thr.wait with
  | .barrier _ true => s.finish sw
  | .barrier m false => s.parkOn (BitVec.ofNat 64 m)
  | _ =>
    if s.arrivedBit n then (s.modThr fun t => { t with wait := .barrier n false }).parkOn (BitVec.ofNat 64 n)
    else s.finish sw

def execBarwt (sw : Bool) (_sc : Scope) (n : BitVec 7) (s : State) : Out := .next (barWait sw n.toNat s)

def execBarsync (sw : Bool) (sc : Scope) (n : BitVec 7) (g : BitVec 8) (s : State) : Out :=
  .next <| match s.thr.wait with
    | .barrier _ _ => barWait sw n.toNat s
    | _ =>
      if barRefused s n.toNat g.toNat then s.trap cPerm (g.setWidth 64)
      else barWait sw n.toNat (s.barArrive sc n.toNat g.toNat)

/-- An arrival is counted once what was before it is performed at its scope. -/
def execBarrierArrivalCounted (id : Nat) (s : State) : Out :=
  .next <| match s.posted.find? fun p => p.id = id with
    | some (.arrival _ tid sc vk team n g _) =>
      if releaseReady s tid id sc then
        (s.unpost id).modBar (coreOf tid) vk team n g fun b => { b with counted := b.counted ||| (1#8 <<< slotOf tid) }
      else s
    | _ => s

/-- A member has arrived in the current phase: its arrival is counted, or it has retired. -/
def memberArrived (s : State) (vd team n g m : Nat) : Bool :=
  (s.thread m).st == .retired || (s.core (coreOf m)).bars.any fun b =>
    b.is (vdKey (pkgOfThread m) vd) team n && b.group == g && b.counted.getLsbD (slotOf m)

/-- Clear a core's bits for a group's barrier and end the waits of the group's members on it: those whose bits it clears. -/
def clearBar (vd team n g : Nat) (s : State) (gc : Nat) : State :=
  let vk := vdKey (pkgOf gc) vd
  let mine := (s.core gc).bars.filter fun b => b.is vk team n && b.group == g
  let s := s.modBar gc vk team n g fun b => { b with arrived := 0, counted := 0, phase := b.phase + 1 }
  (List.range 8).foldl (fun s k => s.modThread (gc * 8 + k) fun t =>
    if mine.any fun b => b.arrived.getLsbD k then
      match t.wait with
      | .barrier m false => if m = n then { t with wait := .barrier m true } else t
      | _ => t
    else t) s

/-- The phase completes once every member has arrived (R344). -/
def execBarrierPhaseComplete (vd team n g : Nat) (s : State) : Out :=
  .next <| match s.teams.find? (Team.is vd team) with
    | none => s
    | some t =>
      let ms := groupThreads t g
      let counted := ms.any fun m => (s.core (coreOf m)).bars.any fun b =>
        b.is (vdKey (pkgOfThread m) vd) team n && b.group == g && b.counted != 0
      if counted && ms.all (memberArrived s vd team n g) then
        let s := (ms.map coreOf).eraseDups.foldl (clearBar vd team n g) s
        { s with posted := s.posted.filter fun p => match p with
            | .arrival _ _ _ vk tm n' g' _ => !(vk % 16 == vd && tm == team && n' == n && g' == g)
            | _ => true }
      else s

/-! ### TRAP and ERET (R350) -/

/-- TRAP completes, and then TRAPI is taken with the head that follows as its address. -/
def execTrap (_sw : Bool) (n : BitVec 16) (s : State) : Out :=
  let s := s.modThr fun t => t.unpark.next
  .next (s.takeTrap false cTrapi s.thr.pc (n.setWidth 64) none)

def execEret (_sw : Bool) (s : State) : Out :=
  .next <|
    if !s.thr.hm then s.trap cPriv 0
    else if s.thr.buf.isEmpty then (s.modThr Thread.unpark).eretGo
    else s.modThr fun t => { t.unpark with st := .switchWait .eret }

/-! ### Progress and checkpoints (R358 to R360) -/

def execProg (sw : Bool) (a : Src) (s : State) : Out :=
  .next (s.withRegs (srcRegs a) fun s =>
    (s.post fun id => .prog id s.thr.id ((s.src a).setWidth 32)).finish sw)

def execCkpt (sw : Bool) (sc : Scope) (a : Src) (s : State) : Out :=
  .next (s.withRegs (srcRegs a) fun s =>
    (s.post fun id => .ckpt id s.thr.id sc ((s.src a).setWidth 32)).finish sw)

/-- Addition that saturates at 0xFFFF_FFFF. -/
def satAdd32 (x y : BitVec 32) : BitVec 32 := BitVec.ofNat 32 (min (x.toNat + y.toNat) 0xFFFFFFFF)

/-- An addition of PROG is applied to its team's DONE. -/
def execProgressAdditionApplied (id : Nat) (s : State) : Out :=
  .next <| match s.posted.find? fun p => p.id = id with
    | some (.prog _ tid n) =>
      let t := s.thread tid
      (s.unpost id).modTeam t.vd t.teamNum fun x => { x with progDone := satAdd32 x.progDone n }
    | _ => s

/-- A CKPT is recorded: MARK and CDONE in one step, after its release and the earlier PROGs of its thread (R360). -/
def execCkptRecord (id : Nat) (s : State) : Out :=
  .next <| match s.posted.find? fun p => p.id = id with
    | some (.ckpt _ tid sc mark) =>
      let t := s.thread tid
      let earlier := s.posted.any fun p => p.tid == tid && p.id < id && match p with
        | .prog .. => true
        | .ckpt .. => true
        | _ => false
      if earlier || !releaseReady s tid id sc then s
      else (s.unpost id).modTeam t.vd t.teamNum fun x => { x with mark := mark, cdone := x.progDone }
    | _ => s

/-! ### Control registers (R351) -/

def ofN (n : Nat) : Word := BitVec.ofNat 64 n

/-- The three registers of a loop context (R107). -/
def loopWord (c : LoopCtx) (k : Nat) : Word :=
  match k with
  | 0 => (if c.arm then 0x8000000000000000#64 else 0) ||| c.start.setWidth 64
  | 1 => c.stop.setWidth 64
  | _ => c.count

/-- An address field in bits 51:1. -/
def addrField (w : Word) : Addr := w.setWidth 52 &&& ~~~1#52

def setLoopWord (c : LoopCtx) (k : Nat) (w : Word) : LoopCtx :=
  match k with
  | 0 => { c with arm := bitOf w 63, start := addrField w }
  | 1 => { c with stop := addrField w }
  | _ => { c with count := w }

/-- DONE as a thread reads it: with every PROG that it has issued (R358). -/
def doneSeen (s : State) (t : Thread) (team : Team) : BitVec 32 :=
  s.posted.foldl (fun x p => match p with
    | .prog _ tid n => if tid = t.id then satAdd32 x n else x
    | _ => x) team.progDone

/-- ctl.wear of a physical cluster (R448). -/
def wearWord (w : Wear) : Word := ofN (w.life * 2 ^ 24 + w.guard * 2 ^ 16 + w.index)

/-- ctl.eccm's layout (R445). -/
def eccWord (ce ue : Nat) : Word := ofN (min ue 0xFFFF * 2 ^ 32 + min ce 0xFFFFFFFF)

/-- Bit w is 1 while window w is defined (R320). -/
def remapWord (v : Vd) : Word := ofN (v.remaps.foldl (fun x (w, _) => x + 2 ^ w) 0)

/-- A control register as it stands for a thread; none for a number that no register has. -/
def ctlValue (s : State) (t : Thread) (num : Nat) : Option Word :=
  let gc := coreOf t.id
  let c := s.core gc
  let vk := t.vk
  let v := s.vd vk
  let p := s.pkg (pkgOfThread t.id)
  let team := s.findTeam t.vd t.teamNum
  match num with
  | 0x000 => some (c.tagsOf vk).bits
  | 0x001 => some (ofN (s.time (pkgOfThread t.id)))
  | 0x002 => some t.shape
  | 0x003 => some t.shapex
  | 0x004 => some t.self
  | 0x005 => some t.place
  | 0x006 => some t.args
  | 0x007 => some t.team
  | 0x008 => some t.groups
  | 0x010 => some (loopWord t.l0 0)
  | 0x011 => some (loopWord t.l0 1)
  | 0x012 => some (loopWord t.l0 2)
  | 0x013 => some (loopWord t.l1 0)
  | 0x014 => some (loopWord t.l1 1)
  | 0x015 => some (loopWord t.l1 2)
  | 0x018 => some (t.rng.setWidth 64)
  | 0x020 => some (t.tvec.setWidth 64)
  | 0x021 => some (t.epc.setWidth 64)
  | 0x022 => some t.cause
  | 0x023 => some t.tval
  | 0x024 => some (ofN (min t.pend.length 15 * 16 + if t.hm then 1 else 0))
  | 0x025 => some t.tscratch
  | 0x026 => some t.fsrc
  | 0x028 => some (t.wdog.setWidth 64)
  | 0x029 => some (t.syncl.setWidth 64)
  | 0x030 => some t.lands
  | 0x031 => some (t.landv.setWidth 64)
  | 0x032 => some (t.capgen.setWidth 64)
  | 0x038 => some (c.mpartOf vk).shown
  | 0x039 => some (ofN ((c.grantOf vk).bufs.toNat * 256 + (c.grantOf vk).accs.toNat))
  | 0x03A => some (t.mgrp.setWidth 64)
  | 0x040 => some (ofN ((c.grantOf vk).spLimit * 256 + (c.grantOf vk).spBase))
  | 0x041 => some (ofN (v.smax * 256 + v.ways))
  | 0x042 => some (ofN v.sways)
  | 0x043 => some ((team.map fun x => x.spill).getD 0)
  | 0x044 => some (v.trig.setWidth 64)
  | 0x045 => some (remapWord v)
  | 0x080 => some ((team.map fun x => ofN (x.progTotal.toNat * 2 ^ 32 + (doneSeen s t x).toNat)).getD 0)
  | 0x081 => some ((team.map fun x => ofN (x.restarts.toNat * 2 ^ 56 + x.mark.toNat)).getD 0)
  | 0x082 => some ((team.map fun x => x.cdone.setWidth 64).getD 0)
  | 0x083 => some ((team.map fun x => x.ctxsave).getD 0)
  | 0x088 => some (ofN t.vd)
  | 0x089 => some (t.tcls.setWidth 64)
  | 0x08A => some (ofN (s.factorOf gc))
  | 0x090 => some (rateWord s vk 0)
  | 0x091 => some (rateWord s vk 1)
  | 0x092 => some (rateWord s vk 2)
  | 0x093 => some (rateWord s vk 3)
  | 0x094 => some (rateWord s vk 4)
  | 0x095 => some (rateWord s vk 5)
  | 0x096 => some (rateWord s vk 6)
  | 0x097 => some (rateWord s vk 7)
  | 0x098 => some (rateWord s vk 8)
  | 0x0A0 =>
    let n := (s.router (s.routerOf gc)).pinned vk
    some (ofN ((64 - n) * 256 + n))
  | 0x0B0 => some (ofN (p.rmode.toNat * 16 + v.rmode.toNat))
  | 0x0B1 => some (eccWord (tblGet v.eccCe (massifOf gc) 0) (tblGet v.eccUe (massifOf gc) 0))
  | 0x0B2 => some (wearWord (tblGet p.wear (p.physCluster (clusterOf gc % 128)) Wear.blank))
  | _ => none

/-- CTLR: a deferred result, the register as it stands after every head issued before (R351); a register read follows an
acquire (R83, R234). -/
def execCtlr (sw : Bool) (d : SReg) (num : BitVec 10) (s : State) : Out :=
  .next <| match ctlValue s s.thr num.toNat with
    | none => s.illegal (.ctlr sw d num)
    | some x => s.withSlot fun s => if s.thr.acquiring then s.bubble else (s.defer [.s d x] .plain true).finish sw

/-- Landing modes as a write leaves them: a pair written with 3 keeps its old mode (R217). -/
def mixModes (old new : Nat) : Nat → Nat
  | 0 => 0
  | n + 1 =>
    let x := fieldN new (2 * n + 1) (2 * n)
    mixModes old new n + (if x = 3 then fieldN old (2 * n + 1) (2 * n) else x) * 4 ^ n

/-- What a write to a control register does to the thread's own registers; fields that are not RW are ignored (R351). -/
def Thread.ctlWrite (t : Thread) (num : Nat) (w : Word) : Thread :=
  match num with
  | 0x010 => { t with l0 := setLoopWord t.l0 0 w }
  | 0x011 => { t with l0 := setLoopWord t.l0 1 w }
  | 0x012 => { t with l0 := setLoopWord t.l0 2 w }
  | 0x013 => { t with l1 := setLoopWord t.l1 0 w }
  | 0x014 => { t with l1 := setLoopWord t.l1 1 w }
  | 0x015 => { t with l1 := setLoopWord t.l1 2 w }
  | 0x018 => { t with rng := w.setWidth 32 }
  | 0x020 => { t with tvec := addrField w }
  | 0x021 => { t with epc := addrField w }
  | 0x022 => { t with cause := w &&& 0x800000000000003F#64 }
  | 0x023 => { t with tval := w }
  | 0x025 => { t with tscratch := w }
  | 0x028 => { t with wdog := w.setWidth 32 }
  | 0x029 => { t with syncl := w.setWidth 8 }
  | 0x030 => { t with lands := ofN (mixModes t.lands.toNat w.toNat 32) }
  | 0x031 => { t with landv := BitVec.ofNat 32 (mixModes t.landv.toNat w.toNat 16) }
  | 0x03A => { t with mgrp := w.setWidth 8 }
  | 0x089 => { t with tcls := w.setWidth 2 }
  | _ => t

/-- A write to a control register, the thread in focus being the writer. -/
def ctlEffect (num : Nat) (w : Word) (s : State) : State :=
  if num = 0 then s.clearTags s.gc s.thr.vk w
  else if num = 0x080 then
    s.modTeam s.thr.vd s.thr.teamNum fun t => { t with progTotal := BitVec.ofNat 32 (field w 63 32) }
  else s.modThr fun t => t.ctlWrite num w

/-- CTLW (R346, R351). A change of landing modes has held arrivals handled again (R216). -/
def execCtlw (sw : Bool) (num : BitVec 10) (a : Src) (s : State) : Out :=
  let n := num.toNat
  let t := s.thr.id
  .next <| if (ctlValue s s.thr n).isNone then s.illegal (.ctlw sw num a)
    else s.withRegs (srcRegs a) fun s =>
      if 0x021 ≤ n && n ≤ 0x023 && !s.thr.hm then s.trap cPriv (ofN n)
      else
        let s := (ctlEffect n (s.src a) s).finish sw
        if n = 0x030 || n = 0x031 then s.reland t else s

end Sys2Proof.Machine
end

