-- ==== Sys2Proof/Machine/ThreadEvents.lean ====
section
/-! DEFINITION. Steps of the part that act on a thread: line fetches, returning results, commits, delivered causes, expired
parks (R24, R35, R36, R45 to R47, R106, R329, R330, R347). -/

namespace Sys2Proof.Machine

/-! ### Line fetch (R33, R35, R36, R106) -/

/-- What a fetch of a line meets: X is needed, and only the issuer's own DRAM window, below the remap range, holds code. -/
def fetchRes (s : State) (t : Thread) (va : Nat) : Res :=
  if isPeer va && (whereIs s (coreOf t.id) t.vd va).isSome then .perm
  else resolve s (coreOf t.id) t.vd t.walkFail false false true va

/-- The line goes to the place that waited for it: the pc's, or the second one (R108). -/
def Thread.holdLine (t : Thread) (l : Line) : Thread :=
  match t.want with
  | some _ => { t with line2 := some l, want := none, walkFail := [] }
  | none => { t with line := some l, line2 := none, walkFail := [] }

/-- Fetch the line that thread `t` waits for, and check it whole. A failure is raised at the head that waits: for the line of
a LOOP's end head that is the LOOP, with the line's address in ctl.tval (log entry 67). -/
def execLineFetch (t : Nat) (s : State) : Out :=
  let s := s.focus t
  let x := s.thr
  let la := match x.want with
    | some a => a
    | none => lineAddr x.pc
  let v := la.setWidth 64
  .next <|
    if x.st != .ready || x.stop == 2 || x.delivers || !x.storeHold.isEmpty || (x.want.isNone && (x.lineAt la).isSome) then s
    else match fetchRes s x la.toNat with
      | .miss vk page => (s.modRouter (s.routerOf s.gc) fun r => r.want vk page t false false true la.toNat).bubble
      | .xlate => s.useTurn.trap cXlate v
      | .perm => s.useTurn.trap cPerm v
      | .loc l =>
        let at_ (k : Nat) : Nat := reached s s.gc x.vd (la.toNat + k) (l + k)
        match (if isLost (at_ 0) || isLost (at_ 32) then none else s.readLoc l 64) with
        | none => (s.countUe x.vd (bytesAt l 64)).useTurn.trap cMemue v
        | some bs =>
          let line := lineOfBytes la bs
          let s := s.countUe x.vd (bytesAt l 64)
          if line.ok then s.modThr fun y => y.holdLine line else s.useTurn.trap cLinefmt v

/-! ### Deferred results (R44, R45) -/

/-- A result formed at its return: CPYQ's, TAPEQ's, PLANSET's (R274, R279, R291). -/
def formResult (s : State) (t : Thread) (f : Form) : State × Option Word :=
  match f with
  | .plain => (s, none)
  | .cpyq _ a => (s, some (cpyqValue s (coreOf t.id) t.vk a))
  | .tapeq _ a => (s, some (tapeqValue s t a))
  | .planset _ _ desc cls =>
    let (s, x) := planReserve s t desc cls
    (s, some x)

/-- A scalar result takes its value. -/
def RegWrite.fill (x : Word) : RegWrite → RegWrite
  | .s r _ => .s r x
  | w => w

def execDeferredResultReturn (t id : Nat) (s : State) : Out :=
  .next <| match (s.thread t).buf.find? fun e => e.id = id with
    | none => s
    | some e =>
      if !e.done || e.returned then s
      else
        let (s, x) := if e.fail.isSome then (s, none) else formResult s (s.thread t) e.form
        s.modThread t fun y => y.modEntry id fun e =>
          { e with returned := true, writes := match x with
              | some x => e.writes.map (RegWrite.fill x)
              | none => e.writes }

/-! ### Switch points (R24, R46, R47, R103, R348, R350) -/

/-- Every outstanding result has returned: they commit, and what the switch point was for goes on. At HALT's own switch point
the thread ends, and a cause of a failed result is not taken (log entry 68). -/
def execSwitchPointCommit (t : Nat) (s : State) : Out :=
  let s := s.focus t
  .next <| match s.thr.st with
    | .switchWait after =>
      if s.thr.buf.any fun e => !e.returned then s
      else
        let s := s.modThr fun x => { x.commit with st := .ready }
        let s := match after with
          | .go => s
          | .trap async code epc tval fsrc => s.trapEnter async code epc tval fsrc
          | .eret => s.eretGo
          | .halt => s.retire t
        s.reland t
    | _ => s

/-! ### Withdrawing a wait (R329, R330, R365) -/

/-- BARSYNC waits, its arrival made (R345). -/
def Thread.inBarsync (t : Thread) : Bool :=
  match t.wait, t.head with
  | .barrier _ _, .issue (.barsync ..) => true
  | _, _ => false

/-- A WAITGE's access leaves its core's port. -/
def State.dropWaitge (s : State) : State :=
  match s.thr.wait with
  | .waitge id _ _ => s.modCore s.gc fun c => { c with port := c.port.filter fun a => !(a.id == id && a.tid == s.thr.id) }
  | _ => s

/-- The wait of the thread in focus is withdrawn: its waiting entry goes and it stands at the address to execute next. -/
def State.withdraw (s : State) : State :=
  let t := s.thr.id
  let s := (s.dropWaitge).leaveDisp t
  let s : State := { s with routers := s.routers.map fun (k, r) =>
    (k, { r with misses := r.misses.map fun m => { m with waiters := m.waiters.filter fun w => w != t } }) }
  (s.modThr fun x => { x.unpark with walkFail := [] }).reland t

/-- A cause ends the wait of the thread in focus: BARSYNC's arrival stands, and the head after it is the one to go on with
(R345). -/
def State.interrupt (s : State) : State := (s.modThr fun x => if x.inBarsync then x.next else x).withdraw

/-- A thread that waits for work or sleeps stops where it is, its outstanding results committed (R365). -/
def State.stopWaiting (s : State) : State :=
  if s.thr.buf.any (fun e => !e.returned) then s
  else ((s.leaveDisp s.thr.id).modThr fun t => { t.commit with stop := 2 }).reland s.thr.id

/-- A thread that is to stop and has parked is stopped there, once its outstanding results have committed. -/
def State.stopParked (s : State) : State :=
  if s.thr.stop = 1 && s.thr.park.isSome then s.withdraw.modThr fun t => t.switch true else s

/-! ### Asynchronous causes (R219, R330, R347) -/

/-- A delivered REGOVW frees the entry of its refusal, or drops it from what a restored thread has still to take in. -/
def State.freeRefusal (s : State) (t arr : Nat) : State :=
  let keep (l : Landing) : Bool := !(l.tid == t && l.refused && l.arr == arr)
  let s := s.modCore (coreOf t) fun c => { c with landing := c.landing.filter keep }
  if (s.heldRest t).isEmpty then s else
    s.modTeam (s.thread t).vd (s.thread t).teamNum fun x => { x with heldLists := tblPut x.heldLists t ((s.heldRest t).filter keep) }

/-- The first pending cause is delivered at an instruction boundary of the thread. -/
def execAsyncCauseDelivery (t : Nat) (s : State) : Out :=
  let s := s.focus t
  .next <| match s.thr.pend with
    | [] => s
    | p :: rest =>
      let waits := match s.thr.st with
        | .ready => s.thr.storeHold.isEmpty
        | .waitWork _ => true
        | .sleeping _ => true
        | _ => false
      if !s.thr.delivers || !waits then s
      else
        let s := (s.modThr fun x => { x with pend := rest }).interrupt
        let s := if p.code = cRegovw then s.freeRefusal t p.arr else s
        s.takeTrap true p.code s.thr.pc p.tval p.fsrc

/-- A park that still holds has lasted its limit: PARKLONG, or in handler mode a double fault (R329, R349). -/
def execParklong (t : Nat) (s : State) : Out :=
  let s := s.focus t
  .next <| match s.thr.park with
    | none => s
    | some p =>
      if !p.expired s.cycle || s.thr.parkOver p || s.thr.st != .ready then s
      else if s.thr.hm then s.doubleFault cParklong p.tval
      else
        let s := s.interrupt
        s.takeTrap true cParklong s.thr.pc p.tval none

end Sys2Proof.Machine
end

