-- ==== Sys2Proof/Machine/HomeEvents.lean ====
section
/-! DEFINITION. Steps at a home: accesses that reach it, sync requests presented again, abandoned retries (R181, R193, R195,
R198). -/

namespace Sys2Proof.Machine

/-- An access reaches its home and is applied. -/
def execAccessAtHome (src : HomeSrc) (s : State) : Out :=
  .next <| match src with
    | .port gc id part => match (s.core gc).port.find? fun a => a.id = id with
      | some a => applyPort s gc a part
      | none => s
    | .copy gc id k => copyStep s gc id k
    | .matrix gc id k => matrixStep s gc id k

/-- A WAITGE that its home has removed has not completed: SYNCRETRY ends its park, as any cause does (R330). -/
def Thread.endWait (t : Thread) (a : Access) : Thread :=
  match t.wait with
  | .waitge id _ _ =>
    if id != a.id then t
    else ({ t with wait := .none, pend := t.pend ++ [⟨cSyncretry, ((a.parts.head?.map Part.va).getD 0).setWidth 64, none, 0⟩] }
      : Thread).cutPark
  | _ => t

/-- An entry is removed: it leaves the queue and the word is unchanged. The result of an LDF or STE fails with SYNCRETRY; a WAITGE
has no switch point, and takes SYNCRETRY asynchronously (DEDUCED, log entry 98). -/
def abandon (s : State) (gc : Nat) (a : Access) : State :=
  (s.modThread a.tid fun t =>
    if a.counted then t.modEntry a.id fun e => { e with fail := some cSyncretry } else t.endWait a).partDone gc a
    ((a.parts.head?.map Part.lane).getD 0)

/-- Its word lies in a scratchpad range of a team that is being saved (R195). -/
def State.wordInSave (s : State) (a : Access) : Bool :=
  a.parts.any fun p => isSpad p.loc && s.teams.any fun t =>
    let gc := spadCore p.loc
    let g := (s.core gc).grantOf (vdKey (pkgOf gc) t.vd)
    t.inSave && (t.seats.any fun x => coreOf x.tid == gc) && spadLoc gc (g.spBase * 4096) ≤ p.loc &&
      p.loc < spadLoc gc (g.spLimit * 4096)

/-- A waiting entry whose retry count has reached its thread's LIMIT, or whose word's range is being saved, is removed. -/
def execSyncretry (gc id : Nat) (s : State) : Out :=
  .next <| match (s.core gc).port.find? fun a => a.id = id && a.waiting with
    | some a => if (a.counted && s.exhausted a) || s.wordInSave a then abandon s gc a else s
    | none => s

/-- A request that found its home's queue full arrives again. -/
def present (gc id : Nat) (pick : Access → Bool) (s : State) : State :=
  match (s.core gc).port.find? fun a => a.id = id && a.turnedAway && pick a with
  | none => s
  | some a => match a.parts with
    | p :: _ => arriveSync s gc { a with turnedAway := false } p
    | [] => s

/-- An LDF or STE, or a WAITGE of a scratchpad word, held in the network is presented again. -/
def execSyncRequestRepresent (gc id : Nat) (s : State) : Out :=
  .next (present gc id (fun a => a.counted || a.parts.any fun p => isSpad p.loc) s)

/-- A WAITGE that found its watch table full reads again. -/
def execWatchReread (gc id : Nat) (s : State) : Out :=
  .next (present gc id (fun a => !a.counted && !(a.parts.any fun p => isSpad p.loc)) s)

end Sys2Proof.Machine
end

