-- ==== Sys2Proof/Machine/Module.lean ====
section
/-! DEFINITION. Launch descriptors, group lists and EMB modules: reading and validation (R28, R29, R51 to R54, R331 to
R333). -/

namespace Sys2Proof.Machine

/-! ### Reading a VD's DRAM window as the command processor does -/

/-- Location of a byte of a VD's DRAM window by its page table. -/
def cpLoc (s : State) (vk va : Nat) : Option Nat :=
  if remapBase ≤ va then none
  else (walk s vk (va / 4096)).map fun l =>
    dramLoc (vk / 16) (unitPa (s.pkg (vk / 16)).massifs l.il l.pa (if l.big then va / 4096 % 512 else 0) + va % 4096)

/-- Some byte of a mapped run within a page is homed on a slice that cannot be reached (R446). -/
def cpLost (s : State) (vk va l n : Nat) : Bool :=
  !(s.pkg (vk / 16)).linksDown.isEmpty && (List.range n).any fun i => isLost (homeAt s vk (va + i) (l + i))

/-- Bytes of a VD's DRAM window; none where a page is not mapped, or where a read returns no data: at an uncorrectable error, or on
a slice that cannot be reached (R443, R446; log entry 90). -/
def cpRead (s : State) (vk va n : Nat) : Option (List Byte) :=
  if n = 0 then some []
  else (pagesOf va n).foldr (fun p acc => match acc, cpLoc s vk p.1 with
    | some bs, some l => if s.bad l p.2 || cpLost s vk p.1 l p.2 then none else some (memReadN s.mem l p.2 ++ bs)
    | _, _ => none) (some [])

/-- Write bytes as the part's own work; of a bad code unit that a write covers only in part, and on a slice that cannot be reached,
those bytes alone are not applied (R443, R446). -/
def cpWrite (s : State) (vk va : Nat) (bs : List Byte) : State :=
  if bs.isEmpty then s
  else (pagesOf va bs.length).foldl (fun s p => match cpLoc s vk p.1 with
    | some l => (s.engWrite (vk % 16) ((List.range p.2).map fun i => homeAt s vk (p.1 + i) (l + i))
        ((bs.drop (p.1 - va)).take p.2)).1
    | none => s) s

/-- Every page of a range is mapped with the permissions that `ok` asks for. -/
def pagesMapped (s : State) (vk va n : Nat) (ok : Leaf → Bool) : Bool :=
  n = 0 || (va + n ≤ remapBase && (pagesOf va n).all fun p => match walk s vk (p.1 / 4096) with
    | some l => ok l
    | none => false)

/-- Number at an offset of bytes. -/
def numAt (bs : List Byte) (o n : Nat) : Nat := ofBytes ((bs.drop o).take n)

def allZero (bs : List Byte) : Bool := bs.all fun b => b == 0

/-! ### The launch descriptor (R331) -/

structure Desc where
  modAddr : Nat
  args : Nat
  groups : Nat
  ngroups : Nat
  pkgs : Nat
  spBase : Nat
  spSize : Nat
  deriving DecidableEq, Repr

def descOf (bs : List Byte) : Desc :=
  ⟨numAt bs 0 8, numAt bs 8 8, numAt bs 16 8, numAt bs 24 2, numAt bs 32 8, numAt bs 40 8, numAt bs 48 4⟩

/-- A descriptor that keeps R331: MODULE names the DRAM window, and a spill region lies in it below the remap range; a SPSIZE
of 0 means that there is none. -/
def descOk (addr : Nat) (bs : List Byte) : Bool :=
  let d := descOf bs
  addr % 64 == 0 && d.modAddr < dramEnd && d.args < 2 ^ 52 && d.groups % 8 == 0 && d.ngroups ≤ 256 && (d.ngroups != 0 || d.groups == 0) &&
  allZero ((bs.drop 26).take 6) && d.spBase % 4096 == 0 && d.spBase < 2 ^ 40 && d.spSize < 2 ^ 24 &&
  (d.spSize == 0 || d.spBase + d.spSize * 4096 ≤ remapBase) && allZero (bs.drop 52)

/-! ### The group list (R332) -/

/-- A list has no number twice. -/
def distinct (xs : List Nat) : Bool := xs.length == xs.eraseDups.length

/-- Member numbers of entry `i` of a group list; none where a field breaks R332 or cannot be read. -/
def groupEntry (s : State) (vk list i nthr : Nat) : Option (List Nat) :=
  match cpRead s vk (list + 16 * i) 16 with
  | none => none
  | some e =>
    let n := numAt e 0 4
    let a := numAt e 8 8
    if numAt e 4 4 != 0 || 2 ^ 20 < n || a % 4 != 0 then none
    else match cpRead s vk a (4 * n) with
      | none => none
      | some bs =>
        let ms := elems 4 bs
        if (ms.all fun m => m < nthr) && distinct ms then some ms else none

/-- The group table of a launch; none where the list breaks R332. -/
def groupTable (s : State) (vk list n nthr : Nat) : Option (Tbl (List Nat)) :=
  let gs := (List.range n).map fun i => (i, groupEntry s vk list i nthr)
  if gs.any fun g => g.2.isNone then none
  else
    let t : Tbl (List Nat) := gs.map fun g => (g.1, g.2.getD [])
    let all := (t.map fun g => g.2).flatten
    if all.all fun m => all.count m ≤ 4 then some t else none

/-! ### The EMB module (R51 to R53) -/

/-- A section-table entry. -/
structure Section where
  type : Nat
  role : Nat
  off : Nat
  len : Nat
  pad : Nat
  addr : Nat
  deriving DecidableEq, Repr

def sectionOf (bs : List Byte) : Section :=
  ⟨numAt bs 0 2, numAt bs 2 2, numAt bs 4 4, numAt bs 8 4, numAt bs 12 4, numAt bs 16 8⟩

/-- A module's header and section table. -/
structure Module where
  roles : Nat
  signed : Bool
  size : Nat
  sections : List Section
  deriving DecidableEq, Repr

/-- The header rules of R51; none where one fails. -/
def moduleHeader (s : State) (vk va : Nat) : Option Module :=
  match cpRead s vk va 64 with
  | none => none
  | some h =>
    let n := numAt h 6 2
    let roles := numAt h 8 2
    let table := numAt h 12 4
    let size := numAt h 16 4
    if numAt h 0 4 = 0x01424D45 && numAt h 4 2 = 1 && 1 ≤ n && n ≤ 1024 && 1 ≤ roles && roles ≤ 256 &&
        numAt h 10 2 ≤ 1 && table % 8 = 0 && table + 24 * n ≤ size && allZero (h.drop 20) then
      (cpRead s vk (va + table) (24 * n)).map fun t =>
        ⟨roles, numAt h 10 2 = 1, size, (List.range n).map fun i => sectionOf ((t.drop (24 * i)).take 24)⟩
    else none

def Module.ofType (m : Module) (t : Nat) : List Section := m.sections.filter fun x => x.type == t
def Module.roleSection (m : Module) (t r : Nat) : Option Section := m.sections.find? fun x => x.type == t && x.role == r

/-- A section entry keeps R52. -/
def sectionOk (m : Module) (x : Section) : Bool :=
  x.pad == 0 && (match x.type with
  | 1 => x.role < m.roles && x.len % 64 == 0 && x.addr % 64 == 0 &&
      (m.sections.filter fun y => y.type == 1 && y.role == x.role).length == 1
  | 2 => x.role < m.roles && x.addr < 2 ^ 32 && (m.sections.filter fun y => y.type == 2 && y.role == x.role).length == 1
  | 3 => x.role == 0xFFFF && x.addr == 0 && x.len == 32 * m.roles
  | 4 => x.role == 0xFFFF && x.addr == 0 && x.len % 8 == 0
  | 5 => x.role == 0xFFFF && x.addr == 0 && x.len % 24 == 0
  | 6 => x.role == 0xFFFF && x.addr == 0 && x.len == 8 && (m.ofType 6).length == 1
  | 7 => x.role == 0xFFFF && x.addr == 0 && x.len % 96 == 0
  | _ => false)

/-- Contents of a section, empty where they cannot be read. -/
def contents (s : State) (vk va : Nat) (x : Section) : List Byte := (cpRead s vk (va + x.off) x.len).getD []

/-- Every section can be read; one that cannot is refused as a module that breaks R51 to R53 (DEDUCED, log entry 38). -/
def sectionsRead (s : State) (vk va : Nat) (m : Module) : Bool :=
  m.sections.all fun x => (cpRead s vk (va + x.off) x.len).isSome

/-- The entries of every section of a type, of `n` bytes each. -/
def entriesOf (s : State) (vk va : Nat) (m : Module) (t n : Nat) : List (List Byte) :=
  ((m.ofType t).map fun x =>
    let bs := contents s vk va x
    (List.range (x.len / n)).map fun i => (bs.drop (n * i)).take n).flatten

def placeOf (e : List Byte) : Nat × Nat × Nat := (numAt e 0 2, numAt e 2 1, numAt e 4 4)

def placeOk (m : Module) (e : List Byte) : Bool :=
  let (r, k, n) := placeOf e
  r < m.roles && 1 ≤ k && k ≤ 8 && numAt e 3 1 == 0 && 1 ≤ n && n ≤ 2 ^ 20

/-- A tensor entry keeps the limits of R29, and its role has a data section that holds the base (R53; log entry 38). -/
def tensorOk (m : Module) (e : List Byte) : Bool :=
  let id := numAt e 2 2
  let size := numAt e 4 1
  let pitch := numAt e 12 4
  let len := numAt e 16 8
  1 ≤ id && id ≤ 4095 && (size == 1 || size == 2 || size == 4 || size == 8) && pitch != 0 && pitch % size == 0 &&
  len != 0 && len % pitch == 0 && numAt e 5 3 == 0 && match m.roleSection 2 (numAt e 0 2) with
  | some x => numAt e 8 4 < x.len
  | none => false

/-- Id, element size and definition of a tensor entry. -/
def tensorEntry (m : Module) (e : List Byte) : Nat × Tensor :=
  let base := ((m.roleSection 2 (numAt e 0 2)).map fun x => x.addr).getD 0
  (numAt e 2 2, ⟨base + numAt e 8 4, numAt e 16 8, numAt e 12 4, numAt e 4 1⟩)

/-- A name padded with NULs. -/
def nameOk (bs : List Byte) : Bool := allZero (bs.dropWhile fun b => b != 0)

/-- Every rule of R51 to R53 but those with reasons of their own. Role names and placements are required, since only types 5
and 6 are optional, and a placement table has an entry (log entry 79). -/
def moduleOk (s : State) (vk va : Nat) (m : Module) : Bool :=
  m.sections.all (sectionOk m) && (entriesOf s vk va m 3 32).all nameOk &&
  (let ps := entriesOf s vk va m 4 8
   !ps.isEmpty && ps.all (placeOk m) && (ps.map fun e => (placeOf e).2.2).sum ≤ 2 ^ 20) &&
  (entriesOf s vk va m 5 24).all (tensorOk m) &&
  (entriesOf s vk va m 6 8).all (fun e => 1 ≤ numAt e 0 1 && numAt e 0 1 ≤ 8 && allZero (e.drop 1)) &&
  (entriesOf s vk va m 7 96).all (fun e => numAt e 0 2 < m.roles && allZero ((e.drop 2).take 30)) &&
  !(m.ofType 3).isEmpty

/-- A section lies outside the module, or sections overlap (R54). One of no bytes strictly inside another overlaps it
(DESIGN CHOICE, log entry 100). -/
def sectionsClash (m : Module) : Bool :=
  (m.sections.any fun x => m.size < x.off + x.len) ||
  m.sections.zipIdx.any fun (x, i) => (m.sections.drop (i + 1)).any fun y => overlaps x.off x.len y.off y.len

/-- Where the roles stand in the module and in memory (R52). -/
def roleOf (m : Module) (r : Nat) : Role :=
  let t := m.roleSection 1 r
  let d := m.roleSection 2 r
  let of (x : Option Section) (f : Section → Nat) : Nat := (x.map f).getD 0
  ⟨of t Section.addr, of t Section.off, of t Section.len, of d Section.addr, of d Section.off, of d Section.len⟩

/-- A role's text and data in a copy of the module at `va`; none where it cannot be read. -/
def roleText (s : State) (vk va : Nat) (r : Role) : Option (List Byte) := cpRead s vk (va + r.textOff) r.textLen
def roleData (s : State) (vk va : Nat) (r : Role) : Option (List Byte) := cpRead s vk (va + r.dataOff) r.dataLen

/-- The SM3 digest of a role image, its text and then its data. -/
def roleDigest (s : State) (vk va : Nat) (r : Role) : BitVec 256 :=
  Config.sm3 ((roleText s vk va r).getD [] ++ (roleData s vk va r).getD [])

/-- A signature entry verifies under one of the operator keys (R53, R429). -/
def signatureOk (s : State) (vk va : Nat) (roles : List Role) (e : List Byte) : Bool :=
  match roles[numAt e 0 2]? with
  | none => false
  | some r => (s.pkg (vk / 16)).opKeys.any fun k => Config.sm2Verify k (roleDigest s vk va r) (BitVec.ofNat 256 (numAt e 32 32))
      (BitVec.ofNat 256 (numAt e 64 32))

/-- Every role of a signed module has a signature, and every signature of one verifies; an unsigned module requires none. -/
def signaturesOk (s : State) (vk va : Nat) (m : Module) (roles : List Role) : Bool :=
  let es := entriesOf s vk va m 7 96
  !m.signed || (((List.range m.roles).all fun r => es.any fun e => numAt e 0 2 == r) && es.all (signatureOk s vk va roles))

/-- Extend a measurement register with a digest: the SM3 digest of the two in turn (R430; PRESUMED, log entry 99). -/
def extendMeasure (reg digest : BitVec 256) : BitVec 256 := Config.sm3 (toBytes 32 reg.toNat ++ toBytes 32 digest.toNat)

/-! ### Placement (R28, R335) -/

/-- Cores that the VD has on a package with slots 0 to k − 1 granted, in ascending order. -/
def vdCores (s : State) (vk k : Nat) : List Nat :=
  let p := s.pkg (vk / 16)
  (s.vd vk).slotMap.filterMap fun (c, mask) =>
    if mask.toNat % 2 ^ k == 2 ^ k - 1 && c / 2048 < p.massifs && c / 128 % 16 < p.clustersOf (c / 2048) &&
        c % 128 < p.coresOf (c / 128) then some (vk / 16 * 16384 + c) else none

/-- The packages that PKGS allows, ascending; 0 allows the one that received the launch. -/
def allowedPkgs (s : State) (vk pkgs : Nat) : List Nat :=
  if pkgs = 0 then [vk / 16]
  else (s.pkgs.map fun x => x.1).filter fun p => pkgs / 2 ^ p % 2 == 1 && (p == vk / 16 || reachable s (vk % 16) (vk / 16) p)

/-- Cores for the entries of a placement, each core for one entry: for every entry its cores; none where they do not suffice.
`free` says which cores may be used. -/
def placeCores (s : State) (vk pkgs : Nat) (free : Nat → Bool) :
    List (Nat × Nat × Nat) → List Nat → Option (List (List Nat))
  | [], _ => some []
  | (_, k, n) :: rest, used =>
    let all := ((allowedPkgs s vk pkgs).map fun p => vdCores s (vdKey p (vk % 16)) k).flatten
    let cs := (all.filter fun c => free c && !used.contains c).take (ceilDiv n k)
    if cs.length < ceilDiv n k then none
    else (placeCores s vk pkgs free rest (used ++ cs)).map fun r => cs :: r

/-- Threads of an entry over its cores: slots 0 to k − 1 of each in turn. -/
def entryThreads (k n : Nat) (cs : List Nat) : List Nat :=
  ((cs.map fun c => (List.range k).map fun j => c * 8 + j).flatten).take n

/-- The seats of a placement: fabric numbers in order (R28). -/
def seatsOf (places : List (Nat × Nat × Nat)) (cores : List (List Nat)) : List Seat :=
  ((places.zip cores).flatMap fun (p, cs) => (entryThreads p.2.1 p.2.2 cs).map fun t => (p.1, t)).zipIdx.map
    fun ((r, t), i) => ⟨i, r, t⟩

/-! ### Validation at selection (R54, R333) -/

/-- What a launch needs, once validated. -/
structure Plan0 where
  desc : Desc
  roles : List Role
  places : List (Nat × Nat × Nat)
  tensors : List (Nat × Tensor)
  fanout : Nat
  groups : Tbl (List Nat)

/-- Validate a launch: the reason with which it is refused, or what it needs. Reasons are found in the order 7, 1, 2, 3, 4,
5, 6 (log entry 38). -/
def validate (s : State) (vk descAddr : Nat) : Nat ⊕ Plan0 :=
  match cpRead s vk descAddr 64 with
  | none => .inl 7
  | some db =>
    let d := descOf db
    if !descOk descAddr db then .inl 7
    else match moduleHeader s vk d.modAddr with
      | none => .inl 1
      | some m =>
        if !moduleOk s vk d.modAddr m then .inl 1
        else if sectionsClash m then .inl 2
        else if !sectionsRead s vk d.modAddr m then .inl 1
        else if (List.range m.roles).any fun r => (m.roleSection 1 r).isNone then .inl 3
        else
          let places := (entriesOf s vk d.modAddr m 4 8).map placeOf
          let roles := (List.range m.roles).map (roleOf m)
          if (placeCores s vk d.pkgs (fun _ => true) places []).isNone then .inl 4
          else if !signaturesOk s vk d.modAddr m roles then .inl 5
          else
            let nthr := (places.map fun p => p.2.2).sum
            match groupTable s vk d.groups d.ngroups nthr with
            | none => .inl 6
            | some groups =>
              let fan := ((entriesOf s vk d.modAddr m 6 8).head?.map fun e => numAt e 0 1).getD 4
              .inr ⟨d, roles, places, (entriesOf s vk d.modAddr m 5 24).map (tensorEntry m), fan, groups⟩

/-- The errors and corrections that the command processor's read of a range meets: part of the part's own traffic (R445). -/
def State.cpMeets (s : State) (vk va n : Nat) : State :=
  if n = 0 || (s.ue.isEmpty && s.ce.isEmpty) then s
  else s.meets none ((pagesOf va n).flatMap fun p => match cpLoc s vk p.1 with
    | some l => (List.range p.2).map fun i => l + i
    | none => [])

/-- What a validation reads: the descriptor, the module, the group list and its member lists. -/
def readsModule (s : State) (vk descAddr : Nat) : State :=
  if s.ue.isEmpty && s.ce.isEmpty then s
  else match cpRead s vk descAddr 64 with
    | none => s.cpMeets vk descAddr 64
    | some db =>
      let d := descOf db
      let size := ((cpRead s vk (d.modAddr + 16) 4).map ofBytes).getD 4
      let lists := (List.range d.ngroups).filterMap fun i => (cpRead s vk (d.groups + 16 * i) 16).map fun e => (numAt e 8 8, 4 * numAt e 0 4)
      lists.foldl (fun s x => s.cpMeets vk x.1 x.2)
        (((s.cpMeets vk descAddr 64).cpMeets vk d.modAddr size).cpMeets vk d.groups (16 * d.ngroups))

end Sys2Proof.Machine
end

