-- ==== Sys2Proof/Machine/Launch.lean ====
section
/-! DEFINITION. Submission queues, selection, binding, loading, start, completion and stops of teams (R28, R55, R56, R331 to
R337, R364, R367, R420 to R426, R459, R460). -/

namespace Sys2Proof.Machine

/-! ### Submission queues (R420, R421) -/

def isPf (fn : Nat) : Bool := fn % 32 == 0
/-- The VD key of a virtual function. -/
def vkOfFn (fn : Nat) : Nat := fn / 32 * 16 + (fn % 32 - 1)

def Queue.size (q : Queue) : Nat := 2 ^ q.log
def State.queue (s : State) (fn q : Nat) : Queue := ((s.fn fn).queues[q]?).getD Queue.blank
def State.modQueue (s : State) (fn q : Nat) (f : Queue → Queue) : State :=
  s.modFn fn fun x => { x with queues := x.queues.setIfInBounds q (f ((x.queues[q]?).getD Queue.blank)) }

/-- A function whose queues are taken from: the physical one, or that of a VD that exists and is not quarantined. -/
def fnActive (s : State) (fn : Nat) : Bool :=
  isPf fn || ((s.vd (vkOfFn fn)).isVd && !(s.vd (vkOfFn fn)).quar)

/-- The entry at the head of a queue, if it holds one and is read. -/
def headEntry (s : State) (fn q : Nat) : Option (List Byte) :=
  let x := s.queue fn q
  if fnActive s fn && x.en && !x.err && x.head != x.tail then some (memReadN s.mem (hostLoc fn (x.base + 64 * x.head)) 64)
  else none

/-- HEAD passes an entry that has been taken. -/
def State.passHead (s : State) (fn q : Nat) : State :=
  s.modQueue fn q fun x => { x with head := (x.head + 1) % x.size, waiting := none }

def entType (e : List Byte) : Nat := numAt e 0 1
def entFlags (e : List Byte) : Nat := numAt e 1 1
def entToken (e : List Byte) : Nat := numAt e 4 4

/-- A handle use of a launch entry: handle, read, write; none where it is unused (R420). -/
def handleUse (w : Nat) : Option (Nat × Bool × Bool) :=
  if w / 2 ^ 31 % 2 = 1 then some (w % 2 ^ 12, w / 2 ^ 12 % 2 == 1, w / 2 ^ 13 % 2 == 1) else none

def entUses (e : List Byte) : List (Nat × Bool × Bool) := (elems 4 ((e.drop 32).take 32)).filterMap handleUse

/-- An entry that keeps R420: a known TYPE, zero fields zero, values within their limits. Flag 0 of a launch asks for a saved
team to be resumed (log entry 39). The physical function takes types 3 and 6 only (R423). -/
def entryOk (fn : Nat) (e : List Byte) : Bool :=
  let z (o n : Nat) : Bool := allZero ((e.drop o).take n)
  z 2 2 && match entType e with
  | 1 => !isPf fn && entFlags e ≤ 1 && fieldN (numAt e 16 8) 62 32 == 0 && z 24 8 &&
      (elems 4 ((e.drop 32).take 32)).all fun w => fieldN w 30 14 == 0
  | 2 => !isPf fn && entFlags e == 0 && numAt e 12 1 ≤ 7 && z 13 3 && z 24 40
  | 3 => (if isPf fn then entFlags e % 16 ≤ 1 else entFlags e ≤ 1) && z 32 32 &&
      (rangeBad (numAt e 8 8) (numAt e 16 8)).isNone
  | 4 => !isPf fn && entFlags e == 0 && numAt e 8 8 ≤ 4095 && numAt e 24 8 != 0 && numAt e 16 8 + numAt e 24 8 ≤ dramEnd && z 32 32
  | 5 => !isPf fn && entFlags e == 0 && numAt e 8 8 ≤ 4095 && z 16 48
  | 6 => entFlags e == 0 && z 24 40
  | _ => false

/-- Post a refusal of type 4 (R333, R420, R421). -/
def postRefusal (s : State) (fn team reason info : Nat) : State :=
  if isPf fn then postOlush s (fn / 32) 0 4 reason info else postCp s (vkOfFn fn) 4 team reason info

/-! ### Waits of a launch (R334, R424) -/

/-- A team that its VD has numbered and that is neither over nor dropped. -/
def teamActive (s : State) (vd num : Nat) : Bool :=
  match s.findTeam vd num with
  | none => false
  | some t => match t.st with
    | .selected | .bound | .saved | .reposted => true
    | .completed | .refused | .stopped | .discarded => false

/-- The team on which a launch depends. -/
def entDep (e : List Byte) : Option Nat := if numAt e 16 8 / 2 ^ 63 = 1 then some (numAt e 16 4) else none

/-- A dependence is satisfied once its team has completed. -/
def depMet (s : State) (vd : Nat) : Option Nat → Bool
  | none => true
  | some n => match s.findTeam vd n with
    | none => false
    | some t => t.st == .completed

/-- A dependence that can never be satisfied. -/
def depDead (s : State) (vd : Nat) : Option Nat → Bool
  | none => false
  | some n => match s.findTeam vd n with
    | none => false
    | some t => t.st == .refused || t.st == .stopped || t.st == .discarded

/-- A handle use waits for no one: a read for the last writer, a write for every reader too. -/
def useFree (s : State) (vk : Nat) (u : Nat × Bool × Bool) : Bool :=
  match tblFind (s.vd vk).handles u.1 with
  | none => true
  | some h =>
    !(((u.2.1 || u.2.2) && h.writer != 0 && teamActive s (vk % 16) h.writer) ||
      (u.2.2 && h.readers.any (teamActive s (vk % 16))))

/-! ### Launch buckets (R394) -/

def tokenNs : Nat := 1000000

def launchRate (v : Vd) (q : Nat) : Nat := field v.lrate (8 * q + 7) (8 * q)

/-- Accrue the launch buckets of a VD to a time. -/
def Vd.refill (v : Vd) (now : Nat) : Vd :=
  let tokens := Vector.ofFn fun (q : Fin 8) =>
    min (v.ltokens[q.val] + launchRate v q.val * (now - v.ltime)) (launchRate v q.val * tokenNs)
  { v with ltime := now, ltokens := tokens }

def Vd.hasToken (v : Vd) (q : Nat) : Bool := launchRate v q == 0 || tokenNs ≤ (v.ltokens[q]?).getD 0
def Vd.spend (v : Vd) (q : Nat) : Vd :=
  if launchRate v q = 0 then v else { v with ltokens := v.ltokens.setIfInBounds q (((v.ltokens[q]?).getD 0) - tokenNs) }

/-! ### Entries that reach the head (R420, R425) -/

/-- INFO1 of the event that refuses an entry: a launch's descriptor address (R353). -/
def refusedInfo (e : List Byte) : Nat := if entType e = 1 then numAt e 8 8 else 0

/-- An entry reaches the head of its queue: a malformed one is refused, and so is a launch whose dependence can never be
satisfied; a launch is otherwise left for selection, and every other entry for its own step. -/
def execLaunchEntry (fn q : Nat) (s : State) : Out :=
  .next <| match headEntry s fn q with
    | none => s
    | some e =>
      if !(s.queue fn q).front.isEmpty then s
      else if !entryOk fn e then postRefusal (s.passHead fn q) fn 0 7 (refusedInfo e)
      else if entType e = 1 && depDead s (vkOfFn fn % 16) (entDep e) then
        postRefusal (s.passHead fn q) fn 0 9 (numAt e 8 8)
      else s

/-! ### Selection (R334) -/

/-- Launches of a package are taken: the boot has ended (R455). -/
def launchesOpen (s : State) (pkg : Nat) : Bool := (s.pkg pkg).booted

/-- A refusal while the part's keys are erased (R431). The reason that its event gives is open (DESIGN CHOICE, log entry 102). -/
def refuseErased (s : State) (fn team info : Nat) : State :=
  postRefusal { s with free := s.free + 1 } fn team (field (Config.freeWord s.free) 31 0) info

/-- A queue's head is a launch whose waits are satisfied, with a token in its bucket. -/
def eligible (s : State) (vk q : Nat) : Bool :=
  let fn := fnOfVd vk
  let x := s.queue fn q
  (s.vd vk).hasToken q && x.en && !x.err &&
  match x.front with
  | _ :: _ => true
  | [] => match headEntry s fn q with
    | none => false
    | some e => entryOk fn e && entType e == 1 && depMet s (vk % 16) (entDep e) && (entUses e).all (useFree s vk)

def queuePri (v : Vd) (q : Nat) : Nat := fieldN v.qpri.toNat (3 * q + 2) (3 * q)

/-- The queue that a selection takes. -/
def chooseQueue (s : State) (vk : Nat) : Option Nat :=
  let v := s.vd vk
  let qs := (List.range 8).filter (eligible s vk)
  let top := qs.foldl (fun p q => max p (queuePri v q)) 0
  let last := (v.lastSel[top]?).getD 7
  ((List.range 8).map fun i => (last + 1 + i) % 8).find? fun q => qs.contains q && queuePri v q == top

/-- A launch of the VD is selected, here or by another package's command processor (R334). -/
def vdSelecting (s : State) (vd : Nat) : Bool := s.teams.any fun t => t.vd == vd && t.st == .selected

/-- The VD's selections of a first time, over all packages: a team number names one team of the VD (R336; log entry 80). -/
def vdSelections (s : State) (vd : Nat) : Nat :=
  s.vds.foldl (fun n (k, v) => if k % 16 = vd then max n v.selections else n) 0

/-- The team of a VD that a package's command processor has selected and that has not bound. -/
def selectedTeam (s : State) (vk : Nat) : Option Team :=
  s.teams.find? fun t => t.vd == vk % 16 && t.pkg == vk / 16 && t.st == .selected

/-- The number after a count of selections: 0 is passed over. -/
def nextNumber (n : Nat) : Nat := if (n + 1) % 2 ^ 32 = 0 then n + 2 else n + 1

/-- A team as its launch is first selected. -/
def newTeam (vk num q : Nat) (e : List Byte) : Team :=
  { vd := vk % 16, num := num % 2 ^ 32, pkg := vk / 16, st := .selected, q := q, token := entToken e, descAddr := numAt e 8 8,
    dep := entDep e, uses := entUses e, args := 0, pkgs := 0, spBase := 0, spSize := 0, fanout := 4, roles := [], places := [],
    tensors := [], modAddr := 0, inRing := true, seats := [], groups := [], key := 0, spill := 0, ctxsave := 0,
    progTotal := 0, progDone := 0, mark := 0, cdone := 0, restarts := 0, segs := [], capbads := 0, t0 := 0, d0 := 0,
    loaded := [], pre := none, shadows := [], heldLists := [], savedCores := [], counts := [], pins := [] }

/-- What a validated launch asks for. -/
def Team.withPlan (t : Team) (p : Plan0) : Team :=
  { t with args := BitVec.ofNat 64 p.desc.args, pkgs := BitVec.ofNat 64 p.desc.pkgs, spBase := p.desc.spBase,
           spSize := p.desc.spSize, fanout := p.fanout, roles := p.roles, places := p.places, tensors := p.tensors,
           modAddr := p.desc.modAddr, groups := p.groups }

/-- The team's uses of handles: a writer replaces the last one, a reader joins (R424). -/
def noteUses (t : Team) (s : State) : State :=
  t.uses.foldl (fun s (h, r, w) => s.modVd (vdKey t.pkg t.vd) fun v => match tblFind v.handles h with
    | none => v
    | some x =>
      let x := { x with writer := if w then t.num else x.writer, readers := if r then x.readers ++ [t.num] else x.readers }
      { v with handles := tblPut v.handles h x }) s

/-- Post the alarm of level 1 for a role image whose signature fails (R431). -/
def signatureAlarm (s : State) (vk : Nat) : State := postOlush s (vk / 16) (vk % 16) 21 (1 + 256) (vk % 16)

/-- A fresh launch is selected: numbered and validated. -/
def selectFresh (s : State) (vk q : Nat) (e : List Byte) : State :=
  let fn := fnOfVd vk
  let num := nextNumber (vdSelections s (vk % 16))
  let s := s.modVd vk fun v => { v with selections := num }
  let t := newTeam vk num q e
  let refused (s : State) : State :=
    ({ s with teams := s.teams ++ [{ t with st := .refused, inRing := false }] } : State).passHead fn q
  if (s.pkg (vk / 16)).erased then refuseErased (refused s) fn t.num t.descAddr
  else
    let read := readsModule s vk t.descAddr
    match validate s vk t.descAddr with
    | .inl reason => postRefusal (refused (if reason = 5 then signatureAlarm read vk else read)) fn t.num reason t.descAddr
    | .inr p =>
      let t := t.withPlan p
      noteUses t { read with teams := read.teams ++ [t] }

/-- A launch taken from the front of its queue, or one that has been selected, is refused while the keys are erased: a saved team
stays saved (R431). -/
def refuseTaken (s : State) (t : Team) : State :=
  refuseErased (s.modTeam t.vd t.num fun t => { t with st := if t.away then .saved else .refused, inRing := false })
    (fnOfVd (vdKey t.pkg t.vd)) t.num t.descAddr

/-- A saved team is selected to be resumed, by the command processor whose queue received the entry. -/
def selectSaved (s : State) (vk q : Nat) (e : List Byte) : State :=
  let fn := fnOfVd vk
  let num := numAt e 16 4
  match s.findTeam (vk % 16) num with
  | some t =>
    if (s.pkg (vk / 16)).erased then refuseErased (s.passHead fn q) fn num (numAt e 8 8)
    else if t.st == .saved then s.modTeam t.vd num fun t => { t with pkg := vk / 16, st := .selected, q := q, inRing := true, token := entToken e }
    else postRefusal (s.passHead fn q) fn 0 7 (numAt e 8 8)
  | none => postRefusal (s.passHead fn q) fn 0 7 (numAt e 8 8)

/-- The command processor selects the eligible queue of highest priority. -/
def execLaunchSelect (vk : Nat) (s : State) : Out :=
  .next <|
    let v := s.vd vk
    if !v.isVd || v.quar || v.ways = 0 || !launchesOpen s (vk / 16) || vdSelecting s (vk % 16) then s
    else
      let s := s.modVd vk fun v => v.refill (s.time (vk / 16))
      match chooseQueue s vk with
      | none => s
      | some q =>
        let fn := fnOfVd vk
        let s := s.modVd vk fun v => { v.spend q with lastSel := v.lastSel.setIfInBounds (queuePri v q) q }
        match (s.queue fn q).front with
        | num :: rest =>
          let s := s.modQueue fn q fun x => { x with front := rest }
          match s.findTeam (vk % 16) num with
          | none => s
          | some t => if (s.pkg (vk / 16)).erased then refuseTaken s t
            else s.modTeam t.vd t.num fun t => { t with st := .selected }
        | [] => match headEntry s fn q with
          | none => s
          | some e => if entFlags e = 1 then selectSaved s vk q e else selectFresh s vk q e

/-! ### Grants (R143, R172, R459) -/

/-- A VD holds a core alone: no other VD's slot map grants a slot there. -/
def holdsAlone (s : State) (vk gc : Nat) : Bool :=
  (List.range 16).all fun v => v == vk % 16 || tblGet (s.vd (vdKey (pkgOf gc) v)).slotMap (gc % 16384) 0 == 0

/-- The grants that a binding writes on a core. -/
def grantFor (s : State) (vk gc : Nat) : Grant :=
  let e := (tblGet (s.vd vk).grantMap (gc % 16384) 0).toNat
  let alone := holdsAlone s vk gc
  let sp := if fieldN e 13 8 != 0 then (fieldN e 5 0, fieldN e 13 8) else if alone then (0, 48) else (0, 0)
  let tiles := if fieldN e 27 16 != 0 then (fieldN e 23 16, fieldN e 27 24) else if alone then (255, 15) else (0, 0)
  ⟨sp.1, sp.2, BitVec.ofNat 8 tiles.1, BitVec.ofNat 4 tiles.2⟩

/-- A scratchpad range holds zero and is empty. -/
def State.zeroSpad (s : State) (gc base limit : Nat) : State :=
  let lo := spadLoc gc (base * 4096)
  let hi := spadLoc gc (limit * 4096)
  let out (l : Nat) : Bool := l < lo || hi ≤ l
  { s with mem := s.mem.filter fun c => out c.1, full := s.full.filter out, ue := s.ue.filter fun u => out u.1,
           ce := s.ce.filter fun u => out u.1 }

/-- A core as a binding leaves it for a VD: its grants, and nothing of an earlier team but the copy requests that are over and
their numbers (R268, R274). The factor that it has then counts as reported (R402; DEDUCED, log entry 101). -/
def bindCore (vd : Nat) (s : State) (gc : Nat) : State :=
  let vk := vdKey (pkgOf gc) vd
  let g := grantFor s vk gc
  let s := s.modVd vk fun v => { v with thrReported := tblPut v.thrReported gc (s.factorOf gc) }
  (s.modCore gc fun c =>
    { c with grants := tblPut c.grants vk g, tags := tblDel c.tags vk, mparts := tblDel c.mparts vk,
             bars := c.bars.filter fun b => b.vk != vk }).zeroSpad gc g.spBase g.spLimit

/-! ### Identity (R3, R336) -/

def shapeWord (s : State) (gc : Nat) : Word :=
  let p := s.pkg (pkgOf gc)
  ofN (p.massifs + p.clustersOf (massifOf gc) * 2 ^ 8 + p.coresOf (clusterOf gc % 128) * 2 ^ 16 + s.pkgs.length * 2 ^ 24)

def shapexWord (p : Pkg) : Word := ofN ((p.shape.zipIdx.map fun (n, m) => n * 2 ^ (5 * m)).sum)

/-- The groups of a member, in ascending index. -/
def groupsWord (t : Team) (fab : Nat) : Word :=
  ofN (((t.groups.filter fun g => g.2.contains fab).zipIdx.map fun (g, i) => (2 ^ 15 + g.1) * 2 ^ (16 * i)).sum % 2 ^ 64)

def selfWord (t : Team) (x : Seat) : Word := ofN (x.role * 2 ^ 56 + t.seats.length * 2 ^ 20 + x.fab)

/-- What a thread reads of its place and of the part's shape. -/
def Thread.placed (s : State) (tid : Nat) (t : Thread) : Thread :=
  { t with id := tid, place := ofN tid, shape := shapeWord s (coreOf tid), shapex := shapexWord (s.pkg (pkgOfThread tid)) }

/-- A thread of a launch before its role is loaded (R55). Its slot's next turn is the slot's own (R326). -/
def freshThread (s : State) (t : Team) (x : Seat) : Thread :=
  let r := t.roles[x.role]?
  Thread.placed s x.tid { Thread.blank x.tid with
    nextTurn := (s.thread x.tid).nextTurn, vd := t.vd, st := .loading, pc := BitVec.ofNat 52 ((r.map fun r => r.textAddr).getD 0 + 2), self := selfWord t x,
    args := t.args, team := ofN t.num, groups := groupsWord t x.fab }

/-! ### Binding (R335, R426, R460) -/

/-- A core may take threads of a VD: no thread of it is there. -/
def coreFree (s : State) (vd gc : Nat) : Bool :=
  (List.range 8).all fun k => let t := s.thread (gc * 8 + k)
                              t.st == .absent || t.vd != vd

/-- Tensor entries pass the checks of R411 on a package, each as a TDEF that follows those before it would (log entry 38). -/
def tensorsFit (v : Vd) : List (Nat × Tensor) → Bool
  | [] => true
  | (id, t) :: rest =>
    (tdefBad id t.elem t.base t.len t.pitch).isNone && t.base + t.len ≤ remapBase && (tdefMeets v id t.base t.len).isNone &&
    tensorsFit { v with tensors := tblPut v.tensors id t } rest

/-- The checks of reason 10 on a package: tensors, load ranges of the roles to be written, spill region (R285, R460). -/
def mappedOk (s : State) (t : Team) (roles : List Nat) (pkg : Nat) : Bool :=
  let vk := vdKey pkg t.vd
  tensorsFit (s.vd vk) t.tensors &&
  (roles.all fun r => match t.roles[r]? with
    | none => true
    | some x => pagesMapped s vk x.textAddr x.textLen (fun l => l.x) &&
        pagesMapped s vk x.dataAddr x.dataLen fun l => l.r && l.w) &&
  pagesMapped s vk t.spBase (t.spSize * 4096) fun l => l.r && l.w

/-- The roles of a launch that have threads on a package. -/
def rolesOn (seats : List Seat) (pkg : Nat) : List Nat :=
  ((seats.filter fun x => pkgOfThread x.tid == pkg).map fun x => x.role).eraseDups

/-- The packages that hold threads. -/
def pkgsOf (seats : List Seat) : List Nat := (seats.map fun x => pkgOfThread x.tid).eraseDups

/-- A copy of the module on another package has the digest of the one that was validated (R56). -/
def digestOk (s : State) (t : Team) (pkg : Nat) : Bool :=
  pkg == t.pkg ||
  match cpRead s (vdKey t.pkg t.vd) (t.modAddr + 16) 4 with
  | none => false
  | some n => match cpRead s (vdKey t.pkg t.vd) t.modAddr (ofBytes n), cpRead s (vdKey pkg t.vd) t.modAddr (ofBytes n) with
    | some a, some b => Config.sm3 a == Config.sm3 b
    | _, _ => false

/-- The text and data of a package's roles in its own copy of the module; none where some of it cannot be read. -/
def ownSections (s : State) (t : Team) (roles : List Nat) (pkg : Nat) : Option (List (Role × List Byte × List Byte)) :=
  let vk := vdKey pkg t.vd
  roles.foldr (fun r acc => match acc, t.roles[r]? with
    | some rest, some x => match roleText s vk t.modAddr x, roleData s vk t.modAddr x with
      | some a, some b => some ((x, a, b) :: rest)
      | _, _ => none
    | acc, none => acc
    | none, _ => none) (some [])

/-- Write the sections of a package's roles from its own copy of the module (R460). -/
def writeSections (t : Team) (seats : List Seat) (s : State) (pkg : Nat) : State :=
  let vk := vdKey pkg t.vd
  ((ownSections s t (rolesOn seats pkg) pkg).getD []).foldl
    (fun s (x, text, data) => cpWrite (cpWrite s vk x.textAddr text) vk x.dataAddr data) s

/-- Apply the module's tensors on a package, with the effect of TDEF (R29). -/
def applyTensors (t : Team) (s : State) (pkg : Nat) : State :=
  t.tensors.foldl (fun s e => s.defineTensor (vdKey pkg t.vd) e.1 e.2) s

/-- Ways of a VD leave the cache, so that `lines` lines of a slice are left to it: each dirty tile in them is written back, whole.
Which tiles those are is the part's own; no slice keeps more of them than its lines (R178; log entry 81). -/
def leaveCache (vk lines : Nat) (s : State) : State :=
  let ts := s.dirtyTiles vk
  let home (x : Tile) : Nat := sliceOf s vk x ((mappedLoc s vk x.first).getD 0)
  let stay := ts.zipIdx.foldl (fun kept (x, i) =>
    if Config.freeBool (s.free + i) || lines ≤ (kept.filter fun y => home y == home x).length then kept else kept ++ [x]) []
  (ts.filter fun x => !stay.contains x).foldl (fun s x => s.cleanTile vk x) { s with free := s.free + ts.length }

/-- A split that was asked for takes effect while no team of the VD runs: dirty tiles leave ways that leave the cache, and after a
change shared memory reads as zero (R178, R179). -/
def applySplit (vk : Nat) (s : State) : State :=
  let v := s.vd vk
  match v.newSways with
  | none => s
  | some n =>
    if s.teams.any fun t => t.vd == vk % 16 && t.holds && !t.away then s
    else if n = v.sways then s.modVd vk fun v => { v with newSways := none }
    else
      let s := if v.sways < n then leaveCache vk (384 * (v.ways - n)) s else s
      let keep (l : Nat) : Bool := l < l2Loc vk 0 0 || l2Loc (vk + 1) 0 0 ≤ l
      ({ s with mem := s.mem.filter fun c => keep c.1, ue := s.ue.filter fun u => keep u.1,
                ce := s.ce.filter fun u => keep u.1 } : State).modVd vk fun v =>
        { v with sways := n, newSways := none }

/-- Bytes in S for one core: tags and its scratchpad grant, and a partition where the VD has one (R366). -/
def coreSave (s : State) (t : Team) (gc : Nat) : Nat :=
  let g := (s.core gc).grantOf (vdKey (pkgOf gc) t.vd)
  8192 + (g.spLimit - g.spBase) * 4096 + (if g.accs = 0 && g.bufs = 0 then 0 else 104 * 1024)

def Team.coreList (t : Team) : List Nat := (t.tids.map coreOf).eraseDups

/-- A thread has a context to be saved: one that has retired has none, unless sends of it still wait (log entry 42). -/
def Thread.hasContext (t : Thread) : Bool := t.st != .retired || !t.sendq.isEmpty

/-- S: what a save writes (R361, R366). -/
def saveBytes (s : State) (t : Team) : Nat :=
  8192 * (t.tids.filter fun x => (s.thread x).hasContext).length + (t.coreList.map (coreSave s t)).sum + 65536

/-- The region set aside for a save of a team that binds: sized by the table, or of size 0 where the VD cannot spare it; that
choice and the place are the command processor's own (R366; log entry 40). -/
def saveRegion (s : State) (t : Team) : Word :=
  let size := if Config.freeBool s.free then ceilDiv (saveBytes s t) 4096 else 0
  ofN (size % 2 ^ 24 * 2 ^ 40) ||| (Config.freeWord (s.free + 1) &&& 0xFFFFFFF000)

/-- What a binding sets of its team; its cores have their grants. -/
def boundTeam (s : State) (t : Team) (seats : List Seat) : Team :=
  { t with st := .bound, inRing := false, seats := seats, key := s.free,
           ctxsave := saveRegion { s with free := s.free + 1 } { t with seats := seats },
           spill := ofN (t.spSize * 2 ^ 40 + t.spBase), t0 := s.time t.pkg, d0 := t.progDone, loaded := [] }

/-- The launch passes the head of its ring as it binds (R425). -/
def leaveRing (s : State) (t : Team) : State := if t.inRing then s.passHead (fnOfVd (vdKey t.pkg t.vd)) t.q else s

/-- A launch that is refused once its packages are known. -/
def refuseBinding (s : State) (t : Team) (reason : Nat) : State :=
  let s := (leaveRing s t).modTeam t.vd t.num fun t => { t with st := .refused, inRing := false }
  postRefusal s (fnOfVd (vdKey t.pkg t.vd)) t.num reason t.descAddr

/-- The VD's measurement register of each package is extended with the role images launched there (R430). -/
def measureRoles (t : Team) (seats : List Seat) (s : State) : State :=
  (pkgsOf seats).foldl (fun s p =>
    let vk := vdKey p t.vd
    let roles := (rolesOn seats p).filterMap fun r => t.roles[r]?
    s.modVd vk fun v => { v with measured := roles.foldl (fun m x => extendMeasure m (roleDigest s vk t.modAddr x)) v.measured }) s

/-- The parameter caches hold nothing of a VD when a launch of it binds (R426). -/
def emptyParams (vd : Nat) (s : State) : State :=
  { s with cores := s.cores.map fun (gc, c) => (gc, { c with params := c.params.filter fun b => b.vk % 16 != vd }) }

/-- Bind a launch to its seats. What cannot be read of a package's copy by then is refused as at selection (log entry 38). A launch
reposted after a discard is checked and tagged as any other, but its sections are not
written again (R460). -/
def bindFresh (s : State) (t : Team) (seats : List Seat) : State :=
  let ps := pkgsOf seats
  let fresh := t.restarts == 0
  if !(ps.all (digestOk s t)) then refuseBinding s t 8
  else if fresh && ps.any (fun p => (ownSections s t (rolesOn seats p) p).isNone) then refuseBinding s t 1
  else if !(ps.all fun p => mappedOk s t (if fresh then rolesOn seats p else []) p) then refuseBinding s t 10
  else
    let s := ps.foldl (fun s p => applySplit (vdKey p t.vd) s) s
    let s := if fresh then ps.foldl (writeSections t seats) (measureRoles t seats s) else s
    let s := emptyParams t.vd (ps.foldl (applyTensors t) s)
    let s := (seats.map fun x => coreOf x.tid).eraseDups.foldl (bindCore t.vd) s
    let t' := boundTeam s t seats
    let s : State := { s with free := s.free + 3 }
    let s := (leaveRing s t).modTeam t.vd t.num fun _ => t'
    seats.foldl (fun s x => s.setThread (freshThread s t' x)) s

/-! ### Restore (R226, R367) -/

/-- Where a thread goes: the seat of the same fabric number. -/
def moveTid (old new : List Seat) (tid : Nat) : Nat :=
  match old.find? fun x => x.tid == tid with
  | none => tid
  | some x => ((new.find? fun y => y.fab == x.fab).map fun y => y.tid).getD tid

def moveCore (old new : List Seat) (gc : Nat) : Nat :=
  match old.find? fun x => coreOf x.tid == gc with
  | none => gc
  | some x => coreOf (moveTid old new x.tid)

def moveCluster (old new : List Seat) (cl : Nat) : Nat :=
  match old.find? fun x => clusterOf (coreOf x.tid) == cl with
  | none => cl
  | some x => clusterOf (coreOf (moveTid old new x.tid))

/-- The package that takes a package's place: where its first thread goes. -/
def movePkg (old new : List Seat) (p : Nat) : Nat :=
  match old.find? fun x => pkgOfThread x.tid == p with
  | none => p
  | some x => pkgOfThread (moveTid old new x.tid)

/-- A saved core is written to the core that takes its place, behind the copy requests that are over there. -/
def restoreCore (t : Team) (new : List Seat) (s : State) (c : SavedCore) : State :=
  let gc := moveCore t.seats new c.gc
  let vk := vdKey (pkgOf gc) t.vd
  let s := bindCore t.vd s gc
  let g := (s.core gc).grantOf vk
  let s := s.modCore gc fun x =>
    let x := { x with
      tags := tblPut x.tags vk c.tags, copySeq := tblPut x.copySeq vk c.copySeq,
      copies := (x.copies.filter fun r => !(c.copies.any fun k => k.id == r.id)) ++
        c.copies.map fun r => { r with vk := vk, tid := moveTid t.seats new r.tid },
      locks := x.locks ++ c.locks.map fun l => { l with vk := vk },
      bars := x.bars ++ c.bars.map fun b => { b with vk := vk }, mparts := tblPut x.mparts vk c.part }
    let x := (List.range 8).foldl (fun x n => if g.hasTile n then
      { x with accs := x.accs.setIfInBounds n ((c.accs[n]?).getD (Vector.replicate 1024 0)),
               accFail := x.accFail.setIfInBounds n ((c.accFail[n]?).getD none) } else x) x
    (List.range 4).foldl (fun x n => if g.hasTile (n + 8) then
      { x with bufs := x.bufs.setIfInBounds n ((c.bufs[n]?).getD ⟨0, none, []⟩) } else x) x
  let s : State := { s with mem := c.bytes.foldl (fun m b => memWrite m (spadLoc gc b.1) b.2) s.mem }
  { s with full := s.full ++ c.full.map (spadLoc gc) }

/-- A held arrival on the new seats; what it waits behind follows its sender (R218). -/
def Landing.moved (old new : List Seat) (l : Landing) : Landing :=
  if l.sender.1 = 0 then { l with tid := moveTid old new l.tid, own := false, sender := (0, moveTid old new l.sender.2) }
  else
    let gc := moveCore old new l.sender.2
    { l with tid := moveTid old new l.tid, own := false, sender := (1, gc), window := (1, gc) }

/-- A shadow becomes a thread again: its waits start afresh, a sleeper sleeps on, a waiter for work joins its dispenser. -/
def restoreThread (t : Team) (new : List Seat) (s : State) (x : Thread) : State :=
  let tid := moveTid t.seats new x.id
  let y := Thread.placed s tid { x with park := none, wait := .none, line := none, line2 := none, want := none, walkFail := [],
                                        nextTurn := (s.thread tid).nextTurn, stop := 0 }
  let s := s.setThread y
  match y.st with
  | .waitWork _ => s.modDisp (clusterOf (coreOf tid)) t.vd t.num fun q => { q with waiters := q.waiters ++ [tid] }
  | _ => s

/-- Dispensers that have come to the same cluster are one: its tasks, places and waiters follow one another. -/
def mergeDisps : List Disp → List Disp
  | [] => []
  | d :: rest =>
    let rest := mergeDisps rest
    match rest.find? fun x => x.is d.cluster d.vd d.team with
    | none => d :: rest
    | some x => { d with tasks := d.tasks ++ x.tasks, places := d.places + x.places, waiters := d.waiters ++ x.waiters } ::
        rest.filter fun y => !y.is d.cluster d.vd d.team

/-- A team's plans and remap windows go to the package that takes their package's place, under their own numbers; one whose number is
taken there stays (R283, R320; DEDUCED, log entry 104). -/
def moveTables (t : Team) (new : List Seat) (s : State) : State :=
  let goal (k : Nat) : Nat := vdKey (movePkg t.seats new (k / 16)) t.vd
  let ks := (s.vds.map fun e => e.1).filter fun k => k % 16 == t.vd && goal k != k
  let plans := ks.flatMap fun k => ((s.vd k).plans.filter fun e => e.2.team == t.num).map fun e => (k, e.1, e.2)
  let wins := ks.flatMap fun k => ((s.vd k).remaps.filter fun e => e.2.team == t.num).map fun e => (k, e.1, e.2)
  let s := ks.foldl (fun s k => s.modVd k fun v =>
    { v with plans := v.plans.filter fun e => e.2.team != t.num, remaps := v.remaps.filter fun e => e.2.team != t.num }) s
  let s := plans.foldl (fun s (k, i, p) =>
    let gen := tblGet (s.vd k).planGen i 0
    if (tblFind (s.vd (goal k)).plans i).isSome then s.modVd k fun v => { v with plans := tblPut v.plans i p }
    else (s.modVd k fun v => { v with planGen := tblPut v.planGen i (gen + 1) }).modVd (goal k) fun v =>
      { v with plans := tblPut v.plans i p, planGen := tblPut v.planGen i gen }) s
  wins.foldl (fun s (k, w, r) =>
    s.modVd (if (tblFind (s.vd (goal k)).remaps w).isSome then k else goal k) fun v => { v with remaps := tblPut v.remaps w r }) s

/-- Install a team's pins again, where a router has room for them (R414). -/
def restorePins (t : Team) (new : List Seat) (s : State) : State :=
  t.pins.foldl (fun s (r, page, _) =>
    let r' := moveCluster t.seats new (r / 16) * 16 + r % 16
    let vk := vdKey (r' / 2048) t.vd
    let es := pinEntries s vk [page]
    if 64 < (s.router r').pinned vk + (s.router r').newPins es then s else s.modRouter r' fun x => x.pin t.num es) s

/-- The rest of a team's state follows its threads: plans' members, dispensers, posts that travel, pins. -/
def restoreShared (t : Team) (new : List Seat) (s : State) : State :=
  let s : State := { s with vds := s.vds.map fun (k, v) => if k % 16 != t.vd then (k, v) else
    (k, { v with plans := v.plans.map fun (i, p) =>
      if p.team = t.num then (i, { p with members := p.members.map (moveTid t.seats new) }) else (i, p) }) }
  let s : State := { s with disps := mergeDisps (s.disps.map fun d =>
    if d.vd = t.vd && d.team = t.num then { d with cluster := moveCluster t.seats new d.cluster } else d) }
  let s : State := { s with posted := s.posted.map fun p => match p with
    | .disp id tid sc cl vd team words prio => if vd = t.vd && team = t.num then
        .disp id (moveTid t.seats new tid) sc (moveCluster t.seats new cl) vd team words prio else p
    | _ => p }
  restorePins t new (moveTables t new s)

/-- The records of a segment that were made on other slots: a retrace detours their paths (R309). -/
def Segment.moved (same : Bool) (x : Segment) : Segment := if same then x else { x with old := x.records }

/-- Restore a saved team on its new seats. It binds as a launch does: a split that waits takes effect and the parameter caches hold
nothing of the VD (R178, R367, R426). -/
def bindSaved (s : State) (t : Team) (seats : List Seat) : State :=
  let s := (pkgsOf seats).foldl (fun s p => applySplit (vdKey p t.vd) s) (leaveRing s t)
  let s := restoreShared t seats (emptyParams t.vd s)
  let s := t.savedCores.foldl (restoreCore t seats) s
  let s := t.shadows.foldl (restoreThread t seats) s
  let s := t.counts.foldl (fun s (old, n) =>
    let tid := moveTid t.seats seats old
    match seats.find? fun x => x.tid == tid with
    | none => s
    | some x => s.setThread { freshThread s { t with seats := seats } x with st := .retired, capgen := n }) s
  let s := s.modTeam t.vd t.num fun t =>
    { t with st := .bound, inRing := false, seats := seats, shadows := [], savedCores := [], counts := [],
             heldLists := t.heldLists.map (fun (k, ls) => (moveTid t.seats seats k, ls.map (Landing.moved t.seats seats))),
             loaded := t.loaded.map (moveCore t.seats seats),
             segs := t.segs.map (fun (k, x) => (k, x.moved (t.seats == seats))),
             pins := t.pins.map (fun (r, p) => (moveCluster t.seats seats (r / 16) * 16 + r % 16, p)),
             t0 := s.time t.pkg, d0 := t.progDone }
  seats.foldl (fun s x => s.refillHeld x.tid) s

/-- The selected launch binds when its placement finds its cores free, and the VD has ways on every package that it takes
(R177). -/
def execLaunchBind (vk : Nat) (s : State) : Out :=
  .next <| match selectedTeam s vk with
    | none => s
    | some t =>
      if !launchesOpen s (vk / 16) || (s.vd vk).quar then s
      else if (s.pkg (vk / 16)).erased then refuseTaken (leaveRing s t) t
      else match placeCores s vk t.pkgs.toNat (coreFree s t.vd) t.places [] with
        | none => s
        | some cores =>
          let seats := seatsOf t.places cores
          if (pkgsOf seats).any fun p => (s.vd (vdKey p t.vd)).ways == 0 then s
          else if t.away then bindSaved s t seats else bindFresh s t seats

/-! ### Loading and start (R55, R56) -/

/-- The cores of a core's role on its package, in placement order. -/
def roleCores (t : Team) (gc : Nat) : List Nat :=
  match t.seats.find? fun x => coreOf x.tid == gc with
  | none => []
  | some x => ((t.seats.filter fun y => y.role == x.role && pkgOfThread y.tid == pkgOf gc).map fun y => coreOf y.tid).eraseDups

/-- A core takes the whole role image: the first from the module, any other from the core that forwards to it. -/
def execBootTreeForward (vd team gc : Nat) (s : State) : Out :=
  .next <| match s.findTeam vd team with
    | none => s
    | some t =>
      let cs := roleCores t gc
      let i := cs.idxOf gc
      let ready := i = 0 || match cs[(i - 1) / max t.fanout 1]? with
        | some p => t.loaded.contains p
        | none => false
      if t.st == .bound && cs.contains gc && !t.loaded.contains gc && ready then
        s.modTeam vd team fun t => { t with loaded := t.loaded ++ [gc] }
      else s

/-- A core that holds the image starts its threads. -/
def execThreadStart (vd team gc : Nat) (s : State) : Out :=
  .next <| match s.findTeam vd team with
    | none => s
    | some t =>
      if t.st == .bound && t.loaded.contains gc then
        (t.seats.filter fun x => coreOf x.tid == gc).foldl (fun s x => s.modThread x.tid fun y =>
          if y.st == .loading then { y with st := .ready } else y) s
      else s

/-! ### Release (R337, R414) -/

/-- A copy request as it is left when its team is gone: over, or not at all where it has not been. -/
def CopyReq.left (t : Team) (r : CopyReq) : Option CopyReq :=
  if !t.tids.contains r.tid then some r
  else match r.state with
    | .queued => none
    | .running => none
    | .landing => some { r with state := .settled }
    | .settled => some r

/-- A core forgets a team, but for the VD's copy requests that are over and their numbers, which belong to the core and the VD (R268,
R273, R274). The last status of every tag is 0 for the VD's next team there (DESIGN CHOICE, log entry 105). -/
def freeCore (t : Team) (s : State) (gc : Nat) : State :=
  let vk := vdKey (pkgOf gc) t.vd
  (s.modVd vk fun v => { v with thrReported := tblDel v.thrReported gc }).modCore gc fun c =>
    { c with tags := tblDel c.tags vk, grants := tblDel c.grants vk, mparts := tblDel c.mparts vk,
             bars := c.bars.filter fun b => b.vk != vk, copies := c.copies.filterMap (CopyReq.left t),
             landing := c.landing.filter fun l => !t.tids.contains l.tid, locks := c.locks.filter fun l => l.vk != vk,
             port := c.port.filter fun a => !t.tids.contains a.tid }

/-- Tasks of a team that have not bound, posts that travel included. -/
def tasksLeft (s : State) (t : Team) : Nat :=
  ((s.disps.filter fun d => d.vd == t.vd && d.team == t.num).map fun d => d.tasks.length + d.places).sum

/-- What a team holds beside its cores is given back: plans, segments, windows, tasks, pins. Its uses of handles end with the team
itself: one that is discarded to be reposted keeps them (R424). -/
def releaseShared (t : Team) (s : State) : State :=
  let s : State := s.vds.foldl (fun s (k, v) => if k % 16 != t.vd then s else
    let s := (v.plans.filter fun p => p.2.team == t.num).foldl (fun s p => dropPlan k p.1 s) s
    s.modVd k fun v => { v with remaps := v.remaps.filter fun r => r.2.team != t.num }) s
  let s : State := { s with
    disps := s.disps.filter fun d => !(d.vd == t.vd && d.team == t.num),
    posted := s.posted.filter fun p => !t.tids.contains p.tid,
    routers := s.routers.map fun (k, r) => (k, { r with tlb := r.tlb.map fun e =>
      if e.vk % 16 = t.vd then { e with pins := e.pins.filter fun n => n != t.num } else e }) }
  (dropLog s t.vd t.num none).modTeam t.vd t.num fun t => { t with segs := [], pins := [] }

/-- No thread of the team waits for work or for a page walk. -/
def leaveWaits (t : Team) (s : State) : State :=
  { s with
    disps := s.disps.map fun d => { d with waiters := d.waiters.filter fun w => !t.tids.contains w },
    routers := s.routers.map fun (k, r) => (k, { r with misses := r.misses.map fun m =>
      { m with waiters := m.waiters.filter fun w => !t.tids.contains w } }) }

/-- The team's units that wait for work of its own are gone from the arbiters (R403). -/
def dropTeamUnits (t : Team) (s : State) : State := (pkgsOf t.seats).foldl (fun s p => s.dropIdle (vdKey p t.vd)) s

/-- Slots are free again. -/
def freeSlots (t : Team) (s : State) : State :=
  dropTeamUnits t (t.tids.foldl (fun s tid => s.setThread { Thread.blank tid with nextTurn := (s.thread tid).nextTurn })
    (t.coreList.foldl (freeCore t) (leaveWaits t s)))

def releaseTeam (t : Team) (s : State) : State := freeSlots t (releaseShared t s)

/-! ### Completion (R337, R426) -/

/-- Every thread has retired, and everything that the team issued is complete. -/
def teamDone (s : State) (t : Team) : Bool :=
  (t.tids.all fun x => (s.thread x).st == .retired && (s.thread x).sendq.isEmpty) &&
  (t.coreList.all fun gc =>
    let c := s.core gc
    (c.copies.all fun r => !t.tids.contains r.tid || r.state == .settled) &&
    (c.mq.all fun m => !t.tids.contains m.tid) && c.port.all fun a => !t.tids.contains a.tid) &&
  (s.forwards.all fun f => !t.tids.contains f.tid) && (s.retraces.all fun r => !t.tids.contains r.tid) &&
  (s.vds.all fun (k, v) => k % 16 != t.vd || v.plans.all fun p => p.2.team != t.num || p.2.running.isNone) &&
  s.posted.all fun p => !t.tids.contains p.tid || match p with
    | .disp .. => true
    | .arrival .. => true
    | _ => false

/-- A discard or a stop of the team is in progress (R224, R364, R431). -/
def Team.stops (t : Team) : Bool :=
  match t.pre with
  | some p => p.action == 2 || p.action == 4 || p.action == 5
  | none => false

/-- Post the event of type 16 that ends a request (R368). -/
def postRequest (s : State) (vk team : Nat) (p : PreReq) (action size : Nat) : State :=
  let late := p.late || (action == 1 && decide (p.deadline < s.time (vk / 16)))
  postCp s vk 16 team (action + (if late then 4 else 0) + if p.byHost then 8 else 0) size

/-- A team completes; a request in progress completes with it (R363, R369). -/
def execTeamComplete (vd team : Nat) (s : State) : Out :=
  .next <| match s.findTeam vd team with
    | none => s
    | some t =>
      if t.st != .bound || t.stops || !teamDone s t then s
      else
        let vk := vdKey t.pkg vd
        let n := tasksLeft s t
        let s := releaseTeam t s
        let s := postCp s vk 3 team n 0
        let s := match t.pre with
          | some p => postRequest s vk team p 1 0
          | none => s
        let s : State := { s with cases := s.cases.filter fun c => c.kind != .preempt vd team }
        s.modTeam vd team fun t => { t with st := .completed, pre := none }

/-! ### Stopping a team (R224, R364, R365) -/

/-- Every thread of a team is to stop at its next boundary. -/
def beginStop (s : State) (t : Team) : State :=
  t.tids.foldl (fun s tid => s.modThread tid fun x => if x.stop = 0 then { x with stop := 1 } else x) s

/-- Cancel every engine operation of a team. -/
def cancelTeam (t : Team) (s : State) : State :=
  let s := t.coreList.foldl (fun s gc =>
    let c := s.core gc
    let s := (c.copies.filter fun r => t.tids.contains r.tid && (r.state == .queued || r.state == .running)).foldl
      (fun s r => cancelCopy s gc r) s
    let s := (c.mq.filter fun m => t.tids.contains m.tid).foldl (fun s m => cancelEntry s gc m) s
    (c.port.filter fun a => a.kind == .gath && t.tids.contains a.tid).foldl (fun s a => cancelGather s gc a) s) s
  let s := (s.forwards.filter fun f => t.tids.contains f.tid).foldl cancelForward s
  let s := (s.retraces.filter fun r => t.tids.contains r.tid).foldl cancelRetrace s
  let s : State := { s with retraces := s.retraces.filter fun r => !t.tids.contains r.tid }
  s.vds.foldl (fun s (k, v) => if k % 16 != t.vd then s else
    (v.plans.filter fun p => p.2.team == t.num).foldl (fun s p => cancelFiring k p.1 p.2 s) s) s

/-- A write of the team is in flight. -/
def writesLeft (s : State) (t : Team) : Bool :=
  t.coreList.any fun gc => (s.core gc).port.any fun a => t.tids.contains a.tid && a.writes

/-- The steps of a discard once it has begun: none while its threads or its writes hold it up, but with the engine operations
cancelled as soon as the threads have stopped. -/
def finishStop (s : State) (t : Team) : State × Bool :=
  if !allHalted s t then (s, false)
  else
    let s := dropTeamUnits t (cancelTeam t s)
    if writesLeft s t then (s, false)
    else (releaseTeam t (t.tids.foldl State.retire s), true)

/-- The 4,096th counted refusal stops the team: it is stopped as by a discard, never reposted, with an event of type 5. -/
def execCapbadStop (vd team : Nat) (s : State) : Out :=
  .next <| match s.findTeam vd team with
    | none => s
    | some t =>
      if t.st != .bound || t.capbads < 4096 then s
      else match t.pre with
        | some ⟨_, _, _, _, _, 4, _, _, _⟩ =>
          let (s, ok) := finishStop s t
          if ok then
            (postCp s (vdKey t.pkg vd) 5 team t.capbads 0).modTeam vd team fun t => { t with st := .stopped, pre := none }
          else s
        | _ => (beginStop s t).modTeam vd team fun t => { t with pre := some ⟨0, 0, 0, 0, 0, 4, false, false, none⟩ }

end Sys2Proof.Machine
end

