-- ==== Sys2Proof/Machine/Preempt.lean ====
section
/-! DEFINITION. Pre-emption: requests, the estimate, the choice, drain, discard, save (R356 to R370). -/

namespace Sys2Proof.Machine

/-! ### The estimate (R361) -/

/-- Units of work done since the last binding or restore. -/
def Team.doneSince (t : Team) : Nat := t.progDone.toNat - t.d0.toNat

/-- The time that `n` units take at the rate seen so far; none without rate data. -/
def rateTime (now : Nat) (t : Team) (n : Nat) : Option Nat :=
  if t.doneSince = 0 then none else some (ceilDiv (n * (now - t.t0)) t.doneSince)

/-- Td: none where it is unknown. -/
def drainTime (now : Nat) (t : Team) : Option Nat :=
  if t.progTotal = 0 then none
  else if t.progTotal ≤ t.progDone then some 0
  else rateTime now t (t.progTotal.toNat - t.progDone.toNat)

/-- Lx: the work since the last checkpoint. -/
def lostWork (now : Nat) (t : Team) : Nat :=
  (rateTime now t (t.progDone.toNat - t.cdone.toNat)).getD (now - t.t0)

/-- Ts. With a guaranteed rate of 0 the quotient is open (log entry 21). -/
def saveTime (s : State) (t : Team) : Nat :=
  let w := ((s.vd (vdKey t.pkg t.vd)).rateOf 8).rate
  4000 + (if w = 0 then (Config.freeWord s.free).toNat else ceilDiv (saveBytes s t) w)

/-- Tx. -/
def discardTime : Nat := 4000

/-! ### The choice (R362) -/

def mayDrain (allow : BitVec 3) : Bool := allow.getLsbD 0
def mayDiscard (allow : BitVec 3) : Bool := allow.getLsbD 1
def maySave (t : Team) (allow : BitVec 3) : Bool := allow.getLsbD 2 && field t.ctxsave 63 40 != 0

/-- The action chosen, and whether it is late; `drain` says whether drain is among the choices. -/
def choosePre (s : State) (t : Team) (allow : BitVec 3) (deadline : Nat) (drain : Bool) : Nat × Bool :=
  let now := s.time t.pkg
  let td := if drain && mayDrain allow then drainTime now t else none
  let ts := saveTime s t
  let inTime (x : Nat) : Bool := now + x ≤ deadline
  let save := maySave t allow
  let discard := mayDiscard allow
  match td.filter inTime with
  | some _ => (1, false)
  | none =>
    let s1 := save && inTime ts
    let d1 := discard && inTime discardTime
    if s1 && d1 then (if 2 * ts ≤ lostWork now t + discardTime then 3 else 2, false)
    else if s1 then (3, false)
    else if d1 then (2, false)
    else
      let before (x : Nat) : Bool := match td with
        | some d => x ≤ d
        | none => true
      if discard && before discardTime && (!save || discardTime ≤ ts) then (2, true)
      else if save && before ts then (3, true)
      else (1, true)

/-- Some action is permitted. -/
def anyPermitted (t : Team) (allow : BitVec 3) : Bool := mayDrain allow || mayDiscard allow || maySave t allow

/-! ### Carrying a choice out (R357, R363 to R365) -/

/-- The request's case at the host is closed. -/
def dropCase (vd team : Nat) (s : State) : State :=
  { s with cases := s.cases.filter fun c => c.kind != .preempt vd team }

/-- An action has been chosen: a discard or a save begins to stop the team. -/
def startAction (s : State) (t : Team) (p : PreReq) (c : Nat × Bool) (byHost : Bool) : State :=
  let s := (dropCase t.vd t.num s).modTeam t.vd t.num fun t =>
    { t with pre := some { p with action := c.1, late := c.2, byHost := byHost, token := none } }
  let s : State := { s with free := s.free + 1 }
  if c.1 = 1 then s else beginStop s t

/-- A figure in microseconds, as an event of type 17 carries it; one that does not fit is open (log entry 21). -/
def micros (s : State) (x : Option Nat) : Nat :=
  match x with
  | none => 0xFFFFFFFF
  | some n =>
    let u := ceilDiv n 1000
    if u < 0xFFFFFFFF then u else field (Config.freeWord s.free) 31 0

/-- Ask the host: figures, PREEMPT to every running thread, and the case, which an answer names by the TOKEN of the request's entry
(R357, R368, R420). -/
def askPre (s : State) (t : Team) (p : PreReq) : State :=
  let vk := vdKey t.pkg t.vd
  let now := s.time t.pkg
  let kib := ceilDiv (saveBytes s t) 1024
  let s := postCp s vk 17 t.num (micros s (some (saveTime s t)) * 2 ^ 32 + micros s (drainTime now t))
    (micros s (some (lostWork now t)) * 2 ^ 32 + kib % 2 ^ 32)
  let s := t.tids.foldl (fun s x => s.pend x cPreempt (ofN p.deadline)) s
  let s := s.modTeam t.vd t.num fun t => { t with pre := some { p with token := some p.entTok } }
  { s with free := s.free + 1, cases := s.cases ++ [⟨p.entTok, fnOfVd vk, .preempt t.vd t.num, p.deadline, none⟩] }

/-- The VD's pre-emptions are chosen by the host (R357, R442). -/
def hostPre (s : State) (vk : Nat) : Bool := (s.vd vk).rmode.getLsbD 2

/-- A request for a bound team with none in progress. -/
def beginPre (s : State) (t : Team) (p : PreReq) : State :=
  let vk := vdKey t.pkg t.vd
  if !anyPermitted t p.allow then postRequest s vk t.num p 0 0
  else if hostPre s vk then askPre s t p
  else startAction s t p (choosePre s t p.allow p.deadline true) false

/-- A second request merges: an earlier DEADLINE replaces the first, and a drain then chooses again without drain (R369). -/
def mergePre (s : State) (t : Team) (p : PreReq) (deadline : Nat) : State :=
  if p.deadline ≤ deadline || 4 ≤ p.action then s
  else
    let p := { p with deadline := deadline }
    let s := s.modTeam t.vd t.num fun t => { t with pre := some p }
    let s : State := { s with cases := s.cases.map fun c => if c.kind == .preempt t.vd t.num then { c with until_ := deadline } else c }
    if p.action = 1 && (mayDiscard p.allow || maySave t p.allow) then
      startAction s t p (choosePre s t p.allow deadline false) false
    else s

/-- A launch that was put back at the front of its queue leaves it. -/
def leaveFront (s : State) (t : Team) : State :=
  s.modQueue (fnOfVd (vdKey t.pkg t.vd)) t.q fun x => { x with front := x.front.filter fun n => n != t.num }

/-- A saved team is dropped without a restart (R356). -/
def dropSaved (s : State) (t : Team) : State :=
  let s := releaseShared { t with seats := [] } s
  let s : State := { s with posted := s.posted.filter fun p => match p with
    | .disp _ _ _ _ vd team _ _ => !(vd == t.vd && team == t.num)
    | _ => true }
  s.modTeam t.vd t.num fun t =>
    { t with st := .discarded, pre := none, shadows := [], heldLists := [], savedCores := [], counts := [] }

/-- A pre-empt entry at the head of a queue (R356, R420). -/
def execPreemptEntry (fn q : Nat) (s : State) : Out :=
  .next <| match headEntry s fn q with
    | none => s
    | some e =>
      if !(s.queue fn q).front.isEmpty || entType e != 2 || !entryOk fn e then s
      else
        let s := s.passHead fn q
        let vk := vkOfFn fn
        let allow := BitVec.ofNat 3 (numAt e 12 1)
        match s.findTeam (vk % 16) (numAt e 8 4) with
        | none => s
        | some t =>
          let p : PreReq := ⟨fn, q, entToken e, numAt e 16 8, allow, 0, false, false, none⟩
          if allow = 0 then s
          else match t.st with
            | .bound => match t.pre with
              | none => beginPre s t p
              | some old => mergePre s t old p.deadline
            | .selected =>
              let s := postRequest s vk t.num p 0 0
              (s.modQueue (fnOfVd (vdKey t.pkg t.vd)) t.q fun x => { x with front := t.num :: x.front }).modTeam t.vd t.num fun t =>
                { t with st := .reposted }
            | .saved => if mayDiscard allow then postRequest (dropSaved s t) vk t.num p 2 0 else s
            | .reposted => if t.away && mayDiscard allow then postRequest (dropSaved (leaveFront s t) t) vk t.num p 2 0 else s
            | .completed | .refused | .stopped | .discarded => s

/-- A request's DEADLINE passes: a request that the host has not answered is chosen by R362, and a drain that has not
completed chooses again without drain where another action is permitted (R357, R362). -/
def execPreemptDeadline (vd team : Nat) (s : State) : Out :=
  .next <| match s.findTeam vd team with
    | none => s
    | some t => match t.pre with
      | none => s
      | some p =>
        if t.st != .bound || s.time t.pkg < p.deadline then s
        else if p.action = 0 then startAction s t p (choosePre s t p.allow p.deadline true) false
        else if p.action = 1 && (mayDiscard p.allow || maySave t p.allow) then
          startAction s t p (choosePre s t p.allow p.deadline false) false
        else s

/-! ### Discard (R364) -/

/-- A discarded launch goes back to the front of its queue, to be restarted from its last checkpoint. The count of capabilities
refused starts at 0 again, though the team keeps its number (DESIGN CHOICE, log entry 103). -/
def repost (s : State) (t : Team) : State :=
  let s := s.modQueue (fnOfVd (vdKey t.pkg t.vd)) t.q fun x => { x with front := t.num :: x.front }
  s.modTeam t.vd t.num fun t =>
    { t with st := .reposted, pre := none, seats := [], loaded := [], capbads := 0, progDone := t.cdone,
             restarts := if t.restarts = 255 then 255 else t.restarts + 1 }

/-- The steps of a discard once its threads have stopped and its writes are in. -/
def execDiscard (vd team : Nat) (s : State) : Out :=
  .next <| match s.findTeam vd team with
    | none => s
    | some t => match t.pre with
      | none => s
      | some p =>
        if t.st != .bound || !(p.action == 2 || p.action == 5) then s
        else
          let (s, ok) := finishStop s t
          if !ok then s
          else
            let s := postRequest s (vdKey t.pkg vd) team { p with action := 2 } 2 0
            if p.action = 2 then repost s t
            else s.modTeam vd team fun t => { t with st := .discarded, pre := none }

/-! ### Save (R225, R365, R366) -/

/-- Everything that a save waits for has settled: matrix entries, running copies, transfers, retraces, firings, sends that a target
can take, and what the team has in flight toward memory, barriers and counters. -/
def settled (s : State) (t : Team) : Bool :=
  let mine (x : Nat) : Bool := t.tids.contains x
  (t.coreList.all fun gc =>
    let c := s.core gc
    (c.mq.all fun m => !mine m.tid) && (c.copies.all fun r => !mine r.tid || r.state != .running) &&
    c.port.all fun a => !mine a.tid) && t.tids.all (sendsSettled s t) &&
  (s.forwards.all fun f => !mine f.tid) && (s.retraces.all fun r => !mine r.tid || r.phase == 2) &&
  (s.vds.all fun (k, v) => k % 16 != t.vd || v.plans.all fun (_, p) => p.team != t.num ||
    (p.pendingFire.isNone && match p.running with
      | none => true
      | some f => f.parts.length == p.members.length && f.parts.all fun x => x.phase != 0)) &&
  s.posted.all fun p => !mine p.tid || match p with
    | .disp .. => true
    | _ => false

/-- A thread as its shadow holds it. -/
def shadowOf (t : Thread) : Thread :=
  { t with park := none, wait := .none, line := none, line2 := none, want := none, walkFail := [], nextTurn := 0, stop := 0 }

/-- The held list of a thread: what its core's landing buffer holds for it, refusals among it, in arrival order, before what an
earlier restore has still to bring in. -/
def heldOf (s : State) (tid : Nat) : List Landing :=
  ((s.core (coreOf tid)).landing.filter fun l => l.tid == tid) ++ s.heldRest tid

/-- The tiles of a grant; the others are not the VD's. -/
def ownTiles (g : Grant) (c : Core) : Vector (Vector (BitVec 32) 1024) 8 :=
  Vector.ofFn fun i => if g.hasTile i.val then c.accs[i] else Vector.replicate 1024 0
def ownFails (g : Grant) (c : Core) : Vector (Option Nat) 8 :=
  Vector.ofFn fun i => if g.hasTile i.val then c.accFail[i] else none
def ownBufs (g : Grant) (c : Core) : Vector OpBuf 4 :=
  Vector.ofFn fun i => if g.hasTile (i.val + 8) then c.bufs[i] else ⟨0, none, []⟩

/-- What a save keeps of a core. -/
def saveCore (s : State) (t : Team) (gc : Nat) : SavedCore :=
  let c := s.core gc
  let vk := vdKey (pkgOf gc) t.vd
  let g := c.grantOf vk
  let lo := spadLoc gc (g.spBase * 4096)
  let hi := spadLoc gc (g.spLimit * 4096)
  let inside (l : Nat) : Bool := lo ≤ l && l < hi
  let off (l : Nat) : Nat := l - spadLoc gc 0
  { gc := gc, tags := c.tagsOf vk, copySeq := tblGet c.copySeq vk 0, copies := c.copies.filter fun r => r.vk == vk,
    locks := c.locks.filter fun l => l.vk == vk, bars := c.bars.filter fun b => b.vk == vk,
    bytes := (s.mem.filter fun b => inside b.1).map fun b => (off b.1, b.2),
    full := (s.full.filter inside).map off, part := c.mpartOf vk, accs := ownTiles g c, accFail := ownFails g c,
    bufs := ownBufs g c }

/-- A completion word lands at its thread's shadow, or waits in its held list; none where neither takes it. -/
def landSaved (vd num tid engine reg : Nat) (w : Word) (s : State) : Option State :=
  match s.findTeam vd num with
  | none => some s
  | some t => match t.shadows.find? fun x => x.id == tid with
    | none => some s
    | some x =>
      if !x.live then some s
      else
        let (s, ok) := s.arriveSaved t tid (wordLanding x engine reg w)
        if ok then some s else none

/-- Completion words that have still to land, each with the number of its completion and how it lands: of copies, -/
def copyWords (s : State) (t : Team) (gc : Nat) : List (Nat × (State → Option State)) :=
  ((s.core gc).copies.filter fun r => t.tids.contains r.tid && r.state == .landing).map fun r =>
    (r.ended, fun s => (landSaved t.vd t.num r.tid gc (w0Lreg r.w0) (completionWord r.seq (w0Tag r.w0) r.status) s).map fun s =>
      s.modCopy gc r.id fun r => { r with state := .settled })

/-- of retraces, -/
def retraceWords (s : State) (t : Team) : List (Nat × (State → Option State)) :=
  (s.retraces.filter fun r => t.tids.contains r.tid).map fun r =>
    (r.ended, fun s =>
      let gone (s : State) : State := { s with retraces := s.retraces.filter fun x => x.id != r.id }
      match r.land with
      | none => some (gone s)
      | some d => (landSaved t.vd t.num r.tid (coreOf r.tid) d.val (retraceWord r) s).map gone)

/-- and of a plan's members. -/
def planWords (t : Team) (vk idx : Nat) (p : Plan) : List (Nat × (State → Option State)) :=
  match p.running with
  | none => []
  | some f => f.parts.filterMap fun x => if x.phase != 1 then none else (p.members[x.pos]?).map fun m =>
      (x.ended, fun s => (landSaved t.vd t.num m (coreOf m) (planLreg p.desc)
        (completionWord f.seq (planTag p.desc) x.status) s).map (planFinish vk idx x.pos))

/-- They land at the shadows in the order of their completions (R225, R271). -/
def landWords (t : Team) (s : State) : Option State :=
  let plans := s.vds.flatMap fun (k, v) => if k % 16 != t.vd then [] else
    (v.plans.filter fun x => x.2.team == t.num).flatMap fun (i, p) => planWords t k i p
  (sortBy (fun x => x.1) (t.coreList.flatMap (copyWords s t) ++ retraceWords s t ++ plans)).foldl (fun s w => s.bind w.2) (some s)

/-- Sync-wait entries of other teams for words in the ranges of a team being saved are removed (R195, R365). -/
def dropSyncWaits (s : State) : State :=
  s.cores.foldl (fun s (gc, c) => (c.port.filter fun a => a.waiting && s.wordInSave a).foldl
    (fun s a => abandon s gc a) s) s

/-- The save region's bytes; the layout within it belongs to the part (log entry 20). -/
def writeSaveRegion (t : Team) (n : Nat) (s : State) : State :=
  let base := field t.ctxsave 39 12 * 4096
  s.scramble ((List.range n).filterMap fun i => cpLoc s (vdKey t.pkg t.vd) (base + i))

/-- A team's pins are released, to be installed again at its restore (R414). -/
def releasePins (t : Team) (s : State) : State :=
  { s with routers := s.routers.map fun (k, r) => (k, { r with tlb := r.tlb.map fun e =>
      if e.vk % 16 = t.vd then { e with pins := e.pins.filter fun n => n != t.num } else e }) }

/-- The save completes: the context is written, the placement table resolves to shadows, slots and grants are free. A team whose
threads have all retired meanwhile completes instead (R369). -/
def execSaveComplete (vd team : Nat) (s : State) : Out :=
  .next <| match s.findTeam vd team with
    | none => s
    | some t => match t.pre with
      | none => s
      | some p =>
        if t.st != .bound || p.action != 3 || !allHalted s t || !settled s t || teamDone s t then s
        else
          let n := saveBytes s t
          let s1 := dropSyncWaits s
          let live := t.tids.filter fun x => (s1.thread x).hasContext
          let s1 := s1.modTeam vd team fun t =>
            { t with shadows := live.map fun x => shadowOf (s1.thread x),
                     heldLists := live.foldl (fun h x => tblPut h x (heldOf s1 x)) [],
                     counts := (t.tids.filter fun x => !live.contains x).map fun x => (x, (s1.thread x).capgen) }
          match landWords t s1 with
          | none => s
          | some s =>
            let s := s.modTeam vd team fun t => { t with savedCores := t.coreList.map (saveCore s t) }
            let s := writeSaveRegion t n (flushLog s vd team)
            let s := releasePins t (freeSlots t s)
            (postRequest s (vdKey t.pkg vd) team p 3 n).modTeam vd team fun t => { t with st := .saved, pre := none }

end Sys2Proof.Machine
end

