-- ==== Sys2Proof/Machine/HostIf.lean ====
section
/-! DEFINITION. The host's side: doorbells, queue and ring registers, virtual devices, grants, modes, handles, invalidations,
HDM accesses, attestation (R177, R178, R334, R388, R394, R415, R418 to R426, R430, R442, R459). -/

namespace Sys2Proof.Machine

/-! ### Functions -/

/-- A function whose registers act: the physical one, or that of a VD that exists. -/
def fnExists (s : State) (fn : Nat) : Bool :=
  (tblFind s.pkgs (fn / 32)).isSome && fn % 32 ≤ 16 && (isPf fn || (s.vd (vkOfFn fn)).isVd)

/-- A queue, or a ring, that a function has. -/
def hasQueue (s : State) (fn q : Nat) : Bool := fnExists s fn && q < (if isPf fn then 1 else 8)
def hasRing (s : State) (fn r : Nat) : Bool := fnExists s fn && r < (if isPf fn then 1 else 2)

/-- Teams of a VD with their home or a thread on its package. -/
def teamsOn (s : State) (vk : Nat) : List Team :=
  s.teams.filter fun t => t.vd == vk % 16 && (t.pkg == vk / 16 || t.seats.any fun x => pkgOfThread x.tid == vk / 16)

/-! ### Queues (R420, R421) -/

/-- The new tail; a value of the ring's size or more stops the queue. -/
def execDoorbell (fn q val : Nat) (s : State) : Out :=
  .next <| if !hasQueue s fn q then s
    else if (s.queue fn q).size ≤ val then postRefusal (s.modQueue fn q fun x => { x with err := true }) fn 0 7 0
    else s.modQueue fn q fun x => { x with tail := val }

def execQctlEn (fn q : Nat) (en : Bool) (s : State) : Out :=
  .next <| if hasQueue s fn q then s.modQueue fn q fun x => { x with en := en } else s

/-- A launch that stood at the front of an emptied queue: one that was saved stays saved, any other is dropped. -/
def dropFront (fn q : Nat) (t : Team) : Team :=
  if fnOfVd (vdKey t.pkg t.vd) != fn || t.q != q then t
  else match t.st with
    | .reposted => { t with st := if t.away then .saved else .discarded, inRing := false }
    | .selected => { t with inRing := false }
    | _ => t

/-- RST of a queue that is not read. -/
def execQctlRst (fn q : Nat) (s : State) : Out :=
  .next <| if !hasQueue s fn q || (s.queue fn q).en then s
    else
      let s := s.modQueue fn q fun x => { x with head := 0, tail := 0, err := false, waiting := none, front := [] }
      { s with teams := s.teams.map (dropFront fn q) }

/-! ### Event rings (R422) -/

def State.modRing (s : State) (fn r : Nat) (f : Ring → Ring) : State :=
  s.modFn fn fun x => { x with rings := x.rings.setIfInBounds r (f ((x.rings[r]?).getD Ring.blank)) }

/-- The record of type 9: how many were dropped. -/
def dropRecord (s : State) (fn n : Nat) : List Byte :=
  let vd := if isPf fn then 0 else fn % 32 - 1
  evRecord (s.time (fn / 32)) 9 0 vd (if isPf fn then 2 else 1) vd 0 noFab n 0

/-- Write one record that waits, the count of dropped ones first. -/
def drainOne (fn r : Nat) (s : State) : State :=
  match (s.fn fn).rings[r]? with
  | none => s
  | some g =>
    if !g.en || g.isFull then s
    else if g.dropped != 0 then ringWrite (s.modRing fn r fun g => { g with dropped := 0 }) fn r (dropRecord s fn g.dropped)
    else match g.hold with
      | [] => s
      | x :: rest => ringWrite (s.modRing fn r fun g => { g with hold := rest }) fn r x

/-- Room has returned: what waits is written, as far as the room goes. -/
def execEventRingDrain (fn r : Nat) (s : State) : Out :=
  .next <| match (s.fn fn).rings[r]? with
    | none => s
    | some g => (List.range (g.hold.length + 1)).foldl (fun s _ => drainOne fn r s) s

def execEheadWrite (fn r : Nat) (val : Word) (s : State) : Out :=
  .next <| if hasRing s fn r then s.modRing fn r fun g => { g with ehead := field val 15 0 } else s

/-- EN and MASK; setting EN starts SEQ and LOST afresh. -/
def execEctlWrite (fn r : Nat) (val : Word) (s : State) : Out :=
  .next <| if !hasRing s fn r then s
    else s.modRing fn r fun g =>
      let g := { g with mask := bitOf val 1, en := bitOf val 0 }
      if bitOf val 0 && !(((s.fn fn).rings[r]?).getD Ring.blank).en then { g with seq := 0, lost := 0 } else g

/-! ### Registers with no behaviour of their own (R394, R421, R422) -/

def logOf (val : Word) : Nat := if 6 ≤ field val 4 0 && field val 4 0 ≤ 16 then field val 4 0 else 6

/-- QBASE and QSIZE; ignored while EN is 1. -/
def queueReg (fn off : Nat) (val : Word) (s : State) : State :=
  let q := (off - 0x100) / 32
  let at_ := (off - 0x100) % 32
  if !hasQueue s fn q || (s.queue fn q).en then s
  else s.modQueue fn q fun x =>
    if at_ = 0 then { x with base := field val 51 12 * 4096 }
    else if at_ = 8 then { x with log := logOf val }
    else x

/-- EBASE and ESIZE, as QBASE and QSIZE. -/
def ringReg (fn off : Nat) (val : Word) (s : State) : State :=
  let r := (off - 0x400) / 64
  let at_ := (off - 0x400) % 64
  if !hasRing s fn r then s
  else s.modRing fn r fun g =>
    if g.en then g
    else if at_ = 0 then { g with base := field val 51 12 * 4096 }
    else if at_ = 8 then { g with log := logOf val }
    else g

/-- cp.lrate of a VD: its buckets accrue at the old rates up to now. -/
def lrateReg (vk : Nat) (val : Word) (s : State) : State :=
  if (s.vd vk).isVd then s.modVd vk fun v => { v.refill (s.time (vk / 16)) with lrate := val } else s

def execRegisterWrite (fn off : Nat) (val : Word) (s : State) : Out :=
  .next <| if 0x100 ≤ off && off < 0x200 then queueReg fn off val s
    else if 0x400 ≤ off && off < 0x480 then ringReg fn off val s
    else if isPf fn && 0x10000 ≤ off && off < 0x20000 && off % 0x1000 = 0x10 then
      lrateReg (vdKey (fn / 32) ((off - 0x10000) / 0x1000)) val s
    else s

/-! ### Reads of a function's registers (R7, R8, R421 to R423)

What is reserved, and what has no register, reads as zero; so do REEN and RST. A read changes nothing. -/

/-- A register of a queue, at its offset in the queue's block. -/
def queueWord (x : Queue) (at_ : Nat) : Word :=
  match at_ with
  | 0x00 => ofN x.base
  | 0x08 => ofN x.log
  | 0x10 => ofN x.head
  | 0x18 => ofN ((if x.err then 4 else 0) + if x.en then 1 else 0)
  | _ => 0

/-- A register of an event ring, at its offset in the ring's block. -/
def ringWord (g : Ring) (at_ : Nat) : Word :=
  match at_ with
  | 0x00 => ofN g.base
  | 0x08 => ofN g.log
  | 0x10 => ofN g.ehead
  | 0x18 => ofN g.etail
  | 0x20 => ofN (g.lost * 2 ^ 48 + (if g.mask then 2 else 0) + if g.en then 1 else 0)
  | _ => 0

/-- A register of a VD's block in the physical function, at its offset in the block. -/
def vdBlockWord (s : State) (vk at_ : Nat) : Word :=
  let v := s.vd vk
  match at_ with
  | 0x000 => ofN ((if v.quar then 2 else 0) + if v.isVd then 1 else 0)
  | 0x008 => v.qpri.setWidth 64
  | 0x010 => v.lrate
  | 0x018 => ofN (v.smax * 256 + v.ways)
  | 0x060 => rateWord s vk 8
  | 0x068 => ofN ((s.pkg (vk / 16)).rmode.toNat * 16 + v.rmode.toNat)
  | 0x070 => ofN (sysBase + vk % 16 * 2 ^ 22)
  | _ => if 0x020 ≤ at_ && at_ ≤ 0x058 && at_ % 8 = 0 then rateWord s vk ((at_ - 0x020) / 8) else 0

/-- Eight slot masks, or two grant-map entries, from a place of a map on. -/
def slotMapWord (v : Vd) (core : Nat) : Word :=
  ofN (ofBytes ((List.range 8).map fun i => tblGet v.slotMap (core + i) 0))
def grantMapWord (v : Vd) (core : Nat) : Word :=
  ofN ((tblGet v.grantMap core 0).toNat + (tblGet v.grantMap (core + 1) 0).toNat * 2 ^ 32)

/-- What an aligned 8-byte read of a function's BAR0 returns. -/
def registerRead (s : State) (fn off : Nat) : Word :=
  let pkg := fn / 32
  let p := s.pkg pkg
  if !fnExists s fn || off % 8 != 0 then 0
  else if 0x100 ≤ off && off < 0x200 then
    if hasQueue s fn ((off - 0x100) / 32) then queueWord (s.queue fn ((off - 0x100) / 32)) ((off - 0x100) % 32) else 0
  else if 0x400 ≤ off && off < 0x480 then
    if hasRing s fn ((off - 0x400) / 64) then
      ringWord (((s.fn fn).rings[(off - 0x400) / 64]?).getD Ring.blank) ((off - 0x400) % 64) else 0
  else if !isPf fn then
    if off = 0 then ofN (fn % 32 - 1) else if off = 0x200 then ofN (s.vd (vkOfFn fn)).sways else 0
  else if off = 0 then ofN (p.rmode.toNat * 16)
  else if 0x80 ≤ off && off < 0xC0 then
    let m := (off - 0x80) / 8
    eccWord (tblGet p.eccCe m 0) (tblGet p.eccUe m 0)
  else if 0x10000 ≤ off && off < 0x20000 then vdBlockWord s (vdKey pkg ((off - 0x10000) / 0x1000)) (off % 0x1000)
  else if 0x200000 ≤ off && off < 0x240000 then
    slotMapWord (s.vd (vdKey pkg ((off - 0x200000) / 0x4000))) ((off - 0x200000) % 0x4000)
  else if 0x400000 ≤ off && off < 0x500000 then
    grantMapWord (s.vd (vdKey pkg ((off - 0x400000) / 0x10000))) ((off - 0x400000) % 0x10000 / 4)
  else 0

/-! ### Virtual devices (R388, R391, R423) -/

/-- The buckets of a VD at every arbiter of its package are gone. -/
def dropBuckets (vk : Nat) (s : State) : State :=
  { s with arbiters := s.arbiters.map fun (k, a) =>
      if arbPkg k = vk / 16 then
        (k, { a with buckets := tblDel a.buckets (vk % 16), pending := a.pending.filter fun u => u.owner != vk % 16 })
      else (k, a) }

def execVdCreate (vk : Nat) (s : State) : Out :=
  .next <| if (tblFind s.pkgs (vk / 16)).isNone || (s.vd vk).isVd then s
    else
      let s := dropBuckets vk (s.accruePkg (vk / 16))
      let s : State := { s with fns := tblPut s.fns (fnOfVd vk) Function.blank }
      s.modVd vk fun _ => { Vd.blank with isVd := true, trig := Config.trigAddr vk &&& 0x7FFFFFFFF8#52 }

/-- Nothing of a VD is left: its caches, shared memory, queues, buckets, cases. -/
def eraseVd (vk : Nat) (s : State) : State :=
  let s := dropBuckets vk (s.accruePkg (vk / 16))
  let keep (l : Nat) : Bool := l < l2Loc vk 0 0 || l2Loc (vk + 1) 0 0 ≤ l
  { s with
    vds := tblDel s.vds vk, fns := tblDel s.fns (fnOfVd vk),
    routers := s.routers.map fun (k, r) =>
      (k, { r with tlb := r.tlb.filter fun e => e.vk != vk, misses := r.misses.filter fun m => m.vk != vk }),
    cores := s.cores.map fun (k, c) => (k, { c with
      params := c.params.filter fun b => b.vk != vk, copies := c.copies.filter fun r => r.vk != vk, copySeq := tblDel c.copySeq vk }),
    mem := s.mem.filter fun c => keep c.1, ue := s.ue.filter fun u => keep u.1, ce := s.ce.filter fun u => keep u.1,
    teams := s.teams.filter fun t => !(t.vd == vk % 16 && t.pkg == vk / 16),
    cases := s.cases.filter fun c => c.fn != fnOfVd vk, invs := s.invs.filter fun i => i.vk != vk }

/-- Destroyed when none of its teams is bound or saved; ignored otherwise. -/
def execVdDestroy (vk : Nat) (s : State) : Out :=
  .next <| if !(s.vd vk).isVd || (teamsOn s vk).any (fun t => t.st == .bound || t.away) then s else eraseVd vk s

def execVdReenable (vk : Nat) (s : State) : Out :=
  .next <| if (s.vd vk).isVd then s.modVd vk fun v => { v with quar := false } else s

/-! ### L2 ways (R177, R178) -/

/-- A split that leaves a cache way and lies within SMAX; none at all is always possible. -/
def splitOk (ways smax sways : Nat) : Bool := sways == 0 || (sways ≤ smax && sways < ways)

/-- A split is asked for by bits 4:0; it takes effect before the next launch that binds while no team runs. -/
def execL2useWrite (vk : Nat) (val : Word) (s : State) : Out :=
  let v := s.vd vk
  let n := field val 4 0
  .next <| if !v.isVd || !splitOk v.ways v.smax n then s
    else s.modVd vk fun v => { v with newSways := some n }

/-- The grant of ways: refused above 16 in sum, with SMAX above WAYS, below the split in force, or lower while a team is bound. Ways
that a lower grant takes leave the cache. -/
def execL2limWrite (vk : Nat) (val : Word) (s : State) : Out :=
  let v := s.vd vk
  let ways := field val 4 0
  let smax := field val 12 8
  let others := ((List.range 16).map fun i => if i = vk % 16 then 0 else (s.vd (vdKey (vk / 16) i)).ways).sum
  let lower := ways < v.ways || smax < v.smax
  .next <| if !v.isVd || 16 < ways + others || ways < smax || !splitOk ways smax (v.newSways.getD v.sways) ||
      !splitOk ways smax v.sways || (lower && (teamsOn s vk).any fun t => t.st == .bound) then s
    else (if ways < v.ways then leaveCache vk (384 * (ways - v.sways)) s else s).modVd vk fun v => { v with ways := ways, smax := smax }

/-! ### Priorities, slots, grants, modes (R334, R388, R442, R459) -/

def execQpriWrite (vk : Nat) (val : Word) (s : State) : Out :=
  .next <| if (s.vd vk).isVd then s.modVd vk fun v => { v with qpri := val.setWidth 24 } else s

/-- The grant-map entry of a VD for a core of its package. -/
def mapEntry (s : State) (pkg v core : Nat) : Nat := (tblGet (s.vd (vdKey pkg v)).grantMap core 0).toNat

/-- A team of a VD stands on a core under a default grant: the whole range or all tiles, because the VD held the core alone (R459). -/
def onDefault (s : State) (pkg v core : Nat) : Bool :=
  let gc := pkg * 16384 + core
  let e := mapEntry s pkg v core
  let g := (s.core gc).grantOf (vdKey pkg v)
  !coreFree s v gc && ((fieldN e 13 8 == 0 && g.spBase < g.spLimit) || (fieldN e 27 16 == 0 && (g.accs != 0 || g.bufs != 0)))

/-- The other VDs of a package. -/
def otherVds (vk : Nat) : List Nat := (List.range 16).filter fun v => v != vk % 16

/-- The host has been asked about a worn-out unit, and it runs on until the answer is 1 (R450). -/
def unitHeld (s : State) (pkg cl : Nat) (core : Option Nat) : Bool := s.cases.any fun c => c.kind == .deconf pkg cl core

/-- A logical core whose unit has worn out, and does not run on for the host (R450). -/
def unitWornOut (s : State) (pkg core : Nat) : Bool :=
  let p := s.pkg pkg
  let cl := p.physCluster (core / 128)
  let c := ((tblGet p.physCores (core / 128) [])[core % 128]?).getD (core % 128)
  (p.wornClusters.contains cl && !unitHeld s pkg cl none) || (p.wornCores.contains (cl * 128 + c) && !unitHeld s pkg cl (some c))

/-- A slot mask of a core: refused while a team of the VD is there, for another VD's slot, on a core that another VD must hold
alone, and on a worn-out unit. -/
def execSlotMapWrite (vk core : Nat) (val : BitVec 8) (s : State) : Out :=
  let pkg := vk / 16
  .next <| if !(s.vd vk).isVd || 16384 ≤ core || !coreFree s (vk % 16) (pkg * 16384 + core) ||
      (otherVds vk).any (fun v => tblGet (s.vd (vdKey pkg v)).slotMap core 0 &&& val != 0) ||
      (val != 0 && ((otherVds vk).any (fun v => onDefault s pkg v core) || unitWornOut s pkg core)) then s
    else s.modVd vk fun v => { v with slotMap := tblPut v.slotMap core val }

/-- Two grants overlap: in range or in tiles. An empty range overlaps none. -/
def grantsMeet (lo hi tiles lo' hi' tiles' : Nat) : Bool := max lo lo' < min hi hi' || tiles &&& tiles' != 0

/-- What R459 refuses. -/
def grantRefused (s : State) (vk core : Nat) (val : BitVec 32) : Bool :=
  let pkg := vk / 16
  let gc := pkg * 16384 + core
  let e := val.toNat
  let lo := fieldN e 5 0
  let hi := fieldN e 13 8
  let tiles := fieldN e 27 16
  fieldN e 31 28 != 0 || fieldN e 15 14 != 0 || fieldN e 7 6 != 0 || 48 < hi || hi < lo ||
  (otherVds vk).any (fun v =>
    let o := mapEntry s pkg v core
    let g := (s.core gc).grantOf (vdKey pkg v)
    grantsMeet lo hi tiles (fieldN o 5 0) (fieldN o 13 8) (fieldN o 27 16) ||
    (onDefault s pkg v core && grantsMeet lo hi tiles g.spBase g.spLimit (g.accs.toNat + g.bufs.toNat * 256))) ||
  (tiles != 0 && 2 ≤ ((otherVds vk).filter fun v => fieldN (mapEntry s pkg v core) 27 16 != 0).length) ||
  !coreFree s (vk % 16) gc

def execGrantMapWrite (vk core : Nat) (val : BitVec 32) (s : State) : Out :=
  .next <| if !(s.vd vk).isVd || 16384 ≤ core || grantRefused s vk core val then s
    else s.modVd vk fun v => { v with grantMap := tblPut v.grantMap core val }

/-- The package bits, or a VD's; in effect from the next epoch. -/
def execRmodeWrite (pkg : Nat) (vd : Option Nat) (val : Word) (s : State) : Out :=
  .next <| match vd with
    | none => if (tblFind s.pkgs pkg).isSome then s.modPkg pkg fun p => { p with newRmode := some (BitVec.ofNat 3 (field val 6 4)) }
      else s
    | some v => if (s.vd (vdKey pkg v)).isVd then
        s.modVd (vdKey pkg v) fun x => { x with newRmode := some (val.setWidth 4) }
      else s

/-! ### Buffer handles (R424) -/

/-- A team of the VD that uses a handle and is not over. -/
def handleUsed (s : State) (vk h : Nat) : Bool :=
  (teamsOn s vk).any fun t => (t.uses.any fun u => u.1 == h) && teamActive s t.vd t.num

/-- The head entry of a queue, if it is of this type, keeps R420, and nothing stands before it. -/
def entryOfType (s : State) (fn q type : Nat) : Option (List Byte) :=
  match headEntry s fn q with
  | none => none
  | some e => if (s.queue fn q).front.isEmpty && entType e == type && entryOk fn e then some e else none

def execDefineHandle (fn q : Nat) (s : State) : Out :=
  .next <| match entryOfType s fn q 4 with
    | none => s
    | some e =>
      let vk := vkOfFn fn
      let h := numAt e 8 8
      if handleUsed s vk h then s
      else (s.passHead fn q).modVd vk fun v => { v with handles := tblPut v.handles h ⟨numAt e 16 8, numAt e 24 8, 0, []⟩ }

def execDropHandle (fn q : Nat) (s : State) : Out :=
  .next <| match entryOfType s fn q 5 with
    | none => s
    | some e =>
      let vk := vkOfFn fn
      let h := numAt e 8 8
      if handleUsed s vk h then s
      else (s.passHead fn q).modVd vk fun v => { v with handles := tblDel v.handles h }

/-! ### Invalidations from a queue (R415, R420, R425) -/

/-- An invalidation that a queue waits for goes on: forced at its deadline, ended once no holder is left. -/
def goInvalidation (s : State) (fn q id : Nat) : State :=
  match s.invs.find? fun i => i.id == id with
  | none => s.passHead fn q
  | some i =>
    let s := s.forceInv i
    match s.invs.find? fun i => i.id == id with
    | none => s.passHead fn q
    | some i =>
      if invEnds s i then
        let s : State := { s with invs := s.invs.filter fun x => x.id != i.id }
        postCp (s.passHead fn q) i.vk 20 0 i.cancelled i.token
      else s

/-- An invalidate entry acts as TLBINV and holds the head of its queue until it ends; at the physical function FLAGS 7:4 name
the VD (R423). -/
def execInvalidateEntry (fn q : Nat) (s : State) : Out :=
  .next <| match entryOfType s fn q 3 with
    | none => s
    | some e => match (s.queue fn q).waiting with
      | some id => goInvalidation s fn q id
      | none =>
        let vk := if isPf fn then vdKey (fn / 32) (entFlags e / 16) else vkOfFn fn
        let id := s.seq
        let deadline := if entFlags e % 2 = 1 then some (numAt e 24 8) else none
        let s := s.openInv none fn (entToken e) vk (numAt e 8 8) (numAt e 16 8) deadline
        goInvalidation (s.modQueue fn q fun x => { x with waiting := some id }) fn q id

/-! ### HDM (R187, R280, R419) -/

/-- Pieces of a write within the lines of 64 bytes. -/
def linePieces : Nat → Nat → List Byte → List (Nat × List Byte)
  | 0, _, _ => []
  | n + 1, off, bs =>
    match bs with
    | [] => []
    | _ :: _ =>
      let k := 64 - off % 64
      (off, bs.take k) :: linePieces n (off + k) (bs.drop k)

/-- The leaf and the location of an offset of a VD's HDM range. -/
def hdmAt (s : State) (vk off : Nat) : Option (Leaf × Nat) :=
  if remapBase ≤ off then none
  else match walk s vk (off / 4096), cpLoc s vk off with
    | some l, some loc => some (l, homeAt s vk off loc)
    | _, _ => none

/-- Post the event of type 27. -/
def hdmRefused (s : State) (vk off : Nat) (write ue : Bool) : State :=
  postCp s vk 27 0 off ((if write then 1 else 0) + if ue then 2 else 0)

/-- What is left of a line's part beside the VD's trigger word, which no write changes (R280). -/
def besideTrigger (trig : Nat) (x : Nat × List Byte) : List (Nat × List Byte) :=
  if trig = 0 || !overlaps x.1 x.2.length trig 8 then [x]
  else [(x.1, x.2.take (trig - x.1)), (trig + 8, x.2.drop (trig + 8 - x.1))].filter fun y => !y.2.isEmpty

/-- One line's part of a host write, applied at its home or refused. Eight bytes at the trigger word are a trigger (R280); what a
longer or a shorter write leaves there is none, and changes nothing (DESIGN CHOICE, log entry 107). -/
def hdmWrite (vk : Nat) (s : State) (x : Nat × List Byte) : State :=
  let trig := (s.vd vk).trig.toNat
  if trig != 0 && x.1 == trig && x.2.length == 8 then noteTrigger s (trigLoc vk 0) ⟨BitVec.ofNat 64 (ofBytes x.2), 0, none⟩
  else (besideTrigger trig x).foldl (fun s x => match hdmAt s vk x.1 with
    | none => hdmRefused s vk x.1 true false
    | some (l, loc) =>
      if !l.w then hdmRefused s vk x.1 true false
      else if s.canWrite loc x.2.length then (s.writeLoc loc x.2).1
      else hdmRefused (s.meets none (bytesAt loc x.2.length)) vk x.1 true true) s

/-- One line's part of a host read: it changes nothing but the counts of the errors that it meets (R445), and a refused one is
reported. -/
def hdmRead (vk : Nat) (s : State) (x : Nat × List Byte) : State :=
  match hdmAt s vk x.1 with
  | none => hdmRefused s vk x.1 false false
  | some (l, loc) =>
    if !l.r then hdmRefused s vk x.1 false false
    else
      let s' := s.meets none (bytesAt loc x.2.length)
      if s.bad loc x.2.length then hdmRefused s' vk x.1 false true else s'

def execHostHdmRead (vk off len : Nat) (s : State) : Out :=
  .next <| if (s.vd vk).isVd then (linePieces (len + 1) off (List.replicate len 0)).foldl (hdmRead vk) s else s

def execHostHdmWrite (vk off : Nat) (bytes : List Byte) (s : State) : Out :=
  .next <| if (s.vd vk).isVd then (linePieces (bytes.length + 1) off bytes).foldl (hdmWrite vk) s else s

/-! ### Attestation (R430, R431) -/

/-- The registers that a function's requester may see: the package's, and its own VD's. -/
def quoteRegs (s : State) (fn : Nat) : List (BitVec 256) :=
  (s.pkg (fn / 32)).measured ++ if isPf fn then [] else [(s.vd (vkOfFn fn)).measured]

/-- An attestation request: the quote signs the registers and the nonce; none once the keys are erased. -/
def execSpdmMessage (fn : Nat) (nonce : BitVec 256) (s : State) : Out :=
  .next <| if !fnExists s fn || (s.pkg (fn / 32)).erased then s
    else
      let regs := (quoteRegs s fn).flatMap fun d => toBytes 32 d.toNat
      let sig := toBytes 64 (Config.sm2Sign (fn / 32) (regs ++ toBytes 32 nonce.toNat)).toNat
      s.modFn fn fun x => { x with quote := regs ++ sig }

end Sys2Proof.Machine
end

