-- ==== Sys2Proof/Machine/Recovery.lean ====
section
/-! DEFINITION. Recovery, wear, links, alarms, time and package reset (R14, R18, R427 to R431, R442 to R456, R458). -/

namespace Sys2Proof.Machine

/-! ### Alarms (R431) -/

/-- Row of the source table, from 1. -/
def sourceRow : AlarmSource → Nat
  | .roleSignature => 1
  | .firmwareOrRecord => 2
  | .linkAuthentication => 3
  | .temperature => 4
  | .debugNamingVd => 5
  | .debugNoVd => 6
  | .glitch => 7
  | .tamper => 8

/-- Post the event of type 21. -/
def postAlarm (s : State) (pkg level source : Nat) (vd : Option Nat) : State :=
  postOlush s pkg (vd.getD 0) 21 (level + source * 256) (vd.getD 0xFF)

/-! ### Thopeif links (R427, R428, R458) -/

/-- A package's link at this number comes up or goes down, and its route tables are rewritten. -/
def setLink (up : Bool) (pkg link : Nat) (s : State) : State :=
  s.modPkg pkg fun p => { p with linksUp := p.linksUp.filter (fun l => l != link) ++ if up then [link] else [] }

/-- Every package of the domain rewrites its route tables (R428, R446). -/
def advanceRoutes (domain : Nat) (s : State) : State :=
  { s with pkgs := s.pkgs.map fun (k, p) => if p.domain = domain then (k, { p with routeGen := p.routeGen + 1 }) else (k, p) }

/-- A massif of the shape carries a link's port (R451, R458). -/
def Pkg.hasPort (p : Pkg) (link : Nat) : Bool := (List.range p.massifs).any fun m => physMassif p m == link / 2

/-- A link comes up between massifs of two packages' shapes, of one domain with different numbers, whose records name each other on
it. -/
def execThopeifBringup (pkg link : Nat) (s : State) : Out :=
  let p := s.pkg pkg
  .next <| if (tblFind s.pkgs pkg).isNone || p.erased || p.linksUp.contains link || !p.hasPort link then s
    else match farLink s pkg link false with
      | none => s
      | some (q, l) =>
        let far := s.pkg q
        if (tblFind s.pkgs q).isNone || far.erased || !far.hasPort l || far.domain != p.domain || far.number == p.number then s
        else advanceRoutes p.domain (setLink true q l (setLink true pkg link s))

/-- A link goes down at both ends. -/
def failLink (pkg : Nat) (s : State) (link : Nat) : State :=
  if (s.pkg pkg).linksUp.contains link then
    let s' := match farLink s pkg link true with
      | some (q, l) => setLink false q l s
      | none => s
    advanceRoutes (s.pkg pkg).domain (setLink false pkg link s')
  else s

/-- A link fails; one that failed authentication raises an alarm of level 1. -/
def execThopeifLinkFail (pkg link : Nat) (auth : Bool) (s : State) : Out :=
  .next <| if (s.pkg pkg).linksUp.contains link then
      let s := failLink pkg s link
      if auth then postAlarm s pkg 1 3 none else s
    else s

/-! ### Mesh, vertical and bridge links (R446) -/

/-- A flit fails its CRC and is replayed; eight in a row are the most, and one that passes ends the row (`State.flitOk`). -/
def execFlitReplay (link : Nat) (s : State) : Out :=
  .next <| if (tblFind s.pkgs (link / 2 ^ 16)).isSome then
      s.modPkg (link / 2 ^ 16) fun p => { p with replays := tblCount p.replays (link % 2 ^ 16) 8 }
    else s

/-- A flit passes on a link: the next one's failures are counted afresh. -/
def State.flitOk (s : State) (link : Nat) : State :=
  s.modPkg (link / 2 ^ 16) fun p => { p with replays := tblDel p.replays (link % 2 ^ 16) }

/-- A link whose flit has failed eight replays goes down in both directions; packets are sent again, and no table is
rewritten. -/
def execLinkDown (link : Nat) (s : State) : Out :=
  let n := link % 2 ^ 16
  .next <| if (tblFind s.pkgs (link / 2 ^ 16)).isSome && 8 ≤ tblGet (s.pkg (link / 2 ^ 16)).replays n 0 then
      s.modPkg (link / 2 ^ 16) fun p =>
        { p with replays := tblDel p.replays n, linksDown := if p.linksDown.contains n then p.linksDown else p.linksDown ++ [n] }
    else s

/-! ### Keys and quarantine (R431, R453) -/

/-- Helper data, identity key and session keys are erased, and every link goes down. -/
def eraseKeys (pkg : Nat) (s : State) : State :=
  ((s.pkg pkg).linksUp.foldl (failLink pkg) s).modPkg pkg fun p => { p with erased := true }

/-- A team is to be discarded, with (2) or without (5) reposting; a save in progress completes before a discard that reposts
(R456). -/
def forceDiscard (action : Nat) (s : State) (t : Team) : State :=
  let go (p : PreReq) : State :=
    beginStop ((dropCase t.vd t.num s).modTeam t.vd t.num fun t => { t with pre := some { p with action := action, token := none } }) t
  if t.st != .bound then s
  else match t.pre with
    | none => go ⟨0, 0, 0, 0, 0, action, false, false, none⟩
    | some p => if 4 ≤ p.action || (p.action == 3 && action == 2) then s else go p

/-- A team that is not bound is discarded without reposting: a saved one, or a launch that has been selected or reposted. -/
def dropUnbound (vk : Nat) (s : State) (t : Team) : State :=
  let s := leaveFront (leaveRing s t) t
  if t.away then postRequest (dropSaved s t) vk t.num ⟨0, 0, 0, 0, 0, 2, false, false, none⟩ 2 0
  else s.modTeam t.vd t.num fun t => { t with st := .discarded, inRing := false, pre := none }

/-- A VD is quarantined: its teams are discarded without reposting, and its queues are refused. -/
def quarantine (vk : Nat) (s : State) : State :=
  let s := s.modVd vk fun v => { v with quar := true }
  (teamsOn s vk).foldl (fun s t => match t.st with
    | .bound => forceDiscard 5 s t
    | .saved | .selected | .reposted => dropUnbound vk s t
    | .completed | .refused | .stopped | .discarded => s) s

/-- An alarm and its level's action. -/
def execSecurityAlarm (pkg : Nat) (src : AlarmSource) (vd : Option Nat) (s : State) : Out :=
  .next <| if (tblFind s.pkgs pkg).isNone then s
    else match src with
      | .roleSignature => postAlarm s pkg 1 1 vd
      | .firmwareOrRecord => (postAlarm s pkg 1 2 none).modPkg pkg fun p => { p with booted := false }
      | .linkAuthentication => postAlarm s pkg 1 3 none
      | .temperature => postAlarm s pkg 1 4 none
      | .debugNamingVd => match vd with
        | none => s
        | some v => quarantine (vdKey pkg v) (postAlarm s pkg 2 5 (some v))
      | .debugNoVd => eraseKeys pkg (postAlarm s pkg 3 6 none)
      | .glitch => (eraseKeys pkg (postAlarm s pkg 3 7 none)).modPkg pkg fun p => { p with latch := true }
      | .tamper => (eraseKeys pkg (postAlarm s pkg 3 8 none)).modPkg pkg fun p => { p with latch := true }

/-- An erased part is enrolled again: it has an identity, and takes launches (R430, R431). -/
def State.enrol (s : State) (pkg : Nat) : State := s.modPkg pkg fun p => { p with erased := false }

/-- A cluster's voltage margin at a guard step, in tenths of a millivolt: 2.5 mV a step (R447; log entry 27). -/
def marginOf (guard : Nat) : Nat := 25 * guard
def Wear.margin (w : Wear) : Nat := marginOf w.guard

/-- The controller's outputs as the comparators check them: a setpoint within the window and at most 20 guard steps of 2.5 mV
above its base, an erase while the latch stands. -/
def execOlushOutput (pkg : Nat) (erase : Bool) (cluster val : Nat) (s : State) : Out :=
  let p := s.pkg pkg
  .next <| if (tblFind s.pkgs pkg).isNone then s
    else if erase then (if p.latch then eraseKeys pkg s else postOlush s pkg 0 24 1 val)
    else if p.window.1 ≤ val && val ≤ p.window.2 && val ≤ Config.baseSetpoint cluster + marginOf 20 then
      s.modPkg pkg fun p => { p with wear := tblPut p.wear cluster { tblGet p.wear cluster Wear.blank with setpoint := val } }
    else postOlush s pkg 0 24 0 val

/-! ### Time and temperature (R14, R18, R402) -/

/-- The packages whose time bases are synchronised with a package's: those of its domain, while a Thopeif link of each is up. -/
def timePeers (s : State) (p : Pkg) : List Pkg :=
  if p.linksUp.isEmpty then [p]
  else s.pkgs.filterMap fun e => if e.2.domain = p.domain && !e.2.linksUp.isEmpty then some e.2 else none

/-- A package's time base may move to an offset: one between those of the bases with which it is synchronised (log entry 82). -/
def timeMoves (s : State) (p : Pkg) (off : Nat) : Bool :=
  (timePeers s p).any (fun q => q.timeOff ≤ off) && (timePeers s p).any fun q => off ≤ q.timeOff

/-- The time bases of linked packages of a domain are brought within 40 ns of one another; a package without a link counts on. -/
def execTimeSync (offsets : List (Nat × Nat)) (s : State) : Out :=
  let s' : State := { s with pkgs := s.pkgs.map fun (k, p) => (k, { p with timeOff := tblGet offsets k p.timeOff }) }
  .next <| if (s.pkgs.all fun x => timeMoves s x.2 (tblGet offsets x.1 x.2.timeOff)) &&
      s'.pkgs.all (fun x => (timePeers s' x.2).all fun y => x.2.timeOff ≤ y.timeOff + 40) then s' else s

/-- Report a changed throttle of a massif to every VD. -/
def reportMassif (pkg m : Nat) (s : State) : State :=
  reportCores pkg ((s.cores.map fun c => c.1).filter fun gc => pkgOf gc == pkg && massifOf gc == m) s

/-- A layer reaches 105 °C: every matrix token of its massif is withheld, and the host is told by an event of type 6 (R353) and an
alarm of level 1 (R431). -/
def execThermalLimit (pkg massif layer : Nat) (s : State) : Out :=
  .next <| if nextEpoch s pkg != s.cycle || (tblFind s.pkgs pkg).isNone || 8 ≤ massif || (s.pkg pkg).withheld.contains massif then s
    else
      let s := (s.accruePkg pkg).modPkg pkg fun p => { p with withheld := p.withheld ++ [massif] }
      postAlarm (postOlush (reportMassif pkg massif s) pkg 0 6 massif layer) pkg 1 4 none

/-- A layer's refresh rate changes (band 0, 1, 2: base rate, twice, four times); or, as band 3, every layer of the massif is
below 100 °C and its tokens are released. -/
def execLayerTemperatureChange (pkg massif layer band : Nat) (s : State) : Out :=
  .next <| if (tblFind s.pkgs pkg).isNone || 8 ≤ massif || 8 ≤ layer then s
    else if band = 0 then s.modPkg pkg fun p => { p with bands := tblDel p.bands (massif * 8 + layer) }
    else if band ≤ 2 then s.modPkg pkg fun p => { p with bands := tblPut p.bands (massif * 8 + layer) band }
    else if nextEpoch s pkg != s.cycle || !(s.pkg pkg).withheld.contains massif then s
    else reportMassif pkg massif ((s.accruePkg pkg).modPkg pkg fun p => { p with withheld := p.withheld.filter fun m => m != massif })

/-! ### Scrub (R443 to R445) -/

/-- The recovery bits of a package: GUARD 0, SCRUB 1, DECONF 2 of Pkg.rmode. -/
def hostGuard (s : State) (pkg : Nat) : Bool := (s.pkg pkg).rmode.getLsbD 0
def hostScrub (s : State) (pkg : Nat) : Bool := (s.pkg pkg).rmode.getLsbD 1
def hostDeconf (s : State) (pkg : Nat) : Bool := (s.pkg pkg).rmode.getLsbD 2

/-- A code unit, as location and length. DRAM: bursts by address; L2: words by location, of shared memory or of a tile that a slice
caches; scratchpads: words by core and place (log entries 43 and 91). -/
def scrubUnit (s : State) (pkg : Nat) (mem : ScrubMem) (unit : Nat) : Option (Nat × Nat) :=
  match mem with
  | .dram => if unit * 64 / 2 ^ 35 < (s.pkg pkg).massifs then some (dramLoc pkg (unit * 64), 64) else none
  | .l2 =>
    let loc := unit * 8
    if (massifAt loc).map (fun x => x.1) == some pkg && !isSpad loc && (!isDram loc || (s.tileAt loc).isSome) then some (loc, 8) else none
  | .scratchpad =>
    let core := unit / 24576
    if core < 16384 then some (spadLoc (pkg * 16384 + core) (unit % 24576 * 8), 8) else none

/-- What a read of a code unit finds: the error that it holds, or one that has just arisen. -/
def foundAt (s : State) (u : Nat × Nat) (found : ScrubFind) : ScrubFind :=
  if s.ue.contains u then .uncorrectable else if s.ce.contains u && found == .clean then .corrected else found

/-- A scrub read of a code unit: a correction is written back, and an uncorrectable error stays (R444, R445). -/
def execScrub (pkg : Nat) (mem : ScrubMem) (unit : Nat) (found : ScrubFind) (s : State) : Out :=
  .next <| match scrubUnit s pkg mem unit with
    | none => s
    | some u =>
      let mended : State := { s with ce := s.ce.filter fun x => x != u }
      match foundAt s u found with
      | .clean => s
      | .corrected => mended.countUnit none u.1 u.2 false
      | .uncorrectable => ({ mended with ue := if s.ue.contains u then s.ue else s.ue ++ [u] } : State).countUnit none u.1 u.2 true

/-- An error arises in the code unit that holds a location: one that the next read corrects, or an uncorrectable one (R443). -/
def State.decay (s : State) (mem : ScrubMem) (loc : Nat) (corrects : Bool) : State :=
  let (u, fits) : (Nat × Nat) × Bool := match mem with
    | .dram => ((loc / 64 * 64, 64), isDram loc)
    | .l2 => ((loc / 8 * 8, 8), (massifAt loc).isSome && !isSpad loc)
    | .scratchpad => ((loc / 8 * 8, 8), isSpad loc)
  if !fits || s.ue.contains u then s
  else if !corrects then { s with ue := s.ue ++ [u], ce := s.ce.filter fun x => x != u }
  else if s.ce.contains u then s else { s with ce := s.ce ++ [u] }

/-! ### Healthy units (R451) -/

def presentCores (n : Nat) : Nat := if n = 128 then 128 else if 124 ≤ n then 124 else if 120 ≤ n then 120 else 0
def presentClusters (n : Nat) : Nat := if 14 ≤ n then n else if 12 ≤ n then 12 else 0

/-- Healthy cores of a physical cluster, in the order of R10. -/
def healthyCores (p : Pkg) (cl : Nat) : List Nat :=
  if p.wornClusters.contains cl then [] else (List.range 128).filter fun c => !p.wornCores.contains (cl * 128 + c)

/-- The clusters that a physical massif presents, ascending. -/
def massifClusters (p : Pkg) (m : Nat) : List Nat :=
  let hs := (List.range 16).filter fun k => presentCores (healthyCores p (m * 16 + k)).length != 0
  hs.take (presentClusters hs.length)

/-! ### Worn-out units (R449, R450) -/

/-- The health record is rewritten and signed: its sequence number and the mirrored one advance, and it takes the error counts and
the massifs that are withdrawn (R452). -/
def Pkg.rewriteHealth (p : Pkg) : Pkg :=
  let withdrawn := (List.range 8).filter fun m => (massifClusters p m).isEmpty
  { p with healthSeq := p.healthSeq + 1, mirrorSeq := p.healthSeq + 1, health := ⟨p.eccCe, p.eccUe, withdrawn⟩,
           images := p.images.set 2 ⟨Config.healthDigest (p.healthSeq + 1), true⟩ }

/-- The logical cores of a physical unit: a cluster's, or one core. -/
def unitCores (p : Pkg) (cl : Nat) (core : Option Nat) : List Nat :=
  (((List.range 128).filter fun lc => p.physCluster lc == cl && lc % 16 < p.clustersOf (lc / 16)).map fun lc =>
    ((List.range (p.coresOf lc)).map fun k => lc * 128 + k).filter fun c => match core with
      | none => true
      | some x => physCore p c == cl * 128 + x).flatten

/-- Teams that hold slots on a unit, and that a discard takes now. -/
def unitTeams (s : State) (pkg : Nat) (cores : List Nat) : List Team :=
  s.teams.filter fun t => t.st == .bound && !t.inSave && t.seats.any fun x => cores.contains (coreOf x.tid % 16384) && pkgOfThread x.tid == pkg

/-- A worn-out unit's slots leave every slot map, and every team on it is discarded and reposted (R450). -/
def deconfigure (pkg cl : Nat) (core : Option Nat) (s : State) : State :=
  let cores := unitCores (s.pkg pkg) cl core
  let ts := unitTeams s pkg cores
  let s : State := { s with vds := s.vds.map fun (k, v) =>
    if k / 16 = pkg then (k, { v with slotMap := v.slotMap.filter fun e => !cores.contains e.1 }) else (k, v) }
  ts.foldl (forceDiscard 2) s

/-- A case of the package for the host, with no time limit of its own. -/
def State.holdPkgCase (s : State) (pkg : Nat) (kind : CaseKind) (until_ : Nat) : State :=
  { s with token := s.token + 1, cases := s.cases ++ [⟨s.token, pfOf pkg, kind, until_, none⟩] }

/-- No time limit. -/
def never : Nat := 2 ^ 64

/-- A unit has worn out: recorded, reported, and deconfigured or held for the host (R449, R450). -/
def wornOut (pkg cl : Nat) (core : Option Nat) (s : State) : State :=
  let p := s.pkg pkg
  let known := p.wornClusters.contains cl || match core with
    | some c => p.wornCores.contains (cl * 128 + c)
    | none => false
  if known then s
  else
    let n := (unitTeams s pkg (unitCores p cl core)).length
    let s := s.modPkg pkg fun p => (match core with
      | none => { p with wornClusters := p.wornClusters ++ [cl] }
      | some c => { p with wornCores := p.wornCores ++ [cl * 128 + c] } : Pkg).rewriteHealth
    let info := cl + (core.getD 0xFF) * 256
    if hostDeconf s pkg then (postOlush s pkg 0 25 info 0).holdPkgCase pkg (.deconf pkg cl core) never
    else deconfigure pkg cl core (postOlush s pkg 0 25 info n)

/-- The host has deferred the deconfiguration of a unit of a cluster, which runs at GUARD 20 meanwhile (R450). -/
def deferred (s : State) (pkg cl : Nat) : Bool := s.cases.any fun c => c.answer == some 0 && match c.kind with
  | .deconf p k _ => p == pkg && k == cl
  | _ => false

/-- A guard step is applied: a change rewrites the health record. -/
def setGuard (pkg cl g : Nat) (s : State) : State :=
  let w := tblGet (s.pkg pkg).wear cl Wear.blank
  let g := if deferred s pkg cl then 20 else g
  if w.guard = g then s
  else s.modPkg pkg fun p => ({ p with wear := tblPut p.wear cl { w with guard := g } } : Pkg).rewriteHealth

/-- The step that a cluster's index calls for. -/
def calledFor (s : State) (pkg cl : Nat) : Nat := (tblGet (s.pkg pkg).wear cl Wear.blank).index / 50

/-- A guard case of a cluster that the host still holds. -/
def guardHeld (s : State) (pkg cl : Nat) : Bool := s.cases.any fun c => match c.kind with
  | .guard p k _ => p == pkg && k == cl
  | _ => false

/-- Ten seconds, in ns. -/
def guardNs : Nat := 10 ^ 10

/-- A sample of a cluster's monitors: the index that it gives, and a monitor that reports a timing failure (0 the cluster's,
c + 1 core c's). -/
def execWearSample (pkg cluster index : Nat) (failing : Option Nat) (s : State) : Out :=
  .next <| if (tblFind s.pkgs pkg).isNone || 128 ≤ cluster then s
    else
      let w := tblGet (s.pkg pkg).wear cluster Wear.blank
      let idx := max w.index (min index 1000)
      let g := idx / 50
      let s := if hostGuard s pkg || guardHeld s pkg cluster then s
        else setGuard pkg cluster (w.index / 50) s
      let s := s.modPkg pkg fun p =>
        { p with wear := tblPut p.wear cluster { tblGet p.wear cluster Wear.blank with index := idx } }
      let due := g != w.index / 50 || (decide (w.guard < g) && !guardHeld s pkg cluster)
      let s := if hostGuard s pkg && due then
          (postOlush s pkg 0 23 (cluster + g * 2 ^ 16) idx).holdPkgCase pkg (.guard pkg cluster g) (s.time pkg + guardNs)
        else s
      let s := if idx = 1000 then wornOut pkg cluster none s else s
      if (tblGet (s.pkg pkg).wear cluster Wear.blank).guard = 20 then
        match failing with
        | none => s
        | some 0 => wornOut pkg cluster none s
        | some (c + 1) => if c < 128 then wornOut pkg cluster (some c) s else s
      else s

/-- LIFE and I30 at the daily recomputation, with the day's index put before the history of 30 days. -/
def Wear.daily (w : Wear) : Wear :=
  let i30 := (w.history[29]?).getD w.i30
  let life := if w.index ≤ i30 then 0xFFFF else min (ceilDiv ((1000 - w.index) * 30) (w.index - i30)) 0xFFFE
  { w with i30 := i30, life := life, history := (w.index :: w.history).take 30 }

def execLifeRecompute (pkg : Nat) (s : State) : Out :=
  .next <| if (tblFind s.pkgs pkg).isNone then s
    else s.modPkg pkg fun p => ({ p with wear := p.wear.map fun (k, w) => (k, w.daily) } : Pkg).rewriteHealth

/-! ### Legal shapes (R451) -/

/-- Two physical massifs joined by a bridge of which a channel is up (R13, R446; log entry 106). -/
def bridged (down : List Nat) (a b : Nat) : Bool :=
  ((a % 4 == b % 4 && a / 4 != b / 4) || (a / 4 == b / 4 && (a % 4 + 1 == b % 4 || b % 4 + 1 == a % 4))) &&
  (down.isEmpty || (List.range 256).any fun i => match bridgePort (a * 256 + i) with
    | some (l, f) => routerMassif f == b && !down.contains l
    | none => false)

/-- What a set of massifs grows to by the bridges; the routers of a withdrawn massif carry transit (R451). -/
def connected (down : List Nat) : Nat → List Nat → List Nat
  | 0, xs => xs
  | n + 1, xs => connected down n (xs ++ (List.range 8).filter fun m => !xs.contains m && xs.any fun x => bridged down x m)

/-- The massifs that stay: the largest connected set, and of two equal ones that without the higher massif. -/
def keptMassifs (down ms : List Nat) : List Nat :=
  let comps := ms.map fun m => ms.filter (connected down 8 [m]).contains
  let size := comps.foldl (fun n c => max n c.length) 0
  let best := comps.filter fun c => c.length == size
  let top (c : List Nat) : Nat := c.foldl max 0
  (best.find? fun c => best.all fun d => top c ≤ top d).getD []

/-- The physical massifs of the shape, by logical number. -/
def shapeMassifs (p : Pkg) : List Nat := keptMassifs p.linksDown ((List.range 8).filter fun m => !(massifClusters p m).isEmpty)

/-- The physical clusters of the shape with their logical numbers. -/
def shapeClusters (p : Pkg) : List (Nat × Nat) :=
  ((shapeMassifs p).zipIdx.map fun (m, i) => (massifClusters p m).zipIdx.map fun (k, j) => (i * 16 + j, m * 16 + k)).flatten

/-- The slices that a reset deconfigures, by physical massif * 256 + place: those of earlier resets, and those whose vertical links
are down (R446). -/
def slicesLost (p : Pkg) : List Nat :=
  (p.slicesOut ++ p.linksDown.filterMap fun n => if 2 ^ 14 ≤ n && n < 2 ^ 14 + 2048 then some (n - 2 ^ 14) else none).eraseDups

/-- A package with the shape that its health record gives. -/
def Pkg.reshape (p : Pkg) : Pkg :=
  let ms := shapeMassifs p
  let cls := shapeClusters p
  let counts := ms.map fun m => (massifClusters p m).length
  let few := cls.filterMap fun (lc, pc) =>
    let h := healthyCores p pc
    if h.length = 128 then none else some (lc, h.take (presentCores h.length))
  { p with
    shape := counts ++ List.replicate (8 - counts.length) 0, cores := few.map fun (lc, h) => (lc, h.length), physCores := few,
    phys := cls.filter fun (lc, pc) => lc != pc, slicesOut := slicesLost p }

/-! ### Package reset (R455) -/

/-- The logical number that a massif has in a new shape, if it is left there. -/
def newMassif (p q : Pkg) (m : Nat) : Option Nat := (List.range q.massifs).find? fun i => physMassif q i == physMassif p m

/-- What a package keeps over its reset at a cycle: its records and images, its keys' state, its time base, how hot its layers are, and
the links of its meshes and bridges that are down (log entry 106). -/
def Pkg.afterReset (p : Pkg) (cycle : Nat) : Pkg :=
  let q := p.reshape
  { Pkg.blank with
    resetAt := cycle, withheld := p.withheld.filterMap (newMassif p q),
    bands := p.bands.filterMap fun (k, b) => (newMassif p q (k / 8)).map fun m => (m * 8 + k % 8, b),
    timeOff := p.timeOff, latch := p.latch, erased := p.erased, shape := q.shape, cores := q.cores, phys := q.phys,
    physCores := q.physCores, wornClusters := p.wornClusters, wornCores := p.wornCores, healthSeq := p.healthSeq,
    mirrorSeq := p.mirrorSeq, configVersion := p.configVersion, rollback := max p.rollback p.configVersion, number := p.number,
    domain := p.domain, bootFanout := p.bootFanout, farEnd := p.farEnd, window := p.window, opKeys := p.opKeys, wear := p.wear,
    slicesOut := q.slicesOut, linksDown := p.linksDown.filter fun n => n < 2 ^ 14, routeGen := p.routeGen, images := p.images,
    health := p.health }

/-- The images pass their checks: every signature, no version below the anti-rollback counter, no sequence number below the mirrored
one (R429, R452). -/
def Pkg.recordsOk (p : Pkg) : Bool :=
  (p.images.all fun x => x.verifies) && p.rollback ≤ p.configVersion && p.mirrorSeq ≤ p.healthSeq

/-- Everything of a package is gone: threads, cores, VDs, teams with their home there, queues, memory. -/
def wipePackage (pkg : Nat) (s : State) : State :=
  let ours (l : Nat) : Bool := (massifAt l).map (fun x => x.1) == some pkg
  let here (tid : Nat) : Bool := pkgOfThread tid == pkg
  { s with
    thr := if here s.thr.id then Thread.blank s.thr.id else s.thr, threads := s.threads.filter fun x => !here x.1,
    cores := s.cores.filter fun x => pkgOf x.1 != pkg, routers := s.routers.filter fun x => x.1 / 2048 != pkg,
    arbiters := s.arbiters.filter fun x => arbPkg x.1 != pkg, vds := s.vds.filter fun x => x.1 / 16 != pkg,
    teams := s.teams.filter fun t => t.pkg != pkg, disps := s.disps.filter fun d => d.cluster / 128 != pkg,
    posted := s.posted.filter fun p => !here p.tid, forwards := s.forwards.filter fun f => !here f.tid,
    retraces := s.retraces.filter fun r => !here r.tid, cases := s.cases.filter fun c => c.fn / 32 != pkg,
    invs := s.invs.filter fun i => i.vk / 16 != pkg,
    fns := tblPut (s.fns.filter fun x => x.1 / 32 != pkg) (pfOf pkg) Function.blank,
    mem := s.mem.filter fun c => !ours c.1, back := s.back.filter fun e => !ours e.1, full := s.full.filter fun l => !ours l,
    ue := s.ue.filter fun u => !ours u.1, ce := s.ce.filter fun u => !ours u.1 }

/-- A package reset, from the boot ROM's checks to the event of type 26. A record that fails stops the boot and raises an alarm
of level 1. -/
def execPackageReset (pkg : Nat) (s : State) : Out :=
  .next <| if (tblFind s.pkgs pkg).isNone then s
    else
      let p := s.pkg pkg
      let s := p.linksUp.foldl (failLink pkg) s
      let s := wipePackage pkg s
      if !p.recordsOk then
        postAlarm (s.modPkg pkg fun _ => { p.afterReset s.cycle with booted := false, rollback := p.rollback }) pkg 1 2 none
      else
        let gen := (s.pkg pkg).routeGen
        let q := p.afterReset s.cycle
        let same := q.shape == p.shape && q.cores == p.cores && q.phys == p.phys && q.slicesOut == p.slicesOut
        let s := s.modPkg pkg fun _ =>
          { q with routeGen := if same then gen else gen + 1, measured := p.images.map fun x => extendMeasure 0 x.digest }
        postOlush s pkg 0 26 (shapeWord s (pkg * 16384)).toNat (shapexWord (s.pkg pkg)).toNat

end Sys2Proof.Machine
end

