-- ==== Sys2Proof/Machine/Answers.lean ====
section
/-! DEFINITION. What the host answers in host-assisted modes, and what happens without an answer (R289, R307, R357, R410, R420,
R425, R442, R447, R450). -/

namespace Sys2Proof.Machine

/-- A pre-emption's case, whose token is its entry's (R420) and which its own choice closes. -/
def CaseKind.isPreempt : CaseKind → Bool
  | .preempt _ _ => true
  | _ => false

/-- A case is over. -/
def State.closeCase (s : State) (token : Nat) : State :=
  { s with cases := s.cases.filter fun c => c.token != token || c.kind.isPreempt }

/-- The package on whose time a case is held: that of its function. -/
def casePkg (c : HostCase) : Nat := c.fn / 32

/-- An answer whose value is outside its limits is refused as any such entry is; its case stays (R420). -/
def refuseAnswer (s : State) (fn : Nat) : State := postRefusal s fn 0 7 0

/-! ### Each case's own rule -/

/-- End a TAPEOPEN's hold with a result. -/
def endSpill (s : State) (tid : Nat) (r : Word) : State := s.modThread tid fun t => { t with wait := .hold 2 true r }

/-- A new spill SIZE, no smaller than the current one, whose added pages are mapped with R and W; the hold then ends with the
segment or with 2. Any other answer is ignored (R289). -/
def answerSpill (s : State) (token tid quota : Nat) (val : Word) : State :=
  let t := s.thread tid
  match s.findTeam t.vd t.teamNum with
  | none => s
  | some team =>
    let old := field team.spill 63 40
    let base := field team.spill 39 12 * 4096
    let n := val.toNat
    if n < old || 2 ^ 24 ≤ n || remapBase < base + n * 4096 ||
        !pagesMapped s t.vk (base + old * 4096) ((n - old) * 4096) (fun l => l.r && l.w) then s
    else
      let s := (s.closeCase token).modTeam t.vd t.teamNum fun x => { x with spill := ofN (n * 2 ^ 40 + base) }
      let (s, r) := openSegment s t quota
      endSpill s tid r

/-- A replacement origin for a lost record: the fabric number of a thread of the team (R307). -/
def answerRetrace (s : State) (fn token tid key : Nat) (val : Word) : State :=
  let fab := val.toNat
  let noSeat (r : Retrace) : Bool := r.tid == tid && match s.findTeam (r.vk % 16) r.team with
    | some t => (t.seat fab).isNone
    | none => false
  let reachable_ (r : Retrace) : Bool := match s.findTeam (r.vk % 16) r.team with
    | some t => originReached s t r.seg (key % 2 ^ 26) fab
    | none => false
  if s.retraces.any noSeat then refuseAnswer s fn
  else { s.closeCase token with retraces := s.retraces.map fun r =>
      if r.tid = tid && r.phase = 0 && r.seg = key / 2 ^ 26 then
        { r with recs := r.recs.map fun x =>
            if x.idx = key % 2 ^ 26 then { x with origin := fab, out := !reachable_ r } else x }
      else r }

/-- The host's choice of an action; one outside ALLOW, or a save without a region, is refused (R357, R362). -/
def answerPre (s : State) (fn vd team : Nat) (val : Word) : State :=
  match s.findTeam vd team with
  | none => s
  | some t => match t.pre with
    | none => s
    | some p =>
      let a := val.toNat
      if p.action != 0 then s
      else if (a == 1 && mayDrain p.allow) || (a == 2 && mayDiscard p.allow) || (a == 3 && maySave t p.allow) then
        startAction s t p (a, false) true
      else refuseAnswer s fn

/-- Retry (1) walks again once; fail (0) ends the accesses (R410). -/
def answerWalk (s : State) (fn token router vk page : Nat) (val : Word) : State :=
  let again (m : Miss) : Miss := if m.held = some token then { m with held := none, retried := true } else m
  if val = 1 then (s.closeCase token).modRouter router fun r => { r with misses := r.misses.map again }
  else if val = 0 then failWalk router vk page (s.closeCase token)
  else refuseAnswer s fn

/-- Any step from the one that the index calls for to 20 (R447). -/
def answerGuard (s : State) (fn token pkg cl : Nat) (val : Word) : State :=
  if calledFor s pkg cl ≤ val.toNat && val.toNat ≤ 20 then setGuard pkg cl val.toNat (s.closeCase token) else refuseAnswer s fn

/-- 1 acts as hardware mode does; 0 defers: the unit runs on at GUARD 20, and a later 1 still acts (R450). -/
def answerDeconf (s : State) (fn token pkg cl : Nat) (core : Option Nat) (val : Word) : State :=
  if val = 1 then deconfigure pkg cl core (s.closeCase token)
  else if val = 0 then
    setGuard pkg cl 20 { s with cases := s.cases.map fun c => if c.token = token && !c.kind.isPreempt then { c with answer := some 0 } else c }
  else refuseAnswer s fn

/-! ### The entry and its time limit -/

/-- An answer at the head of a queue: it resolves the case of its token, unless it comes too late (R420, R425). -/
def execAnswer (fn q : Nat) (s : State) : Out :=
  .next <| match entryOfType s fn q 6 with
    | none => s
    | some e =>
      let s := s.passHead fn q
      let val := ofN (numAt e 16 8)
      match s.cases.find? fun c => c.token == numAt e 8 8 && c.fn == fn with
      | none => s
      | some c =>
        if c.until_ < s.time (casePkg c) then s
        else match c.kind with
          | .spill tid quota => answerSpill s c.token tid quota val
          | .retrace tid key => answerRetrace s fn c.token tid key val
          | .preempt vd team => answerPre s fn vd team val
          | .walk router vk page => answerWalk s fn c.token router vk page val
          | .guard pkg cl _ => answerGuard s fn c.token pkg cl val
          | .deconf pkg cl core => answerDeconf s fn c.token pkg cl core val

/-- A case whose answer has not come in time goes on as in hardware mode (R442). A pre-emption's is chosen at its DEADLINE by a
step of its own, a deconfiguration waits for its answer, and a TAPEOPEN gives 2 only where room is still lacking (R289). -/
def execHostAnswerTimeout (token : Nat) (s : State) : Out :=
  .next <| match s.cases.find? fun c => c.token == token with
    | none => s
    | some c =>
      if s.time (casePkg c) ≤ c.until_ then s
      else match c.kind with
        | .spill tid quota =>
          let (s, r) := openSegment (s.closeCase token) (s.thread tid) quota
          endSpill s tid r
        | .retrace _ _ => s.closeCase token
        | .preempt vd team => match execPreemptDeadline vd team s with
          | .next s' => s'
          | _ => s
        | .walk router vk page => failWalk router vk page (s.closeCase token)
        | .guard pkg cl _ => setGuard pkg cl (calledFor s pkg cl) (s.closeCase token)
        | .deconf _ _ _ => s

end Sys2Proof.Machine
end

