-- ==== Sys2Proof/Machine/Control.lean ====
section
/-! DEFINITION. Control: NOP, branches, jumps, loops, HALT (R101 to R113), and a head that is no instruction (R50). -/

namespace Sys2Proof.Machine

/-- R102. -/
def execNop (sw : Bool) (s : State) : Out := .next (s.finish sw)

/-- R104. -/
def execBr (sw : Bool) (delta : BitVec 11) (h : BitVec 5) (s : State) : Out :=
  .next (s.finishAt sw (biTarget s.thr.pc delta h))

/-- A branch on a test of all 64 bits of a scalar (R104). -/
def branchOn (sw : Bool) (a : Src) (delta : BitVec 11) (h : BitVec 5) (test : Word → Bool) (s : State) : State :=
  s.withRegs (srcRegs a) fun s =>
    if test (s.src a) then s.finishAt sw (biTarget s.thr.pc delta h) else s.finish sw

/-- R104. -/
def execBrz (sw : Bool) (a : Src) (delta : BitVec 11) (h : BitVec 5) (s : State) : Out :=
  .next (branchOn sw a delta h (fun x => x == 0) s)

/-- R104. -/
def execBrnz (sw : Bool) (a : Src) (delta : BitVec 11) (h : BitVec 5) (s : State) : Out :=
  .next (branchOn sw a delta h (fun x => x != 0) s)

/-- A jump to a[51:0], ALIGN at an odd address before any link is written (R43, R105). -/
def jumpTo (sw : Bool) (x : Addr) (link : State → State) (s : State) : State :=
  if x.getLsbD 0 then s.trap cAlign (x.setWidth 64) else (link s).finishAt sw x

/-- R105. -/
def execJmp (sw : Bool) (a : Src) (s : State) : Out :=
  .next (s.withRegs (srcRegs a) fun s => jumpTo sw ((s.src a).setWidth 52) id s)

/-- The link value: the address of the head that follows (R42). -/
def State.link (s : State) : Word := (s.thr.headAfter s.thr.pc).setWidth 64

/-- R105. -/
def execJal (sw : Bool) (d : SReg) (delta : BitVec 11) (h : BitVec 5) (s : State) : Out :=
  .next (s.withRegs [] fun s => (s.writeS d s.link).finishAt sw (biTarget s.thr.pc delta h))

/-- R105: A is read before D is written. -/
def execJalr (sw : Bool) (d : SReg) (a : Src) (s : State) : Out :=
  .next (s.withRegs (srcRegs a) fun s => jumpTo sw ((s.src a).setWidth 52) (fun s => s.writeS d s.link) s)

/-- Loop context `k`. -/
def Thread.loopCtx (t : Thread) (k : Bool) : LoopCtx := if k then t.l1 else t.l0
def Thread.setLoop (t : Thread) (k : Bool) (c : LoopCtx) : Thread := if k then { t with l1 := c } else { t with l0 := c }

/-- LOOP once its source is present and the descriptor of the end head's line is held (R108). -/
def loopArm (sw k : Bool) (e : Addr) (h n : Nat) (count : Word) (s : State) : State :=
  if h = 0 || h > n then s.trap cLinefmt ((lineAddr e).setWidth 64)
  else if (s.thr.loopCtx k).arm then s.trap cLoopbusy (boolBit k)
  else if count = 0 then s.finishAt sw (s.thr.headAfter e)
  else (s.modThr fun t => t.setLoop k ⟨true, t.headAfter t.pc, e, count⟩).finish sw
where
  boolBit (b : Bool) : Word := if b then 1 else 0

/-- R108. Matching follows LOOP as it follows every head that completes without a taken transfer (R109). The end head is
compared as an integer (R31). A line of the end head that cannot be fetched fails LOOP itself (log entry 67). -/
def execLoop (sw : Bool) (k : Bool) (a : Src) (delta : BitVec 11) (h : BitVec 5) (s : State) : Out :=
  let e := biTarget s.thr.pc delta h
  .next <|
    if biTargetInt s.thr.pc delta h ≤ s.thr.pc.toNat then s.trap cIllegal (illegalWord (encode (.loop sw k a delta h)))
    else s.withRegs (srcRegs a) fun s =>
      match s.thr.lineAt (lineAddr e) with
      | none => s.modThr fun t => { t with want := some (lineAddr e), park := none }
      | some l => loopArm sw k e h.toNat l.n (s.src a) s

/-- R111. -/
def execLbrk (sw : Bool) (k : Bool) (s : State) : Out :=
  .next ((s.modThr fun t => t.setLoop k { t.loopCtx k with arm := false }).finish sw)

/-- R103: a switch point whether or not S is set, and then the end. -/
def execHalt (_sw : Bool) (s : State) : Out :=
  .next <|
    if s.thr.buf.isEmpty then s.retire s.thr.id
    else s.modThr fun t => { t.unpark with st := .switchWait .halt }

/-- A head that is no instruction raises ILLEGAL at its issue (R41, R50). -/
def execEncodingNotAnInstruction (head u0 u1 u2 : BitVec 16) (s : State) : Out :=
  .next (s.trap cIllegal (illegalWord [head.toNat, u0.toNat, u1.toNat, u2.toNat]))

end Sys2Proof.Machine
end

