-- ==== Sys2Proof/Machine/Pointer.lean ====
section
/-! DEFINITION. Fat pointers (R77 to R79, R97 to R99) and predicates (R100). -/

namespace Sys2Proof.Machine

/-- A pointer with another address, fields above unchanged (R97). -/
def withVa (p : Word) (va : Addr) : Word := (p &&& 0xFFF0000000000000#64) ||| va.setWidth 64

/-- A pointer advanced by an offset; the address wraps modulo 2^52 (R97). -/
def padd (p off : Word) : Word := withVa p (p.setWidth 52 + off.setWidth 52)

def execPadd (sw : Bool) (d : SReg) (a b : Src) (s : State) : Out := .next (simple2 sw d a b padd s)
def execPaddi (sw : Bool) (d : SReg) (a : Src) (i : BitVec 16) (s : State) : Out :=
  .next (simple1 sw d a (fun x => padd x (imm i)) s)

/-- The address of element i of a typed pointer, or of the block that holds it (R98). -/
def pidx (p i : Word) : Word :=
  let f := ptrFmt p
  let step : Int := if bpiP f != 0 then 4 * bpiP f * (i.toInt / 32) else i.toInt * fmtSize f
  withVa p (p.setWidth 52 + BitVec.ofInt 52 step)

/-- R98: FMTBAD before D is written. -/
def execPidx (sw : Bool) (d : SReg) (a b : Src) (s : State) : Out :=
  .next (s.withRegs (srcRegs a ++ srcRegs b) fun s =>
    if ptrOk (s.src a) then (s.writeS d (pidx (s.src a) (s.src b))).finish sw else s.trap cFmtbad (s.src a))

def execPstrip (sw : Bool) (d : SReg) (a : Src) (s : State) : Out :=
  .next (simple1 sw d a (fun x => (x.setWidth 52).setWidth 64) s)
def execPget (sw : Bool) (d : SReg) (a : Src) (s : State) : Out := .next (simple1 sw d a (fun x => x >>> 52) s)
def execPfmt (sw : Bool) (d : SReg) (a b : Src) (s : State) : Out :=
  .next (simple2 sw d a b (fun x y => (y <<< 52) ||| (x.setWidth 52).setWidth 64) s)

def execPand (sw : Bool) (d a b : PReg) (s : State) : Out := .next (pred2 sw d a b (fun x y => x &&& y) s)
def execPor (sw : Bool) (d a b : PReg) (s : State) : Out := .next (pred2 sw d a b (fun x y => x ||| y) s)
def execPxor (sw : Bool) (d a b : PReg) (s : State) : Out := .next (pred2 sw d a b (fun x y => x ^^^ y) s)
def execPnot (sw : Bool) (d a : PReg) (s : State) : Out := .next (pred1 sw d a (fun x => ~~~x) s)
def execPmov (sw : Bool) (d a : PReg) (s : State) : Out := .next (pred1 sw d a (fun x => x) s)
def execPcnt (sw : Bool) (d : SReg) (a : PReg) (s : State) : Out :=
  .next (predS sw d a (fun x => BitVec.ofNat 64 (popcount 128 x.toNat)) s)
def execPfirst (sw : Bool) (d : SReg) (a : PReg) (s : State) : Out :=
  .next (predS sw d a (fun x => BitVec.ofNat 64 (lowestOne 128 x.toNat)) s)

end Sys2Proof.Machine
end

