-- ==== Sys2Proof/Machine/Scalar.lean ====
section
/-! DEFINITION. Integer operations, immediates, comparisons, bit fields and constants (R85 to R96). -/

namespace Sys2Proof.Machine

/-! ### Major 0x10 (R86) -/

def execAdd (sw : Bool) (d : SReg) (a b : Src) (s : State) : Out := .next (simple2 sw d a b (fun x y => x + y) s)
def execSub (sw : Bool) (d : SReg) (a b : Src) (s : State) : Out := .next (simple2 sw d a b (fun x y => x - y) s)
def execAnd (sw : Bool) (d : SReg) (a b : Src) (s : State) : Out := .next (simple2 sw d a b (fun x y => x &&& y) s)
def execOr (sw : Bool) (d : SReg) (a b : Src) (s : State) : Out := .next (simple2 sw d a b (fun x y => x ||| y) s)
def execXor (sw : Bool) (d : SReg) (a b : Src) (s : State) : Out := .next (simple2 sw d a b (fun x y => x ^^^ y) s)
def execAndn (sw : Bool) (d : SReg) (a b : Src) (s : State) : Out := .next (simple2 sw d a b (fun x y => x &&& ~~~y) s)

/-- A shift amount, modulo 64 (R86). -/
def amount (b : Word) : Nat := b.toNat % 64

def execShl (sw : Bool) (d : SReg) (a b : Src) (s : State) : Out :=
  .next (simple2 sw d a b (fun x y => x <<< amount y) s)
def execShr (sw : Bool) (d : SReg) (a b : Src) (s : State) : Out :=
  .next (simple2 sw d a b (fun x y => x >>> amount y) s)
def execSar (sw : Bool) (d : SReg) (a b : Src) (s : State) : Out :=
  .next (simple2 sw d a b (fun x y => x.sshiftRight (amount y)) s)
def execRotl (sw : Bool) (d : SReg) (a b : Src) (s : State) : Out :=
  .next (simple2 sw d a b (fun x y => x.rotateLeft (amount y)) s)

/-- The smaller or larger of two values, signed and unsigned. -/
def smin (x y : Word) : Word := if x.sle y then x else y
def smax (x y : Word) : Word := if x.sle y then y else x
def umin (x y : Word) : Word := if x.ule y then x else y
def umax (x y : Word) : Word := if x.ule y then y else x

def execMin (sw : Bool) (d : SReg) (a b : Src) (s : State) : Out := .next (simple2 sw d a b smin s)
def execMax (sw : Bool) (d : SReg) (a b : Src) (s : State) : Out := .next (simple2 sw d a b smax s)
def execMinu (sw : Bool) (d : SReg) (a b : Src) (s : State) : Out := .next (simple2 sw d a b umin s)
def execMaxu (sw : Bool) (d : SReg) (a b : Src) (s : State) : Out := .next (simple2 sw d a b umax s)

/-! ### Major 0x11 (R87, R88) -/

def execMul (sw : Bool) (d : SReg) (a b : Src) (s : State) : Out := .next (simple2 sw d a b (fun x y => x * y) s)

/-- Bits 127:64 of the signed product. -/
def mulHigh (x y : Word) : Word := BitVec.ofInt 64 (x.toInt * y.toInt / 2 ^ 64)
/-- Bits 127:64 of the unsigned product. -/
def mulHighU (x y : Word) : Word := BitVec.ofNat 64 (x.toNat * y.toNat / 2 ^ 64)

def execMulh (sw : Bool) (d : SReg) (a b : Src) (s : State) : Out := .next (simple2 sw d a b mulHigh s)
def execMulhu (sw : Bool) (d : SReg) (a b : Src) (s : State) : Out := .next (simple2 sw d a b mulHighU s)

/-- The quotient of R88: all ones for a zero divisor, truncation toward zero, the one overflow wraps. -/
def quot (x y : Word) : Word := if y = 0 then BitVec.allOnes 64 else BitVec.ofInt 64 (x.toInt.tdiv y.toInt)
def quotU (x y : Word) : Word := if y = 0 then BitVec.allOnes 64 else BitVec.ofNat 64 (x.toNat / y.toNat)
/-- The remainder of R88: the dividend for a zero divisor, the sign of the dividend. -/
def remS (x y : Word) : Word := if y = 0 then x else BitVec.ofInt 64 (x.toInt.tmod y.toInt)
def remU (x y : Word) : Word := if y = 0 then x else BitVec.ofNat 64 (x.toNat % y.toNat)

def execDiv (sw : Bool) (d : SReg) (a b : Src) (s : State) : Out := .next (deferred2 sw d a b quot s)
def execDivu (sw : Bool) (d : SReg) (a b : Src) (s : State) : Out := .next (deferred2 sw d a b quotU s)
def execRem (sw : Bool) (d : SReg) (a b : Src) (s : State) : Out := .next (deferred2 sw d a b remS s)
def execRemu (sw : Bool) (d : SReg) (a b : Src) (s : State) : Out := .next (deferred2 sw d a b remU s)

/-! ### Major 0x12 (R89) -/

def execClz (sw : Bool) (d : SReg) (a : Src) (s : State) : Out :=
  .next (simple1 sw d a (fun x => BitVec.ofNat 64 (leadingZeros 64 x.toNat)) s)
def execCtz (sw : Bool) (d : SReg) (a : Src) (s : State) : Out :=
  .next (simple1 sw d a (fun x => BitVec.ofNat 64 (lowestOne 64 x.toNat)) s)
def execPopc (sw : Bool) (d : SReg) (a : Src) (s : State) : Out :=
  .next (simple1 sw d a (fun x => BitVec.ofNat 64 (popcount 64 x.toNat)) s)
def execMov (sw : Bool) (d : SReg) (a : Src) (s : State) : Out := .next (simple1 sw d a (fun x => x) s)

/-! ### Immediates (R90, R91) -/

def execSext (sw : Bool) (d : SReg) (a : Src) (n : BitVec 7) (s : State) : Out :=
  .next (simple1 sw d a (fun x => signExt x n.toNat) s)
def execZext (sw : Bool) (d : SReg) (a : Src) (n : BitVec 7) (s : State) : Out :=
  .next (simple1 sw d a (fun x => zeroExt x n.toNat) s)
def execAddi (sw : Bool) (d : SReg) (a : Src) (i : BitVec 16) (s : State) : Out :=
  .next (simple1 sw d a (fun x => x + imm i) s)
def execAndi (sw : Bool) (d : SReg) (a : Src) (i : BitVec 16) (s : State) : Out :=
  .next (simple1 sw d a (fun x => x &&& imm i) s)
def execOri (sw : Bool) (d : SReg) (a : Src) (i : BitVec 16) (s : State) : Out :=
  .next (simple1 sw d a (fun x => x ||| imm i) s)
def execXori (sw : Bool) (d : SReg) (a : Src) (i : BitVec 16) (s : State) : Out :=
  .next (simple1 sw d a (fun x => x ^^^ imm i) s)

/-! ### Comparison and selection (R92 to R94) -/

/-- Write the result of a comparison to a scalar or a predicate (R93). -/
def State.writeCmp (s : State) (d : CmpDst) (b : Bool) : State :=
  match d with
  | .s r => s.writeS r (boolWord b)
  | .p r => s.writeP r (boolPred b)

def execCmp (sw : Bool) (d : CmpDst) (a b : Src) (cond : Cond) (s : State) : Out :=
  .next (s.withRegs (srcRegs a ++ srcRegs b) fun s => (s.writeCmp d (condWord cond (s.src a) (s.src b))).finish sw)

def execCmpi (sw : Bool) (d : CmpDst) (a : Src) (i : BitVec 16) (cond : Cond) (s : State) : Out :=
  .next (s.withRegs (srcRegs a) fun s => (s.writeCmp d (condWord cond (s.src a) (imm i))).finish sw)

def execSel (sw : Bool) (d : SReg) (a b : Src) (p : PReg) (s : State) : Out :=
  .next (s.withRegs (srcRegs a ++ srcRegs b ++ [.p p]) fun s =>
    (s.writeS d (if (s.thr.getP p).getLsbD 0 then s.src a else s.src b)).finish sw)

/-! ### Bit fields and constants (R95, R96) -/

/-- BFX: bits above 63 of the source read as zero. -/
def bfx (x : Word) (pos lenm1 : Nat) : Word := zeroExt (x >>> pos) (lenm1 + 1)

/-- BFI: `x` supplies the field, `y` the base; field bits above 63 are dropped. -/
def bfi (x y : Word) (pos lenm1 : Nat) : Word :=
  let m := BitVec.ofNat 64 ((2 ^ (lenm1 + 1) - 1) * 2 ^ pos)
  (y &&& ~~~m) ||| ((x <<< pos) &&& m)

def execBfx (sw : Bool) (d : SReg) (a : Src) (pos lenm1 : BitVec 6) (s : State) : Out :=
  .next (simple1 sw d a (fun x => bfx x pos.toNat lenm1.toNat) s)
def execBfi (sw : Bool) (d : SReg) (a b : Src) (pos lenm1 : BitVec 6) (s : State) : Out :=
  .next (simple2 sw d a b (fun x y => bfi x y pos.toNat lenm1.toNat) s)
def execLi (sw : Bool) (d : SReg) (i : BitVec 16) (s : State) : Out :=
  .next (s.withRegs [] fun s => (s.writeS d (imm i)).finish sw)
def execLiw (sw : Bool) (d : SReg) (i : BitVec 32) (s : State) : Out :=
  .next (s.withRegs [] fun s => (s.writeS d (i.setWidth 64)).finish sw)

/-- R96: LIX reads D at issue. -/
def execLix (sw : Bool) (d : SReg) (i : BitVec 32) (s : State) : Out :=
  .next (s.withRegs [.s d] fun s =>
    (s.writeS d ((i.setWidth 64 <<< 32) ||| ((s.thr.getS d).setWidth 32).setWidth 64)).finish sw)

end Sys2Proof.Machine
end

