-- ==== Sys2Proof/Machine/Dispatch.lean ====
section
/-! DEFINITION. The meaning of every instruction and step: one arm each, one direct call. -/

namespace Sys2Proof.Machine

def exec (i : Instr) (s : State) : Host.Outcome State Fault Refusal :=
  match i with
  | .nop sw => Sys2Proof.Machine.execNop sw s
  | .br sw delta h => Sys2Proof.Machine.execBr sw delta h s
  | .brz sw a delta h => Sys2Proof.Machine.execBrz sw a delta h s
  | .brnz sw a delta h => Sys2Proof.Machine.execBrnz sw a delta h s
  | .jmp sw a => Sys2Proof.Machine.execJmp sw a s
  | .jal sw d delta h => Sys2Proof.Machine.execJal sw d delta h s
  | .jalr sw d a => Sys2Proof.Machine.execJalr sw d a s
  | .loop sw k a delta h => Sys2Proof.Machine.execLoop sw k a delta h s
  | .lbrk sw k => Sys2Proof.Machine.execLbrk sw k s
  | .halt sw => Sys2Proof.Machine.execHalt sw s
  | .encodingNotAnInstruction head u0 u1 u2 => Sys2Proof.Machine.execEncodingNotAnInstruction head u0 u1 u2 s
  | .add sw d a b => Sys2Proof.Machine.execAdd sw d a b s
  | .sub sw d a b => Sys2Proof.Machine.execSub sw d a b s
  | .and sw d a b => Sys2Proof.Machine.execAnd sw d a b s
  | .or sw d a b => Sys2Proof.Machine.execOr sw d a b s
  | .xor sw d a b => Sys2Proof.Machine.execXor sw d a b s
  | .andn sw d a b => Sys2Proof.Machine.execAndn sw d a b s
  | .shl sw d a b => Sys2Proof.Machine.execShl sw d a b s
  | .shr sw d a b => Sys2Proof.Machine.execShr sw d a b s
  | .sar sw d a b => Sys2Proof.Machine.execSar sw d a b s
  | .rotl sw d a b => Sys2Proof.Machine.execRotl sw d a b s
  | .min sw d a b => Sys2Proof.Machine.execMin sw d a b s
  | .max sw d a b => Sys2Proof.Machine.execMax sw d a b s
  | .minu sw d a b => Sys2Proof.Machine.execMinu sw d a b s
  | .maxu sw d a b => Sys2Proof.Machine.execMaxu sw d a b s
  | .mul sw d a b => Sys2Proof.Machine.execMul sw d a b s
  | .mulh sw d a b => Sys2Proof.Machine.execMulh sw d a b s
  | .mulhu sw d a b => Sys2Proof.Machine.execMulhu sw d a b s
  | .div sw d a b => Sys2Proof.Machine.execDiv sw d a b s
  | .divu sw d a b => Sys2Proof.Machine.execDivu sw d a b s
  | .rem sw d a b => Sys2Proof.Machine.execRem sw d a b s
  | .remu sw d a b => Sys2Proof.Machine.execRemu sw d a b s
  | .clz sw d a => Sys2Proof.Machine.execClz sw d a s
  | .ctz sw d a => Sys2Proof.Machine.execCtz sw d a s
  | .popc sw d a => Sys2Proof.Machine.execPopc sw d a s
  | .mov sw d a => Sys2Proof.Machine.execMov sw d a s
  | .sext sw d a n => Sys2Proof.Machine.execSext sw d a n s
  | .zext sw d a n => Sys2Proof.Machine.execZext sw d a n s
  | .addi sw d a imm => Sys2Proof.Machine.execAddi sw d a imm s
  | .andi sw d a imm => Sys2Proof.Machine.execAndi sw d a imm s
  | .ori sw d a imm => Sys2Proof.Machine.execOri sw d a imm s
  | .xori sw d a imm => Sys2Proof.Machine.execXori sw d a imm s
  | .cmp sw d a b cond => Sys2Proof.Machine.execCmp sw d a b cond s
  | .cmpi sw d a imm cond => Sys2Proof.Machine.execCmpi sw d a imm cond s
  | .sel sw d a b p => Sys2Proof.Machine.execSel sw d a b p s
  | .bfx sw d a pos lenm1 => Sys2Proof.Machine.execBfx sw d a pos lenm1 s
  | .bfi sw d a b pos lenm1 => Sys2Proof.Machine.execBfi sw d a b pos lenm1 s
  | .li sw d imm => Sys2Proof.Machine.execLi sw d imm s
  | .liw sw d imm => Sys2Proof.Machine.execLiw sw d imm s
  | .lix sw d imm => Sys2Proof.Machine.execLix sw d imm s
  | .padd sw d a b => Sys2Proof.Machine.execPadd sw d a b s
  | .pidx sw d a b => Sys2Proof.Machine.execPidx sw d a b s
  | .pstrip sw d a => Sys2Proof.Machine.execPstrip sw d a s
  | .pget sw d a => Sys2Proof.Machine.execPget sw d a s
  | .pfmt sw d a b => Sys2Proof.Machine.execPfmt sw d a b s
  | .paddi sw d a imm => Sys2Proof.Machine.execPaddi sw d a imm s
  | .pand sw d a b => Sys2Proof.Machine.execPand sw d a b s
  | .por sw d a b => Sys2Proof.Machine.execPor sw d a b s
  | .pxor sw d a b => Sys2Proof.Machine.execPxor sw d a b s
  | .pnot sw d a => Sys2Proof.Machine.execPnot sw d a s
  | .pmov sw d a => Sys2Proof.Machine.execPmov sw d a s
  | .pcnt sw d a => Sys2Proof.Machine.execPcnt sw d a s
  | .pfirst sw d a => Sys2Proof.Machine.execPfirst sw d a s
  | .vadd sw ty rm sat pg d a b => Sys2Proof.Machine.execVadd sw ty rm sat pg d a b s
  | .vsub sw ty rm sat pg d a b => Sys2Proof.Machine.execVsub sw ty rm sat pg d a b s
  | .vmul sw ty rm sat pg d a b => Sys2Proof.Machine.execVmul sw ty rm sat pg d a b s
  | .vmulh sw ty pg d a b => Sys2Proof.Machine.execVmulh sw ty pg d a b s
  | .vmin sw ty pg d a b => Sys2Proof.Machine.execVmin sw ty pg d a b s
  | .vmax sw ty pg d a b => Sys2Proof.Machine.execVmax sw ty pg d a b s
  | .vfma sw ty rm sat pg d a b c => Sys2Proof.Machine.execVfma sw ty rm sat pg d a b c s
  | .vfms sw ty rm sat pg d a b c => Sys2Proof.Machine.execVfms sw ty rm sat pg d a b c s
  | .vabs sw ty sat pg d a => Sys2Proof.Machine.execVabs sw ty sat pg d a s
  | .vneg sw ty sat pg d a => Sys2Proof.Machine.execVneg sw ty sat pg d a s
  | .vand sw sz pg d a b => Sys2Proof.Machine.execVand sw sz pg d a b s
  | .vor sw sz pg d a b => Sys2Proof.Machine.execVor sw sz pg d a b s
  | .vxor sw sz pg d a b => Sys2Proof.Machine.execVxor sw sz pg d a b s
  | .vshl sw sz pg d a b => Sys2Proof.Machine.execVshl sw sz pg d a b s
  | .vshr sw sz pg d a b => Sys2Proof.Machine.execVshr sw sz pg d a b s
  | .vsar sw sz pg d a b => Sys2Proof.Machine.execVsar sw sz pg d a b s
  | .vcmp sw ty pg d a b cond => Sys2Proof.Machine.execVcmp sw ty pg d a b cond s
  | .vsel sw sz pn d a b => Sys2Proof.Machine.execVsel sw sz pn d a b s
  | .vbcast sw sz pg d a => Sys2Proof.Machine.execVbcast sw sz pg d a s
  | .vins sw sz d a idx => Sys2Proof.Machine.execVins sw sz d a idx s
  | .vext sw sz d a idx => Sys2Proof.Machine.execVext sw sz d a idx s
  | .vshuf sw sz pg d a b => Sys2Proof.Machine.execVshuf sw sz pg d a b s
  | .vrot sw sz pg d a n => Sys2Proof.Machine.execVrot sw sz pg d a n s
  | .vcvt sw dty sty rm sat pg d a => Sys2Proof.Machine.execVcvt sw dty sty rm sat pg d a s
  | .vqnt sw sty rm pg pm2 d a => Sys2Proof.Machine.execVqnt sw sty rm pg pm2 d a s
  | .vdqnt sw ty rm sat pg pm2 rpl d a c => Sys2Proof.Machine.execVdqnt sw ty rm sat pg pm2 rpl d a c s
  | .vredsum sw ty rm pg d a => Sys2Proof.Machine.execVredsum sw ty rm pg d a s
  | .vredmax sw ty pg d a => Sys2Proof.Machine.execVredmax sw ty pg d a s
  | .vredmin sw ty pg d a => Sys2Proof.Machine.execVredmin sw ty pg d a s
  | .vscan sw ty rm sat pg d a => Sys2Proof.Machine.execVscan sw ty rm sat pg d a s
  | .vrcp sw ty rm sat pg d a => Sys2Proof.Machine.execVrcp sw ty rm sat pg d a s
  | .vrsq sw ty rm sat pg d a => Sys2Proof.Machine.execVrsq sw ty rm sat pg d a s
  | .vexp2 sw ty rm sat pg d a => Sys2Proof.Machine.execVexp2 sw ty rm sat pg d a s
  | .vlog2 sw ty rm sat pg d a => Sys2Proof.Machine.execVlog2 sw ty rm sat pg d a s
  | .vdot4 sw ty rm sat pg d a b c => Sys2Proof.Machine.execVdot4 sw ty rm sat pg d a b c s
  | .vpopc sw sz pg d a => Sys2Proof.Machine.execVpopc sw sz pg d a s
  | .ld sw sz d a off => Sys2Proof.Machine.execLd sw sz d a off s
  | .lda sw sz sc d a off => Sys2Proof.Machine.execLda sw sz sc d a off s
  | .st sw sz a b off => Sys2Proof.Machine.execSt sw sz a b off s
  | .stl sw sz sc a b off => Sys2Proof.Machine.execStl sw sz sc a b off s
  | .vld sw sz pg d a off => Sys2Proof.Machine.execVld sw sz pg d a off s
  | .vlds sw sz pg d a stride => Sys2Proof.Machine.execVlds sw sz pg d a stride s
  | .vst sw sz pg a b off => Sys2Proof.Machine.execVst sw sz pg a b off s
  | .vsts sw sz pg a b stride => Sys2Proof.Machine.execVsts sw sz pg a b stride s
  | .vgath sw sz pg d a c => Sys2Proof.Machine.execVgath sw sz pg d a c s
  | .vscat sw sz pg a b c => Sys2Proof.Machine.execVscat sw sz pg a b c s
  | .ldf sw sc d a off => Sys2Proof.Machine.execLdf sw sc d a off s
  | .ste sw sc a b off => Sys2Proof.Machine.execSte sw sc a b off s
  | .ldfp sw d p a off => Sys2Proof.Machine.execLdfp sw d p a off s
  | .setfe sw a b off => Sys2Proof.Machine.execSetfe sw a b off s
  | .amo sw sz sc op ord d a b c => Sys2Proof.Machine.execAmo sw sz sc op ord d a b c s
  | .redu sw ty rm sat op a b => Sys2Proof.Machine.execRedu sw ty rm sat op a b s
  | .waitge sw sz sc d a b off => Sys2Proof.Machine.execWaitge sw sz sc d a b off s
  | .fence sw sc => Sys2Proof.Machine.execFence sw sc s
  | .pref sw a b off => Sys2Proof.Machine.execPref sw a b off s
  | .tflush sw a b off => Sys2Proof.Machine.execTflush sw a b off s
  | .tinv sw a b off => Sys2Proof.Machine.execTinv sw a b off s
  | .send sw a b off => Sys2Proof.Machine.execSend sw a b off s
  | .sendv sw a b off => Sys2Proof.Machine.execSendv sw a b off s
  | .sendr sw sc a b off => Sys2Proof.Machine.execSendr sw sc a b off s
  | .mintcap sw d base lenm1 => Sys2Proof.Machine.execMintcap sw d base lenm1 s
  | .revcap sw d => Sys2Proof.Machine.execRevcap sw d s
  | .rclr sw d => Sys2Proof.Machine.execRclr sw d s
  | .rfull sw d a => Sys2Proof.Machine.execRfull sw d a s
  | .rwait sw a b => Sys2Proof.Machine.execRwait sw a b s
  | .landm sw base lenm1 mode => Sys2Proof.Machine.execLandm sw base lenm1 mode s
  | .cpy sw d a => Sys2Proof.Machine.execCpy sw d a s
  | .cpynb sw d a => Sys2Proof.Machine.execCpynb sw d a s
  | .cpyc sw d a => Sys2Proof.Machine.execCpyc sw d a s
  | .cpyq sw d a => Sys2Proof.Machine.execCpyq sw d a s
  | .twany sw d a => Sys2Proof.Machine.execTwany sw d a s
  | .twall sw d a => Sys2Proof.Machine.execTwall sw d a s
  | .tffr sw d a => Sys2Proof.Machine.execTffr sw d a s
  | .tclr sw a => Sys2Proof.Machine.execTclr sw a s
  | .pbinv sw a => Sys2Proof.Machine.execPbinv sw a s
  | .gathq sw sz pg d a b => Sys2Proof.Machine.execGathq sw sz pg d a b s
  | .planset sw d a => Sys2Proof.Machine.execPlanset sw d a s
  | .planfire sw a b => Sys2Proof.Machine.execPlanfire sw a b s
  | .plandrop sw a => Sys2Proof.Machine.execPlandrop sw a s
  | .tapeopen sw d a => Sys2Proof.Machine.execTapeopen sw d a s
  | .tapeclose sw a => Sys2Proof.Machine.execTapeclose sw a s
  | .tapefree sw a => Sys2Proof.Machine.execTapefree sw a s
  | .tapeq sw d a => Sys2Proof.Machine.execTapeq sw d a s
  | .mcast sw tag a b cls ret => Sys2Proof.Machine.execMcast sw tag a b cls ret s
  | .gathr sw tag a b cls ret => Sys2Proof.Machine.execGathr sw tag a b cls ret s
  | .a2a sw tag a b cls ret => Sys2Proof.Machine.execA2a sw tag a b cls ret s
  | .retrace sw tag a b c ty cls land => Sys2Proof.Machine.execRetrace sw tag a b c ty cls land s
  | .genbump sw d a => Sys2Proof.Machine.execGenbump sw d a s
  | .hsinit sw a b => Sys2Proof.Machine.execHsinit sw a b s
  | .hsift sw d a b => Sys2Proof.Machine.execHsift sw d a b s
  | .hpop sw d a => Sys2Proof.Machine.execHpop sw d a s
  | .hist sw sz pg a b => Sys2Proof.Machine.execHist sw sz pg a b s
  | .histOvf sw sz pg a b => Sys2Proof.Machine.execHistOvf sw sz pg a b s
  | .remapw sw a b => Sys2Proof.Machine.execRemapw sw a b s
  | .remapx sw a => Sys2Proof.Machine.execRemapx sw a s
  | .mcfg sw tag a => Sys2Proof.Machine.execMcfg sw tag a s
  | .mzero sw tag mask => Sys2Proof.Machine.execMzero sw tag mask s
  | .mlda sw tag a b mc buf tr g pe => Sys2Proof.Machine.execMlda sw tag a b mc buf tr g pe s
  | .mldb sw tag a b mc buf tr g pe => Sys2Proof.Machine.execMldb sw tag a b mc buf tr g pe s
  | .mldacc sw tag a acc pe => Sys2Proof.Machine.execMldacc sw tag a acc pe s
  | .mmap sw tag acc ab bb => Sys2Proof.Machine.execMmap sw tag acc ab bb s
  | .mmah sw tag acc ab bb => Sys2Proof.Machine.execMmah sw tag acc ab bb s
  | .mmas sw tag acc ab bb => Sys2Proof.Machine.execMmas sw tag acc ab bb s
  | .mst sw tag rm sat a acc pe => Sys2Proof.Machine.execMst sw tag rm sat a acc pe s
  | .mstq sw tag rm a b acc pe => Sys2Proof.Machine.execMstq sw tag rm a b acc pe s
  | .mscl sw tag rm sat a acc => Sys2Proof.Machine.execMscl sw tag rm sat a acc s
  | .wfw sw d => Sys2Proof.Machine.execWfw sw d s
  | .disp sw d a prio sc => Sys2Proof.Machine.execDisp sw d a prio sc s
  | .prog sw a => Sys2Proof.Machine.execProg sw a s
  | .ckpt sw sc a => Sys2Proof.Machine.execCkpt sw sc a s
  | .sleep sw a => Sys2Proof.Machine.execSleep sw a s
  | .bararv sw sc n g => Sys2Proof.Machine.execBararv sw sc n g s
  | .barwt sw sc n => Sys2Proof.Machine.execBarwt sw sc n s
  | .barsync sw sc n g => Sys2Proof.Machine.execBarsync sw sc n g s
  | .trap sw n => Sys2Proof.Machine.execTrap sw n s
  | .eret sw => Sys2Proof.Machine.execEret sw s
  | .ctlr sw d num => Sys2Proof.Machine.execCtlr sw d num s
  | .ctlw sw num a => Sys2Proof.Machine.execCtlw sw num a s
  | .tdef sw a b loge id => Sys2Proof.Machine.execTdef sw a b loge id s
  | .tlbpin sw sc d a => Sys2Proof.Machine.execTlbpin sw sc d a s
  | .tlbinv sw d a b force => Sys2Proof.Machine.execTlbinv sw d a b force s
  | .lineFetch t => Sys2Proof.Machine.execLineFetch t s
  | .deferredResultReturn t id => Sys2Proof.Machine.execDeferredResultReturn t id s
  | .switchPointCommit t => Sys2Proof.Machine.execSwitchPointCommit t s
  | .asyncCauseDelivery t => Sys2Proof.Machine.execAsyncCauseDelivery t s
  | .parklong t => Sys2Proof.Machine.execParklong t s
  | .translationWalkEnd router vk page => Sys2Proof.Machine.execTranslationWalkEnd router vk page s
  | .accessAtHome src => Sys2Proof.Machine.execAccessAtHome src s
  | .syncretry core id => Sys2Proof.Machine.execSyncretry core id s
  | .syncRequestRepresent core id => Sys2Proof.Machine.execSyncRequestRepresent core id s
  | .watchReread core id => Sys2Proof.Machine.execWatchReread core id s
  | .gatherEngineServe core id => Sys2Proof.Machine.execGatherEngineServe core id s
  | .sendArrival t id => Sys2Proof.Machine.execSendArrival t id s
  | .revocationEffective t => Sys2Proof.Machine.execRevocationEffective t s
  | .capbadStop vd team => Sys2Proof.Machine.execCapbadStop vd team s
  | .copyDispatch core id => Sys2Proof.Machine.execCopyDispatch core id s
  | .copyComplete core id => Sys2Proof.Machine.execCopyComplete core id s
  | .matrixEntryStart core id => Sys2Proof.Machine.execMatrixEntryStart core id s
  | .matrixEntryComplete core id => Sys2Proof.Machine.execMatrixEntryComplete core id s
  | .multicastDelivery core id dest => Sys2Proof.Machine.execMulticastDelivery core id dest s
  | .planTrigger vk => Sys2Proof.Machine.execPlanTrigger vk s
  | .planFireStart vk plan member => Sys2Proof.Machine.execPlanFireStart vk plan member s
  | .planFiringComplete vk plan member => Sys2Proof.Machine.execPlanFiringComplete vk plan member s
  | .sillageDelivery op idx path => Sys2Proof.Machine.execSillageDelivery op idx path s
  | .sillageTransferComplete op => Sys2Proof.Machine.execSillageTransferComplete op s
  | .retraceChunkArrival op idx detoured => Sys2Proof.Machine.execRetraceChunkArrival op idx detoured s
  | .accordEmit router port => Sys2Proof.Machine.execAccordEmit router port s
  | .retraceComplete op => Sys2Proof.Machine.execRetraceComplete op s
  | .dispPostArrival id => Sys2Proof.Machine.execDispPostArrival id s
  | .dispenserBind cluster vd team => Sys2Proof.Machine.execDispenserBind cluster vd team s
  | .sleepWake t => Sys2Proof.Machine.execSleepWake t s
  | .barrierArrivalCounted id => Sys2Proof.Machine.execBarrierArrivalCounted id s
  | .barrierPhaseComplete vd team n g => Sys2Proof.Machine.execBarrierPhaseComplete vd team n g s
  | .ckptRecord id => Sys2Proof.Machine.execCkptRecord id s
  | .bucketAccrual arb => Sys2Proof.Machine.execBucketAccrual arb s
  | .arbiterGrant arb offers => Sys2Proof.Machine.execArbiterGrant arb offers s
  | .rateEpoch pkg => Sys2Proof.Machine.execRateEpoch pkg s
  | .progressAdditionApplied id => Sys2Proof.Machine.execProgressAdditionApplied id s
  | .doorbell fn q val => Sys2Proof.Machine.execDoorbell fn q val s
  | .launchEntry fn q => Sys2Proof.Machine.execLaunchEntry fn q s
  | .launchSelect vk => Sys2Proof.Machine.execLaunchSelect vk s
  | .launchBind vk => Sys2Proof.Machine.execLaunchBind vk s
  | .bootTreeForward vd team core => Sys2Proof.Machine.execBootTreeForward vd team core s
  | .threadStart vd team core => Sys2Proof.Machine.execThreadStart vd team core s
  | .teamComplete vd team => Sys2Proof.Machine.execTeamComplete vd team s
  | .preemptEntry fn q => Sys2Proof.Machine.execPreemptEntry fn q s
  | .preemptDeadline vd team => Sys2Proof.Machine.execPreemptDeadline vd team s
  | .discard vd team => Sys2Proof.Machine.execDiscard vd team s
  | .saveComplete vd team => Sys2Proof.Machine.execSaveComplete vd team s
  | .invalidateEntry fn q => Sys2Proof.Machine.execInvalidateEntry fn q s
  | .defineHandle fn q => Sys2Proof.Machine.execDefineHandle fn q s
  | .dropHandle fn q => Sys2Proof.Machine.execDropHandle fn q s
  | .answer fn q => Sys2Proof.Machine.execAnswer fn q s
  | .hostAnswerTimeout token => Sys2Proof.Machine.execHostAnswerTimeout token s
  | .tlbinvDeadline id => Sys2Proof.Machine.execTlbinvDeadline id s
  | .eventRingDrain fn r => Sys2Proof.Machine.execEventRingDrain fn r s
  | .eheadWrite fn r val => Sys2Proof.Machine.execEheadWrite fn r val s
  | .ectlWrite fn r val => Sys2Proof.Machine.execEctlWrite fn r val s
  | .qctlEn fn q en => Sys2Proof.Machine.execQctlEn fn q en s
  | .qctlRst fn q => Sys2Proof.Machine.execQctlRst fn q s
  | .vdCreate vk => Sys2Proof.Machine.execVdCreate vk s
  | .vdDestroy vk => Sys2Proof.Machine.execVdDestroy vk s
  | .vdReenable vk => Sys2Proof.Machine.execVdReenable vk s
  | .l2useWrite vk val => Sys2Proof.Machine.execL2useWrite vk val s
  | .l2limWrite vk val => Sys2Proof.Machine.execL2limWrite vk val s
  | .rateWrite vk cls val => Sys2Proof.Machine.execRateWrite vk cls val s
  | .qpriWrite vk val => Sys2Proof.Machine.execQpriWrite vk val s
  | .slotMapWrite vk core val => Sys2Proof.Machine.execSlotMapWrite vk core val s
  | .grantMapWrite vk core val => Sys2Proof.Machine.execGrantMapWrite vk core val s
  | .rmodeWrite pkg vd val => Sys2Proof.Machine.execRmodeWrite pkg vd val s
  | .registerWrite fn off val => Sys2Proof.Machine.execRegisterWrite fn off val s
  | .hostHdmRead vk off len => Sys2Proof.Machine.execHostHdmRead vk off len s
  | .hostHdmWrite vk off bytes => Sys2Proof.Machine.execHostHdmWrite vk off bytes s
  | .spdmMessage fn nonce => Sys2Proof.Machine.execSpdmMessage fn nonce s
  | .throttleChange pkg cores factor => Sys2Proof.Machine.execThrottleChange pkg cores factor s
  | .thermalLimit pkg massif layer => Sys2Proof.Machine.execThermalLimit pkg massif layer s
  | .flitReplay link => Sys2Proof.Machine.execFlitReplay link s
  | .linkDown link => Sys2Proof.Machine.execLinkDown link s
  | .thopeifBringup pkg link => Sys2Proof.Machine.execThopeifBringup pkg link s
  | .thopeifLinkFail pkg link auth => Sys2Proof.Machine.execThopeifLinkFail pkg link auth s
  | .timeSync offsets => Sys2Proof.Machine.execTimeSync offsets s
  | .scrub pkg mem unit found => Sys2Proof.Machine.execScrub pkg mem unit found s
  | .wearSample pkg cluster index failing => Sys2Proof.Machine.execWearSample pkg cluster index failing s
  | .lifeRecompute pkg => Sys2Proof.Machine.execLifeRecompute pkg s
  | .securityAlarm pkg src vd => Sys2Proof.Machine.execSecurityAlarm pkg src vd s
  | .olushOutput pkg erase cluster val => Sys2Proof.Machine.execOlushOutput pkg erase cluster val s
  | .packageReset pkg => Sys2Proof.Machine.execPackageReset pkg s
  | .layerTemperatureChange pkg massif layer band => Sys2Proof.Machine.execLayerTemperatureChange pkg massif layer band s

end Sys2Proof.Machine
end

