-- ==== Sys2Proof/Machine/Turn.lean ====
section
/-! DEFINITION. One turn of a thread in the barrel (R326, R327), and what comes next when the agenda names nothing. -/

namespace Sys2Proof.Machine

/-- Execute the head; a park that still holds at this turn and has lasted its limit is ended by PARKLONG (R329). -/
def issueHead (i : Instr) (t : Nat) (s : State) : Host.Outcome State Fault Refusal :=
  match exec i s with
  | .next s' => if s'.parkExpired then exec (.parklong t) s' else .next s'.stopParked
  | .fault r => .fault r
  | .refused r => .refused r

/-- One turn of thread `t` (R326, R327, R330, R347); arrivals held over its restore come in first (R226). -/
def turn (t : Nat) (s : State) : Host.Outcome State Fault Refusal :=
  let s := (s.refillHeld t).atTurn t
  match s.thr.turn with
  | .bubble => .next s
  | .deliver => exec (.asyncCauseDelivery t) s
  | .pushStores => .next s.pushStores
  | .stop => .next s.stopWaiting
  | .badIndex la => .next (s.trap cLinefmt (la.setWidth 64))
  | .issue i => issueHead i t s

/-! ### The default schedule (log entry 10)

When the agenda names nothing, every step of what is under way comes once, and then the thread whose slot comes first takes its
turn. -/

/-- Threads that exist and have not retired. -/
def liveThreads (s : State) : List Thread := (s.thr :: s.threads.map fun e => e.2).filter Thread.live

/-- What is under way for a thread: its line, its results, its switch point, its sends, its holds. -/
def threadWork (t : Thread) : List Instr :=
  (t.buf.filterMap fun e => if e.done && !e.returned then some (.deferredResultReturn t.id e.id) else none) ++
  (t.sendq.take 1).map (fun e => .sendArrival t.id e.id) ++
  [.lineFetch t.id, .switchPointCommit t.id, .revocationEffective t.id, .sleepWake t.id]

/-- What is under way for an access in a core's port; one that was turned away comes again when its home has room. -/
def accessWork (s : State) (gc : Nat) (a : Access) : List Instr :=
  if a.waiting then [.syncretry gc a.id]
  else if a.kind == .gath then [.gatherEngineServe gc a.id]
  else if a.turnedAway then
    if a.parts.all (homeHasRoom s gc a) then [.syncRequestRepresent gc a.id, .watchReread gc a.id]
    else []
  else a.parts.map fun p => .accessAtHome (.port gc a.id p.lane)

/-- What is under way for a copy, and for a matrix entry; the next unit of its product is offered once (R149). -/
def copyWork (gc : Nat) (r : CopyReq) : List Instr :=
  (List.range r.todo.length).map (fun k => .accessAtHome (.copy gc r.id k)) ++ [.copyDispatch gc r.id, .copyComplete gc r.id]

def matrixWork (s : State) (gc : Nat) (m : MEntry) : List Instr :=
  let arb := arbKey 0 gc
  let offers : List Offer :=
    if m.running && m.units != 0 && !(s.arb arb).pending.any (fun u => u.op == m.id) then
      [⟨m.vk % 16, m.unit, m.cls.toNat, m.id⟩] else []
  [.accessAtHome (.matrix gc m.id 0), .matrixEntryStart gc m.id, .matrixEntryComplete gc m.id] ++
  m.dests.map (.multicastDelivery gc m.id) ++ [.bucketAccrual arb, .arbiterGrant arb offers]

def coreWork (s : State) (e : Nat × Core) : List Instr :=
  e.2.port.flatMap (accessWork s e.1) ++ e.2.copies.flatMap (copyWork e.1) ++ e.2.mq.flatMap (matrixWork s e.1) ++
  e.2.bars.map fun b => .barrierPhaseComplete (b.vk % 16) b.team b.n b.group

def routerWork (e : Nat × Router) : List Instr :=
  e.2.misses.map (fun m => .translationWalkEnd e.1 m.vk m.page) ++ e.2.accord.map fun x => .accordEmit e.1 x.port

def postedWork : Posted → Instr
  | .disp id .. => .dispPostArrival id
  | .arrival id .. => .barrierArrivalCounted id
  | .prog id .. => .progressAdditionApplied id
  | .ckpt id .. => .ckptRecord id

/-- What is under way in the sillage: deliveries by the routes of the route tables, chunks as their ways have turned. -/
def sillageWork (s : State) : List Instr :=
  (s.forwards.flatMap fun f => (if f.begun then f.todo.map (fun x => .sillageDelivery f.id x.idx (deliveryRoute s f x)) else
    [.sillageDelivery f.id 0 []]) ++ [.sillageTransferComplete f.id]) ++
  s.retraces.flatMap fun r => (if r.begun then r.chunks.zipIdx.map (fun (c, k) => .retraceChunkArrival r.id k c.turned) else
    [.retraceChunkArrival r.id 0 false]) ++ [.retraceComplete r.id]

/-- What is under way for a VD: launches and plans. -/
def vdWork (e : Nat × Vd) : List Instr :=
  [.launchSelect e.1, .launchBind e.1, .planTrigger e.1] ++ e.2.plans.flatMap fun p =>
    (List.range p.2.members.length).flatMap fun k => [.planFireStart e.1 p.1 k, .planFiringComplete e.1 p.1 k]

/-- What is under way for a team: loading, completion, a stop, a request. -/
def teamWork (t : Team) : List Instr :=
  t.coreList.flatMap (fun gc => [.bootTreeForward t.vd t.num gc, .threadStart t.vd t.num gc]) ++
  [.capbadStop t.vd t.num, .discard t.vd t.num, .saveComplete t.vd t.num, .preemptDeadline t.vd t.num, .teamComplete t.vd t.num]

/-- What a function's queues and rings have to do. -/
def fnWork (e : Nat × Function) : List Instr :=
  (List.range 8).flatMap (fun q => [.launchEntry e.1 q, .preemptEntry e.1 q, .invalidateEntry e.1 q, .defineHandle e.1 q,
    .dropHandle e.1 q, .answer e.1 q]) ++ [.eventRingDrain e.1 0, .eventRingDrain e.1 1]

/-- Everything that is under way. -/
def work (s : State) : List Instr :=
  s.routers.flatMap routerWork ++ s.cores.flatMap (coreWork s) ++ (liveThreads s).flatMap threadWork ++
  s.posted.map postedWork ++ s.disps.map (fun d => .dispenserBind d.cluster d.vd d.team) ++ sillageWork s ++
  s.invs.map (fun i => .tlbinvDeadline i.id) ++ s.cases.map (fun c => .hostAnswerTimeout c.token) ++
  s.teams.flatMap teamWork ++ s.fns.flatMap fnWork ++ s.vds.flatMap vdWork ++ s.pkgs.map fun p => .rateEpoch p.1

/-- The live thread whose slot comes first. -/
def firstTurn (s : State) : Option Nat :=
  ((liveThreads s).foldl (fun best t => match best with
    | some b => if s.turnCycle t < s.turnCycle b then some t else best
    | none => some t) none).map fun t => t.id

/-- Threads that do something at their next turn. -/
def dueThreads (s : State) : List Thread := (liveThreads s).filter fun t => t.turn != .bubble

/-- No thread has a turn to take before a cycle: the barrel passes over none (R326). -/
def noneDue (s : State) (c : Nat) : Bool := (dueThreads s).all fun t => c ≤ s.turnCycle t

/-- A turn of a thread, where it is the next to come. -/
def nextTurn (t : Nat) (s : State) : Host.Outcome State Fault Refusal :=
  if noneDue s (s.turnCycle (s.thread t)) then turn t s else .next s

/-- Time passes, as far as the next turn in which a thread does something. -/
def State.wait_ (s : State) (n : Nat) : State :=
  s.passTo ((dueThreads s).foldl (fun c t => min c (max s.cycle (s.turnCycle t))) (s.cycle + n))

/-- What comes next when the agenda names nothing: each step of what is under way, once, and then the turn of the thread whose
slot comes first. A step that is not enabled when it comes changes nothing. -/
def schedule (s : State) : List Pick :=
  (work s).map .event ++ (s.routers.filterMap fun e => if e.2.log.isEmpty then none else some (.logWrite e.1)) ++ [match firstTurn s with
    | some t => .turn t
    | none => .tick 8]

/-- Run one pick. An instruction is never a pick of its own: it issues in a turn, as a pending cause is delivered in one and a
PARKLONG ends a park in one (R329, R347). -/
def runPick (p : Pick) (s : State) : Host.Outcome State Fault Refusal :=
  match p with
  | .turn t => nextTurn t s
  | .event (.asyncCauseDelivery t) => nextTurn t s
  | .event (.parklong t) => nextTurn t s
  | .event i => if (encode i).isEmpty then exec i s else .fault .agendaNamesInstruction
  | .tick n => .next (s.wait_ n)
  | .evict vk off => .next (s.cleanTile vk (tileOf s vk off))
  | .logWrite r => .next (s.logWrite r)
  | .hostStore fn a bs => .next { s with mem := memWriteN s.mem (hostLoc fn a) bs }
  | .iommu fn page refuses =>
    let rest := s.iommu.filter fun e => e != (fn, page)
    .next { s with iommu := if refuses then (fn, page) :: rest else rest }
  | .regionStore pkg off bs => .next (if sysBase + off + bs.length ≤ sysEnd then s.rawWrite (dramLoc pkg (sysBase + off)) bs else s)
  | .decay mem loc corrects => .next (s.decay mem loc corrects)
  | .flitOk link => .next (s.flitOk link)
  | .flash pkg k x => .next (s.modPkg pkg fun p => { p with images := p.images.set k x })
  | .enrol pkg => .next (s.enrol pkg)
  | .firmware pkg x => .next (s.modPkg pkg fun p => { p with olush := x })

end Sys2Proof.Machine
end

