-- ==== Sys2Proof/Machine/Step.lean ====
section
/-! DEFINITION. One step of the machine: the first pick of the agenda, or of the default schedule; and the state in which the next
step issues a given instruction. -/

namespace Sys2Proof.Machine

/-- One step. -/
def step (s : State) : Host.Outcome State Fault Refusal :=
  match s.agenda with
  | [] => match schedule s with
    | [] => .next s
    | p :: rest => runPick p { s with agenda := rest }
  | p :: rest => runPick p { s with agenda := rest }

/-- `s` with the instruction of a table word as the only head of the line that the thread in focus executes next. -/
def State.withFetchWord (s : State) (nbits w : Nat) : State :=
  let la := lineAddr s.thr.pc
  { s with
    agenda := [.turn s.thr.id],
    thr := { s.thr with st := .ready, pc := la + 2, line := some (lineOfUnits la (tableUnits nbits w)), line2 := none,
                        want := none, storeHold := [], pend := [], park := none, wait := .none } }

end Sys2Proof.Machine
end

