-- ==== Sys2Proof/Safety.lean ====
section
/-! DEFINITION. What a safe run is, in the terms that claims use: a step that goes on, the states that steps reach, the
form that every state keeps, what an instruction completes with, and what it leaves unchanged. -/

namespace Sys2Proof.Machine

/-- One step answers a next state. -/
def StepsTo (s s' : State) : Prop := step s = .next s'

/-- The states that steps reach. -/
inductive Reaches : State → State → Prop where
  | refl (s : State) : Reaches s s
  | tail {s s' s'' : State} : Reaches s s' → StepsTo s' s'' → Reaches s s''

/-- The form that every state keeps: the list of memory bytes is canonical. -/
abbrev State.Wf (s : State) : Prop := memWf s.mem = true

/-- Every thread outside focus is held under its own number. -/
abbrev State.Keyed (s : State) : Prop := ∀ e ∈ s.threads, e.2.id = e.1

/-- A predicate that holds wherever a step leads from a state in which it holds. -/
def Invariant (P : State → Prop) : Prop := ∀ s s', P s → StepsTo s s' → P s'

/-! ### Completion -/

/-- The instruction or step answers a next state, of which `P` holds. -/
def Completes (i : Instr) (s : State) (P : State → Prop) : Prop := ∃ t, exec i s = .next t ∧ P t

/-- Every register of a list is present, so that an instruction which reads them does not park (R84), and no acquire holds
the thread's events (R234). -/
abbrev Present (s : State) (rs : List Reg) : Prop :=
  (∀ r ∈ rs, Reg.isFull s.thr r = true) ∧ s.thr.acquiring = false

/-- The result buffer has room for one more result (R46). -/
abbrev HasSlot (s : State) : Prop := s.thr.buf.length < 8

/-! ### Frames -/

/-- A thread without its registers, result buffer, loop contexts, position and waits: its identity and every control and
trap register, pending causes, landing modes, the generator of draws, its sends and what its core schedules it by. -/
def Thread.kept (t : Thread) : Thread :=
  { t with st := .ready, pc := 0, sregs := Vector.replicate 32 0, sFull := 0, vregs := Vector.replicate 16 0, vFull := 0,
           pregs := Vector.replicate 8 0, pFull := 0, l0 := ⟨false, 0, 0, 0⟩, l1 := ⟨false, 0, 0, 0⟩, buf := [], park := none,
           wait := .none, want := none, walkFail := [], stop := 0 }

/-- Nothing outside the thread in focus has changed: every other thread, memory, cores, devices, packages. -/
def SameWorld (s t : State) : Prop := t = { s with thr := t.thr }

/-- Scalar registers and their presence bits, but for those named. -/
def SameS (s t : Thread) (but : List SReg) : Prop :=
  ∀ r, r ∉ but → t.getS r = s.getS r ∧ t.hasS r = s.hasS r

/-- Vector registers and their presence bits, but for those named. -/
def SameV (s t : Thread) (but : List VReg) : Prop :=
  ∀ r, r ∉ but → t.getV r = s.getV r ∧ t.hasV r = s.hasV r

/-- Predicate registers and their presence bits, but for those named. -/
def SameP (s t : Thread) (but : List PReg) : Prop :=
  ∀ r, r ∉ but → t.getP r = s.getP r ∧ t.hasP r = s.hasP r

/-- Only registers, the result buffer and the position of the thread in focus differ. -/
def OnlyThread (s t : State) : Prop := SameWorld s t ∧ t.thr.kept = s.thr.kept

/-- Where a thread stands once a head has completed: at a switch point while results are outstanding, if the head carries S or the
thread is to stop after it, and ready for the next head otherwise (R24, R46, R365). -/
def Stands (sw : Bool) (s t : State) : Prop :=
  t.thr.stop = s.thr.stopped ∧ t.thr.st = if (sw || t.thr.stop == 2) && !t.thr.buf.isEmpty then .switchWait .go else .ready

/-- The next head in sequence after one that carries S or not, with the loop contexts as loop matching leaves them, and no wait (R42,
R109). -/
def InSequence (sw : Bool) (s t : State) : Prop :=
  t.thr.pc = s.thr.next.pc ∧ t.thr.l0 = s.thr.next.l0 ∧ t.thr.l1 = s.thr.next.l1 ∧ t.thr.park = none ∧ t.thr.wait = .none ∧
  Stands sw s t

/-- A taken transfer to `x` (R106, R110). -/
def TransferTo (sw : Bool) (s t : State) (x : Addr) : Prop :=
  t.thr.pc = x ∧ t.thr.l0 = (s.thr.goto x).l0 ∧ t.thr.l1 = (s.thr.goto x).l1 ∧ t.thr.park = none ∧ t.thr.wait = .none ∧
  Stands sw s t

/-- A simple scalar result: D holds the value and is present, results buffered for D are discarded, nothing else changes but
the position (R44, R45). -/
structure WritesS (s t : State) (d : SReg) (x : Word) : Prop where
  value : t.thr.getS d = x
  full : t.thr.hasS d = true
  scalars : SameS s.thr t.thr [d]
  vectors : SameV s.thr t.thr []
  predicates : SameP s.thr t.thr []
  buffer : t.thr.buf = (s.thr.supersede (.s d)).buf
  only : OnlyThread s t

/-- A simple vector result; `rng` is the thread's generator after the draws that the instruction takes (R62). -/
structure WritesV (s t : State) (d : VReg) (x : VWord) (rng : BitVec 32) : Prop where
  value : t.thr.getV d = x
  full : t.thr.hasV d = true
  scalars : SameS s.thr t.thr []
  vectors : SameV s.thr t.thr [d]
  predicates : SameP s.thr t.thr []
  buffer : t.thr.buf = (s.thr.supersede (.v d)).buf
  draws : t.thr.rng = rng
  world : SameWorld s t
  kept : { t.thr.kept with rng := 0 } = { s.thr.kept with rng := 0 }

/-- A simple predicate result; one for `p0` is discarded, and `p0` reads all ones (R38, R100). -/
structure WritesP (s t : State) (d : PReg) (x : PWord) : Prop where
  value : t.thr.getP d = if d = 0 then BitVec.allOnes 128 else x
  full : t.thr.hasP d = true
  scalars : SameS s.thr t.thr []
  vectors : SameV s.thr t.thr []
  predicates : SameP s.thr t.thr [d]
  buffer : t.thr.buf = (s.thr.supersede (.p d)).buf
  only : OnlyThread s t

/-- Registers, their presence bits and the result buffer are as before. -/
structure KeepsRegs (s t : State) : Prop where
  scalars : SameS s.thr t.thr []
  vectors : SameV s.thr t.thr []
  predicates : SameP s.thr t.thr []
  buffer : t.thr.buf = s.thr.buf

/-- A deferred result: the registers and the buffer hold what they held, and the new result stands at the end of the buffer,
not yet returned; `acq` says that it is an acquire's (R44, R45, R188). -/
structure Defers (s t : State) (ws : List RegWrite) (done : Bool) (acq : Bool := false) : Prop where
  scalars : SameS s.thr t.thr []
  vectors : SameV s.thr t.thr []
  predicates : SameP s.thr t.thr []
  buffer : t.thr.buf = s.thr.buf ++ [⟨s.seq, s.thr.pc, ws, .plain, done, false, none, acq⟩]
  kept : t.thr.kept = s.thr.kept

/-- A synchronous cause at the issuing head with no result outstanding, outside handler mode and with a handler: the saved
address, cause and value, handler mode, the handler's head; registers and the world as before (R347, R348). -/
structure TrapsTo (s t : State) (code : Nat) (epc : Addr) (tval : Word) : Prop where
  regs : KeepsRegs s t
  saved : t.thr.epc = epc &&& ~~~1#52
  cause : t.thr.cause = BitVec.ofNat 64 code
  value : t.thr.tval = tval
  mode : t.thr.hm = true
  head : t.thr.pc = s.thr.tvec
  loops : t.thr.l0 = s.thr.l0 ∧ t.thr.l1 = s.thr.l1
  world : SameWorld s t
  kept : { t.thr.kept with epc := 0, cause := 0, tval := 0, hm := false } =
    { s.thr.kept with epc := 0, cause := 0, tval := 0, hm := false }

/-- The conditions under which a synchronous cause enters the handler at once. -/
abbrev CanTrap (s : State) : Prop := s.thr.hm = false ∧ s.thr.buf = [] ∧ s.thr.tvec ≠ 0

/-- Execution stands at a switch point, for which the outstanding results have still to commit: the position is `pc` with the loop
contexts given, and `after` follows the commit (R46, R348). -/
structure AtSwitchPoint (s t : State) (pc : Addr) (l0 l1 : LoopCtx) (after : After) : Prop where
  regs : KeepsRegs s t
  stands : t.thr.st = .switchWait after
  head : t.thr.pc = pc
  loops : t.thr.l0 = l0 ∧ t.thr.l1 = l1
  world : SameWorld s t
  kept : t.thr.kept = s.thr.kept

/-- The thread in focus retires, and its cluster posts an event of this type, cause, address and value (R348, R349, R352, R353); no
other byte of memory and no core's store queue changes. -/
structure RetiresWith (s t : State) (type code : Nat) (pc : Addr) (tval : Word) : Prop where
  retired : (t.thread s.thr.id).st = .retired
  rings : t.fns = (postEvent s (pkgOfThread s.thr.id) s.thr.vd type code 0 (clusterOf (coreOf s.thr.id)) s.thr.teamNum s.thr.fabno
    pc.toNat tval.toNat).fns
  memory : t.mem = (postEvent s (pkgOfThread s.thr.id) s.thr.vd type code 0 (clusterOf (coreOf s.thr.id)) s.thr.teamNum s.thr.fabno
    pc.toNat tval.toNat).mem
  ports : ∀ gc, (t.core gc).port = (s.core gc).port

/-- A scalar result of an instruction that also changes something outside its thread: D holds the value and is present, the
other registers, the buffer but for results superseded, and the rest of the thread are as before. -/
structure SetsS (s t : State) (d : SReg) (x : Word) : Prop where
  value : t.thr.getS d = x
  full : t.thr.hasS d = true
  scalars : SameS s.thr t.thr [d]
  vectors : SameV s.thr t.thr []
  predicates : SameP s.thr t.thr []
  buffer : t.thr.buf = (s.thr.supersede (.s d)).buf
  kept : t.thr.kept = s.thr.kept

/-- An instruction without a result that completes in sequence: its registers, buffer and the rest of its thread are as before. -/
structure Passes (sw : Bool) (s t : State) : Prop where
  regs : KeepsRegs s t
  kept : t.thr.kept = s.thr.kept
  sequence : InSequence sw s t

/-- The instruction has not completed: its thread stands at the same head with its registers as before. -/
structure Stays (s t : State) : Prop where
  regs : KeepsRegs s t
  head : t.thr.pc = s.thr.pc
  kept : t.thr.kept = s.thr.kept

/-- Only this core, beside the thread in focus and the issue counter, differs. -/
def OnlyCore (s t : State) (gc : Nat) : Prop :=
  t = { s with thr := t.thr, cores := t.cores, seq := t.seq } ∧ ∀ k, k ≠ gc → t.core k = s.core k

/-! ### Memory -/

/-- Every check of R185 after ALIGN passes for these items, and no lock of the core meets one (R186); `locs` are the
locations that translation gives. -/
abbrev Cleared (s : State) (items : List Item) (locs : List Nat) : Prop :=
  checkItems s s.thr items = .ok locs ∧ ∀ i ∈ items, lockMeets s s.gc s.thr.vk i = false

/-- Accesses enter the port of the issuing core, behind those that it holds; nothing else outside the thread changes: no
byte of memory, no other core (R180). -/
structure EntersPort (s t : State) (new : List Access) : Prop where
  port : (t.core s.gc).port = (s.core s.gc).port ++ new
  core : { t.core s.gc with port := [] } = { s.core s.gc with port := [] }
  others : ∀ gc, gc ≠ s.gc → t.core gc = s.core gc
  world : t = { s with thr := t.thr, cores := t.cores, seq := t.seq }

/-- The bytes from a location on become `bs`, and every other byte reads as before. -/
def StoresBytes (s t : State) (loc : Nat) (bs : List Byte) : Prop :=
  ∀ x, memRead t.mem x = if loc ≤ x ∧ x < loc + bs.length then bs.getD (x - loc) 0 else memRead s.mem x

/-- Every byte of memory reads as before. -/
def SameMemory (s t : State) : Prop := ∀ x, memRead t.mem x = memRead s.mem x

/-- An access of one part stands first in its core's port and has not reached its home; no vertical link is down, the
threads are held under their numbers, and its thread has no earlier send outstanding. -/
abbrev OldestOf (s : State) (gc : Nat) (a : Access) (p : Part) (rest : List Access) : Prop :=
  (s.core gc).port = a :: rest ∧ (∀ b ∈ rest, b.id ≠ a.id) ∧ a.parts = [p] ∧ a.waiting = false ∧ a.turnedAway = false ∧
  s.Keyed ∧ (∀ e ∈ (s.thread a.tid).sendq, a.id ≤ e.id) ∧ ∀ e ∈ s.pkgs, e.2.linksDown = []

/-- A port's list once its first access has left it: what an acquire of a thread held is taken only then (R188). -/
def portAfter (a : Access) (rest : List Access) : List Access :=
  if a.acq then rest.filter (fun b => b.tid != a.tid) ++ rest.filter (fun b => b.tid == a.tid) else rest

/-! ### Functions, virtual devices, packages -/

/-- Queue `q` of function `fn` becomes `x`, and nothing else changes. -/
structure SetsQueue (s t : State) (fn q : Nat) (x : Queue) : Prop where
  value : t.queue fn q = x
  queues : ∀ k, k ≠ q → t.queue fn k = s.queue fn k
  kept : (t.fn fn).rings = (s.fn fn).rings ∧ (t.fn fn).quote = (s.fn fn).quote
  others : ∀ k, k ≠ fn → t.fn k = s.fn k
  world : t = { s with fns := t.fns }

/-- Event ring `r` of function `fn` becomes `x`, and no other ring, queue or function changes. -/
structure SetsRing (s t : State) (fn r : Nat) (x : Ring) : Prop where
  value : (t.fn fn).rings[r]? = some x
  rings : ∀ k, k ≠ r → (t.fn fn).rings[k]? = (s.fn fn).rings[k]?
  kept : (t.fn fn).queues = (s.fn fn).queues ∧ (t.fn fn).quote = (s.fn fn).quote
  others : ∀ k, k ≠ fn → t.fn k = s.fn k
  world : t = { s with fns := t.fns, mem := t.mem }

/-- The VD of this key becomes `x`, and nothing else changes. -/
structure SetsVd (s t : State) (vk : Nat) (x : Vd) : Prop where
  value : t.vd vk = x
  others : ∀ k, k ≠ vk → t.vd k = s.vd k
  world : t = { s with vds := t.vds }

/-- Package `k` becomes `x`, and nothing else changes. -/
structure SetsPkg (s t : State) (k : Nat) (x : Pkg) : Prop where
  value : t.pkg k = x
  others : ∀ j, j ≠ k → t.pkg j = s.pkg j
  world : t = { s with pkgs := t.pkgs }

/-- Arbiter `k` becomes `x`, and nothing else changes. -/
structure SetsArb (s t : State) (k : Nat) (x : Arbiter) : Prop where
  value : t.arb k = x
  others : ∀ j, j ≠ k → t.arb j = s.arb j
  world : t = { s with arbiters := t.arbiters }

/-- Rings and memory are those of `s` after the event that a VD's command processor posts. -/
def Reported (s t : State) (vk type team i0 i1 : Nat) : Prop :=
  t.fns = (postCp s vk type team i0 i1).fns ∧ t.mem = (postCp s vk type team i0 i1).mem

/-- Rings and memory are those of `s` after the event that the Olush controller of a package posts. -/
def Alarmed (s t : State) (pkg vd type i0 i1 : Nat) : Prop :=
  t.fns = (postOlush s pkg vd type i0 i1).fns ∧ t.mem = (postOlush s pkg vd type i0 i1).mem

/-! ### Vector results -/

/-- The generator after `n` draws under RS, and the draws; none in another mode (R62). -/
def drawsOf (s : State) (rm : Rm) (n : Nat) : BitVec 32 × List Nat := if rm = .rs then drawN n s.thr.rng else (s.thr.rng, [])

/-- A lane-wise result of width `w` in D: `f` where a lane is active under the governing predicate, D's own lane elsewhere
(R116, R117); the generator holds `g`. -/
def LanesDone (sw : Bool) (s t : State) (w : Nat) (pg : PReg) (d : VReg) (g : BitVec 32) (f : Nat → Nat) : Prop :=
  InSequence sw s t ∧ ∃ x, WritesV s t d x g ∧ ∀ i < 1024 / w,
    lane x w i = if activeLane (s.thr.getP pg) w i then f i % 2 ^ w else lane (s.thr.getV d) w i

/-- A whole vector result, `f` in every lane of width `w`. -/
def AllLanesDone (sw : Bool) (s t : State) (w : Nat) (d : VReg) (g : BitVec 32) (f : Nat → Nat) : Prop :=
  InSequence sw s t ∧ ∃ x, WritesV s t d x g ∧ ∀ i < 1024 / w, lane x w i = f i % 2 ^ w

end Sys2Proof.Machine
end

