-- ==== Sys2Proof/Certificates/Slice0/Obligations.lean ====
section
/-! DEFINITION. The statements about this machine, for the provers. -/

open Sys2Proof Sys2Proof.Machine

/-- R86, R87, R95, R97, R99 with R84: an instruction of two scalar sources whose sources are present writes its value to D;
nothing else changes but the position.

R89, R90, R91, R95, R97, R99: an instruction of one scalar source.

R91, R95, R97: the forms with an immediate operand.

R95: BFI puts the low `len` bits of `a` into `b` at `pos`, field bits above 63 dropped.

R89: the counts of CLZ, CTZ and POPC, for any source.

R96: LI and LIW write their constant whatever registers are empty, once no acquire is outstanding (R234); LIX keeps the low half of D, which must be present.

R94: SEL takes `a` where bit 0 of the predicate is one; `p0` reads all ones and is always present. -/
def Obligations.ScalarResults : Prop :=
  (∀ e ∈ ([(.add, fun x y => x + y), (.sub, fun x y => x - y), (.and, fun x y => x &&& y), (.or, fun x y => x ||| y),
      (.xor, fun x y => x ^^^ y), (.andn, fun x y => x &&& ~~~y),
      (.shl, fun x y => x <<< (y.toNat % 64)), (.shr, fun x y => x >>> (y.toNat % 64)),
      (.sar, fun x y => x.sshiftRight (y.toNat % 64)),
      (.rotl, fun x y => (x <<< (y.toNat % 64)) ||| (x >>> (64 - y.toNat % 64))),
      (.min, fun x y => if x.toInt ≤ y.toInt then x else y), (.max, fun x y => if x.toInt ≤ y.toInt then y else x),
      (.minu, fun x y => if x.toNat ≤ y.toNat then x else y), (.maxu, fun x y => if x.toNat ≤ y.toNat then y else x),
      (.mul, fun x y => BitVec.ofNat 64 (x.toNat * y.toNat)),
      (.mulh, fun x y => BitVec.ofInt 64 (x.toInt * y.toInt / 2 ^ 64)),
      (.mulhu, fun x y => BitVec.ofNat 64 (x.toNat * y.toNat / 2 ^ 64)),
      (.padd, fun x y => x.extractLsb' 52 12 ++ (x.extractLsb' 0 52 + y.extractLsb' 0 52)),
      (.pfmt, fun x y => y.extractLsb' 0 12 ++ x.extractLsb' 0 52)] :
      List ((Bool → SReg → Src → Src → Instr) × (Word → Word → Word))),
    ∀ (sw : Bool) (d : SReg) (a b : Src) (s : State), Present s (srcRegs a ++ srcRegs b) →
      Completes (e.1 sw d a b) s fun t => WritesS s t d (e.2 (s.src a) (s.src b)) ∧ InSequence sw s t) ∧
  (∀ (sw : Bool) (d : SReg) (a : Src) (s : State), Present s (srcRegs a) →
    ∀ e ∈ ([(.mov sw d a, s.src a), (.pstrip sw d a, (s.src a) &&& 0x000FFFFFFFFFFFFF#64), (.pget sw d a, (s.src a) >>> 52)] :
        List (Instr × Word)) ++
      (List.finRange 65).flatMap (fun n => if n = 0 then [] else
        [(.sext sw d a (BitVec.ofNat 7 n), ((s.src a).setWidth n).signExtend 64),
         (.zext sw d a (BitVec.ofNat 7 n), ((s.src a).setWidth n).setWidth 64)]),
      Completes e.1 s fun t => WritesS s t d e.2 ∧ InSequence sw s t) ∧
  (∀ (sw : Bool) (d : SReg) (a : Src) (i : BitVec 16) (pos lenm1 : BitVec 6) (s : State), Present s (srcRegs a) →
    ∀ e ∈ ([(.addi sw d a i, s.src a + i.signExtend 64), (.andi sw d a i, s.src a &&& i.signExtend 64),
        (.ori sw d a i, s.src a ||| i.signExtend 64), (.xori sw d a i, s.src a ^^^ i.signExtend 64),
        (.bfx sw d a pos lenm1, BitVec.ofNat 64 ((s.src a).toNat / 2 ^ pos.toNat % 2 ^ (lenm1.toNat + 1))),
        (.paddi sw d a i, (s.src a).extractLsb' 52 12 ++ ((s.src a).extractLsb' 0 52 + i.signExtend 52))] :
        List (Instr × Word)),
      Completes e.1 s fun t => WritesS s t d e.2 ∧ InSequence sw s t) ∧
  (∀ (sw : Bool) (d : SReg) (a b : Src) (pos lenm1 : BitVec 6) (s : State), Present s (srcRegs a ++ srcRegs b) →
    Completes (.bfi sw d a b pos lenm1) s fun t => InSequence sw s t ∧ ∃ x, WritesS s t d x ∧
      ∀ i < 64, x.getLsbD i = if pos.toNat ≤ i ∧ i ≤ pos.toNat + lenm1.toNat
        then (s.src a).getLsbD (i - pos.toNat) else (s.src b).getLsbD i) ∧
  (∀ (sw : Bool) (d : SReg) (a : Src) (s : State), Present s (srcRegs a) →
    Completes (.clz sw d a) s (fun t => InSequence sw s t ∧ ∃ n ≤ 64, WritesS s t d (BitVec.ofNat 64 n) ∧
      (∀ i < n, (s.src a).getLsbD (63 - i) = false) ∧ (n < 64 → (s.src a).getLsbD (63 - n) = true)) ∧
    Completes (.ctz sw d a) s (fun t => InSequence sw s t ∧ ∃ n ≤ 64, WritesS s t d (BitVec.ofNat 64 n) ∧
      (∀ i < n, (s.src a).getLsbD i = false) ∧ (n < 64 → (s.src a).getLsbD n = true)) ∧
    Completes (.popc sw d a) s (fun t => InSequence sw s t ∧
      WritesS s t d (BitVec.ofNat 64 ((List.range 64).filter fun i => (s.src a).getLsbD i).length))) ∧
  (∀ (sw : Bool) (d : SReg) (i : BitVec 16) (w : BitVec 32) (s : State),
    (s.thr.acquiring = false → Completes (.li sw d i) s (fun t => WritesS s t d (i.signExtend 64) ∧ InSequence sw s t) ∧
      Completes (.liw sw d w) s (fun t => WritesS s t d (w.setWidth 64) ∧ InSequence sw s t)) ∧
    (Present s [.s d] → Completes (.lix sw d w) s fun t =>
      WritesS s t d (w ++ (s.thr.getS d).extractLsb' 0 32) ∧ InSequence sw s t)) ∧
  (∀ (sw : Bool) (d : SReg) (a b : Src) (p : PReg) (s : State), Present s (srcRegs a ++ srcRegs b ++ [.p p]) →
    Completes (.sel sw d a b p) s fun t => InSequence sw s t ∧
      WritesS s t d (if (s.thr.getP p).getLsbD 0 then s.src a else s.src b))

/-- R88 with R44 and R46: a division whose sources are present and that finds room in the result buffer puts its result
there: all ones and the dividend for a divisor of zero, truncation toward zero otherwise, and the one overflow wraps. -/
def Obligations.DivisionsAreDeferred : Prop :=
  ∀ e ∈ ([(.div, fun x y => if y = 0 then BitVec.allOnes 64
          else if x = BitVec.intMin 64 ∧ y = BitVec.allOnes 64 then BitVec.intMin 64
          else BitVec.ofInt 64 (if x.toInt < 0 ↔ y.toInt < 0 then ((x.toInt.natAbs / y.toInt.natAbs : Nat) : Int)
            else -((x.toInt.natAbs / y.toInt.natAbs : Nat) : Int))),
      (.divu, fun x y => if y = 0 then BitVec.allOnes 64 else BitVec.ofNat 64 (x.toNat / y.toNat)),
      (.rem, fun x y => if y = 0 then x
          else BitVec.ofInt 64 (x.toInt - y.toInt * (if x.toInt < 0 ↔ y.toInt < 0 then ((x.toInt.natAbs / y.toInt.natAbs : Nat) : Int)
            else -((x.toInt.natAbs / y.toInt.natAbs : Nat) : Int)))),
      (.remu, fun x y => if y = 0 then x else BitVec.ofNat 64 (x.toNat - y.toNat * (x.toNat / y.toNat)))] :
      List ((Bool → SReg → Src → Src → Instr) × (Word → Word → Word))),
    ∀ (sw : Bool) (d : SReg) (a b : Src) (s : State), Present s (srcRegs a ++ srcRegs b) → HasSlot s →
      Completes (e.1 sw d a b) s fun t =>
        Defers s t [.s d (e.2 (s.src a) (s.src b))] true ∧ InSequence sw s t ∧ t = { s with seq := s.seq + 1, thr := t.thr }

/-- R92, R93: a comparison writes 1 or 0 to a scalar, all ones or all zeros to a predicate.

R100: the predicate instructions; a write to `p0` is discarded.

R98: PIDX of a pointer that R79 accepts writes the address of the element, or of the block that holds it, and keeps bits
63:52; of any other it raises FMTBAD with the pointer as its value and writes nothing. -/
def Obligations.ComparisonsPredicatesAndPointers : Prop :=
  (∀ (sw : Bool) (a b : Src) (i : BitVec 16) (c : Cond) (s : State),
    let holds (x y : Word) : Bool := match c with
      | .eq => x = y
      | .ne => x ≠ y
      | .lt => x.toInt < y.toInt
      | .ge => x.toInt ≥ y.toInt
      | .gt => x.toInt > y.toInt
      | .le => x.toInt ≤ y.toInt
      | .ltu => x.toNat < y.toNat
      | .geu => x.toNat ≥ y.toNat
      | .gtu => x.toNat > y.toNat
      | .leu => x.toNat ≤ y.toNat
    (Present s (srcRegs a ++ srcRegs b) →
      (∀ d, Completes (.cmp sw (.s d) a b c) s fun t =>
        WritesS s t d (if holds (s.src a) (s.src b) then 1 else 0) ∧ InSequence sw s t) ∧
      (∀ d, Completes (.cmp sw (.p d) a b c) s fun t =>
        WritesP s t d (if holds (s.src a) (s.src b) then BitVec.allOnes 128 else 0) ∧ InSequence sw s t)) ∧
    (Present s (srcRegs a) →
      (∀ d, Completes (.cmpi sw (.s d) a i c) s fun t =>
        WritesS s t d (if holds (s.src a) (i.signExtend 64) then 1 else 0) ∧ InSequence sw s t) ∧
      (∀ d, Completes (.cmpi sw (.p d) a i c) s fun t =>
        WritesP s t d (if holds (s.src a) (i.signExtend 64) then BitVec.allOnes 128 else 0) ∧ InSequence sw s t))) ∧
  (∀ (sw : Bool) (d a b : PReg) (q : SReg) (s : State), Present s [.p a] →
    (Present s [.p b] → ∀ e ∈ ([(.pand sw d a b, s.thr.getP a &&& s.thr.getP b), (.por sw d a b, s.thr.getP a ||| s.thr.getP b),
        (.pxor sw d a b, s.thr.getP a ^^^ s.thr.getP b)] : List (Instr × PWord)),
      Completes e.1 s fun t => WritesP s t d e.2 ∧ InSequence sw s t) ∧
    Completes (.pnot sw d a) s (fun t => WritesP s t d (~~~s.thr.getP a) ∧ InSequence sw s t) ∧
    Completes (.pmov sw d a) s (fun t => WritesP s t d (s.thr.getP a) ∧ InSequence sw s t) ∧
    Completes (.pcnt sw q a) s (fun t => InSequence sw s t ∧
      WritesS s t q (BitVec.ofNat 64 ((List.range 128).filter fun i => (s.thr.getP a).getLsbD i).length)) ∧
    Completes (.pfirst sw q a) s (fun t => InSequence sw s t ∧ ∃ n ≤ 128, WritesS s t q (BitVec.ofNat 64 n) ∧
      (∀ i < n, (s.thr.getP a).getLsbD i = false) ∧ (n < 128 → (s.thr.getP a).getLsbD n = true))) ∧
  (∀ (sw : Bool) (d : SReg) (a b : Src) (s : State), Present s (srcRegs a ++ srcRegs b) →
    (ptrOk (s.src a) = true → Completes (.pidx sw d a b) s fun t => InSequence sw s t ∧
      WritesS s t d ((s.src a).extractLsb' 52 12 ++ ((s.src a).extractLsb' 0 52 + BitVec.ofInt 52
        (if bpiP (ptrFmt (s.src a)) ≠ 0 then 4 * bpiP (ptrFmt (s.src a)) * ((s.src b).toInt / 32)
          else (s.src b).toInt * fmtSize (ptrFmt (s.src a)))))) ∧
    (ptrOk (s.src a) = false → CanTrap s →
      Completes (.pidx sw d a b) s fun t => TrapsTo s t 0x0F s.thr.pc (s.src a)))

/-! ## Control -/

/-- R102, R104: NOP goes on to the next head; BR transfers to its target; BRZ and BRNZ transfer where all 64 bits of their
source are zero, or are not, and go on to the next head otherwise. None changes a register, the buffer or the world.

R105, R42: JMP and JALR transfer to bits 51:0 of their source, JAL to its target; JAL and JALR write the address of the
head after theirs, and JALR reads its source first.

R105: a jump to an odd address raises ALIGN with the target as its value, and no link is written.

That the target of BR, BRZ, BRNZ and JAL is taken modulo 2^52 is the model's choice (log entry 66: R104 gives an integer). -/
def Obligations.BranchesAndJumps : Prop :=
  (∀ (sw : Bool) (a : Src) (delta : BitVec 11) (h : BitVec 5) (s : State),
    let target := BitVec.ofNat 52 (s.thr.pc.toNat / 64 * 64) + (delta.signExtend 52) * 64 + h.setWidth 52 * 2
    let quiet (t : State) : Prop := KeepsRegs s t ∧ OnlyThread s t
    Completes (.nop sw) s (fun t => quiet t ∧ InSequence sw s t) ∧
    Completes (.br sw delta h) s (fun t => quiet t ∧ TransferTo sw s t target) ∧
    (Present s (srcRegs a) →
      Completes (.brz sw a delta h) s (fun t => quiet t ∧
        if s.src a = 0 then TransferTo sw s t target else InSequence sw s t) ∧
      Completes (.brnz sw a delta h) s (fun t => quiet t ∧
        if s.src a = 0 then InSequence sw s t else TransferTo sw s t target))) ∧
  (∀ (sw : Bool) (d : SReg) (a : Src) (delta : BitVec 11) (h : BitVec 5) (s : State),
    let link : Word := (s.thr.headAfter s.thr.pc).setWidth 64
    (s.thr.acquiring = false → Completes (.jal sw d delta h) s fun t => WritesS s t d link ∧
      TransferTo sw s t (BitVec.ofNat 52 (s.thr.pc.toNat / 64 * 64) + (delta.signExtend 52) * 64 + h.setWidth 52 * 2)) ∧
    (Present s (srcRegs a) → (s.src a).getLsbD 0 = false →
      Completes (.jmp sw a) s (fun t => KeepsRegs s t ∧ OnlyThread s t ∧ TransferTo sw s t ((s.src a).setWidth 52)) ∧
      Completes (.jalr sw d a) s (fun t => WritesS s t d link ∧ TransferTo sw s t ((s.src a).setWidth 52)))) ∧
  (∀ (sw : Bool) (d : SReg) (a : Src) (s : State), Present s (srcRegs a) → (s.src a).getLsbD 0 = true → CanTrap s →
    ∀ i ∈ [Instr.jmp sw a, Instr.jalr sw d a],
      Completes i s fun t => TrapsTo s t 0x03 s.thr.pc (((s.src a).setWidth 52).setWidth 64))

/-- R108: LOOP arms its context with the head after it, the end head and the count, and goes on; a count of zero transfers
to the head after the end head; an armed context raises LOOPBUSY. The end head follows the LOOP, and its line is held and has
it; an end head at or before the LOOP, as integers compare, raises ILLEGAL. An end head 0, or one beyond the head count of its
line, raises LINEFMT with the line's address. -/
def Obligations.LoopArmsItsContext : Prop :=
  ∀ (sw k : Bool) (a : Src) (delta : BitVec 11) (h : BitVec 5) (l : Line) (s : State),
    let e := biTarget s.thr.pc delta h
    let target : Int := ((s.thr.pc.toNat / 64 * 64 : Nat) : Int) + 64 * delta.toInt + 2 * (h.toNat : Int)
    let ctx := if k then s.thr.l1 else s.thr.l0
    (target ≤ (s.thr.pc.toNat : Int) → CanTrap s → Completes (.loop sw k a delta h) s fun t =>
      TrapsTo s t 0x01 s.thr.pc (illegalWord (encode (.loop sw k a delta h)))) ∧
    ((s.thr.pc.toNat : Int) < target → Present s (srcRegs a) → s.thr.lineAt (lineAddr e) = some l →
      h.toNat = 0 ∨ l.n < h.toNat → CanTrap s → Completes (.loop sw k a delta h) s fun t =>
        TrapsTo s t 0x02 s.thr.pc ((lineAddr e).setWidth 64)) ∧
    ((s.thr.pc.toNat : Int) < target → Present s (srcRegs a) → s.thr.lineAt (lineAddr e) = some l → 0 < h.toNat → h.toNat ≤ l.n →
    (ctx.arm = false → s.src a ≠ 0 → Completes (.loop sw k a delta h) s fun t =>
      let armed : Thread := s.thr.setLoop k ⟨true, s.thr.headAfter s.thr.pc, e, s.src a⟩
      KeepsRegs s t ∧ OnlyThread s t ∧ t.thr.pc = armed.next.pc ∧ t.thr.l0 = armed.next.l0 ∧ t.thr.l1 = armed.next.l1 ∧
        Stands sw s t) ∧
    (ctx.arm = false → s.src a = 0 → Completes (.loop sw k a delta h) s fun t =>
      KeepsRegs s t ∧ OnlyThread s t ∧ TransferTo sw s t (s.thr.headAfter e)) ∧
    (ctx.arm = true → CanTrap s → Completes (.loop sw k a delta h) s fun t =>
      TrapsTo s t 0x11 s.thr.pc (if k then 1 else 0)))

/-- R111: LBRK sets ARM of its context to 0 and changes nothing else; execution goes on in sequence. -/
def Obligations.LoopBreakDisarms : Prop :=
  ∀ (sw k : Bool) (s : State), Completes (.lbrk sw k) s fun t =>
    let u : Thread := if k then { s.thr with l1 := { s.thr.l1 with arm := false } }
      else { s.thr with l0 := { s.thr.l0 with arm := false } }
    KeepsRegs s t ∧ OnlyThread s t ∧ t.thr.pc = u.next.pc ∧ t.thr.l0 = u.next.l0 ∧ t.thr.l1 = u.next.l1 ∧ Stands sw s t

/-- R109, R112: what follows a completed head. In handler mode the loops stand still; else l1 and then l0 are matched
against the head: a last trip disarms and falls through, an earlier one goes back to START.

R110, R112: a taken transfer disarms each armed context whose range from START to END does not hold the target, and
leaves its count; in handler mode it leaves the contexts alone. -/
def Obligations.LoopMatchingAndTransfers : Prop :=
  (∀ (t : Thread), let n := t.headAfter t.pc
    (t.hm = true → t.next = { t with pc := n }) ∧
    (t.hm = false →
      let hit (c : LoopCtx) : Prop := c.arm = true ∧ c.stop = t.pc
      (¬ hit t.l1 ∧ ¬ hit t.l0 → t.next = { t with pc := n }) ∧
      (hit t.l1 ∧ 1 < t.l1.count.toNat →
        t.next = { t with pc := t.l1.start, l1 := { t.l1 with count := t.l1.count - 1 } }) ∧
      (hit t.l1 ∧ t.l1.count.toNat ≤ 1 ∧ ¬ hit t.l0 →
        t.next = { t with pc := n, l1 := { t.l1 with arm := false, count := 0 } }) ∧
      (hit t.l1 ∧ t.l1.count.toNat ≤ 1 ∧ hit t.l0 ∧ 1 < t.l0.count.toNat →
        t.next = { t with pc := t.l0.start, l1 := { t.l1 with arm := false, count := 0 },
                          l0 := { t.l0 with count := t.l0.count - 1 } }) ∧
      (hit t.l1 ∧ t.l1.count.toNat ≤ 1 ∧ hit t.l0 ∧ t.l0.count.toNat ≤ 1 →
        t.next = { t with pc := n, l1 := { t.l1 with arm := false, count := 0 },
                          l0 := { t.l0 with arm := false, count := 0 } }) ∧
      (¬ hit t.l1 ∧ hit t.l0 ∧ 1 < t.l0.count.toNat →
        t.next = { t with pc := t.l0.start, l0 := { t.l0 with count := t.l0.count - 1 } }) ∧
      (¬ hit t.l1 ∧ hit t.l0 ∧ t.l0.count.toNat ≤ 1 →
        t.next = { t with pc := n, l0 := { t.l0 with arm := false, count := 0 } }))) ∧
  (∀ (t : Thread) (x : Addr),
    (t.hm = true → t.goto x = { t with pc := x }) ∧
    (t.hm = false → ∀ k : Bool, (t.goto x).loopCtx k =
      { t.loopCtx k with arm := (t.loopCtx k).arm && decide ((t.loopCtx k).start ≤ x ∧ x ≤ (t.loopCtx k).stop) }))

/-! ## Traps -/

/-- R350, R348, R346: TRAP completes and enters the handler: EPC holds the head that follows by loop matching, the cause is
TRAPI, the value the operand; HM is set. ERET in handler mode clears HM and goes on at EPC; outside it, it raises PRIV.

R50, R348: a head that is no instruction raises ILLEGAL; the value shows its units, the head lowest.

R46, R348, R350: with results outstanding a synchronous cause, TRAP and ERET stand at a switch point; once every result has returned
they commit, and the entry or the return follows. Stated of TRAP, of a head that is no instruction, of ERET and of a jump to an odd
address.

R348: with a handler address of 0 the thread retires, its trap registers written, and its cluster posts an event of type 1.

R349: a synchronous cause in handler mode is a double fault: the thread retires, the trap registers keep the first trap's values, and
an event of type 2 shows the new cause and address. Stated of a head that is no instruction, of TRAP and of a jump to an odd address.

R103: HALT with no result outstanding ends the thread; with one outstanding the thread waits for a switch point. -/
def Obligations.TrapsAndEnds : Prop :=
  (∀ (sw : Bool) (n : BitVec 16) (s : State),
    (CanTrap s → Completes (.trap sw n) s fun t => KeepsRegs s t ∧ SameWorld s t ∧
      t.thr.epc = s.thr.next.pc &&& ~~~1#52 ∧ t.thr.cause = 0x10 ∧ t.thr.tval = n.setWidth 64 ∧ t.thr.hm = true ∧
      t.thr.pc = s.thr.tvec ∧ t.thr.l0 = s.thr.next.l0 ∧ t.thr.l1 = s.thr.next.l1) ∧
    (s.thr.hm = true → s.thr.buf = [] → Completes (.eret sw) s fun t => KeepsRegs s t ∧ SameWorld s t ∧
      t.thr.hm = false ∧ t.thr.pc = s.thr.epc ∧ t.thr.l0 = s.thr.l0 ∧ t.thr.l1 = s.thr.l1 ∧
      { t.thr.kept with hm := true } = s.thr.kept) ∧
    (CanTrap s → Completes (.eret sw) s fun t => TrapsTo s t 0x12 s.thr.pc 0)) ∧
  (∀ (head u0 u1 u2 : BitVec 16) (s : State), CanTrap s →
    Completes (.encodingNotAnInstruction head u0 u1 u2) s fun t => TrapsTo s t 0x01 s.thr.pc (u2 ++ u1 ++ u0 ++ head)) ∧
  (∀ (sw : Bool) (n head u0 u1 u2 : BitVec 16) (a : Src) (s : State), s.thr.buf ≠ [] →
    let stands (t : State) (code : Nat) (tval : Word) : Prop :=
      AtSwitchPoint s t s.thr.pc s.thr.l0 s.thr.l1 (.trap false code s.thr.pc tval none)
    (s.thr.hm = false →
      Completes (.encodingNotAnInstruction head u0 u1 u2) s (fun t => stands t 0x01 (u2 ++ u1 ++ u0 ++ head)) ∧
      Completes (.eret sw) s (fun t => stands t 0x12 0) ∧
      (Present s (srcRegs a) → (s.src a).getLsbD 0 = true → Completes (.jmp sw a) s fun t =>
        stands t 0x03 (((s.src a).setWidth 52).setWidth 64)) ∧
      Completes (.trap sw n) s fun t => AtSwitchPoint s t s.thr.next.pc s.thr.next.l0 s.thr.next.l1
        (.trap false 0x10 s.thr.next.pc (n.setWidth 64) none)) ∧
    (s.thr.hm = true → Completes (.eret sw) s fun t => AtSwitchPoint s t s.thr.pc s.thr.l0 s.thr.l1 .eret)) ∧
  (∀ (async : Bool) (code : Nat) (epc : Addr) (tval : Word) (fsrc : Option Word) (s : State),
    (∀ e ∈ s.thr.buf, e.returned = true) → (s.core s.gc).landing = [] →
    let u := s.thr.commit
    let commits (t : State) : Prop := SameS u t.thr [] ∧ SameV u t.thr [] ∧ SameP u t.thr [] ∧ t.thr.buf = [] ∧
      t.thr.pend = u.pend ∧ t.thr.l0 = s.thr.l0 ∧ t.thr.l1 = s.thr.l1 ∧ SameWorld s t
    (s.thr.st = .switchWait (.trap async code epc tval fsrc) → s.thr.tvec ≠ 0 → Completes (.switchPointCommit s.thr.id) s fun t =>
      commits t ∧ t.thr.st = .ready ∧ t.thr.epc = epc &&& ~~~1#52 ∧
      t.thr.cause = (if async then 0x8000000000000000#64 else 0) ||| BitVec.ofNat 64 code ∧ t.thr.tval = tval ∧
      t.thr.fsrc = fsrc.getD s.thr.fsrc ∧ t.thr.hm = true ∧ t.thr.pc = s.thr.tvec) ∧
    (s.thr.st = .switchWait .eret → Completes (.switchPointCommit s.thr.id) s fun t =>
      commits t ∧ t.thr.st = .ready ∧ t.thr.hm = false ∧ t.thr.pc = s.thr.epc) ∧
    (s.thr.st = .switchWait .halt → Completes (.switchPointCommit s.thr.id) s fun t =>
      (t.thread s.thr.id).st = .retired ∧ t.mem = s.mem)) ∧
  (∀ (sw : Bool) (n head u0 u1 u2 : BitVec 16) (a : Src) (s : State), s.thr.hm = false → s.thr.buf = [] → s.thr.tvec = 0 →
    let ends (t : State) (code : Nat) (epc : Addr) (tval : Word) : Prop := RetiresWith s t 1 code (epc &&& ~~~1#52) tval ∧
      (t.thread s.thr.id).epc = epc &&& ~~~1#52 ∧ (t.thread s.thr.id).cause = BitVec.ofNat 64 code ∧
      (t.thread s.thr.id).tval = tval ∧ (t.thread s.thr.id).hm = true
    Completes (.encodingNotAnInstruction head u0 u1 u2) s (fun t => ends t 0x01 s.thr.pc (u2 ++ u1 ++ u0 ++ head)) ∧
    Completes (.trap sw n) s (fun t => ends t 0x10 s.thr.next.pc (n.setWidth 64)) ∧
    Completes (.eret sw) s (fun t => ends t 0x12 s.thr.pc 0) ∧
    (Present s (srcRegs a) → (s.src a).getLsbD 0 = true → Completes (.jmp sw a) s fun t =>
      ends t 0x03 s.thr.pc (((s.src a).setWidth 52).setWidth 64))) ∧
  (∀ (sw : Bool) (n head u0 u1 u2 : BitVec 16) (a : Src) (s : State), s.thr.hm = true →
    let dead (t : State) (code : Nat) (pc : Addr) (tval : Word) : Prop := RetiresWith s t 2 code pc tval ∧
      (t.thread s.thr.id).epc = s.thr.epc ∧ (t.thread s.thr.id).cause = s.thr.cause ∧ (t.thread s.thr.id).tval = s.thr.tval
    Completes (.encodingNotAnInstruction head u0 u1 u2) s (fun t => dead t 0x01 s.thr.pc (u2 ++ u1 ++ u0 ++ head)) ∧
    Completes (.trap sw n) s (fun t => dead t 0x10 s.thr.next.pc (n.setWidth 64)) ∧
    (Present s (srcRegs a) → (s.src a).getLsbD 0 = true → Completes (.jmp sw a) s fun t =>
      dead t 0x03 s.thr.pc (((s.src a).setWidth 52).setWidth 64))) ∧
  (∀ (sw : Bool) (s : State),
    (s.thr.buf = [] → Completes (.halt sw) s fun t => (t.thread s.thr.id).st = .retired ∧ t.mem = s.mem ∧
      (t.thread s.thr.id).sregs = s.thr.sregs) ∧
    (s.thr.buf ≠ [] → Completes (.halt sw) s fun t => t.thr.st = .switchWait .halt ∧ KeepsRegs s t ∧ SameWorld s t))

/-- R351, R346, with the register maps of R14, R63, R107, R143, R144, R159, R172, R177, R178, R194, R206, R217, R219, R261, R280, R285,
R320, R328, R336, R358, R389, R393, R396, R401, R414, R445 and R448: CTLR's result is the register as it stands; a number that no
register has raises ILLEGAL.

CTLW writes the fields that the register's map gives as writable and leaves the others, and the next head follows: the loop contexts
are matched as they are written (R113). A write of ctl.tags clears the bits that are one in it, ctl.lands and ctl.landv keep the old
mode of a pair written with 3, and a write of a read-only register changes nothing. Outside handler mode a write of ctl.epc, ctl.cause
or ctl.tval raises PRIV with the register number as its value; a number that no register has raises ILLEGAL. -/
def Obligations.ControlRegisters : Prop :=
  (∀ (sw : Bool) (d : SReg) (s : State), HasSlot s → s.thr.acquiring = false →
    let x := s.thr
    let pkg := s.pkg (pkgOfThread x.id)
    let v := s.vd x.vk
    let c := s.core s.gc
    let g := c.grantOf x.vk
    let r := s.router (s.routerOf s.gc)
    let ofTeam (f : Team → Word) : Word := match s.findTeam x.vd x.teamNum with
      | some y => f y
      | none => 0
    let n (k : Nat) : Word := BitVec.ofNat 64 k
    let loop (c : LoopCtx) : Word := (if c.arm then 0x8000000000000000#64 else 0) ||| c.start.setWidth 64
    let wear := tblGet pkg.wear (pkg.physCluster (clusterOf s.gc % 128)) Wear.blank
    let m := massifOf s.gc
    ∀ e ∈ ([(0x000, (c.tagsOf x.vk).bits), (0x001, n (s.time (pkgOfThread x.id))), (0x002, x.shape), (0x003, x.shapex),
        (0x004, x.self), (0x005, x.place), (0x006, x.args), (0x007, x.team), (0x008, x.groups),
        (0x010, loop x.l0), (0x011, x.l0.stop.setWidth 64), (0x012, x.l0.count),
        (0x013, loop x.l1), (0x014, x.l1.stop.setWidth 64), (0x015, x.l1.count), (0x018, x.rng.setWidth 64),
        (0x020, x.tvec.setWidth 64), (0x021, x.epc.setWidth 64), (0x022, x.cause), (0x023, x.tval),
        (0x024, n (min x.pend.length 15 * 16 + if x.hm then 1 else 0)), (0x025, x.tscratch), (0x026, x.fsrc),
        (0x028, x.wdog.setWidth 64), (0x029, x.syncl.setWidth 64), (0x030, x.lands), (0x031, x.landv.setWidth 64),
        (0x032, x.capgen.setWidth 64), (0x038, (c.mpartOf x.vk).shown), (0x039, n (g.bufs.toNat * 2 ^ 8 + g.accs.toNat)),
        (0x03A, x.mgrp.setWidth 64), (0x040, n (g.spLimit * 2 ^ 8 + g.spBase)), (0x041, n (v.smax * 2 ^ 8 + v.ways)),
        (0x042, n v.sways), (0x043, ofTeam fun y => y.spill), (0x044, v.trig.setWidth 64), (0x045, n (v.remaps.foldl (fun x w => x + 2 ^ w.1) 0))] ++
      [(0x080, ofTeam fun y => n (y.progTotal.toNat * 2 ^ 32 + (doneSeen s x y).toNat)),
        (0x081, ofTeam fun y => n (y.restarts.toNat * 2 ^ 56 + y.mark.toNat)), (0x082, ofTeam fun y => y.cdone.setWidth 64),
        (0x083, ofTeam fun y => y.ctxsave), (0x088, n x.vd), (0x089, x.tcls.setWidth 64),
        (0x08A, n (if pkg.withheld.contains m then 0 else c.factor)),
        (0x0A0, n ((64 - r.pinned x.vk) * 2 ^ 8 + r.pinned x.vk)), (0x0B0, n (pkg.rmode.toNat * 2 ^ 4 + v.rmode.toNat)),
        (0x0B1, n (min (tblGet v.eccUe m 0) 0xFFFF * 2 ^ 32 + min (tblGet v.eccCe m 0) 0xFFFFFFFF)),
        (0x0B2, n (wear.life * 2 ^ 24 + wear.guard * 2 ^ 16 + wear.index))] ++
      (List.range 9).map fun k => (BitVec.ofNat 10 (0x090 + k), let q := v.rateOf k
        n (blocking s (pkgOfThread x.id) k * 2 ^ 48 + (if q.borrow then 2 ^ 39 else 0) + (if q.lend then 2 ^ 38 else 0) +
          q.depth * 2 ^ 24 + q.rate)) : List (BitVec 10 × Word)),
    Completes (.ctlr sw d e.1) s fun t =>
      Defers s t [.s d e.2] true ∧ InSequence sw s t ∧ t = { s with seq := s.seq + 1, thr := t.thr }) ∧
  (∀ (sw : Bool) (d : SReg) (num : BitVec 10) (a : Src) (s : State), CanTrap s →
    num.toNat ∉ List.range 9 ++ [0x010, 0x011, 0x012, 0x013, 0x014, 0x015, 0x018, 0x020, 0x021, 0x022, 0x023, 0x024, 0x025, 0x026,
      0x028, 0x029, 0x030, 0x031, 0x032, 0x038, 0x039, 0x03A, 0x040, 0x041, 0x042, 0x043, 0x044, 0x045, 0x080, 0x081, 0x082, 0x083,
      0x088, 0x089, 0x08A] ++ (List.range 9).map (0x090 + ·) ++ [0x0A0, 0x0B0, 0x0B1, 0x0B2] →
    Completes (.ctlr sw d num) s (fun t => TrapsTo s t 0x01 s.thr.pc (illegalWord (encode (.ctlr sw d num)))) ∧
    Completes (.ctlw sw num a) s fun t => TrapsTo s t 0x01 s.thr.pc (illegalWord (encode (.ctlw sw num a)))) ∧
  (∀ (sw : Bool) (num : BitVec 10) (a : Src) (s : State), Present s (srcRegs a) →
    let x := s.src a
    let k := s.thr.kept
    let addr := x.setWidth 52 &&& ~~~1#52
    let becomes (num : BitVec 10) (y : Thread) : Prop := Completes (.ctlw sw num a) s fun t =>
      KeepsRegs s t ∧ SameWorld s t ∧ InSequence sw s t ∧ t.thr.kept = y
    (∀ e ∈ ([(0x018, { k with rng := x.setWidth 32 }), (0x020, { k with tvec := addr }), (0x025, { k with tscratch := x }),
        (0x028, { k with wdog := x.setWidth 32 }), (0x029, { k with syncl := x.setWidth 8 }), (0x03A, { k with mgrp := x.setWidth 8 }),
        (0x089, { k with tcls := x.setWidth 2 })] : List (BitVec 10 × Thread)), becomes e.1 e.2) ∧
    (s.thr.hm = true → ∀ e ∈ ([(0x021, { k with epc := addr }), (0x022, { k with cause := x &&& 0x800000000000003F#64 }),
        (0x023, { k with tval := x })] : List (BitVec 10 × Thread)), becomes e.1 e.2) ∧
    (∀ e ∈ (List.range' 1 8 ++ [0x024, 0x026, 0x032, 0x038, 0x039, 0x040, 0x041, 0x042, 0x043, 0x044, 0x045, 0x081, 0x082, 0x083,
        0x088, 0x08A] ++ (List.range 9).map (0x090 + ·) ++ [0x0A0, 0x0B0, 0x0B1, 0x0B2]), becomes (BitVec.ofNat 10 e) k) ∧
    (num ∈ [0x021, 0x022, 0x023] → CanTrap s → Completes (.ctlw sw num a) s fun t =>
      TrapsTo s t 0x12 s.thr.pc (num.setWidth 64)) ∧
    (∀ e ∈ ([(0x010, { s.thr with l0 := { s.thr.l0 with arm := x.getLsbD 63, start := addr } }),
        (0x011, { s.thr with l0 := { s.thr.l0 with stop := addr } }), (0x012, { s.thr with l0 := { s.thr.l0 with count := x } }),
        (0x013, { s.thr with l1 := { s.thr.l1 with arm := x.getLsbD 63, start := addr } }),
        (0x014, { s.thr with l1 := { s.thr.l1 with stop := addr } }), (0x015, { s.thr with l1 := { s.thr.l1 with count := x } })] :
        List (BitVec 10 × Thread)), Completes (.ctlw sw e.1 a) s fun t => KeepsRegs s t ∧ OnlyThread s t ∧
      t.thr.pc = e.2.next.pc ∧ t.thr.l0 = e.2.next.l0 ∧ t.thr.l1 = e.2.next.l1 ∧ Stands sw s t) ∧
    (Completes (.ctlw sw 0x080 a) s fun t => Passes sw s t ∧ t = { s with thr := t.thr, teams := t.teams } ∧
      t.teams = s.teams.map fun y => if y.vd = s.thr.vd ∧ y.num = s.thr.teamNum then { y with progTotal := x.extractLsb' 32 32 } else y) ∧
    (tagWaiters s s.gc s.thr.vk = [] → Completes (.ctlw sw 0x000 a) s fun t => KeepsRegs s t ∧ InSequence sw s t ∧ t.thr.kept = k ∧ t.mem = s.mem ∧
      ((t.core s.gc).tagsOf s.thr.vk).bits = ((s.core s.gc).tagsOf s.thr.vk).bits &&& ~~~x ∧
      ((t.core s.gc).tagsOf s.thr.vk).stat = ((s.core s.gc).tagsOf s.thr.vk).stat) ∧
    ((s.core s.gc).landing = [] →
      Completes (.ctlw sw 0x030 a) s (fun t => KeepsRegs s t ∧ SameWorld s t ∧ InSequence sw s t ∧
        { t.thr.kept with lands := k.lands } = k ∧ ∀ i < 32, t.thr.lands.extractLsb' (2 * i) 2 =
          if x.extractLsb' (2 * i) 2 = 3 then s.thr.lands.extractLsb' (2 * i) 2 else x.extractLsb' (2 * i) 2) ∧
      Completes (.ctlw sw 0x031 a) s fun t => KeepsRegs s t ∧ SameWorld s t ∧ InSequence sw s t ∧
        { t.thr.kept with landv := k.landv } = k ∧ ∀ i < 16, t.thr.landv.extractLsb' (2 * i) 2 =
          if x.extractLsb' (2 * i) 2 = 3 then s.thr.landv.extractLsb' (2 * i) 2 else x.extractLsb' (2 * i) 2))

/-! ## Vectors -/

/-- R122, R123, R124, R117, R62: the element arithmetic of two and three sources in each active lane: exact on integers and
then narrowed, rounded once on floating types; inactive lanes keep D's.

R122, R123, R124: VMIN and VMAX, VABS and VNEG, and VMULH's high half, in each active lane, drawing nothing.

R125: the bitwise forms, the shifts by an amount taken modulo the lane's width, and VPOPC. -/
def Obligations.ElementResults : Prop :=
  (∀ (sw : Bool) (ty : Ty) (rm : Rm) (sat : Bool) (pg : PReg) (d a b c : VReg) (s : State),
    let w := ty.width
    let us := drawsOf s rm (1024 / w)
    let x (r : VReg) (i : Nat) : Nat := lane (s.thr.getV r) w i
    let ival (r : VReg) (i : Nat) : Int := intOf ty (x r i)
    let fval (r : VReg) (i : Nat) : Val := (fmtOf ty).decode (x r i)
    let result (i : Nat) (exact : Int) (v : Val) : Nat :=
      if ty.isInt then narrow ty sat exact else (fmtOf ty).round rm sat (us.2.getD i 0) v
    (Present s ([.v a, .v b] ++ govRegs pg (.v d)) →
      Completes (.vadd sw ty rm sat pg d a b) s (fun t => LanesDone sw s t w pg d us.1 fun i =>
        result i (ival a i + ival b i) (addV rm (fval a i) (fval b i))) ∧
      Completes (.vsub sw ty rm sat pg d a b) s (fun t => LanesDone sw s t w pg d us.1 fun i =>
        result i (ival a i - ival b i) (addV rm (fval a i) (fval b i).neg)) ∧
      Completes (.vmul sw ty rm sat pg d a b) s (fun t => LanesDone sw s t w pg d us.1 fun i =>
        result i (ival a i * ival b i) (mulV (fval a i) (fval b i)))) ∧
    (Present s ([.v a, .v b, .v c] ++ govRegs pg (.v d)) →
      Completes (.vfma sw ty rm sat pg d a b c) s (fun t => LanesDone sw s t w pg d us.1 fun i =>
        result i (ival a i * ival b i + ival c i) (addV rm (mulV (fval a i) (fval b i)) (fval c i))) ∧
      Completes (.vfms sw ty rm sat pg d a b c) s (fun t => LanesDone sw s t w pg d us.1 fun i =>
        result i (ival a i * ival b i - ival c i) (addV rm (mulV (fval a i) (fval b i)) (fval c i).neg)))) ∧
  (∀ (sw : Bool) (ty : Ty) (sat : Bool) (pg : PReg) (d a b : VReg) (s : State),
    let w := ty.width
    let x (r : VReg) (i : Nat) : Nat := lane (s.thr.getV r) w i
    let ival (r : VReg) (i : Nat) : Int := intOf ty (x r i)
    let fval (r : VReg) (i : Nat) : Val := (fmtOf ty).decode (x r i)
    let fbits (v : Val) : Nat := (fmtOf ty).round .rne false 0 v
    (Present s ([.v a, .v b] ++ govRegs pg (.v d)) →
      Completes (.vmin sw ty pg d a b) s (fun t => LanesDone sw s t w pg d s.thr.rng fun i =>
        if ty.isInt then narrow ty false (if ival a i ≤ ival b i then ival a i else ival b i)
        else fbits (minV (fval a i) (fval b i))) ∧
      Completes (.vmax sw ty pg d a b) s (fun t => LanesDone sw s t w pg d s.thr.rng fun i =>
        if ty.isInt then narrow ty false (if ival a i ≤ ival b i then ival b i else ival a i)
        else fbits (maxV (fval a i) (fval b i))) ∧
      Completes (.vmulh sw ty pg d a b) s (fun t => LanesDone sw s t w pg d s.thr.rng fun i =>
        (BitVec.ofInt w (ival a i * ival b i / 2 ^ w)).toNat)) ∧
    (Present s ([.v a] ++ govRegs pg (.v d)) →
      Completes (.vabs sw ty sat pg d a) s (fun t => LanesDone sw s t w pg d s.thr.rng fun i =>
        if ty.isInt then narrow ty sat (if ival a i < 0 then -ival a i else ival a i) else fbits (fval a i).abs) ∧
      Completes (.vneg sw ty sat pg d a) s (fun t => LanesDone sw s t w pg d s.thr.rng fun i =>
        if ty.isInt then narrow ty sat (-ival a i) else fbits (fval a i).neg))) ∧
  (∀ (sw : Bool) (sz : Sz) (pg : PReg) (d a b : VReg) (s : State),
    let w := sz.bits
    let x (r : VReg) (i : Nat) : BitVec w := BitVec.ofNat w (lane (s.thr.getV r) w i)
    let n (i : Nat) : Nat := lane (s.thr.getV b) w i % 32 % w
    let done (t : State) (f : Nat → BitVec w) : Prop := LanesDone sw s t w pg d s.thr.rng fun i => (f i).toNat
    (Present s ([.v a, .v b] ++ govRegs pg (.v d)) →
      Completes (.vand sw sz pg d a b) s (fun t => done t fun i => x a i &&& x b i) ∧
      Completes (.vor sw sz pg d a b) s (fun t => done t fun i => x a i ||| x b i) ∧
      Completes (.vxor sw sz pg d a b) s (fun t => done t fun i => x a i ^^^ x b i) ∧
      Completes (.vshl sw sz pg d a b) s (fun t => done t fun i => x a i <<< n i) ∧
      Completes (.vshr sw sz pg d a b) s (fun t => done t fun i => x a i >>> n i) ∧
      Completes (.vsar sw sz pg d a b) s (fun t => done t fun i => (x a i).sshiftRight (n i))) ∧
    (Present s ([.v a] ++ govRegs pg (.v d)) → Completes (.vpopc sw sz pg d a) s fun t =>
      LanesDone sw s t w pg d s.thr.rng fun i => ((List.range w).filter fun k => (x a i).getLsbD k).length))

/-- R127, R128: selecting and moving lanes: VSEL reads no D, VINS reads all of it, VEXT writes a scalar.

R126: VCMP writes every predicate bit of an active lane alike, and D's bits elsewhere; a write to `p0` is discarded. -/
def Obligations.LaneMovesAndComparisons : Prop :=
  (∀ (sw : Bool) (sz : Sz) (pg : PReg) (d a b : VReg) (q : SReg) (x : Src) (k : BitVec 16) (s : State),
    let w := sz.bits
    let n := 1024 / w
    let at_ (r : VReg) (i : Nat) : Nat := lane (s.thr.getV r) w i
    k.toNat < n →
    (Present s [.v a, .v b, .p pg] → Completes (.vsel sw sz pg d a b) s fun t =>
      AllLanesDone sw s t w d s.thr.rng fun i => if activeLane (s.thr.getP pg) w i then at_ a i else at_ b i) ∧
    (Present s (srcRegs x ++ govRegs pg (.v d)) → Completes (.vbcast sw sz pg d x) s fun t =>
      LanesDone sw s t w pg d s.thr.rng fun _ => (s.src x).toNat) ∧
    (Present s (srcRegs x ++ [.v d]) → Completes (.vins sw sz d x k) s fun t =>
      AllLanesDone sw s t w d s.thr.rng fun i => if i = k.toNat then (s.src x).toNat else at_ d i) ∧
    (Present s [.v a] → Completes (.vext sw sz q a k) s fun t =>
      InSequence sw s t ∧ WritesS s t q (BitVec.ofNat 64 (at_ a k.toNat))) ∧
    (Present s ([.v a, .v b] ++ govRegs pg (.v d)) → Completes (.vshuf sw sz pg d a b) s fun t =>
      LanesDone sw s t w pg d s.thr.rng fun i => at_ a (at_ b i % n)) ∧
    (Present s ([.v a] ++ govRegs pg (.v d)) → Completes (.vrot sw sz pg d a k) s fun t =>
      LanesDone sw s t w pg d s.thr.rng fun i => at_ a ((i + k.toNat) % n))) ∧
  (∀ (sw : Bool) (ty : Ty) (pg d : PReg) (a b : VReg) (c : Cond) (s : State),
    Present s ([.v a, .v b] ++ govRegs pg (.p d)) →
    Completes (.vcmp sw ty pg d a b c) s fun t => InSequence sw s t ∧ ∃ x, WritesP s t d x ∧
      ∀ j < 128, let i := j / (ty.width / 8)
        x.getLsbD j = if (s.thr.getP pg).getLsbD (i * (ty.width / 8))
          then laneCond ty c (lane (s.thr.getV a) ty.width i) (lane (s.thr.getV b) ty.width i)
          else (s.thr.getP d).getLsbD j)

/-- R129: VCVT converts as many elements as the wider type has lanes and clears the rest of D.

R131, R132: VQNT writes the plane words of a fresh block, zeros and the exponent in lane 31; VDQNT to `.i32` gives the
code that the first q planes spell, and to a floating type the rounded scaled value, +0 for the exponent 0 and NaN for 255. -/
def Obligations.ConversionsAndBlocks : Prop :=
  (∀ (sw : Bool) (dty sty : Ty) (rm : Rm) (sat : Bool) (pg : PReg) (d a : VReg) (s : State),
    Present s ([.v a] ++ govRegs pg (.v d)) →
    let n := 1024 / max dty.width sty.width
    let us := drawsOf s rm n
    Completes (.vcvt sw dty sty rm sat pg d a) s fun t => AllLanesDone sw s t dty.width d us.1 fun j =>
      if n ≤ j then 0
      else if activeLane (s.thr.getP pg) dty.width j
        then convert dty sty rm sat (us.2.getD j 0) (lane (s.thr.getV a) sty.width j)
        else lane (s.thr.getV d) dty.width j) ∧
  (∀ (sw : Bool) (ty : Ty) (rm : Rm) (sat : Bool) (pg : PReg) (pm2 rpl : BitVec 3) (d a : VReg) (c : Src) (s : State),
    let p := pm2.toNat + 2
    let q := if rpl = 0 then p else rpl.toNat + 1
    (p ≤ 8 → Present s [.v a, .p pg] →
      let us := drawsOf s rm 32
      let block := quantize p rm us.2 ((List.range 32).map fun j =>
        if activeLane (s.thr.getP pg) ty.width j then valOf ty (lane (s.thr.getV a) ty.width j) else .fin false 0 0)
      Completes (.vqnt sw ty rm pg pm2 d a) s fun t => AllLanesDone sw s t 32 d us.1 fun i =>
        if i < p then (bpiPlanes p block.2).getD i 0 else if i = 31 then block.1 else 0) ∧
    (q ≤ p → Present s ([.v a] ++ srcRegs c ++ govRegs pg (.v d)) →
      let us := if ty.isInt then (s.thr.rng, []) else drawsOf s rm 32
      let planes := (List.range q).map fun i => lane (s.thr.getV a) 32 i
      let e := (s.src c).toNat % 256
      Completes (.vdqnt sw ty rm sat pg pm2 rpl d a c) s fun t => AllLanesDone sw s t ty.width d us.1 fun j =>
        if 32 ≤ j then 0
        else if activeLane (s.thr.getP pg) ty.width j then
          if ty.isInt then (BitVec.ofInt 32 (bpiCode planes j)).toNat
          else (fmtOf ty).round rm sat (us.2.getD j 0)
            (if e = 0 then .fin false 0 0 else if e = 255 then .nan else ofInt (bpiCode planes j) |>.scale (p - q + e - 127))
        else lane (s.thr.getV d) ty.width j))

/-- R134: the integer reductions over the active lanes are exact, and the floating ones give the f32 of the extreme, or of
the sum along the fixed tree of pairs, each inactive lane entering as the identity.

R135: lane i of VSCAN's result, where active, is the running prefix up to i: each step adds the lane, or the identity
where it is inactive, and narrows or rounds into the lane's own format; RS takes one draw for each lane. -/
def Obligations.ReductionsAndScans : Prop :=
  (∀ (sw : Bool) (ty : Ty) (rm : Rm) (pg : PReg) (d : SReg) (a : VReg) (s : State), Present s [.v a, .p pg] →
    let w := ty.width
    let n := 1024 / w
    let on (i : Nat) : Bool := activeLane (s.thr.getP pg) w i
    let ints := ((List.range n).filter on).map fun i => intOf ty (lane (s.thr.getV a) w i)
    let vals := ((List.range n).filter on).map fun i => (fmtOf ty).decode (lane (s.thr.getV a) w i)
    (ty.isInt = true → Completes (.vredsum sw ty rm pg d a) s fun t =>
      InSequence sw s t ∧ WritesS s t d (BitVec.ofInt 64 ints.sum)) ∧
    (ty.isInt = true → Completes (.vredmax sw ty pg d a) s fun t => InSequence sw s t ∧
      ∃ m, WritesS s t d (BitVec.ofInt 64 m) ∧ (∀ x ∈ ints, x ≤ m) ∧ (m ∈ ints ∨ m = minOfTy ty)) ∧
    (ty.isInt = true → Completes (.vredmin sw ty pg d a) s fun t => InSequence sw s t ∧
      ∃ m, WritesS s t d (BitVec.ofInt 64 m) ∧ (∀ x ∈ ints, m ≤ x) ∧ (m ∈ ints ∨ m = maxOfTy ty)) ∧
    (ty.isInt = false → Completes (.vredmax sw ty pg d a) s fun t => InSequence sw s t ∧
      WritesS s t d (BitVec.ofNat 64 (fF32.round .rne false 0 (vals.foldl maxV (.inf true))))) ∧
    (ty.isInt = false → Completes (.vredmin sw ty pg d a) s fun t => InSequence sw s t ∧
      WritesS s t d (BitVec.ofNat 64 (fF32.round .rne false 0 (vals.foldl minV (.inf false))))) ∧
    (ty.isInt = false → Completes (.vredsum sw ty rm pg d a) s fun t => InSequence sw s t ∧
      let us := drawsOf s rm (n - 1)
      t.thr.rng = us.1 ∧
      ∃ level : Nat → Nat → Nat,
        WritesS s { t with thr := { t.thr with rng := s.thr.rng } } d (BitVec.ofNat 64 (level (Nat.log2 n) 0)) ∧
        (∀ i < n, level 0 i = if on i then fF32.round .rne false 0 ((fmtOf ty).decode (lane (s.thr.getV a) w i))
          else 0x80000000) ∧
        ∀ k < Nat.log2 n, ∀ i < n / 2 ^ (k + 1), level (k + 1) i =
          fF32.round rm false (us.2.getD (n - n / 2 ^ k + i) 0)
            (addV rm (fF32.decode (level k (2 * i))) (fF32.decode (level k (2 * i + 1)))))) ∧
  (∀ (sw : Bool) (ty : Ty) (rm : Rm) (sat : Bool) (pg : PReg) (d a : VReg) (s : State),
    Present s ([.v a] ++ govRegs pg (.v d)) →
    let w := ty.width
    let us := drawsOf s rm (1024 / w)
    let on (i : Nat) : Bool := activeLane (s.thr.getP pg) w i
    let z : Nat := if ty.isInt then 0 else (fmtOf ty).sign true
    let x (i : Nat) : Nat := if on i then lane (s.thr.getV a) w i else z
    let step (acc i : Nat) : Nat :=
      if ty.isInt then narrow ty sat (intOf ty acc + intOf ty (x i))
      else (fmtOf ty).round rm false (us.2.getD i 0) (addV rm ((fmtOf ty).decode acc) ((fmtOf ty).decode (x i)))
    Completes (.vscan sw ty rm sat pg d a) s fun t => ∃ pre : Nat → Nat,
      LanesDone sw s t w pg d us.1 pre ∧ pre 0 = step z 0 ∧ ∀ i, i + 1 < 1024 / w → pre (i + 1) = step (pre i) (i + 1))

/-- R137, R138: the reciprocal, root, power and logarithm are deferred: each active lane of the result is the value rounded
once, inactive lanes are D's at issue; D itself keeps its value until the result commits.

R137: what is rounded: the special cases of the table; 2^a of an integer and log2 of a power of two exactly; 1 / a and 1 / √a exactly or
as a dyadic of more than 62 bits that is odd and lies between the two even ones around the exact value, so that one rounding of it is one
rounding of the exact value. That form of an inexact value is the model's (log entry 25), which for 2^a and log2 a in the cases not named
here says how far the work is carried.

R139: VDOT4 adds four products of 8-bit lanes to a 32-bit lane, exactly, and narrows or rounds once. -/
def Obligations.SpecialFunctionsAndDotProducts : Prop :=
  (∀ e ∈ ([(.vrcp, rcpV), (.vrsq, rsqV), (.vexp2, exp2V), (.vlog2, log2V)] :
      List ((Bool → Ty → Rm → Bool → PReg → VReg → VReg → Instr) × (Val → Val))),
    ∀ (sw : Bool) (ty : Ty) (rm : Rm) (sat : Bool) (pg : PReg) (d a : VReg) (s : State),
      Present s ([.v a] ++ govRegs pg (.v d)) → HasSlot s →
      let w := ty.width
      let us := drawsOf s rm (1024 / w)
      Completes (e.1 sw ty rm sat pg d a) s fun t => ∃ x,
        SameS s.thr t.thr [] ∧ SameV s.thr t.thr [] ∧ SameP s.thr t.thr [] ∧ InSequence sw s t ∧ t.thr.rng = us.1 ∧
        t = { s with seq := s.seq + 1, thr := t.thr } ∧
        t.thr.buf = s.thr.buf ++ [⟨s.seq, s.thr.pc, [.v d x], .plain, true, false, none, false⟩] ∧
        ∀ i < 1024 / w, lane x w i = if activeLane (s.thr.getP pg) w i
          then (fmtOf ty).round rm sat (us.2.getD i 0) (e.2 ((fmtOf ty).decode (lane (s.thr.getV a) w i))) % 2 ^ w
          else lane (s.thr.getV d) w i) ∧
  ((∀ e, [rcpV, rsqV, exp2V, log2V].map (fun f => f (.fin false 0 e)) = [.inf false, .inf false, .fin false 1 0, .inf true]) ∧
    (∀ e, [rcpV, rsqV, exp2V, log2V].map (fun f => f (.fin true 0 e)) = [.inf true, .inf true, .fin false 1 0, .inf true]) ∧
    [rcpV, rsqV, exp2V, log2V].map (fun f => f (.inf false)) = [.fin false 0 0, .fin false 0 0, .inf false, .inf false] ∧
    [rcpV, rsqV, exp2V, log2V].map (fun f => f (.inf true)) = [.fin true 0 0, .nan, .fin false 0 0, .nan] ∧
    [rcpV, rsqV, exp2V, log2V].map (fun f => f .nan) = [.nan, .nan, .nan, .nan] ∧
    (∀ m e, 0 < m → rsqV (.fin true m e) = .nan ∧ log2V (.fin true m e) = .nan) ∧
    (∀ k : Int, k.natAbs < 2 ^ 20 → exp2V (ofInt k) = .fin false 1 k) ∧
    (∀ (k : Nat) (e : Int), log2V (.fin false (2 ^ k) e) = ofInt (k + e)) ∧
    (∀ (neg : Bool) (m : Nat) (e : Int), 0 < m → ∃ q k : Nat, rcpV (.fin neg m e) = .fin neg q (-e - k) ∧ 2 ^ 62 ≤ q ∧
      (q * m = 2 ^ k ∨ q % 2 = 1 ∧ (q - 1) * m < 2 ^ k ∧ 2 ^ k < (q + 1) * m)) ∧
    ∀ (m : Nat) (e h : Int) (m2 : Nat), 0 < m → e = 2 * h ∧ m2 = m ∨ e = 2 * h + 1 ∧ m2 = 2 * m →
      ∃ q k : Nat, rsqV (.fin false m e) = .fin false q (-h - k) ∧ 2 ^ 62 ≤ q ∧
        (q * q * m2 = 2 ^ (2 * k) ∨ q % 2 = 1 ∧ (q - 1) * (q - 1) * m2 < 2 ^ (2 * k) ∧ 2 ^ (2 * k) < (q + 1) * (q + 1) * m2)) ∧
  (∀ (sw : Bool) (ty : Ty) (rm : Rm) (sat : Bool) (pg : PReg) (d a b c : VReg) (s : State),
    Present s ([.v a, .v b, .v c] ++ govRegs pg (.v d)) →
    let us := drawsOf s rm 32
    let x (r : VReg) (i : Nat) : Nat := lane (s.thr.getV r) 8 i
    let prod (i : Nat) : Int := intOf ty (x a i) * intOf ty (x b i)
    let fprod (i : Nat) : Val := mulV ((fmtOf ty).decode (x a i)) ((fmtOf ty).decode (x b i))
    Completes (.vdot4 sw ty rm sat pg d a b c) s fun t => LanesDone sw s t 32 pg d us.1 fun j =>
      let cj := lane (s.thr.getV c) 32 j
      if ty.isInt then narrow .i32 sat (intOf .i32 cj + prod (4 * j) + prod (4 * j + 1) + prod (4 * j + 2) + prod (4 * j + 3))
      else fF32.round rm sat (us.2.getD j 0) (addV rm (addV rm (addV rm (addV rm (fF32.decode cj) (fprod (4 * j)))
        (fprod (4 * j + 1))) (fprod (4 * j + 2))) (fprod (4 * j + 3))))

/-! ## Memory -/

/-- R188, R192, R180: LD, LDA, LDF and LDFP with their source present, room in the result buffer, an aligned address and
every check passed put one access into the core's port and one deferred result into the buffer; no register, no byte of
memory and no full/empty state changes at issue.

R188, R192, R180: ST, STL, SETFE and STE put one posted write into the port where the store queue has room; memory
changes only at the home. STE also holds an entry of the result buffer for its acknowledgment. -/
def Obligations.LoadsAndStoresEnterThePort : Prop :=
  (∀ (sw : Bool) (sz : Sz) (sc : Scope) (d : SReg) (p : PReg) (a : Src) (off : BitVec 16) (l : Nat) (s : State),
    Present s (srcRegs a) → HasSlot s →
    let va : Addr := (s.src a).setWidth 52 + off.signExtend 52
    let done (t : State) (n : Nat) (kind : AccKind) (sc : Scope) (acq : Bool) (ws : List RegWrite) : Prop :=
      Defers s t ws false acq ∧ InSequence sw s t ∧
        EntersPort s t [s.newAccess kind sc acq false none 0 [⟨0, va, l, n, []⟩]]
    (va.toNat % sz.bytes = 0 → Cleared s [.one va.toNat sz.bytes true false .any] [l] →
      Completes (.ld sw sz d a off) s (fun t => done t sz.bytes .load .t false [.s d 0]) ∧
      Completes (.lda sw sz sc d a off) s (fun t => done t sz.bytes .load sc true [.s d 0])) ∧
    (va.toNat % 8 = 0 → Cleared s [.one va.toNat 8 true true .spadOnly] [l] →
      Completes (.ldf sw sc d a off) s fun t => done t 8 .ldf sc true [.s d 0]) ∧
    (va.toNat % 8 = 0 → Cleared s [.one va.toNat 8 true false .spadOnly] [l] →
      Completes (.ldfp sw d p a off) s fun t => done t 8 .ldfp .t false [.s d 0, .p p 0])) ∧
  (∀ (sw : Bool) (sz : Sz) (sc : Scope) (a b : Src) (off : BitVec 16) (l : Nat) (s : State),
    Present s (srcRegs a ++ srcRegs b) → queueFull (s.core s.gc).port = false →
    let va : Addr := (s.src a).setWidth 52 + off.signExtend 52
    let posted (t : State) (n : Nat) (kind : AccKind) (sc : Scope) (rel : Bool) (data : List Byte) : Prop :=
      KeepsRegs s t ∧ t.thr.kept = s.thr.kept ∧ InSequence sw s t ∧
        EntersPort s t [s.newAccess kind sc false rel none 0 [⟨0, va, l, n, data⟩]]
    (va.toNat % sz.bytes = 0 → Cleared s [.one va.toNat sz.bytes false true .any] [l] →
      Completes (.st sw sz a b off) s (fun t => posted t sz.bytes .store .t false (toBytes sz.bytes (s.src b).toNat)) ∧
      Completes (.stl sw sz sc a b off) s (fun t => posted t sz.bytes .store sc true (toBytes sz.bytes (s.src b).toNat))) ∧
    (va.toNat % 8 = 0 → Cleared s [.one va.toNat 8 false true .spadOnly] [l] →
      Completes (.setfe sw a b off) s (fun t => posted t 8 (.setfe ((s.src b).getLsbD 0)) .t false []) ∧
      (HasSlot s → Completes (.ste sw sc a b off) s fun t => Defers s t [] false ∧ InSequence sw s t ∧
        EntersPort s t [s.newAccess .ste sc false true none 0 [⟨0, va, l, 8, toBytes 8 (s.src b).toNat⟩]])))

/-- R185, R186, R348: the forms of one word, LD, LDA, LDF, LDFP, ST, STL, STE, SETFE, AMO and WAITGE: an address that is no multiple of
the access size raises ALIGN before any other check; an aligned one outside every window or without translation raises XLATE, one
without permission, or in a window that does not take the form (R192, R196, R198), PERM, and one that meets a lock of its core RLOCK,
each with the address as its value and none of the access's effect.

R185: the vector forms VLD, VLDS, VGATH, VST, VSTS and VSCAT make each check over every active lane before the next, and show the lowest
lane that fails it.

R170 to R172, R185, R285, R320, R321, R366, R410, R419: what translation finds. An address outside every window meets XLATE; a page of
the host's that its IOMMU refuses, an address of a remap window that no window translates, and a page whose walk has failed as XLATE meet
XLATE; a scratchpad address outside the VD's grant, a page whose walk has failed as PERM, a cached page without the right that the
access needs, and the regions that the part keeps for itself meet PERM; a page that is not cached waits for its walk; the access has a
location otherwise. -/
def Obligations.AccessChecksTrapInOrder : Prop :=
  (∀ (sw : Bool) (sz : Sz) (sc : Scope) (op : AmoOp) (ord : AmoOrd) (d : SReg) (p : PReg) (a b c : Src) (off : BitVec 16) (s : State),
    Present s (srcRegs a ++ srcRegs b ++ srcRegs c) → HasSlot s → CanTrap s → s.thr.wait = .none →
    let va : Addr := (s.src a).setWidth 52 + off.signExtend 52
    let n := sz.bytes
    ∀ e ∈ ([(.ld sw sz d a off, va, n, true, false, .any), (.lda sw sz sc d a off, va, n, true, false, .any),
        (.ldf sw sc d a off, va, 8, true, true, .spadOnly), (.ldfp sw d p a off, va, 8, true, false, .spadOnly),
        (.st sw sz a b off, va, n, false, true, .any), (.stl sw sz sc a b off, va, n, false, true, .any),
        (.ste sw sc a b off, va, 8, false, true, .spadOnly), (.setfe sw a b off, va, 8, false, true, .spadOnly),
        (.amo sw sz sc op ord d a b c, (s.src a).setWidth 52, n, true, true, .noHost),
        (.waitge sw sz sc d a b off, va, n, true, false, .noHost)] :
        List (Instr × Addr × Nat × Bool × Bool × Forms)),
      let (i, x, k, r, w, forms) := e
      let res := resolve s s.gc s.thr.vd s.thr.walkFail r w false x.toNat
      let traps (code : Nat) : Prop := Completes i s fun t => TrapsTo s t code s.thr.pc (x.setWidth 64)
      let taken : Prop := ∃ y, whereIs s s.gc s.thr.vd x.toNat = some y ∧ forms.takes x.toNat y = true
      (x.toNat % k ≠ 0 → traps 0x03) ∧
      (x.toNat % k = 0 →
        (res = .xlate → traps 0x04) ∧ (res = .perm → traps 0x05) ∧
        (∀ l, res = .loc l → (¬ taken → traps 0x05) ∧
          (taken → lockMeets s s.gc s.thr.vk (.one x.toNat k r w forms) = true → traps 0x06)))) ∧
  (∀ (sw : Bool) (sz : Sz) (pg : PReg) (d c : VReg) (a : Src) (k : BitVec 16) (s : State),
    Present s (srcRegs a ++ [.v c, .v d, .p pg]) → HasSlot s → CanTrap s →
    let n := sz.bytes
    let at_ (x : Int) : Addr := BitVec.ofInt 52 ((((s.src a).setWidth 52 : Addr).toNat : Int) + x)
    let active (m : Nat) (f : Nat → Int) : List Addr :=
      ((List.range m).filter fun i => activeLane (s.thr.getP pg) sz.bits i).map fun i => at_ (f i)
    let near := active (1024 / sz.bits) fun i => k.toInt + i * n
    let strided := active (1024 / sz.bits) fun i => i * k.toInt
    let indexed := active 32 fun j => toSigned 32 (lane (s.thr.getV c) 32 j) * n
    ∀ e ∈ ([(.vld sw sz pg d a k, near, false), (.vlds sw sz pg d a k, strided, false), (.vgath sw sz pg d a c, indexed, false),
        (.vst sw sz pg a d k, near, true), (.vsts sw sz pg a d k, strided, true), (.vscat sw sz pg a d c, indexed, true)] :
        List (Instr × List Addr × Bool)),
      let res (x : Addr) : Res := resolve s s.gc s.thr.vd s.thr.walkFail (!e.2.2) e.2.2 false x.toNat
      let first (f : Addr → Bool) (code : Nat) : Prop := ∀ x, e.2.1.find? f = some x →
        Completes e.1 s fun t => TrapsTo s t code s.thr.pc (x.setWidth 64)
      first (fun x => decide (x.toNat % n ≠ 0)) 0x03 ∧
      ((∀ x ∈ e.2.1, x.toNat % n = 0) → (∀ x ∈ e.2.1, ∀ vk page, res x ≠ .miss vk page) →
        first (fun x => res x == .xlate) 0x04 ∧
        ((∀ x ∈ e.2.1, res x ≠ .xlate) → first (fun x => res x == .perm) 0x05 ∧
          ((∀ x ∈ e.2.1, res x ≠ .perm) →
            first (fun x => lockMeets s s.gc s.thr.vk (.one x.toNat n (!e.2.2) e.2.2 .any)) 0x06)))) ∧
  (∀ (gc vd : Nat) (fails : List (Nat × Nat)) (r w : Bool) (va : Nat) (s : State),
    let res := resolve s gc vd fails r w false va
    let own := vdKey (pkgOf gc) vd
    (2 ^ 40 + 8 * 2 ^ 30 ≤ va ∧ va < 2 ^ 41 ∨ 2 ^ 41 + 0x30000 ≤ va ∧ va < 0x20100000000 ∨
      0x20100000000 + 128 * 0x40000 ≤ va ∧ va < 2 ^ 51 ∨ 2 ^ 52 ≤ va → res = .xlate) ∧
    (whereIs s gc vd va = none → res = .xlate) ∧
    (∀ m off, whereIs s gc vd va = some (.l2 m off) → res = .loc (l2Loc own m off)) ∧
    (∀ off, whereIs s gc vd va = some (.host off) →
      if (fnOfVd own, off / 4096) ∈ s.iommu then res = .xlate else res = .loc (hostLoc (fnOfVd own) off)) ∧
    (∀ c off, whereIs s gc vd va = some (.spad c off) → let g := (s.core c).grantOf (vdKey (pkgOf c) vd)
      if g.spBase * 4096 ≤ off ∧ off < g.spLimit * 4096 then res = .loc (spadLoc c off) else res = .perm) ∧
    (∀ pkg off0, whereIs s gc vd va = some (.dram pkg off0) → let vk := vdKey pkg vd
      (remapped s vk off0 = none → res = .xlate) ∧
      (∀ off, remapped s vk off0 = some off →
        (tblFind fails (walkKey vk (off / 4096)) = some 0x04 → res = .xlate) ∧
        (tblFind fails (walkKey vk (off / 4096)) = some 0x05 → res = .perm) ∧
        (tblFind fails (walkKey vk (off / 4096)) = none →
          ((s.router (s.routerOf gc)).find vk (off / 4096) = none → res = .miss vk (off / 4096)) ∧
          (∀ e, (s.router (s.routerOf gc)).find vk (off / 4096) = some e →
            let lacks : Prop := r = true ∧ e.r = false ∨ w = true ∧ e.w = false ∨ reserved s vk off = true
            let t := (s.vd vk).trig.toNat
            (lacks → res = .perm) ∧
            (¬ lacks → t ≠ 0 → t ≤ off → off < t + 8 → res = .loc (trigLoc vk (off - t))) ∧
            (¬ lacks → t = 0 ∨ off < t ∨ t + 8 ≤ off → res = .loc (dramLoc pkg (e.phys (s.pkg pkg).massifs off))))))))

/-- R189, R190, R138, R201: the vector loads access their active lanes only; the result starts as D's value at issue, with
zero above lane 31 for the gathers. With no active lane nothing enters the port.

R189, R190, R180: a vector store makes every check first; its active lanes then stand, in ascending order and cut into
runs of consecutive lanes of one aligned 64-byte block, in the port and behind it in the thread as room lacks. -/
def Obligations.VectorAccessesEnterThePort : Prop :=
  (∀ (sw : Bool) (sz : Sz) (pg : PReg) (d : VReg) (a : Src) (c : VReg) (k : BitVec 16) (locs : List Nat) (s : State),
    HasSlot s →
    let n := sz.bytes
    let base : Int := ((s.src a).setWidth 52).toNat
    let at_ (x : Int) : Addr := BitVec.ofInt 52 (base + x)
    let index (j : Nat) : Int := toSigned 32 (lane (s.thr.getV c) 32 j)
    let active (m : Nat) (f : Nat → Addr) : List (Nat × Addr) :=
      ((List.range m).filter fun i => activeLane (s.thr.getP pg) sz.bits i).map fun i => (i, f i)
    let done (t : State) (kind : AccKind) (x : VWord) (ls : List (Nat × Addr)) : Prop :=
      Defers s t [.v d x] ls.isEmpty ∧ InSequence sw s t ∧ EntersPort s t (if ls.isEmpty then [] else
        [s.newAccess kind .t false false none sz.bits ((ls.zip locs).map fun e => ⟨e.1.1, e.1.2, e.2, n, []⟩)])
    let clear (ls : List (Nat × Addr)) : Prop :=
      (∀ e ∈ ls, e.2.toNat % n = 0) ∧ Cleared s (ls.map fun e => .one e.2.toNat n true false .any) locs
    let gathered : VWord := gatherInit sz.bits (s.thr.getV d)
    (Present s (srcRegs a ++ govRegs pg (.v d)) →
      (clear (active (1024 / sz.bits) fun i => at_ (k.toInt + i * n)) → Completes (.vld sw sz pg d a k) s fun t =>
        done t .load (s.thr.getV d) (active (1024 / sz.bits) fun i => at_ (k.toInt + i * n))) ∧
      (clear (active (1024 / sz.bits) fun i => at_ (i * k.toInt)) → Completes (.vlds sw sz pg d a k) s fun t =>
        done t .load (s.thr.getV d) (active (1024 / sz.bits) fun i => at_ (i * k.toInt)))) ∧
    (Present s (srcRegs a ++ [.v c] ++ govRegs pg (.v d)) →
      (clear (active 32 fun j => at_ (index j * n)) → Completes (.vgath sw sz pg d a c) s fun t =>
        done t .load gathered (active 32 fun j => at_ (index j * n))) ∧
      ((∀ e ∈ active 32 fun j => at_ (index j * n), e.2.toNat % n = 0) →
        Cleared s (gatherItems n s (active 32 fun j => at_ (index j * n))) locs →
        Completes (.gathq sw sz pg d a c) s fun t => done t .gath gathered (active 32 fun j => at_ (index j * n))))) ∧
  (∀ (sw : Bool) (sz : Sz) (pg : PReg) (a : Src) (b c : VReg) (k : BitVec 16) (locs : List Nat) (s : State),
    s.thr.storeHold = [] →
    let n := sz.bytes
    let base : Int := ((s.src a).setWidth 52).toNat
    let at_ (x : Int) : Addr := BitVec.ofInt 52 (base + x)
    let index (j : Nat) : Int := toSigned 32 (lane (s.thr.getV c) 32 j)
    let active (m : Nat) (f : Nat → Addr) : List (Nat × Addr) :=
      ((List.range m).filter fun i => activeLane (s.thr.getP pg) sz.bits i).map fun i => (i, f i)
    let done (t : State) (ls : List (Nat × Addr)) : Prop :=
      let parts : List Part := (ls.zip locs).map fun e =>
        ⟨e.1.1, e.1.2, e.2, n, toBytes n (lane (s.thr.getV b) sz.bits e.1.1)⟩
      KeepsRegs s t ∧ InSequence sw s t ∧ t.mem = s.mem ∧
      (t.core s.gc).port ++ t.thr.storeHold = (s.core s.gc).port ++ (runs parts).zipIdx.map fun e =>
        { s.newAccess .store .t false false none 0 e.1 with id := s.seq + e.2 }
    let clear (ls : List (Nat × Addr)) : Prop :=
      (∀ e ∈ ls, e.2.toNat % n = 0) ∧ Cleared s (ls.map fun e => .one e.2.toNat n false true .any) locs
    (Present s (srcRegs a ++ [.v b, .p pg]) →
      (clear (active (1024 / sz.bits) fun i => at_ (k.toInt + i * n)) → Completes (.vst sw sz pg a b k) s fun t =>
        done t (active (1024 / sz.bits) fun i => at_ (k.toInt + i * n))) ∧
      (clear (active (1024 / sz.bits) fun i => at_ (i * k.toInt)) → Completes (.vsts sw sz pg a b k) s fun t =>
        done t (active (1024 / sz.bits) fun i => at_ (i * k.toInt)))) ∧
    (Present s (srcRegs a ++ [.v b, .v c, .p pg]) → clear (active 32 fun j => at_ (index j * n)) →
      Completes (.vscat sw sz pg a b c) s fun t => done t (active 32 fun j => at_ (index j * n))))

/-- R196, R197, R180: AMO and REDU are posted: one access enters the port; AMO also defers the old value. The source of a REDU
is aligned to 64 bytes, and its destination is a whole tile. -/
def Obligations.AtomicsAndReductionsEnterThePort : Prop :=
  ∀ (sw : Bool) (sz : Sz) (sc : Scope) (op : AmoOp) (ord : AmoOrd) (d : SReg) (a b c : Src) (l : Nat)
    (ty : Ty) (rm : Rm) (sat : Bool) (rop : ReduOp) (locs : List Nat) (s : State),
    Present s (srcRegs a ++ srcRegs b) → queueFull (s.core s.gc).port = false →
    let dst := ((s.src a).setWidth 52 : Addr)
    let src := ((s.src b).setWidth 52 : Addr).toNat
    ((op = .cas → Present s (srcRegs c)) → HasSlot s → dst.toNat % sz.bytes = 0 →
      Cleared s [.one dst.toNat sz.bytes true true .noHost] [l] →
      Completes (.amo sw sz sc op ord d a b c) s fun t => Defers s t [.s d 0] false (ord = .acq ∨ ord = .acqrel) ∧ InSequence sw s t ∧
        EntersPort s t [s.newAccess (.amo op (s.src b) (s.src c)) sc (ord = .acq ∨ ord = .acqrel) (ord = .rel ∨ ord = .acqrel)
          none 0 [⟨0, dst, l, sz.bytes, []⟩]]) ∧
    (src % 64 = 0 → (reduTile s s.gc s.thr.vd dst.toNat).isSome = true →
      let ds := reduDst s s.gc s.thr.vd dst.toNat
      let ss := reduSrcItems s s.gc s.thr.vd src
      Cleared s (ds ++ ss) locs →
      Completes (.redu sw ty rm sat rop a b) s fun t => KeepsRegs s t ∧ InSequence sw s t ∧
        EntersPort s t [{ s.newAccess (.redu ty rm sat rop none) .t false false none 0
          (reduParts (ds.zip locs) (ss.zip (locs.drop ds.length))) with named := [(dst.toNat, 512)] }])

/-- R198: WAITGE puts its access into the port and parks; it completes, in a later turn, with the value that was observed.

R199, R200: FENCE goes on once every earlier send of the thread has landed or is held, every earlier load has taken its value, every
earlier TFLUSH and TINV is complete and, at `.k` to `.s`, every earlier write is performed; it holds until then, for no gather, copy or
matrix operation; PREF has no effect on any value; TFLUSH
and TINV put their tiles into the port, and change nothing where the range touches no tile of the package. -/
def Obligations.WaitsFencesAndTiles : Prop :=
  (∀ (sw : Bool) (sz : Sz) (sc : Scope) (d : SReg) (a b : Src) (off : BitVec 16) (l id : Nat) (x : Word) (s : State),
    let va : Addr := (s.src a).setWidth 52 + off.signExtend 52
    (s.thr.wait = .none → Present s (srcRegs a ++ srcRegs b) → va.toNat % sz.bytes = 0 →
      Cleared s [.one va.toNat sz.bytes true false .noHost] [l] →
      Completes (.waitge sw sz sc d a b off) s fun t => KeepsRegs s t ∧ t.thr.pc = s.thr.pc ∧
        t.thr.wait = .waitge s.seq none false ∧ t.thr.park.isSome = true ∧
        EntersPort s t [s.newAccess (.waitge (s.src b).toNat) sc true false none 0 [⟨0, va, l, sz.bytes, []⟩]]) ∧
    (s.thr.wait = .waitge id (some x) false → Completes (.waitge sw sz sc d a b off) s fun t =>
      WritesS s t d x ∧ InSequence sw s t)) ∧
  (∀ (sw : Bool) (sc : Scope) (a : Src) (b : Option Src) (off : BitVec 16) (locs : List Nat) (s : State),
    let waits : Prop := s.thr.sendq ≠ [] ∨ ∃ x ∈ (s.core s.gc).port, x.tid = s.thr.id ∧ match x.kind with
      | .gath => False
      | .load | .ldf | .ldfp | .amo .. | .waitge _ | .tflush | .tinv => True
      | .redu _ _ _ _ src => sc ∉ [Scope.t, Scope.c] ∨ src = none
      | .store | .ste | .setfe _ | .hist _ => sc ∉ [Scope.t, Scope.c]
    (¬ waits → Completes (.fence sw sc) s fun t => KeepsRegs s t ∧ OnlyThread s t ∧ InSequence sw s t) ∧
    (waits → Completes (.fence sw sc) s fun t => KeepsRegs s t ∧ OnlyThread s t ∧ t.thr.pc = s.thr.pc) ∧
    (Present s (srcRegs a ++ optRegs b) →
      Completes (.pref sw a b off) s (fun t => KeepsRegs s t ∧ OnlyThread s t ∧ InSequence sw s t) ∧
      let va := ((s.src a).setWidth 52 + off.signExtend 52 : Addr).toNat
      let len := match b with
        | none => 1
        | some b => max ((s.src b).toNat % 2 ^ 24) 1
      let parts := tileParts s s.gc s.thr.vd (tilesOf s s.gc s.thr.vd va len)
      let enters (t : State) (kind : AccKind) : Prop := KeepsRegs s t ∧ InSequence sw s t ∧ EntersPort s t
        (if parts = [] then [] else [{ s.newAccess kind .t false false none 0 parts with named := [(va, len)] }])
      queueFull (s.core s.gc).port = false →
      (Cleared s (itemsOf s s.gc s.thr.vd va len true false .any) locs →
        Completes (.tflush sw a b off) s fun t => enters t .tflush) ∧
      (Cleared s (itemsOf s s.gc s.thr.vd va len false true .any) locs →
        Completes (.tinv sw a b off) s fun t => enters t .tinv)))

/-- R180, R188, R231: a load at the head of its core's port takes its bytes from its home, little-endian, into its buffered
result, which is then formed, and leaves the port; memory and every register stay as they are.

R180, R188, R187: a store at the head of its core's port writes its bytes at its home and leaves the port: those bytes
read as the data, every other byte of memory as before, and no thread's registers change. Nothing waits for the words.

R196: an AMO reads, computes, writes and returns the old value in one step at the home. Nothing waits for the words. The
word of a VD's triggers takes no write (R280). -/
def Obligations.AccessesActAtHome : Prop :=
  (∀ (gc : Nat) (a : Access) (p : Part) (rest : List Access) (s : State),
    OldestOf s gc a p rest → a.kind = .load → s.bad p.loc p.len = false → s.ce = [] →
    Completes (.accessAtHome (.port gc a.id p.lane)) s fun t =>
      let x := ofBytes ((List.range p.len).map fun i => memRead s.mem (p.loc + i))
      (t.thread a.tid).buf = (s.thread a.tid).buf.map (fun e => if e.id = a.id then
        { e with writes := e.writes.map (putResult a p x 0), form := e.form.take p x, done := true } else e) ∧
      (t.core gc).port = portAfter a rest ∧ SameS (s.thread a.tid) (t.thread a.tid) [] ∧ SameV (s.thread a.tid) (t.thread a.tid) [] ∧
      SameP (s.thread a.tid) (t.thread a.tid) [] ∧ t = { s with thr := t.thr, threads := t.threads, cores := t.cores }) ∧
  (∀ (gc : Nat) (a : Access) (p : Part) (rest : List Access) (s : State),
    OldestOf s gc a p rest → a.kind = .store → p.data.length = p.len → s.canWrite p.loc p.len = true →
    isTrig p.loc = false → (∀ w, waitersOf s w = []) →
    Completes (.accessAtHome (.port gc a.id p.lane)) s fun t => StoresBytes s t p.loc p.data ∧ (t.core gc).port = portAfter a rest ∧
      (∀ k, SameS (s.thread k) (t.thread k) [] ∧ SameV (s.thread k) (t.thread k) [] ∧ SameP (s.thread k) (t.thread k) []) ∧
      t.full = s.full ∧ t.vds = s.vds ∧ t.fns = s.fns) ∧
  (∀ (gc : Nat) (a : Access) (p : Part) (rest : List Access) (op : AmoOp) (b c : Word) (s : State),
    OldestOf s gc a p rest → a.kind = .amo op b c → p.len ∈ [4, 8] → (op = .fadd → p.len = 4) →
    s.bad p.loc p.len = false → s.ce = [] → (∀ w, waitersOf s w = []) →
    let old := ofBytes ((List.range p.len).map fun i => memRead s.mem (p.loc + i))
    let w := 8 * p.len
    let x := BitVec.ofNat w old
    let y := BitVec.ofNat w b.toNat
    let new : Nat := match op with
      | .swap => y.toNat
      | .add => (x + y).toNat
      | .and => (x &&& y).toNat
      | .or => (x ||| y).toNat
      | .xor => (x ^^^ y).toNat
      | .min => if x.toInt ≤ y.toInt then x.toNat else y.toNat
      | .max => if x.toInt ≤ y.toInt then y.toNat else x.toNat
      | .minu => if x.toNat ≤ y.toNat then x.toNat else y.toNat
      | .maxu => if x.toNat ≤ y.toNat then y.toNat else x.toNat
      | .cas => if x = BitVec.ofNat w c.toNat then y.toNat else x.toNat
      | .fadd => fF32.round .rne false 0 (addV .rne (fF32.decode x.toNat) (fF32.decode y.toNat))
    Completes (.accessAtHome (.port gc a.id p.lane)) s fun t =>
      (if isTrig p.loc = true then SameMemory s t else StoresBytes s t p.loc (toBytes p.len new)) ∧
      (t.core gc).port = portAfter a rest ∧ t.full = s.full ∧
      (t.thread a.tid).buf = (s.thread a.tid).buf.map fun e => if e.id = a.id then
        { e with writes := e.writes.map (putResult a p old 0), form := e.form.take p old, done := true } else e)

/-- R191, R192, R193: a sync word. LDF of a full word takes its value and empties it; STE of an empty word writes it and fills
it; either on a word whose condition fails enters the sync-wait queue and changes no byte and no state; SETFE sets the state
and keeps the value; LDFP takes value and state together. Nothing else waits for words, and the word holds no error. -/
def Obligations.FullEmptyWordsChangeInOneStep : Prop :=
  ∀ (gc : Nat) (a : Access) (p : Part) (rest : List Access) (s : State),
    OldestOf s gc a p rest → p.loc % 8 = 0 → p.len = 8 → isSpad p.loc = true → s.bad p.loc 8 = false → s.ce = [] →
    (∀ w, waitersOf s w = []) → (∀ b ∈ (s.core gc).port, b.waiting = false) →
    let old := ofBytes ((List.range 8).map fun i => memRead s.mem (p.loc + i))
    let go := Completes (.accessAtHome (.port gc a.id p.lane)) s
    let takes (t : State) (st : PWord) : Prop := (t.thread a.tid).buf = (s.thread a.tid).buf.map fun e => if e.id = a.id then
      { e with writes := e.writes.map (putResult a p old st), form := e.form.take p old, done := true } else e
    (a.kind = .ldf → s.full.contains p.loc = true → go fun t =>
      takes t 0 ∧ t.isFull p.loc = false ∧ SameMemory s t ∧ (t.core gc).port = portAfter a rest) ∧
    (a.kind = .ste → p.data.length = 8 → s.full.contains p.loc = false → go fun t =>
      StoresBytes s t p.loc p.data ∧ t.isFull p.loc = true ∧ (t.core gc).port = portAfter a rest) ∧
    (a.kind = .ldf → s.full.contains p.loc = false → homeHasRoom s gc a p = true → go fun t =>
      (t.core gc).port = { a with waiting := true, arrived := s.seq } :: rest ∧ t.mem = s.mem ∧ t.full = s.full) ∧
    (a.kind = .ste → s.full.contains p.loc = true → homeHasRoom s gc a p = true → go fun t =>
      (t.core gc).port = { a with sent := true, waiting := true, arrived := s.seq } :: rest ∧ t.mem = s.mem ∧ t.full = s.full) ∧
    (∀ full, a.kind = .setfe full → go fun t =>
      t.isFull p.loc = full ∧ SameMemory s t ∧ (t.core gc).port = portAfter a rest) ∧
    (a.kind = .ldfp → go fun t =>
      takes t (if s.full.contains p.loc then BitVec.allOnes 128 else 0) ∧ t.full = s.full ∧ SameMemory s t ∧
        (t.core gc).port = portAfter a rest)

/-! ## Registers as fabric addresses -/

/-- R210, R211, R212, R223: a send whose capability verifies against its target's count, with room in its queue, joins the queue and
completes with every register as it was; with four entries there it does not issue, and waits with the capability as what PARKLONG would
show. One that does not verify, or whose target's number no thread of the team has, raises CAPBAD with the capability as its value, and
the team counts it (R224); one to a retired target raises SENDFAIL. -/
def Obligations.SendsJoinTheirQueue : Prop :=
  ∀ (sw : Bool) (a b : Src) (v : VReg) (off : BitVec 4) (sc : Scope) (team : Team) (seat : Seat) (s : State),
    let c := s.src a
    let hi := c.toNat / 2 ^ 24
    let target := s.thread seat.tid
    let verifies (rights : Nat) : Prop := c.toNat % 2 ^ 24 = checkOf team.key hi target.capgen.toNat ∧
      hi % 2 ^ 8 = target.capgen.toNat % 2 ^ 8 ∧ c.toNat / 2 ^ 32 % 4 = rights ∧ off.toNat ≤ c.toNat / 2 ^ 34 % 16
    let refused (t : State) : Prop := KeepsRegs s t ∧ t.thr.hm = true ∧ t.thr.cause = 0x0A ∧ t.thr.tval = c ∧
      t.thr.epc = s.thr.pc &&& ~~~1#52 ∧ t.thr.pc = s.thr.tvec ∧ t.thr.sendq = s.thr.sendq ∧
      t.findTeam s.thr.vd s.thr.teamNum = some { team with capbads := team.capbads + 1 }
    s.findTeam s.thr.vd s.thr.teamNum = some team →
    ∀ e ∈ ([(.send sw a b off, srcRegs a ++ srcRegs b, 1, false, (s.src b).setWidth 1024, none),
        (.sendr sw sc a b off, srcRegs a ++ srcRegs b, 1, false, (s.src b).setWidth 1024, some sc),
        (.sendv sw a v off, srcRegs a ++ [.v v], 2, true, s.thr.getV v, none)] :
        List (Instr × List Reg × Nat × Bool × VWord × Option Scope)),
      let (i, regs, rights, vec, value, rel) := e
      Present s regs →
      (team.seats.find? (fun x => x.fab == c.toNat / 2 ^ 44) = none → CanTrap s → Completes i s refused) ∧
      (team.seats.find? (fun x => x.fab == c.toNat / 2 ^ 44) = some seat → team.away = false →
        (¬ verifies rights → CanTrap s → Completes i s refused) ∧
        (verifies rights → target.st = .retired → CanTrap s → Completes i s fun t => TrapsTo s t 0x0B s.thr.pc c) ∧
        (verifies rights → target.st ≠ .retired → 4 ≤ s.thr.sendq.length → Completes i s fun t => Stays s t ∧ SameWorld s t ∧
          ∃ k, t.thr.park = some k ∧ k.tval = c ∧ k.regs = []) ∧
        (verifies rights → target.st ≠ .retired → s.thr.sendq.length < 4 → Completes i s fun t =>
          KeepsRegs s t ∧ InSequence sw s t ∧ t = { s with seq := s.seq + 1, thr := t.thr } ∧ t.thr.kept = { s.thr.kept with
            sendq := s.thr.sendq ++ [⟨s.seq, c, c.toNat / 2 ^ 44, c.toNat / 2 ^ 38 % 64 + off.toNat, vec, value, rel, false, false,
              s.thr.tcls⟩] }))

/-- R215, R216, R217, R219: the first send of a thread, with nothing before it, arrives at a running target whose capability
still verifies, with no arrival held, none still to come in from a save and no result buffered: an empty register takes the value and is full; a full one holds
the arrival under PARK, refuses it under FAULT and takes it under LATEST. The send leaves its queue. -/
def Obligations.ArrivalsLand : Prop :=
  ∀ (id : Nat) (e : SendEntry) (rest : List SendEntry) (team : Team) (seat : Seat) (r : SReg) (s : State),
    let x := s.thread id
    let y := s.thread seat.tid
    s.Keyed → x.sendq = e :: rest → (∀ f ∈ rest, e.id < f.id) →
    (∀ a ∈ (s.core (coreOf id)).port, a.tid ≠ id) →
    s.findTeam x.vd x.teamNum = some team → team.away = false → team.seat e.target = some seat →
    y.st = .ready → y.buf = [] → (∀ l ∈ (s.core (coreOf seat.tid)).landing, l.tid ≠ seat.tid) →
    s.heldRest seat.tid = [] → (∀ q ∈ y.pend, q.arr < s.seq) →
    capOk team.key y.capgen.toNat 1 0 e.cap = true → e.vec = false → e.reg = r.val →
    let go := Completes (.sendArrival id e.id) s
    let takes (t : State) : Prop := (t.thread seat.tid).getS r = e.value.setWidth 64 ∧ (t.thread seat.tid).hasS r = true ∧
      SameS y (t.thread seat.tid) [r] ∧ SameV y (t.thread seat.tid) [] ∧ (t.thread id).sendq = rest ∧ t.mem = s.mem ∧
      t.cores = s.cores
    let keeps (t : State) : Prop := SameS y (t.thread seat.tid) [] ∧ SameV y (t.thread seat.tid) [] ∧
      (t.thread id).sendq = rest ∧ t.mem = s.mem
    (y.hasS r = false → go takes) ∧
    (y.hasS r = true → y.landMode r.val = 2 → go takes) ∧
    (y.hasS r = true → y.landMode r.val ∈ [0, 3] → go fun t => keeps t ∧ (t.thread seat.tid).pend = y.pend ∧
      ∃ l, (t.core (coreOf seat.tid)).landing = (s.core (coreOf seat.tid)).landing ++ [l] ∧ l.tid = seat.tid ∧
        l.reg = r.val ∧ l.value = e.value ∧ l.refused = false ∧ l.arr = s.seq) ∧
    (y.hasS r = true → y.landMode r.val = 1 → y.live = true → go fun t => keeps t ∧
      (t.thread seat.tid).pend = y.pend ++ [⟨0x09, e.value.setWidth 64,
        some (BitVec.ofNat 64 (r.val * 2 ^ 20 + x.self.toNat % 2 ^ 20)), s.seq⟩])

/-- R205, R206, R208: MINTCAP's result names its own thread, the window and the count; REVCAP raises the count and D at issue
and then holds until the revocation is effective; at the highest count it raises PERM.

R217, R220, R221, R222: RCLR empties a register, zeroes it and discards what is buffered for it; RFULL shows a presence
bit; RWAIT completes once every register of its window is full and parks before; LANDM sets the modes of its window. -/
def Obligations.CapabilitiesAndPresence : Prop :=
  (∀ (sw : Bool) (d : SReg) (base : BitVec 6) (lenm1 : BitVec 4) (x : Word) (s : State),
    (HasSlot s → ∀ team, s.findTeam s.thr.vd s.thr.teamNum = some team →
      Completes (.mintcap sw d base lenm1) s fun t => InSequence sw s t ∧ ∃ c : Word, Defers s t [.s d c] true ∧
        c.toNat / 2 ^ 44 = s.thr.self.toNat % 2 ^ 20 ∧ c.toNat / 2 ^ 38 % 64 = base.toNat ∧
        c.toNat / 2 ^ 34 % 16 = lenm1.toNat ∧ c.toNat / 2 ^ 32 % 4 = (if base.toNat < 32 then 1 else 2) ∧
        c.toNat / 2 ^ 24 % 256 = s.thr.capgen.toNat % 256 ∧
        c.toNat % 2 ^ 24 = (Config.hmacSm3 (Config.teamKey team.key)
          (toBytes 5 (c.toNat / 2 ^ 24) ++ toBytes 4 s.thr.capgen.toNat)).toNat % 2 ^ 24) ∧
    (s.thr.wait = .none → s.thr.acquiring = false → s.thr.capgen ≠ 0xFFFFFFFF → Completes (.revcap sw d) s fun t =>
      t.thr.getS d = (s.thr.capgen + 1).setWidth 64 ∧ t.thr.hasS d = true ∧ SameS s.thr t.thr [d] ∧ SameV s.thr t.thr [] ∧
      t.thr.capgen = s.thr.capgen + 1 ∧ t.thr.pc = s.thr.pc ∧ t.thr.wait = .hold 1 false 0 ∧ SameWorld s t) ∧
    (s.thr.wait = .none → s.thr.capgen = 0xFFFFFFFF → CanTrap s → Completes (.revcap sw d) s fun t =>
      TrapsTo s t 0x05 s.thr.pc 0xFFFFFFFF) ∧
    (s.thr.wait = .hold 1 true x → Completes (.revcap sw d) s fun t => KeepsRegs s t ∧ OnlyThread s t ∧ InSequence sw s t) ∧
    (∀ id, s.Keyed → (s.thread id).wait = .hold 1 false x → Completes (.revocationEffective id) s fun t =>
      t.thread id = { s.thread id with wait := .hold 1 true x } ∧ t.mem = s.mem ∧ t.cores = s.cores)) ∧
  (∀ (sw : Bool) (d : SReg) (r : SReg) (a b : SReg) (v w : VReg) (p : PReg) (f : FullSrc)
    (base : BitVec 6) (lenm1 : BitVec 4) (mode : BitVec 2) (s : State),
    (s.thr.acquiring = false → Completes (.rfull sw d f) s fun t => InSequence sw s t ∧ WritesS s t d (if (match f with
      | .reg q => Reg.isFull s.thr q
      | _ => true) = true then 1 else 0)) ∧
    ((∀ q, a ≤ q → q ≤ b → s.thr.hasS q = true) → s.thr.acquiring = false → Completes (.rwait sw (.s a) (.s b)) s fun t =>
      KeepsRegs s t ∧ OnlyThread s t ∧ InSequence sw s t) ∧
    ((∀ q, v ≤ q → q ≤ w → s.thr.hasV q = true) → s.thr.acquiring = false → Completes (.rwait sw (.v v) (.v w)) s fun t =>
      KeepsRegs s t ∧ OnlyThread s t ∧ InSequence sw s t) ∧
    ((∃ q, a ≤ q ∧ q ≤ b ∧ s.thr.hasS q = false) → Completes (.rwait sw (.s a) (.s b)) s fun t =>
      KeepsRegs s t ∧ SameWorld s t ∧ t.thr.pc = s.thr.pc ∧ t.thr.park.isSome = true) ∧
    ((s.core s.gc).landing = [] → s.thr.acquiring = false →
      Completes (.rclr sw (.s r)) s (fun t => OnlyThread s t ∧ InSequence sw s t ∧ t.thr.getS r = 0 ∧ t.thr.hasS r = false ∧
        SameS s.thr t.thr [r] ∧ SameV s.thr t.thr [] ∧ SameP s.thr t.thr [] ∧ t.thr.buf = (s.thr.supersede (.s r)).buf) ∧
      Completes (.rclr sw (.v v)) s (fun t => OnlyThread s t ∧ InSequence sw s t ∧ t.thr.getV v = 0 ∧ t.thr.hasV v = false ∧
        SameS s.thr t.thr [] ∧ SameV s.thr t.thr [v] ∧ SameP s.thr t.thr [] ∧ t.thr.buf = (s.thr.supersede (.v v)).buf) ∧
      Completes (.rclr sw (.p p)) s (fun t => OnlyThread s t ∧ InSequence sw s t ∧
        t.thr.getP p = (if p = 0 then BitVec.allOnes 128 else 0) ∧ t.thr.hasP p = decide (p = 0) ∧
        SameS s.thr t.thr [] ∧ SameV s.thr t.thr [] ∧ SameP s.thr t.thr [p] ∧
        t.thr.buf = (s.thr.supersede (.p p)).buf) ∧
      (base.toNat + lenm1.toNat < 32 ∨ 32 ≤ base.toNat ∧ base.toNat + lenm1.toNat < 48 → mode ≠ 3 →
        Completes (.landm sw base lenm1 mode) s fun t => KeepsRegs s t ∧ SameWorld s t ∧ InSequence sw s t ∧
          { t.thr.kept with lands := 0, landv := 0 } = { s.thr.kept with lands := 0, landv := 0 } ∧
          ∀ k < 48, t.thr.landMode k =
            if base.toNat ≤ k ∧ k ≤ base.toNat + lenm1.toNat then mode.toNat else s.thr.landMode k)))

/-! ## Copies, tags and plans -/

/-- R263 to R268, R273, R274: CPY and CPYNB check their request in the order of R266, then queue it under the next sequence
number with its locks, D taking the handle or 0; with no room CPYNB's D is all ones and CPY does not issue. CPYC cancels; CPYQ's
result is formed when it returns; PBINV drops the blocks of its address. -/
def Obligations.CopyRequests : Prop :=
  ∀ (sw nb : Bool) (d a : SReg) (x : Src) (req : CopyReq) (s : State),
    let i := if nb then Instr.cpynb sw d a else Instr.cpy sw d a
    let w (k : Nat) : Word := s.thr.getS (sregAt a k)
    let c := s.core s.gc
    let vk := s.thr.vk
    let sound := w0Bad (w 0) = false ∧ ptrsBad (w 0) (w 1) (w 2) (w 3) = none ∧ copyMisaligned (w 0) (w 1) (w 2) (w 3) = none
    let locks := if (w 0).getLsbD 56 then [] else copyLocks vk s.seq (w 0) (w 1) (w 2) (inlineShape (w 0) (w 1) (w 3))
    let room := (c.copies.filter fun r => r.state == .queued).length < 16 ∧ c.locks.length + locks.length ≤ 32
    let seq := tblGet c.copySeq vk 0 + 1
    (Present s (sregs a 4) →
      (w0Bad (w 0) = true → CanTrap s → Completes i s fun t => TrapsTo s t 0x0F s.thr.pc (w 0)) ∧
      (∀ y, w0Bad (w 0) = false → ptrsBad (w 0) (w 1) (w 2) (w 3) = some y → CanTrap s →
        Completes i s fun t => TrapsTo s t 0x0F s.thr.pc y) ∧
      (∀ y, w0Bad (w 0) = false → ptrsBad (w 0) (w 1) (w 2) (w 3) = none →
        copyMisaligned (w 0) (w 1) (w 2) (w 3) = some y → CanTrap s →
        Completes i s fun t => TrapsTo s t 0x03 s.thr.pc y) ∧
      (sound → room → Completes i s fun t => InSequence sw s t ∧ OnlyCore s t s.gc ∧
        t.thr.getS d = (if (w 0).getLsbD 58 then BitVec.ofNat 64 (2 ^ 32 + seq.toNat) else 0) ∧ t.thr.hasS d = true ∧
        SameS s.thr t.thr [d] ∧ SameV s.thr t.thr [] ∧ SameP s.thr t.thr [] ∧
        (t.core s.gc).locks = c.locks ++ locks ∧ tblGet (t.core s.gc).copySeq vk 0 = seq ∧
        ∃ r : CopyReq, (t.core s.gc).copies = c.copies ++ [r] ∧ r.state = .queued ∧ r.seq = seq ∧ r.tid = s.thr.id ∧
          r.vk = vk ∧ [r.w0, r.w1, r.w2, r.w3] = [w 0, w 1, w 2, w 3]) ∧
      (sound → ¬ room → Completes i s fun t =>
        if nb then WritesS s t d (BitVec.allOnes 64) ∧ InSequence sw s t else Stays s t ∧ SameWorld s t)) ∧
    (Present s (srcRegs x) →
      (byHandle c vk (s.src x) = none → Completes (.cpyc sw d x) s fun t => WritesS s t d 3 ∧ InSequence sw s t) ∧
      (byHandle c vk (s.src x) = some req → s.Keyed → Completes (.cpyc sw d x) s fun t => InSequence sw s t ∧ t.thr.hasS d = true ∧
        t.thr.getS d = (match req.state with
          | .queued => 1
          | .running => 2
          | _ => 0) ∧
        (req.state = .queued ∨ req.state = .running →
          ∀ r ∈ (t.core s.gc).copies, r.id = req.id → r.status = 1 ∧ (r.state = .landing ∨ r.state = .settled))) ∧
      (HasSlot s → Completes (.cpyq sw d x) s fun t => InSequence sw s t ∧ SameS s.thr t.thr [] ∧
        t = { s with seq := s.seq + 1, thr := t.thr } ∧ t.thr.buf = s.thr.buf ++
          [⟨s.seq, s.thr.pc, [.s d 0], .cpyq d (s.src x), true, false, none, false⟩]) ∧
      Completes (.pbinv sw x) s fun t => Passes sw s t ∧ OnlyCore s t s.gc ∧ t.core s.gc = { c with
        params := c.params.filter fun p => !(p.vk == vk && p.addr.toNat / 64 == ((s.src x).setWidth 52 : Addr).toNat / 64) })

/-- R262, R265, R267, R270, R271: a request leaves the FIFO after the earlier ones of its VD; one whose source or destination
begins in the wrong window fails with XLATE; it waits while its VD has no token at the copy engine. An element is read and then
written, once the copy engine has started the 64 bytes that it is of; when none
is left, the request's locks go and its tag takes its status. -/
def Obligations.CopiesRunAndComplete : Prop :=
  ∀ (gc id : Nat) (req : CopyReq) (e : CopyElem) (bs : List Byte) (l : Nat) (s : State),
    let c := s.core gc
    (c.copies.find? (fun r => r.id = id && r.state == .queued) = some req →
      (∀ r ∈ c.copies.takeWhile (fun r => r.id != id), ¬ (r.vk = req.vk ∧ r.state = .queued)) →
      (∀ r ∈ c.copies, r.id = id → r = req) → req.status = 0 → req.w0.toNat % 2 ^ 36 ≠ 0 →
      s.teamStopped (s.thread req.tid) = false → req.w0.getLsbD 56 = false → s.mayAsk (arbKey 1 gc) (req.vk % 16) = true →
      (∀ vk, (s.vd vk).rmode.getLsbD 0 = false) → Completes (.copyDispatch gc id) s fun t =>
        let opn := req.w0.toNat / 2 ^ 60
        t = { s with cores := t.cores, routers := t.routers } ∧
        ∀ r ∈ (t.core gc).copies, r.id = id → r.state = .running ∧
          (opn ≠ 2 ∧ isPeer (ptrVa req.w1) ≠ decide (opn = 3) ∨ isPeer (ptrVa req.w2) ≠ decide (opn = 4) →
            r.todo = [] ∧ r.status = 3)) ∧
    (c.copies.find? (fun r => r.id = id && r.state == .running) = some req → req.todo = [e] →
      (∀ r ∈ c.copies, r.id = id → r = req) →
      (∀ a ∈ (s.core (coreOf req.tid)).port, a.tid ≠ req.tid) →
      peerLost s gc (req.vk % 16) (e.src ++ e.dst) = false →
      (e.got = none → e.srcScales = [] → s.ue = [] → s.ce = [] → (∀ x ∈ e.src, isLost x = false) →
        Completes (.accessAtHome (.copy gc id 0)) s fun t => t.mem = s.mem ∧ ∀ r ∈ (t.core gc).copies, r.id = id →
          r.todo = [{ e with got := some (e.src.map fun x => some (memRead s.mem x)) }]) ∧
      (e.got = some (bs.map some) → w0Opn req.w0 = 0 → orderBlocks c req = false → e.dst = bytesAt l bs.length →
        e.dstScales = [] → s.ue = [] → (∀ x ∈ e.dst, isLost x = false ∧ isTrig x = false) → (∀ w, waitersOf s w = []) →
        (s.payCopy gc req e.dst.length).2.isSome = true →
        Completes (.accessAtHome (.copy gc id 0)) s fun t => StoresBytes s t l bs ∧
          ∀ r ∈ (t.core gc).copies, r.id = id → r.todo = [])) ∧
    (c.copies.find? (fun r => r.id = id) = some req → req.state = .running → req.todo = [] → orderBlocks c req = false →
      req.undef = [] → tagWaiters s gc req.vk = [] → Completes (.copyComplete gc id) s fun t =>
        let tag := (req.w0.toNat / 2 ^ 42) % 64
        t.mem = s.mem ∧ (t.core gc).locks = c.locks.filter (fun k => k.owner != req.id) ∧
        ((t.core gc).tagsOf req.vk).bits.getLsbD tag = true ∧
        ((t.core gc).tagsOf req.vk).stat[tag]? = some (BitVec.ofNat 4 req.status) ∧
        ∀ r ∈ (t.core gc).copies, r.id = id → r.state = .landing ∨ r.state = .settled)

/-- R261, R275: TWANY, TWALL and TFFR end at once where their condition holds of the bitmap, with their results and clears, and
park where it does not; TCLR clears. Nothing else waits on the bitmap here. -/
def Obligations.TagWaits : Prop :=
  ∀ (sw : Bool) (d : SReg) (a : Src) (s : State), s.thr.wait = .none → Present s (srcRegs a) →
    tagWaiters s s.gc s.thr.vk = [] →
    let bits := ((s.core s.gc).tagsOf s.thr.vk).bits
    let mask := s.src a
    let after (t : State) (b : Word) : Prop := InSequence sw s t ∧ OnlyCore s t s.gc ∧
      ((t.core s.gc).tagsOf s.thr.vk) = { (s.core s.gc).tagsOf s.thr.vk with bits := b } ∧
      (t.core s.gc).port = (s.core s.gc).port ∧ (t.core s.gc).copies = (s.core s.gc).copies
    let parks (t : State) : Prop := Stays s t ∧ t.thr.park.isSome = true ∧ t.cores = s.cores
    (mask = 0 ∨ bits &&& mask ≠ 0 → Completes (.twany sw d a) s fun t =>
      SetsS s t d (bits &&& mask) ∧ after t bits) ∧
    (¬ (mask = 0 ∨ bits &&& mask ≠ 0) → Completes (.twany sw d a) s parks) ∧
    (bits &&& mask = mask → Completes (.twall sw d a) s fun t => SetsS s t d mask ∧ after t bits) ∧
    (bits &&& mask ≠ mask → Completes (.twall sw d a) s parks) ∧
    (mask = 0 → Completes (.tffr sw d a) s fun t => SetsS s t d 64 ∧ after t bits) ∧
    (∀ n < 64, (bits &&& mask).getLsbD n = true → (∀ k < n, (bits &&& mask).getLsbD k = false) →
      Completes (.tffr sw d a) s fun t => SetsS s t d (BitVec.ofNat 64 n) ∧ after t (bits &&& ~~~(1#64 <<< n))) ∧
    (mask ≠ 0 → bits &&& mask = 0 → Completes (.tffr sw d a) s parks) ∧
    Completes (.tclr sw a) s (fun t => Passes sw s t ∧ after t (bits &&& ~~~mask))

/-- R278 to R283: PLANSET reads its descriptor as a load does, and PLANFIRE's trigger is a posted release store; PLANDROP drops
an idle plan and otherwise holds. A trigger that fits starts a firing or pends; with nothing of the firing thread under way, a member
starts at the fire time and stamps it, and a member with nothing to write and nothing to land completes with its tag set. -/
def Obligations.CollectivePlans : Prop :=
  ∀ (sw : Bool) (d : SReg) (a b : Src) (vk idx k m : Nat) (locs : List Nat) (p : Plan) (g : Trigger) (rest : List Trigger) (f : Firing)
    (team : Team) (x : PlanPart) (s : State),
    let va : Addr := (s.src a).setWidth 52
    let plans (t : State) : Tbl Plan := (t.vd vk).plans
    (Present s (srcRegs a) → HasSlot s → va.toNat % 64 = 0 → Cleared s (itemsOf s s.gc s.thr.vd va.toNat 64 true false .any) locs →
      Completes (.planset sw d a) s fun t => InSequence sw s t ∧ SameS s.thr t.thr [] ∧
        t.thr.buf = s.thr.buf ++ [⟨s.seq, s.thr.pc, [.s d 0], .planset d va [] s.thr.tcls, false, false, none, false⟩] ∧
        EntersPort s t [s.newAccess .load .t false false none 0
          (planParts (itemsOf s s.gc s.thr.vd va.toNat 64 true false .any) locs)]) ∧
    (Present s (srcRegs a ++ srcRegs b) → queueFull (s.core s.gc).port = false → Completes (.planfire sw a b) s fun t =>
      Passes sw s t ∧ EntersPort s t [s.newAccess .store .s false true none 0
        [⟨0, (s.vd s.thr.vk).trig, trigLoc s.thr.vk 0, 8, toBytes 8 (s.src a).toNat ++ toBytes 8 (s.src b).toNat⟩]]) ∧
    (Present s (srcRegs a) → s.thr.vk = vk →
      (planByHandle (s.vd vk) (s.src a) = none → Completes (.plandrop sw a) s fun t => Passes sw s t ∧ SameWorld s t) ∧
      (planByHandle (s.vd vk) (s.src a) = some (idx, p) → p.running = none → p.pendingFire = none →
        Completes (.plandrop sw a) s fun t => Passes sw s t ∧ tblFind (plans t) idx = none ∧
          tblGet (t.vd vk).planGen idx 0 = tblGet (s.vd vk).planGen idx 0 + 1 ∧ t.mem = s.mem) ∧
      (planByHandle (s.vd vk) (s.src a) = some (idx, p) → p.running ≠ none → Completes (.plandrop sw a) s fun t =>
        Stays s t ∧ tblFind (plans t) idx = some { p with dropped := true } ∧ t.mem = s.mem)) ∧
    ((s.vd vk).triggers = g :: rest →
      (planByHandle (s.vd vk) (g.word &&& 0xFFFFFFFF) = none → Completes (.planTrigger vk) s fun t =>
        (t.vd vk).triggers = rest ∧ plans t = plans s ∧ t.mem = s.mem) ∧
      (planByHandle (s.vd vk) (g.word &&& 0xFFFFFFFF) = some (idx, p) → s.findTeam (vk % 16) p.team = some team →
        team.away = false → p.dropped = false → p.next.toNat = g.word.toNat / 2 ^ 32 → p.pendingFire = none →
        let by_ := g.src.bind fun x => ((s.core x.1).port.find? fun a => a.id == x.2.1).map fun a => (a.tid, a.id)
        Completes (.planTrigger vk) s fun t => (t.vd vk).triggers = rest ∧ t.mem = s.mem ∧ ∃ late,
          (late = true ↔ g.fireTime ≠ 0 ∧ g.fireTime.toNat < s.time (vk / 16)) ∧
          tblFind (plans t) idx = some (if p.running = none
            then { p with next := p.next + 1, running := some ⟨p.next, g.fireTime, late, [], by_⟩ }
            else { p with next := p.next + 1, pendingFire := some ⟨p.next, g.fireTime, late, [], by_⟩ }))) ∧
    (tblFind (plans s) idx = some p → p.running = some f → p.members[k]? = some m → pkgOfThread m = vk / 16 →
      (∀ y, f.by_ = some y → ∀ a ∈ (s.core (coreOf y.1)).port, a.tid ≠ y.1) →
      ((∀ k, (s.vd k).rmode.getLsbD 0 = false) → s.ue = [] → s.ce = [] → f.parts.all (fun y => y.pos != k) = true → f.late = true ∨ f.fireTime.toNat ≤ s.time (pkgOfThread m) →
        Completes (.planFireStart vk idx k) s fun t => t.mem = s.mem ∧ ∃ y : PlanPart,
          tblFind (plans t) idx = some { p with running := some { f with parts := f.parts ++ [y] } } ∧
          y.pos = k ∧ y.stamp = s.time (pkgOfThread m) ∧ y.phase = 0) ∧
      (f.parts.find? (fun y => y.pos = k) = some x → f.parts.length = p.members.length → x.phase = 0 → x.status ≠ stRoutelost →
        planUnits p.desc p.members.length ≤ x.paid → (planStrict p.desc && planSkew p.desc f) = false →
        planOutput p.desc f p.members.length k = none → planLand p.desc = false → tagWaiters s (coreOf m) vk = [] →
        Completes (.planFiringComplete vk idx k) s fun t => t.mem = s.mem ∧
          ((t.core (coreOf m)).tagsOf vk).bits.getLsbD (planTag p.desc) = true ∧
          ((t.core (coreOf m)).tagsOf vk).stat[planTag p.desc]? =
            some (BitVec.ofNat 4 (planStatus p.desc f x false))))

/-! ## The sillage -/

/-- R287 to R291, R300: TAPEOPEN opens the lowest free entry with a run of the spill region, or answers why not; TAPECLOSE closes
and, with no transfer under way, gives back the quota; TAPEFREE frees the entry under a new generation; TAPEQ's result is formed
at its return; GENBUMP moves a tensor's generation. A handle of no live segment raises PERM. Where in the region a run lies is the
model's choice (first fit, log entry 33), and that it is of whole 4 KiB units its reading (log entry 72). -/
def Obligations.Segments : Prop :=
  ∀ (sw : Bool) (d : SReg) (a : Src) (team : Team) (n : Nat) (g : Segment) (s : State),
    let x := s.src a
    let vd := s.thr.vd
    let num := s.thr.teamNum
    let seg (t : State) (k : Nat) : Option Segment := (t.findTeam vd num).bind fun y => tblFind y.segs k
    let open_ (k : Nat) : Bool := ((tblFind team.segs k).map fun y => y.isOpen).getD false
    s.findTeam vd num = some team → s.thr.wait = .none → Present s (srcRegs a) →
    (x = 0 ∨ 2 ^ 26 ≤ x.toNat → Completes (.tapeopen sw d a) s fun t => WritesS s t d 3 ∧ InSequence sw s t) ∧
    (0 < x.toNat → x.toNat < 2 ^ 26 → (∀ k < 64, open_ k = true) → Completes (.tapeopen sw d a) s fun t =>
      WritesS s t d 1 ∧ InSequence sw s t) ∧
    (0 < x.toNat → x.toNat < 2 ^ 26 → n < 64 → open_ n = false → (∀ k < n, open_ k = true) →
      ∀ u, fitRun (runUnits x.toNat) (team.spill.toNat / 2 ^ 12 % 2 ^ 28 + team.spill.toNat / 2 ^ 40)
        (team.spill.toNat / 2 ^ 12 % 2 ^ 28) (heldRuns team (pkgOfThread s.thr.id)) = some u →
      Completes (.tapeopen sw d a) s fun t => InSequence sw s t ∧ t = { s with thr := t.thr, teams := t.teams } ∧
        ∃ gen : BitVec 7, SetsS s t d (BitVec.ofNat 64 (2 ^ 31 + gen.toNat * 2 ^ 24 + n)) ∧
          seg t n = some ⟨gen, true, x.toNat, 0, false, pkgOfThread s.thr.id, u * 4096, (x.toNat * 72 + 4095) / 4096, [], []⟩) ∧
    (HasSlot s → Completes (.tapeq sw d a) s fun t => InSequence sw s t ∧ SameS s.thr t.thr [] ∧
      t = { s with seq := s.seq + 1, thr := t.thr } ∧ t.thr.buf = s.thr.buf ++
        [⟨s.seq, s.thr.pc, [.s d 0], .tapeq d x, true, false, none, false⟩]) ∧
    (segByHandle team x = none → CanTrap s → Completes (.tapeclose sw a) s (fun t => TrapsTo s t 0x05 s.thr.pc x) ∧
      Completes (.tapefree sw a) s (fun t => TrapsTo s t 0x05 s.thr.pc x)) ∧
    (segByHandle team x = some (n, g) →
      (forwardsOf s vd num n = false → Completes (.tapeclose sw a) s fun t => Passes sw s t ∧
        t = { s with thr := t.thr, teams := t.teams } ∧ ∃ g', seg t n = some g' ∧ g'.closed = true ∧ g'.quota = g.used ∧
          g'.used = g.used ∧ g'.records = g.records ∧ g'.isOpen = g.isOpen ∧ g'.gen = g.gen) ∧
      (forwardsOf s vd num n = true → Completes (.tapeclose sw a) s fun t => Stays s t ∧
        seg t n = some { g with closed := true } ∧ t.mem = s.mem) ∧
      (retracesOf s vd num n = false → Completes (.tapefree sw a) s fun t => Passes sw s t ∧
        t = { s with thr := t.thr, teams := t.teams, routers := t.routers } ∧ seg t n = some (Segment.empty (g.gen + 1)) ∧
        ∀ e ∈ t.routers, ∀ y ∈ e.2.log, ¬ (y.vk % 16 = vd ∧ y.team = num ∧ y.seg = n)) ∧
      (retracesOf s vd num n = true → Completes (.tapefree sw a) s fun t => Stays s t ∧ SameWorld s t)) ∧
    (0 < x.toNat → x.toNat < 2 ^ 12 → teamRetraces s vd num = false → (tblFind s.pkgs (pkgOfThread s.thr.id)).isSome →
      let gen : BitVec 12 := tblGet (s.vd s.thr.vk).tensorGen x.toNat 0 + 1
      Completes (.genbump sw d a) s fun t => InSequence sw s t ∧ SetsS s t d (gen.setWidth 64) ∧
        t = { s with thr := t.thr, vds := t.vds } ∧ ∀ e ∈ s.pkgs, tblGet (t.vd (vdKey e.1 vd)).tensorGen x.toNat 0 = gen) ∧
    (x = 0 ∨ 2 ^ 12 ≤ x.toNat → CanTrap s → Completes (.genbump sw d a) s fun t => TrapsTo s t 0x05 s.thr.pc x)

/-- R292 to R298: MCAST, GATHR and A2A reserve their records and begin a transfer; with too small a quota they raise TAPEFULL. A
delivery writes its bytes and its record; a transfer with nothing left to deliver sets its tag. -/
def Obligations.ForwardTransfers : Prop :=
  ∀ (sw : Bool) (tag : BitVec 6) (a : SReg) (b : Src) (cls : BitVec 2) (ret : Bool) (kind n l oc rc : Nat) (team : Team)
    (g : Segment) (f : Forward) (x : Delivery) (src path : List Nat) (s : State),
    let w (k : Nat) : Word := s.thr.getS (sregAt a k)
    let i := if kind = 0 then Instr.mcast sw tag a b cls ret else if kind = 1 then .gathr sw tag a b cls ret
      else .a2a sw tag a b cls ret
    let count := if kind = 0 then ((tblGet team.groups ((w 2).toNat / 2 ^ 24 % 256) []).filter fun y => y != s.thr.fabno).length
      else (w 2).toNat / 2 ^ 24 % 2 ^ 16
    (kind ≤ 2 → Present s (sregs a 4 ++ srcRegs b) → forwardBad kind (w 2) (w 3) = none →
      forwardMisaligned kind (w 0) (w 1) (w 3) = none → forwardOutside kind (w 0) (w 1) (w 3) = none →
      s.findTeam s.thr.vd s.thr.teamNum = some team → segByHandle team (s.src b) = some (n, g) → g.closed = false →
      (g.used + count ≤ g.quota → Completes i s fun t => Passes sw s t ∧
        t = { s with thr := t.thr, teams := t.teams, seq := s.seq + 1, forwards := t.forwards } ∧
        ((t.findTeam s.thr.vd s.thr.teamNum).bind fun y => tblFind y.segs n) = some { g with used := g.used + count } ∧
        ∃ f : Forward, t.forwards = s.forwards ++ [f] ∧ f.id = s.seq ∧ f.kind = kind ∧ f.tag = tag.toNat ∧
          f.len = (w 2).toNat % 2 ^ 24 ∧ f.first = g.used ∧ f.n = count ∧ f.seg = n) ∧
      (g.quota < g.used + count → CanTrap s → Completes i s fun t => TrapsTo s t 0x0C s.thr.pc
        (BitVec.ofNat 64 (2 ^ 58 + count % 2 ^ 26 * 2 ^ 32 + (s.src b).toNat % 2 ^ 32)))) ∧
    (s.forwards.find? (fun y => y.id = f.id) = some f → (∀ y ∈ s.forwards, y.id = f.id → y = f) →
      (f.begun = true → f.len < 2 ^ 24 → f.todo.find? (fun y => y.idx = x.idx) = some x → f.naddr = 0 →
        s.findTeam (f.vk % 16) f.team = some team → team.vd = f.vk % 16 → team.num = f.team → tblFind team.segs f.seg = some g →
        fabCore s team (f.kind == 1) x.orig = some oc → fabCore s team (f.kind == 2) x.recv = some rc →
        coresMeet s (f.vk % 16) oc rc = true → sillageWindow x.saddr = true → sillageWindow x.daddr = true →
        engFillRanges (engFillRanges s oc (f.vk % 16) [(x.saddr, f.len)]) rc (f.vk % 16) [(x.daddr, f.len)] = s →
        s.follow (f.vk % 16) (pkgOf rc) (s.routerOf oc) path = some (s.routerOf rc) → ceilDiv f.len 64 ≤ x.paid →
        (s.router (s.routerOf rc)).log.length < 512 → loggedAt s (f.vk % 16) f.team f.seg x.idx = none →
        engLocs s oc (f.vk % 16) true false x.saddr f.len = some src →
        engLocs s rc (f.vk % 16) false true x.daddr f.len = some (bytesAt l src.length) →
        (∀ y ∈ (s.core (coreOf f.tid)).port, y.tid ≠ f.tid) → s.ue = [] → s.ce = [] →
        (∀ k, (s.vd k).rmode.getLsbD 0 = false) →
        (∀ y ∈ src ++ bytesAt l src.length, isLost y = false ∧ isTrig y = false) → (∀ y, waitersOf s y = []) →
        Completes (.sillageDelivery f.id x.idx path) s fun t => StoresBytes s t l (src.map (memRead s.mem)) ∧
          (∀ y ∈ t.forwards, y.id = f.id → y.todo = f.todo.filter fun z => z.idx != x.idx) ∧
          ∃ rec_ : List Word, ((t.findTeam (f.vk % 16) f.team).bind fun y => t.record y f.seg x.idx) = some rec_ ∧ recOrig rec_ = x.orig % 2 ^ 20 ∧ recSaddr rec_ = x.saddr % 2 ^ 52 ∧
            recDaddr rec_ = x.daddr % 2 ^ 52 ∧ recKey rec_ = x.key.toNat ∧ recLen rec_ = f.len % 2 ^ 24 ∧
            (f.kind < 16 → f.seg < 64 → x.idx < 2 ^ 26 → recHops rec_ = min path.length 48)) ∧
      (f.begun = true → f.todo = [] → tagWaiters s (coreOf f.tid) f.vk = [] → Completes (.sillageTransferComplete f.id) s fun t =>
        t.mem = s.mem ∧ t.forwards = (s.forwards.filter fun y => y.id != f.id) ∧
        ((t.core (coreOf f.tid)).tagsOf f.vk).bits.getLsbD (f.tag % 64) = true ∧
        ((t.core (coreOf f.tid)).tagsOf f.vk).stat[f.tag % 64]? = some (BitVec.ofNat 4 f.status)))

/-- R301 to R309: RETRACE of records that are current and whose origins are reached queues a retrace, and only the notice slots of
its records change (open values, R303); a stale one raises STALEGEN. A retrace whose turn has come lays out its chunks and asks for
them; one at its origin, whose unit the copy engine starts, is kept; an accord entry leaves its table, its chunk by the port's link;
with every chunk in and every element written the retrace sets its tag. -/
def Obligations.Retraces : Prop :=
  ∀ (sw : Bool) (tag : BitVec 6) (a : SReg) (b : Src) (c : SReg) (ty : Ty) (cls : BitVec 2) (land detoured : Bool) (n k : Nat)
    (team : Team) (g : Segment) (r : Retrace) (e : AccordEntry) (s : State),
    let w2 := s.thr.getS (sregAt a 2)
    let first := w2.toNat % 2 ^ 26
    let cnt := if w2.toNat / 2 ^ 26 % 2 ^ 26 = 0 then g.used - first else w2.toNat / 2 ^ 26 % 2 ^ 26
    let recs := rangeRecords s team n g first cnt
    let stale := (recs.filter fun y => recStale (s.vd s.thr.vk).tensorGen y.2).length
    (s.thr.wait = .none → Present s (sregs a 3 ++ srcRegs b) → s.findTeam s.thr.vd s.thr.teamNum = some team →
      segByHandle team (s.src b) = some (n, g) → g.closed = true → first + w2.toNat / 2 ^ 26 % 2 ^ 26 ≤ g.used →
      w2.toNat / 2 ^ 52 = 0 →
      (stale = 0 → hostRetrace s s.thr.vk = false → Completes (.retrace sw tag a b c ty cls land) s fun t => Passes sw s t ∧
        t = { s with thr := t.thr, seq := s.seq + 1, retraces := t.retraces, mem := t.mem, back := t.back, ue := t.ue,
                     ce := t.ce, free := t.free } ∧
        (∀ b, (∀ y ∈ recs, b ∉ (noticeLocs s s.thr.vd g y.1).getD []) → memRead t.mem b = memRead s.mem b) ∧
        ∃ q : Retrace, t.retraces = s.retraces ++ [q] ∧ q.id = s.seq ∧ q.seg = n ∧ q.tag = tag.toNat ∧ q.ty = ty ∧
          q.phase = 1 ∧ q.begun = false ∧ q.soff = s.thr.getS a ∧ q.doff = s.thr.getS (sregAt a 1) ∧
          q.land = (if land then some c else none) ∧ q.recs.map (fun y => y.idx) = recs.map fun y => y.1) ∧
      (stale ≠ 0 → CanTrap s → Completes (.retrace sw tag a b c ty cls land) s fun t =>
        TrapsTo s t 0x0D s.thr.pc (BitVec.ofNat 64 (stale * 2 ^ 32 + (s.src b).toNat % 2 ^ 32)))) ∧
    (s.retraces.find? (fun y => y.id = r.id) = some r → (∀ y ∈ s.retraces, y.id = r.id → y = r) → retraceTurn s r = true →
      (s.findTeam (r.vk % 16) r.team = some team → r.begun = false → (∀ k, (s.vd k).rmode.getLsbD 0 = false) →
        Completes (.retraceChunkArrival r.id k detoured) s fun t =>
        t.mem = s.mem ∧ ∃ q ∈ t.retraces, q.id = r.id ∧ q.begun = true) ∧
      (∀ (x : Chunk) (w : List Word) (seat orig : Seat) (o : RetraceRec) (locs : List Nat),
        s.findTeam (r.vk % 16) r.team = some team → r.begun = true → r.chunks[k]? = some x →
        x.asked = true → x.data = none → x.way = [] → x.here = originRouter s team r x.recIdx → x.turned = detoured →
        (∀ y ∈ r.chunks, y.asked = true) → (∀ y ∈ s.routers, y.2.accord = []) → retraceRecord s team r x.recIdx = some w →
        team.seat (recRecv w) = some seat → r.recs.find? (fun y => y.idx = x.recIdx) = some o → team.seat o.origin = some orig →
        (∀ k, (s.vd k).rmode.getLsbD 0 = false) →
        engFillRanges s (coreOf seat.tid) (r.vk % 16)
          [((recDaddr w + r.doff.toNat + 64 * x.num) % 2 ^ 52, min 64 (recLen w - 64 * x.num))] = s →
        chunkLocs s team r w x.num = some locs → (∀ y ∈ (s.core (coreOf r.tid)).port, y.tid ≠ r.tid) → s.ue = [] → s.ce = [] →
        (∀ y ∈ locs ++ (r.targets.flatMap fun z => z.locs), isLost y = false) →
        (s.askUnit (arbKey 1 (coreOf orig.tid)) (copyUnit r.vk r.id locs.length r.cls)).2 = true → Completes (.retraceChunkArrival r.id k detoured) s fun t =>
          ∃ q ∈ t.retraces, q.id = r.id ∧ ∃ y ∈ q.chunks, y.recIdx = x.recIdx ∧ y.num = x.num ∧
            y.data = some (locs.map (memRead s.mem))) ∧
      (r.begun = true → r.targets = [] → (∀ y ∈ r.chunks, y.data ≠ none) → r.land = none →
        tagWaiters s (coreOf r.tid) r.vk = [] → Completes (.retraceComplete r.id) s fun t =>
          t.mem = s.mem ∧ t.retraces = s.retraces.filter (fun y => y.id != r.id) ∧
          ((t.core (coreOf r.tid)).tagsOf r.vk).bits.getLsbD (r.tag % 64) = true ∧
          ((t.core (coreOf r.tid)).tagsOf r.vk).stat[r.tag % 64]? =
            some (BitVec.ofNat 4 (if r.status = 0 ∧ r.detour = true then 4 else r.status)))) ∧
    (∀ (x : Chunk) (w : List Word) (f : Nat),
      (s.router n).accord.find? (fun y => y.port == k && (8 ≤ y.chunks.length || y.since + 32 ≤ s.cycle)) = some e →
      e.chunks = [(r.id, x.recIdx, x.num)] → findChunk s r.id x.recIdx x.num = some (r, x) →
      s.findTeam (r.vk % 16) r.team = some team → retraceRecord s team r x.recIdx = some w → x.here = n →
      s.upPort n k = some f → f = originRouter s team r x.recIdx → x.toward = none → x.way.length ≤ 1 →
      Completes (.accordEmit n k) s fun t => (t.router n).accord = (s.router n).accord.erase e ∧ t.mem = s.mem ∧
        (∀ m, m ≠ n → t.router m = s.router m) ∧
        ∃ q, findChunk t r.id x.recIdx x.num = some (q, { x with here := f, way := [] }))

/-! ## The matrix engine -/

/-- R144, R146, R147, R150, R151: a matrix instruction that the configuration, the grant and its pointers admit, with its sources
present and room in the queue and the lock table, queues its entry with its locks; MCFG's configuration is the one that ctl.mcfg
shows. Without a configuration the others raise ILLEGAL, and without their tiles PERM with the tile's number. The model's readings:
that PERM shows the lowest ungranted tile of a mask (log entry 74), and the order of the checks, by which TR's ILLEGAL comes after those
of the tiles (log entries 62 and 76). -/
def Obligations.MatrixInstructionsQueue : Prop :=
  ∀ (sw : Bool) (tag : BitVec 6) (a b : Src) (mc buf tr ab bb sat : Bool) (g acc : BitVec 3) (pe : BitVec 10) (mask : BitVec 8)
    (rm : Rm) (s : State),
    let c := s.core s.gc
    let vk := s.thr.vk
    let cfg := (c.mpartOf vk).shown
    let x := s.src a
    let owns (ns : List Nat) : Prop := ∀ n ∈ ns, (c.grantOf vk).hasTile n = true
    let room (op : MOp) (w : Word) : Prop := (c.mq.filter fun m => !m.op.isDelivery).length < 8 ∧
      c.locks.length + (op.locks vk s.seq w).length ≤ 32
    let queued (t : State) (op : MOp) (w : Word) (rng : BitVec 32) : Prop := KeepsRegs s t ∧ InSequence sw s t ∧ OnlyCore s t s.gc ∧
      t.thr.kept = { s.thr.kept with rng := rng } ∧ (t.core s.gc).locks = c.locks ++ op.locks vk s.seq w ∧
      ∃ e : MEntry, (t.core s.gc).mq = c.mq ++ [e] ∧ e.op = op ∧ e.tag = tag.toNat ∧ e.cfg = w ∧ e.vk = vk ∧
        e.tid = s.thr.id ∧ e.running = false ∧ e.status = 0
    let draws (n : Nat) := drawsOf s rm n
    (Present s (srcRegs a) → cfgOk x = true → room (.mcfg (x ||| 1)) (x ||| 1) → Completes (.mcfg sw tag a) s fun t =>
      queued t (.mcfg (x ||| 1)) (x ||| 1) s.thr.rng ∧ ((t.core s.gc).mpartOf vk).shown = x ||| 1) ∧
    (Present s (srcRegs a) → cfgOk x = false → CanTrap s → Completes (.mcfg sw tag a) s fun t =>
      TrapsTo s t 0x01 s.thr.pc (illegalWord (encode (.mcfg sw tag a)))) ∧
    (cfg.getLsbD 0 = false → CanTrap s → Completes (.mzero sw tag mask) s fun t =>
      TrapsTo s t 0x01 s.thr.pc (illegalWord (encode (.mzero sw tag mask)))) ∧
    (cfg.getLsbD 0 = true →
      (owns (maskTiles mask.toNat) → room (.mzero mask) cfg → Completes (.mzero sw tag mask) s fun t =>
        queued t (.mzero mask) cfg s.thr.rng) ∧
      (∀ n < 8, mask.getLsbD n = true → (∀ k < n, mask.getLsbD k = true → (c.grantOf vk).accs.getLsbD k = true) →
        (c.grantOf vk).accs.getLsbD n = false → CanTrap s → Completes (.mzero sw tag mask) s fun t =>
          TrapsTo s t 0x05 s.thr.pc (BitVec.ofNat 64 n)) ∧
      (∀ e ∈ [(Instr.mmap sw tag acc ab bb, 0), (Instr.mmah sw tag acc ab bb, 1), (Instr.mmas sw tag acc ab bb, 2)],
        cfgPath cfg = e.2 → owns [acc.toNat, bufTile false ab, bufTile true bb] → room (.mma e.2 acc.toNat ab bb) cfg →
          Completes e.1 s fun t => queued t (.mma e.2 acc.toNat ab bb) cfg s.thr.rng) ∧
      (∀ e ∈ [(Instr.mlda sw tag a b mc buf tr g pe, false), (Instr.mldb sw tag a b mc buf tr g pe, true)],
        let sp := if ptrBlog x = 0 then 0 else s.src b
        let op := MOp.mld e.2 x sp mc buf tr g.toNat pe.toNat s.thr.mgrp.toNat
        let dim := if e.2 then cfgN cfg else cfgM cfg
        owns [bufTile e.2 buf] → Present s (srcRegs a) →
          ((tr = true → bpiP (ptrFmt x) ≠ 0 → dim = 32) → loadPtrBad e.2 pe.toNat cfg x = false →
            (ptrBlog x ≠ 0 → Present s (srcRegs b)) → loadScaleBad x sp = none → room op cfg →
            Completes e.1 s fun t => queued t op cfg s.thr.rng) ∧
          (tr = true → bpiP (ptrFmt x) ≠ 0 → dim ≠ 32 → CanTrap s → Completes e.1 s fun t =>
            TrapsTo s t 0x01 s.thr.pc (illegalWord (encode e.1)))) ∧
      (owns [acc.toNat] → Present s (srcRegs a) →
        (plainPtr [if cfgAccm cfg = 0 then 0x0A else 0x05] x = none → room (.mldacc x acc.toNat pe.toNat) cfg →
          Completes (.mldacc sw tag a acc pe) s fun t => queued t (.mldacc x acc.toNat pe.toNat) cfg s.thr.rng) ∧
        (plainPtr [0x0A, 0x08, 0x09, 0x0B, 0x0C, 0x05, 0x03, 0x01] x = none → room (.mst rm sat x acc.toNat pe.toNat []) cfg →
          Completes (.mst sw tag rm sat a acc pe) s fun t => queued t
            (.mst rm sat x acc.toNat pe.toNat (draws (cfgM cfg * cfgN cfg)).2) cfg (draws (cfgM cfg * cfgN cfg)).1) ∧
        (Present s (srcRegs b) → cfgN cfg = 32 → ptrOk x = true → bpiP (ptrFmt x) ≠ 0 → ptrBlog x = 5 → ptrRpl x = 0 →
          ptrFmt (s.src b) = 0x20 → ptrVa x % 4 = 0 → room (.mstq rm x (s.src b) acc.toNat pe.toNat []) cfg →
          Completes (.mstq sw tag rm a b acc pe) s fun t => queued t
            (.mstq rm x (s.src b) acc.toNat pe.toNat (draws (cfgM cfg * 32)).2) cfg (draws (cfgM cfg * 32)).1) ∧
        (cfgAccm cfg = 0 ∨ rm = .rne ∧ sat = false → room (.mscl rm sat x acc.toNat []) cfg →
          Completes (.mscl sw tag rm sat a acc) s fun t => queued t
            (.mscl rm sat x acc.toNat (draws (cfgM cfg * cfgN cfg)).2) cfg (draws (cfgM cfg * cfgN cfg)).1)))

/-- R146, R148, R152, R158 to R162: an entry that nothing holds back starts; a completed one leaves the queue with its effect on
its tiles, its locks gone and its tag set, with the first status other than OK among its deliveries for a multicast; a multicast
gives its buffer to a recipient that has the tile, and CANCELLED counts one that has not, whatever the others take. -/
def Obligations.MatrixEntriesStartAndComplete : Prop :=
  ∀ (gc dest n : Nat) (e m : MEntry) (x : OpBuf) (s : State),
    let c := s.core gc
    (c.mq.find? (fun y => y.id = e.id && !y.running && !y.op.isDelivery) = some e → heldBack s gc e = false →
      (∀ y ∈ c.mq, y.running = true → y.units = 0) → mayStart s gc e.vk = true → (∀ k, (s.vd k).rmode.getLsbD 0 = false) →
      Completes (.matrixEntryStart gc e.id) s fun t =>
        t.mem = s.mem ∧ t.thr = s.thr ∧ ∃ y ∈ (t.core gc).mq, y.id = e.id ∧ y.running = true) ∧
    (c.mq.find? (fun y => y.id = e.id && y.running && !y.op.isDelivery) = some e → e.todo = [] → e.units = 0 → e.dests = [] →
      (e.dsts = [] ∨ e.status ≠ 1 ∧ e.status ≠ 3) → tagWaiters s gc e.vk = [] → Completes (.matrixEntryComplete gc e.id) s fun t =>
        t.mem = s.mem ∧ (t.core gc).mq = c.mq.filter (fun y => y.id != e.id) ∧
        (t.core gc).locks = c.locks.filter (fun y => y.owner != e.id) ∧
        ((t.core gc).tagsOf e.vk).bits.getLsbD (e.tag % 64) = true ∧
        ((t.core gc).tagsOf e.vk).stat[e.tag % 64]? =
          some (BitVec.ofNat 4 (if e.refused = 0 then e.status else e.refused)) ∧
        (∀ mask, e.op = .mzero mask → ∀ k < 8, (t.core gc).acc k =
          if mask.getLsbD k then Vector.replicate 1024 0 else c.acc k) ∧
        (∀ path acc ab bb, e.op = .mma path acc ab bb → e.status = 0 → acc < 8 → (t.core gc).bufs = c.bufs ∧
          ∀ (i : Fin 1024), ((t.core gc).acc acc)[i] = if i.val / 32 < cfgM e.cfg ∧ i.val % 32 < cfgN e.cfg then
            (List.range (cfgK e.cfg / 32)).foldl (fun y k => let p := (c.buf (bufTile false ab)).block (i.val / 32) k
              let q := (c.buf (bufTile true bb)).block (i.val % 32) k
              if path = 0 then mmapBlock (cfgAccm e.cfg) p q y else floatBlock path p q y) (c.acc acc)[i]
            else (c.acc acc)[i]) ∧
        (∀ path acc ab bb, e.op = .mma path acc ab bb → e.status ≠ 0 → (t.core gc).accs = c.accs ∧ (t.core gc).bufs = c.bufs) ∧
        (∀ b a sp mc buf tr g pe grp, e.op = .mld b a sp mc buf tr g pe grp → (t.core gc).accs = c.accs ∧
          (t.core gc).buf (bufTile b buf) = if e.status = 0 then loadedBuf e.cfg b a tr g e.got else failedBuf e.status)) ∧
    (c.mq.find? (fun y => y.id = e.id && y.running) = some e → (∀ y ∈ c.mq, y.id = e.id → y = e) → e.todo = [] →
      e.dests.contains dest = true → deliveredBuf e = some (n, x) → dest ≠ gc →
      (((s.core dest).grantOf e.vk).hasTile n = false → Completes (.multicastDelivery gc e.id dest) s fun t =>
        t.mem = s.mem ∧ t.core dest = s.core dest ∧ ∃ y ∈ (t.core gc).mq, y.id = e.id ∧
          y.dests = e.dests.filter (fun d => d != dest) ∧ y.status = e.status ∧ y.refused = if e.refused = 0 then 1 else e.refused) ∧
      (((s.core dest).grantOf e.vk).hasTile n = true → (∀ y ∈ (s.core dest).mq, y.op.isDelivery = false) →
        Completes (.multicastDelivery gc e.id dest) s fun t => t.core gc = c ∧ t.mem = s.mem ∧
          ∃ y, (t.core dest).mq = (s.core dest).mq ++ [y] ∧ y.op = .deliver n x gc e.id) ∧
      (((s.core dest).grantOf e.vk).hasTile n = true → (s.core dest).mq = [m] → m.op = .deliver n x gc e.id → m.dsts = [] →
        n < 12 → 8 ≤ n →
        Completes (.multicastDelivery gc e.id dest) s fun t => (t.core dest).mq = [] ∧ (t.core dest).buf n = x ∧
          t.mem = s.mem ∧ ∃ y ∈ (t.core gc).mq, y.id = e.id ∧ y.dests = e.dests.filter (fun d => d != dest)))

/-! ## Expert routing -/

/-- R312 to R315: HSINIT, HSIFT and HPOP on a heap of the own scratchpad whose bytes nothing before them holds and no error
touches: what each writes and returns. An entry that is no number, or beats nothing of a full heap, leaves the heap. -/
def Obligations.HeapSteps : Prop :=
  ∀ (sw : Bool) (d : SReg) (a b : Src) (l : Nat) (ls : List Nat) (s : State),
    let va : Addr := (s.src a).setWidth 52
    va.toNat % 8 = 0 → Cleared s (itemsOf s s.gc s.thr.vd va.toNat 72 false true .ownSpad) (l :: ls) → heapClear s l = true → s.ue = [] → s.ce = [] →
    isLost l = false → (∀ i ≤ 8, isLost (l + 8 * i) = false) → (∀ y, waitersOf s y = []) →
    let word (i : Nat) : Word := BitVec.ofNat 64 (ofBytes ((List.range 8).map fun j => memRead s.mem (l + 8 * i + j)))
    let h := word 0
    let n := h.toNat / 16 % 16
    let es := (List.range n).map fun i => word (i + 1)
    let bytes (ws : List Word) : List Byte := (ws.map fun w => toBytes 8 w.toNat).flatten
    (Present s (srcRegs a ++ srcRegs b) →
      (0 < (s.src b).toNat → (s.src b).toNat ≤ 8 → Completes (.hsinit sw a b) s fun t => Passes sw s t ∧
        StoresBytes s t l (bytes (s.src b :: List.replicate 8 0))) ∧
      ((s.src b).toNat = 0 ∨ 8 < (s.src b).toNat → CanTrap s → Completes (.hsinit sw a b) s fun t =>
        TrapsTo s t 0x0F s.thr.pc (s.src b)) ∧
      ((s.src b).toNat / 2 ^ 16 % 2 ^ 16 = 0 → heapInvalid h = false →
        let nan : Prop := fF32.decode ((s.src b).toNat / 2 ^ 32) = .nan
        let d' (t : State) (x : Word) : Prop := InSequence sw s t ∧ SetsS s t d x
        (¬ nan → n < h.toNat % 16 → Completes (.hsift sw d a b) s fun t =>
          d' t 1 ∧ StoresBytes s t l (bytes ((h + 16) :: place (s.src b) es))) ∧
        (¬ nan → h.toNat % 16 ≤ n → beats (s.src b) (es.headD 0) = true → Completes (.hsift sw d a b) s fun t =>
          d' t 2 ∧ StoresBytes s t (l + 8) (bytes (place (s.src b) es.tail))) ∧
        (nan ∨ h.toNat % 16 ≤ n ∧ beats (s.src b) (es.headD 0) = false → Completes (.hsift sw d a b) s fun t =>
          d' t 0 ∧ SameMemory s t)) ∧
      ((s.src b).toNat / 2 ^ 16 % 2 ^ 16 = 0 → heapInvalid h = true → queuedBefore (s.core s.gc).port = [] → CanTrap s →
        Completes (.hsift sw d a b) s fun t =>
        TrapsTo s t 0x0F s.thr.pc h)) ∧
    (Present s (srcRegs a) → HasSlot s → heapInvalid h = false →
      (n = 0 → Completes (.hpop sw d a) s fun t => InSequence sw s t ∧ Defers s t [.s d (BitVec.allOnes 64)] true ∧
        SameMemory s t) ∧
      (0 < n → Completes (.hpop sw d a) s fun t => InSequence sw s t ∧ Defers s t [.s d (word n)] true ∧ ∀ x,
        memRead t.mem x = if l ≤ x ∧ x < l + 8 then (toBytes 8 (h - 16).toNat).getD (x - l) 0
          else if l + 8 * n ≤ x ∧ x < l + 8 * n + 8 then 0 else memRead s.mem x))

/-- R316 to R322: HIST puts one increment for each active lane into the port, and at its home each adds one to COUNT and stops at
its maximum; REMAPW defines its window from a descriptor and rows that R321 admits; REMAPX removes an idle window and passes on
one that is not defined. -/
def Obligations.CountersAndRemapWindows : Prop :=
  ∀ (sw ovf : Bool) (sz : Sz) (pg : PReg) (a b : Src) (v : VReg) (gc : Nat) (locs0 locs : List Nat) (acc : Access) (p : Part)
    (rest : List Access) (s : State),
    let i := if ovf then Instr.histOvf sw sz pg a v else Instr.hist sw sz pg a v
    let lanes : List (Nat × Addr) := ((List.range (1024 / sz.bits)).filter fun i => activeLane (s.thr.getP pg) sz.bits i).map
      fun i => (i, BitVec.ofInt 52 (((s.src a).setWidth 52 : Addr).toNat + 8 * lane (s.thr.getV v) sz.bits i : Nat))
    let va : Addr := (s.src a).setWidth 52
    let w := s.src b
    let vk := s.thr.vk
    let number (x : Nat) : Nat := ofBytes ((List.range 8).map fun j => memRead s.mem (x + j))
    let desc := itemsOf s s.gc s.thr.vd va.toNat 16 true false .any
    let words := elems 8 ((pieceLocs s desc locs0).map (memRead s.mem))
    let w0 := words.getD 0 0
    let w1 := words.getD 1 0
    let pages := itemsOf s s.gc s.thr.vd w0 (8 * (w1 % 2 ^ 13)) true false .any
    let rows := elems 8 ((pieceLocs s pages locs).map (memRead s.mem))
    (Present s (srcRegs a ++ [.v v, .p pg]) → queueFull (s.core s.gc).port = false → (∀ e ∈ lanes, e.2.toNat % 8 = 0) →
      Cleared s (lanes.map fun e => .one e.2.toNat 8 true true .sliceOnly) locs → Completes i s fun t => Passes sw s t ∧
        EntersPort s t (if lanes = [] then [] else [s.newAccess (.hist ovf) .t false false none 0
          ((lanes.zip locs).map fun e => ⟨e.1.1, e.1.2, e.2, 8, []⟩)])) ∧
    (OldestOf s gc acc p rest → acc.kind = .hist ovf → p.len = 8 → s.ue = [] → s.ce = [] → isLost p.loc = false → isTrig p.loc = false →
      (∀ y, waitersOf s y = []) → Completes (.accessAtHome (.port gc acc.id p.lane)) s fun t =>
        let x := number p.loc
        StoresBytes s t p.loc (toBytes 8 (if x % 2 ^ 32 = 2 ^ 32 - 1 then (if x / 2 ^ 32 % 2 = 1 then x else x + 2 ^ 32)
          else x + 1)) ∧ (t.core gc).port = portAfter acc rest) ∧
    (Present s (srcRegs a ++ srcRegs b) → va.toNat % 16 = 0 → Cleared s desc locs0 →
      (63 < w.toNat → CanTrap s → Completes (.remapw sw a b) s fun t => TrapsTo s t 0x0F s.thr.pc w) ∧
      (w.toNat ≤ 63 → tblFind (s.vd vk).remaps w.toNat = none → (∀ y ∈ (s.core s.gc).port, y.tid ≠ s.thr.id) → s.ue = [] → s.ce = [] →
        (∀ y ∈ pieceLocs s desc locs0, isLost y = false) → remapBad (BitVec.ofNat 64 w0) (BitVec.ofNat 64 w1) = none →
        Cleared s pages locs → (∀ y ∈ pieceLocs s pages locs, isLost y = false) → rowBad ((w1 / 2 ^ 16 % 2 ^ 10 + 1) * 64) rows = none →
        Completes (.remapw sw a b) s fun t => Passes sw s t ∧ t = { s with thr := t.thr, vds := t.vds } ∧
          tblFind (t.vd vk).remaps w.toNat = some ⟨s.thr.teamNum, (w1 / 2 ^ 16 % 2 ^ 10 + 1) * 64, rows⟩)) ∧
    (Present s (srcRegs a) →
      (63 < (s.src a).toNat → CanTrap s → Completes (.remapx sw a) s fun t => TrapsTo s t 0x0F s.thr.pc (s.src a)) ∧
      ((s.src a).toNat ≤ 63 → tblFind (s.vd vk).remaps (s.src a).toNat = none → Completes (.remapx sw a) s fun t =>
        Passes sw s t ∧ SameWorld s t) ∧
      ((s.src a).toNat ≤ 63 → (tblFind (s.vd vk).remaps (s.src a).toNat).isSome → windowBusy s vk (s.src a).toNat = false →
        Completes (.remapx sw a) s fun t => Passes sw s t ∧ t = { s with thr := t.thr, vds := t.vds } ∧
          tblFind (t.vd vk).remaps (s.src a).toNat = none ∧ t.vd vk =
            { s.vd vk with remaps := (s.vd vk).remaps.filter fun e => e.1 != (s.src a).toNat }))

/-! ## Scheduling, barriers, progress -/

/-- R338 to R342: DISP takes a place and posts its four words, or answers 1 at a full queue; the post joins its queue; the oldest
task of the highest level binds to the oldest waiter, whose registers take its words. WFW empties its registers and waits, and
completes once bound; SLEEP waits for the time base. -/
def Obligations.DispensersAndSleep : Prop :=
  ∀ (sw : Bool) (d a : SReg) (prio : BitVec 3) (sc sc' : Scope) (x : Src) (id tid cl vd num k w : Nat) (words : List Word)
    (task : Task) (pre post : List Task) (rest : List Nat) (wake r : Word) (s : State),
    let cluster := s.thr.id / 1024
    let q := s.disp cluster s.thr.vd s.thr.teamNum
    (Present s (sregs a 4) →
      (128 ≤ q.tasks.length + q.places → Completes (.disp sw d a prio sc) s fun t => WritesS s t d 1 ∧ InSequence sw s t) ∧
      (q.tasks.length + q.places < 128 → Completes (.disp sw d a prio sc) s fun t => InSequence sw s t ∧ SetsS s t d 0 ∧
        t = { s with thr := t.thr, disps := t.disps, posted := t.posted, seq := s.seq + 1 } ∧
        t.disp cluster s.thr.vd s.thr.teamNum = { q with places := q.places + 1 } ∧
        t.posted = s.posted ++ [.disp s.seq s.thr.id sc cluster s.thr.vd s.thr.teamNum
          ((List.range 4).map fun k => s.thr.getS (sregAt a k)) prio.toNat])) ∧
    (s.posted.find? (fun p => p.id = id) = some (.disp id tid sc' cl vd num words k) → releaseReady s tid id sc' = true →
      (∀ p ∈ s.posted, p.tid = tid → id ≤ p.id) → (∀ y, s.findTeam vd num = some y → y.away = false) →
      Completes (.dispPostArrival id) s fun t => t.posted = s.posted.filter (fun p => p.id != id) ∧
        t.disp cl vd num = { s.disp cl vd num with
          tasks := (s.disp cl vd num).tasks ++ [⟨words, k⟩], places := (s.disp cl vd num).places - 1 } ∧
        t = { s with disps := t.disps, posted := t.posted }) ∧
    ((s.disp cl vd num).tasks = pre ++ task :: post → (∀ y ∈ pre, y.prio < task.prio) → (∀ y ∈ post, y.prio ≤ task.prio) →
      (s.disp cl vd num).waiters = w :: rest → w ∉ rest → (s.thread w).called = false → s.Keyed → (s.thread w).st = .waitWork d → d.val ≤ 28 →
      (s.core (coreOf w)).landing = [] → Completes (.dispenserBind cl vd num) s fun t =>
        (t.disp cl vd num).tasks = pre ++ post ∧ (t.disp cl vd num).waiters = rest ∧ (t.thread w).st = .ready ∧
        (∀ i < 4, (t.thread w).getS (sregAt d i) = task.words.getD i 0 ∧ (t.thread w).hasS (sregAt d i) = true) ∧
        SameS (s.thread w) (t.thread w) ((List.range 4).map (sregAt d)) ∧ SameV (s.thread w) (t.thread w) [] ∧
        t.mem = s.mem) ∧
    (s.thr.wait = .none → Completes (.wfw sw d) s fun t => t.thr.st = .waitWork d ∧ t.thr.pc = s.thr.pc ∧
      (∀ i < 4, t.thr.getS (sregAt d i) = 0 ∧ t.thr.hasS (sregAt d i) = false) ∧
      SameS s.thr t.thr ((List.range 4).map (sregAt d)) ∧ SameV s.thr t.thr [] ∧ SameP s.thr t.thr [] ∧
      (t.disp cluster s.thr.vd s.thr.teamNum).waiters = q.waiters ++ [s.thr.id] ∧
      t = { s with thr := t.thr, disps := t.disps }) ∧
    (s.thr.wait = .hold 7 true r → Completes (.wfw sw d) s fun t => Passes sw s t ∧ SameWorld s t) ∧
    (s.thr.wait = .none → Present s (srcRegs x) →
      ((s.src x).toNat ≤ s.time (pkgOfThread s.thr.id) → Completes (.sleep sw x) s fun t => Passes sw s t ∧ SameWorld s t) ∧
      (s.time (pkgOfThread s.thr.id) < (s.src x).toNat → Completes (.sleep sw x) s fun t =>
        Stays s t ∧ SameWorld s t ∧ t.thr.st = .sleeping (s.src x))) ∧
    (s.thr.wait = .hold 8 true r → Completes (.sleep sw x) s fun t => Passes sw s t ∧ SameWorld s t) ∧
    (s.Keyed → (s.thread w).st = .sleeping wake → wake.toNat ≤ s.time (pkgOfThread w) → (s.thread w).called = false →
      Completes (.sleepWake w) s fun t =>
      t.thread w = { s.thread w with st := .ready, wait := .hold 8 true 0 } ∧ t.mem = s.mem ∧ t.cores = s.cores)

/-- R344, R345: an arrival sets the thread's bit and travels; counted at its scope, it completes the phase once every member has
arrived, which clears the bits and ends the waits. BARWT waits only where its thread has arrived; BARSYNC does both. A thread
outside the group, or a barrier that holds arrivals for another one, raises PERM. -/
def Obligations.Barriers : Prop :=
  ∀ (sw : Bool) (sc sc' : Scope) (n : BitVec 7) (g : BitVec 8) (cls : BitVec 2) (id tid vk team k grp m : Nat) (y : Team) (s : State),
    let refused := (∀ y, s.findTeam s.thr.vd s.thr.teamNum = some y → s.thr.fabno ∉ tblGet y.groups g.toNat []) ∨
      ∃ b ∈ (s.core s.gc).bars, b.is s.thr.vk s.thr.teamNum n.toNat = true ∧ b.group ≠ g.toNat ∧ b.arrived ≠ 0
    let arrived (t : State) : Bool := (t.core s.gc).bars.any fun b =>
      b.is s.thr.vk s.thr.teamNum n.toNat && b.arrived.getLsbD (s.thr.id % 8)
    let arrives (t : State) : Prop := OnlyCore { s with posted := t.posted } t s.gc ∧ arrived t = true ∧
      (t.core s.gc).port = (s.core s.gc).port ∧
      t.posted = s.posted ++ [.arrival s.seq s.thr.id sc s.thr.vk s.thr.teamNum n.toNat g.toNat s.thr.tcls]
    (s.thr.wait = .none →
      (¬ refused → arrived s = false →
        Completes (.bararv sw sc n g) s (fun t => Passes sw s t ∧ arrives t) ∧
        Completes (.barsync sw sc n g) s (fun t => Stays s t ∧ arrives t ∧ t.thr.wait = .barrier n.toNat false ∧
          t.thr.park.isSome = true)) ∧
      (¬ refused → arrived s = true → Completes (.bararv sw sc n g) s fun t => Passes sw s t ∧ SameWorld s t) ∧
      (refused → CanTrap s → Completes (.bararv sw sc n g) s (fun t => TrapsTo s t 0x05 s.thr.pc (g.setWidth 64)) ∧
        Completes (.barsync sw sc n g) s (fun t => TrapsTo s t 0x05 s.thr.pc (g.setWidth 64))) ∧
      (arrived s = false → Completes (.barwt sw sc n) s fun t => Passes sw s t ∧ SameWorld s t) ∧
      (arrived s = true → Completes (.barwt sw sc n) s fun t => Stays s t ∧ SameWorld s t ∧
        t.thr.wait = .barrier n.toNat false ∧ t.thr.park.isSome = true)) ∧
    (s.thr.wait = .barrier n.toNat true → Completes (.barwt sw sc n) s (fun t => Passes sw s t ∧ SameWorld s t) ∧
      Completes (.barsync sw sc n g) s (fun t => Passes sw s t ∧ SameWorld s t)) ∧
    (s.posted.find? (fun p => p.id = id) = some (.arrival id tid sc' vk team k grp cls) → releaseReady s tid id sc' = true →
      Completes (.barrierArrivalCounted id) s fun t => t.posted = s.posted.filter (fun p => p.id != id) ∧ t.mem = s.mem ∧
        ∃ b ∈ (t.core (coreOf tid)).bars, b.is vk team k = true ∧ b.group = grp ∧ b.counted.getLsbD (tid % 8) = true) ∧
    (s.findTeam vk team = some y → s.Keyed → (∃ m ∈ groupThreads y grp, ∃ b ∈ (s.core (coreOf m)).bars,
        b.is (vdKey (pkgOfThread m) vk) team k = true ∧ b.group = grp ∧ b.counted ≠ 0) →
      (∀ m ∈ groupThreads y grp, (s.thread m).st = .retired ∨ ∃ b ∈ (s.core (coreOf m)).bars,
        b.is (vdKey (pkgOfThread m) vk) team k = true ∧ b.group = grp ∧ b.counted.getLsbD (m % 8) = true) →
      m ∈ groupThreads y grp → Completes (.barrierPhaseComplete vk team k grp) s fun t => t.mem = s.mem ∧
        (∀ b ∈ (t.core (coreOf m)).bars, b.is (vdKey (pkgOfThread m) vk) team k = true → b.group = grp →
          b.arrived = 0 ∧ b.counted = 0) ∧
        ((s.thread m).wait = .barrier k false → (∃ b ∈ (s.core (coreOf m)).bars,
          b.is (vdKey (pkgOfThread m) vk) team k = true ∧ b.group = grp ∧ b.arrived.getLsbD (m % 8) = true) →
          (t.thread m).wait = .barrier k true) ∧
        SameS (s.thread m) (t.thread m) [] ∧ SameV (s.thread m) (t.thread m) [] ∧ (t.thread m).pc = (s.thread m).pc)

/-- R358, R360: PROG and CKPT complete with what they post; an addition of PROG saturates into DONE; a CKPT, with nothing of its
thread before it and its release met, sets MARK and takes DONE as CDONE in one step. -/
def Obligations.ProgressAndCheckpoints : Prop :=
  ∀ (sw : Bool) (sc sc' : Scope) (a : Src) (id tid : Nat) (n : BitVec 32) (y : Team) (s : State),
    let x := s.thread tid
    (Present s (srcRegs a) →
      Completes (.prog sw a) s (fun t => Passes sw s t ∧ t = { s with thr := t.thr, seq := s.seq + 1, posted := t.posted } ∧
        t.posted = s.posted ++ [.prog s.seq s.thr.id ((s.src a).setWidth 32)]) ∧
      Completes (.ckpt sw sc a) s (fun t => Passes sw s t ∧ t = { s with thr := t.thr, seq := s.seq + 1, posted := t.posted } ∧
        t.posted = s.posted ++ [.ckpt s.seq s.thr.id sc ((s.src a).setWidth 32)])) ∧
    (s.posted.find? (fun p => p.id = id) = some (.prog id tid n) → s.findTeam x.vd x.teamNum = some y →
      Completes (.progressAdditionApplied id) s fun t =>
        let sum := if y.progDone.toNat + n.toNat < 2 ^ 32 then y.progDone + n else BitVec.allOnes 32
        t.findTeam x.vd x.teamNum = some { y with progDone := sum } ∧ t.posted = s.posted.filter (fun p => p.id != id) ∧
        t = { s with teams := t.teams, posted := t.posted }) ∧
    (s.posted.find? (fun p => p.id = id) = some (.ckpt id tid sc' n) → s.findTeam x.vd x.teamNum = some y →
      (∀ p ∈ s.posted, p.tid = tid → id ≤ p.id) → releaseReady s tid id sc' = true → Completes (.ckptRecord id) s fun t =>
        t.findTeam x.vd x.teamNum = some { y with mark := n, cdone := y.progDone } ∧
        t.posted = s.posted.filter (fun p => p.id != id) ∧ t = { s with teams := t.teams, posted := t.posted })

/-! ## Translation -/

/-- R29, R411, R413 to R415: TDEF defines, replaces or removes a tensor and checks its limits in order; TLBPIN installs pinned
entries in every router of its scope, or answers all ones where one has no room; TLBINV with nothing that holds a translation
removes what its range touches and returns 0. The model's readings: that TDEF checks the id before the pitch (log entry 36), that
TLBPIN returns the count of leaves (log entry 58), and that a tensor of length 0 overlaps none (log entry 59). -/
def Obligations.TensorsAndTranslationEntries : Prop :=
  ∀ (sw force : Bool) (sc : Scope) (d a : SReg) (b : Src) (loge : BitVec 2) (id : BitVec 12) (s : State),
    let lo := (s.thr.getS a).toNat % 2 ^ 52
    let len := (s.thr.getS (sregAt a 1)).toNat
    let pitch := (s.src b).toNat
    let e := 2 ^ loge.toNat
    let vk := s.thr.vk
    let fits := id ≠ 0 ∧ pitch ≠ 0 ∧ pitch % e = 0 ∧ pitch ≤ 2 ^ 32 ∧ lo % e = 0 ∧ len % pitch = 0
    let apart := len ≠ 0 → ∀ y ∈ (s.vd vk).tensors, y.1 = id.toNat ∨ overlaps y.2.base y.2.len lo len = false
    let pages := (pagesOf lo len).map fun p => p.1 / 4096
    let es := pinEntries s vk pages
    let room (r : Nat) : Prop := (s.router r).pinned vk + (s.router r).newPins es ≤ 64
    (Present s (sregs a 2 ++ srcRegs b) →
      (fits → len = 0 ∨ lo + len ≤ remapBase → apart → Completes (.tdef sw a b loge id) s fun t => Passes sw s t ∧
        t = { s with thr := t.thr, vds := t.vds, back := t.back } ∧
        tblFind (t.vd vk).tensors id.toNat = if len = 0 then none else some ⟨lo, len, pitch, e⟩) ∧
      (id = 0 → CanTrap s → Completes (.tdef sw a b loge id) s fun t => TrapsTo s t 0x0F s.thr.pc 0) ∧
      (id ≠ 0 → pitch = 0 ∨ pitch % e ≠ 0 ∨ 2 ^ 32 < pitch → CanTrap s → Completes (.tdef sw a b loge id) s fun t =>
        TrapsTo s t 0x0F s.thr.pc (s.src b)) ∧
      (fits → len ≠ 0 → remapBase < lo + len → CanTrap s → Completes (.tdef sw a b loge id) s fun t =>
        TrapsTo s t 0x04 s.thr.pc (BitVec.ofNat 64 lo))) ∧
    (Present s (sregs a 2) → 0 < len → lo + len ≤ remapBase →
      (∀ p ∈ pages, ∃ l, walk s vk p = some l ∧ (l.r || l.w || l.x) = true) →
      ((∃ r ∈ scopeRouters sc (s.routerOf s.gc), ¬ room r) → Completes (.tlbpin sw sc d a) s fun t =>
        WritesS s t d (BitVec.allOnes 64) ∧ InSequence sw s t) ∧
      ((∀ r ∈ scopeRouters sc (s.routerOf s.gc), room r) → Completes (.tlbpin sw sc d a) s fun t => InSequence sw s t ∧
        SetsS s t d (BitVec.ofNat 64 es.length) ∧ t = { s with thr := t.thr, routers := t.routers, teams := t.teams } ∧
        ∀ r ∈ scopeRouters sc (s.routerOf s.gc), ∀ x ∈ es, ∃ y ∈ (t.router r).tlb, y.vk = x.vk ∧ y.page = x.page ∧ y.big = x.big ∧
          s.thr.teamNum ∈ y.pins)) ∧
    (s.thr.wait = .none → Present s (sregs a 2 ++ if force then srcRegs b else []) →
      (0 < len → lo + len ≤ remapBase → (∀ i ∈ s.invs, i.tid ≠ some s.thr.id) → holdersOf s vk lo len = [] →
        accessesHold s vk lo len s.seq = false → Completes (.tlbinv sw d a b force) s fun t => InSequence sw s t ∧ SetsS s t d 0 ∧
          t.mem = s.mem ∧ ∀ r, ∀ y ∈ (t.router r).tlb, ¬ (y.vk = vk ∧
            overlaps (y.page * 4096) (if y.big then 2 ^ 21 else 4096) lo len = true)) ∧
      (len = 0 → CanTrap s → Completes (.tlbinv sw d a b force) s fun t => TrapsTo s t 0x0F s.thr.pc 0) ∧
      (0 < len → remapBase < lo + len → CanTrap s → Completes (.tlbinv sw d a b force) s fun t =>
        TrapsTo s t 0x04 s.thr.pc (BitVec.ofNat 64 (max lo remapBase))))

/-- R409, R410, R415: a walk that ends with a leaf that permits the accesses fills the cache and the miss is over; one that fails
in hardware mode gives its waiting threads XLATE. At its deadline an invalidation counts what it cancels. -/
def Obligations.WalksAndDeadlines : Prop :=
  ∀ (r vk page w : Nat) (m : Miss) (l : Leaf) (i : Invalidation) (dl : Nat) (s : State),
    ((s.router r).misses.find? (fun m => m.vk == vk && m.page == page) = some m → m.held = none → m.dead = false →
      (walk s vk page = some l → (m.needR = true → l.r = true) → (m.needW = true → l.w = true) → (m.needX = true → l.x = true) →
        Completes (.translationWalkEnd r vk page) s fun t => t = { s with routers := t.routers } ∧
          ((t.router r).find vk page).isSome = true ∧
          (t.router r).misses = (s.router r).misses.filter fun m => !(m.vk == vk && m.page == page)) ∧
      (walk s vk page = none → (s.vd vk).rmode.getLsbD 0 = false → s.Keyed → w ∈ m.waiters →
        Completes (.translationWalkEnd r vk page) s fun t => t.mem = s.mem ∧
          (walkKey vk page, 0x04) ∈ (t.thread w).walkFail ∧
          (t.router r).misses = (s.router r).misses.filter fun m => !(m.vk == vk && m.page == page))) ∧
    (s.invs.find? (fun x => x.id = i.id) = some i → (∀ x ∈ s.invs, x.id = i.id → x = i) → i.deadline = some dl →
      dl ≤ s.time (i.vk / 16) → Completes (.tlbinvDeadline i.id) s fun t => ∀ x ∈ t.invs, x.id = i.id →
        x = { i with cancelled := i.cancelled + (i.holders.filter (opAlive s)).length })

/-! ## Steps of a thread -/

/-- R33, R35, R45, R47: a line whose fetch meets its bytes is held where it is well formed and raises LINEFMT where it is not. A
formed result returns with its value; once all have returned the switch point commits them in issue order: each scalar, vector and
predicate register holds the value of the last result for it, and one for which none is outstanding is as before. -/
def Obligations.LinesAndCommits : Prop :=
  ∀ (id k l : Nat) (e : BufEntry) (a : Word) (d : SReg) (va : Addr) (desc : List Byte) (cls : BitVec 2) (s : State), s.Keyed →
    let x := s.thread id
    let la := lineAddr x.pc
    let line := lineOfBytes la ((List.range 64).map fun i => memRead s.mem (l + i))
    let ws := (x.buf.filter fun e => e.fail.isNone).flatMap fun e => e.writes
    let last (r : Reg) := ws.reverse.find? fun w => regOfWrite w = r
    (x.st = .ready → x.stop ≠ 2 → x.delivers = false → x.storeHold = [] → x.want = none → x.lineAt la = none →
      fetchRes s x la.toNat = .loc l → s.ue = [] → s.ce = [] → isLost l = false → isLost (l + 32) = false →
      (∀ p ∈ s.pkgs, p.2.linksDown = []) →
      (line.ok = true → Completes (.lineFetch id) s fun t => (t.thread id).line = some line ∧ t.mem = s.mem ∧
        { t.thread id with line := x.line, line2 := x.line2, walkFail := x.walkFail } = x) ∧
      (line.ok = false → x.hm = false → x.buf = [] → x.tvec ≠ 0 → Completes (.lineFetch id) s fun t =>
        (t.thread id).hm = true ∧ (t.thread id).cause = 0x02 ∧ (t.thread id).tval = la.setWidth 64 ∧
        (t.thread id).epc = x.pc &&& ~~~1#52 ∧ (t.thread id).pc = x.tvec ∧ t.mem = s.mem)) ∧
    (x.buf.find? (fun e => e.id = k) = some e → e.done = true → e.returned = false →
      let returns (t : State) (f : List RegWrite → List RegWrite) : Prop := (t.thread id).buf = x.buf.map fun y =>
        if y.id = k then { y with returned := true, writes := f y.writes } else y
      (e.fail.isSome ∨ e.form = .plain → Completes (.deferredResultReturn id k) s fun t =>
        returns t (fun y => y) ∧ t.mem = s.mem) ∧
      (e.fail = none → e.form = .cpyq d a → Completes (.deferredResultReturn id k) s fun t =>
        returns t (fun y => y.map (RegWrite.fill (cpyqValue s (coreOf id) x.vk a)))) ∧
      (e.fail = none → e.form = .tapeq d a → Completes (.deferredResultReturn id k) s fun t =>
        returns t (fun y => y.map (RegWrite.fill (tapeqValue s x a)))) ∧
      (e.fail = none → e.form = .planset d va desc cls → Completes (.deferredResultReturn id k) s fun t =>
        returns t (fun y => y.map (RegWrite.fill (planReserve s x desc cls).2)) ∧ t.mem = s.mem)) ∧
    (x.st = .switchWait .go → (∀ e ∈ x.buf, e.returned = true) → (s.core (coreOf id)).landing = [] →
      Completes (.switchPointCommit id) s fun t => (t.thread id).st = .ready ∧ (t.thread id).buf = [] ∧
        (t.thread id).pc = x.pc ∧ t.mem = s.mem ∧
        (t.thread id).pend = x.pend ++ x.buf.filterMap (fun e => e.fail.map fun c => ⟨c, e.pc.setWidth 64, none, 0⟩) ∧
        (∀ r, ((∃ v, last (.s r) = some (.s r v) ∧ (t.thread id).getS r = v ∧ (t.thread id).hasS r = true) ∨
          last (.s r) = none ∧ (t.thread id).getS r = x.getS r ∧ (t.thread id).hasS r = x.hasS r)) ∧
        (∀ r, ((∃ v, last (.v r) = some (.v r v) ∧ (t.thread id).getV r = v ∧ (t.thread id).hasV r = true) ∨
          last (.v r) = none ∧ (t.thread id).getV r = x.getV r ∧ (t.thread id).hasV r = x.hasV r)) ∧
        ∀ r, r.val ≠ 0 → ((∃ v, last (.p r) = some (.p r v) ∧ (t.thread id).getP r = v ∧ (t.thread id).hasP r = true) ∨
          last (.p r) = none ∧ (t.thread id).getP r = x.getP r ∧ (t.thread id).hasP r = x.hasP r))

/-- R329, R330, R347, R348: a pending cause is delivered at a boundary, and a park that has lasted its limit ends with PARKLONG:
with no result outstanding the thread enters its handler with bit 63 of the cause set and its registers as they were.

R349: a park that has lasted its limit in handler mode is a double fault: the thread retires with an event of type 2, and the trap
registers keep the first trap's values.

R193, R195, R198, R201: an LDF or STE whose retries are exhausted is abandoned with SYNCRETRY and its word unchanged; a WAITGE whose
word's range is being saved is removed, and its thread takes SYNCRETRY, asynchronously (the model's reading, log entry 98); one
turned away is presented again and waits where there is room; a WAITGE turned away takes a value that has reached its threshold;
a gather engine reads one element of a GATHQ. -/
def Obligations.AsynchronousCausesAndWaits : Prop :=
  (∀ (id : Nat) (p : Pending) (rest : List Pending) (k : Park) (s : State), s.Keyed →
    let x := s.thread id
    let enters (t : State) (code : Nat) (tval : Word) : Prop := (t.thread id).hm = true ∧
      (t.thread id).cause = 0x8000000000000000#64 ||| BitVec.ofNat 64 code ∧ (t.thread id).tval = tval ∧
      (t.thread id).epc = x.pc &&& ~~~1#52 ∧ (t.thread id).pc = x.tvec ∧ SameS x (t.thread id) [] ∧
      SameV x (t.thread id) [] ∧ SameP x (t.thread id) [] ∧ (t.thread id).park = none ∧ t.mem = s.mem
    x.st = .ready → x.buf = [] → x.tvec ≠ 0 → x.hm = false → (s.core (coreOf id)).landing = [] → x.wait = .none →
    (x.pend = p :: rest → x.delivers = true → x.storeHold = [] → p.code ≠ 0x09 → Completes (.asyncCauseDelivery id) s fun t =>
      enters t p.code p.tval ∧ (t.thread id).pend = rest) ∧
    (x.park = some k → k.limit ≠ 0 → k.start + k.limit * 1024 ≤ s.cycle → x.parkOver k = false → Completes (.parklong id) s fun t =>
      enters t 0x07 k.tval ∧ (t.thread id).pend = x.pend)) ∧
  (∀ (id : Nat) (k : Park) (s : State), s.Keyed →
    let x := s.thread id
    x.st = .ready → x.hm = true → x.park = some k → k.limit ≠ 0 → k.start + k.limit * 1024 ≤ s.cycle → x.parkOver k = false →
      Completes (.parklong id) s fun t => RetiresWith (s.focus id) t 2 7 x.pc k.tval ∧ (t.thread id).epc = x.epc ∧
        (t.thread id).cause = x.cause ∧ (t.thread id).tval = x.tval) ∧
  (∀ (gc : Nat) (a : Access) (p : Part) (pre post : List Access) (limit r : Nat) (s : State),
    (s.core gc).port = pre ++ a :: post → (∀ b ∈ pre ++ post, b.id ≠ a.id) → s.Keyed → a.parts = [p] →
    let value := ofBytes ((List.range p.len).map fun i => memRead s.mem (p.loc + i))
    let gone (t : State) : Prop := (∀ b, b ∈ (t.core gc).port ↔ b ∈ pre ++ post)
    (a.waiting = true → a.kind = .ldf ∨ a.kind = .ste → (s.thread a.tid).syncl.toNat = limit → limit ≠ 0 →
      limit ≤ a.retries → Completes (.syncretry gc a.id) s fun t => gone t ∧ t.mem = s.mem ∧ t.full = s.full ∧
        (t.thread a.tid).buf = (s.thread a.tid).buf.map fun e =>
          if e.id = a.id then { e with fail := some 0x08, done := true } else e) ∧
    (a.waiting = true → a.kind = .waitge r → s.wordInSave a = true → (s.thread a.tid).wait = .waitge a.id none false →
      Completes (.syncretry gc a.id) s fun t => gone t ∧ t.mem = s.mem ∧ t.full = s.full ∧ (t.thread a.tid).wait = .none ∧
        (t.thread a.tid).pend = (s.thread a.tid).pend ++ [⟨0x08, p.va.setWidth 64, none, 0⟩]) ∧
    (a.turnedAway = true → a.kind = .ldf → s.isFull p.loc = false → homeHasRoom s gc { a with turnedAway := false } p = true →
      Completes (.syncRequestRepresent gc a.id) s fun t => t.mem = s.mem ∧ t.full = s.full ∧
        (t.core gc).port = pre ++ { a with turnedAway := false, waiting := true, arrived := s.seq } :: post) ∧
    (a.turnedAway = true → a.kind = .waitge r → isSpad p.loc = false → s.ue = [] → s.ce = [] → isLost p.loc = false → r ≤ value →
      (s.thread a.tid).wait = .waitge a.id none false → Completes (.watchReread gc a.id) s fun t => gone t ∧ t.mem = s.mem ∧
        (t.thread a.tid).wait = .waitge a.id (some (BitVec.ofNat 64 value)) false) ∧
    (a.kind = .gath → pre = [] → (∀ e ∈ s.pkgs, e.2.linksDown = []) → s.ue = [] → s.ce = [] → isLost p.loc = false →
      Completes (.gatherEngineServe gc a.id) s fun t =>
        gone t ∧ t.mem = s.mem ∧ (t.thread a.tid).buf = (s.thread a.tid).buf.map fun e => if e.id = a.id then
          { e with writes := e.writes.map (putResult a p value 0), form := e.form.take p value, done := true } else e))

/-! ## Requests that wait at a home -/

/-! ## Launching -/

/-- R420, R421, R394: a doorbell within the ring sets TAIL and one beyond it sets ERR and posts reason 7; CTL sets EN; RST of a
disabled queue empties it; QBASE, QSIZE and lrate take their fields; the registers read as they stand. An entry that breaks R420 is refused with reason 7, a launch
whose dependence is dead with reason 9, and a sound launch is left for selection.

R422, R353: a record is written into the slot at ETAIL with the next SEQ where the ring has room, and raises the ring's vector
unless it is masked; it is held where there is no room, and counted by LOST where 256 are held; EHEAD and ECTL take their fields, and room that has returned is filled in order. -/
def Obligations.QueuesAndRings : Prop :=
  (∀ (fn q val vd : Nat) (en : Bool) (w : Word) (e : List Byte) (s : State), hasQueue s fn q = true →
    let x := s.queue fn q
    let passed (t : State) : Prop := SetsQueue s t fn q { x with head := (x.head + 1) % 2 ^ x.log, waiting := none }
    (val < 2 ^ x.log → Completes (.doorbell fn q val) s fun t => SetsQueue s t fn q { x with tail := val }) ∧
    (2 ^ x.log ≤ val → Completes (.doorbell fn q val) s fun t =>
      ∃ u, SetsQueue s u fn q { x with err := true } ∧ t = postRefusal u fn 0 7 0) ∧
    Completes (.qctlEn fn q en) s (fun t => SetsQueue s t fn q { x with en := en }) ∧
    (x.en = false → Completes (.qctlRst fn q) s fun t => t.mem = s.mem ∧ t = { s with fns := t.fns, teams := t.teams } ∧
      t.queue fn q = { x with head := 0, tail := 0, err := false, waiting := none, front := [] } ∧
      ∀ k, k ≠ q → t.queue fn k = s.queue fn k) ∧
    (x.en = false →
      Completes (.registerWrite fn (0x100 + 32 * q) w) s (fun t => SetsQueue s t fn q
        { x with base := w.toNat / 2 ^ 12 % 2 ^ 40 * 2 ^ 12 }) ∧
      Completes (.registerWrite fn (0x108 + 32 * q) w) s (fun t => SetsQueue s t fn q
        { x with log := if 6 ≤ w.toNat % 32 ∧ w.toNat % 32 ≤ 16 then w.toNat % 32 else 6 })) ∧
    (x.en = true → Completes (.registerWrite fn (0x100 + 32 * q) w) s fun t => t = s) ∧
    (q < 8 → registerRead s fn (0x100 + 32 * q) = BitVec.ofNat 64 x.base ∧
      registerRead s fn (0x108 + 32 * q) = BitVec.ofNat 64 x.log ∧ registerRead s fn (0x110 + 32 * q) = BitVec.ofNat 64 x.head ∧
      registerRead s fn (0x118 + 32 * q) = BitVec.ofNat 64 ((if x.err then 4 else 0) + if x.en then 1 else 0)) ∧
    (fn % 32 = 0 → vd < 16 → (s.vd (vdKey (fn / 32) vd)).isVd = true →
      Completes (.registerWrite fn (0x10010 + 0x1000 * vd) w) s fun t => SetsVd s t (vdKey (fn / 32) vd)
        { (s.vd (vdKey (fn / 32) vd)).refill (s.time (fn / 32)) with lrate := w }) ∧
    (headEntry s fn q = some e → x.front = [] →
      (entryOk fn e = false → Completes (.launchEntry fn q) s fun t => ∃ u, passed u ∧
        t = postRefusal u fn 0 7 (if entType e = 1 then numAt e 8 8 else 0)) ∧
      (entryOk fn e = true → entType e = 1 → depDead s (vkOfFn fn % 16) (entDep e) = true →
        Completes (.launchEntry fn q) s fun t => ∃ u, passed u ∧ t = postRefusal u fn 0 9 (numAt e 8 8)) ∧
      (entryOk fn e = true → entType e = 1 → depDead s (vkOfFn fn % 16) (entDep e) = false →
        Completes (.launchEntry fn q) s fun t => t = s))) ∧
  (∀ (fn r : Nat) (w : Word) (rec_ : List Byte) (rest : List (List Byte)) (g : Ring) (s : State), (s.fn fn).rings[r]? = some g →
    let full := (g.etail + 1) % 2 ^ g.log = g.ehead
    let written (t : State) (h : List (List Byte)) : Prop :=
      SetsRing s t fn r { g with seq := g.seq + 1, etail := (g.etail + 1) % 2 ^ g.log, hold := h,
                                 raised := if g.mask = true then g.raised else g.raised + 1 } ∧
      StoresBytes s t (hostLoc fn (g.base + 64 * g.etail)) (rec_ ++ toBytes 8 (g.seq + 1) ++ toBytes 8 0)
    (g.en = true → ¬ full → g.hold = [] → written (ringPost s fn r rec_) []) ∧
    (g.en = false ∨ full ∨ g.hold ≠ [] →
      (ringPost s fn r rec_).mem = s.mem ∧
      (g.hold.length < 256 → SetsRing s (ringPost s fn r rec_) fn r { g with hold := g.hold ++ [rec_] }) ∧
      (256 ≤ g.hold.length → SetsRing s (ringPost s fn r rec_) fn r
        { g with lost := min (g.lost + 1) 0xFFFF, dropped := g.dropped + 1 })) ∧
    (hasRing s fn r = true →
      Completes (.eheadWrite fn r w) s (fun t => SetsRing s t fn r { g with ehead := w.toNat % 2 ^ 16 } ∧ t.mem = s.mem) ∧
      Completes (.ectlWrite fn r w) s (fun t => t.mem = s.mem ∧ SetsRing s t fn r (if w.getLsbD 0 = true ∧ g.en = false
        then { g with mask := w.getLsbD 1, en := true, seq := 0, lost := 0 }
        else { g with mask := w.getLsbD 1, en := w.getLsbD 0 }))) ∧
    (g.dropped = 0 → g.en = true →
      (g.hold = [rec_] → ¬ full → Completes (.eventRingDrain fn r) s fun t => written t []) ∧
      (g.hold = rec_ :: rest → Completes (.eventRingDrain fn r) s fun t =>
        (∀ g', (t.fn fn).rings[r]? = some g' → g'.hold = [] ∨ (g'.etail + 1) % 2 ^ g'.log = g'.ehead) ∧
        (t = s ∨ ∃ n ≤ g.hold.length, SetsRing s t fn r
          { g with seq := g.seq + n, etail := (g.etail + n) % 2 ^ g.log, hold := g.hold.drop n,
                   raised := if g.mask = true then g.raised else g.raised + n }))))

/-- R334, R333, R28, R426: with no launch of the VD selected (on any package: log entry 80), the command processor takes the eligible
queue of highest priority with a token of its bucket, numbers the launch over all of the VD's packages and validates it: a sound one is selected, an unsound one refused with its reason; a launch put back at the front of
its queue is taken before its ring.

R431: while the package's keys are erased no launch is taken: the one that the selection takes is refused. -/
def Obligations.LaunchesAreSelected : Prop :=
  ∀ (vk q num : Nat) (rest : List Nat) (e : List Byte) (s : State),
    let v := (s.vd vk).refill (s.time (vk / 16))
    let fn := fnOfVd vk
    let ready : State := { s with vds := tblPut s.vds vk v }
    let last := (v.spend q).lastSel.setIfInBounds (queuePri v q) q
    let n := nextNumber (vdSelections s (vk % 16))
    (s.vd vk).isVd = true → (s.vd vk).quar = false → (s.vd vk).ways ≠ 0 → launchesOpen s (vk / 16) = true →
    s.ue = [] → s.ce = [] → vdSelecting s (vk % 16) = false → q < 8 → eligible ready vk q = true →
    (∀ k < 8, k ≠ q → eligible ready vk k = true → queuePri v k < queuePri v q) →
    ((s.pkg (vk / 16)).erased = true → (s.queue fn q).front = [] → headEntry s fn q = some e → entFlags e = 0 →
      Completes (.launchSelect vk) s fun t => t.teams = s.teams ++ [{ newTeam vk n q e with st := .refused, inRing := false }] ∧
        (t.queue fn q).head = ((s.queue fn q).head + 1) % 2 ^ (s.queue fn q).log) ∧
    ((s.pkg (vk / 16)).erased = false →
    ((s.queue fn q).front = num :: rest → Completes (.launchSelect vk) s fun t => t.mem = s.mem ∧
      t.queue fn q = { s.queue fn q with front := rest } ∧
      ∀ y, s.findTeam (vk % 16) num = some y → t.findTeam (vk % 16) num = some { y with st := .selected }) ∧
    ((s.queue fn q).front = [] → headEntry s fn q = some e → entFlags e = 0 →
      ∃ u, SetsVd s u vk { v.spend q with lastSel := last, selections := n } ∧
        (∀ reason, reason ≠ 5 → validate u vk (numAt e 8 8) = .inl reason → Completes (.launchSelect vk) s fun t =>
          t.teams = s.teams ++ [{ newTeam vk n q e with st := .refused, inRing := false }] ∧
          (t.queue fn q).head = ((s.queue fn q).head + 1) % 2 ^ (s.queue fn q).log ∧
          Reported (u.passHead fn q) t vk 4 (n % 2 ^ 32) reason (numAt e 8 8)) ∧
        (∀ p, validate u vk (numAt e 8 8) = .inr p → Completes (.launchSelect vk) s fun t =>
          t.teams = s.teams ++ [(newTeam vk n q e).withPlan p] ∧ t.mem = s.mem ∧ t.fns = s.fns ∧
          (t.vd vk).selections = n ∧ (t.vd vk).lastSel = last)))

/-- R335, R336, R55, R177, R367, R426: a selected launch whose placement finds its cores free, on packages where the VD
has ways, binds: its threads start from fresh
registers at their role's first head, loading, or from their shadows; a thread that had retired keeps its count of revocations
(R209, R366). Cores take the role image along the forwarding tree and
start their threads. A team whose threads have all retired and whose work is done completes, reports and frees its slots. -/
def Obligations.LaunchesBindAndStart : Prop :=
  ∀ (vk gc vd num : Nat) (y : Team) (cores : List (List Nat)) (p : Nat) (s : State),
    let seats := seatsOf y.places cores
    (selectedTeam s vk = some y → s.findTeam y.vd y.num = some y → launchesOpen s (vk / 16) = true → (s.vd vk).quar = false →
      (s.pkg (vk / 16)).erased = false →
      placeCores s vk y.pkgs.toNat (coreFree s y.vd) y.places [] = some cores →
      (∀ k ∈ pkgsOf seats, (s.vd (vdKey k y.vd)).ways ≠ 0) →
      let bound (t : State) : Prop := ∃ z, t.findTeam y.vd y.num = some z ∧ z.st = .bound ∧ z.seats = seats ∧
        z.inRing = false ∧ z.shadows = [] ∧ z.groups = y.groups ∧ z.roles = y.roles
      (y.away = false → y.shadows = [] →
        (∀ k ∈ pkgsOf seats, digestOk s y k = true ∧ (y.restarts = 0 → (ownSections s y (rolesOn seats k) k).isSome = true) ∧ mappedOk s y (if y.restarts = 0 then rolesOn seats k else []) k = true) →
        Completes (.launchBind vk) s fun t => bound t ∧ ∀ x ∈ seats, (∀ x' ∈ seats, x'.tid = x.tid → x' = x) →
          let u := t.thread x.tid
          u.st = .loading ∧ u.id = x.tid ∧ u.vd = y.vd ∧ u.hm = false ∧ u.capgen = 0 ∧ u.buf = [] ∧
          u.sregs = Vector.replicate 32 0 ∧ u.sFull = 0 ∧ u.vregs = Vector.replicate 16 0 ∧ u.vFull = 0 ∧
          u.pregs = Vector.replicate 8 0 ∧ u.pFull = 0 ∧ u.args = y.args ∧ u.team = BitVec.ofNat 64 y.num ∧
          u.place = BitVec.ofNat 64 x.tid ∧ ∀ role, y.roles[x.role]? = some role → u.pc = BitVec.ofNat 52 (role.textAddr + 2)) ∧
      (y.away = true → y.heldLists = [] → Completes (.launchBind vk) s fun t => bound t ∧
        (∀ c ∈ y.counts, (∃ x ∈ seats, x.tid = moveTid y.seats seats c.1) →
          (∀ c' ∈ y.counts, moveTid y.seats seats c'.1 = moveTid y.seats seats c.1 → c' = c) →
          (t.thread (moveTid y.seats seats c.1)).st = .retired ∧ (t.thread (moveTid y.seats seats c.1)).capgen = c.2) ∧
        ∀ x ∈ y.shadows, (∀ x' ∈ y.shadows, moveTid y.seats seats x'.id = moveTid y.seats seats x.id → x' = x) →
        (∀ c ∈ y.counts, moveTid y.seats seats c.1 ≠ moveTid y.seats seats x.id) →
        let u := t.thread (moveTid y.seats seats x.id)
        u.st = x.st ∧ u.pc = x.pc ∧ u.sregs = x.sregs ∧ u.sFull = x.sFull ∧ u.vregs = x.vregs ∧ u.vFull = x.vFull ∧
        u.pregs = x.pregs ∧ u.pFull = x.pFull ∧ u.l0 = x.l0 ∧ u.l1 = x.l1 ∧ u.buf = x.buf ∧ u.capgen = x.capgen ∧
        u.hm = x.hm ∧ u.epc = x.epc ∧ u.place = BitVec.ofNat 64 (moveTid y.seats seats x.id))) ∧
    (s.findTeam vd num = some y → y.st = .bound → gc ∈ roleCores y gc → gc ∉ y.loaded →
      (roleCores y gc).idxOf gc = 0 ∨
        ((roleCores y gc)[((roleCores y gc).idxOf gc - 1) / max y.fanout 1]? = some p ∧ p ∈ y.loaded) →
      Completes (.bootTreeForward vd num gc) s fun t => t = { s with teams := t.teams } ∧
        t.findTeam vd num = some { y with loaded := y.loaded ++ [gc] }) ∧
    (s.findTeam vd num = some y → y.st = .bound → gc ∈ y.loaded → s.Keyed → Completes (.threadStart vd num gc) s fun t =>
      t = { s with thr := t.thr, threads := t.threads } ∧
      (∀ x ∈ y.seats, coreOf x.tid = gc → (s.thread x.tid).st = .loading →
        t.thread x.tid = { s.thread x.tid with st := .ready }) ∧
      (∀ k, coreOf k ≠ gc ∨ (s.thread k).st ≠ .loading → t.thread k = s.thread k)) ∧
    (s.findTeam vd num = some y → y.st = .bound → y.stops = false → teamDone s y = true → y.pre = none →
      Completes (.teamComplete vd num) s fun t => (∀ k ∈ y.tids, t.thread k = { Thread.blank k with nextTurn := (s.thread k).nextTurn }) ∧
        Reported s t (vdKey y.pkg vd) 3 num (tasksLeft s y) 0 ∧
        ∃ z, t.findTeam vd num = some z ∧ z.st = .completed ∧ z.segs = [])

/-! ## Pre-emption -/

/-- R356, R357, R362, R369, R224, R420: a request for a bound team takes the choice of R362 and, but for a drain, stops its
threads at their next boundary, or goes to the host under its entry's TOKEN; at the DEADLINE an unanswered one is chosen and a drain chooses again. 4,096 refused
capabilities stop a team. -/
def Obligations.PreemptionRequests : Prop :=
  ∀ (fn q vd num : Nat) (e : List Byte) (y : Team) (p : PreReq) (s : State), s.Keyed →
    let chosen (t : State) (vd num : Nat) (r : PreReq) : Prop := (∃ z, t.findTeam vd num = some z ∧ z.pre = some r ∧ z.st = y.st) ∧
      (r.action ≠ 1 → ∀ k ∈ y.tids, (t.thread k).stop ≠ 0) ∧ (∀ k, (t.thread k).pc = (s.thread k).pc) ∧ t.mem = s.mem
    (headEntry s fn q = some e → (s.queue fn q).front = [] → entryOk fn e = true → entType e = 2 → q < 8 →
      vd = vkOfFn fn % 16 → num = numAt e 8 4 → s.findTeam vd num = some y → y.st = .bound → y.pre = none →
      let allow := BitVec.ofNat 3 (numAt e 12 1)
      let deadline := numAt e 16 8
      allow ≠ 0 → anyPermitted y allow = true →
      (hostPre s (vdKey y.pkg vd) = false → Completes (.preemptEntry fn q) s fun t =>
        let c := choosePre s y allow deadline true
        chosen t vd num ⟨fn, q, entToken e, deadline, allow, c.1, c.2, false, none⟩ ∧
        (t.queue fn q).head = ((s.queue fn q).head + 1) % 2 ^ (s.queue fn q).log) ∧
      (hostPre s (vdKey y.pkg vd) = true → Completes (.preemptEntry fn q) s fun t => t.token = s.token ∧
        t.cases = s.cases ++ [⟨entToken e, fnOfVd (vdKey y.pkg vd), .preempt vd num, deadline, none⟩] ∧
        ∃ z, t.findTeam vd num = some z ∧
          z.pre = some ⟨fn, q, entToken e, deadline, allow, 0, false, false, some (entToken e)⟩)) ∧
    (s.findTeam vd num = some y → y.st = .bound → y.pre = some p → p.deadline ≤ s.time y.pkg →
      (p.action = 0 → Completes (.preemptDeadline vd num) s fun t =>
        let c := choosePre s y p.allow p.deadline true
        chosen t vd num { p with action := c.1, late := c.2, byHost := false, token := none } ∧
        t.cases = s.cases.filter fun c => c.kind != .preempt vd num) ∧
      (p.action = 1 → p.allow.getLsbD 1 = true → Completes (.preemptDeadline vd num) s fun t =>
        let c := choosePre s y p.allow p.deadline false
        chosen t vd num { p with action := c.1, late := c.2, byHost := false, token := none })) ∧
    (s.findTeam vd num = some y → y.st = .bound → 4096 ≤ y.capbads → y.pre = none → Completes (.capbadStop vd num) s fun t =>
      chosen t vd num ⟨0, 0, 0, 0, 0, 4, false, false, none⟩) ∧
    (s.findTeam vd num = some y → y.st = .bound → 4096 ≤ y.capbads → y.pre = some ⟨0, 0, 0, 0, 0, 4, false, false, none⟩ →
      allHalted s y = true → writesLeft (cancelTeam y s) y = false → Completes (.capbadStop vd num) s fun t =>
        (∀ k ∈ y.tids, t.thread k = { Thread.blank k with nextTurn := (s.thread k).nextTurn }) ∧ ∃ z, t.findTeam vd num = some z ∧ z.st = .stopped ∧ z.pre = none)

/-- R364 to R366, R426: a discard whose threads have stopped and whose writes are in frees the team's slots and puts its launch
back at the front of its queue; without reposting it drops it. A save of a team with nothing left to settle keeps its threads as
shadows and frees its slots. -/
def Obligations.DiscardsAndSaves : Prop :=
  ∀ (vd num : Nat) (y : Team) (p : PreReq) (s : State),
    s.findTeam vd num = some y → y.st = .bound → y.pre = some p → y.q < 8 → allHalted s y = true →
    (p.action = 2 → writesLeft (cancelTeam y s) y = false → Completes (.discard vd num) s fun t =>
      (∀ k ∈ y.tids, t.thread k = { Thread.blank k with nextTurn := (s.thread k).nextTurn }) ∧
      (t.queue (fnOfVd (vdKey y.pkg vd)) y.q).front.head? = some num ∧
      ∃ z, t.findTeam vd num = some z ∧ z.st = .reposted ∧ z.seats = [] ∧ z.pre = none ∧ z.segs = []) ∧
    (p.action = 5 → writesLeft (cancelTeam y s) y = false → Completes (.discard vd num) s fun t =>
      (∀ k ∈ y.tids, t.thread k = { Thread.blank k with nextTurn := (s.thread k).nextTurn }) ∧ ∃ z, t.findTeam vd num = some z ∧ z.st = .discarded ∧ z.pre = none) ∧
    (p.action = 3 → settled s y = true → teamDone s y = false → (∀ e ∈ s.cores, e.2.copies = [] ∧ ∀ a ∈ e.2.port, a.waiting = false) →
      s.retraces = [] → (∀ e ∈ s.vds, e.2.plans = []) → Completes (.saveComplete vd num) s fun t =>
        (∀ k ∈ y.tids, t.thread k = { Thread.blank k with nextTurn := (s.thread k).nextTurn }) ∧ ∃ z, t.findTeam vd num = some z ∧ z.st = .saved ∧ z.pre = none ∧
          z.shadows = (y.tids.filter fun k => (s.thread k).hasContext).map (fun k => shadowOf (s.thread k)) ∧
          z.savedCores.map (fun c => c.gc) = y.coreList)

/-! ## The host -/

/-- R415, R420, R424, R425: entries of types 3 to 5 at the head of their queue: an invalidation that nothing holds ends at once
with its event, a handle that no team in progress uses is defined or dropped, and one that is in use waits.

R419, R187, R430: an HDM access within one line of 64 bytes reads or writes at its home where the leaf permits it, and is
refused with event 27 where it does not, and what the part corrects or finds uncorrectable on the way is counted (R445); a quote signs the registers that its requester may see with the nonce, and none is
given once the keys are erased. -/
def Obligations.HostEntriesAndAccesses : Prop :=
  (∀ (fn q : Nat) (e : List Byte) (s : State), headEntry s fn q = some e → (s.queue fn q).front = [] → entryOk fn e = true →
    q < 8 →
    let vk := vkOfFn fn
    let h := numAt e 8 8
    let x := s.queue fn q
    let passed (t : State) : Prop := SetsQueue s t fn q { x with head := (x.head + 1) % 2 ^ x.log, waiting := none }
    (entType e = 4 → handleUsed s vk h = false → Completes (.defineHandle fn q) s fun t => ∃ u, passed u ∧
      SetsVd u t vk { s.vd vk with handles := (t.vd vk).handles } ∧
      tblFind (t.vd vk).handles h = some ⟨numAt e 16 8, numAt e 24 8, 0, []⟩ ∧
      ∀ k, k ≠ h → tblFind (t.vd vk).handles k = tblFind (s.vd vk).handles k) ∧
    (entType e = 5 → handleUsed s vk h = false → Completes (.dropHandle fn q) s fun t => ∃ u, passed u ∧
      SetsVd u t vk { s.vd vk with handles := (t.vd vk).handles } ∧
      ∀ k, tblFind (t.vd vk).handles k = if k = h then none else tblFind (s.vd vk).handles k) ∧
    (handleUsed s vk h = true → entType e = 4 ∨ entType e = 5 → Completes (.defineHandle fn q) s (fun t => t = s) ∧
      Completes (.dropHandle fn q) s fun t => t = s) ∧
    (entType e = 3 → x.waiting = none → (∀ i ∈ s.invs, i.id ≠ s.seq) →
      let k := if fn % 32 = 0 then vdKey (fn / 32) (entFlags e / 16) else vk
      let lo := numAt e 8 8
      let len := numAt e 16 8
      holdersOf s k lo len = [] → accessesHold s k lo len s.seq = false → Completes (.invalidateEntry fn q) s fun t =>
        (∃ u, passed u ∧ Reported u t k 20 0 0 (entToken e)) ∧ t.thr = s.thr ∧ t.cores = s.cores ∧
        ∀ r, ∀ y ∈ (t.router r).tlb, ¬ (y.vk = k ∧ overlaps (y.page * 4096) (if y.big then 2 ^ 21 else 4096) lo len = true))) ∧
  (∀ (vk off fn loc len : Nat) (bytes : List Byte) (nonce : BitVec 256) (l : Leaf) (s : State),
    ((s.vd vk).isVd = true →
      (bytes ≠ [] → off % 64 + bytes.length ≤ 64 →
        (s.vd vk).trig = 0 ∨ overlaps off bytes.length (s.vd vk).trig.toNat 8 = false →
        (hdmAt s vk off = some (l, loc) → l.w = true → s.canWrite loc bytes.length = true → (∀ w, waitersOf s w = []) →
          Completes (.hostHdmWrite vk off bytes) s fun t => StoresBytes s t loc bytes ∧ t.thr = s.thr ∧ t.threads = s.threads ∧
            t.fns = s.fns) ∧
        (hdmAt s vk off = none ∨ hdmAt s vk off = some (l, loc) ∧ l.w = false → Completes (.hostHdmWrite vk off bytes) s fun t =>
          t = postCp s vk 27 0 off 1) ∧
        (hdmAt s vk off = some (l, loc) → l.w = true → s.canWrite loc bytes.length = false →
          Completes (.hostHdmWrite vk off bytes) s fun t => t = postCp (s.meets none (bytesAt loc bytes.length)) vk 27 0 off 3)) ∧
      (0 < len → off % 64 + len ≤ 64 →
        (hdmAt s vk off = some (l, loc) → l.r = true → s.bad loc len = false → Completes (.hostHdmRead vk off len) s fun t =>
          t = s.meets none (bytesAt loc len) ∧ (s.ce = [] → t = s)) ∧
        (hdmAt s vk off = none ∨ hdmAt s vk off = some (l, loc) ∧ l.r = false → Completes (.hostHdmRead vk off len) s fun t =>
          t = postCp s vk 27 0 off 0) ∧
        (hdmAt s vk off = some (l, loc) → l.r = true → s.bad loc len = true → Completes (.hostHdmRead vk off len) s fun t =>
          t = postCp (s.meets none (bytesAt loc len)) vk 27 0 off 2))) ∧
    (fnExists s fn = true →
      ((s.pkg (fn / 32)).erased = false → Completes (.spdmMessage fn nonce) s fun t => t = { s with fns := t.fns } ∧
        (∀ k, k ≠ fn → t.fn k = s.fn k) ∧
        let regs := ((s.pkg (fn / 32)).measured ++ if fn % 32 = 0 then [] else [(s.vd (vkOfFn fn)).measured]).flatMap
          fun d => toBytes 32 d.toNat
        let sig := Config.sm2Sign (fn / 32) (regs ++ toBytes 32 nonce.toNat)
        t.fn fn = { s.fn fn with quote := regs ++ toBytes 64 sig.toNat }) ∧
      ((s.pkg (fn / 32)).erased = true → Completes (.spdmMessage fn nonce) s fun t => t = s)))

/-- R289, R307, R357, R410, R442, R447, R450: an answer that names no case of its function, or comes too late, passes with no
effect; one in time decides its case. A case whose time is over goes on as in hardware mode; that of a worn-out unit has no time
limit, and nothing changes there (the model's reading, log entry 47).

R420: an answer whose value is outside its limits (a walk's that is neither 0 nor 1, a guard step below the one that the index calls
for or above 20, an action outside ALLOW, an origin that is no thread of the team, a deconfiguration's that is neither 0 nor 1) passes
with an event of type 4, reason 7, and its case stays. -/
def Obligations.HostCases : Prop :=
  ∀ (fn q : Nat) (e : List Byte) (c : HostCase) (y : Team) (p : PreReq) (m : Miss) (s : State), s.Keyed →
    let val := BitVec.ofNat 64 (numAt e 16 8)
    let found := s.cases.find? fun c => c.token == numAt e 8 8 && c.fn == fn
    let closed (t : State) : Prop := t.cases = s.cases.filter fun x => x.token != c.token || x.kind.isPreempt
    let guardOf (t : State) (pkg cl : Nat) : Nat := (tblGet (t.pkg pkg).wear cl Wear.blank).guard
    let called (pkg cl : Nat) : Nat := (tblGet (s.pkg pkg).wear cl Wear.blank).index / 50
    let outside (tid : Nat) : Prop := ∃ r ∈ s.retraces, r.tid = tid ∧ ∃ z, s.findTeam (r.vk % 16) r.team = some z ∧
      z.seat val.toNat = none
    (entryOfType s fn q 6 = some e → q < 8 →
      let x := s.queue fn q
      let go := Completes (.answer fn q) s
      let passes (t : State) : Prop := t.queue fn q = { x with head := (x.head + 1) % 2 ^ x.log, waiting := none }
      let refuses (t : State) : Prop := ∃ u, SetsQueue s u fn q { x with head := (x.head + 1) % 2 ^ x.log, waiting := none } ∧
        t = postRefusal u fn 0 7 0
      (found = none → go fun t => SetsQueue s t fn q { x with head := (x.head + 1) % 2 ^ x.log, waiting := none }) ∧
      (found = some c → c.until_ < s.time (fn / 32) → go fun t =>
        SetsQueue s t fn q { x with head := (x.head + 1) % 2 ^ x.log, waiting := none }) ∧
      (found = some c → s.time (fn / 32) ≤ c.until_ →
        (∀ r vk page, c.kind = .walk r vk page → val = 1 → m ∈ (s.router r).misses → m.held = some c.token → go fun t =>
          passes t ∧ closed t ∧ { m with held := none, retried := true } ∈ (t.router r).misses ∧ t.mem = s.mem) ∧
        (∀ r vk page, c.kind = .walk r vk page → val = 0 →
          (s.router r).misses.find? (fun m => m.vk == vk && m.page == page) = some m → go fun t => passes t ∧ closed t ∧ t.mem = s.mem ∧
            (t.router r).misses = (s.router r).misses.filter fun m => !(m.vk == vk && m.page == page)) ∧
        (∀ r vk page, c.kind = .walk r vk page → 1 < val.toNat → go refuses) ∧
        (∀ pkg cl step, c.kind = .guard pkg cl step → deferred s pkg cl = false → called pkg cl ≤ val.toNat → val.toNat ≤ 20 →
          go fun t => passes t ∧ closed t ∧ guardOf t pkg cl = val.toNat ∧ t.mem = s.mem) ∧
        (∀ pkg cl step, c.kind = .guard pkg cl step → val.toNat < called pkg cl ∨ 20 < val.toNat → go refuses) ∧
        (∀ pkg cl core, c.kind = .deconf pkg cl core →
          (val = 1 → go fun t => passes t ∧
            ∀ v < 16, ∀ k ∈ unitCores (s.pkg pkg) cl core, tblFind (t.vd (vdKey pkg v)).slotMap k = none) ∧
          (val = 0 → go fun t => passes t ∧ guardOf t pkg cl = 20 ∧ t.mem = s.mem ∧ t.vds = s.vds ∧ t.cases = s.cases.map fun y =>
            if y.token = c.token ∧ y.kind.isPreempt = false then { y with answer := some 0 } else y) ∧
          (1 < val.toNat → go refuses)) ∧
        (∀ vd team, c.kind = .preempt vd team → s.findTeam vd team = some y → y.pre = some p → p.action = 0 →
          p.allow.getLsbD 1 = false → val = 2 → go refuses) ∧
        (∀ vd team, c.kind = .preempt vd team → s.findTeam vd team = some y → y.pre = some p → p.action = 0 →
          p.allow.getLsbD 1 = true → val = 2 → go fun t => passes t ∧ ∃ z, t.findTeam vd team = some z ∧
            z.pre = some { p with action := 2, late := false, byHost := true, token := none }) ∧
        (∀ tid key, c.kind = .retrace tid key → outside tid → go refuses) ∧
        (∀ tid key, c.kind = .retrace tid key → ¬ outside tid → go fun t => passes t ∧ closed t ∧ ∀ r ∈ t.retraces, r.tid = tid → r.phase = 0 →
          r.seg = key / 2 ^ 26 → ∀ y ∈ r.recs, y.idx = key % 2 ^ 26 → y.origin = val.toNat) ∧
        (∀ tid quota, c.kind = .spill tid quota → s.findTeam (s.thread tid).vd (s.thread tid).teamNum = some y →
          let old := y.spill.toNat / 2 ^ 40
          let base := y.spill.toNat / 2 ^ 12 % 2 ^ 28 * 4096
          old ≤ val.toNat → val.toNat < 2 ^ 24 → base + val.toNat * 4096 ≤ remapBase →
          pagesMapped s (s.thread tid).vk (base + old * 4096) ((val.toNat - old) * 4096) (fun l => l.r && l.w) = true →
          go fun t => passes t ∧ closed t ∧ (∃ r, (t.thread tid).wait = .hold 2 true r) ∧
            ∃ z, t.findTeam (s.thread tid).vd (s.thread tid).teamNum = some z ∧
              z.spill = BitVec.ofNat 64 (val.toNat * 2 ^ 40 + base)))) ∧
    (s.cases.find? (fun x => x.token == c.token) = some c → c.until_ < s.time (c.fn / 32) →
      let go := Completes (.hostAnswerTimeout c.token) s
      (∀ tid quota, c.kind = .spill tid quota → go fun t =>
        closed t ∧ t.thread tid = { s.thread tid with wait := .hold 2 true (openSegment s (s.thread tid) quota).2 } ∧
          t.mem = s.mem) ∧
      (∀ tid key, c.kind = .retrace tid key → go fun t => closed t ∧ t = { s with cases := t.cases }) ∧
      (∀ pkg cl step, c.kind = .guard pkg cl step → deferred s pkg cl = false → go fun t =>
        closed t ∧ guardOf t pkg cl = called pkg cl ∧ t.mem = s.mem) ∧
      (∀ r vk page, c.kind = .walk r vk page → (s.router r).misses.find? (fun m => m.vk == vk && m.page == page) = some m →
        go fun t => closed t ∧ t.mem = s.mem ∧
          (t.router r).misses = (s.router r).misses.filter fun m => !(m.vk == vk && m.page == page)) ∧
      (∀ pkg cl core, c.kind = .deconf pkg cl core → go fun t => t = s))

/-! ## Virtual devices, rates, arbiters -/

/-- R388, R423, R177, R178, R334, R442: a VD is created at its reset values with a function of its own and no bucket, destroyed
when no team of it is bound or saved, and enabled again; its registers take what the command processor admits: a split within
SMAX that leaves a cache way, ways of 16 in all, priorities, and modes from the next epoch. That a VD's function is blank at its
creation is the model's choice (log entry 48).

R388, R459: a slot mask is written where no team of the VD stands and no other VD holds a slot of it, its core is not held
alone and its unit has not worn out, unless it runs on for the host; a grant, where it is well formed and meets no other VD's. That a mask
which meets another VD's is refused is the model's reading (log entry 48). -/
def Obligations.VirtualDevicesAndMaps : Prop :=
  (∀ (vk pkg : Nat) (w : Word) (s : State),
    let v := s.vd vk
    let ways := w.toNat % 32
    let smax := w.toNat / 256 % 32
    let fits (ways smax n : Nat) : Prop := n = 0 ∨ n ≤ smax ∧ n < ways
    ((tblFind s.pkgs (vk / 16)).isSome → v.isVd = false → Completes (.vdCreate vk) s fun t => t.mem = s.mem ∧
      (t.vd vk).isVd = true ∧ (t.vd vk).quar = false ∧ (t.vd vk).ways = 0 ∧ (t.vd vk).qpri = 0xFAC688 ∧
      (t.vd vk).lrate = 0 ∧ (t.vd vk).tensors = [] ∧ (∀ k, k ≠ vk → t.vd k = s.vd k) ∧ t.fn (fnOfVd vk) = Function.blank ∧
      ∀ a, arbPkg a = vk / 16 → tblFind (t.arb a).buckets (vk % 16) = none) ∧
    (v.isVd = true →
      ((∀ y ∈ teamsOn s vk, y.st ≠ .bound ∧ y.away = false) → Completes (.vdDestroy vk) s fun t =>
        (t.vd vk).isVd = false ∧ (∀ k, k ≠ vk → t.vd k = s.vd k) ∧ (∀ r, ∀ e ∈ (t.router r).tlb, e.vk ≠ vk) ∧
        ∀ x, memRead t.mem x = if l2Loc vk 0 0 ≤ x ∧ x < l2Loc (vk + 1) 0 0 then 0 else memRead s.mem x) ∧
      (∀ y ∈ teamsOn s vk, y.st = .bound → Completes (.vdDestroy vk) s fun t => t = s) ∧
      Completes (.vdReenable vk) s (fun t => SetsVd s t vk { v with quar := false }) ∧
      Completes (.qpriWrite vk w) s (fun t => SetsVd s t vk { v with qpri := w.setWidth 24 }) ∧
      (fits v.ways v.smax (w.toNat % 32) → Completes (.l2useWrite vk w) s fun t =>
        SetsVd s t vk { v with newSways := some (w.toNat % 32) }) ∧
      (¬ fits v.ways v.smax (w.toNat % 32) → Completes (.l2useWrite vk w) s fun t => t = s) ∧
      let sum := ((List.range 16).map fun i => if i = vk % 16 then ways else (s.vd (vdKey (vk / 16) i)).ways).sum
      (sum ≤ 16 → smax ≤ ways → fits ways smax (v.newSways.getD v.sways) → fits ways smax v.sways →
        (v.ways ≤ ways ∧ v.smax ≤ smax ∨ ∀ y ∈ teamsOn s vk, y.st ≠ .bound) → Completes (.l2limWrite vk w) s fun t =>
          t = { s with vds := t.vds, back := t.back, free := t.free, ue := t.ue, ce := t.ce } ∧
          t.vd vk = { v with ways := ways, smax := smax } ∧ (∀ k, k ≠ vk → t.vd k = s.vd k) ∧ (∀ e ∈ t.back, e ∈ s.back) ∧
          (∀ e ∈ t.ue, e ∈ s.ue) ∧ (v.ways ≤ ways → t.back = s.back ∧ t.free = s.free ∧ t.ue = s.ue ∧ t.ce = s.ce)) ∧
      (16 < sum ∨ ways < smax → Completes (.l2limWrite vk w) s fun t => t = s)) ∧
    ((tblFind s.pkgs pkg).isSome → Completes (.rmodeWrite pkg none w) s fun t =>
      SetsPkg s t pkg { s.pkg pkg with newRmode := some (BitVec.ofNat 3 (w.toNat / 16)) }) ∧
    (∀ vd, (s.vd (vdKey pkg vd)).isVd = true → Completes (.rmodeWrite pkg (some vd) w) s fun t =>
      SetsVd s t (vdKey pkg vd) { s.vd (vdKey pkg vd) with newRmode := some (w.setWidth 4) })) ∧
  (∀ (vk core v : Nat) (mask : BitVec 8) (val : BitVec 32) (s : State), (s.vd vk).isVd = true → core < 16384 →
    let pkg := vk / 16
    let gc := pkg * 16384 + core
    let free := ∀ k < 8, (s.thread (gc * 8 + k)).st = .absent ∨ (s.thread (gc * 8 + k)).vd ≠ vk % 16
    let others (P : Nat → Prop) : Prop := ∀ v < 16, v ≠ vk % 16 → P v
    let slots (v : Nat) : BitVec 8 := tblGet (s.vd (vdKey pkg v)).slotMap core 0
    let put (m : Tbl (BitVec 8)) : Prop := ∀ k, tblFind m k = if k = core then some mask else tblFind (s.vd vk).slotMap k
    (free → others (fun v => slots v &&& mask = 0) →
      (mask = 0 ∨ others (fun v => onDefault s pkg v core = false) ∧ unitWornOut s pkg core = false) →
      Completes (.slotMapWrite vk core mask) s fun t =>
        SetsVd s t vk { s.vd vk with slotMap := (t.vd vk).slotMap } ∧ put (t.vd vk).slotMap) ∧
    (v < 16 → v ≠ vk % 16 → slots v &&& mask ≠ 0 → Completes (.slotMapWrite vk core mask) s fun t => t = s) ∧
    (¬ free → Completes (.slotMapWrite vk core mask) s (fun t => t = s) ∧
      Completes (.grantMapWrite vk core val) s (fun t => t = s)) ∧
    (48 < val.toNat / 2 ^ 8 % 2 ^ 6 ∨ val.toNat / 2 ^ 8 % 2 ^ 6 < val.toNat % 2 ^ 6 ∨ val.toNat / 2 ^ 28 ≠ 0 →
      Completes (.grantMapWrite vk core val) s fun t => t = s) ∧
    (grantRefused s vk core val = false → Completes (.grantMapWrite vk core val) s fun t =>
      SetsVd s t vk { s.vd vk with grantMap := (t.vd vk).grantMap } ∧
      ∀ k, tblFind (t.vd vk).grantMap k = if k = core then some val else tblFind (s.vd vk).grantMap k))

/-- R391 to R395, R397, R401: an accepted rate waits for the epoch, where it takes effect and clamps the levels; every cycle
accrues once, by rate times FACTOR; a free server starts the oldest unit of the only owner with a token and charges its size; a throttle
sets FACTOR at an epoch. -/
def Obligations.RatesAndArbiters : Prop :=
  ∀ (vk arb o pkg factor gc : Nat) (cls : RateClass) (w : Word) (u : Offer) (r : Rate) (s : State),
    let c := classNum cls
    let fields : Rate := ⟨if c = 8 then w.toNat % 2 ^ 15 else w.toNat % 2 ^ 13, w.toNat / 2 ^ 24 % 2 ^ 12, w.getLsbD 38, w.getLsbD 39⟩
    let a := s.arb arb
    let epoch (pkg : Nat) : Prop := (s.pkg pkg).resetAt ≤ s.cycle ∧ (s.cycle - (s.pkg pkg).resetAt) % 1024 = 0
    ((s.vd vk).isVd = true →
      (rateRefused s vk c fields = false → Completes (.rateWrite vk cls w) s fun t => SetsVd s t vk
        { s.vd vk with newRates := (s.vd vk).newRates.setIfInBounds c (some fields) }) ∧
      (fields.rate ≠ 0 → fields.depth = 0 → Completes (.rateWrite vk cls w) s fun t => t = s)) ∧
    (¬ epoch pkg → Completes (.rateEpoch pkg) s fun t => t = s) ∧
    (epoch pkg → vk / 16 = pkg → ((s.vd vk).newRates[c]?).getD none = some r → Completes (.rateEpoch pkg) s fun t =>
      (t.vd vk).rates[c]? = some r ∧ ((t.vd vk).newRates[c]?).getD none = none ∧ t.mem = s.mem ∧ t.thr = s.thr) ∧
    (epoch pkg → ∀ m, (s.pkg pkg).newRmode = some m → Completes (.rateEpoch pkg) s fun t =>
      t.pkg pkg = { s.pkg pkg with rmode := m, newRmode := none }) ∧
    (s.cycle ≤ a.accrued → Completes (.bucketAccrual arb) s fun t => t = s) ∧
    (a.accrued < s.cycle → templateOf arb ≠ arb → owners s arb = [o] → ∀ b, tblFind a.buckets o = some b → Completes (.bucketAccrual arb) s fun t =>
      let rate := ownerRate s arb o
      let x := b.frac + rate.rate * factorAt s arb * (s.cycle - a.accrued)
      ∃ y, SetsArb s t arb y ∧ y.accrued = s.cycle ∧ y.pending = a.pending ∧ y.pool ≤ 64 ∧ ∃ b', tblFind y.buckets o = some b' ∧
        b'.grants = b.grants ∧ b'.frac = x % 262144 ∧
        b'.level = b.level + ((min (x / 262144) (rate.depth - b.level).toNat : Nat) : Int)) ∧
    (1 < arbClass arb → templateOf arb ≠ arb → a.accrued = s.cycle → a.busy ≤ s.cycle → a.pending = [] →
      u.owner ∈ owners s arb → 1 ≤ u.size → u.size ≤ unitMax (arbClass arb) →
      (u.op = ownWork ∧ u.cls = 1 ∨ u.owner < 16 ∧ (u.op, u.cls) ∈ workItems s (vdKey (arbPkg arb) u.owner)) →
      ∀ b, tblFind a.buckets u.owner = some b → 1 ≤ b.level → Completes (.arbiterGrant arb [u]) s fun t =>
        ∃ y, SetsArb s t arb y ∧ y.pending = [] ∧ y.last = u.owner ∧ s.cycle < y.busy ∧ y.pool = a.pool ∧
          tblFind y.buckets u.owner = some { b with level := b.level - u.size, grants := b.grants + 1 }) ∧
    (s.cycle < a.busy → templateOf arb ≠ arb → a.accrued = s.cycle → Completes (.arbiterGrant arb []) s fun t =>
      SetsArb s t arb a) ∧
    (epoch pkg → factor ≤ 256 → pkgOf gc = pkg → Completes (.throttleChange pkg [gc] factor) s fun t =>
      t.core gc = { s.core gc with factor := factor } ∧ (∀ k, k ≠ gc → t.core k = s.core k) ∧ t.thr = s.thr) ∧
    (¬ epoch pkg → Completes (.throttleChange pkg [gc] factor) s fun t => t = s)

/-! ## Links, time, recovery -/

/-- R14, R18, R401, R427, R428, R446: replays of a flit are counted to eight, after which its link goes down and no route changes, and from zero again once a flit passes;
a thopeif link comes up between packages of one domain whose shapes have its ports and whose records name each other, and goes down at both ends, and either rewrites the
domain's routes. Time bases of linked packages stay within 40 ns, and one without a link counts on (how they move
is the model's: log entry 82); a hot layer withholds its massif's matrix tokens until it is cool. -/
def Obligations.LinksTimeAndTemperature : Prop :=
  ∀ (pkg link n j l massif layer band : Nat) (auth : Bool) (offsets : List (Nat × Nat)) (p : Pkg) (s : State),
    tblFind s.pkgs pkg = some p →
    let id := pkg * 2 ^ 16 + n
    let epoch := p.resetAt ≤ s.cycle ∧ (s.cycle - p.resetAt) % 1024 = 0
    let routed (t : State) : Prop := ∀ k q, tblFind s.pkgs k = some q → q.domain = p.domain → (t.pkg k).routeGen = q.routeGen + 1
    (n < 2 ^ 16 →
      Completes (.flitReplay id) s (fun t => SetsPkg s t pkg { p with replays := (t.pkg pkg).replays } ∧
        tblGet (t.pkg pkg).replays n 0 = min (tblGet p.replays n 0 + 1) 8) ∧
      tblGet ((s.flitOk id).pkg pkg).replays n 0 = 0 ∧
      (8 ≤ tblGet p.replays n 0 → Completes (.linkDown id) s fun t => n ∈ (t.pkg pkg).linksDown ∧
        SetsPkg s t pkg { p with replays := (t.pkg pkg).replays, linksDown := (t.pkg pkg).linksDown }) ∧
      (tblGet p.replays n 0 < 8 → Completes (.linkDown id) s fun t => t = s)) ∧
    (p.erased = false → link ∉ p.linksUp → p.hasPort link = true → farLink s pkg link false = some (j, l) →
      (tblFind s.pkgs j).isSome → (s.pkg j).hasPort l = true →
      (s.pkg j).erased = false → (s.pkg j).domain = p.domain → (s.pkg j).number ≠ p.number →
      Completes (.thopeifBringup pkg link) s fun t => link ∈ (t.pkg pkg).linksUp ∧ l ∈ (t.pkg j).linksUp ∧ routed t ∧
        t = { s with pkgs := t.pkgs }) ∧
    (link ∈ p.linksUp → farLink s pkg link true = some (j, l) → Completes (.thopeifLinkFail pkg link auth) s fun t =>
      link ∉ (t.pkg pkg).linksUp ∧ l ∉ (t.pkg j).linksUp ∧ routed t ∧ t.thr = s.thr ∧
      if auth then Alarmed s t pkg 0 21 (1 + 3 * 256) 0xFF else t = { s with pkgs := t.pkgs }) ∧
    let moved : State := { s with pkgs := s.pkgs.map fun x => (x.1, { x.2 with timeOff := tblGet offsets x.1 x.2.timeOff }) }
    ((∀ x ∈ s.pkgs, timeMoves s x.2 (tblGet offsets x.1 x.2.timeOff) = true) →
      (∀ x ∈ moved.pkgs, ∀ y ∈ timePeers moved x.2, x.2.timeOff ≤ y.timeOff + 40) → Completes (.timeSync offsets) s fun t => t = { s with pkgs := t.pkgs } ∧
        ∀ k q, tblFind s.pkgs k = some q → t.pkg k = { q with timeOff := tblGet offsets k q.timeOff }) ∧
    ((∃ x ∈ moved.pkgs, ∃ y ∈ timePeers moved x.2, y.timeOff + 40 < x.2.timeOff) ∨
        p.linksUp = [] ∧ tblGet offsets pkg p.timeOff ≠ p.timeOff →
      Completes (.timeSync offsets) s fun t => t = s) ∧
    (massif < 8 →
      (epoch → massif ∉ p.withheld → Completes (.thermalLimit pkg massif layer) s fun t =>
        t.pkg pkg = { p with withheld := p.withheld ++ [massif] } ∧ t.thr = s.thr ∧ t.cores = s.cores ∧
        (∀ gc, pkgOf gc = pkg → massifOf gc = massif → t.factorOf gc = 0) ∧
        ((∀ v < 16, (s.vd (vdKey pkg v)).isVd = false) →
          Alarmed (postOlush s pkg 0 6 massif layer) t pkg 0 21 (1 + 4 * 256) 0xFF)) ∧
      (layer < 8 →
        (band = 1 ∨ band = 2 → Completes (.layerTemperatureChange pkg massif layer band) s fun t =>
          SetsPkg s t pkg { p with bands := (t.pkg pkg).bands } ∧ tblGet (t.pkg pkg).bands (massif * 8 + layer) 0 = band) ∧
        Completes (.layerTemperatureChange pkg massif layer 0) s (fun t =>
          SetsPkg s t pkg { p with bands := (t.pkg pkg).bands } ∧ tblFind (t.pkg pkg).bands (massif * 8 + layer) = none) ∧
        (epoch → massif ∈ p.withheld → Completes (.layerTemperatureChange pkg massif layer 3) s fun t =>
          t.pkg pkg = { p with withheld := p.withheld.filter fun m => m != massif } ∧
          ∀ gc, pkgOf gc = pkg → massifOf gc = massif → t.factorOf gc = (s.core gc).factor)))

/-- R443 to R452: a scrub read of a code unit finds the error that has arisen in it, or one that arises then: it corrects and counts
a correctable one, and counts an uncorrectable one and leaves its unit bad; a unit without an error is left alone. A wear sample raises its cluster's
index, applies the step of the sample before, or asks the host where the step has changed or one is due, and at 1,000 wears the
cluster out; LIFE is recomputed from the index of 30 days ago. -/
def Obligations.ScrubAndWear : Prop :=
  ∀ (pkg unit cluster index loc len m : Nat) (mem : ScrubMem) (p : Pkg) (s : State), tblFind s.pkgs pkg = some p →
    let key := loc / 4096
    (s.ue = [] → s.ce = [] → Completes (.scrub pkg mem unit .clean) s fun t => t = s) ∧
    (scrubUnit s pkg mem unit = some (loc, len) → massifAt loc = some (pkg, m) →
      let bad : State := ({ s with ce := s.ce.filter (fun x => x != (loc, len)), ue := if s.ue.contains (loc, len) then s.ue
        else s.ue ++ [(loc, len)] } : State).modPkg pkg fun x => x.countEcc m loc true
      let mended : State := ({ s with ce := s.ce.filter fun x => x != (loc, len) } : State).modPkg pkg fun x => x.countEcc m loc false
      let counts (t : State) : Prop := (t.bad loc len = true ∧ (loc, len) ∈ t.ue ∧
        tblGet (t.pkg pkg).eccUe m 0 = min (tblGet p.eccUe m 0 + 1) 0xFFFF ∧
        if p.rmode.getLsbD 1 then Alarmed bad t pkg 0 22 (unitInfo bad loc len + 2 ^ 61) (tblGet p.corrections key 0)
        else t = { s with ue := t.ue, ce := t.ce, pkgs := t.pkgs })
      let corrects (t : State) : Prop := (t.ue = s.ue ∧ (loc, len) ∉ t.ce ∧
        tblGet (t.pkg pkg).eccCe m 0 = min (tblGet p.eccCe m 0 + 1) 0xFFFFFFFF ∧
        if p.rmode.getLsbD 1 = true ∧ 15 ≤ tblGet p.corrections key 0 then
          Alarmed mended t pkg 0 22 (unitInfo mended loc len) (tblGet p.corrections key 0 + 1)
        else t = { s with pkgs := t.pkgs, ce := t.ce } ∧ tblGet (t.pkg pkg).corrections key 0 = tblGet p.corrections key 0 + 1)
      (0 < len → Completes (.scrub pkg mem unit .uncorrectable) s counts) ∧
      (0 < len → (loc, len) ∈ s.ue → Completes (.scrub pkg mem unit .clean) s counts ∧ Completes (.scrub pkg mem unit .corrected) s counts) ∧
      ((loc, len) ∉ s.ue → Completes (.scrub pkg mem unit .corrected) s corrects ∧
        ((loc, len) ∈ s.ce → Completes (.scrub pkg mem unit .clean) s corrects))) ∧
    (cluster < 128 →
      let w := tblGet p.wear cluster Wear.blank
      let idx := max w.index (min index 1000)
      (idx < 1000 → p.rmode.getLsbD 0 = false → guardHeld s pkg cluster = false → deferred s pkg cluster = false →
        Completes (.wearSample pkg cluster index none) s fun t => t = { s with pkgs := t.pkgs } ∧
          tblGet (t.pkg pkg).wear cluster Wear.blank = { w with index := idx, guard := w.index / 50 }) ∧
      (idx < 1000 → p.rmode.getLsbD 0 = true →
        idx / 50 ≠ w.index / 50 ∨ w.guard < idx / 50 ∧ guardHeld s pkg cluster = false →
        Completes (.wearSample pkg cluster index none) s fun t =>
          Alarmed s t pkg 0 23 (cluster + idx / 50 * 2 ^ 16) idx ∧ t.token = s.token + 1 ∧
          t.cases = s.cases ++ [⟨s.token, pkg * 32, .guard pkg cluster (idx / 50), s.time pkg + 10 ^ 10, none⟩] ∧
          tblGet (t.pkg pkg).wear cluster Wear.blank = { w with index := idx }) ∧
      (idx = 1000 → Completes (.wearSample pkg cluster index none) s fun t => cluster ∈ (t.pkg pkg).wornClusters)) ∧
    Completes (.lifeRecompute pkg) s (fun t => t = { s with pkgs := t.pkgs } ∧ (t.pkg pkg).healthSeq = p.healthSeq + 1 ∧
      ∀ w, tblFind p.wear cluster = some w → ∃ w', tblFind (t.pkg pkg).wear cluster = some w' ∧ w'.index = w.index ∧
        let i30 := (w.history[29]?).getD w.i30
        w'.i30 = i30 ∧ w'.life = if w.index ≤ i30 then 0xFFFF
          else min (((1000 - w.index) * 30 + (w.index - i30) - 1) / (w.index - i30)) 0xFFFE)

/-- R431, R453: an alarm of level 1 is reported and, of a record, stops launches; of level 2 it quarantines its VD, whose teams
are to be discarded; of level 3 it erases the keys and takes every link down. A setpoint outside the window, or an erase without
the latch, is refused and reported. The window's unit and base are the model's (20 guard steps of 2.5 mV above the base are 500
tenths of a millivolt, log entry 27), and so is the source of a temperature alarm (log entry 46).

R455, R453: a package reset leaves no thread, VD or queue of the package and its memory zero, and keeps every other
package's; with images and records that pass their checks it ends with launches accepted, the package's measurement registers
extended with the images (R430) and event 26 held, and with one that fails, without them. -/
def Obligations.AlarmsAndReset : Prop :=
  (∀ (pkg v cluster val : Nat) (vd : Option Nat) (y : Team) (p : Pkg) (s : State), tblFind s.pkgs pkg = some p → s.Keyed →
    let alarm (src : AlarmSource) := Completes (.securityAlarm pkg src vd) s
    let dark (t : State) : Prop := (t.pkg pkg).erased = true ∧ (t.pkg pkg).linksUp = []
    (alarm .linkAuthentication fun t => t = postOlush s pkg 0 21 (1 + 3 * 256) 0xFF) ∧
    (alarm .temperature fun t => t = postOlush s pkg 0 21 (1 + 4 * 256) 0xFF) ∧
    (vd = some v → alarm .roleSignature fun t => t = postOlush s pkg v 21 (1 + 256) v) ∧
    (alarm .firmwareOrRecord fun t => t.pkg pkg = { p with booted := false } ∧ Alarmed s t pkg 0 21 (1 + 2 * 256) 0xFF) ∧
    (vd = some v → v < 16 → alarm .debugNamingVd fun t => (t.vd (vdKey pkg v)).quar = true ∧
      (y ∈ teamsOn s (vdKey pkg v) → y.st = .bound → y.pre = none → (∀ x ∈ s.teams, x.vd = y.vd → x.num = y.num → x = y) →
        (∃ z r, t.findTeam y.vd y.num = some z ∧ z.pre = some r ∧ r.action = 5) ∧
        ∀ k ∈ y.tids, (t.thread k).stop ≠ 0)) ∧
    (alarm .debugNoVd fun t => dark t ∧ (t.pkg pkg).latch = p.latch ∧ Alarmed s t pkg 0 21 (3 + 6 * 256) 0xFF) ∧
    (alarm .glitch fun t => dark t ∧ (t.pkg pkg).latch = true ∧ Alarmed s t pkg 0 21 (3 + 7 * 256) 0xFF) ∧
    (alarm .tamper fun t => dark t ∧ (t.pkg pkg).latch = true ∧ Alarmed s t pkg 0 21 (3 + 8 * 256) 0xFF) ∧
    (p.latch = true → Completes (.olushOutput pkg true cluster val) s fun t => dark t ∧ t.thr = s.thr) ∧
    (p.latch = false → Completes (.olushOutput pkg true cluster val) s fun t => t = postOlush s pkg 0 24 1 val) ∧
    let fits := p.window.1 ≤ val ∧ val ≤ p.window.2 ∧ val ≤ Config.baseSetpoint cluster + 500
    (fits → Completes (.olushOutput pkg false cluster val) s fun t => t = { s with pkgs := t.pkgs } ∧
      tblGet (t.pkg pkg).wear cluster Wear.blank = { tblGet p.wear cluster Wear.blank with setpoint := val }) ∧
    (¬ fits → Completes (.olushOutput pkg false cluster val) s fun t => t = postOlush s pkg 0 24 0 val)) ∧
  (∀ (pkg : Nat) (p : Pkg) (s : State), tblFind s.pkgs pkg = some p →
    let gone (t : State) : Prop := (∀ k, t.thread k = if pkgOfThread k = pkg then Thread.blank k else s.thread k) ∧
      (∀ k, t.vd k = if k / 16 = pkg then Vd.blank else s.vd k) ∧
      (∀ gc, t.core gc = if pkgOf gc = pkg then Core.blank else s.core gc) ∧
      (t.fn (pkg * 32)).queues = Vector.replicate 8 Queue.blank ∧
      ∀ x, memRead t.mem x = if (massifAt x).map (fun y => y.1) = some pkg then 0 else memRead s.mem x
    let event (t : State) (type : Nat) : Prop := ∃ rec_ : List Byte, ((t.fn (pkg * 32)).rings[0]?) =
      some { Ring.blank with hold := [rec_] } ∧ (rec_.drop 8).take 2 = toBytes 2 type
    ((∀ x ∈ p.images, x.verifies = true) → p.rollback ≤ p.configVersion → p.mirrorSeq ≤ p.healthSeq → Completes (.packageReset pkg) s fun t => gone t ∧
      event t 26 ∧ (t.pkg pkg).booted = true ∧ (t.pkg pkg).linksUp = [] ∧ (t.pkg pkg).rmode = 0 ∧
      (t.pkg pkg).rollback = max p.rollback p.configVersion ∧ (t.pkg pkg).timeOff = p.timeOff ∧ (t.pkg pkg).wear = p.wear ∧
      (t.pkg pkg).resetAt = s.cycle ∧ (t.pkg pkg).measured = p.images.map fun x => extendMeasure 0 x.digest) ∧
    ((∃ x ∈ p.images, x.verifies = false) ∨ p.configVersion < p.rollback ∨ p.healthSeq < p.mirrorSeq → Completes (.packageReset pkg) s fun t => gone t ∧
      event t 21 ∧ (t.pkg pkg).booted = false ∧ (t.pkg pkg).rollback = p.rollback))

/-! ## The machine as a whole -/

/-- R326, R34, R37, R50, R327: a turn of a thread, once what a restore still held for it has come in as far as there is room,
takes the first cycle of its slot that is not over, counted from its package's reset, where no other thread has a turn to take before
it, and with nothing before it
runs the instruction that the units of its head decode to, or raises ILLEGAL; a park that has lasted its limit then ends. A step
of the part runs as it is named. -/
def Obligations.StepRunsTheDecodedInstruction : Prop :=
  ∀ (id : Nat) (rest : List Pick) (l : Line) (e : Instr) (s : State),
    (s.agenda = .turn id :: rest →
      noneDue { s with agenda := rest } (({ s with agenda := rest } : State).turnCycle (s.thread id)) = true →
      let r := ({ s with agenda := rest } : State).refillHeld id
      let u := r.atTurn id
      let base := (s.pkg (pkgOfThread id)).resetAt
      let h := u.thr.pc.toNat % 64 / 2
      let issues (i : Instr) : Prop := ∀ v, exec i u = .next v →
        step s = if v.parkExpired then exec (.parklong id) v else .next v.stopParked
      (s.heldRest id = [] → r = { s with agenda := rest }) ∧ (base ≤ s.cycle → (u.cycle - base) % 8 = id % 8) ∧
      s.cycle ≤ u.cycle ∧ u.thr = { r.thread id with nextTurn := u.cycle + 1 } ∧ u.mem = s.mem ∧
      (u.thr.st = .ready → u.thr.storeHold = [] → u.thr.stop ≠ 2 → u.thr.delivers = false → u.thr.want = none →
        u.thr.lineAt (lineAddr u.thr.pc) = some l → 1 ≤ h → h ≤ l.n →
        (∀ i, decode (l.units h) = .ok i → issues i) ∧
        (∀ err, decode (l.units h) = .error err → issues (illegalOf (l.units h))))) ∧
    (s.agenda = .event e :: rest → encode e = [] → step s = exec e { s with agenda := rest })

/-- R49, R34: words written out from the encoding tables decode to the instructions that they stand for. -/
def Obligations.WordsDecode : Prop :=
  ∀ e ∈ ([([0x5F00, 0x1002, 0x0000], .prog false (.s 4)), ([0x5F00, 0x1403, 0x0020], .ckpt false .g (.s 5)),
      ([0x45B2, 0x0C02, 0xFFFF], .cmpi false (.p 2) (.s 3) 0xFFFF .lt), ([0x4605, 0x1800, 0x00C8], .bfx false 5 (.s 6) 8 3),
      ([0x6C61, 0x8A30, 0x9000, 0x7008], .vfma false .f32 .rne false 2 1 2 3 4),
      ([0x7585, 0x0841, 0x0003, 0x0083], .amo false .d .g .add .acqrel 5 (.s 2) (.s 4) (.s 0)),
      ([0x6E05, 0x8801, 0x001F, 0x0002], .vext false .w 5 2 31),
      ([0x5F80, 0x20A2, 0x2005], .tdef false 8 (.s 10) 2 5)] : List (List Nat × Instr)),
    decode e.1 = .ok e.2

/-- R37 to R41, R49: every well-formed instruction is read back from its units, with every operand at every value; two
instructions never share their units. -/
def Obligations.EncodingsRoundTrip : Prop :=
  ∀ i : Instr, i.wf = true → encode i ≠ [] → decode (encode i) = .ok i ∧
    ∀ j : Instr, j.wf = true → encode j = encode i → j = i

/-- The list of memory bytes keeps its canonical form in every step, and every thread stays held under its own number (the
model's own forms). -/
def Obligations.FormsAreInvariant : Prop := Invariant State.Wf ∧ Invariant State.Keyed

/-- R84, R327: no instruction and no step of the part is refused or stops the machine, in any state; a step fails only where the
agenda names an instruction as a step of the part (the model's own schedule). -/
def Obligations.EveryStepGoesOn : Prop :=
  (∀ (i : Instr) (s : State), ∃ t, exec i s = .next t) ∧
  ∀ s : State, (∀ e rest, s.agenda = .event e :: rest → encode e = []) → ∃ t, step s = .next t

/-- R455, R422, R55, R107, R194, R328, R396: after reset no thread and no VD exists, every byte of memory reads as zero, event 26
is held for the host, launches are accepted; a context that is not in use holds the values of a fresh one (the register values
are the model's where the spec gives none: log entries 1 to 3; so are what a core holds, log entries 4 and 5, and that cycles count
from 0 there, log entry 8). -/
def Obligations.ResetState : Prop :=
  let s := State.reset
  s.Wf ∧ s.Keyed ∧ (∀ x, memRead s.mem x = 0) ∧ (∀ id, s.thread id = Thread.blank id) ∧ (∀ vk, (s.vd vk).isVd = false) ∧
  (∀ gc, s.core gc = Core.blank) ∧ s.cycle = 0 ∧ (s.pkg 0).booted = true ∧ (s.pkg 0).shape = [16, 16, 16, 16, 16, 16, 16, 16] ∧
  (∀ q < 8, (s.queue 0 q).en = false) ∧
  (∃ rec_ : List Byte, ((s.fn 0).rings[0]?).map (fun g => g.hold) = some [rec_] ∧ (rec_.drop 8).take 2 = toBytes 2 26) ∧
  ∀ id, let t := Thread.blank id
    t.st = .absent ∧ t.sFull = 0 ∧ t.vFull = 0 ∧ t.pFull = 0 ∧ t.l0.arm = false ∧ t.l1.arm = false ∧ t.syncl = 0xFF ∧
    t.wdog = 0x4000 ∧ t.tcls = 1 ∧ t.hm = false ∧ t.tvec = 0 ∧ t.buf = [] ∧ t.sendq = []
end

