-- ==== Sys2Proof/Laws/Encoding.lean ====
section
/-! SUPPORT. The fields of an encoded unit read back as they were put in, and every code names what it was made from. -/

namespace Sys2Proof

@[simp] theorem ok_bind {α β : Type} (a : α) (f : α → Dec β) : (Except.ok a >>= f) = f a := rfl
@[simp] theorem pure_eq_ok {α : Type} (a : α) : (pure a : Dec α) = Except.ok a := rfl
@[simp] theorem req_true (e : DecErr) : req true e = .ok () := rfl
@[simp] theorem zero_zero : zero 0 = .ok () := rfl

/-! Bounds, in the form in which a field asks for them. -/

@[simp] theorem bool_lt (b : Bool) {n : Nat} (h : 2 ≤ n) : b.toNat < n := Nat.lt_of_lt_of_le (Bool.toNat_lt b) h
@[simp] theorem bool_le (b : Bool) {n : Nat} (h : 1 ≤ n) : b.toNat ≤ n := Nat.le_trans (Bool.toNat_le b) h
@[simp] theorem fin_lt {m : Nat} (p : Fin m) {n : Nat} (h : m ≤ n) : p.val < n := Nat.lt_of_lt_of_le p.isLt h
@[simp] theorem bv_lt {w : Nat} (x : BitVec w) {n : Nat} (h : 2 ^ w ≤ n) : x.toNat < n := Nat.lt_of_lt_of_le x.isLt h
@[simp] theorem bv_mod {w : Nat} (x : BitVec w) {n : Nat} (h : 2 ^ w ≤ n) : x.toNat % n = x.toNat :=
  Nat.mod_eq_of_lt (bv_lt x h)
@[simp] theorem pack_div (l : Nat) {p k : Nat} (h : p < k) : (l * k + p) / k = l := by
  rw [Nat.mul_comm, Nat.mul_add_div (Nat.lt_of_le_of_lt (Nat.zero_le p) h), Nat.div_eq_of_lt h, Nat.add_zero]
@[simp] theorem pack_lt {w : Nat} (x : BitVec w) {p k n : Nat} (h : p < k) (hn : 2 ^ w * k ≤ n) : x.toNat * k + p < n :=
  Nat.lt_of_lt_of_le
    (Nat.lt_of_lt_of_le (Nat.add_lt_add_left h _) (by rw [← Nat.succ_mul]; exact Nat.mul_le_mul_right k x.isLt)) hn
@[simp] theorem imm16_toNat (x : BitVec 16) : imm16 x.toNat = x := by simp [imm16]
@[simp] theorem imm32_split (x : BitVec 32) : imm32 (x.toNat % 65536) (x.toNat / 65536) = x := by
  rw [imm32, Nat.mod_add_div]; simp

theorem Src.code_lt (a : Src) : a.code < 64 := by cases a <;> simp [Src.code]
theorem Reg.code_lt (a : Reg) : a.code < 64 := by cases a <;> simp [Reg.code] <;> omega
theorem FullSrc.code_lt (a : FullSrc) : a.code < 64 := by
  cases a <;> simp [FullSrc.code, Reg.code_lt]
theorem CmpDst.code_lt (a : CmpDst) : a.code < 64 := by cases a <;> simp [CmpDst.code] <;> omega
@[simp] theorem vCode_lt (r : VReg) : vCode r < 64 := by simp [vCode]; omega
@[simp] theorem pCode_lt (r : PReg) : pCode r < 64 := by simp [pCode]; omega
@[simp] theorem optCode_lt (a : Option Src) : optCode a < 64 := by
  cases a with
  | none => decide
  | some a => exact a.code_lt
theorem Ty.code_lt (t : Ty) : t.code < 16 := by cases t <;> decide
theorem Rm.code_lt (t : Rm) : t.code < 8 := by cases t <;> decide
theorem Scope.code_lt (sc : Scope) : sc.code < 8 := by cases sc <;> decide
theorem Sz.code_lt (t : Sz) : t.code < 4 := by cases t <;> decide
theorem Cond.code_lt (t : Cond) : t.code < 16 := by cases t <;> decide
theorem AmoOp.code_lt (t : AmoOp) : t.code < 16 := by cases t <;> decide
theorem AmoOrd.code_lt (t : AmoOrd) : t.code < 4 := by cases t <;> decide
theorem ReduOp.code_lt (t : ReduOp) : t.code < 16 := by cases t <;> decide

/-! The same bounds for any field wide enough. -/

@[simp] theorem Src.code_bound (a : Src) {n : Nat} (h : 64 ≤ n) : a.code < n := Nat.lt_of_lt_of_le a.code_lt h
@[simp] theorem Reg.code_bound (a : Reg) {n : Nat} (h : 64 ≤ n) : a.code < n := Nat.lt_of_lt_of_le a.code_lt h
@[simp] theorem FullSrc.code_bound (a : FullSrc) {n : Nat} (h : 64 ≤ n) : a.code < n := Nat.lt_of_lt_of_le a.code_lt h
@[simp] theorem CmpDst.code_bound (a : CmpDst) {n : Nat} (h : 64 ≤ n) : a.code < n := Nat.lt_of_lt_of_le a.code_lt h
@[simp] theorem Ty.code_bound (a : Ty) {n : Nat} (h : 16 ≤ n) : a.code < n := Nat.lt_of_lt_of_le a.code_lt h
@[simp] theorem Rm.code_bound (a : Rm) {n : Nat} (h : 8 ≤ n) : a.code < n := Nat.lt_of_lt_of_le a.code_lt h
@[simp] theorem Scope.code_bound (a : Scope) {n : Nat} (h : 8 ≤ n) : a.code < n := Nat.lt_of_lt_of_le a.code_lt h
@[simp] theorem Sz.code_bound (a : Sz) {n : Nat} (h : 4 ≤ n) : a.code < n := Nat.lt_of_lt_of_le a.code_lt h
@[simp] theorem Cond.code_bound (a : Cond) {n : Nat} (h : 16 ≤ n) : a.code < n := Nat.lt_of_lt_of_le a.code_lt h
@[simp] theorem AmoOp.code_bound (a : AmoOp) {n : Nat} (h : 16 ≤ n) : a.code < n := Nat.lt_of_lt_of_le a.code_lt h
@[simp] theorem AmoOrd.code_bound (a : AmoOrd) {n : Nat} (h : 4 ≤ n) : a.code < n := Nat.lt_of_lt_of_le a.code_lt h
@[simp] theorem ReduOp.code_bound (a : ReduOp) {n : Nat} (h : 16 ≤ n) : a.code < n := Nat.lt_of_lt_of_le a.code_lt h
@[simp] theorem optCode_bound (a : Option Src) {n : Nat} (h : 64 ≤ n) : optCode a < n := Nat.lt_of_lt_of_le (optCode_lt a) h

/-! What the fields of zero name. -/

@[simp] theorem bit_zero : bit 0 = false := rfl
@[simp] theorem decScope_zero : decScope 0 = .ok .t := rfl
@[simp] theorem decSz_three : decSz 3 = .ok .d := rfl
theorem decTy_ten : decTy 10 = .ok .bpi := rfl
theorem mkC_zero (e : Nat) : mkC 0 e = e := by simp [mkC]
@[simp] theorem mT_zero : mT 0 = 0 := rfl
@[simp] theorem mRm_zero : mRm 0 = 0 := rfl
@[simp] theorem mSa_zero : mSa 0 = 0 := rfl
@[simp] theorem mSc_zero : mSc 0 = 0 := rfl
@[simp] theorem mPr_zero : mPr 0 = 0 := rfl
@[simp] theorem mSz_zero : mSz 0 = 0 := rfl

@[simp] theorem decS_val (r : SReg) : decS r.val = .ok r := by simp [decS]
@[simp] theorem decV_vCode (r : VReg) : decV (vCode r) = .ok r := by simp [decV, vCode]
@[simp] theorem decP_pCode (r : PReg) : decP (pCode r) = .ok r := by simp [decP, pCode]
@[simp] theorem decSrc_code (a : Src) : decSrc a.code = .ok a := by cases a <;> simp [decSrc, Src.code]
@[simp] theorem decReg_code (a : Reg) : decReg a.code = .ok a := by
  cases a with
  | s r => simp [decReg, Reg.code]
  | v r => have := r.2; simp [decReg, Reg.code]
  | p r => have := r.2; simp [decReg, Reg.code, show ¬ (r.val + 48 < 32) by omega]
@[simp] theorem decFull_code (a : FullSrc) : decFull a.code = .ok a := by
  cases a with
  | reg r =>
    have : r.code < 56 := by cases r <;> simp [Reg.code] <;> omega
    simp [decFull, FullSrc.code, show r.code ≠ 56 by omega, show r.code ≠ 57 by omega]
  | tags => rfl
  | time => rfl
@[simp] theorem decCmpDst_code (a : CmpDst) : decCmpDst a.code = .ok a := by
  cases a <;> simp [decCmpDst, CmpDst.code]
@[simp] theorem decTy_code (t : Ty) : decTy t.code = .ok t := by cases t <;> rfl
@[simp] theorem decRm_code (t : Rm) : decRm t.code = .ok t := by cases t <;> rfl
@[simp] theorem decScope_code (sc : Scope) : decScope sc.code = .ok sc := by cases sc <;> rfl
@[simp] theorem decSz_code (t : Sz) : decSz t.code = .ok t := by cases t <;> rfl
@[simp] theorem decCond_code (t : Cond) : decCond t.code = .ok t := by cases t <;> rfl
@[simp] theorem decAmoOp_code (t : AmoOp) : decAmoOp t.code = .ok t := by cases t <;> rfl
@[simp] theorem decAmoOrd_code (t : AmoOrd) : decAmoOrd t.code = .ok t := by cases t <;> rfl
@[simp] theorem decReduOp_code (t : ReduOp) : decReduOp t.code = .ok t := by cases t <;> rfl
@[simp] theorem decPr_val (r : PReg) : decPr r.val = r := by
  apply Fin.ext; simp [decPr]

theorem decOpt_code (b : Option Src) (h : b ≠ some (.s 0)) : decOpt (optCode b) = .ok b := by
  cases b with
  | none => rfl
  | some a =>
    have hc : a.code ≠ 0 := by
      cases a with
      | s r => intro h0; apply h; simp [Src.code] at h0; simp [h0]
      | tags => decide
      | time => decide
    simp [decOpt, optCode, hc]

theorem bit_eq {n : Nat} {b : Bool} (h : n % 2 = b.toNat) : bit n = b := by cases b <;> simp_all [bit]
theorem ofNat_eq {w n : Nat} {x : BitVec w} (h : n % 2 ^ w = x.toNat) : BitVec.ofNat w n = x := by
  apply BitVec.eq_of_toNat_eq; simpa using h
@[simp] theorem bit_toNat (b : Bool) : bit b.toNat = b := by cases b <;> rfl

/-! Fields of the built units. -/

@[simp] theorem headSw_mk (sw : Bool) {tl op d : Nat} (h1 : tl < 4) (h2 : op < 128) (h3 : d < 64) :
    headSw (mkHead sw tl op d) = sw := by
  cases sw <;> simp [headSw, mkHead] <;> omega
@[simp] theorem headTl_mk (sw : Bool) {tl op d : Nat} (h1 : tl < 4) (h2 : op < 128) (h3 : d < 64) :
    headTl (mkHead sw tl op d) = tl := by
  cases sw <;> simp [headTl, mkHead] <;> omega
@[simp] theorem headOp_mk (sw : Bool) {tl op d : Nat} (h2 : op < 128) (h3 : d < 64) : headOp (mkHead sw tl op d) = op := by
  cases sw <;> simp [headOp, mkHead] <;> omega
@[simp] theorem headD_mk (sw : Bool) {tl op d : Nat} (h3 : d < 64) : headD (mkHead sw tl op d) = d := by
  cases sw <;> simp [headD, mkHead] <;> omega
@[simp] theorem abfA_mk {a b f : Nat} (h1 : a < 64) (h2 : b < 64) (h3 : f < 16) : abfA (mkAbf a b f) = a := by
  simp [abfA, mkAbf]; omega
@[simp] theorem abfB_mk {a b f : Nat} (h2 : b < 64) (h3 : f < 16) : abfB (mkAbf a b f) = b := by
  simp [abfB, mkAbf]; omega
@[simp] theorem abfF_mk {a b f : Nat} (h3 : f < 16) : abfF (mkAbf a b f) = f := by
  simp [abfF, mkAbf]; omega
@[simp] theorem cC_mk {c e : Nat} (h1 : c < 64) (h2 : e < 1024) : cC (mkC c e) = c := by simp [cC, mkC]; omega
@[simp] theorem cE_mk {c e : Nat} (h2 : e < 1024) : cE (mkC c e) = e := by simp [cE, mkC]; omega
@[simp] theorem mT_mk {t rm sa sc pr sz : Nat} (h1 : t < 16) (h2 : rm < 8) (h3 : sa < 2) (h4 : sc < 8) (h5 : pr < 8)
    (h6 : sz < 4) : mT (mkM t rm sa sc pr sz) = t := by simp [mT, mkM]; omega
@[simp] theorem mRm_mk {t rm sa sc pr sz : Nat} (h2 : rm < 8) (h3 : sa < 2) (h4 : sc < 8) (h5 : pr < 8)
    (h6 : sz < 4) : mRm (mkM t rm sa sc pr sz) = rm := by simp [mRm, mkM]; omega
@[simp] theorem mSa_mk {t rm sa sc pr sz : Nat} (h3 : sa < 2) (h4 : sc < 8) (h5 : pr < 8)
    (h6 : sz < 4) : mSa (mkM t rm sa sc pr sz) = sa := by simp [mSa, mkM]; omega
@[simp] theorem mSc_mk {t rm sa sc pr sz : Nat} (h4 : sc < 8) (h5 : pr < 8)
    (h6 : sz < 4) : mSc (mkM t rm sa sc pr sz) = sc := by simp [mSc, mkM]; omega
@[simp] theorem mPr_mk {t rm sa sc pr sz : Nat} (h5 : pr < 8) (h6 : sz < 4) : mPr (mkM t rm sa sc pr sz) = pr := by
  simp [mPr, mkM]; omega
@[simp] theorem mSz_mk {t rm sa sc pr sz : Nat} (h6 : sz < 4) : mSz (mkM t rm sa sc pr sz) = sz := by
  simp [mSz, mkM]; omega
@[simp] theorem biDelta_mk (delta : BitVec 11) (h : BitVec 5) : biDelta (mkBi delta h) = delta := by
  apply BitVec.eq_of_toNat_eq; simp [biDelta, mkBi]
@[simp] theorem biH_mk (delta : BitVec 11) (h : BitVec 5) : biH (mkBi delta h) = h := by
  apply BitVec.eq_of_toNat_eq; simp [biH, mkBi]

/-- Decoding a list of units is decoding the fields of its head with the missing units zero. -/
theorem decode_enc0 (sw : Bool) {op d : Nat} (h2 : op < 128) (h3 : d < 64) :
    decode (enc0 sw op d) = decFields ⟨sw, 0, op, d, 0, 0, 0⟩ := by
  simp [decode, enc0, fieldsOf, headTl_mk, headSw_mk, headOp_mk, headD_mk, h2, h3]
theorem decode_enc1 (sw : Bool) {op d u0 : Nat} (h2 : op < 128) (h3 : d < 64) :
    decode (enc1 sw op d u0) = decFields ⟨sw, 1, op, d, u0, 0, 0⟩ := by
  simp [decode, enc1, fieldsOf, headTl_mk, headSw_mk, headOp_mk, headD_mk, h2, h3]
theorem decode_enc2 (sw : Bool) {op d u0 u1 : Nat} (h2 : op < 128) (h3 : d < 64) :
    decode (enc2 sw op d u0 u1) = decFields ⟨sw, 2, op, d, u0, u1, 0⟩ := by
  simp [decode, enc2, fieldsOf, headTl_mk, headSw_mk, headOp_mk, headD_mk, h2, h3]
theorem decode_enc3 (sw : Bool) {op d u0 u1 u2 : Nat} (h2 : op < 128) (h3 : d < 64) :
    decode (enc3 sw op d u0 u1 u2) = decFields ⟨sw, 3, op, d, u0, u1, u2⟩ := by
  simp [decode, enc3, fieldsOf, headTl_mk, headSw_mk, headOp_mk, headD_mk, h2, h3]

end Sys2Proof
end

