-- ==== Sys2Proof/Laws/State.lean ====
section
/-! SUPPORT. What each named update of the state does to each of its fields. -/

namespace Sys2Proof.Machine

variable (s : State)

@[simp] theorem State.modThr_thr (f : Thread → Thread) : (s.modThr f).thr = f s.thr := rfl
@[simp] theorem State.modThr_threads (f : Thread → Thread) : (s.modThr f).threads = s.threads := rfl
@[simp] theorem State.modThr_cores (f : Thread → Thread) : (s.modThr f).cores = s.cores := rfl
@[simp] theorem State.modThr_routers (f : Thread → Thread) : (s.modThr f).routers = s.routers := rfl
@[simp] theorem State.modThr_arbiters (f : Thread → Thread) : (s.modThr f).arbiters = s.arbiters := rfl
@[simp] theorem State.modThr_vds (f : Thread → Thread) : (s.modThr f).vds = s.vds := rfl
@[simp] theorem State.modThr_teams (f : Thread → Thread) : (s.modThr f).teams = s.teams := rfl
@[simp] theorem State.modThr_disps (f : Thread → Thread) : (s.modThr f).disps = s.disps := rfl
@[simp] theorem State.modThr_posted (f : Thread → Thread) : (s.modThr f).posted = s.posted := rfl
@[simp] theorem State.modThr_forwards (f : Thread → Thread) : (s.modThr f).forwards = s.forwards := rfl
@[simp] theorem State.modThr_retraces (f : Thread → Thread) : (s.modThr f).retraces = s.retraces := rfl
@[simp] theorem State.modThr_fns (f : Thread → Thread) : (s.modThr f).fns = s.fns := rfl
@[simp] theorem State.modThr_pkgs (f : Thread → Thread) : (s.modThr f).pkgs = s.pkgs := rfl
@[simp] theorem State.modThr_cases (f : Thread → Thread) : (s.modThr f).cases = s.cases := rfl
@[simp] theorem State.modThr_invs (f : Thread → Thread) : (s.modThr f).invs = s.invs := rfl
@[simp] theorem State.modThr_mem (f : Thread → Thread) : (s.modThr f).mem = s.mem := rfl
@[simp] theorem State.modThr_back (f : Thread → Thread) : (s.modThr f).back = s.back := rfl
@[simp] theorem State.modThr_full (f : Thread → Thread) : (s.modThr f).full = s.full := rfl
@[simp] theorem State.modThr_ue (f : Thread → Thread) : (s.modThr f).ue = s.ue := rfl
@[simp] theorem State.modThr_ce (f : Thread → Thread) : (s.modThr f).ce = s.ce := rfl
@[simp] theorem State.modThr_iommu (f : Thread → Thread) : (s.modThr f).iommu = s.iommu := rfl
@[simp] theorem State.modThr_cycle (f : Thread → Thread) : (s.modThr f).cycle = s.cycle := rfl
@[simp] theorem State.modThr_seq (f : Thread → Thread) : (s.modThr f).seq = s.seq := rfl
@[simp] theorem State.modThr_free (f : Thread → Thread) : (s.modThr f).free = s.free := rfl
@[simp] theorem State.modThr_token (f : Thread → Thread) : (s.modThr f).token = s.token := rfl
@[simp] theorem State.modThr_agenda (f : Thread → Thread) : (s.modThr f).agenda = s.agenda := rfl

@[simp] theorem State.setCore_thr (gc : Nat) (c : Core) : (s.setCore gc c).thr = s.thr := rfl
@[simp] theorem State.setCore_threads (gc : Nat) (c : Core) : (s.setCore gc c).threads = s.threads := rfl
@[simp] theorem State.setCore_cores (gc : Nat) (c : Core) : (s.setCore gc c).cores = tblPut s.cores gc c := rfl
@[simp] theorem State.setCore_routers (gc : Nat) (c : Core) : (s.setCore gc c).routers = s.routers := rfl
@[simp] theorem State.setCore_arbiters (gc : Nat) (c : Core) : (s.setCore gc c).arbiters = s.arbiters := rfl
@[simp] theorem State.setCore_vds (gc : Nat) (c : Core) : (s.setCore gc c).vds = s.vds := rfl
@[simp] theorem State.setCore_teams (gc : Nat) (c : Core) : (s.setCore gc c).teams = s.teams := rfl
@[simp] theorem State.setCore_disps (gc : Nat) (c : Core) : (s.setCore gc c).disps = s.disps := rfl
@[simp] theorem State.setCore_posted (gc : Nat) (c : Core) : (s.setCore gc c).posted = s.posted := rfl
@[simp] theorem State.setCore_forwards (gc : Nat) (c : Core) : (s.setCore gc c).forwards = s.forwards := rfl
@[simp] theorem State.setCore_retraces (gc : Nat) (c : Core) : (s.setCore gc c).retraces = s.retraces := rfl
@[simp] theorem State.setCore_fns (gc : Nat) (c : Core) : (s.setCore gc c).fns = s.fns := rfl
@[simp] theorem State.setCore_pkgs (gc : Nat) (c : Core) : (s.setCore gc c).pkgs = s.pkgs := rfl
@[simp] theorem State.setCore_cases (gc : Nat) (c : Core) : (s.setCore gc c).cases = s.cases := rfl
@[simp] theorem State.setCore_invs (gc : Nat) (c : Core) : (s.setCore gc c).invs = s.invs := rfl
@[simp] theorem State.setCore_mem (gc : Nat) (c : Core) : (s.setCore gc c).mem = s.mem := rfl
@[simp] theorem State.setCore_back (gc : Nat) (c : Core) : (s.setCore gc c).back = s.back := rfl
@[simp] theorem State.setCore_full (gc : Nat) (c : Core) : (s.setCore gc c).full = s.full := rfl
@[simp] theorem State.setCore_ue (gc : Nat) (c : Core) : (s.setCore gc c).ue = s.ue := rfl
@[simp] theorem State.setCore_ce (gc : Nat) (c : Core) : (s.setCore gc c).ce = s.ce := rfl
@[simp] theorem State.setCore_iommu (gc : Nat) (c : Core) : (s.setCore gc c).iommu = s.iommu := rfl
@[simp] theorem State.setCore_cycle (gc : Nat) (c : Core) : (s.setCore gc c).cycle = s.cycle := rfl
@[simp] theorem State.setCore_seq (gc : Nat) (c : Core) : (s.setCore gc c).seq = s.seq := rfl
@[simp] theorem State.setCore_free (gc : Nat) (c : Core) : (s.setCore gc c).free = s.free := rfl
@[simp] theorem State.setCore_token (gc : Nat) (c : Core) : (s.setCore gc c).token = s.token := rfl
@[simp] theorem State.setCore_agenda (gc : Nat) (c : Core) : (s.setCore gc c).agenda = s.agenda := rfl

@[simp] theorem State.modCore_thr (gc : Nat) (f : Core → Core) : (s.modCore gc f).thr = s.thr := rfl
@[simp] theorem State.modCore_threads (gc : Nat) (f : Core → Core) : (s.modCore gc f).threads = s.threads := rfl
@[simp] theorem State.modCore_cores (gc : Nat) (f : Core → Core) : (s.modCore gc f).cores = tblPut s.cores gc (f (s.core gc)) := rfl
@[simp] theorem State.modCore_routers (gc : Nat) (f : Core → Core) : (s.modCore gc f).routers = s.routers := rfl
@[simp] theorem State.modCore_arbiters (gc : Nat) (f : Core → Core) : (s.modCore gc f).arbiters = s.arbiters := rfl
@[simp] theorem State.modCore_vds (gc : Nat) (f : Core → Core) : (s.modCore gc f).vds = s.vds := rfl
@[simp] theorem State.modCore_teams (gc : Nat) (f : Core → Core) : (s.modCore gc f).teams = s.teams := rfl
@[simp] theorem State.modCore_disps (gc : Nat) (f : Core → Core) : (s.modCore gc f).disps = s.disps := rfl
@[simp] theorem State.modCore_posted (gc : Nat) (f : Core → Core) : (s.modCore gc f).posted = s.posted := rfl
@[simp] theorem State.modCore_forwards (gc : Nat) (f : Core → Core) : (s.modCore gc f).forwards = s.forwards := rfl
@[simp] theorem State.modCore_retraces (gc : Nat) (f : Core → Core) : (s.modCore gc f).retraces = s.retraces := rfl
@[simp] theorem State.modCore_fns (gc : Nat) (f : Core → Core) : (s.modCore gc f).fns = s.fns := rfl
@[simp] theorem State.modCore_pkgs (gc : Nat) (f : Core → Core) : (s.modCore gc f).pkgs = s.pkgs := rfl
@[simp] theorem State.modCore_cases (gc : Nat) (f : Core → Core) : (s.modCore gc f).cases = s.cases := rfl
@[simp] theorem State.modCore_invs (gc : Nat) (f : Core → Core) : (s.modCore gc f).invs = s.invs := rfl
@[simp] theorem State.modCore_mem (gc : Nat) (f : Core → Core) : (s.modCore gc f).mem = s.mem := rfl
@[simp] theorem State.modCore_back (gc : Nat) (f : Core → Core) : (s.modCore gc f).back = s.back := rfl
@[simp] theorem State.modCore_full (gc : Nat) (f : Core → Core) : (s.modCore gc f).full = s.full := rfl
@[simp] theorem State.modCore_ue (gc : Nat) (f : Core → Core) : (s.modCore gc f).ue = s.ue := rfl
@[simp] theorem State.modCore_ce (gc : Nat) (f : Core → Core) : (s.modCore gc f).ce = s.ce := rfl
@[simp] theorem State.modCore_iommu (gc : Nat) (f : Core → Core) : (s.modCore gc f).iommu = s.iommu := rfl
@[simp] theorem State.modCore_cycle (gc : Nat) (f : Core → Core) : (s.modCore gc f).cycle = s.cycle := rfl
@[simp] theorem State.modCore_seq (gc : Nat) (f : Core → Core) : (s.modCore gc f).seq = s.seq := rfl
@[simp] theorem State.modCore_free (gc : Nat) (f : Core → Core) : (s.modCore gc f).free = s.free := rfl
@[simp] theorem State.modCore_token (gc : Nat) (f : Core → Core) : (s.modCore gc f).token = s.token := rfl
@[simp] theorem State.modCore_agenda (gc : Nat) (f : Core → Core) : (s.modCore gc f).agenda = s.agenda := rfl

@[simp] theorem State.modRouter_thr (r : Nat) (f : Router → Router) : (s.modRouter r f).thr = s.thr := rfl
@[simp] theorem State.modRouter_threads (r : Nat) (f : Router → Router) : (s.modRouter r f).threads = s.threads := rfl
@[simp] theorem State.modRouter_cores (r : Nat) (f : Router → Router) : (s.modRouter r f).cores = s.cores := rfl
@[simp] theorem State.modRouter_routers (r : Nat) (f : Router → Router) : (s.modRouter r f).routers = tblPut s.routers r (f (s.router r)) := rfl
@[simp] theorem State.modRouter_arbiters (r : Nat) (f : Router → Router) : (s.modRouter r f).arbiters = s.arbiters := rfl
@[simp] theorem State.modRouter_vds (r : Nat) (f : Router → Router) : (s.modRouter r f).vds = s.vds := rfl
@[simp] theorem State.modRouter_teams (r : Nat) (f : Router → Router) : (s.modRouter r f).teams = s.teams := rfl
@[simp] theorem State.modRouter_disps (r : Nat) (f : Router → Router) : (s.modRouter r f).disps = s.disps := rfl
@[simp] theorem State.modRouter_posted (r : Nat) (f : Router → Router) : (s.modRouter r f).posted = s.posted := rfl
@[simp] theorem State.modRouter_forwards (r : Nat) (f : Router → Router) : (s.modRouter r f).forwards = s.forwards := rfl
@[simp] theorem State.modRouter_retraces (r : Nat) (f : Router → Router) : (s.modRouter r f).retraces = s.retraces := rfl
@[simp] theorem State.modRouter_fns (r : Nat) (f : Router → Router) : (s.modRouter r f).fns = s.fns := rfl
@[simp] theorem State.modRouter_pkgs (r : Nat) (f : Router → Router) : (s.modRouter r f).pkgs = s.pkgs := rfl
@[simp] theorem State.modRouter_cases (r : Nat) (f : Router → Router) : (s.modRouter r f).cases = s.cases := rfl
@[simp] theorem State.modRouter_invs (r : Nat) (f : Router → Router) : (s.modRouter r f).invs = s.invs := rfl
@[simp] theorem State.modRouter_mem (r : Nat) (f : Router → Router) : (s.modRouter r f).mem = s.mem := rfl
@[simp] theorem State.modRouter_back (r : Nat) (f : Router → Router) : (s.modRouter r f).back = s.back := rfl
@[simp] theorem State.modRouter_full (r : Nat) (f : Router → Router) : (s.modRouter r f).full = s.full := rfl
@[simp] theorem State.modRouter_ue (r : Nat) (f : Router → Router) : (s.modRouter r f).ue = s.ue := rfl
@[simp] theorem State.modRouter_ce (r : Nat) (f : Router → Router) : (s.modRouter r f).ce = s.ce := rfl
@[simp] theorem State.modRouter_iommu (r : Nat) (f : Router → Router) : (s.modRouter r f).iommu = s.iommu := rfl
@[simp] theorem State.modRouter_cycle (r : Nat) (f : Router → Router) : (s.modRouter r f).cycle = s.cycle := rfl
@[simp] theorem State.modRouter_seq (r : Nat) (f : Router → Router) : (s.modRouter r f).seq = s.seq := rfl
@[simp] theorem State.modRouter_free (r : Nat) (f : Router → Router) : (s.modRouter r f).free = s.free := rfl
@[simp] theorem State.modRouter_token (r : Nat) (f : Router → Router) : (s.modRouter r f).token = s.token := rfl
@[simp] theorem State.modRouter_agenda (r : Nat) (f : Router → Router) : (s.modRouter r f).agenda = s.agenda := rfl

@[simp] theorem State.modVd_thr (vk : Nat) (f : Vd → Vd) : (s.modVd vk f).thr = s.thr := rfl
@[simp] theorem State.modVd_threads (vk : Nat) (f : Vd → Vd) : (s.modVd vk f).threads = s.threads := rfl
@[simp] theorem State.modVd_cores (vk : Nat) (f : Vd → Vd) : (s.modVd vk f).cores = s.cores := rfl
@[simp] theorem State.modVd_routers (vk : Nat) (f : Vd → Vd) : (s.modVd vk f).routers = s.routers := rfl
@[simp] theorem State.modVd_arbiters (vk : Nat) (f : Vd → Vd) : (s.modVd vk f).arbiters = s.arbiters := rfl
@[simp] theorem State.modVd_vds (vk : Nat) (f : Vd → Vd) : (s.modVd vk f).vds = tblPut s.vds vk (f (s.vd vk)) := rfl
@[simp] theorem State.modVd_teams (vk : Nat) (f : Vd → Vd) : (s.modVd vk f).teams = s.teams := rfl
@[simp] theorem State.modVd_disps (vk : Nat) (f : Vd → Vd) : (s.modVd vk f).disps = s.disps := rfl
@[simp] theorem State.modVd_posted (vk : Nat) (f : Vd → Vd) : (s.modVd vk f).posted = s.posted := rfl
@[simp] theorem State.modVd_forwards (vk : Nat) (f : Vd → Vd) : (s.modVd vk f).forwards = s.forwards := rfl
@[simp] theorem State.modVd_retraces (vk : Nat) (f : Vd → Vd) : (s.modVd vk f).retraces = s.retraces := rfl
@[simp] theorem State.modVd_fns (vk : Nat) (f : Vd → Vd) : (s.modVd vk f).fns = s.fns := rfl
@[simp] theorem State.modVd_pkgs (vk : Nat) (f : Vd → Vd) : (s.modVd vk f).pkgs = s.pkgs := rfl
@[simp] theorem State.modVd_cases (vk : Nat) (f : Vd → Vd) : (s.modVd vk f).cases = s.cases := rfl
@[simp] theorem State.modVd_invs (vk : Nat) (f : Vd → Vd) : (s.modVd vk f).invs = s.invs := rfl
@[simp] theorem State.modVd_mem (vk : Nat) (f : Vd → Vd) : (s.modVd vk f).mem = s.mem := rfl
@[simp] theorem State.modVd_back (vk : Nat) (f : Vd → Vd) : (s.modVd vk f).back = s.back := rfl
@[simp] theorem State.modVd_full (vk : Nat) (f : Vd → Vd) : (s.modVd vk f).full = s.full := rfl
@[simp] theorem State.modVd_ue (vk : Nat) (f : Vd → Vd) : (s.modVd vk f).ue = s.ue := rfl
@[simp] theorem State.modVd_ce (vk : Nat) (f : Vd → Vd) : (s.modVd vk f).ce = s.ce := rfl
@[simp] theorem State.modVd_iommu (vk : Nat) (f : Vd → Vd) : (s.modVd vk f).iommu = s.iommu := rfl
@[simp] theorem State.modVd_cycle (vk : Nat) (f : Vd → Vd) : (s.modVd vk f).cycle = s.cycle := rfl
@[simp] theorem State.modVd_seq (vk : Nat) (f : Vd → Vd) : (s.modVd vk f).seq = s.seq := rfl
@[simp] theorem State.modVd_free (vk : Nat) (f : Vd → Vd) : (s.modVd vk f).free = s.free := rfl
@[simp] theorem State.modVd_token (vk : Nat) (f : Vd → Vd) : (s.modVd vk f).token = s.token := rfl
@[simp] theorem State.modVd_agenda (vk : Nat) (f : Vd → Vd) : (s.modVd vk f).agenda = s.agenda := rfl

@[simp] theorem State.modFn_thr (n : Nat) (f : Function → Function) : (s.modFn n f).thr = s.thr := rfl
@[simp] theorem State.modFn_threads (n : Nat) (f : Function → Function) : (s.modFn n f).threads = s.threads := rfl
@[simp] theorem State.modFn_cores (n : Nat) (f : Function → Function) : (s.modFn n f).cores = s.cores := rfl
@[simp] theorem State.modFn_routers (n : Nat) (f : Function → Function) : (s.modFn n f).routers = s.routers := rfl
@[simp] theorem State.modFn_arbiters (n : Nat) (f : Function → Function) : (s.modFn n f).arbiters = s.arbiters := rfl
@[simp] theorem State.modFn_vds (n : Nat) (f : Function → Function) : (s.modFn n f).vds = s.vds := rfl
@[simp] theorem State.modFn_teams (n : Nat) (f : Function → Function) : (s.modFn n f).teams = s.teams := rfl
@[simp] theorem State.modFn_disps (n : Nat) (f : Function → Function) : (s.modFn n f).disps = s.disps := rfl
@[simp] theorem State.modFn_posted (n : Nat) (f : Function → Function) : (s.modFn n f).posted = s.posted := rfl
@[simp] theorem State.modFn_forwards (n : Nat) (f : Function → Function) : (s.modFn n f).forwards = s.forwards := rfl
@[simp] theorem State.modFn_retraces (n : Nat) (f : Function → Function) : (s.modFn n f).retraces = s.retraces := rfl
@[simp] theorem State.modFn_fns (n : Nat) (f : Function → Function) : (s.modFn n f).fns = tblPut s.fns n (f (s.fn n)) := rfl
@[simp] theorem State.modFn_pkgs (n : Nat) (f : Function → Function) : (s.modFn n f).pkgs = s.pkgs := rfl
@[simp] theorem State.modFn_cases (n : Nat) (f : Function → Function) : (s.modFn n f).cases = s.cases := rfl
@[simp] theorem State.modFn_invs (n : Nat) (f : Function → Function) : (s.modFn n f).invs = s.invs := rfl
@[simp] theorem State.modFn_mem (n : Nat) (f : Function → Function) : (s.modFn n f).mem = s.mem := rfl
@[simp] theorem State.modFn_back (n : Nat) (f : Function → Function) : (s.modFn n f).back = s.back := rfl
@[simp] theorem State.modFn_full (n : Nat) (f : Function → Function) : (s.modFn n f).full = s.full := rfl
@[simp] theorem State.modFn_ue (n : Nat) (f : Function → Function) : (s.modFn n f).ue = s.ue := rfl
@[simp] theorem State.modFn_ce (n : Nat) (f : Function → Function) : (s.modFn n f).ce = s.ce := rfl
@[simp] theorem State.modFn_iommu (n : Nat) (f : Function → Function) : (s.modFn n f).iommu = s.iommu := rfl
@[simp] theorem State.modFn_cycle (n : Nat) (f : Function → Function) : (s.modFn n f).cycle = s.cycle := rfl
@[simp] theorem State.modFn_seq (n : Nat) (f : Function → Function) : (s.modFn n f).seq = s.seq := rfl
@[simp] theorem State.modFn_free (n : Nat) (f : Function → Function) : (s.modFn n f).free = s.free := rfl
@[simp] theorem State.modFn_token (n : Nat) (f : Function → Function) : (s.modFn n f).token = s.token := rfl
@[simp] theorem State.modFn_agenda (n : Nat) (f : Function → Function) : (s.modFn n f).agenda = s.agenda := rfl

@[simp] theorem State.modPkg_thr (p : Nat) (f : Pkg → Pkg) : (s.modPkg p f).thr = s.thr := rfl
@[simp] theorem State.modPkg_threads (p : Nat) (f : Pkg → Pkg) : (s.modPkg p f).threads = s.threads := rfl
@[simp] theorem State.modPkg_cores (p : Nat) (f : Pkg → Pkg) : (s.modPkg p f).cores = s.cores := rfl
@[simp] theorem State.modPkg_routers (p : Nat) (f : Pkg → Pkg) : (s.modPkg p f).routers = s.routers := rfl
@[simp] theorem State.modPkg_arbiters (p : Nat) (f : Pkg → Pkg) : (s.modPkg p f).arbiters = s.arbiters := rfl
@[simp] theorem State.modPkg_vds (p : Nat) (f : Pkg → Pkg) : (s.modPkg p f).vds = s.vds := rfl
@[simp] theorem State.modPkg_teams (p : Nat) (f : Pkg → Pkg) : (s.modPkg p f).teams = s.teams := rfl
@[simp] theorem State.modPkg_disps (p : Nat) (f : Pkg → Pkg) : (s.modPkg p f).disps = s.disps := rfl
@[simp] theorem State.modPkg_posted (p : Nat) (f : Pkg → Pkg) : (s.modPkg p f).posted = s.posted := rfl
@[simp] theorem State.modPkg_forwards (p : Nat) (f : Pkg → Pkg) : (s.modPkg p f).forwards = s.forwards := rfl
@[simp] theorem State.modPkg_retraces (p : Nat) (f : Pkg → Pkg) : (s.modPkg p f).retraces = s.retraces := rfl
@[simp] theorem State.modPkg_fns (p : Nat) (f : Pkg → Pkg) : (s.modPkg p f).fns = s.fns := rfl
@[simp] theorem State.modPkg_pkgs (p : Nat) (f : Pkg → Pkg) : (s.modPkg p f).pkgs = tblPut s.pkgs p (f (s.pkg p)) := rfl
@[simp] theorem State.modPkg_cases (p : Nat) (f : Pkg → Pkg) : (s.modPkg p f).cases = s.cases := rfl
@[simp] theorem State.modPkg_invs (p : Nat) (f : Pkg → Pkg) : (s.modPkg p f).invs = s.invs := rfl
@[simp] theorem State.modPkg_mem (p : Nat) (f : Pkg → Pkg) : (s.modPkg p f).mem = s.mem := rfl
@[simp] theorem State.modPkg_back (p : Nat) (f : Pkg → Pkg) : (s.modPkg p f).back = s.back := rfl
@[simp] theorem State.modPkg_full (p : Nat) (f : Pkg → Pkg) : (s.modPkg p f).full = s.full := rfl
@[simp] theorem State.modPkg_ue (p : Nat) (f : Pkg → Pkg) : (s.modPkg p f).ue = s.ue := rfl
@[simp] theorem State.modPkg_ce (p : Nat) (f : Pkg → Pkg) : (s.modPkg p f).ce = s.ce := rfl
@[simp] theorem State.modPkg_iommu (p : Nat) (f : Pkg → Pkg) : (s.modPkg p f).iommu = s.iommu := rfl
@[simp] theorem State.modPkg_cycle (p : Nat) (f : Pkg → Pkg) : (s.modPkg p f).cycle = s.cycle := rfl
@[simp] theorem State.modPkg_seq (p : Nat) (f : Pkg → Pkg) : (s.modPkg p f).seq = s.seq := rfl
@[simp] theorem State.modPkg_free (p : Nat) (f : Pkg → Pkg) : (s.modPkg p f).free = s.free := rfl
@[simp] theorem State.modPkg_token (p : Nat) (f : Pkg → Pkg) : (s.modPkg p f).token = s.token := rfl
@[simp] theorem State.modPkg_agenda (p : Nat) (f : Pkg → Pkg) : (s.modPkg p f).agenda = s.agenda := rfl

@[simp] theorem State.modTeam_thr (vd num : Nat) (f : Team → Team) : (s.modTeam vd num f).thr = s.thr := rfl
@[simp] theorem State.modTeam_threads (vd num : Nat) (f : Team → Team) : (s.modTeam vd num f).threads = s.threads := rfl
@[simp] theorem State.modTeam_cores (vd num : Nat) (f : Team → Team) : (s.modTeam vd num f).cores = s.cores := rfl
@[simp] theorem State.modTeam_routers (vd num : Nat) (f : Team → Team) : (s.modTeam vd num f).routers = s.routers := rfl
@[simp] theorem State.modTeam_arbiters (vd num : Nat) (f : Team → Team) : (s.modTeam vd num f).arbiters = s.arbiters := rfl
@[simp] theorem State.modTeam_vds (vd num : Nat) (f : Team → Team) : (s.modTeam vd num f).vds = s.vds := rfl
@[simp] theorem State.modTeam_teams (vd num : Nat) (f : Team → Team) : (s.modTeam vd num f).teams = s.teams.map fun t => if t.is vd num then f t else t := rfl
@[simp] theorem State.modTeam_disps (vd num : Nat) (f : Team → Team) : (s.modTeam vd num f).disps = s.disps := rfl
@[simp] theorem State.modTeam_posted (vd num : Nat) (f : Team → Team) : (s.modTeam vd num f).posted = s.posted := rfl
@[simp] theorem State.modTeam_forwards (vd num : Nat) (f : Team → Team) : (s.modTeam vd num f).forwards = s.forwards := rfl
@[simp] theorem State.modTeam_retraces (vd num : Nat) (f : Team → Team) : (s.modTeam vd num f).retraces = s.retraces := rfl
@[simp] theorem State.modTeam_fns (vd num : Nat) (f : Team → Team) : (s.modTeam vd num f).fns = s.fns := rfl
@[simp] theorem State.modTeam_pkgs (vd num : Nat) (f : Team → Team) : (s.modTeam vd num f).pkgs = s.pkgs := rfl
@[simp] theorem State.modTeam_cases (vd num : Nat) (f : Team → Team) : (s.modTeam vd num f).cases = s.cases := rfl
@[simp] theorem State.modTeam_invs (vd num : Nat) (f : Team → Team) : (s.modTeam vd num f).invs = s.invs := rfl
@[simp] theorem State.modTeam_mem (vd num : Nat) (f : Team → Team) : (s.modTeam vd num f).mem = s.mem := rfl
@[simp] theorem State.modTeam_back (vd num : Nat) (f : Team → Team) : (s.modTeam vd num f).back = s.back := rfl
@[simp] theorem State.modTeam_full (vd num : Nat) (f : Team → Team) : (s.modTeam vd num f).full = s.full := rfl
@[simp] theorem State.modTeam_ue (vd num : Nat) (f : Team → Team) : (s.modTeam vd num f).ue = s.ue := rfl
@[simp] theorem State.modTeam_ce (vd num : Nat) (f : Team → Team) : (s.modTeam vd num f).ce = s.ce := rfl
@[simp] theorem State.modTeam_iommu (vd num : Nat) (f : Team → Team) : (s.modTeam vd num f).iommu = s.iommu := rfl
@[simp] theorem State.modTeam_cycle (vd num : Nat) (f : Team → Team) : (s.modTeam vd num f).cycle = s.cycle := rfl
@[simp] theorem State.modTeam_seq (vd num : Nat) (f : Team → Team) : (s.modTeam vd num f).seq = s.seq := rfl
@[simp] theorem State.modTeam_free (vd num : Nat) (f : Team → Team) : (s.modTeam vd num f).free = s.free := rfl
@[simp] theorem State.modTeam_token (vd num : Nat) (f : Team → Team) : (s.modTeam vd num f).token = s.token := rfl
@[simp] theorem State.modTeam_agenda (vd num : Nat) (f : Team → Team) : (s.modTeam vd num f).agenda = s.agenda := rfl

@[simp] theorem State.bump_thr : (s.bump).thr = s.thr := rfl
@[simp] theorem State.bump_threads : (s.bump).threads = s.threads := rfl
@[simp] theorem State.bump_cores : (s.bump).cores = s.cores := rfl
@[simp] theorem State.bump_routers : (s.bump).routers = s.routers := rfl
@[simp] theorem State.bump_arbiters : (s.bump).arbiters = s.arbiters := rfl
@[simp] theorem State.bump_vds : (s.bump).vds = s.vds := rfl
@[simp] theorem State.bump_teams : (s.bump).teams = s.teams := rfl
@[simp] theorem State.bump_disps : (s.bump).disps = s.disps := rfl
@[simp] theorem State.bump_posted : (s.bump).posted = s.posted := rfl
@[simp] theorem State.bump_forwards : (s.bump).forwards = s.forwards := rfl
@[simp] theorem State.bump_retraces : (s.bump).retraces = s.retraces := rfl
@[simp] theorem State.bump_fns : (s.bump).fns = s.fns := rfl
@[simp] theorem State.bump_pkgs : (s.bump).pkgs = s.pkgs := rfl
@[simp] theorem State.bump_cases : (s.bump).cases = s.cases := rfl
@[simp] theorem State.bump_invs : (s.bump).invs = s.invs := rfl
@[simp] theorem State.bump_mem : (s.bump).mem = s.mem := rfl
@[simp] theorem State.bump_back : (s.bump).back = s.back := rfl
@[simp] theorem State.bump_full : (s.bump).full = s.full := rfl
@[simp] theorem State.bump_ue : (s.bump).ue = s.ue := rfl
@[simp] theorem State.bump_ce : (s.bump).ce = s.ce := rfl
@[simp] theorem State.bump_iommu : (s.bump).iommu = s.iommu := rfl
@[simp] theorem State.bump_cycle : (s.bump).cycle = s.cycle := rfl
@[simp] theorem State.bump_seq : (s.bump).seq = s.seq + 1 := rfl
@[simp] theorem State.bump_free : (s.bump).free = s.free := rfl
@[simp] theorem State.bump_token : (s.bump).token = s.token := rfl
@[simp] theorem State.bump_agenda : (s.bump).agenda = s.agenda := rfl

@[simp] theorem State.writeS_thr (r : SReg) (x : Word) : (s.writeS r x).thr = s.thr.write (.s r x) := rfl
@[simp] theorem State.writeS_threads (r : SReg) (x : Word) : (s.writeS r x).threads = s.threads := rfl
@[simp] theorem State.writeS_cores (r : SReg) (x : Word) : (s.writeS r x).cores = s.cores := rfl
@[simp] theorem State.writeS_routers (r : SReg) (x : Word) : (s.writeS r x).routers = s.routers := rfl
@[simp] theorem State.writeS_arbiters (r : SReg) (x : Word) : (s.writeS r x).arbiters = s.arbiters := rfl
@[simp] theorem State.writeS_vds (r : SReg) (x : Word) : (s.writeS r x).vds = s.vds := rfl
@[simp] theorem State.writeS_teams (r : SReg) (x : Word) : (s.writeS r x).teams = s.teams := rfl
@[simp] theorem State.writeS_disps (r : SReg) (x : Word) : (s.writeS r x).disps = s.disps := rfl
@[simp] theorem State.writeS_posted (r : SReg) (x : Word) : (s.writeS r x).posted = s.posted := rfl
@[simp] theorem State.writeS_forwards (r : SReg) (x : Word) : (s.writeS r x).forwards = s.forwards := rfl
@[simp] theorem State.writeS_retraces (r : SReg) (x : Word) : (s.writeS r x).retraces = s.retraces := rfl
@[simp] theorem State.writeS_fns (r : SReg) (x : Word) : (s.writeS r x).fns = s.fns := rfl
@[simp] theorem State.writeS_pkgs (r : SReg) (x : Word) : (s.writeS r x).pkgs = s.pkgs := rfl
@[simp] theorem State.writeS_cases (r : SReg) (x : Word) : (s.writeS r x).cases = s.cases := rfl
@[simp] theorem State.writeS_invs (r : SReg) (x : Word) : (s.writeS r x).invs = s.invs := rfl
@[simp] theorem State.writeS_mem (r : SReg) (x : Word) : (s.writeS r x).mem = s.mem := rfl
@[simp] theorem State.writeS_back (r : SReg) (x : Word) : (s.writeS r x).back = s.back := rfl
@[simp] theorem State.writeS_full (r : SReg) (x : Word) : (s.writeS r x).full = s.full := rfl
@[simp] theorem State.writeS_ue (r : SReg) (x : Word) : (s.writeS r x).ue = s.ue := rfl
@[simp] theorem State.writeS_ce (r : SReg) (x : Word) : (s.writeS r x).ce = s.ce := rfl
@[simp] theorem State.writeS_iommu (r : SReg) (x : Word) : (s.writeS r x).iommu = s.iommu := rfl
@[simp] theorem State.writeS_cycle (r : SReg) (x : Word) : (s.writeS r x).cycle = s.cycle := rfl
@[simp] theorem State.writeS_seq (r : SReg) (x : Word) : (s.writeS r x).seq = s.seq := rfl
@[simp] theorem State.writeS_free (r : SReg) (x : Word) : (s.writeS r x).free = s.free := rfl
@[simp] theorem State.writeS_token (r : SReg) (x : Word) : (s.writeS r x).token = s.token := rfl
@[simp] theorem State.writeS_agenda (r : SReg) (x : Word) : (s.writeS r x).agenda = s.agenda := rfl

@[simp] theorem State.writeV_thr (r : VReg) (x : VWord) : (s.writeV r x).thr = s.thr.write (.v r x) := rfl
@[simp] theorem State.writeV_threads (r : VReg) (x : VWord) : (s.writeV r x).threads = s.threads := rfl
@[simp] theorem State.writeV_cores (r : VReg) (x : VWord) : (s.writeV r x).cores = s.cores := rfl
@[simp] theorem State.writeV_routers (r : VReg) (x : VWord) : (s.writeV r x).routers = s.routers := rfl
@[simp] theorem State.writeV_arbiters (r : VReg) (x : VWord) : (s.writeV r x).arbiters = s.arbiters := rfl
@[simp] theorem State.writeV_vds (r : VReg) (x : VWord) : (s.writeV r x).vds = s.vds := rfl
@[simp] theorem State.writeV_teams (r : VReg) (x : VWord) : (s.writeV r x).teams = s.teams := rfl
@[simp] theorem State.writeV_disps (r : VReg) (x : VWord) : (s.writeV r x).disps = s.disps := rfl
@[simp] theorem State.writeV_posted (r : VReg) (x : VWord) : (s.writeV r x).posted = s.posted := rfl
@[simp] theorem State.writeV_forwards (r : VReg) (x : VWord) : (s.writeV r x).forwards = s.forwards := rfl
@[simp] theorem State.writeV_retraces (r : VReg) (x : VWord) : (s.writeV r x).retraces = s.retraces := rfl
@[simp] theorem State.writeV_fns (r : VReg) (x : VWord) : (s.writeV r x).fns = s.fns := rfl
@[simp] theorem State.writeV_pkgs (r : VReg) (x : VWord) : (s.writeV r x).pkgs = s.pkgs := rfl
@[simp] theorem State.writeV_cases (r : VReg) (x : VWord) : (s.writeV r x).cases = s.cases := rfl
@[simp] theorem State.writeV_invs (r : VReg) (x : VWord) : (s.writeV r x).invs = s.invs := rfl
@[simp] theorem State.writeV_mem (r : VReg) (x : VWord) : (s.writeV r x).mem = s.mem := rfl
@[simp] theorem State.writeV_back (r : VReg) (x : VWord) : (s.writeV r x).back = s.back := rfl
@[simp] theorem State.writeV_full (r : VReg) (x : VWord) : (s.writeV r x).full = s.full := rfl
@[simp] theorem State.writeV_ue (r : VReg) (x : VWord) : (s.writeV r x).ue = s.ue := rfl
@[simp] theorem State.writeV_ce (r : VReg) (x : VWord) : (s.writeV r x).ce = s.ce := rfl
@[simp] theorem State.writeV_iommu (r : VReg) (x : VWord) : (s.writeV r x).iommu = s.iommu := rfl
@[simp] theorem State.writeV_cycle (r : VReg) (x : VWord) : (s.writeV r x).cycle = s.cycle := rfl
@[simp] theorem State.writeV_seq (r : VReg) (x : VWord) : (s.writeV r x).seq = s.seq := rfl
@[simp] theorem State.writeV_free (r : VReg) (x : VWord) : (s.writeV r x).free = s.free := rfl
@[simp] theorem State.writeV_token (r : VReg) (x : VWord) : (s.writeV r x).token = s.token := rfl
@[simp] theorem State.writeV_agenda (r : VReg) (x : VWord) : (s.writeV r x).agenda = s.agenda := rfl

@[simp] theorem State.writeP_thr (r : PReg) (x : PWord) : (s.writeP r x).thr = s.thr.write (.p r x) := rfl
@[simp] theorem State.writeP_threads (r : PReg) (x : PWord) : (s.writeP r x).threads = s.threads := rfl
@[simp] theorem State.writeP_cores (r : PReg) (x : PWord) : (s.writeP r x).cores = s.cores := rfl
@[simp] theorem State.writeP_routers (r : PReg) (x : PWord) : (s.writeP r x).routers = s.routers := rfl
@[simp] theorem State.writeP_arbiters (r : PReg) (x : PWord) : (s.writeP r x).arbiters = s.arbiters := rfl
@[simp] theorem State.writeP_vds (r : PReg) (x : PWord) : (s.writeP r x).vds = s.vds := rfl
@[simp] theorem State.writeP_teams (r : PReg) (x : PWord) : (s.writeP r x).teams = s.teams := rfl
@[simp] theorem State.writeP_disps (r : PReg) (x : PWord) : (s.writeP r x).disps = s.disps := rfl
@[simp] theorem State.writeP_posted (r : PReg) (x : PWord) : (s.writeP r x).posted = s.posted := rfl
@[simp] theorem State.writeP_forwards (r : PReg) (x : PWord) : (s.writeP r x).forwards = s.forwards := rfl
@[simp] theorem State.writeP_retraces (r : PReg) (x : PWord) : (s.writeP r x).retraces = s.retraces := rfl
@[simp] theorem State.writeP_fns (r : PReg) (x : PWord) : (s.writeP r x).fns = s.fns := rfl
@[simp] theorem State.writeP_pkgs (r : PReg) (x : PWord) : (s.writeP r x).pkgs = s.pkgs := rfl
@[simp] theorem State.writeP_cases (r : PReg) (x : PWord) : (s.writeP r x).cases = s.cases := rfl
@[simp] theorem State.writeP_invs (r : PReg) (x : PWord) : (s.writeP r x).invs = s.invs := rfl
@[simp] theorem State.writeP_mem (r : PReg) (x : PWord) : (s.writeP r x).mem = s.mem := rfl
@[simp] theorem State.writeP_back (r : PReg) (x : PWord) : (s.writeP r x).back = s.back := rfl
@[simp] theorem State.writeP_full (r : PReg) (x : PWord) : (s.writeP r x).full = s.full := rfl
@[simp] theorem State.writeP_ue (r : PReg) (x : PWord) : (s.writeP r x).ue = s.ue := rfl
@[simp] theorem State.writeP_ce (r : PReg) (x : PWord) : (s.writeP r x).ce = s.ce := rfl
@[simp] theorem State.writeP_iommu (r : PReg) (x : PWord) : (s.writeP r x).iommu = s.iommu := rfl
@[simp] theorem State.writeP_cycle (r : PReg) (x : PWord) : (s.writeP r x).cycle = s.cycle := rfl
@[simp] theorem State.writeP_seq (r : PReg) (x : PWord) : (s.writeP r x).seq = s.seq := rfl
@[simp] theorem State.writeP_free (r : PReg) (x : PWord) : (s.writeP r x).free = s.free := rfl
@[simp] theorem State.writeP_token (r : PReg) (x : PWord) : (s.writeP r x).token = s.token := rfl
@[simp] theorem State.writeP_agenda (r : PReg) (x : PWord) : (s.writeP r x).agenda = s.agenda := rfl

@[simp] theorem State.finish_thr (sw : Bool) : (s.finish sw).thr = (s.thr.unpark.next).switch sw := rfl
@[simp] theorem State.finish_threads (sw : Bool) : (s.finish sw).threads = s.threads := rfl
@[simp] theorem State.finish_cores (sw : Bool) : (s.finish sw).cores = s.cores := rfl
@[simp] theorem State.finish_routers (sw : Bool) : (s.finish sw).routers = s.routers := rfl
@[simp] theorem State.finish_arbiters (sw : Bool) : (s.finish sw).arbiters = s.arbiters := rfl
@[simp] theorem State.finish_vds (sw : Bool) : (s.finish sw).vds = s.vds := rfl
@[simp] theorem State.finish_teams (sw : Bool) : (s.finish sw).teams = s.teams := rfl
@[simp] theorem State.finish_disps (sw : Bool) : (s.finish sw).disps = s.disps := rfl
@[simp] theorem State.finish_posted (sw : Bool) : (s.finish sw).posted = s.posted := rfl
@[simp] theorem State.finish_forwards (sw : Bool) : (s.finish sw).forwards = s.forwards := rfl
@[simp] theorem State.finish_retraces (sw : Bool) : (s.finish sw).retraces = s.retraces := rfl
@[simp] theorem State.finish_fns (sw : Bool) : (s.finish sw).fns = s.fns := rfl
@[simp] theorem State.finish_pkgs (sw : Bool) : (s.finish sw).pkgs = s.pkgs := rfl
@[simp] theorem State.finish_cases (sw : Bool) : (s.finish sw).cases = s.cases := rfl
@[simp] theorem State.finish_invs (sw : Bool) : (s.finish sw).invs = s.invs := rfl
@[simp] theorem State.finish_mem (sw : Bool) : (s.finish sw).mem = s.mem := rfl
@[simp] theorem State.finish_back (sw : Bool) : (s.finish sw).back = s.back := rfl
@[simp] theorem State.finish_full (sw : Bool) : (s.finish sw).full = s.full := rfl
@[simp] theorem State.finish_ue (sw : Bool) : (s.finish sw).ue = s.ue := rfl
@[simp] theorem State.finish_ce (sw : Bool) : (s.finish sw).ce = s.ce := rfl
@[simp] theorem State.finish_iommu (sw : Bool) : (s.finish sw).iommu = s.iommu := rfl
@[simp] theorem State.finish_cycle (sw : Bool) : (s.finish sw).cycle = s.cycle := rfl
@[simp] theorem State.finish_seq (sw : Bool) : (s.finish sw).seq = s.seq := rfl
@[simp] theorem State.finish_free (sw : Bool) : (s.finish sw).free = s.free := rfl
@[simp] theorem State.finish_token (sw : Bool) : (s.finish sw).token = s.token := rfl
@[simp] theorem State.finish_agenda (sw : Bool) : (s.finish sw).agenda = s.agenda := rfl

@[simp] theorem State.finishAt_thr (sw : Bool) (x : Addr) : (s.finishAt sw x).thr = (s.thr.unpark.goto x).switch sw := rfl
@[simp] theorem State.finishAt_threads (sw : Bool) (x : Addr) : (s.finishAt sw x).threads = s.threads := rfl
@[simp] theorem State.finishAt_cores (sw : Bool) (x : Addr) : (s.finishAt sw x).cores = s.cores := rfl
@[simp] theorem State.finishAt_routers (sw : Bool) (x : Addr) : (s.finishAt sw x).routers = s.routers := rfl
@[simp] theorem State.finishAt_arbiters (sw : Bool) (x : Addr) : (s.finishAt sw x).arbiters = s.arbiters := rfl
@[simp] theorem State.finishAt_vds (sw : Bool) (x : Addr) : (s.finishAt sw x).vds = s.vds := rfl
@[simp] theorem State.finishAt_teams (sw : Bool) (x : Addr) : (s.finishAt sw x).teams = s.teams := rfl
@[simp] theorem State.finishAt_disps (sw : Bool) (x : Addr) : (s.finishAt sw x).disps = s.disps := rfl
@[simp] theorem State.finishAt_posted (sw : Bool) (x : Addr) : (s.finishAt sw x).posted = s.posted := rfl
@[simp] theorem State.finishAt_forwards (sw : Bool) (x : Addr) : (s.finishAt sw x).forwards = s.forwards := rfl
@[simp] theorem State.finishAt_retraces (sw : Bool) (x : Addr) : (s.finishAt sw x).retraces = s.retraces := rfl
@[simp] theorem State.finishAt_fns (sw : Bool) (x : Addr) : (s.finishAt sw x).fns = s.fns := rfl
@[simp] theorem State.finishAt_pkgs (sw : Bool) (x : Addr) : (s.finishAt sw x).pkgs = s.pkgs := rfl
@[simp] theorem State.finishAt_cases (sw : Bool) (x : Addr) : (s.finishAt sw x).cases = s.cases := rfl
@[simp] theorem State.finishAt_invs (sw : Bool) (x : Addr) : (s.finishAt sw x).invs = s.invs := rfl
@[simp] theorem State.finishAt_mem (sw : Bool) (x : Addr) : (s.finishAt sw x).mem = s.mem := rfl
@[simp] theorem State.finishAt_back (sw : Bool) (x : Addr) : (s.finishAt sw x).back = s.back := rfl
@[simp] theorem State.finishAt_full (sw : Bool) (x : Addr) : (s.finishAt sw x).full = s.full := rfl
@[simp] theorem State.finishAt_ue (sw : Bool) (x : Addr) : (s.finishAt sw x).ue = s.ue := rfl
@[simp] theorem State.finishAt_ce (sw : Bool) (x : Addr) : (s.finishAt sw x).ce = s.ce := rfl
@[simp] theorem State.finishAt_iommu (sw : Bool) (x : Addr) : (s.finishAt sw x).iommu = s.iommu := rfl
@[simp] theorem State.finishAt_cycle (sw : Bool) (x : Addr) : (s.finishAt sw x).cycle = s.cycle := rfl
@[simp] theorem State.finishAt_seq (sw : Bool) (x : Addr) : (s.finishAt sw x).seq = s.seq := rfl
@[simp] theorem State.finishAt_free (sw : Bool) (x : Addr) : (s.finishAt sw x).free = s.free := rfl
@[simp] theorem State.finishAt_token (sw : Bool) (x : Addr) : (s.finishAt sw x).token = s.token := rfl
@[simp] theorem State.finishAt_agenda (sw : Bool) (x : Addr) : (s.finishAt sw x).agenda = s.agenda := rfl

end Sys2Proof.Machine
end

