-- ==== Sys2Proof/Laws/Memory.lean ====
section
/-! SUPPORT. What reading and writing memory, the sparse tables and the thread in focus do: reads after writes, and that
every operation which touches the list of memory bytes keeps its canonical form. -/

namespace Sys2Proof.Machine

/-! ### Reads after writes -/

theorem memRead_filter (m : List Host.Cell) (p : Nat → Bool) (x : Nat) :
    memRead (m.filter fun c => p c.1) x = if p x then memRead m x else 0 := by
  induction m with
  | nil => simp [memRead]
  | cons c m ih =>
    obtain ⟨k, b⟩ := c
    by_cases hp : p k = true <;> by_cases hk : k = x
    · subst hk; simp [memRead, hp]
    · simp [memRead, hp, hk, ih]
    · subst hk; simp [hp, ih]
    · simp [memRead, hp, hk, ih]

theorem memRead_insert (m : List Host.Cell) (a : Nat) (b : Byte) (x : Nat) :
    memRead (memInsert m a b) x = if x = a then b else memRead m x := by
  induction m with
  | nil => simp [memInsert, memRead, eq_comm]
  | cons c m ih =>
    obtain ⟨k, d⟩ := c
    simp only [memInsert]
    split
    · simp [memRead, eq_comm]
    · split
      · rename_i h; subst h
        by_cases hx : x = k <;> simp [memRead, hx, eq_comm]
      · rename_i h
        by_cases hk : k = x
        · subst hk; simp [memRead, h]
        · simp [memRead, hk, ih]

/-- A read after a write gives what was written; every other location reads as before. -/
theorem memRead_write (m : List Host.Cell) (a : Nat) (b : Byte) (x : Nat) :
    memRead (memWrite m a b) x = if x = a then b else memRead m x := by
  rw [memWrite]
  split
  · rename_i h
    rw [memRead_filter m (fun k => k != a)]
    by_cases hx : x = a <;> simp [hx, h]
  · exact memRead_insert m a b x

/-- The same of several bytes from a location on. -/
theorem memRead_writeN (m : List Host.Cell) (a : Nat) (bs : List Byte) (x : Nat) :
    memRead (memWriteN m a bs) x = if a ≤ x ∧ x < a + bs.length then bs.getD (x - a) 0 else memRead m x := by
  induction bs generalizing m a with
  | nil => simp [memWriteN]
  | cons b bs ih =>
    rw [memWriteN, ih, memRead_write]
    by_cases h : x = a
    · subst h; simp
    · by_cases h2 : a + 1 ≤ x ∧ x < a + 1 + bs.length
      · have h3 : a ≤ x ∧ x < a + (b :: bs).length := by simp; omega
        rw [if_pos h2, if_pos h3]
        have : x - a = (x - (a + 1)) + 1 := by omega
        simp [this]
      · have h3 : ¬ (a ≤ x ∧ x < a + (b :: bs).length) := by simp; omega
        rw [if_neg h2, if_neg h3, if_neg h]

/-! ### The canonical form -/

/-- The canonical form as two facts: no entry is zero, and locations rise strictly. -/
theorem memWf_iff (m : List Host.Cell) :
    memWf m = true ↔ (∀ c ∈ m, c.2 ≠ 0) ∧ m.Pairwise fun c d => c.1 < d.1 := by
  induction m with
  | nil => simp [memWf]
  | cons c m ih =>
    obtain ⟨k, b⟩ := c
    cases m with
    | nil => simp [memWf]
    | cons d m =>
      obtain ⟨k', b'⟩ := d
      rw [memWf, Bool.and_eq_true, Bool.and_eq_true, ih]
      simp only [bne_iff_ne, decide_eq_true_eq, List.mem_cons, forall_eq_or_imp, List.pairwise_cons]
      constructor
      · rintro ⟨⟨hb, hk⟩, ⟨h0, h1⟩, h2, h3⟩
        exact ⟨⟨hb, h0, h1⟩, ⟨hk, fun c hc => Nat.lt_trans hk (h2 c hc)⟩, h2, h3⟩
      · rintro ⟨⟨hb, h0, h1⟩, ⟨hk, -⟩, h2, h3⟩
        exact ⟨⟨hb, hk⟩, ⟨h0, h1⟩, h2, h3⟩

theorem memWf_filter {m : List Host.Cell} (h : memWf m = true) (p : Host.Cell → Bool) : memWf (m.filter p) = true := by
  rw [memWf_iff] at h ⊢
  exact ⟨fun c hc => h.1 c (List.mem_of_mem_filter hc), h.2.filter _⟩

theorem mem_memInsert {m : List Host.Cell} {a : Nat} {b : Byte} {c : Host.Cell} (h : c ∈ memInsert m a b) :
    c = (a, b) ∨ c ∈ m := by
  induction m with
  | nil => simpa [memInsert] using h
  | cons d m ih =>
    obtain ⟨k, e⟩ := d
    simp only [memInsert] at h
    split at h
    · simpa using h
    · split at h
      · simp only [List.mem_cons] at h ⊢; tauto
      · simp only [List.mem_cons] at h ⊢
        obtain h | h := h
        · tauto
        · obtain h | h := ih h <;> tauto

theorem memWf_insert {m : List Host.Cell} (h : memWf m = true) (a : Nat) {b : Byte} (hb : b ≠ 0) :
    memWf (memInsert m a b) = true := by
  rw [memWf_iff] at h ⊢
  obtain ⟨h0, h1⟩ := h
  refine ⟨fun c hc => ?_, ?_⟩
  · obtain rfl | hc := mem_memInsert hc
    · exact hb
    · exact h0 c hc
  · clear h0
    induction m with
    | nil => simp [memInsert]
    | cons d m ih =>
      obtain ⟨k, e⟩ := d
      rw [List.pairwise_cons] at h1
      simp only [memInsert]
      split
      · rename_i hk
        refine List.pairwise_cons.2 ⟨fun c hc => ?_, List.pairwise_cons.2 h1⟩
        obtain rfl | hc := List.mem_cons.1 hc
        · exact hk
        · exact Nat.lt_trans hk (h1.1 c hc)
      · split
        · rename_i hk; subst hk
          exact List.pairwise_cons.2 h1
        · refine List.pairwise_cons.2 ⟨fun c hc => ?_, ih h1.2⟩
          obtain rfl | hc := mem_memInsert hc
          · show k < a; omega
          · exact h1.1 c hc

/-- A write keeps the canonical form. -/
theorem memWf_write {m : List Host.Cell} (h : memWf m = true) (a : Nat) (b : Byte) : memWf (memWrite m a b) = true := by
  rw [memWrite]
  split
  · exact memWf_filter h _
  · rename_i hb; exact memWf_insert h a hb

theorem memWf_writeN {m : List Host.Cell} (h : memWf m = true) (a : Nat) (bs : List Byte) :
    memWf (memWriteN m a bs) = true := by
  induction bs generalizing m a with
  | nil => exact h
  | cons b bs ih => exact ih (memWf_write h a b) (a + 1)

theorem memWf_foldl {α : Type} {m : List Host.Cell} (h : memWf m = true) (f : α → Nat) (g : α → Byte) (xs : List α) :
    memWf (xs.foldl (fun m x => memWrite m (f x) (g x)) m) = true := by
  induction xs generalizing m with
  | nil => exact h
  | cons x xs ih => exact ih (memWf_write h (f x) (g x))

/-- Memory at reset has the canonical form. -/
theorem reset_wf : State.reset.Wf := rfl

theorem rawWrite_wf {s : State} (h : s.Wf) (loc : Nat) (bs : List Byte) : (s.rawWrite loc bs).Wf := by
  rw [State.rawWrite]; split
  · exact h
  · exact memWf_writeN h loc bs

/-- What a write leaves to read: its bytes, and everything else as it was; nothing changes a trigger word. -/
theorem rawWrite_read (s : State) (loc : Nat) (bs : List Byte) (x : Nat) :
    memRead (s.rawWrite loc bs).mem x =
      if isTrig loc = false ∧ loc ≤ x ∧ x < loc + bs.length then bs.getD (x - loc) 0 else memRead s.mem x := by
  rw [State.rawWrite]
  split
  · rename_i h; simp [h]
  · rename_i h; simp [h, memRead_writeN]

@[simp] theorem modFn_mem (s : State) (n : Nat) (f : Function → Function) : (s.modFn n f).mem = s.mem := rfl

theorem ringWrite_wf {s : State} (h : s.Wf) (fn r : Nat) (rec : List Byte) : (ringWrite s fn r rec).Wf := by
  rw [ringWrite]
  dsimp only
  split
  · exact h
  · exact memWf_writeN h _ _

theorem ringPost_wf {s : State} (h : s.Wf) (fn r : Nat) (rec : List Byte) : (ringPost s fn r rec).Wf := by
  rw [ringPost]
  split
  · exact h
  · split
    · exact ringWrite_wf h fn r rec
    · exact h

theorem zeroSpad_wf {s : State} (h : s.Wf) (gc base len : Nat) : (s.zeroSpad gc base len).Wf := memWf_filter h _

/-! ### Sparse tables -/

@[simp] theorem tblFind_put {α : Type} (t : Tbl α) (n k : Nat) (x : α) :
    tblFind (tblPut t n x) k = if k = n then some x else tblFind t k := by
  induction t with
  | nil => simp [tblPut, tblFind, eq_comm]
  | cons c t ih =>
    obtain ⟨j, a⟩ := c
    simp only [tblPut]
    split
    · simp [tblFind, eq_comm]
    · split
      · rename_i h; subst h
        by_cases hk : k = j <;> simp [tblFind, hk, eq_comm]
      · rename_i h
        by_cases hj : j = k
        · subst hj; simp [tblFind, h]
        · simp [tblFind, hj, ih]

@[simp] theorem tblGet_put {α : Type} (t : Tbl α) (n k : Nat) (x d : α) :
    tblGet (tblPut t n x) k d = if k = n then x else tblGet t k d := by
  simp only [tblGet, tblFind_put]; split <;> rfl

theorem tblFind_del {α : Type} (t : Tbl α) (n k : Nat) :
    tblFind (tblDel t n) k = if k = n then none else tblFind t k := by
  simp only [tblDel]
  induction t with
  | nil => simp [tblFind]
  | cons c t ih =>
    obtain ⟨j, a⟩ := c
    by_cases h : j = n
    · subst h; by_cases hk : k = j
      · simpa [hk] using ih
      · simp [tblFind, ih, hk, Ne.symm hk]
    · by_cases hk : j = k
      · subst hk; simp [tblFind, h]
      · simp [tblFind, h, hk, ih]

theorem mem_tblPut {α : Type} {t : Tbl α} {n : Nat} {x : α} {e : Nat × α} (h : e ∈ tblPut t n x) :
    e = (n, x) ∨ e ∈ t := by
  induction t with
  | nil => simpa [tblPut] using h
  | cons d t ih =>
    obtain ⟨k, a⟩ := d
    simp only [tblPut] at h
    split at h
    · simpa using h
    · split at h
      · simp only [List.mem_cons] at h ⊢; tauto
      · simp only [List.mem_cons] at h ⊢
        obtain h | h := h
        · tauto
        · obtain h | h := ih h <;> tauto

/-! ### Threads -/

theorem reset_keyed : State.reset.Keyed := by intro e he; cases he

theorem setThread_keyed {s : State} (h : s.Keyed) (x : Thread) : (s.setThread x).Keyed := by
  rw [State.setThread]
  split
  · exact h
  · intro e he
    obtain rfl | he := mem_tblPut he
    · rfl
    · exact h e he

theorem focus_keyed {s : State} (h : s.Keyed) (t : Nat) : (s.focus t).Keyed := by
  rw [State.focus]
  split
  · exact h
  · intro e he
    obtain rfl | he := mem_tblPut (List.mem_of_mem_filter he)
    · rfl
    · exact h e he

theorem setThread_wf {s : State} (h : s.Wf) (x : Thread) : (s.setThread x).Wf := by
  rw [State.setThread]; split <;> exact h

theorem focus_wf {s : State} (h : s.Wf) (t : Nat) : (s.focus t).Wf := by
  rw [State.focus]; split <;> exact h

theorem tblFind_keyed {t : Tbl Thread} (h : ∀ e ∈ t, e.2.id = e.1) {n : Nat} {x : Thread} (hx : tblFind t n = some x) :
    x.id = n := by
  induction t with
  | nil => cases hx
  | cons c t ih =>
    obtain ⟨k, y⟩ := c
    rw [tblFind] at hx
    split at hx
    · rename_i hk; subst hk; cases hx; exact h (k, x) (List.mem_cons_self ..)
    · exact ih (fun e he => h e (List.mem_cons_of_mem _ he)) hx

/-- A thread is held under its own number. -/
theorem thread_id {s : State} (h : s.Keyed) (t : Nat) : (s.thread t).id = t := by
  rw [State.thread]
  split
  · assumption
  · rw [tblGet]
    cases hx : tblFind s.threads t with
    | none => rfl
    | some x => exact tblFind_keyed h hx

/-- Bringing a thread into focus makes it the one in focus. -/
theorem focus_id {s : State} (h : s.Keyed) (t : Nat) : (s.focus t).thr.id = t := by
  have := thread_id h t
  rw [State.thread] at this
  rw [State.focus]
  split
  · assumption
  · rename_i hn; rw [if_neg hn] at this; exact this

/-- With no waiting entry in any port, no word has a waiter. -/
theorem waitersOf_nil {s : State} (h : ∀ e ∈ s.cores, ∀ a ∈ e.2.port, a.waiting = false) (w : Nat) : waitersOf s w = [] := by
  rw [waitersOf]
  refine (congrArg (sortBy fun x : Nat × Access × Part => x.2.1.arrived) (List.flatten_eq_nil_iff.mpr fun l hl => ?_)).trans rfl
  obtain ⟨e, he, rfl⟩ := List.mem_map.mp hl
  exact List.filterMap_eq_nil_iff.mpr fun a ha => if_neg (by simp [h e he a ha])

/-- An engine whose pages are all cached fills nothing. -/
theorem engFill_held {s : State} {gc vd : Nat} (vas : List Nat)
    (h : ∀ va ∈ vas, (match resolve s gc vd [] false false false va with
      | .miss _ _ => false
      | _ => true) = true) : engFill s gc vd vas = s := by
  induction vas with
  | nil => rfl
  | cons va vas ih =>
    have hva := h va (List.mem_cons_self ..)
    rw [engFill, List.foldl_cons]
    split
    · rename_i e; rw [e] at hva; cases hva
    · exact ih fun x hx => h x (List.mem_cons_of_mem _ hx)

end Sys2Proof.Machine
end

