-- ==== Sys2Proof/Laws/PerInstr.lean ====
section
/-! SUPPORT. For every instruction: decoding its units gives it back. One lemma for each constructor. -/

namespace Sys2Proof

/-- A well-formed instruction that has units is read back from them. -/
def Laws.RoundTrip.Statement (i : Instr) : Prop := i.wf = true → encode i ≠ [] → decode (encode i) = .ok i

/-- A step of the part has no units. -/
theorem Laws.RoundTrip.of_step {i : Instr} (h : encode i = []) : Laws.RoundTrip.Statement i := fun _ h' => absurd h h'

/-- An instruction whose body is read back and that is well formed passes the last check. -/
theorem Laws.RoundTrip.of_body {f : Fields} {i : Instr} (ht : majorTail f.op = some f.tl) (hb : decBody f = .ok i) (hw : i.wf = true) :
    decFields f = .ok i := by simp [decFields, ht, hb, hw]

theorem Laws.RoundTrip.nop (sw : Bool) :
    Laws.RoundTrip.Statement (.nop sw) := by
  intro hw _
  rw [show encode (.nop sw) = enc0 sw 0x00 0 from rfl, decode_enc0 _ (by decide) (by decide)]
  refine Laws.RoundTrip.of_body rfl ?_ hw
  simp [decBody]
theorem Laws.RoundTrip.br (sw : Bool) (delta : BitVec 11) (h : BitVec 5) :
    Laws.RoundTrip.Statement (.br sw delta h) := by
  intro hw _
  rw [show encode (.br sw delta h) = enc1 sw 0x01 0 (mkBi delta h) from rfl, decode_enc1 _ (by decide) (by decide)]
  refine Laws.RoundTrip.of_body rfl ?_ hw
  simp [decBody, decBr]
theorem Laws.RoundTrip.brz (sw : Bool) (a : Src) (delta : BitVec 11) (h : BitVec 5) :
    Laws.RoundTrip.Statement (.brz sw a delta h) := by
  intro hw _
  rw [show encode (.brz sw a delta h) = enc2 sw 0x02 0 (mkAbf a.code 0 0) (mkBi delta h) from rfl, decode_enc2 _ (by decide) (by decide)]
  refine Laws.RoundTrip.of_body rfl ?_ hw
  simp [decBody, decBrz, Fields.a, Fields.b, Fields.f]
theorem Laws.RoundTrip.brnz (sw : Bool) (a : Src) (delta : BitVec 11) (h : BitVec 5) :
    Laws.RoundTrip.Statement (.brnz sw a delta h) := by
  intro hw _
  rw [show encode (.brnz sw a delta h) = enc2 sw 0x02 0 (mkAbf a.code 0 1) (mkBi delta h) from rfl, decode_enc2 _ (by decide) (by decide)]
  refine Laws.RoundTrip.of_body rfl ?_ hw
  simp [decBody, decBrz, Fields.a, Fields.b, Fields.f]
theorem Laws.RoundTrip.jmp (sw : Bool) (a : Src) :
    Laws.RoundTrip.Statement (.jmp sw a) := by
  intro hw _
  rw [show encode (.jmp sw a) = enc1 sw 0x03 0 (mkAbf a.code 0 0) from rfl, decode_enc1 _ (by decide) (by decide)]
  refine Laws.RoundTrip.of_body rfl ?_ hw
  simp [decBody, decJmp, Fields.a, Fields.b, Fields.f]
theorem Laws.RoundTrip.jal (sw : Bool) (d : SReg) (delta : BitVec 11) (h : BitVec 5) :
    Laws.RoundTrip.Statement (.jal sw d delta h) := by
  intro hw _
  rw [show encode (.jal sw d delta h) = enc1 sw 0x04 d.val (mkBi delta h) from rfl, decode_enc1 _ (by decide) (by omega)]
  refine Laws.RoundTrip.of_body rfl ?_ hw
  simp [decBody, decJal]
theorem Laws.RoundTrip.jalr (sw : Bool) (d : SReg) (a : Src) :
    Laws.RoundTrip.Statement (.jalr sw d a) := by
  intro hw _
  rw [show encode (.jalr sw d a) = enc1 sw 0x05 d.val (mkAbf a.code 0 0) from rfl, decode_enc1 _ (by decide) (by omega)]
  refine Laws.RoundTrip.of_body rfl ?_ hw
  simp [decBody, decJalr, Fields.a, Fields.b, Fields.f]
theorem Laws.RoundTrip.loop (sw : Bool) (k : Bool) (a : Src) (delta : BitVec 11) (h : BitVec 5) :
    Laws.RoundTrip.Statement (.loop sw k a delta h) := by
  intro hw _
  rw [show encode (.loop sw k a delta h) = enc2 sw 0x06 0 (mkAbf a.code 0 k.toNat) (mkBi delta h) from rfl, decode_enc2 _ (by decide) (by decide)]
  refine Laws.RoundTrip.of_body rfl ?_ hw
  simp [decBody, decLoop, Fields.a, Fields.b, Fields.f]
theorem Laws.RoundTrip.lbrk (sw : Bool) (k : Bool) :
    Laws.RoundTrip.Statement (.lbrk sw k) := by
  intro hw _
  rw [show encode (.lbrk sw k) = enc1 sw 0x07 0 (mkAbf 0 0 k.toNat) from rfl, decode_enc1 _ (by decide) (by decide)]
  refine Laws.RoundTrip.of_body rfl ?_ hw
  simp [decBody, decLbrk, Fields.a, Fields.b, Fields.f]
theorem Laws.RoundTrip.halt (sw : Bool) :
    Laws.RoundTrip.Statement (.halt sw) := by
  intro hw _
  rw [show encode (.halt sw) = enc0 sw 0x08 0 from rfl, decode_enc0 _ (by decide) (by decide)]
  refine Laws.RoundTrip.of_body rfl ?_ hw
  simp [decBody]
theorem Laws.RoundTrip.encodingNotAnInstruction (head : BitVec 16) (u0 : BitVec 16) (u1 : BitVec 16) (u2 : BitVec 16) : Laws.RoundTrip.Statement (.encodingNotAnInstruction head u0 u1 u2) := Laws.RoundTrip.of_step rfl
theorem Laws.RoundTrip.add (sw : Bool) (d : SReg) (a : Src) (b : Src) :
    Laws.RoundTrip.Statement (.add sw d a b) := by
  intro hw _
  rw [show encode (.add sw d a b) = enc1 sw 0x10 d.val (mkAbf a.code b.code 0) from rfl, decode_enc1 _ (by decide) (by omega)]
  refine Laws.RoundTrip.of_body rfl ?_ hw
  simp [decBody, decInt, Fields.a, Fields.b, Fields.f]
theorem Laws.RoundTrip.sub (sw : Bool) (d : SReg) (a : Src) (b : Src) :
    Laws.RoundTrip.Statement (.sub sw d a b) := by
  intro hw _
  rw [show encode (.sub sw d a b) = enc1 sw 0x10 d.val (mkAbf a.code b.code 1) from rfl, decode_enc1 _ (by decide) (by omega)]
  refine Laws.RoundTrip.of_body rfl ?_ hw
  simp [decBody, decInt, Fields.a, Fields.b, Fields.f]
theorem Laws.RoundTrip.and (sw : Bool) (d : SReg) (a : Src) (b : Src) :
    Laws.RoundTrip.Statement (.and sw d a b) := by
  intro hw _
  rw [show encode (.and sw d a b) = enc1 sw 0x10 d.val (mkAbf a.code b.code 2) from rfl, decode_enc1 _ (by decide) (by omega)]
  refine Laws.RoundTrip.of_body rfl ?_ hw
  simp [decBody, decInt, Fields.a, Fields.b, Fields.f]
theorem Laws.RoundTrip.or (sw : Bool) (d : SReg) (a : Src) (b : Src) :
    Laws.RoundTrip.Statement (.or sw d a b) := by
  intro hw _
  rw [show encode (.or sw d a b) = enc1 sw 0x10 d.val (mkAbf a.code b.code 3) from rfl, decode_enc1 _ (by decide) (by omega)]
  refine Laws.RoundTrip.of_body rfl ?_ hw
  simp [decBody, decInt, Fields.a, Fields.b, Fields.f]
theorem Laws.RoundTrip.xor (sw : Bool) (d : SReg) (a : Src) (b : Src) :
    Laws.RoundTrip.Statement (.xor sw d a b) := by
  intro hw _
  rw [show encode (.xor sw d a b) = enc1 sw 0x10 d.val (mkAbf a.code b.code 4) from rfl, decode_enc1 _ (by decide) (by omega)]
  refine Laws.RoundTrip.of_body rfl ?_ hw
  simp [decBody, decInt, Fields.a, Fields.b, Fields.f]
theorem Laws.RoundTrip.andn (sw : Bool) (d : SReg) (a : Src) (b : Src) :
    Laws.RoundTrip.Statement (.andn sw d a b) := by
  intro hw _
  rw [show encode (.andn sw d a b) = enc1 sw 0x10 d.val (mkAbf a.code b.code 5) from rfl, decode_enc1 _ (by decide) (by omega)]
  refine Laws.RoundTrip.of_body rfl ?_ hw
  simp [decBody, decInt, Fields.a, Fields.b, Fields.f]
theorem Laws.RoundTrip.shl (sw : Bool) (d : SReg) (a : Src) (b : Src) :
    Laws.RoundTrip.Statement (.shl sw d a b) := by
  intro hw _
  rw [show encode (.shl sw d a b) = enc1 sw 0x10 d.val (mkAbf a.code b.code 6) from rfl, decode_enc1 _ (by decide) (by omega)]
  refine Laws.RoundTrip.of_body rfl ?_ hw
  simp [decBody, decInt, Fields.a, Fields.b, Fields.f]
theorem Laws.RoundTrip.shr (sw : Bool) (d : SReg) (a : Src) (b : Src) :
    Laws.RoundTrip.Statement (.shr sw d a b) := by
  intro hw _
  rw [show encode (.shr sw d a b) = enc1 sw 0x10 d.val (mkAbf a.code b.code 7) from rfl, decode_enc1 _ (by decide) (by omega)]
  refine Laws.RoundTrip.of_body rfl ?_ hw
  simp [decBody, decInt, Fields.a, Fields.b, Fields.f]
theorem Laws.RoundTrip.sar (sw : Bool) (d : SReg) (a : Src) (b : Src) :
    Laws.RoundTrip.Statement (.sar sw d a b) := by
  intro hw _
  rw [show encode (.sar sw d a b) = enc1 sw 0x10 d.val (mkAbf a.code b.code 8) from rfl, decode_enc1 _ (by decide) (by omega)]
  refine Laws.RoundTrip.of_body rfl ?_ hw
  simp [decBody, decInt, Fields.a, Fields.b, Fields.f]
theorem Laws.RoundTrip.rotl (sw : Bool) (d : SReg) (a : Src) (b : Src) :
    Laws.RoundTrip.Statement (.rotl sw d a b) := by
  intro hw _
  rw [show encode (.rotl sw d a b) = enc1 sw 0x10 d.val (mkAbf a.code b.code 9) from rfl, decode_enc1 _ (by decide) (by omega)]
  refine Laws.RoundTrip.of_body rfl ?_ hw
  simp [decBody, decInt, Fields.a, Fields.b, Fields.f]
theorem Laws.RoundTrip.min (sw : Bool) (d : SReg) (a : Src) (b : Src) :
    Laws.RoundTrip.Statement (.min sw d a b) := by
  intro hw _
  rw [show encode (.min sw d a b) = enc1 sw 0x10 d.val (mkAbf a.code b.code 10) from rfl, decode_enc1 _ (by decide) (by omega)]
  refine Laws.RoundTrip.of_body rfl ?_ hw
  simp [decBody, decInt, Fields.a, Fields.b, Fields.f]
theorem Laws.RoundTrip.max (sw : Bool) (d : SReg) (a : Src) (b : Src) :
    Laws.RoundTrip.Statement (.max sw d a b) := by
  intro hw _
  rw [show encode (.max sw d a b) = enc1 sw 0x10 d.val (mkAbf a.code b.code 11) from rfl, decode_enc1 _ (by decide) (by omega)]
  refine Laws.RoundTrip.of_body rfl ?_ hw
  simp [decBody, decInt, Fields.a, Fields.b, Fields.f]
theorem Laws.RoundTrip.minu (sw : Bool) (d : SReg) (a : Src) (b : Src) :
    Laws.RoundTrip.Statement (.minu sw d a b) := by
  intro hw _
  rw [show encode (.minu sw d a b) = enc1 sw 0x10 d.val (mkAbf a.code b.code 12) from rfl, decode_enc1 _ (by decide) (by omega)]
  refine Laws.RoundTrip.of_body rfl ?_ hw
  simp [decBody, decInt, Fields.a, Fields.b, Fields.f]
theorem Laws.RoundTrip.maxu (sw : Bool) (d : SReg) (a : Src) (b : Src) :
    Laws.RoundTrip.Statement (.maxu sw d a b) := by
  intro hw _
  rw [show encode (.maxu sw d a b) = enc1 sw 0x10 d.val (mkAbf a.code b.code 13) from rfl, decode_enc1 _ (by decide) (by omega)]
  refine Laws.RoundTrip.of_body rfl ?_ hw
  simp [decBody, decInt, Fields.a, Fields.b, Fields.f]
theorem Laws.RoundTrip.mul (sw : Bool) (d : SReg) (a : Src) (b : Src) :
    Laws.RoundTrip.Statement (.mul sw d a b) := by
  intro hw _
  rw [show encode (.mul sw d a b) = enc1 sw 0x11 d.val (mkAbf a.code b.code 0) from rfl, decode_enc1 _ (by decide) (by omega)]
  refine Laws.RoundTrip.of_body rfl ?_ hw
  simp [decBody, decMulDiv, Fields.a, Fields.b, Fields.f]
theorem Laws.RoundTrip.mulh (sw : Bool) (d : SReg) (a : Src) (b : Src) :
    Laws.RoundTrip.Statement (.mulh sw d a b) := by
  intro hw _
  rw [show encode (.mulh sw d a b) = enc1 sw 0x11 d.val (mkAbf a.code b.code 1) from rfl, decode_enc1 _ (by decide) (by omega)]
  refine Laws.RoundTrip.of_body rfl ?_ hw
  simp [decBody, decMulDiv, Fields.a, Fields.b, Fields.f]
theorem Laws.RoundTrip.mulhu (sw : Bool) (d : SReg) (a : Src) (b : Src) :
    Laws.RoundTrip.Statement (.mulhu sw d a b) := by
  intro hw _
  rw [show encode (.mulhu sw d a b) = enc1 sw 0x11 d.val (mkAbf a.code b.code 2) from rfl, decode_enc1 _ (by decide) (by omega)]
  refine Laws.RoundTrip.of_body rfl ?_ hw
  simp [decBody, decMulDiv, Fields.a, Fields.b, Fields.f]
theorem Laws.RoundTrip.div (sw : Bool) (d : SReg) (a : Src) (b : Src) :
    Laws.RoundTrip.Statement (.div sw d a b) := by
  intro hw _
  rw [show encode (.div sw d a b) = enc1 sw 0x11 d.val (mkAbf a.code b.code 3) from rfl, decode_enc1 _ (by decide) (by omega)]
  refine Laws.RoundTrip.of_body rfl ?_ hw
  simp [decBody, decMulDiv, Fields.a, Fields.b, Fields.f]
theorem Laws.RoundTrip.divu (sw : Bool) (d : SReg) (a : Src) (b : Src) :
    Laws.RoundTrip.Statement (.divu sw d a b) := by
  intro hw _
  rw [show encode (.divu sw d a b) = enc1 sw 0x11 d.val (mkAbf a.code b.code 4) from rfl, decode_enc1 _ (by decide) (by omega)]
  refine Laws.RoundTrip.of_body rfl ?_ hw
  simp [decBody, decMulDiv, Fields.a, Fields.b, Fields.f]
theorem Laws.RoundTrip.rem (sw : Bool) (d : SReg) (a : Src) (b : Src) :
    Laws.RoundTrip.Statement (.rem sw d a b) := by
  intro hw _
  rw [show encode (.rem sw d a b) = enc1 sw 0x11 d.val (mkAbf a.code b.code 5) from rfl, decode_enc1 _ (by decide) (by omega)]
  refine Laws.RoundTrip.of_body rfl ?_ hw
  simp [decBody, decMulDiv, Fields.a, Fields.b, Fields.f]
theorem Laws.RoundTrip.remu (sw : Bool) (d : SReg) (a : Src) (b : Src) :
    Laws.RoundTrip.Statement (.remu sw d a b) := by
  intro hw _
  rw [show encode (.remu sw d a b) = enc1 sw 0x11 d.val (mkAbf a.code b.code 6) from rfl, decode_enc1 _ (by decide) (by omega)]
  refine Laws.RoundTrip.of_body rfl ?_ hw
  simp [decBody, decMulDiv, Fields.a, Fields.b, Fields.f]
theorem Laws.RoundTrip.clz (sw : Bool) (d : SReg) (a : Src) :
    Laws.RoundTrip.Statement (.clz sw d a) := by
  intro hw _
  rw [show encode (.clz sw d a) = enc1 sw 0x12 d.val (mkAbf a.code 0 0) from rfl, decode_enc1 _ (by decide) (by omega)]
  refine Laws.RoundTrip.of_body rfl ?_ hw
  simp [decBody, decUnary, Fields.a, Fields.b, Fields.f]
theorem Laws.RoundTrip.ctz (sw : Bool) (d : SReg) (a : Src) :
    Laws.RoundTrip.Statement (.ctz sw d a) := by
  intro hw _
  rw [show encode (.ctz sw d a) = enc1 sw 0x12 d.val (mkAbf a.code 0 1) from rfl, decode_enc1 _ (by decide) (by omega)]
  refine Laws.RoundTrip.of_body rfl ?_ hw
  simp [decBody, decUnary, Fields.a, Fields.b, Fields.f]
theorem Laws.RoundTrip.popc (sw : Bool) (d : SReg) (a : Src) :
    Laws.RoundTrip.Statement (.popc sw d a) := by
  intro hw _
  rw [show encode (.popc sw d a) = enc1 sw 0x12 d.val (mkAbf a.code 0 2) from rfl, decode_enc1 _ (by decide) (by omega)]
  refine Laws.RoundTrip.of_body rfl ?_ hw
  simp [decBody, decUnary, Fields.a, Fields.b, Fields.f]
theorem Laws.RoundTrip.mov (sw : Bool) (d : SReg) (a : Src) :
    Laws.RoundTrip.Statement (.mov sw d a) := by
  intro hw _
  rw [show encode (.mov sw d a) = enc1 sw 0x12 d.val (mkAbf a.code 0 3) from rfl, decode_enc1 _ (by decide) (by omega)]
  refine Laws.RoundTrip.of_body rfl ?_ hw
  simp [decBody, decUnary, Fields.a, Fields.b, Fields.f]
theorem Laws.RoundTrip.sext (sw : Bool) (d : SReg) (a : Src) (n : BitVec 7) :
    Laws.RoundTrip.Statement (.sext sw d a n) := by
  intro hw _
  rw [show encode (.sext sw d a n) = enc2 sw 0x13 d.val (mkAbf a.code 0 0) n.toNat from rfl, decode_enc2 _ (by decide) (by omega)]
  refine Laws.RoundTrip.of_body rfl ?_ hw
  simp [decBody, decExtend, Fields.a, Fields.b, Fields.f]
theorem Laws.RoundTrip.zext (sw : Bool) (d : SReg) (a : Src) (n : BitVec 7) :
    Laws.RoundTrip.Statement (.zext sw d a n) := by
  intro hw _
  rw [show encode (.zext sw d a n) = enc2 sw 0x13 d.val (mkAbf a.code 0 1) n.toNat from rfl, decode_enc2 _ (by decide) (by omega)]
  refine Laws.RoundTrip.of_body rfl ?_ hw
  simp [decBody, decExtend, Fields.a, Fields.b, Fields.f]
theorem Laws.RoundTrip.addi (sw : Bool) (d : SReg) (a : Src) (imm : BitVec 16) :
    Laws.RoundTrip.Statement (.addi sw d a imm) := by
  intro hw _
  rw [show encode (.addi sw d a imm) = enc2 sw 0x14 d.val (mkAbf a.code 0 0) imm.toNat from rfl, decode_enc2 _ (by decide) (by omega)]
  refine Laws.RoundTrip.of_body rfl ?_ hw
  simp [decBody, decImm, Fields.a, Fields.b, Fields.f]
theorem Laws.RoundTrip.andi (sw : Bool) (d : SReg) (a : Src) (imm : BitVec 16) :
    Laws.RoundTrip.Statement (.andi sw d a imm) := by
  intro hw _
  rw [show encode (.andi sw d a imm) = enc2 sw 0x14 d.val (mkAbf a.code 0 1) imm.toNat from rfl, decode_enc2 _ (by decide) (by omega)]
  refine Laws.RoundTrip.of_body rfl ?_ hw
  simp [decBody, decImm, Fields.a, Fields.b, Fields.f]
theorem Laws.RoundTrip.ori (sw : Bool) (d : SReg) (a : Src) (imm : BitVec 16) :
    Laws.RoundTrip.Statement (.ori sw d a imm) := by
  intro hw _
  rw [show encode (.ori sw d a imm) = enc2 sw 0x14 d.val (mkAbf a.code 0 2) imm.toNat from rfl, decode_enc2 _ (by decide) (by omega)]
  refine Laws.RoundTrip.of_body rfl ?_ hw
  simp [decBody, decImm, Fields.a, Fields.b, Fields.f]
theorem Laws.RoundTrip.xori (sw : Bool) (d : SReg) (a : Src) (imm : BitVec 16) :
    Laws.RoundTrip.Statement (.xori sw d a imm) := by
  intro hw _
  rw [show encode (.xori sw d a imm) = enc2 sw 0x14 d.val (mkAbf a.code 0 3) imm.toNat from rfl, decode_enc2 _ (by decide) (by omega)]
  refine Laws.RoundTrip.of_body rfl ?_ hw
  simp [decBody, decImm, Fields.a, Fields.b, Fields.f]
theorem Laws.RoundTrip.cmp (sw : Bool) (d : CmpDst) (a : Src) (b : Src) (cond : Cond) :
    Laws.RoundTrip.Statement (.cmp sw d a b cond) := by
  intro hw _
  rw [show encode (.cmp sw d a b cond) = enc1 sw 0x15 d.code (mkAbf a.code b.code cond.code) from rfl, decode_enc1 _ (by decide) d.code_lt]
  refine Laws.RoundTrip.of_body rfl ?_ hw
  simp [decBody, decCmp, Fields.a, Fields.b, Fields.f]
theorem Laws.RoundTrip.cmpi (sw : Bool) (d : CmpDst) (a : Src) (imm : BitVec 16) (cond : Cond) :
    Laws.RoundTrip.Statement (.cmpi sw d a imm cond) := by
  intro hw _
  rw [show encode (.cmpi sw d a imm cond) = enc2 sw 0x16 d.code (mkAbf a.code 0 cond.code) imm.toNat from rfl, decode_enc2 _ (by decide) d.code_lt]
  refine Laws.RoundTrip.of_body rfl ?_ hw
  simp [decBody, decCmpi, Fields.a, Fields.b, Fields.f]
theorem Laws.RoundTrip.sel (sw : Bool) (d : SReg) (a : Src) (b : Src) (p : PReg) :
    Laws.RoundTrip.Statement (.sel sw d a b p) := by
  intro hw _
  rw [show encode (.sel sw d a b p) = enc1 sw 0x17 d.val (mkAbf a.code b.code p.val) from rfl, decode_enc1 _ (by decide) (by omega)]
  refine Laws.RoundTrip.of_body rfl ?_ hw
  simp [decBody, decSel, Fields.a, Fields.b, Fields.f]
theorem Laws.RoundTrip.bfx (sw : Bool) (d : SReg) (a : Src) (pos : BitVec 6) (lenm1 : BitVec 6) :
    Laws.RoundTrip.Statement (.bfx sw d a pos lenm1) := by
  intro hw _
  rw [show encode (.bfx sw d a pos lenm1) = enc2 sw 0x18 d.val (mkAbf a.code 0 0) (lenm1.toNat * 64 + pos.toNat) from rfl, decode_enc2 _ (by decide) (by omega)]
  refine Laws.RoundTrip.of_body rfl ?_ hw
  simp [decBody, decBits, Fields.a, Fields.b, Fields.f]
theorem Laws.RoundTrip.bfi (sw : Bool) (d : SReg) (a : Src) (b : Src) (pos : BitVec 6) (lenm1 : BitVec 6) :
    Laws.RoundTrip.Statement (.bfi sw d a b pos lenm1) := by
  intro hw _
  rw [show encode (.bfi sw d a b pos lenm1) = enc2 sw 0x18 d.val (mkAbf a.code b.code 1) (lenm1.toNat * 64 + pos.toNat) from rfl, decode_enc2 _ (by decide) (by omega)]
  refine Laws.RoundTrip.of_body rfl ?_ hw
  simp [decBody, decBits, Fields.a, Fields.b, Fields.f]
theorem Laws.RoundTrip.li (sw : Bool) (d : SReg) (imm : BitVec 16) :
    Laws.RoundTrip.Statement (.li sw d imm) := by
  intro hw _
  rw [show encode (.li sw d imm) = enc1 sw 0x19 d.val imm.toNat from rfl, decode_enc1 _ (by decide) (by omega)]
  refine Laws.RoundTrip.of_body rfl ?_ hw
  simp [decBody]
theorem Laws.RoundTrip.liw (sw : Bool) (d : SReg) (imm : BitVec 32) :
    Laws.RoundTrip.Statement (.liw sw d imm) := by
  intro hw _
  rw [show encode (.liw sw d imm) = enc2 sw 0x1A d.val (imm.toNat % 65536) (imm.toNat / 65536) from rfl, decode_enc2 _ (by decide) (by omega)]
  refine Laws.RoundTrip.of_body rfl ?_ hw
  simp [decBody]
theorem Laws.RoundTrip.lix (sw : Bool) (d : SReg) (imm : BitVec 32) :
    Laws.RoundTrip.Statement (.lix sw d imm) := by
  intro hw _
  rw [show encode (.lix sw d imm) = enc2 sw 0x1B d.val (imm.toNat % 65536) (imm.toNat / 65536) from rfl, decode_enc2 _ (by decide) (by omega)]
  refine Laws.RoundTrip.of_body rfl ?_ hw
  simp [decBody]
theorem Laws.RoundTrip.padd (sw : Bool) (d : SReg) (a : Src) (b : Src) :
    Laws.RoundTrip.Statement (.padd sw d a b) := by
  intro hw _
  rw [show encode (.padd sw d a b) = enc1 sw 0x1C d.val (mkAbf a.code b.code 0) from rfl, decode_enc1 _ (by decide) (by omega)]
  refine Laws.RoundTrip.of_body rfl ?_ hw
  simp [decBody, decPtr, Fields.a, Fields.b, Fields.f]
theorem Laws.RoundTrip.pidx (sw : Bool) (d : SReg) (a : Src) (b : Src) :
    Laws.RoundTrip.Statement (.pidx sw d a b) := by
  intro hw _
  rw [show encode (.pidx sw d a b) = enc1 sw 0x1C d.val (mkAbf a.code b.code 1) from rfl, decode_enc1 _ (by decide) (by omega)]
  refine Laws.RoundTrip.of_body rfl ?_ hw
  simp [decBody, decPtr, Fields.a, Fields.b, Fields.f]
theorem Laws.RoundTrip.pstrip (sw : Bool) (d : SReg) (a : Src) :
    Laws.RoundTrip.Statement (.pstrip sw d a) := by
  intro hw _
  rw [show encode (.pstrip sw d a) = enc1 sw 0x1C d.val (mkAbf a.code 0 2) from rfl, decode_enc1 _ (by decide) (by omega)]
  refine Laws.RoundTrip.of_body rfl ?_ hw
  simp [decBody, decPtr, Fields.a, Fields.b, Fields.f]
theorem Laws.RoundTrip.pget (sw : Bool) (d : SReg) (a : Src) :
    Laws.RoundTrip.Statement (.pget sw d a) := by
  intro hw _
  rw [show encode (.pget sw d a) = enc1 sw 0x1C d.val (mkAbf a.code 0 3) from rfl, decode_enc1 _ (by decide) (by omega)]
  refine Laws.RoundTrip.of_body rfl ?_ hw
  simp [decBody, decPtr, Fields.a, Fields.b, Fields.f]
theorem Laws.RoundTrip.pfmt (sw : Bool) (d : SReg) (a : Src) (b : Src) :
    Laws.RoundTrip.Statement (.pfmt sw d a b) := by
  intro hw _
  rw [show encode (.pfmt sw d a b) = enc1 sw 0x1C d.val (mkAbf a.code b.code 4) from rfl, decode_enc1 _ (by decide) (by omega)]
  refine Laws.RoundTrip.of_body rfl ?_ hw
  simp [decBody, decPtr, Fields.a, Fields.b, Fields.f]
theorem Laws.RoundTrip.paddi (sw : Bool) (d : SReg) (a : Src) (imm : BitVec 16) :
    Laws.RoundTrip.Statement (.paddi sw d a imm) := by
  intro hw _
  rw [show encode (.paddi sw d a imm) = enc2 sw 0x1D d.val (mkAbf a.code 0 0) imm.toNat from rfl, decode_enc2 _ (by decide) (by omega)]
  refine Laws.RoundTrip.of_body rfl ?_ hw
  simp [decBody, decPaddi, Fields.a, Fields.b, Fields.f]
theorem Laws.RoundTrip.pand (sw : Bool) (d : PReg) (a : PReg) (b : PReg) :
    Laws.RoundTrip.Statement (.pand sw d a b) := by
  intro hw _
  rw [show encode (.pand sw d a b) = enc1 sw 0x1E (pCode d) (mkAbf (pCode a) (pCode b) 0) from rfl, decode_enc1 _ (by decide) (pCode_lt _)]
  refine Laws.RoundTrip.of_body rfl ?_ hw
  simp [decBody, decPred, Fields.a, Fields.b, Fields.f]
theorem Laws.RoundTrip.por (sw : Bool) (d : PReg) (a : PReg) (b : PReg) :
    Laws.RoundTrip.Statement (.por sw d a b) := by
  intro hw _
  rw [show encode (.por sw d a b) = enc1 sw 0x1E (pCode d) (mkAbf (pCode a) (pCode b) 1) from rfl, decode_enc1 _ (by decide) (pCode_lt _)]
  refine Laws.RoundTrip.of_body rfl ?_ hw
  simp [decBody, decPred, Fields.a, Fields.b, Fields.f]
theorem Laws.RoundTrip.pxor (sw : Bool) (d : PReg) (a : PReg) (b : PReg) :
    Laws.RoundTrip.Statement (.pxor sw d a b) := by
  intro hw _
  rw [show encode (.pxor sw d a b) = enc1 sw 0x1E (pCode d) (mkAbf (pCode a) (pCode b) 2) from rfl, decode_enc1 _ (by decide) (pCode_lt _)]
  refine Laws.RoundTrip.of_body rfl ?_ hw
  simp [decBody, decPred, Fields.a, Fields.b, Fields.f]
theorem Laws.RoundTrip.pnot (sw : Bool) (d : PReg) (a : PReg) :
    Laws.RoundTrip.Statement (.pnot sw d a) := by
  intro hw _
  rw [show encode (.pnot sw d a) = enc1 sw 0x1E (pCode d) (mkAbf (pCode a) 0 3) from rfl, decode_enc1 _ (by decide) (pCode_lt _)]
  refine Laws.RoundTrip.of_body rfl ?_ hw
  simp [decBody, decPred, Fields.a, Fields.b, Fields.f]
theorem Laws.RoundTrip.pmov (sw : Bool) (d : PReg) (a : PReg) :
    Laws.RoundTrip.Statement (.pmov sw d a) := by
  intro hw _
  rw [show encode (.pmov sw d a) = enc1 sw 0x1E (pCode d) (mkAbf (pCode a) 0 4) from rfl, decode_enc1 _ (by decide) (pCode_lt _)]
  refine Laws.RoundTrip.of_body rfl ?_ hw
  simp [decBody, decPred, Fields.a, Fields.b, Fields.f]
theorem Laws.RoundTrip.pcnt (sw : Bool) (d : SReg) (a : PReg) :
    Laws.RoundTrip.Statement (.pcnt sw d a) := by
  intro hw _
  rw [show encode (.pcnt sw d a) = enc1 sw 0x1E d.val (mkAbf (pCode a) 0 5) from rfl, decode_enc1 _ (by decide) (by omega)]
  refine Laws.RoundTrip.of_body rfl ?_ hw
  simp [decBody, decPred, Fields.a, Fields.b, Fields.f]
theorem Laws.RoundTrip.pfirst (sw : Bool) (d : SReg) (a : PReg) :
    Laws.RoundTrip.Statement (.pfirst sw d a) := by
  intro hw _
  rw [show encode (.pfirst sw d a) = enc1 sw 0x1E d.val (mkAbf (pCode a) 0 6) from rfl, decode_enc1 _ (by decide) (by omega)]
  refine Laws.RoundTrip.of_body rfl ?_ hw
  simp [decBody, decPred, Fields.a, Fields.b, Fields.f]
theorem Laws.RoundTrip.vadd (sw : Bool) (ty : Ty) (rm : Rm) (sat : Bool) (pg : PReg) (d : VReg) (a : VReg) (b : VReg) :
    Laws.RoundTrip.Statement (.vadd sw ty rm sat pg d a b) := by
  intro hw _
  rw [show encode (.vadd sw ty rm sat pg d a b) = enc2 sw 0x30 (vCode d) (mkAbf (vCode a) (vCode b) 0) (mkM ty.code rm.code sat.toNat 0 pg.val 0) from rfl, decode_enc2 _ (by decide) (vCode_lt _)]
  refine Laws.RoundTrip.of_body rfl ?_ hw
  simp [decBody, decVarith, Fields.a, Fields.b, Fields.f, typedM, typedPlainM]
theorem Laws.RoundTrip.vsub (sw : Bool) (ty : Ty) (rm : Rm) (sat : Bool) (pg : PReg) (d : VReg) (a : VReg) (b : VReg) :
    Laws.RoundTrip.Statement (.vsub sw ty rm sat pg d a b) := by
  intro hw _
  rw [show encode (.vsub sw ty rm sat pg d a b) = enc2 sw 0x30 (vCode d) (mkAbf (vCode a) (vCode b) 1) (mkM ty.code rm.code sat.toNat 0 pg.val 0) from rfl, decode_enc2 _ (by decide) (vCode_lt _)]
  refine Laws.RoundTrip.of_body rfl ?_ hw
  simp [decBody, decVarith, Fields.a, Fields.b, Fields.f, typedM, typedPlainM]
theorem Laws.RoundTrip.vmul (sw : Bool) (ty : Ty) (rm : Rm) (sat : Bool) (pg : PReg) (d : VReg) (a : VReg) (b : VReg) :
    Laws.RoundTrip.Statement (.vmul sw ty rm sat pg d a b) := by
  intro hw _
  rw [show encode (.vmul sw ty rm sat pg d a b) = enc2 sw 0x30 (vCode d) (mkAbf (vCode a) (vCode b) 2) (mkM ty.code rm.code sat.toNat 0 pg.val 0) from rfl, decode_enc2 _ (by decide) (vCode_lt _)]
  refine Laws.RoundTrip.of_body rfl ?_ hw
  simp [decBody, decVarith, Fields.a, Fields.b, Fields.f, typedM, typedPlainM]
theorem Laws.RoundTrip.vmulh (sw : Bool) (ty : Ty) (pg : PReg) (d : VReg) (a : VReg) (b : VReg) :
    Laws.RoundTrip.Statement (.vmulh sw ty pg d a b) := by
  intro hw _
  rw [show encode (.vmulh sw ty pg d a b) = enc2 sw 0x30 (vCode d) (mkAbf (vCode a) (vCode b) 3) (mkM ty.code 0 0 0 pg.val 0) from rfl, decode_enc2 _ (by decide) (vCode_lt _)]
  refine Laws.RoundTrip.of_body rfl ?_ hw
  simp [decBody, decVarith, Fields.a, Fields.b, Fields.f, typedM, typedPlainM]
theorem Laws.RoundTrip.vmin (sw : Bool) (ty : Ty) (pg : PReg) (d : VReg) (a : VReg) (b : VReg) :
    Laws.RoundTrip.Statement (.vmin sw ty pg d a b) := by
  intro hw _
  rw [show encode (.vmin sw ty pg d a b) = enc2 sw 0x30 (vCode d) (mkAbf (vCode a) (vCode b) 4) (mkM ty.code 0 0 0 pg.val 0) from rfl, decode_enc2 _ (by decide) (vCode_lt _)]
  refine Laws.RoundTrip.of_body rfl ?_ hw
  simp [decBody, decVarith, Fields.a, Fields.b, Fields.f, typedM, typedPlainM]
theorem Laws.RoundTrip.vmax (sw : Bool) (ty : Ty) (pg : PReg) (d : VReg) (a : VReg) (b : VReg) :
    Laws.RoundTrip.Statement (.vmax sw ty pg d a b) := by
  intro hw _
  rw [show encode (.vmax sw ty pg d a b) = enc2 sw 0x30 (vCode d) (mkAbf (vCode a) (vCode b) 5) (mkM ty.code 0 0 0 pg.val 0) from rfl, decode_enc2 _ (by decide) (vCode_lt _)]
  refine Laws.RoundTrip.of_body rfl ?_ hw
  simp [decBody, decVarith, Fields.a, Fields.b, Fields.f, typedM, typedPlainM]
theorem Laws.RoundTrip.vfma (sw : Bool) (ty : Ty) (rm : Rm) (sat : Bool) (pg : PReg) (d : VReg) (a : VReg) (b : VReg) (c : VReg) :
    Laws.RoundTrip.Statement (.vfma sw ty rm sat pg d a b c) := by
  intro hw _
  rw [show encode (.vfma sw ty rm sat pg d a b c) = enc3 sw 0x31 (vCode d) (mkAbf (vCode a) (vCode b) 0) (mkC (vCode c) 0) (mkM ty.code rm.code sat.toNat 0 pg.val 0) from rfl, decode_enc3 _ (by decide) (vCode_lt _)]
  refine Laws.RoundTrip.of_body rfl ?_ hw
  simp [decBody, decVfma, Fields.a, Fields.b, Fields.f, typedM]
theorem Laws.RoundTrip.vfms (sw : Bool) (ty : Ty) (rm : Rm) (sat : Bool) (pg : PReg) (d : VReg) (a : VReg) (b : VReg) (c : VReg) :
    Laws.RoundTrip.Statement (.vfms sw ty rm sat pg d a b c) := by
  intro hw _
  rw [show encode (.vfms sw ty rm sat pg d a b c) = enc3 sw 0x31 (vCode d) (mkAbf (vCode a) (vCode b) 1) (mkC (vCode c) 0) (mkM ty.code rm.code sat.toNat 0 pg.val 0) from rfl, decode_enc3 _ (by decide) (vCode_lt _)]
  refine Laws.RoundTrip.of_body rfl ?_ hw
  simp [decBody, decVfma, Fields.a, Fields.b, Fields.f, typedM]
theorem Laws.RoundTrip.vabs (sw : Bool) (ty : Ty) (sat : Bool) (pg : PReg) (d : VReg) (a : VReg) :
    Laws.RoundTrip.Statement (.vabs sw ty sat pg d a) := by
  intro hw _
  rw [show encode (.vabs sw ty sat pg d a) = enc2 sw 0x32 (vCode d) (mkAbf (vCode a) 0 0) (mkM ty.code 0 sat.toNat 0 pg.val 0) from rfl, decode_enc2 _ (by decide) (vCode_lt _)]
  refine Laws.RoundTrip.of_body rfl ?_ hw
  simp [decBody, decVabs, Fields.a, Fields.b, Fields.f, typedSatM]
theorem Laws.RoundTrip.vneg (sw : Bool) (ty : Ty) (sat : Bool) (pg : PReg) (d : VReg) (a : VReg) :
    Laws.RoundTrip.Statement (.vneg sw ty sat pg d a) := by
  intro hw _
  rw [show encode (.vneg sw ty sat pg d a) = enc2 sw 0x32 (vCode d) (mkAbf (vCode a) 0 1) (mkM ty.code 0 sat.toNat 0 pg.val 0) from rfl, decode_enc2 _ (by decide) (vCode_lt _)]
  refine Laws.RoundTrip.of_body rfl ?_ hw
  simp [decBody, decVabs, Fields.a, Fields.b, Fields.f, typedSatM]
theorem Laws.RoundTrip.vand (sw : Bool) (sz : Sz) (pg : PReg) (d : VReg) (a : VReg) (b : VReg) :
    Laws.RoundTrip.Statement (.vand sw sz pg d a b) := by
  intro hw _
  rw [show encode (.vand sw sz pg d a b) = enc2 sw 0x33 (vCode d) (mkAbf (vCode a) (vCode b) 0) (mkM 0 0 0 0 pg.val sz.code) from rfl, decode_enc2 _ (by decide) (vCode_lt _)]
  refine Laws.RoundTrip.of_body rfl ?_ hw
  simp [decBody, decVlogic, Fields.a, Fields.b, Fields.f, sizedM]
theorem Laws.RoundTrip.vor (sw : Bool) (sz : Sz) (pg : PReg) (d : VReg) (a : VReg) (b : VReg) :
    Laws.RoundTrip.Statement (.vor sw sz pg d a b) := by
  intro hw _
  rw [show encode (.vor sw sz pg d a b) = enc2 sw 0x33 (vCode d) (mkAbf (vCode a) (vCode b) 1) (mkM 0 0 0 0 pg.val sz.code) from rfl, decode_enc2 _ (by decide) (vCode_lt _)]
  refine Laws.RoundTrip.of_body rfl ?_ hw
  simp [decBody, decVlogic, Fields.a, Fields.b, Fields.f, sizedM]
theorem Laws.RoundTrip.vxor (sw : Bool) (sz : Sz) (pg : PReg) (d : VReg) (a : VReg) (b : VReg) :
    Laws.RoundTrip.Statement (.vxor sw sz pg d a b) := by
  intro hw _
  rw [show encode (.vxor sw sz pg d a b) = enc2 sw 0x33 (vCode d) (mkAbf (vCode a) (vCode b) 2) (mkM 0 0 0 0 pg.val sz.code) from rfl, decode_enc2 _ (by decide) (vCode_lt _)]
  refine Laws.RoundTrip.of_body rfl ?_ hw
  simp [decBody, decVlogic, Fields.a, Fields.b, Fields.f, sizedM]
theorem Laws.RoundTrip.vshl (sw : Bool) (sz : Sz) (pg : PReg) (d : VReg) (a : VReg) (b : VReg) :
    Laws.RoundTrip.Statement (.vshl sw sz pg d a b) := by
  intro hw _
  rw [show encode (.vshl sw sz pg d a b) = enc2 sw 0x34 (vCode d) (mkAbf (vCode a) (vCode b) 0) (mkM 0 0 0 0 pg.val sz.code) from rfl, decode_enc2 _ (by decide) (vCode_lt _)]
  refine Laws.RoundTrip.of_body rfl ?_ hw
  simp [decBody, decVshift, Fields.a, Fields.b, Fields.f, sizedM]
theorem Laws.RoundTrip.vshr (sw : Bool) (sz : Sz) (pg : PReg) (d : VReg) (a : VReg) (b : VReg) :
    Laws.RoundTrip.Statement (.vshr sw sz pg d a b) := by
  intro hw _
  rw [show encode (.vshr sw sz pg d a b) = enc2 sw 0x34 (vCode d) (mkAbf (vCode a) (vCode b) 1) (mkM 0 0 0 0 pg.val sz.code) from rfl, decode_enc2 _ (by decide) (vCode_lt _)]
  refine Laws.RoundTrip.of_body rfl ?_ hw
  simp [decBody, decVshift, Fields.a, Fields.b, Fields.f, sizedM]
theorem Laws.RoundTrip.vsar (sw : Bool) (sz : Sz) (pg : PReg) (d : VReg) (a : VReg) (b : VReg) :
    Laws.RoundTrip.Statement (.vsar sw sz pg d a b) := by
  intro hw _
  rw [show encode (.vsar sw sz pg d a b) = enc2 sw 0x34 (vCode d) (mkAbf (vCode a) (vCode b) 2) (mkM 0 0 0 0 pg.val sz.code) from rfl, decode_enc2 _ (by decide) (vCode_lt _)]
  refine Laws.RoundTrip.of_body rfl ?_ hw
  simp [decBody, decVshift, Fields.a, Fields.b, Fields.f, sizedM]
theorem Laws.RoundTrip.vcmp (sw : Bool) (ty : Ty) (pg : PReg) (d : PReg) (a : VReg) (b : VReg) (cond : Cond) :
    Laws.RoundTrip.Statement (.vcmp sw ty pg d a b cond) := by
  intro hw _
  rw [show encode (.vcmp sw ty pg d a b cond) = enc2 sw 0x35 (pCode d) (mkAbf (vCode a) (vCode b) cond.code) (mkM ty.code 0 0 0 pg.val 0) from rfl, decode_enc2 _ (by decide) (pCode_lt _)]
  refine Laws.RoundTrip.of_body rfl ?_ hw
  simp [decBody, decVcmp, Fields.a, Fields.b, Fields.f, typedPlainM]
theorem Laws.RoundTrip.vsel (sw : Bool) (sz : Sz) (pn : PReg) (d : VReg) (a : VReg) (b : VReg) :
    Laws.RoundTrip.Statement (.vsel sw sz pn d a b) := by
  intro hw _
  rw [show encode (.vsel sw sz pn d a b) = enc2 sw 0x36 (vCode d) (mkAbf (vCode a) (vCode b) 0) (mkM 0 0 0 0 pn.val sz.code) from rfl, decode_enc2 _ (by decide) (vCode_lt _)]
  refine Laws.RoundTrip.of_body rfl ?_ hw
  simp [decBody, decVsel, Fields.a, Fields.b, Fields.f, sizedM]
theorem Laws.RoundTrip.vbcast (sw : Bool) (sz : Sz) (pg : PReg) (d : VReg) (a : Src) :
    Laws.RoundTrip.Statement (.vbcast sw sz pg d a) := by
  intro hw _
  rw [show encode (.vbcast sw sz pg d a) = enc2 sw 0x37 (vCode d) (mkAbf a.code 0 0) (mkM 0 0 0 0 pg.val sz.code) from rfl, decode_enc2 _ (by decide) (vCode_lt _)]
  refine Laws.RoundTrip.of_body rfl ?_ hw
  simp [decBody, decVbcast, Fields.a, Fields.b, Fields.f, sizedM]
theorem Laws.RoundTrip.vins (sw : Bool) (sz : Sz) (d : VReg) (a : Src) (i : BitVec 16) :
    Laws.RoundTrip.Statement (.vins sw sz d a i) := by
  intro hw _
  rw [show encode (.vins sw sz d a i) = enc3 sw 0x38 (vCode d) (mkAbf a.code 0 0) i.toNat (mkM 0 0 0 0 0 sz.code) from rfl, decode_enc3 _ (by decide) (vCode_lt _)]
  refine Laws.RoundTrip.of_body rfl ?_ hw
  simp [decBody, decVins, Fields.a, Fields.b, Fields.f, sizeOnlyM]
theorem Laws.RoundTrip.vext (sw : Bool) (sz : Sz) (d : SReg) (a : VReg) (i : BitVec 16) :
    Laws.RoundTrip.Statement (.vext sw sz d a i) := by
  intro hw _
  rw [show encode (.vext sw sz d a i) = enc3 sw 0x38 d.val (mkAbf (vCode a) 0 1) i.toNat (mkM 0 0 0 0 0 sz.code) from rfl, decode_enc3 _ (by decide) (by omega)]
  refine Laws.RoundTrip.of_body rfl ?_ hw
  simp [decBody, decVins, Fields.a, Fields.b, Fields.f, sizeOnlyM]
theorem Laws.RoundTrip.vshuf (sw : Bool) (sz : Sz) (pg : PReg) (d : VReg) (a : VReg) (b : VReg) :
    Laws.RoundTrip.Statement (.vshuf sw sz pg d a b) := by
  intro hw _
  rw [show encode (.vshuf sw sz pg d a b) = enc2 sw 0x39 (vCode d) (mkAbf (vCode a) (vCode b) 0) (mkM 0 0 0 0 pg.val sz.code) from rfl, decode_enc2 _ (by decide) (vCode_lt _)]
  refine Laws.RoundTrip.of_body rfl ?_ hw
  simp [decBody, decVshuf, Fields.a, Fields.b, Fields.f, sizedM]
theorem Laws.RoundTrip.vrot (sw : Bool) (sz : Sz) (pg : PReg) (d : VReg) (a : VReg) (n : BitVec 16) :
    Laws.RoundTrip.Statement (.vrot sw sz pg d a n) := by
  intro hw _
  rw [show encode (.vrot sw sz pg d a n) = enc3 sw 0x3A (vCode d) (mkAbf (vCode a) 0 0) n.toNat (mkM 0 0 0 0 pg.val sz.code) from rfl, decode_enc3 _ (by decide) (vCode_lt _)]
  refine Laws.RoundTrip.of_body rfl ?_ hw
  simp [decBody, decVrot, Fields.a, Fields.b, Fields.f, sizedM]
theorem Laws.RoundTrip.vcvt (sw : Bool) (dty : Ty) (sty : Ty) (rm : Rm) (sat : Bool) (pg : PReg) (d : VReg) (a : VReg) :
    Laws.RoundTrip.Statement (.vcvt sw dty sty rm sat pg d a) := by
  intro hw _
  rw [show encode (.vcvt sw dty sty rm sat pg d a) = enc2 sw 0x3B (vCode d) (mkAbf (vCode a) 0 sty.code) (mkM dty.code rm.code sat.toNat 0 pg.val 0) from rfl, decode_enc2 _ (by decide) (vCode_lt _)]
  refine Laws.RoundTrip.of_body rfl ?_ hw
  simp [decBody, decVcvt, Fields.a, Fields.b, Fields.f, typedM]
theorem Laws.RoundTrip.vqnt (sw : Bool) (sty : Ty) (rm : Rm) (pg : PReg) (pm2 : BitVec 3) (d : VReg) (a : VReg) :
    Laws.RoundTrip.Statement (.vqnt sw sty rm pg pm2 d a) := by
  intro hw _
  rw [show encode (.vqnt sw sty rm pg pm2 d a) = enc3 sw 0x3C (vCode d) (mkAbf (vCode a) 0 0) (mkC 0 (sty.code * 64 + pm2.toNat)) (mkM 10 rm.code 0 0 pg.val 0) from rfl, decode_enc3 _ (by decide) (vCode_lt _)]
  refine Laws.RoundTrip.of_body rfl ?_ hw
  have := sty.code_lt
  have := pm2.isLt
  simp [decBody, decVqnt, Fields.a, Fields.b, Fields.f, typedM, show sty.code * 64 + pm2.toNat < 1024 from by omega, show (sty.code * 64 + pm2.toNat) / 8 % 8 = 0 from by omega, show (sty.code * 64 + pm2.toNat) / 64 = sty.code from by omega, decTy_ten]
  exact ofNat_eq (by omega)
theorem Laws.RoundTrip.vdqnt (sw : Bool) (ty : Ty) (rm : Rm) (sat : Bool) (pg : PReg) (pm2 : BitVec 3) (rpl : BitVec 3) (d : VReg) (a : VReg) (c : Src) :
    Laws.RoundTrip.Statement (.vdqnt sw ty rm sat pg pm2 rpl d a c) := by
  intro hw _
  rw [show encode (.vdqnt sw ty rm sat pg pm2 rpl d a c) = enc3 sw 0x3C (vCode d) (mkAbf (vCode a) 0 1) (mkC c.code (rpl.toNat * 8 + pm2.toNat)) (mkM ty.code rm.code sat.toNat 0 pg.val 0) from rfl, decode_enc3 _ (by decide) (vCode_lt _)]
  refine Laws.RoundTrip.of_body rfl ?_ hw
  have := rpl.isLt
  have := pm2.isLt
  simp [decBody, decVqnt, Fields.a, Fields.b, Fields.f, typedM, show rpl.toNat * 8 + pm2.toNat < 1024 from by omega, show (rpl.toNat * 8 + pm2.toNat) / 64 = 0 from by omega]
theorem Laws.RoundTrip.vredsum (sw : Bool) (ty : Ty) (rm : Rm) (pg : PReg) (d : SReg) (a : VReg) :
    Laws.RoundTrip.Statement (.vredsum sw ty rm pg d a) := by
  intro hw _
  rw [show encode (.vredsum sw ty rm pg d a) = enc2 sw 0x3D d.val (mkAbf (vCode a) 0 0) (mkM ty.code rm.code 0 0 pg.val 0) from rfl, decode_enc2 _ (by decide) (by omega)]
  refine Laws.RoundTrip.of_body rfl ?_ hw
  simp [decBody, decVred, Fields.a, Fields.b, Fields.f, typedM, typedPlainM]
theorem Laws.RoundTrip.vredmax (sw : Bool) (ty : Ty) (pg : PReg) (d : SReg) (a : VReg) :
    Laws.RoundTrip.Statement (.vredmax sw ty pg d a) := by
  intro hw _
  rw [show encode (.vredmax sw ty pg d a) = enc2 sw 0x3D d.val (mkAbf (vCode a) 0 1) (mkM ty.code 0 0 0 pg.val 0) from rfl, decode_enc2 _ (by decide) (by omega)]
  refine Laws.RoundTrip.of_body rfl ?_ hw
  simp [decBody, decVred, Fields.a, Fields.b, Fields.f, typedM, typedPlainM]
theorem Laws.RoundTrip.vredmin (sw : Bool) (ty : Ty) (pg : PReg) (d : SReg) (a : VReg) :
    Laws.RoundTrip.Statement (.vredmin sw ty pg d a) := by
  intro hw _
  rw [show encode (.vredmin sw ty pg d a) = enc2 sw 0x3D d.val (mkAbf (vCode a) 0 2) (mkM ty.code 0 0 0 pg.val 0) from rfl, decode_enc2 _ (by decide) (by omega)]
  refine Laws.RoundTrip.of_body rfl ?_ hw
  simp [decBody, decVred, Fields.a, Fields.b, Fields.f, typedM, typedPlainM]
theorem Laws.RoundTrip.vscan (sw : Bool) (ty : Ty) (rm : Rm) (sat : Bool) (pg : PReg) (d : VReg) (a : VReg) :
    Laws.RoundTrip.Statement (.vscan sw ty rm sat pg d a) := by
  intro hw _
  rw [show encode (.vscan sw ty rm sat pg d a) = enc2 sw 0x3D (vCode d) (mkAbf (vCode a) 0 3) (mkM ty.code rm.code sat.toNat 0 pg.val 0) from rfl, decode_enc2 _ (by decide) (vCode_lt _)]
  refine Laws.RoundTrip.of_body rfl ?_ hw
  simp [decBody, decVred, Fields.a, Fields.b, Fields.f, typedM, typedPlainM]
theorem Laws.RoundTrip.vrcp (sw : Bool) (ty : Ty) (rm : Rm) (sat : Bool) (pg : PReg) (d : VReg) (a : VReg) :
    Laws.RoundTrip.Statement (.vrcp sw ty rm sat pg d a) := by
  intro hw _
  rw [show encode (.vrcp sw ty rm sat pg d a) = enc2 sw 0x3E (vCode d) (mkAbf (vCode a) 0 0) (mkM ty.code rm.code sat.toNat 0 pg.val 0) from rfl, decode_enc2 _ (by decide) (vCode_lt _)]
  refine Laws.RoundTrip.of_body rfl ?_ hw
  simp [decBody, decVspecial, Fields.a, Fields.b, Fields.f, typedM]
theorem Laws.RoundTrip.vrsq (sw : Bool) (ty : Ty) (rm : Rm) (sat : Bool) (pg : PReg) (d : VReg) (a : VReg) :
    Laws.RoundTrip.Statement (.vrsq sw ty rm sat pg d a) := by
  intro hw _
  rw [show encode (.vrsq sw ty rm sat pg d a) = enc2 sw 0x3E (vCode d) (mkAbf (vCode a) 0 1) (mkM ty.code rm.code sat.toNat 0 pg.val 0) from rfl, decode_enc2 _ (by decide) (vCode_lt _)]
  refine Laws.RoundTrip.of_body rfl ?_ hw
  simp [decBody, decVspecial, Fields.a, Fields.b, Fields.f, typedM]
theorem Laws.RoundTrip.vexp2 (sw : Bool) (ty : Ty) (rm : Rm) (sat : Bool) (pg : PReg) (d : VReg) (a : VReg) :
    Laws.RoundTrip.Statement (.vexp2 sw ty rm sat pg d a) := by
  intro hw _
  rw [show encode (.vexp2 sw ty rm sat pg d a) = enc2 sw 0x3E (vCode d) (mkAbf (vCode a) 0 2) (mkM ty.code rm.code sat.toNat 0 pg.val 0) from rfl, decode_enc2 _ (by decide) (vCode_lt _)]
  refine Laws.RoundTrip.of_body rfl ?_ hw
  simp [decBody, decVspecial, Fields.a, Fields.b, Fields.f, typedM]
theorem Laws.RoundTrip.vlog2 (sw : Bool) (ty : Ty) (rm : Rm) (sat : Bool) (pg : PReg) (d : VReg) (a : VReg) :
    Laws.RoundTrip.Statement (.vlog2 sw ty rm sat pg d a) := by
  intro hw _
  rw [show encode (.vlog2 sw ty rm sat pg d a) = enc2 sw 0x3E (vCode d) (mkAbf (vCode a) 0 3) (mkM ty.code rm.code sat.toNat 0 pg.val 0) from rfl, decode_enc2 _ (by decide) (vCode_lt _)]
  refine Laws.RoundTrip.of_body rfl ?_ hw
  simp [decBody, decVspecial, Fields.a, Fields.b, Fields.f, typedM]
theorem Laws.RoundTrip.vdot4 (sw : Bool) (ty : Ty) (rm : Rm) (sat : Bool) (pg : PReg) (d : VReg) (a : VReg) (b : VReg) (c : VReg) :
    Laws.RoundTrip.Statement (.vdot4 sw ty rm sat pg d a b c) := by
  intro hw _
  rw [show encode (.vdot4 sw ty rm sat pg d a b c) = enc3 sw 0x3F (vCode d) (mkAbf (vCode a) (vCode b) 0) (mkC (vCode c) 0) (mkM ty.code rm.code sat.toNat 0 pg.val 0) from rfl, decode_enc3 _ (by decide) (vCode_lt _)]
  refine Laws.RoundTrip.of_body rfl ?_ hw
  simp [decBody, decVdot4, Fields.a, Fields.b, Fields.f, typedM]
theorem Laws.RoundTrip.vpopc (sw : Bool) (sz : Sz) (pg : PReg) (d : VReg) (a : VReg) :
    Laws.RoundTrip.Statement (.vpopc sw sz pg d a) := by
  intro hw _
  rw [show encode (.vpopc sw sz pg d a) = enc2 sw 0x40 (vCode d) (mkAbf (vCode a) 0 0) (mkM 0 0 0 0 pg.val sz.code) from rfl, decode_enc2 _ (by decide) (vCode_lt _)]
  refine Laws.RoundTrip.of_body rfl ?_ hw
  simp [decBody, decVpopc, Fields.a, Fields.b, Fields.f, sizedM]
theorem Laws.RoundTrip.ld (sw : Bool) (sz : Sz) (d : SReg) (a : Src) (off : BitVec 16) :
    Laws.RoundTrip.Statement (.ld sw sz d a off) := by
  intro hw _
  rw [show encode (.ld sw sz d a off) = enc3 sw 0x50 d.val (mkAbf a.code 0 0) off.toNat (mkM 0 0 0 0 0 sz.code) from rfl, decode_enc3 _ (by decide) (by omega)]
  refine Laws.RoundTrip.of_body rfl ?_ hw
  simp [decBody, decLd, Fields.a, Fields.b, Fields.f, scopedM]
theorem Laws.RoundTrip.lda (sw : Bool) (sz : Sz) (sc : Scope) (d : SReg) (a : Src) (off : BitVec 16) :
    Laws.RoundTrip.Statement (.lda sw sz sc d a off) := by
  intro hw _
  rw [show encode (.lda sw sz sc d a off) = enc3 sw 0x50 d.val (mkAbf a.code 0 1) off.toNat (mkM 0 0 0 sc.code 0 sz.code) from rfl, decode_enc3 _ (by decide) (by omega)]
  refine Laws.RoundTrip.of_body rfl ?_ hw
  simp [decBody, decLd, Fields.a, Fields.b, Fields.f, scopedM]
theorem Laws.RoundTrip.st (sw : Bool) (sz : Sz) (a : Src) (b : Src) (off : BitVec 16) :
    Laws.RoundTrip.Statement (.st sw sz a b off) := by
  intro hw _
  rw [show encode (.st sw sz a b off) = enc3 sw 0x51 0 (mkAbf a.code b.code 0) off.toNat (mkM 0 0 0 0 0 sz.code) from rfl, decode_enc3 _ (by decide) (by decide)]
  refine Laws.RoundTrip.of_body rfl ?_ hw
  simp [decBody, decSt, Fields.a, Fields.b, Fields.f, scopedM]
theorem Laws.RoundTrip.stl (sw : Bool) (sz : Sz) (sc : Scope) (a : Src) (b : Src) (off : BitVec 16) :
    Laws.RoundTrip.Statement (.stl sw sz sc a b off) := by
  intro hw _
  rw [show encode (.stl sw sz sc a b off) = enc3 sw 0x51 0 (mkAbf a.code b.code 1) off.toNat (mkM 0 0 0 sc.code 0 sz.code) from rfl, decode_enc3 _ (by decide) (by decide)]
  refine Laws.RoundTrip.of_body rfl ?_ hw
  simp [decBody, decSt, Fields.a, Fields.b, Fields.f, scopedM]
theorem Laws.RoundTrip.vld (sw : Bool) (sz : Sz) (pg : PReg) (d : VReg) (a : Src) (off : BitVec 16) :
    Laws.RoundTrip.Statement (.vld sw sz pg d a off) := by
  intro hw _
  rw [show encode (.vld sw sz pg d a off) = enc3 sw 0x52 (vCode d) (mkAbf a.code 0 0) off.toNat (mkM 0 0 0 0 pg.val sz.code) from rfl, decode_enc3 _ (by decide) (vCode_lt _)]
  refine Laws.RoundTrip.of_body rfl ?_ hw
  simp [decBody, decVld, Fields.a, Fields.b, Fields.f, sizedM]
theorem Laws.RoundTrip.vlds (sw : Bool) (sz : Sz) (pg : PReg) (d : VReg) (a : Src) (stride : BitVec 16) :
    Laws.RoundTrip.Statement (.vlds sw sz pg d a stride) := by
  intro hw _
  rw [show encode (.vlds sw sz pg d a stride) = enc3 sw 0x52 (vCode d) (mkAbf a.code 0 1) stride.toNat (mkM 0 0 0 0 pg.val sz.code) from rfl, decode_enc3 _ (by decide) (vCode_lt _)]
  refine Laws.RoundTrip.of_body rfl ?_ hw
  simp [decBody, decVld, Fields.a, Fields.b, Fields.f, sizedM]
theorem Laws.RoundTrip.vst (sw : Bool) (sz : Sz) (pg : PReg) (a : Src) (b : VReg) (off : BitVec 16) :
    Laws.RoundTrip.Statement (.vst sw sz pg a b off) := by
  intro hw _
  rw [show encode (.vst sw sz pg a b off) = enc3 sw 0x53 0 (mkAbf a.code (vCode b) 0) off.toNat (mkM 0 0 0 0 pg.val sz.code) from rfl, decode_enc3 _ (by decide) (by decide)]
  refine Laws.RoundTrip.of_body rfl ?_ hw
  simp [decBody, decVst, Fields.a, Fields.b, Fields.f, sizedM]
theorem Laws.RoundTrip.vsts (sw : Bool) (sz : Sz) (pg : PReg) (a : Src) (b : VReg) (stride : BitVec 16) :
    Laws.RoundTrip.Statement (.vsts sw sz pg a b stride) := by
  intro hw _
  rw [show encode (.vsts sw sz pg a b stride) = enc3 sw 0x53 0 (mkAbf a.code (vCode b) 1) stride.toNat (mkM 0 0 0 0 pg.val sz.code) from rfl, decode_enc3 _ (by decide) (by decide)]
  refine Laws.RoundTrip.of_body rfl ?_ hw
  simp [decBody, decVst, Fields.a, Fields.b, Fields.f, sizedM]
theorem Laws.RoundTrip.vgath (sw : Bool) (sz : Sz) (pg : PReg) (d : VReg) (a : Src) (c : VReg) :
    Laws.RoundTrip.Statement (.vgath sw sz pg d a c) := by
  intro hw _
  rw [show encode (.vgath sw sz pg d a c) = enc3 sw 0x54 (vCode d) (mkAbf a.code 0 0) (mkC (vCode c) 0) (mkM 0 0 0 0 pg.val sz.code) from rfl, decode_enc3 _ (by decide) (vCode_lt _)]
  refine Laws.RoundTrip.of_body rfl ?_ hw
  simp [decBody, decVgath, Fields.a, Fields.b, Fields.f, sizedM]
theorem Laws.RoundTrip.vscat (sw : Bool) (sz : Sz) (pg : PReg) (a : Src) (b : VReg) (c : VReg) :
    Laws.RoundTrip.Statement (.vscat sw sz pg a b c) := by
  intro hw _
  rw [show encode (.vscat sw sz pg a b c) = enc3 sw 0x54 0 (mkAbf a.code (vCode b) 1) (mkC (vCode c) 0) (mkM 0 0 0 0 pg.val sz.code) from rfl, decode_enc3 _ (by decide) (by decide)]
  refine Laws.RoundTrip.of_body rfl ?_ hw
  simp [decBody, decVgath, Fields.a, Fields.b, Fields.f, sizedM]
theorem Laws.RoundTrip.ldf (sw : Bool) (sc : Scope) (d : SReg) (a : Src) (off : BitVec 16) :
    Laws.RoundTrip.Statement (.ldf sw sc d a off) := by
  intro hw _
  rw [show encode (.ldf sw sc d a off) = enc3 sw 0x55 d.val (mkAbf a.code 0 0) off.toNat (mkM 0 0 0 sc.code 0 3) from rfl, decode_enc3 _ (by decide) (by omega)]
  refine Laws.RoundTrip.of_body rfl ?_ hw
  simp [decBody, decSync, Fields.a, Fields.b, Fields.f, scopedM]
theorem Laws.RoundTrip.ste (sw : Bool) (sc : Scope) (a : Src) (b : Src) (off : BitVec 16) :
    Laws.RoundTrip.Statement (.ste sw sc a b off) := by
  intro hw _
  rw [show encode (.ste sw sc a b off) = enc3 sw 0x55 0 (mkAbf a.code b.code 1) off.toNat (mkM 0 0 0 sc.code 0 3) from rfl, decode_enc3 _ (by decide) (by decide)]
  refine Laws.RoundTrip.of_body rfl ?_ hw
  simp [decBody, decSync, Fields.a, Fields.b, Fields.f, scopedM]
theorem Laws.RoundTrip.ldfp (sw : Bool) (d : SReg) (p : PReg) (a : Src) (off : BitVec 16) :
    Laws.RoundTrip.Statement (.ldfp sw d p a off) := by
  intro hw _
  rw [show encode (.ldfp sw d p a off) = enc3 sw 0x55 d.val (mkAbf a.code (pCode p) 2) off.toNat (mkM 0 0 0 0 0 3) from rfl, decode_enc3 _ (by decide) (by omega)]
  refine Laws.RoundTrip.of_body rfl ?_ hw
  simp [decBody, decSync, Fields.a, Fields.b, Fields.f, scopedM]
theorem Laws.RoundTrip.setfe (sw : Bool) (a : Src) (b : Src) (off : BitVec 16) :
    Laws.RoundTrip.Statement (.setfe sw a b off) := by
  intro hw _
  rw [show encode (.setfe sw a b off) = enc3 sw 0x55 0 (mkAbf a.code b.code 3) off.toNat (mkM 0 0 0 0 0 3) from rfl, decode_enc3 _ (by decide) (by decide)]
  refine Laws.RoundTrip.of_body rfl ?_ hw
  simp [decBody, decSync, Fields.a, Fields.b, Fields.f, scopedM]
theorem Laws.RoundTrip.amo (sw : Bool) (sz : Sz) (sc : Scope) (op : AmoOp) (ord : AmoOrd) (d : SReg) (a : Src) (b : Src) (c : Src) :
    Laws.RoundTrip.Statement (.amo sw sz sc op ord d a b c) := by
  intro hw _
  rw [show encode (.amo sw sz sc op ord d a b c) = enc3 sw 0x56 d.val (mkAbf a.code b.code op.code) (mkC c.code ord.code) (mkM 0 0 0 sc.code 0 sz.code) from rfl, decode_enc3 _ (by decide) (by omega)]
  refine Laws.RoundTrip.of_body rfl ?_ hw
  simp [decBody, decAmo, Fields.a, Fields.b, Fields.f, scopedM]
theorem Laws.RoundTrip.redu (sw : Bool) (ty : Ty) (rm : Rm) (sat : Bool) (op : ReduOp) (a : Src) (b : Src) :
    Laws.RoundTrip.Statement (.redu sw ty rm sat op a b) := by
  intro hw _
  rw [show encode (.redu sw ty rm sat op a b) = enc2 sw 0x57 0 (mkAbf a.code b.code op.code) (mkM ty.code rm.code sat.toNat 0 0 0) from rfl, decode_enc2 _ (by decide) (by decide)]
  refine Laws.RoundTrip.of_body rfl ?_ hw
  simp [decBody, decRedu, Fields.a, Fields.b, Fields.f, typedM]
theorem Laws.RoundTrip.waitge (sw : Bool) (sz : Sz) (sc : Scope) (d : SReg) (a : Src) (b : Src) (off : BitVec 16) :
    Laws.RoundTrip.Statement (.waitge sw sz sc d a b off) := by
  intro hw _
  rw [show encode (.waitge sw sz sc d a b off) = enc3 sw 0x58 d.val (mkAbf a.code b.code 0) off.toNat (mkM 0 0 0 sc.code 0 sz.code) from rfl, decode_enc3 _ (by decide) (by omega)]
  refine Laws.RoundTrip.of_body rfl ?_ hw
  simp [decBody, decWaitge, Fields.a, Fields.b, Fields.f, scopedM]
theorem Laws.RoundTrip.fence (sw : Bool) (sc : Scope) :
    Laws.RoundTrip.Statement (.fence sw sc) := by
  intro hw _
  rw [show encode (.fence sw sc) = enc2 sw 0x59 0 0 (mkM 0 0 0 sc.code 0 0) from rfl, decode_enc2 _ (by decide) (by decide)]
  refine Laws.RoundTrip.of_body rfl ?_ hw
  simp [decBody, decFence, scopeOnlyM]
theorem Laws.RoundTrip.pref (sw : Bool) (a : Src) (b : Option Src) (off : BitVec 16) :
    Laws.RoundTrip.Statement (.pref sw a b off) := by
  intro hw _
  rw [show encode (.pref sw a b off) = enc3 sw 0x5A 0 (mkAbf a.code (optCode b) 0) off.toNat 0 from rfl, decode_enc3 _ (by decide) (by decide)]
  refine Laws.RoundTrip.of_body rfl ?_ hw
  have hb : b ≠ some (.s 0) := by simpa [Instr.wf] using hw
  simp [decBody, decTiles, Fields.a, Fields.b, Fields.f, decOpt_code _ hb]
theorem Laws.RoundTrip.tflush (sw : Bool) (a : Src) (b : Option Src) (off : BitVec 16) :
    Laws.RoundTrip.Statement (.tflush sw a b off) := by
  intro hw _
  rw [show encode (.tflush sw a b off) = enc3 sw 0x5A 0 (mkAbf a.code (optCode b) 1) off.toNat 0 from rfl, decode_enc3 _ (by decide) (by decide)]
  refine Laws.RoundTrip.of_body rfl ?_ hw
  have hb : b ≠ some (.s 0) := by simpa [Instr.wf] using hw
  simp [decBody, decTiles, Fields.a, Fields.b, Fields.f, decOpt_code _ hb]
theorem Laws.RoundTrip.tinv (sw : Bool) (a : Src) (b : Option Src) (off : BitVec 16) :
    Laws.RoundTrip.Statement (.tinv sw a b off) := by
  intro hw _
  rw [show encode (.tinv sw a b off) = enc3 sw 0x5A 0 (mkAbf a.code (optCode b) 2) off.toNat 0 from rfl, decode_enc3 _ (by decide) (by decide)]
  refine Laws.RoundTrip.of_body rfl ?_ hw
  have hb : b ≠ some (.s 0) := by simpa [Instr.wf] using hw
  simp [decBody, decTiles, Fields.a, Fields.b, Fields.f, decOpt_code _ hb]
theorem Laws.RoundTrip.send (sw : Bool) (a : Src) (b : Src) (off : BitVec 4) :
    Laws.RoundTrip.Statement (.send sw a b off) := by
  intro hw _
  rw [show encode (.send sw a b off) = enc3 sw 0x60 0 (mkAbf a.code b.code 0) off.toNat 0 from rfl, decode_enc3 _ (by decide) (by decide)]
  refine Laws.RoundTrip.of_body rfl ?_ hw
  simp [decBody, decSend, Fields.a, Fields.b, Fields.f, scopeOnlyM]
theorem Laws.RoundTrip.sendv (sw : Bool) (a : Src) (b : VReg) (off : BitVec 4) :
    Laws.RoundTrip.Statement (.sendv sw a b off) := by
  intro hw _
  rw [show encode (.sendv sw a b off) = enc3 sw 0x60 0 (mkAbf a.code (vCode b) 1) off.toNat 0 from rfl, decode_enc3 _ (by decide) (by decide)]
  refine Laws.RoundTrip.of_body rfl ?_ hw
  simp [decBody, decSend, Fields.a, Fields.b, Fields.f, scopeOnlyM]
theorem Laws.RoundTrip.sendr (sw : Bool) (sc : Scope) (a : Src) (b : Src) (off : BitVec 4) :
    Laws.RoundTrip.Statement (.sendr sw sc a b off) := by
  intro hw _
  rw [show encode (.sendr sw sc a b off) = enc3 sw 0x60 0 (mkAbf a.code b.code 2) off.toNat (mkM 0 0 0 sc.code 0 0) from rfl, decode_enc3 _ (by decide) (by decide)]
  refine Laws.RoundTrip.of_body rfl ?_ hw
  simp [decBody, decSend, Fields.a, Fields.b, Fields.f, scopeOnlyM]
theorem Laws.RoundTrip.mintcap (sw : Bool) (d : SReg) (base : BitVec 6) (lenm1 : BitVec 4) :
    Laws.RoundTrip.Statement (.mintcap sw d base lenm1) := by
  intro hw _
  rw [show encode (.mintcap sw d base lenm1) = enc2 sw 0x61 d.val 0 (lenm1.toNat * 64 + base.toNat) from rfl, decode_enc2 _ (by decide) (by omega)]
  refine Laws.RoundTrip.of_body rfl ?_ hw
  simp [decBody, decMintcap]
theorem Laws.RoundTrip.revcap (sw : Bool) (d : SReg) :
    Laws.RoundTrip.Statement (.revcap sw d) := by
  intro hw _
  rw [show encode (.revcap sw d) = enc1 sw 0x62 d.val 0 from rfl, decode_enc1 _ (by decide) (by omega)]
  refine Laws.RoundTrip.of_body rfl ?_ hw
  simp [decBody, decRevcap]
theorem Laws.RoundTrip.rclr (sw : Bool) (d : Reg) :
    Laws.RoundTrip.Statement (.rclr sw d) := by
  intro hw _
  rw [show encode (.rclr sw d) = enc1 sw 0x63 d.code (mkAbf 0 0 0) from rfl, decode_enc1 _ (by decide) d.code_lt]
  refine Laws.RoundTrip.of_body rfl ?_ hw
  simp [decBody, decPresence, Fields.a, Fields.b, Fields.f]
theorem Laws.RoundTrip.rfull (sw : Bool) (d : SReg) (a : FullSrc) :
    Laws.RoundTrip.Statement (.rfull sw d a) := by
  intro hw _
  rw [show encode (.rfull sw d a) = enc1 sw 0x63 d.val (mkAbf a.code 0 1) from rfl, decode_enc1 _ (by decide) (by omega)]
  refine Laws.RoundTrip.of_body rfl ?_ hw
  simp [decBody, decPresence, Fields.a, Fields.b, Fields.f]
theorem Laws.RoundTrip.rwait (sw : Bool) (a : Reg) (b : Reg) :
    Laws.RoundTrip.Statement (.rwait sw a b) := by
  intro hw _
  rw [show encode (.rwait sw a b) = enc1 sw 0x63 0 (mkAbf a.code b.code 2) from rfl, decode_enc1 _ (by decide) (by decide)]
  refine Laws.RoundTrip.of_body rfl ?_ hw
  simp [decBody, decPresence, Fields.a, Fields.b, Fields.f]
theorem Laws.RoundTrip.landm (sw : Bool) (base : BitVec 6) (lenm1 : BitVec 4) (mode : BitVec 2) :
    Laws.RoundTrip.Statement (.landm sw base lenm1 mode) := by
  intro hw _
  rw [show encode (.landm sw base lenm1 mode) = enc2 sw 0x64 0 0 (mode.toNat * 1024 + lenm1.toNat * 64 + base.toNat) from rfl, decode_enc2 _ (by decide) (by decide)]
  refine Laws.RoundTrip.of_body rfl ?_ hw
  have := base.isLt
  have := lenm1.isLt
  have := mode.isLt
  simp [decBody, decLandm, show mode.toNat * 1024 + lenm1.toNat * 64 + base.toNat < 4096 from by omega]
  exact ⟨ofNat_eq (by omega), ofNat_eq (by omega), ofNat_eq (by omega)⟩
theorem Laws.RoundTrip.cpy (sw : Bool) (d : SReg) (a : SReg) :
    Laws.RoundTrip.Statement (.cpy sw d a) := by
  intro hw _
  rw [show encode (.cpy sw d a) = enc1 sw 0x68 d.val (mkAbf a.val 0 0) from rfl, decode_enc1 _ (by decide) (by omega)]
  refine Laws.RoundTrip.of_body rfl ?_ hw
  simp [decBody, decCpy, Fields.a, Fields.b, Fields.f]
theorem Laws.RoundTrip.cpynb (sw : Bool) (d : SReg) (a : SReg) :
    Laws.RoundTrip.Statement (.cpynb sw d a) := by
  intro hw _
  rw [show encode (.cpynb sw d a) = enc1 sw 0x68 d.val (mkAbf a.val 0 1) from rfl, decode_enc1 _ (by decide) (by omega)]
  refine Laws.RoundTrip.of_body rfl ?_ hw
  simp [decBody, decCpy, Fields.a, Fields.b, Fields.f]
theorem Laws.RoundTrip.cpyc (sw : Bool) (d : SReg) (a : Src) :
    Laws.RoundTrip.Statement (.cpyc sw d a) := by
  intro hw _
  rw [show encode (.cpyc sw d a) = enc1 sw 0x69 d.val (mkAbf a.code 0 0) from rfl, decode_enc1 _ (by decide) (by omega)]
  refine Laws.RoundTrip.of_body rfl ?_ hw
  simp [decBody, decCpyc, Fields.a, Fields.b, Fields.f]
theorem Laws.RoundTrip.cpyq (sw : Bool) (d : SReg) (a : Src) :
    Laws.RoundTrip.Statement (.cpyq sw d a) := by
  intro hw _
  rw [show encode (.cpyq sw d a) = enc1 sw 0x69 d.val (mkAbf a.code 0 1) from rfl, decode_enc1 _ (by decide) (by omega)]
  refine Laws.RoundTrip.of_body rfl ?_ hw
  simp [decBody, decCpyc, Fields.a, Fields.b, Fields.f]
theorem Laws.RoundTrip.twany (sw : Bool) (d : SReg) (a : Src) :
    Laws.RoundTrip.Statement (.twany sw d a) := by
  intro hw _
  rw [show encode (.twany sw d a) = enc1 sw 0x6A d.val (mkAbf a.code 0 0) from rfl, decode_enc1 _ (by decide) (by omega)]
  refine Laws.RoundTrip.of_body rfl ?_ hw
  simp [decBody, decTags, Fields.a, Fields.b, Fields.f]
theorem Laws.RoundTrip.twall (sw : Bool) (d : SReg) (a : Src) :
    Laws.RoundTrip.Statement (.twall sw d a) := by
  intro hw _
  rw [show encode (.twall sw d a) = enc1 sw 0x6A d.val (mkAbf a.code 0 1) from rfl, decode_enc1 _ (by decide) (by omega)]
  refine Laws.RoundTrip.of_body rfl ?_ hw
  simp [decBody, decTags, Fields.a, Fields.b, Fields.f]
theorem Laws.RoundTrip.tffr (sw : Bool) (d : SReg) (a : Src) :
    Laws.RoundTrip.Statement (.tffr sw d a) := by
  intro hw _
  rw [show encode (.tffr sw d a) = enc1 sw 0x6A d.val (mkAbf a.code 0 2) from rfl, decode_enc1 _ (by decide) (by omega)]
  refine Laws.RoundTrip.of_body rfl ?_ hw
  simp [decBody, decTags, Fields.a, Fields.b, Fields.f]
theorem Laws.RoundTrip.tclr (sw : Bool) (a : Src) :
    Laws.RoundTrip.Statement (.tclr sw a) := by
  intro hw _
  rw [show encode (.tclr sw a) = enc1 sw 0x6A 0 (mkAbf a.code 0 3) from rfl, decode_enc1 _ (by decide) (by decide)]
  refine Laws.RoundTrip.of_body rfl ?_ hw
  simp [decBody, decTags, Fields.a, Fields.b, Fields.f]
theorem Laws.RoundTrip.pbinv (sw : Bool) (a : Src) :
    Laws.RoundTrip.Statement (.pbinv sw a) := by
  intro hw _
  rw [show encode (.pbinv sw a) = enc1 sw 0x6B 0 (mkAbf a.code 0 0) from rfl, decode_enc1 _ (by decide) (by decide)]
  refine Laws.RoundTrip.of_body rfl ?_ hw
  simp [decBody, decPbinv, Fields.a, Fields.b, Fields.f]
theorem Laws.RoundTrip.gathq (sw : Bool) (sz : Sz) (pg : PReg) (d : VReg) (a : Src) (b : VReg) :
    Laws.RoundTrip.Statement (.gathq sw sz pg d a b) := by
  intro hw _
  rw [show encode (.gathq sw sz pg d a b) = enc2 sw 0x6C (vCode d) (mkAbf a.code (vCode b) 0) (mkM 0 0 0 0 pg.val sz.code) from rfl, decode_enc2 _ (by decide) (vCode_lt _)]
  refine Laws.RoundTrip.of_body rfl ?_ hw
  simp [decBody, decGathq, Fields.a, Fields.b, Fields.f, sizedM]
theorem Laws.RoundTrip.planset (sw : Bool) (d : SReg) (a : Src) :
    Laws.RoundTrip.Statement (.planset sw d a) := by
  intro hw _
  rw [show encode (.planset sw d a) = enc1 sw 0x6D d.val (mkAbf a.code 0 0) from rfl, decode_enc1 _ (by decide) (by omega)]
  refine Laws.RoundTrip.of_body rfl ?_ hw
  simp [decBody, decPlan, Fields.a, Fields.b, Fields.f]
theorem Laws.RoundTrip.planfire (sw : Bool) (a : Src) (b : Src) :
    Laws.RoundTrip.Statement (.planfire sw a b) := by
  intro hw _
  rw [show encode (.planfire sw a b) = enc1 sw 0x6D 0 (mkAbf a.code b.code 1) from rfl, decode_enc1 _ (by decide) (by decide)]
  refine Laws.RoundTrip.of_body rfl ?_ hw
  simp [decBody, decPlan, Fields.a, Fields.b, Fields.f]
theorem Laws.RoundTrip.plandrop (sw : Bool) (a : Src) :
    Laws.RoundTrip.Statement (.plandrop sw a) := by
  intro hw _
  rw [show encode (.plandrop sw a) = enc1 sw 0x6D 0 (mkAbf a.code 0 2) from rfl, decode_enc1 _ (by decide) (by decide)]
  refine Laws.RoundTrip.of_body rfl ?_ hw
  simp [decBody, decPlan, Fields.a, Fields.b, Fields.f]
theorem Laws.RoundTrip.tapeopen (sw : Bool) (d : SReg) (a : Src) :
    Laws.RoundTrip.Statement (.tapeopen sw d a) := by
  intro hw _
  rw [show encode (.tapeopen sw d a) = enc1 sw 0x70 d.val (mkAbf a.code 0 0) from rfl, decode_enc1 _ (by decide) (by omega)]
  refine Laws.RoundTrip.of_body rfl ?_ hw
  simp [decBody, decTape, Fields.a, Fields.b, Fields.f]
theorem Laws.RoundTrip.tapeclose (sw : Bool) (a : Src) :
    Laws.RoundTrip.Statement (.tapeclose sw a) := by
  intro hw _
  rw [show encode (.tapeclose sw a) = enc1 sw 0x70 0 (mkAbf a.code 0 1) from rfl, decode_enc1 _ (by decide) (by decide)]
  refine Laws.RoundTrip.of_body rfl ?_ hw
  simp [decBody, decTape, Fields.a, Fields.b, Fields.f]
theorem Laws.RoundTrip.tapefree (sw : Bool) (a : Src) :
    Laws.RoundTrip.Statement (.tapefree sw a) := by
  intro hw _
  rw [show encode (.tapefree sw a) = enc1 sw 0x70 0 (mkAbf a.code 0 2) from rfl, decode_enc1 _ (by decide) (by decide)]
  refine Laws.RoundTrip.of_body rfl ?_ hw
  simp [decBody, decTape, Fields.a, Fields.b, Fields.f]
theorem Laws.RoundTrip.tapeq (sw : Bool) (d : SReg) (a : Src) :
    Laws.RoundTrip.Statement (.tapeq sw d a) := by
  intro hw _
  rw [show encode (.tapeq sw d a) = enc1 sw 0x70 d.val (mkAbf a.code 0 3) from rfl, decode_enc1 _ (by decide) (by omega)]
  refine Laws.RoundTrip.of_body rfl ?_ hw
  simp [decBody, decTape, Fields.a, Fields.b, Fields.f]
theorem Laws.RoundTrip.mcast (sw : Bool) (tag : BitVec 6) (a : SReg) (b : Src) (cls : BitVec 2) (ret : Bool) :
    Laws.RoundTrip.Statement (.mcast sw tag a b cls ret) := by
  intro hw _
  rw [show encode (.mcast sw tag a b cls ret) = enc2 sw 0x71 tag.toNat (mkAbf a.val b.code 0) (mkC 0 (cls.toNat * 2 + ret.toNat)) from rfl, decode_enc2 _ (by decide) (by omega)]
  refine Laws.RoundTrip.of_body rfl ?_ hw
  have := cls.isLt
  have := Bool.toNat_lt ret
  simp [decBody, decSillage, Fields.a, Fields.b, Fields.f, mkC_zero, show cls.toNat * 2 + ret.toNat < 8 from by omega]
  exact bit_eq (by omega)
theorem Laws.RoundTrip.gathr (sw : Bool) (tag : BitVec 6) (a : SReg) (b : Src) (cls : BitVec 2) (ret : Bool) :
    Laws.RoundTrip.Statement (.gathr sw tag a b cls ret) := by
  intro hw _
  rw [show encode (.gathr sw tag a b cls ret) = enc2 sw 0x71 tag.toNat (mkAbf a.val b.code 1) (mkC 0 (cls.toNat * 2 + ret.toNat)) from rfl, decode_enc2 _ (by decide) (by omega)]
  refine Laws.RoundTrip.of_body rfl ?_ hw
  have := cls.isLt
  have := Bool.toNat_lt ret
  simp [decBody, decSillage, Fields.a, Fields.b, Fields.f, mkC_zero, show cls.toNat * 2 + ret.toNat < 8 from by omega]
  exact bit_eq (by omega)
theorem Laws.RoundTrip.a2a (sw : Bool) (tag : BitVec 6) (a : SReg) (b : Src) (cls : BitVec 2) (ret : Bool) :
    Laws.RoundTrip.Statement (.a2a sw tag a b cls ret) := by
  intro hw _
  rw [show encode (.a2a sw tag a b cls ret) = enc2 sw 0x71 tag.toNat (mkAbf a.val b.code 2) (mkC 0 (cls.toNat * 2 + ret.toNat)) from rfl, decode_enc2 _ (by decide) (by omega)]
  refine Laws.RoundTrip.of_body rfl ?_ hw
  have := cls.isLt
  have := Bool.toNat_lt ret
  simp [decBody, decSillage, Fields.a, Fields.b, Fields.f, mkC_zero, show cls.toNat * 2 + ret.toNat < 8 from by omega]
  exact bit_eq (by omega)
theorem Laws.RoundTrip.retrace (sw : Bool) (tag : BitVec 6) (a : SReg) (b : Src) (c : SReg) (ty : Ty) (cls : BitVec 2) (land : Bool) :
    Laws.RoundTrip.Statement (.retrace sw tag a b c ty cls land) := by
  intro hw _
  rw [show encode (.retrace sw tag a b c ty cls land) = enc2 sw 0x72 tag.toNat (mkAbf a.val b.code 0) (mkC c.val (land.toNat * 64 + cls.toNat * 16 + ty.code)) from rfl, decode_enc2 _ (by decide) (by omega)]
  refine Laws.RoundTrip.of_body rfl ?_ hw
  have := Bool.toNat_lt land
  have := cls.isLt
  have := ty.code_lt
  simp [decBody, decRetrace, Fields.a, Fields.b, Fields.f, show land.toNat * 64 + cls.toNat * 16 + ty.code < 1024 from by omega, show (land.toNat * 64 + cls.toNat * 16 + ty.code) / 128 = 0 from by omega, show (land.toNat * 64 + cls.toNat * 16 + ty.code) % 16 = ty.code from by omega]
  exact ⟨ofNat_eq (by omega), bit_eq (by omega)⟩
theorem Laws.RoundTrip.genbump (sw : Bool) (d : SReg) (a : Src) :
    Laws.RoundTrip.Statement (.genbump sw d a) := by
  intro hw _
  rw [show encode (.genbump sw d a) = enc1 sw 0x73 d.val (mkAbf a.code 0 0) from rfl, decode_enc1 _ (by decide) (by omega)]
  refine Laws.RoundTrip.of_body rfl ?_ hw
  simp [decBody, decGenbump, Fields.a, Fields.b, Fields.f]
theorem Laws.RoundTrip.hsinit (sw : Bool) (a : Src) (b : Src) :
    Laws.RoundTrip.Statement (.hsinit sw a b) := by
  intro hw _
  rw [show encode (.hsinit sw a b) = enc1 sw 0x74 0 (mkAbf a.code b.code 0) from rfl, decode_enc1 _ (by decide) (by decide)]
  refine Laws.RoundTrip.of_body rfl ?_ hw
  simp [decBody, decHeap, Fields.a, Fields.b, Fields.f]
theorem Laws.RoundTrip.hsift (sw : Bool) (d : SReg) (a : Src) (b : Src) :
    Laws.RoundTrip.Statement (.hsift sw d a b) := by
  intro hw _
  rw [show encode (.hsift sw d a b) = enc1 sw 0x74 d.val (mkAbf a.code b.code 1) from rfl, decode_enc1 _ (by decide) (by omega)]
  refine Laws.RoundTrip.of_body rfl ?_ hw
  simp [decBody, decHeap, Fields.a, Fields.b, Fields.f]
theorem Laws.RoundTrip.hpop (sw : Bool) (d : SReg) (a : Src) :
    Laws.RoundTrip.Statement (.hpop sw d a) := by
  intro hw _
  rw [show encode (.hpop sw d a) = enc1 sw 0x74 d.val (mkAbf a.code 0 2) from rfl, decode_enc1 _ (by decide) (by omega)]
  refine Laws.RoundTrip.of_body rfl ?_ hw
  simp [decBody, decHeap, Fields.a, Fields.b, Fields.f]
theorem Laws.RoundTrip.hist (sw : Bool) (sz : Sz) (pg : PReg) (a : Src) (b : VReg) :
    Laws.RoundTrip.Statement (.hist sw sz pg a b) := by
  intro hw _
  rw [show encode (.hist sw sz pg a b) = enc2 sw 0x75 0 (mkAbf a.code (vCode b) 0) (mkM 0 0 0 0 pg.val sz.code) from rfl, decode_enc2 _ (by decide) (by decide)]
  refine Laws.RoundTrip.of_body rfl ?_ hw
  simp [decBody, decHist, Fields.a, Fields.b, Fields.f, sizedM]
theorem Laws.RoundTrip.histOvf (sw : Bool) (sz : Sz) (pg : PReg) (a : Src) (b : VReg) :
    Laws.RoundTrip.Statement (.histOvf sw sz pg a b) := by
  intro hw _
  rw [show encode (.histOvf sw sz pg a b) = enc2 sw 0x75 0 (mkAbf a.code (vCode b) 1) (mkM 0 0 0 0 pg.val sz.code) from rfl, decode_enc2 _ (by decide) (by decide)]
  refine Laws.RoundTrip.of_body rfl ?_ hw
  simp [decBody, decHist, Fields.a, Fields.b, Fields.f, sizedM]
theorem Laws.RoundTrip.remapw (sw : Bool) (a : Src) (b : Src) :
    Laws.RoundTrip.Statement (.remapw sw a b) := by
  intro hw _
  rw [show encode (.remapw sw a b) = enc1 sw 0x76 0 (mkAbf a.code b.code 0) from rfl, decode_enc1 _ (by decide) (by decide)]
  refine Laws.RoundTrip.of_body rfl ?_ hw
  simp [decBody, decRemap, Fields.a, Fields.b, Fields.f]
theorem Laws.RoundTrip.remapx (sw : Bool) (a : Src) :
    Laws.RoundTrip.Statement (.remapx sw a) := by
  intro hw _
  rw [show encode (.remapx sw a) = enc1 sw 0x76 0 (mkAbf a.code 0 1) from rfl, decode_enc1 _ (by decide) (by decide)]
  refine Laws.RoundTrip.of_body rfl ?_ hw
  simp [decBody, decRemap, Fields.a, Fields.b, Fields.f]
theorem Laws.RoundTrip.mcfg (sw : Bool) (tag : BitVec 6) (a : Src) :
    Laws.RoundTrip.Statement (.mcfg sw tag a) := by
  intro hw _
  rw [show encode (.mcfg sw tag a) = enc2 sw 0x78 tag.toNat (mkAbf a.code 0 0) 0 from rfl, decode_enc2 _ (by decide) (by omega)]
  refine Laws.RoundTrip.of_body rfl ?_ hw
  simp [decBody, decMcfg, Fields.a, Fields.b, Fields.f]
theorem Laws.RoundTrip.mzero (sw : Bool) (tag : BitVec 6) (mask : BitVec 8) :
    Laws.RoundTrip.Statement (.mzero sw tag mask) := by
  intro hw _
  rw [show encode (.mzero sw tag mask) = enc2 sw 0x78 tag.toNat (mkAbf 0 0 1) mask.toNat from rfl, decode_enc2 _ (by decide) (by omega)]
  refine Laws.RoundTrip.of_body rfl ?_ hw
  simp [decBody, decMcfg, Fields.a, Fields.b, Fields.f]
theorem Laws.RoundTrip.mlda (sw : Bool) (tag : BitVec 6) (a : Src) (b : Src) (mc : Bool) (buf : Bool) (tr : Bool) (g : BitVec 3) (pe : BitVec 10) :
    Laws.RoundTrip.Statement (.mlda sw tag a b mc buf tr g pe) := by
  intro hw _
  rw [show encode (.mlda sw tag a b mc buf tr g pe) = enc3 sw 0x79 tag.toNat (mkAbf a.code b.code 0) (mc.toNat * 32768 + buf.toNat * 16384 + tr.toNat * 8192 + g.toNat * 1024 + pe.toNat) 0 from rfl, decode_enc3 _ (by decide) (by omega)]
  refine Laws.RoundTrip.of_body rfl ?_ hw
  have := Bool.toNat_lt mc
  have := Bool.toNat_lt buf
  have := Bool.toNat_lt tr
  have := g.isLt
  have := pe.isLt
  simp [decBody, decMld, Fields.a, Fields.b, Fields.f]
  exact ⟨bit_eq (by omega), bit_eq (by omega), bit_eq (by omega), ofNat_eq (by omega), ofNat_eq (by omega)⟩
theorem Laws.RoundTrip.mldb (sw : Bool) (tag : BitVec 6) (a : Src) (b : Src) (mc : Bool) (buf : Bool) (tr : Bool) (g : BitVec 3) (pe : BitVec 10) :
    Laws.RoundTrip.Statement (.mldb sw tag a b mc buf tr g pe) := by
  intro hw _
  rw [show encode (.mldb sw tag a b mc buf tr g pe) = enc3 sw 0x79 tag.toNat (mkAbf a.code b.code 1) (mc.toNat * 32768 + buf.toNat * 16384 + tr.toNat * 8192 + g.toNat * 1024 + pe.toNat) 0 from rfl, decode_enc3 _ (by decide) (by omega)]
  refine Laws.RoundTrip.of_body rfl ?_ hw
  have := Bool.toNat_lt mc
  have := Bool.toNat_lt buf
  have := Bool.toNat_lt tr
  have := g.isLt
  have := pe.isLt
  simp [decBody, decMld, Fields.a, Fields.b, Fields.f]
  exact ⟨bit_eq (by omega), bit_eq (by omega), bit_eq (by omega), ofNat_eq (by omega), ofNat_eq (by omega)⟩
theorem Laws.RoundTrip.mldacc (sw : Bool) (tag : BitVec 6) (a : Src) (acc : BitVec 3) (pe : BitVec 10) :
    Laws.RoundTrip.Statement (.mldacc sw tag a acc pe) := by
  intro hw _
  rw [show encode (.mldacc sw tag a acc pe) = enc3 sw 0x79 tag.toNat (mkAbf a.code 0 2) (acc.toNat * 1024 + pe.toNat) 0 from rfl, decode_enc3 _ (by decide) (by omega)]
  refine Laws.RoundTrip.of_body rfl ?_ hw
  simp [decBody, decMld, Fields.a, Fields.b, Fields.f]
theorem Laws.RoundTrip.mmap (sw : Bool) (tag : BitVec 6) (acc : BitVec 3) (ab : Bool) (bb : Bool) :
    Laws.RoundTrip.Statement (.mmap sw tag acc ab bb) := by
  intro hw _
  rw [show encode (.mmap sw tag acc ab bb) = enc1 sw 0x7A tag.toNat (mkAbf acc.toNat (bb.toNat * 2 + ab.toNat) 0) from rfl, decode_enc1 _ (by decide) (by omega)]
  refine Laws.RoundTrip.of_body rfl ?_ hw
  have := Bool.toNat_lt bb
  have := Bool.toNat_lt ab
  have := acc.isLt
  simp [decBody, decMma, Fields.a, Fields.b, Fields.f, show bb.toNat * 2 + ab.toNat < 64 from by omega, show bb.toNat * 2 + ab.toNat < 4 from by omega, show acc.toNat < 8 from by omega]
  exact bit_eq (by omega)
theorem Laws.RoundTrip.mmah (sw : Bool) (tag : BitVec 6) (acc : BitVec 3) (ab : Bool) (bb : Bool) :
    Laws.RoundTrip.Statement (.mmah sw tag acc ab bb) := by
  intro hw _
  rw [show encode (.mmah sw tag acc ab bb) = enc1 sw 0x7A tag.toNat (mkAbf acc.toNat (bb.toNat * 2 + ab.toNat) 1) from rfl, decode_enc1 _ (by decide) (by omega)]
  refine Laws.RoundTrip.of_body rfl ?_ hw
  have := Bool.toNat_lt bb
  have := Bool.toNat_lt ab
  have := acc.isLt
  simp [decBody, decMma, Fields.a, Fields.b, Fields.f, show bb.toNat * 2 + ab.toNat < 64 from by omega, show bb.toNat * 2 + ab.toNat < 4 from by omega, show acc.toNat < 8 from by omega]
  exact bit_eq (by omega)
theorem Laws.RoundTrip.mmas (sw : Bool) (tag : BitVec 6) (acc : BitVec 3) (ab : Bool) (bb : Bool) :
    Laws.RoundTrip.Statement (.mmas sw tag acc ab bb) := by
  intro hw _
  rw [show encode (.mmas sw tag acc ab bb) = enc1 sw 0x7A tag.toNat (mkAbf acc.toNat (bb.toNat * 2 + ab.toNat) 2) from rfl, decode_enc1 _ (by decide) (by omega)]
  refine Laws.RoundTrip.of_body rfl ?_ hw
  have := Bool.toNat_lt bb
  have := Bool.toNat_lt ab
  have := acc.isLt
  simp [decBody, decMma, Fields.a, Fields.b, Fields.f, show bb.toNat * 2 + ab.toNat < 64 from by omega, show bb.toNat * 2 + ab.toNat < 4 from by omega, show acc.toNat < 8 from by omega]
  exact bit_eq (by omega)
theorem Laws.RoundTrip.mst (sw : Bool) (tag : BitVec 6) (rm : Rm) (sat : Bool) (a : Src) (acc : BitVec 3) (pe : BitVec 10) :
    Laws.RoundTrip.Statement (.mst sw tag rm sat a acc pe) := by
  intro hw _
  rw [show encode (.mst sw tag rm sat a acc pe) = enc3 sw 0x7B tag.toNat (mkAbf a.code 0 0) (acc.toNat * 8192 + pe.toNat) (mkM 0 rm.code sat.toNat 0 0 0) from rfl, decode_enc3 _ (by decide) (by omega)]
  refine Laws.RoundTrip.of_body rfl ?_ hw
  have := acc.isLt
  have := pe.isLt
  simp [decBody, decMst, Fields.a, Fields.b, Fields.f, roundM, show (acc.toNat * 8192 + pe.toNat) / 1024 % 8 = 0 from by omega]
  exact ofNat_eq (by omega)
theorem Laws.RoundTrip.mstq (sw : Bool) (tag : BitVec 6) (rm : Rm) (a : Src) (b : Src) (acc : BitVec 3) (pe : BitVec 10) :
    Laws.RoundTrip.Statement (.mstq sw tag rm a b acc pe) := by
  intro hw _
  rw [show encode (.mstq sw tag rm a b acc pe) = enc3 sw 0x7B tag.toNat (mkAbf a.code b.code 1) (acc.toNat * 8192 + pe.toNat) (mkM 0 rm.code 0 0 0 0) from rfl, decode_enc3 _ (by decide) (by omega)]
  refine Laws.RoundTrip.of_body rfl ?_ hw
  have := acc.isLt
  have := pe.isLt
  simp [decBody, decMst, Fields.a, Fields.b, Fields.f, roundM, show (acc.toNat * 8192 + pe.toNat) / 1024 % 8 = 0 from by omega]
  exact ofNat_eq (by omega)
theorem Laws.RoundTrip.mscl (sw : Bool) (tag : BitVec 6) (rm : Rm) (sat : Bool) (a : Src) (acc : BitVec 3) :
    Laws.RoundTrip.Statement (.mscl sw tag rm sat a acc) := by
  intro hw _
  rw [show encode (.mscl sw tag rm sat a acc) = enc3 sw 0x7B tag.toNat (mkAbf a.code 0 2) (acc.toNat * 8192) (mkM 0 rm.code sat.toNat 0 0 0) from rfl, decode_enc3 _ (by decide) (by omega)]
  refine Laws.RoundTrip.of_body rfl ?_ hw
  have := acc.isLt
  simp [decBody, decMst, Fields.a, Fields.b, Fields.f, roundM, show acc.toNat * 8192 / 1024 % 8 = 0 from by omega, show acc.toNat * 8192 % 1024 = 0 from by omega]
theorem Laws.RoundTrip.wfw (sw : Bool) (d : SReg) :
    Laws.RoundTrip.Statement (.wfw sw d) := by
  intro hw _
  rw [show encode (.wfw sw d) = enc2 sw 0x7C d.val (mkAbf 0 0 0) 0 from rfl, decode_enc2 _ (by decide) (by omega)]
  refine Laws.RoundTrip.of_body rfl ?_ hw
  simp [decBody, decSched, Fields.a, Fields.b, Fields.f]
theorem Laws.RoundTrip.disp (sw : Bool) (d : SReg) (a : SReg) (prio : BitVec 3) (sc : Scope) :
    Laws.RoundTrip.Statement (.disp sw d a prio sc) := by
  intro hw _
  rw [show encode (.disp sw d a prio sc) = enc2 sw 0x7C d.val (mkAbf a.val 0 1) (sc.code * 8 + prio.toNat) from rfl, decode_enc2 _ (by decide) (by omega)]
  refine Laws.RoundTrip.of_body rfl ?_ hw
  have := sc.code_lt
  have := prio.isLt
  simp [decBody, decSched, Fields.a, Fields.b, Fields.f, show sc.code * 8 + prio.toNat < 64 from by omega]
theorem Laws.RoundTrip.prog (sw : Bool) (a : Src) :
    Laws.RoundTrip.Statement (.prog sw a) := by
  intro hw _
  rw [show encode (.prog sw a) = enc2 sw 0x7C 0 (mkAbf a.code 0 2) 0 from rfl, decode_enc2 _ (by decide) (by decide)]
  refine Laws.RoundTrip.of_body rfl ?_ hw
  simp [decBody, decSched, Fields.a, Fields.b, Fields.f]
theorem Laws.RoundTrip.ckpt (sw : Bool) (sc : Scope) (a : Src) :
    Laws.RoundTrip.Statement (.ckpt sw sc a) := by
  intro hw _
  rw [show encode (.ckpt sw sc a) = enc2 sw 0x7C 0 (mkAbf a.code 0 3) (sc.code * 8) from rfl, decode_enc2 _ (by decide) (by decide)]
  refine Laws.RoundTrip.of_body rfl ?_ hw
  simp [decBody, decSched, Fields.a, Fields.b, Fields.f]
theorem Laws.RoundTrip.sleep (sw : Bool) (a : Src) :
    Laws.RoundTrip.Statement (.sleep sw a) := by
  intro hw _
  rw [show encode (.sleep sw a) = enc2 sw 0x7C 0 (mkAbf a.code 0 4) 0 from rfl, decode_enc2 _ (by decide) (by decide)]
  refine Laws.RoundTrip.of_body rfl ?_ hw
  simp [decBody, decSched, Fields.a, Fields.b, Fields.f]
theorem Laws.RoundTrip.bararv (sw : Bool) (sc : Scope) (n : BitVec 7) (g : BitVec 8) :
    Laws.RoundTrip.Statement (.bararv sw sc n g) := by
  intro hw _
  rw [show encode (.bararv sw sc n g) = enc2 sw 0x7D sc.code (mkAbf 0 0 0) (g.toNat * 128 + n.toNat) from rfl, decode_enc2 _ (by decide) (Nat.lt_of_lt_of_le sc.code_lt (by decide))]
  refine Laws.RoundTrip.of_body rfl ?_ hw
  simp [decBody, decBar, Fields.a, Fields.b, Fields.f]
theorem Laws.RoundTrip.barwt (sw : Bool) (sc : Scope) (n : BitVec 7) :
    Laws.RoundTrip.Statement (.barwt sw sc n) := by
  intro hw _
  rw [show encode (.barwt sw sc n) = enc2 sw 0x7D sc.code (mkAbf 0 0 1) n.toNat from rfl, decode_enc2 _ (by decide) (Nat.lt_of_lt_of_le sc.code_lt (by decide))]
  refine Laws.RoundTrip.of_body rfl ?_ hw
  simp [decBody, decBar, Fields.a, Fields.b, Fields.f]
theorem Laws.RoundTrip.barsync (sw : Bool) (sc : Scope) (n : BitVec 7) (g : BitVec 8) :
    Laws.RoundTrip.Statement (.barsync sw sc n g) := by
  intro hw _
  rw [show encode (.barsync sw sc n g) = enc2 sw 0x7D sc.code (mkAbf 0 0 2) (g.toNat * 128 + n.toNat) from rfl, decode_enc2 _ (by decide) (Nat.lt_of_lt_of_le sc.code_lt (by decide))]
  refine Laws.RoundTrip.of_body rfl ?_ hw
  simp [decBody, decBar, Fields.a, Fields.b, Fields.f]
theorem Laws.RoundTrip.trap (sw : Bool) (n : BitVec 16) :
    Laws.RoundTrip.Statement (.trap sw n) := by
  intro hw _
  rw [show encode (.trap sw n) = enc2 sw 0x7D 0 (mkAbf 0 0 3) n.toNat from rfl, decode_enc2 _ (by decide) (by decide)]
  refine Laws.RoundTrip.of_body rfl ?_ hw
  simp [decBody, decBar, Fields.a, Fields.b, Fields.f]
theorem Laws.RoundTrip.eret (sw : Bool) :
    Laws.RoundTrip.Statement (.eret sw) := by
  intro hw _
  rw [show encode (.eret sw) = enc2 sw 0x7D 0 (mkAbf 0 0 4) 0 from rfl, decode_enc2 _ (by decide) (by decide)]
  refine Laws.RoundTrip.of_body rfl ?_ hw
  simp [decBody, decBar, Fields.a, Fields.b, Fields.f]
theorem Laws.RoundTrip.ctlr (sw : Bool) (d : SReg) (num : BitVec 10) :
    Laws.RoundTrip.Statement (.ctlr sw d num) := by
  intro hw _
  rw [show encode (.ctlr sw d num) = enc2 sw 0x7E d.val (mkAbf 0 0 0) num.toNat from rfl, decode_enc2 _ (by decide) (by omega)]
  refine Laws.RoundTrip.of_body rfl ?_ hw
  simp [decBody, decSys, Fields.a, Fields.b, Fields.f]
theorem Laws.RoundTrip.ctlw (sw : Bool) (num : BitVec 10) (a : Src) :
    Laws.RoundTrip.Statement (.ctlw sw num a) := by
  intro hw _
  rw [show encode (.ctlw sw num a) = enc2 sw 0x7E 0 (mkAbf a.code 0 1) num.toNat from rfl, decode_enc2 _ (by decide) (by decide)]
  refine Laws.RoundTrip.of_body rfl ?_ hw
  simp [decBody, decSys, Fields.a, Fields.b, Fields.f]
theorem Laws.RoundTrip.tdef (sw : Bool) (a : SReg) (b : Src) (loge : BitVec 2) (id : BitVec 12) :
    Laws.RoundTrip.Statement (.tdef sw a b loge id) := by
  intro hw _
  rw [show encode (.tdef sw a b loge id) = enc2 sw 0x7E 0 (mkAbf a.val b.code 2) (loge.toNat * 4096 + id.toNat) from rfl, decode_enc2 _ (by decide) (by decide)]
  refine Laws.RoundTrip.of_body rfl ?_ hw
  simp [decBody, decSys, Fields.a, Fields.b, Fields.f]
theorem Laws.RoundTrip.tlbpin (sw : Bool) (sc : Scope) (d : SReg) (a : SReg) :
    Laws.RoundTrip.Statement (.tlbpin sw sc d a) := by
  intro hw _
  rw [show encode (.tlbpin sw sc d a) = enc2 sw 0x7E d.val (mkAbf a.val 0 3) (sc.code * 8) from rfl, decode_enc2 _ (by decide) (by omega)]
  refine Laws.RoundTrip.of_body rfl ?_ hw
  simp [decBody, decSys, Fields.a, Fields.b, Fields.f]
theorem Laws.RoundTrip.tlbinv (sw : Bool) (d : SReg) (a : SReg) (b : Src) (force : Bool) :
    Laws.RoundTrip.Statement (.tlbinv sw d a b force) := by
  intro hw _
  rw [show encode (.tlbinv sw d a b force) = enc2 sw 0x7E d.val (mkAbf a.val b.code 4) force.toNat from rfl, decode_enc2 _ (by decide) (by omega)]
  refine Laws.RoundTrip.of_body rfl ?_ hw
  simp [decBody, decSys, Fields.a, Fields.b, Fields.f]
theorem Laws.RoundTrip.lineFetch (t : Nat) : Laws.RoundTrip.Statement (.lineFetch t) := Laws.RoundTrip.of_step rfl
theorem Laws.RoundTrip.deferredResultReturn (t : Nat) (id : Nat) : Laws.RoundTrip.Statement (.deferredResultReturn t id) := Laws.RoundTrip.of_step rfl
theorem Laws.RoundTrip.switchPointCommit (t : Nat) : Laws.RoundTrip.Statement (.switchPointCommit t) := Laws.RoundTrip.of_step rfl
theorem Laws.RoundTrip.asyncCauseDelivery (t : Nat) : Laws.RoundTrip.Statement (.asyncCauseDelivery t) := Laws.RoundTrip.of_step rfl
theorem Laws.RoundTrip.parklong (t : Nat) : Laws.RoundTrip.Statement (.parklong t) := Laws.RoundTrip.of_step rfl
theorem Laws.RoundTrip.translationWalkEnd (router : Nat) (vk : Nat) (page : Nat) : Laws.RoundTrip.Statement (.translationWalkEnd router vk page) := Laws.RoundTrip.of_step rfl
theorem Laws.RoundTrip.accessAtHome (src : HomeSrc) : Laws.RoundTrip.Statement (.accessAtHome src) := Laws.RoundTrip.of_step rfl
theorem Laws.RoundTrip.syncretry (core : Nat) (id : Nat) : Laws.RoundTrip.Statement (.syncretry core id) := Laws.RoundTrip.of_step rfl
theorem Laws.RoundTrip.syncRequestRepresent (core : Nat) (id : Nat) : Laws.RoundTrip.Statement (.syncRequestRepresent core id) := Laws.RoundTrip.of_step rfl
theorem Laws.RoundTrip.watchReread (core : Nat) (id : Nat) : Laws.RoundTrip.Statement (.watchReread core id) := Laws.RoundTrip.of_step rfl
theorem Laws.RoundTrip.gatherEngineServe (core : Nat) (id : Nat) : Laws.RoundTrip.Statement (.gatherEngineServe core id) := Laws.RoundTrip.of_step rfl
theorem Laws.RoundTrip.sendArrival (t : Nat) (id : Nat) : Laws.RoundTrip.Statement (.sendArrival t id) := Laws.RoundTrip.of_step rfl
theorem Laws.RoundTrip.revocationEffective (t : Nat) : Laws.RoundTrip.Statement (.revocationEffective t) := Laws.RoundTrip.of_step rfl
theorem Laws.RoundTrip.capbadStop (vd : Nat) (team : Nat) : Laws.RoundTrip.Statement (.capbadStop vd team) := Laws.RoundTrip.of_step rfl
theorem Laws.RoundTrip.copyDispatch (core : Nat) (id : Nat) : Laws.RoundTrip.Statement (.copyDispatch core id) := Laws.RoundTrip.of_step rfl
theorem Laws.RoundTrip.copyComplete (core : Nat) (id : Nat) : Laws.RoundTrip.Statement (.copyComplete core id) := Laws.RoundTrip.of_step rfl
theorem Laws.RoundTrip.matrixEntryStart (core : Nat) (id : Nat) : Laws.RoundTrip.Statement (.matrixEntryStart core id) := Laws.RoundTrip.of_step rfl
theorem Laws.RoundTrip.matrixEntryComplete (core : Nat) (id : Nat) : Laws.RoundTrip.Statement (.matrixEntryComplete core id) := Laws.RoundTrip.of_step rfl
theorem Laws.RoundTrip.multicastDelivery (core : Nat) (id : Nat) (dest : Nat) : Laws.RoundTrip.Statement (.multicastDelivery core id dest) := Laws.RoundTrip.of_step rfl
theorem Laws.RoundTrip.planTrigger (vk : Nat) : Laws.RoundTrip.Statement (.planTrigger vk) := Laws.RoundTrip.of_step rfl
theorem Laws.RoundTrip.planFireStart (vk : Nat) (plan : Nat) (member : Nat) : Laws.RoundTrip.Statement (.planFireStart vk plan member) := Laws.RoundTrip.of_step rfl
theorem Laws.RoundTrip.planFiringComplete (vk : Nat) (plan : Nat) (member : Nat) : Laws.RoundTrip.Statement (.planFiringComplete vk plan member) := Laws.RoundTrip.of_step rfl
theorem Laws.RoundTrip.sillageDelivery (op : Nat) (idx : Nat) (path : List Nat) : Laws.RoundTrip.Statement (.sillageDelivery op idx path) := Laws.RoundTrip.of_step rfl
theorem Laws.RoundTrip.sillageTransferComplete (op : Nat) : Laws.RoundTrip.Statement (.sillageTransferComplete op) := Laws.RoundTrip.of_step rfl
theorem Laws.RoundTrip.retraceChunkArrival (op : Nat) (idx : Nat) (detoured : Bool) : Laws.RoundTrip.Statement (.retraceChunkArrival op idx detoured) := Laws.RoundTrip.of_step rfl
theorem Laws.RoundTrip.accordEmit (router : Nat) (port : Nat) : Laws.RoundTrip.Statement (.accordEmit router port) := Laws.RoundTrip.of_step rfl
theorem Laws.RoundTrip.retraceComplete (op : Nat) : Laws.RoundTrip.Statement (.retraceComplete op) := Laws.RoundTrip.of_step rfl
theorem Laws.RoundTrip.dispPostArrival (id : Nat) : Laws.RoundTrip.Statement (.dispPostArrival id) := Laws.RoundTrip.of_step rfl
theorem Laws.RoundTrip.dispenserBind (cluster : Nat) (vd : Nat) (team : Nat) : Laws.RoundTrip.Statement (.dispenserBind cluster vd team) := Laws.RoundTrip.of_step rfl
theorem Laws.RoundTrip.sleepWake (t : Nat) : Laws.RoundTrip.Statement (.sleepWake t) := Laws.RoundTrip.of_step rfl
theorem Laws.RoundTrip.barrierArrivalCounted (id : Nat) : Laws.RoundTrip.Statement (.barrierArrivalCounted id) := Laws.RoundTrip.of_step rfl
theorem Laws.RoundTrip.barrierPhaseComplete (vd : Nat) (team : Nat) (n : Nat) (g : Nat) : Laws.RoundTrip.Statement (.barrierPhaseComplete vd team n g) := Laws.RoundTrip.of_step rfl
theorem Laws.RoundTrip.ckptRecord (id : Nat) : Laws.RoundTrip.Statement (.ckptRecord id) := Laws.RoundTrip.of_step rfl
theorem Laws.RoundTrip.bucketAccrual (arb : Nat) : Laws.RoundTrip.Statement (.bucketAccrual arb) := Laws.RoundTrip.of_step rfl
theorem Laws.RoundTrip.arbiterGrant (arb : Nat) (offers : List Offer) : Laws.RoundTrip.Statement (.arbiterGrant arb offers) := Laws.RoundTrip.of_step rfl
theorem Laws.RoundTrip.rateEpoch (pkg : Nat) : Laws.RoundTrip.Statement (.rateEpoch pkg) := Laws.RoundTrip.of_step rfl
theorem Laws.RoundTrip.progressAdditionApplied (id : Nat) : Laws.RoundTrip.Statement (.progressAdditionApplied id) := Laws.RoundTrip.of_step rfl
theorem Laws.RoundTrip.doorbell (fn : Nat) (q : Nat) (val : Nat) : Laws.RoundTrip.Statement (.doorbell fn q val) := Laws.RoundTrip.of_step rfl
theorem Laws.RoundTrip.launchEntry (fn : Nat) (q : Nat) : Laws.RoundTrip.Statement (.launchEntry fn q) := Laws.RoundTrip.of_step rfl
theorem Laws.RoundTrip.launchSelect (vk : Nat) : Laws.RoundTrip.Statement (.launchSelect vk) := Laws.RoundTrip.of_step rfl
theorem Laws.RoundTrip.launchBind (vk : Nat) : Laws.RoundTrip.Statement (.launchBind vk) := Laws.RoundTrip.of_step rfl
theorem Laws.RoundTrip.bootTreeForward (vd : Nat) (team : Nat) (core : Nat) : Laws.RoundTrip.Statement (.bootTreeForward vd team core) := Laws.RoundTrip.of_step rfl
theorem Laws.RoundTrip.threadStart (vd : Nat) (team : Nat) (core : Nat) : Laws.RoundTrip.Statement (.threadStart vd team core) := Laws.RoundTrip.of_step rfl
theorem Laws.RoundTrip.teamComplete (vd : Nat) (team : Nat) : Laws.RoundTrip.Statement (.teamComplete vd team) := Laws.RoundTrip.of_step rfl
theorem Laws.RoundTrip.preemptEntry (fn : Nat) (q : Nat) : Laws.RoundTrip.Statement (.preemptEntry fn q) := Laws.RoundTrip.of_step rfl
theorem Laws.RoundTrip.preemptDeadline (vd : Nat) (team : Nat) : Laws.RoundTrip.Statement (.preemptDeadline vd team) := Laws.RoundTrip.of_step rfl
theorem Laws.RoundTrip.discard (vd : Nat) (team : Nat) : Laws.RoundTrip.Statement (.discard vd team) := Laws.RoundTrip.of_step rfl
theorem Laws.RoundTrip.saveComplete (vd : Nat) (team : Nat) : Laws.RoundTrip.Statement (.saveComplete vd team) := Laws.RoundTrip.of_step rfl
theorem Laws.RoundTrip.invalidateEntry (fn : Nat) (q : Nat) : Laws.RoundTrip.Statement (.invalidateEntry fn q) := Laws.RoundTrip.of_step rfl
theorem Laws.RoundTrip.defineHandle (fn : Nat) (q : Nat) : Laws.RoundTrip.Statement (.defineHandle fn q) := Laws.RoundTrip.of_step rfl
theorem Laws.RoundTrip.dropHandle (fn : Nat) (q : Nat) : Laws.RoundTrip.Statement (.dropHandle fn q) := Laws.RoundTrip.of_step rfl
theorem Laws.RoundTrip.answer (fn : Nat) (q : Nat) : Laws.RoundTrip.Statement (.answer fn q) := Laws.RoundTrip.of_step rfl
theorem Laws.RoundTrip.hostAnswerTimeout (token : Nat) : Laws.RoundTrip.Statement (.hostAnswerTimeout token) := Laws.RoundTrip.of_step rfl
theorem Laws.RoundTrip.tlbinvDeadline (id : Nat) : Laws.RoundTrip.Statement (.tlbinvDeadline id) := Laws.RoundTrip.of_step rfl
theorem Laws.RoundTrip.eventRingDrain (fn : Nat) (r : Nat) : Laws.RoundTrip.Statement (.eventRingDrain fn r) := Laws.RoundTrip.of_step rfl
theorem Laws.RoundTrip.eheadWrite (fn : Nat) (r : Nat) (val : Word) : Laws.RoundTrip.Statement (.eheadWrite fn r val) := Laws.RoundTrip.of_step rfl
theorem Laws.RoundTrip.ectlWrite (fn : Nat) (r : Nat) (val : Word) : Laws.RoundTrip.Statement (.ectlWrite fn r val) := Laws.RoundTrip.of_step rfl
theorem Laws.RoundTrip.qctlEn (fn : Nat) (q : Nat) (en : Bool) : Laws.RoundTrip.Statement (.qctlEn fn q en) := Laws.RoundTrip.of_step rfl
theorem Laws.RoundTrip.qctlRst (fn : Nat) (q : Nat) : Laws.RoundTrip.Statement (.qctlRst fn q) := Laws.RoundTrip.of_step rfl
theorem Laws.RoundTrip.vdCreate (vk : Nat) : Laws.RoundTrip.Statement (.vdCreate vk) := Laws.RoundTrip.of_step rfl
theorem Laws.RoundTrip.vdDestroy (vk : Nat) : Laws.RoundTrip.Statement (.vdDestroy vk) := Laws.RoundTrip.of_step rfl
theorem Laws.RoundTrip.vdReenable (vk : Nat) : Laws.RoundTrip.Statement (.vdReenable vk) := Laws.RoundTrip.of_step rfl
theorem Laws.RoundTrip.l2useWrite (vk : Nat) (val : Word) : Laws.RoundTrip.Statement (.l2useWrite vk val) := Laws.RoundTrip.of_step rfl
theorem Laws.RoundTrip.l2limWrite (vk : Nat) (val : Word) : Laws.RoundTrip.Statement (.l2limWrite vk val) := Laws.RoundTrip.of_step rfl
theorem Laws.RoundTrip.rateWrite (vk : Nat) (cls : RateClass) (val : Word) : Laws.RoundTrip.Statement (.rateWrite vk cls val) := Laws.RoundTrip.of_step rfl
theorem Laws.RoundTrip.qpriWrite (vk : Nat) (val : Word) : Laws.RoundTrip.Statement (.qpriWrite vk val) := Laws.RoundTrip.of_step rfl
theorem Laws.RoundTrip.slotMapWrite (vk : Nat) (core : Nat) (val : BitVec 8) : Laws.RoundTrip.Statement (.slotMapWrite vk core val) := Laws.RoundTrip.of_step rfl
theorem Laws.RoundTrip.grantMapWrite (vk : Nat) (core : Nat) (val : BitVec 32) : Laws.RoundTrip.Statement (.grantMapWrite vk core val) := Laws.RoundTrip.of_step rfl
theorem Laws.RoundTrip.rmodeWrite (pkg : Nat) (vd : Option Nat) (val : Word) : Laws.RoundTrip.Statement (.rmodeWrite pkg vd val) := Laws.RoundTrip.of_step rfl
theorem Laws.RoundTrip.registerWrite (fn : Nat) (off : Nat) (val : Word) : Laws.RoundTrip.Statement (.registerWrite fn off val) := Laws.RoundTrip.of_step rfl
theorem Laws.RoundTrip.hostHdmRead (vk : Nat) (off : Nat) (len : Nat) : Laws.RoundTrip.Statement (.hostHdmRead vk off len) := Laws.RoundTrip.of_step rfl
theorem Laws.RoundTrip.hostHdmWrite (vk : Nat) (off : Nat) (bytes : List Byte) : Laws.RoundTrip.Statement (.hostHdmWrite vk off bytes) := Laws.RoundTrip.of_step rfl
theorem Laws.RoundTrip.spdmMessage (fn : Nat) (nonce : BitVec 256) : Laws.RoundTrip.Statement (.spdmMessage fn nonce) := Laws.RoundTrip.of_step rfl
theorem Laws.RoundTrip.throttleChange (pkg : Nat) (cores : List Nat) (factor : Nat) : Laws.RoundTrip.Statement (.throttleChange pkg cores factor) := Laws.RoundTrip.of_step rfl
theorem Laws.RoundTrip.thermalLimit (pkg : Nat) (massif : Nat) (layer : Nat) : Laws.RoundTrip.Statement (.thermalLimit pkg massif layer) := Laws.RoundTrip.of_step rfl
theorem Laws.RoundTrip.flitReplay (link : Nat) : Laws.RoundTrip.Statement (.flitReplay link) := Laws.RoundTrip.of_step rfl
theorem Laws.RoundTrip.linkDown (link : Nat) : Laws.RoundTrip.Statement (.linkDown link) := Laws.RoundTrip.of_step rfl
theorem Laws.RoundTrip.thopeifBringup (pkg : Nat) (link : Nat) : Laws.RoundTrip.Statement (.thopeifBringup pkg link) := Laws.RoundTrip.of_step rfl
theorem Laws.RoundTrip.thopeifLinkFail (pkg : Nat) (link : Nat) (auth : Bool) : Laws.RoundTrip.Statement (.thopeifLinkFail pkg link auth) := Laws.RoundTrip.of_step rfl
theorem Laws.RoundTrip.timeSync (offsets : List (Nat × Nat)) : Laws.RoundTrip.Statement (.timeSync offsets) := Laws.RoundTrip.of_step rfl
theorem Laws.RoundTrip.scrub (pkg : Nat) (mem : ScrubMem) (unit : Nat) (found : ScrubFind) : Laws.RoundTrip.Statement (.scrub pkg mem unit found) := Laws.RoundTrip.of_step rfl
theorem Laws.RoundTrip.wearSample (pkg : Nat) (cluster : Nat) (index : Nat) (failing : Option Nat) : Laws.RoundTrip.Statement (.wearSample pkg cluster index failing) := Laws.RoundTrip.of_step rfl
theorem Laws.RoundTrip.lifeRecompute (pkg : Nat) : Laws.RoundTrip.Statement (.lifeRecompute pkg) := Laws.RoundTrip.of_step rfl
theorem Laws.RoundTrip.securityAlarm (pkg : Nat) (src : AlarmSource) (vd : Option Nat) : Laws.RoundTrip.Statement (.securityAlarm pkg src vd) := Laws.RoundTrip.of_step rfl
theorem Laws.RoundTrip.olushOutput (pkg : Nat) (erase : Bool) (cluster : Nat) (val : Nat) : Laws.RoundTrip.Statement (.olushOutput pkg erase cluster val) := Laws.RoundTrip.of_step rfl
theorem Laws.RoundTrip.packageReset (pkg : Nat) : Laws.RoundTrip.Statement (.packageReset pkg) := Laws.RoundTrip.of_step rfl
theorem Laws.RoundTrip.layerTemperatureChange (pkg : Nat) (massif : Nat) (layer : Nat) (band : Nat) : Laws.RoundTrip.Statement (.layerTemperatureChange pkg massif layer band) := Laws.RoundTrip.of_step rfl

end Sys2Proof
end

