-- ==== Sys2Proof/Laws/Registers.lean ====
section
/-! SUPPORT. What the shared operations over registers, the result buffer and the position of a thread do. -/

namespace Sys2Proof.Machine

/-! ### Presence and parking -/

theorem empties_nil {t : Thread} {rs : List Reg} (h : ∀ r ∈ rs, Reg.isFull t r = true) : t.empties rs = [] := by
  simp only [Thread.empties, List.map_eq_nil_iff, List.filter_eq_nil_iff]
  intro r hr; simp [h r hr]

/-- With every source present the instruction goes on (R84). -/
theorem withRegs_present {s : State} {rs : List Reg} (h : Present s rs) (k : State → State) : s.withRegs rs k = k s := by
  rw [State.withRegs, empties_nil h.1]
  simp [h.2]

/-- With a slot in the result buffer the instruction goes on (R46). -/
theorem withSlot_room {s : State} (h : HasSlot s) (k : State → State) : s.withSlot k = k s := by
  rw [State.withSlot]; exact if_pos h

/-! ### Writing one register -/

theorem bit_or_shift {w : Nat} (x : BitVec w) (i j : Nat) (hj : j < w) :
    (x ||| (1#w <<< i)).getLsbD j = (x.getLsbD j || decide (i = j)) := by
  rw [BitVec.getLsbD_or, BitVec.getLsbD_shiftLeft, BitVec.getLsbD_one]
  congr 1
  simp only [hj, decide_true, Bool.true_and]
  by_cases h : i = j
  · subst h; simp; omega
  · have : ¬ (j < i) → j - i ≠ 0 := by omega
    by_cases h2 : j < i <;> simp [h, h2]; omega

@[simp] theorem hasS_put (t : Thread) (r q : SReg) (x : Word) :
    (t.putReg (.s r x)).hasS q = (t.hasS q || decide (r = q)) := by
  simp only [Thread.putReg, Thread.hasS, bit_or_shift _ _ _ q.isLt, Fin.ext_iff]
@[simp] theorem hasV_put (t : Thread) (r q : VReg) (x : VWord) :
    (t.putReg (.v r x)).hasV q = (t.hasV q || decide (r = q)) := by
  simp only [Thread.putReg, Thread.hasV, bit_or_shift _ _ _ q.isLt, Fin.ext_iff]
@[simp] theorem getS_put (t : Thread) (r q : SReg) (x : Word) :
    (t.putReg (.s r x)).getS q = if r = q then x else t.getS q := by
  simp [Thread.putReg, Thread.getS, Vector.getElem_set, Fin.ext_iff]
@[simp] theorem getV_put (t : Thread) (r q : VReg) (x : VWord) :
    (t.putReg (.v r x)).getV q = if r = q then x else t.getV q := by
  simp [Thread.putReg, Thread.getV, Vector.getElem_set, Fin.ext_iff]
theorem hasP_put (t : Thread) (r q : PReg) (x : PWord) :
    (t.putReg (.p r x)).hasP q = (t.hasP q || decide (r = q)) := by
  by_cases h : r.val = 0
  · simp only [Thread.putReg, h, if_true, Thread.hasP, Fin.ext_iff]
    by_cases h2 : q.val = 0 <;> simp [h2]; omega
  · simp only [Thread.putReg, h, if_false, Thread.hasP, bit_or_shift _ _ _ q.isLt, Fin.ext_iff, Bool.or_assoc]
theorem getP_put (t : Thread) (r q : PReg) (x : PWord) :
    (t.putReg (.p r x)).getP q = if r = q ∧ r.val ≠ 0 then x else t.getP q := by
  by_cases h : r.val = 0
  · simp [Thread.putReg, h]
  · by_cases h2 : q.val = 0
    · have : r ≠ q := by intro e; subst e; exact h h2
      simp [h, Thread.getP, h2, this]
    · simp [Thread.putReg, h, Thread.getP, h2, Vector.getElem_set, Fin.ext_iff]

/-! ### The shape of each update of a thread -/

theorem supersede_shape (t : Thread) (r : Reg) : t.supersede r = { t with buf := (t.supersede r).buf } := rfl
theorem putS_shape (t : Thread) (r : SReg) (x : Word) :
    t.putReg (.s r x) = { t with sregs := (t.putReg (.s r x)).sregs, sFull := (t.putReg (.s r x)).sFull } := rfl
theorem putV_shape (t : Thread) (r : VReg) (x : VWord) :
    t.putReg (.v r x) = { t with vregs := (t.putReg (.v r x)).vregs, vFull := (t.putReg (.v r x)).vFull } := rfl
theorem putP_shape (t : Thread) (r : PReg) (x : PWord) :
    t.putReg (.p r x) = { t with pregs := (t.putReg (.p r x)).pregs, pFull := (t.putReg (.p r x)).pFull } := by
  simp only [Thread.putReg]; split <;> rfl

/-- Where the next head is depends on the position, the loops, the mode and the held lines alone. -/
theorem next_congr {t u : Thread} (h1 : t.pc = u.pc) (h2 : t.l0 = u.l0) (h3 : t.l1 = u.l1) (h4 : t.hm = u.hm)
    (h5 : t.line = u.line) (h6 : t.line2 = u.line2) :
    t.next.pc = u.next.pc ∧ t.next.l0 = u.next.l0 ∧ t.next.l1 = u.next.l1 := by
  have hl : ∀ a, t.lineAt a = u.lineAt a := by intro a; unfold Thread.lineAt; rw [h5, h6]
  have hh : t.headAfter u.pc = u.headAfter u.pc := by unfold Thread.headAfter; rw [hl]
  simp only [Thread.next, h1, h2, h3, h4, hh, and_self]

/-! ### Completion in sequence and with a taken transfer -/

/-- A completed instruction changes nothing but its thread's position and waits. -/
theorem finish_shape (s : State) (sw : Bool) : s.finish sw = { s with thr := { s.thr with
    pc := s.thr.next.pc, l0 := s.thr.next.l0, l1 := s.thr.next.l1, st := (s.finish sw).thr.st, park := none, wait := .none,
    want := none, walkFail := [], stop := s.thr.stopped } } := rfl

/-- The same for a taken transfer to `x`. -/
theorem finishAt_shape (s : State) (sw : Bool) (x : Addr) : s.finishAt sw x = { s with thr := { s.thr with
    pc := x, l0 := (s.thr.goto x).l0, l1 := (s.thr.goto x).l1, st := (s.finishAt sw x).thr.st, park := none, wait := .none,
    want := none, walkFail := [], stop := s.thr.stopped } } := rfl

/-- Where the thread stands after a completed head (R24, R46). -/
theorem finish_stands {s u : State} (sw : Bool) (h : u.thr.stop = s.thr.stop) : Stands sw s (u.finish sw) := by
  have hs : u.thr.stopped = s.thr.stopped := by simp only [Thread.stopped, h]
  exact ⟨hs, rfl⟩
theorem finishAt_stands {s u : State} (sw : Bool) (x : Addr) (h : u.thr.stop = s.thr.stop) : Stands sw s (u.finishAt sw x) := by
  have hs : u.thr.stopped = s.thr.stopped := by simp only [Thread.stopped, h]
  exact ⟨hs, rfl⟩

/-! ### Simple results -/

/-- A simple scalar result and the next head (R44, R84). -/
theorem writeS_finish (s : State) (d : SReg) (x : Word) (sw : Bool) :
    WritesS s ((s.writeS d x).finish sw) d x ∧ InSequence sw s ((s.writeS d x).finish sw) := by
  have hn := next_congr (t := (s.writeS d x).thr) (u := s.thr) rfl rfl rfl rfl rfl rfl
  rw [finish_shape]
  refine ⟨⟨?_, ?_, ?_, ?_, ?_, rfl, rfl, rfl⟩, hn.1, hn.2.1, hn.2.2, rfl, rfl, rfl, rfl⟩
  · exact (getS_put _ d d x).trans (if_pos rfl)
  · exact (hasS_put _ d d x).trans (by simp)
  · intro r hr
    have hne : d ≠ r := fun e => hr (by simp [e])
    exact ⟨(getS_put _ d r x).trans (if_neg hne), (hasS_put _ d r x).trans (by simp [hne]; rfl)⟩
  · exact fun _ _ => ⟨rfl, rfl⟩
  · exact fun _ _ => ⟨rfl, rfl⟩

/-- A simple predicate result and the next head; one for `p0` is discarded (R38, R100). -/
theorem writeP_finish (s : State) (d : PReg) (x : PWord) (sw : Bool) :
    WritesP s ((s.writeP d x).finish sw) d x ∧ InSequence sw s ((s.writeP d x).finish sw) := by
  have hs : (s.writeP d x).thr = { s.thr with
      buf := (s.thr.supersede (.p d)).buf, pregs := (s.thr.putReg (.p d x)).pregs, pFull := (s.thr.putReg (.p d x)).pFull } := by
    show ((s.thr.supersede (.p d)).putReg (.p d x)) = _
    rw [putP_shape, supersede_shape]; simp only [Thread.putReg]; split <;> rfl
  have hw : s.writeP d x = { s with thr := (s.writeP d x).thr } := rfl
  have hn := next_congr (t := (s.writeP d x).thr) (u := s.thr) (by rw [hs]) (by rw [hs]) (by rw [hs]) (by rw [hs])
    (by rw [hs]) (by rw [hs])
  have hg (r : PReg) : ((s.writeP d x).finish sw).thr.getP r = (s.thr.putReg (.p d x)).getP r := by
    rw [finish_shape, hs]; unfold Thread.getP; rw [putP_shape]
  have hh (r : PReg) : ((s.writeP d x).finish sw).thr.hasP r = (s.thr.putReg (.p d x)).hasP r := by
    rw [finish_shape, hs]; unfold Thread.hasP; rw [putP_shape]
  refine ⟨⟨?_, ?_, ?_, ?_, ?_, ?_, ?_, ?_⟩, ?_⟩
  · rw [hg, getP_put]
    by_cases h : d = 0
    · subst h; simp [Thread.getP]
    · have h0 : d.val ≠ 0 := fun e => h (Fin.ext e)
      simp [h, h0]
  · rw [hh, hasP_put]; simp
  · rw [finish_shape, hs]; exact fun _ _ => ⟨rfl, rfl⟩
  · rw [finish_shape, hs]; exact fun _ _ => ⟨rfl, rfl⟩
  · intro r hr
    have hne : d ≠ r := fun e => hr (by simp [e])
    rw [hg, hh, getP_put, hasP_put]; simp [hne]
  · rw [finish_shape, hs]
  · rw [finish_shape, hw]; rfl
  · rw [finish_shape, hs]; rfl
  · exact ⟨hn.1, hn.2.1, hn.2.2, rfl, rfl, finish_stands sw (by rw [hs])⟩

/-- A simple vector result, whatever the generator's state. -/
theorem writeV_finish (s : State) (g : BitVec 32) (d : VReg) (x : VWord) (sw : Bool) :
    WritesV s (((s.modThr fun t => { t with rng := g }).writeV d x).finish sw) d x g ∧
      InSequence sw s (((s.modThr fun t => { t with rng := g }).writeV d x).finish sw) := by
  generalize hu : (s.modThr fun t => { t with rng := g }).writeV d x = u
  have hs : u.thr = { s.thr with
      rng := g, buf := (s.thr.supersede (.v d)).buf, vregs := (s.thr.putReg (.v d x)).vregs,
      vFull := (s.thr.putReg (.v d x)).vFull } := by subst hu; rfl
  have hw : u = { s with thr := u.thr } := by subst hu; rfl
  have hn := next_congr (t := u.thr) (u := s.thr) (by rw [hs]) (by rw [hs]) (by rw [hs]) (by rw [hs]) (by rw [hs]) (by rw [hs])
  rw [finish_shape]
  refine ⟨⟨?_, ?_, ?_, ?_, ?_, by rw [hs], by rw [hs], ?_, by rw [hs]; rfl⟩, hn.1, hn.2.1, hn.2.2, rfl, rfl,
    finish_stands (u := u) sw (by rw [hs])⟩
  · rw [hs]; exact (getV_put s.thr d d x).trans (if_pos rfl)
  · rw [hs]; exact (hasV_put s.thr d d x).trans (by simp)
  · rw [hs]; exact fun _ _ => ⟨rfl, rfl⟩
  · intro r hr
    have hne : d ≠ r := fun e => hr (by simp [e])
    rw [hs]
    exact ⟨(getV_put s.thr d r x).trans (if_neg hne), (hasV_put s.thr d r x).trans (by simp [hne])⟩
  · rw [hs]; exact fun _ _ => ⟨rfl, rfl⟩
  · rw [hw]; rfl

/-! ### Deferred results -/

/-- A deferred result enters the buffer; registers and the next head as before (R44, R45). -/
theorem defer_finish (s : State) (acq : Bool) (ws : List RegWrite) (done sw : Bool) :
    let t := (s.deferAs acq ws .plain done).finish sw
    Defers s t ws done acq ∧ t = { s with seq := s.seq + 1, thr := t.thr } ∧ InSequence sw s t := by
  have hn := next_congr (t := (s.deferAs acq ws .plain done).thr) (u := s.thr) rfl rfl rfl rfl rfl rfl
  exact ⟨⟨fun _ _ => ⟨rfl, rfl⟩, fun _ _ => ⟨rfl, rfl⟩, fun _ _ => ⟨rfl, rfl⟩, rfl, rfl⟩, rfl, hn.1, hn.2.1, hn.2.2, rfl, rfl, rfl, rfl⟩

/-! ### The shapes of instructions that compute from registers -/

theorem simple1_spec {s : State} {a : Src} (h : Present s (srcRegs a)) (sw : Bool) (d : SReg) (f : Word → Word) :
    WritesS s (simple1 sw d a f s) d (f (s.src a)) ∧ InSequence sw s (simple1 sw d a f s) := by
  rw [simple1, withRegs_present h]; exact writeS_finish s d _ sw

theorem simple2_spec {s : State} {a b : Src} (h : Present s (srcRegs a ++ srcRegs b)) (sw : Bool) (d : SReg)
    (f : Word → Word → Word) :
    WritesS s (simple2 sw d a b f s) d (f (s.src a) (s.src b)) ∧ InSequence sw s (simple2 sw d a b f s) := by
  rw [simple2, withRegs_present h]; exact writeS_finish s d _ sw

theorem deferred2_spec {s : State} {a b : Src} (h : Present s (srcRegs a ++ srcRegs b)) (hb : HasSlot s) (sw : Bool)
    (d : SReg) (f : Word → Word → Word) :
    Defers s (deferred2 sw d a b f s) [.s d (f (s.src a) (s.src b))] true ∧
      deferred2 sw d a b f s = { s with seq := s.seq + 1, thr := (deferred2 sw d a b f s).thr } ∧
      InSequence sw s (deferred2 sw d a b f s) := by
  rw [deferred2, withSlot_room hb, withRegs_present h]; exact defer_finish s false _ true sw

theorem pred1_spec {s : State} {a : PReg} (h : Present s [.p a]) (sw : Bool) (d : PReg) (f : PWord → PWord) :
    WritesP s (pred1 sw d a f s) d (f (s.thr.getP a)) ∧ InSequence sw s (pred1 sw d a f s) := by
  rw [pred1, withRegs_present h]; exact writeP_finish s d _ sw

theorem pred2_spec {s : State} {a b : PReg} (h : Present s [.p a, .p b]) (sw : Bool) (d : PReg)
    (f : PWord → PWord → PWord) :
    WritesP s (pred2 sw d a b f s) d (f (s.thr.getP a) (s.thr.getP b)) ∧ InSequence sw s (pred2 sw d a b f s) := by
  rw [pred2, withRegs_present h]; exact writeP_finish s d _ sw

theorem predS_spec {s : State} {a : PReg} (h : Present s [.p a]) (sw : Bool) (d : SReg) (f : PWord → Word) :
    WritesS s (predS sw d a f s) d (f (s.thr.getP a)) ∧ InSequence sw s (predS sw d a f s) := by
  rw [predS, withRegs_present h]; exact writeS_finish s d _ sw

/-! ### Parking -/

/-- With a source empty the instruction parks: registers, buffer, position and the world stay as they are (R84). -/
theorem withRegs_parks {s : State} {rs : List Reg} (h : ¬ ∀ r ∈ rs, Reg.isFull s.thr r = true) (k : State → State) :
    ∃ p, s.withRegs rs k = { s with thr := { s.thr with park := some p } } := by
  have : s.thr.empties rs ≠ [] := by
    intro e; apply h
    simpa [Thread.empties, List.filter_eq_nil_iff] using e
  rw [State.withRegs]
  cases he : s.thr.empties rs with
  | nil => exact absurd he this
  | cons c cs =>
    simp only [State.parkFor, State.modThr]
    cases s.thr.park <;> exact ⟨_, rfl⟩

end Sys2Proof.Machine
end

