-- ==== Sys2Proof/Laws/Traps.lean ====
section
/-! SUPPORT. What taking a trap does. -/

namespace Sys2Proof.Machine

/-- A synchronous cause with no result outstanding, outside handler mode, with a handler (R348). -/
theorem takeTrap_enters {s : State} (h : CanTrap s) (code : Nat) (epc : Addr) (tval : Word) :
    TrapsTo s (s.takeTrap false code epc tval none) code epc tval := by
  obtain ⟨h1, h2, h3⟩ := h
  have e : s.takeTrap false code epc tval none = s.modThr fun t =>
      { t with epc := epc &&& ~~~1#52, cause := causeWord false code, tval := tval, fsrc := t.fsrc, hm := true,
               st := .ready, pc := t.tvec, park := none, wait := .none, want := none, walkFail := [],
               stop := if t.stop = 1 then 2 else t.stop } := by
    rw [State.takeTrap, h1, h2, State.trapEnter]
    simp only [Bool.false_eq_true, if_false, List.isEmpty_nil, if_true, State.modThr_thr, Option.getD_none]
    exact if_neg h3
  rw [e]
  exact ⟨⟨fun _ _ => ⟨rfl, rfl⟩, fun _ _ => ⟨rfl, rfl⟩, fun _ _ => ⟨rfl, rfl⟩, rfl⟩, rfl, BitVec.zero_or, rfl, rfl, rfl,
    ⟨rfl, rfl⟩, rfl, rfl⟩

theorem trap_enters {s : State} (h : CanTrap s) (code : Nat) (tval : Word) :
    TrapsTo s (s.trap code tval) code s.thr.pc tval := takeTrap_enters h code _ tval

/-- A synchronous cause in handler mode is a double fault (R349). -/
theorem takeTrap_hm {s : State} (h : s.thr.hm = true) (async : Bool) (code : Nat) (epc : Addr) (tval : Word)
    (fsrc : Option Word) : s.takeTrap async code epc tval fsrc = s.doubleFault code tval := by
  rw [State.takeTrap, if_pos h]

end Sys2Proof.Machine
end

