-- ==== Sys2Proof/Tests/Slice0.lean ====
section
/-! SUPPORT. Tests of the model against the spec's own words and tables, and witnesses that the hypotheses of every clause of
the obligations can be met.

A witness `witness_x (h : Obligations.X) : True` applies clauses of the statement to a concrete state and concrete operands:
each `have` is one clause, and it is accepted only because every hypothesis of that clause is proved there for that state (by
`decide`, or by the lemma named). Nothing follows from a witness but that those hypotheses hold together. -/

open Sys2Proof Sys2Proof.Machine

namespace Sys2Proof.Tests

set_option Elab.async false

/-! ### Well-formedness: for each check a term that it refuses, beside one that it admits -/

theorem test_wf_refuses : ∀ i ∈ ([.sext false 1 (.s 2) 0, .zext false 1 (.s 2) 65, .vadd false .i32 .rz false 0 1 2 3,
    .vfma false .e4m3 .rne false 0 1 2 3 4, .vmulh false .f32 0 1 2 3, .vmin false .bpi 0 1 2 3, .vabs false .f32 true 0 1 2,
    .vand false .d 0 1 2 3, .vcmp false .f32 0 1 2 3 .ltu, .vsel false .d 0 1 2 3, .vext false .w 5 2 32, .vins false .d 1 (.s 2) 0,
    .vrot false .b 0 1 2 128, .vcvt false .bpi .f32 .rne false 0 1 2, .vqnt false .f32 .rne 0 7 1 2, .vqnt false .i8 .rne 0 0 1 2,
    .vdqnt false .f32 .rne false 0 0 2 1 2 (.s 3), .vdqnt false .i32 .rz false 0 2 0 1 2 (.s 3), .vredsum false .u8 .rs 0 1 2,
    .vscan false .f32 .rne true 0 1 2, .vrcp false .i32 .rne false 0 1 2, .vdot4 false .i8 .ru false 0 1 2 3 4] : List Instr),
    i.wf = false := by decide

theorem test_wf_refuses_rest : ∀ i ∈ ([.vld false .d 0 1 (.s 2) 0, .amo false .b .g .add .rlx 1 (.s 2) (.s 3) (.s 0),
    .amo false .d .g .fadd .rlx 1 (.s 2) (.s 3) (.s 0), .amo false .w .g .add .rlx 1 (.s 2) (.s 3) (.s 1),
    .redu false .i32 .rne true .max (.s 1) (.s 2), .redu false .f32 .rs false .add (.s 1) (.s 2), .waitge false .h .g 1 (.s 2) (.s 3) 0,
    .pref false (.s 1) (some (.s 0)) 0, .mintcap false 1 30 2, .landm false 0 0 3, .rwait false (.s 3) (.s 2),
    .rwait false (.s 3) (.v 4), .cpy false 1 29, .gathq false .d 0 1 (.s 2) 3, .mcast false 0 29 (.s 1) 1 false,
    .retrace false 0 30 (.s 1) 0 .f32 1 false, .retrace false 0 1 (.s 1) 2 .f32 1 false, .hist false .b 0 (.s 1) 2,
    .mlda false 0 (.s 1) (.s 2) false false false 1 1, .mldb false 0 (.s 1) (.s 2) false false true 5 1, .mst false 0 .rne false (.s 1) 0 0,
    .wfw false 29, .disp false 1 29 0 .g, .ctlr false 1 0x3FF, .ctlw false 0x027 (.s 1), .tdef false 31 (.s 1) 0 1,
    .tlbpin false .c 1 2, .tlbinv false 1 2 (.s 3) false] : List Instr), i.wf = false := by decide

theorem test_wf_admits : ∀ i ∈ ([.sext false 1 (.s 2) 64, .vext false .w 5 2 31, .vrot false .b 0 1 2 127,
    .vqnt false .f32 .rne 0 6 1 2, .vdqnt false .f32 .rne false 0 0 1 1 2 (.s 3), .redu false .i32 .rne true .add (.s 1) (.s 2),
    .amo false .d .g .cas .rlx 1 (.s 2) (.s 3) (.s 1), .mintcap false 1 28 3, .mintcap false 1 44 3, .rwait false (.v 2) (.v 2),
    .cpy false 1 28, .wfw false 28, .ctlr false 1 0x0B2, .tdef false 30 (.s 1) 3 1, .tlbinv false 1 2 (.s 3) true] : List Instr),
    i.wf = true := by decide

/-! ### Decoding: words that the spec writes out, or that its encoding tables give bit by bit, family by family -/

/-- R34, R43, R101: a head is S, TL, OP and D from bit 15 down; a BI unit is the distance in lines over the head's number. -/
theorem test_decode_control : ∀ e ∈ ([([0x0000], .nop false), ([0x2040, 0xFFE1], .br false 0x7FF 1), ([0x8200], .halt true),
    ([0x4080, 0x0800, 0x0045], .brz false (.s 2) 2 5), ([0x20C0, 0x0800], .jmp false (.s 2)), ([0x2107, 0x0045], .jal false 7 2 5),
    ([0x21C0, 0x0001], .lbrk false true)] : List (List Nat × Instr)), decode e.1 = .ok e.2 := by decide

theorem test_decode_scalar : ∀ e ∈ ([
    ([0x45B2, 0x0C02, 0xFFFF], .cmpi false (.p 2) (.s 3) 0xFFFF .lt), ([0x4605, 0x1800, 0x00C8], .bfx false 5 (.s 6) 8 3),
    ([0x468C, 0x0004, 0x0200], .liw false 12 0x02000004), ([0x46C8, 0x0400, 0x4001], .lix false 8 0x40010400)] :
      List (List Nat × Instr)), decode e.1 = .ok e.2 := by decide

theorem test_decode_vector : ∀ e ∈ ([
    ([0x6C61, 0x8A30, 0x9000, 0x7008], .vfma false .f32 .rne false 2 1 2 3 4),
    ([0x6F22, 0x8400, 0x01C2, 0xA000], .vqnt false .f32 .rne 0 2 2 1), ([0x6E05, 0x8801, 0x001F, 0x0002], .vext false .w 5 2 31),
    ([0x6F23, 0x8801, 0x140A, 0x7000], .vdqnt false .f32 .rne false 0 2 1 3 2 (.s 5))] : List (List Nat × Instr)),
    decode e.1 = .ok e.2 := by decide

theorem test_decode_memory_and_fabric : ∀ e ∈ ([
    ([0x7585, 0x0841, 0x0003, 0x0083], .amo false .d .g .add .acqrel 5 (.s 2) (.s 4) (.s 0)),
    ([0x7800, 0x5050, 0x0001, 0x0000], .send false (.s 20) (.s 5) 1), ([0x7800, 0x5062, 0x0000, 0x0080], .sendr false .g (.s 20) (.s 6) 0),
    ([0x5900, 0x0000, 0x0809], .landm false 9 0 2), ([0x38C8, 0x0000], .rclr false (.s 8)),
    ([0x38C0, 0x2092], .rwait false (.s 8) (.s 9))] : List (List Nat × Instr)), decode e.1 = .ok e.2 := by decide

theorem test_decode_engines : ∀ e ∈ ([
    ([0x3A01, 0x2000], .cpy false 1 8), ([0x3A83, 0x1C01], .twall false 3 (.s 7)), ([0x3C05, 0x1000], .tapeopen false 5 (.s 4)),
    ([0x3C00, 0x1401], .tapeclose false (.s 5)), ([0x5C47, 0x2050, 0x0002], .mcast false 7 8 (.s 5) 1 false),
    ([0x3CC3, 0x0800], .genbump false 3 (.s 2)), ([0x5C89, 0x3050, 0x0017], .retrace false 9 12 (.s 5) 0 .f32 1 false),
    ([0x3D00, 0x0830], .hsinit false (.s 2) (.s 3)), ([0x3D06, 0x0851], .hsift false 6 (.s 2) (.s 5)),
    ([0xBD07, 0x0802], .hpop true 7 (.s 2)), ([0x5E00, 0x0400, 0x0000], .mcfg false 0 (.s 1))] : List (List Nat × Instr)),
    decode e.1 = .ok e.2 := by decide

theorem test_decode_scheduling_and_system : ∀ e ∈ ([
    ([0x5F01, 0x2001, 0x0023], .disp false 1 8 3 .g), ([0x5F08, 0x0000, 0x0000], .wfw false 8),
    ([0x5F44, 0x0002, 0x0185], .barsync false .g 5 3), ([0x5F00, 0x1002, 0x0000], .prog false (.s 4)),
    ([0x5F00, 0x1403, 0x0020], .ckpt false .g (.s 5)), ([0x5F80, 0x20A2, 0x2005], .tdef false 8 (.s 10) 2 5)] :
      List (List Nat × Instr)), decode e.1 = .ok e.2 := by decide

/-! ## States for tests -/

def tS (xs : List (Nat × Word)) : Vector Word 32 := Vector.ofFn fun i => tblGet xs i.val (BitVec.ofNat 64 i.val)
def tThread (xs : List (Nat × Word)) : Thread :=
  { Thread.blank 0 with
    st := .ready, pc := 0x1002, tvec := 0x2002, team := 1,
    sregs := tS xs, sFull := BitVec.allOnes 32, vFull := BitVec.allOnes 16, pFull := BitVec.allOnes 8,
    vregs := Vector.ofFn fun i => BitVec.ofNat 1024 (i.val * ((2 ^ 1024 - 1) / 255)),
    pregs := Vector.ofFn fun i => BitVec.ofNat 128 (i.val * ((2 ^ 128 - 1) / 255)),
    line := some ⟨0x1000, 9 :: List.replicate 31 0⟩ }
def tTeam : Team :=
  { vd := 0, num := 1, pkg := 0, st := .bound, q := 0, token := 0, descAddr := 0, dep := none, uses := [], args := 0, pkgs := 1,
    spBase := 0, spSize := 0, fanout := 4, roles := [], places := [], tensors := [], modAddr := 0, inRing := false,
    seats := [⟨0, 0, 0⟩, ⟨1, 0, 1⟩], groups := [(0, [0, 1])], key := 7, spill := 0, ctxsave := 0, progTotal := 0, progDone := 0,
    mark := 0, cdone := 0, restarts := 0, segs := [], capbads := 0, t0 := 0, d0 := 0, loaded := [0], pre := none, shadows := [],
    heldLists := [], savedCores := [], counts := [], pins := [] }
def tState (xs : List (Nat × Word)) : State :=
  { State.reset with
    thr := tThread xs, teams := [tTeam], vds := [(0, { Vd.blank with isVd := true, ways := 16 })],
    threads := [(1, { tThread [] with id := 1, self := 1 })],
    cores := [(0, { Core.blank with grants := [(0, ⟨0, 48, 0xFF, 0xF⟩)] })],
    routers := [(0, ⟨[⟨0, 0, true, true, true, true, false, 0, []⟩], [], [], [], []⟩)], seq := 10 }
def tSpad : Word := 0x20000000000
def sM := tState [(2, tSpad + 0x100), (3, 0x1122334455667788), (4, 0x1000), (6, tSpad + 0x101), (7, tSpad + 0x30000), (8, 0x300000), (9, tSpad + 0x4000)]
def withPort (s : State) (p : List Access) : State := s.modCore 0 fun c => { c with port := p }
def okLocs (s : State) (items : List Item) : List Nat := match checkItems s s.thr items with | .ok l => l | _ => []
def lcg (n : Nat) : Nat → Nat
    | 0 => n % 2^32
    | k + 1 => (lcg n k * 1664525 + 1013904223) % 2^32
def rnd (bits seed : Nat) : Nat := (List.range (bits / 16)).foldl (fun acc k => acc * 65536 + (lcg (seed * 7919 + k * 104729) 3 / 4096 % 65536)) 0
def sMv : State := let s := sM; { s with thr := { s.thr with vregs := (s.thr.vregs.set 6 (BitVec.ofNat 1024 ((List.range 32).foldl (fun a k => a * 2^32 + (k * 5 % 32)) 0))).set 7 (BitVec.ofNat 1024 (rnd 1024 9)), pregs := (s.thr.pregs.set 3 (BitVec.ofNat 128 (rnd 128 5))).set 4 0 } }
def vit (s : State) (n : Nat) (pg : PReg) (m : Nat) (r w : Bool) (a : SReg) (f : Nat → Int) (fo : Forms) : List Item :=
  ((List.range m).filter fun i => activeLane (s.thr.getP pg) (8*n) i).map fun i => .one (BitVec.ofInt 52 ((((s.thr.getS a).setWidth 52 : Addr).toNat : Int) + f i) : Addr).toNat n r w fo
def tlb0 (s : State) : State := { s with routers := [] }
def lockd (s : State) : State := s.modCore 0 fun c => { c with locks := [⟨0, 0x20000000100, 0x20000000110, true, 99⟩] }
def sR := tState [(4, 0x1000), (6, tSpad + 0x140), (7, 0x2040), (3, 0x123)]
def reduL (s : State) (dst src : Nat) := okLocs s (reduDst s s.gc s.thr.vd dst ++ reduSrcItems s s.gc s.thr.vd src)
def tn : State := { sR with vds := [(0, { (sR.vd 0) with tensors := [(3, ⟨0x1000, 0x8000, 0x200, 4⟩)] })] }
def acc0 (k : AccKind) (loc len : Nat) (va : Addr) (data : List Byte) (dst : Option Reg) : Access :=
  ⟨20, 0, 0x1002, k, .g, false, false, dst, none, 0, [⟨0, va, loc, len, data⟩], false, false, 0, 0, false, false, [], 1⟩
def acc1 : Access := { acc0 .store (spadLoc 0 8) 8 (2^41+8) [1,2,3,4,5,6,7,8] none with id := 25, tid := 1 }
def sH (a : Access) (rest : List Access) : State := { withPort sM (a :: rest) with
   thr := { sM.thr with buf := [⟨20, 0x1002, [.s 5 0, .p 3 0], .plain, false, false, none, false⟩] },
   mem := [(dramLoc 0 0x1010, 0x81), (dramLoc 0 0x1013, 0x7F), (spadLoc 0 0x110, 0x34), (spadLoc 0 0x111, 0x12), (spadLoc 0 0x117, 0x80)],
   full := [spadLoc 0 0x118] }
/-- No VD of a state whose VDs all leave retrace off has it on. -/
theorem rmode0 {s : State} (h : ∀ e ∈ s.vds, e.2.rmode.getLsbD 0 = false) (k : Nat) : (s.vd k).rmode.getLsbD 0 = false := by
  have go : ∀ t : Tbl Vd, (∀ e ∈ t, e.2.rmode.getLsbD 0 = false) → ((tblFind t k).getD Vd.blank).rmode.getLsbD 0 = false := by
    intro t
    induction t with
    | nil => intro _; show Vd.blank.rmode.getLsbD 0 = false; decide
    | cons e l ih =>
      intro ht
      simp only [tblFind]
      split
      · exact ht e (List.mem_cons_self ..)
      · exact ih fun e he => ht e (List.mem_cons_of_mem _ he)
  exact go s.vds h
/-- Tokens of VD 0 at the copy engine of core 0. -/
def rich (s : State) : State :=
  { s with arbiters := [(arbKey 1 0, { Arbiter.blank with buckets := [(0, { Bucket.zero with level := 100 })] })] }

/-! ### Parts that several sections use -/

def specials : List Nat := [0x7F800000, 0xFF800000, 0x7FC00000, 0x00000001, 0x80000000, 0x7F7FFFFF, 0x3F800000, 0xBF800000, 0, 0x00800000, 0x7C007C00, 0xFC00FE00, 0x7F807F80, 0x80000001, 0x807F7E81]
def sV : State := let s := tState [(2, 0x123456789), (3, 0x7E)]; { s with thr := { s.thr with
    rng := 0xACE1,
    vregs := Vector.ofFn fun i => if i.val = 3 then BitVec.ofNat 1024 ((List.range 32).foldl (fun a k => a * 2^32 + specials.getD (k % 15) 0) 0) else
       if i.val = 5 then BitVec.ofNat 1024 ((List.range 32).foldl (fun a k => a * 2^32 + specials.getD (k * 7 % 15) 0) 0) else BitVec.ofNat 1024 (rnd 1024 i.val),
    pregs := Vector.ofFn fun i => BitVec.ofNat 128 (rnd 128 (i.val+77)) } }
def desc (w0 slot src dst cnt : Nat) : List Byte := toBytes 8 w0 ++ toBytes 8 slot ++ toBytes 8 src ++ toBytes 8 dst ++ toBytes 8 cnt ++ List.replicate 24 0
def d1 : List Byte := desc (1 + 4 * 16 + 9 * 2^24) 0 0x1000 0x1100 4
def entB (type flags token : Nat) (ws : List Nat) : List Byte := let b := toBytes 1 type ++ toBytes 1 flags ++ toBytes 2 0 ++ toBytes 4 token ++ ws.flatMap (toBytes 8); b ++ List.replicate (64 - b.length) 0
def qX : Queue := { Queue.blank with base := 0x3000, log := 6, head := 63, tail := 2, en := true }
def qS (q : Nat) (x : Queue) (rings : Vector Ring 2) (e : List Byte) (fn : Nat := 1) : State :=
  let s := tState []
  let s : State := { s with fns := [(0, ⟨Vector.replicate 8 Queue.blank, Vector.ofFn fun i => if i.val = 0 then { Ring.blank with en := true, base := 0x9000 } else Ring.blank, []⟩), (1, ⟨Vector.replicate 8 Queue.blank, rings, []⟩)], vds := [(0, { (s.vd 0) with qpri := 0xFAC688, lrate := 0x0102030405060708 }), (3, {Vd.blank with isVd := true})] }
  let s := s.modQueue fn q fun _ => x
  { s with mem := memWriteN s.mem (hostLoc fn (x.base + 64 * x.head)) e }
def rX : Ring := { Ring.blank with base := 0x5000, log := 6, ehead := 5, etail := 63, en := true, seq := 2^32 }
def rr (g : Ring) : Vector Ring 2 := (Vector.replicate 2 Ring.blank).set 0 g
def ptes (l : List (Nat × Nat)) (m : List Host.Cell) : List Host.Cell := l.foldl (fun m e => memWriteN m (dramLoc 0 (sysBase + 8 * e.1)) (toBytes 8 e.2)) m
def RWl : Nat := 2^63 + 2^62 + 2^61 + 2^60
def RXl : Nat := 2^63 + 2^62 + 2^61 + 2^59 + 0x200000
def textB : List Byte := (List.range 64).map fun i => BitVec.ofNat 8 (i + 1)
def dscB (w : List Nat) : List Byte := let b := w.flatMap (toBytes 8); b ++ List.replicate (64 - b.length) 0
def grpMem (m : List Host.Cell) : List Host.Cell := memWriteN (memWriteN m (dramLoc 0 0x8000) (toBytes 4 2 ++ toBytes 4 0 ++ toBytes 8 0x9000)) (dramLoc 0 0x9000) (toBytes 4 3 ++ toBytes 4 1)
def dw0 : List Nat := [0x10000, 0x30000, 0x8000, 1, 0, 0x40000, 1]
def launch0 : List Byte := entB 1 0 7 [0x20000]
def base : Thread := { tThread [(5, 77)] with id := 1, self := 1, line := none }
def pe (allow deadline : Nat) : List Byte := entB 2 0 9 [1 + allow * 2^32, deadline]
def tmP : Team := { tTeam with seats := [⟨0,0,0⟩,⟨1,0,1⟩], progTotal := 100, progDone := 30, cdone := 10, t0 := 5, d0 := 0, ctxsave := 0x0000100000050000, q := 2 }
def p0 : PreReq := ⟨1, 2, 9, 100, 7, 0, false, false, some 5⟩

/-! ## One step, with results worked out by hand from the rules named -/

namespace Results

def after (i : Instr) (s : State) : State := match exec i s with
  | .next t => t
  | _ => s
def sA : State := tState [(2, 0x8000000000000001), (3, 0xFFFFFFFFFFFFFFFD), (4, 63)]
/-- 1.0 in every word of `v2`, 2.0 in every word of `v3`. -/
def sF : State :=
  let s := tState []
  let word (x : Nat) : VWord := BitVec.ofNat 1024 ((2 ^ 1024 - 1) / (2 ^ 32 - 1) * x)
  { s with thr := { s.thr with vregs := (s.thr.vregs.set 2 (word 0x3F800000)).set 3 (word 0x40000000) } }

/-- R85 to R94: wrap-around, signs and the widest shift. -/
theorem test_scalar_results : ∀ e ∈ ([(.add false 5 (.s 2) (.s 3), 0x7FFFFFFFFFFFFFFE), (.sub false 5 (.s 2) (.s 3), 0x8000000000000004),
    (.mul false 5 (.s 2) (.s 3), 0x7FFFFFFFFFFFFFFD), (.mulhu false 5 (.s 2) (.s 2), 0x4000000000000001),
    (.sar false 5 (.s 2) (.s 4), 0xFFFFFFFFFFFFFFFF), (.shr false 5 (.s 2) (.s 4), 1), (.shl false 5 (.s 2) (.s 4), 0x8000000000000000),
    (.rotl false 5 (.s 2) (.s 4), 0xC000000000000000), (.andn false 5 (.s 3) (.s 4), 0xFFFFFFFFFFFFFFC0),
    (.min false 5 (.s 2) (.s 3), 0x8000000000000001), (.maxu false 5 (.s 2) (.s 3), 0xFFFFFFFFFFFFFFFD), (.clz false 5 (.s 4), 58),
    (.ctz false 5 (.s 3), 0), (.popc false 5 (.s 3), 63), (.addi false 5 (.s 4) 0xFFFF, 62), (.bfx false 5 (.s 3) 0 3, 0xD)] :
      List (Instr × Word)), (after e.1 sA).thr.getS 5 = e.2 := by decide +kernel

/-- R43, R101: a branch names a line by its distance and a head in it. -/
theorem test_branch_targets : (after (.br false 0x7FF 1) sA).thr.pc = 0xFC2 ∧ (after (.br false 2 5) sA).thr.pc = 0x108A := by
  decide +kernel

/-- R117, R122: products of bytes saturate; an inactive lane keeps the old element of the destination. -/
theorem test_vmul_i8_saturates :
    let v := (after (.vmul false .i8 .rz true 7 1 15 15) (tState [])).thr.getV 1
    lane v 8 0 = 127 ∧ lane v 8 2 = 127 ∧ lane v 8 3 = 1 := by decide +kernel

theorem test_vadd_f32 : lane ((after (.vadd false .f32 .rne false 0 1 2 3) sF).thr.getV 1) 32 31 = 0x40400000 ∧
    lane ((after (.vmul false .f32 .rne false 0 1 3 3) sF).thr.getV 1) 32 0 = 0x40800000 := by decide +kernel

/-- R347, R348: TRAP saves the head after it and goes to the handler. -/
theorem test_trap_enters : let t := (after (.trap false 0x1234) sA).thr
    t.pc = 0x2002 ∧ t.epc = 0x1004 ∧ t.hm = true := by decide +kernel

/-- R180: a store of one byte at its home leaves its neighbours. -/
theorem test_store_one_byte :
    let t := after (.accessAtHome (.port 0 20 0)) (sH (acc0 .store (dramLoc 0 0x1010) 1 0x1010 [0x55] none) [])
    memRead t.mem (dramLoc 0 0x1010) = 0x55 ∧ memRead t.mem (dramLoc 0 0x1013) = 0x7F := by decide +kernel

/-- R196: a swap writes the operand. -/
theorem test_swap :
    let t := after (.accessAtHome (.port 0 20 0)) (sH (acc0 (.amo .swap 0x80000000 0) (dramLoc 0 0x1010) 4 0x1010 [] (some (.s 5))) [acc1])
    memReadN t.mem (dramLoc 0 0x1010) 4 = [0, 0, 0, 0x80] := by decide +kernel

end Results

/-- R419: a host-window access that the IOMMU refuses is XLATE; another page of the window is reached. -/
theorem test_iommu_refuses : ∀ s : State, s = { State.reset with iommu := [(fnOfVd 0, 3)] } →
    resolve s 0 0 [] true false false (2 ^ 51 + 0x3008) = .xlate ∧
    resolve s 0 0 [] true false false (2 ^ 51 + 0x4008) = .loc (hostLoc (fnOfVd 0) 0x4008) := by rintro _ rfl; decide +kernel

/-! ## Witnesses -/

/-! ### Scalar instructions -/

namespace Scalar

def sA := tState [(2, 0x8000000000000001), (3, 0xFFFFFFFFFFFFFFFD)]

theorem witness_scalarResults (h : Obligations.ScalarResults) : True := by
  have := h.1 _ (List.Mem.head _) false 5 (.s 2) (.s 3) sA (by decide +kernel)
  have := h.2.1 false 5 (.s 2) sA (by decide +kernel) _ (List.mem_append_right _ (List.mem_flatMap.mpr ⟨1, (by decide +kernel), List.Mem.head _⟩))
  have := h.2.2.1 false 5 (.s 2) 0x8123 7 9 sA (by decide +kernel) _ (List.Mem.head _)
  have := h.2.2.2.1 false 5 (.s 2) (.s 3) 7 9 sA (by decide +kernel)
  have := h.2.2.2.2.1 false 5 (.s 2) sA (by decide +kernel)
  have := (h.2.2.2.2.2.1 false 5 0x8001 0x80000001 sA).1 (by decide +kernel)
  have := (h.2.2.2.2.2.1 false 5 0x8001 0x80000001 sA).2 (by decide +kernel)
  have := h.2.2.2.2.2.2 false 5 (.s 2) (.s 3) 0 sA (by decide +kernel)
  trivial

theorem witness_divisionsAreDeferred (h : Obligations.DivisionsAreDeferred) : True := by
  have := h _ (List.Mem.head _) false 5 (.s 2) (.s 3) sA (by decide +kernel) (by decide +kernel)
  trivial

theorem witness_comparisonsPredicatesAndPointers (h : Obligations.ComparisonsPredicatesAndPointers) : True := by
  have := ((h.1 false (.s 2) (.s 3) 0x8000 .eq sA).1 (by decide +kernel)).1 5
  have := ((h.1 false (.s 2) (.s 3) 0x8000 .eq sA).1 (by decide +kernel)).2 2
  have := ((h.1 false (.s 2) (.s 3) 0x8000 .eq sA).2 (by decide +kernel)).1 5
  have := ((h.1 false (.s 2) (.s 3) 0x8000 .eq sA).2 (by decide +kernel)).2 0
  have := (h.2.1 false 1 2 3 5 sA (by decide +kernel)).1 (by decide +kernel) _ (List.Mem.head _)
  have := h.2.1 false 1 2 3 5 sA (by decide +kernel)
  trivial

end Scalar

/-! ### Control, traps and control registers -/

namespace Control

def sA := tState [(2, 0x2041), (3, 0x3002), (4, 0)]
def lps (k0 k1 : Nat) (st : Addr) : State := let s := sA; { s with thr := { s.thr with l0 := ⟨true, 0x1002, st, BitVec.ofNat 64 k0⟩, l1 := ⟨true, 0x1004, st, BitVec.ofNat 64 k1⟩ } }
def hm (s : State) : State := { s with thr := { s.thr with hm := true, epc := 0x5002, cause := 9, tval := 8 } }
def bf (s : State) : State := { s with thr := { s.thr with buf := [⟨3, 0x900, [.s 7 99, .s 5 4], .plain, true, false, none, false⟩] } }
def sw (a : After) : State := let s := sA; { s with thr := { s.thr with st := .switchWait a, hm := a == .eret, buf := [⟨3, 0x900, [.s 7 99, .p 3 4], .plain, true, true, none, false⟩] } }
def nov (s : State) : State := { s with thr := { s.thr with tvec := 0 } }
def pt (x y : Word) := tState [(2, x), (3, y)]

theorem witness_branchesAndJumps (h : Obligations.BranchesAndJumps) : True := by
  have := h.1 false (.s 4) 0x7FF 5 sA
  have := (h.1 false (.s 3) 0x7FF 5 sA).2.2 (by decide +kernel)
  have := h.2.1 false 3 (.s 3) 0x7FF 5 sA
  have := (h.2.1 false 3 (.s 3) 0 0 sA).2 (by decide +kernel) (by decide +kernel)
  have := (h.2.2 false 5 (.s 2) sA (by decide +kernel) (by decide +kernel) (by decide +kernel)) _ (List.Mem.head _)
  trivial

theorem witness_loopArmsItsContext (h : Obligations.LoopArmsItsContext) : True := by
  have := (h false true (.s 3) 0 1 ⟨0x1000, 9 :: List.replicate 31 0⟩ sA).1 (by decide +kernel) (by decide +kernel)
  have := (h false true (.s 3) 0 10 ⟨0x1000, 9 :: List.replicate 31 0⟩ sA).2.1 (by decide +kernel) (by decide +kernel) (by decide +kernel) (.inr (by decide +kernel)) (by decide +kernel)
  have := ((h false true (.s 3) 0 9 ⟨0x1000, 9 :: List.replicate 31 0⟩ sA).2.2 (by decide +kernel) (by decide +kernel) (by decide +kernel) (by decide +kernel) (show _ from by decide +kernel)).1 (by decide +kernel) (by decide +kernel)
  have := ((h false true (.s 4) 0 9 ⟨0x1000, 9 :: List.replicate 31 0⟩ sA).2.2 (by decide +kernel) (by decide +kernel) (by decide +kernel) (by decide +kernel) (show _ from by decide +kernel)).2.1 (by decide +kernel) (by decide +kernel)
  have := ((h false true (.s 3) 0 9 ⟨0x1000, 9 :: List.replicate 31 0⟩ (lps 2 3 0x1002)).2.2 (by decide +kernel) (by decide +kernel) (by decide +kernel) (by decide +kernel) (show _ from by decide +kernel)).2.2 (by decide +kernel) (by decide +kernel)
  trivial

theorem witness_loopBreakDisarms (h : Obligations.LoopBreakDisarms) : True := by
  have := h false true sA
  trivial

theorem witness_loopMatchingAndTransfers (h : Obligations.LoopMatchingAndTransfers) : True := by
  have := (h.1 (hm (lps 2 3 0x1002)).thr).1 (by decide +kernel)
  have := ((h.1 (sA).thr).2 (by decide +kernel)).1 (by decide +kernel)
  have := ((h.1 (lps 2 2 0x1002).thr).2 (by decide +kernel)).2.1 (by decide +kernel)
  have := ((h.1 ((fun t : Thread => { t with l0 := { t.l0 with arm := false } }) (lps 2 1 0x1002).thr)).2 (by decide +kernel)).2.2.1 (by decide +kernel)
  have := ((h.1 (lps 2 1 0x1002).thr).2 (by decide +kernel)).2.2.2.1 (by decide +kernel)
  have := ((h.1 (lps 1 1 0x1002).thr).2 (by decide +kernel)).2.2.2.2.1 (by decide +kernel)
  have := ((h.1 ((fun t : Thread => { t with l1 := { t.l1 with arm := false } }) (lps 1 2 0x1002).thr)).2 (by decide +kernel)).2.2.2.2.2.2 (by decide +kernel)
  have := ((h.1 ((fun t : Thread => { t with l1 := { t.l1 with arm := false } }) (lps 2 2 0x1002).thr)).2 (by decide +kernel)).2.2.2.2.2.1 (by decide +kernel)
  have := (h.2 (lps 2 3 0x2000).thr 0x1001).2 (by decide +kernel) true
  have := (h.2 (hm (lps 2 3 0x2000)).thr 0x1001).1 (by decide +kernel)
  trivial

theorem witness_trapsAndEnds (h : Obligations.TrapsAndEnds) : True := by
  have := (h.1 false 0x1234 sA).1 (by decide +kernel)
  have := (h.1 false 0x1234 sA).2.2 (by decide +kernel)
  have := (h.1 false 0x1234 (hm sA)).2.1 (by decide +kernel) (by decide +kernel)
  have := h.2.1 0x2000 1 2 3 sA (by decide +kernel)
  have := (h.2.2.1 false 5 1 2 3 4 (.s 2) (bf sA) (by decide +kernel)).1 (by decide +kernel)
  have := ((h.2.2.1 false 5 1 2 3 4 (.s 2) (bf sA) (by decide +kernel)).1 (by decide +kernel)).2.2.1 (by decide +kernel) (by decide +kernel)
  have := (h.2.2.1 false 5 1 2 3 4 (.s 2) (bf (hm sA)) (by decide +kernel)).2 (by decide +kernel)
  have := (h.2.2.2.1 false 3 0x1004 9 none (sw (.trap false 3 0x1004 9 none)) (by decide +kernel) (by decide +kernel)).1 (by decide +kernel) (by decide +kernel)
  have := (h.2.2.2.1 false 3 0x1004 9 none (sw .eret) (by decide +kernel) (by decide +kernel)).2.1 (by decide +kernel)
  have := (h.2.2.2.1 false 3 0x1004 9 none (sw .halt) (by decide +kernel) (by decide +kernel)).2.2 (by decide +kernel)
  have := h.2.2.2.2.1 false 5 1 2 3 4 (.s 2) (nov sA) (by decide +kernel) (by decide +kernel) (by decide +kernel)
  have := (h.2.2.2.2.1 false 5 1 2 3 4 (.s 2) (nov sA) (by decide +kernel) (by decide +kernel) (by decide +kernel)).2.2.2 (by decide +kernel) (by decide +kernel)
  have := h.2.2.2.2.2.1 false 5 1 2 3 4 (.s 2) (hm sA) (by decide +kernel)
  have := (h.2.2.2.2.2.1 false 5 1 2 3 4 (.s 2) (hm sA) (by decide +kernel)).2.2 (by decide +kernel) (by decide +kernel)
  have := (h.2.2.2.2.2.2 false sA).1 (by decide +kernel)
  have := (h.2.2.2.2.2.2 false (bf sA)).2 (by decide +kernel)
  trivial

theorem witness_controlRegisters (h : Obligations.ControlRegisters) : True := by
  have := h.1 false 5 sA (by decide +kernel) (by decide +kernel) _ (List.Mem.tail _ (List.Mem.head _))
  have := h.2.1 false 5 0x016 (.s 2) sA (by decide +kernel) (by decide +kernel)
  have := (h.2.2 false 0x021 (.s 2) sA (by decide +kernel)).1 _ (List.Mem.tail _ (List.Mem.head _))
  have := (h.2.2 false 0x021 (.s 2) (hm sA) (by decide +kernel)).2.1 (by decide +kernel) _ (List.Mem.tail _ (List.Mem.head _))
  have := (h.2.2 false 0x021 (.s 2) sA (by decide +kernel)).2.2.1 0x024 (by decide +kernel)
  have := (h.2.2 false 0x021 (.s 2) sA (by decide +kernel)).2.2.2.1 (by decide +kernel) (by decide +kernel)
  have := (h.2.2 false 0x021 (.s 2) sA (by decide +kernel)).2.2.2.2.1 _ (List.Mem.tail _ (List.Mem.head _))
  have := (h.2.2 false 0x021 (.s 2) sA (by decide +kernel)).2.2.2.2.2.2.1 (by decide +kernel)
  have := (h.2.2 false 0x021 (.s 2) sA (by decide +kernel)).2.2.2.2.2.2.2 (by decide +kernel)
  trivial

theorem witness_comparisonsPredicatesAndPointers (h : Obligations.ComparisonsPredicatesAndPointers) : True := by
  have := (h.2.2 false 5 (.s 2) (.s 3) (pt 0x5280000000001000 5) (by decide +kernel)).1 (by decide +kernel)
  have := (h.2.2 false 5 (.s 2) (.s 3) (pt 0x00D0000000001000 4) (by decide +kernel)).2 (by decide +kernel) (by decide +kernel)
  trivial

end Control

/-! ### Vector elements and lanes -/

namespace VectorOps

theorem witness_elementResults (h : Obligations.ElementResults) : True := by
  have := (h.1 false .i8 .rne false 1 1 3 3 5 sV).1 (by decide +kernel)
  have := (h.1 false .i8 .rne false 1 1 3 3 5 sV).2 (by decide +kernel)
  have := (h.2.1 false .i8 true 5 1 3 7 sV).1 (by decide +kernel)
  have := (h.2.1 false .i8 true 5 1 3 7 sV).2 (by decide +kernel)
  have := (h.2.2 false .b 3 1 3 7 sV).1 (by decide +kernel)
  have := (h.2.2 false .b 3 1 3 7 sV).2 (by decide +kernel)
  trivial

theorem witness_laneMovesAndComparisons (h : Obligations.LaneMovesAndComparisons) : True := by
  have := (h.1 false .b 3 1 3 7 5 (.s 2) 0 sV (by decide +kernel)).1 (by decide +kernel)
  have := (h.1 false .b 3 1 3 7 5 (.s 2) 0 sV (by decide +kernel)).2.1 (by decide +kernel)
  have := (h.1 false .b 3 1 3 7 5 (.s 2) 0 sV (by decide +kernel)).2.2.1 (by decide +kernel)
  have := (h.1 false .b 3 1 3 7 5 (.s 2) 0 sV (by decide +kernel)).2.2.2.1 (by decide +kernel)
  have := (h.1 false .b 3 1 3 7 5 (.s 2) 0 sV (by decide +kernel)).2.2.2.2.1 (by decide +kernel)
  have := (h.1 false .b 3 1 3 7 5 (.s 2) 0 sV (by decide +kernel)).2.2.2.2.2 (by decide +kernel)
  have := h.2 false .i8 3 2 3 5 .eq sV (by decide +kernel)
  trivial

theorem witness_conversionsAndBlocks (h : Obligations.ConversionsAndBlocks) : True := by
  have := h.1 false .i8 .i8 .rz false 1 1 3 sV (by decide +kernel)
  have := (h.2 false .i32 .rne false 3 0 0 1 3 (.s 3) sV).1 (by decide +kernel) (by decide +kernel)
  have := (h.2 false .i32 .rne true 3 0 0 1 7 (.s 3) sV).2 (by decide +kernel) (by decide +kernel)
  trivial

end VectorOps

/-! ### Reductions and scans -/

namespace Reduce

theorem witness_reductionsAndScans (h : Obligations.ReductionsAndScans) : True := by
  have := (h.1 false .i8 .rne 0 5 3 sV (by decide +kernel)).1 (by decide +kernel)
  have := (h.1 false .i8 .rne 0 5 3 sV (by decide +kernel)).2.1 (by decide +kernel)
  have := (h.1 false .i8 .rne 0 5 3 sV (by decide +kernel)).2.2.1 (by decide +kernel)
  have := (h.1 false .f16 .rne 0 5 3 sV (by decide +kernel)).2.2.2.1 (by decide +kernel)
  have := (h.1 false .f16 .rne 0 5 3 sV (by decide +kernel)).2.2.2.2.1 (by decide +kernel)
  have := (h.1 false .f16 .rne 0 5 3 sV (by decide +kernel)).2.2.2.2.2 (by decide +kernel)
  have := h.2 false .f16 .rne false 0 5 3 sV (by decide +kernel)
  trivial

end Reduce

/-! ### Special functions and dot products -/

namespace Special

theorem witness_specialFunctionsAndDotProducts (h : Obligations.SpecialFunctionsAndDotProducts) : True := by
  have := h.1 _ (List.Mem.head _) false .f16 .rne false 1 1 3 sV (by decide +kernel) (by decide +kernel)
  have := h.2.1.2.2.2.2.2.1 3 5 (by decide +kernel)
  have := h.2.1.2.2.2.2.2.2.1 (-7) (by decide +kernel)
  have := h.2.1.2.2.2.2.2.2.2.2.1 true 3 5 (by decide +kernel)
  have := h.2.1.2.2.2.2.2.2.2.2.2 3 5 2 6 (by decide +kernel) (by decide +kernel)
  have := h.2.2 false .i8 .rne true 0 1 3 5 5 sV (by decide +kernel)
  trivial

end Special

/-! ### Loads, stores and their checks -/

namespace Access

def noperm : State := { sM with routers := [(0, ⟨[⟨0, 0, true, false, false, true, false, 0, []⟩], [], [], [], []⟩)] }
def hostNo : State := { sM with iommu := [(0, 0)] }
def shareM : State := sM.modVd 0 fun v => { v with sways := 1, trig := 0x1008 }
theorem noMiss {l : List Addr} {f : Addr → Res} (h : (l.all fun x => match f x with | .miss _ _ => false | _ => true) = true) :
    ∀ x ∈ l, ∀ vk page, f x ≠ .miss vk page := by
  intro x hx vk page he
  have hh := List.all_eq_true.mp h x hx
  rw [he] at hh; cases hh
def one1 (s : State) : State := { s with thr := { s.thr with pregs := s.thr.pregs.set 1 1 } }
theorem allD {l : List Addr} {P : Addr → Prop} [DecidablePred P] (h : (l.all fun x => decide (P x)) = true) : ∀ x ∈ l, P x :=
  fun x hx => of_decide_eq_true (List.all_eq_true.mp h x hx)

theorem witness_loadsAndStoresEnterThePort (h : Obligations.LoadsAndStoresEnterThePort) : True := by
  have := (h.1 false .b .g 5 3 (.s 2) 0x10 (spadLoc 0 0x110) sM (by decide +kernel) (by decide +kernel)).1 (by decide +kernel) (by decide +kernel)
  have := (h.1 false .b .g 5 3 (.s 2) 0x10 (spadLoc 0 0x110) sM (by decide +kernel) (by decide +kernel)).2.1 (by decide +kernel) (by decide +kernel)
  have := (h.1 false .b .g 5 3 (.s 2) 0x10 (spadLoc 0 0x110) sM (by decide +kernel) (by decide +kernel)).2.2 (by decide +kernel) (by decide +kernel)
  have := (h.2 false .b .c (.s 2) (.s 3) 0x10 (spadLoc 0 0x110) sM (by decide +kernel) (by decide +kernel)).1 (by decide +kernel) (by decide +kernel)
  have := (h.2 false .b .c (.s 2) (.s 3) 0x10 (spadLoc 0 0x110) sM (by decide +kernel) (by decide +kernel)).2 (by decide +kernel) (by decide +kernel)
  have := ((h.2 false .b .c (.s 2) (.s 3) 0x10 (spadLoc 0 0x110) sM (by decide +kernel) (by decide +kernel)).2 (by decide +kernel) (by decide +kernel)).2 (by decide +kernel)
  trivial

theorem witness_accessChecksTrapInOrder (h : Obligations.AccessChecksTrapInOrder) : True := by
  have := (h.1 false .h .g .swap .rlx 5 3 (.s 6) (.s 3) (.s 1) 0 sM (by decide +kernel) (by decide +kernel) (by decide +kernel) (by decide +kernel) _ (List.Mem.head _)).1 (by decide +kernel)
  have := ((h.1 false .h .g .swap .rlx 5 3 (.s 7) (.s 3) (.s 1) 0 sM (by decide +kernel) (by decide +kernel) (by decide +kernel) (by decide +kernel) _ (List.Mem.tail _ (List.Mem.tail _ (List.Mem.tail _ (List.Mem.tail _ (List.Mem.head _)))))).2 (by decide +kernel)).1 (by decide +kernel)
  have := ((h.1 false .h .g .swap .rlx 5 3 (.s 4) (.s 3) (.s 1) 0 noperm (by decide +kernel) (by decide +kernel) (by decide +kernel) (by decide +kernel) _ (List.Mem.tail _ (List.Mem.head _))).2 (by decide +kernel)).2.1 (by decide +kernel)
  have := (((h.1 false .h .g .swap .rlx 5 3 (.s 4) (.s 3) (.s 1) 0 sM (by decide +kernel) (by decide +kernel) (by decide +kernel) (by decide +kernel) _ (List.Mem.tail _ (List.Mem.tail _ (List.Mem.head _)))).2 (by decide +kernel)).2.2 (dramLoc 0 0x1000) (by decide +kernel)).1 (fun ⟨y, hy, ht⟩ => by have h2 : some y = some (Where.dram 0 0x1000) := hy.symm.trans (by decide +kernel); cases h2; exact absurd ht (by decide +kernel))
  have := (((h.1 false .h .g .swap .rlx 5 3 (.s 2) (.s 3) (.s 1) 0 (lockd sM) (by decide +kernel) (by decide +kernel) (by decide +kernel) (by decide +kernel) _ (List.Mem.tail _ (List.Mem.tail _ (List.Mem.tail _ (List.Mem.tail _ (List.Mem.tail _ (List.Mem.tail _ (List.Mem.tail _ (List.Mem.tail _ (List.Mem.head _)))))))))).2 (by decide +kernel)).2.2 (spadLoc 0 0x100) (by decide +kernel)).2 ⟨.spad 0 0x100, (by decide +kernel), (by decide +kernel)⟩ (by decide +kernel)
  have := (h.2.1 false .h 1 1 6 (.s 6) 0 (one1 sM) (by decide +kernel) (by decide +kernel) (by decide +kernel) _ (List.Mem.head _)).1 (BitVec.ofNat 52 0x20000000101) (by decide +kernel)
  have := ((h.2.1 false .h 1 1 6 (.s 7) 0 (one1 sM) (by decide +kernel) (by decide +kernel) (by decide +kernel) _ (List.Mem.tail _ (List.Mem.tail _ (List.Mem.tail _ (List.Mem.head _))))).2 (allD (by decide +kernel)) (noMiss (by decide +kernel))).1 (BitVec.ofNat 52 0x20000030000) (by decide +kernel)
  have := (((h.2.1 false .h 1 1 6 (.s 4) 0 (one1 noperm) (by decide +kernel) (by decide +kernel) (by decide +kernel) _ (List.Mem.tail _ (List.Mem.head _))).2 (allD (by decide +kernel)) (noMiss (by decide +kernel))).2 (allD (by decide +kernel))).1 (BitVec.ofNat 52 0x1000) (by decide +kernel)
  have := (((h.2.1 false .h 1 1 6 (.s 2) 0 (one1 (lockd sM)) (by decide +kernel) (by decide +kernel) (by decide +kernel) _ (List.Mem.head _)).2 (allD (by decide +kernel)) (noMiss (by decide +kernel))).2 (allD (by decide +kernel))).2 (allD (by decide +kernel)) (BitVec.ofNat 52 0x20000000100) (by decide +kernel)
  have := (h.2.2 0 0 [] true false (2^41+0x30000) sM).1 (by decide +kernel)
  have := (h.2.2 0 0 [] true false (2^41+0x30000) sM).2.1 (by decide +kernel)
  have := (h.2.2 0 0 [] true false (2^40+8) shareM).2.2.1 0 8 (by decide +kernel)
  have := (h.2.2 0 0 [] true false (2^51+8) hostNo).2.2.2.1 8 (by decide +kernel)
  have := (h.2.2 0 0 [] true false (2^41+8) sM).2.2.2.2.1 0 8 (by decide +kernel)
  have := ((h.2.2 0 0 [] true false 0xF000000008 sM).2.2.2.2.2 0 0xF000000008 (by decide +kernel)).1 (by decide +kernel)
  have := ((h.2.2 0 0 [(walkKey 0 1, 4)] true false 0x1008 sM).2.2.2.2.2 0 0x1008 (by decide +kernel)).2 0x1008 (by decide +kernel) |>.1 (by decide +kernel)
  have := ((h.2.2 0 0 [(walkKey 0 1, 5)] true false 0x1008 sM).2.2.2.2.2 0 0x1008 (by decide +kernel)).2 0x1008 (by decide +kernel) |>.2.1 (by decide +kernel)
  have := (((h.2.2 0 0 [] true false 0x1008 (tlb0 sM)).2.2.2.2.2 0 0x1008 (by decide +kernel)).2 0x1008 (by decide +kernel) |>.2.2 (by decide +kernel)).1 (by decide +kernel)
  have := (((h.2.2 0 0 [] true false 0x1008 noperm).2.2.2.2.2 0 0x1008 (by decide +kernel)).2 0x1008 (by decide +kernel) |>.2.2 (by decide +kernel)).2 _ rfl |>.1 (by decide +kernel)
  have := (((h.2.2 0 0 [] true false 0x1008 shareM).2.2.2.2.2 0 0x1008 (by decide +kernel)).2 0x1008 (by decide +kernel) |>.2.2 (by decide +kernel)).2 _ rfl |>.2.1 (by decide +kernel) (by decide +kernel) (by decide +kernel) (by decide +kernel)
  have := (((h.2.2 0 0 [] true false 0x1008 sM).2.2.2.2.2 0 0x1008 (by decide +kernel)).2 0x1008 (by decide +kernel) |>.2.2 (by decide +kernel)).2 _ rfl |>.2.2 (by decide +kernel) (by decide +kernel)
  trivial

theorem witness_vectorAccessesEnterThePort (h : Obligations.VectorAccessesEnterThePort) : True := by
  have := ((h.1 false .b 0 1 (.s 2) 6 16 (okLocs sMv (vit sMv 1 0 128 true false 2 (fun i => 16 + i * 1) .any)) sMv (by decide +kernel)).1 (by decide +kernel)).1 (by decide +kernel)
  have := ((h.2 false .b 0 (.s 2) 7 6 16 (okLocs sMv (vit sMv 1 0 128 false true 2 (fun i => 16 + i * 1) .any)) sMv (by decide +kernel)).1 (by decide +kernel)).1 (by decide +kernel)
  have := ((h.1 false .b 0 1 (.s 2) 6 12 (okLocs sMv (vit sMv 1 0 128 true false 2 (fun i => 12 * i) .any)) sMv (by decide +kernel)).1 (by decide +kernel)).2 (by decide +kernel)
  have := ((h.2 false .b 0 (.s 2) 7 6 12 (okLocs sMv (vit sMv 1 0 128 false true 2 (fun i => 12 * i) .any)) sMv (by decide +kernel)).1 (by decide +kernel)).2 (by decide +kernel)
  have := ((h.1 false .b 0 1 (.s 2) 6 12 (okLocs sMv (vit sMv 1 0 32 true false 2 (fun i => toSigned 32 (lane (sMv.thr.getV 6) 32 i) * 1) .any)) sMv (by decide +kernel)).2 (by decide +kernel)).1 (by decide +kernel)
  have := ((h.1 false .b 0 1 (.s 4) 6 24 (okLocs sMv (vit sMv 1 0 32 true false 4 (fun i => toSigned 32 (lane (sMv.thr.getV 6) 32 i) * 1) .any)) sMv (by decide +kernel)).2 (by decide +kernel)).2 (by decide +kernel) (by decide +kernel)
  have := (h.2 false .b 0 (.s 2) 7 6 12 (okLocs sMv (vit sMv 1 0 32 false true 2 (fun i => toSigned 32 (lane (sMv.thr.getV 6) 32 i) * 1) .any)) sMv (by decide +kernel)).2 (by decide +kernel) (by decide +kernel)
  trivial

theorem witness_atomicsAndReductionsEnterThePort (h : Obligations.AtomicsAndReductionsEnterThePort) : True := by
  have := (h false .w .g .swap .rlx 5 (.s 2) (.s 3) (.s 1) (spadLoc 0 0x100) .i32 .rne false .add [] sM (by decide +kernel) (by decide +kernel)).1 (by decide +kernel) (by decide +kernel) (by decide +kernel) (by decide +kernel)
  trivial

end Access

/-! ### Atomics, fences and accesses at home -/

namespace Home

theorem witness_atomicsAndReductionsEnterThePort (h : Obligations.AtomicsAndReductionsEnterThePort) : True := by
  have := (h false .w .g .add .rlx 5 (.s 4) (.s 6) (.s 1) 0 .i32 .rne false .add (reduL sR 0x1000 (2^41+0x140)) sR (by decide +kernel) (by decide +kernel)).2 (by decide +kernel) (by decide +kernel) (by decide +kernel)
  trivial

theorem witness_waitsFencesAndTiles (h : Obligations.WaitsFencesAndTiles) : True := by
  have := (h.1 false .w .g 5 (.s 2) (.s 3) 0x10 (spadLoc 0 0x110) 0 0 sM).1 (by decide +kernel) (by decide +kernel) (by decide +kernel) (by decide +kernel)
  have := (h.1 false .w .g 5 (.s 2) (.s 3) 0x10 (spadLoc 0 0x110) 7 99 ({ sM with thr := { sM.thr with wait := .waitge 7 (some 99) false, park := some ⟨0,0,0,[],false⟩ } })).2 (by decide +kernel)
  have := (h.2 false .t (.s 4) none 0 [] sM).1 (by
      rintro (h | ⟨x, hx, _⟩)
      · exact h (by decide +kernel)
      · rw [show (sM.core sM.gc).port = [] by decide +kernel] at hx; cases hx)
  have := (h.2 false .g (.s 4) none 0 [] (withPort sM [acc0 .store (dramLoc 0 0x1010) 8 0x1010 [1,2,3,4,5,6,7,8] none])).2.1 (Or.inr ⟨_, List.Mem.head _, rfl, show Scope.g ∉ [Scope.t, Scope.c] by decide⟩)
  have := (h.2 false .t (.s 4) none 0x7FF [] sR).2.2 (by decide +kernel)
  have := ((h.2 false .t (.s 4) none 0x7FF (okLocs sR (itemsOf sR 0 0 0x17FF 1 true false .any)) sR).2.2 (by decide +kernel)).2 (by decide +kernel) |>.1 (by decide +kernel)
  have := ((h.2 false .t (.s 4) none 0x7FF (okLocs sR (itemsOf sR 0 0 0x17FF 1 false true .any)) sR).2.2 (by decide +kernel)).2 (by decide +kernel) |>.2 (by decide +kernel)
  trivial

theorem witness_accessesActAtHome (h : Obligations.AccessesActAtHome) : True := by
  have := h.1 0 (acc0 .load (dramLoc 0 0x1010) 1 0x1010 [] (some (.s 5))) ⟨0,0x1010,(dramLoc 0 0x1010),1,[]⟩ [] (sH (acc0 .load (dramLoc 0 0x1010) 1 0x1010 [] (some (.s 5))) []) (by decide +kernel) (by decide +kernel) (by decide +kernel) (by decide +kernel)
  have := h.2.1 0 (acc0 .store (dramLoc 0 0x1010) 1 0x1010 [1] none) ⟨0,0x1010,(dramLoc 0 0x1010),1,[1]⟩ [] (sH (acc0 .store (dramLoc 0 0x1010) 1 0x1010 [1] none) []) (by decide +kernel) (by decide +kernel) (by decide +kernel) (by decide +kernel) (show _ from by decide +kernel) (waitersOf_nil (by decide +kernel))
  have := h.2.2 0 (acc0 (.amo .swap 0x80000000 0x7F000081) (dramLoc 0 0x1010) 4 0x1010 [] (some (.s 5))) ⟨0,0x1010,(dramLoc 0 0x1010),4,[]⟩ [acc1] .swap 0x80000000 0x7F000081 (sH (acc0 (.amo .swap 0x80000000 0x7F000081) (dramLoc 0 0x1010) 4 0x1010 [] (some (.s 5))) [acc1]) (by decide +kernel) (by decide +kernel) (by decide +kernel) (by decide +kernel) (show _ from by decide +kernel) (by decide +kernel) (waitersOf_nil (by decide +kernel))
  trivial

theorem witness_fullEmptyWordsChangeInOneStep (h : Obligations.FullEmptyWordsChangeInOneStep) : True := by
  have := (h 0 (acc0 .ldf (spadLoc 0 0x118) 8 (2^41+0x118) [] (some (.s 5))) ⟨0,2^41+0x118,spadLoc 0 0x118,8,[]⟩ [acc1] (sH (acc0 .ldf (spadLoc 0 0x118) 8 (2^41+0x118) [] (some (.s 5))) [acc1]) (by decide +kernel) (by decide +kernel) (by decide +kernel) (by decide +kernel) (show _ from by decide +kernel) (by decide +kernel) (waitersOf_nil (by decide +kernel)) (by decide +kernel)).1 (by decide +kernel) (by decide +kernel)
  have := (h 0 (acc0 .ste (spadLoc 0 0x110) 8 (2^41+0x110) [8,7,6,5,4,3,2,1] (some (.s 5))) ⟨0,2^41+0x110,spadLoc 0 0x110,8,[8,7,6,5,4,3,2,1]⟩ [acc1] (sH (acc0 .ste (spadLoc 0 0x110) 8 (2^41+0x110) [8,7,6,5,4,3,2,1] (some (.s 5))) [acc1]) (by decide +kernel) (by decide +kernel) (by decide +kernel) (by decide +kernel) (show _ from by decide +kernel) (by decide +kernel) (waitersOf_nil (by decide +kernel)) (by decide +kernel)).2.1 (by decide +kernel) (by decide +kernel) (by decide +kernel)
  have := (h 0 (acc0 .ldf (spadLoc 0 0x110) 8 (2^41+0x110) [] (some (.s 5))) ⟨0,2^41+0x110,spadLoc 0 0x110,8,[]⟩ [acc1] (sH (acc0 .ldf (spadLoc 0 0x110) 8 (2^41+0x110) [] (some (.s 5))) [acc1]) (by decide +kernel) (by decide +kernel) (by decide +kernel) (by decide +kernel) (show _ from by decide +kernel) (by decide +kernel) (waitersOf_nil (by decide +kernel)) (by decide +kernel)).2.2.1 (by decide +kernel) (by decide +kernel) (by decide +kernel)
  have := (h 0 (acc0 .ste (spadLoc 0 0x118) 8 (2^41+0x118) [8,7,6,5,4,3,2,1] (some (.s 5))) ⟨0,2^41+0x118,spadLoc 0 0x118,8,[8,7,6,5,4,3,2,1]⟩ [acc1] (sH (acc0 .ste (spadLoc 0 0x118) 8 (2^41+0x118) [8,7,6,5,4,3,2,1] (some (.s 5))) [acc1]) (by decide +kernel) (by decide +kernel) (by decide +kernel) (by decide +kernel) (show _ from by decide +kernel) (by decide +kernel) (waitersOf_nil (by decide +kernel)) (by decide +kernel)).2.2.2.1 (by decide +kernel) (by decide +kernel) (by decide +kernel)
  have := (h 0 (acc0 (.setfe true) (spadLoc 0 0x110) 8 (2^41+0x110) [] (some (.s 5))) ⟨0,2^41+0x110,spadLoc 0 0x110,8,[]⟩ [acc1] (sH (acc0 (.setfe true) (spadLoc 0 0x110) 8 (2^41+0x110) [] (some (.s 5))) [acc1]) (by decide +kernel) (by decide +kernel) (by decide +kernel) (by decide +kernel) (show _ from by decide +kernel) (by decide +kernel) (waitersOf_nil (by decide +kernel)) (by decide +kernel)).2.2.2.2.1 true (by decide +kernel)
  have := (h 0 (acc0 .ldfp (spadLoc 0 0x110) 8 (2^41+0x110) [] (some (.s 5))) ⟨0,2^41+0x110,spadLoc 0 0x110,8,[]⟩ [acc1] (sH (acc0 .ldfp (spadLoc 0 0x110) 8 (2^41+0x110) [] (some (.s 5))) [acc1]) (by decide +kernel) (by decide +kernel) (by decide +kernel) (by decide +kernel) (show _ from by decide +kernel) (by decide +kernel) (waitersOf_nil (by decide +kernel)) (by decide +kernel)).2.2.2.2.2 (by decide +kernel)
  trivial

end Home

/-! ### Capabilities, sends and arrivals -/

namespace Fabric

/-- The capability whose bits 63:24 are `hi`, under the key of `tTeam` and count 0. -/
def capOfHi (hi : Nat) : Word := BitVec.ofNat 64 (hi * 2 ^ 24 + checkOf 7 hi 0)
def hiOf (right base len : Nat) : Nat := 2 ^ 20 + base * 2 ^ 14 + len * 2 ^ 10 + right * 2 ^ 8
theorem capOfHi_parts (hi : Nat) (h : hi < 2 ^ 40) : (capOfHi hi).toNat / 2 ^ 24 = hi ∧
    (capOfHi hi).toNat % 2 ^ 24 = checkOf 7 hi 0 ∧ (capOfHi hi).toNat / 2 ^ 32 = hi / 2 ^ 8 ∧
    (capOfHi hi).toNat / 2 ^ 34 = hi / 2 ^ 10 ∧ (capOfHi hi).toNat / 2 ^ 44 = hi / 2 ^ 20 := by
  have hk : checkOf 7 hi 0 < 2 ^ 24 := Nat.mod_lt _ (by decide)
  have : (capOfHi hi).toNat = hi * 2 ^ 24 + checkOf 7 hi 0 := by
    rw [capOfHi, BitVec.toNat_ofNat, Nat.mod_eq_of_lt]; omega
  rw [this]; omega
def e4 : SendEntry := ⟨4, capOfHi (hiOf 1 5 2), 1, 7, false, 0x55, none, false, false, 1⟩
/-- The thread in focus, with `n` sends queued, holds in `s20` the capability of its neighbour, thread 1, whose status is `st`. -/
def sF (hi : Nat) (st : TStatus) (n : Nat) : State :=
  let s := (tState []).modThread 1 fun t => { t with st := st }
  { s with thr := { s.thr with sregs := s.thr.sregs.set 20 (capOfHi hi), sendq := List.replicate n e4 } }
theorem sF_src (hi : Nat) (st : TStatus) (n : Nat) : (sF hi st n).src (.s 20) = capOfHi hi := rfl
theorem sF_seat (hi : Nat) (st : TStatus) (n : Nat) (h : hi / 2 ^ 20 = 1) :
    tTeam.seats.find? (fun x => x.fab == ((sF hi st n).src (.s 20)).toNat / 2 ^ 44) = some ⟨1, 0, 1⟩ := by
  rw [sF_src, (capOfHi_parts hi (by omega)).2.2.2.2, h]; decide
def sE (full : Bool) (mode : Nat) : State :=
  let s := tState []
  let e : SendEntry := ⟨4, capOfHi (hiOf 1 5 2), 1, 7, false, 0x55, none, false, false, 1⟩
  let s := s.modThread 1 fun t => { t with sFull := if full then BitVec.allOnes 32 else ~~~(1#32 <<< 7), lands := BitVec.ofNat 64 (mode * 2^14) }
  { s with thr := { s.thr with sendq := [e, { e with id := 6 }] } }
theorem capOk_e4 : capOk 7 0 1 0 (capOfHi (hiOf 1 5 2)) = true := by
  obtain ⟨h1, h2, h3, -, -⟩ := capOfHi_parts (hiOf 1 5 2) (by decide)
  refine Bool.and_eq_true_iff.mpr ⟨?_, decide_eq_true (Nat.zero_le _)⟩
  simp only [capCheck, capGen, capRights, field, fieldN, Nat.sub_zero, Nat.pow_zero, Nat.div_one]
  simp only [Nat.reduceSub, Nat.reduceAdd]
  have e : hiOf 1 5 2 % 2 ^ 40 = hiOf 1 5 2 := by decide
  rw [h1, h2, h3, e, beq_self_eq_true]
  decide
def wt (s : State) (w : Wait) : State := { s with thr := { s.thr with wait := w } }
def cg (s : State) (c : BitVec 32) : State := { s with thr := { s.thr with capgen := c } }
def emp (s : State) : State := { s with thr := { s.thr with sFull := ~~~(1#32 <<< 7), buf := [⟨3, 0x900, [.s 7 99, .s 5 4], .plain, true, false, none, false⟩] } }

theorem witness_sendsJoinTheirQueue (h : Obligations.SendsJoinTheirQueue) : True := by
  have := (h false (.s 20) (.s 3) 4 2 .g tTeam ⟨1, 0, 1⟩ (tState [(20, 2 ^ 60)]) (by decide +kernel) _ (List.Mem.head _) (by decide +kernel)).1 (by decide +kernel) (by decide +kernel)
  have := ((h false (.s 20) (.s 3) 4 2 .g tTeam ⟨1, 0, 1⟩ (sF (hiOf 2 33 2) .ready 0) (by decide +kernel) _ (List.Mem.tail _ (List.Mem.head _)) (by decide +kernel)).2 (sF_seat _ _ _ (by decide)) (by decide +kernel)).1
      (by rw [sF_src, (capOfHi_parts (hiOf 2 33 2) (by decide)).2.2.1]; exact fun c => absurd c.2.2.1 (by decide)) (by decide +kernel)
  have := ((h false (.s 20) (.s 3) 4 2 .g tTeam ⟨1, 0, 1⟩ (sF (hiOf 1 5 2) .retired 0) (by decide +kernel) _ (List.Mem.head _) (by decide +kernel)).2 (sF_seat _ _ _ (by decide)) (by decide +kernel)).2.1
      (by rw [sF_src, (capOfHi_parts (hiOf 1 5 2) (by decide)).1, (capOfHi_parts (hiOf 1 5 2) (by decide)).2.1, (capOfHi_parts (hiOf 1 5 2) (by decide)).2.2.1, (capOfHi_parts (hiOf 1 5 2) (by decide)).2.2.2.1]; exact ⟨rfl, by decide, by decide, by decide⟩) (by decide +kernel) (by decide +kernel)
  have := ((h false (.s 20) (.s 3) 4 2 .g tTeam ⟨1, 0, 1⟩ (sF (hiOf 2 33 2) .ready 4) (by decide +kernel) _ (List.Mem.tail _ (List.Mem.tail _ (List.Mem.head _))) (by decide +kernel)).2 (sF_seat _ _ _ (by decide)) (by decide +kernel)).2.2.1
      (by rw [sF_src, (capOfHi_parts (hiOf 2 33 2) (by decide)).1, (capOfHi_parts (hiOf 2 33 2) (by decide)).2.1, (capOfHi_parts (hiOf 2 33 2) (by decide)).2.2.1, (capOfHi_parts (hiOf 2 33 2) (by decide)).2.2.2.1]; exact ⟨rfl, by decide, by decide, by decide⟩) (by decide +kernel) (by decide +kernel)
  have := ((h false (.s 20) (.s 3) 4 2 .g tTeam ⟨1, 0, 1⟩ (sF (hiOf 1 5 2) .ready 3) (by decide +kernel) _ (List.Mem.head _) (by decide +kernel)).2 (sF_seat _ _ _ (by decide)) (by decide +kernel)).2.2.2
      (by rw [sF_src, (capOfHi_parts (hiOf 1 5 2) (by decide)).1, (capOfHi_parts (hiOf 1 5 2) (by decide)).2.1, (capOfHi_parts (hiOf 1 5 2) (by decide)).2.2.1, (capOfHi_parts (hiOf 1 5 2) (by decide)).2.2.2.1]; exact ⟨rfl, by decide, by decide, by decide⟩) (by decide +kernel) (by decide +kernel)
  trivial

theorem witness_arrivalsLand (h : Obligations.ArrivalsLand) : True := by
  have := (h 0 e4 [{ e4 with id := 6 }] tTeam ⟨1, 0, 1⟩ 7 (sE false 0) (by decide +kernel) rfl (by decide +kernel) (by decide +kernel) (by decide +kernel) (by decide +kernel) (show _ from by decide +kernel) (by decide +kernel) (by decide +kernel) (by decide +kernel) (by decide +kernel) (show _ from by decide +kernel) capOk_e4 (by decide +kernel) (by decide +kernel)).1 (by decide +kernel)
  have := (h 0 e4 [{ e4 with id := 6 }] tTeam ⟨1, 0, 1⟩ 7 (sE true 2) (by decide +kernel) rfl (by decide +kernel) (by decide +kernel) (by decide +kernel) (by decide +kernel) (show _ from by decide +kernel) (by decide +kernel) (by decide +kernel) (by decide +kernel) (by decide +kernel) (show _ from by decide +kernel) capOk_e4 (by decide +kernel) (by decide +kernel)).2.1 (by decide +kernel) (by decide +kernel)
  have := (h 0 e4 [{ e4 with id := 6 }] tTeam ⟨1, 0, 1⟩ 7 (sE true 0) (by decide +kernel) rfl (by decide +kernel) (by decide +kernel) (by decide +kernel) (by decide +kernel) (show _ from by decide +kernel) (by decide +kernel) (by decide +kernel) (by decide +kernel) (by decide +kernel) (show _ from by decide +kernel) capOk_e4 (by decide +kernel) (by decide +kernel)).2.2.1 (by decide +kernel) (by decide +kernel)
  have := (h 0 e4 [{ e4 with id := 6 }] tTeam ⟨1, 0, 1⟩ 7 (sE true 1) (by decide +kernel) rfl (by decide +kernel) (by decide +kernel) (by decide +kernel) (by decide +kernel) (show _ from by decide +kernel) (by decide +kernel) (by decide +kernel) (by decide +kernel) (by decide +kernel) (show _ from by decide +kernel) capOk_e4 (by decide +kernel) (by decide +kernel)).2.2.2 (by decide +kernel) (by decide +kernel) (by decide +kernel)
  trivial

theorem witness_capabilitiesAndPresence (h : Obligations.CapabilitiesAndPresence) : True := by
  have := (h.1 false 5 5 2 0 sM).1 (by decide +kernel) tTeam (by decide +kernel)
  have := (h.1 false 5 0 0 0 sM).2.1 (by decide +kernel) (by decide +kernel) (by decide +kernel)
  have := (h.1 false 5 0 0 0 (cg sM 0xFFFFFFFF)).2.2.1 (by decide +kernel) (by decide +kernel) (by decide +kernel)
  have := (h.1 false 5 0 0 9 (wt sM (.hold 1 true 9))).2.2.2.1 (by decide +kernel)
  have := (h.1 false 5 0 0 9 (wt sM (.hold 1 false 9))).2.2.2.2 0 (by decide +kernel) (by decide +kernel)
  have := (h.2 false 5 7 6 7 3 4 2 (.tags) 5 2 1 (emp sM)).1 (by decide +kernel)
  have := (h.2 false 5 7 8 9 3 4 2 .tags 5 2 1 (emp sM)).2.1 (by decide +kernel) (by decide +kernel)
  have := (h.2 false 5 7 8 9 3 4 2 .tags 5 2 1 (emp sM)).2.2.1 (by decide +kernel) (by decide +kernel)
  have := (h.2 false 5 7 6 7 3 4 2 .tags 5 2 1 (emp sM)).2.2.2.1 (by decide +kernel)
  have := (h.2 false 5 7 6 7 3 4 2 .tags 5 2 1 (emp sM)).2.2.2.2 (by decide +kernel) (by decide +kernel)
  have := ((h.2 false 5 7 6 7 3 4 2 .tags 5 2 1 (emp sM)).2.2.2.2 (by decide +kernel) (by decide +kernel)).2.2.2 (by decide +kernel) (by decide +kernel)
  trivial

end Fabric

/-! ### Copies and tags -/

namespace Copies

def cs (w0 w1 w2 w3 : Word) : State := tState [(8, w0), (9, w1), (10, w2), (11, w3), (12, 0x100000001)]
def cq (st : OpState) (seq : BitVec 32) (w0 : Word) : CopyReq := ⟨seq.toNat + 100, seq, 0, 0, w0, 0x20000000100, 0x1000, 0, [], st, [], [], [], 0, 0, [], 0⟩
def wc (s : State) (c : List CopyReq) : State := s.modCore 0 fun k => { k with copies := c, copySeq := [(0, 16)], params := [⟨0, 0x1000, [1]⟩, ⟨1, 0x1000, [2]⟩, ⟨0, 0x2000, [3]⟩] }
def full16 (s : State) : State := wc s ((List.range 16).map fun i => cq .queued (BitVec.ofNat 32 i) 0)
def good : State := cs 0x08010C0000000400 0x20000000100 0x1000 0
def cr0 : CopyReq := { cq .running 3 0x04010C0000000400 with todo := [⟨bytesAt (dramLoc 0 0x1010) 4, [], bytesAt (spadLoc 0 0x200) 4, [], 4, [], none⟩] }
def ce0 : CopyElem := ⟨bytesAt (dramLoc 0 0x1010) 4, [], bytesAt (spadLoc 0 0x200) 4, [], 4, [], none⟩
def ce1 : CopyElem := { ce0 with got := some ([9,8,7,6].map some) }
def sC (cs : List CopyReq) : State := wc { sM with mem := [(dramLoc 0 0x1010, 0x81), (dramLoc 0 0x1013, 0x7F), (spadLoc 0 0x110, 0x34)], threads := [(1, { tThread [] with id := 1, self := 1 })] } cs
def tg (bits : Word) : State := let s := tState [(4, 0xC), (5, 0xFFFFFFFFFFFFFFFF), (6, 4), (7, 0)]; s.modCore 0 fun c => { c with tags := [(0, ⟨bits, Vector.replicate 64 5⟩)] }

theorem witness_copyRequests (h : Obligations.CopyRequests) : True := by
  have := ((h false true 5 8 (.s 12) (cq .queued 1 0) (cs 0x5801000000000400 0 0 0)).1 (by decide +kernel)).1 (by decide +kernel) (by decide +kernel)
  have := ((h false true 5 8 (.s 12) (cq .queued 1 0) (cs 0x08010C0000000400 0xD000000000000100 0x1000 0)).1 (by decide +kernel)).2.1 0xD000000000000100 (by decide +kernel) (by decide +kernel) (by decide +kernel)
  have := ((h false true 5 8 (.s 12) (cq .queued 1 0) (cs 0x08010C0000000400 0x2800000000001001 0x2800000000001000 0)).1 (by decide +kernel)).2.2.1 0x1001 (by decide +kernel) (by decide +kernel) (by decide +kernel) (by decide +kernel)
  have := ((h false true 5 8 (.s 12) (cq .queued 1 0) good).1 (by decide +kernel)).2.2.2.1 (by decide +kernel) (by decide +kernel)
  have := ((h false true 5 8 (.s 12) (cq .queued 1 0) (full16 good)).1 (by decide +kernel)).2.2.2.2 (by decide +kernel) (by decide +kernel)
  have := ((h false true 5 8 (.s 12) (cq .queued 1 0x0401000000000400) (wc good [cq .queued 7 0, (cq .queued 1 0x0401000000000400), cq .running 9 0])).2 (by decide +kernel)).2.1 (by decide +kernel) (by decide +kernel)
  have := ((h false true 5 8 (.s 12) (cq .queued 1 0) good).2 (by decide +kernel)).1 (by decide +kernel)
  have := ((h false true 5 8 (.s 12) (cq .queued 1 0) good).2 (by decide +kernel)).2.2.1 (by decide +kernel)
  have := (h false true 5 8 (.s 12) (cq .queued 1 0) (wc (tState [(12,0x103F)]) [])).2 (by decide +kernel)
  trivial

theorem witness_copiesRunAndComplete (h : Obligations.CopiesRunAndComplete) : True := by
  have := (h 0 103 (cq .queued 3 0x08010C0000000400) ⟨[],[],[],[],0,[],none⟩ [] 0 (rich (sC [cq .running 1 0, (cq .queued 3 0x08010C0000000400)]))).1 (by decide +kernel) (by decide +kernel) (by decide +kernel) (by decide +kernel) (show _ from by decide +kernel) (by decide +kernel) (by decide +kernel) (by decide +kernel) (rmode0 (by decide +kernel))
  have := ((h 0 103 ({ cr0 with todo := [ce0] }) ce0 [] 0 (sC [{ cr0 with todo := [ce0] }])).2.1 (by decide +kernel) (by decide +kernel) (by decide +kernel) (by decide +kernel) (show _ from by decide +kernel)).1 (by decide +kernel) (by decide +kernel) (by decide +kernel) (by decide +kernel) (show _ from by decide +kernel)
  have := ((h 0 103 ({ cr0 with todo := [ce1] }) ce1 [9,8,7,6] (spadLoc 0 0x200) (rich (sC [{ cr0 with todo := [ce1] }]))).2.1 (by decide +kernel) (by decide +kernel) (by decide +kernel) (by decide +kernel) (show _ from by decide +kernel)).2 (by decide +kernel) (by decide +kernel) (by decide +kernel) (by decide +kernel) (show _ from by decide +kernel) (by decide +kernel) (by decide +kernel) (waitersOf_nil (by decide +kernel)) (by decide +kernel)
  have := (h 0 103 ({ cq .running 3 0x04010C0000000400 with status := 0 }) ce1 [] 0 ((sC [cq .queued 2 0, { cq .running 3 0x04010C0000000400 with status := 0 }]).modCore 0 fun c => { c with locks := [⟨0,5,6,true,103⟩,⟨0,5,6,true,102⟩] })).2.2 (by decide +kernel) (by decide +kernel) (by decide +kernel) (by decide +kernel) (show _ from by decide +kernel) (by decide +kernel)
  trivial

theorem witness_tagWaits (h : Obligations.TagWaits) : True := by
  have := (h false 5 (.s 4) (tg 0xC) (by decide +kernel) (by decide +kernel) (by decide +kernel)).1 (by decide +kernel)
  have := (h false 5 (.s 4) (tg 0xC) (by decide +kernel) (by decide +kernel) (by decide +kernel)).2.2.1 (by decide +kernel)
  have := (h false 5 (.s 4) (tg 0xC) (by decide +kernel) (by decide +kernel) (by decide +kernel)).2.2.2.2.2.1 2 (by decide +kernel) (by decide +kernel) (by decide +kernel)
  have := h false 5 (.s 4) (tg 0xC) (by decide +kernel) (by decide +kernel) (by decide +kernel)
  have := (h false 5 (.s 4) (tg 4) (by decide +kernel) (by decide +kernel) (by decide +kernel)).2.2.2.1 (by decide +kernel)
  have := (h false 5 (.s 4) (tg 0) (by decide +kernel) (by decide +kernel) (by decide +kernel)).2.1 (by decide +kernel)
  have := (h false 5 (.s 4) (tg 0) (by decide +kernel) (by decide +kernel) (by decide +kernel)).2.2.2.2.2.2.1 (by decide +kernel) (by decide +kernel)
  have := (h false 5 (.s 7) (tg 0xC) (by decide +kernel) (by decide +kernel) (by decide +kernel)).2.2.2.2.1 (by decide +kernel)
  trivial

end Copies

/-! ### Collective plans -/

namespace Plans

def pl (r p : Option Firing) (dr : Bool) : Plan := ⟨1, d1, 1, [0, 1], 5, r, p, dr⟩
def pS (p : Plan) (tr : List Trigger) (h : Word) : State := { tState [(2, h), (3, 0), (8, 0x2000)] with vds := [(0, { Vd.blank with isVd := true, plans := [(3, p)], planGen := [(3, 2)], triggers := tr, trig := 0x40 })], cycle := 1000 }
def hd : Word := planHandle 3 2
def fi (late : Bool) (ft : Word) (parts : List PlanPart) : Firing := ⟨4, ft, late, parts, none⟩
def pp (k : Nat) (st : Nat) : PlanPart := ⟨k, 1100, st, some [1,0,0,0], some [0,0,0,0], 0, 0, 100⟩

theorem witness_collectivePlans (h : Obligations.CollectivePlans) : True := by
  have := (h false 5 (.s 2) (.s 3) 0 3 0 0 [spadLoc 0 0x100] (pl none none false) ⟨0,0,none⟩ [] (fi false 0 []) tTeam (pp 0 0) sM).1 (by decide +kernel) (by decide +kernel) (by decide +kernel) (by decide +kernel)
  have := (h false 5 (.s 2) (.s 3) 0 3 0 0 [] (pl none none false) ⟨0,0,none⟩ [] (fi false 0 []) tTeam (pp 0 0) sM).2.1 (by decide +kernel) (by decide +kernel)
  have := ((h false 5 (.s 3) (.s 3) 0 3 0 0 [] (pl none none false) ⟨0,0,none⟩ [] (fi false 0 []) tTeam (pp 0 0) (pS (pl none none false) [] hd)).2.2.1 (by decide +kernel) (by decide +kernel)).1 (by decide +kernel)
  have := ((h false 5 (.s 2) (.s 3) 0 3 0 0 [] (pl none none false) ⟨0,0,none⟩ [] (fi false 0 []) tTeam (pp 0 0) (pS (pl none none false) [] hd)).2.2.1 (by decide +kernel) (by decide +kernel)).2.1 (by decide +kernel) (by decide +kernel) (by decide +kernel)
  have := ((h false 5 (.s 2) (.s 3) 0 3 0 0 [] (pl (some (fi false 0 [])) none false) ⟨0,0,none⟩ [] (fi false 0 []) tTeam (pp 0 0) (pS (pl (some (fi false 0 [])) none false) [] hd)).2.2.1 (by decide +kernel) (by decide +kernel)).2.2 (by decide +kernel) (by decide +kernel)
  have := ((h false 5 (.s 2) (.s 3) 0 3 0 0 [] (pl (some (fi false 0 [])) none false) ⟨hd + 0x500000000 + 1, 0, none⟩ [⟨hd + 0x500000000, 0, none⟩] (fi false 0 []) tTeam (pp 0 0) (pS (pl (some (fi false 0 [])) none false) [⟨hd + 0x500000000 + 1, 0, none⟩, ⟨hd + 0x500000000, 0, none⟩] hd)).2.2.2.1 (by decide +kernel)).1 (by decide +kernel)
  have := ((h false 5 (.s 2) (.s 3) 0 3 0 0 [] (pl (some (fi false 0 [])) none false) ⟨hd + 0x500000000, 0, none⟩ [] (fi false 0 []) tTeam (pp 0 0) (pS (pl (some (fi false 0 [])) none false) [⟨hd + 0x500000000, 0, none⟩] hd)).2.2.2.1 (by decide +kernel)).2 (by decide +kernel) (by decide +kernel) (by decide +kernel) (by decide +kernel) (show _ from by decide +kernel) (by decide +kernel)
  have := ((h false 5 (.s 2) (.s 3) 0 3 0 0 [] (pl (some (fi false 0 [pp 1 0])) none false) ⟨0,0,none⟩ [] (fi false 0 [pp 1 0]) tTeam (pp 0 0) (pS (pl (some (fi false 0 [pp 1 0])) none false) [] hd)).2.2.2.2 (by decide +kernel) (by decide +kernel) (by decide +kernel) (by decide +kernel) (fun _ h => by cases h)).1 (rmode0 (by decide +kernel)) (by decide +kernel) (by decide +kernel) (by decide +kernel) (by decide +kernel)
  have := ((h false 5 (.s 2) (.s 3) 0 3 1 1 [] (pl (some (fi false 0 [pp 1 0, pp 0 0])) none false) ⟨0,0,none⟩ [] (fi false 0 [pp 1 0, pp 0 0]) tTeam (pp 1 0) (pS (pl (some (fi false 0 [pp 1 0, pp 0 0])) none false) [] hd)).2.2.2.2 (by decide +kernel) (by decide +kernel) (by decide +kernel) (by decide +kernel) (fun _ h => by cases h)).2 (by decide +kernel) (by decide +kernel) (by decide +kernel) (by decide +kernel) (show _ from by decide +kernel) (by decide +kernel) (by decide +kernel) (by decide +kernel) (by decide +kernel)
  trivial

end Plans

/-! ### The sillage: segments, forward transfers and retraces -/

namespace Expert

def sg (gen : BitVec 7) (op cl : Bool) (q u : Nat) (rs : List Nat) : Segment := ⟨gen, op, q, u, cl, 0, 0, 1, rs, []⟩
def tm (segs : Tbl Segment) (sp : Word) : Team := { tTeam with segs := segs, spill := sp, groups := [(0,[0,1]),(2,[1,0,5])] }
def sS (t : Team) (x : Word) : State := { tState [(2, x), (5,x)] with teams := [t], mem := [(spadLoc 0 0x101, 7), (spadLoc 0 0x103, 9), (dramLoc 0 0x2000, 1)] }
def spl : Word := BitVec.ofNat 64 (8 * 2^40 + 0x40 * 2^12)
def hs (n : Nat) (g : BitVec 7) : Word := segHandle n g
def full64 : Tbl Segment := (List.range 64).map fun i => (i, sg 1 true false 10 0 [])
def fw (seg : Nat) : Forward := ⟨7, 0, 0, 0, 1, seg, 9, 1, false, 8, 0, true, 1, 3, 0, 0, [], [], 0⟩
def rt (seg : Nat) : Retrace := ⟨8, 0, 0, 1, seg, 9, 1, .i32, none, 0, 0, 1, [], true, [], [], false, 0, 0⟩
def fS (t : Team) (w0 w1 w2 w3 h : Word) : State := { tState [(8,w0),(9,w1),(10,w2),(11,w3),(5,h)] with teams := [t] }
def dl : Delivery := ⟨3, 0, 1, 77, 2^41+0x100, 0x2000, 1⟩
def fd : Forward := { fw 4 with todo := [dl, { dl with idx := 4 }] }
def tF : Team := tm [(4, sg 2 true false 10 5 [])] spl
def sD (f : Forward) : State := { sS tF 0 with forwards := [{ f with id := 6 }, f] }
def rc (idx key : Nat) : List Word := recordOf (fw 4) ⟨idx, 0, 1, BitVec.ofNat 32 key, 2^41+0x100, 0x2000, 1⟩ 0 0 0 []
def lg (a b c : List Word) (s : State) : State := { s with routers := [(0, { s.router 0 with log := [⟨0,1,4,0,a⟩, ⟨0,1,4,1,b⟩, ⟨0,1,4,3,c⟩] })] }
def lr (s : State) : State := lg (rc 0 9) (rc 1 5) (rc 3 7) s
def tR : Team := tm [(4, sg 2 true true 10 5 [0, 1, 3])] spl
def ret0 : Retrace := { rt 4 with begun := false, recs := [⟨1,0,false⟩,⟨3,0,false⟩,⟨0,0,false⟩] }
def rS (r : Retrace) : State := rich (lr { sS tR 0 with retraces := [r] })
def rcs (idx key stid : Nat) : List Word := recordOf { fw 4 with gens := [(5, 3)] } ⟨idx, 0, 1, BitVec.ofNat 32 key, 2^41+0x100, 0x2000, 1⟩ 0 stid 0 []
def lrs (s : State) : State := lg (rcs 0 9 5) (rc 1 5) (rcs 3 7 5) s
def chunks1 : List Chunk := [⟨1, 0, true, 0, none, [], false, none⟩, ⟨3, 0, true, 0, none, [], false, some [1,2,3,4,5,6,7,8]⟩]
def rb : Retrace := { ret0 with begun := true, chunks := chunks1, targets := [⟨bytesAt (spadLoc 0 0x100) 4, [(1,0),(3,0)], none, [1,3]⟩] }
def rdone : Retrace := { rb with targets := [], chunks := [⟨3, 0, true, 0, none, [], false, some [1,2,3,4,5,6,7,8]⟩] }
def seat1 : Seat := ⟨1, 0, 1⟩
def acE : AccordEntry := ⟨0, 8, [(8,1,0)], 5⟩
def tA : Team := { tR with seats := [⟨0, 0, 64⟩, ⟨1, 0, 1⟩] }
def rA : Retrace := { rb with chunks := [⟨1, 0, true, 0, none, [0], false, none⟩] }
def sA (c : Nat) : State := let s := lr { sS tA 0 with cycle := c, retraces := [rA] }; s.modRouter 0 fun x => { x with accord := [⟨1,0,[],0⟩, acE] }

theorem witness_segments (h : Obligations.Segments) : True := by
  have := (h false 5 (.s 2) (tm [(0, sg 1 true false 10 0 []), (2, sg 3 true false 10 4 [1])] spl) 0 (sg 0 true false 0 0 []) (sS (tm [(0, sg 1 true false 10 0 []), (2, sg 3 true false 10 4 [1])] spl) 0) (by decide +kernel) (by decide +kernel) (by decide +kernel)).1 (by decide +kernel)
  have := (h false 5 (.s 2) (tm full64 spl) 0 (sg 0 true false 0 0 []) (sS (tm full64 spl) 1) (by decide +kernel) (by decide +kernel) (by decide +kernel)).2.1 (by decide +kernel) (by decide +kernel) (by decide +kernel)
  have := (h false 5 (.s 2) (tm [(0, sg 1 true false 10 0 []), (2, sg 3 true false 10 4 [1])] spl) 1 (sg 0 true false 0 0 []) (sS (tm [(0, sg 1 true false 10 0 []), (2, sg 3 true false 10 4 [1])] spl) 1) (by decide +kernel) (by decide +kernel) (by decide +kernel)).2.2.1 (by decide +kernel) (by decide +kernel) (by decide +kernel) (by decide +kernel) (show _ from by decide +kernel) (Option.get! (fitRun (runUnits 1) (8+0x40) 0x40 (heldRuns (tm [(0, sg 1 true false 10 0 []), (2, sg 3 true false 10 4 [1])] spl) 0))) (by decide +kernel)
  have := (h false 5 (.s 2) (tm [(0, sg 1 true false 10 0 []), (2, sg 3 true false 10 4 [1])] spl) 0 (sg 0 true false 0 0 []) (sS (tm [(0, sg 1 true false 10 0 []), (2, sg 3 true false 10 4 [1])] spl) 7) (by decide +kernel) (by decide +kernel) (by decide +kernel)).2.2.2.1 (by decide +kernel)
  have := (h false 5 (.s 2) (tm [(0, sg 1 true false 10 0 []), (2, sg 3 true false 10 4 [1])] spl) 0 (sg 0 true false 0 0 []) (sS (tm [(0, sg 1 true false 10 0 []), (2, sg 3 true false 10 4 [1])] spl) 7) (by decide +kernel) (by decide +kernel) (by decide +kernel)).2.2.2.2.1 (by decide +kernel) (by decide +kernel)
  have := ((h false 5 (.s 2) (tm [(0, sg 1 true false 10 0 []), (2, sg 3 true false 10 4 [1])] spl) 2 (sg 3 true false 10 4 [1]) (sS (tm [(0, sg 1 true false 10 0 []), (2, sg 3 true false 10 4 [1])] spl) (hs 2 3)) (by decide +kernel) (by decide +kernel) (by decide +kernel)).2.2.2.2.2.1 (by decide +kernel)).1 (by decide +kernel)
  have := ((h false 5 (.s 2) (tm [(0, sg 1 true false 10 0 []), (2, sg 3 true false 10 4 [1])] spl) 2 (sg 3 true false 10 4 [1]) ({ sS (tm [(0, sg 1 true false 10 0 []), (2, sg 3 true false 10 4 [1])] spl) (hs 2 3) with forwards := [fw 2] }) (by decide +kernel) (by decide +kernel) (by decide +kernel)).2.2.2.2.2.1 (by decide +kernel)).2.1 (by decide +kernel)
  have := ((h false 5 (.s 2) (tm [(0, sg 1 true false 10 0 []), (2, sg 3 true false 10 4 [1])] spl) 2 (sg 3 true false 10 4 [1]) (sS (tm [(0, sg 1 true false 10 0 []), (2, sg 3 true false 10 4 [1])] spl) (hs 2 3)) (by decide +kernel) (by decide +kernel) (by decide +kernel)).2.2.2.2.2.1 (by decide +kernel)).2.2.1 (by decide +kernel)
  have := ((h false 5 (.s 2) (tm [(0, sg 1 true false 10 0 []), (2, sg 3 true false 10 4 [1])] spl) 2 (sg 3 true false 10 4 [1]) ({ sS (tm [(0, sg 1 true false 10 0 []), (2, sg 3 true false 10 4 [1])] spl) (hs 2 3) with retraces := [rt 2] }) (by decide +kernel) (by decide +kernel) (by decide +kernel)).2.2.2.2.2.1 (by decide +kernel)).2.2.2 (by decide +kernel)
  have := (h false 5 (.s 2) (tm [(0, sg 1 true false 10 0 []), (2, sg 3 true false 10 4 [1])] spl) 0 (sg 0 true false 0 0 []) (sS (tm [(0, sg 1 true false 10 0 []), (2, sg 3 true false 10 4 [1])] spl) 1) (by decide +kernel) (by decide +kernel) (by decide +kernel)).2.2.2.2.2.2.1 (by decide +kernel) (by decide +kernel) (by decide +kernel) (by decide +kernel)
  have := (h false 5 (.s 2) (tm [(0, sg 1 true false 10 0 []), (2, sg 3 true false 10 4 [1])] spl) 0 (sg 0 true false 0 0 []) (sS (tm [(0, sg 1 true false 10 0 []), (2, sg 3 true false 10 4 [1])] spl) 0) (by decide +kernel) (by decide +kernel) (by decide +kernel)).2.2.2.2.2.2.2 (by decide +kernel) (by decide +kernel)
  trivial

theorem witness_forwardTransfers (h : Obligations.ForwardTransfers) : True := by
  have := ((h false 9 8 (.s 5) 1 false 0 4 0 0 0 tF (sg 2 true false 10 5 []) fd dl [] [] (fS tF 0x20000000100 0x2000 (BitVec.ofNat 64 (2*2^24 + 8)) 0 (hs 4 2))).1 (by decide +kernel) (by decide +kernel) (by decide +kernel) (by decide +kernel) (show _ from by decide +kernel) (by decide +kernel) (by decide +kernel) (by decide +kernel)).1 (by decide +kernel)
  have := ((h false 9 8 (.s 5) 1 false 0 4 0 0 0 (tm [(4, sg 2 true false 6 5 [])] spl) (sg 2 true false 6 5 []) fd dl [] [] (fS (tm [(4, sg 2 true false 6 5 [])] spl) 0x20000000100 0x2000 (BitVec.ofNat 64 (2*2^24 + 8)) 0 (hs 4 2))).1 (by decide +kernel) (by decide +kernel) (by decide +kernel) (by decide +kernel) (show _ from by decide +kernel) (by decide +kernel) (by decide +kernel) (by decide +kernel)).2 (by decide +kernel) (by decide +kernel)
  have := (((h false 9 8 (.s 5) 1 false 0 4 (dramLoc 0 0x2000) 0 0 tF (sg 2 true false 10 5 []) fd dl (bytesAt (spadLoc 0 0x100) 8) [] (sD fd))).2 (by decide +kernel) (by decide +kernel)).1 (by decide +kernel) (by decide +kernel) (by decide +kernel) (by decide +kernel) (show _ from by decide +kernel) (by decide +kernel) (by decide +kernel) (by decide +kernel) (by decide +kernel) (show _ from by decide +kernel) (by decide +kernel) (by decide +kernel) (by decide +kernel) ((congrArg (fun z => engFillRanges z _ _ _) (engFill_held _ (by decide +kernel))).trans (engFill_held _ (by decide +kernel))) (by decide +kernel) (by decide +kernel) (by decide +kernel) (by decide +kernel) (show _ from by decide +kernel) (by decide +kernel) (by decide +kernel) (by decide +kernel) (by decide +kernel) (rmode0 (by decide +kernel)) (by decide +kernel) (waitersOf_nil (by decide +kernel))
  have := (((h false 9 8 (.s 5) 1 false 0 4 0 0 0 tF (sg 2 true false 10 5 []) ({ fd with todo := [], status := 3 }) dl [] [] (sD ({ fd with todo := [], status := 3 })))).2 (by decide +kernel) (by decide +kernel)).2 (by decide +kernel) (by decide +kernel) (by decide +kernel)
  trivial

theorem witness_retraces (h : Obligations.Retraces) : True := by
  have := ((h false 9 8 (.s 5) 7 .i32 1 true false 4 0 tR (sg 2 true true 10 5 [0, 1, 3]) ret0 acE (lr (fS tR 3 4 0 0 (hs 4 2)))).1 (by decide +kernel) (by decide +kernel) (by decide +kernel) (by decide +kernel) (show _ from by decide +kernel) (by decide +kernel) (by decide +kernel)).1 (by decide +kernel) (by decide +kernel)
  have := ((h false 9 8 (.s 5) 7 .i32 1 false false 4 0 tR (sg 2 true true 10 5 [0, 1, 3]) ret0 acE (lrs (fS tR 3 4 0 0 (hs 4 2)))).1 (by decide +kernel) (by decide +kernel) (by decide +kernel) (by decide +kernel) (show _ from by decide +kernel) (by decide +kernel) (by decide +kernel)).2 (by decide +kernel) (by decide +kernel)
  have := ((h false 9 8 (.s 5) 7 .i32 1 false false 4 0 tR (sg 2 true true 10 5 [0, 1, 3]) ret0 acE (rS ret0)).2.1 (by decide +kernel) (by decide +kernel) (by decide +kernel)).1 (by decide +kernel) (by decide +kernel) (rmode0 (by decide +kernel))
  have := ((h false 9 8 (.s 5) 7 .i32 1 false false 4 0 tR (sg 2 true true 10 5 [0, 1, 3]) rb acE (rS rb)).2.1 (by decide +kernel) (by decide +kernel) (by decide +kernel)).2.1 ⟨1,0,true,0,none,[],false,none⟩ (rc 1 5) seat1 ⟨0,0,0⟩ ⟨1,0,false⟩ (bytesAt (dramLoc 0 0x2000) 8) (by decide +kernel) (by decide +kernel) (by decide +kernel) (by decide +kernel) (show _ from by decide +kernel) (by decide +kernel) (by decide +kernel) (by decide +kernel) (by decide +kernel) (show _ from by decide +kernel) (by decide +kernel) (by decide +kernel) (by decide +kernel) (by decide +kernel) (rmode0 (by decide +kernel)) (engFill_held _ (by decide +kernel)) (by decide +kernel) (by decide +kernel) (by decide +kernel) (by decide +kernel) (show _ from by decide +kernel) (by decide +kernel)
  have := ((h false 9 8 (.s 5) 7 .i32 1 false false 4 0 tR (sg 2 true true 10 5 [0, 1, 3]) rdone acE (rS rdone)).2.1 (by decide +kernel) (by decide +kernel) (by decide +kernel)).2.2 (by decide +kernel) (by decide +kernel) (by decide +kernel) (by decide +kernel) (show _ from by decide +kernel)
  have := (h false 9 8 (.s 5) 7 .i32 1 false false 0 0 tA (sg 2 true true 10 5 [0, 1, 3]) rA acE (sA 37)).2.2 ⟨1,0,true,0,none,[0],false,none⟩ (rc 1 5) 1 (by decide +kernel) (by decide +kernel) (by decide +kernel) (by decide +kernel) (show _ from by decide +kernel) (by decide +kernel) (by decide +kernel) (by decide +kernel) (by decide +kernel) (show _ from by decide +kernel)
  trivial

end Expert

/-! ### The matrix engine -/

namespace Matrix

def mS (cfg : Word) (xs : List (Nat × Word)) (acs : BitVec 8) (bfs : BitVec 4) : State :=
  (tState xs).modCore 0 fun c => { c with mparts := [(0, ⟨cfg, cfg⟩)], grants := [(0, ⟨0, 48, acs, bfs⟩)] }
def c0 : Word := 0x14480001
def cN32 : Word := 0x14480221
def pBpi4 : Word := 0x5280000000001000
def pBpi2 : Word := 0x4A80000000001000
def fm (f : Nat) (a : Nat) : Word := BitVec.ofNat 64 (f * 2^58 + a)
def me (op : MOp) (running : Bool) (st : Nat) : MEntry := ⟨30, 0, 0, 9, op, c0, running, [], [], 0, 0, st, [], 1, [], 0⟩
def other : MEntry := { me (.mzero 1) false 0 with id := 31 }
def blk (k : Int) : Block := ⟨0, 128, List.replicate 32 k⟩
def ob (k : Int) : OpBuf := ⟨4, none, [(blockKey 0 0, blk k), (blockKey 3 0, blk (-k))]⟩
def mC (es : List MEntry) : State := (fun s : State => { s with arbiters := [(arbKey 0 0, { Arbiter.blank with buckets := [(0, ⟨3,0,0⟩)] })] }) <| (mS c0 [] 0xFF 0xF).modCore 0 fun c => { c with mq := es, bufs := #v[ob 1, ob 2, ob 3, ob (-2)], accs := c.accs.set 5 (Vector.replicate 1024 (BitVec.ofNat 32 0x3F800000)), locks := [⟨0,5,6,true,30⟩,⟨0,5,6,true,31⟩] }
def md (_n : Nat) (dests : List Nat) (st : Nat) : MEntry := { me (.mld false pBpi2 0 true false false 0 4 0) true st with dests := dests }
def dB (st : Nat) : OpBuf := ((deliveredBuf (md 8 [3] st)).map (·.2)).getD ⟨0,none,[]⟩
def mD (st : Nat) (grant : Bool) (q3 : List MEntry) : State := let s := mC [other, md 8 [3, 4] st]
  s.modCore 3 fun c => { c with mq := q3, grants := [(0, ⟨0, 48, 0xFF, if grant then 0xF else 0⟩)] }
def dv (st : Nat) : MEntry := { me (.deliver 8 (dB st) 0 30) false 0 with id := 40 }

theorem witness_matrixInstructionsQueue (h : Obligations.MatrixInstructionsQueue) : True := by
  have := (h false 9 (.s 2) (.s 3) false true false true false false 0 5 4 0xA5 .rne (mS 0 [(2,0x14480000)] 0xFF 0xF)).1 (by decide +kernel) (by decide +kernel) (by decide +kernel)
  have := (h false 9 (.s 2) (.s 3) false true false true false false 0 5 4 0xA5 .rne (mS c0 [(2,0)] 0xFF 0xF)).2.1 (by decide +kernel) (by decide +kernel) (by decide +kernel)
  have := (h false 9 (.s 2) (.s 3) false true false true false false 0 5 4 0xA5 .rne (mS 0 [(2,0)] 0xFF 0xF)).2.2.1 (by decide +kernel) (by decide +kernel)
  have := ((h false 9 (.s 2) (.s 3) false true false true false false 0 5 4 0xA5 .rne (mS c0 [(2,0)] 0xA5 0xF)).2.2.2 (by decide +kernel)).1 (by decide +kernel) (by decide +kernel)
  have := ((h false 9 (.s 2) (.s 3) false true false true false false 0 5 4 0xA5 .rne (mS c0 [(2,0)] 0x5A 0xF)).2.2.2 (by decide +kernel)).2.1 0 (by decide +kernel) (by decide +kernel) (by decide +kernel) (by decide +kernel) (show _ from by decide +kernel)
  have := ((h false 9 (.s 2) (.s 3) false true false true false false 0 5 4 0xA5 .rne (mS c0 [(2,0)] 0x20 0x6)).2.2.2 (by decide +kernel)).2.2.1 _ (List.Mem.head _) (by decide +kernel) (by decide +kernel) (by decide +kernel)
  have := ((h false 9 (.s 2) (.s 3) false true false true false false 0 5 4 0xA5 .rne (mS c0 [(2,pBpi2),(3,fm 0x20 0x1800)] 0x20 0xF)).2.2.2 (by decide +kernel)).2.2.2.1 _ (List.Mem.head _) (by decide +kernel) (by decide +kernel) |>.1 (by decide +kernel) (by decide +kernel) (by decide +kernel) (by decide +kernel) (show _ from by decide +kernel)
  have := ((h false 9 (.s 2) (.s 3) false true true true false false 0 5 4 0xA5 .rne (mS c0 [(2,pBpi2),(3,fm 0x20 0x1800)] 0x20 0xF)).2.2.2 (by decide +kernel)).2.2.2.1 _ (List.Mem.tail _ (List.Mem.head _)) (by decide +kernel) (by decide +kernel) |>.2 (by decide +kernel) (by decide +kernel) (by decide +kernel) (by decide +kernel)
  have := ((h false 9 (.s 2) (.s 3) false true false true false false 0 5 4 0xA5 .rne (mS c0 [(2,fm 0x0A 0x1000)] 0x20 0xF)).2.2.2 (by decide +kernel)).2.2.2.2 (by decide +kernel) (by decide +kernel) |>.1 (by decide +kernel) (by decide +kernel)
  have := ((h false 9 (.s 2) (.s 3) false true false true false false 0 5 4 0xA5 .rne (mS c0 [(2,fm 0x08 0x1000)] 0x20 0xF)).2.2.2 (by decide +kernel)).2.2.2.2 (by decide +kernel) (by decide +kernel) |>.2.1 (by decide +kernel) (by decide +kernel)
  have := ((h false 9 (.s 2) (.s 3) false true false true false false 0 5 4 0xA5 .rne (mS cN32 [(2,pBpi4),(3,fm 0x20 0x1800)] 0x20 0xF)).2.2.2 (by decide +kernel)).2.2.2.2 (by decide +kernel) (by decide +kernel) |>.2.2.1 (by decide +kernel) (by decide +kernel) (by decide +kernel) (by decide +kernel) (show _ from by decide +kernel) (by decide +kernel) (by decide +kernel) (by decide +kernel) (by decide +kernel)
  have := ((h false 9 (.s 2) (.s 3) false true false true false true 0 5 4 0xA5 .rne (mS c0 [(2,3)] 0x20 0xF)).2.2.2 (by decide +kernel)).2.2.2.2 (by decide +kernel) (by decide +kernel) |>.2.2.2 (by decide +kernel) (by decide +kernel)
  trivial

theorem witness_matrixEntriesStartAndComplete (h : Obligations.MatrixEntriesStartAndComplete) : True := by
  have := (h 0 3 8 (me (.mzero 5) false 0) other (ob 0) (mC [(me (.mzero 5) false 0), other])).1 (by decide +kernel) (by decide +kernel) (by decide +kernel) (by decide +kernel) (rmode0 (by decide +kernel))
  have := ((h 0 3 8 (md 8 [3,4] 0) other (dB 0) (mD 0 false [])).2.2 (by decide +kernel) (by decide +kernel) (by decide +kernel) (by decide +kernel) (show _ from by decide +kernel) (by decide +kernel)).1 (by decide +kernel)
  have := ((h 0 3 8 (md 8 [3,4] 0) other (dB 0) (mD 0 true [other])).2.2 (by decide +kernel) (by decide +kernel) (by decide +kernel) (by decide +kernel) (show _ from by decide +kernel) (by decide +kernel)).2.1 (by decide +kernel) (by decide +kernel)
  have := ((h 0 3 8 (md 8 [3,4] 0) (dv 0) (dB 0) (mD 0 true [dv 0])).2.2 (by decide +kernel) (by decide +kernel) (by decide +kernel) (by decide +kernel) (show _ from by decide +kernel) (by decide +kernel)).2.2 (by decide +kernel) (by decide +kernel) (by decide +kernel) (by decide +kernel) (show _ from by decide +kernel) (by decide +kernel)
  obtain ⟨t, -, -, -, -, -, -, q, -⟩ := (h 0 0 8 (me (.mzero 5) true 0) other (ob 0) (mC [me (.mzero 5) true 0, other])).2.1 (by decide +kernel) (by decide +kernel) (by decide +kernel) (by decide +kernel) (show _ from by decide +kernel) (by decide +kernel)
  have := q 5 (by decide +kernel) 2 (by decide +kernel)
  obtain ⟨t, -, -, -, -, -, -, -, q, -⟩ := (h 0 0 8 (me (.mma 0 5 false true) true 0) other (ob 0) (mC [me (.mma 0 5 false true) true 0, other])).2.1 (by decide +kernel) (by decide +kernel) (by decide +kernel) (by decide +kernel) (show _ from by decide +kernel) (by decide +kernel)
  have := q 0 5 false true (by decide +kernel) (by decide +kernel) (by decide +kernel)
  obtain ⟨t, -, -, -, -, -, -, -, -, q, -⟩ := (h 0 0 8 (me (.mma 0 5 false true) true 1) other (ob 0) (mC [me (.mma 0 5 false true) true 1, other])).2.1 (by decide +kernel) (by decide +kernel) (by decide +kernel) (by decide +kernel) (show _ from by decide +kernel) (by decide +kernel)
  have := q 0 5 false true (by decide +kernel) (by decide +kernel)
  obtain ⟨t, -, -, -, -, -, -, -, -, -, q⟩ := (h 0 0 8 (md 8 [] 0) other (ob 0) (mC [md 8 [] 0, other])).2.1 (by decide +kernel) (by decide +kernel) (by decide +kernel) (by decide +kernel) (show _ from by decide +kernel) (by decide +kernel)
  have := q false pBpi2 0 true false false 0 4 0 (by decide +kernel)
  trivial

end Matrix

/-! ### Heaps, counters and remap windows -/

namespace Heap

def memOf (l : Nat) (ws : List Nat) : List Host.Cell := memWriteN [] l (ws.flatMap fun w => toBytes 8 w)
def hpS (ws : List Nat) (b : Word) : State := { tState [(2, tSpad + 0x200), (3, b)] with mem := memOf (spadLoc 0 0x200) ws }
def hE1 : Nat := 0x3F80000000000001
def hE2 : Nat := 0x4000000000000002
def hE3 : Nat := 0x4040000000000003
def lanesV : VWord := BitVec.ofNat 1024 ((List.range 32).foldl (fun a k => a * 2^32 + (k * 3 % 8)) 0)
def hS (_a : SReg) : State := let s := tState [(2, 0x3000)]; { s with thr := { s.thr with vregs := s.thr.vregs.set 7 lanesV, pregs := s.thr.pregs.set 3 (BitVec.ofNat 128 0xF0F00000FFFF1234) } }
def hits (s : State) (n : Nat) (pg : PReg) : List Item := ((List.range (128 / n)).filter fun i => activeLane (s.thr.getP pg) (8*n) i).map fun i => .one (BitVec.ofInt 52 (((s.thr.getS 2).setWidth 52 : Addr).toNat + 8 * lane (s.thr.getV 7) (8*n) i : Nat) : Addr).toNat 8 true true .sliceOnly
def hx (ovf : Bool) : Access := acc0 (.hist ovf) (dramLoc 0 0x3000) 8 0x3000 [] none
def hxS (ovf : Bool) (v : Nat) : State := { sH (hx ovf) [acc1] with mem := memOf (dramLoc 0 0x3000) [v] }
def rmS (w0 w1 : Nat) (rows : List Nat) (b : Word) : State := { tState [(2, tSpad + 0x200), (3, b)] with mem := memWriteN (memOf (spadLoc 0 0x200) [w0, w1]) (dramLoc 0 0x1FF8) (rows.flatMap fun w => toBytes 8 w) }
def rmV (b : Word) (_bad : Bool) : State := { tState [(3, b)] with vds := [(0, { Vd.blank with isVd := true, remaps := [(5, ⟨1, 64, [0x40]⟩), (6, ⟨1, 64, [0x80]⟩)] })] }

theorem witness_heapSteps (h : Obligations.HeapSteps) : True := by
  have := ((h false 5 (.s 2) (.s 3) (spadLoc 0 0x200) [] (hpS [99,1,2,3,4,5,6,7,8] 1) (by decide +kernel) (by decide +kernel) (by decide +kernel) (by decide +kernel) (show _ from by decide +kernel) (by decide +kernel) (by decide +kernel) (waitersOf_nil (by decide +kernel))).1 (by decide +kernel)).1 (by decide +kernel) (by decide +kernel)
  have := ((h false 5 (.s 2) (.s 3) (spadLoc 0 0x200) [] (hpS [99] 0) (by decide +kernel) (by decide +kernel) (by decide +kernel) (by decide +kernel) (show _ from by decide +kernel) (by decide +kernel) (by decide +kernel) (waitersOf_nil (by decide +kernel))).1 (by decide +kernel)).2.1 (by decide +kernel) (by decide +kernel)
  have := (((h false 5 (.s 2) (.s 3) (spadLoc 0 0x200) [] (hpS [0x3] hE1) (by decide +kernel) (by decide +kernel) (by decide +kernel) (by decide +kernel) (show _ from by decide +kernel) (by decide +kernel) (by decide +kernel) (waitersOf_nil (by decide +kernel))).1 (by decide +kernel)).2.2.1 (by decide +kernel) (by decide +kernel)).1 (by decide +kernel) (by decide +kernel)
  have := (((h false 5 (.s 2) (.s 3) (spadLoc 0 0x200) [] (hpS [0x33,hE1,hE2,hE3] hE3) (by decide +kernel) (by decide +kernel) (by decide +kernel) (by decide +kernel) (show _ from by decide +kernel) (by decide +kernel) (by decide +kernel) (waitersOf_nil (by decide +kernel))).1 (by decide +kernel)).2.2.1 (by decide +kernel) (by decide +kernel)).2.1 (by decide +kernel) (by decide +kernel) (by decide +kernel)
  have := (((h false 5 (.s 2) (.s 3) (spadLoc 0 0x200) [] (hpS [0x33,hE1,hE2,hE3] hE1) (by decide +kernel) (by decide +kernel) (by decide +kernel) (by decide +kernel) (show _ from by decide +kernel) (by decide +kernel) (by decide +kernel) (waitersOf_nil (by decide +kernel))).1 (by decide +kernel)).2.2.1 (by decide +kernel) (by decide +kernel)).2.2 (by decide +kernel)
  have := ((h false 5 (.s 2) (.s 3) (spadLoc 0 0x200) [] (hpS [0] hE1) (by decide +kernel) (by decide +kernel) (by decide +kernel) (by decide +kernel) (show _ from by decide +kernel) (by decide +kernel) (by decide +kernel) (waitersOf_nil (by decide +kernel))).1 (by decide +kernel)).2.2.2 (by decide +kernel) (by decide +kernel) (by decide +kernel) (by decide +kernel)
  have := ((h false 5 (.s 2) (.s 3) (spadLoc 0 0x200) [] (hpS [0x03] 0) (by decide +kernel) (by decide +kernel) (by decide +kernel) (by decide +kernel) (show _ from by decide +kernel) (by decide +kernel) (by decide +kernel) (waitersOf_nil (by decide +kernel))).2 (by decide +kernel) (by decide +kernel) (by decide +kernel)).1 (by decide +kernel)
  have := ((h false 5 (.s 2) (.s 3) (spadLoc 0 0x200) [] (hpS [0x11,hE1] 0) (by decide +kernel) (by decide +kernel) (by decide +kernel) (by decide +kernel) (show _ from by decide +kernel) (by decide +kernel) (by decide +kernel) (waitersOf_nil (by decide +kernel))).2 (by decide +kernel) (by decide +kernel) (by decide +kernel)).2 (by decide +kernel)
  trivial

theorem witness_countersAndRemapWindows (h : Obligations.CountersAndRemapWindows) : True := by
  have := (h false true .w 0 (.s 2) (.s 3) 7 0 [spadLoc 0 0x200] (okLocs (hS 2) (hits (hS 2) 4 0)) (hx false) ⟨0,0x3000,dramLoc 0 0x3000,8,[]⟩ [acc1] (hS 2)).1 (by decide +kernel) (by decide +kernel) (by decide +kernel) (by decide +kernel)
  have := (h false true .w 0 (.s 2) (.s 3) 7 0 [spadLoc 0 0x200] [] (hx true) ⟨0,0x3000,dramLoc 0 0x3000,8,[]⟩ [acc1] (hxS true 0)).2.1 (by decide +kernel) (by decide +kernel) (by decide +kernel) (by decide +kernel) (show _ from by decide +kernel) (by decide +kernel) (by decide +kernel) (waitersOf_nil (by decide +kernel))
  have := ((h false false .w 0 (.s 2) (.s 3) 7 0 [spadLoc 0 0x200] [] (hx false) ⟨0,0x3000,dramLoc 0 0x3000,8,[]⟩ [acc1] (rmS 0x1FF8 (3 + 2^16) [0x40,0x80,0x1000] 64)).2.2.1 (by decide +kernel) (by decide +kernel) (by decide +kernel)).1 (by decide +kernel) (by decide +kernel)
  have := ((h false false .w 0 (.s 2) (.s 3) 7 0 [spadLoc 0 0x200] (okLocs (rmS 0x1FF8 (3 + 2^16) [0x40,0x80,0x1000] 0) (itemsOf sR 0 0 0x1FF8 24 true false .any)) (hx false) ⟨0,0x3000,dramLoc 0 0x3000,8,[]⟩ [acc1] (rmS 0x1FF8 (3 + 2^16) [0x40,0x80,0x1000] 0)).2.2.1 (by decide +kernel) (by decide +kernel) (by decide +kernel)).2 (by decide +kernel) (by decide +kernel) (by decide +kernel) (by decide +kernel) (show _ from by decide +kernel) (by decide +kernel) (by decide +kernel) (by decide +kernel) (by decide +kernel) (show _ from by decide +kernel)
  have := (h false false .w 0 (.s 3) (.s 3) 7 0 [] [] (hx false) ⟨0,0x3000,dramLoc 0 0x3000,8,[]⟩ [] (rmV 64 false)).2.2.2 (by decide +kernel) |>.1 (by decide +kernel) (by decide +kernel)
  have := (h false false .w 0 (.s 3) (.s 3) 7 0 [] [] (hx false) ⟨0,0x3000,dramLoc 0 0x3000,8,[]⟩ [] (rmV 0 false)).2.2.2 (by decide +kernel) |>.2.1 (by decide +kernel) (by decide +kernel)
  have := (h false false .w 0 (.s 3) (.s 3) 7 0 [] [] (hx false) ⟨0,0x3000,dramLoc 0 0x3000,8,[]⟩ [] (rmV 5 false)).2.2.2 (by decide +kernel) |>.2.2 (by decide +kernel) (by decide +kernel) (by decide +kernel)
  trivial

end Heap

/-! ### Dispensers, barriers, tensors, walks -/

namespace Walks

def dq (tasks : List Task) (pl : Nat) (ws : List Nat) : Disp := ⟨0, 0, 1, tasks, pl, ws⟩
def dS (tasks : List Task) (pl : Nat) (ws : List Nat) : State := { tState [(2, 1000), (8, 0xA), (9,0xB)] with disps := [dq tasks pl ws], cycle := 850, threads := [(1, { tThread [] with id := 1, self := 1, st := .waitWork 8, sFull := ~~~(0xF#32 <<< 8) })] }
def tk (p : Nat) : Task := ⟨[p, 7, 8, 9], p⟩
def po (ps : List Posted) : State := { dS [tk 1] 2 [] with posted := ps }
def wtt (s : State) (w : Wait) : State := { s with thr := { s.thr with wait := w } }
def slp (c : Nat) : State := { dS [] 0 [] with threads := [(1, { tThread [] with id := 1, self := 1, st := .sleeping 1000 })], cycle := c }
def bi (arr cnt : BitVec 8) : BarInst := ⟨0, 1, 5, 0, arr, cnt, 0⟩
def bS (bs : List BarInst) : State := (tState []).modCore 0 fun c => { c with bars := bs }
def bW (n : Nat) (e : Bool) : State := { bS [bi 3 3] with threads := [(1, { tThread [] with id := 1, self := 1, wait := .barrier n e, park := some ⟨0,0,0,[],false⟩ })] }
def ptMem (l1 : List (Nat × Nat)) : List Host.Cell := l1.foldl (fun m e => memWriteN m (dramLoc 0 (sysBase + 8 * e.1)) (toBytes 8 e.2)) []
def bigLeaf (pa : Nat) (rwx : Nat) : Nat := 2^63 + 2^62 + rwx * 2^59 + pa
def tD (lo len pitch : Nat) : State := { tState [(2, BitVec.ofNat 64 lo), (3, BitVec.ofNat 64 len), (4, BitVec.ofNat 64 pitch)] with vds := [(0, { Vd.blank with isVd := true, tensors := [(3, ⟨0x10000, 0x8000, 0x200, 4⟩)] })], mem := ptMem [(0, bigLeaf 0 6), (1, bigLeaf (2^21) 4)], back := [(dramLoc 0 0x20000, 1)] }
def fullPins : Router := ⟨(List.range 64).map fun i => ⟨0, 1000 + i, false, true, true, true, false, 0, [1]⟩, [], [], [], []⟩
def tP (r : Router) (lo len : Nat) : State := { tD lo len 0 with routers := [(0, r), (3, ⟨[⟨0, 0, true, true, true, false, false, 0, [9]⟩], [], [], [], []⟩)] }
def ms (nr nw nx : Bool) (ws : List Nat) : Miss := ⟨0, 3, nr, nw, nx, ws, none, false, false, false, 0, []⟩
def mW (m : Miss) (ok : Bool) : State := { tD 0 0 0 with mem := if ok then ptMem [(0, bigLeaf 0 6)] else [], routers := [(0, ⟨[], [m, { m with page := 9 }], [], [], []⟩)], threads := [(1, { tThread [] with id := 1, self := 1 })] }
def iv : Invalidation := ⟨77, some 0, 0, 0, 0, 0, 0x1000, some 500, [12, 13, 99], 5, 1⟩

/-- R412: the tile of the range is written back, and a tile beside it in the same page is not. -/
theorem test_tdef_cleans_tiles : ∀ s : State, s = { State.reset with mem := ptMem [(0, bigLeaf 0 6)] } →
    rangeHolds s 0 0x1000 8 ((mappedLoc s 0 0x11FF).getD 0) = true ∧
    rangeHolds s 0 0x1000 8 ((mappedLoc s 0 0x1200).getD 0) = false := by rintro _ rfl; decide +kernel

theorem witness_dispensersAndSleep (h : Obligations.DispensersAndSleep) : True := by
  have := ((h false 4 8 3 .g .g (.s 2) 30 0 0 0 1 3 1 [1,2,3,4] (tk 5) [] [] [] 1000 0 (dS (List.replicate 126 (tk 1)) 2 [])).1 (by decide +kernel)).1 (by decide +kernel)
  have := ((h false 4 8 3 .g .g (.s 2) 30 0 0 0 1 3 1 [1,2,3,4] (tk 5) [] [] [] 1000 0 (dS (List.replicate 126 (tk 1)) 1 [])).1 (by decide +kernel)).2 (by decide +kernel)
  have := (h false 4 8 3 .g .g (.s 2) 30 0 0 0 1 3 1 [1,2,3,4] (tk 5) [] [] [] 1000 0 (po [.prog 31 0 5, (.disp 30 0 .g 0 0 1 [1,2,3,4] 3)])).2.1 (by decide +kernel) (by decide +kernel) (by decide +kernel) (by decide +kernel)
  have := (h false 8 8 3 .g .g (.s 2) 30 0 0 0 1 3 1 [1,2,3,4] (tk 5) [tk 4, tk 1] [tk 5, tk 2] [2] 1000 0 (dS ([tk 4, tk 1] ++ tk 5 :: [tk 5, tk 2]) 1 [1, 2])).2.2.1 (by decide +kernel) (by decide +kernel) (by decide +kernel) (by decide +kernel) (show _ from by decide +kernel) (by decide +kernel) (by decide +kernel) (by decide +kernel) (by decide +kernel) (show _ from by decide +kernel)
  have := (h false 28 8 3 .g .g (.s 2) 30 0 0 0 1 3 1 [1,2,3,4] (tk 5) [] [] [] 1000 0 (dS [] 0 [5])).2.2.2.1 (by decide +kernel)
  have := (h false 28 8 3 .g .g (.s 2) 30 0 0 0 1 3 1 [1,2,3,4] (tk 5) [] [] [] 1000 0 (wtt (dS [] 0 [5]) (.hold 7 true 0))).2.2.2.2.1 (by decide +kernel)
  have := ((h false 4 8 3 .g .g (.s 2) 30 0 0 0 1 3 1 [1,2,3,4] (tk 5) [] [] [] 1000 0 (dS [] 0 [5])).2.2.2.2.2.1 (by decide +kernel) (by decide +kernel)).1 (by decide +kernel)
  have := ((h false 4 8 3 .g .g (.s 2) 30 0 0 0 1 3 1 [1,2,3,4] (tk 5) [] [] [] 1000 0 ({ dS [] 0 [5] with cycle := 849 })).2.2.2.2.2.1 (by decide +kernel) (by decide +kernel)).2 (by decide +kernel)
  have := (h false 4 8 3 .g .g (.s 2) 30 0 0 0 1 3 1 [1,2,3,4] (tk 5) [] [] [] 1000 0 (wtt (dS [] 0 [5]) (.hold 8 true 0))).2.2.2.2.2.2.1 (by decide +kernel)
  have := (h false 4 8 3 .g .g (.s 2) 30 0 0 0 1 3 1 [1,2,3,4] (tk 5) [] [] [] 1000 0 (slp 850)).2.2.2.2.2.2.2 (by decide +kernel) (by decide +kernel) (by decide +kernel) (by decide +kernel)
  trivial

theorem witness_barriers (h : Obligations.Barriers) : True := by
  have := ((h false .g .g 5 0 1 30 0 0 1 5 0 1 tTeam (bS [])).1 (by decide +kernel)).1 (by decide +kernel) (by decide +kernel)
  have := ((h false .g .g 5 0 1 30 0 0 1 5 0 1 tTeam (bS [])).1 (by decide +kernel)).2.2.2.1 (by decide +kernel)
  have := ((h false .g .g 5 0 1 30 0 0 1 5 0 1 tTeam (bS [bi 1 0])).1 (by decide +kernel)).2.1 (by decide +kernel) (by decide +kernel)
  have := ((h false .g .g 5 0 1 30 0 0 1 5 0 1 tTeam (bS [bi 1 0])).1 (by decide +kernel)).2.2.2.2 (by decide +kernel)
  have := ((h false .g .g 5 9 1 30 0 0 1 5 0 1 tTeam (bS [])).1 (by decide +kernel)).2.2.1 (by decide +kernel) (by decide +kernel)
  have := (h false .g .g 5 0 1 30 0 0 1 5 0 1 tTeam (wtt (bS []) (.barrier 5 true))).2.1 (by decide +kernel)
  have := (h false .g .g 5 0 1 30 0 0 1 5 0 1 tTeam ({ bS [bi 1 0] with posted := [.arrival 30 0 .g 0 1 5 0 1, .prog 31 0 1] })).2.2.1 (by decide +kernel) (by decide +kernel)
  have := (h false .g .g 5 0 1 30 0 0 1 5 0 1 tTeam (bW 5 false)).2.2.2 (by decide +kernel) (by decide +kernel) (by decide +kernel) (by decide +kernel) (show _ from by decide +kernel)
  trivial

theorem witness_progressAndCheckpoints (h : Obligations.ProgressAndCheckpoints) : True := by
  have := (h false .g .g (.s 2) 30 0 5 tTeam (po [])).1 (by decide +kernel)
  have := (h false .g .g (.s 2) 30 0 5 ({ tTeam with progDone := 0 }) ({ po [.prog 30 0 5, .prog 31 0 1] with teams := [({ tTeam with progDone := 0 })] })).2.1 (by decide +kernel) (by decide +kernel)
  have := (h false .g .g (.s 2) 30 0 5 tTeam (po [.ckpt 30 0 .g 5, .prog 31 0 1])).2.2 (by decide +kernel) (by decide +kernel) (by decide +kernel) (by decide +kernel)
  trivial

theorem witness_tensorsAndTranslationEntries (h : Obligations.TensorsAndTranslationEntries) : True := by
  have := ((h false false .k 7 2 (.s 4) 2 5 (tD 131072 1024 512)).1 (by decide +kernel)).1 (by decide +kernel) (by decide +kernel) (by decide +kernel)
  have := ((h false false .k 7 2 (.s 4) 2 0 (tD 0x20000 4 4)).1 (by decide +kernel)).2.1 (by decide +kernel) (by decide +kernel)
  have := ((h false false .k 7 2 (.s 4) 2 5 (tD 0x20000 4 0)).1 (by decide +kernel)).2.2.1 (by decide +kernel) (by decide +kernel) (by decide +kernel)
  have := ((h false false .k 7 2 (.s 4) 2 5 (tD 0xEFFFFFF000 0x2000 0x1000)).1 (by decide +kernel)).2.2.2 (by decide +kernel) (by decide +kernel) (by decide +kernel) (by decide +kernel)
  have := (h false false .k 7 2 (.s 4) 2 5 (tP fullPins 0x1000 0x2000)).2.1 (by decide +kernel) (by decide +kernel) (by decide +kernel) (by decide +kernel) |>.1 (by decide +kernel)
  have := (h false false .k 7 2 (.s 4) 2 5 (tP ⟨[],[],[],[],[]⟩ 0x1FF000 0x2000)).2.1 (by decide +kernel) (by decide +kernel) (by decide +kernel) (by decide +kernel) |>.2 (by decide +kernel)
  have := (h false false .k 7 2 (.s 0) 2 5 (tP ⟨[],[],[],[],[]⟩ 0x1FF000 0x2000)).2.2 (by decide +kernel) (by decide +kernel) |>.1 (by decide +kernel) (by decide +kernel) (by decide +kernel) (by decide +kernel) (show _ from by decide +kernel)
  have := (h false false .k 7 2 (.s 0) 2 5 (tP fullPins 0 0)).2.2 (by decide +kernel) (by decide +kernel) |>.2.1 (by decide +kernel) (by decide +kernel)
  have := (h false false .k 7 2 (.s 0) 2 5 (tP fullPins 0xEFFFFFF000 0x2000)).2.2 (by decide +kernel) (by decide +kernel) |>.2.2 (by decide +kernel) (by decide +kernel) (by decide +kernel)
  trivial

theorem witness_walksAndDeadlines (h : Obligations.WalksAndDeadlines) : True := by
  have := ((h 0 0 3 1 (ms true true false [1]) ((walk (mW (ms true true false [1]) true) 0 3).getD ⟨true,true,true,true,false,0⟩) iv 500 (mW (ms true true false [1]) true)).1 (by decide +kernel) (by decide +kernel) (by decide +kernel)).1 (by decide +kernel) (by decide +kernel) (by decide +kernel) (by decide +kernel)
  have := ((h 0 0 3 1 (ms true true false [1]) ((walk (mW (ms true true false [1]) true) 0 3).getD ⟨true,true,true,true,false,0⟩) iv 500 (mW (ms true true false [1]) false)).1 (by decide +kernel) (by decide +kernel) (by decide +kernel)).2 (by decide +kernel) (by decide +kernel) (by decide +kernel) (by decide +kernel)
  have := (h 0 0 3 1 (ms true true false [1]) ((walk (mW (ms true true false [1]) true) 0 3).getD ⟨true,true,true,true,false,0⟩) iv 500 ({ tD 0 0 0 with invs := [iv, { iv with id := 78 }], cycle := 500 })).2 (by decide +kernel) (by decide +kernel) (by decide +kernel) (by decide +kernel)
  trivial

end Walks

/-! ### Lines, commits and waits -/

namespace Dispense

def thr0 : Thread := { tThread [(5, 77)] with id := 1, self := 1, line := none }
def lineMem (units : List Nat) : List Host.Cell := memWriteN [] (dramLoc 0 0x1000) (units.flatMap fun u => toBytes 2 u)
def goodL : List Nat := [1, 0x2400] ++ List.replicate 29 0 ++ [0x0C31]
def badL : List Nat := [0x41, 0x2400]
def lS (us : List Nat) (x : Thread) : State := { tState [] with mem := lineMem us, threads := [(1, x)] }
def be (k : Nat) (ws : List RegWrite) (f : Form) (done : Bool) (ret : Bool) (fl : Option Nat) : BufEntry := ⟨k, 0x900 + BitVec.ofNat 52 (2*k), ws, f, done, ret, fl, false⟩
def bufS (es : List BufEntry) (st : TStatus) : State := lS goodL { thr0 with buf := es, st := st }
def pk (lim start : Nat) : Park := ⟨start, lim, 0x1234, [], false⟩
def wA (k : AccKind) (wai ta : Bool) (ret : Nat) (loc : Nat) (va : Addr) : Access := { acc0 k loc 8 va [1,2,3,4,5,6,7,8] (some (.s 5)) with waiting := wai, turnedAway := ta, retries := ret, arrived := 3 }
def wS (a : Access) (pre post : List Access) : State := { sH a [] with cores := [(0, { ((sH a []).core 0) with port := pre ++ a :: post })], thr := { (sH a []).thr with wait := .waitge 20 none false, syncl := 4, park := some (pk 10 0) } }
def a18 : Access := { acc1 with id := 18, tid := 1 }
def pk7 (start : Nat) : Park := ⟨start, 1, 0x1234, [7], false⟩
def saving (s : State) : State := { s with teams := [{ tTeam with pre := some ⟨0, 0, 0, 0, 0, 3, false, false, none⟩ }] }

theorem witness_linesAndCommits (h : Obligations.LinesAndCommits) : True := by
  have := ((h 1 3 (dramLoc 0 0x1000) (be 3 [.s 5 1] .plain true false none) 0x5 5 0x1000 d1 1 (lS goodL (thr0)) (by decide +kernel)).1 (by decide +kernel) (by decide +kernel) (by decide +kernel) (by decide +kernel) (show _ from by decide +kernel) (by decide +kernel) (by decide +kernel) (by decide +kernel) (by decide +kernel) (show _ from by decide +kernel) (by decide +kernel) (by decide +kernel)).1 (by decide +kernel)
  have := ((h 1 3 (dramLoc 0 0x1000) (be 3 [.s 5 1] .plain true false none) 0x5 5 0x1000 d1 1 (lS badL thr0) (by decide +kernel)).1 (by decide +kernel) (by decide +kernel) (by decide +kernel) (by decide +kernel) (show _ from by decide +kernel) (by decide +kernel) (by decide +kernel) (by decide +kernel) (by decide +kernel) (show _ from by decide +kernel) (by decide +kernel) (by decide +kernel)).2 (by decide +kernel) (by decide +kernel) (by decide +kernel) (by decide +kernel)
  have := ((h 1 3 (dramLoc 0 0x1000) (be 3 [.s 5 1] .plain true false none) 0x5 5 0x1000 d1 1 (bufS [be 2 [.s 9 1] .plain false false none, (be 3 [.s 5 1] .plain true false none)] .ready) (by decide +kernel)).2.1 (by decide +kernel) (by decide +kernel) (by decide +kernel)).1 (by decide +kernel)
  have := ((h 1 3 (dramLoc 0 0x1000) (be 3 [.s 5 0] (.cpyq 5 5) true false none) 5 5 0x1000 d1 1 (bufS [be 2 [.s 9 1] .plain false false none, (be 3 [.s 5 0] (.cpyq 5 5) true false none)] .ready) (by decide +kernel)).2.1 (by decide +kernel) (by decide +kernel) (by decide +kernel)).2.1 (by decide +kernel) (by decide +kernel)
  have := ((h 1 3 (dramLoc 0 0x1000) (be 3 [.s 5 0] (.tapeq 5 5) true false none) 5 5 0x1000 d1 1 (bufS [be 2 [.s 9 1] .plain false false none, (be 3 [.s 5 0] (.tapeq 5 5) true false none)] .ready) (by decide +kernel)).2.1 (by decide +kernel) (by decide +kernel) (by decide +kernel)).2.2.1 (by decide +kernel) (by decide +kernel)
  have := ((h 1 3 (dramLoc 0 0x1000) (be 3 [.s 5 0] (.planset 5 0x1000 d1 1) true false none) 0x5 5 0x1000 d1 1 (bufS [be 2 [.s 9 1] .plain false false none, (be 3 [.s 5 0] (.planset 5 0x1000 d1 1) true false none)] .ready) (by decide +kernel)).2.1 (by decide +kernel) (by decide +kernel) (by decide +kernel)).2.2.2 (by decide +kernel) (by decide +kernel)
  have := (h 1 2 0 (be 2 [.s 9 1] .plain true true none) 5 5 0x1000 d1 1 (bufS [be 2 [.s 9 1] .plain true true none] (.switchWait .go)) (by decide +kernel)).2.2 (by decide +kernel) (by decide +kernel) (by decide +kernel)
  trivial

theorem witness_asynchronousCausesAndWaits (h : Obligations.AsynchronousCausesAndWaits) : True := by
  have := (h.1 1 ⟨0x0B, 5, none, 0⟩ [⟨8, 6, none, 0⟩] (pk 1 0) (lS goodL ({ thr0 with pend := [⟨0x0B, 5, none, 0⟩, ⟨8, 6, none, 0⟩] })) (by decide +kernel) (by decide +kernel) (by decide +kernel) (by decide +kernel) (show _ from by decide +kernel) (by decide +kernel) (by decide +kernel)).1 (by decide +kernel) (by decide +kernel) (by decide +kernel) (by decide +kernel)
  have := (h.1 1 ⟨0,0,none,0⟩ [] (pk7 50) ({ lS goodL ({ thr0 with pend := [], sFull := ~~~(1#32 <<< 7), park := some (pk7 50) }) with cycle := 1074 }) (by decide +kernel) (by decide +kernel) (by decide +kernel) (by decide +kernel) (show _ from by decide +kernel) (by decide +kernel) (by decide +kernel)).2 (by decide +kernel) (by decide +kernel) (by decide +kernel) (by decide +kernel)
  have := h.2.1 1 (pk7 50) { lS goodL ({ thr0 with pend := [], sFull := ~~~(1#32 <<< 7), hm := true, park := some (pk7 50) }) with cycle := 1074 } (by decide +kernel) (by decide +kernel) (by decide +kernel) (by decide +kernel) (show _ from by decide +kernel) (by decide +kernel) (by decide +kernel)
  have := (h.2.2 0 (wA .ldf true false 4 (spadLoc 0 0x110) (2^41+0x110)) ⟨0,(2^41+0x110),(spadLoc 0 0x110),8,[1,2,3,4,5,6,7,8]⟩ [a18] [acc1] 4 5 (wS (wA .ldf true false 4 (spadLoc 0 0x110) (2^41+0x110)) [a18] [acc1]) (by decide +kernel) (by decide +kernel) (by decide +kernel) (by decide +kernel)).1 (by decide +kernel) (by decide +kernel) (by decide +kernel) (by decide +kernel) (show _ from by decide +kernel)
  have := (h.2.2 0 (wA .ldf false true 0 (spadLoc 0 0x110) (2^41+0x110)) ⟨0,(2^41+0x110),(spadLoc 0 0x110),8,[1,2,3,4,5,6,7,8]⟩ [a18] [acc1] 4 5 (wS (wA .ldf false true 0 (spadLoc 0 0x110) (2^41+0x110)) [a18] [acc1]) (by decide +kernel) (by decide +kernel) (by decide +kernel) (by decide +kernel)).2.2.1 (by decide +kernel) (by decide +kernel) (by decide +kernel) (by decide +kernel)
  have := (h.2.2 0 (wA (.waitge 5) false true 0 (dramLoc 0 0x1010) 0x1010) ⟨0,0x1010,(dramLoc 0 0x1010),8,[1,2,3,4,5,6,7,8]⟩ [a18] [acc1] 4 5 (wS (wA (.waitge 5) false true 0 (dramLoc 0 0x1010) 0x1010) [a18] [acc1]) (by decide +kernel) (by decide +kernel) (by decide +kernel) (by decide +kernel)).2.2.2.1 (by decide +kernel) (by decide +kernel) (by decide +kernel) (by decide +kernel) (show _ from by decide +kernel) (by decide +kernel) (by decide +kernel) (by decide +kernel)
  have := (h.2.2 0 (wA .gath false false 0 (dramLoc 0 0x1010) 0x1010) ⟨0,0x1010,(dramLoc 0 0x1010),8,[1,2,3,4,5,6,7,8]⟩ [] [acc1] 4 5 (wS (wA .gath false false 0 (dramLoc 0 0x1010) 0x1010) [] [acc1]) (by decide +kernel) (by decide +kernel) (by decide +kernel) (by decide +kernel)).2.2.2.2 (by decide +kernel) (by decide +kernel) (by decide +kernel) (by decide +kernel) (show _ from by decide +kernel) (by decide +kernel)
  have := (h.2.2 0 (wA (.waitge 5) true false 0 (spadLoc 0 0x110) (2^41+0x110)) ⟨0,(2^41+0x110),(spadLoc 0 0x110),8,[1,2,3,4,5,6,7,8]⟩ [a18] [acc1] 4 5 (saving (wS (wA (.waitge 5) true false 0 (spadLoc 0 0x110) (2^41+0x110)) [a18] [acc1])) (by decide +kernel) (by decide +kernel) (by decide +kernel) (by decide +kernel)).2.1 (by decide +kernel) (by decide +kernel) (by decide +kernel) (by decide +kernel)
  trivial

end Dispense

/-! ### Queues and rings -/

namespace Lines

def qa (q : Nat) (x : Queue) (e : List Byte) := qS q x (rr rX) e
def alive : State := let s := qa 2 qX (entB 1 0 7 [0x4000, 0x8000000000000001]); { s with teams := [{tTeam with st := .completed}] }
def dead : State := let s := alive; { s with teams := [{ tTeam with st := .refused }] }
def r1 := List.replicate 48 (0xA5 : Byte)
def r2 := List.replicate 48 (0x5A : Byte)
def held (n : Nat) : Ring := { rX with hold := List.replicate n r2 }
def rq (g : Ring) := qS 2 qX (rr g) []

theorem witness_queuesAndRings (h : Obligations.QueuesAndRings) : True := by
  have := (h.1 1 2 5 3 true 0x123456789ABCDEF0 (entB 9 0 0 []) (qa 2 qX []) (by decide +kernel)).1 (by decide +kernel)
  have := h.1 0 0 64 3 true 0x123456789ABCDEF0 (entB 9 0 0 []) (qa 2 qX []) (by decide +kernel)
  have := (h.1 1 2 64 3 false 0x123456789ABCDEF0 (entB 9 0 0 []) (qa 2 {qX with en := false, front := [1]} []) (by decide +kernel)).2.2.2.1 (by decide +kernel)
  have := (h.1 1 2 64 3 false 0x123456789ABCDEF0 (entB 9 0 0 []) (qa 2 {qX with en := false, front := [1]} []) (by decide +kernel)).2.2.2.2.1 (by decide +kernel)
  have := (h.1 1 2 64 3 false 0x123456789ABCDEF0 (entB 9 0 0 []) (qa 2 {qX with front := [1]} []) (by decide +kernel)).2.2.2.2.2.1 (by decide +kernel)
  have := (h.1 1 2 64 3 false 0x123456789ABCDEF0 (entB 9 0 0 []) (qa 2 {qX with front := [1]} []) (by decide +kernel)).2.2.2.2.2.2.1 (by decide +kernel)
  have := (h.1 0 0 64 3 false 0x123456789ABCDEF0 (entB 9 0 0 []) (qa 2 {qX with front := [1]} []) (by decide +kernel)).2.2.2.2.2.2.2.1 (by decide +kernel) (by decide +kernel) (by decide +kernel)
  have := ((h.1 1 2 64 3 true 0x123456789ABCDEF0 (entB 1 0 7 [0x4000, 0x8000000000000001]) alive (by decide +kernel)).2.2.2.2.2.2.2.2 (by decide +kernel) (by decide +kernel)).2.2 (by decide +kernel) (by decide +kernel) (by decide +kernel)
  have := (h.1 1 2 64 3 true 0x123456789ABCDEF0 (entB 9 0 0 []) (qa 2 qX []) (by decide +kernel)).2.1 (by decide +kernel)
  have := ((h.1 1 2 64 3 true 0 (entB 9 0 0 []) (qa 2 qX (entB 9 0 0 [])) (by decide +kernel)).2.2.2.2.2.2.2.2 (by decide +kernel) (by decide +kernel)).1 (by decide +kernel)
  have := ((h.1 1 2 64 3 true 0 (entB 1 0 7 [0x4000, 0x8000000000000001]) dead (by decide +kernel)).2.2.2.2.2.2.2.2 (by decide +kernel) (by decide +kernel)).2.1 (by decide +kernel) (by decide +kernel) (by decide +kernel)
  have := (h.2 1 0 0x1FFFF r1 [r2] rX (rq rX) (by decide +kernel)).1 (by decide +kernel) (by decide +kernel) (by decide +kernel)
  have := ((h.2 1 0 0 r1 [] (held 255) (rq (held 255)) (by decide +kernel)).2.1 (by decide +kernel)).2.1 (by decide +kernel)
  have := ((h.2 1 0 0 r1 [] (held 256) (rq (held 256)) (by decide +kernel)).2.1 (by decide +kernel)).2.2 (by decide +kernel)
  have := (h.2 1 0 0x1FFFF r1 [r2] rX (rq rX) (by decide +kernel)).2.2.1 (by decide +kernel)
  have := ((h.2 1 0 0x1FFFD r1 [r2] {rX with hold := [r1]} (rq {rX with hold := [r1]}) (by decide +kernel)).2.2.2 (by decide +kernel) (by decide +kernel)).1 (by decide +kernel) (by decide +kernel)
  have := ((h.2 1 0 0x1FFFD r1 [r2] {rX with hold := [r1, r2]} (rq {rX with hold := [r1, r2]}) (by decide +kernel)).2.2.2 (by decide +kernel) (by decide +kernel)).2 (by decide +kernel)
  trivial

end Lines

/-! ### Selection of launches -/

namespace Queues

def sec (t r off len addr : Nat) : List Byte := toBytes 2 t ++ toBytes 2 r ++ toBytes 4 off ++ toBytes 4 len ++ toBytes 4 0 ++ toBytes 8 addr
def modB (magic flags : Nat) : List Byte := let h := toBytes 4 magic ++ toBytes 2 1 ++ toBytes 2 3 ++ toBytes 2 1 ++ toBytes 2 flags ++ toBytes 4 64 ++ toBytes 4 296
   h ++ List.replicate (64 - h.length) 0 ++ sec 1 0 192 64 0x200000 ++ sec 4 0xFFFF 256 8 0 ++ sec 3 0xFFFF 264 32 0 ++ List.replicate 56 0 ++ textB ++ (toBytes 2 0 ++ toBytes 1 2 ++ toBytes 1 0 ++ toBytes 4 4) ++ (0x61 :: List.replicate 31 0)
def mMem (magic flags : Nat) (dw : List Nat) (m : List Host.Cell) : List Host.Cell :=
  grpMem (memWriteN (memWriteN (ptes [(0, RWl), (1, RXl)] m) (dramLoc 0 0x10000) (modB magic flags)) (dramLoc 0 0x20000) (dscB dw))
def lauS (magic flags : Nat) (dw : List Nat) (e : List Byte) (f : Queue → Queue := id) : State :=
  let s := qS 2 (f qX) (rr rX) e
  { s with teams := [], threads := [], thr := Thread.blank 9999, cores := [], mem := mMem magic flags dw s.mem, vds := [(0, { (s.vd 0) with slotMap := [(0, 0xFF), (1, 0x3), (2, 0x1)], grantMap := [(0, 0x0F0F2008#32)] })] }
def EMB := 0x01424D45
def withTok (s : State) : State := {s with vds := [(0, {s.vd 0 with lrate := 0x0102030405060708, ltokens := Vector.replicate 8 5000000 })]}
def frS : State := let s := lauS EMB 0 dw0 launch0 (fun x => {x with front := [1, 5]}); {s with teams := [{tTeam with st := .reposted, q := 2}]}
def selS : State := withTok (lauS EMB 0 dw0 launch0)
def badS : State := withTok (lauS 0 0 dw0 launch0)
def u0 (s : State) : State := { s with vds := tblPut s.vds 0 { (((s.vd 0).refill (s.time 0)).spend 2) with selections := 1 } }
theorem launch_is_sound : (validate (u0 selS) 0 (numAt launch0 8 8)).isRight = true := by decide +kernel
theorem launch_is_unsound : (validate (u0 badS) 0 (numAt launch0 8 8)).isLeft = true := by decide +kernel
def gone (s : State) : State := s.modPkg 0 fun p => { p with erased := true }

theorem witness_launchesAreSelected (h : Obligations.LaunchesAreSelected) : True := by
  have := (h 0 2 1 [] launch0 (gone selS) (by decide +kernel) (by decide +kernel) (by decide +kernel) (by decide +kernel) (show _ from by decide +kernel) (by decide +kernel) (by decide +kernel) (by decide +kernel) (by decide +kernel) (show _ from by decide +kernel)).1 (by decide +kernel) (by decide +kernel) (by decide +kernel) (by decide +kernel)
  have := ((h 0 2 1 [5] launch0 (withTok frS) (by decide +kernel) (by decide +kernel) (by decide +kernel) (by decide +kernel) (show _ from by decide +kernel) (by decide +kernel) (by decide +kernel) (by decide +kernel) (by decide +kernel) (show _ from by decide +kernel)).2 (by decide +kernel)).1 (by decide +kernel)
  have := ((h 0 2 1 [] launch0 selS (by decide +kernel) (by decide +kernel) (by decide +kernel) (by decide +kernel) (show _ from by decide +kernel) (by decide +kernel) (by decide +kernel) (by decide +kernel) (by decide +kernel) (show _ from by decide +kernel)).2 (by decide +kernel)).2 (by decide +kernel) (by decide +kernel) (by decide +kernel)
  trivial

end Queues

/-! ### Placement, start and completion of launches -/

namespace Launches

/-- The first two leaves of the table of VD 0: 2 MiB to read and write, then 2 MiB to read and execute. -/
def leaves : List Host.Cell := memWriteN [] (dramLoc 0 sysBase) (toBytes 8 (2 ^ 63 + 2 ^ 62 + 2 ^ 61 + 2 ^ 60) ++ toBytes 8 (2 ^ 63 + 2 ^ 62 + 2 ^ 61 + 2 ^ 59 + 0x200000))
def sel : Team := { tTeam with st := .selected, places := [(0, 2, 3)], roles := [⟨0x200000, 0x40, 2, 0x2000, 0x50, 1⟩], seats := [], loaded := [] }
def lS (y : Team) (ths : Tbl Thread) : State :=
  { tState [] with
    teams := [y], threads := ths, thr := Thread.blank 9999, cores := [], mem := leaves,
    vds := [(0, { Vd.blank with isVd := true, ways := 16, slotMap := [(0, 0xFF), (1, 0x3)] })] }
def thr0 : Thread := { tThread [(5, 77)] with line := none }
def aw : Team := { sel with
    seats := [⟨0, 0, 40⟩, ⟨1, 0, 41⟩, ⟨2, 0, 48⟩],
    shadows := [{ thr0 with id := 40 }, { thr0 with id := 48, pc := 77, st := .sleeping 5, l0 := ⟨true, 1, 2, 3⟩ }], restarts := 2, counts := [(41, 6)],
    savedCores := [⟨5, Tags.zero, 3, [], [], [], [(3, 9)], [16], ⟨1, 2⟩, Vector.replicate 8 (Vector.replicate 1024 0), Vector.replicate 8 none, Vector.replicate 4 ⟨0, none, []⟩⟩] }
def bd (loaded : List Nat) : Team := { sel with st := .bound, seats := [⟨0, 0, 0⟩, ⟨1, 0, 1⟩, ⟨2, 0, 8⟩], loaded := loaded }
def bS (loaded : List Nat) : State := lS (bd loaded) [(0, { thr0 with id := 0, st := .loading }), (1, { thr0 with id := 1, st := .loading })]
def dn : Team := { tTeam with segs := [(1, ⟨1, true, 0, 0, false, 0, 0, 0, [], []⟩)] }
def dnS : State := { lS dn [(0, { thr0 with id := 0, st := .retired }), (1, { thr0 with id := 1, st := .retired })] with disps := [⟨0, 0, 1, [⟨[], 1⟩], 2, []⟩] }

theorem witness_launchesBindAndStart (h : Obligations.LaunchesBindAndStart) : True := by
  have := ((h 0 0 0 1 sel [[0, 1]] 0 (lS sel [])).1 (by decide +kernel) (by decide +kernel) (by decide +kernel) (by decide +kernel) (show _ from by decide +kernel) (by decide +kernel) (by decide +kernel)).1 (by decide +kernel) (by decide +kernel) (by decide +kernel)
  have := ((h 0 0 0 1 aw [[0, 1]] 0 (lS aw [])).1 rfl rfl (by decide +kernel) (by decide +kernel) (by decide +kernel) (by decide +kernel) (show _ from by decide +kernel)).2 (by decide +kernel) (by decide +kernel)
  have := (h 0 0 0 1 (bd []) [] 0 (bS [])).2.1 (by decide +kernel) (by decide +kernel) (by decide +kernel) (by decide +kernel) (show _ from by decide +kernel)
  have := (h 0 1 0 1 (bd [0]) [] 0 (bS [0])).2.1 (by decide +kernel) (by decide +kernel) (by decide +kernel) (by decide +kernel) (show _ from by decide +kernel)
  have := (h 0 0 0 1 (bd [0]) [] 0 (bS [0])).2.2.1 (by decide +kernel) (by decide +kernel) (by decide +kernel) (by decide +kernel)
  have := (h 0 0 0 1 dn [] 0 dnS).2.2.2 (by decide +kernel) (by decide +kernel) (by decide +kernel) (by decide +kernel) (show _ from by decide +kernel)
  trivial

end Launches

/-! ### Pre-emption, discards and saves -/

namespace Preempt

def pS (y : Team) (allow deadline : Nat) (host : Bool := false) : State := let s := qS 2 qX (rr rX) (pe allow deadline)
  { s with teams := [y], threads := [(1, base)], cycle := 10000, vds := [(0, { (s.vd 0) with rmode := if host then 4 else 0, rates := Vector.replicate 9 ⟨64, 0, false, false⟩ })] }
def y07 : Team := { tmP with pre := some ⟨1, 2, 9, 100, 7, 0, true, false, some 5⟩ }
def y17 : Team := { tmP with pre := some ⟨1, 2, 9, 100, 7, 1, true, true, none⟩ }
def yc : Team := { tmP with capbads := 4096 }
def yd : Team := { yc with pre := some ⟨0, 0, 0, 0, 0, 4, false, false, none⟩ }
def haltS (y : Team) : State := let s := pS y 7 0; { s with thr := { s.thr with stop := 2 }, threads := [(1, {base with st := .retired})] }
def yp (a : Nat) : Team := { tmP with pre := some ⟨1, 2, 9, 5, 7, a, false, false, none⟩, segs := [(1, ⟨1, true, 0, 0, false, 0, 0, 0, [], []⟩)] }

theorem witness_preemptionRequests (h : Obligations.PreemptionRequests) : True := by
  have := ((h 1 2 0 1 (pe 7 100) tmP p0 (pS tmP 7 100) (by decide +kernel)).1 (by decide +kernel) (by decide +kernel) (by decide +kernel) (by decide +kernel) (show _ from by decide +kernel) (by decide +kernel) (by decide +kernel) (by decide +kernel) (by decide +kernel) (show _ from by decide +kernel) (by decide +kernel) (by decide +kernel)).1 (by decide +kernel)
  have := ((h 1 2 0 1 (pe 7 100) tmP p0 (pS tmP 7 100 true) (by decide +kernel)).1 (by decide +kernel) (by decide +kernel) (by decide +kernel) (by decide +kernel) (show _ from by decide +kernel) (by decide +kernel) (by decide +kernel) (by decide +kernel) (by decide +kernel) (show _ from by decide +kernel) (by decide +kernel) (by decide +kernel)).2 (by decide +kernel)
  have := ((h 1 2 0 1 [] y07 ⟨1, 2, 9, 100, 7, 0, true, false, some 5⟩ (pS y07 7 0) (by decide +kernel)).2.1 (by decide +kernel) (by decide +kernel) (by decide +kernel) (by decide +kernel)).1 (by decide +kernel)
  have := ((h 1 2 0 1 [] y17 ⟨1, 2, 9, 100, 7, 1, true, true, none⟩ (pS y17 7 0) (by decide +kernel)).2.1 (by decide +kernel) (by decide +kernel) (by decide +kernel) (by decide +kernel)).2 (by decide +kernel) (by decide +kernel)
  have := (h 1 2 0 1 [] yc p0 (pS yc 7 0) (by decide +kernel)).2.2.1 (by decide +kernel) (by decide +kernel) (by decide +kernel) (by decide +kernel)
  have := (h 1 2 0 1 [] yd p0 (haltS yd) (by decide +kernel)).2.2.2 (by decide +kernel) (by decide +kernel) (by decide +kernel) (by decide +kernel) (show _ from by decide +kernel) (by decide +kernel)
  trivial

theorem witness_discardsAndSaves (h : Obligations.DiscardsAndSaves) : True := by
  have := (h 0 1 (yp 2) ⟨1, 2, 9, 5, 7, 2, false, false, none⟩ (haltS (yp 2)) (by decide +kernel) (by decide +kernel) (by decide +kernel) (by decide +kernel) (show _ from by decide +kernel)).1 (by decide +kernel) (by decide +kernel)
  have := (h 0 1 (yp 5) ⟨1, 2, 9, 5, 7, 5, false, false, none⟩ (haltS (yp 5)) (by decide +kernel) (by decide +kernel) (by decide +kernel) (by decide +kernel) (show _ from by decide +kernel)).2.1 (by decide +kernel) (by decide +kernel)
  have := (h 0 1 (yp 3) ⟨1, 2, 9, 5, 7, 3, false, false, none⟩ (haltS (yp 3)) (by decide +kernel) (by decide +kernel) (by decide +kernel) (by decide +kernel) (show _ from by decide +kernel)).2.2 (by decide +kernel) (by decide +kernel) (by decide +kernel) (by decide +kernel) (show _ from by decide +kernel) (by decide +kernel)
  trivial

end Preempt

/-! ### Entries of the host -/

namespace HostEntry

def entryB (type flags token : Nat) (ws : List Nat) : List Byte :=
  let b := toBytes 1 type ++ toBytes 1 flags ++ toBytes 2 0 ++ toBytes 4 token ++ ws.flatMap (toBytes 8)
  b ++ List.replicate (64 - b.length) 0
def hostQ : Queue := { Queue.blank with base := 0x3000, log := 6, head := 63, tail := 2, en := true }
/-- Queue 2 of function 1 has the entry at its head; VD 0 has handles 5 and 6. -/
def eS (e : List Byte) (teams : List Team) : State :=
  let s := { tState [] with
    fns := [(0, Function.blank), (1, Function.blank)], teams := teams,
    vds := [(0, { Vd.blank with isVd := true, ways := 16, handles := [(5, ⟨1, 2, 3, [4]⟩), (6, ⟨9, 9, 9, []⟩)] })],
    routers := [(0, ⟨[⟨0, 512, true, true, true, true, false, 0, []⟩, ⟨0, 513, false, true, true, true, false, 0, [4]⟩], [], [], [], []⟩)] }
  let s := s.modQueue 1 2 fun _ => hostQ
  { s with mem := memWriteN s.mem (hostLoc 1 (0x3000 + 64 * 63)) e }
def user : Team := { tTeam with uses := [(5, true, false)] }
def defE : List Byte := entryB 4 0 7 [5, 0x1000, 0x2000]
def dropE : List Byte := entryB 5 0 7 [5]
def invE : List Byte := entryB 3 0 77 [0x201000, 0x1000]

theorem witness_hostEntriesAndAccesses (h : Obligations.HostEntriesAndAccesses) : True := by
  have := (h.1 1 2 defE (eS defE []) (by decide +kernel) (by decide +kernel) (by decide +kernel) (by decide +kernel)).1 (by decide +kernel) (by decide +kernel)
  have := (h.1 1 2 dropE (eS dropE []) (by decide +kernel) (by decide +kernel) (by decide +kernel) (by decide +kernel)).2.1 (by decide +kernel) (by decide +kernel)
  have := (h.1 1 2 defE (eS defE [user]) (by decide +kernel) (by decide +kernel) (by decide +kernel) (by decide +kernel)).2.2.1 (by decide +kernel) (by decide +kernel)
  have := (h.1 1 2 invE (eS invE []) (by decide +kernel) (by decide +kernel) (by decide +kernel) (by decide +kernel)).2.2.2 (by decide +kernel) (by decide +kernel) (by decide +kernel) (by decide +kernel) (show _ from by decide +kernel)
  trivial

end HostEntry

/-! ### Accesses of the host -/

namespace HostAccess2

def sec (t r off len addr : Nat) : List Byte := toBytes 2 t ++ toBytes 2 r ++ toBytes 4 off ++ toBytes 4 len ++ toBytes 4 0 ++ toBytes 8 addr
def modB (magic flags : Nat) : List Byte := let h := toBytes 4 magic ++ toBytes 2 1 ++ toBytes 2 3 ++ toBytes 2 1 ++ toBytes 2 flags ++ toBytes 4 64 ++ toBytes 4 296
   h ++ List.replicate (64 - h.length) 0 ++ sec 1 0 192 64 0x200000 ++ sec 4 0xFFFF 256 8 0 ++ sec 3 0xFFFF 264 32 0 ++ List.replicate 56 0 ++ textB ++ (toBytes 2 0 ++ toBytes 1 2 ++ toBytes 1 0 ++ toBytes 4 4) ++ (0x61 :: List.replicate 31 0)
def mMem (magic flags : Nat) (dw : List Nat) (m : List Host.Cell) : List Host.Cell :=
  grpMem (memWriteN (memWriteN (ptes [(0, RWl), (1, RXl)] m) (dramLoc 0 0x10000) (modB magic flags)) (dramLoc 0 0x20000) (dscB dw))
def lauS (magic flags : Nat) (dw : List Nat) (e : List Byte) (f : Queue → Queue := id) : State :=
  let s := qS 2 (f qX) (rr rX) e
  { s with teams := [], threads := [], thr := Thread.blank 9999, cores := [], mem := mMem magic flags dw s.mem, vds := [(0, { (s.vd 0) with slotMap := [(0, 0xFF), (1, 0x3), (2, 0x1)], grantMap := [(0, 0x0F0F2008#32)] })] }
def hS : State := let s := lauS 0x01424D45 0 dw0 launch0; { s with vds := [(0, {s.vd 0 with trig := 0x1008, measured := 7})] }
def n0 : BitVec 256 := 0x1234
def ll (off : Nat) : Leaf × Nat := (hdmAt hS 0 off).getD (⟨false, false, false, false, false, 0⟩, 0)
def bs8 : List Byte := [1,2,3,4,5,6,7,8]
def hUe : State := { hS with ue := [(dramLoc 0 0x1020, 8)] }

theorem witness_hostEntriesAndAccesses (h : Obligations.HostEntriesAndAccesses) : True := by
  have := (((h.2 0 0x1038 1 (ll 0x1038).2 8 bs8 n0 (ll 0x1038).1 hS).1 (by decide +kernel)).1 (by decide +kernel) (by decide +kernel) (by decide +kernel)).1 (by decide +kernel) (by decide +kernel) (by decide +kernel) (waitersOf_nil (by decide +kernel))
  have := (((h.2 0 0x200038 1 (ll 0x200038).2 8 bs8 n0 (ll 0x200038).1 hS).1 (by decide +kernel)).1 (by decide +kernel) (by decide +kernel) (by decide +kernel)).2.1 (by decide +kernel)
  have := (((h.2 0 0x1020 1 (ll 0x1020).2 8 [1,2,3,4] n0 (ll 0x1020).1 hUe).1 (by decide +kernel)).1 (by decide +kernel) (by decide +kernel) (by decide +kernel)).2.2 (by decide +kernel) (by decide +kernel) (by decide +kernel)
  have := (((h.2 0 0x1038 1 (ll 0x1038).2 8 bs8 n0 (ll 0x1038).1 hS).1 (by decide +kernel)).2 (by decide +kernel) (by decide +kernel)).1 (by decide +kernel) (by decide +kernel) (by decide +kernel)
  have := (((h.2 0 0x400038 1 (ll 0x400038).2 8 bs8 n0 (ll 0x400038).1 hS).1 (by decide +kernel)).2 (by decide +kernel) (by decide +kernel)).2.1 (by decide +kernel)
  have := (((h.2 0 0x1020 1 (ll 0x1020).2 8 [1,2,3,4] n0 (ll 0x1020).1 hUe).1 (by decide +kernel)).2 (by decide +kernel) (by decide +kernel)).2.2 (by decide +kernel) (by decide +kernel) (by decide +kernel)
  have := ((h.2 0 0x1038 1 (ll 0x1038).2 8 bs8 n0 (ll 0x1038).1 hS).2 (by decide +kernel)).1 (by decide +kernel)
  have := ((h.2 0 0x1038 1 (ll 0x1038).2 8 bs8 n0 (ll 0x1038).1 {hS with pkgs := [(0, {Pkg.blank with erased := true})]}).2 (by decide +kernel)).2 (by decide +kernel)
  trivial

end HostAccess2

/-! ### Cases that the host decides -/

namespace Cases

def sec (t r off len addr : Nat) : List Byte := toBytes 2 t ++ toBytes 2 r ++ toBytes 4 off ++ toBytes 4 len ++ toBytes 4 0 ++ toBytes 8 addr
def modB (magic flags : Nat) : List Byte := let h := toBytes 4 magic ++ toBytes 2 1 ++ toBytes 2 3 ++ toBytes 2 1 ++ toBytes 2 flags ++ toBytes 4 64 ++ toBytes 4 296
   h ++ List.replicate (64 - h.length) 0 ++ sec 1 0 192 64 0x200000 ++ sec 4 0xFFFF 256 8 0 ++ sec 3 0xFFFF 264 32 0 ++ List.replicate 56 0 ++ textB ++ (toBytes 2 0 ++ toBytes 1 2 ++ toBytes 1 0 ++ toBytes 4 4) ++ (0x61 :: List.replicate 31 0)
def mMem (magic flags : Nat) (dw : List Nat) (m : List Host.Cell) : List Host.Cell :=
  grpMem (memWriteN (memWriteN (ptes [(0, RWl), (1, RXl)] m) (dramLoc 0 0x10000) (modB magic flags)) (dramLoc 0 0x20000) (dscB dw))
def ansE (tok val : Nat) : List Byte := entB 6 0 3 [tok, val]
def cS (c : Option HostCase) (e : List Byte) (fn q : Nat) (cyc : Nat := 100) : State := let s := qS q qX (rr rX) e fn; { s with cases := c.toList, cycle := cyc, mem := mMem 1 0 dw0 s.mem }
def ca (k : CaseKind) (fn : Nat := 1) : HostCase := ⟨5, fn, k, 5000, none⟩
def cw := ca (.walk 3 0 7)
def mi : Miss := ⟨0, 7, true, false, false, [1], some 5, false, false, false, 0, []⟩
def T (e : List Byte) (c : Option HostCase) (fn := 1) (q := 2) (cyc := 100) : State := cS c e fn q cyc
def nc : Option HostCase := none
def wS (v : Nat) : State := let s := T (ansE 5 v) (some cw); { s with routers := [(3, ⟨[], [mi, {mi with page := 8, held := none}], [], [], []⟩)] }
def cg := ca (.guard 0 5 7) 0
def gS (v : Nat) : State := T (ansE 5 v) (some cg) 0 0
def cd := ca (.deconf 0 0 none) 0
def dS (c : HostCase) (v : Nat := 1) : State := let s := T (ansE 5 v) (some c) 0 0; { s with vds := [(0, { s.vd 0 with slotMap := [(0,1),(1,2),(127,4),(128,8)] }), (2, {Vd.blank with slotMap := [(3, 1), (127, 2)]})] }
def cp := ca (.preempt 0 1)
def ypr : Team := { tmP with pre := some p0 }
def pNo : PreReq := { p0 with allow := 1 }
def pSno : State := let s := T (ansE 5 2) (some cp); { s with teams := [{ tmP with pre := some pNo }] }
def pS2 : State := let s := T (ansE 5 2) (some cp); { s with teams := [ypr] }
def cr := ca (.retrace 1 (3 * 2^26 + 9))
def rt : Retrace := { id := 4, tid := 1, vk := 0, team := 1, seg := 3, tag := 0, cls := 0, ty := .f32, land := none, soff := 0, doff := 0, phase := 0, recs := [⟨9, 4, true⟩, ⟨10, 5, true⟩], begun := false, chunks := [], targets := [], detour := false, status := 0, ended := 0 }
def rS (v : Nat) : State := let s := T (ansE 5 v) (some cr); { s with teams := [ypr], retraces := [rt, {rt with phase := 1}] }
def csp := ca (.spill 1 2)
def ysp : Team := { tmP with spill := BitVec.ofNat 64 (1 * 2^40 + 0x40000) }
def sS2 (v : Nat) : State := let s := T (ansE 5 v) (some csp); { s with teams := [ysp] }
def late (c : HostCase) (s : State) : State := { s with cases := [c], cycle := 6000 }

theorem witness_hostCases (h : Obligations.HostCases) : True := by
  have := ((h 1 2 (ansE 5 1) cw tmP p0 mi (T (ansE 5 1) nc) (by decide +kernel)).1 (by decide +kernel) (by decide +kernel)).1 (by decide +kernel)
  have := ((h 1 2 (ansE 5 1) cw tmP p0 mi (T (ansE 5 1) (some cw) 1 2 5000) (by decide +kernel)).1 (by decide +kernel) (by decide +kernel)).2.1 (by decide +kernel) (by decide +kernel)
  have := (((h 1 2 (ansE 5 1) cw tmP p0 mi (wS 1) (by decide +kernel)).1 (by decide +kernel) (by decide +kernel)).2.2 (by decide +kernel) (by decide +kernel)).1 3 0 7 rfl (by decide +kernel) (by decide +kernel) (by decide +kernel)
  have := (((h 1 2 (ansE 5 0) cw tmP p0 mi (wS 0) (by decide +kernel)).1 (by decide +kernel) (by decide +kernel)).2.2 (by decide +kernel) (by decide +kernel)).2.1 3 0 7 rfl (by decide +kernel) (by decide +kernel)
  have := (((h 1 2 (ansE 5 2) cw tmP p0 mi (wS 2) (by decide +kernel)).1 (by decide +kernel) (by decide +kernel)).2.2 (by decide +kernel) (by decide +kernel)).2.2.1 3 0 7 rfl (by decide +kernel)
  have := (((h 0 0 (ansE 5 7) cg tmP p0 mi (gS 7) (by decide +kernel)).1 (by decide +kernel) (by decide +kernel)).2.2 (by decide +kernel) (by decide +kernel)).2.2.2.1 0 5 7 rfl (by decide +kernel) (by decide +kernel) (by decide +kernel)
  have := (((h 0 0 (ansE 5 21) cg tmP p0 mi (gS 21) (by decide +kernel)).1 (by decide +kernel) (by decide +kernel)).2.2 (by decide +kernel) (by decide +kernel)).2.2.2.2.1 0 5 7 rfl (by decide +kernel)
  trivial

theorem witness_hostCases_units (h : Obligations.HostCases) : True := by
  have := (((h 0 0 (ansE 5 1) cd tmP p0 mi (dS cd) (by decide +kernel)).1 (by decide +kernel) (by decide +kernel)).2.2 (by decide +kernel) (by decide +kernel)).2.2.2.2.2.1 0 0 none rfl |>.1 (by decide +kernel)
  have := (((h 0 0 (ansE 5 0) cd tmP p0 mi (dS cd 0) (by decide +kernel)).1 (by decide +kernel) (by decide +kernel)).2.2 (by decide +kernel) (by decide +kernel)).2.2.2.2.2.1 0 0 none rfl |>.2.1 (by decide +kernel)
  have := (((h 0 0 (ansE 5 2) cd tmP p0 mi (dS cd 2) (by decide +kernel)).1 (by decide +kernel) (by decide +kernel)).2.2 (by decide +kernel) (by decide +kernel)).2.2.2.2.2.1 0 0 none rfl |>.2.2 (by decide +kernel)
  have := (((h 1 2 (ansE 5 2) cp { tmP with pre := some pNo } pNo mi pSno (by decide +kernel)).1 (by decide +kernel) (by decide +kernel)).2.2 (by decide +kernel) (by decide +kernel)).2.2.2.2.2.2.1 0 1 rfl (by decide +kernel) (by decide +kernel) (by decide +kernel) (by decide +kernel) (show _ from by decide +kernel)
  have := (((h 1 2 (ansE 5 2) cp ypr p0 mi pS2 (by decide +kernel)).1 (by decide +kernel) (by decide +kernel)).2.2 (by decide +kernel) (by decide +kernel)).2.2.2.2.2.2.2.1 0 1 rfl (by decide +kernel) (by decide +kernel) (by decide +kernel) (by decide +kernel) (show _ from by decide +kernel)
  have := (((h 1 2 (ansE 5 77) cr ypr p0 mi (rS 77) (by decide +kernel)).1 (by decide +kernel) (by decide +kernel)).2.2 (by decide +kernel) (by decide +kernel)).2.2.2.2.2.2.2.2.1 1 (3 * 2^26 + 9) rfl ⟨rt, List.Mem.head _, rfl, ypr, (by decide +kernel), (by decide +kernel)⟩
  have := (((h 1 2 (ansE 5 0) cr ypr p0 mi (rS 0) (by decide +kernel)).1 (by decide +kernel) (by decide +kernel)).2.2 (by decide +kernel) (by decide +kernel)).2.2.2.2.2.2.2.2.2.1 1 (3 * 2^26 + 9) rfl (fun ⟨r, hr, _, z, hz, hs⟩ => by
      have hz' : (rS 0).findTeam 0 1 = some z := by
        rcases List.mem_cons.mp hr with rfl | hr
        · exact hz
        · rcases List.mem_singleton.mp hr with rfl
          exact hz
      have hy : some ypr = some z := (show (rS 0).findTeam 0 1 = some ypr by decide +kernel).symm.trans hz'
      cases hy
      exact absurd hs (by decide +kernel))
  trivial

theorem witness_hostCases_late (h : Obligations.HostCases) : True := by
  have := (((h 1 2 (ansE 5 3) csp ysp p0 mi (sS2 3) (by decide +kernel)).1 (by decide +kernel) (by decide +kernel)).2.2 (by decide +kernel) (by decide +kernel)).2.2.2.2.2.2.2.2.2.2 1 2 rfl (by decide +kernel) (by decide +kernel) (by decide +kernel) (by decide +kernel) (show _ from by decide +kernel)
  have := ((h 1 2 (ansE 5 1) csp ysp p0 mi (late csp (sS2 1)) (by decide +kernel)).2 (by decide +kernel) (by decide +kernel)).1 1 2 rfl
  have := ((h 1 2 (ansE 5 1) cr ysp p0 mi (late cr (rS 0)) (by decide +kernel)).2 (by decide +kernel) (by decide +kernel)).2.1 1 (3 * 2^26 + 9) rfl
  have := ((h 1 2 (ansE 5 1) cg ysp p0 mi (late cg (gS 7)) (by decide +kernel)).2 (by decide +kernel) (by decide +kernel)).2.2.1 0 5 7 rfl (by decide +kernel)
  have := ((h 1 2 (ansE 5 1) cw ysp p0 mi (late cw (wS 1)) (by decide +kernel)).2 (by decide +kernel) (by decide +kernel)).2.2.2.1 3 0 7 rfl (by decide +kernel)
  have := ((h 1 2 (ansE 5 1) cd ysp p0 mi (late cd (dS cd)) (by decide +kernel)).2 (by decide +kernel) (by decide +kernel)).2.2.2.2 0 0 none rfl
  trivial

end Cases

/-! ### Virtual devices and their maps -/

namespace Devices

def vS (teams : List Team) (ths : Tbl Thread) : State :=
  { tState [] with
    teams := teams, threads := ths, thr := Thread.blank 9999,
    vds := [(0, { Vd.blank with isVd := true, ways := 10, smax := 4, sways := 2, quar := true }),
      (1, { Vd.blank with isVd := true, ways := 3, slotMap := [(7, 0xF0)], grantMap := [(9, 0x00F00000#32)] })],
    arbiters := [(arbKey 0 5, { Arbiter.blank with buckets := [(0, ⟨5, 0, 0⟩), (2, ⟨5, 0, 0⟩)] })] }
def vA : State := vS [] []
def vB : State := vS [tTeam] [(1, { tThread [] with id := 1, self := 1 })]

theorem witness_virtualDevicesAndMaps (h : Obligations.VirtualDevicesAndMaps) : True := by
  have := (h.1 2 0 0 vA).1 (by decide +kernel) (by decide +kernel)
  have := ((h.1 0 0 0 vA).2.1 (by decide +kernel)).1 (by decide +kernel)
  have := ((h.1 0 0 0 vB).2.1 (by decide +kernel)).2.1 tTeam (by decide +kernel) (by decide +kernel)
  have := ((h.1 0 0 4 vA).2.1 (by decide +kernel)).2.2.2.2.1 (by decide +kernel)
  have := ((h.1 0 0 5 vA).2.1 (by decide +kernel)).2.2.2.2.2.1 (by decide +kernel)
  have := ((h.1 0 0 1037 vB).2.1 (by decide +kernel)).2.2.2.2.2.2.1 (by decide +kernel) (by decide +kernel) (by decide +kernel) (by decide +kernel) (show _ from by decide +kernel)
  have := ((h.1 0 0 14 vB).2.1 (by decide +kernel)).2.2.2.2.2.2.2 (by decide +kernel)
  have := (h.1 0 0 0xFFFFFFFFFFFFFFD0 vA).2.2.1 (by decide +kernel)
  have := (h.1 0 0 0xFFFFFFFFFFFFFFDA vA).2.2.2 1 (by decide +kernel)
  have := (h.2 0 7 1 0x0F 0 vA (by decide +kernel) (by decide +kernel)).1 (by decide +kernel) (by decide +kernel) (by decide +kernel)
  have := (h.2 0 7 1 0x10 0 vA (by decide +kernel) (by decide +kernel)).2.1 (by decide +kernel) (by decide +kernel) (by decide +kernel)
  have := (h.2 0 0 1 0 0 vB (by decide +kernel) (by decide +kernel)).2.2.1 (by decide +kernel)
  have := (h.2 0 0 1 0 0x3100 vA (by decide +kernel) (by decide +kernel)).2.2.2.1 (by decide +kernel)
  have := (h.2 0 9 1 0 0x000F2008 vA (by decide +kernel) (by decide +kernel)).2.2.2.2 (by decide +kernel)
  trivial

end Devices

/-! ### Rates, links, time and temperature -/

namespace Rates

def sec (t r off len addr : Nat) : List Byte := toBytes 2 t ++ toBytes 2 r ++ toBytes 4 off ++ toBytes 4 len ++ toBytes 4 0 ++ toBytes 8 addr
def modB (magic flags : Nat) : List Byte := let h := toBytes 4 magic ++ toBytes 2 1 ++ toBytes 2 3 ++ toBytes 2 1 ++ toBytes 2 flags ++ toBytes 4 64 ++ toBytes 4 296
   h ++ List.replicate (64 - h.length) 0 ++ sec 1 0 192 64 0x200000 ++ sec 4 0xFFFF 256 8 0 ++ sec 3 0xFFFF 264 32 0 ++ List.replicate 56 0 ++ textB ++ (toBytes 2 0 ++ toBytes 1 2 ++ toBytes 1 0 ++ toBytes 4 4) ++ (0x61 :: List.replicate 31 0)
def mMem (magic flags : Nat) (dw : List Nat) (m : List Host.Cell) : List Host.Cell :=
  grpMem (memWriteN (memWriteN (ptes [(0, RWl), (1, RXl)] m) (dramLoc 0 0x10000) (modB magic flags)) (dramLoc 0 0x20000) (dscB dw))
def lauS (magic flags : Nat) (dw : List Nat) (e : List Byte) (f : Queue → Queue := id) : State :=
  let s := qS 2 (f qX) (rr rX) e
  { s with teams := [], threads := [], thr := Thread.blank 9999, cores := [], mem := mMem magic flags dw s.mem, vds := [(0, { (s.vd 0) with slotMap := [(0, 0xFF), (1, 0x3), (2, 0x1)], grantMap := [(0, 0x0F0F2008#32)] })] }
def rS (cyc : Nat) : State := let s := lauS 0x01424D45 0 dw0 launch0; { s with cycle := cyc, vds := [(0, {s.vd 0 with rates := Vector.replicate 9 ⟨700, 100, true, false⟩, newRates := (Vector.replicate 9 none).set 3 (some ⟨5, 6, true, true⟩)})], pkgs := [(0, {Pkg.blank with newRmode := some 5})], cores := [(3, { Core.blank with factor := 128 })] }
def u0 : Offer := ⟨0, 4, 1, 0⟩
def r3 : Rate := ⟨5, 6, true, true⟩
def aS (arb : Nat) (bs : Tbl Bucket) (cyc : Nat) (busy : Nat := 0) (acc : Nat := 5) : State := { rS cyc with arbiters := [(arb, {Arbiter.blank with buckets := bs, accrued := acc, busy := busy, pool := 7 })] }
def A0 := arbKey 0 3
def A3 := arbKey 3 9
def pk0 : Pkg := { Pkg.blank with farEnd := [(2, 1)], number := 0, replays := [(5, 7), (6, 8)], domain := 4, linksUp := [9], timeOff := 100, bands := [(10, 1)] }
def pk1 : Pkg := { Pkg.blank with farEnd := [(7, 0)], number := 1, domain := 4, timeOff := 60 }
def lkS (up : Bool) (cyc : Nat := 2048) : State := { rS cyc with pkgs := [(0, {pk0 with linksUp := if up then [9, 2] else [9], withheld := if up then [1] else []}), (1, {pk1 with linksUp := if up then [7] else []}), (5, {Pkg.blank with domain := 3})] }
def off (x : Nat) : List (Nat × Nat) := [(0, x), (1, 200)]
def LL (up : Bool) (cyc : Nat := 2048) := lkS up cyc
def lz : State := { LL false with pkgs := [(0, { pk0 with linksUp := [] }), (1, pk1)] }
def pu := (LL true).pkg 0
def pd := (LL false).pkg 0

theorem witness_ratesAndArbiters (h : Obligations.RatesAndArbiters) : True := by
  have := ((h 0 0 0 0 0 0 .vertical 0x000000C0050003F0 u0 r3 (rS 1024)).1 (by decide +kernel)).1 (by decide +kernel)
  have := ((h 0 0 0 0 0 0 .dram 0xFFFFFF4000000001 u0 r3 (rS 1024)).1 (by decide +kernel)).2 (by decide +kernel) (by decide +kernel)
  have := (h 0 0 0 0 0 0 .vertical 0 u0 r3 (rS 1024)).2.2.1 (by decide +kernel) rfl (by decide +kernel)
  have := (h 0 0 0 0 0 0 .vertical 0 u0 r3 (rS 1024)).2.2.2.1 (by decide +kernel) 5 (by decide +kernel)
  have := (h 0 0 0 0 0 0 .vertical 0 u0 r3 (rS 1025)).2.1 (by decide +kernel)
  have := (h 0 A0 0 0 0 0 .vertical 0 u0 r3 (aS A0 [(0, ⟨-5, 262100, 3⟩)] 1025)).2.2.2.2.2.1 (by decide +kernel) (by decide +kernel) (by decide +kernel) ⟨-5, 262100, 3⟩ (by decide +kernel)
  have := (h 0 A0 0 0 0 0 .vertical 0 u0 r3 (aS A0 [(0, ⟨100, 262100, 3⟩)] 5)).2.2.2.2.1 (by decide +kernel)
  have := (h 0 A3 0 0 0 0 .vertical 0 u0 r3 (aS A3 [(0, ⟨1, 262100, 14⟩), (16, ⟨9,0,0⟩)] 1025 0 1025)).2.2.2.2.2.2.1 (by decide +kernel) (by decide +kernel) (by decide +kernel) (by decide +kernel) (show _ from by decide +kernel) (by decide +kernel) (by decide +kernel) (by decide +kernel) (by decide +kernel) ⟨1, 262100, 14⟩ (by decide +kernel) (by decide +kernel)
  have := (h 0 A3 0 0 0 0 .vertical 0 ⟨16, 9, 1, 7⟩ r3 (aS A3 [(0, ⟨1, 262100, 14⟩), (16, ⟨9,0,15⟩)] 1025 1026 1025)).2.2.2.2.2.2.2.1 (by decide +kernel) (by decide +kernel) (by decide +kernel)
  have := (h 0 A3 0 0 100 3 .vertical 0 ⟨16, 9, 1, 7⟩ r3 (rS 2048)).2.2.2.2.2.2.2.2.1 (by decide +kernel) (by decide +kernel) (by decide +kernel)
  have := (h 0 A3 0 0 100 5 .vertical 0 ⟨16, 9, 1, 7⟩ r3 (rS 2047)).2.2.2.2.2.2.2.2.2 (by decide +kernel)
  trivial

theorem witness_linksTimeAndTemperature (h : Obligations.LinksTimeAndTemperature) : True := by
  have := (h 0 2 5 1 7 1 2 0 true (off 240) pd (LL false) (by decide +kernel)).1 (by decide +kernel)
  have := ((h 0 2 6 1 7 1 2 0 true (off 240) pd (LL false) (by decide +kernel)).1 (by decide +kernel)).2.2.1 (by decide +kernel)
  have := ((h 0 2 5 1 7 1 2 0 true (off 240) pd (LL false) (by decide +kernel)).1 (by decide +kernel)).2.2.2 (by decide +kernel)
  have := (h 0 2 5 1 7 1 2 0 true (off 240) pd (LL false) (by decide +kernel)).2.1 (by decide +kernel) (by decide +kernel) (by decide +kernel) (by decide +kernel) (show _ from by decide +kernel) (by decide +kernel) (by decide +kernel) (by decide +kernel) (by decide +kernel)
  have := (h 0 2 5 1 7 1 2 0 true (off 240) pu (LL true) (by decide +kernel)).2.2.1 (by decide +kernel) (by decide +kernel)
  have := (h 0 2 5 1 7 1 2 0 false [(0,90),(1,60)] pu (LL true) (by decide +kernel)).2.2.2.1 (by decide +kernel) (by decide +kernel)
  have := (h 0 2 5 1 7 1 2 0 false [(0,100),(1,55)] pu (LL true) (by decide +kernel)).2.2.2.2.1 (by decide +kernel)
  have := (h 0 2 5 1 7 1 2 0 false [(0,41)] (lz.pkg 0) lz (by decide +kernel)).2.2.2.2.1 (by decide +kernel)
  have := ((h 0 2 5 1 7 1 2 0 false [(0,41),(1,30)] pd (LL false) (by decide +kernel)).2.2.2.2.2 (by decide +kernel)).1 (by decide +kernel) (by decide +kernel)
  have := (((h 0 2 5 1 7 1 2 2 false [(0,41),(1,30)] pd (LL false) (by decide +kernel)).2.2.2.2.2 (by decide +kernel)).2 (by decide +kernel)).1 (by decide +kernel)
  have := ((h 0 2 5 1 7 1 2 2 false [(0,41),(1,30)] pd (LL false) (by decide +kernel)).2.2.2.2.2 (by decide +kernel)).2 (by decide +kernel)
  have := (((h 0 2 5 1 7 1 2 2 false [(0,41),(1,30)] pu (LL true) (by decide +kernel)).2.2.2.2.2 (by decide +kernel)).2 (by decide +kernel)).2.2 (by decide +kernel) (by decide +kernel)
  trivial

end Rates

/-! ### Scrubbing, wear, alarms and reset -/

namespace Alarms

def pS (y : Team) (allow deadline : Nat) (host : Bool := false) : State := let s := qS 2 qX (rr rX) (pe allow deadline)
  { s with teams := [y], threads := [(1, base)], cycle := 10000, vds := [(0, { (s.vd 0) with rmode := if host then 4 else 0, rates := Vector.replicate 9 ⟨64, 0, false, false⟩ })] }
def pk (rm : BitVec 3) : Pkg := { Pkg.blank with rmode := rm, images := [⟨7, true⟩, ⟨8, true⟩, ⟨9, true⟩], corrections := [(0, 14), (1, 15)], eccCe := [(0, 0xFFFFFFFF)], wear := [(3, ⟨120, 1, 50, 9, List.replicate 29 7 ++ [80], 5⟩), (4, ⟨40, 1, 50, 9, [], 5⟩)], window := (7000, 8000), linksUp := [4], farEnd := [(4, 1)] }
def sS (rm : BitVec 3) : State := let s := pS tmP 7 100; { s with pkgs := [(0, pk rm), (1, {Pkg.blank with linksUp := [2], farEnd := [(2, 0)]})], teams := [tmP, {tmP with num := 2, st := .saved, seats := []}] }
def sc : Nat × Nat := (scrubUnit (sS 0) 0 .dram 64).getD (0, 0)
def scM : Nat := ((massifAt sc.1).getD (0, 0)).2
def sU : State := { sS 0 with ue := [sc] }
def sCe : State := { sS 2 with ce := [sc] }
def pw : Pkg := { pk 0 with window := (100, 8000) }
def sW : State := { sS 0 with pkgs := [(0, pw)] }
def pr : Pkg := { pk 0 with rollback := 5, configVersion := 4 }
def sR5 : State := { sS 0 with pkgs := [(0, pr)] }

theorem witness_scrubAndWear (h : Obligations.ScrubAndWear) : True := by
  have := (h 0 0 3 130 0 0 0 .dram (pk 0) (sS 0) (by decide +kernel)).1 (by decide +kernel) (by decide +kernel)
  have := ((h 0 64 3 130 sc.1 sc.2 scM .dram (pk 2) (sS 2) (by decide +kernel)).2.1 (by decide +kernel) (by decide +kernel)).1 (by decide +kernel)
  have := ((h 0 64 3 130 sc.1 sc.2 scM .dram (pk 0) sU (by decide +kernel)).2.1 (by decide +kernel) (by decide +kernel)).2.1 (by decide +kernel) (by decide +kernel)
  have := ((h 0 64 3 130 sc.1 sc.2 scM .dram (pk 2) sCe (by decide +kernel)).2.1 (by decide +kernel) (by decide +kernel)).2.2 (by decide +kernel) |>.2 (by decide +kernel)
  have := ((h 0 0 3 130 0 0 0 .dram (pk 0) (sS 0) (by decide +kernel)).2.2.1 (by decide +kernel)).1 (by decide +kernel) (by decide +kernel) (by decide +kernel) (by decide +kernel)
  have := ((h 0 0 3 160 0 0 0 .dram (pk 1) (sS 1) (by decide +kernel)).2.2.1 (by decide +kernel)).2.1 (by decide +kernel) (by decide +kernel) (by decide +kernel)
  have := ((h 0 0 3 1000 0 0 0 .dram (pk 0) (sS 0) (by decide +kernel)).2.2.1 (by decide +kernel)).2.2 (by decide +kernel)
  trivial

theorem witness_alarmsAndReset (h : Obligations.AlarmsAndReset) : True := by
  have := (h.1 0 0 3 7500 (some 0) tmP (pk 0) (sS 0) (by decide +kernel) (by decide +kernel)).2.2.1 (by decide +kernel)
  obtain ⟨t, -, -, q⟩ := (h.1 0 0 3 7500 (some 0) tmP (pk 0) (sS 0) (by decide +kernel) (by decide +kernel)).2.2.2.2.1 (by decide +kernel) (by decide +kernel)
  have := q (by decide +kernel) (by decide +kernel) (by decide +kernel) (by decide +kernel)
  have := (h.1 0 0 3 7500 (some 0) tmP { pk 0 with latch := true } { sS 0 with pkgs := [(0, { pk 0 with latch := true })] } (by decide +kernel) (by decide +kernel)).2.2.2.2.2.2.2.2.1 (by decide +kernel)
  have := (h.1 0 0 3 7500 (some 0) tmP (pk 0) (sS 0) (by decide +kernel) (by decide +kernel)).2.2.2.2.2.2.2.2.2.1 (by decide +kernel)
  have := (h.1 0 0 3 500 (some 0) tmP pw sW (by decide +kernel) (by decide +kernel)).2.2.2.2.2.2.2.2.2.2.1 ⟨(by decide +kernel), (by decide +kernel), Nat.le_add_left _ _⟩
  have := (h.1 0 0 3 8001 (some 0) tmP (pk 0) (sS 0) (by decide +kernel) (by decide +kernel)).2.2.2.2.2.2.2.2.2.2.2 (fun c => absurd c.2.1 (by decide +kernel))
  have := (h.2 0 (pk 0) (sS 0) (by decide +kernel)).1 (by decide +kernel) (by decide +kernel) (by decide +kernel)
  have := (h.2 0 pr sR5 (by decide +kernel)).2 (by decide +kernel)
  trivial

end Alarms

/-! ### Steps, encodings and invariants -/

namespace Steps

/-- One head, SUB, in unit 1; its tail in unit 31 (R4, R33, R34). -/
def subLine : List Nat := [9, 0x240D] ++ List.replicate 29 0 ++ [0x30A1]
def l0 (us : List Nat) : Line := lineOfBytes 0x1000 ((us ++ List.replicate (32 - us.length) 0).flatMap (toBytes 2))
def lineS (a : List Pick) (us : List Nat) : State :=
  let s := tState [(3, 5), (4, 6)]
  { s with agenda := a, thr := { s.thr with line := some (l0 us), pc := 0x1002 }, cycle := 16 }
def isNext (o : Host.Outcome State Fault Refusal) : Bool := match o with
  | .next _ => true
  | _ => false
theorem isNext_iff {o : Host.Outcome State Fault Refusal} (h : isNext o = true) : ∃ t, o = .next t := by
  cases o with
  | next t => exact ⟨t, rfl⟩
  | _ => cases h
theorem reset_steps : ∃ t, step State.reset = .next t := isNext_iff (by decide +kernel)
theorem issuing_steps : ∃ v, exec (.sub false 13 (.s 12) (.s 10))
    ((({ lineS [.turn 0, .tick 3] subLine with agenda := [.tick 3] } : State).refillHeld 0).atTurn 0) = .next v := isNext_iff (by decide +kernel)
theorem illegal_steps : ∃ v, exec (illegalOf ((l0 [9, 0xFFFF]).units 1))
    ((({ lineS [.turn 0, .tick 3] [9, 0xFFFF] with agenda := [.tick 3] } : State).refillHeld 0).atTurn 0) = .next v := isNext_iff (by decide +kernel)

theorem witness_stepRunsTheDecodedInstruction (h : Obligations.StepRunsTheDecodedInstruction) : True := by
  have := ((h 0 [.tick 3] (l0 subLine) (.halt false) (lineS [.turn 0, .tick 3] subLine)).1 (by decide +kernel) (by decide +kernel)).1 (by decide +kernel)
  have := ((h 0 [.tick 3] (l0 subLine) (.halt false) (lineS [.turn 0, .tick 3] subLine)).1 (by decide +kernel) (by decide +kernel)).2.1 (by decide +kernel)
  obtain ⟨v, hv⟩ := issuing_steps
  have := ((h 0 [.tick 3] (l0 subLine) (.halt false) (lineS [.turn 0, .tick 3] subLine)).1 (by decide +kernel) (by decide +kernel)).2.2.2.2.2 (by decide +kernel) (by decide +kernel) (by decide +kernel) (by decide +kernel) (show _ from by decide +kernel) (by decide +kernel) (by decide +kernel) (by decide +kernel) |>.1 (.sub false 13 (.s 12) (.s 10)) (by decide +kernel) v hv
  obtain ⟨v, hv⟩ := illegal_steps
  have := ((h 0 [.tick 3] (l0 [9, 0xFFFF]) (.halt false) (lineS [.turn 0, .tick 3] [9, 0xFFFF])).1 (by decide +kernel) (by decide +kernel)).2.2.2.2.2 (by decide +kernel) (by decide +kernel) (by decide +kernel) (by decide +kernel) (show _ from by decide +kernel) (by decide +kernel) (by decide +kernel) (by decide +kernel) |>.2 .major (by decide +kernel) v hv
  have := (h 0 [] (l0 []) (.lineFetch 1) (lineS [.event (.lineFetch 1)] [9])).2 (by decide +kernel) (by decide +kernel)
  trivial

theorem witness_encodingsRoundTrip (h : Obligations.EncodingsRoundTrip) : True := by
  have := (h (.sub false 13 (.s 12) (.s 10)) (by decide +kernel) (by decide +kernel)).2 (.sub false 13 (.s 12) (.s 10)) (by decide +kernel) (by decide +kernel)
  trivial

theorem witness_formsAreInvariant (h : Obligations.FormsAreInvariant) : True := by
  obtain ⟨t, ht⟩ := reset_steps
  have := h.1 State.reset t (by decide +kernel) ht
  have := h.2 State.reset t (by decide +kernel) ht
  trivial

theorem witness_everyStepGoesOn (h : Obligations.EveryStepGoesOn) : True := by
  have := h.2 State.reset (fun _ _ a => absurd a.symm (List.cons_ne_nil _ _))
  trivial

end Steps

end Sys2Proof.Tests
end

section
/-! SUPPORT. Packages as a table: what one of them is after a change, and which part of the state an event or a fold of
steps leaves alone. -/

namespace Sys2Proof.Machine

/-! ### Tables -/

theorem mem_of_tblFind {α : Type} {t : Tbl α} {k : Nat} {x : α} (h : tblFind t k = some x) : (k, x) ∈ t := by
  induction t with
  | nil => cases h
  | cons c t ih =>
    obtain ⟨j, a⟩ := c
    rw [tblFind] at h
    split at h
    · rename_i hj; subst hj; cases h; exact List.mem_cons_self ..
    · exact List.mem_cons_of_mem _ (ih h)

theorem tblFind_map {α : Type} (f : Nat → α → α) (t : Tbl α) (k : Nat) :
    tblFind (t.map fun e => (e.1, f e.1 e.2)) k = (tblFind t k).map (f k) := by
  induction t with
  | nil => rfl
  | cons c t ih =>
    obtain ⟨j, a⟩ := c
    by_cases hj : j = k
    · subst hj; simp [tblFind]
    · simp [tblFind, hj, ih]

theorem tblGet_of_find {α : Type} {t : Tbl α} {k : Nat} {x d : α} (h : tblFind t k = some x) : tblGet t k d = x := by
  rw [tblGet, h, Option.getD_some]

@[simp] theorem tblGet_del_same {α : Type} (t : Tbl α) (k : Nat) (d : α) : tblGet (tblDel t k) k d = d := by
  rw [tblGet, tblFind_del, if_pos rfl, Option.getD_none]

/-! ### Packages -/

theorem pkg_of_find {s : State} {k : Nat} {p : Pkg} (h : tblFind s.pkgs k = some p) : s.pkg k = p := tblGet_of_find h

theorem modPkg_pkg (s : State) (p k : Nat) (f : Pkg → Pkg) :
    (s.modPkg p f).pkg k = if k = p then f (s.pkg p) else s.pkg k := tblGet_put ..

@[simp] theorem modPkg_pkg_same (s : State) (p : Nat) (f : Pkg → Pkg) : (s.modPkg p f).pkg p = f (s.pkg p) := by
  rw [modPkg_pkg, if_pos rfl]

/-- A change of one package that comes to `x` sets it to `x`. -/
theorem modPkg_setsPkg {s : State} {k : Nat} {f : Pkg → Pkg} {x : Pkg} (h : f (s.pkg k) = x) : SetsPkg s (s.modPkg k f) k x where
  value := by rw [modPkg_pkg_same, h]
  others j hj := by rw [modPkg_pkg, if_neg hj]
  world := rfl

/-! ### Events -/

theorem ringWrite_world (s : State) (fn r : Nat) (rec : List Byte) :
    ringWrite s fn r rec = { s with fns := (ringWrite s fn r rec).fns, mem := (ringWrite s fn r rec).mem } := by
  rw [ringWrite]; dsimp only; split <;> rfl

/-- Posting a record changes rings and memory alone. -/
theorem ringPost_world (s : State) (fn r : Nat) (rec : List Byte) :
    ringPost s fn r rec = { s with fns := (ringPost s fn r rec).fns, mem := (ringPost s fn r rec).mem } := by
  rw [ringPost]
  split
  · rfl
  · split
    · exact ringWrite_world s fn r rec
    · rfl

section
variable {s t : State} (hf : t.fns = s.fns) (hm : t.mem = s.mem) (fn r : Nat) (rec : List Byte)
include hf hm

theorem ringWrite_congr :
    (ringWrite t fn r rec).fns = (ringWrite s fn r rec).fns ∧ (ringWrite t fn r rec).mem = (ringWrite s fn r rec).mem := by
  have hfn : t.fn fn = s.fn fn := by rw [State.fn, State.fn, hf]
  simp only [ringWrite, hfn]
  cases (s.fn fn).rings[r]? with
  | none => exact ⟨hf, hm⟩
  | some g => simp [State.fn, hf, hm]

/-- What a record leaves in rings and memory depends on nothing else. -/
theorem ringPost_congr :
    (ringPost t fn r rec).fns = (ringPost s fn r rec).fns ∧ (ringPost t fn r rec).mem = (ringPost s fn r rec).mem := by
  have hfn : t.fn fn = s.fn fn := by rw [State.fn, State.fn, hf]
  rw [ringPost, ringPost, hfn]
  cases (s.fn fn).rings[r]? with
  | none => exact ⟨hf, hm⟩
  | some g =>
    dsimp only
    split
    · exact ringWrite_congr hf hm fn r rec
    · simp [hf, hm, hfn]

end

theorem postOlush_world (s : State) (pkg vd type i0 i1 : Nat) : postOlush s pkg vd type i0 i1 =
    { s with fns := (postOlush s pkg vd type i0 i1).fns, mem := (postOlush s pkg vd type i0 i1).mem } := ringPost_world ..

theorem postCp_world (s : State) (vk type team i0 i1 : Nat) : postCp s vk type team i0 i1 =
    { s with fns := (postCp s vk type team i0 i1).fns, mem := (postCp s vk type team i0 i1).mem } := ringPost_world ..

@[simp] theorem postOlush_thr (s : State) (pkg vd type i0 i1 : Nat) : (postOlush s pkg vd type i0 i1).thr = s.thr := by
  rw [postOlush_world]
@[simp] theorem postOlush_cores (s : State) (pkg vd type i0 i1 : Nat) : (postOlush s pkg vd type i0 i1).cores = s.cores := by
  rw [postOlush_world]
@[simp] theorem postOlush_pkgs (s : State) (pkg vd type i0 i1 : Nat) : (postOlush s pkg vd type i0 i1).pkgs = s.pkgs := by
  rw [postOlush_world]
@[simp] theorem postOlush_cycle (s : State) (pkg vd type i0 i1 : Nat) : (postOlush s pkg vd type i0 i1).cycle = s.cycle := by
  rw [postOlush_world]

@[simp] theorem postOlush_pkg (s : State) (pkg vd type i0 i1 k : Nat) : (postOlush s pkg vd type i0 i1).pkg k = s.pkg k := by
  rw [State.pkg, State.pkg, postOlush_pkgs]

/-- Two states that agree in all that a package's event depends on: rings, memory and the package's time (R352, R353). -/
structure SamePosts (s t : State) (pkg : Nat) : Prop where
  rings : t.fns = s.fns
  memory : t.mem = s.mem
  time : t.time pkg = s.time pkg

theorem SamePosts.alarmed {s t : State} {pkg : Nat} (h : SamePosts s t pkg) (vd type i0 i1 : Nat) :
    Alarmed s (postOlush t pkg vd type i0 i1) pkg vd type i0 i1 := by
  obtain ⟨hf, hm, ht⟩ := h
  rw [postOlush, postEvent, ht]
  exact ringPost_congr hf hm ..

/-- States that agree before an event agree after it. -/
theorem SamePosts.postOlush {s t : State} {pkg : Nat} (h : SamePosts s t pkg) (vd type i0 i1 : Nat) :
    SamePosts (postOlush s pkg vd type i0 i1) (postOlush t pkg vd type i0 i1) pkg where
  rings := (h.alarmed vd type i0 i1).1
  memory := (h.alarmed vd type i0 i1).2
  time := by
    simpa only [State.time, postOlush_cycle, postOlush_pkg] using h.time

end Sys2Proof.Machine
end

section
/-! SUPPORT. Links of the part and between packages (R427, R428, R446). -/

namespace Sys2Proof.Machine

/-! ### Mesh, vertical and bridge links -/

theorem linkId_pkg {pkg n : Nat} (h : n < 2 ^ 16) : (pkg * 2 ^ 16 + n) / 2 ^ 16 = pkg := by omega
theorem linkId_link {pkg n : Nat} (h : n < 2 ^ 16) : (pkg * 2 ^ 16 + n) % 2 ^ 16 = n := by omega

/-- A flit that passes leaves no failure counted on its link (R446). -/
theorem flitOk_replays (s : State) {pkg n : Nat} (hn : n < 2 ^ 16) :
    tblGet ((s.flitOk (pkg * 2 ^ 16 + n)).pkg pkg).replays n 0 = 0 := by
  rw [State.flitOk, linkId_pkg hn, linkId_link hn, modPkg_pkg_same, tblGet_del_same]

section
variable {s : State} {pkg n : Nat} {p : Pkg} (hp : tblFind s.pkgs pkg = some p) (hn : n < 2 ^ 16)
include hp hn

/-- A replay counts one failure more, to eight (R446). -/
theorem flitReplay_completes : Completes (.flitReplay (pkg * 2 ^ 16 + n)) s fun t =>
    SetsPkg s t pkg { p with replays := (t.pkg pkg).replays } ∧
      tblGet (t.pkg pkg).replays n 0 = min (tblGet p.replays n 0 + 1) 8 := by
  have e : exec (.flitReplay (pkg * 2 ^ 16 + n)) s =
      .next (s.modPkg pkg fun p => { p with replays := tblCount p.replays n 8 }) := by
    show execFlitReplay _ s = _
    rw [execFlitReplay, linkId_pkg hn, linkId_link hn, hp]; rfl
  refine ⟨_, e, modPkg_setsPkg ?_, ?_⟩
  · rw [modPkg_pkg_same, pkg_of_find hp]
  · simp [pkg_of_find hp, tblCount]

/-- After eight failures the link goes down, and nothing else of its package changes: no route does (R446). -/
theorem linkDown_completes (h : 8 ≤ tblGet p.replays n 0) : Completes (.linkDown (pkg * 2 ^ 16 + n)) s fun t =>
    n ∈ (t.pkg pkg).linksDown ∧
      SetsPkg s t pkg { p with replays := (t.pkg pkg).replays, linksDown := (t.pkg pkg).linksDown } := by
  have e : exec (.linkDown (pkg * 2 ^ 16 + n)) s = .next (s.modPkg pkg fun p => { p with
      replays := tblDel p.replays n, linksDown := if p.linksDown.contains n then p.linksDown else p.linksDown ++ [n] }) := by
    show execLinkDown _ s = _
    rw [execLinkDown, linkId_pkg hn, linkId_link hn, pkg_of_find hp, hp]
    simp [h]
  refine ⟨_, e, ?_, modPkg_setsPkg ?_⟩
  · rw [modPkg_pkg_same]
    by_cases hc : n ∈ (s.pkg pkg).linksDown <;> simp [hc]
  · rw [modPkg_pkg_same, pkg_of_find hp]

/-- Before that the link stays up. -/
theorem linkDown_idle (h : tblGet p.replays n 0 < 8) : Completes (.linkDown (pkg * 2 ^ 16 + n)) s fun t => t = s := by
  refine ⟨s, ?_, rfl⟩
  show execLinkDown _ s = _
  rw [execLinkDown, linkId_pkg hn, linkId_link hn, pkg_of_find hp]
  simp [Nat.not_le.2 h]

end

/-! ### Thopeif links -/

/-- Nothing but which Thopeif links of the packages are up has changed. -/
structure OnlyLinksUp (s t : State) : Prop where
  world : t = { s with pkgs := t.pkgs }
  find : ∀ k q, tblFind s.pkgs k = some q → ∃ up, tblFind t.pkgs k = some { q with linksUp := up }

theorem OnlyLinksUp.trans {s t u : State} (h : OnlyLinksUp s t) (h' : OnlyLinksUp t u) : OnlyLinksUp s u where
  world := by rw [h'.world, h.world]
  find k q hq := by
    obtain ⟨up, hup⟩ := h.find k q hq
    obtain ⟨up', hup'⟩ := h'.find k _ hup
    exact ⟨up', hup'⟩

theorem setLink_onlyLinksUp (up : Bool) (pkg link : Nat) (s : State) : OnlyLinksUp s (setLink up pkg link s) where
  world := rfl
  find k q hq := by
    rw [setLink, State.modPkg_pkgs, tblFind_put]
    by_cases hk : k = pkg
    · subst hk; rw [if_pos rfl, pkg_of_find hq]; exact ⟨_, rfl⟩
    · rw [if_neg hk]; exact ⟨q.linksUp, hq⟩

/-- Which links are up once one of them has been set. -/
theorem mem_setLink (up : Bool) (pkg link : Nat) (s : State) (k l : Nat) : l ∈ ((setLink up pkg link s).pkg k).linksUp ↔
    if k = pkg ∧ l = link then up = true else l ∈ (s.pkg k).linksUp := by
  rw [setLink, modPkg_pkg]
  by_cases hk : k = pkg
  · subst hk; cases up <;> by_cases hl : l = link <;> simp [hl]
  · simp [hk]

theorem advanceRoutes_find (domain : Nat) (s : State) (k : Nat) : tblFind (advanceRoutes domain s).pkgs k =
    (tblFind s.pkgs k).map fun p => if p.domain = domain then { p with routeGen := p.routeGen + 1 } else p := by
  rw [← tblFind_map fun _ (p : Pkg) => if p.domain = domain then { p with routeGen := p.routeGen + 1 } else p, advanceRoutes]
  refine congrArg (tblFind · k) ?_
  refine List.map_congr_left fun e _ => ?_
  dsimp only; split <;> rfl

/-- Rewriting the routes of a domain leaves the links of every package as they are. -/
@[simp] theorem advanceRoutes_linksUp (domain : Nat) (s : State) (k : Nat) :
    ((advanceRoutes domain s).pkg k).linksUp = (s.pkg k).linksUp := by
  rw [State.pkg, State.pkg, tblGet, tblGet, advanceRoutes_find]
  cases tblFind s.pkgs k with
  | none => rfl
  | some p => simp only [Option.map_some, Option.getD_some]; split <;> rfl

section
variable {s t : State} (h : OnlyLinksUp s t) {k : Nat} {q : Pkg} (hq : tblFind s.pkgs k = some q)
include h hq

/-- Once links have changed, every package of the domain has its routes rewritten once. -/
theorem OnlyLinksUp.routeGen {domain : Nat} (hd : q.domain = domain) :
    ((advanceRoutes domain t).pkg k).routeGen = q.routeGen + 1 := by
  obtain ⟨up, hup⟩ := h.find k q hq
  have e := advanceRoutes_find domain t k
  rw [hup, Option.map_some, if_pos hd] at e
  rw [pkg_of_find e]

/-- A change of links and routes is none of what a package's events depend on. -/
theorem OnlyLinksUp.samePosts (domain : Nat) : SamePosts s (advanceRoutes domain t) k := by
  obtain ⟨up, hup⟩ := h.find k q hq
  have e := advanceRoutes_find domain t k
  rw [hup, Option.map_some] at e
  have hoff : ((advanceRoutes domain t).pkg k).timeOff = (s.pkg k).timeOff := by
    rw [pkg_of_find e, pkg_of_find hq]; split <;> rfl
  have hw := h.world
  refine ⟨(congrArg State.fns hw :), (congrArg State.mem hw :), ?_⟩
  have hc : (advanceRoutes domain t).cycle = s.cycle := (congrArg State.cycle hw :)
  rw [State.time, State.time, hoff, hc]

end

section
variable {s : State} {pkg link j l : Nat} {p : Pkg} (hp : tblFind s.pkgs pkg = some p)
include hp

theorem exec_thopeifBringup (he : p.erased = false) (hl : link ∉ p.linksUp) (hport : p.hasPort link = true)
    (hfar : farLink s pkg link false = some (j, l)) (hj : (tblFind s.pkgs j).isSome) (hjport : (s.pkg j).hasPort l = true)
    (hje : (s.pkg j).erased = false) (hjd : (s.pkg j).domain = p.domain) (hjn : (s.pkg j).number ≠ p.number) :
    exec (.thopeifBringup pkg link) s =
      .next (advanceRoutes p.domain (setLink true j l (setLink true pkg link s))) := by
  obtain ⟨q, hq⟩ := Option.isSome_iff_exists.mp hj
  show execThopeifBringup pkg link s = _
  simp [execThopeifBringup, pkg_of_find hp, hp, he, hl, hport, hfar, hq, hjport, hje, hjd, hjn]

/-- A link comes up at both ends and the domain's routes are rewritten (R428). -/
theorem thopeifBringup_completes (he : p.erased = false) (hl : link ∉ p.linksUp) (hport : p.hasPort link = true)
    (hfar : farLink s pkg link false = some (j, l)) (hj : (tblFind s.pkgs j).isSome) (hjport : (s.pkg j).hasPort l = true)
    (hje : (s.pkg j).erased = false) (hjd : (s.pkg j).domain = p.domain) (hjn : (s.pkg j).number ≠ p.number) :
    Completes (.thopeifBringup pkg link) s fun t => link ∈ (t.pkg pkg).linksUp ∧ l ∈ (t.pkg j).linksUp ∧
      (∀ k q, tblFind s.pkgs k = some q → q.domain = p.domain → (t.pkg k).routeGen = q.routeGen + 1) ∧
      t = { s with pkgs := t.pkgs } := by
  have h := (setLink_onlyLinksUp true pkg link s).trans (setLink_onlyLinksUp true j l _)
  refine ⟨_, exec_thopeifBringup hp he hl hport hfar hj hjport hje hjd hjn, ?_, ?_, fun _ _ hq => h.routeGen hq, rfl⟩
  · simp [mem_setLink]
  · simp [mem_setLink]

theorem exec_thopeifLinkFail (auth : Bool) (hl : link ∈ p.linksUp) (hfar : farLink s pkg link true = some (j, l)) :
    exec (.thopeifLinkFail pkg link auth) s =
      let t := advanceRoutes p.domain (setLink false pkg link (setLink false j l s))
      .next (if auth then postAlarm t pkg 1 3 none else t) := by
  show execThopeifLinkFail pkg link auth s = _
  simp [execThopeifLinkFail, failLink, pkg_of_find hp, hl, hfar]

/-- A link goes down at both ends and the domain's routes are rewritten; a failed authentication raises an alarm of level 1 (R428,
R431). -/
theorem thopeifLinkFail_completes (auth : Bool) (hl : link ∈ p.linksUp) (hfar : farLink s pkg link true = some (j, l)) :
    Completes (.thopeifLinkFail pkg link auth) s fun t => link ∉ (t.pkg pkg).linksUp ∧ l ∉ (t.pkg j).linksUp ∧
      (∀ k q, tblFind s.pkgs k = some q → q.domain = p.domain → (t.pkg k).routeGen = q.routeGen + 1) ∧ t.thr = s.thr ∧
      if auth then Alarmed s t pkg 0 21 (1 + 3 * 256) 0xFF else t = { s with pkgs := t.pkgs } := by
  have h := (setLink_onlyLinksUp false j l s).trans (setLink_onlyLinksUp false pkg link _)
  refine ⟨_, exec_thopeifLinkFail hp auth hl hfar, ?_⟩
  cases auth with
  | false =>
    refine ⟨?_, ?_, fun _ _ hq => h.routeGen hq, rfl, rfl⟩
    · simp [mem_setLink]
    · simp [mem_setLink]
  | true =>
    have hpkg (k : Nat) (t : State) : (postAlarm t pkg 1 3 none).pkg k = t.pkg k := postOlush_pkg ..
    refine ⟨?_, ?_, fun k q hq hd => ?_, ?_, ?_⟩
    · simp [hpkg, mem_setLink]
    · simp [hpkg, mem_setLink]
    · simpa [hpkg] using h.routeGen hq hd
    · simp [postAlarm, advanceRoutes, setLink]
    · exact (h.samePosts hp p.domain).alarmed 0 21 (1 + 3 * 256) 0xFF

end

end Sys2Proof.Machine
end

section
/-! SUPPORT. Time bases and temperature (R14, R18, R401). -/

namespace Sys2Proof.Machine

/-! ### Time bases -/

/-- The state in which every package's time base stands where TIME_SYNC would move it. -/
def State.withOffsets (s : State) (offsets : List (Nat × Nat)) : State :=
  { s with pkgs := s.pkgs.map fun x => (x.1, { x.2 with timeOff := tblGet offsets x.1 x.2.timeOff }) }

/-- Every time base may move as it is asked to, and would then be within 40 ns of those with which it is synchronised. -/
def SyncAllowed (s : State) (offsets : List (Nat × Nat)) : Prop :=
  (∀ x ∈ s.pkgs, timeMoves s x.2 (tblGet offsets x.1 x.2.timeOff) = true) ∧
    ∀ x ∈ (s.withOffsets offsets).pkgs, ∀ y ∈ timePeers (s.withOffsets offsets) x.2, x.2.timeOff ≤ y.timeOff + 40

theorem exec_timeSync_allowed {s : State} {offsets : List (Nat × Nat)} (h : SyncAllowed s offsets) :
    exec (.timeSync offsets) s = .next (s.withOffsets offsets) := by
  refine congrArg Host.Outcome.next (if_pos ?_)
  simp only [Bool.and_eq_true, List.all_eq_true, decide_eq_true_eq]
  exact h

theorem exec_timeSync_refused {s : State} {offsets : List (Nat × Nat)} (h : ¬ SyncAllowed s offsets) :
    exec (.timeSync offsets) s = .next s := by
  refine congrArg Host.Outcome.next (if_neg fun hc => h ?_)
  simp only [Bool.and_eq_true, List.all_eq_true, decide_eq_true_eq] at hc
  exact hc

theorem withOffsets_pkg {s : State} {k : Nat} {q : Pkg} (offsets : List (Nat × Nat)) (hq : tblFind s.pkgs k = some q) :
    (s.withOffsets offsets).pkg k = { q with timeOff := tblGet offsets k q.timeOff } := by
  apply pkg_of_find
  exact (tblFind_map (fun k (q : Pkg) => { q with timeOff := tblGet offsets k q.timeOff }) s.pkgs k).trans (by rw [hq, Option.map_some])

theorem timeSync_completes {s : State} {offsets : List (Nat × Nat)} (h : SyncAllowed s offsets) :
    Completes (.timeSync offsets) s fun t => t = { s with pkgs := t.pkgs } ∧
      ∀ k q, tblFind s.pkgs k = some q → t.pkg k = { q with timeOff := tblGet offsets k q.timeOff } :=
  ⟨_, exec_timeSync_allowed h, rfl, fun _ _ hq => withOffsets_pkg offsets hq⟩

/-- A package without a link is synchronised with itself alone, so its base moves nowhere else (log entry 82). -/
theorem timeMoves_unlinked {s : State} {p : Pkg} (h : p.linksUp = []) {off : Nat} : timeMoves s p off = true ↔ off = p.timeOff := by
  simp [timeMoves, timePeers, h]; omega

/-- A move that would leave two synchronised bases more than 40 ns apart, or that moves the base of a package without a link, is
none. -/
theorem timeSync_idle {s : State} {offsets : List (Nat × Nat)} {pkg : Nat} {p : Pkg} (hp : tblFind s.pkgs pkg = some p)
    (h : (∃ x ∈ (s.withOffsets offsets).pkgs, ∃ y ∈ timePeers (s.withOffsets offsets) x.2, y.timeOff + 40 < x.2.timeOff) ∨
      p.linksUp = [] ∧ tblGet offsets pkg p.timeOff ≠ p.timeOff) :
    Completes (.timeSync offsets) s fun t => t = s := by
  refine ⟨s, exec_timeSync_refused fun ⟨hmove, hnear⟩ => ?_, rfl⟩
  obtain ⟨x, hx, y, hy, hfar⟩ | ⟨hnone, hoff⟩ := h
  · exact Nat.not_le.2 hfar (hnear x hx y hy)
  · exact hoff ((timeMoves_unlinked hnone).1 (hmove _ (mem_of_tblFind hp)))

/-! ### Epochs -/

theorem nextEpoch_now {s : State} {pkg : Nat} {p : Pkg} (hp : tblFind s.pkgs pkg = some p) (h : p.resetAt ≤ s.cycle)
    (hd : (s.cycle - p.resetAt) % 1024 = 0) : nextEpoch s pkg = s.cycle := by
  rw [nextEpoch, pkg_of_find hp, ceilDiv]; omega

/-! ### Accrual and reports leave packages and cores alone -/

/-- Only arbiters have changed. -/
def OnlyArbiters (s t : State) : Prop := t = { s with arbiters := t.arbiters }

theorem accrueAt_onlyArbiters (s : State) (arb : Nat) : OnlyArbiters s (s.accrueAt arb) := by
  rw [OnlyArbiters, State.accrueAt]; split <;> rfl

theorem accruePkg_onlyArbiters (s : State) (pkg : Nat) : OnlyArbiters s (s.accruePkg pkg) :=
  List.foldlRecOn (motive := OnlyArbiters s) _ _ rfl fun t ht arb _ => by
    have h := accrueAt_onlyArbiters t arb
    rw [OnlyArbiters] at ht h ⊢
    rw [h, ht]

/-- Only rings, memory and what VDs have been told have changed. -/
def OnlyReports (s t : State) : Prop := t = { s with fns := t.fns, mem := t.mem, vds := t.vds }

theorem reportThrottle_onlyReports (pkg : Nat) (cores : List Nat) (s : State) (vm : Nat × Nat) :
    OnlyReports s (reportThrottle pkg cores s vm) := by
  rw [OnlyReports, reportThrottle]
  split
  · rfl
  · dsimp only; rw [postCp_world]; rfl

/-- Reporting a changed throttle changes only what the VDs and their rings hold. -/
theorem reportCores_onlyReports (pkg : Nat) (cores : List Nat) (s : State) : OnlyReports s (reportCores pkg cores s) :=
  List.foldlRecOn (motive := OnlyReports s) _ _ rfl fun t ht vm _ => by
    have h := reportThrottle_onlyReports pkg cores t vm
    rw [OnlyReports] at ht h ⊢
    rw [h, ht]

theorem reportThrottle_noVd {s : State} {pkg v : Nat} (h : (s.vd (vdKey pkg v)).isVd = false) (cores : List Nat) (m : Nat) :
    reportThrottle pkg cores s (v, m) = s := by
  simp [reportThrottle, h]

/-- With no VD on the package there is none to tell. -/
theorem reportCores_noVds {s : State} {pkg : Nat} (h : ∀ v < 16, (s.vd (vdKey pkg v)).isVd = false) (cores : List Nat) :
    reportCores pkg cores s = s :=
  List.foldlRecOn (motive := fun t => t = s) _ _ rfl fun t ht vm hvm => by
    have hv : vm.1 < 16 := by
      simp only [List.mem_flatten, List.mem_map, List.mem_range] at hvm
      obtain ⟨_, ⟨v, hv, rfl⟩, hm⟩ := hvm
      obtain ⟨m, -, rfl⟩ := List.mem_map.1 hm
      exact hv
    rw [ht]; exact reportThrottle_noVd (h vm.1 hv) _ vm.2

/-! ### Withholding and releasing tokens -/

/-- The state with a package's withheld massifs changed, its arbiters having accrued first. -/
def State.setWithheld (s : State) (pkg : Nat) (f : List Nat → List Nat) : State :=
  (s.accruePkg pkg).modPkg pkg fun p => { p with withheld := f p.withheld }

/-- The state after a layer of a massif has reached its limit: the massif's tokens are withheld, the VDs have been told of it, and the
host by an event of type 6 and an alarm of level 1 (R18, R353, R431). -/
def State.atLimit (s : State) (pkg massif layer : Nat) : State :=
  postAlarm (postOlush (reportMassif pkg massif (s.setWithheld pkg (· ++ [massif]))) pkg 0 6 massif layer) pkg 1 4 none

theorem setWithheld_world (s : State) (pkg : Nat) (f : List Nat → List Nat) : s.setWithheld pkg f =
    { s with arbiters := (s.setWithheld pkg f).arbiters, pkgs := (s.setWithheld pkg f).pkgs } := by
  rw [State.setWithheld, (accruePkg_onlyArbiters s pkg : _ = _)]; rfl

theorem factorOf_eq {t : State} {pkg : Nat} {x : Pkg} {gc : Nat} (hx : t.pkg pkg = x) (hgc : pkgOf gc = pkg) :
    t.factorOf gc = if x.withheld.contains (massifOf gc) then 0 else (t.core gc).factor := by
  rw [State.factorOf, hgc, hx]

section
variable {s : State} {pkg : Nat} {p : Pkg} (hp : tblFind s.pkgs pkg = some p)
include hp

theorem setWithheld_pkg (f : List Nat → List Nat) : (s.setWithheld pkg f).pkg pkg = { p with withheld := f p.withheld } := by
  rw [State.setWithheld, modPkg_pkg_same, (accruePkg_onlyArbiters s pkg : _ = _)]
  exact congrArg (fun p : Pkg => { p with withheld := f p.withheld }) (pkg_of_find hp)

theorem setWithheld_samePosts (f : List Nat → List Nat) : SamePosts s (s.setWithheld pkg f) pkg := by
  have hw := setWithheld_world s pkg f
  refine ⟨(congrArg State.fns hw :), (congrArg State.mem hw :), ?_⟩
  have hc : (s.setWithheld pkg f).cycle = s.cycle := (congrArg State.cycle hw :)
  rw [State.time, State.time, hc, setWithheld_pkg hp, pkg_of_find hp]

/-- Once the VDs have been told, the package withholds the massifs as changed, and no thread or core has changed. -/
theorem reportMassif_setWithheld (m : Nat) (f : List Nat → List Nat) :
    let t := reportMassif pkg m (s.setWithheld pkg f)
    t.pkg pkg = { p with withheld := f p.withheld } ∧ t.thr = s.thr ∧ t.cores = s.cores := by
  have hr : OnlyReports (s.setWithheld pkg f) (reportMassif pkg m (s.setWithheld pkg f)) := reportCores_onlyReports ..
  have hw := setWithheld_world s pkg f
  refine ⟨?_, (congrArg State.thr hr).trans (congrArg State.thr hw :),
    (congrArg State.cores hr).trans (congrArg State.cores hw :)⟩
  exact (congrArg (State.pkg · pkg) hr).trans (setWithheld_pkg hp f)

section
variable {massif : Nat} (hm : massif < 8) (hat : p.resetAt ≤ s.cycle) (hd : (s.cycle - p.resetAt) % 1024 = 0)
include hm hat hd

theorem exec_thermalLimit (layer : Nat) (hw : massif ∉ p.withheld) :
    exec (.thermalLimit pkg massif layer) s = .next (s.atLimit pkg massif layer) := by
  show execThermalLimit pkg massif layer s = _
  rw [execThermalLimit, if_neg]
  · rfl
  · simp [nextEpoch_now hp hat hd, hp, hm, pkg_of_find hp, hw]

/-- At the limit the massif's tokens are withheld, so every core there has factor 0, and the host is told twice (R18, R353, R401,
R431). -/
theorem thermalLimit_completes (layer : Nat) (hw : massif ∉ p.withheld) : Completes (.thermalLimit pkg massif layer) s fun t =>
    t.pkg pkg = { p with withheld := p.withheld ++ [massif] } ∧ t.thr = s.thr ∧ t.cores = s.cores ∧
      (∀ gc, pkgOf gc = pkg → massifOf gc = massif → t.factorOf gc = 0) ∧
      ((∀ v < 16, (s.vd (vdKey pkg v)).isVd = false) →
        Alarmed (postOlush s pkg 0 6 massif layer) t pkg 0 21 (1 + 4 * 256) 0xFF) := by
  obtain ⟨hpkg, hthr, hcores⟩ := reportMassif_setWithheld hp massif (· ++ [massif])
  have hpkg' : (s.atLimit pkg massif layer).pkg pkg = { p with withheld := p.withheld ++ [massif] } := by
    simpa only [State.atLimit, postAlarm, postOlush_pkg] using hpkg
  refine ⟨_, exec_thermalLimit hp hm hat hd layer hw, hpkg', ?_, ?_, fun gc hgc hmc => ?_, fun hvd => ?_⟩
  · simpa only [State.atLimit, postAlarm, postOlush_thr] using hthr
  · simpa only [State.atLimit, postAlarm, postOlush_cores] using hcores
  · rw [factorOf_eq hpkg' hgc, hmc]; simp
  · have hvd' : ∀ v < 16, ((s.setWithheld pkg (· ++ [massif])).vd (vdKey pkg v)).isVd = false := by
      rw [setWithheld_world]; exact hvd
    rw [State.atLimit, reportMassif, reportCores_noVds hvd']
    exact ((setWithheld_samePosts hp _).postOlush 0 6 massif layer).alarmed 0 21 (1 + 4 * 256) 0xFF

theorem exec_layerCool {layer : Nat} (hl : layer < 8) (hw : massif ∈ p.withheld) : exec (.layerTemperatureChange pkg massif layer 3) s =
    .next (reportMassif pkg massif (s.setWithheld pkg (·.filter fun m => m != massif))) := by
  show execLayerTemperatureChange pkg massif layer 3 s = _
  simp [execLayerTemperatureChange, hp, Nat.not_le.2 hm, Nat.not_le.2 hl, nextEpoch_now hp hat hd, pkg_of_find hp, hw,
    State.setWithheld]

/-- Once the massif is cool its tokens are released, and its cores have the factors that they hold (R18, R401). -/
theorem layerCool_completes {layer : Nat} (hl : layer < 8) (hw : massif ∈ p.withheld) :
    Completes (.layerTemperatureChange pkg massif layer 3) s fun t =>
      t.pkg pkg = { p with withheld := p.withheld.filter fun m => m != massif } ∧
        ∀ gc, pkgOf gc = pkg → massifOf gc = massif → t.factorOf gc = (s.core gc).factor := by
  obtain ⟨hpkg, -, hcores⟩ := reportMassif_setWithheld hp massif (·.filter fun m => m != massif)
  refine ⟨_, exec_layerCool hp hm hat hd hl hw, hpkg, fun gc hgc hmc => ?_⟩
  rw [factorOf_eq hpkg hgc, hmc, State.core, hcores]
  simp [State.core]

end

section
variable {massif layer : Nat} (hm : massif < 8) (hl : layer < 8)
include hm hl

/-- A layer's refresh band is set (R18). -/
theorem layerBand_completes {band : Nat} (hb : band = 1 ∨ band = 2) :
    Completes (.layerTemperatureChange pkg massif layer band) s fun t =>
      SetsPkg s t pkg { p with bands := (t.pkg pkg).bands } ∧ tblGet (t.pkg pkg).bands (massif * 8 + layer) 0 = band := by
  have e : exec (.layerTemperatureChange pkg massif layer band) s =
      .next (s.modPkg pkg fun p => { p with bands := tblPut p.bands (massif * 8 + layer) band }) := by
    show execLayerTemperatureChange pkg massif layer band s = _
    obtain rfl | rfl := hb <;> simp [execLayerTemperatureChange, hp, Nat.not_le.2 hm, Nat.not_le.2 hl]
  refine ⟨_, e, modPkg_setsPkg ?_, ?_⟩
  · rw [modPkg_pkg_same, pkg_of_find hp]
  · rw [modPkg_pkg_same, tblGet_put, if_pos rfl]

/-- A layer returns to the base rate: it has no band (R18). -/
theorem layerBase_completes : Completes (.layerTemperatureChange pkg massif layer 0) s fun t =>
    SetsPkg s t pkg { p with bands := (t.pkg pkg).bands } ∧ tblFind (t.pkg pkg).bands (massif * 8 + layer) = none := by
  have e : exec (.layerTemperatureChange pkg massif layer 0) s =
      .next (s.modPkg pkg fun p => { p with bands := tblDel p.bands (massif * 8 + layer) }) := by
    show execLayerTemperatureChange pkg massif layer 0 s = _
    simp [execLayerTemperatureChange, hp, Nat.not_le.2 hm, Nat.not_le.2 hl]
  refine ⟨_, e, modPkg_setsPkg ?_, ?_⟩
  · rw [modPkg_pkg_same, pkg_of_find hp]
  · rw [modPkg_pkg_same, tblFind_del, if_pos rfl]

end

end

/-! ### The obligation -/

/-- Settles O52: each clause is the lemma about its step above. -/
theorem linksTimeAndTemperature : Obligations.LinksTimeAndTemperature := by
  unfold Obligations.LinksTimeAndTemperature
  intro pkg link n j l massif layer band auth offsets p s hp
  refine ⟨fun hn => ?flits, thopeifBringup_completes hp, thopeifLinkFail_completes hp auth, fun hmove hnear => ?sync,
    timeSync_idle hp, fun hm => ?heat⟩
  case flits =>
    exact ⟨flitReplay_completes hp hn, flitOk_replays s hn, linkDown_completes hp hn, linkDown_idle hp hn⟩
  case sync => exact timeSync_completes ⟨hmove, hnear⟩
  case heat =>
    refine ⟨fun ⟨hat, hd⟩ hw => thermalLimit_completes hp hm hat hd layer hw, fun hl => ⟨?_, ?_, ?_⟩⟩
    · exact layerBand_completes hp hm hl
    · exact layerBase_completes hp hm hl
    · exact fun ⟨hat, hd⟩ hw => layerCool_completes hp hm hat hd hl hw

end Sys2Proof.Machine
end

section
/-! SUPPORT. Which tables of the state the windows of memory and the holders of a translation are read from (R170, R171, R415). -/

namespace Sys2Proof.Machine

theorem thread_congr {s t : State} (hx : t.thr = s.thr) (ht : t.threads = s.threads) : t.thread = s.thread := by
  funext n; rw [State.thread, State.thread, hx, ht]

section
variable {s t : State} (hv : t.vds = s.vds)
include hv

theorem vd_congr : t.vd = s.vd := by funext vk; rw [State.vd, State.vd, hv]

theorem remapped_congr : remapped t = remapped s := by funext vk off; rw [remapped, remapped, vd_congr hv]

end

section
variable {s t : State} (hp : t.pkgs = s.pkgs)
include hp

theorem pkg_congr : t.pkg = s.pkg := by funext p; rw [State.pkg, State.pkg, hp]

theorem named_congr : t.named = s.named := by funext p n; rw [State.named, State.named, pkg_congr hp, hp]

theorem farPkg_congr : t.farPkg = s.farPkg := by
  funext p l; rw [State.farPkg, State.farPkg, pkg_congr hp, named_congr hp]

end

section
variable {s t : State} (hv : t.vds = s.vds) (hp : t.pkgs = s.pkgs)
include hv hp

theorem reach_congr (vd n : Nat) : reach t vd n = reach s vd n := by
  induction n with
  | zero => rfl
  | succ n ih => funext ps; rw [reach, reach, farPkg_congr hp, pkg_congr hp, vd_congr hv, ih]

theorem reachable_congr : reachable t = reachable s := by
  funext vd p q; rw [reachable, reachable, reach_congr hv hp, vd_congr hv, hp]

theorem sharedBytes_congr : sharedBytes t = sharedBytes s := by
  funext vk m; rw [sharedBytes, sharedBytes, vd_congr hv, pkg_congr hp]

/-- The window of an address depends on virtual devices and packages alone. -/
theorem whereIs_congr : whereIs t = whereIs s := by
  funext gc vd va
  rw [whereIs, whereIs, reachable_congr hv hp, sharedBytes_congr hv hp, named_congr hp, pkg_congr hp]

theorem partMeets_congr : partMeets t = partMeets s := by
  funext gc vk lo len p; rw [partMeets, partMeets, whereIs_congr hv hp, remapped_congr hv]

theorem accessesHold_congr (hx : t.thr = s.thr) (ht : t.threads = s.threads) (hc : t.cores = s.cores) :
    accessesHold t = accessesHold s := by
  funext vk lo len before
  rw [accessesHold, accessesHold, partMeets_congr hv hp, thread_congr hx ht, hx, ht, hc]

end

end Sys2Proof.Machine
end

section
/-! SUPPORT. Completion of an instruction that has also changed something outside its thread. -/

namespace Sys2Proof.Machine

variable {s u : State} (h : u.thr = s.thr)
include h

theorem finish_passes (sw : Bool) : Passes sw s (u.finish sw) := by
  rw [finish_shape, h]
  refine ⟨⟨fun _ _ => ⟨rfl, rfl⟩, fun _ _ => ⟨rfl, rfl⟩, fun _ _ => ⟨rfl, rfl⟩, rfl⟩, rfl, rfl, rfl, rfl, rfl, rfl, rfl, ?_⟩
  show (u.finish sw).thr.st = _
  rw [State.finish_thr, h]; rfl

/-- A scalar result written in a state with the thread of `s` is a result for `s`. -/
theorem writeS_finish_sets (d : SReg) (x : Word) (sw : Bool) :
    SetsS s ((u.writeS d x).finish sw) d x ∧ InSequence sw s ((u.writeS d x).finish sw) := by
  obtain ⟨⟨hval, hfull, hs, hv, hp, hbuf, -, hkept⟩, hseq⟩ := writeS_finish u d x sw
  rw [InSequence, Stands] at hseq ⊢
  rw [h] at hs hv hp hbuf hkept hseq
  exact ⟨⟨hval, hfull, hs, hv, hp, hbuf, hkept⟩, hseq⟩

end Sys2Proof.Machine
end

section
/-! SUPPORT. Tensor definitions (R29, R411, R412). -/

namespace Sys2Proof.Machine

/-! ### The range that two registers give -/

/-- The first byte of the range in a block of two registers: bits 51:0 of the first (R411, R413). -/
abbrev formLo (s : State) (a : SReg) : Nat := (s.thr.getS a).toNat % 2 ^ 52
/-- The length of the range: the second register. -/
abbrev formLen (s : State) (a : SReg) : Nat := (s.thr.getS (sregAt a 1)).toNat

theorem field_low (x : Word) : field x 51 0 = x.toNat % 2 ^ 52 := by simp [field, fieldN]

/-! ### Defining a tensor -/

/-- Only VDs and what has been written back have changed. -/
def OnlyTensors (s t : State) : Prop := t = { s with vds := t.vds, back := t.back }

theorem OnlyTensors.trans {s t u : State} (h : OnlyTensors s t) (h' : OnlyTensors t u) : OnlyTensors s u := by
  rw [OnlyTensors] at h h' ⊢; rw [h', h]

theorem OnlyTensors.thr {s t : State} (h : OnlyTensors s t) : t.thr = s.thr := by rw [OnlyTensors] at h; rw [h]

theorem OnlyTensors.finish {s t : State} (h : OnlyTensors s t) (sw : Bool) :
    t.finish sw = { s with thr := (t.finish sw).thr, vds := t.vds, back := t.back } := by
  rw [OnlyTensors] at h; rw [h]; rfl

theorem modVd_onlyTensors (s : State) (vk : Nat) (f : Vd → Vd) : OnlyTensors s (s.modVd vk f) := rfl

theorem cleanRange_onlyTensors (s : State) (vk lo len : Nat) : OnlyTensors s (s.cleanRange vk lo len) := by
  rw [OnlyTensors, State.cleanRange]; split <;> rfl

theorem defineTensor_onlyTensors (s : State) (vk id : Nat) (x : Tensor) : OnlyTensors s (s.defineTensor vk id x) := by
  rw [State.defineTensor]
  cases tblFind (s.vd vk).tensors id with
  | none =>
    dsimp only
    split
    · exact modVd_onlyTensors ..
    · exact (cleanRange_onlyTensors ..).trans (modVd_onlyTensors ..)
  | some old =>
    dsimp only
    split
    · exact (cleanRange_onlyTensors ..).trans (modVd_onlyTensors ..)
    · exact (cleanRange_onlyTensors ..).trans ((cleanRange_onlyTensors ..).trans (modVd_onlyTensors ..))

/-- What an id names after its definition: nothing for a length of 0 (R411). -/
theorem defineTensor_find (s : State) (vk id : Nat) (x : Tensor) :
    tblFind ((s.defineTensor vk id x).vd vk).tensors id = if x.len = 0 then none else some x := by
  have hvd (u : State) (f : Vd → Vd) : (u.modVd vk f).vd vk = f (u.vd vk) := (tblGet_put ..).trans (if_pos rfl)
  rw [State.defineTensor]
  by_cases h : x.len = 0
  · rw [if_pos h, if_pos h, hvd, tblFind_del, if_pos rfl]
  · rw [if_neg h, if_neg h, hvd, tblFind_put, if_pos rfl]

/-! ### The checks -/

theorem tdefBad_id {e base len pitch : Nat} : tdefBad 0 e base len pitch = some 0 := rfl

theorem tdefBad_pitch {id e base len pitch : Nat} (hid : id ≠ 0) (h : pitch = 0 ∨ pitch % e ≠ 0 ∨ 2 ^ 32 < pitch) :
    tdefBad id e base len pitch = some pitch := by
  have hc : (pitch = 0 || pitch % e != 0 || 2 ^ 32 < pitch) = true := by simpa [or_assoc] using h
  rw [tdefBad, if_neg hid, if_pos hc]

theorem tdefBad_none {id e base len pitch : Nat} (hid : id ≠ 0) (hpitch : pitch ≠ 0) (he : pitch % e = 0) (hmax : pitch ≤ 2 ^ 32)
    (hbase : base % e = 0) (hlen : len % pitch = 0) : tdefBad id e base len pitch = none := by
  have hc : ¬ (pitch = 0 || pitch % e != 0 || 2 ^ 32 < pitch) = true := by simpa [hpitch, he] using hmax
  rw [tdefBad, if_neg hid, if_neg hc]
  simp [hbase, hlen]

/-- A tensor that meets no other one of its VD; an empty one meets none. -/
theorem tdefMeets_none {v : Vd} {id base len : Nat}
    (h : len ≠ 0 → ∀ y ∈ v.tensors, y.1 = id ∨ overlaps y.2.base y.2.len base len = false) : tdefMeets v id base len = none := by
  rw [tdefMeets, Option.map_eq_none_iff, List.find?_eq_none]
  intro y hy
  by_cases hl : len = 0
  · simp [hl]
  · obtain hid | ho := h hl y hy
    · simp [hid]
    · simp [ho]

/-! ### TDEF -/

/-- The tensor that TDEF's operands describe (R411). -/
abbrev tdefTensor (s : State) (a : SReg) (b : Src) (loge : BitVec 2) : Tensor :=
  ⟨formLo s a, formLen s a, (s.src b).toNat, 2 ^ loge.toNat⟩

section
variable {s : State} {a : SReg} {b : Src} (hp : Present s (sregs a 2 ++ srcRegs b)) (sw : Bool) (loge : BitVec 2) {id : BitVec 12}
include hp

/-- TDEF with its sources present, check by check in the order of R411. -/
theorem exec_tdef_present : exec (.tdef sw a b loge id) s = .next
    (match tdefBad id.toNat (2 ^ loge.toNat) (formLo s a) (formLen s a) (s.src b).toNat with
    | some x => s.trap cFmtbad (BitVec.ofNat 64 x)
    | none =>
      if formLen s a != 0 && remapBase < formLo s a + formLen s a then s.trap cXlate (BitVec.ofNat 64 (formLo s a))
      else match tdefMeets (s.vd s.thr.vk) id.toNat (formLo s a) (formLen s a) with
        | some x => s.trap cPerm (BitVec.ofNat 64 x)
        | none => (s.defineTensor s.thr.vk id.toNat (tdefTensor s a b loge)).finish sw) := by
  show execTdef .. = _
  rw [execTdef, withRegs_present hp, field_low] <;> rfl

/-- A limit of R29 or R411 that is broken raises FMTBAD with the value that breaks it. -/
theorem tdef_fmtbad {x : Nat} (hc : CanTrap s)
    (hbad : tdefBad id.toNat (2 ^ loge.toNat) (formLo s a) (formLen s a) (s.src b).toNat = some x) :
    Completes (.tdef sw a b loge id) s fun t => TrapsTo s t 0x0F s.thr.pc (BitVec.ofNat 64 x) := by
  have e := exec_tdef_present hp sw loge (id := id)
  rw [hbad] at e
  exact ⟨_, e, trap_enters hc ..⟩

section
variable (hok : tdefBad id.toNat (2 ^ loge.toNat) (formLo s a) (formLen s a) (s.src b).toNat = none)
include hok

/-- A range that leaves the DRAM window below the remap windows raises XLATE. -/
theorem tdef_xlate (hc : CanTrap s) (hlen : formLen s a ≠ 0) (hhi : remapBase < formLo s a + formLen s a) :
    Completes (.tdef sw a b loge id) s fun t => TrapsTo s t 0x04 s.thr.pc (BitVec.ofNat 64 (formLo s a)) := by
  have hout : (formLen s a != 0 && decide (remapBase < formLo s a + formLen s a)) = true := by simp [hlen, hhi]
  have e := exec_tdef_present hp sw loge (id := id)
  rw [hok] at e
  exact ⟨_, e.trans (congrArg Host.Outcome.next (if_pos hout)), trap_enters hc ..⟩

section
variable (hhi : formLen s a = 0 ∨ formLo s a + formLen s a ≤ remapBase)
  (hmeet : tdefMeets (s.vd s.thr.vk) id.toNat (formLo s a) (formLen s a) = none)
include hhi hmeet

theorem exec_tdef_defines : exec (.tdef sw a b loge id) s =
    .next ((s.defineTensor s.thr.vk id.toNat (tdefTensor s a b loge)).finish sw) := by
  have hin : ¬ (formLen s a != 0 && decide (remapBase < formLo s a + formLen s a)) = true := by
    simp only [Bool.and_eq_true, bne_iff_ne, decide_eq_true_eq]; omega
  have e := exec_tdef_present hp sw loge (id := id)
  rw [hok, hmeet] at e
  exact e.trans (congrArg Host.Outcome.next (if_neg hin))

/-- With no check failed the id names the tensor, or none for a length of 0. -/
theorem tdef_defines : Completes (.tdef sw a b loge id) s fun t => Passes sw s t ∧
    t = { s with thr := t.thr, vds := t.vds, back := t.back } ∧
    tblFind (t.vd s.thr.vk).tensors id.toNat = if formLen s a = 0 then none else some (tdefTensor s a b loge) := by
  have hw := defineTensor_onlyTensors s s.thr.vk id.toNat (tdefTensor s a b loge)
  exact ⟨_, exec_tdef_defines hp sw loge hok hhi hmeet, finish_passes hw.thr sw, hw.finish sw,
    defineTensor_find ..⟩

end

end

end

end Sys2Proof.Machine
end

section
/-! SUPPORT. Pinned translations (R413, R414). -/

namespace Sys2Proof.Machine

/-! ### The range of TLBPIN and TLBINV -/

section
variable {s : State} {a : SReg} {rs : List Reg} (hp : Present s (sregs a 2 ++ rs)) (k : Nat → Nat → State → State)
include hp

/-- A range inside the DRAM window below the remap windows goes on. -/
theorem rangeForm_goes (hlo : 0 < formLen s a) (hhi : formLo s a + formLen s a ≤ remapBase) :
    rangeForm a rs k s = k (formLo s a) (formLen s a) s := by
  have hbad : rangeBad (formLo s a) (formLen s a) = none := by
    rw [rangeBad, if_neg (Nat.ne_of_gt hlo), if_neg (Nat.not_lt.2 hhi)]
  rw [rangeForm, withRegs_present hp, field_low]
  dsimp only
  rw [hbad]

/-- A range that fails traps with its cause and value. -/
theorem rangeForm_traps {code x : Nat} (hbad : rangeBad (formLo s a) (formLen s a) = some (code, x)) :
    rangeForm a rs k s = s.trap code (BitVec.ofNat 64 x) := by
  rw [rangeForm, withRegs_present hp, field_low]
  dsimp only
  rw [hbad]

end

theorem rangeBad_empty (lo : Nat) : rangeBad lo 0 = some (cFmtbad, 0) := rfl

theorem rangeBad_high {lo len : Nat} (hlen : 0 < len) (hhi : remapBase < lo + len) :
    rangeBad lo len = some (cXlate, max lo remapBase) := by
  rw [rangeBad, if_neg (Nat.ne_of_gt hlen), if_pos hhi]

/-! ### Pinning an entry -/

/-- Two entries are of the same page of the same VD. -/
def TlbEntry.samePage (x y : TlbEntry) : Bool := x.vk == y.vk && x.page == y.page && x.big == y.big

/-- A router holds the page of an entry, pinned by a team. -/
def Router.Pins (r : Router) (team : Nat) (x : TlbEntry) : Prop :=
  ∃ y ∈ r.tlb, y.vk = x.vk ∧ y.page = x.page ∧ y.big = x.big ∧ team ∈ y.pins

/-- One entry takes the place of those of its page, with a pin of the team; only an unpinned entry of another page goes. -/
theorem pin_single_tlb (r : Router) (team : Nat) (e : TlbEntry) : ∃ rest pins,
    (r.pin team [e]).tlb = rest ++ [{ e with pins := pins ++ [team] }] ∧
    ∀ y ∈ r.tlb, y.samePage e = false → y.pins ≠ [] → y ∈ rest := by
  rw [Router.pin, List.foldl_cons, List.foldl_nil]
  refine ⟨_, _, rfl, fun y hy hne hpin => ?_⟩
  have hkept : y ∈ r.tlb.filter fun x => !(x.vk == e.vk && x.page == e.page && x.big == e.big) :=
    List.mem_filter.2 ⟨hy, by show (!y.samePage e) = true; rw [hne]; rfl⟩
  split
  · exact hkept
  · split
    · rename_i v hv
      have hun : v.pins = [] := List.isEmpty_iff.1 (List.find?_some (p := fun x : TlbEntry => x.pins.isEmpty) hv)
      exact (List.mem_erase_of_ne fun heq => hpin (by rw [heq, hun])).2 hkept
    · exact hkept

theorem pin_single_pins (r : Router) (team : Nat) (e : TlbEntry) : (r.pin team [e]).Pins team e := by
  obtain ⟨rest, pins, htlb, -⟩ := pin_single_tlb r team e
  exact ⟨{ e with pins := pins ++ [team] }, by simp [htlb], rfl, rfl, rfl, by simp⟩

/-- Pinning another entry keeps the page of an entry pinned. -/
theorem pin_single_keeps {r : Router} {team : Nat} {x : TlbEntry} (h : r.Pins team x) (e : TlbEntry) :
    (r.pin team [e]).Pins team x := by
  obtain ⟨y, hy, hvk, hpage, hbig, hteam⟩ := h
  cases hsame : y.samePage e with
  | true =>
    obtain ⟨z, hz, hzvk, hzpage, hzbig, hzteam⟩ := pin_single_pins r team e
    simp only [TlbEntry.samePage, Bool.and_eq_true, beq_iff_eq] at hsame
    obtain ⟨⟨evk, epage⟩, ebig⟩ := hsame
    exact ⟨z, hz, by rw [hzvk, ← evk, hvk], by rw [hzpage, ← epage, hpage], by rw [hzbig, ← ebig, hbig], hzteam⟩
  | false =>
    obtain ⟨rest, pins, htlb, hrest⟩ := pin_single_tlb r team e
    exact ⟨y, by simp [htlb, hrest y hy hsame (List.ne_nil_of_mem hteam)], hvk, hpage, hbig, hteam⟩

theorem pin_cons (r : Router) (team : Nat) (e : TlbEntry) (es : List TlbEntry) :
    r.pin team (e :: es) = (r.pin team [e]).pin team es := rfl

theorem pin_keeps {r : Router} {team : Nat} {x : TlbEntry} (h : r.Pins team x) (es : List TlbEntry) :
    (r.pin team es).Pins team x := by
  induction es generalizing r with
  | nil => exact h
  | cons e es ih => rw [pin_cons]; exact ih (pin_single_keeps h e)

/-- Every entry that is pinned is pinned at the end. -/
theorem pin_pins (r : Router) (team : Nat) {es : List TlbEntry} {x : TlbEntry} (hx : x ∈ es) : (r.pin team es).Pins team x := by
  induction es generalizing r with
  | nil => cases hx
  | cons e es ih =>
    rw [pin_cons]
    obtain rfl | hx := List.mem_cons.1 hx
    · exact pin_keeps (pin_single_pins r team x) es
    · exact ih _ hx

/-! ### Pinning in every router of a scope -/

/-- Entries pinned by a team in each of these routers. -/
def State.pinIn (s : State) (team : Nat) (es : List TlbEntry) (rs : List Nat) : State :=
  rs.foldl (fun s r => s.modRouter r fun x => x.pin team es) s

theorem pinIn_world (s : State) (team : Nat) (es : List TlbEntry) (rs : List Nat) :
    s.pinIn team es rs = { s with routers := (s.pinIn team es rs).routers } := by
  induction rs generalizing s with
  | nil => rfl
  | cons r rs ih => exact ih (s.modRouter r fun x => x.pin team es)

theorem modRouter_router (s : State) (r k : Nat) (f : Router → Router) :
    (s.modRouter r f).router k = if k = r then f (s.router r) else s.router k := tblGet_put ..

theorem pinIn_keeps {s : State} {team k : Nat} {x : TlbEntry} (h : (s.router k).Pins team x) (es : List TlbEntry) (rs : List Nat) :
    ((s.pinIn team es rs).router k).Pins team x := by
  induction rs generalizing s with
  | nil => exact h
  | cons r rs ih =>
    refine ih (s := s.modRouter r fun x => x.pin team es) ?_
    rw [modRouter_router]
    split
    · rename_i hk; subst hk; exact pin_keeps h es
    · exact h

theorem pinIn_pins (s : State) (team : Nat) {es : List TlbEntry} {rs : List Nat} {r : Nat} {x : TlbEntry} (hr : r ∈ rs)
    (hx : x ∈ es) : ((s.pinIn team es rs).router r).Pins team x := by
  induction rs generalizing s with
  | nil => cases hr
  | cons k rs ih =>
    obtain rfl | hr := List.mem_cons.1 hr
    · refine pinIn_keeps (s := s.modRouter r fun x => x.pin team es) ?_ es rs
      rw [modRouter_router, if_pos rfl]
      exact pin_pins _ team hx
    · exact ih _ hr

/-! ### TLBPIN -/

/-- The 4 KiB pages of the range that a form's operands name. -/
abbrev formPages (s : State) (a : SReg) : List Nat := (pagesOf (formLo s a) (formLen s a)).map fun p => p.1 / 4096

theorem pinWalk_mapped {s : State} {vk page : Nat} (h : ∃ l, walk s vk page = some l ∧ (l.r || l.w || l.x) = true) :
    ∃ l, pinWalk s vk page = .inr l := by
  obtain ⟨l, hl, hperm⟩ := h
  exact ⟨l, by rw [pinWalk, hl]; exact if_pos hperm⟩

/-- The entries that they make, and the routers that take them (R414). -/
abbrev formPins (s : State) (a : SReg) : List TlbEntry := pinEntries s s.thr.vk (formPages s a)
abbrev formRouters (s : State) (sc : Scope) : List Nat := scopeRouters sc (s.routerOf s.gc)

/-- A router has room for the new pinned entries of a VD among its 64 (R414). -/
def Router.HasRoom (r : Router) (vk : Nat) (es : List TlbEntry) : Prop := r.pinned vk + r.newPins es ≤ 64

/-- The state with a team's entries pinned in a scope's routers, and recorded with the team (R414). -/
def State.pinned (s : State) (es : List TlbEntry) (rs : List Nat) : State :=
  let u := s.pinIn s.thr.teamNum es rs
  u.modTeam u.thr.vd s.thr.teamNum fun t =>
    { t with pins := t.pins ++ es.flatMap fun e => rs.map fun r => (r, e.page, e.big) }

theorem pinned_world (s : State) (es : List TlbEntry) (rs : List Nat) :
    s.pinned es rs = { s with routers := (s.pinned es rs).routers, teams := (s.pinned es rs).teams } := by
  rw [State.pinned, pinIn_world]; rfl

section
variable {s : State} {a : SReg} (hp : Present s (sregs a 2)) (hlo : 0 < formLen s a)
  (hhi : formLo s a + formLen s a ≤ remapBase)
  (hwalk : ∀ p ∈ formPages s a, ∃ l, walk s s.thr.vk p = some l ∧ (l.r || l.w || l.x) = true)
  (sw : Bool) (sc : Scope) (d : SReg)
include hp hlo hhi hwalk

/-- With every page mapped, TLBPIN depends on the room in the routers alone. -/
theorem exec_tlbpin_mapped : exec (.tlbpin sw sc d a) s = .next
    (if (formRouters s sc).any fun r => 64 < (s.router r).pinned s.thr.vk + (s.router r).newPins (formPins s a) then
      (s.writeS d (BitVec.allOnes 64)).finish sw
    else ((s.pinned (formPins s a) (formRouters s sc)).writeS d (BitVec.ofNat 64 (formPins s a).length)).finish sw) := by
  show execTlbpin .. = _
  rw [execTlbpin, rangeForm_goes (rs := []) hp _ hlo hhi]
  dsimp only
  split
  · rename_i hfailed
    obtain ⟨p, hpage, hfail⟩ := List.mem_filterMap.1 (hfailed ▸ List.mem_cons_self ..)
    obtain ⟨l, hl⟩ := pinWalk_mapped (hwalk p hpage)
    rw [hl] at hfail
    cases hfail
  · rfl

/-- Where a router of the scope has no room, D is all ones and nothing is pinned. -/
theorem tlbpin_full (h : ∃ r ∈ formRouters s sc, ¬ (s.router r).HasRoom s.thr.vk (formPins s a)) :
    Completes (.tlbpin sw sc d a) s fun t => WritesS s t d (BitVec.allOnes 64) ∧ InSequence sw s t := by
  have hany : ((formRouters s sc).any fun r => decide (64 < (s.router r).pinned s.thr.vk + (s.router r).newPins (formPins s a))) =
      true := by simpa [Router.HasRoom] using h
  exact ⟨_, (exec_tlbpin_mapped hp hlo hhi hwalk sw sc d).trans (congrArg Host.Outcome.next (if_pos hany)), writeS_finish ..⟩

/-- With room in every router of the scope, each holds every leaf of the range, pinned by the team, and D is their count. -/
theorem tlbpin_pins (h : ∀ r ∈ formRouters s sc, (s.router r).HasRoom s.thr.vk (formPins s a)) :
    Completes (.tlbpin sw sc d a) s fun t => InSequence sw s t ∧
      SetsS s t d (BitVec.ofNat 64 (formPins s a).length) ∧
      t = { s with thr := t.thr, routers := t.routers, teams := t.teams } ∧
      ∀ r ∈ formRouters s sc, ∀ x ∈ formPins s a,
        (t.router r).Pins s.thr.teamNum x := by
  have hany : ¬ ((formRouters s sc).any fun r => decide (64 < (s.router r).pinned s.thr.vk +
      (s.router r).newPins (formPins s a))) = true := by simpa [Router.HasRoom] using h
  generalize hes : formPins s a = es at *
  generalize hrs : formRouters s sc = rs at *
  have hw := pinned_world s es rs
  obtain ⟨hsets, hseq⟩ := writeS_finish_sets (s := s) (u := s.pinned es rs) (by rw [hw]) d (BitVec.ofNat 64 es.length) sw
  refine ⟨_, ?_, hseq, hsets, ?_, fun r hr x hx => pinIn_pins s s.thr.teamNum hr hx⟩
  · rw [exec_tlbpin_mapped hp hlo hhi hwalk, hes, hrs]; exact congrArg Host.Outcome.next (if_neg hany)
  · rw [hw]; rfl

end

end Sys2Proof.Machine
end

section
/-! SUPPORT. Invalidations that find no holder (R413, R415). -/

namespace Sys2Proof.Machine

/-! ### Opening an invalidation -/

theorem openInv_router (s : State) (tid : Option Nat) (fn token vk lo len : Nat) (dl : Option Nat) (r : Nat) :
    (s.openInv tid fn token vk lo len dl).router r = (s.router r).mark vk lo len := by
  have hfind := tblFind_map (fun _ (x : Router) => x.mark vk lo len) s.routers r
  show (tblFind (s.routers.map fun e => (e.1, e.2.mark vk lo len)) r).getD Router.blank = _
  rw [hfind, State.router, tblGet]
  cases tblFind s.routers r <;> rfl

/-- No entry of the VD that the range touches is left in a router that has been marked. -/
theorem mark_clears {r : Router} {vk lo len : Nat} {y : TlbEntry} (hy : y ∈ (r.mark vk lo len).tlb) :
    ¬ (y.vk = vk ∧ overlaps (y.page * 4096) (if y.big then 2 ^ 21 else 4096) lo len = true) := by
  rintro ⟨rfl, hmeet⟩
  have hkeep := (List.mem_filter.1 hy).2
  rw [beq_self_eq_true, Bool.true_and, show overlaps (y.page * 4096) y.len lo len = true from hmeet] at hkeep
  cases hkeep

/-- Opening an invalidation changes nothing that the accesses in flight depend on. -/
theorem accessesHold_openInv (s : State) (tid : Option Nat) (fn token vk lo len : Nat) (dl : Option Nat) :
    accessesHold (s.openInv tid fn token vk lo len dl) = accessesHold s := accessesHold_congr rfl rfl rfl rfl rfl

/-! ### Waiting for no holder -/

/-- A deadline changes nothing where nothing holds. -/
theorem forceInv_noHolders {i : Invalidation} (s : State) (h : i.holders = []) : s.forceInv i = s := by
  have hmap : (s.invs.map fun x => if x.id = i.id then { x with cancelled := x.cancelled + 0 } else x) = s.invs :=
    (List.map_congr_left fun x _ => ite_self x).trans (List.map_id _)
  rw [State.forceInv, h]
  dsimp only
  split
  · split
    · exact congrArg (fun l => { s with invs := l }) hmap
    · rfl
  · rfl

theorem waitInv_ends {s : State} {i : Invalidation} (hmine : s.invs.find? (fun i => i.tid == some s.thr.id) = some i)
    (hholders : i.holders = []) (hacc : accessesHold s i.vk i.lo (i.hi - i.lo) i.before = false) (sw : Bool) (d : SReg) :
    waitInv sw d s =
      (({ s with invs := s.invs.filter fun x => x.id != i.id } : State).writeS d (BitVec.ofNat 64 i.cancelled)).finish sw := by
  have hends : invEnds s i = true := by rw [invEnds, hholders, hacc]; rfl
  rw [waitInv]
  dsimp only
  rw [hmine]
  dsimp only
  rw [forceInv_noHolders s hholders, hmine]
  exact if_pos hends

/-! ### TLBINV -/

/-- The invalidation that a thread opens where nothing holds a translation of the range. -/
def ownInv (s : State) (lo len : Nat) (dl : Option Nat) : Invalidation :=
  ⟨s.seq, some s.thr.id, 0, 0, s.thr.vk, lo, lo + len, dl, [], s.seq, 0⟩

section
variable {s : State} {lo len : Nat} (dl : Option Nat) (hfresh : ∀ i ∈ s.invs, i.tid ≠ some s.thr.id)
  (hholders : holdersOf s s.thr.vk lo len = [])
include hfresh hholders

theorem openInv_mine : (s.openInv (some s.thr.id) 0 0 s.thr.vk lo len dl).invs.find? (fun i => i.tid == some s.thr.id) =
    some (ownInv s lo len dl) := by
  have hold : s.invs.find? (fun i => i.tid == some s.thr.id) = none :=
    List.find?_eq_none.2 fun i hi => by simpa using hfresh i hi
  rw [State.openInv, hholders]
  simp [hold, ownInv]

/-- With nothing that holds a translation an invalidation ends at once with 0, its marks made (R415). -/
theorem waitInv_openInv (hacc : accessesHold s s.thr.vk lo len s.seq = false) (sw : Bool) (d : SReg) :
    ∃ u : State, waitInv sw d (s.openInv (some s.thr.id) 0 0 s.thr.vk lo len dl) = (u.writeS d 0).finish sw ∧
      u.thr = s.thr ∧ u.mem = s.mem ∧ ∀ r, u.router r = (s.router r).mark s.thr.vk lo len := by
  have hmine := openInv_mine dl hfresh hholders
  have hacc' : accessesHold (s.openInv (some s.thr.id) 0 0 s.thr.vk lo len dl) s.thr.vk lo (lo + len - lo) s.seq = false := by
    rw [accessesHold_openInv, Nat.add_sub_cancel_left, hacc]
  have hends := waitInv_ends (i := ownInv s lo len dl) hmine rfl hacc' sw d
  exact ⟨_, hends, rfl, rfl, openInv_router s (some s.thr.id) 0 0 s.thr.vk lo len dl⟩

end

section
variable {s : State} {a : SReg} {b : Src} {force : Bool} (hwait : s.thr.wait = .none)
  (hp : Present s (sregs a 2 ++ if force then srcRegs b else [])) (sw : Bool) (d : SReg)
include hwait

theorem exec_tlbinv_first : exec (.tlbinv sw d a b force) s = .next (rangeForm a (if force then srcRegs b else [])
    (fun lo len s => waitInv sw d (s.openInv (some s.thr.id) 0 0 s.thr.vk lo len
      (if force then some (s.src b).toNat else none))) s) := by
  show execTlbinv .. = _
  rw [execTlbinv, hwait]

include hp

/-- With nothing that holds a translation TLBINV removes what its range touches and returns 0. -/
theorem tlbinv_clears (hlo : 0 < formLen s a) (hhi : formLo s a + formLen s a ≤ remapBase)
    (hfresh : ∀ i ∈ s.invs, i.tid ≠ some s.thr.id) (hholders : holdersOf s s.thr.vk (formLo s a) (formLen s a) = [])
    (hacc : accessesHold s s.thr.vk (formLo s a) (formLen s a) s.seq = false) :
    Completes (.tlbinv sw d a b force) s fun t => InSequence sw s t ∧ SetsS s t d 0 ∧ t.mem = s.mem ∧
      ∀ r, ∀ y ∈ (t.router r).tlb, ¬ (y.vk = s.thr.vk ∧
        overlaps (y.page * 4096) (if y.big then 2 ^ 21 else 4096) (formLo s a) (formLen s a) = true) := by
  obtain ⟨u, hu, hthr, hmem, hrouter⟩ :=
    waitInv_openInv (if force then some (s.src b).toNat else none) hfresh hholders hacc sw d
  have e := (exec_tlbinv_first hwait sw d).trans (congrArg Host.Outcome.next ((rangeForm_goes hp _ hlo hhi).trans hu))
  obtain ⟨hsets, hseq⟩ := writeS_finish_sets hthr d 0 sw
  refine ⟨_, e, hseq, hsets, hmem, fun r y hy => mark_clears (r := s.router r) ?_⟩
  rw [← hrouter r]
  exact hy

/-- A range that fails traps before anything is marked. -/
theorem tlbinv_traps (hc : CanTrap s) {code x : Nat} (hbad : rangeBad (formLo s a) (formLen s a) = some (code, x)) :
    Completes (.tlbinv sw d a b force) s fun t => TrapsTo s t code s.thr.pc (BitVec.ofNat 64 x) :=
  ⟨_, (exec_tlbinv_first hwait sw d).trans (congrArg Host.Outcome.next (rangeForm_traps hp _ hbad)), trap_enters hc ..⟩

end

/-! ### The obligation -/

/-- Settles O39: TDEF by the order of its checks, TLBPIN by folding over the routers of its scope, TLBINV since nothing
that it waits for is there. -/
theorem tensorsAndTranslationEntries : Obligations.TensorsAndTranslationEntries := by
  unfold Obligations.TensorsAndTranslationEntries
  intro sw force sc d a b loge id s lo len pitch e vk fits apart pages es room
  have hid (h : id ≠ 0) : id.toNat ≠ 0 := fun h0 => h (BitVec.eq_of_toNat_eq h0)
  have hok : fits → tdefBad id.toNat e lo len pitch = none := fun ⟨h, hpitch, he, hmax, hbase, hlen⟩ =>
    tdefBad_none (hid h) hpitch he hmax hbase hlen
  refine ⟨fun hp => ⟨fun hfits hhi hapart => ?defines, fun h0 hc => ?zero, fun h hbad hc => ?pitch,
      fun hfits hlen hhi hc => ?high⟩,
    fun hp hlo hhi hwalk => ⟨tlbpin_full hp hlo hhi hwalk sw sc d, tlbpin_pins hp hlo hhi hwalk sw sc d⟩,
    fun hwait hp => ⟨tlbinv_clears hwait hp sw d, fun h0 hc => ?empty, fun hlo hhi hc => ?above⟩⟩
  case defines => exact tdef_defines hp sw loge (hok hfits) hhi (tdefMeets_none hapart)
  case zero => exact tdef_fmtbad hp sw loge hc (by rw [h0]; exact tdefBad_id)
  case pitch =>
    have ht := tdef_fmtbad hp sw loge hc (tdefBad_pitch (hid h) hbad)
    rwa [BitVec.ofNat_toNat, BitVec.setWidth_eq] at ht
  case high => exact tdef_xlate hp sw loge (hok hfits) hc hlen hhi
  case empty => exact tlbinv_traps hwait hp sw d hc (by rw [show formLen s a = 0 from h0]; exact rangeBad_empty _)
  case above => exact tlbinv_traps hwait hp sw d hc (rangeBad_high hlo hhi)

end Sys2Proof.Machine
end

section
/-! SUPPORT. The round trip of every instruction, and what it gives: units are read as one instruction only (R37, R41, R49). -/

namespace Sys2Proof.Laws.RoundTrip

/-- Every instruction, in the order of its constructors: the instructions group by group, then the steps of the part. -/
theorem all : ∀ i, Statement i :=
  Instr.rec
    nop br brz brnz jmp jal jalr loop lbrk halt
    encodingNotAnInstruction
    add sub and or xor andn shl shr sar rotl min max minu maxu mul mulh mulhu div divu rem remu clz ctz popc mov
    sext zext addi andi ori xori cmp cmpi sel bfx bfi li liw lix
    padd pidx pstrip pget pfmt paddi
    pand por pxor pnot pmov pcnt pfirst
    vadd vsub vmul vmulh vmin vmax vfma vfms vabs vneg vand vor vxor vshl vshr vsar vcmp vsel vbcast vins vext vshuf
    vrot vcvt vqnt vdqnt vredsum vredmax vredmin vscan vrcp vrsq vexp2 vlog2 vdot4 vpopc
    ld lda st stl vld vlds vst vsts vgath vscat ldf ste ldfp setfe amo redu waitge fence pref tflush tinv
    send sendv sendr mintcap revcap rclr rfull rwait landm
    cpy cpynb cpyc cpyq twany twall tffr tclr pbinv gathq planset planfire plandrop
    tapeopen tapeclose tapefree tapeq mcast gathr a2a retrace genbump
    hsinit hsift hpop hist histOvf remapw remapx
    mcfg mzero mlda mldb mldacc mmap mmah mmas mst mstq mscl
    wfw disp prog ckpt sleep bararv barwt barsync trap eret ctlr ctlw tdef tlbpin tlbinv
    lineFetch deferredResultReturn switchPointCommit asyncCauseDelivery parklong translationWalkEnd accessAtHome
    syncretry syncRequestRepresent watchReread gatherEngineServe sendArrival revocationEffective capbadStop
    copyDispatch copyComplete matrixEntryStart matrixEntryComplete multicastDelivery planTrigger planFireStart
    planFiringComplete sillageDelivery sillageTransferComplete retraceChunkArrival accordEmit retraceComplete
    dispPostArrival dispenserBind sleepWake barrierArrivalCounted barrierPhaseComplete ckptRecord bucketAccrual
    arbiterGrant rateEpoch progressAdditionApplied doorbell launchEntry launchSelect launchBind bootTreeForward
    threadStart teamComplete preemptEntry preemptDeadline discard saveComplete invalidateEntry defineHandle dropHandle
    answer hostAnswerTimeout tlbinvDeadline eventRingDrain eheadWrite ectlWrite qctlEn qctlRst vdCreate vdDestroy
    vdReenable l2useWrite l2limWrite rateWrite qpriWrite slotMapWrite grantMapWrite rmodeWrite registerWrite
    hostHdmRead hostHdmWrite spdmMessage throttleChange thermalLimit flitReplay linkDown thopeifBringup
    thopeifLinkFail timeSync scrub wearSample lifeRecompute securityAlarm olushOutput packageReset
    layerTemperatureChange

end Sys2Proof.Laws.RoundTrip

namespace Sys2Proof

/-- Units that a well-formed instruction encodes to are decoded to it. -/
theorem decode_of_encode {i : Instr} {us : List Nat} (hw : i.wf = true) (he : encode i = us) (hne : us ≠ []) :
    decode us = .ok i := by
  subst he; exact Laws.RoundTrip.all i hw hne

/-- Settles O57: decoding is a left inverse of encoding, so that two instructions with the same units are the same. -/
theorem encodingsRoundTrip : Obligations.EncodingsRoundTrip := by
  unfold Obligations.EncodingsRoundTrip
  intro i hi hne
  have hdec : decode (encode i) = .ok i := decode_of_encode hi rfl hne
  refine ⟨hdec, fun j hj hsame => ?_⟩
  exact Except.ok.inj ((decode_of_encode hj hsame hne).symm.trans hdec)

/-- Settles O56: each of the words is what the encoder, written from the same tables, makes of its instruction. -/
theorem wordsDecode : Obligations.WordsDecode := by
  unfold Obligations.WordsDecode
  intro e he
  have hunits : e.2.wf = true ∧ encode e.2 = e.1 ∧ e.1 ≠ [] := by
    revert e
    decide
  obtain ⟨hw, henc, hne⟩ := hunits
  exact decode_of_encode hw henc hne

end Sys2Proof
end

section
/-! SUPPORT. Threads by their numbers: the one that is brought into focus, and one that is changed in place. -/

namespace Sys2Proof.Machine

/-- Bringing a thread into focus moves threads about and changes nothing else. -/
theorem focus_shape (s : State) (id : Nat) :
    s.focus id = { s with thr := s.thread id, threads := (s.focus id).threads } := by
  rw [State.focus, State.thread]; split <;> rfl

@[simp] theorem focus_thr (s : State) (id : Nat) : (s.focus id).thr = s.thread id := by rw [focus_shape]
@[simp] theorem focus_mem (s : State) (id : Nat) : (s.focus id).mem = s.mem := by rw [focus_shape]
@[simp] theorem focus_cores (s : State) (id : Nat) : (s.focus id).cores = s.cores := by rw [focus_shape]
@[simp] theorem focus_pkgs (s : State) (id : Nat) : (s.focus id).pkgs = s.pkgs := by rw [focus_shape]
@[simp] theorem focus_ue (s : State) (id : Nat) : (s.focus id).ue = s.ue := by rw [focus_shape]
@[simp] theorem focus_ce (s : State) (id : Nat) : (s.focus id).ce = s.ce := by rw [focus_shape]

/-- The thread in focus is found under its number. -/
theorem thread_of_id {s : State} {id : Nat} (h : s.thr.id = id) : s.thread id = s.thr := if_pos h

theorem setThread_thread (s : State) (x : Thread) (id : Nat) :
    (s.setThread x).thread id = if id = x.id then x else s.thread id := by
  rw [State.setThread, State.thread]
  by_cases hx : s.thr.id = x.id
  · rw [if_pos hx, State.thread, hx]
    by_cases hid : id = x.id
    · rw [if_pos hid, if_pos hid.symm]
    · rw [if_neg hid, if_neg (Ne.symm hid), if_neg (Ne.symm hid)]
  · rw [if_neg hx, State.thread]
    by_cases hid : id = x.id
    · rw [if_pos hid, if_neg (hid ▸ hx), hid, tblGet_put, if_pos rfl]
    · rw [if_neg hid, tblGet_put, if_neg hid]

/-- A change that keeps a thread's number is found where the thread was. -/
theorem modThread_thread {s : State} (hk : s.Keyed) {id : Nat} {f : Thread → Thread}
    (hf : (f (s.thread id)).id = (s.thread id).id) :
    (s.modThread id f).thread id = f (s.thread id) := by
  rw [State.modThread, setThread_thread, hf, thread_id hk, if_pos rfl]

/-- The same for a thread that has been brought into focus. -/
theorem modThr_focus_thread {s : State} (hk : s.Keyed) {id : Nat} {f : Thread → Thread}
    (hf : (f (s.thread id)).id = (s.thread id).id) :
    ((s.focus id).modThr f).thread id = f (s.thread id) := by
  rw [thread_of_id, State.modThr_thr, focus_thr]
  rw [State.modThr_thr, focus_thr, hf, thread_id hk]

@[simp] theorem modThread_mem (s : State) (id : Nat) (f : Thread → Thread) : (s.modThread id f).mem = s.mem := by
  rw [State.modThread, State.setThread]; split <;> rfl

end Sys2Proof.Machine
end

section
/-! SUPPORT. The fetch of a line that meets its bytes (R33, R35, R36). -/

namespace Sys2Proof.Machine

/-! ### Translation and reading at a home -/

/-- What an access resolves to depends on no thread. -/
theorem resolve_congr {s t : State} (hv : t.vds = s.vds) (hp : t.pkgs = s.pkgs) (hc : t.cores = s.cores)
    (hr : t.routers = s.routers) (ht : t.teams = s.teams) (hi : t.iommu = s.iommu) : resolve t = resolve s := by
  have hrouterOf (gc : Nat) : t.routerOf gc = s.routerOf gc := by rw [State.routerOf, State.routerOf, pkg_congr hp]
  have hrouter (r : Nat) : t.router r = s.router r := by rw [State.router, State.router, hr]
  have hcore (gc : Nat) : t.core gc = s.core gc := by rw [State.core, State.core, hc]
  have hreserved (vk off : Nat) : reserved t vk off = reserved s vk off := by rw [reserved, reserved, ht]
  funext gc vd fails r w x va
  simp only [resolve, whereIs_congr hv hp, remapped_congr hv, vd_congr hv, pkg_congr hp, hi, hrouterOf, hrouter, hcore,
    hreserved]

/-- A fetch meets the same whichever thread is in focus. -/
theorem fetchRes_focus (s : State) (id : Nat) : fetchRes (s.focus id) = fetchRes s := by
  have hv : (s.focus id).vds = s.vds := by rw [focus_shape]
  have hp : (s.focus id).pkgs = s.pkgs := focus_pkgs s id
  have hr : (s.focus id).routers = s.routers := by rw [focus_shape]
  have ht : (s.focus id).teams = s.teams := by rw [focus_shape]
  have hi : (s.focus id).iommu = s.iommu := by rw [focus_shape]
  funext x va
  rw [fetchRes, fetchRes, whereIs_congr hv hp, resolve_congr hv hp (focus_cores s id) hr ht hi]

/-- With no link down every byte is served where it stands (R446). -/
theorem reached_linked {s : State} (h : ∀ p ∈ s.pkgs, p.2.linksDown = []) (gc vd va loc : Nat) :
    reached s gc vd va loc = loc :=
  if_pos (List.all_eq_true.mpr fun p hp => by rw [h p hp]; rfl)

/-- With no uncorrectable error a range that is not cut off is read (R443). -/
theorem readLoc_sound {s : State} (hue : s.ue = []) {loc : Nat} (hl : isLost loc = false) (len : Nat) :
    s.readLoc loc len = some (memReadN s.mem loc len) :=
  if_neg (by simp [State.bad, hl, hue])

/-- With no error anywhere a read counts none (R445). -/
theorem countUe_sound {s : State} (hue : s.ue = []) (hce : s.ce = []) (vd : Nat) (locs : List Nat) : s.countUe vd locs = s :=
  if_pos (by rw [hue, hce]; rfl)

/-! ### The step -/

/-- The line of a thread's position, as its bytes stand from a location on. -/
def fetchedLine (s : State) (id l : Nat) : Line := lineOfBytes (lineAddr (s.thread id).pc) (memReadN s.mem l 64)

/-- With no second line waited for, the line goes to the place of the pc's. -/
theorem holdLine_shape {x : Thread} (hwant : x.want = none) (line : Line) :
    x.holdLine line = { x with line := some line, line2 := none, walkFail := [] } := by
  rw [Thread.holdLine]
  split
  · next h => rw [hwant] at h; cases h
  · rfl

/-- Thread `id` waits for the line of its position, whose 64 bytes stand from `l` on where they can be read: it is ready and
nothing else comes first, translation gives `l` (R36, R106), and no error, cut-off slice or link that is down is met (R443, R446). -/
structure FetchMeets (s : State) (id l : Nat) : Prop where
  ready : (s.thread id).st = .ready
  goes : (s.thread id).stop ≠ 2
  calm : (s.thread id).delivers = false
  stored : (s.thread id).storeHold = []
  single : (s.thread id).want = none
  missing : (s.thread id).lineAt (lineAddr (s.thread id).pc) = none
  found : fetchRes s (s.thread id) (lineAddr (s.thread id).pc).toNat = .loc l
  sound : s.ue = [] ∧ s.ce = []
  served : isLost l = false ∧ isLost (l + 32) = false
  linked : ∀ p ∈ s.pkgs, p.2.linksDown = []

section
variable {s : State} {id l : Nat} (h : FetchMeets s id l)
include h

/-- A fetch that meets the bytes of its line holds the line or raises LINEFMT. -/
theorem exec_lineFetch_meets : exec (.lineFetch id) s = .next
    (if (fetchedLine s id l).ok then (s.focus id).modThr fun y => y.holdLine (fetchedLine s id l)
     else (s.focus id).useTurn.trap cLinefmt ((lineAddr (s.thread id).pc).setWidth 64)) := by
  obtain ⟨hst, hstop, hdel, hhold, hwant, hline, hres, ⟨hue, hce⟩, ⟨hlo, hhi⟩, hlinks⟩ := h
  have hue' : (s.focus id).ue = [] := (focus_ue s id).trans hue
  have hce' : (s.focus id).ce = [] := (focus_ce s id).trans hce
  have hlinks' : ∀ p ∈ (s.focus id).pkgs, p.2.linksDown = [] := by rw [focus_pkgs]; exact hlinks
  have hstop' : ((s.thread id).stop == 2) = false := beq_false_of_ne hstop
  show execLineFetch id s = _
  rw [execLineFetch]
  simp only [focus_thr, hst, hstop', hdel, hhold, hwant, hline, fetchRes_focus, hres, reached_linked hlinks', Nat.add_zero,
    hlo, hhi, readLoc_sound hue' hlo, countUe_sound hue' hce', focus_mem]
  rfl

/-- A well-formed line is held, and nothing else of the thread changes. -/
theorem lineFetch_holds (hk : s.Keyed) (hok : (fetchedLine s id l).ok = true) :
    Completes (.lineFetch id) s fun t =>
      (t.thread id).line = some (fetchedLine s id l) ∧ t.mem = s.mem ∧
      { t.thread id with line := (s.thread id).line, line2 := (s.thread id).line2, walkFail := (s.thread id).walkFail } =
        s.thread id := by
  refine ⟨_, (exec_lineFetch_meets h).trans (congrArg _ (if_pos hok)), ?_⟩
  have hthread : ((s.focus id).modThr fun y => y.holdLine (fetchedLine s id l)).thread id =
      (s.thread id).holdLine (fetchedLine s id l) := modThr_focus_thread hk (by rw [holdLine_shape h.single])
  beta_reduce
  rw [hthread, holdLine_shape h.single]
  exact ⟨rfl, focus_mem s id, rfl⟩

/-- A line that is not well formed raises LINEFMT, with the line's address, at the head that waits for it. -/
theorem lineFetch_linefmt (hk : s.Keyed) (hbad : (fetchedLine s id l).ok = false)
    (hhm : (s.thread id).hm = false) (hbuf : (s.thread id).buf = []) (htvec : (s.thread id).tvec ≠ 0) :
    Completes (.lineFetch id) s fun t => (t.thread id).hm = true ∧ (t.thread id).cause = 0x02 ∧
      (t.thread id).tval = (lineAddr (s.thread id).pc).setWidth 64 ∧ (t.thread id).epc = (s.thread id).pc &&& ~~~1#52 ∧
      (t.thread id).pc = (s.thread id).tvec ∧ t.mem = s.mem := by
  refine ⟨_, (exec_lineFetch_meets h).trans (congrArg _ (if_neg (by rw [hbad]; decide))), ?_⟩
  have hthr : (s.focus id).useTurn.thr = { s.thread id with nextTurn := (s.focus id).useTurn.thr.nextTurn } := by
    rw [State.useTurn, State.modThr_thr, focus_thr]
  have hcan : CanTrap (s.focus id).useTurn := by rw [CanTrap, hthr]; exact ⟨hhm, hbuf, htvec⟩
  obtain ⟨-, hepc, hcause, hval, hmode, hhead, -, hworld, hkept⟩ :=
    trap_enters hcan cLinefmt ((lineAddr (s.thread id).pc).setWidth 64)
  have hid : ((s.focus id).useTurn.trap cLinefmt ((lineAddr (s.thread id).pc).setWidth 64)).thr.id = id := by
    refine (congrArg Thread.id hkept).trans ?_
    show (s.focus id).useTurn.thr.id = id
    rw [hthr]; exact thread_id hk id
  beta_reduce
  rw [thread_of_id hid]
  rw [hthr] at hepc hhead
  exact ⟨hmode, hcause, hval, hepc, hhead, (congrArg State.mem hworld).trans (focus_mem s id)⟩

end

end Sys2Proof.Machine
end

section
/-! SUPPORT. Deferred results that return (R44, R45). -/

namespace Sys2Proof.Machine

/-- What PLANSET's result is formed from moves no thread and no byte. -/
theorem planReserve_keeps (s : State) (t : Thread) (desc : List Byte) (cls : BitVec 2) :
    (planReserve s t desc cls).1 =
      { s with free := (planReserve s t desc cls).1.free, vds := (planReserve s t desc cls).1.vds } := by
  rw [planReserve]
  cases s.findTeam t.vd t.teamNum with
  | none => rfl
  | some team =>
    cases freePlan (s.vd t.vk) with
    | none => dsimp only; split_ifs <;> rfl
    | some idx => dsimp only; split_ifs <;> rfl

/-- The writes of an entry that returns with a value formed at its return, or with none. -/
def returnedWrites : Option Word → List RegWrite → List RegWrite
  | some x, ws => ws.map (RegWrite.fill x)
  | none, ws => ws

section
variable {s u : State} {id k : Nat} {e : BufEntry} {v : Option Word} (hk : s.Keyed)
  (hfind : (s.thread id).buf.find? (fun e => e.id = k) = some e) (hdone : e.done = true) (hret : e.returned = false)
  (hform : (if e.fail.isSome then (s, none) else formResult s (s.thread id) e.form) = (u, v))
  (hthr : u.thr = s.thr) (hthreads : u.threads = s.threads)
include hk hfind hdone hret hform hthr hthreads

/-- A formed result returns: its entry, and no other, is marked and takes the value. -/
theorem deferredResultReturn_returns : Completes (.deferredResultReturn id k) s fun t =>
    ((t.thread id).buf = (s.thread id).buf.map fun y =>
      if y.id = k then { y with returned := true, writes := returnedWrites v y.writes } else y) ∧ t.mem = u.mem := by
  have hthread : u.thread = s.thread := thread_congr hthr hthreads
  have hku : u.Keyed := fun x hx => hk x (hthreads ▸ hx)
  have hexec : exec (.deferredResultReturn id k) s = .next (u.modThread id fun y => y.modEntry k fun e =>
      { e with returned := true, writes := returnedWrites v e.writes }) := by
    show execDeferredResultReturn id k s = _
    rw [execDeferredResultReturn, hfind]
    simp only [hdone, hret, hform]
    cases v <;> rfl
  refine ⟨_, hexec, ?_, modThread_mem ..⟩
  rw [modThread_thread hku rfl, hthread]
  rfl

end

end Sys2Proof.Machine
end

section
/-! SUPPORT. The commit at a switch point: each register takes the last value that is outstanding for it (R45, R47). -/

namespace Sys2Proof.Machine

/-! ### What one register holds -/

/-- The register that is written holds the value, and is present. -/
def Thread.Holds (t : Thread) : RegWrite → Prop
  | .s r x => t.getS r = x ∧ t.hasS r = true
  | .v r x => t.getV r = x ∧ t.hasV r = true
  | .p r x => t.getP r = x ∧ t.hasP r = true

/-- A register and its presence bit are as another thread has them. -/
def Thread.AsIn (t u : Thread) : Reg → Prop
  | .s r => t.getS r = u.getS r ∧ t.hasS r = u.hasS r
  | .v r => t.getV r = u.getV r ∧ t.hasV r = u.hasV r
  | .p r => t.getP r = u.getP r ∧ t.hasP r = u.hasP r

theorem Thread.AsIn.refl (t : Thread) (r : Reg) : t.AsIn t r := by cases r <;> exact ⟨rfl, rfl⟩

theorem Thread.AsIn.trans {t u v : Thread} {r : Reg} (h : t.AsIn u r) (h' : u.AsIn v r) : t.AsIn v r := by
  cases r <;> exact ⟨h.1.trans h'.1, h.2.trans h'.2⟩

theorem Thread.AsIn.holds {t u : Thread} {w : RegWrite} (h : t.AsIn u (regOfWrite w)) (hw : u.Holds w) : t.Holds w := by
  cases w <;> exact ⟨h.1.trans hw.1, h.2.trans hw.2⟩

/-- A register other than `p0` holds what is put into it (R38). -/
theorem putReg_holds (t : Thread) {w : RegWrite} (hw : regOfWrite w ≠ .p 0) : (t.putReg w).Holds w := by
  cases w with
  | s r x => exact ⟨by rw [getS_put, if_pos rfl], by rw [hasS_put]; simp⟩
  | v r x => exact ⟨by rw [getV_put, if_pos rfl], by rw [hasV_put]; simp⟩
  | p r x =>
    have hr : r.val ≠ 0 := fun h => hw (congrArg Reg.p (Fin.ext h))
    exact ⟨by rw [getP_put, if_pos ⟨rfl, hr⟩], by rw [hasP_put]; simp⟩

/-- Every other register keeps what it holds. -/
theorem putReg_asIn (t : Thread) {w : RegWrite} {r : Reg} (hw : regOfWrite w ≠ r) : (t.putReg w).AsIn t r := by
  cases w with
  | s q x =>
    cases r with
    | s r =>
      have hne : q ≠ r := fun h => hw (congrArg Reg.s h)
      exact ⟨by rw [getS_put, if_neg hne], by simp [hne]⟩
    | v r | p r => exact ⟨rfl, rfl⟩
  | v q x =>
    cases r with
    | v r =>
      have hne : q ≠ r := fun h => hw (congrArg Reg.v h)
      exact ⟨by rw [getV_put, if_neg hne], by simp [hne]⟩
    | s r | p r => exact ⟨rfl, rfl⟩
  | p q x =>
    cases r with
    | p r =>
      have hne : q ≠ r := fun h => hw (congrArg Reg.p h)
      exact ⟨by rw [getP_put, if_neg fun h => hne h.1], by simp [hasP_put, hne]⟩
    | s r | v r => rw [putP_shape]; exact ⟨rfl, rfl⟩

/-! ### A list of writes -/

/-- The last of the writes for a register. -/
def lastWrite (ws : List RegWrite) (r : Reg) : Option RegWrite := ws.reverse.find? fun w => regOfWrite w = r

theorem lastWrite_concat (ws : List RegWrite) (w : RegWrite) (r : Reg) :
    lastWrite (ws ++ [w]) r = if regOfWrite w = r then some w else lastWrite ws r := by
  rw [lastWrite, List.reverse_concat, List.find?_cons]
  by_cases h : regOfWrite w = r <;> simp [h, lastWrite]

theorem regOfWrite_lastWrite {ws : List RegWrite} {w : RegWrite} {r : Reg} (h : lastWrite ws r = some w) : regOfWrite w = r :=
  of_decide_eq_true (List.find?_some (p := fun w => decide (regOfWrite w = r)) h)

/-- A register in thread `t` after writes to thread `u`: it holds the last of them that is for it, or, with none, what it held. -/
def Thread.AfterWrites (t u : Thread) (ws : List RegWrite) : Reg → Prop
  | .s r => (∃ v, lastWrite ws (.s r) = some (.s r v) ∧ t.getS r = v ∧ t.hasS r = true) ∨
      lastWrite ws (.s r) = none ∧ t.getS r = u.getS r ∧ t.hasS r = u.hasS r
  | .v r => (∃ v, lastWrite ws (.v r) = some (.v r v) ∧ t.getV r = v ∧ t.hasV r = true) ∨
      lastWrite ws (.v r) = none ∧ t.getV r = u.getV r ∧ t.hasV r = u.hasV r
  | .p r => (∃ v, lastWrite ws (.p r) = some (.p r v) ∧ t.getP r = v ∧ t.hasP r = true) ∨
      lastWrite ws (.p r) = none ∧ t.getP r = u.getP r ∧ t.hasP r = u.hasP r

theorem afterWrites_iff {t u : Thread} {ws : List RegWrite} {r : Reg} : t.AfterWrites u ws r ↔
    (∃ w, lastWrite ws r = some w ∧ t.Holds w) ∨ lastWrite ws r = none ∧ t.AsIn u r := by
  constructor
  · intro h
    cases r <;> exact h.imp_left fun ⟨_, hl, hh⟩ => ⟨_, hl, hh⟩
  · rintro (⟨w, hl, hh⟩ | hkept)
    · cases regOfWrite_lastWrite hl
      cases w <;> exact .inl ⟨_, hl, hh⟩
    · cases r <;> exact .inr hkept

/-- Writes in order leave each register but `p0` with the last value that is written to it. -/
theorem foldl_putReg_afterWrites (t : Thread) {r : Reg} (hr : r ≠ .p 0) (ws : List RegWrite) :
    (ws.foldl Thread.putReg t).AfterWrites t ws r := by
  rw [afterWrites_iff]
  induction ws using List.reverseRecOn with
  | nil => exact .inr ⟨rfl, .refl t r⟩
  | append_singleton ws w ih =>
    rw [List.foldl_concat, lastWrite_concat]
    by_cases hw : regOfWrite w = r
    · rw [if_pos hw]
      exact .inl ⟨w, rfl, putReg_holds _ (hw ▸ hr)⟩
    · rw [if_neg hw]
      have hkeeps : ((ws.foldl Thread.putReg t).putReg w).AsIn (ws.foldl Thread.putReg t) r := putReg_asIn _ hw
      exact ih.imp (fun ⟨x, hl, hh⟩ => ⟨x, hl, (regOfWrite_lastWrite hl ▸ hkeeps).holds hh⟩)
        fun ⟨hl, hkept⟩ => ⟨hl, hkeeps.trans hkept⟩

/-- Writes change registers and their presence bits alone. -/
theorem foldl_putReg_shape (ws : List RegWrite) (t : Thread) : ws.foldl Thread.putReg t =
    { t with sregs := (ws.foldl Thread.putReg t).sregs, sFull := (ws.foldl Thread.putReg t).sFull,
             vregs := (ws.foldl Thread.putReg t).vregs, vFull := (ws.foldl Thread.putReg t).vFull,
             pregs := (ws.foldl Thread.putReg t).pregs, pFull := (ws.foldl Thread.putReg t).pFull } := by
  induction ws generalizing t with
  | nil => rfl
  | cons w ws ih =>
    rw [List.foldl_cons, ih]
    cases w with
    | s r x | v r x => rfl
    | p r x => rw [putP_shape]

/-! ### The commit -/

/-- The writes that a buffer commits, in issue order: those of its entries that have not failed (R45). -/
def pendingWrites (es : List BufEntry) : List RegWrite := (es.filter fun e => e.fail.isNone).flatMap fun e => e.writes

/-- The causes that its failed entries leave pending, each with its instruction's address (R47). -/
def failedCauses (es : List BufEntry) : List Pending :=
  es.filterMap fun e => e.fail.map fun c => ⟨c, e.pc.setWidth 64, none, 0⟩

theorem commit_shape (t : Thread) : t.commit =
    { (pendingWrites t.buf).foldl Thread.putReg t with buf := [], pend := t.pend ++ failedCauses t.buf } := by
  have hfold (es : List BufEntry) (x : Thread) : es.foldl (fun x e => match e.fail with
      | none => e.writes.foldl Thread.putReg x
      | some _ => x) x = (pendingWrites es).foldl Thread.putReg x := by
    induction es generalizing x with
    | nil => rfl
    | cons e es ih =>
      rw [List.foldl_cons, ih, pendingWrites, pendingWrites]
      cases he : e.fail with
      | none => simp [he]
      | some c => simp [he]
  have hpend : ((pendingWrites t.buf).foldl Thread.putReg t).pend = t.pend := by rw [foldl_putReg_shape]
  rw [← hpend]
  exact congrArg (fun x : Thread => { x with buf := [], pend := x.pend ++ failedCauses t.buf }) (hfold t.buf t)

theorem reland_empty {s : State} {id : Nat} (h : (s.core (coreOf id)).landing = []) : s.reland id = s := by
  rw [State.reland]
  simp only [h]

/-! ### The step -/

/-- Registers other than `p0` after a commit, wherever the thread then stands. -/
theorem commit_afterWrites (t : Thread) (st : TStatus) {r : Reg} (hr : r ≠ .p 0) :
    Thread.AfterWrites { t.commit with st := st } t (pendingWrites t.buf) r := by
  rw [commit_shape]
  exact foldl_putReg_afterWrites t hr (pendingWrites t.buf)

/-- Once every result has returned, a switch point that execution goes on from commits them. -/
theorem switchPointCommit_commits {s : State} {id : Nat} (hk : s.Keyed) (hst : (s.thread id).st = .switchWait .go)
    (hret : ∀ e ∈ (s.thread id).buf, e.returned = true) (hland : (s.core (coreOf id)).landing = []) :
    Completes (.switchPointCommit id) s fun t => t.thread id = { (s.thread id).commit with st := .ready } ∧ t.mem = s.mem := by
  have hall : ((s.thread id).buf.any fun e => !e.returned) = false :=
    List.any_eq_false.mpr fun e he => by rw [hret e he]; decide
  have hland' : (((s.focus id).modThr fun x => { x.commit with st := .ready }).core (coreOf id)).landing = [] := by
    rw [State.core, State.modThr_cores, focus_cores]; exact hland
  have hexec : exec (.switchPointCommit id) s = .next ((s.focus id).modThr fun x => { x.commit with st := .ready }) := by
    show execSwitchPointCommit id s = _
    rw [execSwitchPointCommit]
    simp only [focus_thr, hst, hall]
    exact congrArg Host.Outcome.next (reland_empty hland')
  refine ⟨_, hexec, modThr_focus_thread hk ?_, focus_mem s id⟩
  rw [commit_shape, foldl_putReg_shape]

end Sys2Proof.Machine
end

section
/-! SUPPORT. Lines, returning results and commits together. -/

namespace Sys2Proof.Machine

/-- Settles O41: the fetch by what translation and the line's home give, a return by the one entry that it changes, the commit
by the last write to each register. -/
theorem linesAndCommits : Obligations.LinesAndCommits := by
  unfold Obligations.LinesAndCommits
  intro id k l e a d va desc cls s hk x la line ws last
  have hid : x.id = id := thread_id hk id
  refine ⟨fun hst hstop hdel hhold hwant hline hres hue hce hlo hhi hlinks =>
      have hmeets : FetchMeets s id l :=
        ⟨hst, hstop, hdel, hhold, hwant, hline, hres, ⟨hue, hce⟩, ⟨hlo, hhi⟩, hlinks⟩
      ⟨lineFetch_holds hmeets hk, lineFetch_linefmt hmeets hk⟩,
    fun hfind hdone hret => ⟨fun hplain => ?plain, fun hfail hform => ?cpyq, fun hfail hform => ?tapeq,
      fun hfail hform => ?planset⟩,
    fun hst hret hland => ?commit⟩
  case plain =>
    refine deferredResultReturn_returns (v := none) hk hfind hdone hret ?_ rfl rfl
    obtain hfail | hform := hplain
    · exact if_pos hfail
    · rw [hform, formResult, ite_self]
  case cpyq =>
    have hformed : (if e.fail.isSome then (s, none) else formResult s x e.form) =
        (s, some (cpyqValue s (coreOf id) x.vk a)) := by rw [hfail, hform, formResult, hid]; rfl
    obtain ⟨t, hexec, hbuf, -⟩ := deferredResultReturn_returns hk hfind hdone hret hformed rfl rfl
    exact ⟨t, hexec, hbuf⟩
  case tapeq =>
    have hformed : (if e.fail.isSome then (s, none) else formResult s x e.form) = (s, some (tapeqValue s x a)) := by
      rw [hfail, hform]; rfl
    obtain ⟨t, hexec, hbuf, -⟩ := deferredResultReturn_returns hk hfind hdone hret hformed rfl rfl
    exact ⟨t, hexec, hbuf⟩
  case planset =>
    have hkeeps := planReserve_keeps s x desc cls
    have hformed : (if e.fail.isSome then (s, none) else formResult s x e.form) =
        ((planReserve s x desc cls).1, some (planReserve s x desc cls).2) := by rw [hfail, hform]; rfl
    obtain ⟨t, hexec, hbuf, hmem⟩ := deferredResultReturn_returns hk hfind hdone hret hformed (by rw [hkeeps]) (by rw [hkeeps])
    exact ⟨t, hexec, hbuf, hmem.trans (by rw [hkeeps])⟩
  case commit =>
    obtain ⟨t, hexec, hthread, hmem⟩ := switchPointCommit_commits hk hst hret hland
    have hregs (r : Reg) (hr : r ≠ .p 0) : (t.thread id).AfterWrites x ws r := by
      rw [hthread]; exact commit_afterWrites x .ready hr
    have hrest : (t.thread id).st = .ready ∧ (t.thread id).buf = [] ∧ (t.thread id).pc = x.pc ∧
        (t.thread id).pend = x.pend ++ failedCauses x.buf := by
      rw [hthread, commit_shape, foldl_putReg_shape]; exact ⟨rfl, rfl, rfl, rfl⟩
    obtain ⟨hready, hempty, hpc, hpend⟩ := hrest
    exact ⟨t, hexec, hready, hempty, hpc, hmem, hpend, fun r => hregs (.s r) (by simp), fun r => hregs (.v r) (by simp),
      fun r hr => hregs (.p r) fun h => hr (congrArg Fin.val (Reg.p.inj h))⟩

end Sys2Proof.Machine
end

section
/-! SUPPORT. Counts of bits, bit fields, extensions, pointer words and quotients, each as the spec gives it. -/

namespace Sys2Proof.Machine

/-! ### Counts of bits (R89, R100) -/

theorem popcount_eq_length_filter (n x : Nat) :
    popcount n x = ((List.range n).filter fun i => x.testBit i).length := by
  induction n generalizing x with
  | zero => rfl
  | succ n ih =>
    have hshift : ((List.range n).map Nat.succ).filter (fun i => x.testBit i) =
        ((List.range n).filter fun i => (x / 2).testBit i).map Nat.succ := by
      rw [List.filter_map]; simp only [Function.comp_def, Nat.testBit_succ]
    rw [popcount, ih, List.range_succ_eq_map, List.filter_cons, hshift, Nat.testBit_zero]
    rcases Nat.mod_two_eq_zero_or_one x with h | h <;> simp [h]; omega

/-- `n` is the place of the lowest one bit among the low `w` of a value that has its bits as `bit` says, or `w`. -/
structure IsLowestOne (w : Nat) (bit : Nat → Bool) (n : Nat) : Prop where
  le : n ≤ w
  below : ∀ i < n, bit i = false
  at_ : n < w → bit n = true

theorem lowestOne_isLowestOne (w x : Nat) : IsLowestOne w x.testBit (lowestOne w x) := by
  induction w generalizing x with
  | zero => exact ⟨Nat.le_refl 0, fun _ h => absurd h (Nat.not_lt_zero _), fun h => absurd h (Nat.lt_irrefl 0)⟩
  | succ w ih =>
    obtain ⟨hle, hbelow, hat⟩ := ih (x / 2)
    rw [lowestOne]
    split
    · rename_i hodd
      exact ⟨Nat.zero_le _, fun _ h => absurd h (Nat.not_lt_zero _), fun _ => by rw [Nat.testBit_zero, hodd]; rfl⟩
    · rename_i heven
      rw [Nat.add_comm 1]
      refine ⟨Nat.succ_le_succ hle, fun i hi => ?_, fun h => ?_⟩
      · cases i with
        | zero => rw [Nat.testBit_zero]; exact decide_eq_false heven
        | succ i => rw [Nat.testBit_succ]; exact hbelow i (Nat.lt_of_succ_lt_succ hi)
      · rw [Nat.testBit_succ]; exact hat (Nat.lt_of_succ_lt_succ h)

/-- The zeros above the highest one bit of a number are the place of the lowest one among its bits taken from the top. -/
theorem leadingZeros_isLowestOne (w x : Nat) : IsLowestOne w (fun i => x.testBit (w - 1 - i)) (leadingZeros w x) := by
  induction w with
  | zero => exact ⟨Nat.le_refl 0, fun _ h => absurd h (Nat.not_lt_zero _), fun h => absurd h (Nat.lt_irrefl 0)⟩
  | succ w ih =>
    obtain ⟨hle, hbelow, hat⟩ := ih
    have htop : x.testBit w = decide (x / 2 ^ w % 2 = 1) := Nat.testBit_eq_decide_div_mod_eq
    have hnext (i : Nat) : w + 1 - 1 - (i + 1) = w - 1 - i := by omega
    rw [leadingZeros]
    split
    · rename_i hone
      exact ⟨Nat.zero_le _, fun _ h => absurd h (Nat.not_lt_zero _), fun _ => htop.trans (decide_eq_true hone)⟩
    · rename_i hzero
      rw [Nat.add_comm 1]
      refine ⟨Nat.succ_le_succ hle, fun i hi => ?_, fun h => ?_⟩
      · cases i with
        | zero => exact htop.trans (decide_eq_false hzero)
        | succ i => rw [hnext]; exact hbelow i (Nat.lt_of_succ_lt_succ hi)
      · rw [hnext]; exact hat (Nat.lt_of_succ_lt_succ h)

/-! ### Extensions and bit fields (R32, R90, R95) -/

theorem signExt_eq (x : Word) {n : Nat} (h1 : 1 ≤ n) (h2 : n ≤ 64) : signExt x n = (x.setWidth n).signExtend 64 := by
  refine BitVec.eq_of_getLsbD_eq fun i hi => ?_
  have hmsb : (x.setWidth n).msb = x.getLsbD (n - 1) := by
    rw [BitVec.msb_eq_getLsbD_last, BitVec.getLsbD_setWidth]; simp; omega
  have htop : (x <<< (64 - n)).msb = x.getLsbD (n - 1) := by
    rw [BitVec.msb_eq_getLsbD_last, BitVec.getLsbD_shiftLeft]
    have : 64 - 1 - (64 - n) = n - 1 := by omega
    simp [this]; omega
  rw [signExt, BitVec.getLsbD_sshiftRight, BitVec.getLsbD_signExtend, hmsb, htop]
  by_cases hn : i < n
  · have h : 64 - n + i < 64 := by omega
    have hi' : ¬ 64 ≤ i := by omega
    simp [hn, h, hi, hi']
  · have h : ¬ 64 - n + i < 64 := by omega
    have hi' : ¬ 64 ≤ i := by omega
    simp [hn, h, hi, hi']

theorem zeroExt_getLsbD (x : Word) {n : Nat} (h : n ≤ 64) (i : Nat) :
    (zeroExt x n).getLsbD i = (decide (i < n) && x.getLsbD i) := by
  rw [zeroExt, BitVec.getLsbD_ushiftRight, BitVec.getLsbD_shiftLeft]
  have : 64 - n + i < 64 ↔ i < n := by omega
  simp [this]

theorem zeroExt_eq (x : Word) {n : Nat} (h : n ≤ 64) : zeroExt x n = (x.setWidth n).setWidth 64 := by
  refine BitVec.eq_of_getLsbD_eq fun i hi => ?_
  rw [zeroExt_getLsbD x h, BitVec.getLsbD_setWidth, BitVec.getLsbD_setWidth, decide_eq_true hi, Bool.true_and]

theorem bfx_eq (x : Word) (pos : Nat) {lenm1 : Nat} (h : lenm1 < 64) :
    bfx x pos lenm1 = BitVec.ofNat 64 (x.toNat / 2 ^ pos % 2 ^ (lenm1 + 1)) := by
  refine BitVec.eq_of_getLsbD_eq fun i hi => ?_
  rw [bfx, zeroExt_getLsbD _ h, BitVec.getLsbD_ushiftRight, BitVec.getLsbD_ofNat, Nat.testBit_mod_two_pow,
    Nat.testBit_div_two_pow]
  simp [hi, BitVec.getLsbD, Nat.add_comm]

theorem bfi_getLsbD (x y : Word) {pos lenm1 i : Nat} (hi : i < 64) :
    (bfi x y pos lenm1).getLsbD i = if pos ≤ i ∧ i ≤ pos + lenm1 then x.getLsbD (i - pos) else y.getLsbD i := by
  have hmask : (BitVec.ofNat 64 ((2 ^ (lenm1 + 1) - 1) * 2 ^ pos)).getLsbD i = decide (pos ≤ i ∧ i ≤ pos + lenm1) := by
    rw [BitVec.getLsbD_ofNat, Nat.testBit_mul_two_pow, Nat.testBit_two_pow_sub_one]
    simp only [hi, decide_true, Bool.true_and, ← Bool.decide_and]
    congr 1; simp; omega
  rw [bfi, BitVec.getLsbD_or, BitVec.getLsbD_and, BitVec.getLsbD_and, BitVec.getLsbD_not, BitVec.getLsbD_shiftLeft, hmask]
  by_cases h : pos ≤ i ∧ i ≤ pos + lenm1
  · simp [h, hi]
  · simp [h, hi]

/-! ### Words in two parts (R77, R96, R97, R99) -/

/-- The twelve bits above an address, and the address, of a mask. -/
theorem fieldMask_getLsbD : ∀ i < 64, (0xFFF0000000000000#64).getLsbD i = decide (52 ≤ i) := by decide
theorem addrMask_getLsbD : ∀ i < 64, (0x000FFFFFFFFFFFFF#64).getLsbD i = decide (i < 52) := by decide

theorem withVa_eq (p : Word) (va : Addr) : withVa p va = p.extractLsb' 52 12 ++ va := by
  refine BitVec.eq_of_getLsbD_eq fun i hi => ?_
  rw [withVa, BitVec.getLsbD_or, BitVec.getLsbD_and, fieldMask_getLsbD i hi, BitVec.getLsbD_append, BitVec.getLsbD_setWidth]
  by_cases h : i < 52
  · simp [h, hi]
  · have : 52 + (i - 52) = i := by omega
    simp [h, hi, Nat.le_of_not_lt h, this]; omega

theorem setWidth_addr (x : Word) : x.setWidth 52 = x.extractLsb' 0 52 := by
  refine BitVec.eq_of_getLsbD_eq fun i hi => ?_
  simp [BitVec.getLsbD_setWidth, BitVec.getLsbD_extractLsb']

theorem padd_eq (p off : Word) : padd p off = p.extractLsb' 52 12 ++ (p.extractLsb' 0 52 + off.extractLsb' 0 52) := by
  rw [padd, withVa_eq, setWidth_addr, setWidth_addr]

theorem paddi_eq (p : Word) (i : BitVec 16) :
    padd p (imm i) = p.extractLsb' 52 12 ++ (p.extractLsb' 0 52 + i.signExtend 52) := by
  have himm : (imm i).extractLsb' 0 52 = i.signExtend 52 := by
    refine BitVec.eq_of_getLsbD_eq fun j hj => ?_
    rw [BitVec.getLsbD_extractLsb', imm, BitVec.getLsbD_signExtend, BitVec.getLsbD_signExtend]
    have : j < 64 := by omega
    simp [hj, this]
  rw [padd_eq, himm]

theorem pfmt_eq (x y : Word) :
    (y <<< 52) ||| (x.setWidth 52).setWidth 64 = y.extractLsb' 0 12 ++ x.extractLsb' 0 52 := by
  refine BitVec.eq_of_getLsbD_eq fun i hi => ?_
  rw [BitVec.getLsbD_or, BitVec.getLsbD_shiftLeft, BitVec.getLsbD_setWidth, BitVec.getLsbD_setWidth, BitVec.getLsbD_append,
    BitVec.getLsbD_extractLsb', BitVec.getLsbD_extractLsb']
  by_cases h : i < 52
  · simp [h, hi]
  · have : i - 52 < 12 := by omega
    simp [h, hi, this]

theorem pstrip_eq (x : Word) : (x.setWidth 52).setWidth 64 = x &&& 0x000FFFFFFFFFFFFF#64 := by
  refine BitVec.eq_of_getLsbD_eq fun i hi => ?_
  rw [BitVec.getLsbD_and, addrMask_getLsbD i hi, BitVec.getLsbD_setWidth, BitVec.getLsbD_setWidth]
  simp [hi, Bool.and_comm]

theorem lix_eq (w : BitVec 32) (x : Word) :
    (w.setWidth 64 <<< 32) ||| (x.setWidth 32).setWidth 64 = w ++ x.extractLsb' 0 32 := by
  refine BitVec.eq_of_getLsbD_eq fun i hi => ?_
  rw [BitVec.getLsbD_or, BitVec.getLsbD_shiftLeft, BitVec.getLsbD_setWidth, BitVec.getLsbD_setWidth, BitVec.getLsbD_setWidth,
    BitVec.getLsbD_append, BitVec.getLsbD_extractLsb']
  by_cases h : i < 32
  · simp [h, hi]
  · have : i - 32 < 64 := by omega
    simp [h, hi, this]

/-! ### Shifts, the smaller and the larger, products (R86, R87) -/

theorem rotl_eq (x y : Word) :
    x.rotateLeft (amount y) = (x <<< (y.toNat % 64)) ||| (x >>> (64 - y.toNat % 64)) := by
  rw [BitVec.rotateLeft_def, amount, Nat.mod_mod]

theorem smin_eq (x y : Word) : smin x y = if x.toInt ≤ y.toInt then x else y := by
  simp only [smin, BitVec.sle_iff_toInt_le]
theorem smax_eq (x y : Word) : smax x y = if x.toInt ≤ y.toInt then y else x := by
  simp only [smax, BitVec.sle_iff_toInt_le]
theorem umin_eq (x y : Word) : umin x y = if x.toNat ≤ y.toNat then x else y := by
  simp only [umin, BitVec.ule_iff_toNat_le]
theorem umax_eq (x y : Word) : umax x y = if x.toNat ≤ y.toNat then y else x := by
  simp only [umax, BitVec.ule_iff_toNat_le]

theorem mul_eq_ofNat (x y : Word) : x * y = BitVec.ofNat 64 (x.toNat * y.toNat) :=
  BitVec.eq_of_toNat_eq (by rw [BitVec.toNat_mul, BitVec.toNat_ofNat])

/-! ### Quotients and remainders (R88) -/

/-- Truncation toward zero: the quotient of the magnitudes, with the sign that the operands' signs give. -/
theorem tdiv_eq_natAbs (a b : Int) : a.tdiv b =
    if a < 0 ↔ b < 0 then ((a.natAbs / b.natAbs : Nat) : Int) else -((a.natAbs / b.natAbs : Nat) : Int) := by
  cases a with
  | ofNat m => cases b with
    | ofNat n => exact (if_pos (iff_of_false (Int.natCast_nonneg m).not_gt (Int.natCast_nonneg n).not_gt)).symm
    | negSucc n => exact (if_neg (by simp)).symm
  | negSucc m => cases b with
    | ofNat n => exact (if_neg (by simp)).symm
    | negSucc n => exact (if_pos (by simp)).symm

/-- The one overflow, of the least word by minus one, wraps. -/
theorem quot_overflow : quot (BitVec.intMin 64) (BitVec.allOnes 64) = BitVec.intMin 64 := by decide

theorem quot_eq (x y : Word) : quot x y = if y = 0 then BitVec.allOnes 64
    else if x = BitVec.intMin 64 ∧ y = BitVec.allOnes 64 then BitVec.intMin 64
    else BitVec.ofInt 64 (if x.toInt < 0 ↔ y.toInt < 0 then ((x.toInt.natAbs / y.toInt.natAbs : Nat) : Int)
      else -((x.toInt.natAbs / y.toInt.natAbs : Nat) : Int)) := by
  by_cases h : x = BitVec.intMin 64 ∧ y = BitVec.allOnes 64
  · obtain ⟨rfl, rfl⟩ := h
    rw [quot_overflow]; decide
  · rw [quot, if_neg h, tdiv_eq_natAbs]

theorem remS_eq (x y : Word) : remS x y = if y = 0 then x
    else BitVec.ofInt 64 (x.toInt - y.toInt * (if x.toInt < 0 ↔ y.toInt < 0 then ((x.toInt.natAbs / y.toInt.natAbs : Nat) : Int)
      else -((x.toInt.natAbs / y.toInt.natAbs : Nat) : Int))) := by
  rw [remS, Int.tmod_def, tdiv_eq_natAbs]

theorem remU_eq (x y : Word) : remU x y = if y = 0 then x else BitVec.ofNat 64 (x.toNat - y.toNat * (x.toNat / y.toNat)) := by
  rw [remU, Nat.mod_eq_sub]

end Sys2Proof.Machine
end

section
/-! SUPPORT. Scalar instructions whose result is a simple one (R84 to R100). -/

namespace Sys2Proof.Machine

theorem Completes.imp {i : Instr} {s : State} {P Q : State → Prop} (h : Completes i s P) (hpq : ∀ t, P t → Q t) :
    Completes i s Q := by
  obtain ⟨t, hexec, hp⟩ := h
  exact ⟨t, hexec, hpq t hp⟩

/-! ### From the shape of an instruction to what it writes -/

section
variable {i : Instr} {s : State} {sw : Bool} {d : SReg} {x : Word}

theorem simple1_completes {a : Src} {f : Word → Word} (h : Present s (srcRegs a)) (hexec : exec i s = .next (simple1 sw d a f s))
    (hf : f (s.src a) = x) : Completes i s fun t => WritesS s t d x ∧ InSequence sw s t :=
  ⟨_, hexec, hf ▸ simple1_spec h sw d f⟩

theorem simple2_completes {a b : Src} {f : Word → Word → Word} (h : Present s (srcRegs a ++ srcRegs b))
    (hexec : exec i s = .next (simple2 sw d a b f s)) (hf : f (s.src a) (s.src b) = x) :
    Completes i s fun t => WritesS s t d x ∧ InSequence sw s t :=
  ⟨_, hexec, hf ▸ simple2_spec h sw d f⟩

theorem deferred2_completes {a b : Src} {f : Word → Word → Word} (h : Present s (srcRegs a ++ srcRegs b)) (hslot : HasSlot s)
    (hexec : exec i s = .next (deferred2 sw d a b f s)) (hf : f (s.src a) (s.src b) = x) :
    Completes i s fun t => Defers s t [.s d x] true ∧ InSequence sw s t ∧ t = { s with seq := s.seq + 1, thr := t.thr } := by
  obtain ⟨hdefers, hworld, hseq⟩ := deferred2_spec h hslot sw d f
  exact ⟨_, hexec, hf ▸ hdefers, hseq, hworld⟩

/-- An instruction that writes a scalar register once the registers it reads are present. -/
theorem writeS_completes {rs : List Reg} (f : State → Word) (h : Present s rs)
    (hexec : exec i s = .next (s.withRegs rs fun s => (s.writeS d (f s)).finish sw)) (hf : f s = x) :
    Completes i s fun t => WritesS s t d x ∧ InSequence sw s t :=
  ⟨_, hexec, by rw [withRegs_present h, hf]; exact writeS_finish s d x sw⟩

end

/-- With no acquire outstanding, an instruction that reads no register finds every source present. -/
theorem present_nil {s : State} (h : s.thr.acquiring = false) : Present s [] := ⟨fun _ hr => absurd hr List.not_mem_nil, h⟩

/-! ### Counts and insertion of a field -/

theorem clz_completes (sw : Bool) (d : SReg) {a : Src} {s : State} (h : Present s (srcRegs a)) :
    Completes (.clz sw d a) s fun t => InSequence sw s t ∧ ∃ n ≤ 64, WritesS s t d (BitVec.ofNat 64 n) ∧
      (∀ i < n, (s.src a).getLsbD (63 - i) = false) ∧ (n < 64 → (s.src a).getLsbD (63 - n) = true) := by
  obtain ⟨hle, hbelow, hat⟩ := leadingZeros_isLowestOne 64 (s.src a).toNat
  exact (simple1_completes h rfl rfl).imp fun t ⟨hwrites, hseq⟩ => ⟨hseq, _, hle, hwrites, hbelow, hat⟩

theorem ctz_completes (sw : Bool) (d : SReg) {a : Src} {s : State} (h : Present s (srcRegs a)) :
    Completes (.ctz sw d a) s fun t => InSequence sw s t ∧ ∃ n ≤ 64, WritesS s t d (BitVec.ofNat 64 n) ∧
      (∀ i < n, (s.src a).getLsbD i = false) ∧ (n < 64 → (s.src a).getLsbD n = true) := by
  obtain ⟨hle, hbelow, hat⟩ := lowestOne_isLowestOne 64 (s.src a).toNat
  exact (simple1_completes h rfl rfl).imp fun t ⟨hwrites, hseq⟩ => ⟨hseq, _, hle, hwrites, hbelow, hat⟩

theorem popc_completes (sw : Bool) (d : SReg) {a : Src} {s : State} (h : Present s (srcRegs a)) :
    Completes (.popc sw d a) s fun t => InSequence sw s t ∧
      WritesS s t d (BitVec.ofNat 64 ((List.range 64).filter fun i => (s.src a).getLsbD i).length) :=
  have hcount : popcount 64 (s.src a).toNat = ((List.range 64).filter fun i => (s.src a).getLsbD i).length :=
    popcount_eq_length_filter 64 _
  (simple1_completes h rfl rfl).imp fun _ ⟨hwrites, hseq⟩ => ⟨hseq, hcount ▸ hwrites⟩

theorem bfi_completes (sw : Bool) (d : SReg) {a b : Src} (pos lenm1 : BitVec 6) {s : State}
    (h : Present s (srcRegs a ++ srcRegs b)) :
    Completes (.bfi sw d a b pos lenm1) s fun t => InSequence sw s t ∧ ∃ x, WritesS s t d x ∧
      ∀ i < 64, x.getLsbD i = if pos.toNat ≤ i ∧ i ≤ pos.toNat + lenm1.toNat
        then (s.src a).getLsbD (i - pos.toNat) else (s.src b).getLsbD i :=
  (simple2_completes h rfl rfl).imp fun _ ⟨hwrites, hseq⟩ => ⟨hseq, _, hwrites, fun _ hi => bfi_getLsbD _ _ hi⟩

/-! ### The statements -/

/-- Settles O1: each instruction has the shape of one that writes a function of its sources, and that function is the one the
spec gives. -/
theorem scalarResults : Obligations.ScalarResults := by
  unfold Obligations.ScalarResults
  refine ⟨?two, fun sw d a s h => ?one, fun sw d a i pos lenm1 s h => ?immediate, fun sw d a b pos lenm1 s h =>
    bfi_completes sw d pos lenm1 h, fun sw d a s h => ⟨clz_completes sw d h, ctz_completes sw d h, popc_completes sw d h⟩,
    fun sw d i w s => ?constants, fun sw d a b p s h => ?select⟩
  case two =>
    simp only [List.forall_mem_cons]
    exact ⟨fun _ _ _ _ _ h => simple2_completes h rfl rfl, fun _ _ _ _ _ h => simple2_completes h rfl rfl,
      fun _ _ _ _ _ h => simple2_completes h rfl rfl, fun _ _ _ _ _ h => simple2_completes h rfl rfl,
      fun _ _ _ _ _ h => simple2_completes h rfl rfl, fun _ _ _ _ _ h => simple2_completes h rfl rfl,
      fun _ _ _ _ _ h => simple2_completes h rfl rfl, fun _ _ _ _ _ h => simple2_completes h rfl rfl,
      fun _ _ _ _ _ h => simple2_completes h rfl rfl, fun _ _ _ _ _ h => simple2_completes h rfl (rotl_eq _ _),
      fun _ _ _ _ _ h => simple2_completes h rfl (smin_eq _ _), fun _ _ _ _ _ h => simple2_completes h rfl (smax_eq _ _),
      fun _ _ _ _ _ h => simple2_completes h rfl (umin_eq _ _), fun _ _ _ _ _ h => simple2_completes h rfl (umax_eq _ _),
      fun _ _ _ _ _ h => simple2_completes h rfl (mul_eq_ofNat _ _), fun _ _ _ _ _ h => simple2_completes h rfl rfl,
      fun _ _ _ _ _ h => simple2_completes h rfl rfl, fun _ _ _ _ _ h => simple2_completes h rfl (padd_eq _ _),
      fun _ _ _ _ _ h => simple2_completes h rfl (pfmt_eq _ _), List.forall_mem_nil _⟩
  case one =>
    simp only [List.forall_mem_append, List.forall_mem_flatMap, List.forall_mem_cons]
    refine ⟨⟨simple1_completes h rfl rfl, simple1_completes h rfl (pstrip_eq _), simple1_completes h rfl rfl,
      List.forall_mem_nil _⟩, fun n hmem => ?_⟩
    have h64 : n ≤ 64 := by
      obtain ⟨k, rfl⟩ : ∃ k : Fin 65, n = k := by simpa using hmem
      exact Nat.le_of_lt_succ k.isLt
    split
    · exact List.forall_mem_nil _
    · rename_i hn
      have h1 : 1 ≤ n := Nat.one_le_iff_ne_zero.2 hn
      have hcode : (BitVec.ofNat 7 n).toNat = n := by rw [BitVec.toNat_ofNat]; omega
      simp only [List.forall_mem_cons]
      exact ⟨simple1_completes h rfl ((congrArg _ hcode).trans (signExt_eq _ h1 h64)),
        simple1_completes h rfl ((congrArg _ hcode).trans (zeroExt_eq _ h64)), List.forall_mem_nil _⟩
  case immediate =>
    simp only [List.forall_mem_cons]
    exact ⟨simple1_completes h rfl rfl, simple1_completes h rfl rfl, simple1_completes h rfl rfl, simple1_completes h rfl rfl,
      simple1_completes h rfl (bfx_eq _ _ lenm1.isLt), simple1_completes h rfl (paddi_eq _ _), List.forall_mem_nil _⟩
  case constants =>
    exact ⟨fun h => ⟨writeS_completes _ (present_nil h) rfl rfl, writeS_completes _ (present_nil h) rfl rfl⟩,
      fun h => writeS_completes _ h rfl (lix_eq w _)⟩
  case select =>
    exact (writeS_completes (fun s => if (s.thr.getP p).getLsbD 0 then s.src a else s.src b) h rfl rfl).imp fun _ => And.symm

/-- Settles O2: each division has the shape of one that defers a function of its sources. -/
theorem divisionsAreDeferred : Obligations.DivisionsAreDeferred := by
  unfold Obligations.DivisionsAreDeferred
  simp only [List.forall_mem_cons]
  exact ⟨fun _ _ _ _ _ h hslot => deferred2_completes h hslot rfl (quot_eq _ _),
    fun _ _ _ _ _ h hslot => deferred2_completes h hslot rfl rfl,
    fun _ _ _ _ _ h hslot => deferred2_completes h hslot rfl (remS_eq _ _),
    fun _ _ _ _ _ h hslot => deferred2_completes h hslot rfl (remU_eq _ _), List.forall_mem_nil _⟩

end Sys2Proof.Machine
end

section
/-! SUPPORT. Comparisons, the instructions over predicates, and PIDX (R92, R93, R98, R100). -/

namespace Sys2Proof.Machine

/-! ### From the shape of an instruction to what it writes -/

section
variable {i : Instr} {s : State} {sw : Bool}

theorem pred1_completes {d a : PReg} {f : PWord → PWord} (h : Present s [.p a]) (hexec : exec i s = .next (pred1 sw d a f s)) :
    Completes i s fun t => WritesP s t d (f (s.thr.getP a)) ∧ InSequence sw s t :=
  ⟨_, hexec, pred1_spec h sw d f⟩

theorem pred2_completes {d a b : PReg} {f : PWord → PWord → PWord} (ha : Present s [.p a]) (hb : Present s [.p b])
    (hexec : exec i s = .next (pred2 sw d a b f s)) :
    Completes i s fun t => WritesP s t d (f (s.thr.getP a) (s.thr.getP b)) ∧ InSequence sw s t := by
  have hab : Present s [.p a, .p b] :=
    ⟨List.forall_mem_cons.2 ⟨ha.1 _ List.mem_cons_self, hb.1⟩, ha.2⟩
  exact ⟨_, hexec, pred2_spec hab sw d f⟩

theorem predS_completes {d : SReg} {a : PReg} {f : PWord → Word} (h : Present s [.p a])
    (hexec : exec i s = .next (predS sw d a f s)) :
    Completes i s fun t => WritesS s t d (f (s.thr.getP a)) ∧ InSequence sw s t :=
  ⟨_, hexec, predS_spec h sw d f⟩

/-- An instruction that writes a predicate register once the registers it reads are present. -/
theorem writeP_completes {rs : List Reg} {d : PReg} {x : PWord} (f : State → PWord) (h : Present s rs)
    (hexec : exec i s = .next (s.withRegs rs fun s => (s.writeP d (f s)).finish sw)) (hf : f s = x) :
    Completes i s fun t => WritesP s t d x ∧ InSequence sw s t :=
  ⟨_, hexec, by rw [withRegs_present h, hf]; exact writeP_finish s d x sw⟩

end

/-! ### Conditions -/

theorem condWord_eq (x y : Word) : condWord .eq x y = decide (x = y) := by
  rw [condWord, condHolds, Bool.beq_eq_decide_eq, decide_eq_decide, BitVec.toNat_inj]
theorem condWord_ne (x y : Word) : condWord .ne x y = decide (x ≠ y) := by
  rw [decide_not, ← condWord_eq]; rfl

/-! ### PIDX -/

theorem pidx_eq (p i : Word) : pidx p i = p.extractLsb' 52 12 ++ (p.extractLsb' 0 52 + BitVec.ofInt 52
    (if bpiP (ptrFmt p) ≠ 0 then 4 * bpiP (ptrFmt p) * (i.toInt / 32) else i.toInt * fmtSize (ptrFmt p))) := by
  simp only [pidx, withVa_eq, setWidth_addr, bne_iff_ne]

section
variable {s : State} {a b : Src} (h : Present s (srcRegs a ++ srcRegs b))
include h

theorem pidx_completes (sw : Bool) (d : SReg) (hptr : ptrOk (s.src a) = true) :
    Completes (.pidx sw d a b) s fun t => WritesS s t d (pidx (s.src a) (s.src b)) ∧ InSequence sw s t := by
  refine ⟨_, rfl, ?_⟩
  rw [withRegs_present h, if_pos hptr]
  exact writeS_finish s d _ sw

theorem pidx_refuses (sw : Bool) (d : SReg) (hptr : ptrOk (s.src a) = false) (htrap : CanTrap s) :
    Completes (.pidx sw d a b) s fun t => TrapsTo s t 0x0F s.thr.pc (s.src a) := by
  refine ⟨_, rfl, ?_⟩
  rw [withRegs_present h, if_neg (by simp [hptr])]
  exact trap_enters htrap cFmtbad _

end

/-! ### Counts over a predicate -/

theorem pcnt_completes (sw : Bool) (q : SReg) {a : PReg} {s : State} (h : Present s [.p a]) :
    Completes (.pcnt sw q a) s fun t => InSequence sw s t ∧
      WritesS s t q (BitVec.ofNat 64 ((List.range 128).filter fun i => (s.thr.getP a).getLsbD i).length) :=
  have hcount : popcount 128 (s.thr.getP a).toNat = ((List.range 128).filter fun i => (s.thr.getP a).getLsbD i).length :=
    popcount_eq_length_filter 128 _
  (predS_completes h rfl).imp fun _ ⟨hwrites, hseq⟩ => ⟨hseq, hcount ▸ hwrites⟩

theorem pfirst_completes (sw : Bool) (q : SReg) {a : PReg} {s : State} (h : Present s [.p a]) :
    Completes (.pfirst sw q a) s fun t => InSequence sw s t ∧ ∃ n ≤ 128, WritesS s t q (BitVec.ofNat 64 n) ∧
      (∀ i < n, (s.thr.getP a).getLsbD i = false) ∧ (n < 128 → (s.thr.getP a).getLsbD n = true) := by
  obtain ⟨hle, hbelow, hat⟩ := lowestOne_isLowestOne 128 (s.thr.getP a).toNat
  exact (predS_completes h rfl).imp fun t ⟨hwrites, hseq⟩ => ⟨hseq, _, hle, hwrites, hbelow, hat⟩

/-! ### The statement -/

/-- Settles O3: a comparison writes the outcome of its condition, a predicate instruction a function of its sources, and PIDX
the address of the element where the pointer is well formed. -/
theorem comparisonsPredicatesAndPointers : Obligations.ComparisonsPredicatesAndPointers := by
  unfold Obligations.ComparisonsPredicatesAndPointers
  refine ⟨fun sw a b i c s => ?compare, fun sw d a b q s ha => ⟨fun hb => ?pred2, pred1_completes ha rfl,
      pred1_completes (f := fun x => x) ha rfl, pcnt_completes sw q ha, pfirst_completes sw q ha⟩,
    fun sw d a b s h => ⟨fun hptr => ?pidx, pidx_refuses h sw d⟩⟩
  case compare =>
    intro holds
    have hcond (x y : Word) : condWord c x y = holds x y := by
      cases c with
      | eq => exact condWord_eq x y
      | ne => exact condWord_ne x y
      | lt | ge | gt | le | ltu | geu | gtu | leu => rfl
    exact ⟨fun h => ⟨fun d => writeS_completes _ h rfl (congrArg boolWord (hcond _ _)),
        fun d => writeP_completes _ h rfl (congrArg boolPred (hcond _ _))⟩,
      fun h => ⟨fun d => writeS_completes _ h rfl (congrArg boolWord (hcond _ _)),
        fun d => writeP_completes _ h rfl (congrArg boolPred (hcond _ _))⟩⟩
  case pred2 =>
    simp only [List.forall_mem_cons]
    exact ⟨pred2_completes ha hb rfl, pred2_completes ha hb rfl, pred2_completes ha hb rfl, List.forall_mem_nil _⟩
  case pidx =>
    rw [← pidx_eq]
    exact (pidx_completes h sw d hptr).imp fun _ => And.symm

end Sys2Proof.Machine
end

section
/-! SUPPORT. NOP, branches, jumps and links (R102, R104, R105). -/

namespace Sys2Proof.Machine

/-! ### Addresses -/

theorem lineAddr_toNat (pc : Addr) : (lineAddr pc).toNat = pc.toNat / 64 * 64 := by
  have hmask : ∀ i < 52, (~~~63#52).getLsbD i = decide (6 ≤ i) := by decide
  refine Nat.eq_of_testBit_eq fun i => ?_
  have hline : (lineAddr pc).toNat.testBit i = (pc.getLsbD i && (~~~63#52).getLsbD i) := BitVec.getLsbD_and
  have hblock : (pc.toNat / 64 * 64).testBit i = (decide (6 ≤ i) && pc.getLsbD (i - 6 + 6)) := by
    rw [Nat.testBit_mul_two_pow _ _ 6, Nat.testBit_div_two_pow _ (n := 6)]; rfl
  rw [hline, hblock]
  by_cases h6 : 6 ≤ i
  · rw [Nat.sub_add_cancel h6]
    by_cases hi : i < 52
    · rw [hmask i hi, Bool.and_comm]
    · simp [BitVec.getLsbD_of_ge pc i (Nat.le_of_not_lt hi)]
  · rw [hmask i (by omega), decide_eq_false h6, Bool.and_false, Bool.false_and]

theorem lineAddr_eq (pc : Addr) : lineAddr pc = BitVec.ofNat 52 (pc.toNat / 64 * 64) := by
  rw [← lineAddr_toNat, BitVec.ofNat_toNat, BitVec.setWidth_eq]

/-- The target of a branch, where R104 takes it modulo 2^52 (log entry 66). -/
theorem biTarget_eq (pc : Addr) (delta : BitVec 11) (h : BitVec 5) : biTarget pc delta h =
    BitVec.ofNat 52 (pc.toNat / 64 * 64) + (delta.signExtend 52) * 64 + h.setWidth 52 * 2 := by
  rw [biTarget, lineAddr_eq, BitVec.shiftLeft_eq_mul_twoPow, BitVec.shiftLeft_eq_mul_twoPow]; rfl

/-! ### Completion in sequence and with a taken transfer -/

section
variable (sw : Bool) (s : State)

theorem finish_quiet : KeepsRegs s (s.finish sw) ∧ OnlyThread s (s.finish sw) ∧ InSequence sw s (s.finish sw) := by
  obtain ⟨hregs, hkept, hseq⟩ := finish_passes (u := s) rfl sw
  exact ⟨hregs, ⟨rfl, hkept⟩, hseq⟩

theorem finishAt_transfers (x : Addr) : TransferTo sw s (s.finishAt sw x) x :=
  ⟨rfl, rfl, rfl, rfl, rfl, finishAt_stands sw x rfl⟩

theorem finishAt_quiet (x : Addr) :
    KeepsRegs s (s.finishAt sw x) ∧ OnlyThread s (s.finishAt sw x) ∧ TransferTo sw s (s.finishAt sw x) x :=
  ⟨⟨fun _ _ => ⟨rfl, rfl⟩, fun _ _ => ⟨rfl, rfl⟩, fun _ _ => ⟨rfl, rfl⟩, rfl⟩, ⟨rfl, rfl⟩, finishAt_transfers sw s x⟩

/-- A link written with a taken transfer: the result is the one that the same write has in sequence. -/
theorem writeS_finishAt (d : SReg) (x : Word) (y : Addr) :
    WritesS s ((s.writeS d x).finishAt sw y) d x ∧ TransferTo sw s ((s.writeS d x).finishAt sw y) y := by
  obtain ⟨⟨hvalue, hfull, hscalars, hvectors, hpredicates, hbuffer, -⟩, -⟩ := writeS_finish s d x sw
  have hstands : Stands sw s ((s.writeS d x).finishAt sw y) := finishAt_stands sw y rfl
  rw [finishAt_shape] at hstands ⊢
  exact ⟨⟨hvalue, hfull, hscalars, hvectors, hpredicates, hbuffer, rfl, rfl⟩, rfl, rfl, rfl, rfl, rfl, hstands⟩

end

/-! ### Branches -/

section
variable {s : State} {a : Src} (h : Present s (srcRegs a)) (sw : Bool) (delta : BitVec 11) (n : BitVec 5)
include h

theorem branchOn_present (test : Word → Bool) : branchOn sw a delta n test s =
    if test (s.src a) then s.finishAt sw (biTarget s.thr.pc delta n) else s.finish sw := by
  rw [branchOn, withRegs_present h]

theorem brz_completes : Completes (.brz sw a delta n) s fun t => (KeepsRegs s t ∧ OnlyThread s t) ∧
    if s.src a = 0 then TransferTo sw s t (biTarget s.thr.pc delta n) else InSequence sw s t := by
  by_cases hz : s.src a = 0
  · simp only [if_pos hz]
    refine ⟨_, rfl, ?_⟩
    rw [branchOn_present h, if_pos (beq_iff_eq.2 hz)]
    exact and_assoc.2 (finishAt_quiet sw s _)
  · simp only [if_neg hz]
    refine ⟨_, rfl, ?_⟩
    rw [branchOn_present h, if_neg (mt beq_iff_eq.1 hz)]
    exact and_assoc.2 (finish_quiet sw s)

theorem brnz_completes : Completes (.brnz sw a delta n) s fun t => (KeepsRegs s t ∧ OnlyThread s t) ∧
    if s.src a = 0 then InSequence sw s t else TransferTo sw s t (biTarget s.thr.pc delta n) := by
  by_cases hz : s.src a = 0
  · simp only [if_pos hz]
    refine ⟨_, rfl, ?_⟩
    rw [branchOn_present h, if_neg (fun hne => bne_iff_ne.1 hne hz)]
    exact and_assoc.2 (finish_quiet sw s)
  · simp only [if_neg hz]
    refine ⟨_, rfl, ?_⟩
    rw [branchOn_present h, if_pos (bne_iff_ne.2 hz)]
    exact and_assoc.2 (finishAt_quiet sw s _)

end

/-! ### Jumps -/

/-- Bit 0 of a jump's address is bit 0 of its source. -/
theorem jumpAddr_odd (x : Word) : (x.setWidth 52).getLsbD 0 = x.getLsbD 0 := by
  rw [BitVec.getLsbD_setWidth]; rfl

theorem jumpTo_even (sw : Bool) {x : Word} (hx : x.getLsbD 0 = false) (link : State → State) (s : State) :
    jumpTo sw (x.setWidth 52) link s = (link s).finishAt sw (x.setWidth 52) := by
  rw [jumpTo, if_neg (by rw [jumpAddr_odd, hx]; exact Bool.false_ne_true)]

/-- An odd address traps before any link is written (R105). -/
theorem jumpTo_odd (sw : Bool) {x : Word} (hx : x.getLsbD 0 = true) (link : State → State) (s : State) :
    jumpTo sw (x.setWidth 52) link s = s.trap cAlign ((x.setWidth 52).setWidth 64) := by
  rw [jumpTo, if_pos (by rw [jumpAddr_odd, hx])]

section
variable {s : State} {a : Src} (h : Present s (srcRegs a)) (sw : Bool) (d : SReg)
include h

theorem jmp_completes (heven : (s.src a).getLsbD 0 = false) : Completes (.jmp sw a) s fun t =>
    KeepsRegs s t ∧ OnlyThread s t ∧ TransferTo sw s t ((s.src a).setWidth 52) := by
  refine ⟨_, rfl, ?_⟩
  rw [withRegs_present h, jumpTo_even sw heven]
  exact finishAt_quiet sw s _

theorem jalr_completes (heven : (s.src a).getLsbD 0 = false) : Completes (.jalr sw d a) s fun t =>
    WritesS s t d s.link ∧ TransferTo sw s t ((s.src a).setWidth 52) := by
  refine ⟨_, rfl, ?_⟩
  rw [withRegs_present h, jumpTo_even sw heven]
  exact writeS_finishAt sw s d _ _

theorem jmp_odd (hodd : (s.src a).getLsbD 0 = true) (htrap : CanTrap s) : Completes (.jmp sw a) s fun t =>
    TrapsTo s t 0x03 s.thr.pc (((s.src a).setWidth 52).setWidth 64) := by
  refine ⟨_, rfl, ?_⟩
  rw [withRegs_present h, jumpTo_odd sw hodd]
  exact trap_enters htrap cAlign _

theorem jalr_odd (hodd : (s.src a).getLsbD 0 = true) (htrap : CanTrap s) : Completes (.jalr sw d a) s fun t =>
    TrapsTo s t 0x03 s.thr.pc (((s.src a).setWidth 52).setWidth 64) := by
  refine ⟨_, rfl, ?_⟩
  rw [withRegs_present h, jumpTo_odd sw hodd]
  exact trap_enters htrap cAlign _

end

theorem jal_completes {s : State} (h : s.thr.acquiring = false) (sw : Bool) (d : SReg) (delta : BitVec 11) (n : BitVec 5) :
    Completes (.jal sw d delta n) s fun t => WritesS s t d s.link ∧ TransferTo sw s t (biTarget s.thr.pc delta n) := by
  refine ⟨_, rfl, ?_⟩
  rw [withRegs_present (present_nil h)]
  exact writeS_finishAt sw s d _ _

/-- Settles O4: each control transfer completes at its target or at the next head, and a jump to an odd address traps. -/
theorem branchesAndJumps : Obligations.BranchesAndJumps := by
  unfold Obligations.BranchesAndJumps
  simp only [← biTarget_eq]
  refine ⟨fun sw a delta n s => ⟨⟨_, rfl, and_assoc.2 (finish_quiet sw s)⟩, ⟨_, rfl, and_assoc.2 (finishAt_quiet sw s _)⟩,
      fun h => ⟨brz_completes h sw delta n, brnz_completes h sw delta n⟩⟩,
    fun sw d a delta n s => ⟨fun h => jal_completes h sw d delta n,
      fun h heven => ⟨jmp_completes h sw heven, jalr_completes h sw d heven⟩⟩,
    fun sw d a s h hodd htrap => ?_⟩
  simp only [List.forall_mem_cons]
  exact ⟨jmp_odd h sw hodd htrap, jalr_odd h sw d hodd htrap, List.forall_mem_nil _⟩

end Sys2Proof.Machine
end

section
/-! SUPPORT. Loop contexts: LOOP, LBRK, loop matching and what a taken transfer disarms (R106 to R112). -/

namespace Sys2Proof.Machine

/-! ### LOOP (R108) -/

theorem biTargetInt_eq (pc : Addr) (delta : BitVec 11) (h : BitVec 5) : biTargetInt pc delta h =
    ((pc.toNat / 64 * 64 : Nat) : Int) + 64 * delta.toInt + 2 * (h.toNat : Int) := by
  rw [biTargetInt, lineAddr_toNat]

/-- An end head at or before the LOOP, as integers compare. -/
theorem loop_backward {sw k : Bool} {a : Src} {delta : BitVec 11} {h : BitVec 5} {s : State}
    (hback : biTargetInt s.thr.pc delta h ≤ (s.thr.pc.toNat : Int)) (htrap : CanTrap s) :
    Completes (.loop sw k a delta h) s fun t =>
      TrapsTo s t 0x01 s.thr.pc (illegalWord (encode (.loop sw k a delta h))) :=
  ⟨_, congrArg Host.Outcome.next (if_pos hback), trap_enters htrap cIllegal _⟩

section
variable {sw k : Bool} {a : Src} {delta : BitVec 11} {h : BitVec 5} {l : Line} {s : State}

/-- LOOP with an end head after it, in a line that is held, arms or does not as the line and the context say. -/
theorem exec_loop_held (hafter : (s.thr.pc.toNat : Int) < biTargetInt s.thr.pc delta h) (hpresent : Present s (srcRegs a))
    (hline : s.thr.lineAt (lineAddr (biTarget s.thr.pc delta h)) = some l) :
    exec (.loop sw k a delta h) s = .next (loopArm sw k (biTarget s.thr.pc delta h) h.toNat l.n (s.src a) s) := by
  refine congrArg Host.Outcome.next ((if_neg (not_le.2 hafter)).trans ?_)
  rw [withRegs_present hpresent, hline]

end

section
variable (sw : Bool) {k : Bool} {e : Addr} {h n : Nat} {count : Word} {s : State}

/-- An end head that its line does not have. -/
theorem loopArm_linefmt (hbad : h = 0 ∨ n < h) (htrap : CanTrap s) :
    TrapsTo s (loopArm sw k e h n count s) 0x02 s.thr.pc ((lineAddr e).setWidth 64) := by
  rw [loopArm, if_pos (by simpa using hbad)]
  exact trap_enters htrap cLinefmt _

variable (hpos : 0 < h) (hle : h ≤ n)
include hpos hle

theorem loopArm_busy (harm : (s.thr.loopCtx k).arm = true) (htrap : CanTrap s) :
    TrapsTo s (loopArm sw k e h n count s) 0x11 s.thr.pc (if k then 1 else 0) := by
  rw [loopArm, if_neg (by simp; omega), if_pos harm]
  exact trap_enters htrap cLoopbusy _

theorem loopArm_skips (harm : (s.thr.loopCtx k).arm = false) (hcount : count = 0) :
    loopArm sw k e h n count s = s.finishAt sw (s.thr.headAfter e) := by
  rw [loopArm, if_neg (by simp; omega), if_neg (by simp [harm]), if_pos hcount]

theorem loopArm_arms (harm : (s.thr.loopCtx k).arm = false) (hcount : count ≠ 0) : loopArm sw k e h n count s =
    (s.modThr fun t => t.setLoop k ⟨true, t.headAfter t.pc, e, count⟩).finish sw := by
  rw [loopArm, if_neg (by simp; omega), if_neg (by simp [harm]), if_neg hcount]

end

/-- A head that completes after a loop context has been set: registers, buffer and the rest as before, the next head and the
contexts as matching leaves them. -/
theorem setLoop_finish (sw k : Bool) (c : LoopCtx) (s : State) :
    let t := (s.modThr fun t => t.setLoop k c).finish sw
    let u : Thread := s.thr.setLoop k c
    KeepsRegs s t ∧ OnlyThread s t ∧ t.thr.pc = u.next.pc ∧ t.thr.l0 = u.next.l0 ∧ t.thr.l1 = u.next.l1 ∧
      Stands sw s t := by
  cases k <;> exact ⟨⟨fun _ _ => ⟨rfl, rfl⟩, fun _ _ => ⟨rfl, rfl⟩, fun _ _ => ⟨rfl, rfl⟩, rfl⟩, ⟨rfl, rfl⟩, rfl, rfl, rfl,
    finish_stands sw rfl⟩

/-- Settles O5: LOOP by where its end head is, then by what the context and the count say. -/
theorem loopArmsItsContext : Obligations.LoopArmsItsContext := by
  unfold Obligations.LoopArmsItsContext
  intro sw k a delta h l s e target ctx
  have htarget : biTargetInt s.thr.pc delta h = target := biTargetInt_eq s.thr.pc delta h
  rw [← htarget]
  refine ⟨loop_backward, fun hafter hpresent hline hbad htrap =>
      ⟨_, exec_loop_held hafter hpresent hline, loopArm_linefmt sw hbad htrap⟩,
    fun hafter hpresent hline hpos hle => ⟨fun harm hcount => ?arms, fun harm hcount => ?skips, fun harm htrap =>
      ⟨_, exec_loop_held hafter hpresent hline, loopArm_busy sw hpos hle harm htrap⟩⟩⟩
  case arms =>
    refine ⟨_, exec_loop_held hafter hpresent hline, ?_⟩
    rw [loopArm_arms sw hpos hle harm hcount]
    exact setLoop_finish sw k _ s
  case skips =>
    refine ⟨_, exec_loop_held hafter hpresent hline, ?_⟩
    rw [loopArm_skips sw hpos hle harm hcount]
    exact finishAt_quiet sw s _

/-! ### LBRK (R111) -/

/-- Settles O6: LBRK completes after its context has been set to the same without ARM. -/
theorem loopBreakDisarms : Obligations.LoopBreakDisarms := by
  unfold Obligations.LoopBreakDisarms
  intro sw k s
  refine ⟨_, rfl, ?_⟩
  cases k with
  | false => exact setLoop_finish sw false _ s
  | true => exact setLoop_finish sw true _ s

/-! ### Loop matching (R109, R112) -/

section
variable {c : LoopCtx} {x n : Addr}

theorem matchLoop_misses (h : ¬ (c.arm = true ∧ c.stop = x)) : matchLoop c x n = (c, n, false) := by
  rw [matchLoop, if_neg (by simpa using h)]

theorem matchLoop_repeats (h : c.arm = true ∧ c.stop = x) (hcount : 1 < c.count.toNat) :
    matchLoop c x n = ({ c with count := c.count - 1 }, c.start, true) := by
  rw [matchLoop, if_pos (by simpa using h), if_neg (Nat.not_le.2 hcount)]

theorem matchLoop_ends (h : c.arm = true ∧ c.stop = x) (hcount : c.count.toNat ≤ 1) :
    matchLoop c x n = ({ c with arm := false, count := 0 }, n, false) := by
  rw [matchLoop, if_pos (by simpa using h), if_pos hcount]

end

theorem next_handler {t : Thread} (h : t.hm = true) : t.next = { t with pc := t.headAfter t.pc } := by
  rw [Thread.next, h]; rfl

/-- Context 1 goes back to its start, and context 0 is not looked at. -/
theorem next_inner {t : Thread} {c1 : LoopCtx} {x : Addr} (h : t.hm = false)
    (h1 : matchLoop t.l1 t.pc (t.headAfter t.pc) = (c1, x, true)) : t.next = { t with pc := x, l1 := c1 } := by
  rw [Thread.next, h, nextHead, h1]; rfl

/-- Context 1 lets the head pass, and context 0 decides. -/
theorem next_outer {t : Thread} {c0 c1 : LoopCtx} {x : Addr} {back : Bool} (h : t.hm = false)
    (h1 : matchLoop t.l1 t.pc (t.headAfter t.pc) = (c1, t.headAfter t.pc, false))
    (h0 : matchLoop t.l0 t.pc (t.headAfter t.pc) = (c0, x, back)) : t.next = { t with pc := x, l0 := c0, l1 := c1 } := by
  rw [Thread.next, h, nextHead, h1, h0]; rfl

/-! ### Taken transfers (R110) -/

theorem leaveLoop_eq (c : LoopCtx) (x : Addr) :
    leaveLoop c x = { c with arm := c.arm && decide (c.start ≤ x ∧ x ≤ c.stop) } := by
  have hout : (decide (x < c.start) || decide (c.stop < x)) = !decide (c.start ≤ x ∧ x ≤ c.stop) := by
    simp only [← BitVec.not_le, decide_not, Bool.decide_and, Bool.not_and]
  rw [leaveLoop, hout]
  generalize decide (c.start ≤ x ∧ x ≤ c.stop) = inside
  obtain ⟨arm, start, stop, count⟩ := c
  cases arm <;> cases inside <;> rfl

theorem goto_handler {t : Thread} (h : t.hm = true) (x : Addr) : t.goto x = { t with pc := x } := by
  rw [Thread.goto, h]; rfl

theorem goto_loopCtx {t : Thread} (h : t.hm = false) (x : Addr) (k : Bool) :
    (t.goto x).loopCtx k = leaveLoop (t.loopCtx k) x := by
  rw [Thread.goto, h]
  cases k with
  | false => rfl
  | true => rfl

/-- Settles O7: what each of the two contexts makes of the completed head, inner first, and of a taken transfer. -/
theorem loopMatchingAndTransfers : Obligations.LoopMatchingAndTransfers := by
  unfold Obligations.LoopMatchingAndTransfers
  refine ⟨fun t => ⟨next_handler, fun hm => ?_⟩, fun t x => ⟨fun hm => goto_handler hm x, fun hm k =>
    (goto_loopCtx hm x k).trans (leaveLoop_eq _ x)⟩⟩
  exact ⟨fun ⟨h1, h0⟩ => next_outer hm (matchLoop_misses h1) (matchLoop_misses h0),
    fun ⟨h1, hc1⟩ => next_inner hm (matchLoop_repeats h1 hc1),
    fun ⟨h1, hc1, h0⟩ => next_outer hm (matchLoop_ends h1 hc1) (matchLoop_misses h0),
    fun ⟨h1, hc1, h0, hc0⟩ => next_outer hm (matchLoop_ends h1 hc1) (matchLoop_repeats h0 hc0),
    fun ⟨h1, hc1, h0, hc0⟩ => next_outer hm (matchLoop_ends h1 hc1) (matchLoop_ends h0 hc0),
    fun ⟨h1, h0, hc0⟩ => next_outer hm (matchLoop_misses h1) (matchLoop_repeats h0 hc0),
    fun ⟨h1, h0, hc0⟩ => next_outer hm (matchLoop_misses h1) (matchLoop_ends h0 hc0)⟩

end Sys2Proof.Machine
end

section
/-! SUPPORT. Every instruction and every step of the part answers a next state (R84, R327). -/

namespace Sys2Proof.Machine

/-- Each arm of the meaning of an instruction, and of a step of the part, answers a next state, whatever the state is. -/
theorem exec_goesOn (i : Instr) (s : State) : ∃ t, exec i s = .next t := by
  cases i <;> exact ⟨_, rfl⟩

/-! ### A turn -/

theorem issueHead_goesOn (i : Instr) (t : Nat) (s : State) : ∃ u, issueHead i t s = .next u := by
  obtain ⟨v, hv⟩ := exec_goesOn i s
  rw [issueHead, hv]
  dsimp only
  split
  · exact exec_goesOn (.parklong t) v
  · exact ⟨_, rfl⟩

theorem turn_goesOn (t : Nat) (s : State) : ∃ u, turn t s = .next u := by
  simp only [turn]
  split
  case h_2 => exact exec_goesOn (.asyncCauseDelivery t) _
  case h_6 => exact issueHead_goesOn _ t _
  all_goals exact ⟨_, rfl⟩

theorem nextTurn_goesOn (t : Nat) (s : State) : ∃ u, nextTurn t s = .next u := by
  rw [nextTurn]
  split
  · exact turn_goesOn t s
  · exact ⟨_, rfl⟩

/-! ### What is under way is named by steps of the part -/

/-- Every entry of a list is a step of the part, no instruction. -/
def PartSteps (l : List Instr) : Prop := ∀ i ∈ l, encode i = []

theorem PartSteps.nil : PartSteps [] := List.forall_mem_nil _
theorem PartSteps.cons {i : Instr} {l : List Instr} (h : encode i = []) (hl : PartSteps l) : PartSteps (i :: l) :=
  List.forall_mem_cons.2 ⟨h, hl⟩
theorem partSteps_append {l m : List Instr} : PartSteps (l ++ m) ↔ PartSteps l ∧ PartSteps m := List.forall_mem_append
theorem PartSteps.append {l m : List Instr} (hl : PartSteps l) (hm : PartSteps m) : PartSteps (l ++ m) :=
  partSteps_append.2 ⟨hl, hm⟩
theorem PartSteps.map {α : Type} {f : α → Instr} {l : List α} (h : ∀ x, encode (f x) = []) : PartSteps (l.map f) :=
  List.forall_mem_map.2 fun x _ => h x
theorem PartSteps.flatMap {α : Type} {f : α → List Instr} {l : List α} (h : ∀ x, PartSteps (f x)) : PartSteps (l.flatMap f) :=
  List.forall_mem_flatMap.2 fun x _ => h x

theorem threadWork_partSteps (t : Thread) : PartSteps (threadWork t) := by
  refine .append (.append (List.forall_mem_filterMap.2 fun e _ i he => ?_) (.map fun _ => rfl))
    (.cons rfl (.cons rfl (.cons rfl (.cons rfl .nil))))
  split at he
  · cases he; rfl
  · cases he

theorem accessWork_partSteps (s : State) (gc : Nat) (a : Access) : PartSteps (accessWork s gc a) := by
  rw [accessWork]
  split
  · exact .cons rfl .nil
  split
  · exact .cons rfl .nil
  split
  · split
    · exact .cons rfl (.cons rfl .nil)
    · exact .nil
  · exact .map fun _ => rfl

theorem matrixWork_partSteps (s : State) (gc : Nat) (m : MEntry) : PartSteps (matrixWork s gc m) :=
  .append (.append (.cons rfl (.cons rfl (.cons rfl .nil))) (.map fun _ => rfl)) (.cons rfl (.cons rfl .nil))

theorem coreWork_partSteps (s : State) (e : Nat × Core) : PartSteps (coreWork s e) :=
  .append (.append (.append (.flatMap (accessWork_partSteps s e.1))
    (.flatMap fun _ => .append (.map fun _ => rfl) (.cons rfl (.cons rfl .nil))))
    (.flatMap (matrixWork_partSteps s e.1))) (.map fun _ => rfl)

theorem routerWork_partSteps (e : Nat × Router) : PartSteps (routerWork e) :=
  .append (.map fun _ => rfl) (.map fun _ => rfl)

theorem postedWork_encode (p : Posted) : encode (postedWork p) = [] := by
  cases p <;> rfl

theorem sillageWork_partSteps (s : State) : PartSteps (sillageWork s) := by
  refine .append (.flatMap fun f => .append ?_ (.cons rfl .nil)) (.flatMap fun r => .append ?_ (.cons rfl .nil))
  · split
    · exact .map fun _ => rfl
    · exact .cons rfl .nil
  · split
    · exact .map fun _ => rfl
    · exact .cons rfl .nil

theorem vdWork_partSteps (e : Nat × Vd) : PartSteps (vdWork e) :=
  .append (.cons rfl (.cons rfl (.cons rfl .nil))) (.flatMap fun _ => .flatMap fun _ => .cons rfl (.cons rfl .nil))

theorem teamWork_partSteps (t : Team) : PartSteps (teamWork t) :=
  .append (.flatMap fun _ => .cons rfl (.cons rfl .nil)) (.cons rfl (.cons rfl (.cons rfl (.cons rfl (.cons rfl .nil)))))

theorem fnWork_partSteps (e : Nat × Function) : PartSteps (fnWork e) :=
  .append (.flatMap fun _ => .cons rfl (.cons rfl (.cons rfl (.cons rfl (.cons rfl (.cons rfl .nil))))))
    (.cons rfl (.cons rfl .nil))

theorem work_partSteps (s : State) : PartSteps (work s) := by
  simp only [work, partSteps_append, and_assoc]
  exact ⟨.flatMap routerWork_partSteps, .flatMap (coreWork_partSteps s), .flatMap threadWork_partSteps, .map postedWork_encode,
    .map fun _ => rfl, sillageWork_partSteps s, .map fun _ => rfl, .map fun _ => rfl, .flatMap teamWork_partSteps,
    .flatMap fnWork_partSteps, .flatMap vdWork_partSteps, .map fun _ => rfl⟩

/-! ### A step -/

/-- A pick goes on unless it names an instruction as a step of the part. -/
theorem runPick_goesOn (p : Pick) (s : State) (h : ∀ i, p = .event i → encode i = []) : ∃ t, runPick p s = .next t := by
  rw [runPick.eq_def]
  split
  case h_1 => exact nextTurn_goesOn _ s
  case h_2 => exact nextTurn_goesOn _ s
  case h_3 => exact nextTurn_goesOn _ s
  case h_4 i _ _ =>
    rw [if_pos (by rw [h i rfl]; rfl)]
    exact exec_goesOn i s
  all_goals exact ⟨_, rfl⟩

/-- The default schedule names no instruction as a step of the part. -/
theorem schedule_event {s : State} {i : Instr} (h : .event i ∈ schedule s) : encode i = [] := by
  rw [schedule, List.mem_append, List.mem_append] at h
  obtain (hwork | hlog) | hlast := h
  · obtain ⟨j, hj, heq⟩ := List.mem_map.1 hwork
    cases heq
    exact work_partSteps s i hj
  · obtain ⟨e, -, he⟩ := List.mem_filterMap.1 hlog
    split at he <;> cases he
  · have hturn := List.mem_singleton.1 hlast
    split at hturn <;> cases hturn

/-- Settles O59: the agenda's pick goes on where it names no instruction, and the default schedule names none. -/
theorem everyStepGoesOn : Obligations.EveryStepGoesOn := by
  unfold Obligations.EveryStepGoesOn
  refine ⟨exec_goesOn, fun s h => ?_⟩
  rw [step]
  split
  case h_1 =>
    split
    case h_1 => exact ⟨s, rfl⟩
    case h_2 p rest hsched =>
      exact runPick_goesOn p _ fun i hi => schedule_event (s := s) (by rw [hsched, hi]; exact List.mem_cons_self)
  case h_2 p rest hagenda => exact runPick_goesOn p _ fun i hi => h i rest (by rw [hagenda, hi])

end Sys2Proof.Machine
end

section
/-! SUPPORT. Lanes of a vector register, and integers of a lane's width (R115 to R117, R123). -/

namespace Sys2Proof.Machine

/-! ### Reading the lanes of a register that was built from lanes -/

theorem lane_lt (v : VWord) (w i : Nat) : lane v w i < 2 ^ w := Nat.mod_lt _ (Nat.two_pow_pos w)

theorem lane_mod (v : VWord) (w i : Nat) : lane v w i % 2 ^ w = lane v w i := Nat.mod_mod _ _

theorem ofLanes_lane (w : Nat) (xs : List Nat) (i : Nat) : ofLanes w xs / 2 ^ (w * i) % 2 ^ w = xs.getD i 0 % 2 ^ w := by
  induction xs generalizing i with
  | nil => rw [ofLanes, Nat.zero_div]; rfl
  | cons x xs ih =>
    cases i with
    | zero => rw [ofLanes, Nat.mul_zero, Nat.pow_zero, Nat.div_one, Nat.add_mul_mod_self_left, Nat.mod_mod]; rfl
    | succ i =>
      have hrest : (x % 2 ^ w + 2 ^ w * ofLanes w xs) / 2 ^ w = ofLanes w xs := by
        rw [Nat.add_mul_div_left _ _ (Nat.two_pow_pos w), Nat.div_eq_of_lt (Nat.mod_lt _ (Nat.two_pow_pos w)), Nat.zero_add]
      rw [ofLanes, Nat.mul_succ, Nat.add_comm (w * i), Nat.pow_add, ← Nat.div_div_eq_div_mul, hrest, ih]
      rfl

theorem toNat_ofNat_field (x : Nat) {a w n : Nat} (h : a + w ≤ n) :
    (BitVec.ofNat n x).toNat / 2 ^ a % 2 ^ w = x / 2 ^ a % 2 ^ w := by
  have hsplit : 2 ^ n = 2 ^ a * 2 ^ (n - a) := by rw [← Nat.pow_add]; congr 1; omega
  have hdvd : 2 ^ w ∣ 2 ^ (n - a) := Nat.pow_dvd_pow 2 (by omega)
  rw [BitVec.toNat_ofNat, hsplit, Nat.mod_mul_right_div_self, Nat.mod_mod_of_dvd _ hdvd]

/-- A lane that the register has room for reads back as it was put in. -/
theorem lane_vOfLanes {w i : Nat} (hi : i < 1024 / w) (xs : List Nat) : lane (vOfLanes w xs) w i = xs.getD i 0 % 2 ^ w := by
  have hroom : w * i + w ≤ 1024 := by
    have hmul : w * (i + 1) ≤ w * (1024 / w) := Nat.mul_le_mul_left w hi
    exact hmul.trans (Nat.mul_div_le 1024 w)
  exact (toNat_ofNat_field _ hroom).trans (ofLanes_lane w xs i)

theorem getD_map_range (n : Nat) {i : Nat} (hi : i < n) {α : Type} (f : Nat → α) (d : α) :
    ((List.range n).map f).getD i d = f i := by simp [hi]

theorem lane_vOfLanes_map {w i : Nat} (hi : i < 1024 / w) (f : Nat → Nat) :
    lane (vOfLanes w ((List.range (1024 / w)).map f)) w i = f i % 2 ^ w := by
  rw [lane_vOfLanes hi, getD_map_range _ hi]

/-- A merge takes the new lane where it is active and keeps the old one elsewhere (R117). -/
theorem lane_mergeLanes {w i : Nat} (hi : i < 1024 / w) (p : PWord) (old : VWord) (new : Nat → Nat) :
    lane (mergeLanes w p old new) w i = if activeLane p w i then new i % 2 ^ w else lane old w i := by
  rw [mergeLanes, lane_vOfLanes_map hi]
  split
  · rfl
  · exact lane_mod old w i

/-! ### Integers of a width as bit vectors -/

theorem ofSigned_eq_toNat (w : Nat) (x : Int) : ofSigned w x = (BitVec.ofInt w x).toNat := (BitVec.toNat_ofInt x).symm

theorem toSigned_eq_toInt (w x : Nat) : toSigned w x = (BitVec.ofNat w x).toInt := by
  rw [toSigned, BitVec.toInt_eq_toNat_cond, BitVec.toNat_ofNat]
  cases w with
  | zero => simp [Nat.mod_one]
  | succ w =>
    have hhalf : x % 2 ^ (w + 1) < 2 ^ w ↔ 2 * (x % 2 ^ (w + 1)) < 2 ^ (w + 1) := by rw [Nat.pow_succ 2 w]; omega
    simp only [Nat.add_sub_cancel, hhalf]

/-- The bits of an integer lane are those of its value. -/
theorem ofSigned_intOf (ty : Ty) (x : Nat) : ofSigned ty.width (intOf ty x) = x % 2 ^ ty.width := by
  rw [intOf]
  split
  · rw [toSigned_eq_toInt, ofSigned_eq_toNat, BitVec.ofInt_toInt, BitVec.toNat_ofNat]
  · rw [ofSigned, ← Int.natCast_mod, Int.toNat_natCast, Nat.mod_mod]

theorem intOf_zero (ty : Ty) : intOf ty 0 = 0 := by cases ty <;> rfl

end Sys2Proof.Machine
end

section
/-! SUPPORT. Instructions whose result is a vector (R62, R116 to R118). -/

namespace Sys2Proof.Machine

theorem takeDraws_eq (s : State) (rm : Rm) (n : Nat) :
    s.takeDraws rm n = (s.modThr fun t => { t with rng := (drawsOf s rm n).1 }, (drawsOf s rm n).2) := by
  rw [State.takeDraws, drawsOf]; split <;> rfl

section
variable {i : Instr} {s : State} {sw : Bool} {d : VReg} {rs : List Reg} {k : State → State} {x : VWord} {g : BitVec 32}

/-- An instruction that writes a vector register, and the generator with its draws taken, once the registers it reads are present. -/
theorem writeV_completes (h : Present s rs) (hexec : exec i s = .next (s.withRegs rs k))
    (hk : k s = ((s.modThr fun t => { t with rng := g }).writeV d x).finish sw) :
    Completes i s fun t => InSequence sw s t ∧ WritesV s t d x g :=
  ⟨_, hexec, by rw [withRegs_present h, hk]; exact (writeV_finish s g d x sw).symm⟩

theorem allLanes_completes {w : Nat} {f : Nat → Nat} (h : Present s rs) (hexec : exec i s = .next (s.withRegs rs k))
    (hk : k s = ((s.modThr fun t => { t with rng := g }).writeV d x).finish sw)
    (hlanes : ∀ j < 1024 / w, lane x w j = f j % 2 ^ w) :
    Completes i s fun t => AllLanesDone sw s t w d g f :=
  (writeV_completes h hexec hk).imp fun _ ⟨hseq, hwrites⟩ => ⟨hseq, x, hwrites, hlanes⟩

/-- The lanes of a governed form (R117): `r` in the active ones. -/
theorem merged_completes {w : Nat} {pg : PReg} {f r : Nat → Nat} (h : Present s rs) (hexec : exec i s = .next (s.withRegs rs k))
    (hk : k s = ((s.modThr fun t => { t with rng := g }).writeV d (mergeLanes w (s.thr.getP pg) (s.thr.getV d) f)).finish sw)
    (hr : ∀ j < 1024 / w, f j % 2 ^ w = r j % 2 ^ w) : Completes i s fun t => LanesDone sw s t w pg d g r :=
  (writeV_completes h hexec hk).imp fun _ ⟨hseq, hwrites⟩ =>
    ⟨hseq, _, hwrites, fun j hj => by rw [lane_mergeLanes hj, hr j hj]⟩

/-- A governed form takes one draw for each lane. -/
theorem governed_completes {w : Nat} {pg : PReg} {srcs : List Reg} {rm : Rm} {f : State → List Nat → Nat → Nat} {r : Nat → Nat}
    (h : Present s (srcs ++ govRegs pg (.v d))) (hexec : exec i s = .next (governed sw w pg d srcs rm f s))
    (hr : ∀ j, f s (drawsOf s rm (1024 / w)).2 j % 2 ^ w = r j % 2 ^ w) :
    Completes i s fun t => LanesDone sw s t w pg d (drawsOf s rm (1024 / w)).1 r :=
  merged_completes h hexec (by rw [takeDraws_eq]) fun j _ => hr j

/-- One that rounds to nearest takes none. -/
theorem governed_drawless {w : Nat} {pg : PReg} {srcs : List Reg} {f : State → List Nat → Nat → Nat} {r : Nat → Nat}
    (h : Present s (srcs ++ govRegs pg (.v d))) (hexec : exec i s = .next (governed sw w pg d srcs .rne f s))
    (hr : ∀ j, f s [] j % 2 ^ w = r j % 2 ^ w) : Completes i s fun t => LanesDone sw s t w pg d s.thr.rng r :=
  governed_completes h hexec hr

end

end Sys2Proof.Machine
end

section
/-! SUPPORT. The element arithmetic, the bitwise forms and the shifts of vectors (R122 to R125). -/

namespace Sys2Proof.Machine

/-! ### Lanes as bit vectors -/

theorem toNat_ofNat_lane (v : VWord) (w i : Nat) : (BitVec.ofNat w (lane v w i)).toNat = lane v w i := by
  rw [BitVec.toNat_ofNat, lane_mod]

/-- A shift to the right by an amount with the sign's copies is the floor of the quotient (R125). -/
theorem ofSigned_toSigned_div (w x n : Nat) :
    ofSigned w (toSigned w x / (2 ^ n : Nat)) = ((BitVec.ofNat w x).sshiftRight n).toNat := by
  rw [ofSigned_eq_toNat, toSigned_eq_toInt, ← Int.shiftRight_eq_div_pow]; rfl

theorem popcount_lane (v : VWord) (w i : Nat) : popcount w (lane v w i) =
    ((List.range w).filter fun k => (BitVec.ofNat w (lane v w i)).getLsbD k).length := by
  rw [popcount_eq_length_filter]
  simp only [BitVec.getLsbD, toNat_ofNat_lane]

/-- The high half of a product (R123). -/
theorem highHalf_eq (ty : Ty) (x y : Int) : ofSigned ty.width (x * y / (2 ^ ty.width : Nat)) =
    (BitVec.ofInt ty.width (x * y / 2 ^ ty.width)).toNat := by
  rw [ofSigned_eq_toNat, Int.natCast_pow]; rfl

theorem natAbs_eq_ite (x : Int) : (x.natAbs : Int) = if x < 0 then -x else x := by split <;> omega

theorem vec1_completes {i : Instr} {s : State} {sw : Bool} {ty : Ty} {sat : Bool} {pg : PReg} {d a : VReg} {fi : Int → Int}
    {ff : Val → Val} {r : Nat → Nat} (h : Present s ([.v a] ++ govRegs pg (.v d)))
    (hexec : exec i s = .next (vec1 sw ty sat pg d a fi ff s))
    (hr : ∀ j, (if ty.isInt then narrow ty sat (fi (intOf ty (s.vlane ty.width a j)))
      else (fmtOf ty).round .rne false 0 (ff ((fmtOf ty).decode (s.vlane ty.width a j)))) = r j) :
    Completes i s fun t => LanesDone sw s t ty.width pg d s.thr.rng r :=
  governed_drawless (f := fun s _ j => if ty.isInt then narrow ty sat (fi (intOf ty (s.vlane ty.width a j)))
    else (fmtOf ty).round .rne false 0 (ff ((fmtOf ty).decode (s.vlane ty.width a j)))) h hexec
    fun j => congrArg (· % _) (hr j)

/-! ### The statement -/

/-- Settles O10: each instruction is a governed form, and its lane function is the one the spec gives. -/
theorem elementResults : Obligations.ElementResults := by
  unfold Obligations.ElementResults
  refine ⟨fun sw ty rm sat pg d a b c s => ⟨fun h => ?two, fun h => ?three⟩,
    fun sw ty sat pg d a b s => ⟨fun h => ?extremes, fun h => ?one⟩, fun sw sz pg d a b s => ⟨fun h => ?bits, fun h => ?count⟩⟩
  case two =>
    exact ⟨governed_completes h rfl fun _ => rfl, governed_completes h rfl fun _ => rfl, governed_completes h rfl fun _ => rfl⟩
  case three => exact ⟨governed_completes h rfl fun _ => rfl, governed_completes h rfl fun _ => rfl⟩
  case extremes =>
    refine ⟨governed_drawless h rfl fun j => ?_, governed_drawless h rfl fun j => ?_, governed_drawless h rfl fun j => ?_⟩
    · rw [arith2, min_def]; rfl
    · rw [arith2, max_def]; rfl
    · exact congrArg (· % _) (highHalf_eq ty _ _)
  case one =>
    exact ⟨vec1_completes h rfl fun j => by rw [natAbs_eq_ite]; rfl, vec1_completes h rfl fun _ => rfl⟩
  case bits =>
    refine ⟨governed_drawless h rfl fun j => ?_, governed_drawless h rfl fun j => ?_, governed_drawless h rfl fun j => ?_,
      governed_drawless h rfl fun j => ?_, governed_drawless h rfl fun j => ?_, governed_drawless h rfl fun j => ?_⟩
    · rw [BitVec.toNat_and, toNat_ofNat_lane, toNat_ofNat_lane]; rfl
    · rw [BitVec.toNat_or, toNat_ofNat_lane, toNat_ofNat_lane]; rfl
    · rw [BitVec.toNat_xor, toNat_ofNat_lane, toNat_ofNat_lane]; rfl
    · rw [BitVec.toNat_shiftLeft, toNat_ofNat_lane, Nat.shiftLeft_eq]; rfl
    · rw [BitVec.toNat_ushiftRight, toNat_ofNat_lane, Nat.shiftRight_eq_div_pow]; rfl
    · exact congrArg (· % _) (ofSigned_toSigned_div _ _ _)
  case count => exact governed_drawless h rfl fun j => by rw [← popcount_lane]; rfl

end Sys2Proof.Machine
end

section
/-! SUPPORT. Moving, selecting and comparing lanes (R126 to R128). -/

namespace Sys2Proof.Machine

/-! ### The predicate of a comparison -/

theorem ofLanes_testBit (xs : List Bool) (j : Nat) :
    (ofLanes 1 (xs.map fun b => if b then 1 else 0)).testBit j = xs.getD j false := by
  rw [Nat.testBit_eq_decide_div_mod_eq]
  have hlane := ofLanes_lane 1 (xs.map fun b => if b then 1 else 0) j
  rw [Nat.one_mul, Nat.pow_one] at hlane
  rw [hlane, List.getD_eq_getElem?_getD, List.getD_eq_getElem?_getD, List.getElem?_map]
  cases xs[j]? with
  | none => rfl
  | some b => cases b <;> rfl

theorem vcmpBits_getLsbD {j : Nat} (hj : j < 128) (w : Nat) (p old : PWord) (f : Nat → Bool) :
    (vcmpBits w p old f).getLsbD j = if activeLane p w (j * 8 / w) then f (j * 8 / w) else old.getLsbD j := by
  have hbits := ofLanes_testBit ((List.range 128).map fun j =>
    if activeLane p w (j * 8 / w) then f (j * 8 / w) else old.getLsbD j) j
  rw [List.map_map, getD_map_range _ hj] at hbits
  rw [vcmpBits, BitVec.getLsbD_ofNat, decide_eq_true hj, Bool.true_and]
  exact hbits

/-- Where the predicate bit of a byte finds its lane, and a lane its own bit, in bytes of a lane (R116). -/
theorem byteLane (ty : Ty) (j : Nat) : j * 8 / ty.width = j / (ty.width / 8) ∧
    ∀ i, i * ty.width / 8 = i * (ty.width / 8) := by
  cases ty <;> simp only [Ty.width] <;> constructor <;> omega

/-! ### The statement -/

/-- Settles O11: the forms that move lanes by the lanes that they write, VCMP by the bits of its predicate. -/
theorem laneMovesAndComparisons : Obligations.LaneMovesAndComparisons := by
  unfold Obligations.LaneMovesAndComparisons
  refine ⟨fun sw sz pg d a b q x k s => ?moves, fun sw ty pg d a b c s h => ?compare⟩
  case moves =>
    intro w n at_ hk
    refine ⟨fun h => allLanes_completes h rfl rfl fun j hj => ?select, fun h => governed_drawless h rfl fun j => Nat.mod_mod _ _,
      fun h => allLanes_completes h rfl rfl fun j hj => ?insert, fun h => (writeS_completes _ h rfl rfl).imp fun _ => And.symm,
      fun h => governed_drawless h rfl fun _ => rfl, fun h => governed_drawless h rfl fun _ => rfl⟩
    case select =>
      rw [lane_mergeLanes hj]
      split
      · rfl
      · exact (lane_mod _ _ _).symm
    case insert =>
      refine (lane_vOfLanes_map hj _).trans ?_
      split
      · exact Nat.mod_mod _ _
      · rfl
  case compare =>
    refine (writeP_completes _ h rfl rfl).imp fun t ⟨hwrites, hseq⟩ => ⟨hseq, _, hwrites, fun j hj => ?_⟩
    obtain ⟨hlane, hbit⟩ := byteLane ty j
    rw [vcmpBits_getLsbD hj, activeLane, hlane, hbit]
    rfl

end Sys2Proof.Machine
end

section
/-! SUPPORT. Conversions between lane types, and blocks of bit planes (R129 to R132). -/

namespace Sys2Proof.Machine

/-! ### The block of VQNT (R131) -/

theorem bpiPlanes_length (p : Nat) (codes : List Int) : (bpiPlanes p codes).length = p := by
  rw [bpiPlanes, List.length_map, List.length_range]

/-- A block holds its plane words first, the exponent in lane 31 and zeros between. -/
theorem blockLanes_getD {p i : Nat} (hp : p ≤ 31) (hi : i < 32) (e : Nat) (codes : List Int) :
    (blockLanes p e codes).getD i 0 = if i < p then (bpiPlanes p codes).getD i 0 else if i = 31 then e else 0 := by
  have hlength : (bpiPlanes p codes ++ List.replicate (31 - p) 0).length = 31 := by
    rw [List.length_append, bpiPlanes_length, List.length_replicate]; omega
  rw [blockLanes]
  split
  next hplane =>
    rw [List.append_assoc, List.getD_append _ _ _ _ (by rw [bpiPlanes_length]; exact hplane)]
  next hplane =>
    split
    next hlast => rw [hlast, List.getD_append_right _ _ _ _ (by rw [hlength]), hlength]; rfl
    next hlast =>
      rw [List.getD_append _ _ _ _ (by rw [hlength]; omega),
        List.getD_append_right _ _ _ _ (by rw [bpiPlanes_length]; omega)]
      simp

/-! ### The value of a code under an exponent (R71, R132) -/

/-- The scaled value of a code of which only the first `q` of `p` planes are read. -/
theorem scaledVal_eq (code : Int) (e : Nat) {p q : Nat} (h : q ≤ p) : scaledVal code e (p - q) =
    if e = 0 then .fin false 0 0 else if e = 255 then .nan else (ofInt code).scale (p - q + e - 127) := by
  rw [scaledVal]
  split
  · rfl
  split
  · rfl
  · have hexp : (0 : Int) + (p - q : Nat) + e - 127 = 0 + ((p : Int) - q + e - 127) := by omega
    exact congrArg (Val.fin _ _) hexp

/-! ### The statement -/

/-- Settles O12: each conversion by the lanes that it writes. -/
theorem conversionsAndBlocks : Obligations.ConversionsAndBlocks := by
  unfold Obligations.ConversionsAndBlocks
  refine ⟨fun sw dty sty rm sat pg d a s h => ?convert, fun sw ty rm sat pg pm2 rpl d a c s => ?blocks⟩
  case convert =>
    exact allLanes_completes h rfl (by rw [takeDraws_eq]; rfl) fun j hj => lane_vOfLanes_map hj _
  case blocks =>
    refine ⟨fun hp h => ?quantize, fun hq h => ?dequantize⟩
    case quantize =>
      refine allLanes_completes h rfl (by rw [takeDraws_eq]) fun j hj => ?_
      rw [lane_vOfLanes hj, blockLanes_getD (by omega) hj]
      rfl
    case dequantize =>
      have hdraws : (if ty.isInt then (s, []) else s.takeDraws rm 32) =
          (s.modThr fun t => { t with rng := (if ty.isInt then (s.thr.rng, []) else drawsOf s rm 32).1 },
            (if ty.isInt then (s.thr.rng, []) else drawsOf s rm 32).2) := by
        split
        · rfl
        · exact takeDraws_eq s rm 32
      refine allLanes_completes h rfl (by rw [hdraws]) fun j hj => ?_
      rw [lane_vOfLanes_map hj]
      simp only [scaledVal_eq _ _ hq, ofSigned_eq_toNat]
      rfl

end Sys2Proof.Machine
end

section
/-! SUPPORT. Reductions and scans over the lanes of a vector (R134, R135). -/

namespace Sys2Proof.Machine

/-! ### Reductions in the order of the lanes -/

/-- An identity that stands in for a lane leaves the result as it is without the lane; `P` holds of every partial result. -/
theorem foldl_identity {α : Type} {op : α → α → α} {e : α} (P : α → Prop) (hid : ∀ x, P x → op x e = x)
    (hop : ∀ x y, P x → P (op x y)) (on : Nat → Bool) (f : Nat → α) (l : List Nat) {acc : α} (hacc : P acc) :
    (l.map fun i => if on i then f i else e).foldl op acc = ((l.filter on).map f).foldl op acc := by
  induction l generalizing acc with
  | nil => rfl
  | cons i l ih =>
    rw [List.map_cons, List.foldl_cons, List.filter_cons]
    split
    · rw [List.map_cons, List.foldl_cons]; exact ih (hop _ _ hacc)
    · rw [hid _ hacc]; exact ih hacc

/-- What a reduction is over: `f` of each lane that is active. -/
def activeLanes {α : Type} (w : Nat) (p : PWord) (v : VWord) (f : Nat → α) : List α :=
  ((List.range (1024 / w)).filter (activeLane p w)).map fun i => f (lane v w i)

theorem foldl_redLanes {α : Type} {op : α → α → α} {e : α} (P : α → Prop) (hid : ∀ x, P x → op x e = x)
    (hop : ∀ x y, P x → P (op x y)) (w : Nat) (p : PWord) (v : VWord) (f : Nat → α) (hacc : P e) :
    (redLanes w p v f e).foldl op e = (activeLanes w p v f).foldl op e :=
  foldl_identity P hid hop _ _ _ hacc

/-- A fold of `max` is an upper bound and one of what it is taken over. -/
theorem foldl_max_isGreatest {α : Type} [LinearOrder α] (l : List α) (a : α) :
    a ≤ l.foldl max a ∧ (∀ x ∈ l, x ≤ l.foldl max a) ∧ (l.foldl max a ∈ l ∨ l.foldl max a = a) := by
  induction l generalizing a with
  | nil => exact ⟨le_rfl, List.forall_mem_nil _, .inr rfl⟩
  | cons b l ih =>
    obtain ⟨hfirst, hall, hmem⟩ := ih (max a b)
    rw [List.foldl_cons]
    refine ⟨(le_max_left a b).trans hfirst, List.forall_mem_cons.2 ⟨(le_max_right a b).trans hfirst, hall⟩, ?_⟩
    obtain hmem | heq := hmem
    · exact .inl (List.mem_cons_of_mem _ hmem)
    · rw [heq]
      obtain hmax | hmax := max_choice a b
      · exact .inr hmax
      · exact .inl (by rw [hmax]; exact List.mem_cons_self)

/-- The same of `min`, which is `max` in the dual order. -/
theorem foldl_min_isLeast (l : List Int) (a : Int) :
    l.foldl min a ≤ a ∧ (∀ x ∈ l, l.foldl min a ≤ x) ∧ (l.foldl min a ∈ l ∨ l.foldl min a = a) :=
  foldl_max_isGreatest (α := Intᵒᵈ) l a

/-- Below every value but a NaN stands −∞, and above stands +∞ (R124). -/
theorem maxV_negInf (x : Val) : maxV x (.inf true) = x := by
  cases x with
  | nan => rfl
  | inf neg => cases neg <;> rfl
  | fin neg m e => rfl
theorem minV_posInf (x : Val) : minV x (.inf false) = x := by
  cases x with
  | nan => rfl
  | inf neg => cases neg <;> rfl
  | fin neg m e => rfl

section
variable {i : Instr} {s : State} {sw : Bool} {ty : Ty} {rm : Rm} {pg : PReg} {d : SReg} {a : VReg} {fi : Int → Int → Int}
  {ff : Val → Val → Val} {i0 : Int} {f0 : Val} (h : Present s [.v a, .p pg])
include h

theorem redExtreme_completes (hexec : exec i s = .next (redExtreme sw ty pg d a fi ff i0 f0 s)) :
    Completes i s fun t => InSequence sw s t ∧ WritesS s t d
      (if ty.isInt then intWord ((redLanes ty.width (s.thr.getP pg) (s.thr.getV a) (intOf ty) i0).foldl fi i0)
      else BitVec.ofNat 64 (fF32.round .rne false 0
        ((redLanes ty.width (s.thr.getP pg) (s.thr.getV a) (fmtOf ty).decode f0).foldl ff f0))) :=
  (writeS_completes _ h hexec rfl).imp fun _ => And.symm

/-- The extreme of integers; `P` says that the identity is no more extreme than a partial result. -/
theorem redExtreme_int (hty : ty.isInt = true) (P : Int → Prop) (hid : ∀ x, P x → fi x i0 = x) (hop : ∀ x y, P x → P (fi x y))
    (hacc : P i0) (hexec : exec i s = .next (redExtreme sw ty pg d a fi ff i0 f0 s)) :
    Completes i s fun t => InSequence sw s t ∧ WritesS s t d
      (BitVec.ofInt 64 ((activeLanes ty.width (s.thr.getP pg) (s.thr.getV a) (intOf ty)).foldl fi i0)) := by
  rw [← foldl_redLanes P hid hop _ _ _ _ hacc]
  have hcompletes := redExtreme_completes h hexec
  rw [if_pos hty] at hcompletes
  exact hcompletes

theorem redExtreme_float (hty : ty.isInt = false) (hid : ∀ x, ff x f0 = x)
    (hexec : exec i s = .next (redExtreme sw ty pg d a fi ff i0 f0 s)) :
    Completes i s fun t => InSequence sw s t ∧ WritesS s t d (BitVec.ofNat 64 (fF32.round .rne false 0
      ((activeLanes ty.width (s.thr.getP pg) (s.thr.getV a) (fmtOf ty).decode).foldl ff f0))) := by
  rw [← foldl_redLanes (fun _ => True) (fun x _ => hid x) (fun _ _ _ => trivial) _ _ _ _ trivial]
  have hcompletes := redExtreme_completes h hexec
  rw [if_neg (by rw [hty]; decide)] at hcompletes
  exact hcompletes

theorem vredsum_int (hty : ty.isInt = true) : Completes (.vredsum sw ty rm pg d a) s fun t => InSequence sw s t ∧
    WritesS s t d (BitVec.ofInt 64 (activeLanes ty.width (s.thr.getP pg) (s.thr.getV a) (intOf ty)).sum) := by
  refine ⟨_, rfl, ?_⟩
  rw [withRegs_present h, if_pos hty, List.sum_eq_foldl,
    ← foldl_redLanes (fun _ => True) (fun x _ => Int.add_zero x) (fun _ _ _ => trivial) _ _ _ _ trivial]
  exact (writeS_finish _ _ _ _).symm

end

/-! ### The tree of a floating sum (R134) -/

theorem getD_drop (xs : List Nat) (n i : Nat) : (xs.drop n).getD i 0 = xs.getD (n + i) 0 := by
  rw [List.getD_eq_getElem?_getD, List.getElem?_drop, ← List.getD_eq_getElem?_getD]

/-- The sum of the `i`th pair, rounded with the `i`th draw. -/
def pairSum (rm : Rm) (us : List Nat) (f : Nat → Nat) (i : Nat) : Nat :=
  fF32.round rm false (us.getD i 0) (addV rm (fF32.decode (f (2 * i))) (fF32.decode (f (2 * i + 1))))

/-- The nodes of the tree over `n` leaves, level by level; the levels below `k` have taken n − n / 2^k draws. -/
def treeNode (rm : Rm) (us : List Nat) (n : Nat) (leaf : Nat → Nat) : Nat → Nat → Nat
  | 0 => leaf
  | k + 1 => pairSum rm (us.drop (n - n / 2 ^ k)) (treeNode rm us n leaf k)

theorem treeLevel_pairSum (rm : Rm) (m : Nat) (f : Nat → Nat) (us : List Nat) :
    treeLevel rm ((List.range (2 * m)).map f) us = ((List.range m).map (pairSum rm us f), us.drop m) := by
  induction m generalizing f us with
  | zero => rfl
  | succ m ih =>
    have hpairs : (List.range (2 * (m + 1))).map f = f 0 :: f 1 :: (List.range (2 * m)).map fun i => f (i + 2) := by
      rw [Nat.mul_succ, List.range_succ_eq_map, List.range_succ_eq_map]
      simp [Function.comp_def]
    have hrest : pairSum rm us.tail (fun i => f (i + 2)) = fun i => pairSum rm us f (i + 1) := by
      funext i
      cases us <;> rfl
    have hfirst : fF32.round rm false (us.headD 0) (addV rm (fF32.decode (f 0)) (fF32.decode (f 1))) = pairSum rm us f 0 := by
      cases us <;> rfl
    rw [hpairs, treeLevel, ih, hrest, hfirst, List.range_succ_eq_map, List.map_cons, List.map_map, List.drop_tail]
    rfl

/-- From level `k` on, `j` levels lead to the root, and further ones leave it. -/
theorem tree_treeNode (rm : Rm) (us : List Nat) (leaf : Nat → Nat) {n k j r : Nat} (hn : n = 2 ^ (k + j)) (hr : j ≤ r) :
    tree rm r ((List.range (2 ^ j)).map (treeNode rm us n leaf k)) (us.drop (n - 2 ^ j)) = treeNode rm us n leaf (k + j) 0 := by
  induction r generalizing k j with
  | zero =>
    obtain rfl := Nat.le_zero.1 hr
    rfl
  | succ r ih =>
    cases j with
    | zero => exact ih hn (Nat.zero_le r)
    | succ j =>
      have hwidth : n / 2 ^ k = 2 ^ (j + 1) := by rw [hn, Nat.pow_add, Nat.mul_div_cancel_left _ (Nat.two_pow_pos k)]
      have hle : 2 ^ (j + 1) ≤ n := by rw [hn]; exact Nat.pow_le_pow_right (by decide) (by omega)
      have hdrop : n - 2 ^ (j + 1) + 2 ^ j = n - 2 ^ j := by rw [Nat.pow_succ] at hle ⊢; omega
      have hnode : treeNode rm us n leaf (k + 1) = pairSum rm (us.drop (n - 2 ^ (j + 1))) (treeNode rm us n leaf k) := by
        rw [treeNode, hwidth]
      have hstep := ih (k := k + 1) (j := j) (by rw [hn]; congr 1; omega) (Nat.le_of_succ_le_succ hr)
      rw [hnode, Nat.add_assoc, Nat.add_comm 1] at hstep
      rw [tree, Nat.pow_succ', treeLevel_pairSum, List.drop_drop, ← Nat.pow_succ', hdrop]
      exact hstep

/-- Every floating type's lanes are a power of two, seven levels at most. -/
theorem lanes_two_pow {ty : Ty} (h : ty ≠ .bpi) : ∃ j ≤ 7, 1024 / ty.width = 2 ^ j := by
  cases ty with
  | i8 | u8 | e4m3 | e5m2 => exact ⟨7, le_rfl, rfl⟩
  | i16 | f16 | bf16 => exact ⟨6, by decide, rfl⟩
  | i32 | f32 => exact ⟨5, by decide, rfl⟩
  | bpi => exact absurd rfl h

theorem tree_redLanes (rm : Rm) {ty : Ty} (hty : ty ≠ .bpi) (p : PWord) (v : VWord) (us : List Nat) :
    tree rm 7 (redLanes ty.width p v (toF32 ty) 0x80000000) us = treeNode rm us (1024 / ty.width)
      (fun i => if activeLane p ty.width i then toF32 ty (lane v ty.width i) else 0x80000000) (Nat.log2 (1024 / ty.width)) 0 := by
  obtain ⟨j, hj, hn⟩ := lanes_two_pow hty
  have htree := tree_treeNode rm us (fun i => if activeLane p ty.width i then toF32 ty (lane v ty.width i) else 0x80000000)
    (k := 0) (j := j) (hn.trans (by rw [Nat.zero_add])) hj
  rw [hn, Nat.sub_self, Nat.zero_add] at htree
  rw [redLanes, hn, Nat.log2_two_pow]
  exact htree

/-- A simple scalar result of an instruction that takes draws. -/
theorem writeS_finish_draws (s : State) (g : BitVec 32) (d : SReg) (x : Word) (sw : Bool) :
    let t := ((s.modThr fun t => { t with rng := g }).writeS d x).finish sw
    InSequence sw s t ∧ t.thr.rng = g ∧ WritesS s { t with thr := { t.thr with rng := s.thr.rng } } d x :=
  have ⟨hwrites, hseq⟩ := writeS_finish s d x sw
  ⟨hseq, rfl, hwrites⟩

theorem vredsum_float {s : State} {ty : Ty} {pg : PReg} {a : VReg} (h : Present s [.v a, .p pg]) (hty : ty.isInt = false)
    (sw : Bool) (rm : Rm) (d : SReg) : Completes (.vredsum sw ty rm pg d a) s fun t => InSequence sw s t ∧
      t.thr.rng = (drawsOf s rm (1024 / ty.width - 1)).1 ∧
      WritesS s { t with thr := { t.thr with rng := s.thr.rng } } d (BitVec.ofNat 64
        (tree rm 7 (redLanes ty.width (s.thr.getP pg) (s.thr.getV a) (toF32 ty) 0x80000000)
          (drawsOf s rm (1024 / ty.width - 1)).2)) := by
  refine ⟨_, rfl, ?_⟩
  rw [withRegs_present h, if_neg (by rw [hty]; decide), takeDraws_eq]
  exact writeS_finish_draws _ _ _ _ _

/-! ### Prefixes (R135) -/

/-- The running results of a step from lane to lane. -/
def prefixOf (step : Nat → Nat → Nat) (z : Nat) : Nat → Nat
  | 0 => step z 0
  | i + 1 => step (prefixOf step z i) (i + 1)

/-- One step of VSCAN over lanes `x`, with the draws `us`. -/
def scanStep (ty : Ty) (rm : Rm) (sat : Bool) (us : List Nat) (x : Nat → Nat) (acc i : Nat) : Nat :=
  if ty.isInt then narrow ty sat (intOf ty acc + intOf ty (x i))
  else (fmtOf ty).round rm false (us.getD i 0) (addV rm ((fmtOf ty).decode acc) ((fmtOf ty).decode (x i)))

theorem scanFrom_map {α : Type} {step : α → Nat → α → α} {x pre : Nat → α}
    (hstep : ∀ i, pre (i + 1) = step (pre i) (i + 1) (x (i + 1))) (n : Nat) {k : Nat} {acc : α} (hfirst : pre k = step acc k (x k)) :
    scanFrom step acc k ((List.range' k n).map x) = (List.range' k n).map pre := by
  induction n generalizing k acc with
  | zero => rfl
  | succ n ih => rw [List.range'_succ, List.map_cons, scanFrom, ← hfirst, ih (hstep k), List.map_cons]

theorem scanFrom_redLanes {α : Type} {step : α → Nat → α → α} {e acc : α} {pre : Nat → α} {f : Nat → α} {w : Nat} {p : PWord}
    {v : VWord} (hstep : ∀ i, pre (i + 1) = step (pre i) (i + 1) (if activeLane p w (i + 1) then f (lane v w (i + 1)) else e))
    (hfirst : pre 0 = step acc 0 (if activeLane p w 0 then f (lane v w 0) else e)) :
    scanFrom step acc 0 (redLanes w p v f e) = (List.range (1024 / w)).map pre := by
  rw [redLanes, List.range_eq_range']
  exact scanFrom_map (x := fun i => if activeLane p w i then f (lane v w i) else e) hstep _ hfirst

theorem vscan_prefixes {ty : Ty} (rm : Rm) (sat : Bool) (us : List Nat) (p : PWord) (v : VWord) {j : Nat}
    (hj : j < 1024 / ty.width) :
    let z : Nat := if ty.isInt then 0 else (fmtOf ty).sign true
    let x (i : Nat) : Nat := if activeLane p ty.width i then lane v ty.width i else z
    (if ty.isInt then (scanFrom (fun acc _ x => intOf ty (narrow ty sat (acc + x))) 0 0
          (redLanes ty.width p v (intOf ty) 0)).map (ofSigned ty.width)
      else scanFrom (fun acc i x => (fmtOf ty).round rm false (us.getD i 0)
          (addV rm ((fmtOf ty).decode acc) ((fmtOf ty).decode x))) ((fmtOf ty).sign true) 0
        (redLanes ty.width p v id ((fmtOf ty).sign true))).getD j 0 % 2 ^ ty.width =
      prefixOf (scanStep ty rm sat us x) z j % 2 ^ ty.width := by
  intro z x
  by_cases hint : ty.isInt = true
  · have hz : intOf ty z = 0 := by rw [show z = 0 from if_pos hint, intOf_zero]
    have hx (i : Nat) : (if activeLane p ty.width i then intOf ty (lane v ty.width i) else 0) = intOf ty (x i) := by
      rw [apply_ite (intOf ty), hz]
    have hstep (acc i : Nat) : intOf ty (scanStep ty rm sat us x acc i) =
        intOf ty (narrow ty sat (intOf ty acc + intOf ty (x i))) := by
      rw [scanStep, if_pos hint]
    rw [if_pos hint, scanFrom_redLanes (pre := fun i => intOf ty (prefixOf (scanStep ty rm sat us x) z i))
      (fun i => by rw [hx, prefixOf, hstep]) (by rw [hx, prefixOf, hstep, hz]), List.map_map, getD_map_range _ hj]
    exact (congrArg (· % _) (ofSigned_intOf ty _)).trans (Nat.mod_mod _ _)
  · have hz : z = (fmtOf ty).sign true := if_neg hint
    have hstep (acc i : Nat) : scanStep ty rm sat us x acc i =
        (fmtOf ty).round rm false (us.getD i 0) (addV rm ((fmtOf ty).decode acc) ((fmtOf ty).decode (x i))) := if_neg hint
    rw [if_neg hint, scanFrom_redLanes (pre := prefixOf (scanStep ty rm sat us x) z)
      (fun i => by rw [prefixOf, hstep, ← hz]; rfl) (by rw [prefixOf, hstep, ← hz]; rfl), getD_map_range _ hj]

/-! ### The statement -/

/-- Settles O13: each reduction over the lanes that are active, the floating sum by its tree, and the scan by its prefixes. -/
theorem reductionsAndScans : Obligations.ReductionsAndScans := by
  unfold Obligations.ReductionsAndScans
  refine ⟨fun sw ty rm pg d a s h => ?reduce, fun sw ty rm sat pg d a s h => ?scan⟩
  case reduce =>
    intro w n on ints vals
    refine ⟨fun hty => vredsum_int h hty, fun hty => ?max, fun hty => ?min, fun hty => redExtreme_float h hty maxV_negInf rfl,
      fun hty => redExtreme_float h hty minV_posInf rfl, fun hty => ?floatSum⟩
    case max =>
      obtain ⟨-, hall, hmem⟩ := foldl_max_isGreatest ints (minOfTy ty)
      exact (redExtreme_int h hty (minOfTy ty ≤ ·) (fun _ => max_eq_left) (fun _ _ => le_max_of_le_left) le_rfl rfl).imp
        fun t ⟨hseq, hwrites⟩ => ⟨hseq, _, hwrites, hall, hmem⟩
    case min =>
      obtain ⟨-, hall, hmem⟩ := foldl_min_isLeast ints (maxOfTy ty)
      exact (redExtreme_int h hty (· ≤ maxOfTy ty) (fun _ => min_eq_left) (fun _ _ => min_le_of_left_le) le_rfl rfl).imp
        fun t ⟨hseq, hwrites⟩ => ⟨hseq, _, hwrites, hall, hmem⟩
    case floatSum =>
      refine (vredsum_float h hty sw rm d).imp fun t ⟨hseq, hrng, hwrites⟩ => ⟨hseq, hrng, ?_⟩
      by_cases hbpi : ty = .bpi
      · subst hbpi
        have hn : n = 0 := Nat.div_zero 1024
        refine ⟨fun _ _ => 0, hwrites, fun i hi => ?_, fun k hk => ?_⟩
        · rw [hn] at hi; exact absurd hi (Nat.not_lt_zero i)
        · rw [hn, Nat.log2_zero] at hk; exact absurd hk (Nat.not_lt_zero k)
      · rw [tree_redLanes rm hbpi] at hwrites
        refine ⟨_, hwrites, fun _ _ => rfl, fun k _ i _ => ?_⟩
        rw [treeNode, pairSum, getD_drop]
  case scan =>
    intro w us on z x step
    refine (merged_completes h rfl (by rw [takeDraws_eq]) fun j hj => vscan_prefixes rm sat us.2 (s.thr.getP pg)
      (s.thr.getV a) hj).imp fun _ hlanes => ⟨_, hlanes, rfl, fun _ _ => rfl⟩

end Sys2Proof.Machine
end

section
/-! SUPPORT. Reciprocal, root, power and logarithm, and the products of four lanes (R137 to R139). -/

namespace Sys2Proof.Machine

/-! ### The deferred form (R138) -/

theorem special_completes {i : Instr} {s : State} {sw : Bool} {ty : Ty} {rm : Rm} {sat : Bool} {pg : PReg} {d a : VReg}
    {f : Val → Val} (h : Present s ([.v a] ++ govRegs pg (.v d))) (hslot : HasSlot s)
    (hexec : exec i s = .next (special sw ty rm sat pg d a f s)) : Completes i s fun t => ∃ x,
      SameS s.thr t.thr [] ∧ SameV s.thr t.thr [] ∧ SameP s.thr t.thr [] ∧ InSequence sw s t ∧
      t.thr.rng = (drawsOf s rm (1024 / ty.width)).1 ∧ t = { s with seq := s.seq + 1, thr := t.thr } ∧
      t.thr.buf = s.thr.buf ++ [⟨s.seq, s.thr.pc, [.v d x], .plain, true, false, none, false⟩] ∧
      ∀ i < 1024 / ty.width, lane x ty.width i = if activeLane (s.thr.getP pg) ty.width i
        then (fmtOf ty).round rm sat ((drawsOf s rm (1024 / ty.width)).2.getD i 0)
          (f ((fmtOf ty).decode (lane (s.thr.getV a) ty.width i))) % 2 ^ ty.width
        else lane (s.thr.getV d) ty.width i := by
  refine ⟨_, hexec, ?_⟩
  rw [special, withSlot_room hslot, withRegs_present h]
  dsimp only
  rw [takeDraws_eq]
  generalize hx : mergeLanes _ _ _ _ = x
  obtain ⟨⟨hscalars, hvectors, hpredicates, hbuf, -⟩, hworld, hseq⟩ :=
    defer_finish (s.modThr fun t => { t with rng := (drawsOf s rm (1024 / ty.width)).1 }) false [.v d x] true sw
  refine ⟨x, hscalars, hvectors, hpredicates, hseq, rfl, hworld, hbuf, fun j hj => ?_⟩
  rw [← hx, lane_mergeLanes hj]
  rfl

/-! ### Exact results (R137) -/

theorem exp2V_ofInt {k : Int} (hk : k.natAbs < 2 ^ 20) : exp2V (ofInt k) = .fin false 1 k := by
  by_cases hzero : k.natAbs = 0
  · obtain rfl := Int.natAbs_eq_zero.1 hzero
    rfl
  · have hlog : ¬ ((0 : Int) + k.natAbs.log2 ≥ 20) := by
      have hlt := (Nat.log2_lt hzero).2 hk
      omega
    have hsign : (if decide (k < 0) = true then -(k.natAbs : Int) else k.natAbs) = k := by
      split
      next h => have hneg := of_decide_eq_true h; omega
      next h => have hneg := of_decide_eq_false (Bool.eq_false_iff.2 h); omega
    rw [ofInt, exp2V, if_neg hzero, if_neg hlog]
    simp only [hsign]
    exact congrArg (Val.fin false 1) (Int.mul_one k)

theorem log2V_two_pow (k : Nat) (e : Int) : log2V (.fin false (2 ^ k) e) = ofInt (k + e) := by
  rw [log2V, if_neg (Nat.two_pow_pos k).ne', if_neg (by decide), Nat.log2_two_pow, if_pos rfl]

/-! ### The quotient of a reciprocal -/

theorem cut_exact (neg : Bool) (m : Nat) (e : Int) {a b : Nat} (h : a = b) : cut neg m e (a == b) = .fin neg m e :=
  if_pos (beq_iff_eq.2 h)

theorem cut_inexact (neg : Bool) (m : Nat) (e : Int) (t : Nat) {a b : Nat} (h : a ≠ b) :
    cut neg m (e - t) (a == b) = .fin neg (2 * m + 1) (e - (t + 1 : Nat)) := by
  rw [cut, if_neg (by rwa [beq_iff_eq]), Int.natCast_succ, Int.sub_sub]

/-- A floor that was cut, doubled with one bit more, lies between the even numbers around the doubled quotient. -/
theorem div_between {n m : Nat} (hm : 0 < m) (hrem : n % m ≠ 0) :
    (2 * (n / m) + 1 - 1) * m < 2 * n ∧ 2 * n < (2 * (n / m) + 1 + 1) * m := by
  have hsplit := Nat.div_add_mod n m
  have hlt := Nat.mod_lt n hm
  have hbelow : (2 * (n / m) + 1 - 1) * m = 2 * (m * (n / m)) := by rw [Nat.add_sub_cancel]; ring
  have habove : (2 * (n / m) + 1 + 1) * m = 2 * (m * (n / m)) + 2 * m := by ring
  rw [hbelow, habove]
  omega

/-- A power of two far above a number has a quotient by it of more than 62 bits. -/
theorem two_pow_le_div {m t : Nat} (hm : 0 < m) (ht : t = m.log2 + 64) : 2 ^ 62 ≤ 2 ^ t / m := by
  rw [Nat.le_div_iff_mul_le hm]
  calc 2 ^ 62 * m ≤ 2 ^ 62 * 2 ^ (m.log2 + 1) := Nat.mul_le_mul_left _ Nat.lt_log2_self.le
    _ = 2 ^ (m.log2 + 63) := by rw [← Nat.pow_add]; congr 1; omega
    _ ≤ 2 ^ t := Nat.pow_le_pow_right (by decide) (by omega)

theorem rcpV_spec (neg : Bool) {m : Nat} (e : Int) (hm : 0 < m) : ∃ q k : Nat, rcpV (.fin neg m e) = .fin neg q (-e - k) ∧
    2 ^ 62 ≤ q ∧ (q * m = 2 ^ k ∨ q % 2 = 1 ∧ (q - 1) * m < 2 ^ k ∧ 2 ^ k < (q + 1) * m) := by
  rw [rcpV, if_neg hm.ne']
  dsimp only
  generalize ht : m.log2 + 64 = t
  have hbits := two_pow_le_div hm ht.symm
  by_cases hexact : 2 ^ t % m = 0
  · exact ⟨_, t, cut_exact neg _ _ hexact, hbits, .inl (Nat.div_mul_cancel (Nat.dvd_of_mod_eq_zero hexact))⟩
  · refine ⟨_, t + 1, cut_inexact neg _ _ t hexact, by omega, .inr ⟨by omega, ?_⟩⟩
    rw [Nat.pow_succ']
    exact div_between hm hexact

/-! ### The root of a reciprocal root -/

/-- The bits below `n` are found from the top: the root that is sought lies less than 2^(n+1) above `r`. -/
theorem isqrt_spec (x n r : Nat) (hle : r * r ≤ x) (hlt : x < (r + 2 ^ (n + 1)) * (r + 2 ^ (n + 1))) :
    isqrt x n r * isqrt x n r ≤ x ∧ x < (isqrt x n r + 1) * (isqrt x n r + 1) := by
  induction n generalizing r with
  | zero =>
    rw [isqrt]
    split
    next h => exact ⟨h, hlt⟩
    next h => exact ⟨hle, Nat.lt_of_not_le h⟩
  | succ n ih =>
    rw [isqrt]
    split
    next h => exact ih _ h (by rwa [Nat.add_assoc, ← Nat.two_mul, ← Nat.pow_succ'])
    next h => exact ih _ hle (Nat.lt_of_not_le h)

theorem isqrt_half_log2 (x : Nat) : isqrt x (x.log2 / 2 + 1) 0 * isqrt x (x.log2 / 2 + 1) 0 ≤ x ∧
    x < (isqrt x (x.log2 / 2 + 1) 0 + 1) * (isqrt x (x.log2 / 2 + 1) 0 + 1) := by
  refine isqrt_spec x _ 0 (Nat.zero_le x) ?_
  rw [Nat.zero_add, ← Nat.pow_add]
  exact Nat.lt_log2_self.trans_le (Nat.pow_le_pow_right (by decide) (by omega))

/-- The root of the floor of 2^(2t) by `m`, where `m` is far below 2^t: it has more than 62 bits, its square by `m` is not above
2^(2t), and that of the next number is. -/
theorem isqrt_div {m t r : Nat} (hm : 0 < m) (ht : t = m.log2 + 64) (hle : r * r ≤ 2 ^ (2 * t) / m)
    (hlt : 2 ^ (2 * t) / m < (r + 1) * (r + 1)) :
    2 ^ 62 ≤ r ∧ r * r * m ≤ 2 ^ (2 * t) ∧ 2 ^ (2 * t) < (r + 1) * (r + 1) * m := by
  have hbelow : r * r * m ≤ 2 ^ (2 * t) := (Nat.mul_le_mul_right m hle).trans (Nat.div_mul_le_self _ m)
  have habove : 2 ^ (2 * t) < (r + 1) * (r + 1) * m := (Nat.div_lt_iff_lt_mul hm).1 hlt
  refine ⟨?_, hbelow, habove⟩
  by_contra hsmall
  have hroot : (r + 1) * (r + 1) ≤ 2 ^ 62 * 2 ^ 62 := Nat.mul_le_mul (by omega) (by omega)
  have hm' : m ≤ 2 ^ (m.log2 + 1) := Nat.lt_log2_self.le
  have hbound : (r + 1) * (r + 1) * m ≤ 2 ^ (2 * t) :=
    calc (r + 1) * (r + 1) * m ≤ 2 ^ 62 * 2 ^ 62 * 2 ^ (m.log2 + 1) := Nat.mul_le_mul hroot hm'
      _ = 2 ^ (m.log2 + 125) := by rw [← Nat.pow_add, ← Nat.pow_add]; congr 1; omega
      _ ≤ 2 ^ (2 * t) := Nat.pow_le_pow_right (by decide) (by omega)
  omega

theorem rsqV_spec {m m2 : Nat} {e h : Int} (hm : 0 < m) (hm2 : e = 2 * h ∧ m2 = m ∨ e = 2 * h + 1 ∧ m2 = 2 * m) :
    ∃ q k : Nat, rsqV (.fin false m e) = .fin false q (-h - k) ∧ 2 ^ 62 ≤ q ∧
      (q * q * m2 = 2 ^ (2 * k) ∨
        q % 2 = 1 ∧ (q - 1) * (q - 1) * m2 < 2 ^ (2 * k) ∧ 2 ^ (2 * k) < (q + 1) * (q + 1) * m2) := by
  have hmant : (if e % 2 = 0 then m else 2 * m) = m2 := by
    obtain ⟨he, rfl⟩ | ⟨he, rfl⟩ := hm2
    · exact if_pos (by omega)
    · exact if_neg (by omega)
  have hexp : (if e % 2 = 0 then e else e - 1) / 2 = h := by
    obtain ⟨he, -⟩ | ⟨he, -⟩ := hm2 <;> split <;> omega
  have hpos : 0 < m2 := by omega
  rw [rsqV, if_neg hm.ne', if_neg (by decide)]
  simp only [hmant, hexp]
  obtain ⟨hle, hlt⟩ := isqrt_half_log2 (2 ^ (2 * (m2.log2 + 64)) / m2)
  generalize isqrt _ _ 0 = r at *
  generalize ht : m2.log2 + 64 = t at *
  obtain ⟨hbits, hbelow, habove⟩ := isqrt_div hpos ht.symm hle hlt
  have hpow : 2 ^ (2 * (t + 1)) = 4 * 2 ^ (2 * t) := by rw [Nat.mul_succ, Nat.pow_add, Nat.mul_comm]
  have hodd : (2 * r + 1 - 1) * (2 * r + 1 - 1) * m2 = 4 * (r * r * m2) := by rw [Nat.add_sub_cancel]; ring
  have hnext : (2 * r + 1 + 1) * (2 * r + 1 + 1) * m2 = 4 * ((r + 1) * (r + 1) * m2) := by ring
  by_cases hexact : r * r * m2 = 2 ^ (2 * t)
  · exact ⟨r, t, cut_exact false r _ hexact, hbits, .inl hexact⟩
  · refine ⟨2 * r + 1, t + 1, cut_inexact false r _ t hexact, by omega, .inr ⟨by omega, ?_⟩⟩
    rw [hpow, hodd, hnext]
    omega

/-! ### The statement -/

/-- Settles O14: the four functions have one deferred form; their values by the table, where they are exact, and for the two
that are algebraic by the quotient and the root that are cut. -/
theorem specialFunctionsAndDotProducts : Obligations.SpecialFunctionsAndDotProducts := by
  unfold Obligations.SpecialFunctionsAndDotProducts
  refine ⟨?deferred, ⟨fun _ => rfl, fun _ => rfl, rfl, rfl, rfl, fun m e hm => ⟨if_neg hm.ne', if_neg hm.ne'⟩,
    fun k hk => exp2V_ofInt hk, log2V_two_pow, fun neg m e hm => rcpV_spec neg e hm, fun m e h m2 hm hm2 => rsqV_spec hm hm2⟩,
    fun sw ty rm sat pg d a b c s h => ?dot⟩
  case deferred =>
    simp only [List.forall_mem_cons]
    exact ⟨fun _ _ _ _ _ _ _ _ h hslot => special_completes h hslot rfl,
      fun _ _ _ _ _ _ _ _ h hslot => special_completes h hslot rfl,
      fun _ _ _ _ _ _ _ _ h hslot => special_completes h hslot rfl,
      fun _ _ _ _ _ _ _ _ h hslot => special_completes h hslot rfl, List.forall_mem_nil _⟩
  case dot =>
    exact governed_completes h rfl fun j => rfl

end Sys2Proof.Machine
end

section
/-! SUPPORT. Matrix instructions of a thread with an acquire outstanding: the statement on queueing fails there (R146, R234). -/

namespace Sys2Proof.Machine

/-- With an acquire outstanding a head that has its sources waits with a bubble (R234). -/
theorem withRegs_acquiring {s : State} {rs : List Reg} (h : ∀ r ∈ rs, Reg.isFull s.thr r = true) (hacq : s.thr.acquiring = true)
    (k : State → State) : s.withRegs rs k = s.bubble := by
  rw [State.withRegs, empties_nil h]
  exact if_pos hacq

/-- MZERO reads no register, and waits for an outstanding acquire all the same: it queues nothing. -/
theorem exec_mzero_acquiring {s : State} (sw : Bool) (tag : BitVec 6) {mask : BitVec 8} (hvalid : bitOf s.mcfg 0 = true)
    (howned : ∀ n ∈ maskTiles mask.toNat, ((s.core s.gc).grantOf s.thr.vk).hasTile n = true) (hacq : s.thr.acquiring = true) :
    exec (.mzero sw tag mask) s = .next s.bubble := by
  have hfind : (maskTiles mask.toNat).find? (fun n => !((s.core s.gc).grantOf s.thr.vk).hasTile n) = none :=
    List.find?_eq_none.2 fun n hn => by simp [howned n hn]
  show execMzero sw tag mask s = _
  simp only [execMzero, matrixForm, hvalid, hfind, Bool.not_true, Bool.or_self, Bool.false_eq_true, if_false]
  rw [withRegs_acquiring (List.forall_mem_nil _) hacq]

/-- The reset state with the thread's core granted to its VD and configured for BPI4 by BPI4, M = N = 8 and K = 32, where an
acquiring load of the thread into s1 is outstanding. -/
def acquireOutstanding : State :=
  { State.reset with
    thr := { State.reset.thr with buf := [⟨0, 0, [.s 1 0], .plain, false, false, none, true⟩] },
    cores := [(State.reset.gc, { Core.blank with
      mparts := [(State.reset.thr.vk, ⟨0x14500001, 0x14500001⟩)], grants := [(State.reset.thr.vk, ⟨0, 0, 0xFF, 0xF⟩)] })] }

/-- Refutes O32: in a state with an acquire outstanding an MZERO that the configuration and the grant allow, with room in the
queue and the lock table, takes a bubble and queues nothing. The clauses that ask for present sources exclude such a state;
those of MZERO and of the products, which read no register, do not (R234, log entry 65). -/
theorem not_matrixInstructionsQueue : ¬ Obligations.MatrixInstructionsQueue := by
  unfold Obligations.MatrixInstructionsQueue
  intro h
  obtain ⟨-, -, -, hconfigured⟩ :=
    h false 0 (.s 0) (.s 0) false false false false false false 0 0 0 0xFF .rne acquireOutstanding
  obtain ⟨hmzero, -⟩ := hconfigured (by decide)
  obtain ⟨t, ht, -, -, -, -, -, e, hmq, -⟩ := hmzero (by decide) (by decide)
  rw [exec_mzero_acquiring false 0 (by decide) (by decide) (by decide)] at ht
  obtain rfl := Host.Outcome.next.inj ht
  have hsame : (acquireOutstanding.bubble.core acquireOutstanding.gc).mq =
      (acquireOutstanding.core acquireOutstanding.gc).mq := rfl
  exact List.cons_ne_nil e [] (List.self_eq_append_right.1 (hsame.symm.trans hmq))

end Sys2Proof.Machine
end

section
/-! SUPPORT. Cores by their numbers, the entries of a matrix queue, and changes that leave every core as it is (R146, R409). -/

namespace Sys2Proof.Machine

/-! ### One core and one entry -/

theorem modCore_core (s : State) (gc k : Nat) (f : Core → Core) :
    (s.modCore gc f).core k = if k = gc then f (s.core gc) else s.core k := tblGet_put ..

@[simp] theorem modCore_core_same (s : State) (gc : Nat) (f : Core → Core) : (s.modCore gc f).core gc = f (s.core gc) := by
  rw [modCore_core, if_pos rfl]

theorem modCore_core_other (s : State) {gc k : Nat} (h : k ≠ gc) (f : Core → Core) : (s.modCore gc f).core k = s.core k := by
  rw [modCore_core, if_neg h]

/-- An entry of a queue stands there as changed once the entries under its number have been changed. -/
theorem modEntry_mem {s : State} {gc : Nat} {e : MEntry} (h : e ∈ (s.core gc).mq) (f : MEntry → MEntry) :
    f e ∈ ((s.modEntry gc e.id f).core gc).mq := by
  rw [State.modEntry, modCore_core_same]
  exact List.mem_map.2 ⟨e, h, if_pos rfl⟩

/-! ### Walks of engines change routers alone -/

/-- Only routers have changed. -/
def OnlyRouters (s t : State) : Prop := t = { s with routers := t.routers }

theorem OnlyRouters.refl (s : State) : OnlyRouters s s := rfl

theorem OnlyRouters.trans {s t u : State} (h : OnlyRouters s t) (h' : OnlyRouters t u) : OnlyRouters s u := by
  rw [OnlyRouters] at h h' ⊢; rw [h', h]

section
variable {s t : State} (h : OnlyRouters s t)
include h

theorem OnlyRouters.mem : t.mem = s.mem := by rw [OnlyRouters] at h; rw [h]
theorem OnlyRouters.thr : t.thr = s.thr := by rw [OnlyRouters] at h; rw [h]
theorem OnlyRouters.threads : t.threads = s.threads := by rw [OnlyRouters] at h; rw [h]
theorem OnlyRouters.core (gc : Nat) : t.core gc = s.core gc := by rw [OnlyRouters] at h; rw [h]; rfl

end

/-- A fold of steps that change routers alone. -/
theorem foldl_onlyRouters {α : Type} {f : State → α → State} (hf : ∀ s x, OnlyRouters s (f s x)) (s : State) (xs : List α) :
    OnlyRouters s (xs.foldl f s) :=
  List.foldlRecOn (motive := OnlyRouters s) _ _ (.refl s) fun t ht x _ => ht.trans (hf t x)

theorem engFillRanges_onlyRouters (s : State) (gc vd : Nat) (rs : List (Nat × Nat)) :
    OnlyRouters s (engFillRanges s gc vd rs) := by
  refine foldl_onlyRouters (fun t va => ?_) s _
  split
  · split <;> rfl
  · rfl

theorem forgetWalks_onlyRouters (s : State) (op gc : Nat) : OnlyRouters s (s.forgetWalks op gc) := by
  rw [OnlyRouters, State.forgetWalks, State.forgetAt]
  split <;> rfl

/-- With no VD in host-assisted mode no walk holds an operation: the caches fill, the operation goes on, and its walks are
forgotten (R409, R410). -/
theorem withWalks_unheld {s : State} (h : ∀ k, (s.vd k).rmode.getLsbD 0 = false) (op : Nat)
    (rs : List (Nat × Nat × Bool × Bool × Nat × Nat)) (k : State → State) :
    ∃ u, OnlyRouters s u ∧ OnlyRouters (k u) (s.withWalks op rs k) := by
  rw [State.withWalks]
  dsimp only
  split
  · refine ⟨_, foldl_onlyRouters (fun t x => ?_) s rs, foldl_onlyRouters (fun t x => ?_) _ rs⟩
    · exact engFillRanges_onlyRouters t ..
    · exact forgetWalks_onlyRouters t op x.1
  · next hheld =>
    refine absurd (List.flatMap_eq_nil_iff.2 fun x _ => List.filterMap_eq_nil_iff.2 fun y _ => if_neg ?_) hheld
    simp only [h, Bool.false_and, Bool.false_eq_true, not_false_eq_true]

end Sys2Proof.Machine
end

section
/-! SUPPORT. The start of a matrix entry (R146, R149). -/

namespace Sys2Proof.Machine

/-- The change of an entry that starts: it keeps its number and runs. -/
def Starts (f : MEntry → MEntry) : Prop := ∀ m, (f m).id = m.id ∧ (f m).running = true

/-- A step that starts the entries under a number of a core, and changes no other part of the state but routers. -/
def StartsEntry (s t : State) (gc id : Nat) : Prop :=
  ∃ u f, OnlyRouters s u ∧ OnlyRouters (u.modEntry gc id f) t ∧ Starts f

theorem StartsEntry.runs {s t : State} {gc : Nat} {e : MEntry} (h : StartsEntry s t gc e.id) (he : e ∈ (s.core gc).mq) :
    t.mem = s.mem ∧ t.thr = s.thr ∧ ∃ y ∈ (t.core gc).mq, y.id = e.id ∧ y.running = true := by
  obtain ⟨u, f, hu, ht, hf⟩ := h
  refine ⟨ht.mem.trans hu.mem, ht.thr.trans hu.thr, f e, ?_, hf e⟩
  rw [ht.core]
  exact modEntry_mem (by rwa [hu.core]) f

theorem withWalks_startsEntry {s : State} (h : ∀ k, (s.vd k).rmode.getLsbD 0 = false) {gc id : Nat} {k : State → State}
    (hk : ∀ u, ∃ f, k u = u.modEntry gc id f ∧ Starts f) (rs : List (Nat × Nat × Bool × Bool × Nat × Nat)) :
    StartsEntry s (s.withWalks id rs k) gc id := by
  obtain ⟨u, hu, ht⟩ := withWalks_unheld h id rs k
  obtain ⟨f, hku, hf⟩ := hk u
  exact ⟨u, f, hu, hku ▸ ht, hf⟩

/-- An entry that nothing holds back starts, on its work or on the status of a failed tile (R146, R158, R163). -/
theorem matrixEntryStart_starts {s : State} {gc : Nat} {e : MEntry}
    (hfind : (s.core gc).mq.find? (fun y => y.id = e.id && !y.running && !y.op.isDelivery) = some e)
    (hheld : heldBack s gc e = false) (hfree : ∀ y ∈ (s.core gc).mq, y.running = true → y.units = 0)
    (hmay : mayStart s gc e.vk = true) (hmode : ∀ k, (s.vd k).rmode.getLsbD 0 = false) :
    Completes (.matrixEntryStart gc e.id) s fun t => StartsEntry s t gc e.id := by
  have hany : ((s.core gc).mq.any fun m => m.vk == e.vk && m.running && m.units != 0) = false := by
    refine List.any_eq_false.2 fun y hy => ?_
    cases hrun : y.running
    · simp
    · simp [hfree y hy hrun]
  show ∃ t, execMatrixEntryStart gc e.id s = .next t ∧ _
  rw [execMatrixEntryStart]
  simp only [hfind, hheld, hany, hmay, Bool.and_false, Bool.or_false, Bool.not_true, Bool.false_eq_true, if_false]
  refine ⟨_, rfl, ?_⟩
  cases blockedBy (s.core gc) e.op with
  | some st => exact ⟨s, _, .refl s, .refl _, fun _ => ⟨rfl, rfl⟩⟩
  | none =>
    refine withWalks_startsEntry hmode (fun u => ?_) _
    split
    · exact ⟨_, rfl, fun _ => ⟨rfl, rfl⟩⟩
    · exact ⟨_, rfl, fun _ => ⟨rfl, rfl⟩⟩

end Sys2Proof.Machine
end

section
/-! SUPPORT. Tags of a core (R32, R261, R276). -/

namespace Sys2Proof.Machine

/-- Only tags have changed among what the cores hold, and no byte of memory. -/
def OnlyTags (s t : State) : Prop := t.mem = s.mem ∧ ∀ gc, t.core gc = { s.core gc with tags := (t.core gc).tags }

theorem OnlyTags.refl (s : State) : OnlyTags s s := ⟨rfl, fun _ => rfl⟩

theorem OnlyTags.trans {s t u : State} (h : OnlyTags s t) (h' : OnlyTags t u) : OnlyTags s u := by
  obtain ⟨hmem, hcore⟩ := h
  obtain ⟨hmem', hcore'⟩ := h'
  exact ⟨hmem'.trans hmem, fun gc => (hcore' gc).trans (by rw [hcore gc])⟩

theorem modThread_cores (s : State) (id : Nat) (f : Thread → Thread) : (s.modThread id f).cores = s.cores := by
  rw [State.modThread, State.setThread]; split <;> rfl

theorem modTags_onlyTags (s : State) (gc vk : Nat) (f : Tags → Tags) : OnlyTags s (s.modTags gc vk f) := by
  refine ⟨rfl, fun k => ?_⟩
  rw [State.modTags, modCore_core]
  split
  · next h => subst h; rfl
  · rfl

theorem evalTagWait_onlyTags (gc vk : Nat) (s : State) (id : Nat) : OnlyTags s (evalTagWait gc vk s id) := by
  rw [evalTagWait]
  split
  · split
    · exact .refl s
    · next r clr _ =>
      refine (modTags_onlyTags s gc vk fun g => { g with bits := g.bits &&& ~~~clr }).trans ⟨modThread_mem .., fun k => ?_⟩
      rw [State.core, modThread_cores]; rfl
  · exact .refl s

/-- Setting a tag, with the waits that this ends, changes nothing of a core but tags (R276). -/
theorem setTag_onlyTags (s : State) (gc vk n st : Nat) : OnlyTags s (s.setTag gc vk n st) :=
  List.foldlRecOn (motive := OnlyTags s) _ _ (modTags_onlyTags ..) fun _ ht id _ => ht.trans (evalTagWait_onlyTags gc vk _ id)

/-- Who waits on a bitmap depends on threads alone. -/
theorem tagWaiters_congr {s t : State} (hx : t.thr = s.thr) (ht : t.threads = s.threads) : tagWaiters t = tagWaiters s := by
  funext gc vk; rw [tagWaiters, tagWaiters, thread_congr hx ht]

section
variable {s : State} {gc vk : Nat} (h : tagWaiters s gc vk = []) (n st : Nat)
include h

/-- Where no thread waits, setting a tag changes the bitmap alone (R261). -/
theorem setTag_unwatched : ((s.setTag gc vk n st).core gc).tagsOf vk =
    { bits := ((s.core gc).tagsOf vk).bits ||| (1#64 <<< (n % 64)),
      stat := ((s.core gc).tagsOf vk).stat.setIfInBounds (n % 64) (BitVec.ofNat 4 st) } := by
  have hw : ∀ f, tagsChanged (s.modTags gc vk f) gc vk = s.modTags gc vk f := fun f => by
    rw [tagsChanged, tagWaiters_congr (s := s) (t := s.modTags gc vk f) rfl rfl, h, List.foldl_nil]
  rw [State.setTag, hw, State.modTags, modCore_core_same]
  exact (tblGet_put ..).trans (if_pos rfl)

theorem setTag_bit : (((s.setTag gc vk n st).core gc).tagsOf vk).bits.getLsbD (n % 64) = true := by
  rw [setTag_unwatched h, bit_or_shift _ _ _ (Nat.mod_lt n (by decide))]
  simp

theorem setTag_stat : (((s.setTag gc vk n st).core gc).tagsOf vk).stat[n % 64]? = some (BitVec.ofNat 4 st) := by
  rw [setTag_unwatched h]
  exact Vector.getElem?_setIfInBounds_self_of_lt (Nat.mod_lt n (by decide))

end

end Sys2Proof.Machine
end

section
/-! SUPPORT. Accumulators and operand buffers, and what a matrix entry leaves in them (R152, R153, R157 to R166). -/

namespace Sys2Proof.Machine

/-! ### One tile -/

theorem setAcc_acc (c : Core) {n k : Nat} (hk : k < 8) (x : Vector (BitVec 32) 1024) (fail : Option Nat) :
    (c.setAcc n x fail).acc k = if k = n then x else c.acc k := by
  rw [Core.acc, Core.setAcc, Vector.getElem?_setIfInBounds]
  by_cases h : n = k
  · subst h; simp [hk]
  · rw [if_neg h, if_neg (Ne.symm h)]; rfl

theorem setBuf_buf (c : Core) {n : Nat} (hlo : 8 ≤ n) (hhi : n < 12) (x : OpBuf) : (c.setBuf n x).buf n = x := by
  have hn : n - 8 < 4 := by omega
  rw [Core.buf, Core.setBuf, Vector.getElem?_setIfInBounds_self_of_lt hn]
  rfl

theorem bufTile_range (b buf : Bool) : 8 ≤ bufTile b buf ∧ bufTile b buf < 12 := by
  cases b <;> cases buf <;> decide

/-! ### Clearing by a mask (R153) -/

theorem mem_maskTiles (mask : BitVec 8) {k : Nat} (hk : k < 8) : k ∈ maskTiles mask.toNat ↔ mask.getLsbD k = true := by
  rw [maskTiles, List.mem_filter, List.mem_range, BitVec.getLsbD, Nat.testBit_eq_decide_div_mod_eq]
  simp [hk]

theorem foldl_setAcc_acc (x : Vector (BitVec 32) 1024) (ns : List Nat) (c : Core) {k : Nat} (hk : k < 8) :
    (ns.foldl (fun c n => c.setAcc n x none) c).acc k = if k ∈ ns then x else c.acc k := by
  induction ns generalizing c with
  | nil => simp
  | cons n ns ih =>
    rw [List.foldl_cons, ih, setAcc_acc c hk]
    by_cases h : k = n <;> simp [h]

/-! ### The effect of each operation -/

/-- Only tiles, their failed states and the configurations have changed. -/
def OnlyTiles (c d : Core) : Prop := d = { c with mparts := d.mparts, accs := d.accs, accFail := d.accFail, bufs := d.bufs }

theorem OnlyTiles.refl (c : Core) : OnlyTiles c c := rfl

theorem OnlyTiles.trans {c d e : Core} (h : OnlyTiles c d) (h' : OnlyTiles d e) : OnlyTiles c e := by
  rw [OnlyTiles] at h h' ⊢; rw [h', h]

theorem OnlyTiles.locks {c d : Core} (h : OnlyTiles c d) : d.locks = c.locks := by rw [OnlyTiles] at h; rw [h]

theorem setAcc_onlyTiles (c : Core) (n : Nat) (x : Vector (BitVec 32) 1024) (fail : Option Nat) :
    OnlyTiles c (c.setAcc n x fail) := rfl
theorem setBuf_onlyTiles (c : Core) (n : Nat) (x : OpBuf) : OnlyTiles c (c.setBuf n x) := rfl
theorem mparts_onlyTiles (c : Core) (m : Tbl MPart) : OnlyTiles c { c with mparts := m } := rfl

theorem foldl_onlyTiles {f : Core → Nat → Core} (hf : ∀ c n, OnlyTiles c (f c n)) (c : Core) (ns : List Nat) :
    OnlyTiles c (ns.foldl f c) :=
  List.foldlRecOn (motive := OnlyTiles c) _ _ (.refl c) fun d hd n _ => hd.trans (hf d n)

theorem applyEntry_onlyTiles (c : Core) (e : MEntry) : OnlyTiles c (applyEntry c e) := by
  rw [applyEntry]
  generalize (if e.status = stOk then none else some e.status) = fail
  split
  case h_1 =>
    refine .trans ?_ (mparts_onlyTiles _ _)
    refine (foldl_onlyTiles (fun d n => ?_) c _).trans (foldl_onlyTiles (fun d n => ?_) _ _)
    · split
      · exact setAcc_onlyTiles ..
      · exact .refl d
    · split
      · exact setBuf_onlyTiles ..
      · exact .refl d
  case h_2 => exact foldl_onlyTiles (fun d n => setAcc_onlyTiles ..) c _
  case h_4 => split <;> exact setAcc_onlyTiles ..
  case h_5 =>
    split
    · exact .refl c
    · exact setAcc_onlyTiles ..
  case h_6 =>
    split
    · exact .refl c
    · exact setAcc_onlyTiles ..
  all_goals rfl

section
variable {c : Core} {e : MEntry}

theorem applyEntry_mzero {mask : BitVec 8} (h : e.op = .mzero mask) {k : Nat} (hk : k < 8) :
    (applyEntry c e).acc k = if mask.getLsbD k then Vector.replicate 1024 0 else c.acc k := by
  rw [applyEntry, h]
  refine (foldl_setAcc_acc _ _ c hk).trans ?_
  simp only [mem_maskTiles mask hk]

theorem applyEntry_mma {path acc : Nat} {ab bb : Bool} (h : e.op = .mma path acc ab bb) (hst : e.status = 0) :
    applyEntry c e =
      c.setAcc acc (product path e.cfg (c.buf (bufTile false ab)) (c.buf (bufTile true bb)) (c.acc acc)) none := by
  rw [applyEntry, h, hst]; rfl

theorem applyEntry_mma_acc {path acc : Nat} {ab bb : Bool} (h : e.op = .mma path acc ab bb) (hst : e.status = 0)
    (hacc : acc < 8) : (applyEntry c e).acc acc =
      product path e.cfg (c.buf (bufTile false ab)) (c.buf (bufTile true bb)) (c.acc acc) := by
  rw [applyEntry_mma h hst, setAcc_acc _ hacc, if_pos rfl]

theorem applyEntry_mma_failed {path acc : Nat} {ab bb : Bool} (h : e.op = .mma path acc ab bb) (hst : e.status ≠ 0) :
    applyEntry c e = c := by
  rw [applyEntry, h]
  simp [stOk, hst]

theorem applyEntry_mld {b mc buf tr : Bool} {a sp : Word} {g pe grp : Nat} (h : e.op = .mld b a sp mc buf tr g pe grp) :
    applyEntry c e =
      c.setBuf (bufTile b buf) (if e.status = 0 then loadedBuf e.cfg b a tr g e.got else failedBuf e.status) := by
  rw [applyEntry, h]
  by_cases hst : e.status = 0 <;> simp [stOk, hst]

theorem applyEntry_deliver {n gc id : Nat} {x : OpBuf} (h : e.op = .deliver n x gc id) : applyEntry c e = c.setBuf n x := by
  rw [applyEntry, h]

end

/-- An element of a product: its blocks along K in order (R160 to R162). -/
theorem product_getElem (path : Nat) (cfg : Word) (a b : OpBuf) (acc : Vector (BitVec 32) 1024) (i : Fin 1024) :
    (product path cfg a b acc)[i] = if i.val / 32 < cfgM cfg ∧ i.val % 32 < cfgN cfg then
      (List.range (cfgK cfg / 32)).foldl (fun y k => let p := a.block (i.val / 32) k
        let q := b.block (i.val % 32) k
        if path = 0 then mmapBlock (cfgAccm cfg) p q y else floatBlock path p q y) acc[i]
      else acc[i] := by
  refine (Vector.getElem_ofFn i.isLt).trans ?_
  simp only [Bool.and_eq_true, decide_eq_true_eq]
  rfl

end Sys2Proof.Machine
end

section
/-! SUPPORT. The completion of a matrix entry (R146, R148, R262). -/

namespace Sys2Proof.Machine

/-- A completed entry leaves no byte undefined: it has none to leave, or a status under which what it wrote stands (R262). -/
abbrev LeavesDefined (e : MEntry) : Prop := e.dsts = [] ∨ e.status ≠ 1 ∧ e.status ≠ 3

/-- A core after the completion of an entry, but for the tag: its effect, without it and its locks (R148). -/
def settledCore (c : Core) (e : MEntry) : Core :=
  { applyEntry c e with mq := c.mq.filter (fun y => y.id != e.id), locks := c.locks.filter (fun y => y.owner != e.id) }

theorem dropUnits_core (s : State) (gone : Nat → Offer → Bool) (gc : Nat) : (s.dropUnits gone).core gc = s.core gc := rfl

theorem scramble_nil (s : State) : s.scramble [] = s := rfl

/-- A completion applies the entry's effect at its core, and then sets its tag. -/
theorem finishEntry_tags (s : State) (gc : Nat) {e : MEntry} (hd : LeavesDefined e) :
    ∃ u : State, finishEntry s gc e = u.setTag gc e.vk e.tag e.tagStatus ∧ u.mem = s.mem ∧ u.thr = s.thr ∧
      u.threads = s.threads ∧ u.core gc = settledCore (s.core gc) e ∧ ∀ k, k ≠ gc → u.core k = s.core k := by
  have hkeep (t : State) : (if e.status = stXlate || e.status = stCancelled then t.scramble e.dsts else t) = t := by
    obtain h | ⟨h1, h3⟩ := hd
    · rw [h, scramble_nil, ite_self]
    · simp [stXlate, stCancelled, h1, h3]
  generalize hv : (s.modCore gc fun c => { applyEntry c e with mq := c.mq.filter fun m => m.id != e.id }) = v
  have hw := forgetWalks_onlyRouters (v.dropUnits fun arb u => arb == arbKey 0 gc && u.op == e.id) e.id gc
  refine ⟨State.unlock _ gc e.id, ?_, hw.mem.trans ?_, hw.thr.trans ?_, hw.threads.trans ?_, ?_, fun k hk => ?_⟩
  case refine_1 =>
    rw [finishEntry]
    dsimp only
    rw [hkeep, hv]
  all_goals subst hv
  · rfl
  · rfl
  · rfl
  · rw [State.unlock, modCore_core_same, hw.core, dropUnits_core, modCore_core_same, settledCore,
      ← (applyEntry_onlyTiles (s.core gc) e).locks]
  · rw [State.unlock, modCore_core_other _ hk, hw.core, dropUnits_core, modCore_core_other _ hk]

section
variable {s : State} {gc : Nat} {e : MEntry} (hd : LeavesDefined e)
include hd

theorem finishEntry_mem : (finishEntry s gc e).mem = s.mem := by
  obtain ⟨u, hu, hmem, -⟩ := finishEntry_tags s gc hd
  obtain ⟨htags, -⟩ := setTag_onlyTags u gc e.vk e.tag e.tagStatus
  rw [hu, htags, hmem]

/-- The entry's core is settled but for its tags. -/
theorem finishEntry_core : (finishEntry s gc e).core gc =
    { settledCore (s.core gc) e with tags := ((finishEntry s gc e).core gc).tags } := by
  obtain ⟨u, hu, -, -, -, hcore, -⟩ := finishEntry_tags s gc hd
  obtain ⟨-, htags⟩ := setTag_onlyTags u gc e.vk e.tag e.tagStatus
  rw [hu, ← hcore]
  exact htags gc

theorem finishEntry_core_other {k : Nat} (hk : k ≠ gc) : (finishEntry s gc e).core k =
    { s.core k with tags := ((finishEntry s gc e).core k).tags } := by
  obtain ⟨u, hu, -, -, -, -, hothers⟩ := finishEntry_tags s gc hd
  obtain ⟨-, htags⟩ := setTag_onlyTags u gc e.vk e.tag e.tagStatus
  rw [hu, ← hothers k hk]
  exact htags k

theorem finishEntry_mq : ((finishEntry s gc e).core gc).mq = (s.core gc).mq.filter (fun y => y.id != e.id) := by
  rw [finishEntry_core hd]; rfl

theorem finishEntry_locks : ((finishEntry s gc e).core gc).locks = (s.core gc).locks.filter (fun y => y.owner != e.id) := by
  rw [finishEntry_core hd]; rfl

theorem finishEntry_accs : ((finishEntry s gc e).core gc).accs = (applyEntry (s.core gc) e).accs := by
  rw [finishEntry_core hd]; rfl

theorem finishEntry_bufs : ((finishEntry s gc e).core gc).bufs = (applyEntry (s.core gc) e).bufs := by
  rw [finishEntry_core hd]; rfl

theorem finishEntry_acc (k : Nat) : ((finishEntry s gc e).core gc).acc k = (applyEntry (s.core gc) e).acc k := by
  rw [Core.acc, Core.acc, finishEntry_accs hd]

theorem finishEntry_buf (k : Nat) : ((finishEntry s gc e).core gc).buf k = (applyEntry (s.core gc) e).buf k := by
  rw [Core.buf, Core.buf, finishEntry_bufs hd]

/-- Where no thread waits for a tag of the VD, the tag is set with the entry's status (R148). -/
theorem finishEntry_tag (hw : tagWaiters s gc e.vk = []) :
    (((finishEntry s gc e).core gc).tagsOf e.vk).bits.getLsbD (e.tag % 64) = true ∧
      (((finishEntry s gc e).core gc).tagsOf e.vk).stat[e.tag % 64]? = some (BitVec.ofNat 4 e.tagStatus) := by
  obtain ⟨u, hu, -, hthr, hthreads, -, -⟩ := finishEntry_tags s gc hd
  have hw' : tagWaiters u gc e.vk = [] := by rw [tagWaiters_congr hthr hthreads, hw]
  rw [hu]
  exact ⟨setTag_bit hw' .., setTag_stat hw' ..⟩

end

/-- An entry with nothing left to do completes (R146, R148). -/
theorem exec_matrixEntryComplete {s : State} {gc : Nat} {e : MEntry}
    (hfind : (s.core gc).mq.find? (fun y => y.id = e.id && y.running && !y.op.isDelivery) = some e)
    (htodo : e.todo = []) (hunits : e.units = 0) (hdests : e.dests = []) :
    exec (.matrixEntryComplete gc e.id) s = .next (finishEntry s gc e) := by
  show execMatrixEntryComplete gc e.id s = _
  simp [execMatrixEntryComplete, hfind, htodo, hunits, hdests]

end Sys2Proof.Machine
end

section
/-! SUPPORT. The deliveries of a multicast (R159). -/

namespace Sys2Proof.Machine

/-- An entry whose delivery to a recipient is over, with a status: the first other than OK is kept (R159). -/
def MEntry.delivered (dest st : Nat) (e : MEntry) : MEntry :=
  { e with dests := e.dests.filter (fun d => d != dest), refused := if e.refused = 0 then st else e.refused }

theorem delivery_none {c : Core} (h : ∀ y ∈ c.mq, y.op.isDelivery = false) (gc id : Nat) : c.delivery gc id = none := by
  rw [Core.delivery, List.find?_eq_none]
  intro y hy
  have hno := h y hy
  split
  · next hop => rw [hop] at hno; cases hno
  · exact Bool.false_ne_true

section
variable {c : Core} {m : MEntry} (hmq : c.mq = [m])
include hmq

theorem delivery_single {n gc id : Nat} {x : OpBuf} (hop : m.op = .deliver n x gc id) : c.delivery gc id = some m := by
  simp [Core.delivery, hmq, hop]

/-- A delivery that stands alone in its queue is written at once. -/
theorem deliveryTurn_single : deliveryTurn c m = true := by
  simp [deliveryTurn, hmq]

end

section
variable {s : State} {gc dest n : Nat} {e m : MEntry} {x : OpBuf}
  (hfind : (s.core gc).mq.find? (fun y => y.id = e.id && y.running) = some e) (htodo : e.todo = [])
  (hdest : e.dests.contains dest = true) (hbuf : deliveredBuf e = some (n, x))
include hfind htodo hdest hbuf

/-- A recipient without the tile takes nothing, and the multicast keeps CANCELLED of it. -/
theorem exec_multicastDelivery_refused (htile : ((s.core dest).grantOf e.vk).hasTile n = false) :
    exec (.multicastDelivery gc e.id dest) s = .next (s.modEntry gc e.id (MEntry.delivered dest 1)) := by
  show execMulticastDelivery gc e.id dest s = _
  simp only [execMulticastDelivery, hfind, htodo, hdest, hbuf, htile, List.isEmpty_nil, Bool.not_true, Bool.not_false,
    Bool.or_false, Bool.false_eq_true, if_false, if_true]
  rfl

/-- A recipient in which no delivery stands takes this one into its queue. -/
theorem exec_multicastDelivery_queued (htile : ((s.core dest).grantOf e.vk).hasTile n = true)
    (hnone : ∀ y ∈ (s.core dest).mq, y.op.isDelivery = false) :
    ∃ y : MEntry, exec (.multicastDelivery gc e.id dest) s =
      .next (s.bump.modCore dest fun c => { c with mq := c.mq ++ [y] }) ∧ y.op = .deliver n x gc e.id := by
  have hany : ((s.core dest).mq.any fun m => m.op.isDelivery) = false :=
    List.any_eq_false.2 fun y hy => by simp [hnone y hy]
  show ∃ y : MEntry, execMulticastDelivery gc e.id dest s = _ ∧ _
  simp only [execMulticastDelivery, hfind, htodo, hdest, hbuf, htile, delivery_none hnone, hany, List.isEmpty_nil,
    Bool.not_true, Bool.or_false, Bool.false_eq_true, if_false]
  exact ⟨_, rfl, rfl⟩

/-- A delivery whose turn has come is written, and the multicast keeps its status. -/
theorem exec_multicastDelivery_written (htile : ((s.core dest).grantOf e.vk).hasTile n = true)
    (hsome : (s.core dest).delivery gc e.id = some m) (hturn : deliveryTurn (s.core dest) m = true) :
    exec (.multicastDelivery gc e.id dest) s =
      .next ((finishEntry s dest m).modEntry gc e.id (MEntry.delivered dest e.status)) := by
  show execMulticastDelivery gc e.id dest s = _
  simp only [execMulticastDelivery, hfind, htodo, hdest, hbuf, htile, hsome, hturn, List.isEmpty_nil, Bool.not_true,
    Bool.or_false, Bool.false_eq_true, if_false, if_true]
  rfl

end

end Sys2Proof.Machine
end

section
/-! SUPPORT. Matrix entries from their start to the delivery of a multicast: the statement (R146, R148, R152, R158 to R162). -/

namespace Sys2Proof.Machine

/-! ### A recipient's core and the issuer's after a delivery (R159) -/

section
variable {s : State} {gc dest n : Nat} {e m : MEntry} {x : OpBuf} (he : e ∈ (s.core gc).mq) (hne : dest ≠ gc)
include he hne

/-- A recipient that takes nothing is as it was, and the multicast waits for it no longer. -/
theorem delivered_refused : let t := s.modEntry gc e.id (MEntry.delivered dest 1)
    t.mem = s.mem ∧ t.core dest = s.core dest ∧ ∃ y ∈ (t.core gc).mq, y.id = e.id ∧
      y.dests = e.dests.filter (fun d => d != dest) ∧ y.status = e.status ∧ y.refused = if e.refused = 0 then 1 else e.refused :=
  ⟨rfl, modCore_core_other s hne _, _, modEntry_mem he _, rfl, rfl, rfl, rfl⟩

/-- A delivery that is written where it stands alone fills its buffer, and the multicast waits for it no longer. -/
theorem delivered_written (hmq : (s.core dest).mq = [m]) (hop : m.op = .deliver n x gc e.id) (hdsts : m.dsts = [])
    (hlo : 8 ≤ n) (hhi : n < 12) (st : Nat) : let t := (finishEntry s dest m).modEntry gc e.id (MEntry.delivered dest st)
    (t.core dest).mq = [] ∧ (t.core dest).buf n = x ∧ t.mem = s.mem ∧
      ∃ y ∈ (t.core gc).mq, y.id = e.id ∧ y.dests = e.dests.filter (fun d => d != dest) := by
  have hd : LeavesDefined m := .inl hdsts
  have hkept : e ∈ ((finishEntry s dest m).core gc).mq := by rw [finishEntry_core_other hd (Ne.symm hne)]; exact he
  intro t
  have ht : t.core dest = (finishEntry s dest m).core dest := modCore_core_other _ hne _
  have htmem : t.mem = (finishEntry s dest m).mem := State.modCore_mem ..
  rw [ht, htmem]
  refine ⟨?_, ?_, finishEntry_mem hd, _, modEntry_mem hkept _, rfl, rfl⟩
  · rw [finishEntry_mq hd, hmq]
    simp
  · rw [finishEntry_buf hd, applyEntry_deliver hop, setBuf_buf _ hlo hhi]

end

/-! ### The statement -/

/-- Settles O33: an entry starts since its change keeps its number and makes it run; a completion settles its core, whose tiles
are as its operation leaves them, and then sets the tag; a delivery by what its recipient has granted and queued. -/
theorem matrixEntriesStartAndComplete : Obligations.MatrixEntriesStartAndComplete := by
  unfold Obligations.MatrixEntriesStartAndComplete
  intro gc dest n e m x s c
  refine ⟨fun hfind hheld hfree hmay hmode => ?start, fun hfind htodo hunits hdests hd hwait => ?complete,
    fun hfind _ htodo hdest hbuf hne => ⟨fun htile => ?refused, fun htile hnone => ?queued,
      fun htile hmq hop hdsts hhi hlo => ?written⟩⟩
  case start =>
    obtain ⟨t, ht, hstarts⟩ := matrixEntryStart_starts hfind hheld hfree hmay hmode
    exact ⟨t, ht, hstarts.runs (List.mem_of_find?_eq_some hfind)⟩
  case complete =>
    obtain ⟨hbit, hstat⟩ := finishEntry_tag hd hwait
    refine ⟨_, exec_matrixEntryComplete hfind htodo hunits hdests, finishEntry_mem hd, finishEntry_mq hd, finishEntry_locks hd,
      hbit, hstat, ?mzero, ?mma, ?failed, ?mld⟩
    case mzero => exact fun mask hop k hk => (finishEntry_acc hd k).trans (applyEntry_mzero hop hk)
    case mma =>
      intro path acc ab bb hop hst hacc
      have hacc' := (finishEntry_acc (s := s) (gc := gc) hd acc).trans (applyEntry_mma_acc hop hst hacc)
      exact ⟨(finishEntry_bufs hd).trans (by rw [applyEntry_mma hop hst]; rfl),
        fun i => (congrArg (fun v : Vector (BitVec 32) 1024 => v[i]) hacc').trans (product_getElem ..)⟩
    case failed =>
      intro path acc ab bb hop hst
      rw [finishEntry_accs hd, finishEntry_bufs hd, applyEntry_mma_failed hop hst]
      exact ⟨rfl, rfl⟩
    case mld =>
      intro b a sp mc buf tr g pe grp hop
      obtain ⟨hlo, hhi⟩ := bufTile_range b buf
      rw [finishEntry_accs hd, finishEntry_buf hd, applyEntry_mld hop, setBuf_buf _ hlo hhi]
      exact ⟨rfl, rfl⟩
  case refused =>
    exact ⟨_, exec_multicastDelivery_refused hfind htodo hdest hbuf htile,
      delivered_refused (List.mem_of_find?_eq_some hfind) hne⟩
  case queued =>
    obtain ⟨y, hy, hop⟩ := exec_multicastDelivery_queued hfind htodo hdest hbuf htile hnone
    refine ⟨_, hy, modCore_core_other s.bump (Ne.symm hne) _, rfl, y, ?_, hop⟩
    rw [modCore_core_same]; rfl
  case written =>
    exact ⟨_, exec_multicastDelivery_written hfind htodo hdest hbuf htile (delivery_single hmq hop) (deliveryTurn_single hmq),
      delivered_written (List.mem_of_find?_eq_some hfind) hne hmq hop hdsts hlo hhi _⟩

end Sys2Proof.Machine
end

section
/-! SUPPORT. The checks of an access at issue, in their order (R185, R186). -/

namespace Sys2Proof.Machine

/-! ### From an instruction to its checks -/

theorem Present.mono {s : State} {rs qs : List Reg} (h : Present s rs) (hsub : ∀ r ∈ qs, r ∈ rs) : Present s qs :=
  ⟨fun r hr => h.1 r (hsub r hr), h.2⟩

section
variable {i : Instr} {s : State} {rs : List Reg} {k : State → State}

theorem exec_withRegs (hexec : exec i s = .next (s.withRegs rs k)) (h : Present s rs) : exec i s = .next (k s) := by
  rw [hexec, withRegs_present h]

theorem exec_withSlot (hexec : exec i s = .next (s.withSlot fun s => s.withRegs rs k)) (hslot : HasSlot s) (h : Present s rs) :
    exec i s = .next (k s) := by
  rw [hexec, withSlot_room hslot, withRegs_present h]

end

/-! ### What the checks find -/

/-- No item waits for a walk. -/
def NoMiss (s : State) (items : List Item) : Prop := ∀ i ∈ items, ∀ vk page, i.res s s.thr ≠ .miss vk page

/-- What the checks answer where no item waits: the first item that meets XLATE, else the first that meets PERM, else the
locations (R185). -/
theorem checkItems_noMiss {s : State} {items : List Item} (h : NoMiss s items) :
    (∀ x, items.find? (fun i => i.res s s.thr == .xlate) = some x → checkItems s s.thr items = .trap cXlate x.named) ∧
    (items.find? (fun i => i.res s s.thr == .xlate) = none →
      (∀ x, items.find? (fun i => itemPerm s s.gc s.thr.vd i (i.res s s.thr)) = some x →
        checkItems s s.thr items = .trap cPerm x.named) ∧
      (items.find? (fun i => itemPerm s s.gc s.thr.vd i (i.res s s.thr)) = none →
        ∃ locs, checkItems s s.thr items = .ok locs)) := by
  simp only [checkItems]
  rw [List.filterMap_eq_nil_iff.2]
  case _ =>
    simp only [List.find?_map, Function.comp_def, State.gc]
    refine ⟨fun x hx => by rw [hx]; rfl, fun hnone => ⟨fun x hx => ?_, fun hperm => ?_⟩⟩
    · rw [hnone, hx]; rfl
    · exact ⟨_, by rw [hnone, hperm]; rfl⟩
  case _ =>
    intro e he
    obtain ⟨i, hi, rfl⟩ := List.mem_map.1 he
    split
    · next hmiss => exact absurd hmiss (h i hi _ _)
    · rfl

/-! ### An instruction that makes the checks -/

section
variable {i : Instr} {s : State} {n : Nat} {items : List Item} {k : List Nat → State → State}

theorem checked_aligned (h : ∀ x ∈ items, x.base % n = 0) : s.checked n items k = s.checkedMid items none k := by
  have hnone : items.find? (fun x => x.base % n != 0) = none := List.find?_eq_none.2 fun x hx => by simp [h x hx]
  simp only [State.checked, hnone]

theorem checkedMid_cleared {locs : List Nat} (h : Cleared s items locs) : s.checkedMid items none k = k locs s := by
  have hnone : items.find? (lockMeets s s.gc s.thr.vk) = none := List.find?_eq_none.2 fun x hx => by simp [h.2 x hx]
  simp only [State.checkedMid, h.1, hnone]

/-- With every check passed the instruction goes on with the locations. -/
theorem exec_cleared {locs : List Nat} (hexec : exec i s = .next (s.checked n items k)) (hal : ∀ x ∈ items, x.base % n = 0)
    (h : Cleared s items locs) : exec i s = .next (k locs s) := by
  rw [hexec, checked_aligned hal, checkedMid_cleared h]

variable (hexec : exec i s = .next (s.checked n items k)) (hc : CanTrap s) {x : Item}
include hexec hc

theorem completes_align (h : items.find? (fun x => x.base % n != 0) = some x) :
    Completes i s fun t => TrapsTo s t 0x03 s.thr.pc (BitVec.ofNat 64 x.base) := by
  refine ⟨_, hexec, ?_⟩
  simp only [State.checked, h]
  exact trap_enters hc cAlign _

variable (hal : ∀ x ∈ items, x.base % n = 0) (hm : NoMiss s items)
include hal hm

theorem completes_xlate (h : items.find? (fun x => x.res s s.thr == .xlate) = some x) :
    Completes i s fun t => TrapsTo s t 0x04 s.thr.pc (BitVec.ofNat 64 x.named) := by
  refine ⟨_, hexec, ?_⟩
  simp only [checked_aligned hal, State.checkedMid, (checkItems_noMiss hm).1 x h]
  exact trap_enters hc cXlate _

variable (hx : items.find? (fun x => x.res s s.thr == .xlate) = none)
include hx

theorem completes_perm (h : items.find? (fun x => itemPerm s s.gc s.thr.vd x (x.res s s.thr)) = some x) :
    Completes i s fun t => TrapsTo s t 0x05 s.thr.pc (BitVec.ofNat 64 x.named) := by
  refine ⟨_, hexec, ?_⟩
  simp only [checked_aligned hal, State.checkedMid, ((checkItems_noMiss hm).2 hx).1 x h]
  exact trap_enters hc cPerm _

theorem completes_rlock (hp : items.find? (fun x => itemPerm s s.gc s.thr.vd x (x.res s s.thr)) = none)
    (h : items.find? (lockMeets s s.gc s.thr.vk) = some x) :
    Completes i s fun t => TrapsTo s t 0x06 s.thr.pc (BitVec.ofNat 64 x.base) := by
  refine ⟨_, hexec, ?_⟩
  obtain ⟨locs, hlocs⟩ := ((checkItems_noMiss hm).2 hx).2 hp
  simp only [checked_aligned hal, State.checkedMid, hlocs, h]
  exact trap_enters hc cRlock _

end

end Sys2Proof.Machine
end

section
/-! SUPPORT. Accesses that enter the port of the issuing core, and what their instruction leaves of its thread (R180, R188). -/

namespace Sys2Proof.Machine

/-! ### The port -/

section
variable {s t : State}

theorem entersPort_nil (h : t = { s with thr := t.thr, seq := t.seq }) : EntersPort s t [] := by
  rw [h]; exact ⟨(List.append_nil _).symm, rfl, fun _ _ => rfl, rfl⟩

/-- An access that a state which differs from `s` in its thread and the issue counter alone puts into the port. -/
theorem toPort_entersPort {u : State} (hu : u = { s with thr := u.thr, seq := u.seq }) (a : Access)
    (h : t = { u.toPort s.gc a with thr := t.thr }) : EntersPort s t [a] := by
  have hcore (gc : Nat) : t.core gc = (s.modCore s.gc fun c => { c with port := c.port ++ [a] }).core gc := by
    rw [h, State.toPort, hu]; rfl
  refine ⟨?_, ?_, fun gc hgc => ?_, ?_⟩
  · rw [hcore, modCore_core_same]
  · rw [hcore, modCore_core_same]
  · rw [hcore, modCore_core_other s hgc]
  · rw [h, State.toPort, hu]; rfl

end

/-! ### A posted access, and one with a deferred result -/

/-- An instruction that puts one posted access into the port. -/
theorem bump_toPort_finish (s : State) (a : Access) (sw : Bool) :
    let t := (s.bump.toPort s.gc a).finish sw
    Passes sw s t ∧ EntersPort s t [a] :=
  ⟨finish_passes (s := s) (u := s.bump.toPort s.gc a) rfl sw, toPort_entersPort (s := s) (u := s.bump) rfl a rfl⟩

/-- An instruction that puts one access into the port and a result into the buffer. -/
theorem defer_toPort_finish (s : State) (a : Access) (acq : Bool) (ws : List RegWrite) (done sw : Bool) :
    let t := ((s.deferAs acq ws .plain done).toPort s.gc a).finish sw
    Defers s t ws done acq ∧ InSequence sw s t ∧ EntersPort s t [a] := by
  obtain ⟨⟨hs, hv, hp, hbuf, hkept⟩, -, hseq⟩ := defer_finish s acq ws done sw
  exact ⟨⟨hs, hv, hp, hbuf, hkept⟩, hseq, toPort_entersPort (s := s) (u := s.deferAs acq ws .plain done) rfl a rfl⟩

/-! ### The forms of one word -/

section
variable {i : Instr} {s : State} {sw w : Bool} {n l : Nat} {kind : AccKind} {sc : Scope} {forms : Forms}

theorem one_aligned {va : Nat} {r : Bool} (h : va % n = 0) : ∀ x ∈ [Item.one va n r w forms], x.base % n = 0 :=
  List.forall_mem_singleton.2 h

section
variable {acq : Bool} {ws : List RegWrite} {a : Src} {off : BitVec 16}
  (hexec : exec i s = .next (loadForm sw n kind sc acq w forms ws a off s)) (h : Present s (srcRegs a)) (hslot : HasSlot s)
include hexec h hslot

theorem exec_loadForm : exec i s = .next (s.checked n [.one (baseOff (s.src a) off).toNat n true w forms] fun locs s =>
    ((s.deferAs acq ws .plain false).toPort s.gc (s.newAccess kind sc acq false none 0
      (onePart (baseOff (s.src a) off) (locs.headD 0) n []))).finish sw) :=
  exec_withSlot hexec hslot h

theorem loadForm_completes (hal : (baseOff (s.src a) off).toNat % n = 0)
    (hc : Cleared s [.one (baseOff (s.src a) off).toNat n true w forms] [l]) :
    Completes i s fun t => Defers s t ws false acq ∧ InSequence sw s t ∧
      EntersPort s t [s.newAccess kind sc acq false none 0 [⟨0, baseOff (s.src a) off, l, n, []⟩]] :=
  ⟨_, exec_cleared (exec_loadForm hexec h hslot) (one_aligned hal) hc, defer_toPort_finish s _ acq ws false sw⟩

end

section
variable {rel : Bool} {rs : List Reg} {va : State → Addr} {data : State → List Byte}
  (hexec : exec i s = .next (s.withRegs rs fun s => storeForm sw n kind sc rel forms (va s) (data s) s)) (h : Present s rs)
include hexec h

theorem exec_storeForm : exec i s = .next (s.checked n [.one (va s).toNat n false true forms] fun locs u =>
    if queueFull (u.core u.gc).port then u.bubble
    else (u.bump.toPort u.gc (u.newAccess kind sc false rel none 0 (onePart (va s) (locs.headD 0) n (data s)))).finish sw) :=
  exec_withRegs hexec h

theorem storeForm_completes (hroom : queueFull (s.core s.gc).port = false) (hal : (va s).toNat % n = 0)
    (hc : Cleared s [.one (va s).toNat n false true forms] [l]) :
    Completes i s fun t => KeepsRegs s t ∧ t.thr.kept = s.thr.kept ∧ InSequence sw s t ∧
      EntersPort s t [s.newAccess kind sc false rel none 0 [⟨0, va s, l, n, data s⟩]] := by
  obtain ⟨⟨hregs, hkept, hseq⟩, hport⟩ := bump_toPort_finish s
    (s.newAccess kind sc false rel none 0 (onePart (va s) l n (data s))) sw
  refine ⟨_, exec_cleared (exec_storeForm hexec h) (one_aligned hal) hc, ?_⟩
  rw [hroom]
  exact ⟨hregs, hkept, hseq, hport⟩

end

section
variable {a b : Src} {off : BitVec 16} (h : Present s (srcRegs a ++ srcRegs b)) (hslot : HasSlot s)
include h hslot

theorem exec_ste : exec (.ste sw sc a b off) s = .next (s.checked 8 [.one (baseOff (s.src a) off).toNat 8 false true .spadOnly]
    fun locs u => if queueFull (u.core u.gc).port then u.bubble
    else ((u.defer [] .plain false).toPort u.gc (u.newAccess .ste sc false true none 0
      (onePart (baseOff (s.src a) off) (locs.headD 0) 8 (toBytes 8 (s.src b).toNat)))).finish sw) := by
  show execSte sw sc a b off s = _
  rw [execSte, withSlot_room hslot, withRegs_present h]
  rfl

theorem ste_completes (hroom : queueFull (s.core s.gc).port = false) (hal : (baseOff (s.src a) off).toNat % 8 = 0)
    (hc : Cleared s [.one (baseOff (s.src a) off).toNat 8 false true .spadOnly] [l]) :
    Completes (.ste sw sc a b off) s fun t => Defers s t [] false ∧ InSequence sw s t ∧ EntersPort s t
      [s.newAccess .ste sc false true none 0 [⟨0, baseOff (s.src a) off, l, 8, toBytes 8 (s.src b).toNat⟩]] := by
  refine ⟨_, exec_cleared (exec_ste h hslot) (one_aligned hal) hc, ?_⟩
  rw [hroom]
  exact defer_toPort_finish s _ false [] false sw

end

end

/-! ### The statement -/

/-- Settles O15: the loads have the shape of one load, the stores of one posted write, and STE that of a posted write with a
deferred result. -/
theorem loadsAndStoresEnterThePort : Obligations.LoadsAndStoresEnterThePort := by
  unfold Obligations.LoadsAndStoresEnterThePort
  refine ⟨fun sw sz sc d p a off l s h hslot => ⟨fun hal hc => ⟨?ld, ?lda⟩, fun hal hc => ?ldf, fun hal hc => ?ldfp⟩,
    fun sw sz sc a b off l s h hroom => ⟨fun hal hc => ⟨?st, ?stl⟩, fun hal hc => ⟨?setfe, fun hslot => ?ste⟩⟩⟩
  case ld => exact loadForm_completes rfl h hslot hal hc
  case lda => exact loadForm_completes rfl h hslot hal hc
  case ldf => exact loadForm_completes rfl h hslot hal hc
  case ldfp => exact loadForm_completes rfl h hslot hal hc
  case st =>
    exact storeForm_completes (va := fun s => baseOff (s.src a) off) (data := fun s => toBytes sz.bytes (s.src b).toNat) rfl h hroom
      hal hc
  case stl =>
    exact storeForm_completes (va := fun s => baseOff (s.src a) off) (data := fun s => toBytes sz.bytes (s.src b).toNat) rfl h hroom
      hal hc
  case setfe =>
    exact storeForm_completes (va := fun s => baseOff (s.src a) off) (data := fun _ => []) rfl h hroom hal hc
  case ste => exact ste_completes h hslot hroom hal hc

end Sys2Proof.Machine
end

section
/-! SUPPORT. Where the memory forms trap, and what translation finds (R170 to R172, R185, R186). -/

namespace Sys2Proof.Machine

/-! ### Addresses and lanes -/

theorem ofNat_addr (x : Addr) : BitVec.ofNat 64 x.toNat = x.setWidth 64 := BitVec.ofNat_toNat 64 x

theorem baseOff_zero (a : Word) : baseOff a 0 = a.setWidth 52 := BitVec.add_zero _

theorem addrPlus_eq (a : Word) (k : Int) : addrPlus a k = BitVec.ofInt 52 (((a.setWidth 52 : Addr).toNat : Int) + k) := by
  rw [addrPlus, BitVec.ofInt_add, BitVec.ofInt_natCast, BitVec.ofNat_toNat, BitVec.setWidth_eq]

theorem activeAddrs_eq (p : PWord) (w n : Nat) (f : Nat → Addr) :
    activeAddrs p w n f = ((List.range n).filter fun i => activeLane p w i).map fun i => (i, f i) := by
  rw [activeAddrs, ← List.filterMap_eq_map, List.filterMap_filter]; rfl

theorem sz_bits_div (sz : Sz) : sz.bits / 8 = sz.bytes := Nat.mul_div_cancel_left _ (by decide)

/-! ### Items of one piece -/

theorem one_res (s : State) (t : Thread) (va n : Nat) (r w : Bool) (forms : Forms) :
    (Item.one va n r w forms).res s t = resolve s (coreOf t.id) t.vd t.walkFail r w false va := if_pos rfl

theorem itemPerm_one {s : State} {gc vd va n : Nat} {r w : Bool} {forms : Forms} {x : Res} :
    itemPerm s gc vd (.one va n r w forms) x = true ↔
      x = .perm ∨ ∃ y, whereIs s gc vd va = some y ∧ forms.takes va y = false := by
  rw [itemPerm, Bool.or_eq_true, beq_iff_eq, Item.one]
  cases whereIs s gc vd va <;> simp

theorem resolve_inside {s : State} {gc vd va l : Nat} {fails : List (Nat × Nat)} {r w x : Bool}
    (h : resolve s gc vd fails r w x va = .loc l) : ∃ y, whereIs s gc vd va = some y := by
  cases hy : whereIs s gc vd va with
  | none => rw [resolve, hy] at h; cases h
  | some y => exact ⟨y, rfl⟩

/-! ### Forms of one word -/

/-- Where an instruction traps that accesses `n` bytes at `x`: ALIGN first, then XLATE, PERM and RLOCK (R185, R186). -/
def WordTraps (i : Instr) (s : State) (x : Addr) (n : Nat) (r w : Bool) (forms : Forms) : Prop :=
  let res := resolve s s.gc s.thr.vd s.thr.walkFail r w false x.toNat
  let traps (code : Nat) : Prop := Completes i s fun t => TrapsTo s t code s.thr.pc (x.setWidth 64)
  let taken : Prop := ∃ y, whereIs s s.gc s.thr.vd x.toNat = some y ∧ forms.takes x.toNat y = true
  (x.toNat % n ≠ 0 → traps 0x03) ∧
  (x.toNat % n = 0 → (res = .xlate → traps 0x04) ∧ (res = .perm → traps 0x05) ∧
    (∀ l, res = .loc l → (¬ taken → traps 0x05) ∧
      (taken → lockMeets s s.gc s.thr.vk (.one x.toNat n r w forms) = true → traps 0x06)))

section
variable {i : Instr} {s : State} {x : Addr} {n : Nat} {r w : Bool} {forms : Forms} {k : List Nat → State → State}

theorem wordTraps_of_checked (hexec : exec i s = .next (s.checked n [.one x.toNat n r w forms] k)) (hc : CanTrap s) :
    WordTraps i s x n r w forms := by
  rw [WordTraps]
  simp only [← ofNat_addr x]
  generalize hres : resolve s s.gc s.thr.vd s.thr.walkFail r w false x.toNat = res
  have hitem : (Item.one x.toNat n r w forms).res s s.thr = res := (one_res ..).trans hres
  have hone {p : Item → Bool} (hp : p (.one x.toNat n r w forms) = true) :
      [Item.one x.toNat n r w forms].find? p = some (.one x.toNat n r w forms) := List.find?_cons_of_pos hp
  have hnone {p : Item → Bool} (hp : p (.one x.toNat n r w forms) = false) :
      [Item.one x.toNat n r w forms].find? p = none := List.find?_cons_of_neg (by simp [hp])
  have hmiss (hr : ∀ vk page, res ≠ .miss vk page) : NoMiss s [.one x.toNat n r w forms] :=
    List.forall_mem_singleton.2 (hitem ▸ hr)
  refine ⟨fun h => completes_align hexec hc (hone (bne_iff_ne.2 h)), fun h => ?_⟩
  have hal : ∀ y ∈ [Item.one x.toNat n r w forms], y.base % n = 0 := List.forall_mem_singleton.2 h
  have hperm (hr : ∀ vk page, res ≠ .miss vk page) (hx : res ≠ .xlate)
      (hp : itemPerm s s.gc s.thr.vd (.one x.toNat n r w forms) res = true) :=
    completes_perm hexec hc hal (hmiss hr) (hnone (by rw [hitem]; exact beq_eq_false_iff_ne.2 hx)) (hone (by rw [hitem]; exact hp))
  refine ⟨?xlate, ?perm, fun l h => ⟨fun ht => ?refused, fun ⟨y, hy, ht⟩ hl => ?rlock⟩⟩
  case xlate => rintro rfl; exact completes_xlate hexec hc hal (hmiss nofun) (hone (by rw [hitem]; rfl))
  case perm => rintro rfl; exact hperm nofun nofun (itemPerm_one.2 (.inl rfl))
  case refused =>
    subst h
    obtain ⟨y, hy⟩ := resolve_inside hres
    exact hperm nofun nofun (itemPerm_one.2 (.inr ⟨y, hy, Bool.eq_false_iff.2 fun h => ht ⟨y, hy, h⟩⟩))
  case rlock =>
    subst h
    refine completes_rlock hexec hc hal (hmiss nofun) (hnone (by rw [hitem]; rfl)) (hnone ?_) (hone hl)
    rw [hitem, Bool.eq_false_iff, Ne, itemPerm_one]
    rintro (h | ⟨z, hz, h⟩)
    · cases h
    · rw [hy] at hz; cases hz; rw [ht] at h; cases h

end

/-! ### Forms of many lanes -/

/-- Where a vector form traps that accesses `n` bytes at each of these addresses: each check over every lane before the next, and
the lowest lane that fails it (R185, R186). -/
def LaneTraps (i : Instr) (s : State) (n : Nat) (xs : List Addr) (w : Bool) : Prop :=
  let res (x : Addr) : Res := resolve s s.gc s.thr.vd s.thr.walkFail (!w) w false x.toNat
  let first (f : Addr → Bool) (code : Nat) : Prop := ∀ x, xs.find? f = some x →
    Completes i s fun t => TrapsTo s t code s.thr.pc (x.setWidth 64)
  first (fun x => decide (x.toNat % n ≠ 0)) 0x03 ∧
  ((∀ x ∈ xs, x.toNat % n = 0) → (∀ x ∈ xs, ∀ vk page, res x ≠ .miss vk page) →
    first (fun x => res x == .xlate) 0x04 ∧
    ((∀ x ∈ xs, res x ≠ .xlate) → first (fun x => res x == .perm) 0x05 ∧
      ((∀ x ∈ xs, res x ≠ .perm) → first (fun x => lockMeets s s.gc s.thr.vk (.one x.toNat n (!w) w .any)) 0x06)))

/-- What a vector form accesses at one lane's address. -/
def laneItem (n : Nat) (w : Bool) (x : Addr) : Item := .one x.toNat n (!w) w .any

theorem laneItem_res (s : State) (n : Nat) (w : Bool) (x : Addr) : (laneItem n w x).res s s.thr =
    resolve s s.gc s.thr.vd s.thr.walkFail (!w) w false x.toNat := one_res ..

theorem itemPerm_laneItem (s : State) (gc vd n : Nat) (w : Bool) (x : Addr) (y : Res) :
    itemPerm s gc vd (laneItem n w x) y = (y == .perm) := by
  rw [Bool.eq_iff_iff, laneItem, itemPerm_one]
  simp [Forms.takes]

theorem laneItems_eq (n : Nat) (w : Bool) (ls : List (Nat × Addr)) :
    laneItems n (!w) w .any ls = (ls.map Prod.snd).map (laneItem n w) := by rw [laneItems, List.map_map]; rfl

/-- The first item that fails a test is that of the first address that fails it. -/
theorem find?_laneItem {n : Nat} {w : Bool} {xs : List Addr} {x : Addr} {p : Item → Bool} {f : Addr → Bool}
    (hpf : ∀ x, p (laneItem n w x) = f x) (h : xs.find? f = some x) :
    (xs.map (laneItem n w)).find? p = some (laneItem n w x) := by
  have hp : p ∘ laneItem n w = f := funext hpf
  rw [List.find?_map, hp, h, Option.map_some]

theorem find?_laneItem_none {n : Nat} {w : Bool} {xs : List Addr} {p : Item → Bool} (h : ∀ x ∈ xs, p (laneItem n w x) = false) :
    (xs.map (laneItem n w)).find? p = none :=
  List.find?_eq_none.2 (List.forall_mem_map.2 fun x hx => by simp [h x hx])

theorem laneTraps_of_checked {i : Instr} {s : State} {n : Nat} {w : Bool} {k : List Nat → State → State} {ls : List (Nat × Addr)}
    {xs : List Addr} (hexec : exec i s = .next (s.checked n (laneItems n (!w) w .any ls) k)) (hls : ls.map Prod.snd = xs)
    (hc : CanTrap s) : LaneTraps i s n xs w := by
  rw [laneItems_eq, hls] at hexec
  rw [LaneTraps]
  simp only [← ofNat_addr]
  refine ⟨fun x h => completes_align hexec hc (find?_laneItem (fun x => ?_) h), fun hal hmiss => ?_⟩
  · rw [Bool.eq_iff_iff]; simp [laneItem, Item.one]
  have hal' : ∀ y ∈ xs.map (laneItem n w), y.base % n = 0 := List.forall_mem_map.2 hal
  have hmiss' : NoMiss s (xs.map (laneItem n w)) :=
    List.forall_mem_map.2 fun x hx => (laneItem_res s n w x).symm ▸ hmiss x hx
  refine ⟨fun x h => ?xlate, fun hx => ⟨fun x h => ?perm, fun hp x h => ?rlock⟩⟩
  case xlate => exact completes_xlate hexec hc hal' hmiss' (find?_laneItem (fun x => by rw [laneItem_res]) h)
  all_goals
    have hxlate : (xs.map (laneItem n w)).find? (fun i => i.res s s.thr == .xlate) = none :=
      find?_laneItem_none fun x hm => by rw [laneItem_res]; exact beq_eq_false_iff_ne.2 (hx x hm)
  case perm =>
    exact completes_perm hexec hc hal' hmiss' hxlate (find?_laneItem (fun x => by rw [itemPerm_laneItem, laneItem_res]) h)
  case rlock =>
    refine completes_rlock hexec hc hal' hmiss' hxlate (find?_laneItem_none fun x hm => ?_) (find?_laneItem (fun _ => rfl) h)
    rw [itemPerm_laneItem, laneItem_res]
    exact beq_eq_false_iff_ne.2 (hp x hm)

/-! ### AMO and WAITGE -/

section
variable {s : State} {sw : Bool} {sz : Sz} {sc : Scope} {d : SReg} {a b c : Src}

theorem exec_amo {op : AmoOp} {ord : AmoOrd} (h : Present s (srcRegs a ++ srcRegs b ++ if op = .cas then srcRegs c else []))
    (hslot : HasSlot s) : exec (.amo sw sz sc op ord d a b c) s =
      .next (s.checked sz.bytes [.one (baseOff (s.src a) 0).toNat sz.bytes true true .noHost] fun locs u =>
        if queueFull (u.core u.gc).port then u.bubble
        else ((u.deferAs (ord == .acq || ord == .acqrel) [.s d 0] .plain false).toPort u.gc
          (u.newAccess (.amo op (s.src b) (s.src c)) sc (ord == .acq || ord == .acqrel) (ord == .rel || ord == .acqrel) none 0
            (onePart (baseOff (s.src a) 0) (locs.headD 0) sz.bytes []))).finish sw) := by
  show execAmo sw sz sc op ord d a b c s = _
  rw [execAmo, withSlot_room hslot, withRegs_present h]
  rfl

theorem exec_waitge {off : BitVec 16} (hwait : s.thr.wait = .none) (h : Present s (srcRegs a ++ srcRegs b)) :
    exec (.waitge sw sz sc d a b off) s =
      .next (s.checked sz.bytes [.one (baseOff (s.src a) off).toNat sz.bytes true false .noHost] fun locs u =>
        ((u.bump.toPort u.gc (u.newAccess (.waitge (s.src b).toNat) sc true false none 0
          (onePart (baseOff (s.src a) off) (locs.headD 0) sz.bytes []))).modThr fun t =>
            { t with wait := .waitge u.seq none false }).parkOn ((baseOff (s.src a) off).setWidth 64)) := by
  show execWaitge sw sz sc d a b off s = _
  rw [execWaitge, hwait]
  exact congrArg _ (withRegs_present h _)

end

/-! ### The vector forms -/

section
variable {i : Instr} {s : State} {sw : Bool} {sz : Sz} {pg : PReg} {xs : List Addr} {rs : List Reg} {m : Nat} {f : Nat → Addr}

theorem activeAddrs_snd (p : PWord) (w m : Nat) (f : Nat → Addr) :
    (activeAddrs p w m f).map Prod.snd = ((List.range m).filter fun i => activeLane p w i).map f := by
  rw [activeAddrs_eq, List.map_map]; rfl

theorem vload_traps {d : VReg} {init : State → VWord} {f : State → Nat → Addr} {g : Nat → Addr} (hslot : HasSlot s)
    (h : Present s rs) (hc : CanTrap s)
    (hexec : exec i s = .next (s.withSlot fun s => s.withRegs rs fun s =>
      vloadForm sw sz.bits d (init s) (activeAddrs (s.thr.getP pg) sz.bits m (f s)) s))
    (hf : ∀ j, f s j = g j) :
    LaneTraps i s sz.bytes (((List.range m).filter fun i => activeLane (s.thr.getP pg) sz.bits i).map g) false := by
  obtain rfl : f s = g := funext hf
  rw [← sz_bits_div]
  exact laneTraps_of_checked (exec_withSlot hexec hslot h) (activeAddrs_snd ..) hc

theorem vstore_traps {data : State → Nat → List Byte} {f : State → Nat → Addr} {g : Nat → Addr} (h : Present s rs) (hc : CanTrap s)
    (hexec : exec i s = .next (s.withRegs rs fun s =>
      vstoreForm sw sz.bytes (activeAddrs (s.thr.getP pg) sz.bits m (f s)) (data s) s))
    (hf : ∀ j, f s j = g j) :
    LaneTraps i s sz.bytes (((List.range m).filter fun i => activeLane (s.thr.getP pg) sz.bits i).map g) true := by
  obtain rfl : f s = g := funext hf
  exact laneTraps_of_checked (exec_withRegs hexec h) (activeAddrs_snd ..) hc

end

/-! ### What translation finds -/

section
variable {s : State} {gc vd va : Nat} {fails : List (Nat × Nat)} {r w : Bool}

theorem resolve_outside (h : whereIs s gc vd va = none) : resolve s gc vd fails r w false va = .xlate := by
  rw [resolve, h]

/-- The gaps between the windows (R170). -/
theorem whereIs_gap (h : 2 ^ 40 + 8 * 2 ^ 30 ≤ va ∧ va < 2 ^ 41 ∨ 2 ^ 41 + 0x30000 ≤ va ∧ va < 0x20100000000 ∨
    0x20100000000 + 128 * 0x40000 ≤ va ∧ va < 2 ^ 51 ∨ 2 ^ 52 ≤ va) : whereIs s gc vd va = none := by
  simp only [whereIs, dramEnd, spadBytes, Bool.and_eq_true, decide_eq_true_eq]
  rw [if_neg (by omega), if_neg (by omega)]
  split
  · rfl
  · rw [if_neg (by omega), if_neg (by omega), if_neg (by omega), if_neg (by omega)]

theorem resolve_shared {m off : Nat} (h : whereIs s gc vd va = some (.l2 m off)) :
    resolve s gc vd fails r w false va = .loc (l2Loc (vdKey (pkgOf gc) vd) m off) := by rw [resolve, h]; rfl

theorem resolve_host {off : Nat} (h : whereIs s gc vd va = some (.host off)) : resolve s gc vd fails r w false va =
    if (fnOfVd (vdKey (pkgOf gc) vd), off / 4096) ∈ s.iommu then .xlate else .loc (hostLoc (fnOfVd (vdKey (pkgOf gc) vd)) off) := by
  rw [resolve, h]
  simp only [List.contains_iff_mem, Bool.false_eq_true, if_false]

theorem resolve_spad {c off : Nat} (h : whereIs s gc vd va = some (.spad c off)) : resolve s gc vd fails r w false va =
    if ((s.core c).grantOf (vdKey (pkgOf c) vd)).spBase * 4096 ≤ off ∧ off < ((s.core c).grantOf (vdKey (pkgOf c) vd)).spLimit * 4096
    then .loc (spadLoc c off) else .perm := by
  rw [resolve, h]
  simp only [Bool.not_false, Bool.true_and, Bool.and_eq_true, decide_eq_true_eq]

section
variable {pkg off0 : Nat} (h : whereIs s gc vd va = some (.dram pkg off0))
include h

theorem resolve_dram_unmapped (hr : remapped s (vdKey pkg vd) off0 = none) : resolve s gc vd fails r w false va = .xlate := by
  rw [resolve, h]; simp [hr]

variable {off : Nat} (hr : remapped s (vdKey pkg vd) off0 = some off)
include hr

theorem resolve_dram_failed {c : Nat} (hf : tblFind fails (walkKey (vdKey pkg vd) (off / 4096)) = some c) :
    resolve s gc vd fails r w false va = if c = cXlate then .xlate else .perm := by
  rw [resolve, h]; simp [hr, hf]

variable (hf : tblFind fails (walkKey (vdKey pkg vd) (off / 4096)) = none)
include hf

theorem resolve_dram_miss (he : (s.router (s.routerOf gc)).find (vdKey pkg vd) (off / 4096) = none) :
    resolve s gc vd fails r w false va = .miss (vdKey pkg vd) (off / 4096) := by
  rw [resolve, h]; simp [hr, hf, he]

theorem resolve_dram_cached {e : TlbEntry} (he : (s.router (s.routerOf gc)).find (vdKey pkg vd) (off / 4096) = some e) :
    resolve s gc vd fails r w false va =
      if r = true ∧ e.r = false ∨ w = true ∧ e.w = false ∨ reserved s (vdKey pkg vd) off = true then .perm
      else if (s.vd (vdKey pkg vd)).trig.toNat ≠ 0 ∧ (s.vd (vdKey pkg vd)).trig.toNat ≤ off ∧
          off < (s.vd (vdKey pkg vd)).trig.toNat + 8 then .loc (trigLoc (vdKey pkg vd) (off - (s.vd (vdKey pkg vd)).trig.toNat))
      else .loc (dramLoc pkg (e.phys (s.pkg pkg).massifs off)) := by
  rw [resolve, h]; simp [hr, hf, he, or_assoc, and_assoc]

end

end

/-! ### The registers of the vector forms -/

theorem govRegs_subset {pg : PReg} {d : Reg} {l : List Reg} (hp : .p pg ∈ l) (hd : d ∈ l) : govRegs pg d ⊆ l := by
  rw [govRegs]
  split
  · exact List.nil_subset l
  · exact List.cons_subset.2 ⟨hp, List.cons_subset.2 ⟨hd, List.nil_subset l⟩⟩

/-- A form that reads `a` and further registers finds all of them where the longer list is present. -/
theorem Present.append_mono {s : State} {a l l' : List Reg} (h : Present s (a ++ l)) (hl : l' ⊆ l) : Present s (a ++ l') :=
  h.mono fun _ hr => List.mem_append.2 ((List.mem_append.1 hr).imp_right (hl ·))

/-! ### The statement -/

/-- Settles O16: each form makes the checks of its one item or of its lanes' items in order, and translation answers by the
window of the address. -/
theorem accessChecksTrapInOrder : Obligations.AccessChecksTrapInOrder := by
  unfold Obligations.AccessChecksTrapInOrder
  refine ⟨fun sw sz sc op ord d p a b c off s h hslot hc hwait => ?word, fun sw sz pg d c a k s h hslot hc => ?lanes,
    fun gc vd fails r w va s => ?translation⟩
  case word =>
    have ha : Present s (srcRegs a) := h.mono fun r hr => by simp [hr]
    have hab : Present s (srcRegs a ++ srcRegs b) := h.mono fun r hr => List.mem_append_left _ hr
    have hamo : Present s (srcRegs a ++ srcRegs b ++ if op = .cas then srcRegs c else []) := h.mono fun r hr => by
      split at hr
      · exact hr
      · exact List.mem_append_left _ (by simpa using hr)
    intro va n
    simp only [List.forall_mem_cons]
    refine ⟨?_, ?_, ?_, ?_, ?_, ?_, ?_, ?_, ?_, ?_, List.forall_mem_nil _⟩
    · exact wordTraps_of_checked (exec_loadForm rfl ha hslot) hc
    · exact wordTraps_of_checked (exec_loadForm rfl ha hslot) hc
    · exact wordTraps_of_checked (exec_loadForm rfl ha hslot) hc
    · exact wordTraps_of_checked (exec_loadForm rfl ha hslot) hc
    · exact wordTraps_of_checked (exec_storeForm (va := fun s => baseOff (s.src a) off)
        (data := fun s => toBytes sz.bytes (s.src b).toNat) rfl hab) hc
    · exact wordTraps_of_checked (exec_storeForm (va := fun s => baseOff (s.src a) off)
        (data := fun s => toBytes sz.bytes (s.src b).toNat) rfl hab) hc
    · exact wordTraps_of_checked (exec_ste hab hslot) hc
    · exact wordTraps_of_checked (exec_storeForm (va := fun s => baseOff (s.src a) off) (data := fun _ => []) rfl hab) hc
    · rw [← baseOff_zero]
      exact wordTraps_of_checked (exec_amo hamo hslot) hc
    · exact wordTraps_of_checked (exec_waitge hwait hab) hc
  case lanes =>
    have hgov : Present s (srcRegs a ++ govRegs pg (.v d)) := h.append_mono (govRegs_subset (by simp) (by simp))
    have hgath : Present s (srcRegs a ++ [.v c] ++ govRegs pg (.v d)) := by
      rw [List.append_assoc]
      exact h.append_mono (List.cons_subset.2 ⟨by simp, govRegs_subset (by simp) (by simp)⟩)
    have hst : Present s (srcRegs a ++ [.v d, .p pg]) := h.append_mono (by simp)
    have hscat : Present s (srcRegs a ++ [.v d, .v c, .p pg]) := h.append_mono (by simp)
    intro n at_ active near strided indexed
    simp only [List.forall_mem_cons]
    refine ⟨?_, ?_, ?_, ?_, ?_, ?_, List.forall_mem_nil _⟩
    · exact vload_traps (f := fun s i => addrPlus (s.src a) (k.toInt + i * sz.bytes)) hslot hgov hc rfl fun j => addrPlus_eq _ _
    · exact vload_traps (f := fun s i => addrPlus (s.src a) (i * k.toInt)) hslot hgov hc rfl fun j => addrPlus_eq _ _
    · exact vload_traps (f := fun s => elemAddr s a c sz.bytes) hslot hgath hc rfl fun j => addrPlus_eq _ _
    · exact vstore_traps (f := fun s i => addrPlus (s.src a) (k.toInt + i * sz.bytes)) hst hc rfl fun j => addrPlus_eq _ _
    · exact vstore_traps (f := fun s i => addrPlus (s.src a) (i * k.toInt)) hst hc rfl fun j => addrPlus_eq _ _
    · exact vstore_traps (f := fun s => elemAddr s a c sz.bytes) hscat hc rfl fun j => addrPlus_eq _ _
  case translation =>
    refine ⟨fun h => resolve_outside (whereIs_gap h), resolve_outside, fun m off => resolve_shared, fun off h => ?host,
      fun c off h => ?spad, fun pkg off0 h => ⟨resolve_dram_unmapped h, fun off hr => ⟨fun hf => resolve_dram_failed h hr hf,
        fun hf => resolve_dram_failed h hr hf, fun hf => ⟨resolve_dram_miss h hr hf, fun e he => ?cached⟩⟩⟩⟩
    case host => rw [resolve_host h]; split <;> rfl
    case spad => rw [resolve_spad h]; dsimp only; split <;> rfl
    case cached =>
      intro lacks t
      rw [resolve_dram_cached h hr hf he]
      refine ⟨fun hl => if_pos hl, fun hl h0 hlo hhi => ?_, fun hl hout => ?_⟩
      · rw [if_neg hl, if_pos ⟨h0, hlo, hhi⟩]
      · have hn : ¬ (t ≠ 0 ∧ t ≤ off ∧ off < t + 8) := by omega
        rw [if_neg hl, if_neg hn]

end Sys2Proof.Machine
end

section
/-! SUPPORT. AMO and REDU at issue (R196, R197). -/

namespace Sys2Proof.Machine

section
variable {s : State} {sw : Bool} {sc : Scope} {a b c : Src} (hroom : queueFull (s.core s.gc).port = false)
include hroom

theorem amo_completes {sz : Sz} {op : AmoOp} {ord : AmoOrd} {d : SReg} {l : Nat}
    (h : Present s (srcRegs a ++ srcRegs b ++ if op = .cas then srcRegs c else [])) (hslot : HasSlot s)
    (hal : (baseOff (s.src a) 0).toNat % sz.bytes = 0)
    (hc : Cleared s [.one (baseOff (s.src a) 0).toNat sz.bytes true true .noHost] [l]) :
    Completes (.amo sw sz sc op ord d a b c) s fun t =>
      Defers s t [.s d 0] false (ord == .acq || ord == .acqrel) ∧ InSequence sw s t ∧
      EntersPort s t [s.newAccess (.amo op (s.src b) (s.src c)) sc (ord == .acq || ord == .acqrel) (ord == .rel || ord == .acqrel)
        none 0 [⟨0, baseOff (s.src a) 0, l, sz.bytes, []⟩]] := by
  refine ⟨_, exec_cleared (exec_amo h hslot) (one_aligned hal) hc, ?_⟩
  rw [hroom]
  exact defer_toPort_finish s _ _ [.s d 0] false sw

/-- The source stands on 64 bytes, the destination is a whole tile, and every check passes. -/
theorem redu_completes {ty : Ty} {rm : Rm} {sat : Bool} {op : ReduOp} {locs : List Nat} (h : Present s (srcRegs a ++ srcRegs b))
    (hsrc : (baseOff (s.src b) 0).toNat % 64 = 0)
    (htile : (reduTile s s.gc s.thr.vd (baseOff (s.src a) 0).toNat).isSome = true)
    (hc : Cleared s (reduDst s s.gc s.thr.vd (baseOff (s.src a) 0).toNat ++
      reduSrcItems s s.gc s.thr.vd (baseOff (s.src b) 0).toNat) locs) :
    Completes (.redu sw ty rm sat op a b) s fun t => Passes sw s t ∧
      EntersPort s t [{ s.newAccess (.redu ty rm sat op none) .t false false none 0
        (reduParts ((reduDst s s.gc s.thr.vd (baseOff (s.src a) 0).toNat).zip locs)
          ((reduSrcItems s s.gc s.thr.vd (baseOff (s.src b) 0).toNat).zip
            (locs.drop (reduDst s s.gc s.thr.vd (baseOff (s.src a) 0).toNat).length)))
        with named := [((baseOff (s.src a) 0).toNat, 512)] }] := by
  refine ⟨_, rfl, ?_⟩
  rw [withRegs_present h]
  simp only [hsrc, htile, bne_self_eq_false, Bool.false_eq_true, if_false, if_true, checkedMid_cleared hc, hroom]
  exact bump_toPort_finish s _ sw

end

/-! ### The statement -/

/-- Settles O18: AMO is a posted access with a deferred result, REDU one without. -/
theorem atomicsAndReductionsEnterThePort : Obligations.AtomicsAndReductionsEnterThePort := by
  unfold Obligations.AtomicsAndReductionsEnterThePort
  intro sw sz sc op ord d a b c l ty rm sat rop locs s h hroom
  simp only [← baseOff_zero]
  refine ⟨fun hcas hslot hal hc => ?amo, fun hsrc htile hc => ?redu⟩
  case amo =>
    have hp : Present s (srcRegs a ++ srcRegs b ++ if op = .cas then srcRegs c else []) := by
      split
      · next hop => exact ⟨List.forall_mem_append.2 ⟨h.1, (hcas hop).1⟩, h.2⟩
      · rwa [List.append_nil]
    have hacq : decide (ord = .acq ∨ ord = .acqrel) = (ord == .acq || ord == .acqrel) := Bool.decide_or _ _
    have hrel : decide (ord = .rel ∨ ord = .acqrel) = (ord == .rel || ord == .acqrel) := Bool.decide_or _ _
    rw [hacq, hrel]
    exact amo_completes hroom hp hslot hal hc
  case redu =>
    exact (redu_completes hroom h hsrc htile hc).imp fun t ⟨⟨hregs, _, hseq⟩, hport⟩ => ⟨hregs, hseq, hport⟩

end Sys2Proof.Machine
end

section
/-! SUPPORT. Vector accesses at issue: loads and gathers with one entry, stores in runs (R180, R189, R190, R201). -/

namespace Sys2Proof.Machine

/-! ### Loads and gathers -/

section
variable {i : Instr} {s : State} {sw : Bool} {d : VReg}

/-- A vector result and its access, which enters only where a lane is active. -/
theorem defer_lanes_finish (s : State) (a : Access) (d : VReg) (x : VWord) (none sw : Bool) :
    let u := s.defer [.v d x] .plain none
    let t := (if none then u else u.toPort u.gc a).finish sw
    Defers s t [.v d x] none ∧ InSequence sw s t ∧ EntersPort s t (if none then [] else [a]) := by
  cases none with
  | false => exact defer_toPort_finish s a false [.v d x] false sw
  | true =>
    obtain ⟨hdefers, hworld, hseq⟩ := defer_finish s false [.v d x] true sw
    refine ⟨hdefers, hseq, entersPort_nil ?_⟩
    exact hworld.trans rfl

theorem laneItems_aligned {n : Nat} {r w : Bool} {forms : Forms} {ls : List (Nat × Addr)} (h : ∀ e ∈ ls, e.2.toNat % n = 0) :
    ∀ x ∈ laneItems n r w forms ls, x.base % n = 0 := List.forall_mem_map.2 h

variable {sz : Sz} {pg : PReg} {rs : List Reg} {m : Nat} {locs : List Nat}

theorem vload_completes {init : State → VWord} {f : State → Nat → Addr} {g : Nat → Addr} {ls : List (Nat × Addr)} (hslot : HasSlot s)
    (h : Present s rs)
    (hexec : exec i s = .next (s.withSlot fun s => s.withRegs rs fun s =>
      vloadForm sw sz.bits d (init s) (activeAddrs (s.thr.getP pg) sz.bits m (f s)) s))
    (hf : ∀ j, f s j = g j)
    (hls : ((List.range m).filter fun i => activeLane (s.thr.getP pg) sz.bits i).map (fun i => (i, g i)) = ls)
    (hal : ∀ e ∈ ls, e.2.toNat % sz.bytes = 0) (hc : Cleared s (laneItems sz.bytes true false .any ls) locs) :
    Completes i s fun t => Defers s t [.v d (init s)] ls.isEmpty ∧ InSequence sw s t ∧ EntersPort s t (if ls.isEmpty then [] else
      [s.newAccess .load .t false false none sz.bits ((ls.zip locs).map fun e => ⟨e.1.1, e.1.2, e.2, sz.bytes, []⟩)]) := by
  obtain rfl : f s = g := funext hf
  rw [← activeAddrs_eq] at hls
  obtain rfl := hls
  have hgo := exec_withSlot hexec hslot h
  rw [vloadForm, sz_bits_div] at hgo
  exact ⟨_, exec_cleared hgo (laneItems_aligned hal) hc, defer_lanes_finish s _ d (init s) _ sw⟩

theorem gathq_completes {a : Src} {c : VReg} {ls : List (Nat × Addr)} (hslot : HasSlot s)
    (h : Present s (srcRegs a ++ [.v c] ++ govRegs pg (.v d)))
    (hls : activeAddrs (s.thr.getP pg) sz.bits 32 (elemAddr s a c sz.bytes) = ls)
    (hal : ∀ e ∈ ls, e.2.toNat % sz.bytes = 0) (hc : Cleared s (gatherItems sz.bytes s ls) locs) :
    Completes (.gathq sw sz pg d a c) s fun t => Defers s t [.v d (gatherInit sz.bits (s.thr.getV d))] ls.isEmpty ∧
      InSequence sw s t ∧ EntersPort s t (if ls.isEmpty then [] else
        [s.newAccess .gath .t false false none sz.bits ((ls.zip locs).map fun e => ⟨e.1.1, e.1.2, e.2, sz.bytes, []⟩)]) := by
  obtain rfl := hls
  have hgo : exec (.gathq sw sz pg d a c) s = execGathq sw sz pg d a c s := rfl
  rw [execGathq, withSlot_room hslot, withRegs_present h] at hgo
  exact ⟨_, exec_cleared hgo (List.forall_mem_map.2 hal) hc, defer_lanes_finish s _ d _ _ sw⟩

end

/-! ### Stores -/

/-- The entries of a vector store, numbered from the issue counter on. -/
def storeEntries (s : State) (rs : List (List Part)) : List Access :=
  rs.zipIdx.map fun e => { s.newAccess .store .t false false none 0 e.1 with id := s.seq + e.2 }

theorem holdRuns_eq (rs : List (List Part)) (s : State) : holdRuns rs s = { s with
    seq := s.seq + rs.length, thr := { s.thr with storeHold := s.thr.storeHold ++ storeEntries s rs } } := by
  induction rs generalizing s with
  | nil => simp [holdRuns, storeEntries]
  | cons ps rest ih =>
    rw [holdRuns, ih]
    simp only [storeEntries, List.zipIdx_cons, List.zipIdx_succ, List.map_cons, List.map_map, List.append_assoc, List.length_cons,
      State.modThr, State.bump, List.cons_append, List.nil_append, Function.comp_def, State.newAccess, Nat.add_zero,
      Nat.add_comm, Nat.add_left_comm]

/-- Entries move from behind the port into it, in order, as far as there is room. -/
theorem pushHeld_spec (gc : Nat) (l : List Access) (s : State) :
    ((pushHeld gc l s).core gc).port ++ (pushHeld gc l s).thr.storeHold = (s.core gc).port ++ l ∧
    (pushHeld gc l s).thr = { s.thr with storeHold := (pushHeld gc l s).thr.storeHold } ∧ (pushHeld gc l s).mem = s.mem := by
  induction l generalizing s with
  | nil => exact ⟨rfl, rfl, rfl⟩
  | cons a rest ih =>
    rw [pushHeld]
    split
    · exact ⟨rfl, rfl, rfl⟩
    · obtain ⟨hport, hthr, hmem⟩ := ih (s.toPort gc a)
      refine ⟨hport.trans ?_, hthr, hmem⟩
      rw [State.toPort, modCore_core_same, List.append_assoc, List.singleton_append]

/-- Completion in sequence of an instruction that has changed its thread's held stores alone. -/
theorem finish_keeps {s u : State} {hold : List Access} (h : u.thr = { s.thr with storeHold := hold }) (sw : Bool) :
    KeepsRegs s (u.finish sw) ∧ InSequence sw s (u.finish sw) := by
  have hst : (u.finish sw).thr.st = (s.thr.unpark.next.switch sw).st := by rw [State.finish_thr, h]; rfl
  rw [finish_shape, h]
  exact ⟨⟨fun _ _ => ⟨rfl, rfl⟩, fun _ _ => ⟨rfl, rfl⟩, fun _ _ => ⟨rfl, rfl⟩, rfl⟩, rfl, rfl, rfl, rfl, rfl, rfl, hst⟩

/-- The runs of a vector store stand in the port and behind it in the thread (R180). -/
theorem pushStores_finish {s : State} (h : s.thr.storeHold = []) (rs : List (List Part)) (sw : Bool) :
    let t := ((holdRuns rs s).pushStores).finish sw
    KeepsRegs s t ∧ InSequence sw s t ∧ t.mem = s.mem ∧
      (t.core s.gc).port ++ t.thr.storeHold = (s.core s.gc).port ++ storeEntries s rs := by
  have hu := holdRuns_eq rs s
  rw [h, List.nil_append] at hu
  obtain ⟨hport, hthr, hmem⟩ := pushHeld_spec (holdRuns rs s).gc (holdRuns rs s).thr.storeHold (holdRuns rs s)
  rw [State.pushStores]
  generalize pushHeld (holdRuns rs s).gc (holdRuns rs s).thr.storeHold (holdRuns rs s) = v at hport hthr hmem ⊢
  rw [hu] at hport hthr hmem
  obtain ⟨hregs, hseq⟩ := finish_keeps (s := s) hthr sw
  exact ⟨hregs, hseq, hmem, hport⟩

theorem laneParts_laneBytes (s : State) (sz : Sz) (b : VReg) (ls : List (Nat × Addr)) (locs : List Nat) :
    laneParts sz.bytes ls locs (laneBytes s sz.bits b) = (ls.zip locs).map fun e =>
      ⟨e.1.1, e.1.2, e.2, sz.bytes, toBytes sz.bytes (lane (s.thr.getV b) sz.bits e.1.1)⟩ := by
  simp only [laneParts, laneBytes, sz_bits_div]
  rfl

theorem vstore_completes {i : Instr} {s : State} {sw : Bool} {sz : Sz} {pg : PReg} {rs : List Reg} {m : Nat} {locs : List Nat}
    {b : VReg} {f : State → Nat → Addr} {g : Nat → Addr} {ls : List (Nat × Addr)} (hhold : s.thr.storeHold = []) (h : Present s rs)
    (hexec : exec i s = .next (s.withRegs rs fun s =>
      vstoreForm sw sz.bytes (activeAddrs (s.thr.getP pg) sz.bits m (f s)) (laneBytes s sz.bits b) s))
    (hf : ∀ j, f s j = g j)
    (hls : ((List.range m).filter fun i => activeLane (s.thr.getP pg) sz.bits i).map (fun i => (i, g i)) = ls)
    (hal : ∀ e ∈ ls, e.2.toNat % sz.bytes = 0) (hc : Cleared s (laneItems sz.bytes false true .any ls) locs) :
    Completes i s fun t =>
      let parts : List Part := (ls.zip locs).map fun e =>
        ⟨e.1.1, e.1.2, e.2, sz.bytes, toBytes sz.bytes (lane (s.thr.getV b) sz.bits e.1.1)⟩
      KeepsRegs s t ∧ InSequence sw s t ∧ t.mem = s.mem ∧
        (t.core s.gc).port ++ t.thr.storeHold = (s.core s.gc).port ++ storeEntries s (runs parts) := by
  obtain rfl : f s = g := funext hf
  rw [← activeAddrs_eq] at hls
  obtain rfl := hls
  have hgo := exec_withRegs hexec h
  rw [vstoreForm] at hgo
  have hdata := laneParts_laneBytes s sz b (activeAddrs (s.thr.getP pg) sz.bits m (f s)) locs
  refine ⟨_, exec_cleared hgo (laneItems_aligned hal) hc, ?_⟩
  rw [hdata]
  exact pushStores_finish hhold _ sw

/-! ### The statement -/

/-- Settles O17: the loads and gathers defer a result that their lanes fill, with one entry where a lane is active; the stores
number the runs of their lanes and move them in as room allows. -/
theorem vectorAccessesEnterThePort : Obligations.VectorAccessesEnterThePort := by
  unfold Obligations.VectorAccessesEnterThePort
  refine ⟨fun sw sz pg d a c k locs s hslot => ?loads, fun sw sz pg a b c k locs s hhold => ?stores⟩
  case loads =>
    intro n base at_ index active done clear gathered
    refine ⟨fun h => ⟨fun ⟨hal, hc⟩ => ?vld, fun ⟨hal, hc⟩ => ?vlds⟩, fun h => ⟨fun ⟨hal, hc⟩ => ?vgath, fun hal hc => ?gathq⟩⟩
    case vld =>
      exact vload_completes (init := fun s => s.thr.getV d) (f := fun s i => addrPlus (s.src a) (k.toInt + i * sz.bytes)) hslot h rfl
        (fun _ => addrPlus_eq _ _) rfl hal hc
    case vlds =>
      exact vload_completes (init := fun s => s.thr.getV d) (f := fun s i => addrPlus (s.src a) (i * k.toInt)) hslot h rfl
        (fun _ => addrPlus_eq _ _) rfl hal hc
    case vgath =>
      exact vload_completes (init := fun s => gatherInit sz.bits (s.thr.getV d)) (f := fun s => elemAddr s a c sz.bytes) hslot h rfl
        (fun _ => addrPlus_eq _ _) rfl hal hc
    case gathq =>
      refine gathq_completes hslot h ?_ hal hc
      rw [activeAddrs_eq, funext (f := elemAddr s a c sz.bytes) fun _ => addrPlus_eq _ _]
      rfl
  case stores =>
    intro n base at_ index active done clear
    refine ⟨fun h => ⟨fun ⟨hal, hc⟩ => ?vst, fun ⟨hal, hc⟩ => ?vsts⟩, fun h ⟨hal, hc⟩ => ?vscat⟩
    case vst =>
      exact vstore_completes (f := fun s i => addrPlus (s.src a) (k.toInt + i * sz.bytes)) hhold h rfl (fun _ => addrPlus_eq _ _) rfl
        hal hc
    case vsts =>
      exact vstore_completes (f := fun s i => addrPlus (s.src a) (i * k.toInt)) hhold h rfl (fun _ => addrPlus_eq _ _) rfl hal hc
    case vscat =>
      exact vstore_completes (f := fun s => elemAddr s a c sz.bytes) hhold h rfl (fun _ => addrPlus_eq _ _) rfl hal hc

end Sys2Proof.Machine
end

section
/-! SUPPORT. WAITGE, FENCE, PREF and the forms over tiles at issue (R198 to R200). -/

namespace Sys2Proof.Machine

/-! ### WAITGE -/

section
variable {s : State} {sw : Bool} {sz : Sz} {sc : Scope} {d : SReg} {a b : Src} {off : BitVec 16}

theorem parkFor_park_isSome (s : State) (tval : Word) (regs : List Nat) : (s.parkFor tval regs).thr.park.isSome = true := by
  rw [State.parkFor, State.modThr_thr]
  dsimp only
  split <;> rfl

theorem waitge_enters {l : Nat} (hwait : s.thr.wait = .none) (h : Present s (srcRegs a ++ srcRegs b))
    (hal : (baseOff (s.src a) off).toNat % sz.bytes = 0)
    (hc : Cleared s [.one (baseOff (s.src a) off).toNat sz.bytes true false .noHost] [l]) :
    Completes (.waitge sw sz sc d a b off) s fun t => KeepsRegs s t ∧ t.thr.pc = s.thr.pc ∧
      t.thr.wait = .waitge s.seq none false ∧ t.thr.park.isSome = true ∧
      EntersPort s t [s.newAccess (.waitge (s.src b).toNat) sc true false none 0 [⟨0, baseOff (s.src a) off, l, sz.bytes, []⟩]] :=
  ⟨_, exec_cleared (exec_waitge hwait h) (one_aligned hal) hc,
    ⟨fun _ _ => ⟨rfl, rfl⟩, fun _ _ => ⟨rfl, rfl⟩, fun _ _ => ⟨rfl, rfl⟩, rfl⟩, rfl, rfl, parkFor_park_isSome _ _ _,
    toPort_entersPort (u := s.bump) rfl _ rfl⟩

theorem waitge_ends {id : Nat} {x : Word} {failed : Bool} (h : s.thr.wait = .waitge id (some x) failed) :
    Completes (.waitge sw sz sc d a b off) s fun t => WritesS s t d x ∧ InSequence sw s t := by
  refine ⟨(s.writeS d x).finish sw, ?_, writeS_finish s d x sw⟩
  show execWaitge sw sz sc d a b off s = _
  rw [execWaitge, h]

end

/-! ### FENCE -/

/-- An access that a fence of its thread waits for: one with a value to take, a flush or an invalidation, and at `.k` to `.s` a
write; no gather (R199, R239). -/
def Access.HoldsFence (sc : Scope) (a : Access) : Prop := match a.kind with
  | .gath => False
  | .load | .ldf | .ldfp | .amo .. | .waitge _ | .tflush | .tinv => True
  | .redu _ _ _ _ src => sc ∉ [Scope.t, Scope.c] ∨ src = none
  | .store | .ste | .setfe _ | .hist _ => sc ∉ [Scope.t, Scope.c]

theorem holdsFence_near {sc : Scope} (h : sc ∈ [Scope.t, Scope.c]) (a : Access) : a.HoldsFence sc ↔
    a.kind ≠ .gath ∧ (a.readPending || a.kind == .tflush || a.kind == .tinv) = true := by
  rw [Access.HoldsFence, Access.readPending]
  cases a.kind <;> simp [h]

theorem holdsFence_far {sc : Scope} (h : sc ∉ [Scope.t, Scope.c]) (a : Access) : a.HoldsFence sc ↔ a.kind ≠ .gath := by
  rw [Access.HoldsFence]
  cases a.kind <;> simp [h]

/-- What a fence waits for (R199). -/
def FenceWaits (s : State) (sc : Scope) : Prop :=
  s.thr.sendq ≠ [] ∨ ∃ x ∈ (s.core s.gc).port, x.tid = s.thr.id ∧ x.HoldsFence sc

theorem fenceOk_iff (s : State) (sc : Scope) : fenceOk s sc = true ↔ ¬ FenceWaits s sc := by
  have hnear (h : sc ∈ [Scope.t, Scope.c]) : FenceWaits s sc ↔ s.thr.sendq ≠ [] ∨ ∃ x ∈ (s.core s.gc).port, x.tid = s.thr.id ∧
      x.kind ≠ .gath ∧ (x.readPending || x.kind == .tflush || x.kind == .tinv) = true := by
    simp only [FenceWaits, holdsFence_near h]
  have hfar (h : sc ∉ [Scope.t, Scope.c]) : FenceWaits s sc ↔
      s.thr.sendq ≠ [] ∨ ∃ x ∈ (s.core s.gc).port, x.tid = s.thr.id ∧ x.kind ≠ .gath := by
    simp only [FenceWaits, holdsFence_far h]
  cases sc with
  | t | c => rw [hnear (by decide)]; simp [fenceOk]
  | k | m | g | s => rw [hfar (by decide)]; simp [fenceOk]

theorem fence_goes {s : State} {sc : Scope} (h : ¬ FenceWaits s sc) (sw : Bool) :
    Completes (.fence sw sc) s fun t => KeepsRegs s t ∧ OnlyThread s t ∧ InSequence sw s t := by
  obtain ⟨hregs, hkept, hseq⟩ := finish_passes (s := s) rfl sw
  exact ⟨s.finish sw, congrArg _ (if_pos ((fenceOk_iff s sc).2 h)), hregs, ⟨rfl, hkept⟩, hseq⟩

theorem fence_holds {s : State} {sc : Scope} (h : FenceWaits s sc) (sw : Bool) :
    Completes (.fence sw sc) s fun t => KeepsRegs s t ∧ OnlyThread s t ∧ t.thr.pc = s.thr.pc :=
  ⟨s.modThr fun t => { t with wait := .hold 0 false 0, park := none }, congrArg _ (if_neg fun hok => (fenceOk_iff s sc).1 hok h),
    ⟨fun _ _ => ⟨rfl, rfl⟩, fun _ _ => ⟨rfl, rfl⟩, fun _ _ => ⟨rfl, rfl⟩, rfl⟩, ⟨rfl, rfl⟩, rfl⟩

/-! ### PREF, TFLUSH and TINV -/

section
variable {i : Instr} {s : State} {sw : Bool} {a : Src} {b : Option Src} {off : BitVec 16} (h : Present s (srcRegs a ++ optRegs b))
include h

theorem pref_completes : Completes (.pref sw a b off) s fun t => KeepsRegs s t ∧ OnlyThread s t ∧ InSequence sw s t := by
  obtain ⟨hregs, hkept, hseq⟩ := finish_passes (s := s) rfl sw
  exact ⟨s.finish sw, congrArg _ (withRegs_present h _), hregs, ⟨rfl, hkept⟩, hseq⟩

theorem tileForm_completes {kind : AccKind} {w : Bool} {va len : Nat} {locs : List Nat}
    (hexec : exec i s = .next (tileForm sw kind w a b off s)) (hva : (baseOff (s.src a) off).toNat = va) (hlen : rangeLen s b = len)
    (hroom : queueFull (s.core s.gc).port = false) (hc : Cleared s (itemsOf s s.gc s.thr.vd va len (!w) w .any) locs) :
    let parts := tileParts s s.gc s.thr.vd (tilesOf s s.gc s.thr.vd va len)
    Completes i s fun t => KeepsRegs s t ∧ InSequence sw s t ∧ EntersPort s t (if parts = [] then [] else
      [{ s.newAccess kind .t false false none 0 parts with named := [(va, len)] }]) := by
  subst hva hlen
  intro parts
  refine ⟨_, hexec, ?_⟩
  rw [tileForm, withRegs_present h]
  dsimp only
  rw [checkedMid_cleared hc]
  by_cases hp : parts = []
  · obtain ⟨hregs, -, hseq⟩ := finish_passes (s := s) rfl sw
    rw [if_pos hp, if_pos (List.isEmpty_iff.2 hp)]
    exact ⟨hregs, hseq, entersPort_nil rfl⟩
  · rw [if_neg hp, if_neg (fun he => hp (List.isEmpty_iff.1 he)), hroom, if_neg Bool.false_ne_true]
    obtain ⟨⟨hregs, -, hseq⟩, hport⟩ := bump_toPort_finish s
      { s.newAccess kind .t false false none 0 parts with named := [((baseOff (s.src a) off).toNat, rangeLen s b)] } sw
    exact ⟨hregs, hseq, hport⟩

end

/-! ### The statement -/

/-- Settles O19: each form's one turn is read off its definition, FENCE's by the condition that it tests. That a FENCE waits for
no gather is the model's reading of R239 and R277 (log entry 28). -/
theorem waitsFencesAndTiles : Obligations.WaitsFencesAndTiles := by
  unfold Obligations.WaitsFencesAndTiles
  refine ⟨fun sw sz sc d a b off l id x s => ⟨fun hwait h hal hc => ?enters, fun h => waitge_ends h⟩,
    fun sw sc a b off locs s => ⟨fun h => fence_goes h sw, fun h => fence_holds h sw, fun h => ⟨pref_completes h, ?tiles⟩⟩⟩
  case enters => exact waitge_enters hwait h hal hc
  case tiles =>
    exact fun hroom => ⟨fun hc => tileForm_completes h rfl rfl rfl hroom hc, fun hc => tileForm_completes h rfl rfl rfl hroom hc⟩

end Sys2Proof.Machine
end

section
/-! SUPPORT. An access that stands first in its core's port: what holds it, how it leaves, and what is left of the port (R180, R181,
R188, R230). -/

namespace Sys2Proof.Machine

/-! ### Threads -/

theorem modThread_world (s : State) (id : Nat) (f : Thread → Thread) :
    s.modThread id f = { s with thr := (s.modThread id f).thr, threads := (s.modThread id f).threads } := by
  rw [State.modThread, State.setThread]; split <;> rfl

theorem modThread_keyed {s : State} (hk : s.Keyed) (id : Nat) (f : Thread → Thread) : (s.modThread id f).Keyed := setThread_keyed hk _

theorem modThread_other {s : State} (hk : s.Keyed) {id k : Nat} (h : k ≠ id) {f : Thread → Thread}
    (hf : (f (s.thread id)).id = (s.thread id).id) : (s.modThread id f).thread k = s.thread k := by
  rw [State.modThread, setThread_thread, hf, thread_id hk, if_neg h]

theorem modEntry_modEntry (t : Thread) (id : Nat) {f g : BufEntry → BufEntry} (hf : ∀ e, (f e).id = e.id) :
    (t.modEntry id f).modEntry id g = t.modEntry id fun e => g (f e) := by
  simp only [Thread.modEntry, List.map_map]
  congr 1
  refine List.map_congr_left fun e _ => ?_
  rw [Function.comp_apply]
  by_cases he : e.id = id
  · rw [if_pos he, if_pos he, if_pos ((hf e).trans he)]
  · rw [if_neg he, if_neg he, if_neg he]

/-! ### Errors -/

/-- With no correctable error, reading bytes that hold no uncorrectable one counts none (R443, R445); a byte that is cut off belongs to
no massif's count. -/
theorem metBy_sound {s : State} {a : Access} {p : Part} (hbad : s.bad p.loc p.len = false) (hce : s.ce = []) : s.metBy a p = s := by
  rw [State.metBy, State.countUe, State.meets]
  split
  · rfl
  split
  case h_1 l hl =>
    obtain ⟨i, hi, rfl⟩ := List.mem_map.1 (List.mem_of_find?_eq_some hl)
    have hilt : i < p.len := List.mem_range.1 hi
    have hbyte := List.find?_some hl
    have hlost : isLost (p.loc + i) = true := by
      rw [State.bad, Bool.or_eq_false_iff, List.any_eq_false] at hbad
      rw [State.bad, Bool.or_eq_true, List.any_eq_true] at hbyte
      obtain hlost | ⟨u, hu, hov⟩ := hbyte
      · exact hlost
      · refine absurd ?_ (hbad.2 u hu)
        simp only [overlaps, Bool.and_eq_true, decide_eq_true_eq] at hov ⊢
        omega
    have hnone : massifAt (p.loc + i) = none := by
      simp only [isLost, Bool.and_eq_true, decide_eq_true_eq] at hlost
      simp only [massifAt, isDram, isSpad, Bool.and_eq_true, decide_eq_true_eq]
      rw [if_neg (by omega), if_neg (by omega), if_neg (by omega)]
    rw [State.countUnit, hnone]
  case h_2 =>
    rw [hce, List.filter_nil]
    simp only [List.foldl_nil, List.filter_nil]
    rw [← hce]

theorem readLoc_some {s : State} {loc len : Nat} (h : s.bad loc len = false) : s.readLoc loc len = some (memReadN s.mem loc len) :=
  if_neg (by simp [h])

/-! ### Waiters -/

/-- No entry of one part waits at its home. -/
def Unwaited (s : State) : Prop := ∀ e ∈ s.cores, ∀ a ∈ e.2.port, a.waiting = true → ∀ p, a.parts ≠ [p]

theorem insertBy_ne_nil {α : Type} (f : α → Nat) (x : α) (l : List α) : insertBy f x l ≠ [] := by
  cases l with
  | nil => exact List.cons_ne_nil _ _
  | cons y ys => rw [insertBy]; split <;> exact List.cons_ne_nil _ _

theorem sortBy_eq_nil {α : Type} {f : α → Nat} {l : List α} (h : sortBy f l = []) : l = [] := by
  rcases List.eq_nil_or_concat l with rfl | ⟨init, x, rfl⟩
  · rfl
  · rw [sortBy, List.concat_eq_append, List.foldl_append, List.foldl_cons, List.foldl_nil] at h
    exact absurd h (insertBy_ne_nil _ _ _)

theorem unwaited_iff (s : State) : (∀ w, waitersOf s w = []) ↔ Unwaited s := by
  constructor
  · intro h e he a ha hw p hp
    have hall := List.flatten_eq_nil_iff.1 (sortBy_eq_nil (h (wordOf p.loc))) _ (List.mem_map_of_mem he)
    have hthis := List.filterMap_eq_nil_iff.1 hall a ha
    simp only [hw, hp, if_true] at hthis
    cases hthis
  · intro h w
    rw [waitersOf]
    refine (congrArg (sortBy fun x : Nat × Access × Part => x.2.1.arrived) (List.flatten_eq_nil_iff.mpr fun l hl => ?_)).trans rfl
    obtain ⟨e, he, rfl⟩ := List.mem_map.mp hl
    refine List.filterMap_eq_nil_iff.mpr fun a ha => ?_
    split
    · next hw =>
      split
      · next hp => exact absurd hp (h e he a ha hw _)
      · rfl
    · rfl

section
variable {s : State} (h : Unwaited s)
include h

theorem wordChanged_unwaited (w : Nat) : wordChanged s w = s := by
  rw [wordChanged, (unwaited_iff s).2 h w]; rfl

theorem foldl_wordChanged_unwaited (ws : List Nat) : ws.foldl wordChanged s = s := by
  induction ws with
  | nil => rfl
  | cons w ws ih => rw [List.foldl_cons, wordChanged_unwaited h, ih]

theorem Unwaited.core (gc : Nat) : ∀ a ∈ (s.core gc).port, a.waiting = true → ∀ p, a.parts ≠ [p] := by
  rw [State.core, tblGet]
  cases hc : tblFind s.cores gc with
  | none => exact fun a ha => absurd ha List.not_mem_nil
  | some c => exact h _ (mem_of_tblFind hc)

/-- A core's port takes other entries, none of which waits. -/
theorem Unwaited.put {t : State} {gc : Nat} {c : Core} (ht : t.cores = tblPut s.cores gc c)
    (hc : ∀ a ∈ c.port, a.waiting = true → ∀ p, a.parts ≠ [p]) : Unwaited t := by
  intro e he
  rw [ht] at he
  obtain rfl | he := mem_tblPut he
  · exact hc
  · exact h e he

end

theorem Unwaited.congr {s t : State} (h : Unwaited s) (ht : t.cores = s.cores) : Unwaited t := by
  rw [Unwaited, ht]; exact h

/-! ### The first access of a port -/

/-- A change of the first entry alone. -/
theorem map_first {α : Type} {f : α → α} {c : α → Prop} [DecidablePred c] {a : α} {rest : List α} (ha : c a)
    (hrest : ∀ b ∈ rest, ¬ c b) : ((a :: rest).map fun b => if c b then f b else b) = f a :: rest := by
  have hkeep : (rest.map fun b => if c b then f b else b) = rest :=
    (List.map_congr_left fun b hb => if_neg (hrest b hb)).trans (List.map_id' rest)
  rw [List.map_cons, if_pos ha, hkeep]

theorem modCore_congr {s : State} {gc : Nat} {f g : Core → Core} (h : f (s.core gc) = g (s.core gc)) :
    s.modCore gc f = s.modCore gc g := congrArg (s.setCore gc) h

section
variable {s : State} {gc : Nat} {a : Access} {p : Part} {rest : List Access} (h : OldestOf s gc a p rest)
include h

theorem OldestOf.reachedParts : reachedParts s gc a = a := by
  obtain ⟨-, -, -, -, -, -, -, hlinks⟩ := h
  have hparts : (a.parts.map fun q => { q with loc := reached s gc (s.thread a.tid).vd q.va.toNat q.loc }) = a.parts := by
    simp only [reached_linked hlinks, List.map_id']
  rw [Machine.reachedParts, hparts]

theorem OldestOf.beforeOf : beforeOf (s.core gc).port a = [] := by
  rw [Machine.beforeOf, h.1, List.takeWhile_cons_of_neg (by simp)]

theorem OldestOf.mayGo : mayGo (s.thread a.tid) [] a = true := by
  obtain ⟨-, -, -, hwait, haway, -, hsends, -⟩ := h
  have hsent : sendsBefore (s.thread a.tid) a.id = false := by
    rw [sendsBefore, List.any_eq_false]
    exact fun e he => by simpa using hsends e he
  have hrel : releaseOk (s.thread a.tid) [] a = true := by
    rw [releaseOk, hsent]
    cases a.sc <;> rfl
  simp [Machine.mayGo, Access.atHome, heldBy, hwait, haway, hrel]

/-- The access reaches its home with nothing before it. -/
theorem OldestOf.exec : exec (.accessAtHome (.port gc a.id p.lane)) s = .next (match a.kind with
    | .load => applyLoad s gc a p []
    | .store => applyStore (s.leave gc [] a) gc a p
    | .ldf => arriveSync s gc a p
    | .ste => arriveSync (s.leave gc [] a) gc a p
    | .ldfp => applyLdfp s gc a p
    | .setfe full => applySetfe (s.leave gc [] a) gc a p full
    | .amo op b c => applyAmo (s.leave gc [] a) gc a p op b c
    | _ => applyPort s gc a p.lane) := by
  have hfind : (s.core gc).port.find? (fun b => b.id = a.id) = some a := by rw [h.1]; exact List.find?_cons_of_pos (by simp)
  have hparts := h.2.2.1
  have hlocBusy : locBusy [] a p = false := by
    rw [locBusy, hparts, List.takeWhile_cons_of_neg (by simp)]; rfl
  have hlane : a.parts.find? (fun q => q.lane = p.lane) = some p := by rw [hparts]; exact List.find?_cons_of_pos (by simp)
  show execAccessAtHome (.port gc a.id p.lane) s = _
  simp only [execAccessAtHome, hfind]
  have hhomeBusy : homeBusy s gc [] a p = false := by rw [homeBusy]; exact Bool.and_false _
  have hnow (k : State → State) : writeNow s gc [] a false k = k (s.leave gc [] a) := rfl
  cases hk : a.kind <;>
    simp [applyPort, h.reachedParts, h.beforeOf, hlane, h.mayGo, hk, hlocBusy, hhomeBusy, hnow]

/-- A write that leaves takes its entry out of the store queue, and the rest of the port stays. -/
theorem OldestOf.leave : s.leave gc [] a = s.modCore gc fun c => { c with port := { a with sent := true } :: rest } := by
  have hmap : (s.core gc).port.map (fun b => if [a.id].contains b.id then { b with sent := true } else b) =
      { a with sent := true } :: rest := by
    rw [h.1]
    exact map_first (by simp) fun b hb => by simpa using h.2.1 b hb
  rw [State.leave]
  exact modCore_congr (congrArg (fun l => { s.core gc with port := l }) hmap)

theorem OldestOf.leave_port : ((s.leave gc [] a).core gc).port = { a with sent := true } :: rest := by
  rw [h.leave, modCore_core_same]

end

/-! ### Leaving the port -/

section
variable {s : State} {gc : Nat} {a b : Access} {p : Part} {rest : List Access}

theorem mem_portAfter {x : Access} : x ∈ portAfter a rest ↔ x ∈ rest := by
  rw [portAfter]
  split
  · simp only [List.mem_append, List.mem_filter, bne_iff_ne, beq_iff_eq]; tauto
  · rfl

theorem dropLane_first (hids : ∀ x ∈ rest, x.id ≠ b.id) (hparts : b.parts = [p]) :
    dropLane (b :: rest) b.id p.lane = portAfter b rest := by
  have hfind : (b :: rest).find? (fun x => x.id = b.id) = some b := List.find?_cons_of_pos (by simp)
  have hfilter : rest.filter (fun x => x.id != b.id) = rest := List.filter_eq_self.2 fun x hx => by simp [hids x hx]
  simp [dropLane, hfind, hparts, portAfter, hfilter]

/-- A part's taking of its value, as far as its buffered result goes. -/
def takenEntry (a : Access) (p : Part) (x : Nat) (st : PWord) (e : BufEntry) : BufEntry :=
  { e with writes := e.writes.map (putResult a p x st), form := e.form.take p x }

/-- An entry that stands first in a port for an access of one part: the access itself, or what the store queue has made of it. -/
structure StandsFirst (s : State) (gc : Nat) (a : Access) (p : Part) (rest : List Access) : Prop where
  keyed : s.Keyed
  first : ∃ b, (s.core gc).port = b :: rest ∧ b.id = a.id ∧ b.tid = a.tid ∧ b.acq = a.acq ∧ b.parts = [p]
  ids : ∀ x ∈ rest, x.id ≠ a.id

theorem OldestOf.standsFirst (h : OldestOf s gc a p rest) : StandsFirst s gc a p rest := by
  obtain ⟨hport, hids, hparts, -, -, hk, -⟩ := h
  exact ⟨hk, ⟨a, hport, rfl, rfl, rfl, hparts⟩, hids⟩

theorem OldestOf.leave_standsFirst (h : OldestOf s gc a p rest) : StandsFirst (s.leave gc [] a) gc a p rest := by
  have hport := h.leave_port
  obtain ⟨-, hids, hparts, -, -, hk, -⟩ := h
  exact ⟨hk, ⟨{ a with sent := true }, hport, rfl, rfl, rfl, hparts⟩, hids⟩

theorem StandsFirst.congr (h : StandsFirst s gc a p rest) {t : State} (hc : t.cores = s.cores) (hk : t.Keyed) :
    StandsFirst t gc a p rest := by
  have hcore : t.core gc = s.core gc := by rw [State.core, State.core, hc]
  exact ⟨hk, hcore ▸ h.first, h.ids⟩

/-- The first access of a port has left it: its buffered result has changed by `f` and is formed, the port holds what came after
it, and no other thread or core has changed. -/
structure LeavesPort (s t : State) (gc : Nat) (a : Access) (rest : List Access) (f : BufEntry → BufEntry) : Prop where
  thread : t.thread a.tid = (s.thread a.tid).modEntry a.id fun e => { f e with done := true }
  others : ∀ k, k ≠ a.tid → t.thread k = s.thread k
  cores : t.cores = tblPut s.cores gc { s.core gc with port := portAfter a rest }
  world : t = { s with thr := t.thr, threads := t.threads, cores := t.cores }

theorem StandsFirst.partDone (h : StandsFirst s gc a p rest) : LeavesPort s (s.partDone gc a p.lane) gc a rest id := by
  obtain ⟨hk, ⟨b, hport, hid, htid, hacq, hparts⟩, hids⟩ := h
  have hafter : portAfter b rest = portAfter a rest := by rw [portAfter, portAfter, htid, hacq]
  have hdrop : dropLane (s.core gc).port a.id p.lane = portAfter a rest := by
    rw [hport, ← hid, dropLane_first (hid ▸ hids) hparts, hafter]
  have hgone : (portAfter a rest).any (fun x => x.id = a.id) = false :=
    List.any_eq_false.2 fun x hx => by simpa using hids x (mem_portAfter.1 hx)
  have hdone : s.partDone gc a p.lane = (s.modCore gc fun c => { c with port := portAfter a rest }).modThread a.tid
      fun t => t.modEntry a.id fun e => { e with done := true } := by
    rw [State.partDone, modCore_congr (g := fun c => { c with port := portAfter a rest })
      (congrArg (fun l => { s.core gc with port := l }) hdrop)]
    simp only [modCore_core_same, hgone, Bool.false_eq_true, if_false]
  rw [hdone]
  have hku : (s.modCore gc fun c => { c with port := portAfter a rest }).Keyed := hk
  exact ⟨modThread_thread hku rfl, fun k hne => modThread_other hku hne rfl, modThread_cores ..,
    (modThread_world ..).trans (by rw [modThread_cores]; rfl)⟩

/-- An access that returns a value takes it and leaves. -/
theorem StandsFirst.takeValue_partDone (h : StandsFirst s gc a p rest) (x : Nat) (st : PWord) :
    LeavesPort s ((s.takeValue a p (some x) st).partDone gc a p.lane) gc a rest (takenEntry a p x st) := by
  have hu : s.takeValue a p (some x) st = s.modThread a.tid fun t => t.modEntry a.id (takenEntry a p x st) := rfl
  rw [hu]
  have hfirst : StandsFirst (s.modThread a.tid fun t => t.modEntry a.id (takenEntry a p x st)) gc a p rest :=
    h.congr (modThread_cores ..) (modThread_keyed h.keyed _ _)
  obtain ⟨hthread, hothers, hcores, hworld⟩ := hfirst.partDone
  refine ⟨?_, fun k hne => (hothers k hne).trans (modThread_other h.keyed hne rfl), ?_, ?_⟩
  · rw [hthread, modThread_thread h.keyed rfl, modEntry_modEntry (f := takenEntry a p x st) _ _ fun _ => rfl]; rfl
  · rw [hcores, State.core, State.core, modThread_cores]
  · exact hworld.trans (by rw [modThread_world])

section
variable {t : State} {f : BufEntry → BufEntry} (h : LeavesPort s t gc a rest f)
include h

theorem LeavesPort.port : (t.core gc).port = portAfter a rest := by
  rw [State.core, h.cores, tblGet_put, if_pos rfl]

theorem LeavesPort.mem : t.mem = s.mem := by rw [h.world]
theorem LeavesPort.full : t.full = s.full := by rw [h.world]

/-- No thread's registers change. -/
theorem LeavesPort.regs (k : Nat) : SameS (s.thread k) (t.thread k) [] ∧ SameV (s.thread k) (t.thread k) [] ∧
    SameP (s.thread k) (t.thread k) [] := by
  by_cases hk : k = a.tid
  · subst hk
    rw [h.thread]
    exact ⟨fun _ _ => ⟨rfl, rfl⟩, fun _ _ => ⟨rfl, rfl⟩, fun _ _ => ⟨rfl, rfl⟩⟩
  · rw [h.others k hk]
    exact ⟨fun _ _ => ⟨rfl, rfl⟩, fun _ _ => ⟨rfl, rfl⟩, fun _ _ => ⟨rfl, rfl⟩⟩

/-- What stands in the port afterwards stood there before. -/
theorem LeavesPort.unwaited (hfirst : StandsFirst s gc a p rest) (hu : Unwaited s) : Unwaited t := by
  obtain ⟨b, hport, -⟩ := hfirst.first
  refine hu.put h.cores fun x hx => hu.core gc x ?_
  rw [hport]
  exact List.mem_cons_of_mem _ (mem_portAfter.1 hx)

end

end

/-! ### Writes at a home -/

/-- Only memory has changed: its bytes, what the caches have still to write back, and the errors in its units. -/
def OnlyMemory (s t : State) : Prop := t = { s with mem := t.mem, back := t.back, ue := t.ue, ce := t.ce, free := t.free }

theorem OnlyMemory.trans {s t u : State} (h : OnlyMemory s t) (h' : OnlyMemory t u) : OnlyMemory s u := by
  rw [OnlyMemory] at h h' ⊢; rw [h', h]

section
variable {s t : State} (h : OnlyMemory s t)
include h

theorem OnlyMemory.cores : t.cores = s.cores := by rw [OnlyMemory] at h; rw [h]
theorem OnlyMemory.threads : t.threads = s.threads := by rw [OnlyMemory] at h; rw [h]
theorem OnlyMemory.thr : t.thr = s.thr := by rw [OnlyMemory] at h; rw [h]
theorem OnlyMemory.full : t.full = s.full := by rw [OnlyMemory] at h; rw [h]
theorem OnlyMemory.vds : t.vds = s.vds := by rw [OnlyMemory] at h; rw [h]
theorem OnlyMemory.fns : t.fns = s.fns := by rw [OnlyMemory] at h; rw [h]
theorem OnlyMemory.thread : t.thread = s.thread := thread_congr h.thr h.threads
theorem OnlyMemory.keyed (hk : s.Keyed) : t.Keyed := fun e he => hk e (h.threads ▸ he)

end

theorem rawWrite_onlyMemory (s : State) (loc : Nat) (bs : List Byte) : OnlyMemory s (s.rawWrite loc bs) := by
  rw [State.rawWrite]; split <;> rfl

theorem cleanTile_onlyMemory (s : State) (vk : Nat) (x : Tile) : OnlyMemory s (s.cleanTile vk x) := by
  rw [State.cleanTile]; split <;> rfl

theorem cleanTile_mem (s : State) (vk : Nat) (x : Tile) : (s.cleanTile vk x).mem = s.mem := by
  rw [State.cleanTile]; split <;> rfl

/-- A tile that is written back changes no byte (R176). -/
theorem spill_keeps (s : State) (loc : Nat) : OnlyMemory s (s.spill loc) ∧ (s.spill loc).mem = s.mem := by
  rw [State.spill]
  split
  · exact ⟨rfl, rfl⟩
  split
  · exact ⟨rfl, rfl⟩
  split
  · exact ⟨rfl, rfl⟩
  dsimp only
  split
  · exact ⟨rfl, rfl⟩
  · exact ⟨.trans (t := { s with free := _ }) rfl (cleanTile_onlyMemory ..), cleanTile_mem ..⟩

/-- A write that no bad unit refuses, with nothing that waits for its words (R187, R193). -/
theorem writeLoc_unwaited {s : State} (hu : Unwaited s) {loc : Nat} {bs : List Byte} (hw : s.canWrite loc bs.length = true) :
    s.writeLoc loc bs = ((s.rawWrite loc bs).spill loc, true) := by
  have honly := (rawWrite_onlyMemory s loc bs).trans (spill_keeps (s.rawWrite loc bs) loc).1
  rw [State.writeLoc, if_pos hw, foldl_wordChanged_unwaited (hu.congr honly.cores)]

theorem spill_read (s : State) (loc : Nat) (bs : List Byte) (x : Nat) : memRead ((s.rawWrite loc bs).spill loc).mem x =
    if isTrig loc = false ∧ loc ≤ x ∧ x < loc + bs.length then bs.getD (x - loc) 0 else memRead s.mem x := by
  rw [(spill_keeps ..).2, rawWrite_read]

end Sys2Proof.Machine
end

section
/-! SUPPORT. Loads, stores and atomics at their homes (R180, R187, R188, R196, R231, R280). -/

namespace Sys2Proof.Machine

/-! ### Bytes -/

theorem ofBytes_lt (bs : List Byte) : ofBytes bs < 2 ^ (8 * bs.length) := by
  induction bs with
  | nil => exact Nat.one_pos
  | cons b bs ih =>
    have hb : b.toNat < 256 := b.isLt
    have hpow : 2 ^ (8 * (bs.length + 1)) = 256 * 2 ^ (8 * bs.length) := by rw [Nat.mul_add, Nat.pow_add, Nat.mul_comm]
    rw [ofBytes, List.length_cons, hpow]
    omega

@[simp] theorem toBytes_length (n x : Nat) : (toBytes n x).length = n := by
  induction n generalizing x with
  | zero => rfl
  | succ n ih => rw [toBytes, List.length_cons, ih]

@[simp] theorem memReadN_length (m : List Host.Cell) (loc n : Nat) : (memReadN m loc n).length = n := by
  rw [memReadN, List.length_map, List.length_range]

/-! ### The new value of an AMO (R196) -/

/-- The new value of an AMO over `w` bits of which `old` are those that it finds. -/
def amoValue (op : AmoOp) (w old : Nat) (b c : Word) : Nat :=
  let x := BitVec.ofNat w old
  let y := BitVec.ofNat w b.toNat
  match op with
  | .swap => y.toNat
  | .add => (x + y).toNat
  | .and => (x &&& y).toNat
  | .or => (x ||| y).toNat
  | .xor => (x ^^^ y).toNat
  | .min => if x.toInt ≤ y.toInt then x.toNat else y.toNat
  | .max => if x.toInt ≤ y.toInt then y.toNat else x.toNat
  | .minu => if x.toNat ≤ y.toNat then x.toNat else y.toNat
  | .maxu => if x.toNat ≤ y.toNat then y.toNat else x.toNat
  | .cas => if x = BitVec.ofNat w c.toNat then y.toNat else x.toNat
  | .fadd => fF32.round .rne false 0 (addV .rne (fF32.decode x.toNat) (fF32.decode y.toNat))

theorem amoNew_eq_amoValue (op : AmoOp) {w old : Nat} (b c : Word) (h : old < 2 ^ w) :
    amoNew op w old (b.toNat % 2 ^ w) (c.toNat % 2 ^ w) = amoValue op w old b c := by
  have hx : (BitVec.ofNat w old).toNat = old := by rw [BitVec.toNat_ofNat, Nat.mod_eq_of_lt h]
  have hy : (BitVec.ofNat w b.toNat).toNat = b.toNat % 2 ^ w := BitVec.toNat_ofNat ..
  have hsx : toSigned w old = (BitVec.ofNat w old).toInt := toSigned_eq_toInt ..
  have hsy : toSigned w (b.toNat % 2 ^ w) = (BitVec.ofNat w b.toNat).toInt := by
    rw [toSigned_eq_toInt]; congr 1; exact BitVec.eq_of_toNat_eq (by simp)
  have hcas : BitVec.ofNat w old = BitVec.ofNat w c.toNat ↔ old = c.toNat % 2 ^ w := by
    rw [← BitVec.toNat_inj, hx, BitVec.toNat_ofNat]
  cases op with
  | swap => exact hy.symm
  | add => rw [amoNew, amoValue]; rw [BitVec.toNat_add, hx, hy]
  | and => rw [amoNew, amoValue]; rw [BitVec.toNat_and, hx, hy]
  | or => rw [amoNew, amoValue]; rw [BitVec.toNat_or, hx, hy]
  | xor => rw [amoNew, amoValue]; rw [BitVec.toNat_xor, hx, hy]
  | min | max => rw [amoNew, amoValue]; rw [hsx, hsy, hx, hy]
  | minu => rw [amoNew, amoValue]; rw [hx, hy, min_def]
  | maxu => rw [amoNew, amoValue]; rw [hx, hy, max_def]
  | cas => rw [amoNew, amoValue]; simp only [hcas, hx, hy]
  | fadd => rw [amoNew, amoValue]; rw [hx, hy]

/-! ### The accesses -/

theorem canWrite_of_sound {s : State} {loc len : Nat} (h : s.bad loc len = false) : s.canWrite loc len = true := by
  rw [State.bad, Bool.or_eq_false_iff, List.any_eq_false] at h
  rw [State.canWrite, h.1, Bool.not_false, Bool.true_and, List.all_eq_true]
  exact fun u hu => by simp [h.2 u hu]

section
variable {s : State} {gc : Nat} {a : Access} {p : Part} {rest : List Access} (h : OldestOf s gc a p rest)
include h

theorem load_completes (hkind : a.kind = .load) (hbad : s.bad p.loc p.len = false) (hce : s.ce = []) :
    Completes (.accessAtHome (.port gc a.id p.lane)) s fun t =>
      LeavesPort s t gc a rest (takenEntry a p (ofBytes (memReadN s.mem p.loc p.len)) 0) := by
  refine ⟨_, h.exec, ?_⟩
  have hfwd : fwd [] p.loc p.len = .home := if_pos (by simp [fwdByte, ordered, taken])
  have hbusy : homeBusy s gc [] a p = false := by rw [homeBusy]; exact Bool.and_false _
  simp only [hkind, applyLoad, hfwd, hbusy, readHome, readLoc_some hbad, metBy_sound hbad hce]
  exact h.standsFirst.takeValue_partDone _ _

/-- A queued write that leaves changes its core alone. -/
theorem OldestOf.leave_unwaited (hu : Unwaited s) : Unwaited (s.leave gc [] a) := by
  rw [h.leave]
  obtain ⟨hport, -, hparts, hwait, -⟩ := h
  refine hu.put rfl fun x hx => ?_
  obtain rfl | hx := List.mem_cons.1 hx
  · exact fun hw => absurd (hwait.symm.trans hw) Bool.false_ne_true
  · exact hu.core gc x (hport ▸ List.mem_cons_of_mem _ hx)

theorem store_completes (hkind : a.kind = .store) (hlen : p.data.length = p.len) (hw : s.canWrite p.loc p.len = true)
    (htrig : isTrig p.loc = false) (hu : Unwaited s) : Completes (.accessAtHome (.port gc a.id p.lane)) s fun t =>
      StoresBytes s t p.loc p.data ∧ (t.core gc).port = portAfter a rest ∧
      (∀ k, SameS (s.thread k) (t.thread k) [] ∧ SameV (s.thread k) (t.thread k) [] ∧ SameP (s.thread k) (t.thread k) []) ∧
      t.full = s.full ∧ t.vds = s.vds ∧ t.fns = s.fns := by
  refine ⟨_, h.exec, ?_⟩
  have hwrite := writeLoc_unwaited (h.leave_unwaited hu) (bs := p.data) (loc := p.loc) (hlen.symm ▸ hw)
  simp only [hkind, applyStore, htrig, Bool.false_eq_true, if_false, hwrite, if_true]
  have honly := (rawWrite_onlyMemory (s.leave gc [] a) p.loc p.data).trans
    (spill_keeps ((s.leave gc [] a).rawWrite p.loc p.data) p.loc).1
  have hleaves := (h.leave_standsFirst.congr honly.cores (honly.keyed h.leave_standsFirst.keyed)).partDone
  have hread := spill_read (s.leave gc [] a) p.loc p.data
  generalize ((s.leave gc [] a).rawWrite p.loc p.data).spill p.loc = v at honly hleaves hread ⊢
  refine ⟨fun x => ?_, hleaves.port, fun k => ?_, ?_, ?_, ?_⟩
  · rw [hleaves.mem, hread]; simp only [htrig, true_and]; rfl
  · have hregs := hleaves.regs k
    rw [honly.thread] at hregs
    exact hregs
  · exact hleaves.full.trans honly.full
  · rw [hleaves.world]; exact honly.vds
  · rw [hleaves.world]; exact honly.fns

/-- An AMO takes the old value and leaves, and its new value is written in the same step; a VD's trigger word takes none (R280). -/
theorem amo_completes_home {op : AmoOp} {b c : Word} (hkind : a.kind = .amo op b c) (hbad : s.bad p.loc p.len = false)
    (hce : s.ce = []) (hu : Unwaited s) : Completes (.accessAtHome (.port gc a.id p.lane)) s fun t =>
      let old := ofBytes (memReadN s.mem p.loc p.len)
      (if isTrig p.loc = true then SameMemory s t else
        StoresBytes s t p.loc (toBytes p.len (amoValue op (8 * p.len) old b c))) ∧
      (t.core gc).port = portAfter a rest ∧ t.full = s.full ∧
      t.thread a.tid = (s.thread a.tid).modEntry a.id fun e => { takenEntry a p old 0 e with done := true } := by
  refine ⟨_, h.exec, ?_⟩
  have hbad' : (s.leave gc [] a).bad p.loc p.len = false := hbad
  have hlt : ofBytes (memReadN s.mem p.loc p.len) < 2 ^ (8 * p.len) := by
    simpa using ofBytes_lt (memReadN s.mem p.loc p.len)
  have hleaves := h.leave_standsFirst.takeValue_partDone (ofBytes (memReadN s.mem p.loc p.len)) 0
  have hunw := hleaves.unwaited h.leave_standsFirst (h.leave_unwaited hu)
  have hmem : (s.leave gc [] a).mem = s.mem := rfl
  simp only [hkind, applyAmo, readLoc_some hbad', metBy_sound hbad' hce, hmem, amoNew_eq_amoValue op b c hlt]
  generalize ((s.leave gc [] a).takeValue a p (some (ofBytes (memReadN s.mem p.loc p.len))) 0).partDone gc a p.lane = v
    at hleaves hunw ⊢
  have hbadv : v.bad p.loc p.len = false := by rw [hleaves.world]; exact hbad
  generalize amoValue op (8 * p.len) _ b c = new
  rw [writeLoc_unwaited hunw (by rw [toBytes_length]; exact canWrite_of_sound hbadv)]
  have honly := (rawWrite_onlyMemory v p.loc (toBytes p.len new)).trans
    (spill_keeps (v.rawWrite p.loc (toBytes p.len new)) p.loc).1
  have hread (x : Nat) : memRead ((v.rawWrite p.loc (toBytes p.len new)).spill p.loc).mem x =
      if isTrig p.loc = false ∧ p.loc ≤ x ∧ x < p.loc + (toBytes p.len new).length then (toBytes p.len new).getD (x - p.loc) 0
      else memRead s.mem x := by rw [spill_read, hleaves.mem, hmem]
  refine ⟨?_, ?_, honly.full.trans hleaves.full, ?_⟩
  · split
    · next htrig => exact fun x => (hread x).trans (if_neg (by simp [htrig]))
    · next htrig => exact fun x => (hread x).trans (by simp only [Bool.eq_false_iff.2 htrig, true_and])
  · rw [State.core, honly.cores]; exact hleaves.port
  · rw [honly.thread, hleaves.thread]; rfl

end

/-! ### The statement -/

/-- Settles O20: an access with nothing before it takes its value or leaves with its bytes written, in one step. -/
theorem accessesActAtHome : Obligations.AccessesActAtHome := by
  unfold Obligations.AccessesActAtHome
  refine ⟨fun gc a p rest s h hkind hbad hce => ?load, fun gc a p rest s h hkind hlen hw htrig hwaiters => ?store,
    fun gc a p rest op b c s h hkind _ _ hbad hce hwaiters => ?amo⟩
  case load =>
    refine (load_completes h hkind hbad hce).imp fun t hleaves => ?_
    obtain ⟨hs, hv, hp⟩ := hleaves.regs a.tid
    exact ⟨congrArg Thread.buf hleaves.thread, hleaves.port, hs, hv, hp, hleaves.world⟩
  case store => exact store_completes h hkind hlen hw htrig ((unwaited_iff s).1 hwaiters)
  case amo =>
    exact (amo_completes_home h hkind hbad hce ((unwaited_iff s).1 hwaiters)).imp fun t ⟨hmem, hport, hfull, hthread⟩ =>
      ⟨hmem, hport, hfull, congrArg Thread.buf hthread⟩

end Sys2Proof.Machine
end

section
/-! SUPPORT. Sync words at their homes (R191 to R193). -/

namespace Sys2Proof.Machine

/-! ### The state of a word -/

theorem isFull_aligned {s : State} {loc : Nat} (h : loc % 8 = 0) : s.isFull loc = s.full.contains loc := by
  have hword : wordOf loc = loc := by rw [wordOf]; omega
  rw [State.isFull, hword]

theorem setFull_isFull (s : State) (loc : Nat) (b : Bool) : (s.setFull loc b).isFull loc = b := by
  rw [State.isFull, State.setFull]
  cases b with
  | false => simp
  | true =>
    rw [if_pos rfl]
    split
    · assumption
    · simp

theorem isFull_congr {s t : State} (h : t.full = s.full) : t.isFull = s.isFull := by funext loc; rw [State.isFull, State.isFull, h]

/-! ### Room in a queue -/

/-- A list made from the entries of a table keeps its elements where those of the entry that is put, and of the one that it
replaces, are none. -/
theorem flatMap_tblPut {α β : Type} {g : Nat × α → List β} {t : Tbl α} {n : Nat} {x : α} (hnew : g (n, x) = [])
    (hold : ∀ y, tblFind t n = some y → g (n, y) = []) : (tblPut t n x).flatMap g = t.flatMap g := by
  induction t with
  | nil => simp [tblPut, hnew]
  | cons e t ih =>
    obtain ⟨k, y⟩ := e
    rw [tblPut]
    split
    · rw [List.flatMap_cons, hnew, List.nil_append]
    · split
      · next hk =>
        subst hk
        rw [List.flatMap_cons, List.flatMap_cons, hnew, hold y (if_pos rfl)]
      · next hk =>
        rw [List.flatMap_cons, List.flatMap_cons, ih fun z hz => hold z ((if_neg hk).trans hz)]

theorem filter_waiting_nil {l : List Access} (h : ∀ b ∈ l, b.waiting = false) (q : Access → Bool) :
    l.filter (fun b => b.waiting && q b) = [] := List.filter_eq_nil_iff.2 fun b hb => by simp [h b hb]

/-- The home of a byte depends on no core. -/
theorem homeOf_modCore (s : State) (gc : Nat) (f : Core → Core) : homeOf (s.modCore gc f) = homeOf s := by
  have hslice : sliceOf (s.modCore gc f) = sliceOf s := rfl
  have htile : tileOf (s.modCore gc f) = tileOf s := rfl
  have hshared : sharedSlice (s.modCore gc f) = sharedSlice s := rfl
  funext k vd va loc
  rw [homeOf, homeOf, whereIs_congr (t := s.modCore gc f) (s := s) rfl rfl,
    remapped_congr (t := s.modCore gc f) (s := s) rfl, hslice, htile, hshared]

/-- A home has room for as many as before where a core's port changes that holds no waiting entry and takes none. -/
theorem homeHasRoom_modCore {s : State} {gc : Nat} {f : Core → Core} (hold : ∀ b ∈ (s.core gc).port, b.waiting = false)
    (hnew : ∀ b ∈ (f (s.core gc)).port, b.waiting = false) (a : Access) (p : Part) :
    homeHasRoom (s.modCore gc f) gc a p = homeHasRoom s gc a p := by
  have hthread : (s.modCore gc f).thread = s.thread := rfl
  simp only [homeHasRoom, homeOf_modCore, hthread, State.modCore_cores, ← List.flatMap_def]
  have hlisted (c : Core) (hc : tblFind s.cores gc = some c) : ∀ b ∈ c.port, b.waiting = false := by
    rwa [State.core, tblGet_of_find hc] at hold
  rw [flatMap_tblPut (filter_waiting_nil hnew _) fun c hc => filter_waiting_nil (hlisted c hc) _]

section
variable {s : State} {gc : Nat} {a : Access} {p : Part} {rest : List Access} (h : OldestOf s gc a p rest)
include h

/-- An access that leaves the store queue takes no place in a home's queue. -/
theorem OldestOf.leave_homeHasRoom (hw : ∀ b ∈ (s.core gc).port, b.waiting = false) :
    homeHasRoom (s.leave gc [] a) gc a p = homeHasRoom s gc a p := by
  rw [h.leave]
  refine homeHasRoom_modCore hw (fun b hb => ?_) a p
  rw [h.1] at hw
  obtain rfl | hb := List.mem_cons.1 hb
  · exact hw a (List.mem_cons_self ..)
  · exact hw b (List.mem_cons_of_mem _ hb)


end

/-! ### The accesses -/

/-- The state of a word and a thread change independently. -/
theorem setThread_setFull (s : State) (x : Thread) (loc : Nat) (b : Bool) :
    (s.setThread x).setFull loc b = (s.setFull loc b).setThread x := by
  by_cases hx : s.thr.id = x.id
  · have hx' : (s.setFull loc b).thr.id = x.id := hx
    rw [State.setThread, State.setThread, if_pos hx, if_pos hx']; rfl
  · have hx' : (s.setFull loc b).thr.id ≠ x.id := hx
    rw [State.setThread, State.setThread, if_neg hx, if_neg hx']; rfl

theorem takeValue_setFull (s : State) (loc : Nat) (b : Bool) (a : Access) (p : Part) (x : Nat) (st : PWord) :
    (s.takeValue a p (some x) st).setFull loc b = (s.setFull loc b).takeValue a p (some x) st := setThread_setFull ..

/-- A waiting form whose condition fails stands at its home where that has room (R193). -/
theorem arriveSync_waits {s : State} {gc : Nat} {a : Access} {p : Part} (hwaits : waitHolds s a p = false)
    (hroom : homeHasRoom s gc a p = true) : arriveSync s gc a p =
      s.bump.modAccess gc a.id fun b => { b with waiting := true, turnedAway := false, arrived := s.seq } := by
  rw [arriveSync, if_neg (by simp [hwaits]), if_pos hroom]

section
variable {s t : State} {gc : Nat} {a : Access} {p : Part} {rest : List Access}

theorem LeavesPort.wordChanged {f : BufEntry → BufEntry} (h : LeavesPort s t gc a rest f) (hfirst : StandsFirst s gc a p rest)
    (hu : Unwaited s) (w : Nat) : wordChanged t w = t := wordChanged_unwaited (h.unwaited hfirst hu) w

variable (h : OldestOf s gc a p rest)
include h

theorem OldestOf.queued_port {u : State} {b : Access} {f : Access → Access} (hport : (u.core gc).port = b :: rest) (hid : b.id = a.id) :
    ((u.modAccess gc a.id f).core gc).port = f b :: rest := by
  rw [State.modAccess, modCore_core_same, hport]
  exact map_first (c := fun x : Access => x.id = a.id) hid h.2.1

/-- SETFE sets the state and keeps the value. -/
theorem setfe_sets {full : Bool} (hkind : a.kind = .setfe full) (hbad : s.bad p.loc p.len = false) (hu : Unwaited s) :
    Completes (.accessAtHome (.port gc a.id p.lane)) s fun t =>
      t.isFull p.loc = full ∧ SameMemory s t ∧ (t.core gc).port = portAfter a rest := by
  refine ⟨_, h.exec, ?_⟩
  have hbad' : (s.leave gc [] a).bad p.loc p.len = false := hbad
  have hfirst : StandsFirst ((s.leave gc [] a).setFull p.loc full) gc a p rest :=
    h.leave_standsFirst.congr rfl h.leave_standsFirst.keyed
  have hleaves := hfirst.partDone
  simp only [hkind, applySetfe, hbad', Bool.false_eq_true, if_false,
    hleaves.wordChanged hfirst ((h.leave_unwaited hu).congr rfl)]
  refine ⟨?_, fun x => ?_, hleaves.port⟩
  · rw [isFull_congr hleaves.full, setFull_isFull]
  · rw [hleaves.mem]; rfl

section
variable (haligned : p.loc % 8 = 0)
include haligned

/-- An LDF of an empty word waits at its home, and changes nothing else. -/
theorem ldf_waits (hkind : a.kind = .ldf) (hempty : s.full.contains p.loc = false) (hroom : homeHasRoom s gc a p = true) :
    Completes (.accessAtHome (.port gc a.id p.lane)) s fun t =>
      (t.core gc).port = { a with waiting := true, arrived := s.seq } :: rest ∧ t.mem = s.mem ∧ t.full = s.full := by
  refine ⟨arriveSync s gc a p, by rw [h.exec, hkind], ?_⟩
  have hwaits : waitHolds s a p = false := by rw [waitHolds, hkind]; exact (isFull_aligned haligned).trans hempty
  rw [arriveSync_waits hwaits hroom]
  refine ⟨(h.queued_port (u := s.bump) h.1 rfl).trans ?_, rfl, rfl⟩
  rw [← h.2.2.2.2.1]

/-- An STE of a full word leaves the store queue and waits at its home. -/
theorem ste_waits (hkind : a.kind = .ste) (hfull : s.full.contains p.loc = true) (hroom : homeHasRoom s gc a p = true)
    (hw : ∀ b ∈ (s.core gc).port, b.waiting = false) :
    Completes (.accessAtHome (.port gc a.id p.lane)) s fun t =>
      (t.core gc).port = { a with sent := true, waiting := true, arrived := s.seq } :: rest ∧ t.mem = s.mem ∧ t.full = s.full := by
  refine ⟨arriveSync (s.leave gc [] a) gc a p, by rw [h.exec, hkind], ?_⟩
  have hwaits : waitHolds (s.leave gc [] a) a p = false := by
    rw [waitHolds, hkind]
    exact congrArg not ((isFull_aligned (s := s.leave gc [] a) haligned).trans hfull)
  have hport : ((s.leave gc [] a).bump.core gc).port = { a with sent := true } :: rest := h.leave_port
  rw [arriveSync_waits hwaits ((h.leave_homeHasRoom hw).trans hroom)]
  refine ⟨(h.queued_port hport rfl).trans ?_, rfl, rfl⟩
  show { a with sent := true, waiting := true, turnedAway := false, arrived := s.seq } :: rest = _
  rw [← h.2.2.2.2.1]

/-- An STE of an empty word writes it and fills it. -/
theorem ste_fills (hkind : a.kind = .ste) (hspad : isSpad p.loc = true) (hempty : s.full.contains p.loc = false) (hu : Unwaited s) :
    Completes (.accessAtHome (.port gc a.id p.lane)) s fun t =>
      StoresBytes s t p.loc p.data ∧ t.isFull p.loc = true ∧ (t.core gc).port = portAfter a rest := by
  refine ⟨_, h.exec, ?_⟩
  have hwaits : waitHolds (s.leave gc [] a) a p = true := by
    rw [waitHolds, hkind]
    exact congrArg not ((isFull_aligned (s := s.leave gc [] a) haligned).trans hempty)
  have hnotrig : isTrig p.loc = false := by
    simp only [isSpad, isTrig, Bool.and_eq_true, decide_eq_true_eq, Bool.and_eq_false_iff, decide_eq_false_iff_not] at hspad ⊢
    omega
  have honly := rawWrite_onlyMemory (s.leave gc [] a) p.loc p.data
  have hread := rawWrite_read (s.leave gc [] a) p.loc p.data
  simp only [hkind, arriveSync, hwaits, if_true, performWait]
  generalize (s.leave gc [] a).rawWrite p.loc p.data = v at honly hread ⊢
  have hfirst : StandsFirst (v.setFull p.loc true) gc a p rest :=
    h.leave_standsFirst.congr honly.cores (honly.keyed h.leave_standsFirst.keyed)
  have hleaves := hfirst.partDone
  rw [hleaves.wordChanged hfirst ((h.leave_unwaited hu).congr honly.cores)]
  refine ⟨fun x => ?_, ?_, hleaves.port⟩
  · rw [hleaves.mem]
    exact (hread x).trans (by simp only [hnotrig, true_and]; rfl)
  · rw [isFull_congr hleaves.full, setFull_isFull]

variable (hbad : s.bad p.loc p.len = false) (hce : s.ce = [])
include hbad hce

/-- LDF of a full word takes its value and empties it. -/
theorem ldf_empties (hkind : a.kind = .ldf) (hfull : s.full.contains p.loc = true) (hu : Unwaited s) :
    Completes (.accessAtHome (.port gc a.id p.lane)) s fun t =>
      t.thread a.tid = (s.thread a.tid).modEntry a.id (fun e =>
        { takenEntry a p (ofBytes (memReadN s.mem p.loc p.len)) 0 e with done := true }) ∧
      t.isFull p.loc = false ∧ SameMemory s t ∧ (t.core gc).port = portAfter a rest := by
  refine ⟨_, h.exec, ?_⟩
  have hwaits : waitHolds s a p = true := by rw [waitHolds, hkind]; exact (isFull_aligned haligned).trans hfull
  have hfirst : StandsFirst (s.setFull p.loc false) gc a p rest := h.standsFirst.congr rfl h.standsFirst.keyed
  have hleaves := hfirst.takeValue_partDone (ofBytes (memReadN s.mem p.loc p.len)) 0
  simp only [hkind, arriveSync, hwaits, if_true, performWait, readLoc_some hbad, metBy_sound hbad hce, takeValue_setFull,
    hleaves.wordChanged hfirst (hu.congr rfl)]
  refine ⟨hleaves.thread, ?_, fun x => ?_, hleaves.port⟩
  · rw [isFull_congr hleaves.full, setFull_isFull]
  · rw [hleaves.mem]; rfl

/-- LDFP takes value and state together, and changes neither. -/
theorem ldfp_takes (hkind : a.kind = .ldfp) : Completes (.accessAtHome (.port gc a.id p.lane)) s fun t =>
    LeavesPort s t gc a rest (takenEntry a p (ofBytes (memReadN s.mem p.loc p.len))
      (if s.full.contains p.loc then BitVec.allOnes 128 else 0)) := by
  refine ⟨_, h.exec, ?_⟩
  simp only [hkind, applyLdfp, readLoc_some hbad, metBy_sound hbad hce, Option.isSome_some, if_true, Option.map_some,
    isFull_aligned haligned]
  exact h.standsFirst.takeValue_partDone _ _

end

end

/-! ### The statement -/

/-- Settles O21: value and state change in the step in which the access leaves; one that waits changes its own entry alone. -/
theorem fullEmptyWordsChangeInOneStep : Obligations.FullEmptyWordsChangeInOneStep := by
  unfold Obligations.FullEmptyWordsChangeInOneStep
  intro gc a p rest s h haligned hlen hspad hbad hce hwaiters hw
  have hu := (unwaited_iff s).1 hwaiters
  rw [← hlen] at hbad
  intro old go takes
  have hold : ofBytes (memReadN s.mem p.loc p.len) = old := by rw [hlen]; rfl
  refine ⟨fun hkind hfull => ?ldf, fun hkind _ hempty => ste_fills h haligned hkind hspad hempty hu,
    fun hkind hempty hroom => ldf_waits h haligned hkind hempty hroom,
    fun hkind hfull hroom => ste_waits h haligned hkind hfull hroom hw,
    fun full hkind => setfe_sets h hkind hbad hu, fun hkind => ?ldfp⟩
  case ldf =>
    have htakes := ldf_empties h haligned hbad hce hkind hfull hu
    rw [hold] at htakes
    exact htakes.imp fun t ⟨hthread, hrest⟩ => ⟨congrArg Thread.buf hthread, hrest⟩
  case ldfp =>
    have htakes := ldfp_takes h haligned hbad hce hkind
    rw [hold] at htakes
    exact htakes.imp fun t hleaves => ⟨congrArg Thread.buf hleaves.thread, hleaves.full, fun x => by rw [hleaves.mem], hleaves.port⟩

end Sys2Proof.Machine
end

section
/-! SUPPORT. Sends at issue: what a capability has to show, and where the send goes (R210 to R212, R223, R224). -/

namespace Sys2Proof.Machine

/-! ### Completion in sequence of a thread that keeps its head -/

/-- A thread that has changed in nothing that its next head depends on goes on in sequence. -/
theorem finish_inSequence {s u : State} (hnext : u.thr.next.pc = s.thr.next.pc ∧ u.thr.next.l0 = s.thr.next.l0 ∧
    u.thr.next.l1 = s.thr.next.l1) (hstop : u.thr.stop = s.thr.stop) (sw : Bool) : InSequence sw s (u.finish sw) := by
  obtain ⟨hpc, hl0, hl1⟩ := hnext
  exact ⟨hpc, hl0, hl1, rfl, rfl, finish_stands sw hstop⟩

/-! ### Capabilities (R205, R211) -/

theorem capTgt_eq (c : Word) : capTgt c = c.toNat / 2 ^ 44 := by
  simp only [capTgt, field, fieldN]; omega

/-- A capability verifies by its check, generation, rights and length. -/
theorem capOk_iff (key count rights off : Nat) (c : Word) : capOk key count rights off c = true ↔
    c.toNat % 2 ^ 24 = checkOf key (c.toNat / 2 ^ 24) count ∧ c.toNat / 2 ^ 24 % 2 ^ 8 = count % 2 ^ 8 ∧
      c.toNat / 2 ^ 32 % 4 = rights ∧ off ≤ c.toNat / 2 ^ 34 % 16 := by
  have hhi : field c 63 24 = c.toNat / 2 ^ 24 := by simp only [field, fieldN]; omega
  have hcheck : capCheck c = c.toNat % 2 ^ 24 := by simp only [capCheck, field, fieldN, Nat.pow_zero, Nat.div_one]
  have hparts : capGen c = c.toNat / 2 ^ 24 % 2 ^ 8 ∧ capRights c = c.toNat / 2 ^ 32 % 4 ∧ capLen c = c.toNat / 2 ^ 34 % 16 :=
    ⟨rfl, rfl, rfl⟩
  obtain ⟨hgen, hrights, hlen⟩ := hparts
  simp only [capOk, hhi, hcheck, hgen, hrights, hlen, Bool.and_eq_true, beq_iff_eq, decide_eq_true_eq, and_assoc, Nat.reducePow]

/-! ### The team's count of refused capabilities (R224) -/

theorem findTeam_modTeam {s : State} {vd num : Nat} {team : Team} {f : Team → Team} (h : s.findTeam vd num = some team)
    (hf : ∀ t, Team.is vd num (f t) = Team.is vd num t) : (s.modTeam vd num f).findTeam vd num = some (f team) := by
  have his : Team.is vd num team = true := List.find?_some h
  have hcomp : Team.is vd num ∘ (fun t => if t.is vd num then f t else t) = Team.is vd num := by
    funext t
    rw [Function.comp_apply]
    split
    · exact hf t
    · rfl
  rw [State.findTeam, State.modTeam_teams, List.find?_map, hcomp]
  rw [State.findTeam] at h
  rw [h, Option.map_some, if_pos his]

/-- CAPBAD at the issuing head, counted by the team. -/
def State.refuseCap (s : State) (c : Word) : State :=
  (s.modTeam s.thr.vd s.thr.teamNum fun t => { t with capbads := t.capbads + 1 }).trap cCapbad c

/-- What a refused capability leaves: the handler has been entered with the capability as its value, nothing has been queued, and the
team has counted one more. -/
def CapRefused (team : Team) (c : Word) (s t : State) : Prop :=
  KeepsRegs s t ∧ t.thr.hm = true ∧ t.thr.cause = 0x0A ∧ t.thr.tval = c ∧ t.thr.epc = s.thr.pc &&& ~~~1#52 ∧
    t.thr.pc = s.thr.tvec ∧ t.thr.sendq = s.thr.sendq ∧
    t.findTeam s.thr.vd s.thr.teamNum = some { team with capbads := team.capbads + 1 }

theorem refuseCap_capRefused {s : State} {team : Team} (hteam : s.findTeam s.thr.vd s.thr.teamNum = some team)
    (htrap : CanTrap s) (c : Word) : CapRefused team c s (s.refuseCap c) := by
  obtain ⟨⟨hs, hv, hp, hbuf⟩, hepc, hcause, hval, hmode, hhead, -, hworld, hkept⟩ :=
    trap_enters (s := s.modTeam s.thr.vd s.thr.teamNum fun t => { t with capbads := t.capbads + 1 }) htrap cCapbad c
  refine ⟨⟨hs, hv, hp, hbuf⟩, hmode, hcause, hval, hepc, hhead, (congrArg Thread.sendq hkept :), ?_⟩
  rw [State.refuseCap, hworld]
  exact findTeam_modTeam hteam fun _ => rfl

/-! ### The check and the queue (R211, R212) -/

/-- The entry of a send, from what it carries at issue. -/
abbrev State.sendEntry (s : State) (c : Word) (off : Nat) (vec : Bool) (value : VWord) (rel : Option Scope) : SendEntry :=
  ⟨s.seq, c, c.toNat / 2 ^ 44, c.toNat / 2 ^ 38 % 64 + off, vec, value, rel, false, false, s.thr.tcls⟩

/-- An entry joins the send queue of the thread in focus, under the next issue number. -/
def State.enqueue (s : State) (e : SendEntry) : State := s.bump.modThr fun t => { t with sendq := t.sendq ++ [e] }

theorem enqueue_finish (s : State) (e : SendEntry) (sw : Bool) :
    let t := (s.enqueue e).finish sw
    KeepsRegs s t ∧ InSequence sw s t ∧ t = { s with seq := s.seq + 1, thr := t.thr } ∧
      t.thr.kept = { s.thr.kept with sendq := s.thr.sendq ++ [e] } :=
  ⟨⟨fun _ _ => ⟨rfl, rfl⟩, fun _ _ => ⟨rfl, rfl⟩, fun _ _ => ⟨rfl, rfl⟩, rfl⟩,
    finish_inSequence (next_congr rfl rfl rfl rfl rfl rfl) rfl sw, rfl, rfl⟩

section
variable {s : State} {i : Instr} {sw : Bool} {a : Src} {regs : List Reg} {value : State → VWord} {vec : Bool} {off : BitVec 4}
  {rel : Option Scope} {team : Team}
  (hexec : exec i s = .next (sendForm sw a regs value vec off rel s)) (hp : Present s (srcRegs a ++ regs))
  (hteam : s.findTeam s.thr.vd s.thr.teamNum = some team)
include hexec hp hteam

/-- A send to a number that no thread of the team has. -/
theorem send_unnamed (hseat : team.seat ((s.src a).toNat / 2 ^ 44) = none) (htrap : CanTrap s) :
    Completes i s (CapRefused team (s.src a) s) := by
  refine ⟨s.refuseCap (s.src a), ?_, refuseCap_capRefused hteam htrap _⟩
  rw [hexec, sendForm, withRegs_present hp, State.myTeam, hteam]
  simp only [capTgt_eq, hseat]
  rfl

variable {seat : Seat} (hseat : team.seat ((s.src a).toNat / 2 ^ 44) = some seat) (haway : team.away = false)
include hseat haway

/-- A send to a thread of the team: the check, the target, the room in the queue. -/
theorem exec_send_named : exec i s = .next (
    if capOk team.key (s.thread seat.tid).capgen.toNat (if vec then 2 else 1) off.toNat (s.src a) = false then
      s.refuseCap (s.src a)
    else if (s.thread seat.tid).st = .retired then s.trap cSendfail (s.src a)
    else if 4 ≤ s.thr.sendq.length then s.parkOn (s.src a)
    else (s.enqueue (s.sendEntry (s.src a) off.toNat vec (value s) rel)).finish sw) := by
  have htarget : s.seatThread team seat = s.thread seat.tid := by rw [State.seatThread, haway]; rfl
  rw [hexec, sendForm, withRegs_present hp, State.myTeam, hteam]
  simp only [capTgt_eq, hseat, htarget, Bool.not_eq_true', beq_iff_eq]
  rfl

variable {verifies : Prop} (hok : capOk team.key (s.thread seat.tid).capgen.toNat (if vec then 2 else 1) off.toNat (s.src a) = true ↔
  verifies)
include hok

theorem send_refused (hbad : ¬ verifies) (htrap : CanTrap s) : Completes i s (CapRefused team (s.src a) s) := by
  have hbad' := Bool.eq_false_iff.mpr (mt hok.mp hbad)
  refine ⟨_, ?_, refuseCap_capRefused hteam htrap _⟩
  rw [exec_send_named hexec hp hteam hseat haway, if_pos hbad']

variable (hgood : verifies)
include hgood

theorem send_fails (hst : (s.thread seat.tid).st = .retired) (htrap : CanTrap s) :
    Completes i s fun t => TrapsTo s t 0x0B s.thr.pc (s.src a) := by
  refine ⟨_, ?_, trap_enters htrap cSendfail _⟩
  rw [exec_send_named hexec hp hteam hseat haway, hok.mpr hgood, if_neg (by decide), if_pos hst]

variable (hst : (s.thread seat.tid).st ≠ .retired)
include hst

theorem send_waits (hfull : 4 ≤ s.thr.sendq.length) : Completes i s fun t => Stays s t ∧ SameWorld s t ∧
    ∃ k, t.thr.park = some k ∧ k.tval = s.src a ∧ k.regs = [] := by
  have hregs : KeepsRegs s (s.parkOn (s.src a)) :=
    ⟨fun _ _ => ⟨rfl, rfl⟩, fun _ _ => ⟨rfl, rfl⟩, fun _ _ => ⟨rfl, rfl⟩, rfl⟩
  refine ⟨s.parkOn (s.src a), ?_, ⟨hregs, rfl, rfl⟩, rfl, ?_⟩
  · rw [exec_send_named hexec hp hteam hseat haway, hok.mpr hgood, if_neg (by decide), if_neg hst, if_pos hfull]
  · rw [State.parkOn, State.parkFor, State.modThr_thr]
    cases s.thr.park <;> exact ⟨_, rfl, rfl, rfl⟩

theorem send_queues (hroom : s.thr.sendq.length < 4) : Completes i s fun t => KeepsRegs s t ∧ InSequence sw s t ∧
    t = { s with seq := s.seq + 1, thr := t.thr } ∧ t.thr.kept = { s.thr.kept with
      sendq := s.thr.sendq ++ [s.sendEntry (s.src a) off.toNat vec (value s) rel] } := by
  refine ⟨_, ?_, enqueue_finish s _ sw⟩
  rw [exec_send_named hexec hp hteam hseat haway, hok.mpr hgood, if_neg (by decide), if_neg hst, if_neg (Nat.not_le.mpr hroom)]

end

/-! ### The statement -/

/-- Settles O22: the three forms are one form with their own operand, rights and scope, and that form's outcomes are those of the
check at issue. -/
theorem sendsJoinTheirQueue : Obligations.SendsJoinTheirQueue := by
  unfold Obligations.SendsJoinTheirQueue
  intro sw a b v off sc team seat s c hi target verifies refused hteam e he
  obtain ⟨i, regs, rights, vec, value, rel⟩ := e
  have hform : ∃ rs f, regs = srcRegs a ++ rs ∧ exec i s = .next (sendForm sw a rs f vec off rel s) ∧ f s = value ∧
      rights = if vec then 2 else 1 := by
    simp only [List.mem_cons, Prod.mk.injEq, List.not_mem_nil, or_false] at he
    obtain ⟨rfl, rfl, rfl, rfl, rfl, rfl⟩ | ⟨rfl, rfl, rfl, rfl, rfl, rfl⟩ | ⟨rfl, rfl, rfl, rfl, rfl, rfl⟩ := he
    · exact ⟨srcRegs b, fun s => (s.src b).setWidth 1024, rfl, rfl, rfl, rfl⟩
    · exact ⟨srcRegs b, fun s => (s.src b).setWidth 1024, rfl, rfl, rfl, rfl⟩
    · exact ⟨[.v v], fun s => s.thr.getV v, rfl, rfl, rfl, rfl⟩
  obtain ⟨rs, f, rfl, hexec, rfl, rfl⟩ := hform
  intro hp
  have hok : capOk team.key target.capgen.toNat (if vec then 2 else 1) off.toNat c = true ↔ verifies (if vec then 2 else 1) :=
    capOk_iff ..
  exact ⟨send_unnamed hexec hp hteam, fun hseat haway => ⟨send_refused hexec hp hteam hseat haway hok,
    send_fails hexec hp hteam hseat haway hok, send_waits hexec hp hteam hseat haway hok,
    send_queues hexec hp hteam hseat haway hok⟩⟩

end Sys2Proof.Machine
end

section
/-! SUPPORT. The arrival of a thread's first send at a running target that holds nothing before it (R212, R215 to R217, R219). -/

namespace Sys2Proof.Machine

/-! ### Fabric numbers (R203) -/

/-- The fabric number that a thread shows as its own (R203, R336). -/
theorem fabno_eq (t : Thread) : t.fabno = t.self.toNat % 2 ^ 20 := by
  simp only [Thread.fabno, field, fieldN, Nat.pow_zero, Nat.div_one]

/-! ### Causes of a refusal (R219) -/

/-- A refusal later than every cause that is pending stands behind them. -/
theorem pendPut_last {p : Pending} {ps : List Pending} (h : ∀ q ∈ ps, q.arr < p.arr) : pendPut p ps = ps ++ [p] := by
  have hlate : ∀ q ∈ ps, (!(p.fsrc.isSome && q.fsrc.isSome && decide (p.arr < q.arr))) = true := fun q hq => by
    have hle := Nat.not_lt.mpr (Nat.le_of_lt (h q hq))
    simp [hle]
  rw [pendPut]
  simp only [List.takeWhile_eq_self_iff.mpr hlate, List.dropWhile_eq_nil_iff.mpr hlate]

theorem cutPark_shape (t : Thread) : t.cutPark = { t with park := t.cutPark.park } := by
  rw [Thread.cutPark]; split <;> rfl

/-- A refusal changes its target's pending causes and park alone, and stands last among the causes (R219, R330, R347). -/
theorem refuseInto_shape {t : Thread} {l : Landing} (hlive : t.live = true) (hlast : ∀ q ∈ t.pend, q.arr < l.arr) :
    refuseInto t l = { t with
      pend := t.pend ++ [⟨cRegovw, l.value.setWidth 64, some l.src, l.arr⟩], park := (refuseInto t l).park } := by
  rw [refuseInto, Thread.addCause, if_pos hlive, pendPut_last hlast]
  exact cutPark_shape _

/-! ### What happens to an arrival (R216, R217) -/

/-- A scalar value put into a register is there, and no other scalar or vector register changes. -/
theorem putReg_sets (t : Thread) (r : SReg) (x : Word) : (t.putReg (.s r x)).getS r = x ∧ (t.putReg (.s r x)).hasS r = true ∧
    SameS t (t.putReg (.s r x)) [r] ∧ SameV t (t.putReg (.s r x)) [] := by
  refine ⟨by simp, by simp, fun k hk => ?_, fun _ _ => ⟨rfl, rfl⟩⟩
  have hne : r ≠ k := fun heq => hk (by simp [heq])
  simp [hne]

section
variable {t : Thread} {l : Landing} {r : SReg} (hreg : l.reg = r.val) (hready : t.st = .ready) (hbuf : t.buf = [])
include hreg hready hbuf

theorem landTest_alone : landTest t [] l =
    if t.hasS r = false then .land (t.putReg (.s r (l.value.setWidth 64)))
    else if t.landMode r.val = 1 then .refuse
    else if t.landMode r.val = 2 then .land (t.putReg (.s r (l.value.setWidth 64)))
    else .hold := by
  have hwrite : l.write = some (.s r (l.value.setWidth 64)) := by
    rw [Landing.write, dif_pos (hreg ▸ r.isLt)]
    simp only [hreg]
  have hwork : t.awaitsWork r.val = false := by rw [Thread.awaitsWork, hready]
  rw [landTest, hwrite]
  simp only [hbuf, hwork, hreg, List.any_nil, Bool.false_eq_true, if_false, regOfWrite, Reg.isFull, Bool.not_eq_true']
  congr 1
  split
  case h_1 hfault => rw [if_pos hfault]
  case h_2 hlatest => rw [if_neg (by omega), if_pos hlatest]
  case h_3 hfault hlatest => rw [if_neg hfault, if_neg hlatest]

end

/-- An arrival as it stands in a landing buffer, numbered by its order. -/
def Landing.numbered (l : Landing) (n : Nat) : Landing := { l with arr := n }

/-- An arrival takes its target's own entry of the landing buffer; the target becomes `y` (R215). -/
def State.holdOwn (s : State) (y : Thread) (l : Landing) : State :=
  (s.bump.setThread y).modCore (coreOf l.tid) fun c =>
    { c with landing := (s.core (coreOf l.tid)).landing ++ [{ l with own := true }] }

/-- An arrival at a thread with nothing held, and nothing still to come in from a save, is handled at once; one that has to be held
finds the thread's own entry free (R215, R226). -/
theorem arrive_alone {s : State} {l : Landing} (hland : ∀ h ∈ (s.core (coreOf l.tid)).landing, h.tid ≠ l.tid)
    (hrest : s.heldRest l.tid = []) : s.arrive l =
      match landTest (s.thread l.tid) [] (l.numbered s.seq) with
      | .land y => (s.bump.setThread y, .landed)
      | .drop => (s.bump, .landed)
      | .hold => (s.holdOwn (s.thread l.tid) (l.numbered s.seq), .held)
      | .refuse => (s.holdOwn (refuseInto (s.thread l.tid) (l.numbered s.seq)) { l.numbered s.seq with refused := true },
          .held) := by
  have hheld : ((s.core (coreOf l.tid)).landing.filter fun h => h.tid == l.tid) = [] :=
    List.filter_eq_nil_iff.mpr fun h hh => by simpa using hland h hh
  have hfree : freeLanding (s.core (coreOf l.tid)).landing l.tid = some true := by
    rw [freeLanding, if_pos]
    simpa using fun h hh he => absurd he (hland h hh)
  have hnumbered : ({ l with arr := s.seq } : Landing) = l.numbered s.seq := rfl
  have hsaved : (s.bump.heldRest l.tid).isEmpty = true := by
    rw [show s.bump.heldRest l.tid = s.heldRest l.tid from rfl, hrest]; rfl
  rw [State.arrive]
  have hsame : s.bump.core = s.core ∧ s.bump.thread = s.thread ∧ (l.numbered s.seq).tid = l.tid := ⟨rfl, rfl, rfl⟩
  obtain ⟨hcore, hthread, htid⟩ := hsame
  simp only [hnumbered, htid, hsaved, hcore, hthread, hheld, hfree]
  cases landTest (s.thread l.tid) [] (l.numbered s.seq) <;> rfl

/-! ### The entry leaves its queue (R212) -/

theorem setThread_world (s : State) (x : Thread) :
    s.setThread x = { s with thr := (s.setThread x).thr, threads := (s.setThread x).threads } := by
  rw [State.setThread]; split <;> rfl

theorem setThread_bump (s : State) (x : Thread) : s.bump.setThread x = (s.setThread x).bump := by
  rw [State.setThread, State.setThread, apply_ite State.bump]; rfl

theorem unqueue_world (s : State) (id k : Nat) : s.unqueue id k =
    { s with thr := (s.unqueue id k).thr, threads := (s.unqueue id k).threads } := modThread_world ..

@[simp] theorem unqueue_mem (s : State) (id k : Nat) : (s.unqueue id k).mem = s.mem := by rw [unqueue_world]
@[simp] theorem unqueue_cores (s : State) (id k : Nat) : (s.unqueue id k).cores = s.cores := by rw [unqueue_world]

/-- An entry that no other of its thread's stands before leaves the queue to those behind it; no other field of a thread changes. -/
theorem unqueue_first {s : State} (hk : s.Keyed) {id : Nat} {e : SendEntry} {rest : List SendEntry}
    (hq : (s.thread id).sendq = e :: rest) (hids : ∀ f ∈ rest, e.id < f.id) (k : Nat) :
    (s.unqueue id e.id).thread k = if k = id then { s.thread id with sendq := rest } else s.thread k := by
  have hrest : ((e :: rest).filter fun f => f.id != e.id) = rest := by
    rw [List.filter_cons_of_neg (by simp)]
    exact List.filter_eq_self.mpr fun f hf => by simpa using (hids f hf).ne'
  have hmap : (rest.map fun f => if f.id < e.id then { f with gone := true } else f) = rest := by
    refine (List.map_congr_left fun f hf => ?_).trans (List.map_id rest)
    exact if_neg (Nat.lt_asymm (hids f hf))
  rw [State.unqueue]
  split
  case isTrue h =>
    rw [h, modThread_thread hk rfl, hq, hrest, hmap]
  case isFalse h => exact modThread_other hk h rfl

/-! ### The arrival -/

/-- The first send of a thread, with nothing before it, for a scalar register of a running thread that holds no arrival, awaits none
from a save and has no result outstanding; its capability verifies. -/
structure FirstSend (s : State) (id : Nat) (e : SendEntry) (rest : List SendEntry) (team : Team) (seat : Seat) (r : SReg) : Prop where
  keyed : s.Keyed
  queue : (s.thread id).sendq = e :: rest
  ids : ∀ f ∈ rest, e.id < f.id
  port : ∀ a ∈ (s.core (coreOf id)).port, a.tid ≠ id
  here : team.away = false
  named : team.seat e.target = some seat
  ready : (s.thread seat.tid).st = .ready
  buffer : (s.thread seat.tid).buf = []
  unheld : ∀ l ∈ (s.core (coreOf seat.tid)).landing, l.tid ≠ seat.tid
  unsaved : s.heldRest seat.tid = []
  verifies : capOk team.key (s.thread seat.tid).capgen.toNat 1 0 e.cap = true
  ofTeam : s.findTeam (s.thread id).vd (s.thread id).teamNum = some team
  scalar : e.vec = false
  reg : e.reg = r.val

/-- The send has landed in the register, and nothing else of its target's registers has changed; it has left its queue. -/
def SendLands (s t : State) (id tid : Nat) (rest : List SendEntry) (r : SReg) (x : Word) : Prop :=
  (t.thread tid).getS r = x ∧ (t.thread tid).hasS r = true ∧ SameS (s.thread tid) (t.thread tid) [r] ∧
    SameV (s.thread tid) (t.thread tid) [] ∧ (t.thread id).sendq = rest ∧ t.mem = s.mem ∧ t.cores = s.cores

/-- The send has left its queue, and its target's registers are as before. -/
def SendLeaves (s t : State) (id tid : Nat) (rest : List SendEntry) : Prop :=
  SameS (s.thread tid) (t.thread tid) [] ∧ SameV (s.thread tid) (t.thread tid) [] ∧ (t.thread id).sendq = rest ∧ t.mem = s.mem

section
variable {s : State} {id : Nat} {e : SendEntry} {rest : List SendEntry} {team : Team} {seat : Seat} {r : SReg}
  (h : FirstSend s id e rest team seat r)
include h

/-- Nothing of its thread stands before it in the port or the queue (R212, R213, R230). -/
theorem FirstSend.sendGoes : sendGoes s (s.thread id) e = true := by
  have hmine : ((s.core (coreOf id)).port.filter fun a => a.tid == id && decide (a.id < e.id) && a.kind != .gath) = [] :=
    List.filter_eq_nil_iff.mpr fun a ha => by simp [h.port a ha]
  have hearlier : ((e :: rest).filter fun f => decide (f.id < e.id)) = [] :=
    List.filter_eq_nil_iff.mpr fun f hf => by
      obtain rfl | hf := List.mem_cons.mp hf
      · simp
      · simpa using (h.ids f hf).le
  have hleaves : sendLeaves s (s.thread id) e = true := by
    rw [sendLeaves, thread_id h.keyed, hmine, h.queue, hearlier]
    cases e.rel with
    | none => simp
    | some sc => cases sc <;> simp
  rw [Machine.sendGoes, hleaves, h.queue, hearlier]
  rfl

/-- What the network brings to the target. -/
abbrev FirstSend.landing (_ : FirstSend s id e rest team seat r) : Landing := sendLanding (s.thread id) e seat.tid

/-- An arrival that its target has taken, by landing or by being held, ends with the entry's leaving. -/
theorem FirstSend.exec {u : State} {o : Arrived} (harrive : s.arrive h.landing = (u, o)) (ho : o ≠ .turnedAway) :
    exec (.sendArrival id e.id) s = .next (u.unqueue id e.id) := by
  have hfind : (s.thread id).sendq.find? (fun f => f.id = e.id) = some e := by rw [h.queue]; simp
  have htarget : s.seatThread team seat = s.thread seat.tid := by rw [State.seatThread, h.here]; rfl
  have hpresent : s.presentSend (s.thread id) e team = (u, true) := by
    rw [State.presentSend, h.named]
    simp only [htarget, h.scalar, Bool.false_eq_true, if_false, h.ready, h.here, h.verifies, harrive]
    cases o with
    | landed => rfl
    | held => rfl
    | turnedAway => exact absurd rfl ho
  show execSendArrival id e.id s = _
  simp only [execSendArrival, hfind, h.ofTeam, h.sendGoes, hpresent]
  rfl

/-- The threads after the entry has left, where its arrival has changed its target to `y`. -/
theorem FirstSend.unqueue_threads {u : State} {y : Thread} (hthr : u.thr = (s.setThread y).thr)
    (hthreads : u.threads = (s.setThread y).threads) (hid : y.id = seat.tid) (hq : y.sendq = (s.thread seat.tid).sendq) :
    ((u.unqueue id e.id).thread id).sendq = rest ∧ ∃ q, (u.unqueue id e.id).thread seat.tid = { y with sendq := q } := by
  have hthread (k : Nat) : u.thread k = if k = seat.tid then y else s.thread k := by
    rw [thread_congr hthr hthreads, setThread_thread, hid]
  have hku : u.Keyed := fun x hx => setThread_keyed h.keyed y x (hthreads ▸ hx)
  have hqueue : (u.thread id).sendq = e :: rest := by
    rw [hthread, ← h.queue]
    split
    case isTrue hself => rw [hq, hself]
    case isFalse => rfl
  have hleft := unqueue_first hku hqueue h.ids
  refine ⟨by rw [hleft, if_pos rfl], ?_⟩
  rw [hleft]
  by_cases hself : seat.tid = id
  · exact ⟨rest, by rw [if_pos hself, hthread, if_pos hself.symm]⟩
  · exact ⟨y.sendq, by rw [if_neg hself, hthread, if_pos rfl]⟩

/-- The arrival is handled at its target at once (R215, R226). -/
theorem FirstSend.arrive : s.arrive h.landing = match landTest (s.thread seat.tid) [] (h.landing.numbered s.seq) with
    | .land y => (s.bump.setThread y, .landed)
    | .drop => (s.bump, .landed)
    | .hold => (s.holdOwn (s.thread seat.tid) (h.landing.numbered s.seq), .held)
    | .refuse => (s.holdOwn (refuseInto (s.thread seat.tid) (h.landing.numbered s.seq))
        { h.landing.numbered s.seq with refused := true }, .held) := arrive_alone h.unheld h.unsaved

/-- An arrival that writes the register lands there. -/
theorem FirstSend.lands {y : Thread} (hy : y = (s.thread seat.tid).putReg (.s r (e.value.setWidth 64)))
    (htest : landTest (s.thread seat.tid) [] (h.landing.numbered s.seq) = .land y) :
    Completes (.sendArrival id e.id) s fun t => SendLands s t id seat.tid rest r (e.value.setWidth 64) := by
  have harrive : s.arrive h.landing = (s.bump.setThread y, .landed) := by
    rw [h.arrive, htest]
  obtain ⟨hleft, q, hthread⟩ := h.unqueue_threads (u := s.bump.setThread y) (y := y) (by rw [setThread_bump]; rfl)
    (by rw [setThread_bump]; rfl) (hy ▸ thread_id h.keyed _) (hy ▸ rfl)
  subst hy
  refine ⟨_, h.exec harrive (by decide), ?_⟩
  dsimp only [SendLands]
  rw [hthread]
  obtain ⟨hval, hfull, hs, hv⟩ := putReg_sets (s.thread seat.tid) r (e.value.setWidth 64)
  refine ⟨hval, hfull, hs, hv, hleft, ?_, ?_⟩
  · rw [unqueue_mem, setThread_world]; rfl
  · rw [unqueue_cores, setThread_world]; rfl

/-- An arrival that stands in the landing buffer, refused or not, has left its target's registers as they were. -/
theorem FirstSend.held {l : Landing} {pend : List Pending} {park : Option Park} (htid : l.tid = seat.tid)
    (harrive : s.arrive h.landing = (s.holdOwn { s.thread seat.tid with pend := pend, park := park } l, .held)) :
    Completes (.sendArrival id e.id) s fun t => SendLeaves s t id seat.tid rest ∧ (t.thread seat.tid).pend = pend ∧
      (t.core (coreOf seat.tid)).landing = (s.core (coreOf seat.tid)).landing ++ [{ l with own := true }] := by
  obtain ⟨hleft, q, hthread⟩ := h.unqueue_threads (u := s.holdOwn { s.thread seat.tid with pend := pend, park := park } l)
    (y := { s.thread seat.tid with pend := pend, park := park }) (by rw [State.holdOwn, setThread_bump]; rfl)
    (by rw [State.holdOwn, setThread_bump]; rfl) (thread_id h.keyed _) rfl
  refine ⟨_, h.exec harrive (by decide), ?_⟩
  dsimp only [SendLeaves]
  rw [hthread]
  refine ⟨⟨fun _ _ => ⟨rfl, rfl⟩, fun _ _ => ⟨rfl, rfl⟩, hleft, ?_⟩, rfl, ?_⟩
  · rw [unqueue_mem, State.holdOwn, setThread_world]; rfl
  · rw [State.core, unqueue_cores, ← htid]
    exact congrArg Core.landing (modCore_core_same ..)

theorem FirstSend.landTest : landTest (s.thread seat.tid) [] (h.landing.numbered s.seq) =
    if (s.thread seat.tid).hasS r = false then .land ((s.thread seat.tid).putReg (.s r (e.value.setWidth 64)))
    else if (s.thread seat.tid).landMode r.val = 1 then .refuse
    else if (s.thread seat.tid).landMode r.val = 2 then .land ((s.thread seat.tid).putReg (.s r (e.value.setWidth 64)))
    else .hold := landTest_alone h.reg h.ready h.buffer

/-- The source that a refusal of the send shows (R219). -/
theorem FirstSend.fsrc : h.landing.src = BitVec.ofNat 64 (r.val * 2 ^ 20 + (s.thread id).self.toNat % 2 ^ 20) := by
  show fsrcWord false e.vec e.reg (s.thread id).fabno = _
  rw [fsrcWord, h.scalar, h.reg, fabno_eq]
  simp

end

/-! ### The statement -/

/-- Settles O23: what the target's register and mode make of the arrival, and the entry's leaving. -/
theorem arrivalsLand : Obligations.ArrivalsLand := by
  unfold Obligations.ArrivalsLand
  intro id e rest team seat r s x y hk hq hids hport hteam haway hseat hst hbuf hland hrest hpend hok hvec hreg go takes keeps
  have h : FirstSend s id e rest team seat r := ⟨hk, hq, hids, hport, haway, hseat, hst, hbuf, hland, hrest, hok, hteam, hvec, hreg⟩
  have htest := h.landTest
  refine ⟨fun hempty => ?empty, fun hfull hlatest => ?latest, fun hfull hmode => ?park, fun hfull hfault hlive => ?fault⟩
  case empty =>
    rw [if_pos hempty] at htest
    exact h.lands rfl htest
  case latest =>
    rw [if_neg (ne_of_eq_of_ne hfull (by decide)), if_neg (ne_of_eq_of_ne hlatest (by decide)), if_pos hlatest] at htest
    exact h.lands rfl htest
  case park =>
    have hmodes : y.landMode r.val ≠ 1 ∧ y.landMode r.val ≠ 2 := by
      simp only [List.mem_cons, List.not_mem_nil, or_false] at hmode
      omega
    rw [if_neg (ne_of_eq_of_ne hfull (by decide)), if_neg hmodes.1, if_neg hmodes.2] at htest
    refine (h.held (l := h.landing.numbered s.seq) (pend := y.pend) (park := y.park) rfl ?_).imp
      fun t ⟨hkeeps, hcauses, hheld⟩ => ⟨hkeeps, hcauses, _, hheld, rfl, hreg, rfl, rfl, rfl⟩
    rw [h.arrive, htest]
  case fault =>
    rw [if_neg (ne_of_eq_of_ne hfull (by decide)), if_pos hfault] at htest
    have hrefuse := refuseInto_shape (t := y) (l := h.landing.numbered s.seq) hlive hpend
    refine (h.held (l := { h.landing.numbered s.seq with refused := true }) (park := (refuseInto y (h.landing.numbered s.seq)).park)
      rfl ?_).imp fun t ⟨hkeeps, hcauses, _⟩ => ⟨hkeeps, hcauses⟩
    rw [h.arrive, htest, ← h.fsrc]
    exact congrArg (fun z => (s.holdOwn z { h.landing.numbered s.seq with refused := true }, Arrived.held)) hrefuse

end Sys2Proof.Machine
end

section
/-! SUPPORT. Minting and revoking capabilities (R205 to R208). -/

namespace Sys2Proof.Machine

/-! ### MINTCAP -/

/-- The fields of a capability read back as they were put in, and its check is that of the others (R205). -/
theorem mkCap_fields (key : Nat) {tgt base len rights : Nat} (htgt : tgt < 2 ^ 20) (hbase : base < 64) (hlen : len < 16)
    (hrights : rights < 4) (count : Nat) :
    let c := mkCap key tgt base len rights count
    c.toNat / 2 ^ 44 = tgt ∧ c.toNat / 2 ^ 38 % 64 = base ∧ c.toNat / 2 ^ 34 % 16 = len ∧ c.toNat / 2 ^ 32 % 4 = rights ∧
      c.toNat / 2 ^ 24 % 256 = count % 256 ∧ c.toNat % 2 ^ 24 = checkOf key (c.toNat / 2 ^ 24) count := by
  intro c
  obtain ⟨hi, hhi⟩ : ∃ hi, hi = tgt * 2 ^ 20 + base * 2 ^ 14 + len * 2 ^ 10 + rights * 2 ^ 8 + count % 256 := ⟨_, rfl⟩
  have hcheck : checkOf key hi count < 2 ^ 24 := Nat.mod_lt _ (by decide)
  have hc : c.toNat = hi * 2 ^ 24 + checkOf key hi count := by
    show (BitVec.ofNat 64 _).toNat = _
    rw [← hhi, BitVec.toNat_ofNat, Nat.mod_eq_of_lt (by omega)]
  have hdiv : c.toNat / 2 ^ 24 = hi := by omega
  rw [hdiv, hc]
  omega

theorem mintcap_defers {s : State} {team : Team} (hslot : HasSlot s) (hteam : s.findTeam s.thr.vd s.thr.teamNum = some team)
    (sw : Bool) (d : SReg) (base : BitVec 6) (lenm1 : BitVec 4) : Completes (.mintcap sw d base lenm1) s fun t =>
      InSequence sw s t ∧ Defers s t [.s d (mkCap team.key s.thr.fabno base.toNat lenm1.toNat
        (if base.toNat < 32 then 1 else 2) s.thr.capgen.toNat)] true := by
  obtain ⟨hdefers, -, hseq⟩ := defer_finish s false [.s d (mkCap team.key s.thr.fabno base.toNat lenm1.toNat
    (if base.toNat < 32 then 1 else 2) s.thr.capgen.toNat)] true sw
  refine ⟨_, ?_, hseq, hdefers⟩
  show execMintcap sw d base lenm1 s = _
  rw [execMintcap, State.myTeam, hteam, withSlot_room hslot]
  rfl

/-! ### REVCAP -/

section
variable {s : State} (sw : Bool) (d : SReg)

/-- The count rises and D takes it; the thread holds its head. -/
def State.revoke (s : State) (d : SReg) : State :=
  (s.writeS d ((s.thr.capgen + 1).setWidth 64)).modThr fun t =>
    { t with capgen := s.thr.capgen + 1, wait := .hold 1 false 0, park := none }

theorem revcap_raises (hwait : s.thr.wait = .none) (hacq : s.thr.acquiring = false) (hmax : s.thr.capgen ≠ 0xFFFFFFFF) :
    Completes (.revcap sw d) s fun t =>
      t.thr.getS d = (s.thr.capgen + 1).setWidth 64 ∧ t.thr.hasS d = true ∧ SameS s.thr t.thr [d] ∧ SameV s.thr t.thr [] ∧
      t.thr.capgen = s.thr.capgen + 1 ∧ t.thr.pc = s.thr.pc ∧ t.thr.wait = .hold 1 false 0 ∧ SameWorld s t := by
  obtain ⟨hval, hfull, hs, hv⟩ := putReg_sets (s.thr.supersede (.s d)) d ((s.thr.capgen + 1).setWidth 64)
  refine ⟨s.revoke d, ?_, hval, hfull, hs, hv, rfl, rfl, rfl, rfl⟩
  show execRevcap sw d s = _
  rw [execRevcap, hwait]
  dsimp only
  rw [if_neg hmax, withRegs_present (present_nil hacq)]
  rfl

theorem revcap_spent (hwait : s.thr.wait = .none) (hmax : s.thr.capgen = 0xFFFFFFFF) (htrap : CanTrap s) :
    Completes (.revcap sw d) s fun t => TrapsTo s t 0x05 s.thr.pc 0xFFFFFFFF := by
  refine ⟨_, ?_, trap_enters htrap cPerm 0xFFFFFFFF⟩
  show execRevcap sw d s = _
  rw [execRevcap, hwait]
  exact congrArg Host.Outcome.next (if_pos hmax)

theorem revcap_ends {x : Word} (hwait : s.thr.wait = .hold 1 true x) : Completes (.revcap sw d) s fun t =>
    KeepsRegs s t ∧ OnlyThread s t ∧ InSequence sw s t := by
  refine ⟨_, ?_, finish_quiet sw s⟩
  show execRevcap sw d s = _
  rw [execRevcap, hwait]
  rfl

/-- A revocation that has become effective ends the hold of its thread, and nothing else. -/
theorem revocationEffective_ends (hk : s.Keyed) {id : Nat} {x : Word} (hwait : (s.thread id).wait = .hold 1 false x) :
    Completes (.revocationEffective id) s fun t =>
      t.thread id = { s.thread id with wait := .hold 1 true x } ∧ t.mem = s.mem ∧ t.cores = s.cores := by
  refine ⟨(s.focus id).modThr fun t => { t with wait := .hold 1 true x }, ?_, modThr_focus_thread hk rfl, focus_mem s id,
    focus_cores s id⟩
  show execRevocationEffective id s = _
  simp only [execRevocationEffective, focus_thr, hwait]

end

end Sys2Proof.Machine
end

section
/-! SUPPORT. Presence bits and landing modes (R217, R220 to R222). -/

namespace Sys2Proof.Machine

/-! ### RFULL and RWAIT -/

theorem mem_regsFromTo_s {a b : SReg} {x : Reg} : x ∈ regsFromTo (.s a) (.s b) ↔ ∃ q, x = .s q ∧ a ≤ q ∧ q ≤ b := by
  simp only [regsFromTo, List.mem_filterMap, List.mem_finRange, true_and, Bool.and_eq_true, decide_eq_true_eq,
    Option.ite_none_right_eq_some, Option.some.injEq]
  exact exists_congr fun q => ⟨fun ⟨hq, hx⟩ => ⟨hx.symm, hq⟩, fun ⟨hx, hq⟩ => ⟨hq, hx.symm⟩⟩

theorem mem_regsFromTo_v {a b : VReg} {x : Reg} : x ∈ regsFromTo (.v a) (.v b) ↔ ∃ q, x = .v q ∧ a ≤ q ∧ q ≤ b := by
  simp only [regsFromTo, List.mem_filterMap, List.mem_finRange, true_and, Bool.and_eq_true, decide_eq_true_eq,
    Option.ite_none_right_eq_some, Option.some.injEq]
  exact exists_congr fun q => ⟨fun ⟨hq, hx⟩ => ⟨hx.symm, hq⟩, fun ⟨hx, hq⟩ => ⟨hq, hx.symm⟩⟩

theorem rwait_completes {s : State} {a b : Reg} (h : Present s (regsFromTo a b)) (sw : Bool) : Completes (.rwait sw a b) s fun t =>
    KeepsRegs s t ∧ OnlyThread s t ∧ InSequence sw s t :=
  ⟨_, congrArg Host.Outcome.next (withRegs_present h _), finish_quiet sw s⟩

theorem rwait_parks {s : State} {a b : Reg} (h : ¬ ∀ r ∈ regsFromTo a b, Reg.isFull s.thr r = true) (sw : Bool) :
    Completes (.rwait sw a b) s fun t => KeepsRegs s t ∧ SameWorld s t ∧ t.thr.pc = s.thr.pc ∧ t.thr.park.isSome = true := by
  obtain ⟨p, hp⟩ := withRegs_parks h fun s => s.finish sw
  exact ⟨_, congrArg Host.Outcome.next hp,
    ⟨fun _ _ => ⟨rfl, rfl⟩, fun _ _ => ⟨rfl, rfl⟩, fun _ _ => ⟨rfl, rfl⟩, rfl⟩, rfl, rfl, rfl⟩

/-! ### RCLR -/

theorem bit_and_not_shift {w : Nat} (x : BitVec w) (i j : Nat) (hj : j < w) :
    (x &&& ~~~(1#w <<< i)).getLsbD j = (x.getLsbD j && !decide (i = j)) := by
  have hbit : (1#w <<< i).getLsbD j = decide (i = j) := by
    rw [← BitVec.zero_or (x := 1#w <<< i), bit_or_shift 0#w i j hj, BitVec.getLsbD_zero, Bool.false_or]
  rw [BitVec.getLsbD_and, BitVec.getLsbD_not, hbit, decide_eq_true hj, Bool.true_and]

section
variable (t : Thread)

theorem clear_s (r : SReg) : (t.clear (.s r)).getS r = 0 ∧ (t.clear (.s r)).hasS r = false ∧
    SameS t (t.clear (.s r)) [r] ∧ SameV t (t.clear (.s r)) [] ∧ SameP t (t.clear (.s r)) [] := by
  have hget (q : SReg) : (t.clear (.s r)).getS q = if r = q then 0 else t.getS q := by
    rw [Thread.getS, Thread.getS]
    simp only [Fin.ext_iff]
    exact Vector.getElem_set r.isLt q.isLt
  have hhas (q : SReg) : (t.clear (.s r)).hasS q = (t.hasS q && !decide (r = q)) := by
    simp only [Fin.ext_iff]
    exact bit_and_not_shift _ _ _ q.isLt
  refine ⟨by simp [hget], by simp [hhas], fun q hq => ?_, fun _ _ => ⟨rfl, rfl⟩, fun _ _ => ⟨rfl, rfl⟩⟩
  have hne : r ≠ q := fun heq => hq (by simp [heq])
  simp [hget, hhas, hne]

theorem clear_v (r : VReg) : (t.clear (.v r)).getV r = 0 ∧ (t.clear (.v r)).hasV r = false ∧
    SameS t (t.clear (.v r)) [] ∧ SameV t (t.clear (.v r)) [r] ∧ SameP t (t.clear (.v r)) [] := by
  have hget (q : VReg) : (t.clear (.v r)).getV q = if r = q then 0 else t.getV q := by
    rw [Thread.getV, Thread.getV]
    simp only [Fin.ext_iff]
    exact Vector.getElem_set r.isLt q.isLt
  have hhas (q : VReg) : (t.clear (.v r)).hasV q = (t.hasV q && !decide (r = q)) := by
    simp only [Fin.ext_iff]
    exact bit_and_not_shift _ _ _ q.isLt
  refine ⟨by simp [hget], by simp [hhas], fun _ _ => ⟨rfl, rfl⟩, fun q hq => ?_, fun _ _ => ⟨rfl, rfl⟩⟩
  have hne : r ≠ q := fun heq => hq (by simp [heq])
  simp [hget, hhas, hne]

/-- `p0` stays full and all ones (R38, R220). -/
theorem clear_p (r : PReg) : (t.clear (.p r)).getP r = (if r = 0 then BitVec.allOnes 128 else 0) ∧
    (t.clear (.p r)).hasP r = decide (r = 0) ∧ SameS t (t.clear (.p r)) [] ∧ SameV t (t.clear (.p r)) [] ∧
      SameP t (t.clear (.p r)) [r] := by
  by_cases hr : r.val = 0
  case pos =>
    have hclear : t.clear (.p r) = t.supersede (.p r) := if_pos hr
    obtain rfl : r = 0 := Fin.ext hr
    rw [hclear]
    exact ⟨rfl, rfl, fun _ _ => ⟨rfl, rfl⟩, fun _ _ => ⟨rfl, rfl⟩, fun _ _ => ⟨rfl, rfl⟩⟩
  case neg =>
    have hclear : t.clear (.p r) = { t.supersede (.p r) with
        pregs := t.pregs.set r.val 0, pFull := t.pFull &&& ~~~(1#8 <<< r.val) } := if_neg hr
    have hne : r ≠ 0 := fun heq => hr (congrArg Fin.val heq)
    have hget (q : PReg) : (t.clear (.p r)).getP q = if r = q then 0 else t.getP q := by
      rw [hclear, Thread.getP, Thread.getP, Vector.getElem_set]
      simp only [Fin.ext_iff]
      by_cases hq : q.val = 0
      · have hrq : r.val ≠ q.val := fun heq => hr (heq.trans hq)
        rw [if_pos hq, if_pos hq, if_neg hrq]
      · rw [if_neg hq, if_neg hq]
    have hhas (q : PReg) : (t.clear (.p r)).hasP q = (t.hasP q && !decide (r = q)) := by
      rw [hclear, Thread.hasP, Thread.hasP, bit_and_not_shift _ _ _ q.isLt]
      simp only [Fin.ext_iff]
      by_cases hq : q.val = 0
      · simp [hq, hr]
      · simp only [beq_false_of_ne hq, Bool.false_or]
    have hothers : SameS t (t.clear (.p r)) [] ∧ SameV t (t.clear (.p r)) [] := by
      rw [hclear]; exact ⟨fun _ _ => ⟨rfl, rfl⟩, fun _ _ => ⟨rfl, rfl⟩⟩
    refine ⟨by simp [hget, hne], by simp [hhas, hne], hothers.1, hothers.2, fun q hq => ?_⟩
    have hrq : r ≠ q := fun heq => hq (by simp [heq])
    simp [hget, hhas, hrq]

theorem clear_shape (r : Reg) : t.clear r = { t with
    sregs := (t.clear r).sregs, sFull := (t.clear r).sFull, vregs := (t.clear r).vregs, vFull := (t.clear r).vFull,
    pregs := (t.clear r).pregs, pFull := (t.clear r).pFull, buf := (t.supersede r).buf } := by
  cases r with
  | s r => rfl
  | v r => rfl
  | p r => simp only [Thread.clear]; split <;> rfl

end

section
variable {s : State} (hland : (s.core s.gc).landing = []) (sw : Bool)
include hland

/-- With no arrival held on the core, nothing lands after an instruction of the thread that changes no core. -/
theorem reland_finish {u : State} (hcores : u.cores = s.cores) : (u.finish sw).reland s.thr.id = u.finish sw := by
  refine reland_empty ?_
  have hcore : (u.finish sw).core (coreOf s.thr.id) = s.core s.gc := by
    rw [State.core, finish_shape, hcores]; rfl
  rw [hcore, hland]

theorem exec_rclr (hacq : s.thr.acquiring = false) (r : Reg) :
    exec (.rclr sw r) s = .next ((s.modThr fun x => x.clear r).finish sw) := by
  show execRclr sw r s = _
  rw [execRclr, withRegs_present (present_nil hacq),
    reland_finish hland sw (u := s.modThr fun x => x.clear r) rfl]

end

/-- Emptying a register and going on: of the thread, its registers, position and buffered results alone change (R221). -/
theorem clear_finish (s : State) (sw : Bool) (r : Reg) :
    let t := (s.modThr fun x => x.clear r).finish sw
    OnlyThread s t ∧ InSequence sw s t ∧ t.thr.buf = (s.thr.supersede r).buf := by
  have hshape : (s.modThr fun x => x.clear r).thr = _ := clear_shape s.thr r
  have hnext : (s.thr.clear r).next.pc = s.thr.next.pc ∧ (s.thr.clear r).next.l0 = s.thr.next.l0 ∧
      (s.thr.clear r).next.l1 = s.thr.next.l1 := by
    rw [clear_shape]; exact next_congr rfl rfl rfl rfl rfl rfl
  refine ⟨⟨rfl, ?_⟩, finish_inSequence hnext (by rw [hshape]) sw, ?_⟩
  · rw [finish_shape, hshape]; rfl
  · rw [finish_shape, hshape]

/-! ### LANDM -/

/-- The mode of register `k` in a field of two bits for each. -/
abbrev modeAt (w k : Nat) : Nat := fieldN w (2 * k + 1) (2 * k)

theorem modeAt_eq (w k : Nat) : modeAt w k = w / 4 ^ k % 4 := by
  have hwidth : 2 * k + 1 + 1 - 2 * k = 2 := by omega
  rw [modeAt, fieldN, hwidth, Nat.pow_mul]
  rfl

theorem modeAt_ofNat {n k : Nat} (h : 2 * k + 2 ≤ n) (w : Nat) : modeAt (BitVec.ofNat n w).toNat k = modeAt w k := by
  have hwidth : 2 * k + 1 + 1 - 2 * k = 2 := by omega
  rw [modeAt, modeAt, fieldN, fieldN, hwidth]
  exact toNat_ofNat_field w h

/-- The digits of a number in base 4 that is cut at digit `r`. -/
theorem digit_of_split (x : Nat) {lo r : Nat} (hlo : lo < 4 ^ r) (k : Nat) :
    (x * 4 ^ r + lo) / 4 ^ k % 4 = if k < r then lo / 4 ^ k % 4 else x / 4 ^ (k - r) % 4 := by
  split
  case isTrue h =>
    have hpow : 4 ^ r = 4 ^ k * (4 * 4 ^ (r - k - 1)) := by
      rw [← Nat.pow_succ', ← Nat.pow_add]; congr 1; omega
    have hmul : x * 4 ^ r + lo = lo + 4 ^ k * (4 * (x * 4 ^ (r - k - 1))) := by rw [hpow]; ring
    rw [hmul, Nat.add_mul_div_left _ _ (by positivity), Nat.add_mul_mod_self_left]
  case isFalse h =>
    have hpow : 4 ^ k = 4 ^ r * 4 ^ (k - r) := by rw [← Nat.pow_add]; congr 1; omega
    have hdiv : (x * 4 ^ r + lo) / 4 ^ r = x := by
      rw [Nat.mul_comm, Nat.mul_add_div (by positivity), Nat.div_eq_of_lt hlo, Nat.add_zero]
    rw [hpow, ← Nat.div_div_eq_div_mul, hdiv]

/-- Setting the mode of one register leaves that of every other. -/
theorem modeAt_put (w : Nat) {mode : Nat} (hmode : mode < 4) (r k : Nat) :
    modeAt (w - modeAt w r * 2 ^ (2 * r) + mode * 2 ^ (2 * r)) k = if k = r then mode else modeAt w k := by
  have hpow : 2 ^ (2 * r) = 4 ^ r := by rw [Nat.pow_mul]
  obtain ⟨hi, hhi⟩ : ∃ hi, hi = w / 4 ^ r / 4 := ⟨_, rfl⟩
  have hlo : w % 4 ^ r < 4 ^ r := Nat.mod_lt _ (by positivity)
  have hold : w = (4 * hi + modeAt w r) * 4 ^ r + w % 4 ^ r := by
    have hdigits : 4 * hi + modeAt w r = w / 4 ^ r := by rw [hhi, modeAt_eq]; omega
    rw [hdigits, Nat.mul_comm]; exact (Nat.div_add_mod w (4 ^ r)).symm
  have hnew : w - modeAt w r * 2 ^ (2 * r) + mode * 2 ^ (2 * r) = (4 * hi + mode) * 4 ^ r + w % 4 ^ r := by
    rw [hpow, Nat.add_mul]
    rw [Nat.add_mul] at hold
    omega
  rw [hnew, modeAt_eq, digit_of_split _ hlo]
  by_cases hk : k = r
  · rw [if_neg (by omega), if_pos hk, hk, Nat.sub_self, Nat.pow_zero, Nat.div_one]; omega
  · rw [if_neg hk, modeAt_eq w k]
    conv_rhs => rw [hold, digit_of_split _ hlo]
    split
    case isTrue => rfl
    case isFalse h =>
      have hstep : 4 ^ (k - r) = 4 * 4 ^ (k - r - 1) := by rw [← Nat.pow_succ']; congr 1; omega
      have hcut (m : Nat) (hm : m < 4) : (4 * hi + m) / 4 = hi := by omega
      have hm : modeAt w r < 4 := by rw [modeAt_eq]; exact Nat.mod_lt _ (by decide)
      rw [hstep, ← Nat.div_div_eq_div_mul, ← Nat.div_div_eq_div_mul, hcut mode hmode, hcut _ hm]

/-- Setting the modes of a run of registers (R217, R222). -/
theorem modeAt_setModes {mode : Nat} (hmode : mode < 4) (n w r k : Nat) :
    modeAt (setModes w mode n r) k = if r ≤ k ∧ k < r + n then mode else modeAt w k := by
  induction n generalizing w r with
  | zero => rw [setModes, if_neg (by omega)]
  | succ n ih =>
    rw [setModes, ih, modeAt_put w hmode]
    by_cases hrest : r + 1 ≤ k ∧ k < r + 1 + n
    · rw [if_pos hrest, if_pos (by omega)]
    · rw [if_neg hrest]
      by_cases hk : k = r
      · rw [if_pos hk, if_pos (by omega)]
      · rw [if_neg hk, if_neg (by omega)]

/-- A thread whose window of `n` registers from code `b` has this mode. -/
def Thread.withModes (t : Thread) (b n mode : Nat) : Thread :=
  if b < 32 then { t with lands := BitVec.ofNat 64 (setModes t.lands.toNat mode n b) }
  else { t with landv := BitVec.ofNat 32 (setModes t.landv.toNat mode n (b - 32)) }

theorem withModes_shape (t : Thread) (b n mode : Nat) : t.withModes b n mode =
    { t with lands := (t.withModes b n mode).lands, landv := (t.withModes b n mode).landv } := by
  rw [Thread.withModes]; split <;> rfl

/-- The modes of the registers of a thread after those of a window have been set, which is one of scalars or one of vectors. -/
theorem landMode_withModes (t : Thread) {b n mode : Nat} (hmode : mode < 4) (hwindow : b + n ≤ 32 ∨ 32 ≤ b ∧ b + n ≤ 48)
    {k : Nat} (hk : k < 48) : (t.withModes b n mode).landMode k = if b ≤ k ∧ k < b + n then mode else t.landMode k := by
  by_cases hb : b < 32
  · have hlands : (t.withModes b n mode).lands = BitVec.ofNat 64 (setModes t.lands.toNat mode n b) ∧
        (t.withModes b n mode).landv = t.landv := by rw [Thread.withModes, if_pos hb]; exact ⟨rfl, rfl⟩
    obtain ⟨hs, hv⟩ := hlands
    rw [Thread.landMode, Thread.landMode, hs, hv]
    by_cases hk32 : k < 32
    · rw [if_pos hk32, if_pos hk32]
      exact (modeAt_ofNat (by omega) _).trans (modeAt_setModes hmode n _ b k)
    · rw [if_neg hk32, if_neg hk32, if_neg (by omega)]
  · have hlands : (t.withModes b n mode).lands = t.lands ∧
        (t.withModes b n mode).landv = BitVec.ofNat 32 (setModes t.landv.toNat mode n (b - 32)) := by
      rw [Thread.withModes, if_neg hb]; exact ⟨rfl, rfl⟩
    obtain ⟨hs, hv⟩ := hlands
    rw [Thread.landMode, Thread.landMode, hs, hv]
    by_cases hk32 : k < 32
    · rw [if_pos hk32, if_pos hk32, if_neg (by omega)]
    · have hcode : (b - 32 ≤ k - 32 ∧ k - 32 < b - 32 + n) ↔ (b ≤ k ∧ k < b + n) := by omega
      rw [if_neg hk32, if_neg hk32, ← if_congr hcode rfl rfl]
      exact (modeAt_ofNat (by omega) _).trans (modeAt_setModes hmode n _ (b - 32) (k - 32))

theorem landm_completes {s : State} (hland : (s.core s.gc).landing = []) (sw : Bool) {base : BitVec 6} {lenm1 : BitVec 4}
    (mode : BitVec 2) (hwindow : base.toNat + lenm1.toNat < 32 ∨ 32 ≤ base.toNat ∧ base.toNat + lenm1.toNat < 48) :
    Completes (.landm sw base lenm1 mode) s fun t => KeepsRegs s t ∧ SameWorld s t ∧ InSequence sw s t ∧
      { t.thr.kept with lands := 0, landv := 0 } = { s.thr.kept with lands := 0, landv := 0 } ∧
      ∀ k < 48, t.thr.landMode k =
        if base.toNat ≤ k ∧ k ≤ base.toNat + lenm1.toNat then mode.toNat else s.thr.landMode k := by
  have hthr : (s.modThr fun x => x.withModes base.toNat (lenm1.toNat + 1) mode.toNat).thr = _ := withModes_shape s.thr ..
  have hnext : (s.thr.withModes base.toNat (lenm1.toNat + 1) mode.toNat).next.pc = s.thr.next.pc ∧
      (s.thr.withModes base.toNat (lenm1.toNat + 1) mode.toNat).next.l0 = s.thr.next.l0 ∧
      (s.thr.withModes base.toNat (lenm1.toNat + 1) mode.toNat).next.l1 = s.thr.next.l1 := by
    rw [withModes_shape]; exact next_congr rfl rfl rfl rfl rfl rfl
  refine ⟨(s.modThr fun x => x.withModes base.toNat (lenm1.toNat + 1) mode.toNat).finish sw, ?_, ?_, rfl,
    finish_inSequence hnext (by rw [hthr]) sw, ?_, fun k hk => ?_⟩
  · exact congrArg Host.Outcome.next (reland_finish hland sw rfl)
  · rw [finish_shape, hthr]
    exact ⟨fun _ _ => ⟨rfl, rfl⟩, fun _ _ => ⟨rfl, rfl⟩, fun _ _ => ⟨rfl, rfl⟩, rfl⟩
  · rw [finish_shape, hthr]; rfl
  · have hrun : (base.toNat ≤ k ∧ k < base.toNat + (lenm1.toNat + 1)) ↔
        (base.toNat ≤ k ∧ k ≤ base.toNat + lenm1.toNat) := by omega
    rw [← if_congr hrun rfl rfl]
    exact landMode_withModes s.thr mode.isLt (by omega) hk

/-! ### The statement -/

/-- Settles O24: the parts of a minted word, what a revocation does at issue and at its end, and the forms over presence bits and
modes, each by what it does to its thread. -/
theorem capabilitiesAndPresence : Obligations.CapabilitiesAndPresence := by
  unfold Obligations.CapabilitiesAndPresence
  refine ⟨fun sw d base lenm1 x s => ⟨fun hslot team hteam => ?mintcap, revcap_raises sw d, revcap_spent sw d, revcap_ends sw d,
      fun id hk hwait => revocationEffective_ends hk hwait⟩,
    fun sw d r a b v w p f base lenm1 mode s => ⟨fun hacq => ?rfull, fun hfull hacq => ?rwaitS, fun hfull hacq => ?rwaitV,
      fun hempty => ?parks, fun hland hacq => ⟨?clearS, ?clearV, ?clearP,
      fun hwindow _ => landm_completes hland sw mode hwindow⟩⟩⟩
  case mintcap =>
    refine (mintcap_defers hslot hteam sw d base lenm1).imp fun t ⟨hseq, hdefers⟩ => ⟨hseq, _, hdefers, ?_⟩
    obtain ⟨htgt, hbase, hlen, hrights, hgen, hcheck⟩ := mkCap_fields team.key (tgt := s.thr.fabno) (base := base.toNat)
      (len := lenm1.toNat) (rights := if base.toNat < 32 then 1 else 2) (fabno_eq s.thr ▸ Nat.mod_lt _ (by decide)) base.isLt
      lenm1.isLt (by split <;> decide) s.thr.capgen.toNat
    exact ⟨htgt.trans (fabno_eq s.thr), hbase, hlen, hrights, hgen, hcheck⟩
  case rfull =>
    have hvalue : (if FullSrc.isFull s.thr f then (1 : Word) else 0) = if (match f with
        | .reg q => Reg.isFull s.thr q
        | _ => true) = true then 1 else 0 := by cases f <;> rfl
    exact (writeS_completes (fun s => if FullSrc.isFull s.thr f then 1 else 0) (present_nil hacq) rfl hvalue).imp
      fun t ⟨hwrites, hseq⟩ => ⟨hseq, hwrites⟩
  case rwaitS =>
    refine rwait_completes ⟨fun x hx => ?_, hacq⟩ sw
    obtain ⟨q, rfl, ha, hb⟩ := mem_regsFromTo_s.mp hx
    exact hfull q ha hb
  case rwaitV =>
    refine rwait_completes ⟨fun x hx => ?_, hacq⟩ sw
    obtain ⟨q, rfl, ha, hb⟩ := mem_regsFromTo_v.mp hx
    exact hfull q ha hb
  case parks =>
    obtain ⟨q, ha, hb, hq⟩ := hempty
    refine rwait_parks (fun hall => ?_) sw
    have hfull : s.thr.hasS q = true := hall (.s q) (mem_regsFromTo_s.mpr ⟨q, rfl, ha, hb⟩)
    rw [hq] at hfull
    exact Bool.false_ne_true hfull
  case clearS =>
    obtain ⟨hget, hhas, hs, hv, hp⟩ := clear_s s.thr r
    obtain ⟨honly, hseq, hbuf⟩ := clear_finish s sw (.s r)
    exact ⟨_, exec_rclr hland sw hacq _, honly, hseq, hget, hhas, hs, hv, hp, hbuf⟩
  case clearV =>
    obtain ⟨hget, hhas, hs, hv, hp⟩ := clear_v s.thr v
    obtain ⟨honly, hseq, hbuf⟩ := clear_finish s sw (.v v)
    exact ⟨_, exec_rclr hland sw hacq _, honly, hseq, hget, hhas, hs, hv, hp, hbuf⟩
  case clearP =>
    obtain ⟨hget, hhas, hs, hv, hp⟩ := clear_p s.thr p
    obtain ⟨honly, hseq, hbuf⟩ := clear_finish s sw (.p p)
    exact ⟨_, exec_rclr hland sw hacq _, honly, hseq, hget, hhas, hs, hv, hp, hbuf⟩

end Sys2Proof.Machine
end

section
/-! SUPPORT. Tag waits where no other thread waits on the bitmap: what they find, and what they clear (R261, R275, R276). -/

namespace Sys2Proof.Machine

/-! ### The bitmap where no thread waits for it -/

/-- The tag bitmap of the VD of the thread in focus on its core becomes `b`; of the cores' port and copies nothing changes, and of the
rest of the state the thread in focus and the issue counter at most. -/
structure BitsBecome (s t : State) (b : Word) : Prop where
  only : OnlyCore s t s.gc
  tags : (t.core s.gc).tagsOf s.thr.vk = { (s.core s.gc).tagsOf s.thr.vk with bits := b }
  port : (t.core s.gc).port = (s.core s.gc).port
  copies : (t.core s.gc).copies = (s.core s.gc).copies

theorem BitsBecome.modThr {s t : State} {b : Word} (h : BitsBecome s t b) (f : Thread → Thread) : BitsBecome s (t.modThr f) b := by
  obtain ⟨⟨hworld, hothers⟩, htags, hport, hcopies⟩ := h
  exact ⟨⟨by rw [State.modThr, hworld], hothers⟩, htags, hport, hcopies⟩

theorem bitsBecome_refl (s : State) : BitsBecome s s ((s.core s.gc).tagsOf s.thr.vk).bits := ⟨⟨rfl, fun _ _ => rfl⟩, rfl, rfl, rfl⟩

/-- A wait that clears nothing leaves the bits. -/
theorem and_not_zero (x : Word) : x &&& ~~~(0 : Word) = x := BitVec.and_allOnes

theorem modTags_tagsOf (s : State) (gc vk : Nat) (f : Tags → Tags) :
    ((s.modTags gc vk f).core gc).tagsOf vk = f ((s.core gc).tagsOf vk) := by
  rw [State.modTags, modCore_core_same]
  exact (tblGet_put ..).trans (if_pos rfl)

theorem tagsChanged_unwatched {s : State} {gc vk : Nat} (h : tagWaiters s gc vk = []) (f : Tags → Tags) :
    tagsChanged (s.modTags gc vk f) gc vk = s.modTags gc vk f := by
  rw [tagsChanged, tagWaiters_congr (s := s) (t := s.modTags gc vk f) rfl rfl, h, List.foldl_nil]

theorem clearTags_thr {s : State} (h : tagWaiters s s.gc s.thr.vk = []) (mask : Word) :
    (s.clearTags s.gc s.thr.vk mask).thr = s.thr := by
  rw [State.clearTags, tagsChanged_unwatched h]; rfl

theorem clearTags_bits {s : State} (h : tagWaiters s s.gc s.thr.vk = []) (mask : Word) :
    BitsBecome s (s.clearTags s.gc s.thr.vk mask) (((s.core s.gc).tagsOf s.thr.vk).bits &&& ~~~mask) := by
  rw [State.clearTags, tagsChanged_unwatched h]
  refine ⟨⟨rfl, fun k hk => modCore_core_other s hk _⟩, modTags_tagsOf .., ?_, ?_⟩
  · rw [State.modTags, modCore_core_same]
  · rw [State.modTags, modCore_core_same]

/-! ### What a tag wait finds (R275) -/

section
variable {bits mask : Word}

theorem tagTest_any (h : mask = 0 ∨ bits &&& mask ≠ 0) : tagTest 0 bits mask = some (bits &&& mask, 0) := if_pos (by simpa using h)

theorem tagTest_any_none (h : ¬ (mask = 0 ∨ bits &&& mask ≠ 0)) : tagTest 0 bits mask = none := if_neg (by simpa using h)

theorem tagTest_all (h : bits &&& mask = mask) : tagTest 1 bits mask = some (mask, 0) := if_pos h

theorem tagTest_all_none (h : bits &&& mask ≠ mask) : tagTest 1 bits mask = none := if_neg h

theorem tagTest_first_empty (h : mask = 0) : tagTest 2 bits mask = some (64, 0) := if_pos h

theorem tagTest_first_none (hmask : mask ≠ 0) (h : bits &&& mask = 0) : tagTest 2 bits mask = none := (if_neg hmask).trans (if_pos h)

/-- TFFR finds the lowest tag that is set and named, and clears it. -/
theorem tagTest_first {n : Nat} (hn : n < 64) (hset : (bits &&& mask).getLsbD n = true)
    (hbelow : ∀ k < n, (bits &&& mask).getLsbD k = false) : tagTest 2 bits mask = some (BitVec.ofNat 64 n, 1#64 <<< n) := by
  have hfound : bits &&& mask ≠ 0 := fun h => by simp [h] at hset
  have hmask : mask ≠ 0 := fun h => hfound (by simp [h])
  obtain ⟨-, hzeros, hone⟩ := lowestOne_isLowestOne 64 (bits &&& mask).toNat
  have hlow : lowestOne 64 (bits &&& mask).toNat = n := by
    rcases Nat.lt_trichotomy (lowestOne 64 (bits &&& mask).toNat) n with hlt | heq | hgt
    · exact absurd (hone (by omega)) (Bool.eq_false_iff.mp (hbelow _ hlt))
    · exact heq
    · exact absurd hset (Bool.eq_false_iff.mp (hzeros n hgt))
  exact (if_neg hmask).trans ((if_neg hfound).trans (by rw [hlow]))

end

/-! ### The forms (R275, R276) -/

section
variable {s : State} {a : Src} {form : Nat} (hwait : s.thr.wait = .none) (hp : Present s (srcRegs a)) (sw : Bool) (d : SReg)
include hwait hp

/-- A tag wait that finds its condition met ends at once, with its result, and with the tags cleared that it takes. -/
theorem tagWaitForm_ends (hw : tagWaiters s s.gc s.thr.vk = []) {r clr : Word}
    (h : tagTest form ((s.core s.gc).tagsOf s.thr.vk).bits (s.src a) = some (r, clr)) :
    let t := tagWaitForm sw form d a s
    SetsS s t d r ∧ InSequence sw s t ∧ BitsBecome s t (((s.core s.gc).tagsOf s.thr.vk).bits &&& ~~~clr) := by
  have hform : tagWaitForm sw form d a s =
      (((if clr = 0 then s else s.clearTags s.gc s.thr.vk clr).writeS d r).finish sw) := by
    rw [tagWaitForm, hwait]
    simp only [withRegs_present hp, h]
  have hcleared : (if clr = 0 then s else s.clearTags s.gc s.thr.vk clr).thr = s.thr ∧
      BitsBecome s (if clr = 0 then s else s.clearTags s.gc s.thr.vk clr)
        (((s.core s.gc).tagsOf s.thr.vk).bits &&& ~~~clr) := by
    split
    case isTrue hclr =>
      rw [hclr, and_not_zero]
      exact ⟨rfl, bitsBecome_refl s⟩
    case isFalse => exact ⟨clearTags_thr hw clr, clearTags_bits hw clr⟩
  obtain ⟨hthr, hbits⟩ := hcleared
  obtain ⟨hsets, hseq⟩ := writeS_finish_sets hthr d r sw
  rw [hform]
  exact ⟨hsets, hseq, (hbits.modThr _).modThr _⟩

/-- A tag wait whose condition fails parks, and no core changes. -/
theorem tagWaitForm_parks (h : tagTest form ((s.core s.gc).tagsOf s.thr.vk).bits (s.src a) = none) :
    let t := tagWaitForm sw form d a s
    Stays s t ∧ t.thr.park.isSome = true ∧ t.cores = s.cores := by
  have hform : tagWaitForm sw form d a s =
      (s.bump.modThr fun t => { t with wait := .tag form (s.src a) s.seq none }).parkOn (s.src a) := by
    rw [tagWaitForm, hwait]
    simp only [withRegs_present hp, h]
  rw [hform]
  refine ⟨⟨⟨fun _ _ => ⟨rfl, rfl⟩, fun _ _ => ⟨rfl, rfl⟩, fun _ _ => ⟨rfl, rfl⟩, rfl⟩, rfl, rfl⟩, ?_, rfl⟩
  rw [State.parkOn, State.parkFor, State.modThr_thr]
  cases (s.bump.modThr fun t => { t with wait := .tag form (s.src a) s.seq none }).thr.park <;> rfl

end

/-! ### The statement -/

/-- Settles O27: each form ends or parks by what its test finds of the bitmap, and what it clears is all that changes there. -/
theorem tagWaits : Obligations.TagWaits := by
  unfold Obligations.TagWaits
  intro sw d a s hwait hp hw bits mask after parks
  have hafter {t : State} {b : Word} (hseq : InSequence sw s t) (h : BitsBecome s t b) : after t b :=
    ⟨hseq, h.only, h.tags, h.port, h.copies⟩
  have hends {form : Nat} {r clr : Word} (h : tagTest form bits mask = some (r, clr)) :
      SetsS s (tagWaitForm sw form d a s) d r ∧ after (tagWaitForm sw form d a s) (bits &&& ~~~clr) := by
    obtain ⟨hsets, hseq, hbits⟩ := tagWaitForm_ends hwait hp sw d hw h
    exact ⟨hsets, hafter hseq hbits⟩
  have hparks {form : Nat} (h : tagTest form bits mask = none) : parks (tagWaitForm sw form d a s) :=
    tagWaitForm_parks hwait hp sw d h
  refine ⟨fun h => ⟨_, rfl, ?any⟩, fun h => ⟨_, rfl, hparks (tagTest_any_none h)⟩, fun h => ⟨_, rfl, ?all⟩,
    fun h => ⟨_, rfl, hparks (tagTest_all_none h)⟩, fun h => ⟨_, rfl, ?empty⟩,
    fun n hn hset hbelow => ⟨_, rfl, hends (tagTest_first hn hset hbelow)⟩,
    fun hmask h => ⟨_, rfl, hparks (tagTest_first_none hmask h)⟩,
    ⟨_, congrArg Host.Outcome.next (withRegs_present hp _), ?clear⟩⟩
  case any => simpa only [and_not_zero] using hends (tagTest_any h)
  case all => simpa only [and_not_zero] using hends (tagTest_all h)
  case empty => simpa only [and_not_zero] using hends (tagTest_first_empty h)
  case clear =>
    have hpasses := finish_passes (clearTags_thr hw mask) sw
    exact ⟨hpasses, hafter hpasses.sequence ((clearTags_bits hw mask).modThr _)⟩

end Sys2Proof.Machine
end

section
/-! SUPPORT. Copy requests of a core, and how one of them is settled: its locks, its tag and its completion word (R215, R262, R268,
R271, R273). -/

namespace Sys2Proof.Machine

/-! ### What the next head of a thread depends on -/

/-- What says which head comes next for a thread and whether it stops before it, with its number (R42, R109, R365). -/
def Thread.headState (t : Thread) : Nat × Addr × LoopCtx × LoopCtx × Bool × Option Line × Option Line × Nat :=
  (t.id, t.pc, t.l0, t.l1, t.hm, t.line, t.line2, t.stop)

/-- An instruction that completes once the thread in focus has changed in nothing that its next head depends on goes on in sequence. -/
theorem finish_of_headState {s u : State} (h : u.thr.headState = s.thr.headState) (sw : Bool) : InSequence sw s (u.finish sw) := by
  simp only [Thread.headState, Prod.mk.injEq] at h
  obtain ⟨-, hpc, hl0, hl1, hhm, hline, hline2, hstop⟩ := h
  exact finish_inSequence (next_congr hpc hl0 hl1 hhm hline hline2) hstop sw

/-- Threads stay under their numbers, and the one in focus has the same head. -/
def HeadsKept (s t : State) : Prop := s.Keyed → t.Keyed ∧ t.thr.headState = s.thr.headState

theorem HeadsKept.trans {s t u : State} (h : HeadsKept s t) (h' : HeadsKept t u) : HeadsKept s u := fun hk =>
  ⟨(h' (h hk).1).1, (h' (h hk).1).2.trans (h hk).2⟩

theorem headsKept_of_threads {s t : State} (hx : t.thr = s.thr) (ht : t.threads = s.threads) : HeadsKept s t := fun hk =>
  ⟨fun e he => hk e (ht ▸ he), by rw [hx]⟩

theorem setThread_headsKept {s : State} {id : Nat} {x : Thread} (hx : x.headState = (s.thread id).headState) :
    HeadsKept s (s.setThread x) := by
  intro hk
  have hid : x.id = id := (congrArg (fun y => y.1) hx).trans (thread_id hk id)
  refine ⟨setThread_keyed hk x, ?_⟩
  rw [State.setThread]
  split
  case isTrue h => rw [hx, thread_of_id (h.trans hid)]
  case isFalse => rfl

theorem evalTagWait_headsKept (gc vk : Nat) (s : State) (id : Nat) : HeadsKept s (evalTagWait gc vk s id) := by
  rw [evalTagWait]
  split
  · split
    · exact headsKept_of_threads rfl rfl
    · exact .trans (headsKept_of_threads (t := s.modTags gc vk _) rfl rfl) (setThread_headsKept rfl)
  · exact headsKept_of_threads rfl rfl

theorem setTag_headsKept (s : State) (gc vk n st : Nat) : HeadsKept s (s.setTag gc vk n st) :=
  List.foldlRecOn (motive := HeadsKept s) _ _ (headsKept_of_threads (t := s.modTags gc vk _) rfl rfl)
    fun _ ht id _ => ht.trans (evalTagWait_headsKept gc vk _ id)

/-! ### Arrivals (R215, R216, R219) -/

theorem putReg_headState (t : Thread) (w : RegWrite) : (t.putReg w).headState = t.headState := by
  cases w with
  | s r x => rfl
  | v r x => rfl
  | p r x => rw [putP_shape]; rfl

theorem refuseInto_headState (t : Thread) (l : Landing) : (refuseInto t l).headState = t.headState := by
  rw [refuseInto, Thread.addCause]
  split
  · rw [cutPark_shape]; rfl
  · rfl

theorem landTest_headState {t y : Thread} {held : List Landing} {l : Landing} (h : landTest t held l = .land y) :
    y.headState = t.headState := by
  rw [landTest] at h
  split at h
  · cases h
  · next w _ =>
    have hland {x : Thread} (hx : LandResult.land x = .land y) (hput : x = t.putReg w) : y.headState = t.headState := by
      cases hx; rw [hput, putReg_headState]
    dsimp only at h
    split at h
    · cases h
    split at h
    · cases h
    split at h
    · cases h
    split at h
    · exact hland h rfl
    split at h
    · cases h
    · exact hland h rfl
    · cases h

/-- An arrival has been handled: of the cores only what their landing buffers hold has changed, no byte of memory, and no thread's
head. -/
structure OnlyArrival (s t : State) : Prop where
  heads : HeadsKept s t
  cores : ∀ k, t.core k = { s.core k with landing := (t.core k).landing }
  mem : t.mem = s.mem

theorem onlyArrival_of_threads {s t : State} (hh : HeadsKept s t) (hc : t.cores = s.cores) (hm : t.mem = s.mem) :
    OnlyArrival s t := ⟨hh, fun k => by rw [State.core, hc]; rfl, hm⟩

theorem setThread_onlyArrival {s : State} {id : Nat} {x : Thread} (hx : x.headState = (s.thread id).headState) :
    OnlyArrival s (s.bump.setThread x) :=
  onlyArrival_of_threads (setThread_headsKept (s := s.bump) (id := id) hx) (by rw [setThread_world]; rfl) (by rw [setThread_world]; rfl)

/-- An arrival that a landing buffer takes. -/
theorem holdArrival_onlyArrival {s : State} {id gc : Nat} {x : Thread} (hx : x.headState = (s.thread id).headState)
    (ls : List Landing) : OnlyArrival s ((s.bump.setThread x).modCore gc fun c => { c with landing := ls }) := by
  obtain ⟨hheads, hcores, hmem⟩ := setThread_onlyArrival hx
  refine ⟨hheads, fun k => ?_, hmem⟩
  rw [modCore_core]
  split
  case isTrue h => rw [h, hcores gc]
  case isFalse => exact hcores k

theorem arrive_onlyArrival (s : State) (l : Landing) : OnlyArrival s (s.arrive l).1 := by
  have hbump : OnlyArrival s s.bump := onlyArrival_of_threads (headsKept_of_threads rfl rfl) rfl rfl
  rw [State.arrive]
  dsimp only
  split
  · exact hbump
  split
  case h_1 htest => exact setThread_onlyArrival (id := l.tid) (landTest_headState htest)
  case h_2 => exact hbump
  case h_3 =>
    split
    · exact hbump
    · exact holdArrival_onlyArrival (id := l.tid) rfl _
  case h_4 =>
    split
    · exact hbump
    · exact holdArrival_onlyArrival (id := l.tid) (refuseInto_headState ..) _

theorem landWord_onlyArrival {s u : State} {engine tid reg ended : Nat} {w : Word} {ok : Bool}
    (h : s.landWord engine tid reg ended w = (u, ok)) : OnlyArrival s u := by
  have hsame : OnlyArrival s s := onlyArrival_of_threads (headsKept_of_threads rfl rfl) rfl rfl
  have harrive := arrive_onlyArrival s (wordLanding (s.thread tid) engine reg w)
  rw [State.landWord] at h
  split at h
  · cases h; exact hsame
  split at h
  · cases h; exact hsame
  split at h <;> next hu => cases h; rw [hu] at harrive; exact harrive

/-! ### The requests of a core under one number -/

/-- Every request of a core under a number is as `P` says. -/
def EachCopy (s : State) (gc id : Nat) (P : CopyReq → Prop) : Prop := ∀ r ∈ (s.core gc).copies, r.id = id → P r

theorem EachCopy.modCopy {s : State} {gc id : Nat} {P Q : CopyReq → Prop} {f : CopyReq → CopyReq} (h : EachCopy s gc id P)
    (hf : ∀ r, P r → Q (f r)) : EachCopy (s.modCopy gc id f) gc id Q := by
  intro r hr hid
  rw [State.modCopy, modCore_core_same] at hr
  obtain ⟨q, hq, rfl⟩ := List.mem_map.1 hr
  by_cases hqid : q.id = id
  · rw [if_pos hqid]; exact hf q (h q hq hqid)
  · rw [if_neg hqid] at hid; exact absurd hid hqid

theorem EachCopy.congr {s t : State} {gc id : Nat} {P : CopyReq → Prop} (h : EachCopy s gc id P)
    (hc : (t.core gc).copies = (s.core gc).copies) : EachCopy t gc id P := by
  rw [EachCopy, hc]; exact h

/-! ### Undefined bytes (R262) -/

theorem foldl_onlyMemory {α : Type} {f : State → α → State} (hf : ∀ s x, OnlyMemory s (f s x)) (s : State) (xs : List α) :
    OnlyMemory s (xs.foldl f s) :=
  List.foldlRecOn (motive := OnlyMemory s) _ _ rfl fun t ht x _ => ht.trans (hf t x)

theorem scramble_onlyMemory (s : State) (locs : List Nat) : OnlyMemory s (s.scramble locs) := by
  rw [State.scramble]
  refine .trans (foldl_onlyMemory (fun t ⟨l, b⟩ => ?_) s _) rfl
  dsimp only
  split
  · exact rawWrite_onlyMemory ..
  · refine foldl_onlyMemory (fun u ⟨m, c⟩ => ?_) t _
    dsimp only
    split
    · exact rawWrite_onlyMemory ..
    · rfl

/-! ### A request is settled (R262, R270, R271) -/

/-- A request of a core is over with a status: its locks are gone, its tag is set where no thread waits for it, its completion word has
landed or has still to, and no thread's head has changed. -/
structure CopySettled (s t : State) (gc : Nat) (req : CopyReq) (status : Nat) : Prop where
  heads : HeadsKept s t
  mem : req.undef = [] → t.mem = s.mem
  locks : (t.core gc).locks = (s.core gc).locks.filter fun k => k.owner != req.id
  tag : tagWaiters s gc req.vk = [] → ((t.core gc).tagsOf req.vk).bits.getLsbD (w0Tag req.w0) = true ∧
    ((t.core gc).tagsOf req.vk).stat[w0Tag req.w0]? = some (BitVec.ofNat 4 status)
  ended : EachCopy t gc req.id fun r => r.status = status ∧ (r.state = .landing ∨ r.state = .settled)

/-- The state in which a request's tag is still to be set. -/
structure CopyEnds (s v : State) (gc : Nat) (req : CopyReq) (status : Nat) : Prop where
  thr : v.thr = s.thr
  threads : v.threads = s.threads
  mem : req.undef = [] → v.mem = s.mem
  locks : (v.core gc).locks = (s.core gc).locks.filter fun k => k.owner != req.id
  ended : EachCopy v gc req.id fun r => r.status = status ∧ r.state = .landing

/-- What settling a request does before its tag is set. -/
def endCopy (s : State) (gc : Nat) (req : CopyReq) (status : Nat) : State :=
  let u := (((s.dropUnits fun k u => arbClass k == 1 && u.op == req.id).forgetWalks req.id gc).scramble req.undef).unlock gc req.id
  u.bump.modCopy gc req.id fun r => { r with state := .landing, todo := [], status := status, ended := u.seq }

theorem endCopy_ends (s : State) (gc : Nat) (req : CopyReq) (status : Nat) : CopyEnds s (endCopy s gc req status) gc req status := by
  have hwalks := forgetWalks_onlyRouters (s.dropUnits fun k u => arbClass k == 1 && u.op == req.id) req.id gc
  rw [endCopy]
  generalize (s.dropUnits fun k u => arbClass k == 1 && u.op == req.id).forgetWalks req.id gc = v at hwalks ⊢
  have hbytes := scramble_onlyMemory v req.undef
  have hcore : (v.scramble req.undef).core gc = s.core gc := by
    rw [State.core, hbytes.cores]; exact hwalks.core gc
  refine ⟨hbytes.thr.trans hwalks.thr, hbytes.threads.trans hwalks.threads, fun h => ?_, ?_, ?_⟩
  · rw [h]; exact hwalks.mem
  · rw [State.modCopy, modCore_core_same]
    show (((v.scramble req.undef).unlock gc req.id).core gc).locks = _
    rw [State.unlock, modCore_core_same, hcore]
  · exact EachCopy.modCopy (P := fun _ => True) (fun _ _ _ => trivial) fun _ _ => ⟨rfl, rfl⟩

/-- A settled request's completion word has been presented at most, and then the request may be marked. -/
theorem settleCopy_cases (s : State) (gc : Nat) (req : CopyReq) (status : Nat) :
    ∃ u, OnlyArrival ((endCopy s gc req status).setTag gc req.vk (w0Tag req.w0) status) u ∧
      (settleCopy s gc req status = u ∨
        settleCopy s gc req status = u.modCopy gc req.id fun r => { r with state := .settled }) := by
  generalize hv : (endCopy s gc req status).setTag gc req.vk (w0Tag req.w0) status = v
  have hsame : OnlyArrival v v := onlyArrival_of_threads (headsKept_of_threads rfl rfl) rfl rfl
  rw [settleCopy]
  rw [endCopy] at hv
  rw [hv]
  split
  case isFalse => exact ⟨v, hsame, .inr rfl⟩
  case isTrue =>
    split
    next u ok hword =>
    split
    · exact ⟨u, landWord_onlyArrival hword, .inr rfl⟩
    · exact ⟨v, hsame, .inl rfl⟩

theorem settleCopy_settled (s : State) (gc : Nat) (req : CopyReq) (status : Nat) :
    CopySettled s (settleCopy s gc req status) gc req status := by
  obtain ⟨u, harrival, hcase⟩ := settleCopy_cases s gc req status
  obtain ⟨hthr, hthreads, hmem, hlocks, hended⟩ := endCopy_ends s gc req status
  generalize endCopy s gc req status = v at harrival hthr hthreads hmem hlocks hended
  obtain ⟨htagsMem, htagsCore⟩ := setTag_onlyTags v gc req.vk (w0Tag req.w0) status
  have hheads : HeadsKept s u :=
    ((headsKept_of_threads hthr hthreads).trans (setTag_headsKept v gc req.vk (w0Tag req.w0) status)).trans harrival.heads
  have hcopies : (u.core gc).copies = (v.core gc).copies := by rw [harrival.cores gc, htagsCore gc]
  have hlocksU : (u.core gc).locks = (s.core gc).locks.filter fun k => k.owner != req.id := by
    rw [harrival.cores gc, htagsCore gc]; exact hlocks
  have htag : tagWaiters s gc req.vk = [] → ((u.core gc).tagsOf req.vk).bits.getLsbD (w0Tag req.w0) = true ∧
      ((u.core gc).tagsOf req.vk).stat[w0Tag req.w0]? = some (BitVec.ofNat 4 status) := by
    intro hw
    have hw' : tagWaiters v gc req.vk = [] := by rw [tagWaiters_congr hthr hthreads, hw]
    have hlt : w0Tag req.w0 % 64 = w0Tag req.w0 := Nat.mod_eq_of_lt (Nat.mod_lt _ (by decide))
    have hbit := setTag_bit hw' (w0Tag req.w0) status
    have hstat := setTag_stat hw' (w0Tag req.w0) status
    rw [hlt] at hbit hstat
    rw [harrival.cores gc]
    exact ⟨hbit, hstat⟩
  have hendedU := hended.congr hcopies
  have hmemU (h : req.undef = []) : u.mem = s.mem := harrival.mem.trans (htagsMem.trans (hmem h))
  obtain hcase | hcase := hcase <;> rw [hcase]
  case inl => exact ⟨hheads, hmemU, hlocksU, htag, fun r hr hid => ⟨(hendedU r hr hid).1, .inl (hendedU r hr hid).2⟩⟩
  case inr =>
    refine ⟨hheads, hmemU, ?_, ?_, hendedU.modCopy fun r hr => ⟨hr.1, .inr rfl⟩⟩
    · rw [State.modCopy, modCore_core_same]; exact hlocksU
    · rw [State.modCopy, modCore_core_same]; exact htag

end Sys2Proof.Machine
end

section
/-! SUPPORT. Copy requests at issue, their cancelling and querying, and the parameter cache (R263 to R269, R273, R274). -/

namespace Sys2Proof.Machine

/-! ### The request at issue (R266, R268) -/

theorem takeDraws_shape (s : State) (rm : Rm) (n : Nat) : ∃ g, (s.takeDraws rm n).1 = s.modThr fun t => { t with rng := g } := by
  rw [State.takeDraws]
  split
  · exact ⟨_, rfl⟩
  · exact ⟨s.thr.rng, rfl⟩

/-- The locks that a request of these words takes at issue: those of the inline form; a parameter block's come later (R268). -/
abbrev issueLocks (s : State) (w0 w1 w2 w3 : Word) : List Lock :=
  if w0Pb w0 then [] else copyLocks s.thr.vk s.seq w0 w1 w2 (inlineShape w0 w1 w3)

/-- The FIFO and the lock table take a request with `n` locks. -/
abbrev CopyRoom (c : Core) (n : Nat) : Prop := (c.copies.filter fun r => r.state == .queued).length < 16 ∧ c.locks.length + n ≤ 32

theorem copyRoom_iff (c : Core) (n : Nat) : (16 ≤ fifoLen c || !locksFit c n) = true ↔ ¬ CopyRoom c n := by
  rw [Bool.or_eq_true, decide_eq_true_eq, Bool.not_eq_true', locksFit, decide_eq_false_iff_not, fifoLen, lockRoom]
  omega

/-- What D takes of a queued request: its handle with CAN, else 0 (R273). -/
abbrev copyHandle (w0 : Word) (seq : BitVec 32) : Word := if w0Can w0 then BitVec.ofNat 64 (2 ^ 32 + seq.toNat) else 0

/-- The sequence number that a core's next request of a VD takes. -/
abbrev State.nextCopySeq (s : State) (vk : Nat) : BitVec 32 := tblGet (s.core s.gc).copySeq vk 0 + 1

/-- What a queued request leaves: it stands last in its core's FIFO under the VD's next sequence number, with its locks, and D holds its
handle or 0. -/
structure CopyQueued (sw : Bool) (d : SReg) (w0 w1 w2 w3 : Word) (s t : State) : Prop where
  sequence : InSequence sw s t
  only : OnlyCore s t s.gc
  value : t.thr.getS d = copyHandle w0 (s.nextCopySeq s.thr.vk)
  full : t.thr.hasS d = true
  scalars : SameS s.thr t.thr [d]
  vectors : SameV s.thr t.thr []
  predicates : SameP s.thr t.thr []
  locks : (t.core s.gc).locks = (s.core s.gc).locks ++ issueLocks s w0 w1 w2 w3
  numbered : tblGet (t.core s.gc).copySeq s.thr.vk 0 = s.nextCopySeq s.thr.vk
  request : ∃ r : CopyReq, (t.core s.gc).copies = (s.core s.gc).copies ++ [r] ∧ r.state = .queued ∧
    r.seq = s.nextCopySeq s.thr.vk ∧ r.tid = s.thr.id ∧ r.vk = s.thr.vk ∧
    [r.w0, r.w1, r.w2, r.w3] = [w0, w1, w2, w3]

/-- The four words of a request stand in consecutive registers, all present. -/
structure RequestWords (s : State) (a : SReg) (w0 w1 w2 w3 : Word) : Prop where
  present : Present s (sregs a 4)
  zero : s.thr.getS a = w0
  one : s.thr.getS (sregAt a 1) = w1
  two : s.thr.getS (sregAt a 2) = w2
  three : s.thr.getS (sregAt a 3) = w3

/-- A core that has taken a request with its locks. -/
def Core.withRequest (req : CopyReq) (locks : List Lock) (c : Core) : Core :=
  { c with copies := c.copies ++ [req], copySeq := tblPut c.copySeq req.vk req.seq, locks := c.locks ++ locks }

/-- The request of the thread in focus with these words and draws. -/
def State.newCopy (s : State) (w0 w1 w2 w3 : Word) (rnd : List Nat) : CopyReq :=
  { id := s.seq, seq := s.nextCopySeq s.thr.vk, vk := s.thr.vk, tid := s.thr.id, w0 := w0, w1 := w1, w2 := w2, w3 := w3, rnd := rnd,
    state := .queued, todo := [], dsts := [], undef := [], status := stOk, ended := 0, spans := [], paid := 0 }

/-- A request stands last in its core's FIFO, numbered, with its locks, and the next head follows with a value in D (R268, R273). -/
def queueCopy (s : State) (sw : Bool) (d : SReg) (req : CopyReq) (locks : List Lock) (x : Word) : State :=
  ((s.bump.modCore s.gc (Core.withRequest req locks)).writeS d x).finish sw

theorem queueCopy_sets (s : State) (sw : Bool) (d : SReg) (req : CopyReq) (locks : List Lock) (x : Word) :
    let t := queueCopy s sw d req locks x
    SetsS s t d x ∧ InSequence sw s t ∧ OnlyCore s t s.gc ∧ t.core s.gc = (s.core s.gc).withRequest req locks := by
  obtain ⟨hsets, hseq⟩ := writeS_finish_sets (s := s) (u := s.bump.modCore s.gc (Core.withRequest req locks)) rfl d x sw
  refine ⟨hsets, hseq, ⟨rfl, fun k hk => ?_⟩, ?_⟩
  · exact modCore_core_other s.bump hk _
  · exact modCore_core_same s.bump ..

section
variable {s : State} {a : SReg} {w0 w1 w2 w3 : Word} (h : RequestWords s a w0 w1 w2 w3) (sw nb : Bool) (d : SReg)
include h

theorem copyForm_badWord (hw : w0Bad w0 = true) : copyForm sw nb d a s = s.trap cFmtbad w0 := by
  rw [copyForm, withRegs_present h.present]
  simp only [h.zero, hw, if_true]

section
variable (hw : w0Bad w0 = false)
include hw

theorem copyForm_badPtr {y : Word} (hptr : ptrsBad w0 w1 w2 w3 = some y) : copyForm sw nb d a s = s.trap cFmtbad y := by
  rw [copyForm, withRegs_present h.present]
  simp only [h.zero, h.one, h.two, h.three, hw, Bool.false_eq_true, if_false, hptr]

variable (hptr : ptrsBad w0 w1 w2 w3 = none)
include hptr

theorem copyForm_misaligned {y : Word} (hal : copyMisaligned w0 w1 w2 w3 = some y) :
    copyForm sw nb d a s = s.trap cAlign y := by
  rw [copyForm, withRegs_present h.present]
  simp only [h.zero, h.one, h.two, h.three, hw, Bool.false_eq_true, if_false, hptr, hal]

variable (hal : copyMisaligned w0 w1 w2 w3 = none)
include hal

/-- With no room CPYNB gives all ones and CPY does not issue. -/
theorem copyForm_full (hroom : ¬ CopyRoom (s.core s.gc) (issueLocks s w0 w1 w2 w3).length) :
    copyForm sw nb d a s = if nb then (s.writeS d (BitVec.allOnes 64)).finish sw else s.bubble := by
  rw [copyForm, withRegs_present h.present]
  simp only [h.zero, h.one, h.two, h.three, hw, Bool.false_eq_true, if_false, hptr, hal]
  exact if_pos ((copyRoom_iff _ _).mpr hroom)

theorem copyForm_queued (hroom : CopyRoom (s.core s.gc) (issueLocks s w0 w1 w2 w3).length) :
    ∃ (g : BitVec 32) (rnd : List Nat), copyForm sw nb d a s = queueCopy (s.modThr fun t => { t with rng := g }) sw d
      (s.newCopy w0 w1 w2 w3 rnd) (issueLocks s w0 w1 w2 w3) (copyHandle w0 (s.nextCopySeq s.thr.vk)) := by
  obtain ⟨g, hg⟩ := takeDraws_shape s (rmOf (w0Rm w0)) ((inlineShape w0 w1 w3).len * (inlineShape w0 w1 w3).n1)
  rw [copyForm, withRegs_present h.present]
  simp only [h.zero, h.one, h.two, h.three, hw, Bool.false_eq_true, if_false, hptr, hal]
  rw [if_neg ((copyRoom_iff _ _).not.mpr (not_not.mpr hroom)), hg]
  exact ⟨g, _, rfl⟩

theorem copyForm_queues (hroom : CopyRoom (s.core s.gc) (issueLocks s w0 w1 w2 w3).length) :
    CopyQueued sw d w0 w1 w2 w3 s (copyForm sw nb d a s) := by
  obtain ⟨g, rnd, hform⟩ := copyForm_queued h sw nb d hw hptr hal hroom
  obtain ⟨hsets, hseq, ⟨hworld, hothers⟩, hcore⟩ := queueCopy_sets (s.modThr fun t => { t with rng := g }) sw d
    (s.newCopy w0 w1 w2 w3 rnd) (issueLocks s w0 w1 w2 w3) (copyHandle w0 (s.nextCopySeq s.thr.vk))
  rw [← hform] at hsets hseq hworld hothers hcore
  generalize copyForm sw nb d a s = t at hsets hseq hworld hothers hcore ⊢
  exact ⟨hseq, ⟨hworld, hothers⟩, hsets.value, hsets.full, hsets.scalars, hsets.vectors, hsets.predicates,
    congrArg Core.locks hcore,
    (congrArg (fun c : Core => tblGet c.copySeq s.thr.vk 0) hcore).trans ((tblGet_put ..).trans (if_pos rfl)),
    s.newCopy w0 w1 w2 w3 rnd, congrArg Core.copies hcore, rfl, rfl, rfl, rfl, rfl⟩

end

end

/-! ### Cancelling (R273) -/

/-- What CPYC answers of a request that stands so. -/
def cancelResult : OpState → Word
  | .queued => 1
  | .running => 2
  | .landing => 0
  | .settled => 0

/-- What CPYC leaves of a request that has a handle: the answer in D, and a request that was not over is over as CANCELLED. -/
structure CopyCancelled (sw : Bool) (d : SReg) (req : CopyReq) (s t : State) : Prop where
  sequence : InSequence sw s t
  full : t.thr.hasS d = true
  value : t.thr.getS d = cancelResult req.state
  ended : req.state = .queued ∨ req.state = .running →
    EachCopy t s.gc req.id fun r => r.status = 1 ∧ (r.state = .landing ∨ r.state = .settled)

section
variable {s : State} (hk : s.Keyed) {req : CopyReq} (sw : Bool) (d : SReg)
include hk

theorem cancelCopy_cancelled {x : Word} (hvalue : cancelResult req.state = x) :
    CopyCancelled sw d req s (((cancelCopy s s.gc req).writeS d x).finish sw) := by
  obtain ⟨hheads, -, -, -, hended⟩ := settleCopy_settled s s.gc
    { req with undef := if req.state == .running then req.dsts else [] } stCancelled
  rw [cancelCopy]
  generalize settleCopy s s.gc _ stCancelled = u at hheads hended ⊢
  obtain ⟨hwrites, -⟩ := writeS_finish u d x sw
  exact ⟨finish_of_headState (u := u.writeS d x) (hheads hk).2 sw, hwrites.full, hwrites.value.trans hvalue.symm, fun _ => hended⟩

theorem cpyc_cancels {a : Src} (hp : Present s (srcRegs a)) (hreq : byHandle (s.core s.gc) s.thr.vk (s.src a) = some req) :
    Completes (.cpyc sw d a) s (CopyCancelled sw d req s) := by
  refine ⟨_, exec_withRegs rfl hp, ?_⟩
  have hover (hst : req.state ≠ .queued ∧ req.state ≠ .running) (hvalue : cancelResult req.state = 0) :
      CopyCancelled sw d req s ((s.writeS d 0).finish sw) := by
    obtain ⟨hwrites, hseq⟩ := writeS_finish s d 0 sw
    exact ⟨hseq, hwrites.full, hwrites.value.trans hvalue.symm, fun h => absurd h (not_or.mpr hst)⟩
  simp only [hreq]
  cases hst : req.state with
  | queued => exact cancelCopy_cancelled hk sw d (by rw [hst]; rfl)
  | running => exact cancelCopy_cancelled hk sw d (by rw [hst]; rfl)
  | landing => exact hover (by simp [hst]) (by rw [hst]; rfl)
  | settled => exact hover (by simp [hst]) (by rw [hst]; rfl)

end

theorem cpyc_unknown {s : State} {a : Src} (hp : Present s (srcRegs a)) (sw : Bool) (d : SReg)
    (hreq : byHandle (s.core s.gc) s.thr.vk (s.src a) = none) :
    Completes (.cpyc sw d a) s fun t => WritesS s t d 3 ∧ InSequence sw s t := by
  refine ⟨_, exec_withRegs rfl hp, ?_⟩
  simp only [hreq]
  exact writeS_finish s d 3 sw

/-! ### Querying, and the parameter cache (R269, R274) -/

/-- An instruction whose result is formed at its return: the result stands at the end of the buffer (R44, R274, R279). -/
theorem deferForm_finish (s : State) (ws : List RegWrite) (form : Form) (done sw : Bool) :
    let t := (s.defer ws form done).finish sw
    InSequence sw s t ∧ SameS s.thr t.thr [] ∧ t = { s with seq := s.seq + 1, thr := t.thr } ∧
      t.thr.buf = s.thr.buf ++ [⟨s.seq, s.thr.pc, ws, form, done, false, none, false⟩] :=
  ⟨finish_of_headState (u := s.defer ws form done) rfl sw, fun _ _ => ⟨rfl, rfl⟩, rfl, rfl⟩

/-- An instruction without a result that changes its own core alone. -/
theorem modCore_finish (s : State) (f : Core → Core) (sw : Bool) :
    let t := (s.modCore s.gc f).finish sw
    Passes sw s t ∧ OnlyCore s t s.gc ∧ t.core s.gc = f (s.core s.gc) :=
  ⟨finish_passes (s := s) (u := s.modCore s.gc f) rfl sw, ⟨rfl, fun _ hk => modCore_core_other s hk f⟩, modCore_core_same s s.gc f⟩

/-- A core without the parameter blocks of a VD that contain an address. -/
def Core.dropParams (vk : Nat) (va : Addr) (c : Core) : Core :=
  { c with params := c.params.filter fun p => !(p.vk == vk && p.addr.toNat / 64 == va.toNat / 64) }

theorem exec_pbinv {s : State} {a : Src} (hp : Present s (srcRegs a)) (sw : Bool) : exec (.pbinv sw a) s =
    .next ((s.modCore s.gc (Core.dropParams s.thr.vk ((s.src a).setWidth 52))).finish sw) :=
  congrArg Host.Outcome.next (withRegs_present hp _)

/-! ### The statement -/

theorem sregAt_zero (a : SReg) : sregAt a 0 = a := Fin.ext (Nat.mod_eq_of_lt a.isLt)

/-- Settles O25: a request traps at the first check that fails, and else is queued or not by the room; the other forms are by what the
handle names. -/
theorem copyRequests : Obligations.CopyRequests := by
  unfold Obligations.CopyRequests
  intro sw nb d a x req s i w c vk sound locks room seq
  have hexec : exec i s = .next (copyForm sw nb d a s) := by cases nb <;> rfl
  refine ⟨fun hp => ?request, fun hp => ⟨cpyc_unknown hp sw d, fun hreq hk => ?cancel, fun hslot => ?query,
    _, exec_pbinv hp sw, modCore_finish s _ sw⟩⟩
  case request =>
    have h : RequestWords s a (w 0) (w 1) (w 2) (w 3) := ⟨hp, congrArg s.thr.getS (sregAt_zero a).symm, rfl, rfl, rfl⟩
    refine ⟨fun hw htrap => ⟨_, hexec, ?_⟩, fun y hw hptr htrap => ⟨_, hexec, ?_⟩,
      fun y hw hptr hal htrap => ⟨_, hexec, ?_⟩, fun ⟨hw, hptr, hal⟩ hroom => ⟨_, hexec, ?_⟩,
      fun ⟨hw, hptr, hal⟩ hroom => ⟨_, hexec, ?_⟩⟩
    · rw [copyForm_badWord h sw nb d hw]; exact trap_enters htrap cFmtbad _
    · rw [copyForm_badPtr h sw nb d hw hptr]; exact trap_enters htrap cFmtbad _
    · rw [copyForm_misaligned h sw nb d hw hptr hal]; exact trap_enters htrap cAlign _
    · obtain ⟨hseq, honly, hvalue, hfull, hs, hv, hpr, hlocks, hnum, hreq⟩ := copyForm_queues h sw nb d hw hptr hal hroom
      exact ⟨hseq, honly, hvalue, hfull, hs, hv, hpr, hlocks, hnum, hreq⟩
    · rw [copyForm_full h sw nb d hw hptr hal hroom]
      cases nb with
      | true => exact writeS_finish s d _ sw
      | false => exact ⟨⟨⟨fun _ _ => ⟨rfl, rfl⟩, fun _ _ => ⟨rfl, rfl⟩, fun _ _ => ⟨rfl, rfl⟩, rfl⟩, rfl, rfl⟩, rfl⟩
  case cancel =>
    refine (cpyc_cancels hk sw d hp hreq).imp fun t ⟨hseq, hfull, hvalue, hended⟩ => ⟨hseq, hfull, hvalue.trans ?_, hended⟩
    cases req.state <;> rfl
  case query =>
    obtain ⟨hseq, hs, hworld, hbuf⟩ := deferForm_finish s [.s d 0] (.cpyq d (s.src x)) true sw
    exact ⟨_, exec_withSlot rfl hslot hp, hseq, hs, hworld, hbuf⟩

end Sys2Proof.Machine
end

section
/-! SUPPORT. Copies from their dispatch to their last element (R262, R265 to R268, R270). -/

namespace Sys2Proof.Machine

/-! ### Where a request begins (R265, R267) -/

theorem ptrVa_eq (w : Word) : ptrVa w = w.toNat % 2 ^ 52 := by simp only [ptrVa, field, fieldN, Nat.pow_zero, Nat.div_one]

theorem ptrAt_zero (p : Word) : ptrAt p 0 = ptrVa p := by
  have hzero : BitVec.ofInt 52 0 = 0#52 := rfl
  rw [ptrVa_eq, ptrAt, hzero, BitVec.add_zero, BitVec.toNat_setWidth]

/-- An operand's first run begins at its pointer. -/
theorem unitRuns_first (p : Word) {n : Nat} (hn : 0 < n) (planes : Nat) : ∃ len, ((0 : Int), len) ∈ unitRuns p 0 n planes := by
  rw [unitRuns]
  split
  case isTrue hb =>
    have hgroups : 0 < (((0 : Int) + n + 31) / 32 - 0 / 32).toNat := by omega
    exact ⟨4 * planes, List.mem_map.2 ⟨0, List.mem_range.2 hgroups, by rw [elemOff, if_pos hb]; simp⟩⟩
  case isFalse hb => exact ⟨n * fmtSize (ptrFmt p), List.mem_singleton.2 (by rw [elemOff, if_neg hb]; simp)⟩

theorem copyPieces_first (w0 w1 w2 : Word) {h : CopyShape} (hlen : 0 < h.len) (h1 : 0 < h.n1) (h2 : 0 < h.n2) :
    ∃ p ∈ copyPieces w0 w1 w2 h, p.src = 0 ∧ p.dst = 0 ∧ 0 < p.n := by
  rw [copyPieces]
  obtain ⟨m, hm⟩ : ∃ m, m = if (inBlocks w2 || (w0Opn w0 != 2 && inBlocks w1)) = true then 32 else 1 := ⟨_, rfl⟩
  have hpos : 0 < m := by rw [hm]; split <;> decide
  rw [← hm]
  have hruns : 0 < ceilDiv h.len m := Nat.div_pos (by omega) hpos
  refine ⟨_, List.mem_flatMap.2 ⟨0, List.mem_range.2 h2, List.mem_flatMap.2 ⟨0, List.mem_range.2 h1,
    List.mem_map.2 ⟨0, List.mem_range.2 hruns, rfl⟩⟩⟩, by simp, by simp, ?_⟩
  exact Nat.lt_min.2 ⟨hpos, by omega⟩

theorem mem_byBlock (b : Nat) {us : List CopyPiece} {p : CopyPiece} (hp : p ∈ us) : ∃ g ∈ byBlock b us, p ∈ g := by
  induction us with
  | nil => cases hp
  | cons u rest ih =>
    rw [byBlock]
    dsimp only
    split
    case h_1 g hg =>
      obtain rfl | hp := List.mem_cons.1 hp
      · exact ⟨_, List.mem_cons_self .., List.mem_cons_self ..⟩
      · obtain ⟨g', hg', hpg⟩ := ih hp
        by_cases hsame : g' = g
        · exact ⟨_, List.mem_cons_self .., List.mem_cons_of_mem _ (hsame ▸ hpg)⟩
        · exact ⟨g', List.mem_cons_of_mem _ ((List.mem_erase_of_ne hsame).2 hg'), hpg⟩
    case h_2 =>
      obtain rfl | hp := List.mem_cons.1 hp
      · exact ⟨_, List.mem_cons_self .., List.mem_cons_self ..⟩
      · obtain ⟨g', hg', hpg⟩ := ih hp
        exact ⟨g', List.mem_cons_of_mem _ hg', hpg⟩

/-- Every piece of a request is in one of its units. -/
theorem mem_copyUnits {w0 w1 w2 : Word} {h : CopyShape} {p : CopyPiece} (hp : p ∈ copyPieces w0 w1 w2 h) :
    ∃ u ∈ copyUnits w0 w1 w2 h, p ∈ u := by
  rw [copyUnits]
  split
  · exact mem_byBlock _ hp
  · exact ⟨[p], List.mem_map.2 ⟨p, hp, rfl⟩, List.mem_singleton.2 rfl⟩

/-- An operand fails that has a run in a window that it may not use. -/
theorem runLocs_fails (s : State) (gc vd : Nat) (r w : Bool) {ok : Nat → Bool} {runs : List (Nat × Nat)} {x : Nat × Nat}
    (hx : x ∈ runs) (hok : ok x.1 = false) : (runLocs s gc vd r w ok runs).2 = true := by
  rw [runLocs]
  induction runs with
  | nil => cases hx
  | cons y ys ih =>
    rw [List.foldr_cons]
    obtain rfl | hx := List.mem_cons.1 hx
    · simp [hok]
    · have hbad := ih hx
      generalize ys.foldr _ (some [], false) = acc at hbad ⊢
      obtain ⟨a, bad⟩ := acc
      simp only at hbad
      subst hbad
      dsimp only
      split <;> simp

/-- The pointers of a request begin in windows that its operation does not use (R267). -/
def WrongWindow (w0 w1 w2 : Word) : Prop :=
  w0Opn w0 ≠ 2 ∧ isPeer (ptrVa w1) ≠ decide (w0Opn w0 = 3) ∨ isPeer (ptrVa w2) ≠ decide (w0Opn w0 = 4)

theorem window_refused {va : Nat} {b : Prop} [Decidable b] (h : isPeer va ≠ decide b) :
    (if b then isPeer else fun x => !isPeer x) va = false := by
  by_cases hb : b
  · simpa [hb] using h
  · simpa [hb] using h

theorem copyElem_fails (s : State) (gc vd : Nat) {req : CopyReq} {h : CopyShape} {u : List CopyPiece} {p : CopyPiece} (hp : p ∈ u)
    (hsrc : p.src = 0) (hdst : p.dst = 0) (hn : 0 < p.n) (hwrong : WrongWindow req.w0 req.w1 req.w2) :
    (copyElem s gc vd req h u).2 = true := by
  have hrun (w : Word) (planes : Nat) : ∃ len, (ptrVa w, len) ∈ (unitRuns w 0 p.n planes).map fun r => (ptrAt w r.1, r.2) := by
    obtain ⟨len, hlen⟩ := unitRuns_first w hn planes
    exact ⟨len, List.mem_map.2 ⟨_, hlen, by rw [ptrAt_zero]⟩⟩
  simp only [copyElem, Bool.or_eq_true]
  obtain ⟨hopn, hwin⟩ | hwin := hwrong
  · obtain ⟨len, hlen⟩ := hrun req.w1 (srcPlanes req.w0 req.w1)
    refine .inl (.inl (.inl (runLocs_fails _ _ _ _ _ (x := (ptrVa req.w1, len)) ?_ (window_refused hwin))))
    rw [unitRanges, if_neg hopn]
    exact List.mem_flatMap.2 ⟨p, hp, by rw [hsrc]; exact hlen⟩
  · obtain ⟨len, hlen⟩ := hrun req.w2 (bpiP (ptrFmt req.w2))
    refine .inl (.inl (.inr (runLocs_fails _ _ _ _ _ (x := (ptrVa req.w2, len)) ?_ (window_refused hwin))))
    exact List.mem_flatMap.2 ⟨p, hp, by rw [hdst]; exact hlen⟩

/-! ### Dispatch (R265 to R268) -/

theorem worse_ok_xlate : worse 0 stXlate = 3 := by decide

/-- A request that begins runs, and one of a wrong window has nothing to do but fail with XLATE. -/
theorem startCopy_starts (s : State) (gc : Nat) {req : CopyReq} {h : CopyShape} (hlen : 0 < h.len) (h1 : 0 < h.n1) (h2 : 0 < h.n2)
    (hst : EachCopy s gc req.id fun r => r.status = 0) : let t := startCopy s gc req h
    t = { s with cores := t.cores } ∧ EachCopy t gc req.id fun r => r.state = .running ∧
      (WrongWindow req.w0 req.w1 req.w2 → r.todo = [] ∧ r.status = 3) := by
  have hspans : EachCopy (s.modCopy gc req.id fun r => { r with spans := shapeSpans req.w0 req.w1 req.w2 h }) gc req.id
      fun r => r.status = 0 := hst.modCopy fun _ hr => hr
  have hfails (hwrong : WrongWindow req.w0 req.w1 req.w2) :
      (((copyUnits req.w0 req.w1 req.w2 h).map (copyElem s gc (req.vk % 16) req h)).any fun e => e.2) = true := by
    obtain ⟨p, hp, hsrc, hdst, hn⟩ := copyPieces_first req.w0 req.w1 req.w2 hlen h1 h2
    obtain ⟨u, hu, hpu⟩ := mem_copyUnits hp
    exact List.any_eq_true.2 ⟨_, List.mem_map_of_mem hu, copyElem_fails s gc _ hpu hsrc hdst hn hwrong⟩
  rw [startCopy]
  dsimp only
  split
  case isTrue =>
    refine ⟨rfl, hspans.modCopy fun r hr => ⟨rfl, fun _ => ⟨rfl, ?_⟩⟩⟩
    rw [hr]; exact worse_ok_xlate
  case isFalse hno =>
    split
    · exact ⟨rfl, hspans.modCopy fun r _ => ⟨rfl, fun hwrong => absurd (hfails hwrong) hno⟩⟩
    · exact ⟨rfl, hspans.modCopy fun r _ => ⟨rfl, fun hwrong => absurd (hfails hwrong) hno⟩⟩

theorem copyDispatch_starts {s : State} {gc id : Nat} {req : CopyReq}
    (hfind : (s.core gc).copies.find? (fun r => r.id = id && r.state == .queued) = some req)
    (hfirst : ∀ r ∈ (s.core gc).copies.takeWhile (fun r => r.id != id), ¬ (r.vk = req.vk ∧ r.state = .queued))
    (hst : EachCopy s gc id fun r => r.status = 0) (hlen : 0 < w0Len req.w0) (hstop : s.teamStopped (s.thread req.tid) = false)
    (hpb : w0Pb req.w0 = false) (hmay : s.mayAsk (arbKey 1 gc) (req.vk % 16) = true)
    (hmode : ∀ k, (s.vd k).rmode.getLsbD 0 = false) : Completes (.copyDispatch gc id) s fun t =>
      t = { s with cores := t.cores, routers := t.routers } ∧ EachCopy t gc id fun r => r.state = .running ∧
        (WrongWindow req.w0 req.w1 req.w2 → r.todo = [] ∧ r.status = 3) := by
  have hid : req.id = id := by simpa using And.left (by simpa using List.find?_some hfind)
  have hearlier : ((s.core gc).copies.takeWhile fun r => r.id != id).any (fun r => r.vk == req.vk && r.state == .queued) = false :=
    List.any_eq_false.2 fun r hr => by simpa using hfirst r hr
  obtain ⟨u, hu, ht⟩ := withWalks_unheld hmode id (copyWalks gc req (inlineShape req.w0 req.w1 req.w3))
    fun s => startCopy s gc req (inlineShape req.w0 req.w1 req.w3)
  have hu' : EachCopy u gc req.id fun r => r.status = 0 := hid ▸ hst.congr (congrArg Core.copies (hu.core gc))
  obtain ⟨hworld, hstarts⟩ := startCopy_starts u gc (h := inlineShape req.w0 req.w1 req.w3) hlen
    (Nat.lt_of_lt_of_le Nat.one_pos (Nat.le_max_left ..)) Nat.one_pos hu'
  refine ⟨_, ?_, ?_, (hid ▸ hstarts).congr (congrArg Core.copies (ht.core gc))⟩
  · show execCopyDispatch gc id s = _
    simp only [execCopyDispatch, hfind, hearlier, hstop, hmay, hpb, Bool.or_self, Bool.not_true, Bool.false_eq_true, if_false,
      Bool.not_false, if_true]
  · rw [OnlyRouters] at hu ht
    rw [ht, hworld, hu]

end Sys2Proof.Machine
end

section
/-! SUPPORT. The elements of a running copy: their bytes in runs, the units that pay for them, their reading and writing; and the
completion of the copy (R239, R262, R268, R270, R271). -/

namespace Sys2Proof.Machine

/-! ### Bytes in runs (R187) -/

theorem byteRuns_foldl (n : Nat) (xs : List (Nat × Byte)) (m : List Host.Cell) :
    (byteRuns n xs).foldl (fun m r => memWriteN m r.1 r.2) m = xs.foldl (fun m x => memWrite m x.1 x.2) m := by
  induction xs generalizing m with
  | nil => rfl
  | cons x rest ih =>
    obtain ⟨l, b⟩ := x
    rw [byteRuns, List.foldl_cons, ← ih]
    split
    case h_1 l' bs rs hruns =>
      rw [hruns]
      split
      case isTrue hnext =>
        obtain ⟨rfl, -⟩ : l + 1 = l' ∧ _ := by simpa using hnext
        rfl
      case isFalse => rfl
    case h_2 hruns => rw [hruns]; rfl

/-- A run begins at one of the locations. -/
theorem byteRuns_start (n : Nat) (xs : List (Nat × Byte)) : ∀ r ∈ byteRuns n xs, r.1 ∈ xs.map Prod.fst := by
  induction xs with
  | nil => exact fun _ hr => absurd hr List.not_mem_nil
  | cons x rest ih =>
    obtain ⟨l, b⟩ := x
    rw [byteRuns, List.map_cons]
    split
    case h_1 l' bs rs hruns =>
      rw [hruns] at ih
      split
      · exact List.forall_mem_cons.2 ⟨List.mem_cons_self .., fun r hr => List.mem_cons_of_mem _ (ih r (List.mem_cons_of_mem _ hr))⟩
      · exact List.forall_mem_cons.2 ⟨List.mem_cons_self .., fun r hr => List.mem_cons_of_mem _ (ih r hr)⟩
    case h_2 => exact List.forall_mem_singleton.2 (List.mem_cons_self ..)

theorem bytesAt_succ (l n : Nat) : bytesAt l (n + 1) = l :: bytesAt (l + 1) n := by
  rw [bytesAt, List.range_succ_eq_map, List.map_cons, List.map_map, bytesAt]
  refine congrArg (l :: ·) (List.map_congr_left fun i _ => ?_)
  rw [Function.comp_apply]; omega

theorem bytesAt_length (l n : Nat) : (bytesAt l n).length = n := by rw [bytesAt, List.length_map, List.length_range]

/-- Bytes written one by one from a location on. -/
theorem foldl_bytesAt (l : Nat) (bs : List Byte) (m : List Host.Cell) :
    ((bytesAt l bs.length).zip bs).foldl (fun m x => memWrite m x.1 x.2) m = memWriteN m l bs := by
  induction bs generalizing l m with
  | nil => rfl
  | cons b bs ih => rw [List.length_cons, bytesAt_succ, List.zip_cons_cons, List.foldl_cons, ih, memWriteN]

/-! ### An engine's write where no unit is bad and nothing waits (R187, R443) -/

/-- One run of an engine's write. -/
def engWriteRun (vd : Nat) (x : State × Bool) (r : Nat × List Byte) : State × Bool :=
  if x.1.canWrite r.1 r.2.length then ((x.1.writeLoc r.1 r.2).1, x.2)
  else
    let s := x.1.countUe vd (bytesAt r.1 r.2.length)
    ((writeRuns (byteRuns 8 (r.2.zipIdx.map fun (x, i) => (r.1 + i, x))) s).1, false)

theorem engWrite_eq (s : State) (vd : Nat) (locs : List Nat) (bs : List Byte) :
    s.engWrite vd locs bs = (byteRuns 64 (locs.zip bs)).foldl (engWriteRun vd) (s, true) := rfl

/-- A location that a write takes as it stands. -/
abbrev Plain (l : Nat) : Prop := isLost l = false ∧ isTrig l = false

theorem rawWrite_mem {s : State} {loc : Nat} (h : isTrig loc = false) (bs : List Byte) :
    (s.rawWrite loc bs).mem = memWriteN s.mem loc bs := by
  rw [State.rawWrite, h]; rfl

theorem spill_sound {s : State} (h : s.ue = []) (loc : Nat) : (s.spill loc).ue = [] := by
  have hclean (t : State) (ht : t.ue = []) (vk : Nat) (x : Tile) : (t.cleanTile vk x).ue = [] := by
    rw [State.cleanTile]
    split
    · exact ht
    · show dropWords _ t.ue = []
      rw [ht]; rfl
  rw [State.spill]
  split
  · exact h
  split
  · exact h
  split
  · exact h
  dsimp only
  split
  · exact h
  · refine hclean _ ?_ _ _
    exact h

theorem rawWrite_sound {s : State} (h : s.ue = []) (loc : Nat) (bs : List Byte) : (s.rawWrite loc bs).ue = [] := by
  rw [State.rawWrite]
  split
  · exact h
  · show s.ue.filter _ = []
    rw [h]; rfl

/-- Runs that begin at plain locations are all written. -/
theorem foldl_engWriteRun {s : State} (hu : Unwaited s) (hue : s.ue = []) (vd : Nat) (ok : Bool) {rs : List (Nat × List Byte)}
    (hrs : ∀ r ∈ rs, Plain r.1) : let t := (rs.foldl (engWriteRun vd) (s, ok)).1
    OnlyMemory s t ∧ t.mem = rs.foldl (fun m r => memWriteN m r.1 r.2) s.mem := by
  induction rs generalizing s with
  | nil => exact ⟨rfl, rfl⟩
  | cons r rs ih =>
    obtain ⟨⟨hlost, htrig⟩, hrest⟩ := List.forall_mem_cons.1 hrs
    have hcan : s.canWrite r.1 r.2.length = true := by rw [State.canWrite, hlost, hue]; rfl
    have hrun : engWriteRun vd (s, ok) r = ((s.rawWrite r.1 r.2).spill r.1, ok) := by
      rw [engWriteRun, if_pos hcan, writeLoc_unwaited hu hcan]
    have honly : OnlyMemory s ((s.rawWrite r.1 r.2).spill r.1) :=
      (rawWrite_onlyMemory s r.1 r.2).trans (spill_keeps (s.rawWrite r.1 r.2) r.1).1
    obtain ⟨hworld, hmem⟩ := ih (hu.congr honly.cores) (spill_sound (rawWrite_sound hue r.1 r.2) r.1) hrest
    rw [List.foldl_cons, List.foldl_cons, hrun]
    refine ⟨honly.trans hworld, hmem.trans ?_⟩
    rw [(spill_keeps ..).2, rawWrite_mem htrig]

theorem engWrite_bytes {s : State} (hu : Unwaited s) (hue : s.ue = []) (vd l : Nat) {bs : List Byte}
    (hl : ∀ x ∈ bytesAt l bs.length, Plain x) : let t := (s.engWrite vd (bytesAt l bs.length) bs).1
    OnlyMemory s t ∧ t.mem = memWriteN s.mem l bs := by
  obtain ⟨honly, hmem⟩ := foldl_engWriteRun hu hue vd true (rs := byteRuns 64 ((bytesAt l bs.length).zip bs)) fun r hr => by
    have hstart := byteRuns_start 64 _ r hr
    rw [List.map_fst_zip (by rw [bytesAt_length])] at hstart
    exact hl _ hstart
  rw [engWrite_eq]
  exact ⟨honly, hmem.trans (by rw [byteRuns_foldl, foldl_bytesAt])⟩

/-- Where no byte is undefined the bytes are written as they are. -/
theorem writeEach_defined (s : State) (vd : Nat) {locs : List Nat} {bs : List Byte} (hlen : locs.length = bs.length) :
    s.writeEach vd locs (bs.map some) = s.engWrite vd locs bs := by
  have hzip : locs.zip (bs.map some) = (locs.zip bs).map fun x => (x.1, some x.2) := List.zip_map_right ..
  have hnone : ((locs.zip (bs.map some)).filterMap fun (l, b) => if b.isNone then some l else none) = [] := by
    rw [hzip, List.filterMap_map]
    exact List.filterMap_eq_nil_iff.2 fun _ _ => rfl
  have hsome : ((locs.zip (bs.map some)).filterMap fun (l, b) => if b.isSome then some l else none) = locs := by
    rw [hzip, List.filterMap_map]
    exact (congrFun List.filterMap_eq_map _).trans (List.map_fst_zip hlen.le)
  have hbytes : (bs.map some).filterMap id = bs := by
    rw [List.filterMap_map]; exact List.filterMap_some
  rw [State.writeEach, hnone, scramble_nil, hsome, hbytes]

/-! ### Units of a copy engine (R268, R392) -/

theorem OnlyArbiters.trans {s t u : State} (h : OnlyArbiters s t) (h' : OnlyArbiters t u) : OnlyArbiters s u := by
  rw [OnlyArbiters] at h h' ⊢; rw [h', h]

theorem askUnit_onlyArbiters (s : State) (arb : Nat) (u : Offer) : OnlyArbiters s (s.askUnit arb u).1 := by
  rw [State.askUnit]
  refine (accrueAt_onlyArbiters s arb).trans ?_
  generalize s.accrueAt arb = v
  have hjoin : OnlyArbiters v (if (v.arb arb).pending.contains u then v
      else v.modArb arb fun a => { a with pending := a.pending ++ [u] }) := by
    split <;> rfl
  refine hjoin.trans ?_
  generalize (if (v.arb arb).pending.contains u then v else v.modArb arb fun a => { a with pending := a.pending ++ [u] }) = w
  split
  · rfl
  split
  · split <;> rfl
  · rfl

theorem payCopy_onlyArbiters (s : State) (gc : Nat) (req : CopyReq) (bytes : Nat) :
    OnlyArbiters s (s.payCopy gc req bytes).1 := by
  rw [State.payCopy]
  split
  · rfl
  · exact askUnit_onlyArbiters ..

/-! ### One element (R239, R270) -/

/-- Nothing of the issuing thread in its port holds an engine's access. -/
theorem engClear_alone {s : State} {tid : Nat} (h : ∀ a ∈ (s.core (coreOf tid)).port, a.tid ≠ tid) (id : Nat) (locs : List Nat)
    (w : Bool) : engClear s tid id locs w = true :=
  List.all_eq_true.2 fun a ha => by simp [h a ha]

/-- A copied element's bytes are its source's. -/
theorem elemOut_copied {req : CopyReq} (h : w0Opn req.w0 ≠ 1) {e : CopyElem} {bs : List (Option Byte)}
    (hlen : e.dst.length = bs.length) : elemOut req e bs = (bs, []) := by
  rw [elemOut, if_neg h, hlen]
  cases bs with
  | nil => rfl
  | cons b bs => rw [List.length_cons, Nat.max_eq_left (by omega), Nat.div_self (by omega)]; simp

theorem gatherEach_sound {s : State} (hue : s.ue = []) {locs : List Nat} (h : ∀ x ∈ locs, isLost x = false) :
    s.gatherEach locs = locs.map fun x => some (memRead s.mem x) :=
  List.map_congr_left fun x hx => if_neg (by simp [State.bad, h x hx, hue])

section
variable {s : State} {gc id : Nat} {req : CopyReq} {e : CopyElem}
  (hfind : (s.core gc).copies.find? (fun r => r.id = id && r.state == .running) = some req) (htodo : req.todo = [e])
  (honly : EachCopy s gc id fun r => r = req) (hport : ∀ a ∈ (s.core (coreOf req.tid)).port, a.tid ≠ req.tid)
  (hlost : peerLost s gc (req.vk % 16) (e.src ++ e.dst) = false)
include hfind htodo honly hport hlost

theorem copyElem_reads (hgot : e.got = none) (hscales : e.srcScales = []) (hue : s.ue = []) (hce : s.ce = [])
    (hsrc : ∀ x ∈ e.src, isLost x = false) : Completes (.accessAtHome (.copy gc id 0)) s fun t => t.mem = s.mem ∧
      EachCopy t gc id fun r => r.todo = [{ e with got := some (e.src.map fun x => some (memRead s.mem x)) }] := by
  refine ⟨copyStep s gc id 0, rfl, ?_⟩
  simp only [copyStep, hfind, htodo, List.getElem?_cons_zero, hlost, Bool.false_eq_true, if_false, hgot, hscales, List.append_nil,
    engClear_alone hport, Bool.not_true, countUe_sound hue hce, gatherEach_sound hue hsrc]
  exact ⟨rfl, honly.modCopy fun r hr => by rw [hr, htodo]; rfl⟩

theorem copyElem_writes {bs : List Byte} {l : Nat} (hgot : e.got = some (bs.map some)) (hopn : w0Opn req.w0 ≠ 1)
    (hord : orderBlocks (s.core gc) req = false) (hdst : e.dst = bytesAt l bs.length) (hscales : e.dstScales = [])
    (hue : s.ue = []) (hplain : ∀ x ∈ e.dst, Plain x) (hu : Unwaited s) (hpay : (s.payCopy gc req e.dst.length).2.isSome = true) :
    Completes (.accessAtHome (.copy gc id 0)) s fun t => StoresBytes s t l bs ∧ EachCopy t gc id fun r => r.todo = [] := by
  have hread : readFirst [e] e = false := by simp [readFirst, hgot]
  obtain ⟨paid, hsome⟩ := Option.isSome_iff_exists.1 hpay
  have harb := payCopy_onlyArbiters s gc req e.dst.length
  have hpaid : s.payCopy gc req e.dst.length = ((s.payCopy gc req e.dst.length).1, some paid) := Prod.ext rfl hsome
  generalize (s.payCopy gc req e.dst.length).1 = v at hpaid harb
  rw [OnlyArbiters] at harb
  have hcores : v.cores = s.cores := by rw [harb]
  have hlen : e.dst.length = (bs.map some).length := by rw [hdst, bytesAt_length, List.length_map]
  obtain ⟨hworld, hmem⟩ := engWrite_bytes (s := v) (hu.congr hcores) (by rw [harb]; exact hue) (req.vk % 16) l (hdst ▸ hplain)
  refine ⟨copyStep s gc id 0, rfl, ?_⟩
  simp only [copyStep, hfind, htodo, List.getElem?_cons_zero, hlost, Bool.false_eq_true, if_false, hgot, hscales, List.append_nil,
    engClear_alone hport, Bool.not_true, hord, hread, Bool.or_self, hpaid, elemOut_copied hopn hlen,
    writeEach_defined v _ (hlen.trans (List.length_map ..))]
  rw [← hdst] at hworld hmem
  refine ⟨fun x => ?_, (honly.congr ?_).modCopy fun r hr => by rw [hr, htodo]; rfl⟩
  · have hbytes := memRead_writeN v.mem l bs x
    rw [← hmem, show v.mem = s.mem by rw [harb]] at hbytes
    exact hbytes
  · rw [State.core, hworld.cores, hcores]; rfl

end

/-! ### Completion (R262, R270, R271) -/

theorem copyComplete_settles {s : State} {gc id : Nat} {req : CopyReq}
    (hfind : (s.core gc).copies.find? (fun r => r.id = id) = some req) (hst : req.state = .running) (htodo : req.todo = [])
    (hord : orderBlocks (s.core gc) req = false) :
    Completes (.copyComplete gc id) s fun t => CopySettled s t gc req req.status := by
  refine ⟨_, ?_, settleCopy_settled s gc req req.status⟩
  show execCopyComplete gc id s = _
  simp only [execCopyComplete, hfind, hst, htodo, List.isEmpty_nil, hord, Bool.not_false, Bool.and_self, if_true]

/-! ### The statement -/

theorem w0Opn_eq (w : Word) : w0Opn w = w.toNat / 2 ^ 60 := by simp only [w0Opn, field, fieldN]; omega

/-- Settles O26: a request starts at dispatch, or fails there for its windows; its element is read and written in single steps; and at
its completion it is settled. -/
theorem copiesRunAndComplete : Obligations.CopiesRunAndComplete := by
  unfold Obligations.CopiesRunAndComplete
  intro gc id req e bs l s c
  refine ⟨fun hfind hfirst hsame hst hlen hstop hpb hmay hmode => ?dispatch,
    fun hfind htodo honly hport hlost => ⟨fun hgot hscales hue hce hsrc =>
      copyElem_reads hfind htodo honly hport hlost hgot hscales hue hce hsrc,
      fun hgot hopn hord hdst hscales hue hplain hwaiters hpay => copyElem_writes hfind htodo honly hport hlost hgot
        (by rw [hopn]; decide) hord hdst hscales hue hplain ((unwaited_iff s).1 hwaiters) hpay⟩,
    fun hfind hst htodo hord hundef hw => ?complete⟩
  case dispatch =>
    have hlen' : 0 < w0Len req.w0 := by
      rw [Nat.pos_iff_ne_zero]
      simpa only [w0Len, field, fieldN, Nat.pow_zero, Nat.div_one] using hlen
    refine (copyDispatch_starts hfind hfirst (fun r hr hid => (hsame r hr hid).symm ▸ hst) hlen' hstop hpb hmay hmode).imp
      fun t ⟨hworld, hstarts⟩ => ⟨hworld, fun r hr hid => ?_⟩
    rw [WrongWindow, w0Opn_eq] at hstarts
    exact hstarts r hr hid
  case complete =>
    have hid : req.id = id := by simpa using List.find?_some hfind
    subst hid
    refine (copyComplete_settles hfind hst htodo hord).imp fun t ⟨_, hmem, hlocks, htag, hended⟩ => ?_
    obtain ⟨hbit, hstat⟩ := htag hw
    exact ⟨hmem hundef, hlocks, hbit, hstat, fun r hr hid => (hended r hr hid).2⟩

end Sys2Proof.Machine
end

section
/-! SUPPORT. Collective plans: their table, the three instructions, triggers, and the parts of a firing (R278 to R283). -/

namespace Sys2Proof.Machine

/-! ### The plans of a VD -/

theorem vd_modVd (s : State) (vk : Nat) (f : Vd → Vd) : (s.modVd vk f).vd vk = f (s.vd vk) :=
  (tblGet_put ..).trans (if_pos rfl)

/-- A plan that stands in the table is changed there, and nothing else of its VD. -/
theorem modPlan_vd {s : State} {vk idx : Nat} {p : Plan} (h : tblFind (s.vd vk).plans idx = some p) (f : Plan → Plan) :
    (s.modPlan vk idx f).vd vk = { s.vd vk with plans := tblPut (s.vd vk).plans idx (f p) } := by
  rw [State.modPlan, vd_modVd, h]

theorem modPlan_find {s : State} {vk idx : Nat} {p : Plan} (h : tblFind (s.vd vk).plans idx = some p) (f : Plan → Plan) :
    tblFind ((s.modPlan vk idx f).vd vk).plans idx = some (f p) := by
  rw [modPlan_vd h]
  exact (tblFind_put ..).trans (if_pos rfl)

section
variable (s : State) (vk idx : Nat) (f : Plan → Plan)

@[simp] theorem modPlan_mem : (s.modPlan vk idx f).mem = s.mem := rfl
@[simp] theorem modPlan_cores : (s.modPlan vk idx f).cores = s.cores := rfl

end

/-- A handle names an entry that its table holds (R279). -/
theorem planByHandle_find {v : Vd} {h : Word} {idx : Nat} {p : Plan} (hp : planByHandle v h = some (idx, p)) :
    tblFind v.plans idx = some p := by
  rw [planByHandle] at hp
  split at hp
  · obtain ⟨q, hq, heq⟩ := Option.map_eq_some_iff.1 hp
    cases heq
    exact hq
  · cases hp

/-! ### PLANSET and PLANFIRE (R278, R280) -/

/-- Every piece of an access has the access's first byte as its base. -/
theorem itemsOf_base (s : State) (gc vd va len : Nat) (r w : Bool) (forms : Forms) :
    ∀ x ∈ itemsOf s gc vd va len r w forms, x.base = va := by
  intro x hx
  obtain ⟨_, _, rfl⟩ := List.mem_map.1 hx
  rfl

section
variable {s : State} {a b : Src} (sw : Bool)

/-- The read of a descriptor enters the port, and its result stands at the end of the buffer. -/
theorem planset_reads (d : SReg) {locs : List Nat} (hp : Present s (srcRegs a)) (hslot : HasSlot s) :
    let va : Addr := (s.src a).setWidth 52
    let items := itemsOf s s.gc s.thr.vd va.toNat 64 true false .any
    va.toNat % 64 = 0 → Cleared s items locs → Completes (.planset sw d a) s fun t =>
      InSequence sw s t ∧ SameS s.thr t.thr [] ∧
      t.thr.buf = s.thr.buf ++ [⟨s.seq, s.thr.pc, [.s d 0], .planset d va [] s.thr.tcls, false, false, none, false⟩] ∧
      EntersPort s t [s.newAccess .load .t false false none 0 (planParts items locs)] := by
  intro va items hal hc
  have hexec := exec_withSlot (i := .planset sw d a) rfl hslot hp
  simp only [baseOff_zero] at hexec
  refine ⟨_, exec_cleared hexec (fun x hx => by rw [itemsOf_base s _ _ _ _ _ _ _ x hx]; exact hal) hc, ?_⟩
  exact ⟨finish_of_headState (s := s) (u := (s.defer ..).toPort ..) rfl sw, fun _ _ => ⟨rfl, rfl⟩, rfl,
    toPort_entersPort (s := s) (u := s.defer [.s d 0] (.planset d va [] s.thr.tcls) false) rfl _ rfl⟩

/-- The trigger enters the port as a posted release. -/
theorem planfire_posts (hp : Present s (srcRegs a ++ srcRegs b)) (hroom : queueFull (s.core s.gc).port = false) :
    Completes (.planfire sw a b) s fun t => Passes sw s t ∧ EntersPort s t [s.newAccess .store .s false true none 0
      [⟨0, (s.vd s.thr.vk).trig, trigLoc s.thr.vk 0, 8, toBytes 8 (s.src a).toNat ++ toBytes 8 (s.src b).toNat⟩]] := by
  refine ⟨_, exec_withRegs rfl hp, ?_⟩
  simp only [hroom, Bool.false_eq_true, if_false]
  exact bump_toPort_finish s _ sw

end

/-! ### PLANDROP (R283) -/

section
variable {s : State} {a : Src} (hp : Present s (srcRegs a)) (sw : Bool)
include hp

theorem plandrop_unknown (hplan : planByHandle (s.vd s.thr.vk) (s.src a) = none) :
    Completes (.plandrop sw a) s fun t => Passes sw s t ∧ SameWorld s t := by
  refine ⟨_, exec_withRegs rfl hp, ?_⟩
  simp only [hplan]
  exact ⟨finish_passes rfl sw, rfl⟩

variable {idx : Nat} {p : Plan} (hplan : planByHandle (s.vd s.thr.vk) (s.src a) = some (idx, p))
include hplan

theorem plandrop_idle (hrun : p.running = none) (hpend : p.pendingFire = none) :
    Completes (.plandrop sw a) s fun t => Passes sw s t ∧ tblFind (t.vd s.thr.vk).plans idx = none ∧
      tblGet (t.vd s.thr.vk).planGen idx 0 = tblGet (s.vd s.thr.vk).planGen idx 0 + 1 ∧ t.mem = s.mem := by
  refine ⟨_, exec_withRegs rfl hp, ?_⟩
  simp only [hplan, hrun, hpend, Option.isNone_none, Bool.and_self]
  have hvd := modPlan_vd (planByHandle_find hplan) fun p => { p with dropped := true }
  refine ⟨finish_passes (s := s) (u := dropPlan s.thr.vk idx (s.modPlan s.thr.vk idx fun p => { p with dropped := true })) rfl sw,
    ?_, ?_, rfl⟩
  · show tblFind ((dropPlan s.thr.vk idx _).vd s.thr.vk).plans idx = none
    rw [dropPlan, vd_modVd]
    exact (tblFind_del ..).trans (if_pos rfl)
  · show tblGet ((dropPlan s.thr.vk idx _).vd s.thr.vk).planGen idx 0 = _
    rw [dropPlan, vd_modVd, hvd]
    exact (tblGet_put ..).trans (if_pos rfl)

theorem plandrop_holds (hrun : p.running ≠ none) :
    Completes (.plandrop sw a) s fun t => Stays s t ∧
      tblFind (t.vd s.thr.vk).plans idx = some { p with dropped := true } ∧ t.mem = s.mem := by
  refine ⟨_, exec_withRegs rfl hp, ?_⟩
  simp only [hplan, Option.isNone_eq_false_iff.2 (Option.isSome_iff_ne_none.2 hrun), Bool.false_and]
  exact ⟨⟨⟨fun _ _ => ⟨rfl, rfl⟩, fun _ _ => ⟨rfl, rfl⟩, fun _ _ => ⟨rfl, rfl⟩, rfl⟩, rfl, rfl⟩,
    modPlan_find (planByHandle_find hplan) _, rfl⟩

end

/-! ### Triggers (R280, R282) -/

/-- Only threads and cores have changed. -/
def OnlyThreadsAndCores (s t : State) : Prop := t = { s with thr := t.thr, threads := t.threads, cores := t.cores }

theorem partDone_onlyThreadsAndCores (s : State) (gc : Nat) (a : Access) (lane : Nat) :
    OnlyThreadsAndCores s (s.partDone gc a lane) := by
  rw [State.partDone]
  split
  · rfl
  · rw [OnlyThreadsAndCores, modThread_world]; rfl

theorem triggerStored_onlyThreadsAndCores (s : State) (g : Trigger) : OnlyThreadsAndCores s (s.triggerStored g) := by
  rw [State.triggerStored]
  split
  · rfl
  split
  · exact partDone_onlyThreadsAndCores ..
  · rfl

/-- The triggers of a VD that are still to be applied are these. -/
def State.withTriggers (s : State) (vk : Nat) (rest : List Trigger) : State := s.modVd vk fun v => { v with triggers := rest }

/-- The firing that a trigger asks of a plan. -/
def State.newFiring (s : State) (vk : Nat) (p : Plan) (g : Trigger) : Firing :=
  ⟨p.next, g.fireTime, g.fireTime != 0 && decide (g.fireTime.toNat < s.time (vk / 16)), [],
    g.src.bind fun x => ((s.core x.1).port.find? fun a => a.id == x.2.1).map fun a => (a.tid, a.id)⟩

/-- A plan that has accepted a trigger: its firing starts, or pends behind the one that runs. -/
def Plan.accept (p : Plan) (f : Firing) : Plan :=
  if p.running.isNone then { p with next := p.next + 1, running := some f }
  else { p with next := p.next + 1, pendingFire := some f }

section
variable {s t : State} (h : OnlyThreadsAndCores s t)
include h

theorem OnlyThreadsAndCores.mem : t.mem = s.mem := by rw [OnlyThreadsAndCores] at h; rw [h]
theorem OnlyThreadsAndCores.vd (vk : Nat) : t.vd vk = s.vd vk := by
  rw [OnlyThreadsAndCores] at h; rw [h]; rfl
theorem OnlyThreadsAndCores.time (pkg : Nat) : t.time pkg = s.time pkg := by
  rw [OnlyThreadsAndCores] at h; rw [h]; rfl
theorem OnlyThreadsAndCores.findTeam (vd num : Nat) : t.findTeam vd num = s.findTeam vd num := by
  rw [OnlyThreadsAndCores] at h; rw [h]; rfl

end

section
variable {s : State} {vk : Nat} {g : Trigger} {rest : List Trigger} (htrig : (s.vd vk).triggers = g :: rest)
include htrig

theorem planTrigger_unknown (hplan : planByHandle (s.vd vk) (g.word &&& 0xFFFFFFFF) = none) :
    Completes (.planTrigger vk) s fun t => (t.vd vk).triggers = rest ∧ (t.vd vk).plans = (s.vd vk).plans ∧ t.mem = s.mem := by
  have hstored := triggerStored_onlyThreadsAndCores (s.withTriggers vk rest) g
  have hvd := (hstored.vd vk).trans (vd_modVd ..)
  refine ⟨(s.withTriggers vk rest).triggerStored g, ?_, by rw [hvd], by rw [hvd], hstored.mem⟩
  show execPlanTrigger vk s = _
  simp only [execPlanTrigger, htrig, hplan, State.withTriggers]

theorem planTrigger_accepts {idx : Nat} {p : Plan} {team : Team}
    (hplan : planByHandle (s.vd vk) (g.word &&& 0xFFFFFFFF) = some (idx, p))
    (hteam : s.findTeam (vk % 16) p.team = some team) (haway : team.away = false) (hdrop : p.dropped = false)
    (hnext : p.next.toNat = g.word.toNat / 2 ^ 32) (hpend : p.pendingFire = none) :
    Completes (.planTrigger vk) s fun t => (t.vd vk).triggers = rest ∧ t.mem = s.mem ∧
      tblFind (t.vd vk).plans idx = some (p.accept (s.newFiring vk p g)) := by
  have hstored := triggerStored_onlyThreadsAndCores (s.withTriggers vk rest) g
  have hseq : p.next = BitVec.ofNat 32 (field g.word 63 32) := by
    apply BitVec.eq_of_toNat_eq
    have hword := g.word.isLt
    simp only [hnext, field, fieldN, BitVec.toNat_ofNat]
    omega
  have hexec : exec (.planTrigger vk) s =
      .next (((s.withTriggers vk rest).triggerStored g).modPlan vk idx fun q => q.accept (s.newFiring vk p g)) := by
    show execPlanTrigger vk s = _
    have hteam' := (hstored.findTeam (vk % 16) p.team).trans hteam
    have htime := hstored.time (vk / 16)
    rw [State.withTriggers] at hteam' htime
    simp only [execPlanTrigger, htrig, hplan, hteam', htime, haway, hdrop, hpend, ← hseq, bne_self_eq_false, Option.isSome_none,
      Bool.or_self, Bool.false_eq_true, if_false]
    rfl
  refine ⟨_, hexec, ?_⟩
  have hvd := (hstored.vd vk).trans (vd_modVd ..)
  have hmem := hstored.mem
  generalize (s.withTriggers vk rest).triggerStored g = u at hvd hmem ⊢
  have hfind : tblFind (u.vd vk).plans idx = some p := by rw [hvd]; exact planByHandle_find hplan
  refine ⟨?_, hmem, modPlan_find hfind _⟩
  rw [modPlan_vd hfind, hvd]

end

/-! ### A member's start (R281, R282) -/

/-- With nothing of the firing thread in its port, a firing's access is not held (R239, R280). -/
theorem fireClear_alone {s : State} {f : Firing} (h : ∀ y, f.by_ = some y → ∀ a ∈ (s.core (coreOf y.1)).port, a.tid ≠ y.1)
    (locs : List Nat) (write : Bool) : fireClear s f locs write = true := by
  rw [fireClear]
  split
  · rfl
  · next tid id hby => exact engClear_alone (h _ hby) ..

/-- With no error anywhere a member's read counts none. -/
theorem planRead_sound {s : State} (hue : s.ue = []) (hce : s.ce = []) (gc vd va len : Nat) :
    ∃ x, planRead s gc vd va len = (s, x) := by
  rw [planRead]
  split
  · exact ⟨_, rfl⟩
  split
  · exact ⟨_, congrArg (·, _) (countUe_sound hue hce ..)⟩
  · exact ⟨_, congrArg (·, _) (countUe_sound hue hce ..)⟩

section
variable {s t : State} (h : OnlyRouters s t)
include h

theorem OnlyRouters.vd (vk : Nat) : t.vd vk = s.vd vk := by rw [OnlyRouters] at h; rw [h]; rfl
theorem OnlyRouters.ue : t.ue = s.ue := by rw [OnlyRouters] at h; rw [h]
theorem OnlyRouters.ce : t.ce = s.ce := by rw [OnlyRouters] at h; rw [h]

end

/-- What holds of every state that differs in routers alone from what the operation leaves, once walks have filled the caches,
holds of the operation with its walks. -/
theorem withWalks_ends {s : State} (hmode : ∀ k, (s.vd k).rmode.getLsbD 0 = false) {op : Nat}
    {rs : List (Nat × Nat × Bool × Bool × Nat × Nat)} {k : State → State} {P : State → Prop}
    (h : ∀ u t, OnlyRouters s u → OnlyRouters (k u) t → P t) : P (s.withWalks op rs k) := by
  obtain ⟨u, hu, ht⟩ := withWalks_unheld hmode op rs k
  exact h u _ hu ht

/-- The part of a member that has started. -/
def startedPart (k now st : Nat) (src start : Option (List Byte)) : PlanPart := ⟨k, now, st, src, start, 0, 0, 0⟩

/-- The firing that runs has one more part. -/
def Plan.withPart (f : Firing) (y : PlanPart) (p : Plan) : Plan := { p with running := some { f with parts := f.parts ++ [y] } }

/-- A member's part has begun at this time: the firing that runs has one part more, and memory is as before. -/
def MemberStarted (s : State) (vk idx k now : Nat) (p : Plan) (f : Firing) (t : State) : Prop :=
  t.mem = s.mem ∧ ∃ st src start, tblFind (t.vd vk).plans idx = some (p.withPart f (startedPart k now st src start))

section
variable {s : State} {vk idx k m : Nat} {p : Plan} {f : Firing} (hfind : tblFind (s.vd vk).plans idx = some p)
  (hrun : p.running = some f) (hmember : p.members[k]? = some m) (hpkg : pkgOfThread m = vk / 16)
  (hport : ∀ y, f.by_ = some y → ∀ a ∈ (s.core (coreOf y.1)).port, a.tid ≠ y.1)
include hpkg

theorem memberReached_home : memberReached s vk m = true := by
  rw [memberReached, hpkg, beq_self_eq_true, Bool.true_or]

include hfind hrun hmember hport

theorem planFireStart_starts (hmode : ∀ k, (s.vd k).rmode.getLsbD 0 = false) (hue : s.ue = []) (hce : s.ce = [])
    (hnew : f.parts.all (fun y => y.pos != k) = true) (htime : f.late = true ∨ f.fireTime.toNat ≤ s.time (pkgOfThread m)) :
    Completes (.planFireStart vk idx k) s (MemberStarted s vk idx k (s.time (pkgOfThread m)) p f) := by
  have hany : f.parts.any (fun y => y.pos == k) = false :=
    List.any_eq_false.2 fun y hy => by simpa using List.all_eq_true.1 hnew y hy
  have hdue : (!f.late && decide (s.time (pkgOfThread m) < f.fireTime.toNat)) = false := by
    rcases htime with hlate | hdue
    · rw [hlate]; rfl
    · rw [decide_eq_false (by omega), Bool.and_false]
  refine ⟨_, rfl, ?_⟩
  simp only [hfind, hrun, hmember, hany, hdue, memberReached_home hpkg, Bool.or_self, Bool.not_true,
    Bool.false_eq_true, if_false]
  refine withWalks_ends (P := MemberStarted s vk idx k (s.time (pkgOfThread m)) p f) hmode fun u t hu ht => ?_
  have hue' : u.ue = [] := hu.ue.trans hue
  have hce' : u.ce = [] := hu.ce.trans hce
  have hport' : ∀ y, f.by_ = some y → ∀ a ∈ (u.core (coreOf y.1)).port, a.tid ≠ y.1 := by simpa only [hu.core] using hport
  have hread := planRead_sound hue' hce' (coreOf m) (vk % 16)
  obtain ⟨⟨src, st1⟩, hsrc⟩ := hread (planSrc p.desc) (planSrcLen p.desc p.members.length)
  obtain ⟨⟨start, st2⟩, hstart⟩ := hread (planDst p.desc) (planDstLen p.desc p.members.length)
  simp only [fireClear_alone hport', hsrc, hstart, Bool.not_true, Bool.false_eq_true, if_false] at ht
  have hfind' : tblFind (u.vd vk).plans idx = some p := by rw [hu.vd]; exact hfind
  split at ht
  all_goals
    refine ⟨ht.mem.trans hu.mem, ?_⟩
    rw [ht.vd]
    exact ⟨_, _, _, modPlan_find hfind' _⟩

end

/-! ### A member's completion (R262, R282) -/

/-- A member that waits for no landing of its completion word has finished its part: virtual devices alone have changed. -/
theorem planLanding_unlanded {d : List Byte} (hland : planLand d = false) (vk idx k m : Nat) (seq : BitVec 32) (status ended : Nat)
    (s : State) : planLanding vk idx k m d seq status ended s = planFinish vk idx k s := by
  rw [planLanding, hland]
  rfl

/-- A member with nothing to write leaves memory alone. -/
theorem planWrite_nothing (s : State) (vk m : Nat) (d : List Byte) (len status : Nat) :
    planWrite s vk m d len false none status = (s, status) := rfl

section
variable {s : State} {vk idx k m : Nat} {p : Plan} {f : Firing} {x : PlanPart} (hfind : tblFind (s.vd vk).plans idx = some p)
  (hrun : p.running = some f) (hmember : p.members[k]? = some m) (hpkg : pkgOfThread m = vk / 16)
  (hport : ∀ y, f.by_ = some y → ∀ a ∈ (s.core (coreOf y.1)).port, a.tid ≠ y.1)
include hfind hrun hmember hpkg hport

theorem planFiringComplete_tags (hpart : f.parts.find? (fun y => y.pos = k) = some x) (hall : f.parts.length = p.members.length)
    (hphase : x.phase = 0) (hlost : x.status ≠ stRoutelost) (hpaid : planUnits p.desc p.members.length ≤ x.paid)
    (hskew : (planStrict p.desc && planSkew p.desc f) = false) (hout : planOutput p.desc f p.members.length k = none)
    (hland : planLand p.desc = false) : Completes (.planFiringComplete vk idx k) s fun t =>
      t.mem = s.mem ∧ t.cores = (s.setTag (coreOf m) vk (planTag p.desc) (planStatus p.desc f x false)).cores := by
  have hnow : x.lostNow s vk m = x := by
    rw [PlanPart.lostNow, memberReached_home hpkg, Bool.not_true, Bool.and_false]
    rfl
  have hvk : vdKey (pkgOfThread m) (vk % 16) = vk := by rw [vdKey, hpkg]; omega
  have hkept : (x.status == stRoutelost || x.status != x.status) = false := by simp [hlost]
  refine ⟨_, rfl, ?_⟩
  simp only [hfind, hrun, hmember, hpart, hnow, hphase, hall, hkept, hvk, hskew, hout, Nat.lt_irrefl, decide_false,
    Nat.not_lt.2 hpaid, fireClear_alone hport, planLanding_unlanded hland, planWrite_nothing, Bool.not_false, Bool.not_true,
    Bool.and_false, Bool.or_self, Bool.false_eq_true, if_false, show (0 == 1) = false from rfl, show (0 == 2) = false from rfl,
    show ((none : Option (Option (List Byte))) == some none) = false from rfl]
  have hmem := (setTag_onlyTags s (coreOf m) vk (planTag p.desc) (planStatus p.desc f x false)).1
  generalize s.setTag (coreOf m) vk (planTag p.desc) (planStatus p.desc f x false) = u at hmem ⊢
  rw [planFinish, modPlan_mem, modPlan_cores]
  exact ⟨hmem, rfl⟩

end

/-! ### The statement -/

theorem planTag_lt (d : List Byte) : planTag d < 64 := Nat.mod_lt _ (by decide)

/-- Settles O28: PLANSET is a read with a result formed at its return and PLANFIRE a posted release; PLANDROP, a trigger, a member's
start and its completion are by what the VD's table holds of the plan. -/
theorem collectivePlans : Obligations.CollectivePlans := by
  unfold Obligations.CollectivePlans
  intro sw d a b vk idx k m locs p g rest f team x s va plans
  refine ⟨fun hp hslot => planset_reads sw d hp hslot, fun hp hroom => planfire_posts sw hp hroom, ?drop,
    fun htrig => ⟨fun hplan => planTrigger_unknown htrig hplan, ?accept⟩,
    fun hfind hrun hmember hpkg hport => ⟨?start, ?complete⟩⟩
  case drop =>
    rintro hp rfl
    exact ⟨fun hplan => plandrop_unknown hp sw hplan, fun hplan hrun hpend => plandrop_idle hp sw hplan hrun hpend,
      fun hplan hrun => plandrop_holds hp sw hplan hrun⟩
  case accept =>
    intro hplan hteam haway hdrop hnext hpend
    refine (planTrigger_accepts htrig hplan hteam haway hdrop hnext hpend).imp fun t ⟨htriggers, hmem, hnew⟩ =>
      ⟨htriggers, hmem, g.fireTime != 0 && decide (g.fireTime.toNat < s.time (vk / 16)), by simp, ?_⟩
    simp only [Plan.accept, Option.isNone_iff_eq_none] at hnew
    exact hnew
  case start =>
    intro hmode hue hce hnew htime
    refine (planFireStart_starts hfind hrun hmember hpkg hport hmode hue hce hnew htime).imp fun t ⟨hmem, _, _, _, hpart⟩ => ?_
    exact ⟨hmem, _, hpart, rfl, rfl, rfl⟩
  case complete =>
    intro hpart hall hphase hlost hpaid hskew hout hland hw
    refine (planFiringComplete_tags hfind hrun hmember hpkg hport hpart hall hphase hlost hpaid hskew hout hland).imp
      fun t ⟨hmem, hcores⟩ => ?_
    have hbit := setTag_bit hw (planTag p.desc) (planStatus p.desc f x false)
    have hstat := setTag_stat hw (planTag p.desc) (planStatus p.desc f x false)
    rw [Nat.mod_eq_of_lt (planTag_lt p.desc), State.core, ← hcores] at hbit hstat
    exact ⟨hmem, hbit, hstat⟩

end Sys2Proof.Machine
end

section
/-! SUPPORT. Segments of a team: their handles, how one of them is changed, and which entry is opened (R286 to R289). -/

namespace Sys2Proof.Machine

/-! ### One segment -/

/-- A segment of a team by its number. -/
def State.seg (s : State) (vd num k : Nat) : Option Segment := (s.findTeam vd num).bind fun y => tblFind y.segs k

/-- An entry of a team's segments is open (R289). -/
def Team.segOpen (t : Team) (k : Nat) : Bool := ((tblFind t.segs k).map fun y => y.isOpen).getD false

theorem seg_of_team {s : State} {vd num : Nat} {team : Team} (h : s.findTeam vd num = some team) (k : Nat) :
    s.seg vd num k = tblFind team.segs k := by rw [State.seg, h, Option.bind_some]

/-- A handle names an entry that the team's table holds (R287). -/
theorem segByHandle_find {t : Team} {h : Word} {n : Nat} {g : Segment} (hs : segByHandle t h = some (n, g)) :
    tblFind t.segs n = some g := by
  rw [segByHandle] at hs
  split at hs
  case h_1 y hy =>
    split at hs
    · cases hs; exact hy
    · cases hs
  case h_2 => cases hs

theorem modSeg_seg {s : State} {vd num n : Nat} {g : Segment} (h : s.seg vd num n = some g) (f : Segment → Segment) :
    (s.modSeg vd num n f).seg vd num n = some (f g) := by
  obtain ⟨team, hteam, hg⟩ := Option.bind_eq_some_iff.1 h
  rw [State.modSeg, seg_of_team (findTeam_modTeam hteam fun t => by split <;> rfl), hg, tblFind_put, if_pos rfl]

/-- No handle is an answer of TAPEOPEN that says why there is none (R287, R289). -/
theorem segHandle_ne_two {n : Nat} (hn : n < 64) (gen : BitVec 7) : segHandle n gen ≠ 2 := by
  have hgen := gen.isLt
  intro h
  have htwo := congrArg BitVec.toNat h
  have htoNat : BitVec.toNat (2 : Word) = 2 := by decide
  rw [segHandle, BitVec.toNat_ofNat, htoNat] at htwo
  omega

/-! ### The lowest free entry -/

theorem freeSeg_eq (t : Team) : freeSeg t = (List.range 64).findSome? fun k =>
    if t.segOpen k then none else some (k, (tblGet t.segs k (Segment.empty 0)).gen) := by
  have hopen (k : Nat) : (tblGet t.segs k (Segment.empty 0)).isOpen = t.segOpen k := by
    rw [tblGet, Team.segOpen]
    cases tblFind t.segs k <;> rfl
  rw [freeSeg, List.findSome?_map]
  congr 1
  funext k
  rw [← hopen k]
  rfl

theorem freeSeg_none {t : Team} (h : ∀ k < 64, t.segOpen k = true) : freeSeg t = none := by
  rw [freeSeg_eq, List.findSome?_eq_none_iff]
  exact fun k hk => if_pos (h k (List.mem_range.1 hk))

theorem freeSeg_lowest {t : Team} {n : Nat} (hn : n < 64) (hfree : t.segOpen n = false) (hbelow : ∀ k < n, t.segOpen k = true) :
    freeSeg t = some (n, (tblGet t.segs n (Segment.empty 0)).gen) := by
  obtain ⟨m, hm⟩ : ∃ m, 64 = n + (m + 1) := ⟨63 - n, by omega⟩
  rw [freeSeg_eq, hm, List.range_add, List.findSome?_append, List.findSome?_eq_none_iff.2 fun k hk =>
    if_pos (hbelow k (List.mem_range.1 hk)), Option.none_or, List.range_succ_eq_map, List.map_cons, List.findSome?_cons,
    Nat.add_zero, hfree]
  rfl

/-! ### Opening -/

/-- The segment that a thread opens for `q` records at unit `u` of its package's spill region (R286, R289). -/
def Thread.newSegment (t : Thread) (gen : BitVec 7) (q u : Nat) : Segment :=
  ⟨gen, true, q, 0, false, pkgOfThread t.id, u * 4096, runUnits q, [], []⟩

/-- A segment stands under a number of its team. -/
def State.putSeg (s : State) (vd num n : Nat) (g : Segment) : State :=
  s.modTeam vd num fun x => { x with segs := tblPut x.segs n g }

theorem putSeg_seg {s : State} {vd num : Nat} {team : Team} (h : s.findTeam vd num = some team) (n : Nat) (g : Segment) :
    (s.putSeg vd num n g).seg vd num n = some g := by
  refine (seg_of_team (findTeam_modTeam h (f := fun x => { x with segs := tblPut x.segs n g }) fun _ => rfl) n).trans ?_
  rw [tblFind_put, if_pos rfl]

section
variable {s : State} {t : Thread} {team : Team} {q : Nat} (hteam : s.findTeam t.vd t.teamNum = some team)
include hteam

theorem openSegment_range (hq : q = 0 ∨ 2 ^ 26 ≤ q) : openSegment s t q = (s, 3) := by
  rw [openSegment, hteam]
  exact if_pos (by simpa using hq)

variable (hpos : 0 < q) (hq : q < 2 ^ 26)
include hpos hq

theorem openSegment_free : openSegment s t q = match freeSeg team with
    | none => (s, 1)
    | some (n, gen) =>
      match fitRun (runUnits q) (field team.spill 39 12 + field team.spill 63 40) (field team.spill 39 12)
        (heldRuns team (pkgOfThread t.id)) with
      | none => (s, 2)
      | some u => (s.putSeg t.vd t.teamNum n (t.newSegment gen q u), segHandle n gen) := by
  have hin : ¬ (decide (q = 0) || decide (2 ^ 26 ≤ q)) = true := by simp; omega
  rw [openSegment, hteam]
  dsimp only
  rw [if_neg hin]
  rfl

theorem openSegment_full (hfull : freeSeg team = none) : openSegment s t q = (s, 1) := by
  rw [openSegment_free hteam hpos hq, hfull]

theorem openSegment_opens {n u : Nat} {gen : BitVec 7} (hfree : freeSeg team = some (n, gen))
    (hrun : fitRun (runUnits q) (field team.spill 39 12 + field team.spill 63 40) (field team.spill 39 12)
      (heldRuns team (pkgOfThread t.id)) = some u) :
    openSegment s t q = (s.putSeg t.vd t.teamNum n (t.newSegment gen q u), segHandle n gen) := by
  rw [openSegment_free hteam hpos hq, hfree]
  dsimp only
  rw [hrun]

end

end Sys2Proof.Machine
end

section
/-! SUPPORT. TAPEOPEN, TAPECLOSE, TAPEFREE, TAPEQ and GENBUMP (R289 to R291, R300). -/

namespace Sys2Proof.Machine

/-! ### TAPEOPEN (R289) -/

section
variable {s : State} {a : Src} (hp : Present s (srcRegs a)) (sw : Bool) (d : SReg)
include hp

/-- TAPEOPEN answers what the opening gives, unless that is a lack of room. -/
theorem exec_tapeopen {u : State} {r : Word} (hwait : s.thr.wait = .none)
    (hopen : openSegment s s.thr (s.src a).toNat = (u, r)) (hr : r ≠ 2) :
    exec (.tapeopen sw d a) s = .next ((u.writeS d r).finish sw) := by
  show execTapeopen sw d a s = _
  rw [execTapeopen, hwait]
  dsimp only
  rw [withRegs_present hp, hopen]
  simp only [hr, decide_false, Bool.false_and, Bool.false_eq_true, if_false]

theorem tapeopen_refuses {r : Word} (hwait : s.thr.wait = .none) (hopen : openSegment s s.thr (s.src a).toNat = (s, r))
    (hr : r ≠ 2) : Completes (.tapeopen sw d a) s fun t => WritesS s t d r ∧ InSequence sw s t :=
  ⟨_, exec_tapeopen hp sw d hwait hopen hr, writeS_finish s d r sw⟩

theorem tapeopen_opens {team : Team} (hteam : s.findTeam s.thr.vd s.thr.teamNum = some team) (hwait : s.thr.wait = .none)
    {n u : Nat} {gen : BitVec 7} (hn : n < 64) (hopen : openSegment s s.thr (s.src a).toNat =
      (s.putSeg s.thr.vd s.thr.teamNum n (s.thr.newSegment gen (s.src a).toNat u), segHandle n gen)) :
    Completes (.tapeopen sw d a) s fun t => InSequence sw s t ∧ t = { s with thr := t.thr, teams := t.teams } ∧
      SetsS s t d (segHandle n gen) ∧
      t.seg s.thr.vd s.thr.teamNum n = some (s.thr.newSegment gen (s.src a).toNat u) := by
  refine ⟨_, exec_tapeopen hp sw d hwait hopen (segHandle_ne_two hn _), ?_⟩
  obtain ⟨hsets, hseq⟩ := writeS_finish_sets (s := s) (u := s.putSeg s.thr.vd s.thr.teamNum n
    (s.thr.newSegment gen (s.src a).toNat u)) rfl d (segHandle n gen) sw
  exact ⟨hseq, rfl, hsets, putSeg_seg hteam n _⟩

end

/-! ### TAPECLOSE and TAPEFREE (R290) -/

/-- A thread that holds for its instruction stands where it stood. -/
theorem holdUntil_stays {s u : State} (h : u.thr = s.thr) (k : State → State) : Stays s (u.holdUntil false k) := by
  rw [State.holdUntil, if_neg (by decide), State.modThr, h]
  exact ⟨⟨fun _ _ => ⟨rfl, rfl⟩, fun _ _ => ⟨rfl, rfl⟩, fun _ _ => ⟨rfl, rfl⟩, rfl⟩, rfl, rfl⟩

section
variable {s : State} {a : Src} {team : Team} (hteam : s.findTeam s.thr.vd s.thr.teamNum = some team)
  (hp : Present s (srcRegs a)) (sw : Bool)
include hteam hp

/-- A stale handle is a PERM with the handle as its value. -/
theorem tapeclose_stale (hseg : segByHandle team (s.src a) = none) (htrap : CanTrap s) :
    Completes (.tapeclose sw a) s fun t => TrapsTo s t 0x05 s.thr.pc (s.src a) := by
  refine ⟨_, exec_withRegs rfl hp, ?_⟩
  simp only [State.myTeam, hteam, Option.bind_some, hseg]
  exact trap_enters htrap cPerm _

theorem tapefree_stale (hseg : segByHandle team (s.src a) = none) (htrap : CanTrap s) :
    Completes (.tapefree sw a) s fun t => TrapsTo s t 0x05 s.thr.pc (s.src a) := by
  refine ⟨_, exec_withRegs rfl hp, ?_⟩
  simp only [State.myTeam, hteam, Option.bind_some, hseg]
  exact trap_enters htrap cPerm _

variable {n : Nat} {g : Segment} (hseg : segByHandle team (s.src a) = some (n, g))
include hseg

/-- A segment is closed with no transfer under way: its unused slots are given back. -/
theorem tapeclose_closes (hidle : forwardsOf s s.thr.vd s.thr.teamNum n = false) :
    Completes (.tapeclose sw a) s fun t => Passes sw s t ∧ t = { s with thr := t.thr, teams := t.teams } ∧
      ∃ g', t.seg s.thr.vd s.thr.teamNum n = some g' ∧ g'.closed = true ∧ g'.quota = g.used ∧
        g'.used = g.used ∧ g'.records = g.records ∧ g'.isOpen = g.isOpen ∧ g'.gen = g.gen := by
  have hclosed := modSeg_seg ((seg_of_team hteam n).trans (segByHandle_find hseg)) fun g => { g with closed := true }
  refine ⟨_, exec_withRegs rfl hp, ?_⟩
  simp only [State.myTeam, hteam, Option.bind_some, hseg, State.holdUntil, hidle, Bool.not_false, if_true]
  split
  case isTrue hsame =>
    have hquota : g.quota = g.used := by simpa using (Bool.and_eq_true_iff.1 hsame).2
    exact ⟨finish_passes (s := s) (u := s.modSeg ..) rfl sw, rfl, _, hclosed, rfl, hquota, rfl, rfl, rfl, rfl⟩
  case isFalse =>
    exact ⟨finish_passes (s := s) (u := (s.modSeg ..).modSeg ..) rfl sw, rfl, _, modSeg_seg hclosed _, rfl, rfl, rfl, rfl, rfl,
      rfl⟩

/-- One with a transfer under way is closed, and the thread holds. -/
theorem tapeclose_holds (hbusy : forwardsOf s s.thr.vd s.thr.teamNum n = true) :
    Completes (.tapeclose sw a) s fun t => Stays s t ∧
      t.seg s.thr.vd s.thr.teamNum n = some { g with closed := true } ∧ t.mem = s.mem := by
  have hclosed := modSeg_seg ((seg_of_team hteam n).trans (segByHandle_find hseg)) fun g => { g with closed := true }
  refine ⟨_, exec_withRegs rfl hp, ?_⟩
  simp only [State.myTeam, hteam, Option.bind_some, hseg, hbusy, Bool.not_true]
  exact ⟨holdUntil_stays (s := s) (u := s.modSeg ..) rfl _, hclosed, rfl⟩

/-- A segment of which no retrace runs is freed: its entry moves to the next generation, and no router keeps a record of it. -/
theorem tapefree_frees (hidle : retracesOf s s.thr.vd s.thr.teamNum n = false) :
    Completes (.tapefree sw a) s fun t => Passes sw s t ∧ t = { s with thr := t.thr, teams := t.teams, routers := t.routers } ∧
      t.seg s.thr.vd s.thr.teamNum n = some (Segment.empty (g.gen + 1)) ∧
      ∀ e ∈ t.routers, ∀ y ∈ e.2.log, ¬ (y.vk % 16 = s.thr.vd ∧ y.team = s.thr.teamNum ∧ y.seg = n) := by
  have hfind : (dropLog s s.thr.vd s.thr.teamNum (some n)).seg s.thr.vd s.thr.teamNum n = some g :=
    (seg_of_team hteam n).trans (segByHandle_find hseg)
  refine ⟨_, exec_withRegs rfl hp, ?_⟩
  simp only [State.myTeam, hteam, Option.bind_some, hseg, State.holdUntil, hidle, Bool.not_false, if_true]
  refine ⟨finish_passes (s := s) (u := (dropLog ..).modSeg ..) rfl sw, rfl, modSeg_seg hfind _, fun e he y hy hnamed => ?_⟩
  obtain ⟨x, -, rfl⟩ := List.mem_map.1 he
  obtain ⟨-, hkept⟩ := List.mem_filter.1 hy
  obtain ⟨hvd, hnum, hn⟩ := hnamed
  simp [hvd, hnum, hn] at hkept

theorem tapefree_holds (hbusy : retracesOf s s.thr.vd s.thr.teamNum n = true) :
    Completes (.tapefree sw a) s fun t => Stays s t ∧ SameWorld s t := by
  refine ⟨_, exec_withRegs rfl hp, ?_⟩
  simp only [State.myTeam, hteam, Option.bind_some, hseg, hbusy, Bool.not_true]
  exact ⟨holdUntil_stays rfl _, rfl⟩

end

/-! ### TAPEQ (R291) -/

theorem tapeq_defers {s : State} {a : Src} (hp : Present s (srcRegs a)) (hslot : HasSlot s) (sw : Bool) (d : SReg) :
    Completes (.tapeq sw d a) s fun t => InSequence sw s t ∧ SameS s.thr t.thr [] ∧
      t = { s with seq := s.seq + 1, thr := t.thr } ∧
      t.thr.buf = s.thr.buf ++ [⟨s.seq, s.thr.pc, [.s d 0], .tapeq d (s.src a), true, false, none, false⟩] :=
  ⟨_, exec_withSlot rfl hslot hp, finish_of_headState (s := s) (u := s.defer ..) rfl sw, fun _ _ => ⟨rfl, rfl⟩, rfl, rfl⟩

/-! ### GENBUMP (R300) -/

/-- A tensor's generation becomes `g` in the issuing thread's VD on each of these packages. -/
def State.setGens (s : State) (ps : Tbl Pkg) (id : Nat) (g : BitVec 12) : State :=
  ps.foldl (fun s e => s.modVd (vdKey e.1 s.thr.vd) fun v => { v with tensorGen := tblPut v.tensorGen id g }) s

theorem setGens_world (s : State) (ps : Tbl Pkg) (id : Nat) (g : BitVec 12) :
    s.setGens ps id g = { s with vds := (s.setGens ps id g).vds } :=
  List.foldlRecOn (motive := fun t : State => t = { s with vds := t.vds }) _ _ rfl fun t ht e _ => by
    rw [ht]; rfl

/-- A generation that a VD has taken stays, since every other package's VD takes the same. -/
theorem setGens_kept {s : State} {k id : Nat} {g : BitVec 12} (h : tblGet (s.vd k).tensorGen id 0 = g) (ps : Tbl Pkg) :
    tblGet ((s.setGens ps id g).vd k).tensorGen id 0 = g :=
  List.foldlRecOn (motive := fun t : State => tblGet (t.vd k).tensorGen id 0 = g) _ _ h fun t ht e _ => by
    rw [State.vd, State.modVd, tblGet_put]
    split
    · exact (tblGet_put ..).trans (if_pos rfl)
    · exact ht

theorem setGens_gen (s : State) (ps : Tbl Pkg) (id : Nat) (g : BitVec 12) :
    ∀ e ∈ ps, tblGet ((s.setGens ps id g).vd (vdKey e.1 s.thr.vd)).tensorGen id 0 = g := by
  induction ps generalizing s with
  | nil => exact fun e he => absurd he List.not_mem_nil
  | cons x ps ih =>
    refine List.forall_mem_cons.2 ⟨setGens_kept ?_ ps, fun e he => ih _ e he⟩
    rw [vd_modVd]
    exact (tblGet_put ..).trans (if_pos rfl)

section
variable {s : State} {a : Src} (hwait : s.thr.wait = .none) (hp : Present s (srcRegs a)) (sw : Bool) (d : SReg)
include hwait hp

theorem genbump_bumps (hpos : 0 < (s.src a).toNat) (hid : (s.src a).toNat < 2 ^ 12)
    (hidle : teamRetraces s s.thr.vd s.thr.teamNum = false) :
    let gen : BitVec 12 := tblGet (s.vd s.thr.vk).tensorGen (s.src a).toNat 0 + 1
    Completes (.genbump sw d a) s fun t => InSequence sw s t ∧ SetsS s t d (gen.setWidth 64) ∧
      t = { s with thr := t.thr, vds := t.vds } ∧
      ∀ e ∈ s.pkgs, tblGet (t.vd (vdKey e.1 s.thr.vd)).tensorGen (s.src a).toNat 0 = gen := by
  intro gen
  have hlow : field (s.src a) 11 0 = (s.src a).toNat := by
    simp only [field, fieldN]; omega
  have hof : genOf (s.vd s.thr.vk).tensorGen (s.src a).toNat = tblGet (s.vd s.thr.vk).tensorGen (s.src a).toNat 0 :=
    if_neg (Nat.pos_iff_ne_zero.1 hpos)
  have hgood : ¬ (decide ((s.src a).toNat = 0) || field (s.src a) 63 12 != 0) = true := by
    have hhigh : field (s.src a) 63 12 = 0 := by
      simp only [field, fieldN]; omega
    simp [hhigh]; omega
  have hworld := setGens_world s s.pkgs (s.src a).toNat gen
  have hgens := setGens_gen s s.pkgs (s.src a).toNat gen
  have hexec : exec (.genbump sw d a) s =
      .next (if teamRetraces (s.setGens s.pkgs (s.src a).toNat gen) (s.setGens s.pkgs (s.src a).toNat gen).thr.vd
          (s.setGens s.pkgs (s.src a).toNat gen).thr.teamNum
        then (s.setGens s.pkgs (s.src a).toNat gen).modThr fun t => { t with wait := .hold 5 false (gen.setWidth 64), park := none }
        else ((s.setGens s.pkgs (s.src a).toNat gen).writeS d (gen.setWidth 64)).finish sw) := by
    show execGenbump sw d a s = _
    rw [execGenbump, hwait]
    dsimp only
    rw [withRegs_present hp, hlow, if_neg hgood, hof]
    rfl
  generalize s.setGens s.pkgs (s.src a).toNat gen = u at hworld hgens hexec
  obtain ⟨hsets, hseq⟩ := writeS_finish_sets (s := s) (u := u) (by rw [hworld]) d (gen.setWidth 64) sw
  refine ⟨_, hexec.trans (congrArg _ (if_neg ?_)), hseq, hsets, ?_, hgens⟩
  · rw [hworld]; exact Bool.eq_false_iff.1 hidle
  · rw [finish_shape, State.writeS, State.modThr, hworld]

theorem genbump_refuses (hid : s.src a = 0 ∨ 2 ^ 12 ≤ (s.src a).toNat) (htrap : CanTrap s) :
    Completes (.genbump sw d a) s fun t => TrapsTo s t 0x05 s.thr.pc (s.src a) := by
  have hbad : (decide (field (s.src a) 11 0 = 0) || field (s.src a) 63 12 != 0) = true := by
    rcases hid with hzero | hbig
    · rw [hzero]; rfl
    · have hhigh : field (s.src a) 63 12 ≠ 0 := by
        have hlt := (s.src a).isLt
        simp only [field, fieldN]; omega
      rw [bne_iff_ne.2 hhigh, Bool.or_true]
  refine ⟨s.trap cPerm (s.src a), ?_, trap_enters htrap cPerm _⟩
  show execGenbump sw d a s = _
  rw [execGenbump, hwait]
  dsimp only
  rw [withRegs_present hp]
  exact congrArg _ (if_pos hbad)

end

/-! ### The statement -/

theorem field_spillBase (x : Word) : field x 39 12 = x.toNat / 2 ^ 12 % 2 ^ 28 := rfl

theorem field_spillSize (x : Word) : field x 63 40 = x.toNat / 2 ^ 40 := by
  have hlt := x.isLt
  simp only [field, fieldN]; omega

/-- Settles O29: the answers of TAPEOPEN are those of the opening, the others by what a handle names. -/
theorem segments : Obligations.Segments := by
  unfold Obligations.Segments
  intro sw d a team n g s x vd num seg open_ hteam hwait hp
  refine ⟨fun hx => ?range, fun hpos hlt hall => ?full, fun hpos hlt hn hfree hbelow u hrun => ?opens,
    fun hslot => tapeq_defers hp hslot sw d,
    fun hseg htrap => ⟨tapeclose_stale hteam hp sw hseg htrap, tapefree_stale hteam hp sw hseg htrap⟩,
    fun hseg => ⟨tapeclose_closes hteam hp sw hseg, tapeclose_holds hteam hp sw hseg, tapefree_frees hteam hp sw hseg,
      tapefree_holds hteam hp sw hseg⟩,
    fun hpos hid hidle _ => genbump_bumps hwait hp sw d hpos hid hidle, genbump_refuses hwait hp sw d⟩
  case range =>
    have hq : x.toNat = 0 ∨ 2 ^ 26 ≤ x.toNat := hx.imp_left fun h => congrArg BitVec.toNat h
    exact tapeopen_refuses hp sw d hwait (openSegment_range hteam hq) (by decide)
  case full =>
    exact tapeopen_refuses hp sw d hwait (openSegment_full hteam hpos hlt (freeSeg_none hall)) (by decide)
  case opens =>
    rw [← field_spillBase, ← field_spillSize] at hrun
    have hopen := openSegment_opens hteam hpos hlt (freeSeg_lowest hn hfree hbelow) hrun
    exact (tapeopen_opens hp sw d hteam hwait hn hopen).imp fun t ⟨hseq, hworld, hsets, hseg⟩ =>
      ⟨hseq, hworld, _, hsets, hseg⟩

end Sys2Proof.Machine
end

section
/-! SUPPORT. MCAST, GATHR and A2A at issue: what they reserve, and TAPEFULL (R292, R293, R295). -/

namespace Sys2Proof.Machine

/-- A team that is found is the one that was named. -/
theorem findTeam_named {s : State} {vd num : Nat} {team : Team} (h : s.findTeam vd num = some team) :
    team.vd = vd ∧ team.num = num := by
  have his := List.find?_some h
  rw [Team.is, Bool.and_eq_true, beq_iff_eq, beq_iff_eq] at his
  exact his

/-- MCAST, GATHR or A2A by its number (R292). -/
abbrev forwardInstr (sw : Bool) (kind : Nat) (tag : BitVec 6) (a : SReg) (b : Src) (cls : BitVec 2) (ret : Bool) : Instr :=
  if kind = 0 then .mcast sw tag a b cls ret else if kind = 1 then .gathr sw tag a b cls ret else .a2a sw tag a b cls ret

theorem exec_forward {kind : Nat} (hk : kind ≤ 2) (sw : Bool) (tag : BitVec 6) (a : SReg) (b : Src) (cls : BitVec 2) (ret : Bool)
    (s : State) : exec (forwardInstr sw kind tag a b cls ret) s = .next (forwardForm sw kind tag a b cls ret s) := by
  match kind, hk with
  | 0, _ => rfl
  | 1, _ => rfl
  | 2, _ => rfl

/-- The records that a transfer reserves: one for each receiver of an MCAST, for each entry of a list otherwise (R293). -/
def forwardCount (team : Team) (kind self : Nat) (w2 : Word) : Nat :=
  if kind = 0 then ((tblGet team.groups (w2.toNat / 2 ^ 24 % 256) []).filter fun y => y != self).length
  else w2.toNat / 2 ^ 24 % 2 ^ 16

theorem mcastReceivers_length (t : Team) (g self : Nat) :
    (mcastReceivers t g self).length = ((tblGet t.groups g []).filter fun y => y != self).length := by
  generalize hl : tblGet t.groups g [] = l
  have hfab : (l.zipIdx.map fun x => (x.2, x.1)).map Prod.snd = l := by
    rw [List.map_map]; exact List.zipIdx_map_fst 0 l
  rw [mcastReceivers, hl, ← List.countP_eq_length_filter, ← List.countP_eq_length_filter]
  conv_rhs => rw [← hfab, List.countP_map]
  rfl

/-- The request words of a transfer keep R293, its handle names an open segment, and its registers are present. -/
structure ForwardRequest (s : State) (kind : Nat) (a : SReg) (b : Src) (team : Team) (n : Nat) (g : Segment) : Prop where
  present : Present s (sregs a 4 ++ srcRegs b)
  good : forwardBad kind (s.thr.getS (sregAt a 2)) (s.thr.getS (sregAt a 3)) = none
  aligned : forwardMisaligned kind (s.thr.getS a) (s.thr.getS (sregAt a 1)) (s.thr.getS (sregAt a 3)) = none
  inside : forwardOutside kind (s.thr.getS a) (s.thr.getS (sregAt a 1)) (s.thr.getS (sregAt a 3)) = none
  bound : s.findTeam s.thr.vd s.thr.teamNum = some team
  named : segByHandle team (s.src b) = some (n, g)
  unclosed : g.closed = false

/-- A transfer as it is reserved: its number, form, tag, length, first record, count and segment (R295). -/
structure Reserves (s : State) (kind : Nat) (tag : BitVec 6) (w2 : Word) (g : Segment) (n count : Nat) (f : Forward) : Prop where
  id : f.id = s.seq
  kind : f.kind = kind
  tag : f.tag = tag.toNat
  len : f.len = w2.toNat % 2 ^ 24
  first : f.first = g.used
  count : f.n = count
  seg : f.seg = n

section
variable {s : State} {kind : Nat} {a : SReg} {b : Src} {team : Team} {n : Nat} {g : Segment}
  (h : ForwardRequest s kind a b team n g) (sw : Bool) (tag : BitVec 6) (cls : BitVec 2) (ret : Bool)
include h

/-- After its checks a transfer reserves its records or raises TAPEFULL (R295). -/
theorem forwardForm_checked : let count := forwardCount team kind s.thr.fabno (s.thr.getS (sregAt a 2))
    ∃ f, Reserves s kind tag (s.thr.getS (sregAt a 2)) g n count f ∧ forwardForm sw kind tag a b cls ret s =
      if g.quota < g.used + count
      then s.trap cTapefull (BitVec.ofNat 64 (1 * 2 ^ 58 + count % 2 ^ 26 * 2 ^ 32 + (s.src b).toNat % 2 ^ 32))
      else ({ s.bump.modSeg s.thr.vd s.thr.teamNum n (fun g => { g with used := g.used + count }) with
        forwards := s.forwards ++ [f] } : State).finish sw := by
  obtain ⟨hp, hgood, haligned, hinside, hteam, hseg, hopen⟩ := h
  intro count
  have hcount : (if kind = 0 then (mcastReceivers team (field (s.thr.getS (sregAt a 2)) 31 24) s.thr.fabno).length
      else field (s.thr.getS (sregAt a 2)) 39 24) = count := by
    rw [mcastReceivers_length]; rfl
  have hnum : team.num = s.thr.teamNum := (findTeam_named hteam).2
  rw [forwardForm, withRegs_present hp]
  simp only [hgood, haligned, hinside, State.myTeam, hteam, hseg, hopen, hcount, hnum, Bool.false_eq_true, if_false]
  refine ⟨_, ?_, rfl⟩
  exact ⟨rfl, rfl, rfl, by simp [field, fieldN], rfl, rfl, rfl⟩

theorem forward_reserves (hk : kind ≤ 2) (hroom : g.used + forwardCount team kind s.thr.fabno (s.thr.getS (sregAt a 2)) ≤ g.quota) :
    let count := forwardCount team kind s.thr.fabno (s.thr.getS (sregAt a 2))
    Completes (forwardInstr sw kind tag a b cls ret) s fun t => Passes sw s t ∧
      t = { s with thr := t.thr, teams := t.teams, seq := s.seq + 1, forwards := t.forwards } ∧
      t.seg s.thr.vd s.thr.teamNum n = some { g with used := g.used + count } ∧
      ∃ f, t.forwards = s.forwards ++ [f] ∧ Reserves s kind tag (s.thr.getS (sregAt a 2)) g n count f := by
  obtain ⟨f, hf, hform⟩ := forwardForm_checked h sw tag cls ret
  have hfind : s.bump.seg s.thr.vd s.thr.teamNum n = some g := (seg_of_team h.bound n).trans (segByHandle_find h.named)
  refine ⟨_, (exec_forward hk ..).trans (congrArg _ (hform.trans (if_neg (Nat.not_lt.2 hroom)))), ?_⟩
  exact ⟨finish_passes (s := s) (u := { s.bump.modSeg .. with forwards := _ }) rfl sw, rfl, modSeg_seg hfind _, f, rfl, hf⟩

theorem forward_full (hk : kind ≤ 2) (hfull : g.quota < g.used + forwardCount team kind s.thr.fabno (s.thr.getS (sregAt a 2)))
    (htrap : CanTrap s) : Completes (forwardInstr sw kind tag a b cls ret) s fun t => TrapsTo s t 0x0C s.thr.pc
      (BitVec.ofNat 64 (2 ^ 58 + forwardCount team kind s.thr.fabno (s.thr.getS (sregAt a 2)) % 2 ^ 26 * 2 ^ 32 +
        (s.src b).toNat % 2 ^ 32)) := by
  obtain ⟨f, -, hform⟩ := forwardForm_checked h sw tag cls ret
  rw [if_pos hfull, Nat.one_mul] at hform
  exact ⟨_, (exec_forward hk ..).trans (congrArg _ hform), trap_enters htrap cTapefull _⟩

end

end Sys2Proof.Machine
end

section
/-! SUPPORT. Records: their words, the router log that holds one, and how one is made (R286, R297, R299). -/

namespace Sys2Proof.Machine

/-! ### The words of a record (R297) -/

section
variable (op : Forward) (x : Delivery) (rgen stid dtid : Nat) (path : List Nat)

theorem recOrig_recordOf : recOrig (recordOf op x rgen stid dtid path) = x.orig % 2 ^ 20 := by
  show (BitVec.ofNat 64 _).toNat / 2 ^ 0 % 2 ^ (19 + 1 - 0) = _
  rw [BitVec.toNat_ofNat]; omega

theorem recSaddr_recordOf : recSaddr (recordOf op x rgen stid dtid path) = x.saddr % 2 ^ 52 := by
  show (BitVec.ofNat 64 _).toNat / 2 ^ 0 % 2 ^ (51 + 1 - 0) = _
  rw [BitVec.toNat_ofNat]; omega

theorem recDaddr_recordOf : recDaddr (recordOf op x rgen stid dtid path) = x.daddr % 2 ^ 52 := by
  show (BitVec.ofNat 64 _).toNat / 2 ^ 0 % 2 ^ (51 + 1 - 0) = _
  rw [BitVec.toNat_ofNat]; omega

theorem recLen_recordOf : recLen (recordOf op x rgen stid dtid path) = op.len % 2 ^ 24 := by
  show (BitVec.ofNat 64 _).toNat / 2 ^ 0 % 2 ^ (23 + 1 - 0) = _
  rw [BitVec.toNat_ofNat]; omega

theorem recKey_recordOf (hlen : op.len < 2 ^ 24) : recKey (recordOf op x rgen stid dtid path) = x.key.toNat := by
  have hkey := x.key.isLt
  show (BitVec.ofNat 64 _).toNat / 2 ^ 32 % 2 ^ (63 + 1 - 32) = _
  rw [BitVec.toNat_ofNat]; omega

theorem recHops_recordOf (hkind : op.kind < 16) (hseg : op.seg < 64) (hidx : x.idx < 2 ^ 26) :
    recHops (recordOf op x rgen stid dtid path) = min path.length 48 := by
  have hret : (if op.ret = true then 2 ^ 36 else 0) ≤ 2 ^ 36 := by split <;> omega
  have hhops := Nat.min_le_right path.length 48
  show (BitVec.ofNat 64 _).toNat / 2 ^ 37 % 2 ^ (42 + 1 - 37) = _
  rw [BitVec.toNat_ofNat]; omega

end

/-! ### Router logs (R286) -/

/-- Some router's log holds a record, and every log that holds it has it with these words. -/
structure Logs (s : State) (vd team seg idx : Nat) (ws : List Word) : Prop where
  held : ∃ r, ∃ y ∈ (s.router r).log, y.is vd team seg idx = true
  words : ∀ e ∈ s.routers, ∀ y ∈ e.2.log, y.is vd team seg idx = true → y.words = ws

/-- What a router's log holds stands in the table of routers. -/
theorem router_listed {s : State} {r : Nat} {y : LogEntry} (h : y ∈ (s.router r).log) : ∃ e ∈ s.routers, e.2 = s.router r := by
  rw [State.router, tblGet] at h ⊢
  cases hr : tblFind s.routers r with
  | none => rw [hr] at h; exact absurd h List.not_mem_nil
  | some x => exact ⟨(r, x), mem_of_tblFind hr, rfl⟩

theorem router_modRouter (s : State) (r k : Nat) (f : Router → Router) :
    (s.modRouter r f).router k = if k = r then f (s.router r) else s.router k := tblGet_put ..

section
variable {s : State} {vd team seg idx : Nat} {ws : List Word}

theorem Logs.congr {t : State} (h : Logs s vd team seg idx ws) (hr : t.routers = s.routers) : Logs t vd team seg idx ws := by
  obtain ⟨hheld, hwords⟩ := h
  exact ⟨by simpa only [State.router, hr] using hheld, by rwa [hr]⟩

theorem Logs.loggedAt (h : Logs s vd team seg idx ws) : ∃ r, loggedAt s vd team seg idx = some (r, ws) := by
  obtain ⟨⟨r, y, hy, his⟩, hwords⟩ := h
  obtain ⟨e, he, hrouter⟩ := router_listed hy
  have hsome : (Machine.loggedAt s vd team seg idx).isSome = true := by
    rw [Machine.loggedAt, List.isSome_findSome?, List.any_eq_true]
    refine ⟨e, he, ?_⟩
    rw [Option.isSome_map, List.find?_isSome]
    exact ⟨y, hrouter ▸ hy, his⟩
  obtain ⟨⟨k, us⟩, hat⟩ := Option.isSome_iff_exists.1 hsome
  obtain ⟨e', he', hfind⟩ := List.exists_of_findSome?_eq_some hat
  obtain ⟨z, hz, heq⟩ := Option.map_eq_some_iff.1 hfind
  cases heq
  exact ⟨_, hwords e' he' z (List.mem_of_find?_eq_some hz) (List.find?_some hz) ▸ hat⟩

/-- A change of one router that leaves its log. -/
theorem Logs.modRouter (h : Logs s vd team seg idx ws) (r : Nat) {f : Router → Router} (hf : ∀ x, (f x).log = x.log) :
    Logs (s.modRouter r f) vd team seg idx ws := by
  obtain ⟨⟨k, y, hy, his⟩, hwords⟩ := h
  refine ⟨⟨k, y, ?_, his⟩, fun e he z hz hzis => ?_⟩
  · rw [router_modRouter]
    split
    case isTrue hk => rw [hf, ← hk]; exact hy
    case isFalse => exact hy
  · obtain rfl | he := mem_tblPut he
    · have hz' : z ∈ (s.router r).log := by rw [hf] at hz; exact hz
      obtain ⟨e, he, hrouter⟩ := router_listed hz'
      exact hwords e he z (hrouter ▸ hz') hzis
    · exact hwords e he z hz hzis

theorem forgetWalks_logs (h : Logs s vd team seg idx ws) (op gc : Nat) : Logs (s.forgetWalks op gc) vd team seg idx ws := by
  rw [State.forgetWalks, State.forgetAt]
  split
  · exact h
  · exact h.modRouter _ fun _ => rfl

/-- A record that no log holds, put into one. -/
theorem logs_of_put (hnone : loggedAt s vd team seg idx = none) (r : Nat) {e : LogEntry} (he : e.is vd team seg idx = true) :
    Logs (s.modRouter r fun x => { x with log := x.log ++ [e] }) vd team seg idx e.words := by
  have hfree : ∀ k ∈ s.routers, ∀ y ∈ k.2.log, y.is vd team seg idx = false := by
    intro k hk y hy
    have hfind := List.findSome?_eq_none_iff.1 hnone k hk
    rw [Option.map_eq_none_iff, List.find?_eq_none] at hfind
    exact Bool.eq_false_iff.2 (hfind y hy)
  refine ⟨⟨r, e, ?_, he⟩, fun k hk y hy his => ?_⟩
  · rw [router_modRouter, if_pos rfl]; exact List.mem_append_right _ (List.mem_singleton.2 rfl)
  · obtain rfl | hk := mem_tblPut hk
    · obtain hy | hy := List.mem_append.1 hy
      · obtain ⟨k, hk, hrouter⟩ := router_listed hy
        rw [hfree k hk y (hrouter ▸ hy)] at his
        cases his
      · rw [List.mem_singleton.1 hy]
    · rw [hfree k hk y hy] at his; cases his

end

/-- A record whose segment has made it is read from the log that holds it. -/
theorem record_of_logs {s : State} {t : Team} {seg idx : Nat} {g : Segment} {ws : List Word} (hseg : tblFind t.segs seg = some g)
    (hidx : g.records.contains idx = true) (h : Logs s t.vd t.num seg idx ws) : s.record t seg idx = some ws := by
  obtain ⟨r, hat⟩ := h.loggedAt
  simp only [State.record, hseg, hidx, hat, Bool.not_true, Bool.false_eq_true, if_false]

end Sys2Proof.Machine
end

section
/-! SUPPORT. A delivery of a forward transfer, and the completion of a transfer (R261, R296 to R299). -/

namespace Sys2Proof.Machine

/-! ### What a delivery reads and writes (R187, R443) -/

theorem meets_nil (s : State) (vd : Option Nat) : s.meets vd [] = s := by
  rw [State.meets]
  split
  · rfl
  · simp

theorem engWrite_nil (s : State) (vd : Nat) (bs : List Byte) : s.engWrite vd [] bs = (s, true) := by
  rw [engWrite_eq, List.zip_nil_left]; rfl

theorem gatherBytes_sound {s : State} (hue : s.ue = []) {locs : List Nat} (h : ∀ x ∈ locs, isLost x = false) :
    s.gatherBytes locs = some (locs.map (memRead s.mem)) :=
  if_neg (by simpa [State.bad, hue] using h)

/-- A run that begins at a plain location is written. -/
theorem canWrite_sound {s : State} (hue : s.ue = []) {l : Nat} (h : isLost l = false) (n : Nat) : s.canWrite l n = true := by
  rw [State.canWrite, h, hue]; rfl

theorem foldl_engWriteRun_ok {s : State} (hu : Unwaited s) (hue : s.ue = []) (vd : Nat) {rs : List (Nat × List Byte)}
    (hrs : ∀ r ∈ rs, Plain r.1) : (rs.foldl (engWriteRun vd) (s, true)).2 = true := by
  induction rs generalizing s with
  | nil => rfl
  | cons r rs ih =>
    obtain ⟨⟨hlost, -⟩, hrest⟩ := List.forall_mem_cons.1 hrs
    have hcan := canWrite_sound hue hlost r.2.length
    have honly : OnlyMemory s ((s.rawWrite r.1 r.2).spill r.1) :=
      (rawWrite_onlyMemory s r.1 r.2).trans (spill_keeps (s.rawWrite r.1 r.2) r.1).1
    rw [List.foldl_cons, engWriteRun, if_pos hcan, writeLoc_unwaited hu hcan]
    exact ih (hu.congr honly.cores) (spill_sound (rawWrite_sound hue r.1 r.2) r.1) hrest

/-! ### Walks that find their pages cached -/

/-- With no VD in host-assisted mode, an operation whose pages the caches hold goes on at once, and forgets its walks (R409). -/
theorem withWalks_filled {s : State} (hmode : ∀ k, (s.vd k).rmode.getLsbD 0 = false) {op : Nat}
    {rs : List (Nat × Nat × Bool × Bool × Nat × Nat)} {k : State → State}
    (hfill : rs.foldl (fun s x => engFillRanges s x.1 x.2.1 [(x.2.2.2.2.1, x.2.2.2.2.2)]) s = s) :
    s.withWalks op rs k = rs.foldl (fun s x => s.forgetWalks op x.1) (k s) := by
  rw [State.withWalks]
  dsimp only
  split
  · exact congrArg (fun u => rs.foldl (fun s x => s.forgetWalks op x.1) (k u)) hfill
  · next hheld =>
    refine absurd (List.flatMap_eq_nil_iff.2 fun x _ => List.filterMap_eq_nil_iff.2 fun y _ => if_neg ?_) hheld
    simp only [hmode, Bool.false_and, Bool.false_eq_true, not_false_eq_true]

/-- What is left once walks are forgotten: routers alone have changed, and no log. -/
theorem forgetAll_keeps {s : State} (op : Nat) (rs : List (Nat × Nat × Bool × Bool × Nat × Nat)) :
    OnlyRouters s (rs.foldl (fun s x => s.forgetWalks op x.1) s) ∧ ∀ vd team seg idx ws, Logs s vd team seg idx ws →
      Logs (rs.foldl (fun s x => s.forgetWalks op x.1) s) vd team seg idx ws := by
  refine ⟨foldl_onlyRouters (fun t x => ?_) s rs, fun vd team seg idx ws h => ?_⟩
  · exact forgetWalks_onlyRouters t op x.1
  · exact List.foldlRecOn (motive := fun t => Logs t vd team seg idx ws) rs _ h fun t ht x _ => forgetWalks_logs ht op x.1

/-! ### The delivery (R296) -/

/-- The transfer's delivery of a record is over with a status. -/
def Forward.settle (idx st : Nat) (f : Forward) : Forward :=
  { f with todo := f.todo.filter fun y => y.idx != idx, status := worse f.status st }

/-- The delivery of a transfer that has begun stands at the threads' cores, by a route that leads there, with its units moved, its
pages cached, and room in the log of the receiver's router (R294, R296, R299). -/
structure Deliverable (s : State) (f : Forward) (x : Delivery) (path : List Nat) (team : Team) (oc rc l : Nat) (src : List Nat) :
    Prop where
  mode : ∀ k, (s.vd k).rmode.getLsbD 0 = false
  bound : s.findTeam (f.vk % 16) f.team = some team
  origin : fabCore s team (f.kind == 1) x.orig = some oc
  receiver : fabCore s team (f.kind == 2) x.recv = some rc
  meet : coresMeet s (f.vk % 16) oc rc = true
  note : f.naddr = 0
  srcWindow : sillageWindow x.saddr = true
  dstWindow : sillageWindow x.daddr = true
  filled : engFillRanges (engFillRanges s oc (f.vk % 16) [(x.saddr, f.len)]) rc (f.vk % 16) [(x.daddr, f.len)] = s
  route : s.follow (f.vk % 16) (pkgOf rc) (s.routerOf oc) path = some (s.routerOf rc)
  paid : ceilDiv f.len 64 ≤ x.paid
  room : (s.router (s.routerOf rc)).log.length < 512
  srcLocs : engLocs s oc (f.vk % 16) true false x.saddr f.len = some src
  dstLocs : engLocs s rc (f.vk % 16) false true x.daddr f.len = some (bytesAt l src.length)
  port : ∀ y ∈ (s.core (coreOf f.tid)).port, y.tid ≠ f.tid
  ue : s.ue = []
  ce : s.ce = []
  plain : ∀ y ∈ src ++ bytesAt l src.length, Plain y
  unwaited : Unwaited s

/-- The walks of a delivery without a notice. -/
abbrev deliveryWalks (f : Forward) (x : Delivery) (oc rc : Nat) : List (Nat × Nat × Bool × Bool × Nat × Nat) :=
  [(oc, f.vk % 16, true, false, x.saddr, f.len), (rc, f.vk % 16, false, true, x.daddr, f.len)]

section
variable {s : State} {f : Forward} {x : Delivery} {path : List Nat} {team : Team} {oc rc l : Nat} {src : List Nat}
  (h : Deliverable s f x path team oc rc l src)
include h

/-- The state once the bytes of a delivery are written. -/
theorem Deliverable.written : ∃ v, s.engWrite (f.vk % 16) (bytesAt l src.length) (src.map (memRead s.mem)) = (v, true) ∧
    OnlyMemory s v ∧ v.mem = memWriteN s.mem l (src.map (memRead s.mem)) := by
  have hlen : (src.map (memRead s.mem)).length = src.length := List.length_map ..
  have hplain : ∀ y ∈ bytesAt l (src.map (memRead s.mem)).length, Plain y := fun y hy =>
    h.plain y (List.mem_append_right _ (hlen ▸ hy))
  have hbytes := engWrite_bytes h.unwaited h.ue (f.vk % 16) l hplain
  have hok : (s.engWrite (f.vk % 16) (bytesAt l (src.map (memRead s.mem)).length) (src.map (memRead s.mem))).2 = true := by
    rw [engWrite_eq]
    refine foldl_engWriteRun_ok h.unwaited h.ue _ fun r hr => hplain _ ?_
    have hstart := byteRuns_start 64 _ r hr
    rwa [List.map_fst_zip (by rw [bytesAt_length])] at hstart
  rw [hlen] at hbytes hok
  exact ⟨_, Prod.ext rfl hok, hbytes⟩

/-- A delivery that nothing holds back writes its bytes, makes its record and is settled. -/
theorem Deliverable.deliver_eq : ∃ v rgen stid dtid,
    s.engWrite (f.vk % 16) (bytesAt l src.length) (src.map (memRead s.mem)) = (v, true) ∧
    deliver s f x path = (deliveryWalks f x oc rc).foldl (fun s x => s.forgetWalks f.id x.1)
      ((v.makeRecord (s.routerOf rc) ⟨vdKey (pkgOf rc) (f.vk % 16), f.team, f.seg, x.idx,
        recordOf f x rgen stid dtid path⟩).modForward f.id (Forward.settle x.idx stOk)) := by
  obtain ⟨v, hwrite, hv, -⟩ := h.written
  have hrouterOf : v.routerOf rc = s.routerOf rc := by
    have hpkgs : v.pkgs = s.pkgs := by rw [OnlyMemory] at hv; rw [hv]
    rw [State.routerOf, State.routerOf, pkg_congr hpkgs]
  have hgather := gatherBytes_sound h.ue fun y hy => (h.plain y (List.mem_append_left _ hy)).1
  have hmeets : s.meets (some (f.vk % 16)) src = s := countUe_sound h.ue h.ce ..
  have hnote : v.gatherBytes [] = some [] := rfl
  refine ⟨v, (v.pkg (pkgOf rc)).routeGen, tensorIdAt v (vdKey (pkgOf oc) (f.vk % 16)) x.saddr,
    tensorIdAt v (vdKey (pkgOf rc) (f.vk % 16)) x.daddr, hwrite, ?_⟩
  rw [deliver]
  simp only [h.bound, h.origin, h.receiver, h.meet, h.note, Bool.not_true, Bool.false_eq_true, if_false, if_true,
    List.append_nil]
  rw [withWalks_filled (rs := deliveryWalks f x oc rc) h.mode h.filled]
  simp only [h.srcWindow, h.dstWindow, h.srcLocs, h.dstLocs, h.route, engClear_alone h.port, Nat.not_lt.2 h.paid, hgather, hmeets,
    hwrite, hnote, meets_nil, engWrite_nil, hrouterOf, bne_self_eq_false, Bool.not_true, Bool.or_self, Bool.false_eq_true, if_false,
    if_true]
  rfl

end

/-! ### The record (R286, R297) -/

/-- A segment that has made a record. -/
def Segment.made (idx : Nat) (g : Segment) : Segment :=
  { g with records := if g.records.contains idx then g.records else g.records ++ [idx] }

theorem made_contains (idx : Nat) (g : Segment) : (g.made idx).records.contains idx = true := by
  rw [Segment.made]
  split
  · assumption
  · simp

theorem modSeg_findTeam {s : State} {vd num n : Nat} {team : Team} {g : Segment} (h : s.findTeam vd num = some team)
    (hg : tblFind team.segs n = some g) (f : Segment → Segment) :
    (s.modSeg vd num n f).findTeam vd num = some { team with segs := tblPut team.segs n (f g) } := by
  rw [State.modSeg, findTeam_modTeam h fun t => by split <;> rfl, hg]

/-- A record that its router's log has room for goes there. -/
theorem makeRecord_logs {s : State} {r : Nat} (hroom : (s.router r).log.length < 512) (e : LogEntry) :
    s.makeRecord r e =
      (s.modSeg (e.vk % 16) e.team e.seg (Segment.made e.idx)).modRouter r fun x => { x with log := x.log ++ [e] } := by
  rw [State.makeRecord]
  exact if_pos hroom

section
variable {s : State} {f : Forward} {x : Delivery} {path : List Nat} {team : Team} {oc rc l : Nat} {src : List Nat} {g : Segment}
  (h : Deliverable s f x path team oc rc l src) (hseg : tblFind team.segs f.seg = some g)
  (hnone : loggedAt s (f.vk % 16) f.team f.seg x.idx = none)
include h hseg hnone

/-- What a delivery leaves: its bytes at the receiver, its record in a log, and the transfer without it. -/
theorem Deliverable.delivered : let t := deliver s f x path
    StoresBytes s t l (src.map (memRead s.mem)) ∧
    t.forwards = (s.forwards.map fun y => if y.id = f.id then y.settle x.idx stOk else y) ∧ ∃ rgen stid dtid,
      ((t.findTeam (f.vk % 16) f.team).bind fun y => t.record y f.seg x.idx) = some (recordOf f x rgen stid dtid path) := by
  obtain ⟨v, rgen, stid, dtid, hwrite, hdeliver⟩ := h.deliver_eq
  obtain ⟨v', hwrite', hv, hmem⟩ := h.written
  obtain rfl : v = v' := congrArg Prod.fst (hwrite.symm.trans hwrite')
  have hrouters : v.routers = s.routers := by rw [OnlyMemory] at hv; rw [hv]
  have hteams : v.findTeam (f.vk % 16) f.team = some team := by
    rw [State.findTeam, show v.teams = s.teams by rw [OnlyMemory] at hv; rw [hv]]; exact h.bound
  have hroom : (v.router (s.routerOf rc)).log.length < 512 := by rw [State.router, hrouters]; exact h.room
  have hvd : vdKey (pkgOf rc) (f.vk % 16) % 16 = f.vk % 16 := by rw [vdKey]; omega
  obtain ⟨e, he⟩ : ∃ e : LogEntry, e = ⟨vdKey (pkgOf rc) (f.vk % 16), f.team, f.seg, x.idx, recordOf f x rgen stid dtid path⟩ :=
    ⟨_, rfl⟩
  have his : e.is (f.vk % 16) f.team f.seg x.idx = true := by
    rw [he, LogEntry.is, hvd]; simp
  rw [← he, makeRecord_logs hroom] at hdeliver
  obtain ⟨hworld, hlogs⟩ := forgetAll_keeps (s := ((v.modSeg (e.vk % 16) e.team e.seg (Segment.made e.idx)).modRouter (s.routerOf rc)
    fun x => { x with log := x.log ++ [e] }).modForward f.id (Forward.settle x.idx stOk)) f.id (deliveryWalks f x oc rc)
  rw [← hdeliver] at hworld hlogs
  have hunlogged : loggedAt (v.modSeg (e.vk % 16) e.team e.seg (Segment.made e.idx)) (f.vk % 16) f.team f.seg x.idx = none := by
    rw [loggedAt, show (v.modSeg (e.vk % 16) e.team e.seg (Segment.made e.idx)).routers = s.routers from hrouters]; exact hnone
  have hlogged := hlogs _ _ _ _ _ ((logs_of_put hunlogged (s.routerOf rc) his).congr (t := _) rfl)
  refine ⟨fun b => ?_, ?_, rgen, stid, dtid, ?_⟩
  · rw [hworld]
    show memRead v.mem b = _
    rw [hmem, memRead_writeN]
  · have hforwards : v.forwards = s.forwards := by rw [OnlyMemory] at hv; rw [hv]
    rw [hworld, ← hforwards]
    rfl
  · have hmade := modSeg_findTeam hteams hseg (Segment.made x.idx)
    have hfind : (deliver s f x path).findTeam (f.vk % 16) f.team = some { team with segs := tblPut team.segs f.seg (g.made x.idx) } := by
      rw [← hmade, hworld, he]
      show State.findTeam (v.modSeg (vdKey (pkgOf rc) (f.vk % 16) % 16) f.team f.seg (Segment.made x.idx)) _ _ = _
      rw [hvd]
    obtain ⟨hteamvd, hteamnum⟩ := findTeam_named h.bound
    rw [hfind, Option.bind_some]
    refine record_of_logs (g := g.made x.idx) ?_ (made_contains x.idx g) ?_
    · exact (tblFind_put ..).trans (if_pos rfl)
    · show Logs _ team.vd team.num f.seg x.idx _
      rw [hteamvd, hteamnum, show recordOf f x rgen stid dtid path = e.words by rw [he]]
      exact hlogged

end

end Sys2Proof.Machine
end

section
/-! O30: transfers are reserved, delivered and completed (R292 to R298). -/

namespace Sys2Proof.Machine

/-- Where no thread waits, setting a tag changes the bitmap alone (R261). -/
theorem setTag_alone {s : State} {gc vk : Nat} (h : tagWaiters s gc vk = []) (n st : Nat) :
    s.setTag gc vk n st = s.modTags gc vk fun g =>
      { bits := g.bits ||| (1#64 <<< (n % 64)), stat := g.stat.setIfInBounds (n % 64) (BitVec.ofNat 4 st) } := by
  rw [State.setTag, tagsChanged, tagWaiters_congr (s := s) (t := s.modTags ..) rfl rfl, h, List.foldl_nil]

/-- With nothing left to deliver a transfer leaves and sets its tag (R296). -/
theorem execSillageTransferComplete_done {s : State} {f : Forward} (hfind : (s.forwards.find? fun y => y.id = f.id) = some f)
    (hbegun : f.begun = true) (htodo : f.todo = []) :
    execSillageTransferComplete f.id s = .next
      ((({ s with forwards := s.forwards.filter fun x => x.id != f.id } : State).dropUnits fun _ u => u.op == f.id).setTag
        (coreOf f.tid) f.vk f.tag f.status) := by
  rw [execSillageTransferComplete]
  simp only [hfind, hbegun, htodo, List.isEmpty_nil, Bool.and_self, if_true]

/-- A delivery of a transfer that has begun. -/
theorem execSillageDelivery_begun {s : State} {f : Forward} {x : Delivery} (hfind : (s.forwards.find? fun y => y.id = f.id) = some f)
    (hbegun : f.begun = true) (hx : (f.todo.find? fun y => y.idx = x.idx) = some x) (path : List Nat) :
    execSillageDelivery f.id x.idx path s = .next (deliver s f x path) := by
  rw [execSillageDelivery]
  simp only [hfind, hbegun, hx, Bool.not_true, Bool.false_eq_true, if_false]

/-- Settles O30: the reservation by the form's checks, the delivery by the state that it leaves, and the completion by the tag's
setting. -/
theorem forwardTransfers : Obligations.ForwardTransfers := by
  unfold Obligations.ForwardTransfers
  intro sw tag a b cls ret kind n l oc rc team g f x src path s w i count
  refine ⟨fun hkind hp hgood haligned hinside hteam hseg hopen => ?_, fun hfind huniq => ⟨?_, ?_⟩⟩
  · have hw0 : w 0 = s.thr.getS a := congrArg s.thr.getS (sregAt_zero a)
    rw [hw0] at haligned hinside
    have h : ForwardRequest s kind a b team n g := ⟨hp, hgood, haligned, hinside, hteam, hseg, hopen⟩
    refine ⟨fun hroom => ?_, fun hfull htrap => forward_full h sw tag cls ret hkind hfull htrap⟩
    refine (forward_reserves h sw tag cls ret hkind hroom).imp fun t ht => ?_
    obtain ⟨hpass, hkept, hg, q, hq, hid, hk, htag, hlen, hfirst, hn, hsegment⟩ := ht
    exact ⟨hpass, hkept, hg, q, hq, hid, hk, htag, hlen, hfirst, hn, hsegment⟩
  · intro hbegun hlen hx hnote hbound _ _ hg horigin hreceiver hmeet hsrc hdst hfilled hroute hpaid hroom hnone hsrcLocs hdstLocs hport
      hue hce hmode hplain hwaiters
    have h : Deliverable s f x path team oc rc l src := ⟨hmode, hbound, horigin, hreceiver, hmeet, hnote, hsrc, hdst, hfilled, hroute,
      hpaid, hroom, hsrcLocs, hdstLocs, hport, hue, hce, hplain, (unwaited_iff s).1 hwaiters⟩
    obtain ⟨hbytes, hforwards, rgen, stid, dtid, hrecord⟩ := h.delivered hg hnone
    refine ⟨_, execSillageDelivery_begun hfind hbegun hx path, hbytes, fun y hy hid => ?_, _, hrecord, ?_⟩
    · rw [hforwards, List.mem_map] at hy
      obtain ⟨z, hz, rfl⟩ := hy
      by_cases hzid : z.id = f.id
      · rw [if_pos hzid, huniq z hz hzid]; rfl
      · rw [if_neg hzid] at hid; exact absurd hid hzid
    · exact ⟨recOrig_recordOf .., recSaddr_recordOf .., recDaddr_recordOf .., recKey_recordOf _ _ _ _ _ _ hlen, recLen_recordOf ..,
        fun hk hs hi => recHops_recordOf _ _ _ _ _ _ hk hs hi⟩
  · intro hbegun htodo hwaiters
    generalize hu : ({ s with forwards := s.forwards.filter fun x => x.id != f.id } : State).dropUnits (fun _ u => u.op == f.id) = u
    have hquiet : tagWaiters u (coreOf f.tid) f.vk = [] := by
      rw [tagWaiters_congr (s := s) (by rw [← hu]; rfl) (by rw [← hu]; rfl)]; exact hwaiters
    refine ⟨_, (execSillageTransferComplete_done hfind hbegun htodo).trans (by rw [hu]), ?_, ?_, setTag_bit hquiet ..,
      setTag_stat hquiet ..⟩
    · rw [(setTag_onlyTags ..).1, ← hu]; rfl
    · rw [setTag_alone hquiet, ← hu]; rfl

end Sys2Proof.Machine
end

section
/-! SUPPORT. Cases of the host: how an entry leaves its queue, and what each answer does (R289, R307, R357, R410, R420, R442). -/

namespace Sys2Proof.Machine

/-! ### States in which threads alone have changed -/

def OnlyThreads (s t : State) : Prop := t = { s with thr := t.thr, threads := t.threads }

theorem OnlyThreads.trans {s t u : State} (h : OnlyThreads s t) (h' : OnlyThreads t u) : OnlyThreads s u := by
  rw [OnlyThreads] at h h' ⊢; rw [h', h]

theorem foldl_onlyThreads {α : Type} (s : State) (xs : List α) (id : α → Nat) (f : α → Thread → Thread) :
    OnlyThreads s (xs.foldl (fun s x => s.modThread (id x) (f x)) s) :=
  List.foldlRecOn (motive := OnlyThreads s) xs _ rfl fun t ht x _ => ht.trans (modThread_world t (id x) (f x))

theorem beginStop_onlyThreads (s : State) (t : Team) : OnlyThreads s (beginStop s t) := foldl_onlyThreads ..

/-! ### An entry leaves its queue (R420) -/

/-- The queue without its head entry. -/
def Queue.passed (x : Queue) : Queue := { x with head := (x.head + 1) % 2 ^ x.log, waiting := none }

theorem modQueue_setsQueue {fn q : Nat} (s : State) (hq : q < 8) (f : Queue → Queue) :
    SetsQueue s (s.modQueue fn q f) fn q (f (s.queue fn q)) := by
  have hfn : ∀ k, (s.modQueue fn q f).fn k = if k = fn then { s.fn fn with
      queues := (s.fn fn).queues.setIfInBounds q (f (s.queue fn q)) } else s.fn k := fun k => tblGet_put ..
  have hself : (s.modQueue fn q f).fn fn = { s.fn fn with queues := (s.fn fn).queues.setIfInBounds q (f (s.queue fn q)) } :=
    (hfn fn).trans (if_pos rfl)
  refine ⟨?_, fun k hk => ?_, ⟨by rw [hself], by rw [hself]⟩, fun k hk => (hfn k).trans (if_neg hk), rfl⟩
  · rw [State.queue, hself, Vector.getElem?_setIfInBounds_self_of_lt hq, Option.getD_some]
  · rw [State.queue, hself, Vector.getElem?_setIfInBounds_ne (Ne.symm hk)]; rfl

theorem passHead_setsQueue {fn q : Nat} (s : State) (hq : q < 8) : SetsQueue s (s.passHead fn q) fn q (s.queue fn q).passed :=
  modQueue_setsQueue s hq _

/-- A queue is read from its function. -/
theorem queue_congr {s t : State} (h : t.fns = s.fns) (fn q : Nat) : t.queue fn q = s.queue fn q := by
  rw [State.queue, State.fn, h]; rfl

/-! ### Guard bands (R447) -/

/-- The guard step of a cluster. -/
abbrev State.guardStep (s : State) (pkg cl : Nat) : Nat := (tblGet (s.pkg pkg).wear cl Wear.blank).guard

theorem deferred_closeCase {s : State} {pkg cl : Nat} (h : deferred s pkg cl = false) (token : Nat) :
    deferred (s.closeCase token) pkg cl = false := by
  rw [deferred, List.any_eq_false] at h ⊢
  exact fun c hc => h c (List.mem_filter.1 hc).1

/-- Setting a guard step changes its package alone. -/
theorem setGuard_world (pkg cl g : Nat) (s : State) : setGuard pkg cl g s = { s with pkgs := (setGuard pkg cl g s).pkgs } := by
  
  rw [setGuard]
  generalize (if deferred s pkg cl = true then 20 else g) = d
  split <;> rfl

/-- The step that a cluster gets, which is 20 where its unit runs on for the host (R450). -/
theorem setGuard_guardStep (pkg cl g : Nat) (s : State) :
    (setGuard pkg cl g s).guardStep pkg cl = if deferred s pkg cl then 20 else g := by
  rw [setGuard]
  generalize (if deferred s pkg cl = true then 20 else g) = d
  split
  case isTrue h => exact h
  case isFalse =>
    rw [State.guardStep, modPkg_pkg_same]
    exact congrArg Wear.guard ((tblGet_put ..).trans (if_pos rfl))

/-! ### Walks (R410) -/

/-- The misses of a page have left a router; besides, only threads and that router's other fields may have changed. -/
structure DropsMiss (s t : State) (r vk page : Nat) : Prop where
  world : t = { s with thr := t.thr, threads := t.threads, routers := t.routers }
  misses : (t.router r).misses = (s.router r).misses.filter fun m => !(m.vk == vk && m.page == page)

section
variable {s t u : State} {r vk page : Nat} (h : DropsMiss s t r vk page)
include h

theorem DropsMiss.modRouter {f : Router → Router} (hf : ∀ x, (f x).misses = x.misses) : DropsMiss s (t.modRouter r f) r vk page := by
  obtain ⟨hworld, hmisses⟩ := h
  exact ⟨by rw [hworld]; rfl, by rw [router_modRouter, if_pos rfl, hf, hmisses]⟩

theorem DropsMiss.onlyThreads (hu : OnlyThreads t u) : DropsMiss s u r vk page := by
  obtain ⟨hworld, hmisses⟩ := h
  rw [OnlyThreads] at hu
  exact ⟨by rw [hu, hworld], by rw [← hmisses, State.router, State.router, hu]⟩

/-- The accesses and the operations that waited for the page end with a cause. -/
theorem DropsMiss.fail (ops : List (Nat × Nat × Nat)) (waiters : List Nat) (cause : Nat) :
    DropsMiss s (waiters.foldl (fun s t => s.modThread t fun x => { x with walkFail := x.walkFail ++ [(walkKey vk page, cause)] })
      (t.modRouter r fun r => { r with fails := r.fails ++ ops })) r vk page := by
  have hfails := h.modRouter (f := fun r => { r with fails := r.fails ++ ops }) fun _ => rfl
  exact hfails.onlyThreads (foldl_onlyThreads ..)

end

/-- A walk that is failed has its miss dropped, whether the page fills the cache or its accesses end. -/
theorem failWalk_dropsMiss {s : State} {r vk page : Nat} {m : Miss}
    (hm : ((s.router r).misses.find? fun m => m.vk == vk && m.page == page) = some m) :
    DropsMiss s (failWalk r vk page s) r vk page := by
  have hdrop : DropsMiss s (s.modRouter r fun r => { r with misses := r.misses.filter fun x => !(x.vk == vk && x.page == page) })
      r vk page := ⟨rfl, by rw [router_modRouter, if_pos rfl]⟩
  rw [failWalk]
  simp only [hm]
  split
  · split
    · exact hdrop.fail ..
    · refine hdrop.modRouter fun x => ?_
      rw [Router.fill]; split <;> rfl
  · exact hdrop.fail ..

end Sys2Proof.Machine
end

section
/-! SUPPORT. What the answers to a spill, a retrace, a pre-emption and a deconfiguration change (R289, R307, R357, R450). -/

namespace Sys2Proof.Machine

/-! ### A spill region (R289) -/

/-- Opening a segment changes teams alone, and rests on teams alone. -/
theorem openSegment_world (s : State) (t : Thread) (q : Nat) :
    (openSegment s t q).1 = { s with teams := (openSegment s t q).1.teams } ∧
      ∀ u : State, u.teams = s.teams → (openSegment u t q).2 = (openSegment s t q).2 := by
  have hfind : ∀ u : State, u.teams = s.teams → u.findTeam t.vd t.teamNum = s.findTeam t.vd t.teamNum := fun u hu => by
    rw [State.findTeam, hu]; rfl
  cases hteam : s.findTeam t.vd t.teamNum with
  | none =>
    have hnone : ∀ u : State, u.teams = s.teams → openSegment u t q = (u, 2) := fun u hu => by
      rw [openSegment, hfind u hu, hteam]
    exact ⟨by rw [hnone s rfl], fun u hu => by rw [hnone u hu, hnone s rfl]⟩
  | some team =>
    have hsome : ∀ u : State, u.teams = s.teams → u.findTeam t.vd t.teamNum = some team := fun u hu => (hfind u hu).trans hteam
    by_cases hq : q = 0 ∨ 2 ^ 26 ≤ q
    · have hrange : ∀ u : State, u.teams = s.teams → openSegment u t q = (u, 3) := fun u hu => openSegment_range (hsome u hu) hq
      exact ⟨by rw [hrange s rfl], fun u hu => by rw [hrange u hu, hrange s rfl]⟩
    · obtain ⟨hpos, hlt⟩ : 0 < q ∧ q < 2 ^ 26 := by omega
      have hfree := fun u hu => openSegment_free (hsome u hu) hpos hlt
      refine ⟨?_, fun u hu => ?_⟩
      · rw [hfree s rfl]
        cases freeSeg team with
        | none => rfl
        | some g => dsimp only; split <;> rfl
      · rw [hfree u hu, hfree s rfl]
        cases freeSeg team with
        | none => rfl
        | some g => dsimp only; split <;> rfl

/-- Opening a segment leaves its team's spill region. -/
theorem openSegment_spill {s : State} {t : Thread} {team : Team} (h : s.findTeam t.vd t.teamNum = some team) (q : Nat) :
    ∃ z, (openSegment s t q).1.findTeam t.vd t.teamNum = some z ∧ z.spill = team.spill := by
  rw [openSegment, h]
  dsimp only
  split
  · exact ⟨team, h, rfl⟩
  split
  · exact ⟨team, h, rfl⟩
  split
  · exact ⟨team, h, rfl⟩
  · exact ⟨_, findTeam_modTeam h fun _ => rfl, rfl⟩

/-- The end of a TAPEOPEN's hold at its thread. -/
theorem endSpill_thread {s : State} (hk : s.Keyed) (tid : Nat) (r : Word) :
    (endSpill s tid r).thread tid = { s.thread tid with wait := .hold 2 true r } := modThread_thread hk rfl

theorem endSpill_onlyThreads (s : State) (tid : Nat) (r : Word) : OnlyThreads s (endSpill s tid r) := modThread_world ..

/-! ### Stopping teams (R357, R450) -/

/-- Threads, teams and cases alone have changed. -/
def OnlyStops (s t : State) : Prop := t = { s with thr := t.thr, threads := t.threads, teams := t.teams, cases := t.cases }

theorem OnlyStops.trans {s t u : State} (h : OnlyStops s t) (h' : OnlyStops t u) : OnlyStops s u := by
  rw [OnlyStops] at h h' ⊢; rw [h', h]

theorem beginStop_onlyStops {s t : State} (h : OnlyStops s t) (team : Team) : OnlyStops s (beginStop t team) := by
  have hstop := beginStop_onlyThreads t team
  rw [OnlyStops] at h ⊢
  rw [OnlyThreads] at hstop
  rw [hstop, h]

theorem forceDiscard_onlyStops (action : Nat) (s : State) (t : Team) : OnlyStops s (forceDiscard action s t) := by
  rw [forceDiscard]
  split
  · rfl
  split
  · refine beginStop_onlyStops ?_ t; rfl
  · split
    · rfl
    · refine beginStop_onlyStops ?_ t; rfl

/-- The host's case of a team's pre-emption is over, and its request has become `p`. -/
def State.decidePre (s : State) (vd num : Nat) (p : PreReq) : State :=
  { (dropCase vd num s).modTeam vd num fun t => { t with pre := some p } with free := s.free + 1 }

theorem startAction_eq (s : State) (t : Team) (p : PreReq) {c : Nat × Bool} (hc : c.1 ≠ 1) (byHost : Bool) :
    startAction s t p c byHost =
      beginStop (s.decidePre t.vd t.num { p with action := c.1, late := c.2, byHost := byHost, token := none }) t := by
  rw [startAction, if_neg hc]; rfl

/-- A discard or a save that begins is the team's pre-emption (R357). -/
theorem startAction_pre {s : State} {vd num : Nat} {t : Team} (h : s.findTeam vd num = some t) (p : PreReq) {c : Nat × Bool}
    (hc : c.1 ≠ 1) (byHost : Bool) : let u := startAction s t p c byHost
    (∃ z, u.findTeam vd num = some z ∧ z.pre = some { p with action := c.1, late := c.2, byHost := byHost, token := none }) ∧
      u.fns = s.fns := by
  obtain ⟨hvd, hnum⟩ := findTeam_named h
  rw [startAction_eq s t p hc, hvd, hnum]
  generalize ({ p with action := c.1, late := c.2, byHost := byHost, token := none } : PreReq) = p'
  have hstop : OnlyThreads (s.decidePre vd num p') (beginStop (s.decidePre vd num p') t) := beginStop_onlyThreads ..
  have hfind : (s.decidePre vd num p').findTeam vd num = some { t with pre := some p' } :=
    findTeam_modTeam (s := dropCase vd num s) h fun _ => rfl
  rw [OnlyThreads] at hstop
  exact ⟨⟨_, by rw [← hfind, hstop]; rfl, rfl⟩, by rw [hstop]; rfl⟩

/-! ### A worn-out unit (R450) -/

theorem tblFind_filter_ne {α : Type} (t : Tbl α) {P : Nat → Bool} {k : Nat} (hk : P k = false) :
    tblFind (t.filter fun e => P e.1) k = none := by
  rw [Option.eq_none_iff_forall_ne_some]
  intro x hx
  have hmem := (List.mem_filter.1 (mem_of_tblFind hx)).2
  exact Bool.false_ne_true (hk.symm.trans hmem)

/-- The slot map of a VD without cores. -/
def Vd.without (v : Vd) (cores : List Nat) : Vd := { v with slotMap := v.slotMap.filter fun e => !cores.contains e.1 }

/-- The VDs of a package lose the slots of cores. -/
def State.unmapCores (s : State) (pkg : Nat) (cores : List Nat) : State :=
  { s with vds := s.vds.map fun e => (e.1, if e.1 / 16 = pkg then e.2.without cores else e.2) }

theorem unmapCores_slot {s : State} {pkg v k : Nat} {cores : List Nat} (hv : v < 16) (hk : k ∈ cores) :
    tblFind ((s.unmapCores pkg cores).vd (vdKey pkg v)).slotMap k = none := by
  have hpkg : vdKey pkg v / 16 = pkg := by rw [vdKey]; omega
  rw [State.vd, tblGet, State.unmapCores, tblFind_map (fun e (x : Vd) => if e / 16 = pkg then x.without cores else x)]
  cases tblFind s.vds (vdKey pkg v) with
  | none => rfl
  | some x =>
    rw [Option.map_some, Option.getD_some, if_pos hpkg]
    exact tblFind_filter_ne x.slotMap (P := fun e => !cores.contains e) (by simpa using hk)

/-- A deconfiguration takes the cores' slots and stops the teams that stand there. -/
theorem deconfigure_eq (pkg cl : Nat) (core : Option Nat) (s : State) : deconfigure pkg cl core s =
    (unitTeams s pkg (unitCores (s.pkg pkg) cl core)).foldl (forceDiscard 2) (s.unmapCores pkg (unitCores (s.pkg pkg) cl core)) := by
  refine congrArg (fun vds => (unitTeams s pkg (unitCores (s.pkg pkg) cl core)).foldl (forceDiscard 2) { s with vds := vds })
    (List.map_congr_left fun e _ => ?_)
  exact (apply_ite (Prod.mk e.1) ..).symm

theorem deconfigure_keeps (pkg cl : Nat) (core : Option Nat) (s : State) : (deconfigure pkg cl core s).fns = s.fns ∧
    ∀ v < 16, ∀ k ∈ unitCores (s.pkg pkg) cl core, tblFind ((deconfigure pkg cl core s).vd (vdKey pkg v)).slotMap k = none := by
  rw [deconfigure_eq]
  generalize unitTeams s pkg (unitCores (s.pkg pkg) cl core) = ts
  have hstops : OnlyStops (s.unmapCores pkg (unitCores (s.pkg pkg) cl core))
      (ts.foldl (forceDiscard 2) (s.unmapCores pkg (unitCores (s.pkg pkg) cl core))) :=
    List.foldlRecOn (motive := OnlyStops _) ts _ rfl fun t ht x _ => ht.trans (forceDiscard_onlyStops 2 t x)
  rw [OnlyStops] at hstops
  rw [hstops]
  exact ⟨rfl, fun v hv k hk => unmapCores_slot hv hk⟩

end Sys2Proof.Machine
end

section
/-! SUPPORT. Each answer of the host in its state: what it decides, and when it is refused (R289, R307, R357, R410, R420, R447,
R450). -/

namespace Sys2Proof.Machine

variable {s : State} {fn token : Nat} {val : Word}

/-- The cases of the host without the one of a token. -/
abbrev State.casesWithout (s : State) (token : Nat) : List HostCase :=
  s.cases.filter fun c => c.token != token || c.kind.isPreempt

/-! ### A walk (R410) -/

section
variable {r vk page : Nat} {m : Miss}

theorem answerWalk_retry (hm : m ∈ (s.router r).misses) (hheld : m.held = some token) : let t := answerWalk s fn token r vk page 1
    t.fns = s.fns ∧ t.cases = s.casesWithout token ∧ { m with held := none, retried := true } ∈ (t.router r).misses ∧
      t.mem = s.mem := by
  rw [answerWalk, if_pos rfl]
  refine ⟨rfl, rfl, ?_, rfl⟩
  rw [router_modRouter, if_pos rfl]
  exact List.mem_map.2 ⟨m, hm, if_pos hheld⟩

theorem answerWalk_fail (hm : ((s.router r).misses.find? fun m => m.vk == vk && m.page == page) = some m) :
    let t := answerWalk s fn token r vk page 0
    t.fns = s.fns ∧ t.cases = s.casesWithout token ∧ t.mem = s.mem ∧
      (t.router r).misses = (s.router r).misses.filter fun m => !(m.vk == vk && m.page == page) := by
  obtain ⟨hworld, hmisses⟩ := failWalk_dropsMiss (s := s.closeCase token) hm
  rw [answerWalk, if_neg (by decide), if_pos rfl]
  exact ⟨by rw [hworld]; rfl, by rw [hworld]; rfl, by rw [hworld]; rfl, hmisses⟩

/-- What is neither 0 nor 1 is refused. -/
theorem toNat_gt_one (h : 1 < val.toNat) : val ≠ 1 ∧ val ≠ 0 := by
  constructor <;> rintro rfl <;> exact absurd h (by decide)

theorem answerWalk_refused (h : 1 < val.toNat) : answerWalk s fn token r vk page val = refuseAnswer s fn := by
  obtain ⟨hone, hzero⟩ := toNat_gt_one h
  rw [answerWalk, if_neg hone, if_neg hzero]

end

/-! ### A guard band (R447) -/

section
variable {pkg cl : Nat} {core : Option Nat}

/-- A guard step that is set once the case is closed. -/
theorem setGuard_closed (hnot : deferred s pkg cl = false) (g : Nat) : let t := setGuard pkg cl g (s.closeCase token)
    t.fns = s.fns ∧ t.cases = s.casesWithout token ∧ t.guardStep pkg cl = g ∧ t.mem = s.mem := by
  have hworld := setGuard_world pkg cl g (s.closeCase token)
  have hstep := setGuard_guardStep pkg cl g (s.closeCase token)
  rw [deferred_closeCase hnot] at hstep
  exact ⟨by rw [hworld]; rfl, by rw [hworld]; rfl, hstep, by rw [hworld]; rfl⟩

theorem answerGuard_sets (hlow : calledFor s pkg cl ≤ val.toNat) (hhigh : val.toNat ≤ 20) :
    answerGuard s fn token pkg cl val = setGuard pkg cl val.toNat (s.closeCase token) := by
  rw [answerGuard, if_pos (by simp [hlow, hhigh])]

theorem answerGuard_refused (h : val.toNat < calledFor s pkg cl ∨ 20 < val.toNat) :
    answerGuard s fn token pkg cl val = refuseAnswer s fn := by
  rw [answerGuard, if_neg]
  rw [Bool.and_eq_true, decide_eq_true_eq, decide_eq_true_eq]
  omega

/-! ### A worn-out unit (R450) -/

theorem answerDeconf_defers : let t := answerDeconf s fn token pkg cl core 0
    t.fns = s.fns ∧ t.guardStep pkg cl = 20 ∧ t.mem = s.mem ∧ t.vds = s.vds ∧ t.cases = s.cases.map fun y =>
      if y.token = token && !y.kind.isPreempt then { y with answer := some 0 } else y := by
  rw [answerDeconf, if_neg (by decide), if_pos rfl]
  generalize hu : ({ s with cases := s.cases.map fun c =>
    if c.token = token && !c.kind.isPreempt then { c with answer := some 0 } else c } : State) = u
  have hworld := setGuard_world pkg cl 20 u
  have hstep : (setGuard pkg cl 20 u).guardStep pkg cl = 20 := (setGuard_guardStep ..).trans (ite_self 20)
  exact ⟨by rw [hworld, ← hu], hstep, by rw [hworld, ← hu], by rw [hworld, ← hu], by rw [hworld, ← hu]⟩

theorem answerDeconf_refused (h : 1 < val.toNat) : answerDeconf s fn token pkg cl core val = refuseAnswer s fn := by
  obtain ⟨hone, hzero⟩ := toNat_gt_one h
  rw [answerDeconf, if_neg hone, if_neg hzero]

end

/-! ### A pre-emption (R357) -/

section
variable {vd num : Nat} {t : Team} {p : PreReq} (hteam : s.findTeam vd num = some t) (hpre : t.pre = some p) (hopen : p.action = 0)
include hteam hpre hopen

theorem answerPre_refused (hno : p.allow.getLsbD 1 = false) : answerPre s fn vd num 2 = refuseAnswer s fn := by
  simp only [answerPre, hteam, hpre, hopen, mayDiscard, hno]
  rfl

theorem answerPre_discards (hmay : p.allow.getLsbD 1 = true) : answerPre s fn vd num 2 = startAction s t p (2, false) true := by
  simp only [answerPre, hteam, hpre, hopen, mayDiscard, hmay]
  rfl

end

/-! ### A lost record's origin (R307) -/

/-- A retrace of the thread has no seat for the answer's fabric number in its team. -/
def NoSeat (s : State) (tid fab : Nat) : Prop :=
  ∃ r ∈ s.retraces, r.tid = tid ∧ ∃ z, s.findTeam (r.vk % 16) r.team = some z ∧ z.seat fab = none

section
variable {tid key : Nat}

theorem noSeat_iff (s : State) (tid fab : Nat) : (s.retraces.any fun r => r.tid == tid &&
    match s.findTeam (r.vk % 16) r.team with | some t => (t.seat fab).isNone | none => false) = true ↔ NoSeat s tid fab := by
  rw [List.any_eq_true, NoSeat]
  refine exists_congr fun r => and_congr_right fun _ => ?_
  rw [Bool.and_eq_true, beq_iff_eq]
  refine and_congr_right fun _ => ?_
  cases s.findTeam (r.vk % 16) r.team <;> simp

theorem answerRetrace_refused (h : NoSeat s tid val.toNat) : answerRetrace s fn token tid key val = refuseAnswer s fn := by
  rw [answerRetrace]
  exact if_pos ((noSeat_iff ..).2 h)

/-- A queued retrace of the thread takes a new origin for the record of a key. -/
def Retrace.rerouted (s : State) (tid key fab : Nat) (r : Retrace) : Retrace :=
  if r.tid = tid && r.phase = 0 && r.seg = key / 2 ^ 26 then
    { r with recs := r.recs.map fun x => if x.idx = key % 2 ^ 26 then { x with origin := fab, out := !(
        match s.findTeam (r.vk % 16) r.team with
        | some t => originReached s t r.seg (key % 2 ^ 26) fab
        | none => false) } else x }
  else r

theorem rerouted_origin {fab : Nat} {r : Retrace} (htid : (r.rerouted s tid key fab).tid = tid)
    (hphase : (r.rerouted s tid key fab).phase = 0) (hseg : (r.rerouted s tid key fab).seg = key / 2 ^ 26) :
    ∀ y ∈ (r.rerouted s tid key fab).recs, y.idx = key % 2 ^ 26 → y.origin = fab := by
  intro y hy hidx
  rw [Retrace.rerouted] at htid hphase hseg hy
  split at hy
  case isTrue h =>
    obtain ⟨x, -, rfl⟩ := List.mem_map.1 hy
    by_cases hx : x.idx = key % 2 ^ 26
    · rw [if_pos hx]
    · rw [if_neg hx] at hidx; exact absurd hidx hx
  case isFalse h =>
    rw [if_neg h] at htid hphase hseg
    exact absurd (by simp [htid, hphase, hseg]) h

/-- An origin that is a thread of the team becomes that of the lost record's entries. -/
theorem answerRetrace_replaces (h : ¬ NoSeat s tid val.toNat) : let t := answerRetrace s fn token tid key val
    t.fns = s.fns ∧ t.cases = s.casesWithout token ∧ ∀ r ∈ t.retraces, r.tid = tid → r.phase = 0 → r.seg = key / 2 ^ 26 →
      ∀ y ∈ r.recs, y.idx = key % 2 ^ 26 → y.origin = val.toNat := by
  have ht : answerRetrace s fn token tid key val =
      { s.closeCase token with retraces := s.retraces.map (Retrace.rerouted s tid key val.toNat) } :=
    if_neg fun hany => h ((noSeat_iff s tid val.toNat).1 hany)
  rw [ht]
  refine ⟨rfl, rfl, fun r hr htid hphase hseg => ?_⟩
  obtain ⟨r, -, rfl⟩ := List.mem_map.1 hr
  exact rerouted_origin htid hphase hseg

end

/-! ### A spill region's new size (R289) -/

/-- The case of a TAPEOPEN is over, its team has a spill region, and its hold ends with what that region has room for (R289). -/
def State.respill (s : State) (token tid quota : Nat) (w : Word) : State :=
  let o := openSegment ((s.closeCase token).modTeam (s.thread tid).vd (s.thread tid).teamNum fun x => { x with spill := w })
    (s.thread tid) quota
  endSpill o.1 tid o.2

theorem respill_keeps {tid : Nat} {team : Team} (hk : s.Keyed)
    (hteam : s.findTeam (s.thread tid).vd (s.thread tid).teamNum = some team) (quota : Nat) (w : Word) :
    let t := s.respill token tid quota w
    t.fns = s.fns ∧ t.cases = s.casesWithout token ∧ (∃ r, (t.thread tid).wait = .hold 2 true r) ∧
      ∃ z, t.findTeam (s.thread tid).vd (s.thread tid).teamNum = some z ∧ z.spill = w := by
  rw [State.respill]
  generalize hu : (s.closeCase token).modTeam (s.thread tid).vd (s.thread tid).teamNum (fun x => { x with spill := w }) = u
  have hgrown : u.findTeam (s.thread tid).vd (s.thread tid).teamNum = some { team with spill := w } := by
    rw [← hu]; exact findTeam_modTeam (s := s.closeCase token) hteam fun _ => rfl
  obtain ⟨hworld, -⟩ := openSegment_world u (s.thread tid) quota
  obtain ⟨z, hz, hspill⟩ := openSegment_spill hgrown quota
  generalize openSegment u (s.thread tid) quota = o at hworld hz
  have hkeyed : o.1.Keyed := by
    show ∀ e ∈ o.1.threads, e.2.id = e.1
    rw [hworld, ← hu]; exact hk
  have hstop := endSpill_onlyThreads o.1 tid o.2
  rw [OnlyThreads] at hstop
  refine ⟨by rw [hstop, hworld, ← hu]; rfl, by rw [hstop, hworld, ← hu]; rfl, ⟨o.2, ?_⟩, z, ?_, hspill⟩
  · rw [endSpill_thread hkeyed]
  · rw [← hz, hstop]; rfl

/-- A larger region below the end of VD space whose added pages are mapped is the team's (R289). -/
theorem answerSpill_grows {tid quota old base : Nat} {team : Team}
    (hteam : s.findTeam (s.thread tid).vd (s.thread tid).teamNum = some team)
    (hold : field team.spill 63 40 = old) (hbase : field team.spill 39 12 * 4096 = base)
    (hlow : old ≤ val.toNat) (hhigh : val.toNat < 2 ^ 24) (hend : base + val.toNat * 4096 ≤ remapBase)
    (hmapped : pagesMapped s (s.thread tid).vk (base + old * 4096) ((val.toNat - old) * 4096) (fun l => l.r && l.w) = true) :
    answerSpill s token tid quota val = s.respill token tid quota (ofN (val.toNat * 2 ^ 40 + base)) := by
  have hadmitted : ¬ ((decide (val.toNat < old) || decide (2 ^ 24 ≤ val.toNat) ||
      decide (remapBase < base + val.toNat * 4096) || !true) = true) := by
    simp only [Bool.not_true, Bool.or_false, Bool.or_eq_true, decide_eq_true_eq]
    omega
  rw [answerSpill]
  dsimp only
  rw [hteam]
  dsimp only
  rw [hold, hbase, hmapped, if_neg hadmitted, State.respill]

end Sys2Proof.Machine
end

section
/-! O49: an answer of the host decides its case, is refused outside its limits, and without one the case goes on by itself (R289,
R307, R357, R410, R420, R442, R447, R450). -/

namespace Sys2Proof.Machine

/-! ### What an answer and a time limit come to -/

/-- A case as an answer in time leaves the state. -/
def State.answered (s : State) (fn : Nat) (c : HostCase) (val : Word) : State :=
  match c.kind with
  | .spill tid quota => answerSpill s c.token tid quota val
  | .retrace tid key => answerRetrace s fn c.token tid key val
  | .preempt vd team => answerPre s fn vd team val
  | .walk router vk page => answerWalk s fn c.token router vk page val
  | .guard pkg cl _ => answerGuard s fn c.token pkg cl val
  | .deconf pkg cl core => answerDeconf s fn c.token pkg cl core val

section
variable {s : State} {fn q : Nat} {e : List Byte} {c : HostCase} (hentry : entryOfType s fn q 6 = some e)
include hentry

theorem answer_unnamed (hnone : (s.cases.find? fun c => c.token == numAt e 8 8 && c.fn == fn) = none) :
    exec (.answer fn q) s = .next (s.passHead fn q) := by
  show execAnswer fn q s = _
  rw [execAnswer, hentry]
  dsimp only
  rw [show (s.passHead fn q).cases = s.cases from rfl, hnone]

variable (hfound : (s.cases.find? fun c => c.token == numAt e 8 8 && c.fn == fn) = some c)
include hfound

/-- The case of an answer is one of the answer's function. -/
theorem answer_found : execAnswer fn q s = .next (if c.until_ < s.time (fn / 32) then s.passHead fn q
    else (s.passHead fn q).answered fn c (ofN (numAt e 16 8))) := by
  have hnamed := List.find?_some hfound
  have hfn : c.fn = fn := beq_iff_eq.1 (Bool.and_eq_true_iff.1 hnamed).2
  rw [execAnswer, hentry]
  dsimp only
  rw [show (s.passHead fn q).cases = s.cases from rfl, hfound]
  dsimp only
  rw [casePkg, hfn]
  rfl

theorem answer_late (hlate : c.until_ < s.time (fn / 32)) : exec (.answer fn q) s = .next (s.passHead fn q) :=
  (answer_found hentry hfound).trans (by rw [if_pos hlate])

theorem answer_inTime (hin : s.time (fn / 32) ≤ c.until_) :
    exec (.answer fn q) s = .next ((s.passHead fn q).answered fn c (BitVec.ofNat 64 (numAt e 16 8))) :=
  (answer_found hentry hfound).trans (by rw [if_neg (Nat.not_lt.2 hin)]; rfl)

end

/-- A case as the end of its time leaves the state. -/
def State.timedOut (s : State) (c : HostCase) : State :=
  match c.kind with
  | .spill tid quota => endSpill (openSegment (s.closeCase c.token) (s.thread tid) quota).1 tid
      (openSegment (s.closeCase c.token) (s.thread tid) quota).2
  | .retrace _ _ => s.closeCase c.token
  | .preempt vd team => match execPreemptDeadline vd team s with
    | .next s' => s'
    | _ => s
  | .walk router vk page => failWalk router vk page (s.closeCase c.token)
  | .guard pkg cl _ => setGuard pkg cl (calledFor s pkg cl) (s.closeCase c.token)
  | .deconf _ _ _ => s

/-- Without an answer a case goes on as in hardware mode (R442). -/
theorem timeout_over {s : State} {c : HostCase} (hcase : (s.cases.find? fun x => x.token == c.token) = some c)
    (hover : c.until_ < s.time (c.fn / 32)) : exec (.hostAnswerTimeout c.token) s = .next (s.timedOut c) := by
  show execHostAnswerTimeout c.token s = _
  rw [execHostAnswerTimeout, hcase]
  dsimp only
  rw [casePkg, if_neg (Nat.not_le.2 hover)]
  rfl

/-! ### Each kind of case in time, and over -/

section
variable {s : State} {fn : Nat} {c : HostCase} {val : Word}

theorem answered_walk {r vk page : Nat} (h : c.kind = .walk r vk page) :
    s.answered fn c val = answerWalk s fn c.token r vk page val := by rw [State.answered, h]
theorem answered_guard {pkg cl step : Nat} (h : c.kind = .guard pkg cl step) :
    s.answered fn c val = answerGuard s fn c.token pkg cl val := by rw [State.answered, h]
theorem answered_deconf {pkg cl : Nat} {core : Option Nat} (h : c.kind = .deconf pkg cl core) :
    s.answered fn c val = answerDeconf s fn c.token pkg cl core val := by rw [State.answered, h]
theorem answered_preempt {vd team : Nat} (h : c.kind = .preempt vd team) :
    s.answered fn c val = answerPre s fn vd team val := by rw [State.answered, h]
theorem answered_retrace {tid key : Nat} (h : c.kind = .retrace tid key) :
    s.answered fn c val = answerRetrace s fn c.token tid key val := by rw [State.answered, h]
theorem answered_spill {tid quota : Nat} (h : c.kind = .spill tid quota) :
    s.answered fn c val = answerSpill s c.token tid quota val := by rw [State.answered, h]

theorem timedOut_spill {tid quota : Nat} (hk : s.Keyed) (h : c.kind = .spill tid quota) : let t := s.timedOut c
    t.cases = s.casesWithout c.token ∧
      t.thread tid = { s.thread tid with wait := .hold 2 true (openSegment s (s.thread tid) quota).2 } ∧ t.mem = s.mem := by
  rw [State.timedOut, h]
  dsimp only
  obtain ⟨hworld, -⟩ := openSegment_world (s.closeCase c.token) (s.thread tid) quota
  have hresult := (openSegment_world s (s.thread tid) quota).2 (s.closeCase c.token) rfl
  generalize openSegment (s.closeCase c.token) (s.thread tid) quota = o at hworld hresult
  have hkeyed : o.1.Keyed := by
    show ∀ e ∈ o.1.threads, e.2.id = e.1
    rw [hworld]; exact hk
  have hthread : o.1.thread tid = s.thread tid := by rw [hworld]; rfl
  have hstop := endSpill_onlyThreads o.1 tid o.2
  rw [OnlyThreads] at hstop
  refine ⟨by rw [hstop, hworld]; rfl, ?_, by rw [hstop, hworld]; rfl⟩
  rw [endSpill_thread hkeyed, hthread, hresult]

theorem timedOut_walk {r vk page : Nat} {m : Miss} (h : c.kind = .walk r vk page)
    (hm : ((s.router r).misses.find? fun m => m.vk == vk && m.page == page) = some m) : let t := s.timedOut c
    t.cases = s.casesWithout c.token ∧ t.mem = s.mem ∧
      (t.router r).misses = (s.router r).misses.filter fun m => !(m.vk == vk && m.page == page) := by
  obtain ⟨hworld, hmisses⟩ := failWalk_dropsMiss (s := s.closeCase c.token) hm
  rw [State.timedOut, h]
  dsimp only
  exact ⟨by rw [hworld]; rfl, by rw [hworld]; rfl, hmisses⟩

end

/-- What an answer leaves of functions, its queue has without the entry. -/
theorem passes_of {s t : State} {fn q : Nat} (hq : q < 8) (h : t.fns = (s.passHead fn q).fns) :
    t.queue fn q = (s.queue fn q).passed := (queue_congr h fn q).trans (passHead_setsQueue s hq).value

/-- Settles O49: an answer in time by its case's own rule, and the end of the time by the same rules. -/
theorem hostCases : Obligations.HostCases := by
  unfold Obligations.HostCases
  intro fn q e c y p m s hk val found closed guardOf called outside
  refine ⟨fun hentry hq => ?_, fun hcase hover => ?_⟩
  · intro x go passes refuses
    have hpass := passHead_setsQueue (fn := fn) s hq
    refine ⟨fun hnone => ⟨_, answer_unnamed hentry hnone, hpass⟩,
      fun hfound hlate => ⟨_, answer_late hentry hfound hlate, hpass⟩, fun hfound hin => ?_⟩
    have hgo := answer_inTime hentry hfound hin
    have hrefuses : (s.passHead fn q).answered fn c val = refuseAnswer (s.passHead fn q) fn → go refuses :=
      fun h => ⟨_, hgo.trans (congrArg _ h), _, hpass, rfl⟩
    have hpasses : ∀ t : State, t.fns = (s.passHead fn q).fns → passes t := fun t ht => passes_of hq ht
    refine ⟨fun r vk page hkind hval hm hheld => ?_, fun r vk page hkind hval hm => ?_, fun r vk page hkind hval =>
      hrefuses ((answered_walk hkind).trans (answerWalk_refused hval)), fun pkg cl step hkind hnot hlow hhigh => ?_,
      fun pkg cl step hkind hval => hrefuses ((answered_guard hkind).trans (answerGuard_refused hval)),
      fun pkg cl core hkind => ⟨fun hval => ?_, fun hval => ?_, fun hval =>
        hrefuses ((answered_deconf hkind).trans (answerDeconf_refused hval))⟩,
      fun vd team hkind hteam hpre hopen hno hval => ?_, fun vd team hkind hteam hpre hopen hmay hval => ?_,
      fun tid key hkind hout => hrefuses ((answered_retrace hkind).trans (answerRetrace_refused hout)),
      fun tid key hkind hout => ?_, fun tid quota hkind hteam => ?_⟩
    case refine_1 =>
      obtain ⟨hfns, hcases, hmiss, hmem⟩ := answerWalk_retry (s := s.passHead fn q) (fn := fn) (r := r) (vk := vk) (page := page) hm hheld
      exact ⟨_, hgo.trans (congrArg _ ((answered_walk hkind).trans (congrArg _ hval))), hpasses _ hfns, hcases, hmiss, hmem⟩
    case refine_2 =>
      obtain ⟨hfns, hcases, hmem, hmisses⟩ := answerWalk_fail (s := s.passHead fn q) (fn := fn) (token := c.token) hm
      exact ⟨_, hgo.trans (congrArg _ ((answered_walk hkind).trans (congrArg _ hval))), hpasses _ hfns, hcases, hmem, hmisses⟩
    case refine_3 =>
      obtain ⟨hfns, hcases, hstep, hmem⟩ := setGuard_closed (s := s.passHead fn q) (token := c.token) hnot val.toNat
      exact ⟨_, hgo.trans (congrArg _ ((answered_guard hkind).trans (answerGuard_sets hlow hhigh))), hpasses _ hfns, hcases, hstep, hmem⟩
    case refine_4 =>
      obtain ⟨hfns, hslots⟩ := deconfigure_keeps pkg cl core ((s.passHead fn q).closeCase c.token)
      exact ⟨_, hgo.trans (congrArg _ ((answered_deconf hkind).trans (if_pos hval))), hpasses _ hfns, hslots⟩
    case refine_5 =>
      obtain ⟨hfns, hstep, hmem, hvds, hcases⟩ := answerDeconf_defers (s := s.passHead fn q) (fn := fn) (token := c.token) (pkg := pkg)
        (cl := cl) (core := core)
      refine ⟨_, hgo.trans (congrArg _ ((answered_deconf hkind).trans (congrArg _ hval))), hpasses _ hfns, hstep, hmem, hvds, ?_⟩
      rw [hcases]
      exact List.map_congr_left fun y _ => by simp
    case refine_6 =>
      exact hrefuses ((answered_preempt hkind).trans ((congrArg _ hval).trans
        (answerPre_refused (s := s.passHead fn q) hteam hpre hopen hno)))
    case refine_7 =>
      obtain ⟨hstarted, hfns⟩ := startAction_pre (s := s.passHead fn q) hteam p (c := (2, false)) (by decide) true
      exact ⟨_, hgo.trans (congrArg _ ((answered_preempt hkind).trans ((congrArg _ hval).trans
        (answerPre_discards (s := s.passHead fn q) hteam hpre hopen hmay)))), hpasses _ hfns, hstarted⟩
    case refine_8 =>
      obtain ⟨hfns, hcases, horigins⟩ := answerRetrace_replaces (s := s.passHead fn q) (fn := fn) (token := c.token) (key := key) hout
      exact ⟨_, hgo.trans (congrArg _ (answered_retrace hkind)), hpasses _ hfns, hcases, horigins⟩
    case refine_9 =>
      intro old base hlow hhigh hend hmapped
      obtain ⟨hfns, hcases, hhold, hspill⟩ := respill_keeps (s := s.passHead fn q) (token := c.token) hk hteam quota
        (ofN (val.toNat * 2 ^ 40 + base))
      exact ⟨_, hgo.trans (congrArg _ ((answered_spill hkind).trans (answerSpill_grows (s := s.passHead fn q) hteam
        (field_spillSize y.spill) (congrArg (· * 4096) (field_spillBase y.spill)) hlow hhigh hend hmapped))), hpasses _ hfns, hcases,
        hhold, hspill⟩
  · intro go
    have hgo := timeout_over hcase hover
    refine ⟨fun tid quota hkind => ⟨_, hgo, timedOut_spill hk hkind⟩, fun tid key hkind => ?_, fun pkg cl step hkind hnot => ?_,
      fun r vk page hkind hm => ⟨_, hgo, timedOut_walk hkind hm⟩, fun pkg cl core hkind => ?_⟩
    case refine_1 => exact ⟨s.closeCase c.token, hgo.trans (by rw [State.timedOut, hkind]), rfl, rfl⟩
    case refine_2 =>
      obtain ⟨-, hcases, hstep, hmem⟩ := setGuard_closed (token := c.token) hnot (calledFor s pkg cl)
      exact ⟨_, hgo.trans (by rw [State.timedOut, hkind]), hcases, hstep, hmem⟩
    case refine_3 => exact ⟨s, hgo.trans (by rw [State.timedOut, hkind]), rfl⟩

end Sys2Proof.Machine
end

section
/-! SUPPORT. RETRACE at issue: what it queues, and the undefined notices (R301, R303). -/

namespace Sys2Proof.Machine

/-! ### Undefined bytes are within their locations (R303) -/

/-- What a run covers stands among its locations. -/
theorem byteRuns_within (n : Nat) (xs : List (Nat × Byte)) : ∀ r ∈ byteRuns n xs, ∀ y, r.1 ≤ y → y < r.1 + r.2.length →
    y ∈ xs.map Prod.fst := by
  induction xs with
  | nil => exact fun _ hr => absurd hr List.not_mem_nil
  | cons x rest ih =>
    obtain ⟨l, b⟩ := x
    have hfirst : ∀ y, l ≤ y → y < l + 1 → y ∈ l :: rest.map Prod.fst := fun y hlow hhigh => by
      rw [show y = l by omega]; exact List.mem_cons_self ..
    rw [byteRuns, List.map_cons]
    split
    case h_1 l' bs rs hruns =>
      rw [hruns] at ih
      split
      case isTrue hjoin =>
        have hnext : l + 1 = l' := by simpa using (Bool.and_eq_true_iff.1 hjoin).1
        refine List.forall_mem_cons.2 ⟨fun y hlow hhigh => ?_, fun r hr y hlow hhigh =>
          List.mem_cons_of_mem _ (ih r (List.mem_cons_of_mem _ hr) y hlow hhigh)⟩
        rw [List.length_cons] at hhigh
        by_cases hy : y = l
        · rw [hy]; exact List.mem_cons_self ..
        · exact List.mem_cons_of_mem _ (ih _ (List.mem_cons_self ..) y (by dsimp only at hlow ⊢; omega)
            (by dsimp only at hhigh ⊢; omega))
      case isFalse =>
        exact List.forall_mem_cons.2 ⟨hfirst, fun r hr y hlow hhigh => List.mem_cons_of_mem _ (ih r hr y hlow hhigh)⟩
    case h_2 => exact List.forall_mem_cons.2 ⟨hfirst, fun _ hr => absurd hr List.not_mem_nil⟩

/-- A write elsewhere leaves a byte, refused or not. -/
theorem rawWrite_other (s : State) {l x : Nat} {bs : List Byte} (h : ¬ (l ≤ x ∧ x < l + bs.length)) :
    memRead (if s.canWrite l bs.length then s.rawWrite l bs else s).mem x = memRead s.mem x := by
  split
  · rw [rawWrite_read, if_neg fun hin => h hin.2]
  · rfl

/-- Writes none of which holds a byte leave it. -/
theorem foldl_reads {α : Type} {f : State → α → State} {xs : List α} {x : Nat}
    (hf : ∀ s, ∀ r ∈ xs, memRead (f s r).mem x = memRead s.mem x) (s : State) : memRead (xs.foldl f s).mem x = memRead s.mem x :=
  List.foldlRecOn (motive := fun t => memRead t.mem x = memRead s.mem x) xs f rfl fun t ht r hr => (hf t r hr).trans ht

theorem scramble_other (s : State) {locs : List Nat} {x : Nat} (hx : x ∉ locs) :
    memRead (s.scramble locs).mem x = memRead s.mem x := by
  have hfst : ∀ y ∈ (locs.zip (freeBytes s.free locs.length)).map Prod.fst, y ∈ locs := fun y hy => by
    obtain ⟨p, hp, rfl⟩ := List.mem_map.1 hy
    exact (List.of_mem_zip hp).1
  refine foldl_reads (fun t r hr => ?_) s
  obtain ⟨l, b⟩ := r
  have hout : ∀ y, l ≤ y → y < l + b.length → y ≠ x := fun y hlow hhigh hyx =>
    hx (hyx ▸ hfst y (byteRuns_within 64 _ _ hr y hlow hhigh))
  dsimp only
  split
  · rw [rawWrite_read, if_neg fun hin => hout x hin.2.1 hin.2.2 rfl]
  · refine foldl_reads (fun u q hq => ?_) t
    refine rawWrite_other u fun hin => ?_
    obtain ⟨p, hp, hpx⟩ := List.mem_map.1 (byteRuns_within 8 _ _ hq x hin.1 hin.2)
    obtain ⟨z, hz, rfl⟩ := List.mem_map.1 hp
    have hlt : z.2 < b.length := by simpa using (List.mem_zipIdx hz).2.1
    exact hout (l + z.2) (Nat.le_add_right ..) (Nat.add_lt_add_left hlt l) hpx

/-! ### The request (R301) -/

/-- The records of a RETRACE's range, in the order of R302. -/
def retraceRange (s : State) (team : Team) (n : Nat) (g : Segment) (w2 : Word) : List (Nat × List Word) :=
  rangeRecords s team n g (w2.toNat % 2 ^ 26)
    (if w2.toNat / 2 ^ 26 % 2 ^ 26 = 0 then g.used - w2.toNat % 2 ^ 26 else w2.toNat / 2 ^ 26 % 2 ^ 26)

/-- Records whose tensors have moved on (R303). -/
def staleCount (s : State) (recs : List (Nat × List Word)) : Nat :=
  (recs.filter fun y => recStale (s.vd s.thr.vk).tensorGen y.2).length

/-- A RETRACE whose handle names a closed segment that holds its range. -/
structure RetraceRequest (s : State) (a : SReg) (b : Src) (team : Team) (n : Nat) (g : Segment) : Prop where
  unheld : s.thr.wait = .none
  present : Present s (sregs a 3 ++ srcRegs b)
  bound : s.findTeam s.thr.vd s.thr.teamNum = some team
  named : segByHandle team (s.src b) = some (n, g)
  closed : g.closed = true
  inside : (s.thr.getS (sregAt a 2)).toNat % 2 ^ 26 + (s.thr.getS (sregAt a 2)).toNat / 2 ^ 26 % 2 ^ 26 ≤ g.used
  zeros : (s.thr.getS (sregAt a 2)).toNat / 2 ^ 52 = 0

/-- A retrace as it is queued: ready for its data pass (R301). -/
structure Queues (s : State) (tag : BitVec 6) (a c : SReg) (ty : Ty) (land : Bool) (n : Nat) (recs : List (Nat × List Word))
    (q : Retrace) : Prop where
  id : q.id = s.seq
  seg : q.seg = n
  tag : q.tag = tag.toNat
  ty : q.ty = ty
  phase : q.phase = 1
  begun : q.begun = false
  soff : q.soff = s.thr.getS a
  doff : q.doff = s.thr.getS (sregAt a 1)
  land : q.land = if land then some c else none
  recs : q.recs.map (fun y => y.idx) = recs.map fun y => y.1

theorem field_lo26 (x : Word) : field x 25 0 = x.toNat % 2 ^ 26 := by rw [field, fieldN, Nat.pow_zero, Nat.div_one]
theorem field_mid26 (x : Word) : field x 51 26 = x.toNat / 2 ^ 26 % 2 ^ 26 := rfl
theorem field_hi12 (x : Word) : field x 63 52 = x.toNat / 2 ^ 52 := by
  have hlt := x.isLt
  simp only [field, fieldN]; omega

section
variable {s : State} {a : SReg} {b : Src} {team : Team} {n : Nat} {g : Segment} (h : RetraceRequest s a b team n g)
  (sw : Bool) (tag : BitVec 6) (c : SReg) (ty : Ty) (cls : BitVec 2) (land : Bool)
include h

/-- A RETRACE whose request is as R301 asks raises STALEGEN; or else, where the host does not ask to choose origins, it queues a
retrace, and the notices of the records whose origins are reached are undefined (R303). -/
theorem retrace_checked : let recs := retraceRange s team n g (s.thr.getS (sregAt a 2))
    ∃ rest, exec (.retrace sw tag a b c ty cls land) s = .next (if staleCount s recs ≠ 0 then s.trap cStalegen (BitVec.ofNat 64
        (staleCount s recs * 2 ^ 32 + (s.src b).toNat % 2 ^ 32)) else rest) ∧
      (hostRetrace s s.thr.vk = false → ∃ q notices, Queues s tag a c ty land n recs q ∧
        (∀ x ∈ notices, ∃ y ∈ recs, x ∈ (noticeLocs s s.thr.vd g y.1).getD []) ∧
        rest = (({ s.bump with retraces := s.retraces ++ [q] } : State).scramble notices).finish sw) := by
  obtain ⟨hwait, hp, hteam, hseg, hclosed, hinside, hzeros⟩ := h
  intro recs
  have hfits : ¬ (decide (g.used < (s.thr.getS (sregAt a 2)).toNat % 2 ^ 26 + (s.thr.getS (sregAt a 2)).toNat / 2 ^ 26 % 2 ^ 26) ||
      (s.thr.getS (sregAt a 2)).toNat / 2 ^ 52 != 0) = true := by
    rw [hzeros]; simpa using hinside
  constructor
  constructor
  · show execRetrace .. = _
    rw [execRetrace, hwait]
    dsimp only
    rw [withRegs_present hp]
    simp only [State.myTeam, hteam, hseg, hclosed, Bool.not_true, Bool.false_eq_true, if_false]
    rw [field_lo26, field_mid26, field_hi12, if_neg hfits]
    refine congrArg _ (ite_congr (propext ?_) (fun _ => rfl) fun _ => rfl)
    exact bne_iff_ne
  · intro hmode
    rw [hmode]
    refine ⟨_, _, ?_, ?_, rfl⟩
    · exact ⟨rfl, rfl, rfl, rfl, rfl, rfl, rfl, rfl, rfl, by rw [List.map_map]; rfl⟩
    · intro x hx
      obtain ⟨y, hy, hxy⟩ := List.mem_flatMap.1 hx
      obtain ⟨z, hz, rfl⟩ := List.mem_map.1 (List.mem_filter.1 hy).1
      exact ⟨z, hz, hxy⟩

end

end Sys2Proof.Machine
end

section
/-! SUPPORT. A data pass where no unit of memory is bad: its adds keep its chunks (R302, R304, R307). -/

namespace Sys2Proof.Machine

/-! ### Writes where no unit is bad, with the waiters that they wake (R191 to R193, R198) -/

/-- The retraces are these, and no unit of memory is bad. -/
structure Sound (rs : List Retrace) (s : State) : Prop where
  retraces : s.retraces = rs
  ue : s.ue = []
  ce : s.ce = []

section
variable {rs : List Retrace} {s : State} (h : Sound rs s)
include h

theorem Sound.modThread (id : Nat) (f : Thread → Thread) : Sound rs (s.modThread id f) := by
  rw [modThread_world]; exact ⟨h.retraces, h.ue, h.ce⟩

theorem Sound.setFull (loc : Nat) (b : Bool) : Sound rs (s.setFull loc b) := ⟨h.retraces, h.ue, h.ce⟩

theorem Sound.rawWrite (loc : Nat) (bs : List Byte) : Sound rs (s.rawWrite loc bs) := by
  refine ⟨?_, rawWrite_sound h.ue loc bs, ?_⟩
  · have honly := rawWrite_onlyMemory s loc bs
    rw [OnlyMemory] at honly
    rw [honly]; exact h.retraces
  · rw [State.rawWrite]
    split
    · exact h.ce
    · show s.ce.filter _ = []
      rw [h.ce]; rfl

theorem Sound.cleanTile (vk : Nat) (x : Tile) : Sound rs (s.cleanTile vk x) := by
  rw [State.cleanTile]
  split
  · exact ⟨h.retraces, h.ue, h.ce⟩
  · exact ⟨h.retraces, by show dropWords _ s.ue = []; rw [h.ue]; rfl, by show dropWords _ s.ce = []; rw [h.ce]; rfl⟩

theorem Sound.spill (loc : Nat) : Sound rs (s.spill loc) := by
  rw [State.spill]
  split
  · exact h
  split
  · exact h
  split
  · exact h
  dsimp only
  split
  · exact h
  · refine Sound.cleanTile ?_ ..
    exact ⟨h.retraces, h.ue, h.ce⟩

theorem Sound.countUe (vd : Nat) (locs : List Nat) : Sound rs (s.countUe vd locs) := by
  rw [countUe_sound h.ue h.ce]; exact h

theorem Sound.takeValue (a : Access) (p : Part) (x : Option Nat) (st : PWord) : Sound rs (s.takeValue a p x st) := by
  rw [State.takeValue]
  refine Sound.modThread ?_ ..
  split
  · exact h.countUe ..
  · exact h

theorem Sound.partDone (gc : Nat) (a : Access) (lane : Nat) : Sound rs (s.partDone gc a lane) := by
  have honly := partDone_onlyThreadsAndCores s gc a lane
  rw [OnlyThreadsAndCores] at honly
  rw [honly]; exact ⟨h.retraces, h.ue, h.ce⟩

theorem Sound.performWait (gc : Nat) (a : Access) (p : Part) : Sound rs (performWait s gc a p) := by
  rw [Machine.performWait]
  split
  case h_1 =>
    split
    · exact (((h.countUe ..).takeValue ..).setFull ..).partDone ..
    · exact (h.takeValue ..).partDone ..
  case h_2 => exact ((h.rawWrite ..).setFull ..).partDone ..
  case h_3 => exact ((h.countUe ..).partDone ..).modThread ..
  case h_4 => exact h

end

theorem scan_sound {rs : List Retrace} (word : Nat) {n : Nat} {failed : List Nat} {s : State} (h : Sound rs s) :
    Sound rs (scan word n failed s).1 := by
  induction n generalizing failed s with
  | zero => exact h
  | succ n ih =>
    rw [scan]
    dsimp only
    split
    · exact h
    · exact ih (h.performWait ..)

section
variable {rs : List Retrace} {s : State} (h : Sound rs s)
include h

theorem Sound.wordChanged (word : Nat) : Sound rs (wordChanged s word) := by
  have hscan := scan_sound word (n := (waitersOf s word).length + 1) (failed := []) h
  rw [Machine.wordChanged]
  dsimp only
  split
  · exact h
  split
  · exact ⟨hscan.retraces, hscan.ue, hscan.ce⟩
  · exact hscan

theorem Sound.writeLoc (loc : Nat) (bs : List Byte) : Sound rs (s.writeLoc loc bs).1 := by
  rw [State.writeLoc]
  split
  · exact List.foldlRecOn (motive := Sound rs) _ _ ((h.rawWrite ..).spill ..) fun t ht w _ => ht.wordChanged w
  · exact h

/-- An engine's write at locations that hold their values is made (R187). -/
theorem Sound.engWrite (vd : Nat) {locs : List Nat} (hlocs : ∀ l ∈ locs, isLost l = false) (bs : List Byte) :
    Sound rs (s.engWrite vd locs bs).1 ∧ (s.engWrite vd locs bs).2 = true := by
  rw [engWrite_eq]
  refine List.foldlRecOn (motive := fun u : State × Bool => Sound rs u.1 ∧ u.2 = true) _ (engWriteRun vd) ⟨h, rfl⟩
    fun u ⟨hu, hok⟩ r hr => ?_
  obtain ⟨p, hp, hstart⟩ := List.mem_map.1 (byteRuns_start 64 _ r hr)
  have hcan := canWrite_sound hu.ue (hstart ▸ hlocs p.1 (List.of_mem_zip hp).1) r.2.length
  rw [engWriteRun, if_pos hcan]
  exact ⟨hu.writeLoc .., hok⟩

end

/-! ### A retrace that is found (R301) -/

/-- The first entry that a predicate finds, once each such entry is changed and still one. -/
theorem find?_map_if {α : Type} {p : α → Bool} {g : α → α} (hg : ∀ c, p c = true → p (g c) = true) (l : List α) :
    (l.map fun c => if p c then g c else c).find? p = (l.find? p).map g := by
  induction l with
  | nil => rfl
  | cons c l ih =>
    rw [List.map_cons]
    by_cases hc : p c = true
    · rw [if_pos hc, List.find?_cons_of_pos (hg c hc), List.find?_cons_of_pos hc, Option.map_some]
    · rw [if_neg hc, List.find?_cons_of_neg hc, List.find?_cons_of_neg hc, ih]

theorem modRetrace_find {s : State} {id : Nat} {f : Retrace → Retrace} (hf : ∀ r, (f r).id = r.id) :
    ((s.modRetrace id f).retraces.find? fun r => r.id = id) = (s.retraces.find? fun r => r.id = id).map f := by
  rw [← find?_map_if (p := fun r : Retrace => decide (r.id = id)) fun r hr => by simpa [hf] using hr]
  simp only [State.modRetrace, decide_eq_true_eq]

/-! ### Adds (R302, R304) -/

/-- The elements of a retrace's targets stand where memory holds their values. -/
def Held (r : Retrace) : Prop := ∀ z ∈ r.targets, ∀ l ∈ z.locs, isLost l = false

/-- In the data pass of a retrace with these chunks no unit of memory is bad, and its targets stand where memory holds them. -/
structure Adding (id : Nat) (chunks : List Chunk) (s : State) : Prop where
  ue : s.ue = []
  ce : s.ce = []
  found : ∃ q, (s.retraces.find? fun r => r.id = id) = some q ∧ q.chunks = chunks ∧ Held q

/-- A target that is put back, or taken out where nothing is left to add to it. -/
def State.putTarget (s : State) (id : Nat) (locs : List Nat) (x : Option Target) : State :=
  s.modRetrace id fun r => { r with targets := r.targets.flatMap fun y => if y.locs = locs then x.toList else [y] }

/-- What has arrived is added to a target, which is written back once nothing is left to add (R302). -/
def State.addInto (s : State) (id : Nat) (r : Retrace) (t : Target) (locs : List Nat) (acc : Nat) : State :=
  let a := addArrived r (r.ty.width / 8) acc t.adds
  if !a.2.isEmpty || !engClear s r.tid r.id locs true then s.putTarget id locs (some { t with adds := a.2, acc := some a.1 })
  else
    let w := s.engWrite (r.vk % 16) locs (toBytes (r.ty.width / 8) (endAcc r.ty a.1))
    (if w.2 then w.1 else w.1.modRetrace id fun r => t.recs.foldl (failRecord stMemue) r).putTarget id locs none

section
variable {id : Nat} {chunks : List Chunk} {s : State} (h : Adding id chunks s)
include h

theorem Adding.of_sound {t : State} (ht : Sound s.retraces t) : Adding id chunks t := by
  obtain ⟨-, -, hfound⟩ := h
  exact ⟨ht.ue, ht.ce, by rw [ht.retraces]; exact hfound⟩

theorem Adding.modRetrace {f : Retrace → Retrace} (hid : ∀ r, (f r).id = r.id) (hchunks : ∀ r, (f r).chunks = r.chunks)
    (hheld : ∀ r, Held r → Held (f r)) : Adding id chunks (s.modRetrace id f) := by
  obtain ⟨hue, hce, q, hq, hqc, hqh⟩ := h
  exact ⟨hue, hce, f q, by rw [modRetrace_find hid, hq, Option.map_some], (hchunks q).trans hqc, hheld q hqh⟩

theorem Adding.putTarget (locs : List Nat) {x : Option Target} (hx : ∀ z ∈ x, ∀ l ∈ z.locs, isLost l = false) :
    Adding id chunks (s.putTarget id locs x) := by
  refine h.modRetrace (fun _ => rfl) (fun _ => rfl) fun r hr z hz => ?_
  obtain ⟨y, hy, hzy⟩ := List.mem_flatMap.1 hz
  split at hzy
  · exact hx z (Option.mem_toList.1 hzy)
  · rw [List.mem_singleton.1 hzy]; exact hr y hy

theorem Adding.addInto {r : Retrace} {t : Target} {locs : List Nat} (ht : t.locs = locs) (hlocs : ∀ l ∈ locs, isLost l = false)
    (acc : Nat) : Adding id chunks (s.addInto id r t locs acc) := by
  rw [State.addInto]
  dsimp only
  split
  · exact h.putTarget locs fun z hz => by obtain rfl := Option.mem_some.1 hz; exact ht ▸ hlocs
  · obtain ⟨hsound, hok⟩ := Sound.engWrite ⟨rfl, h.ue, h.ce⟩ (r.vk % 16) hlocs
      (toBytes (r.ty.width / 8) (endAcc r.ty (addArrived r (r.ty.width / 8) acc t.adds).1))
    rw [hok]
    exact (h.of_sound hsound).putTarget locs fun z hz => absurd hz (Option.not_mem_none z)

/-- Advancing a target keeps the chunks: its element is read and written where no unit is bad. -/
theorem Adding.advanceTarget (locs : List Nat) : Adding id chunks (advanceTarget id s locs) := by
  obtain ⟨q, hq, -, hqh⟩ := h.found
  rw [Machine.advanceTarget, hq]
  dsimp only
  split
  · exact h
  case h_2 t ht =>
    have hlocs : t.locs = locs := by simpa using List.find?_some ht
    have hheld : ∀ l ∈ locs, isLost l = false := hlocs ▸ hqh t (List.mem_of_find?_eq_some ht)
    split
    case h_1 acc _ => exact h.addInto hlocs hheld acc
    case h_2 => exact h.putTarget locs fun z hz => absurd hz (Option.not_mem_none z)
    case h_3 =>
      split
      · exact h
      · rw [gatherBytes_sound h.ue hheld]
        dsimp only
        rw [show s.meets (some (q.vk % 16)) locs = s from countUe_sound h.ue h.ce ..]
        exact h.addInto hlocs hheld _

end

/-! ### Chunks that have all been asked for (R304) -/

theorem askChunks_asked {s : State} {id : Nat} {r : Retrace} (hfind : (s.retraces.find? fun r => r.id = id) = some r)
    (hasked : ∀ y ∈ r.chunks, y.asked = true) (t : Team) : askChunks s t id = s := by
  rw [askChunks, hfind]
  dsimp only
  rw [List.filter_eq_nil_iff.2, List.map_nil, List.foldl_nil]
  rintro ⟨c, i⟩ hc
  have hmem : c ∈ r.chunks := by
    obtain ⟨-, hlt, hget⟩ := List.mem_zipIdx hc
    rw [hget]; exact List.getElem_mem _
  simp [hasked c hmem]

/-- Once every chunk has been asked for, the adds are all that a retrace's advance does. -/
theorem Adding.advanceRetrace {id : Nat} {chunks : List Chunk} {s : State} (h : Adding id chunks s)
    (hasked : ∀ y ∈ chunks, y.asked = true) : Adding id chunks (advanceRetrace s id) := by
  obtain ⟨q, hq, -, -⟩ := h.found
  rw [Machine.advanceRetrace, hq]
  dsimp only
  have hadded : Adding id chunks ((q.targets.map fun t => t.locs).foldl (Machine.advanceTarget id) s) :=
    List.foldlRecOn (motive := Adding id chunks) _ _ h fun t ht locs _ => ht.advanceTarget locs
  generalize (q.targets.map fun t => t.locs).foldl (Machine.advanceTarget id) s = u at hadded
  split
  · exact hadded
  · obtain ⟨p, hp, hpc, -⟩ := hadded.found
    rw [askChunks_asked hp (hpc ▸ hasked)]
    exact hadded

end Sys2Proof.Machine
end

section
/-! SUPPORT. A retrace's data pass begins, and its chunks arrive (R304 to R307, R309). -/

namespace Sys2Proof.Machine

/-! ### A data pass begins (R304, R309) -/

theorem failRecord_keeps (st : Nat) (r : Retrace) (idx : Nat) :
    (failRecord st r idx).id = r.id ∧ (failRecord st r idx).begun = r.begun := ⟨rfl, rfl⟩

/-- Laying out a retrace begins it. -/
theorem layRetrace_begun (s : State) (t : Team) (r : Retrace) : (layRetrace s t r).id = r.id ∧ (layRetrace s t r).begun = true := by
  rw [layRetrace]
  refine List.foldlRecOn (motive := fun q : Retrace => q.id = r.id ∧ q.begun = true) _ _ ⟨rfl, rfl⟩ fun q hq x _ => ?_
  split
  · exact hq
  split
  · exact hq
  split
  · exact hq
  · exact hq

/-- Memory is this, and the retrace of a number has begun. -/
structure Begun (id : Nat) (m : List Host.Cell) (s : State) : Prop where
  mem : s.mem = m
  begun : ∃ q ∈ s.retraces, q.id = id ∧ q.begun = true

section
variable {id : Nat} {m : List Host.Cell} {s : State} (h : Begun id m s)
include h

theorem Begun.congr {t : State} (hmem : t.mem = s.mem) (hretraces : t.retraces = s.retraces) : Begun id m t := by
  obtain ⟨hm, hbegun⟩ := h
  exact ⟨hmem.trans hm, hretraces ▸ hbegun⟩

theorem Begun.modRetrace (k : Nat) {f : Retrace → Retrace} (hf : ∀ r, (f r).id = r.id ∧ (f r).begun = r.begun) :
    Begun id m (s.modRetrace k f) := by
  obtain ⟨hm, q, hq, hid, hbegun⟩ := h
  refine ⟨hm, _, List.mem_map_of_mem hq, ?_⟩
  split
  · rw [(hf q).1, (hf q).2]; exact ⟨hid, hbegun⟩
  · exact ⟨hid, hbegun⟩

theorem Begun.modChunk (k idx num : Nat) (f : Chunk → Chunk) : Begun id m (s.modChunk k idx num f) :=
  h.modRetrace k fun _ => ⟨rfl, rfl⟩

theorem Begun.modRouter (n : Nat) (f : Router → Router) : Begun id m (s.modRouter n f) := h.congr rfl rfl

end

/-- A chunk that is sent on leaves memory, and its retrace begun. -/
theorem sendChunk_begun {id : Nat} {m : List Host.Cell} (fuel k idx num : Nat) {s : State} (h : Begun id m s) :
    Begun id m (sendChunk fuel k idx num s) := by
  induction fuel generalizing s with
  | zero => exact h
  | succ fuel ih =>
    rw [sendChunk]
    split
    · exact h
    split
    · exact h
    split
    · exact h.modRetrace k fun r => failRecord_keeps ..
    dsimp only
    split
    · exact h.modRetrace k fun r => failRecord_keeps ..
    · exact h.modChunk ..
    · split
      · exact (h.modChunk ..).modRouter ..
      · refine ih ?_
        exact (h.modChunk ..).modChunk ..

theorem askChunks_begun {id : Nat} {m : List Host.Cell} {s : State} (h : Begun id m s) (t : Team) (k : Nat) :
    Begun id m (askChunks s t k) := by
  rw [askChunks]
  split
  · exact h
  · refine List.foldlRecOn (motive := Begun id m) _ _ h fun u hu c _ => ?_
    split
    · exact hu.modRetrace k fun r => failRecord_keeps ..
    split
    · exact hu.modRetrace k fun r => failRecord_keeps ..
    · exact sendChunk_begun _ _ _ _ (hu.modChunk ..)

/-- A retrace whose turn has come lays out its chunks and asks for them. -/
theorem chunkArrival_begins {s : State} {r : Retrace} {team : Team} (hmode : ∀ k, (s.vd k).rmode.getLsbD 0 = false)
    (hfind : (s.retraces.find? fun y => y.id = r.id) = some r) (hteam : s.findTeam (r.vk % 16) r.team = some team)
    (hturn : retraceTurn s r = true) (hunbegun : r.begun = false) (k : Nat) (detoured : Bool) :
    Completes (.retraceChunkArrival r.id k detoured) s (Begun r.id s.mem) := by
  refine ⟨s.withWalks r.id (targetWalks s team r) fun s =>
    askChunks (s.modRetrace r.id fun r => layRetrace s team r) team r.id, ?_, ?_⟩
  · show execRetraceChunkArrival .. = _
    rw [execRetraceChunkArrival, hfind]
    dsimp only
    rw [hteam, hturn, hunbegun]
    rfl
  · refine withWalks_ends hmode fun u t hu ht => ?_
    rw [OnlyRouters] at hu ht
    have hlaid : Begun r.id s.mem (u.modRetrace r.id fun r => layRetrace u team r) := by
      refine ⟨by rw [hu]; rfl, _, List.mem_map_of_mem (a := r) ?_, ?_⟩
      · rw [hu]; exact List.mem_of_find?_eq_some hfind
      · rw [if_pos rfl]; exact layRetrace_begun u team r
    exact (askChunks_begun hlaid team r.id).congr (by rw [ht]) (by rw [ht])

/-! ### A chunk arrives (R304 to R306) -/

/-- A chunk with its bytes. -/
def Chunk.filled (idx num : Nat) (bs : List Byte) (c : Chunk) : Chunk :=
  if c.recIdx = idx && c.num = num then { c with data := some bs } else c

/-- A chunk stands at its origin, its page cached, its bytes where memory holds them, and the copy engine starts its unit. -/
structure ChunkArrives (s : State) (r : Retrace) (team : Team) (k : Nat) (x : Chunk) (detoured : Bool) (w : List Word)
    (seat orig : Seat) (locs : List Nat) : Prop where
  mode : ∀ k, (s.vd k).rmode.getLsbD 0 = false
  found : (s.retraces.find? fun y => y.id = r.id) = some r
  turn : retraceTurn s r = true
  bound : s.findTeam (r.vk % 16) r.team = some team
  begun : r.begun = true
  chunk : r.chunks[k]? = some x
  asked : x.asked = true
  data : x.data = none
  way : x.way = []
  here : x.here = originRouter s team r x.recIdx
  turned : x.turned = detoured
  accord : ∀ y ∈ s.routers, y.2.accord = []
  record : retraceRecord s team r x.recIdx = some w
  receiver : team.seat (recRecv w) = some seat
  origin : ∃ o, (r.recs.find? fun y => y.idx = x.recIdx) = some o ∧ team.seat o.origin = some orig
  filled : engFillRanges s (coreOf seat.tid) (r.vk % 16)
    [((recDaddr w + r.doff.toNat + 64 * x.num) % 2 ^ 52, min 64 (recLen w - 64 * x.num))] = s
  span : chunkLocs s team r w x.num = some locs
  port : ∀ y ∈ (s.core (coreOf r.tid)).port, y.tid ≠ r.tid
  ue : s.ue = []
  ce : s.ce = []
  plain : ∀ y ∈ locs ++ (r.targets.flatMap fun z => z.locs), isLost y = false
  started : (s.askUnit (arbKey 1 (coreOf orig.tid)) (copyUnit r.vk r.id locs.length r.cls)).2 = true

/-- The copy engine has started a chunk's unit, on its way detoured or not. -/
def startedAt (s : State) (r : Retrace) (orig : Seat) (detoured : Bool) (locs : List Nat) : State :=
  (s.askUnit (arbKey 1 (coreOf orig.tid)) (copyUnit r.vk r.id locs.length r.cls)).1.modRetrace r.id fun r =>
    { r with detour := r.detour || detoured }

/-- What stands once a chunk's bytes are in: its retrace with that chunk filled. -/
def arrivedAt (s : State) (r : Retrace) (orig : Seat) (x : Chunk) (detoured : Bool) (locs : List Nat) : State :=
  (startedAt s r orig detoured locs).modChunk r.id x.recIdx x.num fun d => { d with data := some (locs.map (memRead s.mem)) }

theorem startedAt_world (s : State) (r : Retrace) (orig : Seat) (detoured : Bool) (locs : List Nat) :
    startedAt s r orig detoured locs = { s with
      arbiters := (startedAt s r orig detoured locs).arbiters,
      retraces := s.retraces.map fun y => if y.id = r.id then { y with detour := y.detour || detoured } else y } := by
  have honly := askUnit_onlyArbiters s (arbKey 1 (coreOf orig.tid)) (copyUnit r.vk r.id locs.length r.cls)
  rw [OnlyArbiters] at honly
  rw [startedAt, honly]
  rfl

section
variable {s : State} {r : Retrace} {team : Team} {k : Nat} {x : Chunk} {detoured : Bool} {w : List Word} {seat orig : Seat}
  {locs : List Nat} (h : ChunkArrives s r team k x detoured w seat orig locs)
include h

theorem ChunkArrives.exec_eq : exec (.retraceChunkArrival r.id k detoured) s =
    .next ((advanceRetrace (arrivedAt s r orig x detoured locs) r.id).forgetWalks r.id (coreOf seat.tid)) := by
  obtain ⟨o, ho, horig⟩ := h.origin
  have hlost : ∀ y ∈ locs, isLost y = false := fun y hy => h.plain y (List.mem_append_left _ hy)
  have hnoAccord : ∀ key, inAccord s key = false := fun key => List.any_eq_false.2 fun y hy => by
    show ¬ (y.2.accord.any fun e => e.chunks.contains key) = true
    rw [h.accord y hy]; exact Bool.false_ne_true
  show execRetraceChunkArrival .. = _
  rw [execRetraceChunkArrival]
  simp only [h.found, h.bound, h.turn, h.begun, h.chunk, h.asked, h.data, hnoAccord, h.way, ← h.here, h.turned, h.record, h.receiver,
    Bool.not_true, Option.isSome_none, List.isEmpty_nil, bne_self_eq_false, Bool.or_self, Bool.false_eq_true, if_false,
    Option.toList_some, List.map_cons, List.map_nil]
  rw [withWalks_filled (rs := [(coreOf seat.tid, r.vk % 16, true, false, (recDaddr w + r.doff.toNat + 64 * x.num) % 2 ^ 52,
    min 64 (recLen w - 64 * x.num))]) h.mode h.filled]
  simp only [h.span, engClear_alone h.port, ho, Option.bind_some, horig, Option.map_some, Option.getD_some, h.started,
    Bool.not_true, Bool.false_eq_true, if_false]
  have hworld := startedAt_world s r orig detoured locs
  have hue : (startedAt s r orig detoured locs).ue = [] := by rw [hworld]; exact h.ue
  have hce : (startedAt s r orig detoured locs).ce = [] := by rw [hworld]; exact h.ce
  have hmem : (startedAt s r orig detoured locs).mem = s.mem := by rw [hworld]
  have hgather : (startedAt s r orig detoured locs).gatherBytes locs = some (locs.map (memRead s.mem)) := by
    rw [gatherBytes_sound hue hlost, hmem]
  have hmeets : (startedAt s r orig detoured locs).meets (some (r.vk % 16)) locs = startedAt s r orig detoured locs :=
    countUe_sound hue hce ..
  rw [startedAt] at hgather hmeets
  rw [hgather]
  dsimp only
  rw [hmeets, List.foldl_cons, List.foldl_nil, arrivedAt, startedAt]

/-- The retrace with a chunk filled, whose adds may go on. -/
theorem ChunkArrives.adding : Adding r.id (r.chunks.map (Chunk.filled x.recIdx x.num (locs.map (memRead s.mem))))
    (arrivedAt s r orig x detoured locs) := by
  have hworld := startedAt_world s r orig detoured locs
  refine ⟨?_, ?_, { r with
      detour := r.detour || detoured, chunks := r.chunks.map (Chunk.filled x.recIdx x.num (locs.map (memRead s.mem))) },
    ?_, rfl, fun z hz l hl => ?_⟩
  · show (startedAt s r orig detoured locs).ue = []
    rw [hworld]; exact h.ue
  · show (startedAt s r orig detoured locs).ce = []
    rw [hworld]; exact h.ce
  · have hdetoured : ((startedAt s r orig detoured locs).retraces.find? fun y => y.id = r.id) =
        some { r with detour := r.detour || detoured } := by
      have honly := askUnit_onlyArbiters s (arbKey 1 (coreOf orig.tid)) (copyUnit r.vk r.id locs.length r.cls)
      rw [OnlyArbiters] at honly
      rw [startedAt, modRetrace_find, honly]
      · exact congrArg (Option.map _) h.found
      · exact fun _ => rfl
    rw [arrivedAt, State.modChunk, modRetrace_find, hdetoured]
    · rfl
    · exact fun _ => rfl
  · exact h.plain l (List.mem_append_right _ (List.mem_flatMap.2 ⟨z, hz, hl⟩))

/-- A chunk's arrival gives it its bytes, whatever of the targets then goes on. -/
theorem ChunkArrives.arrives (hasked : ∀ y ∈ r.chunks, y.asked = true) : Completes (.retraceChunkArrival r.id k detoured) s fun t =>
    ∃ q ∈ t.retraces, q.id = r.id ∧ ∃ y ∈ q.chunks, y.recIdx = x.recIdx ∧ y.num = x.num ∧
      y.data = some (locs.map (memRead s.mem)) := by
  have hall : ∀ y ∈ r.chunks.map (Chunk.filled x.recIdx x.num (locs.map (memRead s.mem))), y.asked = true := by
    intro y hy
    obtain ⟨c, hc, rfl⟩ := List.mem_map.1 hy
    rw [Chunk.filled]
    split <;> exact hasked c hc
  obtain ⟨-, -, q, hq, hchunks, -⟩ := h.adding.advanceRetrace hall
  have honly := forgetWalks_onlyRouters (advanceRetrace (arrivedAt s r orig x detoured locs) r.id) r.id (coreOf seat.tid)
  rw [OnlyRouters] at honly
  refine ⟨_, h.exec_eq, q, ?_, by simpa using List.find?_some hq, { x with data := some (locs.map (memRead s.mem)) }, ?_, rfl, rfl, rfl⟩
  · rw [honly]; exact List.mem_of_find?_eq_some hq
  · rw [hchunks]
    refine List.mem_map.2 ⟨x, List.mem_of_getElem? h.chunk, if_pos (by simp)⟩

end

end Sys2Proof.Machine
end

section
/-! SUPPORT. A retrace completes, and an accord entry is emitted (R302, R305, R308). -/

namespace Sys2Proof.Machine

/-! ### The tag (R308) -/

/-- The status that a retrace sets with its tag. -/
def Retrace.settledStatus (r : Retrace) : Nat := if r.status = stOk && r.detour then stDetour else r.status

/-- A retrace whose elements are all written, and its tag's number and status. -/
def Retrace.ending (r : Retrace) (seq : Nat) : Retrace := { r with phase := 2, status := r.settledStatus, ended := seq }

/-- A retrace without a word to land leaves with its tag set. -/
theorem execRetraceComplete_settles {s : State} {r : Retrace} (hfind : (s.retraces.find? fun y => y.id = r.id) = some r)
    (hturn : retraceTurn s r = true) (hbegun : r.begun = true) (htargets : r.targets = []) (hdata : ∀ y ∈ r.chunks, y.data ≠ none)
    (hland : r.land = none) : ∃ u : State, u = (s.bump.modRetrace r.id fun _ => r.ending s.seq).setTag (coreOf r.tid) r.vk r.tag
      r.settledStatus ∧ execRetraceComplete r.id s =
        .next (({ u with retraces := u.retraces.filter fun x => x.id != r.id } : State).dropUnits fun _ v => v.op == r.id) := by
  have hphase : r.phase = 1 := by
    rw [retraceTurn, Bool.and_eq_true, beq_iff_eq] at hturn
    exact hturn.1
  have hin : (r.chunks.any fun c => c.data.isNone) = false := List.any_eq_false.2 fun y hy => by simpa using hdata y hy
  refine ⟨_, rfl, ?_⟩
  rw [execRetraceComplete, hfind]
  dsimp only
  rw [if_neg (by rw [hphase]; decide), if_neg (by rw [hturn, hbegun]; decide), if_neg (by rw [htargets, hin]; decide),
    Retrace.ending, Retrace.settledStatus, hland]

theorem retraceComplete_sets {s : State} {r : Retrace} (hfind : (s.retraces.find? fun y => y.id = r.id) = some r)
    (hturn : retraceTurn s r = true) (hbegun : r.begun = true) (htargets : r.targets = []) (hdata : ∀ y ∈ r.chunks, y.data ≠ none)
    (hland : r.land = none) (hquiet : tagWaiters s (coreOf r.tid) r.vk = []) : Completes (.retraceComplete r.id) s fun t =>
      t.mem = s.mem ∧ t.retraces = s.retraces.filter (fun y => y.id != r.id) ∧
      ((t.core (coreOf r.tid)).tagsOf r.vk).bits.getLsbD (r.tag % 64) = true ∧
      ((t.core (coreOf r.tid)).tagsOf r.vk).stat[r.tag % 64]? = some (BitVec.ofNat 4 r.settledStatus) := by
  obtain ⟨u, hu, hexec⟩ := execRetraceComplete_settles hfind hturn hbegun htargets hdata hland
  have hquiet' : tagWaiters (s.bump.modRetrace r.id fun _ => r.ending s.seq) (coreOf r.tid) r.vk = [] := by
    rw [tagWaiters_congr (s := s) (t := s.bump.modRetrace ..) rfl rfl]; exact hquiet
  refine ⟨_, hexec, ?_, ?_, ?_, ?_⟩
  · show u.mem = s.mem
    rw [hu, (setTag_onlyTags ..).1]; rfl
  · show u.retraces.filter (fun x => x.id != r.id) = _
    rw [hu, setTag_alone hquiet']
    show (s.retraces.map fun x => if x.id = r.id then r.ending s.seq else x).filter _ = _
    rw [List.filter_map, show (fun x : Retrace => x.id != r.id) ∘ (fun x => if x.id = r.id then r.ending s.seq else x) =
      fun x => x.id != r.id by funext x; rw [Function.comp_apply]; split <;> simp_all [Retrace.ending]]
    refine (List.map_congr_left fun x hx => if_neg ?_).trans (List.map_id _)
    simpa using (List.mem_filter.1 hx).2
  · show ((u.core (coreOf r.tid)).tagsOf r.vk).bits.getLsbD (r.tag % 64) = true
    rw [hu]; exact setTag_bit hquiet' ..
  · show ((u.core (coreOf r.tid)).tagsOf r.vk).stat[r.tag % 64]? = _
    rw [hu]; exact setTag_stat hquiet' ..

/-! ### A router that changes where its table is in order (R286, R408) -/

/-- The table of routers stands in the order of its keys, as `tblPut` keeps it. -/
def RoutersOrdered (s : State) : Prop := s.routers.Pairwise fun a b => a.1 < b.1

/-- What is first found in an ordered table stays so where a key's new entry gives what its old one did. -/
theorem findSome?_tblPut {α β : Type} {t : Tbl α} (hord : t.Pairwise fun a b => a.1 < b.1) {n : Nat} {x y : α}
    (hfind : tblFind t n = some x) {g : Nat × α → Option β} (hg : g (n, y) = g (n, x)) :
    (tblPut t n y).findSome? g = t.findSome? g := by
  induction t with
  | nil => cases hfind
  | cons c t ih =>
    obtain ⟨k, a⟩ := c
    obtain ⟨hfirst, hrest⟩ := List.pairwise_cons.1 hord
    rw [tblFind] at hfind
    rw [tblPut]
    by_cases hk : k = n
    · rw [if_pos hk] at hfind
      cases hfind
      rw [if_neg (by omega), if_pos hk, List.findSome?_cons, List.findSome?_cons, hg, hk]
    · rw [if_neg hk] at hfind
      have hlt : k < n := hfirst _ (mem_of_tblFind hfind)
      rw [if_neg (by omega), if_neg hk, List.findSome?_cons, List.findSome?_cons, ih hrest hfind]

section
variable {s : State} (hord : RoutersOrdered s) {n : Nat} {x : Router} (hn : tblFind s.routers n = some x) {f : Router → Router}
  (htlb : ∀ x, (f x).tlb = x.tlb) (hlog : ∀ x, (f x).log = x.log)
include hord hn

theorem findSome?_modRouter {β : Type} {g : Nat × Router → Option β} (hg : g (n, f x) = g (n, x)) :
    (s.modRouter n f).routers.findSome? g = s.routers.findSome? g := by
  have hrouter : s.router n = x := tblGet_of_find hn
  rw [← hrouter] at hg hn
  exact findSome?_tblPut hord hn hg

section
include htlb

/-- A page is mapped as before. -/
theorem mapOf_modRouter : (s.modRouter n f).mapOf = s.mapOf := by
  funext vk page
  rw [State.mapOf, State.mapOf, findSome?_modRouter hord hn]
  · rfl
  · dsimp only
    rw [Router.find, htlb]; rfl

/-- A slot stands where it stood. -/
theorem homeAt_modRouter : homeAt (s.modRouter n f) = homeAt s := by
  have hmapped : mappedLoc (s.modRouter n f) = mappedLoc s := by
    funext vk off
    rw [mappedLoc, mappedLoc, mapOf_modRouter hord hn htlb]; rfl
  have hslice : sliceOf (s.modRouter n f) = sliceOf s := by
    funext vk y loc
    rw [sliceOf, sliceOf, tileMassif, tileMassif, hmapped, show (s.modRouter n f).pkg = s.pkg from rfl]
  funext vk off loc
  rw [homeAt, homeAt, hslice, show sliceDown (s.modRouter n f) = sliceDown s from rfl,
    show tileOf (s.modRouter n f) = tileOf s from rfl, show (s.modRouter n f).pkg = s.pkg from rfl]

theorem slotLocs_modRouter : slotLocs (s.modRouter n f) = slotLocs s := by
  funext vd g idx
  rw [slotLocs, slotLocs, regionLocs, regionLocs, homeAt_modRouter hord hn htlb,
    show walk (s.modRouter n f) = walk s from rfl, show (s.modRouter n f).pkg = s.pkg from rfl]

end

section
include hlog

theorem loggedAt_modRouter (vd team seg idx : Nat) : loggedAt (s.modRouter n f) vd team seg idx = loggedAt s vd team seg idx := by
  rw [loggedAt, loggedAt, findSome?_modRouter hord hn]
  dsimp only
  rw [hlog]

end

include htlb hlog

/-- A record rests as it did. -/
theorem record_modRouter : (s.modRouter n f).record = s.record := by
  funext t seg idx
  rw [State.record, State.record, loggedAt_modRouter hord hn hlog, slotLocs_modRouter hord hn htlb,
    show (s.modRouter n f).gatherBytes = s.gatherBytes from rfl]

end

/-! ### An accord entry is emitted (R305) -/

/-- A chunk that is found is found changed. -/
theorem findChunk_modChunk {s : State} {id idx k : Nat} {r : Retrace} {c : Chunk} {g : Chunk → Chunk}
    (hg : ∀ c, c.recIdx = idx → c.num = k → (g c).recIdx = idx ∧ (g c).num = k) (h : findChunk s id idx k = some (r, c)) :
    findChunk (s.modChunk id idx k g) id idx k =
      some ({ r with chunks := r.chunks.map fun c => if c.recIdx = idx && c.num = k then g c else c }, g c) := by
  obtain ⟨q, hq, hc⟩ := Option.bind_eq_some_iff.1 h
  obtain ⟨d, hd, heq⟩ := Option.map_eq_some_iff.1 hc
  cases heq
  have hchunk : ((r.chunks.map fun c => if c.recIdx = idx && c.num = k then g c else c).find? fun c => c.recIdx = idx && c.num = k) =
      some (g c) := by
    rw [find?_map_if (p := fun c : Chunk => decide (c.recIdx = idx) && decide (c.num = k)), hd, Option.map_some]
    intro c hc
    rw [Bool.and_eq_true, decide_eq_true_eq, decide_eq_true_eq] at hc ⊢
    exact hg c hc.1 hc.2
  rw [findChunk, State.modChunk, modRetrace_find, hq]
  · show (((r.chunks.map _).find? _).map _) = _
    rw [hchunk]; rfl
  · exact fun _ => rfl

/-- A chunk at its origin with no port left to take stays there. -/
theorem chunkPort_there (s : State) (vd : Nat) (w : List Word) {c : Chunk} (htoward : c.toward = none) (hway : c.way = []) :
    chunkPort s vd c.here w c = some (c, none) := by
  have hfree : ¬ (c.toward = some c.here) := by rw [htoward]; exact nofun
  rw [chunkPort]
  dsimp only
  rw [if_neg hfree, htoward, hway]
  exact if_pos rfl

theorem record_modRetrace (s : State) (id : Nat) (f : Retrace → Retrace) : (s.modRetrace id f).record = s.record := rfl

/-- A chunk that is sent on where it has come to its origin stays there. -/
theorem sendChunk_there {s : State} {fuel id idx k : Nat} {r : Retrace} {c : Chunk} {team : Team} {w : List Word}
    (hfind : findChunk s id idx k = some (r, c)) (hteam : s.findTeam (r.vk % 16) r.team = some team)
    (hrecord : retraceRecord s team r idx = some w) (hhere : c.here = originRouter s team r idx) (htoward : c.toward = none)
    (hway : c.way = []) : sendChunk (fuel + 1) id idx k s = s.modChunk id idx k fun _ => c := by
  rw [sendChunk, hfind]
  dsimp only
  rw [hteam]
  dsimp only
  rw [hrecord]
  dsimp only
  rw [← hhere, chunkPort_there s _ w htoward hway]

/-- A chunk once it has crossed the link of a port that is up. -/
def Chunk.crossed (s : State) (port : Nat) (c : Chunk) : Chunk :=
  match s.upPort c.here port with
  | none => c
  | some f => { c with here := f, way := if c.toward.isNone then c.way.tail else c.way }

theorem crossed_key (s : State) (port : Nat) (c : Chunk) : (c.crossed s port).recIdx = c.recIdx ∧ (c.crossed s port).num = c.num := by
  rw [Chunk.crossed]; split <;> exact ⟨rfl, rfl⟩

/-- A chunk that its recorded path leads over the last link is found at that link's end. -/
theorem crossPort_find {s : State} {id idx k port f : Nat} {r : Retrace} {x : Chunk} (hfind : findChunk s id idx k = some (r, x))
    (hport : s.upPort x.here port = some f) (htoward : x.toward = none) (hway : x.way.length ≤ 1) :
    ∃ cs, findChunk (crossPort s id idx k port) id idx k = some ({ r with chunks := cs }, { x with here := f, way := [] }) := by
  have htail : x.way.tail = [] := List.length_eq_zero_iff.1 (by rw [List.length_tail]; omega)
  have hx : x.crossed s port = { x with here := f, way := [] } := by
    rw [Chunk.crossed, hport]
    dsimp only
    rw [htoward, htail]; rfl
  have hcrossed := findChunk_modChunk (g := Chunk.crossed s port)
    (fun c hidx hk => by rw [(crossed_key ..).1, (crossed_key ..).2]; exact ⟨hidx, hk⟩) hfind
  rw [hx] at hcrossed
  exact ⟨_, hcrossed⟩

/-- Where the table of routers is in order, the one chunk of an entry crosses its port's link to its origin (R305). -/
theorem accordEmit_hops {s : State} (hord : RoutersOrdered s) {n k f : Nat} {e : AccordEntry} {r : Retrace} {x : Chunk} {team : Team}
    {w : List Word}
    (hentry : ((s.router n).accord.find? fun y => y.port == k && (8 ≤ y.chunks.length || y.since + 32 ≤ s.cycle)) = some e)
    (hchunks : e.chunks = [(r.id, x.recIdx, x.num)]) (hfind : findChunk s r.id x.recIdx x.num = some (r, x))
    (hteam : s.findTeam (r.vk % 16) r.team = some team) (hrecord : retraceRecord s team r x.recIdx = some w) (hhere : x.here = n)
    (hport : s.upPort n k = some f) (horigin : f = originRouter s team r x.recIdx) (htoward : x.toward = none)
    (hway : x.way.length ≤ 1) : Completes (.accordEmit n k) s fun t => (t.router n).accord = (s.router n).accord.erase e ∧
      t.mem = s.mem ∧ (∀ m, m ≠ n → t.router m = s.router m) ∧
      ∃ q, findChunk t r.id x.recIdx x.num = some (q, { x with here := f, way := [] }) := by
  obtain ⟨y, hy⟩ : ∃ y, tblFind s.routers n = some y := by
    cases hn : tblFind s.routers n with
    | some y => exact ⟨y, rfl⟩
    | none => rw [State.router, tblGet, hn] at hentry; cases hentry
  have hrouter := router_modRouter s n (f := fun x => { x with accord := x.accord.erase e })
  generalize hu : s.modRouter n (fun x => { x with accord := x.accord.erase e }) = u at hrouter
  have hup : u.upPort x.here k = some f := by rw [← hu, hhere]; exact hport
  have hfind' : findChunk u r.id x.recIdx x.num = some (r, x) := by rw [← hu]; exact hfind
  obtain ⟨cs, hcrossed⟩ := crossPort_find hfind' hup htoward hway
  have hrecord' : retraceRecord (crossPort u r.id x.recIdx x.num k) team { r with chunks := cs } x.recIdx = some w := by
    rw [← hrecord, retraceRecord, retraceRecord, crossPort, State.modChunk, record_modRetrace, ← hu, record_modRouter hord hy]
    · exact fun _ => rfl
    · exact fun _ => rfl
  have hsend : exec (.accordEmit n k) s = .next ((crossPort u r.id x.recIdx x.num k).modChunk r.id x.recIdx x.num fun _ =>
      { x with here := f, way := [] }) := by
    show execAccordEmit n k s = _
    rw [execAccordEmit, hentry]
    dsimp only
    rw [hchunks, List.foldl_cons, List.foldl_nil, hu]
    exact congrArg _ (sendChunk_there (fuel := 65535) hcrossed (by rw [← hu]; exact hteam) hrecord' (by rw [← hu]; exact horigin)
      htoward rfl)
  refine ⟨_, hsend, ?_, ?_, fun m hm => ?_, _, findChunk_modChunk (fun _ _ _ => ⟨rfl, rfl⟩) hcrossed⟩
  · show (u.router n).accord = _
    rw [hrouter, if_pos rfl]
  · show u.mem = _
    rw [← hu]; rfl
  · show u.router m = _
    rw [hrouter, if_neg hm]

end Sys2Proof.Machine
end

section
/-! O31: the statement fails in a state whose table of routers is out of order, and holds wherever that table is in order (R301 to
R309, R408). -/

namespace Sys2Proof.Machine

/-! ### Where the table of routers is in order -/

/-- O31 with the one premise that it lacks: the table of routers is in the order that `tblPut` keeps. -/
def OrderedRetraces : Prop :=
  ∀ (sw : Bool) (tag : BitVec 6) (a : SReg) (b : Src) (c : SReg) (ty : Ty) (cls : BitVec 2) (land detoured : Bool) (n k : Nat)
    (team : Team) (g : Segment) (r : Retrace) (e : AccordEntry) (s : State), RoutersOrdered s →
    let w2 := s.thr.getS (sregAt a 2)
    let first := w2.toNat % 2 ^ 26
    let cnt := if w2.toNat / 2 ^ 26 % 2 ^ 26 = 0 then g.used - first else w2.toNat / 2 ^ 26 % 2 ^ 26
    let recs := rangeRecords s team n g first cnt
    let stale := (recs.filter fun y => recStale (s.vd s.thr.vk).tensorGen y.2).length
    (s.thr.wait = .none → Present s (sregs a 3 ++ srcRegs b) → s.findTeam s.thr.vd s.thr.teamNum = some team →
      segByHandle team (s.src b) = some (n, g) → g.closed = true → first + w2.toNat / 2 ^ 26 % 2 ^ 26 ≤ g.used →
      w2.toNat / 2 ^ 52 = 0 →
      (stale = 0 → hostRetrace s s.thr.vk = false → Completes (.retrace sw tag a b c ty cls land) s fun t => Passes sw s t ∧
        t = { s with thr := t.thr, seq := s.seq + 1, retraces := t.retraces, mem := t.mem, back := t.back, ue := t.ue,
                     ce := t.ce, free := t.free } ∧
        (∀ b, (∀ y ∈ recs, b ∉ (noticeLocs s s.thr.vd g y.1).getD []) → memRead t.mem b = memRead s.mem b) ∧
        ∃ q : Retrace, t.retraces = s.retraces ++ [q] ∧ q.id = s.seq ∧ q.seg = n ∧ q.tag = tag.toNat ∧ q.ty = ty ∧
          q.phase = 1 ∧ q.begun = false ∧ q.soff = s.thr.getS a ∧ q.doff = s.thr.getS (sregAt a 1) ∧
          q.land = (if land then some c else none) ∧ q.recs.map (fun y => y.idx) = recs.map fun y => y.1) ∧
      (stale ≠ 0 → CanTrap s → Completes (.retrace sw tag a b c ty cls land) s fun t =>
        TrapsTo s t 0x0D s.thr.pc (BitVec.ofNat 64 (stale * 2 ^ 32 + (s.src b).toNat % 2 ^ 32)))) ∧
    (s.retraces.find? (fun y => y.id = r.id) = some r → (∀ y ∈ s.retraces, y.id = r.id → y = r) → retraceTurn s r = true →
      (s.findTeam (r.vk % 16) r.team = some team → r.begun = false → (∀ k, (s.vd k).rmode.getLsbD 0 = false) →
        Completes (.retraceChunkArrival r.id k detoured) s fun t =>
        t.mem = s.mem ∧ ∃ q ∈ t.retraces, q.id = r.id ∧ q.begun = true) ∧
      (∀ (x : Chunk) (w : List Word) (seat orig : Seat) (o : RetraceRec) (locs : List Nat),
        s.findTeam (r.vk % 16) r.team = some team → r.begun = true → r.chunks[k]? = some x →
        x.asked = true → x.data = none → x.way = [] → x.here = originRouter s team r x.recIdx → x.turned = detoured →
        (∀ y ∈ r.chunks, y.asked = true) → (∀ y ∈ s.routers, y.2.accord = []) → retraceRecord s team r x.recIdx = some w →
        team.seat (recRecv w) = some seat → r.recs.find? (fun y => y.idx = x.recIdx) = some o → team.seat o.origin = some orig →
        (∀ k, (s.vd k).rmode.getLsbD 0 = false) →
        engFillRanges s (coreOf seat.tid) (r.vk % 16)
          [((recDaddr w + r.doff.toNat + 64 * x.num) % 2 ^ 52, min 64 (recLen w - 64 * x.num))] = s →
        chunkLocs s team r w x.num = some locs → (∀ y ∈ (s.core (coreOf r.tid)).port, y.tid ≠ r.tid) → s.ue = [] → s.ce = [] →
        (∀ y ∈ locs ++ (r.targets.flatMap fun z => z.locs), isLost y = false) →
        (s.askUnit (arbKey 1 (coreOf orig.tid)) (copyUnit r.vk r.id locs.length r.cls)).2 = true → Completes (.retraceChunkArrival r.id k detoured) s fun t =>
          ∃ q ∈ t.retraces, q.id = r.id ∧ ∃ y ∈ q.chunks, y.recIdx = x.recIdx ∧ y.num = x.num ∧
            y.data = some (locs.map (memRead s.mem))) ∧
      (r.begun = true → r.targets = [] → (∀ y ∈ r.chunks, y.data ≠ none) → r.land = none →
        tagWaiters s (coreOf r.tid) r.vk = [] → Completes (.retraceComplete r.id) s fun t =>
          t.mem = s.mem ∧ t.retraces = s.retraces.filter (fun y => y.id != r.id) ∧
          ((t.core (coreOf r.tid)).tagsOf r.vk).bits.getLsbD (r.tag % 64) = true ∧
          ((t.core (coreOf r.tid)).tagsOf r.vk).stat[r.tag % 64]? =
            some (BitVec.ofNat 4 (if r.status = 0 ∧ r.detour = true then 4 else r.status)))) ∧
    (∀ (x : Chunk) (w : List Word) (f : Nat),
      (s.router n).accord.find? (fun y => y.port == k && (8 ≤ y.chunks.length || y.since + 32 ≤ s.cycle)) = some e →
      e.chunks = [(r.id, x.recIdx, x.num)] → findChunk s r.id x.recIdx x.num = some (r, x) →
      s.findTeam (r.vk % 16) r.team = some team → retraceRecord s team r x.recIdx = some w → x.here = n →
      s.upPort n k = some f → f = originRouter s team r x.recIdx → x.toward = none → x.way.length ≤ 1 →
      Completes (.accordEmit n k) s fun t => (t.router n).accord = (s.router n).accord.erase e ∧ t.mem = s.mem ∧
        (∀ m, m ≠ n → t.router m = s.router m) ∧
        ∃ q, findChunk t r.id x.recIdx x.num = some (q, { x with here := f, way := [] }))

/-- Each clause of O31 for such a state. -/
theorem orderedRetraces : OrderedRetraces := by
  unfold OrderedRetraces
  intro sw tag a b c ty cls land detoured n k team g r e s hord w2 first cnt recs stale
  refine ⟨fun hwait hp hteam hseg hclosed hinside hzeros => ?_, fun hfind _ hturn => ⟨fun hteam hunbegun hmode => ?_, ?_, ?_⟩, ?_⟩
  · have h : RetraceRequest s a b team n g := ⟨hwait, hp, hteam, hseg, hclosed, hinside, hzeros⟩
    obtain ⟨rest, hexec, hrest⟩ := retrace_checked h sw tag c ty cls land
    refine ⟨fun hstale hmode => ?_, fun hstale htrap => ?_⟩
    · obtain ⟨q, notices, hq, hnotices, rfl⟩ := hrest hmode
      have honly := scramble_onlyMemory { s.bump with retraces := s.retraces ++ [q] } notices
      have hmem := fun x => scramble_other (x := x) { s.bump with retraces := s.retraces ++ [q] } (locs := notices)
      generalize ({ s.bump with retraces := s.retraces ++ [q] } : State).scramble notices = u at hexec honly hmem
      have hthr : u.thr = s.thr := honly.thr
      rw [OnlyMemory] at honly
      refine ⟨_, hexec.trans (congrArg _ (if_neg (not_not.2 hstale))), finish_passes hthr sw, ?_, fun x hx => ?_, q, ?_, hq.id, hq.seg,
        hq.tag, hq.ty, hq.phase, hq.begun, hq.soff, hq.doff, hq.land, hq.recs⟩
      · rw [honly]; rfl
      · refine hmem x fun hin => ?_
        obtain ⟨y, hy, hxy⟩ := hnotices x hin
        exact hx y hy hxy
      · show u.retraces = _
        rw [honly]
    · exact ⟨_, hexec.trans (congrArg _ (if_pos hstale)), trap_enters htrap cStalegen _⟩
  · refine (chunkArrival_begins hmode hfind hteam hturn hunbegun k detoured).imp fun t ht => ?_
    exact ⟨ht.mem, ht.begun⟩
  · intro x w seat orig o locs hteam hbegun hx hasked hdata hway hhere hturned hall haccord hrecord hseat ho horig hmode hfilled hlocs
      hport hue hce hplain hstarted
    exact ChunkArrives.arrives ⟨hmode, hfind, hturn, hteam, hbegun, hx, hasked, hdata, hway, hhere, hturned, haccord, hrecord, hseat,
      ⟨o, ho, horig⟩, hfilled, hlocs, hport, hue, hce, hplain, hstarted⟩ hall
  · intro hbegun htargets hdata hland hquiet
    have hstatus : r.settledStatus = if r.status = 0 ∧ r.detour = true then 4 else r.status := by
      rw [Retrace.settledStatus]
      simp only [Bool.and_eq_true, decide_eq_true_eq]
      rfl
    exact hstatus ▸ retraceComplete_sets hfind hturn hbegun htargets hdata hland hquiet
  · exact fun x w f hentry hchunks hfound hteam hrecord hhere hport horigin htoward hway =>
      accordEmit_hops hord hentry hchunks hfound hteam hrecord hhere hport horigin htoward hway

/-! ### A table of routers out of order

Two routers of package 0 cache one page of VD 0 at two places. The model takes the place of a page from the first router of the table
that caches it (R408), and the table's entry of router 0 stands last, so router 5's is taken: the slot of record 0 is served by slice 0
of massif 0. When router 0 emits its accord entry, its own entry goes to the head of the table, the page is taken to stand in massif 1,
and the link above slice 0 of that massif is down: the record is then unreadable, and its chunk is dropped in place of sent on. -/

/-- A team whose segment 4 holds record 0 in its slot, at the head of the VD's DRAM window. -/
def strayTeam : Team :=
  { vd := 0, num := 1, pkg := 0, st := .bound, q := 0, token := 0, descAddr := 0, dep := none, uses := [], args := 0, pkgs := 1,
    spBase := 0, spSize := 0, fanout := 4, roles := [], places := [], tensors := [], modAddr := 0, inRing := false,
    seats := [⟨0, 0, 64⟩], groups := [], key := 0, spill := 0, ctxsave := 0, progTotal := 0, progDone := 0,
    mark := 0, cdone := 0, restarts := 0, segs := [(4, ⟨0, true, 1, 1, true, 0, 0, 1, [0], []⟩)], capbads := 0, t0 := 0, d0 := 0,
    loaded := [], pre := none, shadows := [], heldLists := [], savedCores := [], counts := [], pins := [] }

/-- The chunk at router 0, one link from its origin's router, and its retrace. -/
def strayChunk : Chunk := ⟨0, 0, true, 0, none, [0], false, none⟩
def strayRetrace (cs : List Chunk) : Retrace := ⟨8, 0, 0, 1, 4, 0, 0, .i32, none, 0, 0, 1, [⟨0, 0, false⟩], true, cs, [], false, 0, 0⟩
def strayEntry : AccordEntry := ⟨0, 8, [(8, 0, 0)], 0⟩

/-- Page 0 of VD 0 at a physical address. -/
def cachedAt (pa : Nat) : TlbEntry := ⟨0, 0, false, true, true, false, false, pa, []⟩

def strayState : State :=
  { State.reset with
    teams := [strayTeam], retraces := [strayRetrace [strayChunk]], cycle := 32, mem := [(dramLoc 0 sysBase + 7, 0xF0)],
    pkgs := [(0, { Pkg.blank with linksDown := [2 ^ 14 + 256] })],
    routers := [(5, ⟨[cachedAt 0], [], [], [], []⟩), (0, ⟨[cachedAt (2 ^ 35)], [], [strayEntry], [], []⟩)] }

/-- The chunk across its link, with the entry gone from router 0. -/
def strayCrossed : State := crossPort (strayState.modRouter 0 fun x => { x with accord := x.accord.erase strayEntry }) 8 0 0 0

theorem strayState_entry : ((strayState.router 0).accord.find? fun y =>
    y.port == 0 && (8 ≤ y.chunks.length || y.since + 32 ≤ strayState.cycle)) = some strayEntry := by decide +kernel

/-- Before the emission the record is read, all zeros, from its slot. -/
theorem strayState_record : retraceRecord strayState strayTeam (strayRetrace [strayChunk]) 0 = some (List.replicate 8 0) := by
  decide +kernel

theorem strayCrossed_chunk : findChunk strayCrossed 8 0 0 =
    some (strayRetrace [{ strayChunk with here := 1, way := [] }], { strayChunk with here := 1, way := [] }) := by decide +kernel

/-- Once router 0's entry is put back ahead, the record cannot be read. -/
theorem strayCrossed_record :
    retraceRecord strayCrossed strayTeam (strayRetrace [{ strayChunk with here := 1, way := [] }]) 0 = none := by decide +kernel

/-- A chunk whose record cannot be read is dropped with its record (R307). -/
theorem sendChunk_unread {s : State} {fuel id idx k : Nat} {r : Retrace} {c : Chunk} {team : Team}
    (hfind : findChunk s id idx k = some (r, c)) (hteam : s.findTeam (r.vk % 16) r.team = some team)
    (hrecord : retraceRecord s team r idx = none) :
    sendChunk (fuel + 1) id idx k s = s.modRetrace id fun r => failRecord stMemue r idx := by
  rw [sendChunk, hfind]
  dsimp only
  rw [hteam]
  dsimp only
  rw [hrecord]

theorem strayState_emits : exec (.accordEmit 0 0) strayState =
    .next (strayCrossed.modRetrace 8 fun r => failRecord stMemue r 0) := by
  show execAccordEmit 0 0 strayState = _
  rw [execAccordEmit, strayState_entry]
  exact congrArg _ (sendChunk_unread (fuel := 65535) strayCrossed_chunk (team := strayTeam) (by decide +kernel) strayCrossed_record)

theorem strayState_drops : findChunk (strayCrossed.modRetrace 8 fun r => failRecord stMemue r 0) 8 0 0 = none := by decide +kernel

/-- Refutes O31: nothing in it says that the table of routers is in order, and in `strayState`, where it is not, an emission drops the
chunk that the last clause says is sent on. With that premise O31 holds (`orderedRetraces`). -/
theorem not_retraces : ¬ Obligations.Retraces := by
  unfold Obligations.Retraces
  intro h
  obtain ⟨-, -, hemits⟩ := h false 0 0 (.s 0) 0 .i32 0 false false 0 0 strayTeam (Segment.empty 0) (strayRetrace [strayChunk]) strayEntry
    strayState
  obtain ⟨t, hexec, -, -, -, q, hq⟩ := hemits strayChunk (List.replicate 8 0) 1 strayState_entry rfl (by decide +kernel)
    (by decide +kernel) strayState_record rfl (by decide +kernel) (by decide +kernel) rfl (by decide)
  rw [strayState_emits] at hexec
  cases hexec
  exact Option.some_ne_none _ (hq.symm.trans strayState_drops)

end Sys2Proof.Machine
end

section
/-! SUPPORT. The heap of a thread's own scratchpad: where it stands, its words, and the forms that act on it once their turn in port
order has come (R180, R312 to R315). -/

namespace Sys2Proof.Machine

/-! ### Where a heap stands (R314) -/

/-- Each location that the checks give is that of an item which has the permissions it needs (R185). -/
theorem checkItems_mem {s : State} {items : List Item} {locs : List Nat} (h : checkItems s s.thr items = .ok locs) {l : Nat}
    (hl : l ∈ locs) : ∃ i ∈ items, i.res s s.thr = .loc l ∧ itemPerm s s.gc s.thr.vd i (.loc l) = false := by
  simp only [checkItems] at h
  split at h
  · cases h
  split at h
  · cases h
  split at h
  · cases h
  next hperm =>
    cases h
    obtain ⟨⟨i, r⟩, hmem, hr⟩ := List.mem_filterMap.1 hl
    obtain ⟨j, hj, he⟩ := List.mem_map.1 hmem
    cases he
    have hthis := List.find?_eq_none.1 hperm _ hmem
    split at hr
    · next l' hloc =>
      cases hr
      have hres : i.res s s.thr = .loc l := hloc
      exact ⟨i, hj, hres, by rw [State.gc]; simpa [hres] using hthis⟩
    · cases hr

/-- A form that takes its own scratchpad alone finds a location there. -/
theorem ownSpad_loc {s : State} {va n l : Nat} {r w : Bool} {locs : List Nat}
    (h : checkItems s s.thr (itemsOf s s.gc s.thr.vd va n r w .ownSpad) = .ok locs) (hl : l ∈ locs) : 2 ^ 60 ≤ l := by
  obtain ⟨i, hi, hres, hperm⟩ := checkItems_mem h hl
  obtain ⟨p, -, rfl⟩ := List.mem_map.1 hi
  rw [itemPerm, Bool.or_eq_false_iff] at hperm
  rw [Item.res] at hres
  split at hres
  case isFalse => cases hres
  case isTrue =>
    cases hy : whereIs s s.gc s.thr.vd p.1 with
    | none => rw [State.gc] at hy; rw [resolve, hy] at hres; cases hres
    | some y =>
      have htakes := hperm.2
      rw [hy] at htakes
      rw [State.gc] at hy
      rw [resolve, hy] at hres
      cases y with
      | spad c off =>
        dsimp only at hres
        split at hres
        · cases hres; rw [spadLoc]; omega
        · cases hres
      | dram | l2 | host => cases htakes

/-! ### The writes in the store queue have left (R180) -/

theorem Unwaited.mapPort {s : State} (h : Unwaited s) (gc : Nat) {f : Access → Access}
    (hf : ∀ a, (f a).waiting = a.waiting ∧ (f a).parts = a.parts) :
    Unwaited (s.modCore gc fun c => { c with port := c.port.map f }) := by
  refine h.put rfl fun x hx => ?_
  obtain ⟨y, hy, rfl⟩ := List.mem_map.1 hx
  rw [(hf y).1, (hf y).2]
  exact h.core gc y hy

theorem leaveAll_cores (s : State) : s.leaveAll = { s with cores := s.leaveAll.cores } := by
  rw [State.leaveAll]; split <;> rfl

@[simp] theorem leaveAll_mem (s : State) : s.leaveAll.mem = s.mem := by rw [leaveAll_cores]
@[simp] theorem leaveAll_thr (s : State) : s.leaveAll.thr = s.thr := by rw [leaveAll_cores]
@[simp] theorem leaveAll_seq (s : State) : s.leaveAll.seq = s.seq := by rw [leaveAll_cores]

theorem leaveAll_core_tags (s : State) (gc : Nat) : (s.leaveAll.core gc).tags = (s.core gc).tags := by
  rw [State.leaveAll]
  split
  · rfl
  · rw [modCore_core]; split
    · next h => rw [h]
    · rfl

/-- A source reads the same: no register, tag or time base has changed. -/
@[simp] theorem leaveAll_src (s : State) (a : Src) : s.leaveAll.src a = s.src a := by
  cases a with
  | s r => rw [leaveAll_cores]; rfl
  | time => rw [leaveAll_cores]; rfl
  | tags => rw [State.src, State.src, Core.tagsOf, Core.tagsOf, leaveAll_core_tags, State.gc, leaveAll_thr, State.gc]

theorem leaveAll_unwaited {s : State} (h : Unwaited s) : Unwaited s.leaveAll := by
  rw [State.leaveAll]
  split
  · exact h
  · exact h.mapPort _ fun a => by split <;> exact ⟨rfl, rfl⟩

theorem leaveAll_nil {s : State} (h : queuedBefore (s.core s.gc).port = []) : s.leaveAll = s := if_pos (by rw [h]; rfl)

/-! ### The words of a heap (R312) -/

@[simp] theorem leaveAll_heapWord (s : State) (l i : Nat) : heapWord s.leaveAll l i = heapWord s l i := by
  rw [heapWord, leaveAll_mem, heapWord]

theorem heapK_eq (h : Word) : heapK h = h.toNat % 16 := by rw [heapK, field, fieldN, Nat.pow_zero, Nat.div_one]; rfl

/-- The bytes of words, one after another. -/
def wordBytes (ws : List Word) : List Byte := (ws.map fun w => toBytes 8 w.toNat).flatten

@[simp] theorem wordBytes_singleton (w : Word) : wordBytes [w] = toBytes 8 w.toNat := List.append_nil _

/-- A heap in a scratchpad with no unit of memory bad and nothing that waits for a word. -/
structure QuietHeap (s : State) (l : Nat) : Prop where
  unwaited : Unwaited s
  ue : s.ue = []
  ce : s.ce = []
  spad : 2 ^ 60 ≤ l

theorem StoresBytes.congr {s t s' t' : State} {l : Nat} {bs : List Byte} (h : StoresBytes s t l bs) (hs : s'.mem = s.mem)
    (ht : t'.mem = t.mem) : StoresBytes s' t' l bs := by rw [StoresBytes, hs, ht]; exact h

section
variable {s : State} {l : Nat} (q : QuietHeap s l)
include q

theorem QuietHeap.leaveAll : QuietHeap s.leaveAll l :=
  ⟨leaveAll_unwaited q.unwaited, by rw [leaveAll_cores]; exact q.ue, by rw [leaveAll_cores]; exact q.ce, q.spad⟩

theorem QuietHeap.notLost (k : Nat) : isLost (l + k) = false := by
  have := q.spad
  rw [isLost, Bool.and_eq_false_iff]
  exact .inr (decide_eq_false (by omega))

theorem QuietHeap.notTrig (k : Nat) : isTrig (l + k) = false := by
  have := q.spad
  rw [isTrig, Bool.and_eq_false_iff]
  exact .inr (decide_eq_false (by omega))

theorem QuietHeap.heapBad : heapBad s l = none :=
  List.find?_eq_none.2 fun i _ => by simp [State.bad, q.notLost, q.ue]

theorem QuietHeap.heapMeets : s.heapMeets l = s := countUe_sound q.ue q.ce _ _

variable (i : Nat) (ws : List Word)

theorem QuietHeap.heapWrite_eq : heapWrite l s i ws = (s.rawWrite (l + 8 * i) (wordBytes ws)).spill (l + 8 * i) := by
  rw [heapWrite, writeLoc_unwaited q.unwaited (canWrite_sound q.ue (q.notLost _) _)]; rfl

theorem QuietHeap.heapWrite_onlyMemory : OnlyMemory s (heapWrite l s i ws) := by
  rw [q.heapWrite_eq]; exact (rawWrite_onlyMemory ..).trans (spill_keeps ..).1

theorem QuietHeap.heapWrite_stores : StoresBytes s (heapWrite l s i ws) (l + 8 * i) (wordBytes ws) := by
  intro x
  rw [q.heapWrite_eq, spill_read]
  simp only [q.notTrig, true_and]

theorem QuietHeap.heapWrite : QuietHeap (heapWrite l s i ws) l := by
  have hsound : Sound s.retraces (Machine.heapWrite l s i ws) := by
    rw [q.heapWrite_eq]; exact ((Sound.mk rfl q.ue q.ce).rawWrite ..).spill _
  exact ⟨q.unwaited.congr (q.heapWrite_onlyMemory i ws).cores, hsound.ue, hsound.ce, q.spad⟩

end

/-! ### The step of HSIFT (R313, R315) -/

/-- The entries that a heap holds, in ascending rank. -/
def heapEntries (s : State) (l : Nat) : List Word := (List.range (heapN (heapWord s l 0))).map fun i => heapWord s l (i + 1)

@[simp] theorem leaveAll_heapEntries (s : State) (l : Nat) : heapEntries s.leaveAll l = heapEntries s l := by
  simp only [heapEntries, leaveAll_heapWord]

theorem heapScore_isNan (x : Word) : (heapScore x).isNan = true ↔ fF32.decode (x.toNat / 2 ^ 32) = .nan := by
  have hfield : field x 63 32 = x.toNat / 2 ^ 32 := Nat.mod_eq_of_lt (by have := x.isLt; omega)
  rw [heapScore, hfield]
  cases fF32.decode (x.toNat / 2 ^ 32) <;> simp [Val.isNan]

section
variable {s : State} {l : Nat} {b : Word}

theorem sift_keeps (h : (heapScore b).isNan = true ∨
    heapK (heapWord s l 0) ≤ heapN (heapWord s l 0) ∧ beats b ((heapEntries s l).headD 0) = false) : sift l b s = (s, 0) := by
  rw [sift]
  split
  · rfl
  · next hnan =>
    obtain ⟨hfull, hbeats⟩ := h.resolve_left hnan
    rw [heapEntries] at hbeats
    rw [if_neg (by omega), hbeats]; rfl

theorem sift_adds (hnan : ¬ (heapScore b).isNan = true) (hroom : heapN (heapWord s l 0) < heapK (heapWord s l 0)) :
    sift l b s = (heapWrite l s 0 ((heapWord s l 0 + 16) :: place b (heapEntries s l)), 1) := by
  rw [sift, if_neg hnan, if_pos hroom]; rfl

theorem sift_replaces (hnan : ¬ (heapScore b).isNan = true) (hfull : heapK (heapWord s l 0) ≤ heapN (heapWord s l 0))
    (hbeats : beats b ((heapEntries s l).headD 0) = true) :
    sift l b s = (heapWrite l s 1 (place b (heapEntries s l).tail), 2) := by
  rw [heapEntries] at hbeats
  rw [sift, if_neg hnan, if_neg (by omega), if_pos hbeats]; rfl

end

/-! ### The forms (R314, R315) -/

theorem OnlyMemory.seq {s t : State} (h : OnlyMemory s t) : t.seq = s.seq := by rw [OnlyMemory] at h; rw [h]

@[simp] theorem State.defer_mem (s : State) (ws : List RegWrite) (form : Form) (done : Bool) : (s.defer ws form done).mem = s.mem := rfl

/-- A deferred result put into the buffer of a state with the thread and the issue counter of `s` is one for `s`. -/
theorem defer_finish_from {s u : State} (hthr : u.thr = s.thr) (hseq : u.seq = s.seq) (ws : List RegWrite) (done sw : Bool) :
    Defers s ((u.defer ws .plain done).finish sw) ws done ∧ InSequence sw s ((u.defer ws .plain done).finish sw) := by
  obtain ⟨⟨hs, hv, hp, hbuf, hkept⟩, -, hnext⟩ := defer_finish u false ws done sw
  rw [InSequence, Stands] at hnext ⊢
  rw [hthr] at hs hv hp hbuf hkept hnext
  rw [hseq] at hbuf
  exact ⟨⟨hs, hv, hp, hbuf, hkept⟩, hnext⟩

/-- The checks of a heap form pass, and its turn in port order has come. -/
structure HeapTurn (s : State) (a : Src) (l : Nat) (ls : List Nat) : Prop where
  aligned : (baseOff (s.src a) 0).toNat % 8 = 0
  cleared : Cleared s (itemsOf s s.gc s.thr.vd (baseOff (s.src a) 0).toNat 72 false true .ownSpad) (l :: ls)
  clear : heapClear s l = true

theorem itemsOf_aligned {s : State} {gc vd va len k : Nat} {r w : Bool} {forms : Forms} (h : va % k = 0) :
    ∀ x ∈ itemsOf s gc vd va len r w forms, x.base % k = 0 := by
  intro x hx
  obtain ⟨p, -, rfl⟩ := List.mem_map.1 hx
  exact h

section
variable {s : State} {a b : Src} {l : Nat} {ls : List Nat} (h : HeapTurn s a l ls)
include h

theorem HeapTurn.quiet (hue : s.ue = []) (hce : s.ce = []) (hwait : ∀ y, waitersOf s y = []) : QuietHeap s l :=
  ⟨(unwaited_iff s).1 hwait, hue, hce, ownSpad_loc h.cleared.1 (List.mem_cons_self ..)⟩

section
variable {rs : List Reg} {pre : State → Option Word} {wait : State → State} {k : Nat → State → State}
  (hp : Present s (srcRegs a ++ rs))
include hp

theorem HeapTurn.heapForm_refuses {w : Word} (hpre : pre s = some w) : heapForm a rs pre wait k s = s.trap cFmtbad w := by
  rw [heapForm, withRegs_present hp]
  dsimp only
  rw [checked_aligned (itemsOf_aligned h.aligned), checkedMid_cleared h.cleared, hpre]

theorem HeapTurn.heapForm_acts (hpre : pre s = none) : heapForm a rs pre wait k s = k l s.leaveAll := by
  rw [heapForm, withRegs_present hp]
  dsimp only
  rw [checked_aligned (itemsOf_aligned h.aligned), checkedMid_cleared h.cleared, hpre]
  exact if_pos h.clear

end

section
variable {sw : Bool} (hp : Present s (srcRegs a ++ srcRegs b))
include hp

theorem hsinit_completes (q : QuietHeap s l) (hlo : 0 < (s.src b).toNat) (hhi : (s.src b).toNat ≤ 8) :
    Completes (.hsinit sw a b) s fun t => Passes sw s t ∧ StoresBytes s t l (wordBytes (s.src b :: List.replicate 8 0)) := by
  have hok : ¬ (s.src b = 0 || decide (8 < (s.src b).toNat)) = true := by
    have hne : s.src b ≠ 0 := fun he => Nat.lt_irrefl 0 (by rw [he] at hlo; exact hlo)
    rw [Bool.or_eq_true, decide_eq_true_eq, decide_eq_true_eq]
    exact not_or.2 ⟨hne, Nat.not_lt.2 hhi⟩
  have hexec : exec (.hsinit sw a b) s = .next ((heapWrite l s.leaveAll 0 (s.leaveAll.src b :: List.replicate 8 0)).finish sw) :=
    congrArg _ (h.heapForm_acts hp (if_neg hok))
  rw [leaveAll_src] at hexec
  refine ⟨_, hexec, finish_passes ((q.leaveAll.heapWrite_onlyMemory ..).thr.trans (leaveAll_thr s)) sw, ?_⟩
  exact (q.leaveAll.heapWrite_stores 0 _).congr (leaveAll_mem s).symm rfl

theorem hsinit_refuses (hc : CanTrap s) (hbad : (s.src b).toNat = 0 ∨ 8 < (s.src b).toNat) :
    Completes (.hsinit sw a b) s fun t => TrapsTo s t 0x0F s.thr.pc (s.src b) := by
  have hk : (s.src b = 0 || decide (8 < (s.src b).toNat)) = true := by
    rw [Bool.or_eq_true, decide_eq_true_eq, decide_eq_true_eq]
    exact hbad.imp_left fun h0 => BitVec.eq_of_toNat_eq h0
  exact ⟨_, congrArg Host.Outcome.next (h.heapForm_refuses hp (if_pos hk)), trap_enters hc cFmtbad _⟩

section
variable {d : SReg} (q : QuietHeap s l) (hid : field (s.src b) 31 16 = 0)
include q hid

theorem exec_hsift_valid (hv : heapInvalid (heapWord s l 0) = false) : exec (.hsift sw d a b) s =
    .next (((sift l (s.src b) s.leaveAll).1.writeS d (sift l (s.src b) s.leaveAll).2).finish sw) := by
  have hpre : ¬ (field (s.src b) 31 16 != 0) = true := by simp [hid]
  refine congrArg _ ((h.heapForm_acts hp (if_neg hpre)).trans ?_)
  dsimp only
  rw [q.leaveAll.heapBad]
  dsimp only
  rw [q.leaveAll.heapMeets, leaveAll_heapWord, hv, leaveAll_src]
  rfl

theorem hsift_completes (hv : heapInvalid (heapWord s l 0) = false) {v : State} {r : Word}
    (hsift : sift l (s.src b) s.leaveAll = (v, r)) (hthr : v.thr = s.thr) :
    Completes (.hsift sw d a b) s fun t => (InSequence sw s t ∧ SetsS s t d r) ∧ t.mem = v.mem := by
  have hexec := exec_hsift_valid h hp (sw := sw) (d := d) q hid hv
  rw [hsift] at hexec
  exact ⟨_, hexec, (writeS_finish_sets hthr d r sw).symm, rfl⟩

theorem hsift_refuses (hv : heapInvalid (heapWord s l 0) = true) (hqueue : queuedBefore (s.core s.gc).port = []) (hc : CanTrap s) :
    Completes (.hsift sw d a b) s fun t => TrapsTo s t 0x0F s.thr.pc (heapWord s l 0) := by
  have hpre : ¬ (field (s.src b) 31 16 != 0) = true := by simp [hid]
  refine ⟨s.trap cFmtbad (heapWord s l 0), congrArg _ ((h.heapForm_acts hp (if_neg hpre)).trans ?_), trap_enters hc cFmtbad _⟩
  rw [leaveAll_nil hqueue]
  dsimp only
  rw [q.heapBad]
  dsimp only
  rw [q.heapMeets, if_pos hv]

end

end

section
variable {d : SReg} {sw : Bool} (hp : Present s (srcRegs a)) (hslot : HasSlot s) (q : QuietHeap s l)
  (hv : heapInvalid (heapWord s l 0) = false)
include hp hslot q hv

theorem exec_hpop_valid : exec (.hpop sw d a) s = .next (
    let u := s.leaveAll
    let n := heapN (heapWord s l 0)
    if n = 0 then (u.defer [.s d (BitVec.allOnes 64)] .plain true).finish sw
    else ((heapWrite l (heapWrite l u n [0]) 0 [heapWord s l 0 - 16]).defer [.s d (heapWord s l n)] .plain true).finish sw) := by
  show execHpop sw d a s = _
  rw [execHpop, withSlot_room hslot, h.heapForm_acts (by rwa [List.append_nil]) rfl]
  dsimp only
  rw [q.leaveAll.heapBad]
  dsimp only
  rw [q.leaveAll.heapMeets, leaveAll_heapWord, hv, leaveAll_heapWord]
  rfl

theorem hpop_empty (hn : heapN (heapWord s l 0) = 0) : Completes (.hpop sw d a) s fun t =>
    InSequence sw s t ∧ Defers s t [.s d (BitVec.allOnes 64)] true ∧ SameMemory s t := by
  have hexec := exec_hpop_valid h hp hslot q hv (d := d) (sw := sw)
  dsimp only at hexec
  rw [if_pos hn] at hexec
  obtain ⟨hdefers, hseq⟩ := defer_finish_from (leaveAll_thr s) (leaveAll_seq s) [.s d (BitVec.allOnes 64)] true sw
  exact ⟨_, hexec, hseq, hdefers, fun x => by rw [State.finish_mem, State.defer_mem, leaveAll_mem]⟩

/-- The best entry goes into D, its word is zero, and the header counts one less. -/
theorem hpop_takes (hn : 0 < heapN (heapWord s l 0)) : Completes (.hpop sw d a) s fun t =>
    InSequence sw s t ∧ Defers s t [.s d (heapWord s l (heapN (heapWord s l 0)))] true ∧ ∀ x,
      memRead t.mem x = if l ≤ x ∧ x < l + 8 then (toBytes 8 (heapWord s l 0 - 16).toNat).getD (x - l) 0
        else if l + 8 * heapN (heapWord s l 0) ≤ x ∧ x < l + 8 * heapN (heapWord s l 0) + 8 then 0 else memRead s.mem x := by
  have hexec := exec_hpop_valid h hp hslot q hv (d := d) (sw := sw)
  dsimp only at hexec
  rw [if_neg (Nat.pos_iff_ne_zero.1 hn)] at hexec
  have q' := q.leaveAll.heapWrite (heapN (heapWord s l 0)) [0]
  have honly := (q.leaveAll.heapWrite_onlyMemory (heapN (heapWord s l 0)) [0]).trans
    (q'.heapWrite_onlyMemory 0 [heapWord s l 0 - 16])
  obtain ⟨hdefers, hseq⟩ := defer_finish_from (honly.thr.trans (leaveAll_thr s)) (honly.seq.trans (leaveAll_seq s))
    [.s d (heapWord s l (heapN (heapWord s l 0)))] true sw
  have hentry := q.leaveAll.heapWrite_stores (heapN (heapWord s l 0)) [0]
  have hheader := q'.heapWrite_stores 0 [heapWord s l 0 - 16]
  refine ⟨_, hexec, hseq, hdefers, fun x => ?_⟩
  have hzero (k : Nat) : (toBytes 8 (0 : Word).toNat).getD k 0 = 0 := by
    rw [show toBytes 8 (0 : Word).toNat = List.replicate 8 0 from rfl, List.getD_eq_getElem?_getD,
      List.getElem?_getD_replicate_default_eq]
  rw [State.finish_mem, State.defer_mem, hheader x, hentry x, wordBytes_singleton, wordBytes_singleton, toBytes_length,
    toBytes_length, Nat.mul_zero, Nat.add_zero, hzero, leaveAll_mem]

end

end

/-! ### The statement -/

/-- Settles O34: each form acts on the heap as it stands once the writes before it have left the store queue. -/
theorem heapSteps : Obligations.HeapSteps := by
  unfold Obligations.HeapSteps
  intro sw d a b l ls s va hal hclr hclear hue hce _ _ hwait word h n es bytes
  have hva : (baseOff (s.src a) 0).toNat = va.toNat := by rw [baseOff_zero]
  have turn : HeapTurn s a l ls := ⟨hva ▸ hal, hva ▸ hclr, hclear⟩
  have q := turn.quiet hue hce hwait
  have hk : heapK h = h.toNat % 16 := heapK_eq h
  refine ⟨fun hp => ⟨fun hlo hhi => ?init, fun hbad hc => ?capacity, fun hid hv => ?sift, fun hid hv hqueue hc => ?header⟩,
    fun hp hslot hv => ⟨fun hn => ?empty, fun hn => ?pop⟩⟩
  case init => exact hsinit_completes turn hp q hlo hhi
  case capacity => exact hsinit_refuses turn hp hc hbad
  case header => exact hsift_refuses turn hp q hid hv hqueue hc
  case empty => exact hpop_empty turn hp hslot q hv hn
  case pop => exact hpop_takes turn hp hslot q hv hn
  case sift =>
    have hfrom {v : State} {bs : List Byte} {i : Nat} (hst : StoresBytes s.leaveAll v (l + 8 * i) bs) {t : State}
        (ht : t.mem = v.mem) : StoresBytes s t (l + 8 * i) bs := hst.congr (leaveAll_mem s).symm ht
    intro nan d'
    have hnan : (heapScore (s.src b)).isNan = true ↔ nan := heapScore_isNan _
    rw [← hk]
    refine ⟨fun hnum hroom => ?adds, fun hnum hfull hbeats => ?replaces, fun hkeep => ?keeps⟩
    case adds =>
      have hsift := sift_adds (s := s.leaveAll) (l := l) (b := s.src b) (fun hx => hnum (hnan.1 hx))
        (by rw [leaveAll_heapWord]; exact hroom)
      rw [leaveAll_heapWord, leaveAll_heapEntries] at hsift
      refine (hsift_completes turn hp q hid hv hsift ((q.leaveAll.heapWrite_onlyMemory ..).thr.trans (leaveAll_thr s))).imp
        fun t ⟨hres, hmem⟩ => ⟨hres, hfrom (q.leaveAll.heapWrite_stores 0 _) hmem⟩
    case replaces =>
      have hsift := sift_replaces (s := s.leaveAll) (l := l) (b := s.src b) (fun hx => hnum (hnan.1 hx))
        (by rw [leaveAll_heapWord]; exact hfull) (by rw [leaveAll_heapEntries]; exact hbeats)
      rw [leaveAll_heapEntries] at hsift
      refine (hsift_completes turn hp q hid hv hsift ((q.leaveAll.heapWrite_onlyMemory ..).thr.trans (leaveAll_thr s))).imp
        fun t ⟨hres, hmem⟩ => ⟨hres, hfrom (q.leaveAll.heapWrite_stores 1 _) hmem⟩
    case keeps =>
      have hsift := sift_keeps (s := s.leaveAll) (l := l) (b := s.src b) (by
        rw [leaveAll_heapWord, leaveAll_heapEntries]; exact hkeep.imp_left hnan.2)
      exact (hsift_completes turn hp q hid hv hsift (leaveAll_thr s)).imp
        fun t ⟨hres, hmem⟩ => ⟨hres, fun x => congrArg (memRead · x) (hmem.trans (leaveAll_mem s))⟩

end Sys2Proof.Machine
end

section
/-! SUPPORT. Counters: HIST at issue, and one of its increments at its home (R316 to R319). -/

namespace Sys2Proof.Machine

/-! ### At issue (R317) -/

theorem hist_completes {i : Instr} {s : State} {sw ovf : Bool} {sz : Sz} {pg : PReg} {a : Src} {v : VReg} {g : Nat → Addr}
    {ls : List (Nat × Addr)} {locs : List Nat} (hexec : exec i s = .next (histForm sw sz pg a v ovf s))
    (h : Present s (srcRegs a ++ [.v v, .p pg])) (hroom : queueFull (s.core s.gc).port = false)
    (hg : ∀ j, addrPlus (s.src a) (8 * s.vlane sz.bits v j) = g j)
    (hls : ((List.range sz.lanes).filter fun i => activeLane (s.thr.getP pg) sz.bits i).map (fun i => (i, g i)) = ls)
    (hal : ∀ e ∈ ls, e.2.toNat % 8 = 0) (hc : Cleared s (laneItems 8 true true .sliceOnly ls) locs) :
    Completes i s fun t => Passes sw s t ∧ EntersPort s t (if ls = [] then [] else
      [s.newAccess (.hist ovf) .t false false none 0 ((ls.zip locs).map fun e => ⟨e.1.1, e.1.2, e.2, 8, []⟩)]) := by
  obtain rfl : (fun j => addrPlus (s.src a) (8 * s.vlane sz.bits v j)) = g := funext hg
  rw [← activeAddrs_eq] at hls
  obtain rfl := hls
  refine ⟨_, exec_cleared (exec_withRegs hexec h) (laneItems_aligned hal) hc, ?_⟩
  rw [hroom]
  cases activeAddrs (s.thr.getP pg) sz.bits sz.lanes fun j => addrPlus (s.src a) (8 * s.vlane sz.bits v j) with
  | nil => exact ⟨finish_passes (s := s) rfl sw, entersPort_nil rfl⟩
  | cons e ls => exact bump_toPort_finish s _ sw

/-! ### At the home (R318, R319) -/

/-- COUNT goes up by one; at its maximum it stays, and the overflow bit above it is set (R317). -/
theorem histNew_fst (x : Nat) : (histNew x).1 =
    if x % 2 ^ 32 = 2 ^ 32 - 1 then (if x / 2 ^ 32 % 2 = 1 then x else x + 2 ^ 32) else x + 1 := by
  rw [histNew]; split <;> rfl

section
variable {s : State} {gc : Nat} {a : Access} {p : Part} {rest : List Access}

theorem exec_histAtHome (h : OldestOf s gc a p rest) {ovf : Bool} (hkind : a.kind = .hist ovf) :
    exec (.accessAtHome (.port gc a.id p.lane)) s = .next (applyHist (s.leave gc [] a) gc a p ovf) := by
  have hexec := h.exec
  rw [hkind] at hexec
  refine hexec.trans (congrArg _ ?_)
  have hbusy : locBusy [] a p = false := by rw [locBusy, h.2.2.1, List.takeWhile_cons_of_neg (by simp)]; rfl
  have hlane : a.parts.find? (fun q => q.lane = p.lane) = some p := by rw [h.2.2.1]; exact List.find?_cons_of_pos (by simp)
  have hnow (k : State → State) : writeNow s gc [] a false k = k (s.leave gc [] a) := rfl
  simp [applyPort, h.reachedParts, h.beforeOf, hlane, h.mayGo, hkind, hbusy, hnow]

/-- A change of the entry itself leaves it first in its port. -/
theorem StandsFirst.modAccess (h : StandsFirst s gc a p rest) {f : Access → Access}
    (hf : ∀ b, (f b).id = b.id ∧ (f b).tid = b.tid ∧ (f b).acq = b.acq ∧ (f b).parts = b.parts) :
    StandsFirst (s.modAccess gc a.id f) gc a p rest := by
  obtain ⟨hk, ⟨b, hport, hid, htid, hacq, hparts⟩, hids⟩ := h
  obtain ⟨fid, ftid, facq, fparts⟩ := hf b
  refine ⟨hk, ⟨f b, ?_, fid.trans hid, ftid.trans htid, facq.trans hacq, fparts.trans hparts⟩, hids⟩
  rw [State.modAccess, modCore_core_same, hport]
  exact map_first (c := fun x : Access => x.id = a.id) hid hids

theorem StandsFirst.pend (h : StandsFirst s gc a p rest) (id code : Nat) (tval : Word) :
    StandsFirst (s.pend id code tval) gc a p rest := h.congr (modThread_cores ..) (modThread_keyed h.keyed _ _)

/-- The entry leaves its port with its bytes written, where no unit is bad and nothing waits. -/
theorem StandsFirst.write_partDone (h : StandsFirst s gc a p rest) (hu : Unwaited s) (hue : s.ue = []) {l : Nat} (hlost : isLost l = false)
    (htrig : isTrig l = false) (bs : List Byte) : StoresBytes s ((s.writeLoc l bs).1.partDone gc a p.lane) l bs ∧
      (((s.writeLoc l bs).1.partDone gc a p.lane).core gc).port = portAfter a rest := by
  rw [writeLoc_unwaited hu (canWrite_sound hue hlost _)]
  have honly := (rawWrite_onlyMemory s l bs).trans (spill_keeps (s.rawWrite l bs) l).1
  have hleaves := (h.congr honly.cores (honly.keyed h.keyed)).partDone
  refine ⟨fun x => ?_, hleaves.port⟩
  rw [hleaves.mem, spill_read]
  simp only [htrig, true_and]

theorem hist_completes_home (h : OldestOf s gc a p rest) {ovf : Bool} (hkind : a.kind = .hist ovf) (hue : s.ue = [])
    (hce : s.ce = []) (hlost : isLost p.loc = false) (htrig : isTrig p.loc = false) (hu : Unwaited s) :
    Completes (.accessAtHome (.port gc a.id p.lane)) s fun t =>
      StoresBytes s t p.loc (toBytes 8 (histNew (ofBytes (memReadN s.mem p.loc 8))).1) ∧ (t.core gc).port = portAfter a rest := by
  refine ⟨_, exec_histAtHome h hkind, ?_⟩
  have hread : (s.leave gc [] a).readLoc p.loc 8 = some (memReadN s.mem p.loc 8) := readLoc_sound (s := s.leave gc [] a) hue hlost 8
  have hmet : (s.leave gc [] a).metBy a p = s.leave gc [] a := countUe_sound (s := s.leave gc [] a) hue hce _ _
  have hfirst := h.leave_standsFirst
  have hu' := h.leave_unwaited hu
  simp only [applyHist, hread, hmet]
  split
  case isTrue =>
    have hreported := (hfirst.modAccess (f := fun b => { b with reported := true }) fun _ => ⟨rfl, rfl, rfl, rfl⟩).pend a.tid cCntovf
      (p.va.setWidth 64)
    have hworld := modThread_world ((s.leave gc [] a).modAccess gc a.id fun b => { b with reported := true }) a.tid
      fun x => x.pendCause cCntovf (p.va.setWidth 64)
    obtain ⟨hstores, hport⟩ := hreported.write_partDone
      ((hu'.mapPort gc (f := fun b => if b.id = a.id then { b with reported := true } else b) fun b => by
        split <;> exact ⟨rfl, rfl⟩).congr (modThread_cores ..))
      (by rw [State.pend, hworld]; exact hue) hlost htrig (toBytes 8 (histNew (ofBytes (memReadN s.mem p.loc 8))).1)
    exact ⟨hstores.congr (by rw [State.pend, hworld]; rfl) rfl, hport⟩
  case isFalse => exact hfirst.write_partDone hu' hue hlost htrig _

end

end Sys2Proof.Machine
end

section
/-! SUPPORT. Remap windows: REMAPW and REMAPX; and the statement on counters and windows (R316 to R322). -/

namespace Sys2Proof.Machine

/-! ### The words of a structure -/

/-- A number cut out of bytes has no more bits than its bytes. -/
theorem elems_getD_lt (n i : Nat) (bs : List Byte) : (elems n bs).getD i 0 < 2 ^ (8 * n) := by
  rw [elems, List.getD_eq_getElem?_getD, List.getElem?_map]
  cases (List.range (bs.length / n))[i]? with
  | none => exact Nat.two_pow_pos _
  | some k =>
    refine (ofBytes_lt _).trans_le (Nat.pow_le_pow_right (by decide) (Nat.mul_le_mul_left 8 ?_))
    rw [List.length_take]
    exact Nat.min_le_left ..

/-- The thread may read structures in one hold: nothing of its own is in the port, and no unit of memory is bad. -/
structure MayHold (s : State) : Prop where
  alone : ∀ y ∈ (s.core s.gc).port, y.tid ≠ s.thr.id
  ue : s.ue = []
  ce : s.ce = []

/-- The items pass their checks at `locs`, none of them is cut off, and their bytes are these words. -/
structure ReadsWords (s : State) (items : List Item) (locs ws : List Nat) : Prop where
  cleared : Cleared s items locs
  served : ∀ y ∈ pieceLocs s items locs, isLost y = false
  words : elems 8 ((pieceLocs s items locs).map (memRead s.mem)) = ws

theorem MayHold.holdWords {s : State} (h : MayHold s) {items : List Item} {locs ws : List Nat} (hr : ReadsWords s items locs ws)
    (k : Option (List Nat) → State → State) : holdWords s (pieceLocs s items locs) k = k (some ws) s := by
  rw [Machine.holdWords, if_pos (engClear_alone h.alone ..), gatherBytes_sound h.ue hr.served, countUe_sound h.ue h.ce,
    Option.map_some, hr.words]

/-- A completed instruction that has changed one VD. -/
theorem modVd_finish (s : State) (vk : Nat) (f : Vd → Vd) (sw : Bool) :
    let t := (s.modVd vk f).finish sw
    Passes sw s t ∧ t = { s with thr := t.thr, vds := t.vds } ∧ t.vd vk = f (s.vd vk) :=
  ⟨finish_passes (s := s) (u := s.modVd vk f) rfl sw, rfl, vd_modVd s vk f⟩

/-! ### REMAPW (R320, R321) -/

/-- A VD with window `w` defined, and with it removed. -/
def Vd.putWindow (w : Nat) (x : Remap) (v : Vd) : Vd := { v with remaps := tblPut v.remaps w x }
def Vd.dropWindow (w : Nat) (v : Vd) : Vd := { v with remaps := tblDel v.remaps w }

/-- The bytes of the descriptor that an address names. -/
def remapItems (s : State) (a : Src) : List Item := itemsOf s s.gc s.thr.vd (baseOff (s.src a) 0).toNat 16 true false .any

/-- A word of the descriptor that has been read. -/
def descWord (words : List Nat) (i : Nat) : Word := BitVec.ofNat 64 (words.getD i 0)

/-- Bytes in one row of a window, of its descriptor's second word. -/
def rowBytesOf (w1 : Word) : Nat := (field w1 25 16 + 1) * 64

/-- The bytes of the rows that a descriptor names. -/
def rowItems (s : State) (w0 w1 : Word) : List Item := itemsOf s s.gc s.thr.vd w0.toNat (8 * field w1 12 0) true false .any

section
variable {s : State} {sw : Bool} {a b : Src} {locs0 : List Nat} (hp : Present s (srcRegs a ++ srcRegs b))
  (hal : (baseOff (s.src a) 0).toNat % 16 = 0)
include hp hal

theorem remapw_refuses (hclr : Cleared s (remapItems s a) locs0) (hbig : 63 < (s.src b).toNat) (hc : CanTrap s) :
    Completes (.remapw sw a b) s fun t => TrapsTo s t 0x0F s.thr.pc (s.src b) := by
  have hgo : exec (.remapw sw a b) s = execRemapw sw a b s := rfl
  rw [execRemapw, withRegs_present hp] at hgo
  have hexec := exec_cleared hgo (itemsOf_aligned hal) hclr
  exact ⟨_, hexec.trans (congrArg Host.Outcome.next (if_pos hbig)), trap_enters hc cFmtbad _⟩

theorem remapw_defines {words rows locs : List Nat} (hsmall : (s.src b).toNat ≤ 63)
    (hfree : tblFind (s.vd s.thr.vk).remaps (s.src b).toNat = none) (hold : MayHold s)
    (hdesc : ReadsWords s (remapItems s a) locs0 words) (hgood : remapBad (descWord words 0) (descWord words 1) = none)
    (hrows : ReadsWords s (rowItems s (descWord words 0) (descWord words 1)) locs rows)
    (hfit : rowBad (rowBytesOf (descWord words 1)) rows = none) :
    Completes (.remapw sw a b) s fun t => Passes sw s t ∧ t = { s with thr := t.thr, vds := t.vds } ∧
      tblFind (t.vd s.thr.vk).remaps (s.src b).toNat = some ⟨s.thr.teamNum, rowBytesOf (descWord words 1), rows⟩ := by
  have hgo : exec (.remapw sw a b) s = execRemapw sw a b s := rfl
  rw [execRemapw, withRegs_present hp] at hgo
  have hexec := exec_cleared hgo (itemsOf_aligned hal) hdesc.cleared
  have hdefines : exec (.remapw sw a b) s = .next ((s.modVd s.thr.vk
      (Vd.putWindow (s.src b).toNat ⟨s.thr.teamNum, rowBytesOf (descWord words 1), rows⟩)).finish sw) := by
    refine hexec.trans (congrArg Host.Outcome.next ?_)
    rw [remapItems] at hdesc
    rw [rowItems] at hrows
    rw [rowBytesOf] at hfit ⊢
    simp only [descWord] at hgood hrows hfit ⊢
    rw [if_neg (Nat.not_lt.2 hsmall), hfree, if_neg (by decide), hold.holdWords hdesc]
    dsimp only
    rw [hgood]
    dsimp only
    rw [checkedMid_cleared hrows.cleared, hold.holdWords hrows]
    dsimp only
    rw [hfit]
    rfl
  obtain ⟨hpasses, hworld, hvd⟩ := modVd_finish s s.thr.vk
    (Vd.putWindow (s.src b).toNat ⟨s.thr.teamNum, rowBytesOf (descWord words 1), rows⟩) sw
  refine ⟨_, hdefines, hpasses, hworld, ?_⟩
  rw [hvd, Vd.putWindow, tblFind_put, if_pos rfl]

end

/-! ### REMAPX (R322) -/

section
variable {s : State} {sw : Bool} {a : Src} (hp : Present s (srcRegs a))
include hp

theorem remapx_refuses (hbig : 63 < (s.src a).toNat) (hc : CanTrap s) :
    Completes (.remapx sw a) s fun t => TrapsTo s t 0x0F s.thr.pc (s.src a) := by
  have hexec : exec (.remapx sw a) s = _ := exec_withRegs rfl hp
  exact ⟨_, hexec.trans (congrArg Host.Outcome.next (if_pos hbig)), trap_enters hc cFmtbad _⟩

variable (hsmall : (s.src a).toNat ≤ 63)
include hsmall

theorem remapx_undefined (hnone : tblFind (s.vd s.thr.vk).remaps (s.src a).toNat = none) :
    Completes (.remapx sw a) s fun t => Passes sw s t ∧ SameWorld s t := by
  have hexec : exec (.remapx sw a) s = _ := exec_withRegs rfl hp
  refine ⟨s.finish sw, hexec.trans (congrArg Host.Outcome.next ?_), finish_passes (s := s) rfl sw, rfl⟩
  rw [if_neg (Nat.not_lt.2 hsmall), hnone]; rfl

theorem remapx_removes (hsome : (tblFind (s.vd s.thr.vk).remaps (s.src a).toNat).isSome)
    (hidle : windowBusy s s.thr.vk (s.src a).toNat = false) :
    Completes (.remapx sw a) s fun t => Passes sw s t ∧ t = { s with thr := t.thr, vds := t.vds } ∧
      t.vd s.thr.vk = (s.vd s.thr.vk).dropWindow (s.src a).toNat := by
  have hexec : exec (.remapx sw a) s = _ := exec_withRegs rfl hp
  refine ⟨(s.modVd s.thr.vk (Vd.dropWindow (s.src a).toNat)).finish sw, hexec.trans (congrArg Host.Outcome.next ?_),
    modVd_finish ..⟩
  obtain ⟨r, hr⟩ := Option.isSome_iff_exists.1 hsome
  rw [if_neg (Nat.not_lt.2 hsmall), hr, hidle]; rfl

end

/-! ### The statement -/

/-- Settles O35: HIST has the shape of one posted access over its lanes, its increment that of a write at its home; a window is one
entry of its VD's table. -/
theorem countersAndRemapWindows : Obligations.CountersAndRemapWindows := by
  unfold Obligations.CountersAndRemapWindows
  intro sw ovf sz pg a b v gc locs0 locs acc p rest s i lanes va w vk number desc words w0 w1 pages rows
  have hva : (baseOff (s.src a) 0).toNat = va.toNat := by rw [baseOff_zero]
  refine ⟨fun hp hroom hal hc => ?issue, fun hfirst hkind _ hue hce hlost htrig hwait => ?home,
    fun hp hal hclr => ⟨fun hbig hc => ?refuses, ?defines⟩,
    fun hp => ⟨remapx_refuses hp, remapx_undefined hp, fun hsmall hsome hidle => ?removes⟩⟩
  case issue =>
    have hexec : exec i s = .next (histForm sw sz pg a v ovf s) := by cases ovf <;> rfl
    have haddr (j : Nat) : addrPlus (s.src a) (8 * s.vlane sz.bits v j) =
        BitVec.ofInt 52 (va.toNat + 8 * lane (s.thr.getV v) sz.bits j : Nat) := by
      rw [addrPlus_eq, State.vlane]; push_cast; rfl
    exact hist_completes hexec hp hroom haddr rfl hal hc
  case home =>
    refine (hist_completes_home hfirst hkind hue hce hlost htrig ((unwaited_iff s).1 hwait)).imp fun t ht => ?_
    rw [histNew_fst] at ht
    exact ht
  case refuses => exact remapw_refuses hp (hva ▸ hal) (by rw [remapItems, hva]; exact hclr) hbig hc
  case defines =>
    intro hsmall hfree hport hue hce hlost0 hgood hpages hlost hfit
    have hitems : remapItems s a = desc := by rw [remapItems, hva]
    have hn0 : (descWord words 0).toNat = w0 := Nat.mod_eq_of_lt (elems_getD_lt 8 0 _)
    have hn1 : (descWord words 1).toNat = w1 := Nat.mod_eq_of_lt (elems_getD_lt 8 1 _)
    have hbytes : rowBytesOf (descWord words 1) = (w1 / 2 ^ 16 % 2 ^ 10 + 1) * 64 := by rw [rowBytesOf, field, hn1]; rfl
    have hpageItems : rowItems s (descWord words 0) (descWord words 1) = pages := by
      rw [rowItems, field, hn0, hn1, fieldN, Nat.pow_zero, Nat.div_one]
    rw [← hbytes] at hfit ⊢
    have hdesc : ReadsWords s desc locs0 words := ⟨hclr, hlost0, rfl⟩
    have hrows : ReadsWords s pages locs rows := ⟨hpages, hlost, rfl⟩
    rw [← hitems] at hdesc
    rw [← hpageItems] at hrows
    exact remapw_defines hp (hva ▸ hal) hsmall hfree ⟨hport, hue, hce⟩ hdesc hgood hrows hfit
  case removes =>
    refine (remapx_removes hp hsmall hsome hidle).imp fun t ⟨hpasses, hworld, hvd⟩ => ⟨hpasses, hworld, ?_, hvd⟩
    rw [hvd, Vd.dropWindow, tblFind_del, if_pos rfl]

end Sys2Proof.Machine
end

section
/-! SUPPORT. Every operation over the state keeps the canonical form of memory, and keeps threads held under their own numbers. -/

namespace Sys2Proof.Machine

/-- A state has the forms of an earlier one: its list of memory bytes is canonical, and its threads are held under their
numbers, where that was so before. -/
structure KeepsForms (s t : State) : Prop where
  memory : s.Wf → t.Wf
  threads : s.Keyed → t.Keyed

/-- An outcome that goes on goes on to a state that keeps the forms. -/
def OutKeeps (s : State) (o : Out) : Prop := ∀ t, o = .next t → KeepsForms s t

namespace KeepsForms

variable {s₀ s : State}

theorem refl (s : State) : KeepsForms s s := ⟨id, id⟩

/-- A change of other tables. -/
theorem update {thr cores routers arbiters vds teams disps posted forwards retraces fns pkgs cases invs back full ue ce iommu
    cycle seq
    free token agenda} (h : KeepsForms s₀ s) : KeepsForms s₀ ⟨thr, s.threads, cores, routers, arbiters, vds, teams, disps, posted,
    forwards, retraces, fns, pkgs, cases, invs, s.mem, back, full, ue, ce, iommu, cycle, seq, free, token, agenda⟩ :=
  ⟨h.memory, h.threads⟩

/-- The state of a pair that a function answers. -/
theorem of_eq {α : Type} {p : State × α} {x : α} (h : KeepsForms s₀ p.1) (hp : p = (s, x)) : KeepsForms s₀ s := by
  rw [hp] at h; exact h

theorem pair {α : Type} {x : α} (h : KeepsForms s₀ s) : KeepsForms s₀ (s, x).1 := h

theorem ite {c : Prop} [Decidable c] {a b : State} (ha : KeepsForms s₀ a) (hb : KeepsForms s₀ b) :
    KeepsForms s₀ (if c then a else b) := by split <;> assumption

theorem foldl {α : Type} {xs : List α} {f : State → α → State} (h : KeepsForms s₀ s)
    (hf : ∀ s x, KeepsForms s₀ s → KeepsForms s₀ (f s x)) :
    KeepsForms s₀ (xs.foldl f s) := by
  induction xs generalizing s with
  | nil => exact h
  | cons x xs ih => exact ih (hf s x h)

/-- The same where something else is carried along. -/
theorem foldl_fst {α β : Type} {xs : List α} {f : State × β → α → State × β} {p : State × β} (h : KeepsForms s₀ p.1)
    (hf : ∀ p x, KeepsForms s₀ p.1 → KeepsForms s₀ (f p x).1) :
    KeepsForms s₀ (xs.foldl f p).1 := by
  induction xs generalizing p with
  | nil => exact h
  | cons x xs ih => exact ih (hf p x h)

theorem next (h : KeepsForms s₀ s) : OutKeeps s₀ (.next s) := by
  rintro t ⟨⟩; exact h

theorem setThread {x : Thread} (h : KeepsForms s₀ s) : KeepsForms s₀ (s.setThread x) :=
  ⟨fun w => setThread_wf (h.memory w) x, fun k => setThread_keyed (h.threads k) x⟩

theorem focus {t : Nat} (h : KeepsForms s₀ s) : KeepsForms s₀ (s.focus t) :=
  ⟨fun w => focus_wf (h.memory w) t, fun k => focus_keyed (h.threads k) t⟩

/-- A change of memory that keeps its form. -/
theorem withMem {thr cores routers arbiters vds teams disps posted forwards retraces fns pkgs cases invs mem back full ue ce
    iommu cycle
    seq free token agenda} (h : KeepsForms s₀ s) (hm : s.Wf → memWf mem = true) : KeepsForms s₀ ⟨thr, s.threads, cores,
        routers, arbiters,
    vds, teams, disps, posted, forwards, retraces, fns, pkgs, cases, invs, mem, back, full, ue, ce, iommu, cycle, seq, free,
        token,
    agenda⟩ := ⟨fun w => hm (h.memory w), h.threads⟩

end KeepsForms

theorem OutKeeps.ite {s₀ : State} {c : Prop} [Decidable c] {a b : Out} (ha : OutKeeps s₀ a) (hb : OutKeeps s₀ b) :
    OutKeeps s₀ (if c then a else b) := by split <;> assumption

theorem mem_insertBy {α : Type} {f : α → Nat} {x y : α} {ys : List α} (h : x ∈ insertBy f y ys) : x = y ∨ x ∈ ys := by
  induction ys with
  | nil => exact .inl (List.mem_singleton.1 h)
  | cons z zs ih =>
    rw [insertBy] at h
    split at h
    · simpa using h
    · rcases List.mem_cons.1 h with rfl | h
      · exact .inr List.mem_cons_self
      · exact (ih h).imp_right (List.mem_cons_of_mem _)

namespace KeepsForms

variable {s₀ s : State}

/-! ### Threads, tables, events, landings, traps and registers -/

theorem modThread {t : Nat} {f : Thread → Thread} (h : KeepsForms s₀ s) : KeepsForms s₀ (s.modThread t f) := h.setThread

theorem modThr {f : Thread → Thread} (h : KeepsForms s₀ s) : KeepsForms s₀ (s.modThr f) := h.update

theorem setCore {gc : Nat} {c : Core} (h : KeepsForms s₀ s) : KeepsForms s₀ (s.setCore gc c) := h.update

theorem modCore {gc : Nat} {f : Core → Core} (h : KeepsForms s₀ s) : KeepsForms s₀ (s.modCore gc f) := h.setCore

theorem modRouter {r : Nat} {f : Router → Router} (h : KeepsForms s₀ s) : KeepsForms s₀ (s.modRouter r f) := h.update

theorem modVd {vk : Nat} {f : Vd → Vd} (h : KeepsForms s₀ s) : KeepsForms s₀ (s.modVd vk f) := h.update

theorem modFn {n : Nat} {f : Function → Function} (h : KeepsForms s₀ s) : KeepsForms s₀ (s.modFn n f) := h.update

theorem modPkg {p : Nat} {f : Pkg → Pkg} (h : KeepsForms s₀ s) : KeepsForms s₀ (s.modPkg p f) := h.update

theorem modTeam {vd num : Nat} {f : Team → Team} (h : KeepsForms s₀ s) : KeepsForms s₀ (s.modTeam vd num f) := h.update

theorem bump (h : KeepsForms s₀ s) : KeepsForms s₀ s.bump := h.update

theorem writeS {r : SReg} {x : Word} (h : KeepsForms s₀ s) : KeepsForms s₀ (s.writeS r x) := h.modThr

theorem writeV {r : VReg} {x : VWord} (h : KeepsForms s₀ s) : KeepsForms s₀ (s.writeV r x) := h.modThr

theorem writeP {r : PReg} {x : PWord} (h : KeepsForms s₀ s) : KeepsForms s₀ (s.writeP r x) := h.modThr

theorem ringWrite {fn r : Nat} {rec : List Byte} (h : KeepsForms s₀ s) : KeepsForms s₀ (Machine.ringWrite s fn r rec) := by
  refine ⟨fun w => ringWrite_wf (h.memory w) fn r rec, fun k => ?_⟩
  rw [State.Keyed, ringWrite_world]
  exact h.threads k

theorem ringPost {fn r : Nat} {rec : List Byte} (h : KeepsForms s₀ s) : KeepsForms s₀ (Machine.ringPost s fn r rec) := by
  unfold Machine.ringPost
  split
  · exact h
  · exact .ite h.ringWrite h.modFn

theorem postEvent {pkg vd type cause kind num team fab i0 i1 : Nat} (h : KeepsForms s₀ s) :
    KeepsForms s₀ (Machine.postEvent s pkg vd type cause kind num team fab i0 i1) := by
  unfold Machine.postEvent
  split
  exact h.ringPost

theorem postCp {vk type team i0 i1 : Nat} (h : KeepsForms s₀ s) : KeepsForms s₀ (Machine.postCp s vk type team i0 i1) :=
  h.postEvent

theorem postOlush {pkg vd type i0 i1 : Nat} (h : KeepsForms s₀ s) : KeepsForms s₀ (Machine.postOlush s pkg vd type i0 i1) :=
  h.postEvent

theorem pend {t code : Nat} {tval : Word} (h : KeepsForms s₀ s) : KeepsForms s₀ (s.pend t code tval) := h.modThread

theorem reland {t : Nat} (h : KeepsForms s₀ s) : KeepsForms s₀ (s.reland t) := by
  unfold State.reland
  dsimp only
  split
  · exact h
  · exact h.setThread.modCore

theorem refillHeld {t : Nat} (h : KeepsForms s₀ s) : KeepsForms s₀ (s.refillHeld t) := by
  unfold State.refillHeld
  split
  · exact h
  · split
    exact h.modCore.modTeam.reland

theorem arrive {l : Landing} (h : KeepsForms s₀ s) : KeepsForms s₀ (s.arrive l).1 := by
  unfold State.arrive
  dsimp only
  split
  · exact h.bump
  · split
    · exact h.bump.setThread
    · exact h.bump
    · split
      · exact h.bump
      · exact h.bump.setThread.modCore.pair
    · split
      · exact h.bump
      · exact h.bump.setThread.modCore.pair

theorem dropHeld {t : Nat} (h : KeepsForms s₀ s) : KeepsForms s₀ (s.dropHeld t) :=
  (ite h.modCore h.modCore.modTeam).foldl fun _ _ h => .ite h.pend h

theorem retire {t : Nat} (h : KeepsForms s₀ s) : KeepsForms s₀ (s.retire t) := h.modThread.dropHeld

theorem trapEnter {async : Bool} {code : Nat} {epc : Addr} {tval : Word} {fsrc : Option Word} (h : KeepsForms s₀ s) :
    KeepsForms s₀ (s.trapEnter async code epc tval fsrc) :=
  .ite h.modThr.retire.postEvent h.modThr

theorem doubleFault {code : Nat} {tval : Word} (h : KeepsForms s₀ s) : KeepsForms s₀ (s.doubleFault code tval) := by
  unfold State.doubleFault
  exact h.retire.postEvent

theorem takeTrap {async : Bool} {code : Nat} {epc : Addr} {tval : Word} {fsrc : Option Word} (h : KeepsForms s₀ s) :
    KeepsForms s₀ (s.takeTrap async code epc tval fsrc) :=
  .ite h.doubleFault (.ite h.trapEnter h.modThr)

theorem trap {code : Nat} {tval : Word} (h : KeepsForms s₀ s) : KeepsForms s₀ (s.trap code tval) := h.takeTrap

theorem eretGo (h : KeepsForms s₀ s) : KeepsForms s₀ s.eretGo := h.modThr

theorem finish {sw : Bool} (h : KeepsForms s₀ s) : KeepsForms s₀ (s.finish sw) := h.modThr

theorem finishAt {sw : Bool} {x : Addr} (h : KeepsForms s₀ s) : KeepsForms s₀ (s.finishAt sw x) := h.modThr

theorem parkFor {tval : Word} {regs : List Nat} (h : KeepsForms s₀ s) : KeepsForms s₀ (s.parkFor tval regs) := h.modThr

theorem parkOn {tval : Word} (h : KeepsForms s₀ s) : KeepsForms s₀ (s.parkOn tval) := h.parkFor

theorem bubble (h : KeepsForms s₀ s) : KeepsForms s₀ s.bubble := h.modThr

theorem withRegs {rs : List Reg} {k : State → State} (h : KeepsForms s₀ s) (hk : ∀ s, KeepsForms s₀ s → KeepsForms s₀ (k s)) :
    KeepsForms s₀ (s.withRegs rs k) := by
  unfold State.withRegs
  split
  · exact .ite h.bubble (hk _ h)
  · exact h.parkFor

theorem withSlot {k : State → State} (h : KeepsForms s₀ s) (hk : ∀ s, KeepsForms s₀ s → KeepsForms s₀ (k s)) :
    KeepsForms s₀ (s.withSlot k) :=
  .ite (hk _ h) h.modThr

theorem deferAs {acq : Bool} {writes : List RegWrite} {form : Form} {done : Bool} (h : KeepsForms s₀ s) :
    KeepsForms s₀ (s.deferAs acq writes form done) := by
  unfold State.deferAs
  exact h.bump.modThr

theorem defer {writes : List RegWrite} {form : Form} {done : Bool} (h : KeepsForms s₀ s) :
    KeepsForms s₀ (s.defer writes form done) :=
  h.deferAs

/-! ### Memory at its homes -/

theorem awaitWalks {pages : List (Nat × Nat × Item)} (h : KeepsForms s₀ s) : KeepsForms s₀ (s.awaitWalks pages) := by
  unfold State.awaitWalks
  refine .modThr ?_
  refine .foldl h fun _ _ h => ?_
  split
  exact h.modRouter

theorem checkedMid {items : List Item} {mid : Option (Nat × Nat)} {k : List Nat → State → State} (h : KeepsForms s₀ s)
    (hk : ∀ x s, KeepsForms s₀ s → KeepsForms s₀ (k x s)) :
    KeepsForms s₀ (s.checkedMid items mid k) := by
  unfold State.checkedMid
  split
  · exact h.awaitWalks
  · exact h.trap
  · split
    · exact h.trap
    · split
      · exact h.trap
      · exact hk _ _ h

theorem checked {align : Nat} {items : List Item} {k : List Nat → State → State} (h : KeepsForms s₀ s)
    (hk : ∀ x s, KeepsForms s₀ s → KeepsForms s₀ (k x s)) :
    KeepsForms s₀ (s.checked align items k) := by
  unfold State.checked
  split
  · exact h.trap
  · exact h.checkedMid (fun _ _ h => hk _ _ h)

theorem engFill {gc vd : Nat} {vas : List Nat} (h : KeepsForms s₀ s) : KeepsForms s₀ (Machine.engFill s gc vd vas) := by
  unfold Machine.engFill
  refine .foldl h fun _ _ h => ?_
  split
  · split
    · exact h.modRouter
    · exact h
  · exact h

theorem engFillRanges {gc vd : Nat} {rs : List (Nat × Nat)} (h : KeepsForms s₀ s) :
    KeepsForms s₀ (Machine.engFillRanges s gc vd rs) :=
  h.engFill

theorem rawWrite {loc : Nat} {bs : List Byte} (h : KeepsForms s₀ s) : KeepsForms s₀ (s.rawWrite loc bs) := by
  unfold State.rawWrite
  exact .ite h (h.withMem fun w => memWf_writeN w loc bs)

theorem cleanLocs {ls : List (Nat × Nat)} (h : KeepsForms s₀ s) : KeepsForms s₀ (s.cleanLocs ls) := h.update

theorem cleanTile {vk : Nat} {x : Tile} (h : KeepsForms s₀ s) : KeepsForms s₀ (s.cleanTile vk x) := .ite h.cleanLocs h.update

theorem spill {loc : Nat} (h : KeepsForms s₀ s) : KeepsForms s₀ (s.spill loc) := by
  unfold State.spill
  refine .ite h ?_
  split
  · exact h
  · exact .ite h (.ite h h.update.cleanTile)

theorem setFull {loc : Nat} {b : Bool} (h : KeepsForms s₀ s) : KeepsForms s₀ (s.setFull loc b) := h.update

theorem postMemory {pkg loc len : Nat} {ue : Bool} (h : KeepsForms s₀ s) :
    KeepsForms s₀ (Machine.postMemory s pkg loc len ue) :=
  .ite h (.ite h h.postOlush.modPkg)

theorem countUnit {vd : Option Nat} {loc len : Nat} {ue : Bool} (h : KeepsForms s₀ s) :
    KeepsForms s₀ (s.countUnit vd loc len ue) := by
  unfold State.countUnit
  split
  · exact h
  · refine .postMemory ?_
    split
    · exact h.modPkg
    · exact h.modPkg.modVd

theorem meets {vd : Option Nat} {locs : List Nat} (h : KeepsForms s₀ s) : KeepsForms s₀ (s.meets vd locs) := by
  unfold State.meets
  refine .ite h ?_
  split
  · exact h.countUnit
  · exact h.update.foldl fun _ _ h => h.countUnit

theorem countUe {vd : Nat} {locs : List Nat} (h : KeepsForms s₀ s) : KeepsForms s₀ (s.countUe vd locs) := h.meets

theorem metBy {acc : Access} {p : Part} (h : KeepsForms s₀ s) : KeepsForms s₀ (s.metBy acc p) := h.countUe

theorem takeValue {acc : Access} {p : Part} {x : Option Nat} {st : PWord} (h : KeepsForms s₀ s) :
    KeepsForms s₀ (s.takeValue acc p x st) := by
  unfold State.takeValue
  exact (ite h.metBy h).modThread

theorem partDone {gc : Nat} {acc : Access} {lane : Nat} (h : KeepsForms s₀ s) : KeepsForms s₀ (s.partDone gc acc lane) :=
  .ite h.modCore h.modCore.modThread

theorem performWait {gc : Nat} {acc : Access} {p : Part} (h : KeepsForms s₀ s) :
    KeepsForms s₀ (Machine.performWait s gc acc p) := by
  unfold Machine.performWait
  split
  · split
    · exact h.metBy.takeValue.setFull.partDone
    · exact h.takeValue.partDone
  · exact h.rawWrite.setFull.partDone
  · exact h.countUe.partDone.modThread
  · exact h

theorem scan {word n : Nat} {failed : List Nat} (h : KeepsForms s₀ s) : KeepsForms s₀ (Machine.scan word n failed s).1 := by
  induction n generalizing failed s with
  | zero => exact h
  | succ n ih =>
    rw [Machine.scan]
    dsimp only
    split
    · exact h
    · exact ih h.performWait

theorem countRetries {failed : List Nat} (h : KeepsForms s₀ s) : KeepsForms s₀ (Machine.countRetries failed s) := h.update

theorem wordChanged {word : Nat} (h : KeepsForms s₀ s) : KeepsForms s₀ (Machine.wordChanged s word) := by
  unfold Machine.wordChanged
  refine .ite h ?_
  split
  exact .ite (h.scan.of_eq ‹_›).countRetries (h.scan.of_eq ‹_›)

theorem noteTrigger {loc : Nat} {g : Trigger} (h : KeepsForms s₀ s) : KeepsForms s₀ (Machine.noteTrigger s loc g) := h.modVd

theorem writeLoc {loc : Nat} {bs : List Byte} (h : KeepsForms s₀ s) : KeepsForms s₀ (s.writeLoc loc bs).1 := by
  unfold State.writeLoc
  split
  · exact h.rawWrite.spill.foldl fun _ _ h => h.wordChanged
  · exact h

/-! ### Arbiters -/

theorem modArb {a : Nat} {f : Arbiter → Arbiter} (h : KeepsForms s₀ s) : KeepsForms s₀ (s.modArb a f) := h.update

theorem accrueAt {arb : Nat} (h : KeepsForms s₀ s) : KeepsForms s₀ (s.accrueAt arb) := .ite h h.modArb

theorem accruePkg {pkg : Nat} (h : KeepsForms s₀ s) : KeepsForms s₀ (s.accruePkg pkg) := h.foldl fun _ _ h => h.accrueAt

theorem startUnit {arb : Nat} {u : Offer} {borrowed : Bool} (h : KeepsForms s₀ s) :
    KeepsForms s₀ (Machine.startUnit s arb u borrowed) :=
  h.modArb

theorem askUnit {arb : Nat} {u : Offer} (h : KeepsForms s₀ s) : KeepsForms s₀ (s.askUnit arb u).1 := by
  unfold State.askUnit
  dsimp only
  split
  · split
    · exact h.accrueAt
    · split
      · split
        · exact h.accrueAt.startUnit
        · exact h.accrueAt
      · exact h.accrueAt
  · split
    · exact h.accrueAt.modArb.pair
    · split
      · split
        · exact h.accrueAt.modArb.startUnit
        · exact h.accrueAt.modArb.pair
      · exact h.accrueAt.modArb.pair

theorem dropUnits {gone : Nat → Offer → Bool} (h : KeepsForms s₀ s) : KeepsForms s₀ (s.dropUnits gone) := h.update

theorem moveNext {gc vk op total paid : Nat} {cls : BitVec 2} (h : KeepsForms s₀ s) :
    KeepsForms s₀ (s.moveNext gc vk op total paid cls).1 := by
  unfold State.moveNext
  dsimp only
  exact h.askUnit

/-! ### Operands -/

theorem simple2 {sw : Bool} {d : SReg} {a b : Src} {f : Word → Word → Word} (h : KeepsForms s₀ s) :
    KeepsForms s₀ (Machine.simple2 sw d a b f s) :=
  h.withRegs fun _ h => h.writeS.finish

theorem simple1 {sw : Bool} {d : SReg} {a : Src} {f : Word → Word} (h : KeepsForms s₀ s) :
    KeepsForms s₀ (Machine.simple1 sw d a f s) :=
  h.withRegs fun _ h => h.writeS.finish

theorem deferred2 {sw : Bool} {d : SReg} {a b : Src} {f : Word → Word → Word} (h : KeepsForms s₀ s) :
    KeepsForms s₀ (Machine.deferred2 sw d a b f s) :=
  h.withSlot (fun _ h => h.withRegs (fun _ h => h.defer.finish))

theorem pred2 {sw : Bool} {d a b : PReg} {f : PWord → PWord → PWord} (h : KeepsForms s₀ s) :
    KeepsForms s₀ (Machine.pred2 sw d a b f s) :=
  h.withRegs fun _ h => h.writeP.finish

theorem pred1 {sw : Bool} {d a : PReg} {f : PWord → PWord} (h : KeepsForms s₀ s) : KeepsForms s₀ (Machine.pred1 sw d a f s) :=
  h.withRegs fun _ h => h.writeP.finish

theorem predS {sw : Bool} {d : SReg} {a : PReg} {f : PWord → Word} (h : KeepsForms s₀ s) :
    KeepsForms s₀ (Machine.predS sw d a f s) :=
  h.withRegs fun _ h => h.writeS.finish

/-! ### The port of a core -/

theorem leave {gc : Nat} {before : List Access} {acc : Access} (h : KeepsForms s₀ s) :
    KeepsForms s₀ (s.leave gc before acc) := by
  unfold State.leave
  exact h.modCore

theorem toPort {gc : Nat} {acc : Access} (h : KeepsForms s₀ s) : KeepsForms s₀ (s.toPort gc acc) := h.modCore

theorem pushHeld {gc : Nat} {held : List Access} (h : KeepsForms s₀ s) : KeepsForms s₀ (Machine.pushHeld gc held s) := by
  induction held generalizing s with
  | nil => exact h.modThr
  | cons a rest ih =>
    rw [Machine.pushHeld]
    exact .ite h.modThr (ih h.toPort)

theorem pushStores (h : KeepsForms s₀ s) : KeepsForms s₀ s.pushStores := h.pushHeld

theorem writeFailed {acc : Access} {p : Part} {va : Addr} (h : KeepsForms s₀ s) : KeepsForms s₀ (s.writeFailed acc p va) :=
  h.countUe.pend

theorem modAccess {gc id : Nat} {f : Access → Access} (h : KeepsForms s₀ s) : KeepsForms s₀ (s.modAccess gc id f) := h.modCore

theorem arriveSync {gc : Nat} {acc : Access} {p : Part} (h : KeepsForms s₀ s) : KeepsForms s₀ (Machine.arriveSync s gc acc p) :=
    by
  unfold Machine.arriveSync
  refine .ite ?_ (.ite h.bump.modAccess h.modAccess)
  dsimp only
  split
  · exact h.performWait.wordChanged
  · exact h.performWait.wordChanged
  · exact h.performWait

theorem readHome {gc : Nat} {acc : Access} {p : Part} (h : KeepsForms s₀ s) : KeepsForms s₀ (Machine.readHome s gc acc p) := by
  unfold Machine.readHome
  split
  · exact h.metBy.takeValue.partDone
  · exact h.takeValue.partDone

theorem applyLoad {gc : Nat} {acc : Access} {p : Part} {before : List Access} (h : KeepsForms s₀ s) :
    KeepsForms s₀ (Machine.applyLoad s gc acc p before) := by
  unfold Machine.applyLoad
  split
  · exact h
  · exact h.takeValue.partDone
  · exact .ite h h.readHome

theorem applyStore {gc : Nat} {acc : Access} {p : Part} (h : KeepsForms s₀ s) : KeepsForms s₀ (Machine.applyStore s gc acc p) :=
    by
  unfold Machine.applyStore
  refine .ite (.ite h.noteTrigger h.partDone) ?_
  split
  exact (ite (h.writeLoc.of_eq ‹_›) (h.writeLoc.of_eq ‹_›).writeFailed).partDone

theorem serveGather {gc : Nat} {acc : Access} {p : Part} (h : KeepsForms s₀ s) :
    KeepsForms s₀ (Machine.serveGather s gc acc p) :=
  .ite h h.readHome

theorem applyLdfp {gc : Nat} {acc : Access} {p : Part} (h : KeepsForms s₀ s) : KeepsForms s₀ (Machine.applyLdfp s gc acc p) :=
  (ite h.metBy h).takeValue.partDone

theorem applySetfe {gc : Nat} {acc : Access} {p : Part} {full : Bool} (h : KeepsForms s₀ s) :
    KeepsForms s₀ (Machine.applySetfe s gc acc p full) :=
  .ite h.writeFailed.partDone h.setFull.partDone.wordChanged

theorem applyAmo {gc : Nat} {acc : Access} {p : Part} {op : AmoOp} {b c : Word} (h : KeepsForms s₀ s) :
    KeepsForms s₀ (Machine.applyAmo s gc acc p op b c) := by
  unfold Machine.applyAmo
  split
  · exact h.takeValue.partDone
  · exact h.metBy.takeValue.partDone.writeLoc

theorem putPieces {ps : List Part} {bs : List Byte} (h : KeepsForms s₀ s) : KeepsForms s₀ (Machine.putPieces ps bs s) := by
  induction ps generalizing bs s with
  | nil => exact h
  | cons p ps ih => exact ih h.rawWrite.spill

theorem writePieces {ps : List Part} {bs : List Byte} (h : KeepsForms s₀ s) : KeepsForms s₀ (Machine.writePieces ps bs s) :=
  h.putPieces.foldl fun _ _ h => h.wordChanged

theorem applyRedu {gc : Nat} {acc : Access} {lane : Nat} {before : List Access} {ty : Ty} {rm : Rm} {sat : Bool}
    {op : ReduOp} {src : Option (List Byte)} (h : KeepsForms s₀ s) :
    KeepsForms s₀ (Machine.applyRedu s gc acc lane before ty rm sat op src) := by
  unfold Machine.applyRedu
  refine .ite ?_ ?_
  · split
    · exact h
    · dsimp only
      split
      · exact h
      · exact .ite h.writeFailed.modCore (h.foldl (fun _ _ h => h.metBy)).writePieces.modCore
  · split
    · exact h
    · refine .ite h ?_
      dsimp only
      split
      · exact h
      · exact h.writeFailed.modCore
      · exact h.metBy.modAccess

theorem applyHist {gc : Nat} {acc : Access} {p : Part} {ovf : Bool} (h : KeepsForms s₀ s) :
    KeepsForms s₀ (Machine.applyHist s gc acc p ovf) := by
  unfold Machine.applyHist
  split
  · exact h.writeFailed.partDone
  · split
    exact (ite h.metBy.modAccess.pend h.metBy).writeLoc.partDone

theorem dropLocs {ps : List (Nat × Nat)} (h : KeepsForms s₀ s) : KeepsForms s₀ (s.dropLocs ps) := by
  unfold State.dropLocs
  exact (h.withMem fun w => memWf_foldl w _ _ _).cleanLocs

theorem writeNow {gc : Nat} {before : List Access} {acc : Access} {busy : Bool} {k : State → State} (h : KeepsForms s₀ s)
    (hk : ∀ s, KeepsForms s₀ s → KeepsForms s₀ (k s)) :
    KeepsForms s₀ (Machine.writeNow s gc before acc busy k) :=
  .ite h (hk _ h.leave)

theorem applyPort {gc : Nat} {acc : Access} {lane : Nat} (h : KeepsForms s₀ s) :
    KeepsForms s₀ (Machine.applyPort s gc acc lane) := by
  unfold Machine.applyPort
  dsimp only
  split
  · exact h
  · refine .ite h ?_
    split
    · exact h.applyLoad
    · exact h
    · exact .ite h.applyRedu (h.writeNow (fun _ h => h.applyRedu))
    · exact h.writeNow (fun _ h => (ite h.cleanLocs h.dropLocs).partDone)
    · exact h.writeNow (fun _ h => (ite h.cleanLocs h.dropLocs).partDone)
    · exact h.writeNow (fun _ h => h.applyStore)
    · exact .ite h h.arriveSync
    · exact h.writeNow (fun _ h => h.arriveSync)
    · exact .ite h h.arriveSync
    · exact .ite h h.applyLdfp
    · exact h.writeNow (fun _ h => h.applySetfe)
    · exact h.writeNow (fun _ h => h.applyAmo)
    · exact h.writeNow (fun _ h => h.applyHist)

/-! ### Vectors -/

theorem takeDraws {rm : Rm} {n : Nat} (h : KeepsForms s₀ s) : KeepsForms s₀ (s.takeDraws rm n).1 := by
  unfold State.takeDraws
  split
  · split
    exact h.modThr.pair
  · exact h

theorem governed {sw : Bool} {w : Nat} {pg : PReg} {d : VReg} {srcs : List Reg} {rm : Rm}
    {f : State → List Nat → Nat → Nat} (h : KeepsForms s₀ s) :
    KeepsForms s₀ (Machine.governed sw w pg d srcs rm f s) :=
  h.withRegs fun _ h => h.takeDraws.writeV.finish

theorem vec2 {sw : Bool} {ty : Ty} {rm : Rm} {sat : Bool} {pg : PReg} {d a b : VReg} {fi : Int → Int → Int}
    {ff : Rm → Val → Val → Val} (h : KeepsForms s₀ s) :
    KeepsForms s₀ (Machine.vec2 sw ty rm sat pg d a b fi ff s) :=
  h.governed

theorem vec3 {sw : Bool} {ty : Ty} {rm : Rm} {sat : Bool} {pg : PReg} {d a b c : VReg} {fi : Int → Int → Int → Int}
    {ff : Rm → Val → Val → Val → Val} (h : KeepsForms s₀ s) :
    KeepsForms s₀ (Machine.vec3 sw ty rm sat pg d a b c fi ff s) :=
  h.governed

theorem bits2 {sw : Bool} {w : Nat} {pg : PReg} {d a b : VReg} {f : Nat → Nat → Nat} (h : KeepsForms s₀ s) :
    KeepsForms s₀ (Machine.bits2 sw w pg d a b f s) :=
  h.governed

theorem bits1 {sw : Bool} {w : Nat} {pg : PReg} {d a : VReg} {f : Nat → Nat} (h : KeepsForms s₀ s) :
    KeepsForms s₀ (Machine.bits1 sw w pg d a f s) :=
  h.governed

theorem vec1 {sw : Bool} {ty : Ty} {sat : Bool} {pg : PReg} {d a : VReg} {fi : Int → Int} {ff : Val → Val} (h : KeepsForms s₀ s) :
    KeepsForms s₀ (Machine.vec1 sw ty sat pg d a fi ff s) :=
  h.bits1

theorem execVdqnt {sw : Bool} {ty : Ty} {rm : Rm} {sat : Bool} {pg : PReg} {pm2 rpl : BitVec 3} {d a : VReg} {c : Src}
    (h : KeepsForms s₀ s) :
    OutKeeps s₀ (Machine.execVdqnt sw ty rm sat pg pm2 rpl d a c s) := by
  unfold Machine.execVdqnt
  refine .next ?_
  refine .withRegs h ?_
  intro _ h
  refine .finish ?_
  refine .writeV ?_
  split
  · exact h
  · exact h.takeDraws

theorem redExtreme {sw : Bool} {ty : Ty} {pg : PReg} {d : SReg} {a : VReg} {fi : Int → Int → Int} {ff : Val → Val → Val}
    {i0 : Int} {f0 : Val} (h : KeepsForms s₀ s) :
    KeepsForms s₀ (Machine.redExtreme sw ty pg d a fi ff i0 f0 s) :=
  h.withRegs fun _ h => h.writeS.finish

theorem special {sw : Bool} {ty : Ty} {rm : Rm} {sat : Bool} {pg : PReg} {d a : VReg} {f : Val → Val} (h : KeepsForms s₀ s) :
    KeepsForms s₀ (Machine.special sw ty rm sat pg d a f s) :=
  h.withSlot (fun _ h => h.withRegs (fun _ h => h.takeDraws.defer.finish))

/-! ### The memory forms -/

theorem loadForm {sw : Bool} {n : Nat} {kind : AccKind} {sc : Scope} {acq w : Bool} {forms : Forms}
    {writes : List RegWrite} {a : Src} {off : BitVec 16} (h : KeepsForms s₀ s) :
    KeepsForms s₀ (Machine.loadForm sw n kind sc acq w forms writes a off s) :=
  h.withSlot (fun _ h => h.withRegs (fun _ h => h.checked (fun _ _ h => h.deferAs.toPort.finish)))

theorem storeForm {sw : Bool} {n : Nat} {kind : AccKind} {sc : Scope} {rel : Bool} {forms : Forms} {va : Addr}
    {data : List Byte} (h : KeepsForms s₀ s) :
    KeepsForms s₀ (Machine.storeForm sw n kind sc rel forms va data s) :=
  h.checked (fun _ _ h => .ite h.bubble h.bump.toPort.finish)

theorem vloadForm {sw : Bool} {w : Nat} {d : VReg} {init : VWord} {ls : List (Nat × Addr)} (h : KeepsForms s₀ s) :
    KeepsForms s₀ (Machine.vloadForm sw w d init ls s) :=
  h.checked (fun _ _ h => (ite h.defer h.defer.toPort).finish)

theorem holdRuns {runs : List (List Part)} (h : KeepsForms s₀ s) : KeepsForms s₀ (Machine.holdRuns runs s) := by
  induction runs generalizing s with
  | nil => exact h
  | cons ps rest ih => exact ih h.bump.modThr

theorem vstoreForm {sw : Bool} {n : Nat} {ls : List (Nat × Addr)} {data : Nat → List Byte} (h : KeepsForms s₀ s) :
    KeepsForms s₀ (Machine.vstoreForm sw n ls data s) :=
  h.checked (fun _ _ h => h.holdRuns.pushStores.finish)

theorem execWaitge {sw : Bool} {sz : Sz} {sc : Scope} {d : SReg} {a b : Src} {off : BitVec 16} (h : KeepsForms s₀ s) :
    OutKeeps s₀ (Machine.execWaitge sw sz sc d a b off s) := by
  unfold Machine.execWaitge
  refine .next ?_
  split
  · exact h.writeS.finish
  · split <;> exact h.parkOn
  · exact h.withRegs (fun _ h => h.checked (fun _ _ h => h.bump.toPort.modThr.parkOn))

theorem holdUntil {b : Bool} {k : State → State} (h : KeepsForms s₀ s) (hk : ∀ s, KeepsForms s₀ s → KeepsForms s₀ (k s)) :
    KeepsForms s₀ (s.holdUntil b k) :=
  .ite (hk _ h) h.modThr

theorem tileForm {sw : Bool} {kind : AccKind} {w : Bool} {a : Src} {b : Option Src} {off : BitVec 16} (h : KeepsForms s₀ s) :
    KeepsForms s₀ (Machine.tileForm sw kind w a b off s) :=
  h.withRegs (fun _ h => h.checkedMid (fun _ _ h => .ite h.finish (.ite h.bubble h.bump.toPort.finish)))

/-! ### The register fabric -/

theorem execRevcap {sw : Bool} {d : SReg} (h : KeepsForms s₀ s) : OutKeeps s₀ (Machine.execRevcap sw d s) := by
  unfold Machine.execRevcap
  refine .next ?_
  split
  · exact h.finish
  · exact h.bubble
  · exact .ite h.trap (h.withRegs (fun _ h => h.writeS.modThr))

theorem execRevocationEffective {t : Nat} (h : KeepsForms s₀ s) : OutKeeps s₀ (Machine.execRevocationEffective t s) := by
  unfold Machine.execRevocationEffective
  refine .next ?_
  split
  · exact h.focus.modThr
  · exact h.focus

theorem sendForm {sw : Bool} {a : Src} {regs : List Reg} {value : State → VWord} {vec : Bool} {off : BitVec 4}
    {rel : Option Scope} (h : KeepsForms s₀ s) :
    KeepsForms s₀ (Machine.sendForm sw a regs value vec off rel s) := by
  unfold Machine.sendForm
  refine .withRegs h ?_
  intro _ h
  dsimp only
  split
  · exact h.modTeam.trap
  · split
    · exact h.modTeam.trap
    · exact .ite h.modTeam.trap (.ite h.trap (.ite h.parkOn h.bump.modThr.finish))

theorem unqueue {t id : Nat} (h : KeepsForms s₀ s) : KeepsForms s₀ (s.unqueue t id) := h.modThread

theorem sendBack {t id : Nat} (h : KeepsForms s₀ s) : KeepsForms s₀ (s.sendBack t id) := h.modThread

theorem arriveSaved {team : Team} {tid : Nat} {l : Landing} (h : KeepsForms s₀ s) :
    KeepsForms s₀ (s.arriveSaved team tid l).1 := by
  unfold State.arriveSaved
  split
  · exact h
  · dsimp only
    exact h.bump.modTeam

theorem presentSend {x : Thread} {e : SendEntry} {team : Team} (h : KeepsForms s₀ s) :
    KeepsForms s₀ (s.presentSend x e team).1 := by
  unfold State.presentSend
  split
  · exact h
  · dsimp only
    split
    · split
      · exact h.pend
      · split
        · exact h.pend
        · split
          · exact h.arriveSaved
          · split
            · exact h
            · exact h.arrive.of_eq ‹_›
            · exact h.arrive.of_eq ‹_›
    · split
      · exact h.pend
      · split
        · exact h.pend
        · split
          · exact h.arriveSaved
          · split
            · exact h
            · exact h.arrive.of_eq ‹_›
            · exact h.arrive.of_eq ‹_›

theorem execSendArrival {t id : Nat} (h : KeepsForms s₀ s) : OutKeeps s₀ (Machine.execSendArrival t id s) := by
  unfold Machine.execSendArrival
  refine .next ?_
  split
  · refine .ite h ?_
    split
    exact .ite (h.presentSend.of_eq ‹_›).unqueue h.sendBack
  · exact h.unqueue
  · exact h

/-! ### Engines: locks, tags, walks -/

theorem lock {gc : Nat} {ls : List Lock} (h : KeepsForms s₀ s) : KeepsForms s₀ (s.lock gc ls) := h.modCore

theorem unlock {gc owner : Nat} (h : KeepsForms s₀ s) : KeepsForms s₀ (s.unlock gc owner) := h.modCore

theorem modTags {gc vk : Nat} {f : Tags → Tags} (h : KeepsForms s₀ s) : KeepsForms s₀ (s.modTags gc vk f) := h.modCore

theorem evalTagWait {gc vk t : Nat} (h : KeepsForms s₀ s) : KeepsForms s₀ (Machine.evalTagWait gc vk s t) := by
  unfold Machine.evalTagWait
  split
  · split
    · exact h
    · exact h.modTags.modThread
  · exact h

theorem tagsChanged {gc vk : Nat} (h : KeepsForms s₀ s) : KeepsForms s₀ (Machine.tagsChanged s gc vk) :=
  h.foldl fun _ _ h => h.evalTagWait

theorem setTag {gc vk n status : Nat} (h : KeepsForms s₀ s) : KeepsForms s₀ (s.setTag gc vk n status) := h.modTags.tagsChanged

theorem clearTags {gc vk : Nat} {mask : Word} (h : KeepsForms s₀ s) : KeepsForms s₀ (s.clearTags gc vk mask) :=
  h.modTags.tagsChanged

theorem tagWaitForm {sw : Bool} {form : Nat} {d : SReg} {a : Src} (h : KeepsForms s₀ s) :
    KeepsForms s₀ (Machine.tagWaitForm sw form d a s) := by
  unfold Machine.tagWaitForm
  split
  · exact h.writeS.finish
  · exact h.parkOn
  · refine .withRegs h ?_
    intro _ h
    dsimp only
    split
    · exact (ite h h.clearTags).writeS.finish
    · exact h.bump.modThr.parkOn

theorem landWord {engine tid reg ended : Nat} {w : Word} (h : KeepsForms s₀ s) :
    KeepsForms s₀ (s.landWord engine tid reg ended w).1 := by
  unfold State.landWord
  dsimp only
  split
  · exact h
  · split
    · exact h
    · split <;> exact h.arrive.of_eq ‹_›

theorem writeRuns {rs : List (Nat × List Byte)} (h : KeepsForms s₀ s) : KeepsForms s₀ (Machine.writeRuns rs s).1 := by
  unfold Machine.writeRuns
  refine .foldl_fst h ?_
  intro _ _ h
  split
  · split
    · split
      exact h.writeLoc.of_eq ‹_›

theorem engWrite {vd : Nat} {locs : List Nat} {bs : List Byte} (h : KeepsForms s₀ s) :
    KeepsForms s₀ (s.engWrite vd locs bs).1 := by
  unfold State.engWrite
  refine .foldl_fst h ?_
  intro _ _ h
  split
  · split
    · split
      · exact h.writeLoc
      · dsimp only
        exact h.countUe.writeRuns

theorem scramble {locs : List Nat} (h : KeepsForms s₀ s) : KeepsForms s₀ (s.scramble locs) := by
  unfold State.scramble
  refine .update ?_
  refine .foldl h fun _ _ h => ?_
  split
  · refine .ite h.rawWrite ?_
    refine .foldl h fun _ _ h => ?_
    split
    exact .ite h.rawWrite h

theorem openCase {fn pkg : Nat} {kind : CaseKind} (h : KeepsForms s₀ s) : KeepsForms s₀ (s.openCase fn pkg kind) := h.update

theorem holdWalk {op gc : Nat} {x : Nat × Nat × Nat × Bool} (h : KeepsForms s₀ s) :
    KeepsForms s₀ (Machine.holdWalk op gc s x) := by
  unfold Machine.holdWalk
  dsimp only
  exact .ite h.modRouter (.ite h.postCp.openCase.modRouter h)

theorem forgetAt {op r : Nat} (h : KeepsForms s₀ s) : KeepsForms s₀ (State.forgetAt op s r) := .ite h h.modRouter

theorem forgetWalks {op gc : Nat} (h : KeepsForms s₀ s) : KeepsForms s₀ (s.forgetWalks op gc) := h.forgetAt

theorem dropWalks {op : Nat} (h : KeepsForms s₀ s) : KeepsForms s₀ (s.dropWalks op) := h.foldl fun _ _ h => h.forgetAt

theorem withWalks {op : Nat} {rs : List (Nat × Nat × Bool × Bool × Nat × Nat)} {k : State → State} (h : KeepsForms s₀ s)
    (hk : ∀ s, KeepsForms s₀ s → KeepsForms s₀ (k s)) :
    KeepsForms s₀ (s.withWalks op rs k) := by
  unfold State.withWalks
  dsimp only
  split
  · exact (hk _ (h.foldl (fun _ _ h => h.engFillRanges))).foldl fun _ _ h => h.forgetWalks
  · exact h.foldl fun _ _ h => h.holdWalk

/-! ### Copies -/

theorem copyForm {sw nb : Bool} {d a : SReg} (h : KeepsForms s₀ s) : KeepsForms s₀ (Machine.copyForm sw nb d a s) := by
  unfold Machine.copyForm
  refine .withRegs h ?_
  intro _ h
  refine .ite h.trap ?_
  split
  · exact h.trap
  · split
    · exact h.trap
    · exact .ite (.ite h.writeS.finish h.bubble) h.takeDraws.bump.modCore.writeS.finish

theorem modCopy {gc id : Nat} {f : CopyReq → CopyReq} (h : KeepsForms s₀ s) : KeepsForms s₀ (s.modCopy gc id f) := h.modCore

theorem failCopy {gc id status : Nat} {dsts : List Nat} (h : KeepsForms s₀ s) :
    KeepsForms s₀ (Machine.failCopy gc id status dsts s) :=
  h.modCopy

theorem startCopy {gc : Nat} {req : CopyReq} {xh : CopyShape} (h : KeepsForms s₀ s) :
    KeepsForms s₀ (Machine.startCopy s gc req xh) :=
  .ite h.modCopy.failCopy (.ite h.modCopy.failCopy h.modCopy.modCopy)

theorem startWithBlock {gc : Nat} {req : CopyReq} {addr : Addr} (h : KeepsForms s₀ s) :
    KeepsForms s₀ (Machine.startWithBlock gc req addr s) := by
  unfold Machine.startWithBlock
  dsimp only
  split
  · exact h.failCopy
  · refine .ite h ?_
    split
    · exact h.countUe.failCopy
    · exact .ite h.meets.setCore.failCopy (.ite h (h.withWalks (fun _ h => h.meets.modCore.lock.startCopy)))

theorem execCopyDispatch {gc id : Nat} (h : KeepsForms s₀ s) : OutKeeps s₀ (Machine.execCopyDispatch gc id s) := by
  unfold Machine.execCopyDispatch
  refine .next ?_
  split
  · exact h
  · exact .ite h (.ite (h.withWalks (fun _ h => h.startCopy)) (h.withWalks (fun _ h => h.startWithBlock)))

theorem writeEach {vd : Nat} {locs : List Nat} {bs : List (Option Byte)} (h : KeepsForms s₀ s) :
    KeepsForms s₀ (s.writeEach vd locs bs).1 :=
  h.scramble.engWrite

theorem payCopy {gc : Nat} {req : CopyReq} {bytes : Nat} (h : KeepsForms s₀ s) : KeepsForms s₀ (s.payCopy gc req bytes).1 := by
  unfold State.payCopy
  split
  · exact h
  · dsimp only
    exact h.askUnit

theorem copyStep {gc id k : Nat} (h : KeepsForms s₀ s) : KeepsForms s₀ (Machine.copyStep s gc id k) := by
  unfold Machine.copyStep
  dsimp only
  split
  · exact h
  · split
    · exact h
    · refine .ite h.failCopy ?_
      split
      · exact .ite h h.countUe.modCopy
      · refine .ite h ?_
        split
        · exact h.payCopy.of_eq ‹_›
        · exact (h.payCopy.of_eq ‹_›).writeEach.modCopy

theorem settleCopy {gc : Nat} {req : CopyReq} {status : Nat} (h : KeepsForms s₀ s) :
    KeepsForms s₀ (Machine.settleCopy s gc req status) := by
  unfold Machine.settleCopy
  refine .ite ?_ h.dropUnits.forgetWalks.scramble.unlock.bump.modCopy.setTag.modCopy
  split
  exact .ite (h.dropUnits.forgetWalks.scramble.unlock.bump.modCopy.setTag.landWord.of_eq ‹_›).modCopy
      h.dropUnits.forgetWalks.scramble.unlock.bump.modCopy.setTag

theorem execCopyComplete {gc id : Nat} (h : KeepsForms s₀ s) : OutKeeps s₀ (Machine.execCopyComplete gc id s) := by
  unfold Machine.execCopyComplete
  refine .next ?_
  split
  · exact h
  · split
    · exact .ite h.settleCopy h
    · split
      exact .ite (h.landWord.of_eq ‹_›).modCopy h
    · exact h

theorem cancelCopy {gc : Nat} {req : CopyReq} (h : KeepsForms s₀ s) : KeepsForms s₀ (Machine.cancelCopy s gc req) :=
  h.settleCopy

theorem execCpyc {sw : Bool} {d : SReg} {a : Src} (h : KeepsForms s₀ s) : OutKeeps s₀ (Machine.execCpyc sw d a s) := by
  unfold Machine.execCpyc
  refine .next ?_
  refine .withRegs h ?_
  intro _ h
  split
  · exact h.writeS.finish
  · split
    · exact h.cancelCopy.writeS.finish
    · exact h.cancelCopy.writeS.finish
    · exact h.writeS.finish
    · exact h.writeS.finish

theorem execGatherEngineServe {gc id : Nat} (h : KeepsForms s₀ s) : OutKeeps s₀ (Machine.execGatherEngineServe gc id s) := by
  unfold Machine.execGatherEngineServe
  refine .next ?_
  split
  · exact h
  · dsimp only
    split
    · exact h
    · exact h.serveGather

/-! ### Collective plans -/

theorem dropPlan {vk idx : Nat} (h : KeepsForms s₀ s) : KeepsForms s₀ (Machine.dropPlan vk idx s) := h.modVd

theorem modPlan {vk idx : Nat} {f : Plan → Plan} (h : KeepsForms s₀ s) : KeepsForms s₀ (s.modPlan vk idx f) := h.modVd

theorem planReserve {t : Thread} {desc : List Byte} {cls : BitVec 2} (h : KeepsForms s₀ s) :
    KeepsForms s₀ (Machine.planReserve s t desc cls).1 := by
  unfold Machine.planReserve
  dsimp only
  split
  · exact h
  · split
    · exact h
    · split
      · exact h
      · split
        · exact h
        · split
          · exact h
          · split
            · exact h.update.modVd.pair
            · exact h.update

theorem execPlandrop {sw : Bool} {a : Src} (h : KeepsForms s₀ s) : OutKeeps s₀ (Machine.execPlandrop sw a s) := by
  unfold Machine.execPlandrop
  refine .next ?_
  refine .withRegs h ?_
  intro _ h
  dsimp only
  split
  · exact h.finish
  · exact h.modPlan.holdUntil fun _ h => h.dropPlan.finish

theorem triggerStored {g : Trigger} (h : KeepsForms s₀ s) : KeepsForms s₀ (s.triggerStored g) := by
  unfold State.triggerStored
  split
  · exact h
  · split
    · exact h.partDone
    · exact h

theorem execPlanTrigger {vk : Nat} (h : KeepsForms s₀ s) : OutKeeps s₀ (Machine.execPlanTrigger vk s) := by
  unfold Machine.execPlanTrigger
  refine .next ?_
  split
  · exact h
  · dsimp only
    split
    · exact h.modVd.triggerStored
    · exact .ite h.modVd.triggerStored h.modVd.triggerStored.modPlan

theorem planRead {gc vd va len : Nat} (h : KeepsForms s₀ s) : KeepsForms s₀ (Machine.planRead s gc vd va len).1 := by
  unfold Machine.planRead
  split
  · exact h
  · split
    · exact h.countUe
    · exact h.meets

theorem execPlanFireStart {vk plan member : Nat} (h : KeepsForms s₀ s) :
    OutKeeps s₀ (Machine.execPlanFireStart vk plan member s) := by
  unfold Machine.execPlanFireStart
  refine .next ?_
  split
  · exact h
  · split
    · refine .ite h ?_
      refine .ite h.modPlan ?_
      refine .withWalks h ?_
      intro _ h
      refine .ite h ?_
      split
      · split
        · refine .modPlan ?_
          refine .of_eq ?_ ‹_›
          split
          · exact (h.planRead.of_eq ‹_›).planRead
          · exact h.planRead.of_eq ‹_›
    · exact h

theorem planFinish {vk plan member : Nat} (h : KeepsForms s₀ s) : KeepsForms s₀ (Machine.planFinish vk plan member s) :=
  h.modPlan

theorem planLanding {vk plan member m : Nat} {d : List Byte} {seq : BitVec 32} {status ended : Nat} (h : KeepsForms s₀ s) :
    KeepsForms s₀ (Machine.planLanding vk plan member m d seq status ended s) := by
  unfold Machine.planLanding
  refine .ite ?_ h.planFinish
  split
  exact .ite (h.landWord.of_eq ‹_›).planFinish h

theorem planWrite {vk m : Nat} {d : List Byte} {len : Nat} {lost : Bool} {out : Option (Option (List Byte))}
    {status : Nat} (h : KeepsForms s₀ s) :
    KeepsForms s₀ (Machine.planWrite s vk m d len lost out status).1 := by
  unfold Machine.planWrite
  dsimp only
  split
  · exact h.scramble
  · split
    · exact h
    · split
      · exact h.scramble
      · split
        · exact h.scramble
        · exact h.engWrite

theorem execPlanFiringComplete {vk plan member : Nat} (h : KeepsForms s₀ s) :
    OutKeeps s₀ (Machine.execPlanFiringComplete vk plan member s) := by
  unfold Machine.execPlanFiringComplete
  refine .next ?_
  split
  · exact h
  · split
    · split
      · exact h
      · refine .ite h ?_
        refine .ite h.planLanding ?_
        refine .ite ?_ ?_
        · split
          exact (h.moveNext.of_eq ‹_›).modPlan
        · refine .ite h ?_
          split
          exact (h.planWrite.of_eq ‹_›).setTag.modPlan.bump.planLanding
    · exact h

/-! ### The sillage -/

theorem modSeg {vd num seg : Nat} {f : Segment → Segment} (h : KeepsForms s₀ s) : KeepsForms s₀ (s.modSeg vd num seg f) :=
  h.modTeam

theorem openSegment {t : Thread} {q : Nat} (h : KeepsForms s₀ s) : KeepsForms s₀ (Machine.openSegment s t q).1 := by
  unfold Machine.openSegment
  split
  · exact h
  · split
    · exact h
    · split
      · exact h
      · dsimp only
        split
        · exact h
        · exact h.modTeam.pair

theorem execTapeopen {sw : Bool} {d : SReg} {a : Src} (h : KeepsForms s₀ s) : OutKeeps s₀ (Machine.execTapeopen sw d a s) :=
    by
  unfold Machine.execTapeopen
  refine .next ?_
  split
  · exact h.writeS.finish
  · exact h.bubble
  · refine .withRegs h ?_
    intro _ h
    dsimp only
    exact .ite h.openSegment.postCp.openCase.modThr h.openSegment.writeS.finish

theorem writeSlot {e : LogEntry} (h : KeepsForms s₀ s) : KeepsForms s₀ (Machine.writeSlot s e) := by
  unfold Machine.writeSlot
  split
  · exact h
  · exact h.engWrite

theorem makeRecord {router : Nat} {e : LogEntry} (h : KeepsForms s₀ s) : KeepsForms s₀ (s.makeRecord router e) :=
  .ite h.modSeg.modRouter h.modSeg.writeSlot

theorem logWrite {router : Nat} (h : KeepsForms s₀ s) : KeepsForms s₀ (s.logWrite router) := by
  unfold State.logWrite
  split
  · exact h
  · exact h.writeSlot.modRouter

theorem dropLog {vd team : Nat} {seg : Option Nat} (h : KeepsForms s₀ s) : KeepsForms s₀ (Machine.dropLog s vd team seg) :=
  h.update

theorem flushLog {vd team : Nat} (h : KeepsForms s₀ s) : KeepsForms s₀ (Machine.flushLog s vd team) :=
  (h.foldl (fun _ _ h => h.writeSlot)).dropLog

theorem execTapeclose {sw : Bool} {a : Src} (h : KeepsForms s₀ s) : OutKeeps s₀ (Machine.execTapeclose sw a s) := by
  unfold Machine.execTapeclose
  refine .next ?_
  refine .withRegs h ?_
  intro _ h
  dsimp only
  split
  · exact h.trap
  · exact h.modSeg.holdUntil (fun _ h => (ite h h.modSeg).finish)

theorem execTapefree {sw : Bool} {a : Src} (h : KeepsForms s₀ s) : OutKeeps s₀ (Machine.execTapefree sw a s) := by
  unfold Machine.execTapefree
  refine .next ?_
  refine .withRegs h ?_
  intro _ h
  dsimp only
  split
  · exact h.trap
  · exact h.holdUntil fun _ h => h.dropLog.modSeg.finish

theorem execGenbump {sw : Bool} {d : SReg} {a : Src} (h : KeepsForms s₀ s) : OutKeeps s₀ (Machine.execGenbump sw d a s) := by
  unfold Machine.execGenbump
  refine .next ?_
  split
  · exact .ite h.bubble h.writeS.finish
  · refine .withRegs h ?_
    intro _ h
    refine .ite h.trap ?_
    refine .ite ?_ ?_
    · refine .modThr ?_
      refine .foldl h fun _ _ h => ?_
      split
      exact h.modVd
    · refine .finish ?_
      refine .writeS ?_
      refine .foldl h fun _ _ h => ?_
      split
      exact h.modVd

theorem forwardForm {sw : Bool} {kind : Nat} {tag : BitVec 6} {a : SReg} {b : Src} {cls : BitVec 2} {ret : Bool}
    (h : KeepsForms s₀ s) :
    KeepsForms s₀ (Machine.forwardForm sw kind tag a b cls ret s) := by
  unfold Machine.forwardForm
  refine .withRegs h ?_
  intro _ h
  dsimp only
  split
  · exact h.trap
  · split
    · exact h.trap
    · split
      · exact h.trap
      · split
        · exact h.trap
        · split
          · exact h.trap
          · exact .ite h.trap (.ite h.trap h.bump.modSeg.update.finish)

theorem modForward {id : Nat} {f : Forward → Forward} (h : KeepsForms s₀ s) : KeepsForms s₀ (s.modForward id f) := h.update

theorem beginForward {op : Forward} (h : KeepsForms s₀ s) : KeepsForms s₀ (Machine.beginForward s op) := by
  unfold Machine.beginForward
  refine .withWalks h ?_
  intro _ h
  split
  · exact h.modForward
  · refine .ite h ?_
    split
    · exact h.countUe.modForward
    · exact h.meets.modForward

theorem deliver {op : Forward} {x : Delivery} {path : List Nat} (h : KeepsForms s₀ s) :
    KeepsForms s₀ (Machine.deliver s op x path) := by
  unfold Machine.deliver
  dsimp only
  split
  · exact h.modForward
  · split
    · refine .ite h.scramble.modForward ?_
      refine .withWalks h ?_
      intro _ h
      split
      · refine .ite h ?_
        refine .ite h.moveNext.modForward ?_
        split
        · exact h.countUe.scramble.modForward
        · refine .ite h.meets.engWrite.modForward ?_
          split
          · exact h.meets.engWrite.countUe.modForward
          · exact h.meets.engWrite.meets.makeRecord.engWrite.modForward
      · exact h.scramble.modForward
    · exact h.modForward

theorem execSillageDelivery {op idx : Nat} {path : List Nat} (h : KeepsForms s₀ s) :
    OutKeeps s₀ (Machine.execSillageDelivery op idx path s) := by
  unfold Machine.execSillageDelivery
  refine .next ?_
  split
  · exact h
  · refine .ite h.beginForward ?_
    split
    · exact h
    · exact h.deliver

theorem execSillageTransferComplete {op : Nat} (h : KeepsForms s₀ s) :
    OutKeeps s₀ (Machine.execSillageTransferComplete op s) := by
  unfold Machine.execSillageTransferComplete
  refine .next ?_
  split
  · exact h
  · exact .ite h.update.dropUnits.setTag h

theorem askRetrace {vk seg : Nat} {xh : Word} {idx : Nat} (h : KeepsForms s₀ s) :
    KeepsForms s₀ (Machine.askRetrace vk seg xh s idx) :=
  h.postCp.openCase

theorem execRetrace {sw : Bool} {tag : BitVec 6} {a : SReg} {b : Src} {c : SReg} {ty : Ty} {cls : BitVec 2} {land : Bool}
    (h : KeepsForms s₀ s) :
    OutKeeps s₀ (Machine.execRetrace sw tag a b c ty cls land s) := by
  unfold Machine.execRetrace
  refine .next ?_
  split
  · exact .ite h.bubble h.update.finish
  · refine .withRegs h ?_
    intro _ h
    dsimp only
    split
    · exact h.trap
    · split
      · exact h.trap
      · exact .ite h.trap (.ite h.trap (.ite h.trap (.ite (h.bump.update.scramble.foldl
            (fun _ _ h => h.askRetrace)).modThr h.bump.update.scramble.finish)))

theorem modRetrace {id : Nat} {f : Retrace → Retrace} (h : KeepsForms s₀ s) : KeepsForms s₀ (s.modRetrace id f) := h.update

theorem modChunk {id idx k : Nat} {f : Chunk → Chunk} (h : KeepsForms s₀ s) : KeepsForms s₀ (s.modChunk id idx k f) :=
  h.modRetrace

theorem crossPort {id idx k port : Nat} (h : KeepsForms s₀ s) : KeepsForms s₀ (Machine.crossPort s id idx k port) := h.modChunk

theorem sendChunk {n id idx k : Nat} (h : KeepsForms s₀ s) : KeepsForms s₀ (Machine.sendChunk n id idx k s) := by
  induction n generalizing s with
  | zero => exact h
  | succ n ih =>
    rw [Machine.sendChunk]
    split
    · exact h
    split
    · exact h
    split
    · exact h.modRetrace
    dsimp only
    split
    · exact h.modRetrace
    · exact h.modChunk
    · split
      · exact h.modChunk.modRouter
      · exact ih h.modChunk.crossPort

theorem askChunks {t : Team} {id : Nat} (h : KeepsForms s₀ s) : KeepsForms s₀ (Machine.askChunks s t id) := by
  unfold Machine.askChunks
  split
  · exact h
  · refine .foldl h fun _ _ h => ?_
    split
    · exact h.modRetrace
    · split
      · exact h.modRetrace
      · exact h.modChunk.sendChunk

theorem advanceTarget {id : Nat} {locs : List Nat} (h : KeepsForms s₀ s) : KeepsForms s₀ (Machine.advanceTarget id s locs) := by
  unfold Machine.advanceTarget
  split
  · exact h
  split
  · exact h
  dsimp only
  split
  · exact .ite h.modRetrace (.modRetrace (.ite h.engWrite h.engWrite.modRetrace))
  · exact h.modRetrace
  · refine .ite h ?_
    split
    · exact h.countUe.modRetrace.modRetrace
    · exact .ite h.meets.modRetrace (.modRetrace (.ite h.meets.engWrite h.meets.engWrite.modRetrace))

theorem advanceRetrace {id : Nat} (h : KeepsForms s₀ s) : KeepsForms s₀ (Machine.advanceRetrace s id) := by
  unfold Machine.advanceRetrace
  split
  · exact h
  · dsimp only
    split
    · exact h.foldl fun _ _ h => h.advanceTarget
    · exact (h.foldl (fun _ _ h => h.advanceTarget)).askChunks

theorem execRetraceChunkArrival {op idx : Nat} {detoured : Bool} (h : KeepsForms s₀ s) :
    OutKeeps s₀ (Machine.execRetraceChunkArrival op idx detoured s) := by
  unfold Machine.execRetraceChunkArrival
  refine .next ?_
  split
  · exact h
  · split
    · exact h
    · refine .ite h ?_
      refine .ite (h.withWalks (fun _ h => h.modRetrace.askChunks)) ?_
      split
      · exact h
      · refine .ite h ?_
        split
        · exact h.modRetrace.advanceRetrace
        · refine .withWalks h ?_
          intro _ h
          split
          · exact h.modRetrace.advanceRetrace
          · refine .ite h ?_
            dsimp only
            refine .ite h.askUnit ?_
            split
            · exact h.askUnit.modRetrace.countUe.modRetrace.advanceRetrace
            · exact h.askUnit.modRetrace.meets.modChunk.advanceRetrace

theorem execAccordEmit {router port : Nat} (h : KeepsForms s₀ s) : OutKeeps s₀ (Machine.execAccordEmit router port s) := by
  unfold Machine.execAccordEmit
  refine .next ?_
  split
  · exact h
  · refine .foldl h.modRouter fun _ _ h => ?_
    split
    exact h.crossPort.sendChunk

theorem execRetraceComplete {op : Nat} (h : KeepsForms s₀ s) : OutKeeps s₀ (Machine.execRetraceComplete op s) := by
  unfold Machine.execRetraceComplete
  refine .next ?_
  split
  · exact h
  · refine .ite ?_ ?_
    · dsimp only
      split
      · exact h.update.dropUnits
      · exact .ite h.landWord.update.dropUnits h
    · refine .ite h ?_
      refine .ite h.advanceRetrace ?_
      dsimp only
      split
      · exact h.bump.modRetrace.setTag.update.dropUnits
      · exact .ite h.bump.modRetrace.setTag.landWord.update.dropUnits h.bump.modRetrace.setTag

/-! ### Heaps, counters, remap windows -/

theorem heapWrite {loc i : Nat} {ws : List Word} (h : KeepsForms s₀ s) : KeepsForms s₀ (Machine.heapWrite loc s i ws) :=
  h.writeLoc

theorem leaveAll (h : KeepsForms s₀ s) : KeepsForms s₀ s.leaveAll := .ite h h.modCore

theorem heapForm {a : Src} {rs : List Reg} {pre : State → Option Word} {wait : State → State} {k : Nat → State → State}
    (h : KeepsForms s₀ s) (hwait : ∀ s, KeepsForms s₀ s → KeepsForms s₀ (wait s))
        (hk : ∀ x s, KeepsForms s₀ s → KeepsForms s₀ (k x s)) :
    KeepsForms s₀ (Machine.heapForm a rs pre wait k s) := by
  unfold Machine.heapForm
  refine .withRegs h ?_
  intro _ h
  refine .checked h ?_
  intro _ _ h
  split
  · exact h.trap
  · exact .ite (hk _ _ h.leaveAll) (hwait _ h)

theorem heapHold (h : KeepsForms s₀ s) : KeepsForms s₀ (Machine.heapHold s) := h.holdUntil fun _ h => h

theorem heapMeets {loc : Nat} (h : KeepsForms s₀ s) : KeepsForms s₀ (s.heapMeets loc) := h.countUe

theorem sift {loc : Nat} {b : Word} (h : KeepsForms s₀ s) : KeepsForms s₀ (Machine.sift loc b s).1 := by
  unfold Machine.sift
  dsimp only
  split
  · exact h
  · split
    · exact h.heapWrite
    · split
      · exact h.heapWrite
      · exact h

theorem execHsift {sw : Bool} {d : SReg} {a b : Src} (h : KeepsForms s₀ s) : OutKeeps s₀ (Machine.execHsift sw d a b s) := by
  unfold Machine.execHsift
  refine .next ?_
  refine .heapForm h (fun _ h => h.heapHold) ?_
  intro _ _ h
  split
  · exact h.update.countUe.pend.writeS.finish
  · refine .ite h.heapMeets.trap ?_
    split
    exact (h.heapMeets.sift.of_eq ‹_›).writeS.finish

theorem execHpop {sw : Bool} {d : SReg} {a : Src} (h : KeepsForms s₀ s) : OutKeeps s₀ (Machine.execHpop sw d a s) := by
  unfold Machine.execHpop
  refine .next ?_
  refine .withSlot h ?_
  intro _ h
  refine .heapForm h (fun _ h => h.bubble) ?_
  intro _ _ h
  split
  · exact h.countUe.defer.modThr.finish
  · exact .ite h.heapMeets.trap (.ite h.heapMeets.defer.finish h.heapMeets.heapWrite.heapWrite.defer.finish)

theorem histForm {sw : Bool} {sz : Sz} {pg : PReg} {a : Src} {b : VReg} {ovf : Bool} (h : KeepsForms s₀ s) :
    KeepsForms s₀ (Machine.histForm sw sz pg a b ovf s) :=
  h.withRegs (fun _ h => h.checked (fun _ _ h => .ite h.finish (.ite h.bubble h.bump.toPort.finish)))

theorem holdWords {locs : List Nat} {k : Option (List Nat) → State → State} (h : KeepsForms s₀ s)
    (hk : ∀ x s, KeepsForms s₀ s → KeepsForms s₀ (k x s)) :
    KeepsForms s₀ (Machine.holdWords s locs k) :=
  .ite (hk _ _ h.countUe) (h.holdUntil (fun _ h => h))

theorem structUe {sw : Bool} {va : Nat} (h : KeepsForms s₀ s) : KeepsForms s₀ (Machine.structUe sw va s) := h.pend.finish

theorem execRemapw {sw : Bool} {a b : Src} (h : KeepsForms s₀ s) : OutKeeps s₀ (Machine.execRemapw sw a b s) := by
  unfold Machine.execRemapw
  refine .next ?_
  refine .withRegs h ?_
  intro _ h
  refine .checked h ?_
  intro _ _ h
  refine .ite h.trap ?_
  refine .ite h.trap ?_
  refine .holdWords h ?_
  intro _ _ h
  split
  · exact h.structUe
  · dsimp only
    split
    · exact h.trap
    · refine .checkedMid h ?_
      intro _ _ h
      refine .holdWords h ?_
      intro _ _ h
      split
      · exact h.structUe
      · split
        · exact h.trap
        · exact h.modVd.finish

/-! ### Rates -/

theorem startBlock {arb : Nat} {u : Offer} (h : KeepsForms s₀ s) : KeepsForms s₀ (Machine.startBlock arb u s) :=
  .ite h h.modCore

theorem execArbiterGrant {arb : Nat} {offers : List Offer} (h : KeepsForms s₀ s) :
    OutKeeps s₀ (Machine.execArbiterGrant arb offers s) := by
  unfold Machine.execArbiterGrant
  refine .next ?_
  refine .ite (h.accrueAt.foldl (fun _ _ h => .ite h.modArb h)) ?_
  split
  · exact h.accrueAt.foldl fun _ _ h => .ite h.modArb h
  · exact (h.accrueAt.foldl (fun _ _ h => .ite h.modArb h)).startUnit.startBlock

theorem dropIdle {vk : Nat} (h : KeepsForms s₀ s) : KeepsForms s₀ (s.dropIdle vk) := h.dropUnits

theorem clampLevels {vk c depth : Nat} (h : KeepsForms s₀ s) : KeepsForms s₀ (Machine.clampLevels s vk c depth) := h.update

theorem applyRate {vk c : Nat} (h : KeepsForms s₀ s) : KeepsForms s₀ (Machine.applyRate vk s c) := by
  unfold Machine.applyRate
  split
  · exact h
  · exact h.modVd.clampLevels

theorem applyEpoch {pkg : Nat} (h : KeepsForms s₀ s) : KeepsForms s₀ (Machine.applyEpoch s pkg) := by
  unfold Machine.applyEpoch
  refine .ite h ?_
  dsimp only
  split
  · refine .modPkg ?_
    refine .foldl (h.accruePkg.foldl (fun _ _ h => h.foldl (fun _ _ h => h.applyRate))) ?_
    intro _ _ h
    split
    · exact h.modVd
    · exact h
  · refine .foldl (h.accruePkg.foldl (fun _ _ h => h.foldl (fun _ _ h => h.applyRate))) ?_
    intro _ _ h
    split
    · exact h.modVd
    · exact h

theorem passTo {c : Nat} (h : KeepsForms s₀ s) : KeepsForms s₀ (s.passTo c) := by
  unfold State.passTo
  refine .update ?_
  refine .foldl h fun _ _ h => ?_
  split
  exact h.update.applyEpoch

theorem reportThrottle {pkg : Nat} {cores : List Nat} {vm : Nat × Nat} (h : KeepsForms s₀ s) :
    KeepsForms s₀ (Machine.reportThrottle pkg cores s vm) := by
  unfold Machine.reportThrottle
  split
  · dsimp only
    split
    · exact h
    · exact h.postCp.modVd

theorem reportCores {pkg : Nat} {cores : List Nat} (h : KeepsForms s₀ s) : KeepsForms s₀ (Machine.reportCores pkg cores s) :=
  h.foldl fun _ _ h => h.reportThrottle

/-! ### Turns -/

theorem atTurn {t : Nat} (h : KeepsForms s₀ s) : KeepsForms s₀ (s.atTurn t) := by
  unfold State.atTurn
  exact h.focus.passTo.modThr

theorem useTurn (h : KeepsForms s₀ s) : KeepsForms s₀ s.useTurn := h.modThr

/-! ### Matrix entries -/

theorem enqueue {sw : Bool} {tag : BitVec 6} {op : MOp} {cfg : Word} {pre : State → State} (h : KeepsForms s₀ s)
    (hpre : ∀ s, KeepsForms s₀ s → KeepsForms s₀ (pre s)) :
    KeepsForms s₀ (Machine.enqueue sw tag op cfg pre s) :=
  .ite h.bubble (hpre _ h).bump.modCore.finish

theorem illegal {i : Instr} (h : KeepsForms s₀ s) : KeepsForms s₀ (s.illegal i) := h.trap

theorem matrixForm {i : Instr} {rs : List Reg} {ok : Word → Bool} {tiles : List Nat}
    {ptr : Word → State → Option (Nat × Word)} {k : Word → State → State} (h : KeepsForms s₀ s)
    (hk : ∀ x s, KeepsForms s₀ s → KeepsForms s₀ (k x s)) :
    KeepsForms s₀ (Machine.matrixForm i rs ok tiles ptr k s) := by
  unfold Machine.matrixForm
  refine .ite h.illegal ?_
  split
  · exact h.trap
  · refine .withRegs h ?_
    intro _ h
    split
    · exact h.trap
    · exact hk _ _ h

theorem loadOperand {i : Instr} {sw : Bool} {tag : BitVec 6} {op : Bool} {a b : Src} {mc buf tr : Bool} {g : BitVec 3}
    {pe : BitVec 10} (h : KeepsForms s₀ s) :
    KeepsForms s₀ (Machine.loadOperand i sw tag op a b mc buf tr g pe s) := by
  unfold Machine.loadOperand
  refine .matrixForm h ?_
  intro _ _ h
  refine .withRegs h ?_
  intro _ h
  dsimp only
  split
  · exact h.trap
  · exact h.enqueue fun _ h => h

theorem productForm {i : Instr} {path : Nat} {sw : Bool} {tag : BitVec 6} {acc : BitVec 3} {ab bb : Bool}
    (h : KeepsForms s₀ s) :
    KeepsForms s₀ (Machine.productForm i path sw tag acc ab bb s) :=
  h.matrixForm (fun _ _ h => h.enqueue (fun _ h => h))

theorem enqueueDraws {sw : Bool} {tag : BitVec 6} {rm : Rm} {n : Nat} {op : List Nat → MOp} {cfg : Word} (h : KeepsForms s₀ s) :
    KeepsForms s₀ (Machine.enqueueDraws sw tag rm n op cfg s) :=
  .ite h.bubble (h.takeDraws.enqueue (fun _ h => h))

theorem modEntry {gc id : Nat} {f : MEntry → MEntry} (h : KeepsForms s₀ s) : KeepsForms s₀ (s.modEntry gc id f) := h.modCore

theorem execMatrixEntryStart {gc id : Nat} (h : KeepsForms s₀ s) : OutKeeps s₀ (Machine.execMatrixEntryStart gc id s) := by
  unfold Machine.execMatrixEntryStart
  refine .next ?_
  split
  · exact h
  · refine .ite h ?_
    split
    · exact h.modEntry
    · exact h.withWalks (fun _ h => .ite h.modEntry h.modEntry)

theorem matrixStep {gc id k : Nat} (h : KeepsForms s₀ s) : KeepsForms s₀ (Machine.matrixStep s gc id k) := by
  unfold Machine.matrixStep
  split
  · exact h
  · split
    · exact h
    · dsimp only
      split
      · refine .ite h ?_
        split
        · exact h.countUe.modEntry.modEntry
        · exact h.meets.modEntry.modEntry
      · exact .ite h (ite h.engWrite h.engWrite.modEntry).modEntry

theorem finishEntry {gc : Nat} {e : MEntry} (h : KeepsForms s₀ s) : KeepsForms s₀ (Machine.finishEntry s gc e) :=
  (ite h.modCore.scramble h.modCore).dropUnits.forgetWalks.unlock.setTag

theorem execMatrixEntryComplete {gc id : Nat} (h : KeepsForms s₀ s) : OutKeeps s₀ (Machine.execMatrixEntryComplete gc id s) :=
    by
  unfold Machine.execMatrixEntryComplete
  refine .next ?_
  split
  · exact h
  · exact .ite h.finishEntry h

theorem execMulticastDelivery {gc id dest : Nat} (h : KeepsForms s₀ s) :
    OutKeeps s₀ (Machine.execMulticastDelivery gc id dest s) := by
  unfold Machine.execMulticastDelivery
  refine .next ?_
  split
  · split
    · exact .ite h.finishEntry h
    · exact h
  · refine .ite h ?_
    split
    · exact h
    · refine .ite h.modEntry ?_
      split
      · exact .ite h h.bump.modCore
      · exact .ite h.finishEntry.modEntry h

theorem cancelDeliveries {gc id : Nat} (h : KeepsForms s₀ s) : KeepsForms s₀ (Machine.cancelDeliveries gc id s) := h.update

/-! ### Cancelling -/

theorem cancelEntry {gc : Nat} {e : MEntry} (h : KeepsForms s₀ s) : KeepsForms s₀ (Machine.cancelEntry s gc e) :=
  h.cancelDeliveries.finishEntry

theorem cancelGather {gc : Nat} {acc : Access} (h : KeepsForms s₀ s) : KeepsForms s₀ (Machine.cancelGather s gc acc) :=
  h.foldl fun _ _ h => h.update.takeValue.partDone

theorem cancelForward {f : Forward} (h : KeepsForms s₀ s) : KeepsForms s₀ (Machine.cancelForward s f) :=
  h.scramble.dropUnits.dropWalks.update.setTag

theorem cancelRetrace {r : Retrace} (h : KeepsForms s₀ s) : KeepsForms s₀ (Machine.cancelRetrace s r) :=
  h.scramble.dropUnits.dropWalks.bump.modRetrace.update.setTag

theorem cancelPart {vk idx : Nat} {p : Plan} {f : Firing} {k : Nat} (h : KeepsForms s₀ s) :
    KeepsForms s₀ (Machine.cancelPart vk idx p f s k) := by
  unfold Machine.cancelPart
  split
  · exact h
  · dsimp only
    split
    · exact h
    · exact h.scramble.setTag.modPlan.bump.planLanding

theorem cancelFiring {vk idx : Nat} {p : Plan} (h : KeepsForms s₀ s) : KeepsForms s₀ (Machine.cancelFiring vk idx p s) := by
  unfold Machine.cancelFiring
  split
  · exact h
  · exact h.dropUnits.dropWalks.foldl fun _ _ h => h.cancelPart

theorem cancelOp {id : Nat} (h : KeepsForms s₀ s) : KeepsForms s₀ (Machine.cancelOp s id) := by
  unfold Machine.cancelOp
  refine .foldl ?_ ?_
  · dsimp only
    split
    · refine .cancelRetrace ?_
      split
      · refine .cancelForward ?_
        refine .foldl h fun _ _ h => ?_
        split
        · refine .cancelGather ?_
          split
          · refine .cancelEntry ?_
            split
            · exact h.cancelCopy
            · exact h
          · split
            · exact h.cancelCopy
            · exact h
        · split
          · refine .cancelEntry ?_
            split
            · exact h.cancelCopy
            · exact h
          · split
            · exact h.cancelCopy
            · exact h
      · refine .foldl h fun _ _ h => ?_
        split
        · refine .cancelGather ?_
          split
          · refine .cancelEntry ?_
            split
            · exact h.cancelCopy
            · exact h
          · split
            · exact h.cancelCopy
            · exact h
        · split
          · refine .cancelEntry ?_
            split
            · exact h.cancelCopy
            · exact h
          · split
            · exact h.cancelCopy
            · exact h
    · split
      · refine .cancelForward ?_
        refine .foldl h fun _ _ h => ?_
        split
        · refine .cancelGather ?_
          split
          · refine .cancelEntry ?_
            split
            · exact h.cancelCopy
            · exact h
          · split
            · exact h.cancelCopy
            · exact h
        · split
          · refine .cancelEntry ?_
            split
            · exact h.cancelCopy
            · exact h
          · split
            · exact h.cancelCopy
            · exact h
      · refine .foldl h fun _ _ h => ?_
        split
        · refine .cancelGather ?_
          split
          · refine .cancelEntry ?_
            split
            · exact h.cancelCopy
            · exact h
          · split
            · exact h.cancelCopy
            · exact h
        · split
          · refine .cancelEntry ?_
            split
            · exact h.cancelCopy
            · exact h
          · split
            · exact h.cancelCopy
            · exact h
  · intro _ _ h
    split
    · refine .foldl h fun _ _ h => ?_
      split
      · split
        · exact .ite h.cancelFiring h
        · exact h

/-! ### Translation -/

theorem cleanRange {vk lo len : Nat} (h : KeepsForms s₀ s) : KeepsForms s₀ (s.cleanRange vk lo len) := .ite h h.update

theorem defineTensor {vk id : Nat} {t : Tensor} (h : KeepsForms s₀ s) : KeepsForms s₀ (s.defineTensor vk id t) := by
  unfold State.defineTensor
  refine .ite ?_ ?_
  · refine .modVd ?_
    split
    · exact h.cleanRange
    · exact h
  · refine .modVd ?_
    refine .cleanRange ?_
    split
    · exact h.cleanRange
    · exact h

theorem execTdef {sw : Bool} {a : SReg} {b : Src} {loge : BitVec 2} {id : BitVec 12} (h : KeepsForms s₀ s) :
    OutKeeps s₀ (Machine.execTdef sw a b loge id s) := by
  unfold Machine.execTdef
  refine .next ?_
  refine .withRegs h ?_
  intro _ h
  dsimp only
  split
  · exact h.trap
  · refine .ite h.trap ?_
    split
    · exact h.trap
    · exact h.defineTensor.finish

theorem rangeForm {a : SReg} {rs : List Reg} {k : Nat → Nat → State → State} (h : KeepsForms s₀ s)
    (hk : ∀ x x1 s, KeepsForms s₀ s → KeepsForms s₀ (k x x1 s)) :
    KeepsForms s₀ (Machine.rangeForm a rs k s) := by
  unfold Machine.rangeForm
  refine .withRegs h ?_
  intro _ h
  dsimp only
  split
  · exact h.trap
  · exact hk _ _ _ h

theorem execTlbpin {sw : Bool} {sc : Scope} {d a : SReg} (h : KeepsForms s₀ s) :
    OutKeeps s₀ (Machine.execTlbpin sw sc d a s) := by
  unfold Machine.execTlbpin
  refine .next ?_
  refine .rangeForm h ?_
  intro _ _ _ h
  dsimp only
  split
  · refine .ite h.trap ?_
    split
    · exact h.trap
    · exact h.modRouter.bubble
  · exact .ite h.writeS.finish (h.foldl (fun _ _ h => h.modRouter)).modTeam.writeS.finish

theorem openInv {tid : Option Nat} {fn token vk lo len : Nat} {deadline : Option Nat} (h : KeepsForms s₀ s) :
    KeepsForms s₀ (s.openInv tid fn token vk lo len deadline) :=
  h.update

theorem forceInv {i : Invalidation} (h : KeepsForms s₀ s) : KeepsForms s₀ (s.forceInv i) :=
  .ite (h.foldl (fun _ _ h => h.cancelOp)).update h

theorem execTlbinvDeadline {id : Nat} (h : KeepsForms s₀ s) : OutKeeps s₀ (Machine.execTlbinvDeadline id s) := by
  unfold Machine.execTlbinvDeadline
  refine .next ?_
  split
  · exact h
  · exact h.forceInv

theorem waitInv {sw : Bool} {d : SReg} (h : KeepsForms s₀ s) : KeepsForms s₀ (Machine.waitInv sw d s) := by
  unfold Machine.waitInv
  dsimp only
  split
  · exact h.finish
  · split
    · exact h.forceInv.finish
    · exact .ite h.forceInv.update.writeS.finish h.forceInv.modThr

theorem execTlbinv {sw : Bool} {d a : SReg} {b : Src} {force : Bool} (h : KeepsForms s₀ s) :
    OutKeeps s₀ (Machine.execTlbinv sw d a b force s) := by
  unfold Machine.execTlbinv
  refine .next ?_
  split
  · exact h.waitInv
  · exact h.rangeForm (fun _ _ _ h => h.openInv.waitInv)

theorem failWalk {router vk page : Nat} (h : KeepsForms s₀ s) : KeepsForms s₀ (Machine.failWalk router vk page s) := by
  unfold Machine.failWalk
  dsimp only
  split
  · exact h
  · split
    · exact .ite (h.modRouter.modRouter.foldl (fun _ _ h => h.modThread)) h.modRouter.modRouter
    · exact h.modRouter.modRouter.foldl fun _ _ h => h.modThread

theorem execTranslationWalkEnd {router vk page : Nat} (h : KeepsForms s₀ s) :
    OutKeeps s₀ (Machine.execTranslationWalkEnd router vk page s) := by
  unfold Machine.execTranslationWalkEnd
  refine .next ?_
  split
  · exact h
  · refine .ite h ?_
    refine .ite h.modRouter ?_
    dsimp only
    split
    · exact .ite h.postCp.openCase.modRouter h.failWalk
    · exact h.failWalk

/-! ### Dispensers, barriers, control registers -/

theorem post {f : Nat → Posted} (h : KeepsForms s₀ s) : KeepsForms s₀ (s.post f) := h.update

theorem unpost {id : Nat} (h : KeepsForms s₀ s) : KeepsForms s₀ (s.unpost id) := h.update

theorem modDisp {cluster vd team : Nat} {f : Disp → Disp} (h : KeepsForms s₀ s) : KeepsForms s₀ (s.modDisp cluster vd team f) :=
  h.update

theorem leaveDisp {t : Nat} (h : KeepsForms s₀ s) : KeepsForms s₀ (s.leaveDisp t) := h.update

theorem execWfw {sw : Bool} {d : SReg} (h : KeepsForms s₀ s) : OutKeeps s₀ (Machine.execWfw sw d s) := by
  unfold Machine.execWfw
  refine .next ?_
  split
  · exact h.finish
  · exact (h.foldl (fun _ _ h => h.modThr)).modThr.modDisp

theorem execDispPostArrival {id : Nat} (h : KeepsForms s₀ s) : OutKeeps s₀ (Machine.execDispPostArrival id s) := by
  unfold Machine.execDispPostArrival
  refine .next ?_
  split
  · exact .ite h h.unpost.modDisp
  · exact h

theorem execDispenserBind {cluster vd team : Nat} (h : KeepsForms s₀ s) :
    OutKeeps s₀ (Machine.execDispenserBind cluster vd team s) := by
  unfold Machine.execDispenserBind
  refine .next ?_
  split
  · dsimp only
    split
    · exact h.modDisp.modThread.reland
    · exact h.modDisp
  · exact h

theorem execSleep {sw : Bool} {a : Src} (h : KeepsForms s₀ s) : OutKeeps s₀ (Machine.execSleep sw a s) := by
  unfold Machine.execSleep
  refine .next ?_
  split
  · exact h.finish
  · exact h.withRegs fun _ h => .ite h.finish h.modThr

theorem execSleepWake {t : Nat} (h : KeepsForms s₀ s) : OutKeeps s₀ (Machine.execSleepWake t s) := by
  unfold Machine.execSleepWake
  refine .next ?_
  split
  · exact .ite h.modThread h
  · exact h

theorem modBar {gc vk team n g : Nat} {f : BarInst → BarInst} (h : KeepsForms s₀ s) :
    KeepsForms s₀ (s.modBar gc vk team n g f) :=
  h.modCore

theorem barArrive {sc : Scope} {n g : Nat} (h : KeepsForms s₀ s) : KeepsForms s₀ (s.barArrive sc n g) := .ite h h.modBar.post

theorem barWait {sw : Bool} {n : Nat} (h : KeepsForms s₀ s) : KeepsForms s₀ (Machine.barWait sw n s) := by
  unfold Machine.barWait
  split
  · exact h.finish
  · exact h.parkOn
  · exact .ite h.modThr.parkOn h.finish

theorem execBarsync {sw : Bool} {sc : Scope} {n : BitVec 7} {g : BitVec 8} (h : KeepsForms s₀ s) :
    OutKeeps s₀ (Machine.execBarsync sw sc n g s) := by
  unfold Machine.execBarsync
  refine .next ?_
  split
  · exact h.barWait
  · exact .ite h.trap h.barArrive.barWait

theorem execBarrierArrivalCounted {id : Nat} (h : KeepsForms s₀ s) : OutKeeps s₀ (Machine.execBarrierArrivalCounted id s) := by
  unfold Machine.execBarrierArrivalCounted
  refine .next ?_
  split
  · exact .ite h.unpost.modBar h
  · exact h

theorem clearBar {vd team n g gc : Nat} (h : KeepsForms s₀ s) : KeepsForms s₀ (Machine.clearBar vd team n g s gc) :=
  h.modBar.foldl fun _ _ h => h.modThread

theorem execBarrierPhaseComplete {vd team n g : Nat} (h : KeepsForms s₀ s) :
    OutKeeps s₀ (Machine.execBarrierPhaseComplete vd team n g s) := by
  unfold Machine.execBarrierPhaseComplete
  refine .next ?_
  split
  · exact h
  · exact .ite (h.foldl (fun _ _ h => h.clearBar)).update h

theorem execProgressAdditionApplied {id : Nat} (h : KeepsForms s₀ s) :
    OutKeeps s₀ (Machine.execProgressAdditionApplied id s) := by
  unfold Machine.execProgressAdditionApplied
  refine .next ?_
  split
  · exact h.unpost.modTeam
  · exact h

theorem execCkptRecord {id : Nat} (h : KeepsForms s₀ s) : OutKeeps s₀ (Machine.execCkptRecord id s) := by
  unfold Machine.execCkptRecord
  refine .next ?_
  split
  · exact .ite h h.unpost.modTeam
  · exact h

theorem execCtlr {sw : Bool} {d : SReg} {num : BitVec 10} (h : KeepsForms s₀ s) : OutKeeps s₀ (Machine.execCtlr sw d num s) :=
    by
  unfold Machine.execCtlr
  refine .next ?_
  split
  · exact h.illegal
  · exact h.withSlot fun _ h => .ite h.bubble h.defer.finish

theorem ctlEffect {num : Nat} {w : Word} (h : KeepsForms s₀ s) : KeepsForms s₀ (Machine.ctlEffect num w s) :=
  .ite h.clearTags (.ite h.modTeam h.modThr)

/-! ### Steps of a thread -/

theorem execLineFetch {t : Nat} (h : KeepsForms s₀ s) : OutKeeps s₀ (Machine.execLineFetch t s) := by
  unfold Machine.execLineFetch
  refine .next ?_
  refine .ite h.focus ?_
  split
  · exact h.focus.modRouter.bubble
  · exact h.focus.useTurn.trap
  · exact h.focus.useTurn.trap
  · dsimp only
    split
    · exact h.focus.countUe.useTurn.trap
    · exact .ite h.focus.countUe.modThr h.focus.countUe.useTurn.trap

theorem formResult {t : Thread} {f : Form} (h : KeepsForms s₀ s) : KeepsForms s₀ (Machine.formResult s t f).1 := by
  unfold Machine.formResult
  split
  · exact h
  · exact h
  · exact h
  · split
    exact h.planReserve.of_eq ‹_›

theorem execDeferredResultReturn {t id : Nat} (h : KeepsForms s₀ s) : OutKeeps s₀ (Machine.execDeferredResultReturn t id s) :=
    by
  unfold Machine.execDeferredResultReturn
  refine .next ?_
  split
  · exact h
  · refine .ite h ?_
    split
    · refine .modThread ?_
      refine .of_eq ?_ ‹_›
      split
      · exact h
      · exact h.formResult

theorem execSwitchPointCommit {t : Nat} (h : KeepsForms s₀ s) : OutKeeps s₀ (Machine.execSwitchPointCommit t s) := by
  unfold Machine.execSwitchPointCommit
  refine .next ?_
  split
  · refine .ite h.focus ?_
    refine .reland ?_
    split
    · exact h.focus.modThr
    · exact h.focus.modThr.trapEnter
    · exact h.focus.modThr.eretGo
    · exact h.focus.modThr.retire
  · exact h.focus

theorem dropWaitge (h : KeepsForms s₀ s) : KeepsForms s₀ s.dropWaitge := by
  unfold State.dropWaitge
  split
  · exact h.modCore
  · exact h

theorem withdraw (h : KeepsForms s₀ s) : KeepsForms s₀ s.withdraw := h.dropWaitge.leaveDisp.update.modThr.reland

theorem interrupt (h : KeepsForms s₀ s) : KeepsForms s₀ s.interrupt := h.modThr.withdraw

theorem stopWaiting (h : KeepsForms s₀ s) : KeepsForms s₀ s.stopWaiting := .ite h h.leaveDisp.modThr.reland

theorem stopParked (h : KeepsForms s₀ s) : KeepsForms s₀ s.stopParked := .ite h.withdraw.modThr h

theorem freeRefusal {t arr : Nat} (h : KeepsForms s₀ s) : KeepsForms s₀ (s.freeRefusal t arr) :=
  .ite h.modCore h.modCore.modTeam

theorem execAsyncCauseDelivery {t : Nat} (h : KeepsForms s₀ s) : OutKeeps s₀ (Machine.execAsyncCauseDelivery t s) := by
  unfold Machine.execAsyncCauseDelivery
  refine .next ?_
  split
  · exact h.focus
  · exact .ite h.focus (ite h.focus.modThr.interrupt.freeRefusal h.focus.modThr.interrupt).takeTrap

theorem execParklong {t : Nat} (h : KeepsForms s₀ s) : OutKeeps s₀ (Machine.execParklong t s) := by
  unfold Machine.execParklong
  refine .next ?_
  split
  · exact h.focus
  · exact .ite h.focus (.ite h.focus.doubleFault h.focus.interrupt.takeTrap)

/-! ### Steps at a home -/

theorem execAccessAtHome {src : HomeSrc} (h : KeepsForms s₀ s) : OutKeeps s₀ (Machine.execAccessAtHome src s) := by
  unfold Machine.execAccessAtHome
  refine .next ?_
  split
  · split
    · exact h.applyPort
    · exact h
  · exact h.copyStep
  · exact h.matrixStep

theorem abandon {gc : Nat} {acc : Access} (h : KeepsForms s₀ s) :
    KeepsForms s₀ (Machine.abandon s gc acc) := h.modThread.partDone

theorem execSyncretry {gc id : Nat} (h : KeepsForms s₀ s) : OutKeeps s₀ (Machine.execSyncretry gc id s) := by
  unfold Machine.execSyncretry
  refine .next ?_
  split
  · exact .ite h.abandon h
  · exact h

theorem present {gc id : Nat} {pick : Access → Bool} (h : KeepsForms s₀ s) : KeepsForms s₀ (Machine.present gc id pick s) := by
  unfold Machine.present
  split
  · exact h
  · split
    · exact h.arriveSync
    · exact h

/-! ### Modules -/

theorem cpWrite {vk va : Nat} {bs : List Byte} (h : KeepsForms s₀ s) : KeepsForms s₀ (Machine.cpWrite s vk va bs) := by
  unfold Machine.cpWrite
  refine .ite h ?_
  refine .foldl h fun _ _ h => ?_
  split
  · exact h.engWrite
  · exact h

theorem cpMeets {vk va n : Nat} (h : KeepsForms s₀ s) : KeepsForms s₀ (s.cpMeets vk va n) := .ite h h.meets

theorem readsModule {vk descAddr : Nat} (h : KeepsForms s₀ s) : KeepsForms s₀ (Machine.readsModule s vk descAddr) := by
  unfold Machine.readsModule
  refine .ite h ?_
  split
  · exact h.cpMeets
  · exact h.cpMeets.cpMeets.cpMeets.foldl fun _ _ h => h.cpMeets

/-! ### Launches -/

theorem modQueue {fn q : Nat} {f : Queue → Queue} (h : KeepsForms s₀ s) : KeepsForms s₀ (s.modQueue fn q f) := h.modFn

theorem passHead {fn q : Nat} (h : KeepsForms s₀ s) : KeepsForms s₀ (s.passHead fn q) := h.modQueue

theorem postRefusal {fn team reason info : Nat} (h : KeepsForms s₀ s) :
    KeepsForms s₀ (Machine.postRefusal s fn team reason info) :=
  .ite h.postOlush h.postCp

theorem execLaunchEntry {fn q : Nat} (h : KeepsForms s₀ s) : OutKeeps s₀ (Machine.execLaunchEntry fn q s) := by
  unfold Machine.execLaunchEntry
  refine .next ?_
  split
  · exact h
  · exact .ite h (.ite h.passHead.postRefusal (.ite h.passHead.postRefusal h))

theorem refuseErased {fn team info : Nat} (h : KeepsForms s₀ s) : KeepsForms s₀ (Machine.refuseErased s fn team info) :=
  h.update.postRefusal

theorem noteUses {t : Team} (h : KeepsForms s₀ s) : KeepsForms s₀ (Machine.noteUses t s) := by
  unfold Machine.noteUses
  refine .foldl h fun _ _ h => ?_
  split
  exact h.modVd

theorem signatureAlarm {vk : Nat} (h : KeepsForms s₀ s) : KeepsForms s₀ (Machine.signatureAlarm s vk) := h.postOlush

theorem selectFresh {vk q : Nat} {e : List Byte} (h : KeepsForms s₀ s) : KeepsForms s₀ (Machine.selectFresh s vk q e) := by
  unfold Machine.selectFresh
  refine .ite h.modVd.update.passHead.refuseErased ?_
  dsimp only
  split
  · exact (ite h.modVd.readsModule.signatureAlarm h.modVd.readsModule).update.passHead.postRefusal
  · exact h.modVd.readsModule.update.noteUses

theorem refuseTaken {t : Team} (h : KeepsForms s₀ s) : KeepsForms s₀ (Machine.refuseTaken s t) := h.modTeam.refuseErased

theorem selectSaved {vk q : Nat} {e : List Byte} (h : KeepsForms s₀ s) : KeepsForms s₀ (Machine.selectSaved s vk q e) := by
  unfold Machine.selectSaved
  dsimp only
  split
  · exact .ite h.passHead.refuseErased (.ite h.modTeam h.passHead.postRefusal)
  · exact h.passHead.postRefusal

theorem execLaunchSelect {vk : Nat} (h : KeepsForms s₀ s) : OutKeeps s₀ (Machine.execLaunchSelect vk s) := by
  unfold Machine.execLaunchSelect
  refine .next ?_
  refine .ite h ?_
  dsimp only
  split
  · exact h.modVd
  · split
    · split
      · exact h.modVd.modVd.modQueue
      · exact .ite h.modVd.modVd.modQueue.refuseTaken h.modVd.modVd.modQueue.modTeam
    · split
      · exact h.modVd.modVd
      · exact .ite h.modVd.modVd.selectSaved h.modVd.modVd.selectFresh

theorem zeroSpad {gc base limit : Nat} (h : KeepsForms s₀ s) : KeepsForms s₀ (s.zeroSpad gc base limit) :=
  h.withMem fun w => memWf_filter w _

theorem bindCore {vd gc : Nat} (h : KeepsForms s₀ s) : KeepsForms s₀ (Machine.bindCore vd s gc) := h.modVd.modCore.zeroSpad

theorem writeSections {t : Team} {seats : List Seat} {pkg : Nat} (h : KeepsForms s₀ s) :
    KeepsForms s₀ (Machine.writeSections t seats s pkg) := by
  unfold Machine.writeSections
  refine .foldl h fun _ _ h => ?_
  split
  exact h.cpWrite.cpWrite

theorem applyTensors {t : Team} {pkg : Nat} (h : KeepsForms s₀ s) : KeepsForms s₀ (Machine.applyTensors t s pkg) :=
  h.foldl fun _ _ h => h.defineTensor

theorem leaveCache {vk lines : Nat} (h : KeepsForms s₀ s) : KeepsForms s₀ (Machine.leaveCache vk lines s) :=
  h.update.foldl fun _ _ h => h.cleanTile

theorem applySplit {vk : Nat} (h : KeepsForms s₀ s) : KeepsForms s₀ (Machine.applySplit vk s) := by
  unfold Machine.applySplit
  dsimp only
  split
  · exact h
  · exact .ite h (.ite h.modVd (withMem (.ite h.leaveCache h) fun w => memWf_filter w _).modVd)

theorem leaveRing {t : Team} (h : KeepsForms s₀ s) : KeepsForms s₀ (Machine.leaveRing s t) := .ite h.passHead h

theorem refuseBinding {t : Team} {reason : Nat} (h : KeepsForms s₀ s) : KeepsForms s₀ (Machine.refuseBinding s t reason) :=
  h.leaveRing.modTeam.postRefusal

theorem measureRoles {t : Team} {seats : List Seat} (h : KeepsForms s₀ s) : KeepsForms s₀ (Machine.measureRoles t seats s) :=
  h.foldl fun _ _ h => h.modVd

theorem emptyParams {vd : Nat} (h : KeepsForms s₀ s) : KeepsForms s₀ (Machine.emptyParams vd s) := h.update

theorem bindFresh {t : Team} {seats : List Seat} (h : KeepsForms s₀ s) : KeepsForms s₀ (Machine.bindFresh s t seats) := by
  unfold Machine.bindFresh
  refine .ite h.refuseBinding (.ite h.refuseBinding (.ite h.refuseBinding ?_))
  refine .foldl (.modTeam (.leaveRing (.update (.foldl ?_ fun _ _ h => h.bindCore)))) fun _ _ h => h.setThread
  refine .emptyParams (.foldl (.ite ?_ ?_) fun _ _ h => h.applyTensors)
  · exact (h.foldl fun _ _ h => h.applySplit).measureRoles.foldl fun _ _ h => h.writeSections
  · exact h.foldl fun _ _ h => h.applySplit

theorem restoreCore {t : Team} {new : List Seat} {c : SavedCore} (h : KeepsForms s₀ s) :
    KeepsForms s₀ (Machine.restoreCore t new s c) := by
  unfold Machine.restoreCore
  exact (h.bindCore.modCore.withMem fun w => memWf_foldl w _ _ _).update

theorem restoreThread {t : Team} {new : List Seat} {x : Thread} (h : KeepsForms s₀ s) :
    KeepsForms s₀ (Machine.restoreThread t new s x) := by
  unfold Machine.restoreThread
  dsimp only
  split
  · exact h.setThread.modDisp
  · exact h.setThread

theorem moveTables {t : Team} {new : List Seat} (h : KeepsForms s₀ s) : KeepsForms s₀ (Machine.moveTables t new s) := by
  unfold Machine.moveTables
  refine .foldl ?_ ?_
  · refine .foldl (h.foldl (fun _ _ h => h.modVd)) ?_
    intro _ _ h
    split
    exact .ite h.modVd h.modVd.modVd
  · intro _ _ h
    split
    exact h.modVd

theorem restorePins {t : Team} {new : List Seat} (h : KeepsForms s₀ s) : KeepsForms s₀ (Machine.restorePins t new s) := by
  unfold Machine.restorePins
  refine .foldl h fun _ _ h => ?_
  split
  exact .ite h h.modRouter

theorem restoreShared {t : Team} {new : List Seat} (h : KeepsForms s₀ s) : KeepsForms s₀ (Machine.restoreShared t new s) :=
  h.update.update.update.moveTables.restorePins

theorem bindSaved {t : Team} {seats : List Seat} (h : KeepsForms s₀ s) : KeepsForms s₀ (Machine.bindSaved s t seats) := by
  unfold Machine.bindSaved
  refine .foldl ?_ (fun _ _ h => h.refillHeld)
  refine .modTeam ?_
  refine .foldl (.foldl ?_ fun _ _ h => h.restoreThread) fun _ _ h => ?_
  · exact (h.leaveRing.foldl fun _ _ h => h.applySplit).emptyParams.restoreShared.foldl fun _ _ h => h.restoreCore
  split
  · dsimp only
    split
    · exact h
    · exact h.setThread

theorem execLaunchBind {vk : Nat} (h : KeepsForms s₀ s) : OutKeeps s₀ (Machine.execLaunchBind vk s) := by
  unfold Machine.execLaunchBind
  refine .next ?_
  split
  · exact h
  · refine .ite h ?_
    refine .ite h.leaveRing.refuseTaken ?_
    split
    · exact h
    · exact .ite h (.ite h.bindSaved h.bindFresh)

theorem execBootTreeForward {vd team gc : Nat} (h : KeepsForms s₀ s) :
    OutKeeps s₀ (Machine.execBootTreeForward vd team gc s) := by
  unfold Machine.execBootTreeForward
  refine .next ?_
  split
  · exact h
  · exact .ite h.modTeam h

theorem execThreadStart {vd team gc : Nat} (h : KeepsForms s₀ s) : OutKeeps s₀ (Machine.execThreadStart vd team gc s) := by
  unfold Machine.execThreadStart
  refine .next ?_
  split
  · exact h
  · exact .ite (h.foldl (fun _ _ h => h.modThread)) h

theorem freeCore {t : Team} {gc : Nat} (h : KeepsForms s₀ s) : KeepsForms s₀ (Machine.freeCore t s gc) := by
  unfold Machine.freeCore
  exact h.modVd.modCore

theorem releaseShared {t : Team} (h : KeepsForms s₀ s) : KeepsForms s₀ (Machine.releaseShared t s) := by
  unfold Machine.releaseShared
  refine .modTeam ?_
  refine .dropLog ?_
  refine .update ?_
  refine .foldl h fun _ _ h => ?_
  split
  exact .ite h (h.foldl (fun _ _ h => h.dropPlan)).modVd

theorem leaveWaits {t : Team} (h : KeepsForms s₀ s) : KeepsForms s₀ (Machine.leaveWaits t s) := h.update

theorem dropTeamUnits {t : Team} (h : KeepsForms s₀ s) : KeepsForms s₀ (Machine.dropTeamUnits t s) :=
  h.foldl fun _ _ h => h.dropIdle

theorem freeSlots {t : Team} (h : KeepsForms s₀ s) : KeepsForms s₀ (Machine.freeSlots t s) :=
  ((h.leaveWaits.foldl (fun _ _ h => h.freeCore)).foldl (fun _ _ h => h.setThread)).dropTeamUnits

theorem releaseTeam {t : Team} (h : KeepsForms s₀ s) : KeepsForms s₀ (Machine.releaseTeam t s) := h.releaseShared.freeSlots

theorem postRequest {vk team : Nat} {p : PreReq} {action size : Nat} (h : KeepsForms s₀ s) :
    KeepsForms s₀ (Machine.postRequest s vk team p action size) :=
  h.postCp

theorem execTeamComplete {vd team : Nat} (h : KeepsForms s₀ s) : OutKeeps s₀ (Machine.execTeamComplete vd team s) := by
  unfold Machine.execTeamComplete
  refine .next ?_
  split
  · exact h
  · refine .ite h ?_
    refine .modTeam ?_
    refine .update ?_
    split
    · exact h.releaseTeam.postCp.postRequest
    · exact h.releaseTeam.postCp

theorem beginStop {t : Team} (h : KeepsForms s₀ s) : KeepsForms s₀ (Machine.beginStop s t) :=
  h.foldl fun _ _ h => h.modThread

theorem cancelTeam {t : Team} (h : KeepsForms s₀ s) : KeepsForms s₀ (Machine.cancelTeam t s) := by
  unfold Machine.cancelTeam
  refine .foldl (.update (.foldl (.foldl (.foldl h fun _ _ h => ?_) fun _ _ h => h.cancelForward) fun _ _ h => h.cancelRetrace))
    fun _ _ h => ?_
  · exact ((h.foldl fun _ _ h => h.cancelCopy).foldl fun _ _ h => h.cancelEntry).foldl fun _ _ h => h.cancelGather
  · split
    exact .ite h (h.foldl fun _ _ h => h.cancelFiring)

theorem finishStop {t : Team} (h : KeepsForms s₀ s) : KeepsForms s₀ (Machine.finishStop s t).1 := by
  unfold Machine.finishStop
  split
  · exact h
  · dsimp only
    split
    · exact h.cancelTeam.dropTeamUnits
    · exact (h.cancelTeam.dropTeamUnits.foldl (fun _ _ h => h.retire)).releaseTeam

theorem execCapbadStop {vd team : Nat} (h : KeepsForms s₀ s) : OutKeeps s₀ (Machine.execCapbadStop vd team s) := by
  unfold Machine.execCapbadStop
  refine .next ?_
  split
  · exact h
  · refine .ite h ?_
    split
    · split
      exact .ite (h.finishStop.of_eq ‹_›).postCp.modTeam (h.finishStop.of_eq ‹_›)
    · exact h.beginStop.modTeam

/-! ### Pre-emption -/

theorem dropCase {vd team : Nat} (h : KeepsForms s₀ s) : KeepsForms s₀ (Machine.dropCase vd team s) := h.update

theorem startAction {t : Team} {p : PreReq} {c : Nat × Bool} {byHost : Bool} (h : KeepsForms s₀ s) :
    KeepsForms s₀ (Machine.startAction s t p c byHost) :=
  .ite h.dropCase.modTeam.update h.dropCase.modTeam.update.beginStop

theorem askPre {t : Team} {p : PreReq} (h : KeepsForms s₀ s) : KeepsForms s₀ (Machine.askPre s t p) :=
  (h.postCp.foldl (fun _ _ h => h.pend)).modTeam.update

theorem beginPre {t : Team} {p : PreReq} (h : KeepsForms s₀ s) : KeepsForms s₀ (Machine.beginPre s t p) :=
  .ite h.postRequest (.ite h.askPre h.startAction)

theorem mergePre {t : Team} {p : PreReq} {deadline : Nat} (h : KeepsForms s₀ s) :
    KeepsForms s₀ (Machine.mergePre s t p deadline) :=
  .ite h (.ite h.modTeam.update.startAction h.modTeam.update)

theorem leaveFront {t : Team} (h : KeepsForms s₀ s) : KeepsForms s₀ (Machine.leaveFront s t) := h.modQueue

theorem dropSaved {t : Team} (h : KeepsForms s₀ s) : KeepsForms s₀ (Machine.dropSaved s t) := h.releaseShared.update.modTeam

theorem execPreemptEntry {fn q : Nat} (h : KeepsForms s₀ s) : OutKeeps s₀ (Machine.execPreemptEntry fn q s) := by
  unfold Machine.execPreemptEntry
  refine .next ?_
  split
  · exact h
  · refine .ite h ?_
    dsimp only
    split
    · exact h.passHead
    · refine .ite h.passHead ?_
      split
      · split
        · exact h.passHead.beginPre
        · exact h.passHead.mergePre
      · exact h.passHead.postRequest.modQueue.modTeam
      · exact .ite h.passHead.dropSaved.postRequest h.passHead
      · exact .ite h.passHead.leaveFront.dropSaved.postRequest h.passHead
      · exact h.passHead
      · exact h.passHead
      · exact h.passHead
      · exact h.passHead

theorem execPreemptDeadline {vd team : Nat} (h : KeepsForms s₀ s) : OutKeeps s₀ (Machine.execPreemptDeadline vd team s) := by
  unfold Machine.execPreemptDeadline
  refine .next ?_
  split
  · exact h
  · split
    · exact h
    · exact .ite h (.ite h.startAction (.ite h.startAction h))

theorem repost {t : Team} (h : KeepsForms s₀ s) : KeepsForms s₀ (Machine.repost s t) := h.modQueue.modTeam

theorem execDiscard {vd team : Nat} (h : KeepsForms s₀ s) : OutKeeps s₀ (Machine.execDiscard vd team s) := by
  unfold Machine.execDiscard
  refine .next ?_
  split
  · exact h
  · split
    · exact h
    · refine .ite h ?_
      split
      exact .ite (h.finishStop.of_eq ‹_›) (.ite (h.finishStop.of_eq ‹_›).postRequest.repost
          (h.finishStop.of_eq ‹_›).postRequest.modTeam)

/-- What a completion word that lands at a shadow leaves. -/
theorem landSaved {vd num tid engine reg : Nat} {w : Word} {t : State} (h : KeepsForms s₀ s)
    (ht : Machine.landSaved vd num tid engine reg w s = some t) :
    KeepsForms s₀ t := by
  unfold Machine.landSaved at ht
  split at ht
  · cases ht; exact h
  split at ht
  · cases ht; exact h
  split at ht
  · cases ht; exact h
  · dsimp only at ht
    split at ht
    · cases ht; exact h.arriveSaved
    · cases ht

/-- A way for a completion word to land keeps the forms. -/
def WordKeeps (s₀ : State) (w : Nat × (State → Option State)) : Prop := ∀ s t, KeepsForms s₀ s → w.2 s = some t → KeepsForms s₀ t

theorem copyWords {u : State} {t : Team} {gc : Nat} : ∀ w ∈ Machine.copyWords u t gc, WordKeeps s₀ w := by
  refine List.forall_mem_map.2 fun r _ s v h hv => ?_
  obtain ⟨x, hx, rfl⟩ := Option.map_eq_some_iff.1 hv
  exact (h.landSaved hx).modCopy

theorem retraceWords {u : State} {t : Team} : ∀ w ∈ Machine.retraceWords u t, WordKeeps s₀ w := by
  refine List.forall_mem_map.2 fun r _ s v h hv => ?_
  dsimp only at hv
  split at hv
  · cases hv; exact h.update
  · obtain ⟨x, hx, rfl⟩ := Option.map_eq_some_iff.1 hv
    exact (h.landSaved hx).update

theorem planWords {t : Team} {vk idx : Nat} {p : Plan} : ∀ w ∈ Machine.planWords t vk idx p, WordKeeps s₀ w := by
  unfold Machine.planWords
  split
  · exact List.forall_mem_nil _
  · refine List.forall_mem_filterMap.2 fun x _ w hw => ?_
    split at hw
    · cases hw
    · obtain ⟨m, -, rfl⟩ := Option.map_eq_some_iff.1 hw
      intro s v h hv
      obtain ⟨y, hy, rfl⟩ := Option.map_eq_some_iff.1 hv
      exact (h.landSaved hy).planFinish

theorem mem_sortBy {α : Type} {f : α → Nat} {xs : List α} {x : α} (h : x ∈ sortBy f xs) : x ∈ xs := by
  have key : ∀ acc : List α, x ∈ xs.foldl (fun acc x => insertBy f x acc) acc → x ∈ acc ∨ x ∈ xs := by
    clear h
    induction xs with
    | nil => exact fun acc h => .inl h
    | cons y ys ih =>
      intro acc h
      rcases ih _ h with h | h
      · rcases mem_insertBy h with rfl | h
        · exact .inr List.mem_cons_self
        · exact .inl h
      · exact .inr (List.mem_cons_of_mem _ h)
  exact (key [] h).resolve_left List.not_mem_nil

theorem landEach {ws : List (Nat × (State → Option State))} {t : State} (hw : ∀ w ∈ ws, WordKeeps s₀ w)
    {o : Option State} (ho : ∀ s, o = some s → KeepsForms s₀ s) (ht : ws.foldl (fun s w => s.bind w.2) o = some t) :
    KeepsForms s₀ t := by
  induction ws generalizing o with
  | nil => exact ho t ht
  | cons w ws ih =>
    refine ih (fun x hx => hw x (List.mem_cons_of_mem _ hx)) (fun s hs => ?_) ht
    obtain ⟨v, hv, hvs⟩ := Option.bind_eq_some_iff.1 hs
    exact hw w List.mem_cons_self v s (ho v hv) hvs

/-- Completion words that land at the shadows of a team. -/
theorem landWords {team : Team} {t : State} (h : KeepsForms s₀ s) (ht : Machine.landWords team s = some t) :
    KeepsForms s₀ t := by
  refine landEach (fun w hw => ?_) (fun u hu => by cases hu; exact h) ht
  rcases List.mem_append.1 (mem_sortBy hw) with hw | hw
  · rcases List.mem_append.1 hw with hw | hw
    · obtain ⟨gc, -, hw⟩ := List.mem_flatMap.1 hw
      exact copyWords w hw
    · exact retraceWords w hw
  · obtain ⟨e, -, hw⟩ := List.mem_flatMap.1 hw
    dsimp only at hw
    split at hw
    · exact absurd hw List.not_mem_nil
    · obtain ⟨p, -, hw⟩ := List.mem_flatMap.1 hw
      exact planWords w hw

theorem dropSyncWaits (h : KeepsForms s₀ s) : KeepsForms s₀ (Machine.dropSyncWaits s) := by
  unfold Machine.dropSyncWaits
  refine .foldl h fun _ _ h => ?_
  split
  exact h.foldl fun _ _ h => h.abandon

theorem writeSaveRegion {t : Team} {n : Nat} (h : KeepsForms s₀ s) : KeepsForms s₀ (Machine.writeSaveRegion t n s) := h.scramble

theorem releasePins {t : Team} (h : KeepsForms s₀ s) : KeepsForms s₀ (Machine.releasePins t s) := h.update

theorem execSaveComplete {vd team : Nat} (h : KeepsForms s₀ s) : OutKeeps s₀ (Machine.execSaveComplete vd team s) := by
  refine .next ?_
  split
  · exact h
  split
  · exact h
  refine .ite h ?_
  dsimp only
  split
  · exact h
  · rename_i ht
    exact (h.dropSyncWaits.modTeam.landWords ht).modTeam.flushLog.writeSaveRegion.freeSlots.releasePins.postRequest.modTeam

/-! ### The host -/

theorem modRing {fn r : Nat} {f : Ring → Ring} (h : KeepsForms s₀ s) : KeepsForms s₀ (s.modRing fn r f) := h.modFn

theorem drainOne {fn r : Nat} (h : KeepsForms s₀ s) : KeepsForms s₀ (Machine.drainOne fn r s) := by
  unfold Machine.drainOne
  split
  · exact h
  · refine .ite h ?_
    refine .ite h.modRing.ringWrite ?_
    split
    · exact h
    · exact h.modRing.ringWrite

theorem execEventRingDrain {fn r : Nat} (h : KeepsForms s₀ s) : OutKeeps s₀ (Machine.execEventRingDrain fn r s) := by
  unfold Machine.execEventRingDrain
  refine .next ?_
  split
  · exact h
  · exact h.foldl fun _ _ h => h.drainOne

theorem queueReg {fn off : Nat} {val : Word} (h : KeepsForms s₀ s) : KeepsForms s₀ (Machine.queueReg fn off val s) :=
  .ite h h.modQueue

theorem ringReg {fn off : Nat} {val : Word} (h : KeepsForms s₀ s) : KeepsForms s₀ (Machine.ringReg fn off val s) :=
  .ite h h.modRing

theorem lrateReg {vk : Nat} {val : Word} (h : KeepsForms s₀ s) : KeepsForms s₀ (Machine.lrateReg vk val s) := .ite h.modVd h

theorem dropBuckets {vk : Nat} (h : KeepsForms s₀ s) : KeepsForms s₀ (Machine.dropBuckets vk s) := h.update

theorem eraseVd {vk : Nat} (h : KeepsForms s₀ s) : KeepsForms s₀ (Machine.eraseVd vk s) := by
  unfold Machine.eraseVd
  exact h.accruePkg.dropBuckets.withMem fun w => memWf_filter w _

theorem execRmodeWrite {pkg : Nat} {vd : Option Nat} {val : Word} (h : KeepsForms s₀ s) :
    OutKeeps s₀ (Machine.execRmodeWrite pkg vd val s) := by
  unfold Machine.execRmodeWrite
  refine .next ?_
  split
  · exact .ite h.modPkg h
  · exact .ite h.modVd h

theorem execDefineHandle {fn q : Nat} (h : KeepsForms s₀ s) : OutKeeps s₀ (Machine.execDefineHandle fn q s) := by
  unfold Machine.execDefineHandle
  refine .next ?_
  split
  · exact h
  · exact .ite h h.passHead.modVd

theorem execDropHandle {fn q : Nat} (h : KeepsForms s₀ s) : OutKeeps s₀ (Machine.execDropHandle fn q s) := by
  unfold Machine.execDropHandle
  refine .next ?_
  split
  · exact h
  · exact .ite h h.passHead.modVd

theorem goInvalidation {fn q id : Nat} (h : KeepsForms s₀ s) : KeepsForms s₀ (Machine.goInvalidation s fn q id) := by
  unfold Machine.goInvalidation
  split
  · exact h.passHead
  · dsimp only
    split
    · exact h.forceInv.passHead
    · exact .ite h.forceInv.update.passHead.postCp h.forceInv

theorem execInvalidateEntry {fn q : Nat} (h : KeepsForms s₀ s) : OutKeeps s₀ (Machine.execInvalidateEntry fn q s) := by
  unfold Machine.execInvalidateEntry
  refine .next ?_
  split
  · exact h
  · split
    · exact h.goInvalidation
    · exact h.openInv.modQueue.goInvalidation

theorem hdmRefused {vk off : Nat} {write ue : Bool} (h : KeepsForms s₀ s) :
    KeepsForms s₀ (Machine.hdmRefused s vk off write ue) :=
  h.postCp

theorem hdmWrite {vk : Nat} {x : Nat × List Byte} (h : KeepsForms s₀ s) : KeepsForms s₀ (Machine.hdmWrite vk s x) := by
  unfold Machine.hdmWrite
  refine .ite h.noteTrigger ?_
  refine .foldl h fun _ _ h => ?_
  split
  · exact h.hdmRefused
  · exact .ite h.hdmRefused (.ite h.writeLoc h.meets.hdmRefused)

theorem hdmRead {vk : Nat} {x : Nat × List Byte} (h : KeepsForms s₀ s) : KeepsForms s₀ (Machine.hdmRead vk s x) := by
  unfold Machine.hdmRead
  split
  · exact h.hdmRefused
  · exact .ite h.hdmRefused (.ite h.meets.hdmRefused h.meets)

/-! ### Recovery -/

theorem postAlarm {pkg level source : Nat} {vd : Option Nat} (h : KeepsForms s₀ s) :
    KeepsForms s₀ (Machine.postAlarm s pkg level source vd) :=
  h.postOlush

theorem setLink {up : Bool} {pkg link : Nat} (h : KeepsForms s₀ s) : KeepsForms s₀ (Machine.setLink up pkg link s) := h.modPkg

theorem advanceRoutes {domain : Nat} (h : KeepsForms s₀ s) : KeepsForms s₀ (Machine.advanceRoutes domain s) := h.update

theorem execThopeifBringup {pkg link : Nat} (h : KeepsForms s₀ s) : OutKeeps s₀ (Machine.execThopeifBringup pkg link s) := by
  unfold Machine.execThopeifBringup
  refine .next ?_
  refine .ite h ?_
  split
  · exact h
  · exact .ite h h.setLink.setLink.advanceRoutes

theorem failLink {pkg link : Nat} (h : KeepsForms s₀ s) : KeepsForms s₀ (Machine.failLink pkg s link) := by
  unfold Machine.failLink
  refine .ite ?_ h
  refine .advanceRoutes ?_
  refine .setLink ?_
  split
  · exact h.setLink
  · exact h

theorem flitOk {link : Nat} (h : KeepsForms s₀ s) : KeepsForms s₀ (s.flitOk link) := h.modPkg

theorem eraseKeys {pkg : Nat} (h : KeepsForms s₀ s) : KeepsForms s₀ (Machine.eraseKeys pkg s) :=
  (h.foldl (fun _ _ h => h.failLink)).modPkg

theorem forceDiscard {action : Nat} {t : Team} (h : KeepsForms s₀ s) : KeepsForms s₀ (Machine.forceDiscard action s t) := by
  unfold Machine.forceDiscard
  refine .ite h ?_
  split
  · exact h.dropCase.modTeam.beginStop
  · exact .ite h h.dropCase.modTeam.beginStop

theorem dropUnbound {vk : Nat} {t : Team} (h : KeepsForms s₀ s) : KeepsForms s₀ (Machine.dropUnbound vk s t) :=
  .ite h.leaveRing.leaveFront.dropSaved.postRequest h.leaveRing.leaveFront.modTeam

theorem quarantine {vk : Nat} (h : KeepsForms s₀ s) : KeepsForms s₀ (Machine.quarantine vk s) := by
  unfold Machine.quarantine
  refine .foldl h.modVd fun _ _ h => ?_
  split
  · exact h.forceDiscard
  · exact h.dropUnbound
  · exact h.dropUnbound
  · exact h.dropUnbound
  · exact h
  · exact h
  · exact h
  · exact h

theorem execSecurityAlarm {pkg : Nat} {src : AlarmSource} {vd : Option Nat} (h : KeepsForms s₀ s) :
    OutKeeps s₀ (Machine.execSecurityAlarm pkg src vd s) := by
  unfold Machine.execSecurityAlarm
  refine .next ?_
  refine .ite h ?_
  split
  · exact h.postAlarm
  · exact h.postAlarm.modPkg
  · exact h.postAlarm
  · exact h.postAlarm
  · split
    · exact h
    · exact h.postAlarm.quarantine
  · exact h.postAlarm.eraseKeys
  · exact h.postAlarm.eraseKeys.modPkg
  · exact h.postAlarm.eraseKeys.modPkg

theorem enrol {pkg : Nat} (h : KeepsForms s₀ s) : KeepsForms s₀ (s.enrol pkg) := h.modPkg

theorem reportMassif {pkg m : Nat} (h : KeepsForms s₀ s) : KeepsForms s₀ (Machine.reportMassif pkg m s) := h.reportCores

theorem execScrub {pkg : Nat} {mem : ScrubMem} {unit : Nat} {found : ScrubFind} (h : KeepsForms s₀ s) :
    OutKeeps s₀ (Machine.execScrub pkg mem unit found s) := by
  unfold Machine.execScrub
  refine .next ?_
  split
  · exact h
  · dsimp only
    split
    · exact h
    · exact h.update.countUnit
    · exact h.update.countUnit

theorem decay {mem : ScrubMem} {loc : Nat} {corrects : Bool} (h : KeepsForms s₀ s) :
    KeepsForms s₀ (s.decay mem loc corrects) := by
  unfold State.decay
  split
  exact .ite h (.ite h.update (.ite h h.update))

theorem deconfigure {pkg cl : Nat} {core : Option Nat} (h : KeepsForms s₀ s) :
    KeepsForms s₀ (Machine.deconfigure pkg cl core s) :=
  h.update.foldl fun _ _ h => h.forceDiscard

theorem holdPkgCase {pkg : Nat} {kind : CaseKind} {until_ : Nat} (h : KeepsForms s₀ s) :
    KeepsForms s₀ (s.holdPkgCase pkg kind until_) :=
  h.update

theorem wornOut {pkg cl : Nat} {core : Option Nat} (h : KeepsForms s₀ s) : KeepsForms s₀ (Machine.wornOut pkg cl core s) :=
  .ite h (.ite h.modPkg.postOlush.holdPkgCase h.modPkg.postOlush.deconfigure)

theorem setGuard {pkg cl g : Nat} (h : KeepsForms s₀ s) : KeepsForms s₀ (Machine.setGuard pkg cl g s) := .ite h h.modPkg

theorem execWearSample {pkg cluster index : Nat} {failing : Option Nat} (h : KeepsForms s₀ s) :
    OutKeeps s₀ (Machine.execWearSample pkg cluster index failing s) := by
  unfold Machine.execWearSample
  refine .next ?_
  refine .ite h ?_
  refine .ite ?_ (.ite (ite (ite h h.setGuard).modPkg.postOlush.holdPkgCase (ite h h.setGuard).modPkg).wornOut (.ite
      (ite h h.setGuard).modPkg.postOlush.holdPkgCase (ite h h.setGuard).modPkg))
  split
  · exact .ite (ite (ite h h.setGuard).modPkg.postOlush.holdPkgCase (ite h h.setGuard).modPkg).wornOut (.ite
        (ite h h.setGuard).modPkg.postOlush.holdPkgCase (ite h h.setGuard).modPkg)
  · exact (ite (ite (ite h h.setGuard).modPkg.postOlush.holdPkgCase (ite h h.setGuard).modPkg).wornOut (.ite
        (ite h h.setGuard).modPkg.postOlush.holdPkgCase (ite h h.setGuard).modPkg)).wornOut
  · exact .ite (ite (ite (ite h h.setGuard).modPkg.postOlush.holdPkgCase (ite h h.setGuard).modPkg).wornOut (.ite
        (ite h h.setGuard).modPkg.postOlush.holdPkgCase (ite h h.setGuard).modPkg)).wornOut (.ite (ite
            (ite h h.setGuard).modPkg.postOlush.holdPkgCase (ite h h.setGuard).modPkg).wornOut (.ite
                (ite h h.setGuard).modPkg.postOlush.holdPkgCase (ite h h.setGuard).modPkg))

theorem wipePackage {pkg : Nat} (h : KeepsForms s₀ s) : KeepsForms s₀ (Machine.wipePackage pkg s) :=
  ⟨fun w => memWf_filter (h.memory w) _, fun k e he => h.threads k e (List.mem_of_mem_filter he)⟩

/-! ### Answers of the host -/

theorem closeCase {token : Nat} (h : KeepsForms s₀ s) : KeepsForms s₀ (s.closeCase token) := h.update

theorem refuseAnswer {fn : Nat} (h : KeepsForms s₀ s) : KeepsForms s₀ (Machine.refuseAnswer s fn) := h.postRefusal

theorem endSpill {tid : Nat} {r : Word} (h : KeepsForms s₀ s) : KeepsForms s₀ (Machine.endSpill s tid r) := h.modThread

theorem answerSpill {token tid quota : Nat} {val : Word} (h : KeepsForms s₀ s) :
    KeepsForms s₀ (Machine.answerSpill s token tid quota val) := by
  unfold Machine.answerSpill
  dsimp only
  split
  · exact h
  · exact .ite h h.closeCase.modTeam.openSegment.endSpill

theorem answerRetrace {fn token tid key : Nat} {val : Word} (h : KeepsForms s₀ s) :
    KeepsForms s₀ (Machine.answerRetrace s fn token tid key val) :=
  .ite h.refuseAnswer h.closeCase.update

theorem answerPre {fn vd team : Nat} {val : Word} (h : KeepsForms s₀ s) : KeepsForms s₀ (Machine.answerPre s fn vd team val) :=
    by
  unfold Machine.answerPre
  split
  · exact h
  · split
    · exact h
    · exact .ite h (.ite h.startAction h.refuseAnswer)

theorem answerWalk {fn token router vk page : Nat} {val : Word} (h : KeepsForms s₀ s) :
    KeepsForms s₀ (Machine.answerWalk s fn token router vk page val) :=
  .ite h.closeCase.modRouter (.ite h.closeCase.failWalk h.refuseAnswer)

theorem answerGuard {fn token pkg cl : Nat} {val : Word} (h : KeepsForms s₀ s) :
    KeepsForms s₀ (Machine.answerGuard s fn token pkg cl val) :=
  .ite h.closeCase.setGuard h.refuseAnswer

theorem answerDeconf {fn token pkg cl : Nat} {core : Option Nat} {val : Word} (h : KeepsForms s₀ s) :
    KeepsForms s₀ (Machine.answerDeconf s fn token pkg cl core val) :=
  .ite h.closeCase.deconfigure (.ite h.update.setGuard h.refuseAnswer)

theorem execAnswer {fn q : Nat} (h : KeepsForms s₀ s) : OutKeeps s₀ (Machine.execAnswer fn q s) := by
  unfold Machine.execAnswer
  refine .next ?_
  split
  · exact h
  · dsimp only
    split
    · exact h.passHead
    · refine .ite h.passHead ?_
      split
      · exact h.passHead.answerSpill
      · exact h.passHead.answerRetrace
      · exact h.passHead.answerPre
      · exact h.passHead.answerWalk
      · exact h.passHead.answerGuard
      · exact h.passHead.answerDeconf

theorem execHostAnswerTimeout {token : Nat} (h : KeepsForms s₀ s) : OutKeeps s₀ (Machine.execHostAnswerTimeout token s) := by
  refine .next ?_
  split
  · exact h
  refine .ite h ?_
  split
  · exact h.closeCase.openSegment.endSpill
  · exact h.closeCase
  · split
    · exact h.execPreemptDeadline _ ‹_›
    · exact h
  · exact h.closeCase.failWalk
  · exact h.closeCase.setGuard
  · exact h

/-! ### Control transfers -/

theorem branchOn {sw : Bool} {a : Src} {delta : BitVec 11} {xh : BitVec 5} {test : Word → Bool} (h : KeepsForms s₀ s) :
    KeepsForms s₀ (Machine.branchOn sw a delta xh test s) :=
  h.withRegs fun _ h => .ite h.finishAt h.finish

theorem jumpTo {sw : Bool} {x : Addr} {link : State → State} (h : KeepsForms s₀ s)
    (hlink : ∀ s, KeepsForms s₀ s → KeepsForms s₀ (link s)) :
    KeepsForms s₀ (Machine.jumpTo sw x link s) :=
  .ite h.trap (hlink _ h).finishAt

theorem loopArm {sw k : Bool} {e : Addr} {xh n : Nat} {count : Word} (h : KeepsForms s₀ s) :
    KeepsForms s₀ (Machine.loopArm sw k e xh n count s) :=
  .ite h.trap (.ite h.trap (.ite h.finishAt h.modThr.finish))

theorem execLoop {sw k : Bool} {a : Src} {delta : BitVec 11} {xh : BitVec 5} (h : KeepsForms s₀ s) :
    OutKeeps s₀ (Machine.execLoop sw k a delta xh s) := by
  unfold Machine.execLoop
  refine .next ?_
  refine .ite h.trap ?_
  refine .withRegs h ?_
  intro _ h
  split
  · exact h.modThr
  · exact h.loopArm

/-! ### Scalar instructions -/

theorem writeCmp {d : CmpDst} {b : Bool} (h : KeepsForms s₀ s) : KeepsForms s₀ (s.writeCmp d b) := by
  unfold State.writeCmp
  split
  · exact h.writeS
  · exact h.writeP

/-! ### The passing of time -/

theorem wait_ {n : Nat} (h : KeepsForms s₀ s) : KeepsForms s₀ (s.wait_ n) := h.passTo

/-! ### Instructions, steps of the part, turns and picks -/

/-- Each instruction and each step of the part keeps the forms. -/
theorem exec {i : Instr} (h : KeepsForms s₀ s) : OutKeeps s₀ (Machine.exec i s) := by
  cases i with
  | nop => exact h.finish.next
  | br => exact h.finishAt.next
  | brz | brnz => exact h.branchOn.next
  | jmp => exact (h.withRegs (fun _ h => h.jumpTo (fun _ h => h))).next
  | jal => exact (h.withRegs (fun _ h => h.writeS.finishAt)).next
  | jalr => exact (h.withRegs (fun _ h => h.jumpTo (fun _ h => h.writeS))).next
  | loop => exact h.execLoop
  | lbrk => exact h.modThr.finish.next
  | halt => exact (ite h.retire h.modThr).next
  | encodingNotAnInstruction => exact h.trap.next
  | add | sub | and | or | xor | andn | shl | shr | sar | rotl | min | max | minu | maxu | mul | mulh | mulhu | bfi | padd |
    pfmt =>
    exact h.simple2.next
  | div | divu | rem | remu => exact h.deferred2.next
  | clz | ctz | popc | mov | sext | zext | addi | andi | ori | xori | bfx | pstrip | pget | paddi => exact h.simple1.next
  | cmp | cmpi => exact (h.withRegs (fun _ h => h.writeCmp.finish)).next
  | sel | li | liw | lix | vext | rfull => exact (h.withRegs (fun _ h => h.writeS.finish)).next
  | pidx => exact (h.withRegs (fun _ h => .ite h.writeS.finish h.trap)).next
  | pand | por | pxor => exact h.pred2.next
  | pnot | pmov => exact h.pred1.next
  | pcnt | pfirst => exact h.predS.next
  | vadd | vsub | vmul | vmin | vmax => exact h.vec2.next
  | vmulh | vand | vor | vxor | vshl | vshr | vsar => exact h.bits2.next
  | vfma | vfms => exact h.vec3.next
  | vabs | vneg => exact h.vec1.next
  | vcmp => exact (h.withRegs (fun _ h => h.writeP.finish)).next
  | vsel | vins => exact (h.withRegs (fun _ h => h.writeV.finish)).next
  | vbcast | vshuf | vrot | vdot4 => exact h.governed.next
  | vcvt | vqnt | vscan => exact (h.withRegs (fun _ h => h.takeDraws.writeV.finish)).next
  | vdqnt => exact h.execVdqnt
  | vredsum => exact (h.withRegs (fun _ h => .ite h.writeS.finish h.takeDraws.writeS.finish)).next
  | vredmax | vredmin => exact h.redExtreme.next
  | vrcp | vrsq | vexp2 | vlog2 => exact h.special.next
  | vpopc => exact h.bits1.next
  | ld | lda | ldf | ldfp => exact h.loadForm.next
  | st | stl | setfe => exact (h.withRegs (fun _ h => h.storeForm)).next
  | vld | vlds | vgath => exact (h.withSlot (fun _ h => h.withRegs (fun _ h => h.vloadForm))).next
  | vst | vsts | vscat => exact (h.withRegs (fun _ h => h.vstoreForm)).next
  | ste =>
    exact (h.withSlot (fun _ h => h.withRegs (fun _ h => h.checked (fun _ _ h => .ite h.bubble h.defer.toPort.finish)))).next
  | amo =>
    exact (h.withSlot (fun _ h => h.withRegs (fun _ h => h.checked (fun _ _ h => .ite h.bubble h.deferAs.toPort.finish)))).next
  | redu => exact (h.withRegs (fun _ h => .ite h.trap (h.checkedMid (fun _ _ h => .ite h.bubble h.bump.toPort.finish)))).next
  | waitge => exact h.execWaitge
  | fence => exact (h.holdUntil (fun _ h => h.finish)).next
  | pref | rwait => exact (h.withRegs (fun _ h => h.finish)).next
  | tflush | tinv => exact h.tileForm.next
  | send | sendv | sendr => exact h.sendForm.next
  | mintcap => exact (h.withSlot (fun _ h => h.defer.finish)).next
  | revcap => exact h.execRevcap
  | rclr => exact (h.withRegs (fun _ h => h.modThr.finish.reland)).next
  | landm => exact h.modThr.finish.reland.next
  | cpy | cpynb => exact h.copyForm.next
  | cpyc => exact h.execCpyc
  | cpyq | tapeq => exact (h.withSlot (fun _ h => h.withRegs (fun _ h => h.defer.finish))).next
  | twany | twall | tffr => exact h.tagWaitForm.next
  | tclr => exact (h.withRegs (fun _ h => h.clearTags.finish)).next
  | pbinv => exact (h.withRegs (fun _ h => h.modCore.finish)).next
  | gathq =>
    exact (h.withSlot (fun _ h => h.withRegs (fun _ h => h.checked (fun _ _ h => (ite h.defer h.defer.toPort).finish)))).next
  | planset => exact (h.withSlot (fun _ h => h.withRegs (fun _ h => h.checked (fun _ _ h => h.defer.toPort.finish)))).next
  | planfire => exact (h.withRegs (fun _ h => .ite h.bubble h.bump.toPort.finish)).next
  | plandrop => exact h.execPlandrop
  | tapeopen => exact h.execTapeopen
  | tapeclose => exact h.execTapeclose
  | tapefree => exact h.execTapefree
  | mcast | gathr | a2a => exact h.forwardForm.next
  | retrace => exact h.execRetrace
  | genbump => exact h.execGenbump
  | hsinit => exact (h.heapForm (fun _ h => h.heapHold) (fun _ _ h => h.heapWrite.finish)).next
  | hsift => exact h.execHsift
  | hpop => exact h.execHpop
  | hist | histOvf => exact h.histForm.next
  | remapw => exact h.execRemapw
  | remapx => exact (h.withRegs (fun _ h => .ite h.trap (.ite h.finish (h.holdUntil (fun _ h => h.modVd.finish))))).next
  | mcfg => exact (h.withRegs (fun _ h => .ite h.illegal (h.enqueue (fun _ h => h.modCore)))).next
  | mzero | mldacc => exact (h.matrixForm (fun _ _ h => h.enqueue (fun _ h => h))).next
  | mlda | mldb => exact h.loadOperand.next
  | mmap | mmah | mmas => exact h.productForm.next
  | mst | mstq | mscl => exact (h.matrixForm (fun _ _ h => h.enqueueDraws)).next
  | wfw => exact h.execWfw
  | disp => exact (h.withRegs (fun _ h => .ite h.writeS.finish h.modDisp.post.writeS.finish)).next
  | prog | ckpt => exact (h.withRegs (fun _ h => h.post.finish)).next
  | sleep => exact h.execSleep
  | bararv => exact (ite h.trap h.barArrive.finish).next
  | barwt => exact h.barWait.next
  | barsync => exact h.execBarsync
  | trap => exact h.modThr.takeTrap.next
  | eret => exact (ite h.trap (.ite h.modThr.eretGo h.modThr)).next
  | ctlr => exact h.execCtlr
  | ctlw => exact (ite h.illegal (h.withRegs (fun _ h => .ite h.trap (.ite h.ctlEffect.finish.reland h.ctlEffect.finish)))).next
  | tdef => exact h.execTdef
  | tlbpin => exact h.execTlbpin
  | tlbinv => exact h.execTlbinv
  | lineFetch => exact h.execLineFetch
  | deferredResultReturn => exact h.execDeferredResultReturn
  | switchPointCommit => exact h.execSwitchPointCommit
  | asyncCauseDelivery => exact h.execAsyncCauseDelivery
  | parklong => exact h.execParklong
  | translationWalkEnd => exact h.execTranslationWalkEnd
  | accessAtHome => exact h.execAccessAtHome
  | syncretry => exact h.execSyncretry
  | syncRequestRepresent | watchReread => exact h.present.next
  | gatherEngineServe => exact h.execGatherEngineServe
  | sendArrival => exact h.execSendArrival
  | revocationEffective => exact h.execRevocationEffective
  | capbadStop => exact h.execCapbadStop
  | copyDispatch => exact h.execCopyDispatch
  | copyComplete => exact h.execCopyComplete
  | matrixEntryStart => exact h.execMatrixEntryStart
  | matrixEntryComplete => exact h.execMatrixEntryComplete
  | multicastDelivery => exact h.execMulticastDelivery
  | planTrigger => exact h.execPlanTrigger
  | planFireStart => exact h.execPlanFireStart
  | planFiringComplete => exact h.execPlanFiringComplete
  | sillageDelivery => exact h.execSillageDelivery
  | sillageTransferComplete => exact h.execSillageTransferComplete
  | retraceChunkArrival => exact h.execRetraceChunkArrival
  | accordEmit => exact h.execAccordEmit
  | retraceComplete => exact h.execRetraceComplete
  | dispPostArrival => exact h.execDispPostArrival
  | dispenserBind => exact h.execDispenserBind
  | sleepWake => exact h.execSleepWake
  | barrierArrivalCounted => exact h.execBarrierArrivalCounted
  | barrierPhaseComplete => exact h.execBarrierPhaseComplete
  | ckptRecord => exact h.execCkptRecord
  | bucketAccrual => exact h.accrueAt.next
  | arbiterGrant => exact h.execArbiterGrant
  | rateEpoch => exact (ite h.applyEpoch h).next
  | progressAdditionApplied => exact h.execProgressAdditionApplied
  | doorbell => exact (ite h (.ite h.modQueue.postRefusal h.modQueue)).next
  | launchEntry => exact h.execLaunchEntry
  | launchSelect => exact h.execLaunchSelect
  | launchBind => exact h.execLaunchBind
  | bootTreeForward => exact h.execBootTreeForward
  | threadStart => exact h.execThreadStart
  | teamComplete => exact h.execTeamComplete
  | preemptEntry => exact h.execPreemptEntry
  | preemptDeadline => exact h.execPreemptDeadline
  | discard => exact h.execDiscard
  | saveComplete => exact h.execSaveComplete
  | invalidateEntry => exact h.execInvalidateEntry
  | defineHandle => exact h.execDefineHandle
  | dropHandle => exact h.execDropHandle
  | answer => exact h.execAnswer
  | hostAnswerTimeout => exact h.execHostAnswerTimeout
  | tlbinvDeadline => exact h.execTlbinvDeadline
  | eventRingDrain => exact h.execEventRingDrain
  | eheadWrite => exact (ite h.modRing h).next
  | ectlWrite => exact (ite h h.modRing).next
  | qctlEn => exact (ite h.modQueue h).next
  | qctlRst => exact (ite h h.modQueue.update).next
  | vdCreate => exact (ite h h.accruePkg.dropBuckets.update.modVd).next
  | vdDestroy => exact (ite h h.eraseVd).next
  | vdReenable | qpriWrite => exact (ite h.modVd h).next
  | l2useWrite | rateWrite | slotMapWrite | grantMapWrite => exact (ite h h.modVd).next
  | l2limWrite => exact (ite h (ite h.leaveCache h).modVd).next
  | rmodeWrite => exact h.execRmodeWrite
  | registerWrite => exact (ite h.queueReg (.ite h.ringReg (.ite h.lrateReg h))).next
  | hostHdmRead => exact (ite (h.foldl (fun _ _ h => h.hdmRead)) h).next
  | hostHdmWrite => exact (ite (h.foldl (fun _ _ h => h.hdmWrite)) h).next
  | spdmMessage => exact (ite h h.modFn).next
  | throttleChange => exact (ite h (h.foldl (fun _ _ h => h.modArb.modCore)).reportCores).next
  | thermalLimit => exact (ite h h.accruePkg.modPkg.reportMassif.postOlush.postAlarm).next
  | flitReplay | linkDown => exact (ite h.modPkg h).next
  | thopeifBringup => exact h.execThopeifBringup
  | thopeifLinkFail => exact (ite (.ite h.failLink.postAlarm h.failLink) h).next
  | timeSync => exact (ite h.update h).next
  | scrub => exact h.execScrub
  | wearSample => exact h.execWearSample
  | lifeRecompute => exact (ite h h.modPkg).next
  | securityAlarm => exact h.execSecurityAlarm
  | olushOutput => exact (ite h (.ite (.ite h.eraseKeys h.postOlush) (.ite h.modPkg h.postOlush))).next
  | packageReset =>
    exact (ite h (.ite (h.foldl (fun _ _ h => h.failLink)).wipePackage.modPkg.postAlarm (h.foldl (fun _ _ h =>
      h.failLink)).wipePackage.modPkg.postOlush)).next
  | layerTemperatureChange => exact (ite h (.ite h.modPkg (.ite h.modPkg (.ite h h.accruePkg.modPkg.reportMassif)))).next

theorem issueHead {i : Instr} {t : Nat} (h : KeepsForms s₀ s) : OutKeeps s₀ (Machine.issueHead i t s) := by
  unfold Machine.issueHead
  split
  · rename_i heq
    have h := h.exec _ heq
    exact .ite h.exec h.stopParked.next
  · exact fun _ => nofun
  · exact fun _ => nofun

theorem turn {t : Nat} (h : KeepsForms s₀ s) : OutKeeps s₀ (Machine.turn t s) := by
  have h := (h.refillHeld (t := t)).atTurn (t := t)
  unfold Machine.turn
  dsimp only
  split
  · exact h.next
  · exact h.exec
  · exact h.pushStores.next
  · exact h.stopWaiting.next
  · exact h.trap.next
  · exact h.issueHead

theorem nextTurn {t : Nat} (h : KeepsForms s₀ s) : OutKeeps s₀ (Machine.nextTurn t s) := .ite h.turn h.next

/-- A turn, a step of the part, the passing of time and every act of the host and the surroundings keep the forms. -/
theorem runPick {p : Pick} (h : KeepsForms s₀ s) : OutKeeps s₀ (Machine.runPick p s) := by
  unfold Machine.runPick
  split
  case h_1 | h_2 | h_3 => exact h.nextTurn
  case h_4 => exact .ite h.exec fun _ => nofun
  case h_5 => exact h.wait_.next
  case h_6 => exact h.cleanTile.next
  case h_7 => exact h.logWrite.next
  case h_8 => exact (h.withMem fun w => memWf_writeN w _ _).next
  case h_9 => exact h.update.next
  case h_10 => exact (ite h.rawWrite h).next
  case h_11 => exact h.decay.next
  case h_12 => exact h.flitOk.next
  case h_13 | h_15 => exact h.modPkg.next
  case h_14 => exact h.enrol.next

theorem step (h : KeepsForms s₀ s) : OutKeeps s₀ (Machine.step s) := by
  unfold Machine.step
  split
  · split
    · exact h.next
    · exact h.update.runPick
  · exact h.update.runPick

end KeepsForms

/-- Settles O58: every operation over the state keeps the canonical form of memory and holds threads under their own numbers,
    so each
instruction and each step of the part does, and so does every pick. -/
theorem formsAreInvariant : Obligations.FormsAreInvariant := by
  unfold Obligations.FormsAreInvariant
  have hstep (s t : State) (h : StepsTo s t) : KeepsForms s t := (KeepsForms.refl s).step t h
  exact ⟨fun s t hw h => (hstep s t h).memory hw, fun s t hk h => (hstep s t h).threads hk⟩

end Sys2Proof.Machine
end

section
/-! SUPPORT. The state after reset (R55, R107, R194, R328, R396, R422, R455). -/

namespace Sys2Proof.Machine

theorem reset_thread (id : Nat) : State.reset.thread id = Thread.blank id := by
  rw [State.thread]
  split
  · rename_i h; rw [← h]; rfl
  · rfl

/-- Every queue of the physical function is a blank one. -/
theorem reset_queue (q : Nat) : State.reset.queue 0 q = Queue.blank := by
  rw [State.queue, show (State.reset.fn 0).queues = Vector.replicate 8 Queue.blank from rfl, Vector.getElem?_replicate]
  split <;> rfl

/-- The one record that the controller has posted is held, of type 26. -/
theorem reset_record : ((State.reset.fn 0).rings[0]?).map (fun g => g.hold) = some [bootRecord] ∧
    (bootRecord.drop 8).take 2 = toBytes 2 26 := ⟨rfl, by decide⟩

/-- Settles O60: each table is empty at reset, and what an empty table answers is the blank of its kind. -/
theorem resetState : Obligations.ResetState := by
  unfold Obligations.ResetState
  exact ⟨reset_wf, reset_keyed, fun _ => rfl, reset_thread, fun _ => rfl, fun _ => rfl, rfl, rfl, rfl,
    fun q _ => by rw [reset_queue]; rfl, ⟨bootRecord, reset_record⟩,
    fun _ => ⟨rfl, rfl, rfl, rfl, rfl, rfl, rfl, rfl, rfl, rfl, rfl, rfl, rfl⟩⟩

end Sys2Proof.Machine
end

section
/-! SUPPORT. A turn of a thread that is held under another number: the statement on turns fails there (R326). -/

namespace Sys2Proof.Machine

/-- The thread of number 5 stands in the table under number 3, and number 3 takes the next turn. -/
def misplacedThread : State := { State.reset with threads := [(3, Thread.blank 5)], agenda := [.turn 3] }

/-- Its turn takes a cycle of slot 5. -/
theorem misplacedThread_cycle :
    ((({ misplacedThread with agenda := [] } : State).refillHeld 3).atTurn 3).cycle = 5 := by decide

theorem misplacedThread_noneDue : noneDue { misplacedThread with agenda := [] }
    (({ misplacedThread with agenda := [] } : State).turnCycle (misplacedThread.thread 3)) = true := by decide

/-- Refutes O55: the statement asks for the slot of the number that the agenda names in every state, and a state whose table of
threads is not keyed by their numbers (`misplacedThread`) gives the turn the slot of the number that the thread carries. -/
theorem not_stepRunsTheDecodedInstruction : ¬ Obligations.StepRunsTheDecodedInstruction := by
  unfold Obligations.StepRunsTheDecodedInstruction
  intro h
  have hslot := ((h 3 [] ⟨0, []⟩ (.nop false) misplacedThread).1 rfl misplacedThread_noneDue).2.1 (Nat.le_refl 0)
  rw [misplacedThread_cycle] at hslot
  exact absurd hslot (by decide)

end Sys2Proof.Machine
end

section
/-! SUPPORT. The retirement of a thread where another number's entry holds it too: the statement on ends fails there (R103, R223). -/

namespace Sys2Proof.Machine

/-- An arrival held for thread 0, sent by thread 7. -/
def heldFromSeven : Landing :=
  { tid := 0, reg := 1, vec := false, value := 0, cap := 0, src := 0, sender := (0, 7), window := (0, 7), own := true, refused := false,
    arr := 0 }

/-- Thread 0 is in focus with an arrival of thread 7 held for it, and the table shows under 7 a thread that carries number 0. -/
def doubledThread : State :=
  { State.reset with thr := { Thread.blank 0 with st := .ready }, threads := [(7, { Thread.blank 0 with st := .ready })],
                     cores := [(0, { Core.blank with landing := [heldFromSeven] })] }

/-- SENDFAIL for thread 7 puts that entry in the place of the thread that has just retired. -/
theorem doubledThread_retire : ((doubledThread.retire 0).thread 0).st = .ready := by decide

/-- Refutes O8: the clauses on ends hold of every state, and where the table of threads is not keyed by their numbers
(`doubledThread`) a HALT with no result outstanding does not leave its thread retired. -/
theorem not_trapsAndEnds : ¬ Obligations.TrapsAndEnds := by
  unfold Obligations.TrapsAndEnds
  rintro ⟨-, -, -, -, -, -, hhalt⟩
  obtain ⟨t, ht, hretired, -, -⟩ := (hhalt false doubledThread).1 rfl
  cases ht
  exact absurd (hretired.symm.trans doubledThread_retire) (by decide)

end Sys2Proof.Machine
end

section
/-! SUPPORT. The register of a rate, read by a thread of a VD whose number is beyond its package: the statement on control registers fails there (R351). -/

namespace Sys2Proof.Machine

/-- A VD whose rates are one unit in 1,024 cycles with a level of one. -/
def ratedVd : Vd := { Vd.blank with isVd := true, rates := Vector.replicate 9 ⟨1, 1, false, false⟩ }

/-- Thread 0, of package 0, runs for VD 16, whose key is one of package 1. -/
def strayedThread : State :=
  { State.reset with thr := { Thread.blank 0 with st := .ready, vd := 16 }, vds := [(16, ratedVd)] }

/-- No VD of package 0 may start a unit of class 0, so its blocking is 0. -/
theorem strayedThread_blocking : blocking strayedThread 0 0 = 0 := by decide

/-- CTLR of register 0x090 answers with the blocking of package 1, to which the key of the VD belongs. -/
theorem strayedThread_rateWord : rateWord strayedThread 16 0 ≠ 0x0000000001000001#64 := by decide

/-- Refutes O9: a rate register shows the blocking of the package to which the key of the thread's VD belongs, and the statement
asks for that of the thread's own package, also where the two differ (`strayedThread`). -/
theorem not_controlRegisters : ¬ Obligations.ControlRegisters := by
  unfold Obligations.ControlRegisters
  rintro ⟨hread, -⟩
  obtain ⟨t, ht, hdefers, -⟩ := hread false 1 strayedThread (by decide) rfl
    (0x090, 0x0000000001000001#64) (List.mem_append_right _ (List.mem_map.mpr ⟨0, by decide, rfl⟩))
  have hwrites := congrArg (fun b : List BufEntry => b.map (·.writes)) hdefers.buffer
  cases ht
  have hanswer : [[RegWrite.s 1 (rateWord strayedThread 16 0)]] = [[RegWrite.s 1 0x0000000001000001#64]] := hwrites
  exact strayedThread_rateWord (RegWrite.s.inj (List.head_eq_of_cons_eq (List.head_eq_of_cons_eq hanswer))).2

end Sys2Proof.Machine
end

section
/-! SUPPORT. PROG and CKPT: what they post, and what the addition and the record do to their team (R358, R360). -/

namespace Sys2Proof.Machine

/-- Addition that saturates, by its two cases. -/
theorem satAdd32_eq (x y : BitVec 32) :
    satAdd32 x y = if x.toNat + y.toNat < 2 ^ 32 then x + y else BitVec.allOnes 32 := by
  split
  case isTrue h =>
    apply BitVec.eq_of_toNat_eq
    simp only [satAdd32, BitVec.toNat_ofNat, BitVec.toNat_add]
    omega
  case isFalse h =>
    have hmin : min (x.toNat + y.toNat) 0xFFFFFFFF = 0xFFFFFFFF := by omega
    rw [satAdd32, hmin]
    rfl

section
variable (s : State) (sw : Bool) (f : Nat → Posted)

/-- Something posted at the issuing head, which completes. -/
theorem post_finish_passes : Passes sw s ((s.post f).finish sw) :=
  finish_passes (s := s) (u := s.post f) rfl sw

theorem post_finish_world :
    (s.post f).finish sw = { s with thr := ((s.post f).finish sw).thr, seq := s.seq + 1, posted := s.posted ++ [f s.seq] } := rfl

end

section
variable {s : State} {a : Src} (h : Present s (srcRegs a))
include h

theorem prog_completes (sw : Bool) : Completes (.prog sw a) s fun t =>
    Passes sw s t ∧ t = { s with thr := t.thr, seq := s.seq + 1, posted := t.posted } ∧
    t.posted = s.posted ++ [.prog s.seq s.thr.id ((s.src a).setWidth 32)] :=
  ⟨_, congrArg Host.Outcome.next (withRegs_present h _), post_finish_passes s sw _, post_finish_world s sw _, rfl⟩

theorem ckpt_completes (sw : Bool) (sc : Scope) : Completes (.ckpt sw sc a) s fun t =>
    Passes sw s t ∧ t = { s with thr := t.thr, seq := s.seq + 1, posted := t.posted } ∧
    t.posted = s.posted ++ [.ckpt s.seq s.thr.id sc ((s.src a).setWidth 32)] :=
  ⟨_, congrArg Host.Outcome.next (withRegs_present h _), post_finish_passes s sw _, post_finish_world s sw _, rfl⟩

end

section
variable {s : State} {id tid : Nat} {n : BitVec 32} {y : Team} (hy : s.findTeam (s.thread tid).vd (s.thread tid).teamNum = some y)
include hy

theorem progressAddition_completes (hp : s.posted.find? (fun p => p.id = id) = some (.prog id tid n)) :
    Completes (.progressAdditionApplied id) s fun t =>
      t.findTeam (s.thread tid).vd (s.thread tid).teamNum = some { y with progDone := satAdd32 y.progDone n } ∧
      t.posted = s.posted.filter (fun p => p.id != id) ∧ t = { s with teams := t.teams, posted := t.posted } := by
  refine ⟨(s.unpost id).modTeam (s.thread tid).vd (s.thread tid).teamNum fun x => { x with progDone := satAdd32 x.progDone n },
    ?_, findTeam_modTeam (s := s.unpost id) hy fun _ => rfl, rfl, rfl⟩
  change execProgressAdditionApplied id s = _
  rw [execProgressAdditionApplied, hp]

/-- A record waits for no earlier post where its own is the first of its thread. -/
theorem ckptRecord_completes {sc : Scope} (hp : s.posted.find? (fun p => p.id = id) = some (.ckpt id tid sc n))
    (hfirst : ∀ p ∈ s.posted, p.tid = tid → id ≤ p.id) (hready : releaseReady s tid id sc = true) :
    Completes (.ckptRecord id) s fun t =>
      t.findTeam (s.thread tid).vd (s.thread tid).teamNum = some { y with mark := n, cdone := y.progDone } ∧
      t.posted = s.posted.filter (fun p => p.id != id) ∧ t = { s with teams := t.teams, posted := t.posted } := by
  refine ⟨(s.unpost id).modTeam (s.thread tid).vd (s.thread tid).teamNum fun x => { x with mark := n, cdone := x.progDone },
    ?_, findTeam_modTeam (s := s.unpost id) hy fun _ => rfl, rfl, rfl⟩
  change execCkptRecord id s = _
  have hearlier : ∀ p ∈ s.posted, ¬ (p.tid = tid ∧ p.id < id) := fun p hp ⟨htid, hlt⟩ => absurd (hfirst p hp htid) (by omega)
  simp only [execCkptRecord, hp, hready]
  rw [if_neg]
  simp only [Bool.not_true, Bool.or_false, List.any_eq_true, Bool.and_eq_true, beq_iff_eq, decide_eq_true_eq]
  exact fun ⟨p, hp, hboth, _⟩ => hearlier p hp hboth

end

/-- Settles O38: PROG and CKPT post and pass; the addition and the record change the one team that `findTeam` gives. -/
theorem progressAndCheckpoints : Obligations.ProgressAndCheckpoints := by
  unfold Obligations.ProgressAndCheckpoints
  intro sw sc sc' a id tid n y s
  refine ⟨fun h => ⟨prog_completes h sw, ckpt_completes h sw sc⟩, fun hp hy => ?_, fun hp hy hfirst hready =>
    ckptRecord_completes hy hp hfirst hready⟩
  simpa only [satAdd32_eq] using progressAddition_completes hy hp

end Sys2Proof.Machine
end

section
/-! SUPPORT. Dispensers and SLEEP (R338 to R342). -/

namespace Sys2Proof.Machine

/-! ### Dispensers -/

theorem disp_is (s : State) (cl vd num : Nat) : Disp.is cl vd num (s.disp cl vd num) = true := by
  rw [State.disp]
  cases hfind : s.disps.find? (Disp.is cl vd num) with
  | none => simp [Disp.is]
  | some d => exact List.find?_some hfind

/-- A change that keeps what names a dispenser is found where the dispenser was. -/
theorem modDisp_disp (s : State) (cl vd num : Nat) (f : Disp → Disp)
    (hf : ∀ d, Disp.is cl vd num (f d) = Disp.is cl vd num d) : (s.modDisp cl vd num f).disp cl vd num = f (s.disp cl vd num) := by
  have hothers : (s.disps.filter fun x => !x.is cl vd num).find? (Disp.is cl vd num) = none := by
    rw [List.find?_eq_none]
    intro x hx
    simpa using (List.mem_filter.mp hx).2
  have hlast : [f (s.disp cl vd num)].find? (Disp.is cl vd num) = some (f (s.disp cl vd num)) :=
    List.find?_cons_of_pos ((hf _).trans (disp_is s cl vd num))
  change (((s.disps.filter fun x => !x.is cl vd num) ++ [f (s.disp cl vd num)]).find? (Disp.is cl vd num)).getD _ = _
  rw [List.find?_append, hothers, hlast]
  rfl

/-- The cluster of a thread's core. -/
theorem clusterOf_coreOf (t : Nat) : clusterOf (coreOf t) = t / 1024 := Nat.div_div_eq_div_mul t 8 128

/-- The oldest task of the highest level: those before it are of lower levels, and none behind it is of a higher one. -/
theorem bestTask_split {pre post : List Task} {task : Task} (hpre : ∀ y ∈ pre, y.prio < task.prio)
    (hpost : ∀ y ∈ post, y.prio ≤ task.prio) : bestTask (pre ++ task :: post) = some task := by
  have hlower : pre.find? (fun t => (pre ++ task :: post).all fun u => u.prio ≤ t.prio) = none := by
    rw [List.find?_eq_none]
    intro y hy hall
    have hle : task.prio ≤ y.prio := by simpa using List.all_eq_true.mp hall task (by simp)
    exact absurd (hpre y hy) (by omega)
  have hbest : ((pre ++ task :: post).all fun u => u.prio ≤ task.prio) = true := by
    rw [List.all_eq_true]
    intro u hu
    rw [decide_eq_true_eq]
    rcases List.mem_append.mp hu with hu | hu
    · exact Nat.le_of_lt (hpre u hu)
    · rcases List.mem_cons.mp hu with rfl | hu
      · exact Nat.le_refl _
      · exact hpost u hu
  rw [bestTask, List.find?_append, hlower, Option.none_or]
  exact List.find?_cons_of_pos hbest

theorem erase_split {pre post : List Task} {task : Task} (hpre : ∀ y ∈ pre, y.prio < task.prio) :
    (pre ++ task :: post).erase task = pre ++ post := by
  have hnot : task ∉ pre := fun hmem => absurd (hpre task hmem) (Nat.lt_irrefl _)
  rw [List.erase_append_right _ hnot, List.erase_cons_head]

/-! ### Runs of scalar registers -/

theorem sregAt_inj {d : SReg} {i j : Nat} (hi : d.val + i < 32) (hj : d.val + j < 32) (h : sregAt d i = sregAt d j) : i = j := by
  have hval : (d.val + i) % 32 = (d.val + j) % 32 := congrArg Fin.val h
  rw [Nat.mod_eq_of_lt hi, Nat.mod_eq_of_lt hj] at hval
  omega

/-- Words written to consecutive scalar registers. -/
def Thread.putRun (t : Thread) (d : SReg) (x : Nat → Word) (n : Nat) : Thread :=
  (List.range n).foldl (fun t k => t.putReg (.s (sregAt d k) (x k))) t

section
variable (t : Thread) (d : SReg) (x : Nat → Word) (n : Nat)

theorem putRun_succ : t.putRun d x (n + 1) = (t.putRun d x n).putReg (.s (sregAt d n) (x n)) := by
  rw [Thread.putRun, List.range_succ, List.foldl_append]; rfl

theorem putRun_shape : t.putRun d x n = { t with sregs := (t.putRun d x n).sregs, sFull := (t.putRun d x n).sFull } := by
  induction n with
  | zero => rfl
  | succ n ih => rw [putRun_succ, putS_shape, ih]

theorem putRun_others : SameS t (t.putRun d x n) ((List.range n).map (sregAt d)) := by
  induction n with
  | zero => exact fun _ _ => ⟨rfl, rfl⟩
  | succ n ih =>
    intro r hr
    rw [List.range_succ, List.map_append, List.mem_append, not_or] at hr
    have hne : sregAt d n ≠ r := fun h => hr.2 (by simp [h])
    rw [putRun_succ, getS_put, hasS_put, if_neg hne, decide_eq_false hne, Bool.or_false]
    exact ih r hr.1

theorem putRun_vectors : SameV t (t.putRun d x n) [] := by
  rw [putRun_shape]; exact fun _ _ => ⟨rfl, rfl⟩

variable {d n}

theorem putRun_values (hn : d.val + n ≤ 32) (i : Nat) (hi : i < n) :
    (t.putRun d x n).getS (sregAt d i) = x i ∧ (t.putRun d x n).hasS (sregAt d i) = true := by
  induction n with
  | zero => omega
  | succ n ih =>
    rw [putRun_succ, getS_put, hasS_put]
    by_cases hin : i = n
    · subst hin; simp
    · have hne : sregAt d n ≠ sregAt d i := fun h => hin (sregAt_inj (by omega) (by omega) h).symm
      rw [if_neg hne, decide_eq_false hne, Bool.or_false]
      exact ih (by omega) (by omega)

end

/-- Consecutive scalar registers emptied. -/
def Thread.clearRun (t : Thread) (d : SReg) (n : Nat) : Thread :=
  (List.range n).foldl (fun t k => t.clear (.s (sregAt d k))) t

section
variable (t : Thread) (d : SReg) (n : Nat)

theorem clearRun_succ : t.clearRun d (n + 1) = (t.clearRun d n).clear (.s (sregAt d n)) := by
  rw [Thread.clearRun, List.range_succ, List.foldl_append]; rfl

theorem clearRun_shape : t.clearRun d n = { t with
    sregs := (t.clearRun d n).sregs, sFull := (t.clearRun d n).sFull, buf := (t.clearRun d n).buf } := by
  induction n with
  | zero => rfl
  | succ n ih =>
    rw [clearRun_succ, Thread.clear, supersede_shape, ih]

theorem clearRun_others : SameS t (t.clearRun d n) ((List.range n).map (sregAt d)) := by
  induction n with
  | zero => exact fun _ _ => ⟨rfl, rfl⟩
  | succ n ih =>
    intro r hr
    rw [List.range_succ, List.map_append, List.mem_append, not_or] at hr
    obtain ⟨-, -, hothers, -, -⟩ := clear_s (t.clearRun d n) (sregAt d n)
    obtain ⟨hget, hhas⟩ := hothers r hr.2
    rw [clearRun_succ, hget, hhas]
    exact ih r hr.1

theorem clearRun_vectors : SameV t (t.clearRun d n) [] ∧ SameP t (t.clearRun d n) [] := by
  rw [clearRun_shape]; exact ⟨fun _ _ => ⟨rfl, rfl⟩, fun _ _ => ⟨rfl, rfl⟩⟩

/-- The thread in focus empties the registers one by one. -/
theorem modThr_clearRun (s : State) :
    (sregs d n).foldl (fun s r => s.modThr fun t => t.clear r) s = s.modThr fun t => t.clearRun d n := by
  induction n with
  | zero => rfl
  | succ n ih =>
    rw [sregs, List.range_succ, List.map_append, List.foldl_append, ← sregs, ih]
    simp only [clearRun_succ]
    rfl

variable {n}

theorem clearRun_values (i : Nat) (hi : i < n) :
    (t.clearRun d n).getS (sregAt d i) = 0 ∧ (t.clearRun d n).hasS (sregAt d i) = false := by
  induction n with
  | zero => omega
  | succ n ih =>
    obtain ⟨hget, hhas, hothers, -, -⟩ := clear_s (t.clearRun d n) (sregAt d n)
    rw [clearRun_succ]
    by_cases hin : sregAt d i = sregAt d n
    · rw [hin]; exact ⟨hget, hhas⟩
    · have hlt : i < n := by
        rcases Nat.lt_succ_iff_lt_or_eq.mp hi with h | h
        · exact h
        · exact absurd (congrArg (sregAt d) h) hin
      obtain ⟨hget', hhas'⟩ := hothers (sregAt d i) (by simpa using hin)
      rw [hget', hhas']
      exact ih hlt

end

/-! ### DISP -/

section
variable {s : State} {a : SReg} (h : Present s (sregs a 4)) (sw : Bool) (d : SReg) (prio : BitVec 3) (sc : Scope)
include h

theorem disp_full (hfull : 128 ≤ (s.disp (s.thr.id / 1024) s.thr.vd s.thr.teamNum).tasks.length +
      (s.disp (s.thr.id / 1024) s.thr.vd s.thr.teamNum).places) :
    Completes (.disp sw d a prio sc) s fun t => WritesS s t d 1 ∧ InSequence sw s t := by
  refine ⟨(s.writeS d 1).finish sw, ?_, writeS_finish s d 1 sw⟩
  change execDisp sw d a prio sc s = _
  simp only [execDisp, withRegs_present h, clusterOf_coreOf, if_pos hfull]

theorem disp_posts (hroom : (s.disp (s.thr.id / 1024) s.thr.vd s.thr.teamNum).tasks.length +
      (s.disp (s.thr.id / 1024) s.thr.vd s.thr.teamNum).places < 128) :
    Completes (.disp sw d a prio sc) s fun t => InSequence sw s t ∧ SetsS s t d 0 ∧
      t = { s with thr := t.thr, disps := t.disps, posted := t.posted, seq := s.seq + 1 } ∧
      t.disp (s.thr.id / 1024) s.thr.vd s.thr.teamNum = { s.disp (s.thr.id / 1024) s.thr.vd s.thr.teamNum with
        places := (s.disp (s.thr.id / 1024) s.thr.vd s.thr.teamNum).places + 1 } ∧
      t.posted = s.posted ++ [.disp s.seq s.thr.id sc (s.thr.id / 1024) s.thr.vd s.thr.teamNum
        ((List.range 4).map fun k => s.thr.getS (sregAt a k)) prio.toNat] := by
  obtain ⟨hset, hseq⟩ := writeS_finish_sets (s := s) (u := (s.modDisp (s.thr.id / 1024) s.thr.vd s.thr.teamNum fun q =>
    { q with places := q.places + 1 }).post fun id => .disp id s.thr.id sc (s.thr.id / 1024) s.thr.vd s.thr.teamNum
      ((List.range 4).map fun k => s.thr.getS (sregAt a k)) prio.toNat) rfl d 0 sw
  refine ⟨_, ?_, hseq, hset, rfl,
    modDisp_disp s _ _ _ (fun q => { q with places := q.places + 1 }) fun _ => rfl, rfl⟩
  change execDisp sw d a prio sc s = _
  simp only [execDisp, withRegs_present h, clusterOf_coreOf, if_neg (Nat.not_le.mpr hroom)]

end

theorem dispPostArrival_joins {s : State} {id tid cl vd num k : Nat} {sc : Scope} {words : List Word}
    (hp : s.posted.find? (fun p => p.id = id) = some (.disp id tid sc cl vd num words k)) (hready : releaseReady s tid id sc = true)
    (hfirst : ∀ p ∈ s.posted, p.tid = tid → id ≤ p.id) (hhere : ∀ y, s.findTeam vd num = some y → y.away = false) :
    Completes (.dispPostArrival id) s fun t => t.posted = s.posted.filter (fun p => p.id != id) ∧
      t.disp cl vd num = { s.disp cl vd num with
        tasks := (s.disp cl vd num).tasks ++ [⟨words, k⟩], places := (s.disp cl vd num).places - 1 } ∧
      t = { s with disps := t.disps, posted := t.posted } := by
  refine ⟨(s.unpost id).modDisp cl vd num fun q => { q with tasks := q.tasks ++ [⟨words, k⟩], places := q.places - 1 }, ?_, rfl,
    modDisp_disp (s.unpost id) _ _ _ _ (by intro _; rfl), rfl⟩
  change execDispPostArrival id s = _
  simp only [execDispPostArrival, hp, hready]
  rw [if_neg]
  simp only [Bool.not_true, Bool.or_false, Bool.or_eq_true, List.any_eq_true, not_or]
  constructor
  · rintro ⟨p, hmem, hp⟩
    cases p with
    | disp id' tid' =>
      simp only [Bool.and_eq_true, beq_iff_eq, decide_eq_true_eq] at hp
      obtain ⟨⟨⟨htid, -⟩, -⟩, hlt⟩ := hp
      exact absurd (hfirst _ hmem htid) (Nat.not_le.mpr hlt)
    | arrival => cases hp
    | prog => cases hp
    | ckpt => cases hp
  · cases hteam : s.findTeam vd num with
    | none => exact Bool.false_ne_true
    | some y => simp [hhere y hteam]

/-! ### The binding of a task -/

/-- The thread of a waiter once a task's words have landed in its registers. -/
def Thread.bound (t : Thread) (d : SReg) (task : Task) : Thread :=
  ({ t with st := .ready, wait := .hold 7 true 0 } : Thread).putRun d (fun k => task.words.getD k 0) 4

section
variable {s : State} {cl vd num w : Nat} {pre post : List Task} {task : Task} {rest : List Nat} {d : SReg}
  (htasks : (s.disp cl vd num).tasks = pre ++ task :: post) (hpre : ∀ y ∈ pre, y.prio < task.prio)
  (hpost : ∀ y ∈ post, y.prio ≤ task.prio) (hwaiters : (s.disp cl vd num).waiters = w :: rest)
  (hcalled : (s.thread w).called = false) (hst : (s.thread w).st = .waitWork d) (hland : (s.core (coreOf w)).landing = [])
include htasks hpre hpost hwaiters hcalled hst hland

theorem exec_dispenserBind : exec (.dispenserBind cl vd num) s = .next ((s.modDisp cl vd num fun q =>
    { q with tasks := q.tasks.erase task, waiters := q.waiters.filter fun x => x != w }).modThread w fun t => t.bound d task) := by
  have hfind : (w :: rest).find? (fun w => !(s.thread w).called) = some w := List.find?_cons_of_pos (by simp [hcalled])
  have hmoved (f : Disp → Disp) : ((s.modDisp cl vd num f).thread w).st = .waitWork d := hst
  change execDispenserBind cl vd num s = _
  simp only [execDispenserBind, htasks, bestTask_split hpre hpost, hwaiters, hfind, hmoved]
  rw [reland_empty]
  · rfl
  · rw [State.core, State.modThread, State.setThread]
    split <;> exact hland

theorem dispenserBind_binds (hrest : w ∉ rest) (hk : s.Keyed) (hd : d.val ≤ 28) : Completes (.dispenserBind cl vd num) s fun t =>
    (t.disp cl vd num).tasks = pre ++ post ∧ (t.disp cl vd num).waiters = rest ∧ (t.thread w).st = .ready ∧
    (∀ i < 4, (t.thread w).getS (sregAt d i) = task.words.getD i 0 ∧ (t.thread w).hasS (sregAt d i) = true) ∧
    SameS (s.thread w) (t.thread w) ((List.range 4).map (sregAt d)) ∧ SameV (s.thread w) (t.thread w) [] ∧ t.mem = s.mem := by
  refine ⟨_, exec_dispenserBind htasks hpre hpost hwaiters hcalled hst hland, ?_⟩
  generalize hu : (s.modDisp cl vd num fun q =>
    { q with tasks := q.tasks.erase task, waiters := q.waiters.filter fun x => x != w }) = u
  have hthread : u.thread w = s.thread w := by rw [← hu]; rfl
  have hfilter : rest.filter (fun x => x != w) = rest :=
    List.filter_eq_self.mpr fun x hx => by simpa using fun h : x = w => hrest (h ▸ hx)
  have hdisp : u.disp cl vd num = { s.disp cl vd num with tasks := pre ++ post, waiters := rest } := by
    rw [← hu, modDisp_disp s cl vd num _ (by intro _; rfl), htasks, hwaiters, erase_split hpre, List.filter_cons_of_neg (by simp)]
    exact congrArg (fun ws => { s.disp cl vd num with tasks := pre ++ post, waiters := ws }) hfilter
  have hkeyed : u.Keyed := by rw [← hu]; exact hk
  have hmem : u.mem = s.mem := by rw [← hu]; rfl
  have hdisps (f : Thread → Thread) : (u.modThread w f).disp cl vd num = u.disp cl vd num := by
    rw [State.modThread, State.setThread]; split <;> rfl
  have hbound : (u.modThread w fun t => t.bound d task).thread w = (s.thread w).bound d task := by
    rw [modThread_thread hkeyed, hthread]
    rw [Thread.bound, putRun_shape]
  rw [hdisps, hdisp, hbound, modThread_mem, hmem]
  refine ⟨rfl, rfl, ?_, putRun_values _ _ (by omega), putRun_others _ _ _ _, putRun_vectors _ _ _ _, rfl⟩
  rw [Thread.bound, putRun_shape]

end

/-! ### WFW and SLEEP -/

theorem modThr_modThr (s : State) (f g : Thread → Thread) : (s.modThr f).modThr g = s.modThr fun t => g (f t) := rfl

theorem clearRun_pc (t : Thread) (d : SReg) (n : Nat) : (t.clearRun d n).pc = t.pc := by rw [clearRun_shape]

/-- A thread that WFW has put to wait. -/
def Thread.startWfw (t : Thread) (d : SReg) : Thread := { t.clearRun d 4 with st := .waitWork d, park := none }

theorem exec_wfw {s : State} (hwait : s.thr.wait = .none) (sw : Bool) (d : SReg) :
    exec (.wfw sw d) s = .next (({ s with thr := s.thr.startWfw d } : State).modDisp (s.thr.id / 1024) s.thr.vd s.thr.teamNum fun q =>
      { q with waiters := q.waiters ++ [s.thr.id] }) := by
  change execWfw sw d s = _
  simp only [execWfw, hwait, clusterOf_coreOf, modThr_clearRun, modThr_modThr]
  simp only [State.modThr, Thread.startWfw]

theorem startWfw_regs (t : Thread) (d : SReg) : (t.startWfw d).st = .waitWork d ∧ (t.startWfw d).pc = t.pc ∧
    (∀ i < 4, (t.startWfw d).getS (sregAt d i) = 0 ∧ (t.startWfw d).hasS (sregAt d i) = false) ∧
    SameS t (t.startWfw d) ((List.range 4).map (sregAt d)) ∧ SameV t (t.startWfw d) [] ∧ SameP t (t.startWfw d) [] :=
  ⟨rfl, clearRun_pc t d 4, clearRun_values t d, clearRun_others t d 4, clearRun_vectors t d 4⟩

theorem wfw_waits {s : State} (hwait : s.thr.wait = .none) (sw : Bool) (d : SReg) : Completes (.wfw sw d) s fun t =>
    t.thr.st = .waitWork d ∧ t.thr.pc = s.thr.pc ∧
    (∀ i < 4, t.thr.getS (sregAt d i) = 0 ∧ t.thr.hasS (sregAt d i) = false) ∧
    SameS s.thr t.thr ((List.range 4).map (sregAt d)) ∧ SameV s.thr t.thr [] ∧ SameP s.thr t.thr [] ∧
    (t.disp (s.thr.id / 1024) s.thr.vd s.thr.teamNum).waiters =
      (s.disp (s.thr.id / 1024) s.thr.vd s.thr.teamNum).waiters ++ [s.thr.id] ∧
    t = { s with thr := t.thr, disps := t.disps } := by
  obtain ⟨hst, hpc, hvalues, hs, hv, hp⟩ := startWfw_regs s.thr d
  rw [Completes, exec_wfw hwait]
  generalize s.thr.startWfw d = x at *
  exact ⟨_, rfl, hst, hpc, hvalues, hs, hv, hp,
    congrArg Disp.waiters (modDisp_disp { s with thr := x } _ _ _ _ (by intro _; rfl)), rfl⟩

/-- WFW and SLEEP complete once what they waited for has come. -/
theorem held_completes {s : State} {r : Word} (sw : Bool) :
    (∀ d, s.thr.wait = .hold 7 true r → Completes (.wfw sw d) s fun t => Passes sw s t ∧ SameWorld s t) ∧
    ∀ x, s.thr.wait = .hold 8 true r → Completes (.sleep sw x) s fun t => Passes sw s t ∧ SameWorld s t := by
  refine ⟨fun d h => ⟨s.finish sw, ?_, finish_passes rfl sw, rfl⟩, fun x h => ⟨s.finish sw, ?_, finish_passes rfl sw, rfl⟩⟩
  · change execWfw sw d s = _; simp only [execWfw, h]
  · change execSleep sw x s = _; simp only [execSleep, h]

section
variable {s : State} {x : Src} (hwait : s.thr.wait = .none) (h : Present s (srcRegs x)) (sw : Bool)
include hwait h

theorem exec_sleep : exec (.sleep sw x) s = .next (if (s.src x).toNat ≤ s.time (pkgOfThread s.thr.id) then s.finish sw
    else s.modThr fun t => { t with st := .sleeping (s.src x), park := none }) := by
  change execSleep sw x s = _
  rw [execSleep, hwait, withRegs_present h]

theorem sleep_completes :
    ((s.src x).toNat ≤ s.time (pkgOfThread s.thr.id) → Completes (.sleep sw x) s fun t => Passes sw s t ∧ SameWorld s t) ∧
    (s.time (pkgOfThread s.thr.id) < (s.src x).toNat → Completes (.sleep sw x) s fun t =>
      Stays s t ∧ SameWorld s t ∧ t.thr.st = .sleeping (s.src x)) := by
  rw [Completes, Completes, exec_sleep hwait h sw]
  constructor <;> intro htime
  · rw [if_pos htime]
    exact ⟨_, rfl, finish_passes rfl sw, rfl⟩
  · rw [if_neg (by omega)]
    exact ⟨_, rfl, ⟨⟨fun _ _ => ⟨rfl, rfl⟩, fun _ _ => ⟨rfl, rfl⟩, fun _ _ => ⟨rfl, rfl⟩, rfl⟩, rfl, rfl⟩, rfl, rfl⟩

end

theorem sleepWake_wakes {s : State} {w : Nat} {wake : Word} (hk : s.Keyed) (hst : (s.thread w).st = .sleeping wake)
    (htime : wake.toNat ≤ s.time (pkgOfThread w)) (hcalled : (s.thread w).called = false) : Completes (.sleepWake w) s fun t =>
    t.thread w = { s.thread w with st := .ready, wait := .hold 8 true 0 } ∧ t.mem = s.mem ∧ t.cores = s.cores := by
  refine ⟨s.modThread w fun y => { y with st := .ready, wait := .hold 8 true 0 }, ?_, modThread_thread hk rfl, modThread_mem _ _ _, ?_⟩
  · change execSleepWake w s = _
    simp only [execSleepWake, hst, htime, hcalled]
    rfl
  · rw [State.modThread, State.setThread]; split <;> rfl

/-- Settles O36, clause by clause: DISP, its post, the binding, WFW, SLEEP and the waking. -/
theorem dispensersAndSleep : Obligations.DispensersAndSleep := by
  unfold Obligations.DispensersAndSleep
  intro sw d a prio sc sc' x id tid cl vd num k w words task pre post rest wake r s
  refine ⟨fun h => ⟨disp_full h sw d prio sc, disp_posts h sw d prio sc⟩, dispPostArrival_joins, ?_, fun h => wfw_waits h sw d,
    (held_completes sw).1 d, fun hwait h => sleep_completes hwait h sw, (held_completes sw).2 x, sleepWake_wakes⟩
  intro htasks hpre hpost hwaiters hrest hcalled hk hst hd hland
  exact dispenserBind_binds htasks hpre hpost hwaiters hcalled hst hland hrest hk hd

end Sys2Proof.Machine
end

section
/-! SUPPORT. Barriers (R344, R345): the arrival, its counting, and the end of a phase. -/

namespace Sys2Proof.Machine

/-! ### A core's record of a barrier -/

/-- The record of a group's barrier on a core, or a fresh one. -/
def State.barOf (s : State) (gc vk team n g : Nat) : BarInst :=
  ((s.core gc).bars.find? fun b => b.is vk team n && b.group == g).getD ⟨vk, team, n, g, 0, 0, 0⟩

theorem barOf_is (s : State) (gc vk team n g : Nat) :
    (s.barOf gc vk team n g).is vk team n = true ∧ (s.barOf gc vk team n g).group = g := by
  rw [State.barOf]
  cases hfind : (s.core gc).bars.find? fun b => b.is vk team n && b.group == g with
  | none => exact ⟨by simp [BarInst.is], rfl⟩
  | some b =>
    have hfound := List.find?_some hfind
    simp only [Bool.and_eq_true, beq_iff_eq] at hfound
    exact hfound

section
variable (s : State) (gc vk team n g : Nat) (f : BarInst → BarInst)

theorem modBar_core (k : Nat) : (s.modBar gc vk team n g f).core k = if k = gc then { s.core gc with
    bars := ((s.core gc).bars.filter fun b => !(b.is vk team n && b.group == g)) ++ [f (s.barOf gc vk team n g)] }
    else s.core k := by
  rw [State.core, State.modBar, State.modCore_cores, tblGet_put]
  rfl

theorem modBar_world : s.modBar gc vk team n g f = { s with cores := (s.modBar gc vk team n g f).cores } := rfl

/-- The changed record stands on the core. -/
theorem mem_modBar_bars : f (s.barOf gc vk team n g) ∈ ((s.modBar gc vk team n g f).core gc).bars := by
  rw [modBar_core, if_pos rfl]; simp

/-- A record of the same barrier and group on the core is the changed one. -/
theorem eq_of_mem_modBar_bars {b : BarInst} (hb : b ∈ ((s.modBar gc vk team n g f).core gc).bars) (his : b.is vk team n = true)
    (hg : b.group = g) : b = f (s.barOf gc vk team n g) := by
  rw [modBar_core, if_pos rfl, List.mem_append] at hb
  rcases hb with hb | hb
  · have hnot := (List.mem_filter.mp hb).2
    simp [his, hg] at hnot
  · exact List.mem_singleton.mp hb

end

theorem getLsbD_or_slot (x : BitVec 8) (t : Nat) : (x ||| (1#8 <<< slotOf t)).getLsbD (t % 8) = true := by
  rw [bit_or_shift _ _ _ (Nat.mod_lt t (by decide))]
  simp [slotOf]

/-! ### Arrivals -/

/-- What R345 refuses of the thread in focus. -/
def BarRefused (s : State) (n g : Nat) : Prop :=
  (∀ y, s.findTeam s.thr.vd s.thr.teamNum = some y → s.thr.fabno ∉ tblGet y.groups g []) ∨
  ∃ b ∈ (s.core s.gc).bars, b.is s.thr.vk s.thr.teamNum n = true ∧ b.group ≠ g ∧ b.arrived ≠ 0

theorem barRefused_iff (s : State) (n g : Nat) : barRefused s n g = true ↔ BarRefused s n g := by
  rw [barRefused, BarRefused, Bool.or_eq_true, State.myTeam]
  refine or_congr ?_ ?_
  · cases s.findTeam s.thr.vd s.thr.teamNum with
    | none => simp
    | some y => simp
  · simp only [List.any_eq_true, Bool.and_eq_true, bne_iff_ne, ne_eq, and_assoc]

/-- The bit of a thread set in a record. -/
def BarInst.arrive (tid : Nat) (b : BarInst) : BarInst := { b with arrived := b.arrived ||| (1#8 <<< slotOf tid) }

/-- What an arrival leaves: the thread's bit on its core, and the arrival under way. -/
structure Arrives (sc : Scope) (n g : Nat) (s t : State) : Prop where
  only : OnlyCore { s with posted := t.posted } t s.gc
  bit : ((t.core s.gc).bars.any fun b => b.is s.thr.vk s.thr.teamNum n && b.arrived.getLsbD (s.thr.id % 8)) = true
  port : (t.core s.gc).port = (s.core s.gc).port
  posted : t.posted = s.posted ++ [.arrival s.seq s.thr.id sc s.thr.vk s.thr.teamNum n g s.thr.tcls]

section
variable {s : State} {n : Nat} (hbit : s.arrivedBit n = false) (sc : Scope) (g : Nat)
include hbit

theorem barArrive_arrives : Arrives sc n g s (s.barArrive sc n g) ∧ (s.barArrive sc n g).thr = s.thr := by
  have hpost : s.barArrive sc n g = (s.modBar s.gc s.thr.vk s.thr.teamNum n g (BarInst.arrive s.thr.id)).post fun id =>
      .arrival id s.thr.id sc s.thr.vk s.thr.teamNum n g s.thr.tcls := by
    rw [State.barArrive, hbit]; rfl
  have hcore := modBar_core s s.gc s.thr.vk s.thr.teamNum n g (BarInst.arrive s.thr.id)
  have hmem := mem_modBar_bars s s.gc s.thr.vk s.thr.teamNum n g (BarInst.arrive s.thr.id)
  obtain ⟨his, -⟩ := barOf_is s s.gc s.thr.vk s.thr.teamNum n g
  rw [hpost]
  exact ⟨⟨⟨rfl, fun k hk => (hcore k).trans (if_neg hk)⟩,
    List.any_eq_true.mpr ⟨_, hmem, Bool.and_eq_true_iff.mpr ⟨his, getLsbD_or_slot _ _⟩⟩,
    (congrArg Core.port (hcore s.gc)).trans (by rw [if_pos rfl]), rfl⟩, rfl⟩

theorem arrivedBit_barArrive : (s.barArrive sc n g).arrivedBit n = true := by
  obtain ⟨harrives, hthr⟩ := barArrive_arrives hbit sc g
  rw [State.arrivedBit, State.gc, hthr]
  exact harrives.bit

end

/-- An arrival is not undone by a change of the thread in focus. -/
theorem Arrives.setThr {sc : Scope} {n g : Nat} {s t : State} (h : Arrives sc n g s t) (x : Thread) :
    Arrives sc n g s { t with thr := x } where
  only := ⟨by rw [h.only.1], h.only.2⟩
  bit := h.bit
  port := h.port
  posted := h.posted

/-! ### The instructions -/

section
variable {s : State} (sw : Bool) (sc : Scope) (n : BitVec 7) (g : BitVec 8)

theorem bararv_arrives (hr : ¬ BarRefused s n.toNat g.toNat) (hbit : s.arrivedBit n.toNat = false) :
    Completes (.bararv sw sc n g) s fun t => Passes sw s t ∧ Arrives sc n.toNat g.toNat s t := by
  obtain ⟨harrives, hthr⟩ := barArrive_arrives hbit sc g.toNat
  refine ⟨(s.barArrive sc n.toNat g.toNat).finish sw, ?_, finish_passes hthr sw, ?_⟩
  · change execBararv sw sc n g s = _
    rw [execBararv, if_neg fun h => hr ((barRefused_iff _ _ _).mp h)]
  · rw [finish_shape]; exact harrives.setThr _

theorem bararv_again (hr : ¬ BarRefused s n.toNat g.toNat) (hbit : s.arrivedBit n.toNat = true) :
    Completes (.bararv sw sc n g) s fun t => Passes sw s t ∧ SameWorld s t := by
  refine ⟨s.finish sw, ?_, finish_passes rfl sw, rfl⟩
  change execBararv sw sc n g s = _
  rw [execBararv, if_neg fun h => hr ((barRefused_iff _ _ _).mp h), State.barArrive, if_pos hbit]

theorem barWait_waits {u : State} (hwait : u.thr.wait = .none) (hbit : u.arrivedBit n.toNat = true) :
    Stays u (barWait sw n.toNat u) ∧ barWait sw n.toNat u = { u with thr := (barWait sw n.toNat u).thr } ∧
    (barWait sw n.toNat u).thr.wait = .barrier n.toNat false ∧ (barWait sw n.toNat u).thr.park.isSome = true := by
  have hparks : barWait sw n.toNat u = (u.modThr fun t => { t with wait := .barrier n.toNat false }).parkFor
      (BitVec.ofNat 64 n.toNat) [] := by
    simp only [barWait, hwait, hbit]; rfl
  rw [hparks]
  exact ⟨⟨⟨fun _ _ => ⟨rfl, rfl⟩, fun _ _ => ⟨rfl, rfl⟩, fun _ _ => ⟨rfl, rfl⟩, rfl⟩, rfl, rfl⟩, rfl, rfl,
    parkFor_park_isSome _ _ _⟩

theorem barsync_arrives (hwait : s.thr.wait = .none) (hr : ¬ BarRefused s n.toNat g.toNat) (hbit : s.arrivedBit n.toNat = false) :
    Completes (.barsync sw sc n g) s fun t => Stays s t ∧ Arrives sc n.toNat g.toNat s t ∧
      t.thr.wait = .barrier n.toNat false ∧ t.thr.park.isSome = true := by
  obtain ⟨harrives, hthr⟩ := barArrive_arrives hbit sc g.toNat
  obtain ⟨⟨⟨hs, hv, hp, hbuf⟩, hhead, hkept⟩, hworld, hends⟩ := barWait_waits sw n (hthr ▸ hwait) (arrivedBit_barArrive hbit sc g.toNat)
  refine ⟨barWait sw n.toNat (s.barArrive sc n.toNat g.toNat), ?_, ?_, ?_, hends⟩
  · change execBarsync sw sc n g s = _
    simp only [execBarsync, hwait, if_neg fun h => hr ((barRefused_iff s n.toNat g.toNat).mp h)]
  · rw [hthr] at hs hv hp hbuf hhead hkept
    exact ⟨⟨hs, hv, hp, hbuf⟩, hhead, hkept⟩
  · rw [hworld]; exact harrives.setThr _

theorem barrier_refused (hwait : s.thr.wait = .none) (hr : BarRefused s n.toNat g.toNat) (htrap : CanTrap s) :
    Completes (.bararv sw sc n g) s (fun t => TrapsTo s t 0x05 s.thr.pc (g.setWidth 64)) ∧
    Completes (.barsync sw sc n g) s fun t => TrapsTo s t 0x05 s.thr.pc (g.setWidth 64) := by
  have hr' := (barRefused_iff _ _ _).mpr hr
  refine ⟨⟨s.trap cPerm (g.setWidth 64), ?_, trap_enters htrap _ _⟩, s.trap cPerm (g.setWidth 64), ?_, trap_enters htrap _ _⟩
  · change execBararv sw sc n g s = _
    rw [execBararv, if_pos hr']
  · change execBarsync sw sc n g s = _
    simp only [execBarsync, hwait, if_pos hr']

theorem barwt_completes (hwait : s.thr.wait = .none) :
    (s.arrivedBit n.toNat = false → Completes (.barwt sw sc n) s fun t => Passes sw s t ∧ SameWorld s t) ∧
    (s.arrivedBit n.toNat = true → Completes (.barwt sw sc n) s fun t => Stays s t ∧ SameWorld s t ∧
      t.thr.wait = .barrier n.toNat false ∧ t.thr.park.isSome = true) := by
  refine ⟨fun hbit => ⟨s.finish sw, ?_, finish_passes rfl sw, rfl⟩, fun hbit => ⟨_, rfl, barWait_waits sw n hwait hbit⟩⟩
  change Host.Outcome.next (barWait sw n.toNat s) = _
  simp only [barWait, hwait, hbit]
  rfl

theorem barrier_ended (hwait : s.thr.wait = .barrier n.toNat true) :
    Completes (.barwt sw sc n) s (fun t => Passes sw s t ∧ SameWorld s t) ∧
    Completes (.barsync sw sc n g) s fun t => Passes sw s t ∧ SameWorld s t := by
  have hends : barWait sw n.toNat s = s.finish sw := by simp only [barWait, hwait]
  refine ⟨⟨s.finish sw, congrArg Host.Outcome.next hends, finish_passes rfl sw, rfl⟩, s.finish sw, ?_, finish_passes rfl sw, rfl⟩
  change execBarsync sw sc n g s = _
  simp only [execBarsync, hwait, hends]

end

theorem barrierArrivalCounted_counts {s : State} {id tid vk team k grp : Nat} {sc : Scope} {cls : BitVec 2}
    (hp : s.posted.find? (fun p => p.id = id) = some (.arrival id tid sc vk team k grp cls)) (hready : releaseReady s tid id sc = true) :
    Completes (.barrierArrivalCounted id) s fun t => t.posted = s.posted.filter (fun p => p.id != id) ∧ t.mem = s.mem ∧
      ∃ b ∈ (t.core (coreOf tid)).bars, b.is vk team k = true ∧ b.group = grp ∧ b.counted.getLsbD (tid % 8) = true := by
  obtain ⟨his, hg⟩ := barOf_is (s.unpost id) (coreOf tid) vk team k grp
  refine ⟨(s.unpost id).modBar (coreOf tid) vk team k grp fun b => { b with counted := b.counted ||| (1#8 <<< slotOf tid) }, ?_, rfl, rfl,
    _, mem_modBar_bars _ _ _ _ _ _ _, his, hg, getLsbD_or_slot _ _⟩
  change execBarrierArrivalCounted id s = _
  simp only [execBarrierArrivalCounted, hp, hready, if_true]

/-! ### The end of a phase -/

section
variable {f : Nat → Thread → Thread} (hf : ∀ k x, (f k x).id = x.id)
include hf

theorem modThread_thread_other {s : State} (hk : s.Keyed) {id m : Nat} (hne : m ≠ id) (k : Nat) :
    (s.modThread id (f k)).thread m = s.thread m := by
  rw [State.modThread, setThread_thread, hf, thread_id hk, if_neg hne]

/-- Changes of several threads of a core, each once: a thread is changed where its slot is among them. -/
theorem modThreads_thread (base : Nat) {ks : List Nat} (hnodup : ks.Nodup) : ∀ {s : State}, s.Keyed →
    (ks.foldl (fun s k => s.modThread (base + k) (f k)) s).Keyed ∧
    (∀ j ∈ ks, (ks.foldl (fun s k => s.modThread (base + k) (f k)) s).thread (base + j) = f j (s.thread (base + j))) ∧
    ∀ m, (∀ j ∈ ks, m ≠ base + j) → (ks.foldl (fun s k => s.modThread (base + k) (f k)) s).thread m = s.thread m := by
  induction ks with
  | nil => exact fun hk => ⟨hk, fun j hj => absurd hj List.not_mem_nil, fun _ _ => rfl⟩
  | cons k ks ih =>
    intro s hk
    obtain ⟨hnot, hnodup⟩ := List.nodup_cons.mp hnodup
    obtain ⟨hkeyed, hchanged, hothers⟩ := ih hnodup (modThread_keyed hk (base + k) (f k))
    refine ⟨hkeyed, fun j hj => ?_, fun m hm => ?_⟩
    · rcases List.mem_cons.mp hj with rfl | hj
      · exact (hothers _ fun i hi h => hnot (by rwa [Nat.add_left_cancel h])).trans (modThread_thread hk (hf _ _))
      · have hne : base + j ≠ base + k := fun h => hnot (by rwa [← Nat.add_left_cancel h])
        exact (hchanged j hj).trans (by rw [modThread_thread_other hf hk hne])
    · exact (hothers m fun j hj => hm j (List.mem_cons_of_mem _ hj)).trans
        (modThread_thread_other hf hk (hm k List.mem_cons_self) k)

end

/-- A wait on a barrier ends. -/
def endWait (n : Nat) (ends : Bool) (t : Thread) : Thread :=
  if ends then
    match t.wait with
    | .barrier m false => if m = n then { t with wait := .barrier m true } else t
    | _ => t
  else t

theorem endWait_frame (n : Nat) (ends : Bool) (t : Thread) : { endWait n ends t with wait := t.wait } = t := by
  unfold endWait
  split
  · split
    · split <;> rfl
    · rfl
  · rfl

theorem endWait_id (n : Nat) (ends : Bool) (t : Thread) : (endWait n ends t).id = t.id := by
  have h := congrArg Thread.id (endWait_frame n ends t)
  exact h

/-- The slots of a core whose waits on a group's barrier end with the phase. -/
def endsOn (vd team n g : Nat) (s : State) (gc k : Nat) : Bool :=
  ((s.core gc).bars.filter fun b => b.is (vdKey (pkgOf gc) vd) team n && b.group == g).any fun b => b.arrived.getLsbD k

/-- The record of a group's barrier on a core is back at a phase without arrivals. -/
def BarClear (vd team n g : Nat) (s : State) (gc : Nat) : Prop :=
  ∀ b ∈ (s.core gc).bars, b.is (vdKey (pkgOf gc) vd) team n = true → b.group = g → b.arrived = 0 ∧ b.counted = 0

section
variable {vd team n g : Nat} {s : State}

/-- A core's bits are cleared before the waits of its threads end. -/
def State.barPhase (s : State) (vd team n g gc : Nat) : State :=
  s.modBar gc (vdKey (pkgOf gc) vd) team n g fun b => { b with arrived := 0, counted := 0, phase := b.phase + 1 }

theorem clearBar_eq (gc : Nat) : clearBar vd team n g s gc =
    (List.range 8).foldl (fun u k => u.modThread (gc * 8 + k) (endWait n (endsOn vd team n g s gc k))) (s.barPhase vd team n g gc) := rfl

theorem clearBar_world (gc : Nat) : clearBar vd team n g s gc = { s.barPhase vd team n g gc with
    thr := (clearBar vd team n g s gc).thr, threads := (clearBar vd team n g s gc).threads } := by
  rw [clearBar_eq]
  induction List.range 8 using List.reverseRecOn with
  | nil => rfl
  | append_singleton ks k ih =>
    rw [List.foldl_append, List.foldl_cons, List.foldl_nil, modThread_world]
    rw [ih]

theorem clearBar_mem (gc : Nat) : (clearBar vd team n g s gc).mem = s.mem := by
  have h := congrArg State.mem (clearBar_world (vd := vd) (team := team) (n := n) (g := g) (s := s) gc)
  exact h

theorem clearBar_core (gc k : Nat) : (clearBar vd team n g s gc).core k = (s.barPhase vd team n g gc).core k := by
  have h := congrArg State.cores (clearBar_world (vd := vd) (team := team) (n := n) (g := g) (s := s) gc)
  rw [State.core, State.core, h]

theorem clearBar_core_other {gc k : Nat} (h : k ≠ gc) : (clearBar vd team n g s gc).core k = s.core k :=
  (clearBar_core gc k).trans ((modBar_core _ _ _ _ _ _ _ _).trans (if_neg h))

theorem clearBar_clears (gc : Nat) : BarClear vd team n g (clearBar vd team n g s gc) gc := by
  intro b hb his hg
  rw [clearBar_core] at hb
  rw [eq_of_mem_modBar_bars _ _ _ _ _ _ _ hb his hg]
  exact ⟨rfl, rfl⟩

variable (hk : s.Keyed)
include hk

theorem clearBar_keyed (gc : Nat) : (clearBar vd team n g s gc).Keyed := by
  have hphase : (s.barPhase vd team n g gc).Keyed := hk
  rw [clearBar_eq]
  exact (modThreads_thread (f := fun k => endWait n (endsOn vd team n g s gc k)) (fun _ _ => endWait_id _ _ _) (gc * 8)
    List.nodup_range hphase).1

theorem clearBar_thread (gc m : Nat) : (clearBar vd team n g s gc).thread m =
    if coreOf m = gc then endWait n (endsOn vd team n g s gc (m % 8)) (s.thread m) else s.thread m := by
  obtain ⟨-, hchanged, hothers⟩ := modThreads_thread (s := s.barPhase vd team n g gc)
    (f := fun k => endWait n (endsOn vd team n g s gc k)) (fun _ _ => endWait_id _ _ _)
    (gc * 8) List.nodup_range hk
  rw [clearBar_eq]
  by_cases hgc : coreOf m = gc
  · have hm : m = gc * 8 + m % 8 := by rw [← hgc, coreOf]; omega
    have hslot := hchanged (m % 8) (List.mem_range.mpr (Nat.mod_lt _ (by decide)))
    rw [← hm] at hslot
    rw [if_pos hgc]
    exact hslot
  · rw [if_neg hgc]
    refine hothers m fun j hj h => hgc ?_
    have hlt := List.mem_range.mp hj
    rw [coreOf]; omega

end

/-- Of thread `m`, a phase that ends changes its wait alone. -/
def WaitOnly (m : Nat) (s t : State) : Prop := { t.thread m with wait := (s.thread m).wait } = s.thread m

section
variable {vd team n g m : Nat}

/-- What the end of a phase keeps while it goes from core to core. -/
theorem clearBars_frame : ∀ (gcs : List Nat) {s : State}, s.Keyed →
    (gcs.foldl (clearBar vd team n g) s).mem = s.mem ∧ WaitOnly m s (gcs.foldl (clearBar vd team n g) s) := by
  intro gcs
  induction gcs with
  | nil => exact fun _ => ⟨rfl, rfl⟩
  | cons gc gcs ih =>
    intro s hk
    rw [List.foldl_cons]
    obtain ⟨hmem, hwait⟩ := ih (clearBar_keyed (vd := vd) (team := team) (n := n) (g := g) hk gc)
    refine ⟨hmem.trans (clearBar_mem gc), ?_⟩
    have hthis : { (clearBar vd team n g s gc).thread m with wait := (s.thread m).wait } = s.thread m := by
      rw [clearBar_thread hk]
      split
      · exact endWait_frame _ _ _
      · rfl
    rw [WaitOnly] at hwait ⊢
    generalize (gcs.foldl (clearBar vd team n g) (clearBar vd team n g s gc)).thread m = x at *
    rw [← hthis, ← hwait]

theorem clearBars_clear : ∀ {gcs : List Nat} {s : State}, coreOf m ∈ gcs ∨ BarClear vd team n g s (coreOf m) →
    BarClear vd team n g (gcs.foldl (clearBar vd team n g) s) (coreOf m) := by
  intro gcs
  induction gcs with
  | nil => exact fun h => h.resolve_left List.not_mem_nil
  | cons gc gcs ih =>
    intro s h
    rw [List.foldl_cons]
    refine ih ?_
    by_cases hgc : coreOf m = gc
    · right
      rw [hgc]
      exact clearBar_clears gc
    · refine h.imp (fun hmem => (List.mem_cons.mp hmem).resolve_left hgc) fun hclear => ?_
      rw [BarClear, clearBar_core_other hgc]
      exact hclear

/-- Thread `m` waits on the barrier and has its bit on its core. -/
def WaitsOn (vd team n g m : Nat) (s : State) : Prop :=
  (s.thread m).wait = .barrier n false ∧ endsOn vd team n g s (coreOf m) (m % 8) = true

theorem clearBars_ends : ∀ {gcs : List Nat} {s : State}, s.Keyed →
    coreOf m ∈ gcs ∧ WaitsOn vd team n g m s ∨ (s.thread m).wait = .barrier n true →
    ((gcs.foldl (clearBar vd team n g) s).thread m).wait = .barrier n true := by
  intro gcs
  induction gcs with
  | nil => exact fun _ h => h.resolve_left fun h => List.not_mem_nil h.1
  | cons gc gcs ih =>
    intro s hk h
    rw [List.foldl_cons]
    refine ih (clearBar_keyed hk gc) ?_
    have hthread := clearBar_thread (vd := vd) (team := team) (n := n) (g := g) hk gc m
    rcases h with ⟨hmem, hwait, hends⟩ | hended
    · by_cases hgc : coreOf m = gc
      · refine .inr ?_
        rw [hthread, if_pos hgc, ← hgc, hends, endWait, hwait]
        simp
      · rw [if_neg hgc] at hthread
        refine .inl ⟨(List.mem_cons.mp hmem).resolve_left hgc, by rw [hthread, hwait], ?_⟩
        rw [endsOn, clearBar_core_other hgc]
        exact hends
    · refine .inr ?_
      rw [hthread]
      split
      · rw [endWait, hended]; split <;> exact hended
      · exact hended

end

/-- The arrivals of a phase that still travel are over with it. -/
def dropArrivals (vd team n g : Nat) (s : State) : State :=
  { s with posted := s.posted.filter fun p => match p with
      | .arrival _ _ _ vk tm n' g' _ => !(vk % 16 == vd && tm == team && n' == n && g' == g)
      | _ => true }

section
variable {vd team k grp m : Nat} {y : Team} {s : State} (hteam : s.findTeam vd team = some y) (hk : s.Keyed)
  (hcounted : ∃ m ∈ groupThreads y grp, ∃ b ∈ (s.core (coreOf m)).bars,
    b.is (vdKey (pkgOfThread m) vd) team k = true ∧ b.group = grp ∧ b.counted ≠ 0)
  (hall : ∀ m ∈ groupThreads y grp, (s.thread m).st = .retired ∨ ∃ b ∈ (s.core (coreOf m)).bars,
    b.is (vdKey (pkgOfThread m) vd) team k = true ∧ b.group = grp ∧ b.counted.getLsbD (m % 8) = true)
include hteam hcounted hall

theorem exec_barrierPhaseComplete : exec (.barrierPhaseComplete vd team k grp) s =
    .next (dropArrivals vd team k grp (((groupThreads y grp).map coreOf).eraseDups.foldl (clearBar vd team k grp) s)) := by
  have hany : ((groupThreads y grp).any fun m => (s.core (coreOf m)).bars.any fun b =>
      b.is (vdKey (pkgOfThread m) vd) team k && b.group == grp && b.counted != 0) = true := by
    simpa only [List.any_eq_true, Bool.and_eq_true, beq_iff_eq, bne_iff_ne, and_assoc] using hcounted
  have harrived : (groupThreads y grp).all (memberArrived s vd team k grp) = true := by
    simpa only [List.all_eq_true, memberArrived, Bool.or_eq_true, List.any_eq_true, Bool.and_eq_true, beq_iff_eq, and_assoc, slotOf] using hall
  change execBarrierPhaseComplete vd team k grp s = _
  rw [State.findTeam] at hteam
  simp only [execBarrierPhaseComplete, hteam, hany, harrived]
  rfl

include hk

theorem barrierPhaseComplete_ends (hm : m ∈ groupThreads y grp) : Completes (.barrierPhaseComplete vd team k grp) s fun t =>
    t.mem = s.mem ∧
    (∀ b ∈ (t.core (coreOf m)).bars, b.is (vdKey (pkgOfThread m) vd) team k = true → b.group = grp → b.arrived = 0 ∧ b.counted = 0) ∧
    ((s.thread m).wait = .barrier k false → (∃ b ∈ (s.core (coreOf m)).bars,
      b.is (vdKey (pkgOfThread m) vd) team k = true ∧ b.group = grp ∧ b.arrived.getLsbD (m % 8) = true) →
      (t.thread m).wait = .barrier k true) ∧
    SameS (s.thread m) (t.thread m) [] ∧ SameV (s.thread m) (t.thread m) [] ∧ (t.thread m).pc = (s.thread m).pc := by
  have hmem : coreOf m ∈ ((groupThreads y grp).map coreOf).eraseDups := by
    rw [List.mem_eraseDups]; exact List.mem_map_of_mem hm
  have hpkg : pkgOf (coreOf m) = pkgOfThread m := Nat.div_div_eq_div_mul m 8 16384
  refine ⟨_, exec_barrierPhaseComplete hteam hcounted hall, ?_⟩
  generalize ((groupThreads y grp).map coreOf).eraseDups = gcs at hmem
  obtain ⟨hsame, honly⟩ := clearBars_frame (vd := vd) (team := team) (n := k) (g := grp) (m := m) gcs hk
  have hclear := clearBars_clear (vd := vd) (team := team) (n := k) (g := grp) (s := s) (.inl hmem)
  have hends := fun h => clearBars_ends (vd := vd) (team := team) (n := k) (g := grp) hk (.inl ⟨hmem, h⟩)
  rw [BarClear, hpkg] at hclear
  refine ⟨hsame, hclear, fun hwait ⟨b, hb, his, hg, hbit⟩ => hends ⟨hwait, ?_⟩, ?_⟩
  · refine List.any_eq_true.mpr ⟨b, List.mem_filter.mpr ⟨hb, ?_⟩, hbit⟩
    rw [hpkg, his, hg]; simp
  · change SameS _ ((gcs.foldl (clearBar vd team k grp) s).thread m) _ ∧ SameV _ ((gcs.foldl (clearBar vd team k grp) s).thread m) _ ∧
      ((gcs.foldl (clearBar vd team k grp) s).thread m).pc = _
    rw [WaitOnly] at honly
    rw [← honly]
    exact ⟨fun _ _ => ⟨rfl, rfl⟩, fun _ _ => ⟨rfl, rfl⟩, rfl⟩

end

/-- Settles O37: the instructions through `barRefused_iff` and the arrival, the phase by an induction over the cores of the group. -/
theorem barriers : Obligations.Barriers := by
  unfold Obligations.Barriers
  intro sw sc sc' n g cls id tid vk team k grp m y s
  have harrives {t : State} (h : Arrives sc n.toNat g.toNat s t) := And.intro h.only (And.intro h.bit (And.intro h.port h.posted))
  refine ⟨fun hwait => ⟨fun hr hbit => ⟨?_, ?_⟩, fun hr hbit => bararv_again sw sc n g hr hbit,
    fun hr htrap => barrier_refused sw sc n g hwait hr htrap, barwt_completes sw sc n hwait⟩, barrier_ended sw sc n g,
    barrierArrivalCounted_counts, fun hteam hk hcounted hall hm => barrierPhaseComplete_ends hteam hk hcounted hall hm⟩
  · exact (bararv_arrives sw sc n g hr hbit).imp fun t ⟨hpasses, h⟩ => ⟨hpasses, harrives h⟩
  · exact (barsync_arrives sw sc n g hwait hr hbit).imp fun t ⟨hstays, h, hends⟩ => ⟨hstays, harrives h, hends⟩

end Sys2Proof.Machine
end

section
/-! SUPPORT. What cancels an engine operation leaves the invalidations as they are (R262, R415). -/

namespace Sys2Proof.Machine

/-- A state holds the invalidations of another. -/
structure SameInvs (s t : State) : Prop where
  invs : t.invs = s.invs

namespace SameInvs

variable {s₀ s : State}

theorem refl (s : State) : SameInvs s s := ⟨rfl⟩

/-- The state of a pair that a function answers. -/
theorem of_eq {α : Type} {p : State × α} {x : α} (h : SameInvs s₀ p.1) (hp : p = (s, x)) : SameInvs s₀ s := by
  rw [hp] at h; exact h

theorem ite {c : Prop} [Decidable c] {a b : State} (ha : SameInvs s₀ a) (hb : SameInvs s₀ b) :
    SameInvs s₀ (if c then a else b) := by split <;> assumption

theorem foldl {α : Type} {xs : List α} {f : State → α → State} (h : SameInvs s₀ s)
    (hf : ∀ s x, SameInvs s₀ s → SameInvs s₀ (f s x)) : SameInvs s₀ (xs.foldl f s) := by
  induction xs generalizing s with
  | nil => exact h
  | cons x xs ih => exact ih (hf s x h)

theorem setThread {x : Thread} (h : SameInvs s₀ s) : SameInvs s₀ (s.setThread x) := by
  unfold State.setThread; exact .ite ⟨h.invs⟩ ⟨h.invs⟩

theorem modThread {id : Nat} {f : Thread → Thread} (h : SameInvs s₀ s) : SameInvs s₀ (s.modThread id f) := h.setThread

theorem modCore {gc : Nat} {f : Core → Core} (h : SameInvs s₀ s) : SameInvs s₀ (s.modCore gc f) := ⟨h.invs⟩

theorem modCopy {gc id : Nat} {f : CopyReq → CopyReq} (h : SameInvs s₀ s) : SameInvs s₀ (s.modCopy gc id f) := ⟨h.invs⟩

theorem modPlan {vk idx : Nat} {f : Plan → Plan} (h : SameInvs s₀ s) : SameInvs s₀ (s.modPlan vk idx f) := ⟨h.invs⟩

theorem modRetrace {id : Nat} {f : Retrace → Retrace} (h : SameInvs s₀ s) : SameInvs s₀ (s.modRetrace id f) := ⟨h.invs⟩

theorem bump (h : SameInvs s₀ s) : SameInvs s₀ s.bump := ⟨h.invs⟩

theorem unlock {gc owner : Nat} (h : SameInvs s₀ s) : SameInvs s₀ (s.unlock gc owner) := ⟨h.invs⟩

theorem dropUnits {gone : Nat → Offer → Bool} (h : SameInvs s₀ s) : SameInvs s₀ (s.dropUnits gone) := ⟨h.invs⟩

theorem scramble {locs : List Nat} (h : SameInvs s₀ s) : SameInvs s₀ (s.scramble locs) := by
  have honly := scramble_onlyMemory s locs
  rw [OnlyMemory] at honly
  rw [honly]; exact ⟨h.invs⟩

theorem forgetAt {op r : Nat} (h : SameInvs s₀ s) : SameInvs s₀ (State.forgetAt op s r) := .ite h ⟨h.invs⟩

theorem forgetWalks {op gc : Nat} (h : SameInvs s₀ s) : SameInvs s₀ (s.forgetWalks op gc) := h.forgetAt

theorem dropWalks {op : Nat} (h : SameInvs s₀ s) : SameInvs s₀ (s.dropWalks op) := h.foldl fun _ _ h => h.forgetAt

theorem evalTagWait {gc vk t : Nat} (h : SameInvs s₀ s) : SameInvs s₀ (Machine.evalTagWait gc vk s t) := by
  unfold Machine.evalTagWait
  split
  · split
    · exact h
    · exact h.modCore.modThread
  · exact h

theorem setTag {gc vk n status : Nat} (h : SameInvs s₀ s) : SameInvs s₀ (s.setTag gc vk n status) :=
  foldl ⟨h.invs⟩ fun _ _ h => h.evalTagWait

theorem arrive {l : Landing} (h : SameInvs s₀ s) : SameInvs s₀ (s.arrive l).1 := by
  have hkept {t : Thread} : SameInvs s₀ (s.bump.setThread t) := h.bump.setThread
  unfold State.arrive
  dsimp only
  split
  · exact h.bump
  · split
    · exact hkept
    · exact h.bump
    all_goals
      split
      · exact h.bump
      · exact ⟨hkept.invs⟩

theorem landWord {engine tid reg ended : Nat} {w : Word} (h : SameInvs s₀ s) : SameInvs s₀ (s.landWord engine tid reg ended w).1 := by
  unfold State.landWord
  dsimp only
  split
  · exact h
  · split
    · exact h
    · split <;> exact h.arrive.of_eq ‹_›

theorem cancelCopy {gc : Nat} {req : CopyReq} (h : SameInvs s₀ s) : SameInvs s₀ (Machine.cancelCopy s gc req) := by
  unfold Machine.cancelCopy settleCopy
  refine .ite ?_ h.dropUnits.forgetWalks.scramble.unlock.bump.modCopy.setTag.modCopy
  split
  exact .ite (h.dropUnits.forgetWalks.scramble.unlock.bump.modCopy.setTag.landWord.of_eq ‹_›).modCopy
    h.dropUnits.forgetWalks.scramble.unlock.bump.modCopy.setTag

theorem cancelEntry {gc : Nat} {e : MEntry} (h : SameInvs s₀ s) : SameInvs s₀ (Machine.cancelEntry s gc e) := by
  have hdelivered : SameInvs s₀ (cancelDeliveries gc e.id s) := ⟨h.invs⟩
  exact (ite hdelivered.modCore.scramble hdelivered.modCore).dropUnits.forgetWalks.unlock.setTag

theorem cancelGather {gc : Nat} {a : Access} (h : SameInvs s₀ s) : SameInvs s₀ (Machine.cancelGather s gc a) := by
  refine h.foldl fun s p h => ?_
  have hfree : SameInvs s₀ { s with free := s.free + 1 } := ⟨h.invs⟩
  have htaken : SameInvs s₀ (({ s with free := s.free + 1 } : State).takeValue a p (some (Config.freeWord s.free).toNat) 0) := by
    simp only [State.takeValue, Option.isNone_some, Bool.false_eq_true, if_false]
    exact hfree.modThread
  exact .ite htaken.modCore htaken.modCore.modThread

theorem cancelForward {f : Forward} (h : SameInvs s₀ s) : SameInvs s₀ (Machine.cancelForward s f) := by
  unfold Machine.cancelForward
  refine .setTag ⟨?_⟩
  exact (dropWalks (dropUnits (scramble h))).invs

theorem cancelRetrace {r : Retrace} (h : SameInvs s₀ s) : SameInvs s₀ (Machine.cancelRetrace s r) := by
  unfold Machine.cancelRetrace
  refine .setTag ⟨?_⟩
  exact (dropWalks (dropUnits (scramble h))).invs

theorem planLanding {vk plan member m : Nat} {d : List Byte} {seq : BitVec 32} {status ended : Nat} (h : SameInvs s₀ s) :
    SameInvs s₀ (Machine.planLanding vk plan member m d seq status ended s) := by
  unfold Machine.planLanding
  refine .ite ?_ h.modPlan
  split
  exact .ite (h.landWord.of_eq ‹_›).modPlan h

theorem cancelPart {vk idx : Nat} {p : Plan} {f : Firing} {k : Nat} (h : SameInvs s₀ s) :
    SameInvs s₀ (Machine.cancelPart vk idx p f s k) := by
  unfold Machine.cancelPart
  split
  · exact h
  · dsimp only
    split
    · exact h
    · exact h.scramble.setTag.modPlan.bump.planLanding

theorem cancelFiring {vk idx : Nat} {p : Plan} (h : SameInvs s₀ s) : SameInvs s₀ (Machine.cancelFiring vk idx p s) := by
  unfold Machine.cancelFiring
  split
  · exact h
  · exact h.dropUnits.dropWalks.foldl fun _ _ h => h.cancelPart

/-- What a core holds of an operation is cancelled. -/
theorem cancelOnCore {gc id : Nat} {c : Core} (h : SameInvs s₀ s) : SameInvs s₀ (
    let s := match c.copies.find? fun r => decide (r.id = id) && r.state == .running with
      | some r => Machine.cancelCopy s gc r
      | none => s
    let s := match c.mq.find? fun m => decide (m.id = id) with
      | some m => Machine.cancelEntry s gc m
      | none => s
    match c.port.find? fun a => decide (a.id = id) && a.kind == .gath with
    | some a => Machine.cancelGather s gc a
    | none => s) := by
  have hcopies : SameInvs s₀ (match c.copies.find? fun r => decide (r.id = id) && r.state == .running with
      | some r => Machine.cancelCopy s gc r
      | none => s) := by
    split
    · exact h.cancelCopy
    · exact h
  dsimp only
  generalize (match c.copies.find? fun r => decide (r.id = id) && r.state == .running with
      | some r => Machine.cancelCopy s gc r
      | none => s) = u at hcopies
  have hentries : SameInvs s₀ (match c.mq.find? fun m => decide (m.id = id) with
      | some m => Machine.cancelEntry u gc m
      | none => u) := by
    split
    · exact hcopies.cancelEntry
    · exact hcopies
  split
  · exact hentries.cancelGather
  · exact hentries

theorem cancelOp {id : Nat} (h : SameInvs s₀ s) : SameInvs s₀ (Machine.cancelOp s id) := by
  unfold Machine.cancelOp
  dsimp only
  refine .foldl ?_ fun s e h => ?_
  · generalize hu : s.cores.foldl _ s = u
    have hcores : SameInvs s₀ u := by
      rw [← hu]
      exact h.foldl fun s e h => h.cancelOnCore
    split
    · refine .cancelRetrace ?_
      split
      · exact hcores.cancelForward
      · exact hcores
    · split
      · exact hcores.cancelForward
      · exact hcores
  · refine h.foldl fun s y h => ?_
    split
    · exact .ite h.cancelFiring h
    · exact h

end SameInvs
end Sys2Proof.Machine
end

section
/-! SUPPORT. The end of a walk and the deadline of an invalidation (R409, R410, R415). -/

namespace Sys2Proof.Machine

/-- A leaf's entry serves the page that it was made for. -/
theorem entryOf_serves (vk page : Nat) (l : Leaf) : TlbEntry.serves vk page (entryOf vk page l) = true := by
  cases hbig : l.big with
  | false => simp [TlbEntry.serves, entryOf, hbig]
  | true => simp [TlbEntry.serves, entryOf, hbig]

theorem fill_find (r : Router) (vk page : Nat) (l : Leaf) : ((r.fill vk page l).find vk page).isSome = true := by
  rw [Router.fill]
  split
  · assumption
  · simp [Router.find, List.find?_append, entryOf_serves]

theorem Miss.permits_iff (m : Miss) (l : Leaf) :
    m.permits l = true ↔ (m.needR = true → l.r = true) ∧ (m.needW = true → l.w = true) ∧ (m.needX = true → l.x = true) := by
  simp [Miss.permits, and_assoc, imp_iff_not_or]

/-- The waiting accesses of a page meet a cause. -/
def State.failWaiters (s : State) (key cause : Nat) (ws : List Nat) : State :=
  ws.foldl (fun s t => s.modThread t fun x => { x with walkFail := x.walkFail ++ [(key, cause)] }) s

section
variable {s : State} {key cause w : Nat}

/-- Such a thread's list of failed walks is not shortened by what the others meet. -/
theorem failWaiters_keeps (hk : s.Keyed) (ws : List Nat) (h : (key, cause) ∈ (s.thread w).walkFail) :
    (key, cause) ∈ ((s.failWaiters key cause ws).thread w).walkFail := by
  induction ws generalizing s with
  | nil => exact h
  | cons t ws ih =>
    refine ih (modThread_keyed hk _ _) ?_
    by_cases hw : w = t
    · subst hw
      rw [modThread_thread hk rfl]
      exact List.mem_append_left _ h
    · rwa [modThread_other hk hw rfl]

theorem failWaiters_fails (hk : s.Keyed) {ws : List Nat} (hw : w ∈ ws) :
    (key, cause) ∈ ((s.failWaiters key cause ws).thread w).walkFail := by
  induction ws generalizing s with
  | nil => cases hw
  | cons t ws ih =>
    have hk' := modThread_keyed hk t fun x => { x with walkFail := x.walkFail ++ [(key, cause)] }
    rcases List.mem_cons.mp hw with rfl | hw
    · refine failWaiters_keeps hk' ws ?_
      rw [modThread_thread hk rfl]
      exact List.mem_append_right _ (List.mem_singleton.mpr rfl)
    · exact ih hk' hw

theorem failWaiters_mem (s : State) (key cause : Nat) (ws : List Nat) : (s.failWaiters key cause ws).mem = s.mem := by
  induction ws generalizing s with
  | nil => rfl
  | cons t ws ih => exact (ih _).trans (modThread_mem _ _ _)

end

section
variable {s : State} {r vk page : Nat} {m : Miss} (hm : (s.router r).misses.find? (fun m => m.vk == vk && m.page == page) = some m)
  (hheld : m.held = none) (hdead : m.dead = false)
include hm hheld hdead

/-- A walk that is not marked and not held for the host ends by its leaf. -/
theorem exec_translationWalkEnd_fills {l : Leaf} (hwalk : walk s vk page = some l) (hpermits : m.permits l = true) :
    exec (.translationWalkEnd r vk page) s = .next (failWalk r vk page s) := by
  change execTranslationWalkEnd r vk page s = _
  simp only [execTranslationWalkEnd, hm, hheld, hdead, hwalk, hpermits, Option.isSome_none, Bool.false_eq_true, if_false, if_true]

theorem exec_translationWalkEnd_fails (hwalk : walk s vk page = none) (hmode : (s.vd vk).rmode.getLsbD 0 = false) :
    exec (.translationWalkEnd r vk page) s = .next (failWalk r vk page s) := by
  change execTranslationWalkEnd r vk page s = _
  simp only [execTranslationWalkEnd, hm, hheld, hdead, hwalk, hmode, Option.isSome_none, Bool.false_and, Bool.false_eq_true, if_false]

theorem translationWalkEnd_fills {l : Leaf} (hwalk : walk s vk page = some l) (hpermits : m.permits l = true) :
    Completes (.translationWalkEnd r vk page) s fun t => t = { s with routers := t.routers } ∧
      ((t.router r).find vk page).isSome = true ∧
      (t.router r).misses = (s.router r).misses.filter fun m => !(m.vk == vk && m.page == page) := by
  refine ⟨_, exec_translationWalkEnd_fills hm hheld hdead hwalk hpermits, ?_⟩
  have hsame (f : Router → Router) : walk (s.modRouter r f) vk page = some l := hwalk
  have hmisses := (failWalk_dropsMiss hm).misses
  revert hmisses
  simp only [failWalk, hm, hsame, hheld, Option.isSome_none, Bool.false_and, Bool.false_eq_true, if_false]
  refine fun hmisses => ⟨rfl, ?_, hmisses⟩
  rw [router_modRouter, if_pos rfl]
  exact fill_find _ _ _ _

theorem translationWalkEnd_fails (hwalk : walk s vk page = none) (hmode : (s.vd vk).rmode.getLsbD 0 = false) (hk : s.Keyed) {w : Nat}
    (hw : w ∈ m.waiters) : Completes (.translationWalkEnd r vk page) s fun t => t.mem = s.mem ∧
      (walkKey vk page, 0x04) ∈ (t.thread w).walkFail ∧
      (t.router r).misses = (s.router r).misses.filter fun m => !(m.vk == vk && m.page == page) := by
  refine ⟨_, exec_translationWalkEnd_fails hm hheld hdead hwalk hmode, ?_⟩
  have hsame (f : Router → Router) : walk (s.modRouter r f) vk page = none := hwalk
  have hmisses := (failWalk_dropsMiss hm).misses
  have hfails : ∃ u : State, failWalk r vk page s = u.failWaiters (walkKey vk page) cXlate m.waiters ∧
      u.Keyed ∧ u.mem = s.mem := by
    simp only [failWalk, hm, hsame]
    exact ⟨_, rfl, hk, rfl⟩
  obtain ⟨u, hfails, hku, hmem⟩ := hfails
  rw [hfails] at hmisses ⊢
  exact ⟨(failWaiters_mem _ _ _ _).trans hmem, failWaiters_fails hku hw, hmisses⟩

end

/-- At its deadline an invalidation counts what still holds. -/
theorem tlbinvDeadline_counts {s : State} {i : Invalidation} {dl : Nat} (hi : s.invs.find? (fun x => x.id = i.id) = some i)
    (honly : ∀ x ∈ s.invs, x.id = i.id → x = i) (hdl : i.deadline = some dl) (hdue : dl ≤ s.time (i.vk / 16)) :
    Completes (.tlbinvDeadline i.id) s fun t => ∀ x ∈ t.invs, x.id = i.id →
      x = { i with cancelled := i.cancelled + (i.holders.filter (opAlive s)).length } := by
  have hexec : exec (.tlbinvDeadline i.id) s = .next (s.forceInv i) := by
    change execTlbinvDeadline i.id s = _
    rw [execTlbinvDeadline, hi]
  refine ⟨_, hexec, fun x hx hid => ?_⟩
  have hinvs : (s.forceInv i).invs = s.invs.map fun x => if x.id = i.id then
      { x with cancelled := x.cancelled + (i.holders.filter (opAlive s)).length } else x := by
    have hcancelled : SameInvs s ((i.holders.filter (opAlive s)).foldl cancelOp s) :=
      (SameInvs.refl s).foldl fun _ _ h => h.cancelOp
    simp only [State.forceInv, hdl, hdue, decide_true, if_true]
    rw [← hcancelled.invs]
  rw [hinvs] at hx
  obtain ⟨y, hy, rfl⟩ := List.mem_map.mp hx
  split at hid
  case isTrue h => rw [if_pos h, honly y hy h]
  case isFalse h => exact absurd hid h

/-- Settles O40: the walk by whether it gives a leaf, the deadline through what its cancellations leave as it is. -/
theorem walksAndDeadlines : Obligations.WalksAndDeadlines := by
  unfold Obligations.WalksAndDeadlines
  intro r vk page w m l i dl s
  refine ⟨fun hm hheld hdead => ⟨fun hwalk hR hW hX => ?_, fun hwalk hmode hk hw => ?_⟩, tlbinvDeadline_counts⟩
  · exact translationWalkEnd_fills hm hheld hdead hwalk ((Miss.permits_iff m l).mpr ⟨hR, hW, hX⟩)
  · exact translationWalkEnd_fails hm hheld hdead hwalk hmode hk hw

end Sys2Proof.Machine
end

section
/-! SUPPORT. Pending causes and parks that have lasted their limit (R329, R330, R347 to R349). -/

namespace Sys2Proof.Machine

/-! ### Entry with an asynchronous cause -/

/-- A thread as an asynchronous cause enters its handler. -/
def Thread.enteredAsync (t : Thread) (code : Nat) (tval : Word) (fsrc : Option Word) : Thread :=
  { t with epc := t.pc &&& ~~~1#52, cause := 0x8000000000000000#64 ||| BitVec.ofNat 64 code, tval := tval, fsrc := fsrc.getD t.fsrc,
           hm := true, st := .ready, pc := t.tvec, park := none, wait := .none, want := none, walkFail := [],
           stop := if t.stop = 1 then 2 else t.stop }

theorem takeTrap_entersAsync {s : State} (hhm : s.thr.hm = false) (hbuf : s.thr.buf = []) (htvec : s.thr.tvec ≠ 0) (code : Nat)
    (tval : Word) (fsrc : Option Word) :
    s.takeTrap true code s.thr.pc tval fsrc = { s with thr := s.thr.enteredAsync code tval fsrc } := by
  rw [State.takeTrap, hhm, hbuf, State.trapEnter]
  simp only [Bool.false_eq_true, if_false, List.isEmpty_nil, if_true, State.modThr_thr]
  exact if_neg htvec

/-- A thread whose wait has been withdrawn. -/
def Thread.withdrawn (t : Thread) : Thread := { t.unpark with walkFail := [] }

/-- A thread that waits in nothing is interrupted where it stands. -/
theorem interrupt_idle {s : State} (hwait : s.thr.wait = .none) (hland : (s.core (coreOf s.thr.id)).landing = []) :
    s.interrupt = { s with thr := s.thr.withdrawn, disps := s.interrupt.disps, routers := s.interrupt.routers } := by
  have hbar : s.thr.inBarsync = false := by simp only [Thread.inBarsync, hwait]
  have hreland (u : State) (h : u.cores = s.cores) : u.reland s.thr.id = u :=
    reland_empty (by rw [State.core, h]; exact hland)
  have hstays : (s.modThr fun x => if x.inBarsync then x.next else x) = s := by
    simp only [State.modThr, hbar, Bool.false_eq_true, if_false]
  simp only [State.interrupt, hstays, State.withdraw, State.dropWaitge, hwait]
  rw [hreland]
  · rfl
  · rfl

/-- What the handler of a thread finds (R347, R348). -/
structure EntersAsync (x y : Thread) (code : Nat) (tval : Word) : Prop where
  mode : y.hm = true
  cause : y.cause = 0x8000000000000000#64 ||| BitVec.ofNat 64 code
  value : y.tval = tval
  saved : y.epc = x.pc &&& ~~~1#52
  head : y.pc = x.tvec
  scalars : SameS x y []
  vectors : SameV x y []
  predicates : SameP x y []
  unparked : y.park = none

section
variable {s : State} (hhm : s.thr.hm = false) (hbuf : s.thr.buf = []) (htvec : s.thr.tvec ≠ 0) (hwait : s.thr.wait = .none)
  (hland : (s.core (coreOf s.thr.id)).landing = []) (code : Nat) (tval : Word) (fsrc : Option Word)
include hhm hbuf htvec hwait hland

/-- A cause that ends the wait of the thread in focus enters its handler. -/
theorem interrupt_takeTrap : let t := s.interrupt.takeTrap true code s.interrupt.thr.pc tval fsrc
    EntersAsync s.thr (t.thread s.thr.id) code tval ∧ (t.thread s.thr.id).pend = s.thr.pend ∧ t.mem = s.mem := by
  have hidle := interrupt_idle hwait hland
  generalize s.interrupt = u at hidle
  generalize u.disps = disps, u.routers = routers at hidle
  subst hidle
  rw [takeTrap_entersAsync (s := { s with thr := s.thr.withdrawn, disps := disps, routers := routers }) hhm hbuf htvec]
  intro t
  have hthread : t.thread s.thr.id = s.thr.withdrawn.enteredAsync code tval fsrc := thread_of_id rfl
  rw [hthread]
  exact ⟨⟨rfl, rfl, rfl, rfl, rfl, fun _ _ => ⟨rfl, rfl⟩, fun _ _ => ⟨rfl, rfl⟩, fun _ _ => ⟨rfl, rfl⟩, rfl⟩, rfl, rfl⟩

end

section
variable {s : State} {id : Nat} (hk : s.Keyed) (hst : (s.thread id).st = .ready) (hbuf : (s.thread id).buf = [])
  (htvec : (s.thread id).tvec ≠ 0) (hhm : (s.thread id).hm = false) (hland : (s.core (coreOf id)).landing = [])
  (hwait : (s.thread id).wait = .none)
include hk hst hbuf htvec hhm hland hwait

theorem asyncCauseDelivery_enters {p : Pending} {rest : List Pending} (hpend : (s.thread id).pend = p :: rest)
    (hdelivers : (s.thread id).delivers = true) (hstores : (s.thread id).storeHold = []) (hcode : p.code ≠ 0x09) :
    Completes (.asyncCauseDelivery id) s fun t => EntersAsync (s.thread id) (t.thread id) p.code p.tval ∧
      (t.thread id).pend = rest ∧ t.mem = s.mem := by
  generalize hu : (s.focus id).modThr (fun x => { x with pend := rest }) = u
  have hthr : u.thr = { s.thread id with pend := rest } := by rw [← hu, State.modThr_thr, focus_thr]
  have hid : u.thr.id = id := by rw [hthr]; exact thread_id hk id
  have hexec : exec (.asyncCauseDelivery id) s = .next (u.interrupt.takeTrap true p.code u.interrupt.thr.pc p.tval p.fsrc) := by
    change execAsyncCauseDelivery id s = _
    have hcode' : p.code ≠ cRegovw := hcode
    simp only [execAsyncCauseDelivery, focus_thr, hpend, hst, hdelivers, hstores, hu, List.isEmpty_nil, Bool.not_true, Bool.or_false,
      Bool.false_eq_true, if_false, if_neg hcode']
  have hcore : (u.core (coreOf u.thr.id)).landing = [] := by
    rw [hid, State.core, ← hu, State.modThr_cores, focus_cores]; exact hland
  have henters := interrupt_takeTrap (s := u) (by rw [hthr]; exact hhm) (by rw [hthr]; exact hbuf) (by rw [hthr]; exact htvec)
    (by rw [hthr]; exact hwait) hcore p.code p.tval p.fsrc
  rw [hid, hthr] at henters
  obtain ⟨⟨h1, h2, h3, h4, h5, h6, h7, h8, h9⟩, hrest, hmem⟩ := henters
  exact ⟨_, hexec, ⟨h1, h2, h3, h4, h5, h6, h7, h8, h9⟩, hrest, hmem.trans (by rw [← hu]; exact focus_mem s id)⟩

theorem parklong_enters {k : Park} (hpark : (s.thread id).park = some k) (hlimit : k.limit ≠ 0)
    (hlasted : k.start + k.limit * 1024 ≤ s.cycle) (hover : (s.thread id).parkOver k = false) :
    Completes (.parklong id) s fun t => EntersAsync (s.thread id) (t.thread id) 0x07 k.tval ∧
      (t.thread id).pend = (s.thread id).pend ∧ t.mem = s.mem := by
  have hid : (s.focus id).thr.id = id := by rw [focus_thr]; exact thread_id hk id
  have hexec : exec (.parklong id) s = .next ((s.focus id).interrupt.takeTrap true 0x07 (s.focus id).interrupt.thr.pc k.tval none) := by
    have hexpired : k.expired (s.focus id).cycle = true := by
      rw [focus_shape, Park.expired, bne_iff_ne.mpr hlimit, decide_eq_true hlasted]; rfl
    change execParklong id s = _
    simp only [execParklong, focus_thr, hpark, hexpired, hover, hst, hhm, bne_self_eq_false, Bool.not_true, Bool.or_false,
      Bool.false_eq_true, if_false]
    rfl
  have hcore : ((s.focus id).core (coreOf (s.focus id).thr.id)).landing = [] := by
    rw [hid, State.core, focus_cores]; exact hland
  have henters := interrupt_takeTrap (s := s.focus id) (by rw [focus_thr]; exact hhm) (by rw [focus_thr]; exact hbuf)
    (by rw [focus_thr]; exact htvec) (by rw [focus_thr]; exact hwait) hcore 0x07 k.tval none
  rw [hid, focus_thr] at henters
  obtain ⟨hhandler, hpend, hmem⟩ := henters
  exact ⟨_, hexec, hhandler, hpend, hmem.trans (focus_mem s id)⟩

end

/-! ### A double fault -/

/-- What a retirement keeps, seen from a thread that has been retired: rings, memory, time and ports, and its trap registers. -/
structure RetiredFrom (id : Nat) (s t : State) : Prop where
  keyed : t.Keyed
  rings : t.fns = s.fns
  memory : t.mem = s.mem
  packages : t.pkgs = s.pkgs
  cycle : t.cycle = s.cycle
  ports : ∀ gc, (t.core gc).port = (s.core gc).port
  retired : (t.thread id).st = .retired
  trapRegs : (t.thread id).epc = (s.thread id).epc ∧ (t.thread id).cause = (s.thread id).cause ∧ (t.thread id).tval = (s.thread id).tval

theorem addCause_trapRegs (t : Thread) (p : Pending) : (t.addCause p).id = t.id ∧ (t.addCause p).st = t.st ∧ (t.addCause p).epc = t.epc ∧
    (t.addCause p).cause = t.cause ∧ (t.addCause p).tval = t.tval := by
  rw [Thread.addCause]
  split
  · rw [cutPark_shape]; exact ⟨rfl, rfl, rfl, rfl, rfl⟩
  · exact ⟨rfl, rfl, rfl, rfl, rfl⟩

theorem RetiredFrom.pend {id : Nat} {s t : State} (h : RetiredFrom id s t) (k code : Nat) (tval : Word) :
    RetiredFrom id s (t.pend k code tval) := by
  obtain ⟨hk, hfns, hmem, hpkgs, hcycle, hports, hretired, htrap⟩ := h
  obtain ⟨hid, hst, hepc, hcause, htval⟩ := addCause_trapRegs (t.thread k) ⟨code, tval, none, 0⟩
  have hworld := modThread_world t k fun x => x.pendCause code tval
  have hthread : ((t.pend k code tval).thread id).st = (t.thread id).st ∧ ((t.pend k code tval).thread id).epc = (t.thread id).epc ∧
      ((t.pend k code tval).thread id).cause = (t.thread id).cause ∧ ((t.pend k code tval).thread id).tval = (t.thread id).tval := by
    rw [State.pend]
    by_cases hne : id = k
    · subst hne
      rw [modThread_thread (f := fun x => x.pendCause code tval) hk hid]
      exact ⟨hst, hepc, hcause, htval⟩
    · rw [modThread_other (f := fun x => x.pendCause code tval) hk hne hid]
      exact ⟨rfl, rfl, rfl, rfl⟩
  obtain ⟨hst', hepc', hcause', htval'⟩ := hthread
  refine ⟨modThread_keyed hk _ _, ?_, ?_, ?_, ?_, fun gc => ?_, hst'.trans hretired, hepc'.trans htrap.1, hcause'.trans htrap.2.1,
    htval'.trans htrap.2.2⟩
  · rw [State.pend, hworld]; exact hfns
  · rw [State.pend, hworld]; exact hmem
  · rw [State.pend, hworld]; exact hpkgs
  · rw [State.pend, hworld]; exact hcycle
  · rw [State.pend, hworld]; exact hports gc

theorem RetiredFrom.dropHeld {id : Nat} {s t : State} (h : RetiredFrom id s t) : RetiredFrom id s (t.dropHeld id) := by
  rw [State.dropHeld]
  refine List.foldlRecOn (motive := RetiredFrom id s) _ _ ?_ fun u hu l _ => ?_
  · obtain ⟨hk, hfns, hmem, hpkgs, hcycle, hports, hretired, htrap⟩ := h
    have hports' (gc : Nat) : ((t.modCore (coreOf id) fun c => { c with landing := c.landing.filter fun l => l.tid != id }).core gc).port =
        (s.core gc).port := by
      rw [State.core, State.modCore_cores, tblGet_put]
      split
      · next heq => rw [heq]; exact hports _
      · exact hports gc
    split
    · exact ⟨hk, hfns, hmem, hpkgs, hcycle, hports', hretired, htrap⟩
    · exact ⟨hk, hfns, hmem, hpkgs, hcycle, hports', hretired, htrap⟩
  · split
    · exact hu.pend _ _ _
    · exact hu

theorem retire_retires {s : State} (hk : s.Keyed) (id : Nat) : RetiredFrom id s (s.retire id) := by
  refine RetiredFrom.dropHeld ⟨modThread_keyed hk _ _, ?_, ?_, ?_, ?_, fun gc => ?_, ?_, ?_⟩
  · rw [modThread_world]
  · rw [modThread_world]
  · rw [modThread_world]
  · rw [modThread_world]
  · rw [modThread_world]; rfl
  · rw [modThread_thread hk rfl]
  · rw [modThread_thread hk rfl]; exact ⟨rfl, rfl, rfl⟩

theorem postEvent_world (s : State) (pkg vd type cause kind num team fab i0 i1 : Nat) :
    postEvent s pkg vd type cause kind num team fab i0 i1 = { s with
      fns := (postEvent s pkg vd type cause kind num team fab i0 i1).fns,
      mem := (postEvent s pkg vd type cause kind num team fab i0 i1).mem } := ringPost_world s _ _ _

theorem doubleFault_retires {s : State} (hk : s.Keyed) (code : Nat) (tval : Word) :
    RetiresWith s (s.doubleFault code tval) 2 code s.thr.pc tval ∧ ((s.doubleFault code tval).thread s.thr.id).epc = s.thr.epc ∧
    ((s.doubleFault code tval).thread s.thr.id).cause = s.thr.cause ∧ ((s.doubleFault code tval).thread s.thr.id).tval = s.thr.tval := by
  have hretires := retire_retires hk s.thr.id
  rw [State.doubleFault]
  generalize s.retire s.thr.id = u at hretires
  obtain ⟨-, hfns, hmem, hpkgs, hcycle, hports, hretired, htrap⟩ := hretires
  have hpost : (postEvent u (pkgOfThread s.thr.id) s.thr.vd 2 code 0 (clusterOf (coreOf s.thr.id)) s.thr.teamNum s.thr.fabno s.thr.pc.toNat
        tval.toNat).fns = (postEvent s (pkgOfThread s.thr.id) s.thr.vd 2 code 0 (clusterOf (coreOf s.thr.id)) s.thr.teamNum s.thr.fabno
        s.thr.pc.toNat tval.toNat).fns ∧
      (postEvent u (pkgOfThread s.thr.id) s.thr.vd 2 code 0 (clusterOf (coreOf s.thr.id)) s.thr.teamNum s.thr.fabno s.thr.pc.toNat
        tval.toNat).mem = (postEvent s (pkgOfThread s.thr.id) s.thr.vd 2 code 0 (clusterOf (coreOf s.thr.id)) s.thr.teamNum s.thr.fabno
        s.thr.pc.toNat tval.toNat).mem := by
    have htime (pkg : Nat) : u.time pkg = s.time pkg := by rw [State.time, State.time, State.pkg, State.pkg, hpkgs, hcycle]
    rw [postEvent, postEvent, htime]
    exact ringPost_congr hfns hmem _ _ _
  rw [thread_of_id rfl] at htrap
  refine ⟨⟨?_, hpost.1, hpost.2, fun gc => ?_⟩, ?_⟩
  · rw [postEvent_world]; exact hretired
  · rw [postEvent_world]; exact hports gc
  · rw [postEvent_world]; exact htrap

/-- A park that has lasted its limit in handler mode (R349). -/
theorem parklong_doubleFault {s : State} {id : Nat} (hk : s.Keyed) (hst : (s.thread id).st = .ready) (hhm : (s.thread id).hm = true) {k : Park}
    (hpark : (s.thread id).park = some k) (hlimit : k.limit ≠ 0) (hlasted : k.start + k.limit * 1024 ≤ s.cycle)
    (hover : (s.thread id).parkOver k = false) :
    Completes (.parklong id) s fun t => RetiresWith (s.focus id) t 2 7 (s.thread id).pc k.tval ∧ (t.thread id).epc = (s.thread id).epc ∧
      (t.thread id).cause = (s.thread id).cause ∧ (t.thread id).tval = (s.thread id).tval := by
  have hexpired : k.expired (s.focus id).cycle = true := by
    rw [focus_shape, Park.expired, bne_iff_ne.mpr hlimit, decide_eq_true hlasted]; rfl
  have hexec : exec (.parklong id) s = .next ((s.focus id).doubleFault 7 k.tval) := by
    change execParklong id s = _
    simp only [execParklong, focus_thr, hpark, hexpired, hover, hst, hhm, bne_self_eq_false, Bool.not_true, Bool.or_false,
      Bool.false_eq_true, if_false, if_true]
    rfl
  have hid : (s.focus id).thr.id = id := by rw [focus_thr]; exact thread_id hk id
  have hfault := doubleFault_retires (focus_keyed hk id) 7 k.tval
  rw [hid, focus_thr] at hfault
  exact ⟨_, hexec, hfault⟩

end Sys2Proof.Machine
end

section
/-! SUPPORT. Requests that wait in a port: abandoned, presented again, read by a gather engine (R193, R195, R198, R201). -/

namespace Sys2Proof.Machine

/-- An access of one part among the others of its core's port. -/
structure InPort (s : State) (gc : Nat) (a : Access) (p : Part) (pre post : List Access) : Prop where
  port : (s.core gc).port = pre ++ a :: post
  ids : ∀ b ∈ pre ++ post, b.id ≠ a.id
  keyed : s.Keyed
  parts : a.parts = [p]

/-- The access has left the port, its buffered result formed; memory and the full bits are as before. -/
structure HasLeft (s t : State) (gc : Nat) (a : Access) (pre post : List Access) : Prop where
  gone : ∀ b, b ∈ (t.core gc).port ↔ b ∈ pre ++ post
  thread : t.thread a.tid = (s.thread a.tid).modEntry a.id fun e => { e with done := true }
  keyed : t.Keyed
  mem : t.mem = s.mem
  full : t.full = s.full

section
variable {s : State} {gc : Nat} {a : Access} {p : Part} {pre post : List Access} (h : InPort s gc a p pre post)
include h

theorem InPort.congr {t : State} (hc : t.cores = s.cores) (hk : t.Keyed) : InPort t gc a p pre post :=
  ⟨by rw [State.core, hc]; exact h.port, h.ids, hk, h.parts⟩

theorem InPort.find {pick : Access → Bool} (hpick : pick a = true) :
    (s.core gc).port.find? (fun b => decide (b.id = a.id) && pick b) = some a := by
  have hpre : pre.find? (fun b => decide (b.id = a.id) && pick b) = none := by
    rw [List.find?_eq_none]
    intro b hb
    simp [h.ids b (List.mem_append_left _ hb)]
  rw [h.port, List.find?_append, hpre, Option.none_or]
  exact List.find?_cons_of_pos (by simp [hpick])

theorem InPort.mem_dropLane (b : Access) : b ∈ dropLane (s.core gc).port a.id p.lane ↔ b ∈ pre ++ post := by
  have hfind : (s.core gc).port.find? (fun b => b.id = a.id) = some a := by
    simpa using h.find (pick := fun _ => true) rfl
  have hpre : ∀ b ∈ pre, (b.id != a.id) = true := fun b hb => by simp [h.ids b (List.mem_append_left _ hb)]
  have htake : (s.core gc).port.takeWhile (fun b => b.id != a.id) = pre := by
    rw [h.port, List.takeWhile_append_of_pos hpre, List.takeWhile_cons_of_neg (by simp), List.append_nil]
  have hdrop : (s.core gc).port.dropWhile (fun b => b.id != a.id) = a :: post := by
    rw [h.port, List.dropWhile_append_of_pos hpre, List.dropWhile_cons_of_neg (by simp)]
  have hother : ∀ b ∈ pre ++ post, b.id ≠ a.id := h.ids
  rw [dropLane, hfind]
  simp only [h.parts, List.filter_cons, bne_self_eq_false, Bool.false_eq_true, if_false, List.filter_nil]
  split
  · simp only [htake, hdrop, List.tail_cons, List.mem_append, List.mem_filter, bne_iff_ne, beq_iff_eq]
    tauto
  · simp only [h.port, List.mem_filter, List.mem_append, List.mem_cons, bne_iff_ne]
    simp only [List.mem_append] at hother
    constructor
    · rintro ⟨hb | rfl | hb, hne⟩
      · exact .inl hb
      · exact absurd rfl hne
      · exact .inr hb
    · rintro (hb | hb)
      · exact ⟨.inl hb, hother b (.inl hb)⟩
      · exact ⟨.inr (.inr hb), hother b (.inr hb)⟩

theorem InPort.partDone : HasLeft s (s.partDone gc a p.lane) gc a pre post := by
  generalize hu : s.modCore gc (fun c => { c with port := dropLane c.port a.id p.lane }) = u
  have hport : (u.core gc).port = dropLane (s.core gc).port a.id p.lane := by rw [← hu, modCore_core_same]
  have hmem (b : Access) : b ∈ (u.core gc).port ↔ b ∈ pre ++ post := by rw [hport]; exact h.mem_dropLane b
  have hnone : (u.core gc).port.any (fun b => b.id = a.id) = false :=
    List.any_eq_false.2 fun b hb => by simpa using h.ids b ((hmem b).mp hb)
  have hdone : s.partDone gc a p.lane = u.modThread a.tid fun t => t.modEntry a.id fun e => { e with done := true } := by
    simp only [State.partDone, hu, hnone, Bool.false_eq_true, if_false]
  have hk : u.Keyed := by rw [← hu]; exact h.keyed
  rw [hdone]
  refine ⟨fun b => ?_, ?_, modThread_keyed hk _ _, ?_, ?_⟩
  · rw [State.core, modThread_cores]; exact hmem b
  · rw [modThread_thread hk rfl, ← hu]; rfl
  · rw [modThread_mem, ← hu]; rfl
  · rw [modThread_world, ← hu]; rfl

/-- A request taken off the port with a change of its thread that keeps the buffer's numbers. -/
theorem InPort.modThread_partDone (f : Thread → Thread) : HasLeft (s.modThread a.tid f) ((s.modThread a.tid f).partDone gc a p.lane) gc a
    pre post :=
  (h.congr (modThread_cores ..) (modThread_keyed h.keyed _ _)).partDone

theorem InPort.head_lane : (a.parts.head?.map Part.lane).getD 0 = p.lane := by rw [h.parts]; rfl

theorem InPort.head_va : (a.parts.head?.map Part.va).getD 0 = p.va := by rw [h.parts]; rfl

/-! ### Abandoned requests -/

theorem InPort.exec_syncretry (hwaiting : a.waiting = true) (hout : (a.counted && s.exhausted a || s.wordInSave a) = true) :
    exec (.syncretry gc a.id) s = .next (abandon s gc a) := by
  change execSyncretry gc a.id s = _
  rw [execSyncretry, h.find (pick := fun b => b.waiting) hwaiting]
  exact congrArg Host.Outcome.next (if_pos hout)

/-- An LDF or STE whose retries have reached the limit (R195). -/
theorem InPort.abandoned (hwaiting : a.waiting = true) (hkind : a.kind = .ldf ∨ a.kind = .ste)
    (hlimit : (s.thread a.tid).syncl.toNat ≠ 0) (hretries : (s.thread a.tid).syncl.toNat ≤ a.retries) :
    Completes (.syncretry gc a.id) s fun t => (∀ b, b ∈ (t.core gc).port ↔ b ∈ pre ++ post) ∧ t.mem = s.mem ∧ t.full = s.full ∧
      (t.thread a.tid).buf = (s.thread a.tid).buf.map fun e =>
        if e.id = a.id then { e with fail := some 0x08, done := true } else e := by
  have hcounted : a.counted = true := by rcases hkind with hkind | hkind <;> rw [Access.counted, hkind]
  have hexhausted : s.exhausted a = true := by
    rw [State.exhausted, bne_iff_ne.mpr hlimit, decide_eq_true hretries]; rfl
  have habandon : abandon s gc a = (s.modThread a.tid fun t => t.modEntry a.id fun e => { e with fail := some cSyncretry }).partDone gc a
      p.lane := by
    simp only [abandon, hcounted, if_true, h.head_lane]
  obtain ⟨hgone, hthread, -, hmem, hfull⟩ := h.modThread_partDone fun t => t.modEntry a.id fun e => { e with fail := some cSyncretry }
  refine ⟨_, h.exec_syncretry hwaiting (by rw [hcounted, hexhausted]; rfl), ?_⟩
  rw [habandon]
  refine ⟨hgone, hmem.trans (modThread_mem _ _ _), hfull.trans (by rw [modThread_world]), ?_⟩
  rw [hthread, modThread_thread h.keyed rfl, modEntry_modEntry (f := fun e => { e with fail := some cSyncretry }) _ _ fun _ => rfl]
  rfl

/-- A WAITGE whose word's range is being saved (R195). -/
theorem InPort.waitge_abandoned {r : Nat} (hwaiting : a.waiting = true) (hkind : a.kind = .waitge r) (hsave : s.wordInSave a = true)
    (hwait : (s.thread a.tid).wait = .waitge a.id none false) :
    Completes (.syncretry gc a.id) s fun t => (∀ b, b ∈ (t.core gc).port ↔ b ∈ pre ++ post) ∧ t.mem = s.mem ∧ t.full = s.full ∧
      (t.thread a.tid).wait = .none ∧ (t.thread a.tid).pend = (s.thread a.tid).pend ++ [⟨0x08, p.va.setWidth 64, none, 0⟩] := by
  have hcounted : a.counted = false := by rw [Access.counted, hkind]
  have habandon : abandon s gc a = (s.modThread a.tid fun t => t.endWait a).partDone gc a p.lane := by
    simp only [abandon, hcounted, Bool.false_eq_true, if_false, h.head_lane]
  have hend : (s.thread a.tid).endWait a = ({ s.thread a.tid with
      wait := .none, pend := (s.thread a.tid).pend ++ [⟨cSyncretry, p.va.setWidth 64, none, 0⟩] } : Thread).cutPark := by
    simp only [Thread.endWait, hwait, bne_self_eq_false, Bool.false_eq_true, if_false, h.head_va]
  obtain ⟨hgone, hthread, -, hmem, hfull⟩ := h.modThread_partDone fun t => t.endWait a
  refine ⟨_, h.exec_syncretry hwaiting (by rw [hsave, Bool.or_true]), ?_⟩
  rw [habandon]
  refine ⟨hgone, hmem.trans (modThread_mem _ _ _), hfull.trans (by rw [modThread_world]), ?_⟩
  rw [hthread, modThread_thread (f := fun t => t.endWait a) h.keyed (by rw [hend, cutPark_shape]), hend, cutPark_shape]
  exact ⟨rfl, rfl⟩

/-! ### Requests that are presented again -/

theorem InPort.present {pick : Access → Bool} (haway : a.turnedAway = true) (hpick : pick a = true) :
    present gc a.id pick s = arriveSync s gc { a with turnedAway := false } p := by
  have hfind := h.find (pick := fun b => b.turnedAway && pick b) (by rw [haway, hpick]; rfl)
  simp only [← Bool.and_assoc] at hfind
  simp only [Machine.present, hfind, h.parts]

theorem InPort.represented (haway : a.turnedAway = true) (hkind : a.kind = .ldf) (hempty : s.isFull p.loc = false)
    (hroom : homeHasRoom s gc { a with turnedAway := false } p = true) :
    Completes (.syncRequestRepresent gc a.id) s fun t => t.mem = s.mem ∧ t.full = s.full ∧
      (t.core gc).port = pre ++ { a with turnedAway := false, waiting := true, arrived := s.seq } :: post := by
  have hcounted : a.counted = true := by rw [Access.counted, hkind]
  have hwaits : waitHolds s { a with turnedAway := false } p = false := by simp only [waitHolds, hkind, hempty]
  have hexec : exec (.syncRequestRepresent gc a.id) s = .next (s.bump.modAccess gc a.id fun b =>
      { b with waiting := true, turnedAway := false, arrived := s.seq }) := by
    refine congrArg Host.Outcome.next ((h.present haway (by rw [hcounted]; rfl)).trans ?_)
    exact arriveSync_waits hwaits hroom
  refine ⟨_, hexec, rfl, rfl, ?_⟩
  rw [State.modAccess, modCore_core_same]
  change (s.core gc).port.map _ = _
  have hpre : pre.map (fun b => if b.id = a.id then { b with waiting := true, turnedAway := false, arrived := s.seq } else b) = pre :=
    (List.map_congr_left fun b hb => if_neg (h.ids b (List.mem_append_left _ hb))).trans (List.map_id' pre)
  rw [h.port, List.map_append, hpre, map_first (c := fun b => b.id = a.id) rfl fun b hb => h.ids b (List.mem_append_right _ hb)]

/-- A WAITGE reads its word again where the word has reached its threshold. -/
theorem InPort.reread {r : Nat} (haway : a.turnedAway = true) (hkind : a.kind = .waitge r) (hspad : isSpad p.loc = false) (hue : s.ue = [])
    (hce : s.ce = []) (hlost : isLost p.loc = false) (hreached : r ≤ ofBytes (memReadN s.mem p.loc p.len))
    (hwait : (s.thread a.tid).wait = .waitge a.id none false) :
    Completes (.watchReread gc a.id) s fun t => (∀ b, b ∈ (t.core gc).port ↔ b ∈ pre ++ post) ∧ t.mem = s.mem ∧
      (t.thread a.tid).wait = .waitge a.id (some (BitVec.ofNat 64 (ofBytes (memReadN s.mem p.loc p.len)))) false := by
  have hread := readLoc_sound hue hlost p.len
  have hpick : (!a.counted && !a.parts.any fun p => isSpad p.loc) = true := by
    rw [Access.counted, hkind, h.parts, List.any_cons, hspad]; rfl
  have hholds : waitHolds s { a with turnedAway := false } p = true := by
    simp only [waitHolds, hkind, hread, decide_eq_true hreached]
  have hcounts (vd : Nat) (locs : List Nat) : s.countUe vd locs = s := by
    rw [State.countUe, State.meets, hue, hce]; rfl
  obtain ⟨hgone, hthread, hk, hmem, -⟩ := h.partDone
  refine ⟨_, congrArg Host.Outcome.next ((h.present haway hpick).trans (if_pos hholds)), ?_⟩
  simp only [hkind, performWait, hread, hcounts]
  have hdone : s.partDone gc { a with kind := .waitge r, turnedAway := false } p.lane = s.partDone gc a p.lane := rfl
  rw [hdone]
  generalize s.partDone gc a p.lane = u at *
  have hwait' : (u.thread a.tid).wait = .waitge a.id none false := by rw [hthread]; exact hwait
  refine ⟨fun b => ?_, (modThread_mem _ _ _).trans hmem, ?_⟩
  · rw [State.core, modThread_cores]; exact hgone b
  · rw [modThread_thread hk]
    · simp only [hwait', bne_self_eq_false, Bool.false_eq_true, if_false]
    · simp only [hwait', bne_self_eq_false, Bool.false_eq_true, if_false]

end

/-! ### Gathers -/

theorem InPort.gathers {s : State} {gc : Nat} {a : Access} {p : Part} {post : List Access} (h : InPort s gc a p [] post)
    (hkind : a.kind = .gath) (hlinks : ∀ e ∈ s.pkgs, e.2.linksDown = []) (hue : s.ue = []) (hce : s.ce = []) (hlost : isLost p.loc = false) :
    Completes (.gatherEngineServe gc a.id) s fun t => (∀ b, b ∈ (t.core gc).port ↔ b ∈ [] ++ post) ∧ t.mem = s.mem ∧
      (t.thread a.tid).buf = (s.thread a.tid).buf.map fun e => if e.id = a.id then
        { e with writes := e.writes.map (putResult a p (ofBytes (memReadN s.mem p.loc p.len)) 0),
                 form := e.form.take p (ofBytes (memReadN s.mem p.loc p.len)), done := true } else e := by
  have hreached : reachedParts s gc a = a := by
    simp only [reachedParts, reached_linked hlinks, List.map_id']
  have hbefore : beforeOf (s.core gc).port a = [] := by
    rw [beforeOf, h.port, List.nil_append, List.takeWhile_cons_of_neg (by simp)]
  have hfwd : fwd [] p.loc p.len = .home := by
    have hhome (loc : Nat) : fwdByte [] loc = .home := rfl
    exact if_pos (by simp [hhome])
  have hbad : s.bad p.loc p.len = false := by simp [State.bad, hlost, hue]
  obtain ⟨hgone, hthread, -, hmem, -⟩ := h.modThread_partDone fun t =>
    t.modEntry a.id (takenEntry a p (ofBytes (memReadN s.mem p.loc p.len)) 0)
  have hexec : exec (.gatherEngineServe gc a.id) s = .next ((s.modThread a.tid fun t =>
      t.modEntry a.id (takenEntry a p (ofBytes (memReadN s.mem p.loc p.len)) 0)).partDone gc a p.lane) := by
    change execGatherEngineServe gc a.id s = _
    have hserve : serveGather s gc a p = readHome s gc a p := by
      rw [serveGather, hbefore, hfwd]; rfl
    simp only [execGatherEngineServe, h.find (pick := fun b => b.kind == .gath) (by rw [hkind]; rfl), hreached]
    split
    · next hnone => rw [h.parts] at hnone; cases hnone
    · next q qs hparts =>
      rw [h.parts] at hparts
      obtain ⟨rfl, -⟩ := List.cons.inj hparts
      rw [hserve, readHome, readLoc_some hbad, metBy_sound hbad hce]
      rfl
  refine ⟨_, hexec, hgone, hmem.trans (modThread_mem _ _ _), ?_⟩
  rw [hthread, modThread_thread h.keyed rfl, modEntry_modEntry (f := takenEntry a p _ 0) _ _ fun _ => rfl]
  rfl

/-- Settles O42: the entries into the handler, the double fault, and the requests of a port, each by its own rule. -/
theorem asynchronousCausesAndWaits : Obligations.AsynchronousCausesAndWaits := by
  unfold Obligations.AsynchronousCausesAndWaits
  refine ⟨fun id p rest k s hk => ?_, fun id k s hk => ?_, fun gc a p pre post limit r s hport hids hk hparts => ?_⟩
  · intro x enters hst hbuf htvec hhm hland hwait
    have henters {t : State} {code : Nat} {tval : Word} (h : EntersAsync x (t.thread id) code tval) (hmem : t.mem = s.mem) :
        enters t code tval :=
      ⟨h.mode, h.cause, h.value, h.saved, h.head, h.scalars, h.vectors, h.predicates, h.unparked, hmem⟩
    refine ⟨fun hpend hdelivers hstores hcode => ?_, fun hpark hlimit hlasted hover => ?_⟩
    · exact (asyncCauseDelivery_enters hk hst hbuf htvec hhm hland hwait hpend hdelivers hstores hcode).imp
        fun t ⟨h, hpend, hmem⟩ => ⟨henters h hmem, hpend⟩
    · exact (parklong_enters hk hst hbuf htvec hhm hland hwait hpark hlimit hlasted hover).imp
        fun t ⟨h, hpend, hmem⟩ => ⟨henters h hmem, hpend⟩
  · exact fun hst hhm hpark hlimit hlasted hover => parklong_doubleFault hk hst hhm hpark hlimit hlasted hover
  · have h : InPort s gc a p pre post := ⟨hport, hids, hk, hparts⟩
    refine ⟨fun hwaiting hkind hlimit hne hretries => ?_, h.waitge_abandoned, h.represented, h.reread, ?_⟩
    · subst hlimit
      exact h.abandoned hwaiting hkind hne hretries
    · rintro hkind rfl hlinks hue hce hlost
      exact h.gathers hkind hlinks hue hce hlost

end Sys2Proof.Machine
end

section
/-! SUPPORT. The registers of queues and event rings (R394, R420 to R422). -/

namespace Sys2Proof.Machine

/-! ### Queues -/

theorem hasQueue_lt {s : State} {fn q : Nat} (h : hasQueue s fn q = true) : q < 8 := by
  rw [hasQueue, Bool.and_eq_true, decide_eq_true_eq] at h
  split at h <;> omega

theorem registerWrite_queue (s : State) (fn : Nat) {off : Nat} (hlo : 0x100 ≤ off) (hhi : off < 0x200) (w : Word) :
    exec (.registerWrite fn off w) s = .next (queueReg fn off w s) := by
  change execRegisterWrite fn off w s = _
  rw [execRegisterWrite, if_pos (by simp [hlo, hhi])]

section
variable {s : State} {fn q : Nat} (h : hasQueue s fn q = true)
include h

theorem doorbell_within {val : Nat} (hval : val < 2 ^ (s.queue fn q).log) : Completes (.doorbell fn q val) s fun t =>
    SetsQueue s t fn q { s.queue fn q with tail := val } := by
  refine ⟨s.modQueue fn q fun x => { x with tail := val }, ?_, modQueue_setsQueue s (hasQueue_lt h) _⟩
  change execDoorbell fn q val s = _
  have hsize : ¬ (s.queue fn q).size ≤ val := by rw [Queue.size]; omega
  simp only [execDoorbell, h, Bool.not_true, Bool.false_eq_true, if_false, if_neg hsize]

theorem doorbell_beyond {val : Nat} (hval : 2 ^ (s.queue fn q).log ≤ val) : Completes (.doorbell fn q val) s fun t =>
    ∃ u, SetsQueue s u fn q { s.queue fn q with err := true } ∧ t = postRefusal u fn 0 7 0 := by
  refine ⟨_, ?_, s.modQueue fn q fun x => { x with err := true }, modQueue_setsQueue s (hasQueue_lt h) _, rfl⟩
  change execDoorbell fn q val s = _
  have hsize : (s.queue fn q).size ≤ val := hval
  simp only [execDoorbell, h, Bool.not_true, Bool.false_eq_true, if_false, if_pos hsize]

theorem qctlEn_sets (en : Bool) : Completes (.qctlEn fn q en) s fun t => SetsQueue s t fn q { s.queue fn q with en := en } :=
  ⟨_, congrArg Host.Outcome.next (if_pos h), modQueue_setsQueue s (hasQueue_lt h) _⟩

theorem qctlRst_empties (hen : (s.queue fn q).en = false) : Completes (.qctlRst fn q) s fun t => t.mem = s.mem ∧
    t = { s with fns := t.fns, teams := t.teams } ∧
    t.queue fn q = { s.queue fn q with head := 0, tail := 0, err := false, waiting := none, front := [] } ∧
    ∀ k, k ≠ q → t.queue fn k = s.queue fn k := by
  have hset := modQueue_setsQueue (fn := fn) s (hasQueue_lt h) fun x =>
    { x with head := 0, tail := 0, err := false, waiting := none, front := [] }
  refine ⟨_, congrArg Host.Outcome.next (if_neg ?_), rfl, rfl, hset.value, hset.queues⟩
  rw [h, hen]; exact Bool.false_ne_true

theorem queueReg_disabled (hen : (s.queue fn q).en = false) (at_ : Nat) (hat : at_ < 32) (w : Word) :
    queueReg fn (0x100 + 32 * q + at_) w s = s.modQueue fn q fun x =>
      if at_ = 0 then { x with base := field w 51 12 * 4096 } else if at_ = 8 then { x with log := logOf w } else x := by
  have hq : (0x100 + 32 * q + at_ - 0x100) / 32 = q := by omega
  have ho : (0x100 + 32 * q + at_ - 0x100) % 32 = at_ := by omega
  simp only [queueReg, hq, ho, h, hen, Bool.not_true, Bool.or_false, Bool.false_eq_true, if_false]

theorem qbase_sets (hen : (s.queue fn q).en = false) (w : Word) : Completes (.registerWrite fn (0x100 + 32 * q) w) s fun t =>
    SetsQueue s t fn q { s.queue fn q with base := w.toNat / 2 ^ 12 % 2 ^ 40 * 2 ^ 12 } := by
  have hq := hasQueue_lt h
  have hset := modQueue_setsQueue (fn := fn) s hq fun x => { x with base := field w 51 12 * 4096 }
  refine ⟨_, (registerWrite_queue s fn (by omega) (by omega) w).trans (congrArg Host.Outcome.next ?_), hset⟩
  exact (queueReg_disabled h hen 0 (by omega) w).trans (by simp only [if_true])

theorem qsize_sets (hen : (s.queue fn q).en = false) (w : Word) : Completes (.registerWrite fn (0x108 + 32 * q) w) s fun t =>
    SetsQueue s t fn q { s.queue fn q with log := if 6 ≤ w.toNat % 32 ∧ w.toNat % 32 ≤ 16 then w.toNat % 32 else 6 } := by
  have hq := hasQueue_lt h
  have hlog : logOf w = if 6 ≤ w.toNat % 32 ∧ w.toNat % 32 ≤ 16 then w.toNat % 32 else 6 := by
    simp [logOf, field, fieldN]
  have hset := modQueue_setsQueue (fn := fn) s hq fun x => { x with log := logOf w }
  rw [hlog] at hset
  have hoff : 0x108 + 32 * q = 0x100 + 32 * q + 8 := by omega
  rw [hoff]
  refine ⟨_, (registerWrite_queue s fn (by omega) (by omega) w).trans (congrArg Host.Outcome.next ?_), hset⟩
  rw [queueReg_disabled h hen 8 (by omega) w, hlog]
  simp

theorem qbase_enabled (hen : (s.queue fn q).en = true) (w : Word) :
    Completes (.registerWrite fn (0x100 + 32 * q) w) s fun t => t = s := by
  have hq := hasQueue_lt h
  have hidx : (0x100 + 32 * q - 0x100) / 32 = q := by omega
  refine ⟨s, (registerWrite_queue s fn (by omega) (by omega) w).trans ?_, rfl⟩
  simp only [queueReg, hidx, h, hen, Bool.not_true, Bool.or_true, if_true]

theorem queue_reads {at_ : Nat} (hat : at_ < 32) (h8 : at_ % 8 = 0) : registerRead s fn (0x100 + 32 * q + at_) = queueWord (s.queue fn q) at_ := by
  have hq := hasQueue_lt h
  have hidx : (0x100 + 32 * q + at_ - 0x100) / 32 = q := by omega
  have ho : (0x100 + 32 * q + at_ - 0x100) % 32 = at_ := by omega
  have hmod : (0x100 + 32 * q + at_) % 8 = 0 := by omega
  have hexists : fnExists s fn = true := by rw [hasQueue, Bool.and_eq_true] at h; exact h.1
  have hin : (0x100 ≤ 0x100 + 32 * q + at_ && 0x100 + 32 * q + at_ < 0x200) = true := by simp; omega
  simp only [registerRead, hexists, hmod, hin, hidx, ho, h, if_true]
  rfl

/-! ### Entries at the head of a queue -/

section
variable {e : List Byte} (hhead : headEntry s fn q = some e) (hfront : (s.queue fn q).front = [])
include hhead hfront

theorem launchEntry_malformed (hok : entryOk fn e = false) : Completes (.launchEntry fn q) s fun t =>
    ∃ u, SetsQueue s u fn q (s.queue fn q).passed ∧ t = postRefusal u fn 0 7 (if entType e = 1 then numAt e 8 8 else 0) := by
  refine ⟨_, ?_, s.passHead fn q, passHead_setsQueue s (hasQueue_lt h), rfl⟩
  change execLaunchEntry fn q s = _
  simp only [execLaunchEntry, hhead, hfront, hok, List.isEmpty_nil, Bool.not_true, Bool.not_false, Bool.false_eq_true, if_false, if_true,
    refusedInfo]

theorem launchEntry_dead (hok : entryOk fn e = true) (htype : entType e = 1) (hdead : depDead s (vkOfFn fn % 16) (entDep e) = true) :
    Completes (.launchEntry fn q) s fun t =>
      ∃ u, SetsQueue s u fn q (s.queue fn q).passed ∧ t = postRefusal u fn 0 9 (numAt e 8 8) := by
  refine ⟨_, ?_, s.passHead fn q, passHead_setsQueue s (hasQueue_lt h), rfl⟩
  change execLaunchEntry fn q s = _
  simp only [execLaunchEntry, hhead, hfront, hok, htype, hdead, List.isEmpty_nil, Bool.not_true, Bool.false_eq_true, if_false,
    decide_true, Bool.and_self, if_true]

end

end

theorem launchEntry_stays {s : State} {fn q : Nat} {e : List Byte} (hhead : headEntry s fn q = some e)
    (hfront : (s.queue fn q).front = []) (hok : entryOk fn e = true) (hdead : depDead s (vkOfFn fn % 16) (entDep e) = false) :
    Completes (.launchEntry fn q) s fun t => t = s := by
  refine ⟨s, ?_, rfl⟩
  change execLaunchEntry fn q s = _
  simp only [execLaunchEntry, hhead, hfront, hok, hdead, List.isEmpty_nil, Bool.not_true, Bool.false_eq_true, if_false, Bool.and_false]

/-! ### The launch rates of a VD -/

theorem modVd_setsVd (s : State) (vk : Nat) (f : Vd → Vd) : SetsVd s (s.modVd vk f) vk (f (s.vd vk)) where
  value := by rw [State.vd, State.modVd_vds, tblGet_put, if_pos rfl]
  others k hk := by rw [State.vd, State.modVd_vds, tblGet_put, if_neg hk]; rfl
  world := rfl

theorem lrate_sets {s : State} {fn vd : Nat} (hfn : fn % 32 = 0) (hvd : vd < 16) (his : (s.vd (vdKey (fn / 32) vd)).isVd = true) (w : Word) :
    Completes (.registerWrite fn (0x10010 + 0x1000 * vd) w) s fun t => SetsVd s t (vdKey (fn / 32) vd)
      { (s.vd (vdKey (fn / 32) vd)).refill (s.time (fn / 32)) with lrate := w } := by
  have hvk : (0x10010 + 0x1000 * vd - 0x10000) / 0x1000 = vd := by omega
  have hpkg : vdKey (fn / 32) vd / 16 = fn / 32 := by rw [vdKey]; omega
  have hpf : isPf fn = true := by rw [isPf, hfn]; rfl
  have hqueue : ¬ (0x100 ≤ 0x10010 + 0x1000 * vd && 0x10010 + 0x1000 * vd < 0x200) = true := by simp; omega
  have hring : ¬ (0x400 ≤ 0x10010 + 0x1000 * vd && 0x10010 + 0x1000 * vd < 0x480) = true := by simp; omega
  have hblock : (isPf fn && 0x10000 ≤ 0x10010 + 0x1000 * vd && 0x10010 + 0x1000 * vd < 0x20000 &&
      (0x10010 + 0x1000 * vd) % 0x1000 = 0x10) = true := by
    rw [hpf]; simp; omega
  have hset := modVd_setsVd s (vdKey (fn / 32) vd) fun v => { v.refill (s.time (fn / 32)) with lrate := w }
  refine ⟨_, ?_, hset⟩
  change execRegisterWrite fn _ w s = _
  rw [execRegisterWrite, if_neg hqueue, if_neg hring, if_pos hblock, hvk, lrateReg, if_pos his, hpkg]

end Sys2Proof.Machine
end

section
/-! SUPPORT. Event rings: posting, draining and their registers (R353, R422). -/

namespace Sys2Proof.Machine

theorem setRing_setsRing {s : State} {fn r : Nat} {g : Ring} (hg : (s.fn fn).rings[r]? = some g) (x : Ring) :
    SetsRing s (s.modFn fn fun f => { f with rings := f.rings.setIfInBounds r x }) fn r x := by
  have hr : r < 2 := by
    by_contra h
    rw [Vector.getElem?_eq_none (by omega)] at hg
    cases hg
  have hfn : ∀ k, (s.modFn fn fun f => { f with rings := f.rings.setIfInBounds r x }).fn k =
      if k = fn then { s.fn fn with rings := (s.fn fn).rings.setIfInBounds r x } else s.fn k := fun k => tblGet_put ..
  have hself := (hfn fn).trans (if_pos rfl)
  refine ⟨?_, fun k hk => ?_, ⟨by rw [hself], by rw [hself]⟩, fun k hk => (hfn k).trans (if_neg hk), rfl⟩
  · rw [hself, Vector.getElem?_setIfInBounds_self_of_lt hr]
  · rw [hself, Vector.getElem?_setIfInBounds_ne (Ne.symm hk)]

theorem modRing_setsRing {s : State} {fn r : Nat} {g : Ring} (hg : (s.fn fn).rings[r]? = some g) (f : Ring → Ring) :
    SetsRing s (s.modRing fn r f) fn r (f g) := by
  have heq : s.modRing fn r f = s.modFn fn fun x => { x with rings := x.rings.setIfInBounds r (f g) } := by
    rw [State.modRing, State.modFn, State.modFn, hg]; rfl
  rw [heq]; exact setRing_setsRing hg _

theorem SetsRing.trans {s t u : State} {fn r : Nat} {x y : Ring} (h1 : SetsRing s t fn r x) (h2 : SetsRing t u fn r y) :
    SetsRing s u fn r y where
  value := h2.value
  rings k hk := (h2.rings k hk).trans (h1.rings k hk)
  kept := ⟨h2.kept.1.trans h1.kept.1, h2.kept.2.trans h1.kept.2⟩
  others k hk := (h2.others k hk).trans (h1.others k hk)
  world := by
    have hu := h2.world
    rw [h1.world] at hu
    exact hu

/-- A ring after one record has been written: SEQ and ETAIL step, and the vector is raised unless it is masked. -/
def Ring.wrote (g : Ring) : Ring :=
  { g with seq := g.seq + 1, etail := (g.etail + 1) % 2 ^ g.log, raised := if g.mask = true then g.raised else g.raised + 1 }

/-- A ring that cannot write a record: it holds it, or drops and counts it. -/
def Ring.kept (g : Ring) (rec_ : List Byte) : Ring :=
  if g.hold.length < 256 then { g with hold := g.hold ++ [rec_] }
  else { g with lost := min (g.lost + 1) 0xFFFF, dropped := g.dropped + 1 }

/-- The bytes of a record as they stand in its slot. -/
def Ring.recordBytes (g : Ring) (rec_ : List Byte) : List Byte := rec_ ++ toBytes 8 (g.seq + 1) ++ toBytes 8 0

section
variable {s : State} {fn r : Nat} {g : Ring} (hg : (s.fn fn).rings[r]? = some g)
include hg

theorem ringWrite_writes (rec_ : List Byte) : SetsRing s (ringWrite s fn r rec_) fn r g.wrote ∧
    StoresBytes s (ringWrite s fn r rec_) (hostLoc fn (g.base + 64 * g.etail)) (g.recordBytes rec_) := by
  let u : State := { s with mem := memWriteN s.mem (hostLoc fn (g.base + 64 * g.etail)) (g.recordBytes rec_) }
  have hu : SetsRing s u fn r g := ⟨hg, fun _ _ => rfl, ⟨rfl, rfl⟩, fun _ _ => rfl, rfl⟩
  have hset := setRing_setsRing (s := u) hg g.wrote
  have heq : ringWrite s fn r rec_ = u.modFn fn fun f => { f with rings := f.rings.setIfInBounds r g.wrote } := by
    rw [ringWrite]; simp only [hg]; rfl
  rw [heq]
  exact ⟨hu.trans hset, fun x => memRead_writeN ..⟩

theorem ringPost_writes (hen : g.en = true) (hroom : g.isFull = false) (hhold : g.hold = []) (rec_ : List Byte) :
    SetsRing s (ringPost s fn r rec_) fn r g.wrote ∧
    StoresBytes s (ringPost s fn r rec_) (hostLoc fn (g.base + 64 * g.etail)) (g.recordBytes rec_) := by
  have heq : ringPost s fn r rec_ = ringWrite s fn r rec_ := by
    rw [ringPost]; simp only [hg, hen, hroom, hhold, Bool.not_false, List.isEmpty_nil, Bool.and_self, if_true]
  rw [heq]; exact ringWrite_writes hg rec_

theorem ringPost_keeps (hfull : g.en = false ∨ g.isFull = true ∨ g.hold ≠ []) (rec_ : List Byte) :
    (ringPost s fn r rec_).mem = s.mem ∧ SetsRing s (ringPost s fn r rec_) fn r (g.kept rec_) := by
  have hno : ¬ (g.en && !g.isFull && g.hold.isEmpty) = true := by
    rw [Bool.and_eq_true, Bool.and_eq_true, Bool.not_eq_true', List.isEmpty_iff]
    rintro ⟨⟨hen, hroom⟩, hhold⟩
    obtain h | h | h := hfull
    · exact absurd (hen.symm.trans h) (by decide)
    · exact absurd (hroom.symm.trans h) (by decide)
    · exact h hhold
  have heq : ringPost s fn r rec_ = s.modFn fn fun f => { f with rings := f.rings.setIfInBounds r (g.kept rec_) } := by
    rw [ringPost]; simp only [hg]; rw [if_neg hno]; rfl
  rw [heq]
  exact ⟨rfl, setRing_setsRing hg _⟩

theorem eheadWrite_sets (hhas : hasRing s fn r = true) (w : Word) :
    Completes (.eheadWrite fn r w) s fun t => SetsRing s t fn r { g with ehead := w.toNat % 2 ^ 16 } ∧ t.mem = s.mem := by
  have hset := modRing_setsRing hg fun g => { g with ehead := field w 15 0 }
  have hfield : field w 15 0 = w.toNat % 2 ^ 16 := by simp [field, fieldN]
  rw [hfield] at hset
  refine ⟨_, congrArg Host.Outcome.next (if_pos hhas), ?_⟩
  rw [hfield]
  exact ⟨hset, rfl⟩

theorem ectlWrite_sets (hhas : hasRing s fn r = true) (w : Word) : Completes (.ectlWrite fn r w) s fun t => t.mem = s.mem ∧
    SetsRing s t fn r (if w.getLsbD 0 = true ∧ g.en = false
      then { g with mask := w.getLsbD 1, en := true, seq := 0, lost := 0 }
      else { g with mask := w.getLsbD 1, en := w.getLsbD 0 }) := by
  have hset := modRing_setsRing hg fun x =>
    if bitOf w 0 && !(((s.fn fn).rings[r]?).getD Ring.blank).en
      then { x with mask := bitOf w 1, en := bitOf w 0, seq := 0, lost := 0 }
      else { x with mask := bitOf w 1, en := bitOf w 0 }
  refine ⟨_, congrArg Host.Outcome.next (if_neg (by rw [hhas]; exact Bool.false_ne_true)), rfl, ?_⟩
  have hvalue : (if (bitOf w 0 && !(((s.fn fn).rings[r]?).getD Ring.blank).en) = true
        then { g with mask := bitOf w 1, en := bitOf w 0, seq := 0, lost := 0 }
        else { g with mask := bitOf w 1, en := bitOf w 0 }) =
      if w.getLsbD 0 = true ∧ g.en = false then { g with mask := w.getLsbD 1, en := true, seq := 0, lost := 0 }
      else { g with mask := w.getLsbD 1, en := w.getLsbD 0 } := by
    rw [hg, Option.getD_some]
    cases h0 : w.getLsbD 0 <;> cases hen : g.en <;> simp only [bitOf, h0] <;> rfl
  rw [← hvalue]
  exact hset

end

/-! ### Draining -/

/-- A ring after `n` of the records that it holds have been written. -/
def Ring.drained (g : Ring) (n : Nat) : Ring :=
  { g with seq := g.seq + n, etail := (g.etail + n) % 2 ^ g.log, hold := g.hold.drop n,
           raised := if g.mask = true then g.raised else g.raised + n }

/-- A drain writes nothing more: nothing is held, or there is no room. -/
def Ring.Stuck (g : Ring) : Prop := g.hold = [] ∨ g.isFull = true

section
variable {s : State} {fn r : Nat} {g : Ring} (hg : (s.fn fn).rings[r]? = some g) (hdrop : g.dropped = 0)
include hg hdrop

theorem drainOne_stuck (hstuck : g.Stuck) : drainOne fn r s = s := by
  rw [drainOne]
  simp only [hg, hdrop]
  obtain h | h := hstuck
  · rw [h]; split <;> rfl
  · rw [h, Bool.or_true, if_pos rfl]

theorem drainOne_writes (hen : g.en = true) (hroom : g.isFull = false) {x : List Byte} {rest : List (List Byte)}
    (hhold : g.hold = x :: rest) : SetsRing s (drainOne fn r s) fn r { g with hold := rest }.wrote ∧
      StoresBytes s (drainOne fn r s) (hostLoc fn (g.base + 64 * g.etail)) (g.recordBytes x) := by
  have heq : drainOne fn r s = ringWrite (s.modRing fn r fun g => { g with hold := rest }) fn r x := by
    rw [drainOne]
    simp only [hg, hdrop, hen, hroom, hhold, Bool.not_true, Bool.or_false, Bool.false_eq_true, if_false, bne_self_eq_false]
  have hset := modRing_setsRing hg fun g => { g with hold := rest }
  obtain ⟨hwrote, hstores⟩ := ringWrite_writes hset.value x
  rw [heq]
  exact ⟨hset.trans hwrote, hstores⟩

end

/-- Where a drain of the ring `g` stands after some steps: `n` records written, or as it was. -/
def Drained (s t : State) (fn r : Nat) (g : Ring) (n : Nat) : Prop :=
  n = 0 ∧ t = s ∨ n ≤ g.hold.length ∧ SetsRing s t fn r (g.drained n)

theorem Ring.wrote_drained {g : Ring} {n : Nat} :
    { g.drained n with hold := g.hold.drop (n + 1) }.wrote = g.drained (n + 1) := by
  cases hm : g.mask <;> simp [Ring.wrote, Ring.drained, hm, Nat.add_assoc]

theorem Ring.wrote_first {g : Ring} : { g with hold := g.hold.drop 1 }.wrote = g.drained 1 := by
  cases hm : g.mask <;> simp [Ring.wrote, Ring.drained, hm]

section
variable {s : State} {fn r : Nat} {g : Ring} (hg : (s.fn fn).rings[r]? = some g) (hdrop : g.dropped = 0) (hen : g.en = true)
include hg hdrop hen

/-- After `k` steps of a drain, `k` records are written or the drain is stuck. -/
theorem drain_steps (k : Nat) : ∃ n g', (((List.range k).foldl (fun s _ => drainOne fn r s) s).fn fn).rings[r]? = some g' ∧
    Drained s ((List.range k).foldl (fun s _ => drainOne fn r s) s) fn r g n ∧ (g' = if n = 0 then g else g.drained n) ∧
    (n = k ∨ g'.Stuck) := by
  induction k with
  | zero => exact ⟨0, g, hg, .inl ⟨rfl, rfl⟩, rfl, .inl rfl⟩
  | succ k ih =>
    obtain ⟨n, g', hg', hdrained, hvalue, hk⟩ := ih
    rw [List.range_succ, List.foldl_append, List.foldl_cons, List.foldl_nil]
    generalize (List.range k).foldl (fun s _ => drainOne fn r s) s = t at hg' hdrained ⊢
    have hdrop' : g'.dropped = 0 := by rw [hvalue]; split <;> exact hdrop
    have hen' : g'.en = true := by rw [hvalue]; split <;> exact hen
    by_cases hstuck : g'.Stuck
    · rw [drainOne_stuck hg' hdrop' hstuck]
      exact ⟨n, g', hg', hdrained, hvalue, .inr hstuck⟩
    · obtain rfl := hk.resolve_right hstuck
      rw [Ring.Stuck, not_or, Bool.not_eq_true] at hstuck
      obtain ⟨hne, hroom⟩ := hstuck
      obtain ⟨x, rest, hhold⟩ := List.exists_cons_of_ne_nil hne
      have hnext := (drainOne_writes hg' hdrop' hen' hroom hhold).1
      have hholdg : g'.hold = g.hold.drop n := by
        rw [hvalue]; split
        · rename_i h0; rw [h0, List.drop_zero]
        · rfl
      have hlen : n + 1 ≤ g.hold.length := by
        have := congrArg List.length (hholdg.symm.trans hhold)
        rw [List.length_drop, List.length_cons] at this
        omega
      have hrest : rest = g.hold.drop (n + 1) := by
        rw [← List.drop_drop, ← hholdg, hhold]; rfl
      have hwrote : { g' with hold := rest }.wrote = g.drained (n + 1) := by
        rw [hrest, hvalue]; split
        · rename_i h0; rw [h0]; exact Ring.wrote_first
        · exact Ring.wrote_drained
      rw [hwrote] at hnext
      refine ⟨n + 1, g.drained (n + 1), hnext.value, .inr ⟨hlen, ?_⟩, (if_neg (Nat.succ_ne_zero n)).symm, .inl rfl⟩
      obtain ⟨-, rfl⟩ | ⟨-, hset⟩ := hdrained
      · exact hnext
      · exact hset.trans hnext

theorem eventRingDrain_drains : Completes (.eventRingDrain fn r) s fun t =>
    (∀ g', (t.fn fn).rings[r]? = some g' → g'.Stuck) ∧ ∃ n, Drained s t fn r g n := by
  obtain ⟨n, g', hg', hdrained, hvalue, hk⟩ := drain_steps hg hdrop hen (g.hold.length + 1)
  have hexec : exec (.eventRingDrain fn r) s =
      .next ((List.range (g.hold.length + 1)).foldl (fun s _ => drainOne fn r s) s) := by
    change execEventRingDrain fn r s = _
    rw [execEventRingDrain]; simp only [hg]
  refine ⟨_, hexec, fun x hx => ?_, n, hdrained⟩
  obtain rfl := Option.some.inj (hg'.symm.trans hx)
  refine hk.resolve_left fun hn => ?_
  obtain ⟨h0, -⟩ | ⟨hle, -⟩ := hdrained <;> omega

theorem eventRingDrain_one {rec_ : List Byte} (hhold : g.hold = [rec_]) (hroom : g.isFull = false) :
    Completes (.eventRingDrain fn r) s fun t => SetsRing s t fn r { g with hold := [] }.wrote ∧
      StoresBytes s t (hostLoc fn (g.base + 64 * g.etail)) (g.recordBytes rec_) := by
  obtain ⟨hset, hstores⟩ := drainOne_writes hg hdrop hen hroom hhold
  have hexec : exec (.eventRingDrain fn r) s = .next (drainOne fn r s) := by
    change execEventRingDrain fn r s = _
    rw [execEventRingDrain]; simp only [hg, hhold]
    exact congrArg Host.Outcome.next (drainOne_stuck hset.value hdrop (.inl rfl))
  exact ⟨_, hexec, hset, hstores⟩

end

theorem Ring.isFull_iff {g : Ring} : g.isFull = true ↔ (g.etail + 1) % 2 ^ g.log = g.ehead := by
  rw [Ring.isFull, beq_iff_eq, Ring.size]

/-- Settles O43: the registers and entries of a queue by its equations, a ring by the state of its drain after each step. -/
theorem queuesAndRings : Obligations.QueuesAndRings := by
  unfold Obligations.QueuesAndRings
  refine ⟨fun fn q val vd en w e s h => ?_, fun fn r w rec_ rest g s hg => ?_⟩
  · refine ⟨doorbell_within h, doorbell_beyond h, qctlEn_sets h en, qctlRst_empties h, fun hen => ⟨qbase_sets h hen w, qsize_sets h hen w⟩,
      fun hen => qbase_enabled h hen w, fun _ => ?_, fun hfn hvd his => lrate_sets hfn hvd his w, fun hhead hfront => ?_⟩
    · refine ⟨queue_reads h (at_ := 0) (by decide) (by decide), ?_, ?_, ?_⟩
      · rw [show 0x108 + 32 * q = 0x100 + 32 * q + 8 by omega]; exact queue_reads h (by decide) (by decide)
      · rw [show 0x110 + 32 * q = 0x100 + 32 * q + 16 by omega]; exact queue_reads h (by decide) (by decide)
      · rw [show 0x118 + 32 * q = 0x100 + 32 * q + 24 by omega]; exact queue_reads h (by decide) (by decide)
    · exact ⟨launchEntry_malformed h hhead hfront, launchEntry_dead h hhead hfront,
        fun hok _ hdead => launchEntry_stays hhead hfront hok hdead⟩
  · have hnotFull : ¬ (g.etail + 1) % 2 ^ g.log = g.ehead → g.isFull = false := fun h =>
      Bool.eq_false_iff.2 (mt Ring.isFull_iff.1 h)
    refine ⟨fun hen hroom hhold => ?_, fun hkeep => ?_, fun hhas => ⟨eheadWrite_sets hg hhas w, ectlWrite_sets hg hhas w⟩,
      fun hdrop hen => ⟨fun hhold hroom => eventRingDrain_one hg hdrop hen hhold (hnotFull hroom), fun _ => ?_⟩⟩
    · obtain ⟨hset, hstores⟩ := ringPost_writes hg hen (hnotFull hroom) hhold rec_
      rw [show g.wrote = { g.wrote with hold := [] } by rw [Ring.wrote, hhold]] at hset
      exact ⟨hset, hstores⟩
    · obtain ⟨hmem, hset⟩ := ringPost_keeps hg (hkeep.imp_right (Or.imp_left Ring.isFull_iff.2)) rec_
      rw [Ring.kept] at hset
      refine ⟨hmem, fun hlt => ?_, fun hge => ?_⟩
      · rwa [if_pos hlt] at hset
      · rwa [if_neg (Nat.not_lt.2 hge)] at hset
    · obtain ⟨t, hexec, hstuck, n, hdrained⟩ := eventRingDrain_drains hg hdrop hen
      refine ⟨t, hexec, fun g' hg' => (hstuck g' hg').imp_right Ring.isFull_iff.1, ?_⟩
      obtain ⟨-, hsame⟩ | ⟨hle, hset⟩ := hdrained
      · exact .inl hsame
      · exact .inr ⟨n, hle, hset⟩

end Sys2Proof.Machine
end

section
/-! SUPPORT. A discard of a team whose threads stand under other numbers: the statement on discards fails there (R364, R426). -/

namespace Sys2Proof.Machine

/-- A bound team of threads 0 and 1 that is discarded without reposting. -/
def discardedTeam : Team :=
  { newTeam 0 1 0 [] with st := .bound, inRing := false, seats := [⟨0, 0, 0⟩, ⟨1, 0, 1⟩],
                          pre := some ⟨0, 0, 0, 0, 0, 5, false, false, none⟩ }

/-- Under number 0 stands a thread that carries number 1, and whose slot has its next turn in cycle 7. -/
def swappedThreads : State :=
  { State.reset with thr := Thread.blank 100, threads := [(0, { Thread.blank 1 with nextTurn := 7 }), (1, Thread.blank 1)],
                     teams := [discardedTeam] }

/-- The thread's retirement writes its slot's next turn under number 1, where the release finds it. -/
theorem swappedThreads_discard {t : State} (h : exec (.discard 0 1) swappedThreads = .next t) : (t.thread 1).nextTurn = 7 := by
  cases h
  decide

/-- Refutes O47: the clauses on discards hold of every state, and where the table of threads is not keyed by their numbers
(`swappedThreads`) a slot does not keep its next turn. -/
theorem not_discardsAndSaves : ¬ Obligations.DiscardsAndSaves := by
  unfold Obligations.DiscardsAndSaves
  intro h
  obtain ⟨-, hdiscard, -⟩ := h 0 1 discardedTeam ⟨0, 0, 0, 0, 0, 5, false, false, none⟩ swappedThreads rfl rfl rfl (by decide) (by decide)
  obtain ⟨t, ht, hthreads, -⟩ := hdiscard rfl (by decide)
  have hturn := congrArg Thread.nextTurn (hthreads 1 (by decide))
  exact absurd ((swappedThreads_discard ht).symm.trans hturn) (by decide)

end Sys2Proof.Machine
end

section
/-! SUPPORT. A shadow that names another team, for whose thread an arrival is held: the statement on bindings fails there (R226, R367). -/

namespace Sys2Proof.Machine

/-- An arrival for register 1 of thread 0. -/
def heldForZero : Landing :=
  { tid := 0, reg := 1, vec := false, value := 0, cap := 0, src := 0, sender := (0, 7), window := (0, 7), own := true, refused := false,
    arr := 0 }

/-- A shadow of thread 0 that names team 2 of the VD. -/
def strayShadow : Thread := { Thread.blank 0 with st := .ready, team := 2 }

/-- A saved launch with one thread, whose shadow is `strayShadow`. -/
def resumedTeam : Team :=
  { newTeam 0 1 0 [] with inRing := false, places := [(0, 1, 1)], shadows := [strayShadow],
                          savedCores := [saveCore State.reset (newTeam 0 1 0 []) 0] }

/-- A bound team that still holds an arrival for thread 0. -/
def holdingTeam : Team := { newTeam 0 2 0 [] with st := .bound, inRing := false, heldLists := [(0, [heldForZero])] }

/-- The VD has one slot on core 0, and the saved launch has been selected. -/
def resumedState : State :=
  { State.reset with vds := [(0, { Vd.blank with isVd := true, ways := 1, slotMap := [(0, 1)] })], teams := [resumedTeam, holdingTeam] }

theorem resumedState_placed :
    placeCores resumedState 0 resumedTeam.pkgs.toNat (coreFree resumedState resumedTeam.vd) resumedTeam.places [] = some [[0]] := by
  decide

/-- The restored thread takes the arrival of the team that it names: its register 1 is full. -/
theorem resumedState_bind {t : State} (h : exec (.launchBind 0) resumedState = .next t) : (t.thread 0).sFull = 2 := by
  cases h
  decide

/-- Refutes O45: a shadow's registers stand as saved in every state where its own team holds no arrivals, says the statement, and
a shadow that names another team (`resumedState`) takes in what that team holds for it. -/
theorem not_launchesBindAndStart : ¬ Obligations.LaunchesBindAndStart := by
  unfold Obligations.LaunchesBindAndStart
  intro h
  obtain ⟨hbind, -⟩ := h 0 0 0 0 resumedTeam [[0]] 0 resumedState
  obtain ⟨-, hsaved⟩ := hbind rfl rfl rfl rfl rfl resumedState_placed (by decide)
  obtain ⟨t, ht, -, -, hshadows⟩ := hsaved rfl rfl
  obtain ⟨-, -, -, hfull, -⟩ := hshadows strayShadow (List.mem_singleton_self _)
    (fun x hx _ => List.mem_singleton.1 hx) (by decide)
  exact absurd ((resumedState_bind ht).symm.trans hfull) (by decide)

end Sys2Proof.Machine
end

section
/-! SUPPORT. A VD of package 2^20, whose DRAM stands at the locations of the trigger words: the statement on the host's writes fails there
(R280, R419). -/

namespace Sys2Proof.Machine

/-- The first VD of package 2^20. -/
def farVd : Nat := 2 ^ 20 * 16

/-- Its first table entry is a leaf of 2 MiB at physical address 0, which can be read and written. -/
def farState : State :=
  { State.reset with vds := [(farVd, { Vd.blank with isVd := true })],
                     mem := memWriteN [] (dramLoc (2 ^ 20) sysBase) (toBytes 8 (2 ^ 63 + 2 ^ 62 + 2 ^ 61 + 2 ^ 60)) }

/-- The window's first byte stands at location 2^58. -/
theorem farState_hdmAt : hdmAt farState farVd 0 = some (⟨true, true, true, false, false, 0⟩, 2 ^ 58) := by decide

/-- A write there changes nothing. -/
theorem farState_write {t : State} (h : exec (.hostHdmWrite farVd 0 [1]) farState = .next t) : memRead t.mem (2 ^ 58) = 0 := by
  cases h
  decide

/-- Refutes O48: every byte that the host writes reads back, says the statement of every VD, and DRAM of a package whose number is beyond
the part's (`farState`) shares its locations with the trigger words, which no write changes. -/
theorem not_hostEntriesAndAccesses : ¬ Obligations.HostEntriesAndAccesses := by
  unfold Obligations.HostEntriesAndAccesses
  rintro ⟨-, h⟩
  obtain ⟨hvd, -⟩ := h farVd 0 0 (2 ^ 58) 0 [1] 0 ⟨true, true, true, false, false, 0⟩ farState
  obtain ⟨hwrite, -⟩ := hvd rfl
  obtain ⟨hstores, -⟩ := hwrite (List.cons_ne_nil 1 []) (by decide) (.inl rfl)
  obtain ⟨t, ht, hbytes, -⟩ := hstores farState_hdmAt rfl (by decide) fun _ => rfl
  exact absurd ((farState_write ht).symm.trans (hbytes (2 ^ 58))) (by decide)

end Sys2Proof.Machine
end

section
/-! SUPPORT. Errors of code units: how the part counts and reports them, and what a scrub does with them (R443 to R445). -/

namespace Sys2Proof.Machine

/-- A unit is left bad. -/
def State.leaveBad (s : State) (u : Nat × Nat) : State :=
  { s with ce := s.ce.filter (fun x => x != u), ue := if s.ue.contains u then s.ue else s.ue ++ [u] }

/-- A unit's correction is written back. -/
def State.mend (s : State) (u : Nat × Nat) : State := { s with ce := s.ce.filter fun x => x != u }

section
variable {s : State} {pkg : Nat} {p : Pkg}

theorem postMemory_quiet {loc len : Nat} {ue : Bool}
    (h : (s.pkg pkg).rmode.getLsbD 1 = false ∨ ue = false ∧ tblGet (s.pkg pkg).corrections (loc / 4096) 0 < 16) :
    postMemory s pkg loc len ue = s := by
  rw [postMemory]
  obtain h | ⟨rfl, h⟩ := h
  · rw [h]; rfl
  · split
    · rfl
    · simp [h]

/-- A reported error, and the count that starts afresh. -/
theorem postMemory_posts {loc len : Nat} {ue : Bool} (hmode : (s.pkg pkg).rmode.getLsbD 1 = true)
    (h : ue = true ∨ 16 ≤ tblGet (s.pkg pkg).corrections (loc / 4096) 0) : postMemory s pkg loc len ue =
      (postOlush s pkg 0 22 (unitInfo s loc len + if ue then 2 ^ 61 else 0) (tblGet (s.pkg pkg).corrections (loc / 4096) 0)).modPkg pkg
        fun p => { p with corrections := tblDel p.corrections (loc / 4096) } := by
  have hno : ¬ (!ue && decide (tblGet (s.pkg pkg).corrections (loc / 4096) 0 < 16)) = true := by
    obtain rfl | h := h
    · exact Bool.false_ne_true
    · simp; omega
  rw [postMemory, hmode]
  simp only [Bool.not_true, Bool.false_eq_true, if_false]
  rw [if_neg hno]

/-- Reporting leaves the package's counts of errors as they are. -/
theorem postMemory_counts (s : State) (pkg loc len : Nat) (ue : Bool) : let t := postMemory s pkg loc len ue
    t.ue = s.ue ∧ t.ce = s.ce ∧ (t.pkg pkg).eccUe = (s.pkg pkg).eccUe ∧ (t.pkg pkg).eccCe = (s.pkg pkg).eccCe := by
  rw [postMemory]
  split
  · exact ⟨rfl, rfl, rfl, rfl⟩
  · dsimp only
    split
    · exact ⟨rfl, rfl, rfl, rfl⟩
    · rw [modPkg_pkg_same, postOlush_pkg]
      generalize unitInfo s loc len + (if ue = true then 2 ^ 61 else 0) = info
      rw [postOlush_world]
      exact ⟨rfl, rfl, rfl, rfl⟩

theorem countUnit_of_massif {loc len m : Nat} (hat : massifAt loc = some (pkg, m)) (t : State) (ue : Bool) :
    t.countUnit none loc len ue = postMemory (t.modPkg pkg fun x => x.countEcc m loc ue) pkg loc len ue := by
  rw [State.countUnit, hat]

theorem modPkg_of_pkgs (hp : tblFind s.pkgs pkg = some p) {t : State} (ht : t.pkgs = s.pkgs) (f : Pkg → Pkg) :
    (t.modPkg pkg f).pkg pkg = f p := by
  rw [modPkg_pkg_same]; exact congrArg f (pkg_of_find (ht ▸ hp))

section
variable {loc len m : Nat} (hp : tblFind s.pkgs pkg = some p) (hat : massifAt loc = some (pkg, m))
include hp hat

/-- An uncorrectable error: its unit is bad, the package has counted it, and the host is told in host-assisted mode. -/
theorem leaveBad_counts (hlen : 0 < len) : let bad := (s.leaveBad (loc, len)).modPkg pkg fun x => x.countEcc m loc true
    let t := (s.leaveBad (loc, len)).countUnit none loc len true
    t.bad loc len = true ∧ (loc, len) ∈ t.ue ∧ tblGet (t.pkg pkg).eccUe m 0 = min (tblGet p.eccUe m 0 + 1) 0xFFFF ∧
      if p.rmode.getLsbD 1 then Alarmed bad t pkg 0 22 (unitInfo bad loc len + 2 ^ 61) (tblGet p.corrections (loc / 4096) 0)
      else t = { s with ue := t.ue, ce := t.ce, pkgs := t.pkgs } := by
  intro bad
  rw [countUnit_of_massif hat]
  have hpkg : bad.pkg pkg = p.countEcc m loc true := modPkg_of_pkgs (t := s.leaveBad (loc, len)) hp rfl _
  obtain ⟨hue, -, heccUe, -⟩ := postMemory_counts bad pkg loc len true
  have hmem : (loc, len) ∈ bad.ue := by
    change (loc, len) ∈ if s.ue.contains (loc, len) then s.ue else s.ue ++ [(loc, len)]
    split
    · rename_i h; exact List.contains_iff_mem.1 h
    · exact List.mem_append_right _ (List.mem_singleton_self _)
  refine ⟨?_, hue ▸ hmem, ?_, ?_⟩
  · rw [State.bad, hue, Bool.or_eq_true]
    refine .inr (List.any_eq_true.2 ⟨_, hmem, ?_⟩)
    simp [overlaps, hlen]
  · rw [heccUe, hpkg]
    exact (tblGet_put ..).trans (if_pos rfl)
  · cases hmode : p.rmode.getLsbD 1 with
    | false =>
      rw [if_neg Bool.false_ne_true]
      have hquiet : postMemory bad pkg loc len true = bad := postMemory_quiet (.inl (by rw [hpkg]; exact hmode))
      rw [hquiet]
      rfl
    | true =>
      rw [if_pos rfl]
      have hcount : tblGet (bad.pkg pkg).corrections (loc / 4096) 0 = tblGet p.corrections (loc / 4096) 0 := by rw [hpkg]; rfl
      have hposts := postMemory_posts (s := bad) (len := len) (by rw [hpkg]; exact hmode) (loc := loc) (.inl rfl)
      rw [hcount, if_pos rfl] at hposts
      rw [hposts]
      exact ⟨rfl, rfl⟩

/-- A correction: its unit is mended, the package has counted it, and the host is told of the sixteenth of a row. -/
theorem mend_counts : let mended := (s.mend (loc, len)).modPkg pkg fun x => x.countEcc m loc false
    let t := (s.mend (loc, len)).countUnit none loc len false
    t.ue = s.ue ∧ (loc, len) ∉ t.ce ∧ tblGet (t.pkg pkg).eccCe m 0 = min (tblGet p.eccCe m 0 + 1) 0xFFFFFFFF ∧
      if p.rmode.getLsbD 1 = true ∧ 15 ≤ tblGet p.corrections (loc / 4096) 0 then
        Alarmed mended t pkg 0 22 (unitInfo mended loc len) (tblGet p.corrections (loc / 4096) 0 + 1)
      else t = { s with pkgs := t.pkgs, ce := t.ce } ∧
        tblGet (t.pkg pkg).corrections (loc / 4096) 0 = tblGet p.corrections (loc / 4096) 0 + 1 := by
  intro mended
  rw [countUnit_of_massif hat]
  have hpkg : mended.pkg pkg = p.countEcc m loc false := modPkg_of_pkgs (t := s.mend (loc, len)) hp rfl _
  have hcount : tblGet (mended.pkg pkg).corrections (loc / 4096) 0 = tblGet p.corrections (loc / 4096) 0 + 1 := by
    rw [hpkg]; exact (tblGet_put ..).trans (if_pos rfl)
  obtain ⟨hue, hce, -, heccCe⟩ := postMemory_counts mended pkg loc len false
  refine ⟨hue, ?_, ?_, ?_⟩
  · rw [hce]
    exact fun h => absurd (List.mem_filter.1 h).2 (by simp)
  · rw [heccCe, hpkg]
    exact (tblGet_put ..).trans (if_pos rfl)
  · split
    · rename_i h
      obtain ⟨hmode, hrow⟩ := h
      have hposts := postMemory_posts (s := mended) (len := len) (ue := false) (by rw [hpkg]; exact hmode) (loc := loc)
        (.inr (by omega))
      rw [hcount, if_neg Bool.false_ne_true, Nat.add_zero] at hposts
      rw [hposts]
      exact ⟨rfl, rfl⟩
    · rename_i h
      have hquiet : postMemory mended pkg loc len false = mended := by
        refine postMemory_quiet ?_
        rw [hcount, hpkg]
        cases hmode : p.rmode.getLsbD 1 with
        | false => exact .inl hmode
        | true => exact .inr ⟨rfl, by have := not_and.1 h hmode; omega⟩
      rw [hquiet]
      exact ⟨rfl, hcount⟩

end

/-! ### A scrub -/

theorem scrub_clean {mem : ScrubMem} {unit : Nat} (hue : s.ue = []) (hce : s.ce = []) :
    Completes (.scrub pkg mem unit .clean) s fun t => t = s := by
  refine ⟨s, ?_, rfl⟩
  change execScrub pkg mem unit .clean s = _
  rw [execScrub]
  cases scrubUnit s pkg mem unit with
  | none => rfl
  | some u => simp [foundAt, hue, hce]

section
variable {mem : ScrubMem} {unit : Nat} {u : Nat × Nat} (hunit : scrubUnit s pkg mem unit = some u) {found : ScrubFind}
include hunit

theorem exec_scrub_uncorrectable (h : foundAt s u found = .uncorrectable) :
    exec (.scrub pkg mem unit found) s = .next ((s.leaveBad u).countUnit none u.1 u.2 true) := by
  change execScrub pkg mem unit found s = _
  rw [execScrub, hunit]
  dsimp only
  rw [h]
  rfl

theorem exec_scrub_corrected (h : foundAt s u found = .corrected) :
    exec (.scrub pkg mem unit found) s = .next ((s.mend u).countUnit none u.1 u.2 false) := by
  change execScrub pkg mem unit found s = _
  rw [execScrub, hunit]
  dsimp only
  rw [h]
  rfl

end

theorem foundAt_bad {u : Nat × Nat} (h : u ∈ s.ue) (found : ScrubFind) : foundAt s u found = .uncorrectable := by
  rw [foundAt, if_pos (List.contains_iff_mem.2 h)]

theorem foundAt_uncorrectable (u : Nat × Nat) : foundAt s u .uncorrectable = .uncorrectable := by
  rw [foundAt]; split
  · rfl
  · rw [if_neg (by simp)]

theorem foundAt_corrected {u : Nat × Nat} (h : u ∉ s.ue) : foundAt s u .corrected = .corrected := by
  rw [foundAt, if_neg (mt List.contains_iff_mem.1 h), if_neg (by simp)]

theorem foundAt_correctable {u : Nat × Nat} (h : u ∉ s.ue) (hce : u ∈ s.ce) : foundAt s u .clean = .corrected := by
  rw [foundAt, if_neg (mt List.contains_iff_mem.1 h), if_pos (by simp [hce])]

end

end Sys2Proof.Machine
end

section
/-! SUPPORT. Wear samples, guard steps and the life of a cluster (R447 to R449, R452). -/

namespace Sys2Proof.Machine

/-- The wear of a cluster as its package holds it. -/
abbrev State.wearOf (s : State) (pkg cl : Nat) : Wear := tblGet (s.pkg pkg).wear cl Wear.blank

/-- A sample's index is noted. -/
def State.noteIndex (s : State) (pkg cl idx : Nat) : State :=
  s.modPkg pkg fun p => { p with wear := tblPut p.wear cl { tblGet p.wear cl Wear.blank with index := idx } }

/-- The host is asked about a guard step. -/
def State.askGuard (s : State) (pkg cl idx : Nat) : State :=
  (postOlush s pkg 0 23 (cl + idx / 50 * 2 ^ 16) idx).holdPkgCase pkg (.guard pkg cl (idx / 50)) (s.time pkg + guardNs)

/-- The step of the sample before is applied, unless the host decides it. -/
def State.applyStep (s : State) (pkg cl : Nat) : State :=
  if hostGuard s pkg || guardHeld s pkg cl then s else setGuard pkg cl ((s.wearOf pkg cl).index / 50) s

/-- What a sample of an index does before its cluster may wear out. -/
def State.sampled (s : State) (pkg cl idx : Nat) : State :=
  let w := s.wearOf pkg cl
  let t := (s.applyStep pkg cl).noteIndex pkg cl idx
  if hostGuard t pkg && (idx / 50 != w.index / 50 || (decide (w.guard < idx / 50) && !guardHeld t pkg cl)) then t.askGuard pkg cl idx else t

section
variable {s : State} {pkg cl : Nat} {p : Pkg} (hp : tblFind s.pkgs pkg = some p) (hcl : cl < 128)

section
include hp hcl

/-- The index after a sample: it does not fall, and ends at 1,000. -/
theorem exec_wearSample (index : Nat) : let idx := max (tblGet p.wear cl Wear.blank).index (min index 1000)
    exec (.wearSample pkg cl index none) s = .next (if idx = 1000 then wornOut pkg cl none (s.sampled pkg cl idx) else s.sampled pkg cl idx) := by
  intro idx
  have hno : ¬ ((tblFind s.pkgs pkg).isNone || decide (128 ≤ cl)) = true := by rw [hp]; simp; omega
  have hw : s.wearOf pkg cl = tblGet p.wear cl Wear.blank := by rw [State.wearOf, pkg_of_find hp]
  change execWearSample pkg cl index none s = _
  rw [execWearSample, if_neg hno]
  dsimp only
  rw [ite_self]
  change Host.Outcome.next (if max (s.wearOf pkg cl).index (min index 1000) = 1000 then
    wornOut pkg cl none (s.sampled pkg cl (max (s.wearOf pkg cl).index (min index 1000)))
      else s.sampled pkg cl (max (s.wearOf pkg cl).index (min index 1000))) = _
  rw [hw]

end

theorem noteIndex_wear (t : State) (pkg cl idx : Nat) : (t.noteIndex pkg cl idx).wearOf pkg cl = { t.wearOf pkg cl with index := idx } := by
  rw [State.wearOf, State.noteIndex, modPkg_pkg_same]
  exact (tblGet_put ..).trans (if_pos rfl)

theorem noteIndex_rmode (t : State) (pkg cl idx : Nat) : ((t.noteIndex pkg cl idx).pkg pkg).rmode = (t.pkg pkg).rmode := by
  rw [State.noteIndex, modPkg_pkg_same]

/-- Setting a guard step gives the cluster this step, and leaves its package's modes. -/
theorem setGuard_wear (h : deferred s pkg cl = false) (g : Nat) : (setGuard pkg cl g s).wearOf pkg cl = { s.wearOf pkg cl with guard := g } ∧
    ((setGuard pkg cl g s).pkg pkg).rmode = (s.pkg pkg).rmode := by
  rw [setGuard, h]
  simp only [Bool.false_eq_true, if_false]
  split
  case isTrue heq => exact ⟨by rw [State.wearOf, ← heq], rfl⟩
  case isFalse =>
    rw [State.wearOf, modPkg_pkg_same]
    exact ⟨(tblGet_put ..).trans (if_pos rfl), rfl⟩

/-- In hardware mode a sample applies the step of the one before. -/
theorem sampled_applies (hmode : (s.pkg pkg).rmode.getLsbD 0 = false) (hheld : guardHeld s pkg cl = false)
    (hdef : deferred s pkg cl = false) (idx : Nat) : s.sampled pkg cl idx = { s with pkgs := (s.sampled pkg cl idx).pkgs } ∧
      (s.sampled pkg cl idx).wearOf pkg cl = { s.wearOf pkg cl with index := idx, guard := (s.wearOf pkg cl).index / 50 } := by
  have hstep : s.applyStep pkg cl = setGuard pkg cl ((s.wearOf pkg cl).index / 50) s := by
    rw [State.applyStep, hostGuard, hmode, hheld]; rfl
  obtain ⟨hwear, hrmode⟩ := setGuard_wear hdef ((s.wearOf pkg cl).index / 50)
  have hworld := setGuard_world pkg cl ((s.wearOf pkg cl).index / 50) s
  have hquiet : s.sampled pkg cl idx = (setGuard pkg cl ((s.wearOf pkg cl).index / 50) s).noteIndex pkg cl idx := by
    have hguard : hostGuard ((setGuard pkg cl ((s.wearOf pkg cl).index / 50) s).noteIndex pkg cl idx) pkg = false := by
      rw [hostGuard, noteIndex_rmode, hrmode, hmode]
    rw [State.sampled]
    rw [hstep, hguard, Bool.false_and, if_neg Bool.false_ne_true]
  rw [hquiet, noteIndex_wear, hwear]
  refine ⟨?_, rfl⟩
  generalize setGuard pkg cl ((s.wearOf pkg cl).index / 50) s = t at hworld
  rw [hworld]
  rfl

/-- In host-assisted mode the host is asked about a step that has changed, or that is due. -/
theorem sampled_asks (hmode : (s.pkg pkg).rmode.getLsbD 0 = true) {idx : Nat}
    (hdue : idx / 50 ≠ (s.wearOf pkg cl).index / 50 ∨ (s.wearOf pkg cl).guard < idx / 50 ∧ guardHeld s pkg cl = false) :
    Alarmed s (s.sampled pkg cl idx) pkg 0 23 (cl + idx / 50 * 2 ^ 16) idx ∧ (s.sampled pkg cl idx).token = s.token + 1 ∧
      (s.sampled pkg cl idx).cases = s.cases ++ [⟨s.token, pkg * 32, .guard pkg cl (idx / 50), s.time pkg + 10 ^ 10, none⟩] ∧
      (s.sampled pkg cl idx).wearOf pkg cl = { s.wearOf pkg cl with index := idx } := by
  have hstep : s.applyStep pkg cl = s := by rw [State.applyStep, hostGuard, hmode]; rfl
  have hask : s.sampled pkg cl idx = (s.noteIndex pkg cl idx).askGuard pkg cl idx := by
    have hguard : hostGuard (s.noteIndex pkg cl idx) pkg = true := by rw [hostGuard, noteIndex_rmode, hmode]
    rw [State.sampled]
    rw [hstep, hguard, Bool.true_and, if_pos]
    obtain h | ⟨hlt, hheld⟩ := hdue
    · simp [h]
    · have hheld' : guardHeld (s.noteIndex pkg cl idx) pkg cl = false := hheld
      simp [hlt, hheld']
  have htime : (s.noteIndex pkg cl idx).time pkg = s.time pkg := by
    rw [State.time, State.noteIndex, modPkg_pkg_same]; rfl
  have hposts : SamePosts s (s.noteIndex pkg cl idx) pkg := ⟨rfl, rfl, htime⟩
  have hwear := noteIndex_wear s pkg cl idx
  rw [hask, State.askGuard, htime]
  refine ⟨hposts.alarmed 0 23 (cl + idx / 50 * 2 ^ 16) idx, ?_, ?_, ?_⟩
  · change (postOlush (s.noteIndex pkg cl idx) pkg 0 23 _ _).token + 1 = _
    rw [postOlush_world]; rfl
  · change (postOlush (s.noteIndex pkg cl idx) pkg 0 23 _ _).cases ++ [⟨(postOlush (s.noteIndex pkg cl idx) pkg 0 23 _ _).token, _, _, _, _⟩] = _
    rw [postOlush_world]
    rfl
  · rw [← hwear]
    exact congrArg (fun q : Pkg => tblGet q.wear cl Wear.blank) (postOlush_pkg ..)

/-! ### Worn-out clusters -/

theorem deconfigure_pkgs (pkg cl : Nat) (core : Option Nat) (s : State) : (deconfigure pkg cl core s).pkgs = s.pkgs := by
  rw [deconfigure_eq]
  generalize unitTeams s pkg (unitCores (s.pkg pkg) cl core) = ts
  generalize hu : s.unmapCores pkg (unitCores (s.pkg pkg) cl core) = u
  have hstops : OnlyStops u (ts.foldl (forceDiscard 2) u) :=
    List.foldlRecOn (motive := OnlyStops _) ts _ rfl fun t ht x _ => ht.trans (forceDiscard_onlyStops 2 t x)
  rw [OnlyStops] at hstops
  rw [hstops, ← hu]
  rfl

theorem wornOut_worn (pkg cl : Nat) (s : State) : cl ∈ ((wornOut pkg cl none s).pkg pkg).wornClusters := by
  rw [wornOut]
  dsimp only
  split
  case isTrue h =>
    rw [Bool.or_false] at h
    exact List.contains_iff_mem.1 h
  case isFalse =>
    have hworn : cl ∈ ((s.modPkg pkg fun p => ({ p with wornClusters := p.wornClusters ++ [cl] } : Pkg).rewriteHealth).pkg pkg).wornClusters := by
      rw [modPkg_pkg_same]
      exact List.mem_append_right _ (List.mem_singleton_self cl)
    have hpkg : ∀ t u : State, t.pkgs = u.pkgs → cl ∈ (u.pkg pkg).wornClusters → cl ∈ (t.pkg pkg).wornClusters := fun t u h hu => by
      rw [State.pkg, h]; exact hu
    split
    · exact hpkg _ _ (postOlush_pkgs ..) hworn
    · exact hpkg _ _ ((deconfigure_pkgs ..).trans (postOlush_pkgs ..)) hworn

/-! ### Life -/

theorem lifeRecompute_completes (hp : tblFind s.pkgs pkg = some p) : Completes (.lifeRecompute pkg) s fun t =>
    t = { s with pkgs := t.pkgs } ∧ t.pkg pkg = ({ p with wear := p.wear.map fun e => (e.1, e.2.daily) } : Pkg).rewriteHealth := by
  refine ⟨_, congrArg Host.Outcome.next (if_neg (by rw [hp]; exact Bool.false_ne_true)), rfl, ?_⟩
  rw [modPkg_pkg_same, pkg_of_find hp]

theorem daily_wear (t : Tbl Wear) {w : Wear} (h : tblFind t cl = some w) : tblFind (t.map fun e => (e.1, e.2.daily)) cl = some w.daily := by
  rw [tblFind_map fun _ w => Wear.daily w, h]; rfl

end

/-- Settles O53: a scrub by what it finds in its unit, a sample by the mode of its package, LIFE by the table of wear. -/
theorem scrubAndWear : Obligations.ScrubAndWear := by
  unfold Obligations.ScrubAndWear
  intro pkg unit cluster index loc len m mem p s hp
  refine ⟨scrub_clean, fun hunit hat => ?_, fun hcl => ?_, ?_⟩
  · refine ⟨fun hlen => ?_, fun hlen hbad => ⟨?_, ?_⟩, fun hsound => ⟨?_, fun hce => ?_⟩⟩
    · exact ⟨_, exec_scrub_uncorrectable hunit (foundAt_uncorrectable _), leaveBad_counts hp hat hlen⟩
    · exact ⟨_, exec_scrub_uncorrectable hunit (foundAt_bad hbad _), leaveBad_counts hp hat hlen⟩
    · exact ⟨_, exec_scrub_uncorrectable hunit (foundAt_bad hbad _), leaveBad_counts hp hat hlen⟩
    · exact ⟨_, exec_scrub_corrected hunit (foundAt_corrected hsound), mend_counts hp hat⟩
    · exact ⟨_, exec_scrub_corrected hunit (foundAt_correctable hsound hce), mend_counts hp hat⟩
  · have hpkg := pkg_of_find hp
    have hwear : s.wearOf pkg cluster = tblGet p.wear cluster Wear.blank := by rw [State.wearOf, hpkg]
    refine ⟨fun hlow hmode hheld hdef => ?_, fun hlow hmode hdue => ?_, fun hworn => ?_⟩
    · obtain ⟨hworld, hset⟩ := sampled_applies (by rw [hpkg]; exact hmode) hheld hdef _
      refine ⟨_, (exec_wearSample hp hcl index).trans (congrArg Host.Outcome.next (if_neg (Nat.ne_of_lt hlow))), hworld, ?_⟩
      rw [hwear] at hset
      exact hset
    · rw [← hwear] at hdue
      obtain ⟨halarm, htoken, hcases, hset⟩ := sampled_asks (by rw [hpkg]; exact hmode) hdue
      rw [hwear] at halarm htoken hcases hset
      exact ⟨_, (exec_wearSample hp hcl index).trans (congrArg Host.Outcome.next (if_neg (Nat.ne_of_lt hlow))), halarm, htoken, hcases, hset⟩
    · exact ⟨_, (exec_wearSample hp hcl index).trans (congrArg Host.Outcome.next (if_pos hworn)), wornOut_worn ..⟩
  · obtain ⟨t, ht, hworld, hset⟩ := lifeRecompute_completes hp
    refine ⟨t, ht, hworld, by rw [hset]; rfl, fun w hw => ⟨w.daily, by rw [hset]; exact daily_wear p.wear hw, rfl, rfl, rfl⟩⟩

end Sys2Proof.Machine
end

section
/-! SUPPORT. Rates, epochs and throttles (R393, R394, R401). -/

namespace Sys2Proof.Machine

/-- A cycle that is a multiple of 1,024 of the package's clock. -/
def State.AtEpoch (s : State) (pkg : Nat) : Prop :=
  (s.pkg pkg).resetAt ≤ s.cycle ∧ (s.cycle - (s.pkg pkg).resetAt) % 1024 = 0

theorem nextEpoch_iff {s : State} {pkg : Nat} : nextEpoch s pkg = s.cycle ↔ s.AtEpoch pkg := by
  rw [nextEpoch, State.AtEpoch, ceilDiv]; omega

theorem classNum_lt (cls : RateClass) : classNum cls < 9 := by cases cls <;> decide

/-! ### Writes of a rate register -/

/-- The fields of a rate register's word. -/
theorem rateOfWord_eq (c : Nat) (w : Word) : rateOfWord c w =
    ⟨if c = 8 then w.toNat % 2 ^ 15 else w.toNat % 2 ^ 13, w.toNat / 2 ^ 24 % 2 ^ 12, w.getLsbD 38, w.getLsbD 39⟩ := by
  simp [rateOfWord, field, fieldN, bitOf]

section
variable {s : State} {vk : Nat} (hvd : (s.vd vk).isVd = true) {cls : RateClass} {w : Word} {r : Rate} (hr : rateOfWord (classNum cls) w = r)
include hvd hr

theorem rateWrite_accepted (h : rateRefused s vk (classNum cls) r = false) : Completes (.rateWrite vk cls w) s fun t =>
    SetsVd s t vk { s.vd vk with newRates := (s.vd vk).newRates.setIfInBounds (classNum cls) (some r) } := by
  subst hr
  exact ⟨_, congrArg Host.Outcome.next (if_neg (by simp [hvd, h])), modVd_setsVd s vk _⟩

/-- A rate without a depth is refused. -/
theorem rateWrite_depthless (hrate : r.rate ≠ 0) (hdepth : r.depth = 0) : Completes (.rateWrite vk cls w) s fun t => t = s := by
  subst hr
  have hrefused : rateRefused s vk (classNum cls) (rateOfWord (classNum cls) w) = true := by
    rw [rateRefused]; simp [hrate, hdepth]
  exact ⟨s, congrArg Host.Outcome.next (if_pos (by simp [hvd, hrefused])), rfl⟩

end

/-! ### Epochs -/

/-- A fold that meets `x` brings about `Q` from `P`, if every other step keeps them. -/
theorem foldl_reaches {α β : Type} {P Q : β → Prop} {step : β → α → β} {x : α} {xs : List α}
    (hkeep : ∀ t, ∀ y ∈ xs, P t → y ≠ x → P (step t y)) (hreach : ∀ t, P t → Q (step t x))
    (hdone : ∀ t, ∀ y ∈ xs, Q t → Q (step t y)) (hx : x ∈ xs) {s : β} (h : P s) : Q (xs.foldl step s) := by
  induction xs generalizing s with
  | nil => exact absurd hx List.not_mem_nil
  | cons y ys ih =>
    rw [List.foldl_cons]
    have hdone' : ∀ t, ∀ z ∈ ys, Q t → Q (step t z) := fun t z hz => hdone t z (List.mem_cons_of_mem y hz)
    by_cases hy : y = x
    · subst hy
      exact List.foldlRecOn (motive := Q) ys step (hreach s h) fun t ht z hz => hdone' t z hz ht
    · exact ih (fun t z hz => hkeep t z (List.mem_cons_of_mem y hz)) hdone' ((List.mem_cons.1 hx).resolve_left (Ne.symm hy))
        (hkeep s y List.mem_cons_self h hy)

/-- Only VDs and arbiters have changed. -/
def OnlyRates (s t : State) : Prop := t = { s with vds := t.vds, arbiters := t.arbiters }

theorem OnlyRates.trans {s t u : State} (h : OnlyRates s t) (h' : OnlyRates t u) : OnlyRates s u := by
  rw [OnlyRates] at h h' ⊢; rw [h', h]

theorem applyRate_onlyRates (vk : Nat) (s : State) (c : Nat) : OnlyRates s (applyRate vk s c) := by
  rw [applyRate]; split <;> rfl

/-- What a VD has accepted of a class. -/
abbrev Vd.acceptedRate (v : Vd) (c : Nat) : Option Rate := (v.newRates[c]?).getD none

theorem applyRate_vd (vk k : Nat) (s : State) (c : Nat) : (applyRate vk s c).vd k =
    match (s.vd vk).acceptedRate c with
    | none => s.vd k
    | some r => if k = vk then { s.vd vk with rates := (s.vd vk).rates.setIfInBounds c r,
                                              newRates := (s.vd vk).newRates.setIfInBounds c none } else s.vd k := by
  cases hnew : (s.vd vk).acceptedRate c with
  | none => rw [applyRate, show ((s.vd vk).newRates[c]?).getD none = none from hnew]
  | some r => rw [applyRate, show ((s.vd vk).newRates[c]?).getD none = some r from hnew]; exact tblGet_put ..

/-- A rate is in force in its class, and none waits there. -/
def Vd.InForce (v : Vd) (c : Nat) (r : Rate) : Prop := v.rates[c]? = some r ∧ v.acceptedRate c = none

section
variable {vk c : Nat} {r : Rate} (hc : c < 9)
include hc

theorem applyRate_reaches {s : State} (h : (s.vd vk).acceptedRate c = some r) : ((applyRate vk s c).vd vk).InForce c r := by
  rw [applyRate_vd, h]
  dsimp only
  rw [if_pos rfl]
  exact ⟨Vector.getElem?_setIfInBounds_self_of_lt hc, by rw [Vd.acceptedRate, Vector.getElem?_setIfInBounds_self_of_lt hc]; rfl⟩

omit hc in
theorem applyRate_keeps {s : State} {vk' c' : Nat} (h : (s.vd vk).acceptedRate c = some r) (hne : vk' ≠ vk ∨ c' ≠ c) :
    ((applyRate vk' s c').vd vk).acceptedRate c = some r := by
  rw [applyRate_vd]
  cases (s.vd vk').acceptedRate c' with
  | none => exact h
  | some r' =>
    dsimp only
    split
    case isTrue heq =>
      subst heq
      have hcne : c' ≠ c := hne.resolve_left fun hn => hn rfl
      rw [Vd.acceptedRate, Vector.getElem?_setIfInBounds_ne hcne]
      exact h
    case isFalse => exact h

omit hc in
theorem applyRate_inForce {s : State} {vk' c' : Nat} (h : (s.vd vk).InForce c r) : ((applyRate vk' s c').vd vk).InForce c r := by
  rw [applyRate_vd]
  cases hnew : (s.vd vk').acceptedRate c' with
  | none => exact h
  | some r' =>
    dsimp only
    split
    case isTrue heq =>
      subst heq
      obtain ⟨hrate, hnone⟩ := h
      have hcne : c' ≠ c := by
        rintro rfl
        exact absurd (hnew.symm.trans hnone) (Option.some_ne_none r')
      rw [Vd.InForce, Vd.acceptedRate, Vector.getElem?_setIfInBounds_ne hcne, Vector.getElem?_setIfInBounds_ne hcne]
      exact ⟨hrate, hnone⟩
    case isFalse => exact h

end

/-- The accepted rates of a package's VDs take effect. -/
def State.applyRates (s : State) (pkg : Nat) : State :=
  (List.range 16).foldl (fun s v => (List.range 9).foldl (applyRate (vdKey pkg v)) s) (s.accruePkg pkg)

/-- The accepted modes of a package's VDs take effect. -/
def State.applyModes (s : State) (pkg : Nat) : State :=
  (List.range 16).foldl (fun s v => match (s.vd (vdKey pkg v)).newRmode with
    | some m => s.modVd (vdKey pkg v) fun x => { x with rmode := m, newRmode := none }
    | none => s) s

theorem applyRates_onlyRates (s : State) (pkg : Nat) : OnlyRates s (s.applyRates pkg) := by
  have haccrue : OnlyRates s (s.accruePkg pkg) := by
    have h := accruePkg_onlyArbiters s pkg
    rw [OnlyArbiters] at h
    rw [OnlyRates, h]
  refine List.foldlRecOn (motive := OnlyRates s) _ _ haccrue fun t ht v _ => ?_
  exact List.foldlRecOn (motive := OnlyRates s) _ _ ht fun u hu c _ => hu.trans (applyRate_onlyRates _ u c)

theorem applyModes_onlyRates (s : State) (pkg : Nat) : OnlyRates s (s.applyModes pkg) := by
  refine List.foldlRecOn (motive := OnlyRates s) _ _ rfl fun t ht v _ => ht.trans ?_
  split <;> rfl

theorem applyModes_rates (s : State) (pkg k : Nat) :
    ((s.applyModes pkg).vd k).rates = (s.vd k).rates ∧ ((s.applyModes pkg).vd k).newRates = (s.vd k).newRates := by
  refine List.foldlRecOn (motive := fun t : State => (t.vd k).rates = (s.vd k).rates ∧ (t.vd k).newRates = (s.vd k).newRates) _ _
    ⟨rfl, rfl⟩ fun t ht v _ => ?_
  split
  · rw [State.vd, State.modVd_vds, tblGet_put]
    split
    case isTrue heq => subst heq; exact ht
    case isFalse => exact ht
  · exact ht

theorem applyRates_reaches {s : State} {vk c : Nat} {r : Rate} (hc : c < 9) (h : (s.vd vk).acceptedRate c = some r) :
    ((s.applyRates (vk / 16)).vd vk).InForce c r := by
  have hself : vdKey (vk / 16) (vk % 16) = vk := by rw [vdKey]; omega
  refine foldl_reaches (P := fun t : State => (t.vd vk).acceptedRate c = some r) (Q := fun t : State => (t.vd vk).InForce c r)
    (x := vk % 16) (fun t v _ ht hne => ?_) (fun t ht => ?_) (fun t v _ ht => ?_) (List.mem_range.2 (Nat.mod_lt _ (by decide))) ?_
  · have hkey : vdKey (vk / 16) v ≠ vk := by rw [vdKey]; omega
    exact List.foldlRecOn (motive := fun u : State => (u.vd vk).acceptedRate c = some r) _ _ ht fun u hu c' _ =>
      applyRate_keeps hu (.inl hkey)
  · rw [hself]
    exact foldl_reaches (P := fun t : State => (t.vd vk).acceptedRate c = some r) (Q := fun t : State => (t.vd vk).InForce c r)
      (fun u c' _ hu hne => applyRate_keeps hu (.inr hne)) (fun u hu => applyRate_reaches hc hu) (fun u c' _ hu => applyRate_inForce hu)
      (List.mem_range.2 hc) ht
  · exact List.foldlRecOn (motive := fun u : State => (u.vd vk).InForce c r) _ _ ht fun u hu c' _ => applyRate_inForce hu
  · have hvds : (s.accruePkg (vk / 16)).vds = s.vds := by
      have hworld := accruePkg_onlyArbiters s (vk / 16)
      rw [OnlyArbiters] at hworld
      rw [hworld]
    rw [State.vd, hvds]
    exact h

theorem applyEpoch_due {s : State} {pkg : Nat} (h : epochDue s pkg = true) : applyEpoch s pkg =
    match (((s.applyRates pkg).applyModes pkg).pkg pkg).newRmode with
    | some m => ((s.applyRates pkg).applyModes pkg).modPkg pkg fun p => { p with rmode := m, newRmode := none }
    | none => (s.applyRates pkg).applyModes pkg := by
  simp only [applyEpoch, h, Bool.not_true, Bool.false_eq_true, if_false, State.applyModes, State.applyRates] <;>
  (generalize List.range 16 = vds; generalize s.accruePkg pkg = t; rfl)

section
variable {s : State} {pkg : Nat}

theorem rateEpoch_idle (h : ¬ s.AtEpoch pkg) : Completes (.rateEpoch pkg) s fun t => t = s :=
  ⟨s, congrArg Host.Outcome.next (if_neg (mt nextEpoch_iff.1 h)), rfl⟩

theorem exec_rateEpoch (h : s.AtEpoch pkg) : exec (.rateEpoch pkg) s = .next (applyEpoch s pkg) :=
  congrArg Host.Outcome.next (if_pos (nextEpoch_iff.2 h))

theorem epochDue_of_rate {vk c : Nat} {r : Rate} (h : (s.vd vk).acceptedRate c = some r) : epochDue s (vk / 16) = true := by
  cases hfind : tblFind s.vds vk with
  | none =>
    rw [State.vd, tblGet, hfind, Option.getD_none, Vd.acceptedRate] at h
    by_cases hc : c < 9
    · rw [Vd.blank, Vector.getElem?_replicate, if_pos hc] at h
      exact absurd h (by simp)
    · rw [Vector.getElem?_eq_none (by omega)] at h
      exact absurd h (by simp)
  | some v =>
    rw [State.vd, tblGet, hfind, Option.getD_some, Vd.acceptedRate] at h
    have hmem : some r ∈ v.newRates.toList := by
      cases hget : v.newRates[c]? with
      | none => rw [hget] at h; exact absurd h (by simp)
      | some x =>
        rw [hget, Option.getD_some] at h
        subst h
        rw [Vector.mem_toList_iff]
        exact Vector.mem_of_getElem? hget
    have hany : s.vds.any (fun (k, v) => k / 16 == vk / 16 && (v.newRmode.isSome || v.newRates.toList.any Option.isSome)) = true := by
      refine List.any_eq_true.2 ⟨(vk, v), mem_of_tblFind hfind, ?_⟩
      have hrate : v.newRates.toList.any Option.isSome = true := List.any_eq_true.2 ⟨some r, hmem, rfl⟩
      simp only [hrate, BEq.rfl, Bool.or_true, Bool.and_true]
    rw [epochDue, hany, Bool.or_true]

theorem settled_onlyRates (s : State) (pkg : Nat) : OnlyRates s ((s.applyRates pkg).applyModes pkg) :=
  (applyRates_onlyRates s pkg).trans (applyModes_onlyRates _ pkg)

theorem rateEpoch_rate {vk c : Nat} {r : Rate} (hc : c < 9) (h : s.AtEpoch (vk / 16)) (hr : (s.vd vk).acceptedRate c = some r) :
    Completes (.rateEpoch (vk / 16)) s fun t => (t.vd vk).InForce c r ∧ t.mem = s.mem ∧ t.thr = s.thr := by
  refine ⟨_, exec_rateEpoch h, ?_⟩
  have hforce := applyRates_reaches hc hr
  obtain ⟨hrates, hnew⟩ := applyModes_rates (s.applyRates (vk / 16)) (vk / 16) vk
  have hworld := settled_onlyRates s (vk / 16)
  rw [applyEpoch_due (epochDue_of_rate hr)]
  generalize (s.applyRates (vk / 16)).applyModes (vk / 16) = t at hrates hnew hworld ⊢
  have hdone : (t.vd vk).InForce c r := by rw [Vd.InForce, Vd.acceptedRate, hrates, hnew]; exact hforce
  have hmem : t.mem = s.mem := by rw [hworld]
  have hthr : t.thr = s.thr := by rw [hworld]
  split
  · exact ⟨hdone, hmem, hthr⟩
  · exact ⟨hdone, hmem, hthr⟩

theorem rateEpoch_mode (h : s.AtEpoch pkg) {m : BitVec 3} (hm : (s.pkg pkg).newRmode = some m) :
    Completes (.rateEpoch pkg) s fun t => t.pkg pkg = { s.pkg pkg with rmode := m, newRmode := none } := by
  have hdue : epochDue s pkg = true := by rw [epochDue, hm]; rfl
  refine ⟨_, exec_rateEpoch h, ?_⟩
  have hworld := settled_onlyRates s pkg
  rw [applyEpoch_due hdue]
  generalize (s.applyRates pkg).applyModes pkg = t at hworld ⊢
  have hpkg : t.pkg pkg = s.pkg pkg := by rw [hworld]; rfl
  rw [hpkg, hm]
  dsimp only
  rw [modPkg_pkg_same, hpkg]

/-! ### Throttles -/

theorem throttleChange_idle (h : ¬ s.AtEpoch pkg) (gcs : List Nat) (factor : Nat) :
    Completes (.throttleChange pkg gcs factor) s fun t => t = s := by
  refine ⟨s, congrArg Host.Outcome.next (if_pos ?_), rfl⟩
  rw [bne_iff_ne.2 (mt nextEpoch_iff.1 h)]; rfl

theorem throttleChange_sets (h : s.AtEpoch pkg) {factor gc : Nat} (hf : factor ≤ 256) (hgc : pkgOf gc = pkg) :
    Completes (.throttleChange pkg [gc] factor) s fun t =>
      t.core gc = { s.core gc with factor := factor } ∧ (∀ k, k ≠ gc → t.core k = s.core k) ∧ t.thr = s.thr := by
  have hmine : [gc].filter (fun gc => pkgOf gc == pkg) = [gc] := by simp [hgc]
  let u : State := (s.modArb (arbKey 0 gc) fun _ => s.accrued (arbKey 0 gc)).modCore gc fun c => { c with factor := factor }
  have hno : ¬ (nextEpoch s pkg != s.cycle || decide (256 < factor)) = true := by
    rw [nextEpoch_iff.2 h]; simp; omega
  have hexec : exec (.throttleChange pkg [gc] factor) s = .next (reportCores pkg [gc] u) := by
    change execThrottleChange pkg [gc] factor s = _
    rw [execThrottleChange, if_neg hno]
    dsimp only
    rw [hmine]; rfl
  have hreports : OnlyReports u (reportCores pkg [gc] u) := reportCores_onlyReports ..
  rw [OnlyReports] at hreports
  have hcores : (reportCores pkg [gc] u).cores = u.cores := by rw [hreports]
  have hcore : ∀ k, u.core k = if k = gc then { s.core gc with factor := factor } else s.core k := fun k => tblGet_put ..
  refine ⟨_, hexec, ?_, fun k hk => ?_, by rw [hreports]; rfl⟩
  · rw [State.core, hcores]; exact (hcore gc).trans (if_pos rfl)
  · rw [State.core, hcores]; exact (hcore k).trans (if_neg hk)

end

end Sys2Proof.Machine
end

section
/-! SUPPORT. Arbiters: templates, accrual, and the start of a unit (R391, R392, R395, R397). -/

namespace Sys2Proof.Machine

/-! ### Templates -/

theorem arbClass_arbKey {c i : Nat} (hi : i < 2 ^ 40) : arbClass (arbKey c i) = c ∧ arbKey c i % 2 ^ 40 = i := by
  rw [arbClass, arbKey]; omega

theorem templateOf_class {arb : Nat} (hc : 1 < arbClass arb) : templateOf arb = arbKey (arbClass arb) (classTemplate (arbPkg arb)) ∧
    classTemplate (arbPkg arb) < 2 ^ 40 ∧ classTemplate (arbPkg arb) / 2 ^ 24 = arbPkg arb := by
  refine ⟨by rw [templateOf]; exact if_pos hc, ?_⟩
  rw [classTemplate, arbPkg, if_pos hc]; omega

theorem templateOf_core {arb : Nat} (hc : ¬ 1 < arbClass arb) (hi : ¬ coreTemplates ≤ arb % 2 ^ 40) :
    templateOf arb = arbKey (arbClass arb) (coreTemplates + pkgOf (arb % 2 ^ 40) * 8 + massifOf (arb % 2 ^ 40)) ∧
      coreTemplates + pkgOf (arb % 2 ^ 40) * 8 + massifOf (arb % 2 ^ 40) < 2 ^ 40 ∧
      (coreTemplates + pkgOf (arb % 2 ^ 40) * 8 + massifOf (arb % 2 ^ 40) - coreTemplates) / 8 = arbPkg arb := by
  refine ⟨by rw [templateOf]; exact (if_neg hc).trans (if_neg hi), ?_⟩
  rw [arbPkg, if_neg hc, if_neg hi]
  rw [pkgOf, massifOf, coreTemplates] at *
  omega

theorem templateOf_template {arb : Nat} (hc : ¬ 1 < arbClass arb) (hi : coreTemplates ≤ arb % 2 ^ 40) : templateOf arb = arb := by
  rw [templateOf]; exact (if_neg hc).trans (if_pos hi)

/-- A template has its arbiters' package, and is its own template. -/
theorem templateOf_spec (arb : Nat) : arbPkg (templateOf arb) = arbPkg arb ∧ templateOf (templateOf arb) = templateOf arb := by
  by_cases hc : 1 < arbClass arb
  · obtain ⟨ht, hlt, hpkg⟩ := templateOf_class hc
    obtain ⟨hcls, hplace⟩ := arbClass_arbKey (c := arbClass arb) hlt
    rw [← ht] at hcls hplace
    have hc' : 1 < arbClass (templateOf arb) := hcls ▸ hc
    have hpkg' : arbPkg (templateOf arb) = arbPkg arb := by
      rw [← hpkg, ← hplace, arbPkg, if_pos hc']
    exact ⟨hpkg', by rw [(templateOf_class hc').1, hpkg', hcls, ← ht]⟩
  · by_cases hi : coreTemplates ≤ arb % 2 ^ 40
    · rw [templateOf_template hc hi]
      exact ⟨rfl, templateOf_template hc hi⟩
    · obtain ⟨ht, hlt, hpkg⟩ := templateOf_core hc hi
      obtain ⟨hcls, hplace⟩ := arbClass_arbKey (c := arbClass arb) hlt
      rw [← ht] at hcls hplace
      have hc' : ¬ 1 < arbClass (templateOf arb) := hcls ▸ hc
      have hi' : coreTemplates ≤ templateOf arb % 2 ^ 40 := by rw [hplace, Nat.add_assoc]; exact Nat.le_add_right _ _
      refine ⟨?_, templateOf_template hc' hi'⟩
      rw [← hpkg, ← hplace, arbPkg, if_neg hc', if_pos hi']

/-! ### Changes of one arbiter -/

section
variable {s : State} {arb : Nat}

theorem modArb_setsArb (ht : templateOf arb ≠ arb) (f : Arbiter → Arbiter) : SetsArb s (s.modArb arb f) arb (f (s.arb arb)) where
  value := by rw [State.arb, State.modArb, tblGet_put, if_pos rfl]
  others j hj := by
    have hne : templateOf j ≠ arb := fun h => ht (by rw [← h, (templateOf_spec j).2])
    rw [State.arb, State.modArb, tblGet_put, if_neg hj, State.freshArb, tblGet_put, if_neg hne]
    rfl
  world := rfl

theorem SetsArb.refl (s : State) (arb : Nat) : SetsArb s s arb (s.arb arb) := ⟨rfl, fun _ _ => rfl, rfl⟩

theorem SetsArb.trans {t u : State} {x y : Arbiter} (h : SetsArb s t arb x) (h' : SetsArb t u arb y) : SetsArb s u arb y where
  value := h'.value
  others j hj := (h'.others j hj).trans (h.others j hj)
  world := by
    have hu := h'.world
    rw [h.world] at hu
    exact hu

theorem accrueAt_idle (h : s.cycle ≤ (s.arb arb).accrued) : s.accrueAt arb = s := if_pos h

theorem bucketAccrual_idle (h : s.cycle ≤ (s.arb arb).accrued) : Completes (.bucketAccrual arb) s fun t => t = s :=
  ⟨s, congrArg Host.Outcome.next (accrueAt_idle h), rfl⟩

/-- The accrual of a single owner's bucket. -/
theorem accrued_single {o : Nat} (ho : owners s arb = [o]) {b : Bucket} (hb : tblFind (s.arb arb).buckets o = some b) :
    let rate := ownerRate s arb o
    let x := b.frac + rate.rate * factorAt s arb * (s.cycle - (s.arb arb).accrued)
    let y := s.accrued arb
    y.accrued = s.cycle ∧ y.pending = (s.arb arb).pending ∧ y.pool ≤ 64 ∧ ∃ b', tblFind y.buckets o = some b' ∧
      b'.grants = b.grants ∧ b'.frac = x % 262144 ∧
      b'.level = b.level + ((min (x / 262144) (rate.depth - b.level).toNat : Nat) : Int) := by
  have hget : tblGet (s.arb arb).buckets o Bucket.zero = b := by rw [tblGet, hb, Option.getD_some]
  intro rate x y
  have hy : y.accrued = s.cycle ∧ y.pending = (s.arb arb).pending ∧ y.pool ≤ 64 ∧ y.buckets = tblPut (s.arb arb).buckets o
      (accrue rate (factorAt s arb) (s.cycle - (s.arb arb).accrued) ((s.arb arb).pending.any fun u => u.owner == o) b).1 := by
    have hacc : y = s.accrued arb := rfl
    rw [State.accrued, ho] at hacc
    simp only [List.map_cons, List.map_nil, List.foldl_cons, List.foldl_nil, hget] at hacc
    rw [hacc]
    exact ⟨rfl, rfl, Nat.min_le_right _ _, rfl⟩
  obtain ⟨hcycle, hpending, hpool, hbuckets⟩ := hy
  refine ⟨hcycle, hpending, hpool, _, by rw [hbuckets, tblFind_put, if_pos rfl], ?_⟩
  rw [accrue]
  exact ⟨rfl, rfl, rfl⟩

theorem bucketAccrual_single (hlate : (s.arb arb).accrued < s.cycle) (ht : templateOf arb ≠ arb) :
    Completes (.bucketAccrual arb) s fun t => SetsArb s t arb (s.accrued arb) :=
  ⟨_, congrArg Host.Outcome.next (if_neg (Nat.not_le.2 hlate)), modArb_setsArb ht _⟩

theorem arbiterGrant_busy (hnow : (s.arb arb).accrued = s.cycle) (hbusy : s.cycle < (s.arb arb).busy) :
    exec (.arbiterGrant arb []) s = .next s := by
  change execArbiterGrant arb [] s = _
  rw [execArbiterGrant, accrueAt_idle hnow.ge]
  exact congrArg Host.Outcome.next (if_pos (by simp [hbusy]))

/-! ### The start of a unit -/

theorem choose_alone {x : Arbiter} {u : Offer} (hfactor : factorAt s arb ≠ 0) (hpending : x.pending = [u]) (howner : u.owner ∈ owners s arb)
    (hlevel : 1 ≤ (tblGet x.buckets u.owner Bucket.zero).level) : choose s arb x = some (u, false) := by
  have hready : ∀ o, o ∈ (owners s arb).filter (fun o =>
      (x.pending.any fun u => u.owner == o) && decide (1 ≤ (tblGet x.buckets o Bucket.zero).level)) ↔ o = u.owner := fun o => by
    rw [List.mem_filter, hpending]
    simp only [List.any_cons, List.any_nil, Bool.or_false, Bool.and_eq_true, beq_iff_eq, decide_eq_true_eq]
    constructor
    · rintro ⟨-, h, -⟩; exact h.symm
    · rintro rfl; exact ⟨howner, rfl, hlevel⟩
  have hlt : u.owner < 17 := List.mem_range.1 (List.mem_filter.1 howner).1
  have hrobin : ∀ os : List Nat, (∀ o, o ∈ os ↔ o = u.owner) → roundRobin x.last os = some u.owner := fun os hos => by
    rw [roundRobin]
    obtain ⟨o, ho⟩ : ∃ o, (((List.range 17).map fun i => (x.last + 1 + i) % 17).find? fun o => os.contains o) = some o := by
      rw [← Option.isSome_iff_exists, List.find?_isSome]
      refine ⟨u.owner, List.mem_map.2 ⟨(u.owner + 16 * (x.last + 1)) % 17, List.mem_range.2 (by omega), by omega⟩, ?_⟩
      exact List.contains_iff_mem.2 ((hos _).2 rfl)
    rw [ho]
    have hmem := List.find?_some ho
    rw [List.contains_iff_mem, hos] at hmem
    rw [hmem]
  have hnext : ∀ n, nextOf n (x.pending.filter fun v => v.owner == u.owner) = some u := fun n => by
    rw [nextOf, hpending]
    simp
  rw [choose, if_neg hfactor]
  simp only [hrobin _ hready, hnext, Option.map_some]

section
variable {u : Offer} (hclass : 1 < arbClass arb)
include hclass

theorem offerOk_work (hsize : 1 ≤ u.size) (hmax : u.size ≤ unitMax (arbClass arb)) (howner : u.owner ∈ owners s arb) (hwork : u.op = ownWork ∧ u.cls = 1 ∨
    u.owner < 16 ∧ (u.op, u.cls) ∈ workItems s (vdKey (arbPkg arb) u.owner)) : offerOk s arb u = true := by
  have hbase : ((owners s arb).contains u.owner && decide (1 ≤ u.size) && decide (u.size ≤ unitMax (arbClass arb))) = true := by
    simp [howner, hsize, hmax]
  have hkind : (u.op == ownWork && u.cls == 1 ||
      u.owner != 16 && (workItems s (vdKey (arbPkg arb) u.owner)).contains (u.op, u.cls)) = true := by
    obtain ⟨hop, hcls⟩ | ⟨hlt, hmem⟩ := hwork
    · simp [hop, hcls]
    · have hne : u.owner ≠ 16 := by omega
      simp [hne, hmem]
  rw [offerOk, hbase, Bool.true_and]
  split
  · omega
  · omega
  · exact hkind

theorem arbiterGrant_starts (ht : templateOf arb ≠ arb) (hnow : (s.arb arb).accrued = s.cycle) (hfree : (s.arb arb).busy ≤ s.cycle)
    (hnone : (s.arb arb).pending = []) (howner : u.owner ∈ owners s arb) (hok : offerOk s arb u = true) {b : Bucket}
    (hb : tblFind (s.arb arb).buckets u.owner = some b) (hlevel : 1 ≤ b.level) : Completes (.arbiterGrant arb [u]) s fun t =>
      ∃ y, SetsArb s t arb y ∧ y.pending = [] ∧ y.last = u.owner ∧ s.cycle < y.busy ∧ y.pool = (s.arb arb).pool ∧
        tblFind y.buckets u.owner = some { b with level := b.level - u.size, grants := b.grants + 1 } := by
  have hjoin := modArb_setsArb (s := s) ht fun a => { a with pending := a.pending ++ [u] }
  generalize hjoined : (s.modArb arb fun a => { a with pending := a.pending ++ [u] }) = v at hjoin
  have hworld := hjoin.world
  have hcycle : v.cycle = s.cycle := by rw [hworld]
  have hpending : (v.arb arb).pending = [u] := by rw [hjoin.value, hnone]; rfl
  have hget : tblGet (v.arb arb).buckets u.owner Bucket.zero = b := by
    rw [hjoin.value, tblGet]
    exact congrArg (Option.getD · _) hb
  have howner' : u.owner ∈ owners v arb := by rw [hworld]; exact howner
  have hfactor : factorAt v arb ≠ 0 := by
    have hcls : (arbClass arb != 0) = true := bne_iff_ne.2 (by omega)
    rw [factorAt, if_pos hcls]; decide
  have hchoose := choose_alone hfactor hpending howner' (by rw [hget]; exact hlevel)
  have hidle : ¬ (arbClass arb = 1 ∨ v.cycle < (v.arb arb).busy) := by
    have hbusy : (v.arb arb).busy = (s.arb arb).busy := by rw [hjoin.value]
    rw [hcycle, hbusy]
    omega
  have hblock : arbClass arb != 0 := bne_iff_ne.2 (by omega)
  have hexec : exec (.arbiterGrant arb [u]) s = .next (startUnit v arb u false) := by
    change execArbiterGrant arb [u] s = _
    rw [execArbiterGrant, accrueAt_idle hnow.ge]
    simp only [List.foldl_cons, List.foldl_nil, hok, if_true, hjoined, Bool.or_eq_true, decide_eq_true_eq, if_neg hidle, hchoose, startBlock,
      hblock]
  have hstart : SetsArb v (startUnit v arb u false) arb _ := modArb_setsArb ht _
  simp only [Bool.false_eq_true, if_false, hget, hpending, List.erase_cons_head] at hstart
  refine ⟨_, hexec, _, hjoin.trans hstart, rfl, rfl, ?_, ?_, ?_⟩
  · rw [hcycle]; exact Nat.lt_add_of_pos_right (Nat.lt_of_lt_of_le Nat.zero_lt_one (Nat.le_max_left ..))
  · rw [hjoin.value]
  · exact (tblFind_put ..).trans (if_pos rfl)

end

end

/-- Settles O51: a rate by the fold of its epoch, a bucket by its accrual, a unit by the choice among one owner's. -/
theorem ratesAndArbiters : Obligations.RatesAndArbiters := by
  unfold Obligations.RatesAndArbiters
  intro vk arb o pkg factor gc cls w u r s
  have hc := classNum_lt cls
  refine ⟨fun hvd => ⟨rateWrite_accepted hvd (rateOfWord_eq ..), rateWrite_depthless hvd (rateOfWord_eq ..)⟩, rateEpoch_idle, ?_,
    fun hepoch m hm => rateEpoch_mode hepoch hm, bucketAccrual_idle, ?_, ?_, ?_,
    fun hepoch hf hgc => throttleChange_sets hepoch hf hgc, fun hepoch => throttleChange_idle hepoch [gc] factor⟩
  · rintro hepoch rfl hr
    obtain ⟨t, ht, ⟨hrate, hnone⟩, hmem, hthr⟩ := rateEpoch_rate hc hepoch hr
    exact ⟨t, ht, hrate, hnone, hmem, hthr⟩
  · intro hlate ht ho b hb
    obtain ⟨t, hexec, hset⟩ := bucketAccrual_single hlate ht
    exact ⟨t, hexec, _, hset, accrued_single ho hb⟩
  · intro hclass ht hnow hfree hnone howner hsize hmax hwork b hb hlevel
    exact arbiterGrant_starts hclass ht hnow hfree hnone howner (offerOk_work hclass hsize hmax howner hwork) hb hlevel
  · intro hbusy ht hnow
    exact ⟨s, arbiterGrant_busy hnow hbusy, SetsArb.refl s arb⟩

end Sys2Proof.Machine
end

section
/-! SUPPORT. Virtual devices: creation and destruction, ways, modes and maps (R177, R178, R388, R423, R442, R459). -/

namespace Sys2Proof.Machine

/-! ### Creation and destruction -/

/-- An arbiter without what a VD has there. -/
def Arbiter.without (a : Arbiter) (owner : Nat) : Arbiter :=
  { a with buckets := tblDel a.buckets owner, pending := a.pending.filter fun u => u.owner != owner }

theorem dropBuckets_arbiters (vk : Nat) (s : State) : (dropBuckets vk s).arbiters =
    s.arbiters.map fun e => (e.1, if arbPkg e.1 = vk / 16 then e.2.without (vk % 16) else e.2) :=
  List.map_congr_left fun _ _ => (apply_ite (Prod.mk _) ..).symm

/-- No arbiter of the package has a bucket of the VD, neither one in use nor one that stands as its template does. -/
theorem dropBuckets_none (vk : Nat) {s t : State} (ht : t.arbiters = (dropBuckets vk s).arbiters) {a : Nat} (ha : arbPkg a = vk / 16) :
    tblFind (t.arb a).buckets (vk % 16) = none := by
  have hentry : ∀ k y, arbPkg k = vk / 16 → tblFind t.arbiters k = some y → tblFind y.buckets (vk % 16) = none := fun k y hk hy => by
    rw [ht, dropBuckets_arbiters,
      tblFind_map fun k (x : Arbiter) => if arbPkg k = vk / 16 then x.without (vk % 16) else x] at hy
    obtain ⟨x, -, rfl⟩ := Option.map_eq_some_iff.1 hy
    rw [if_pos hk, Arbiter.without, tblFind_del, if_pos rfl]
  rw [State.arb, tblGet]
  cases hfind : tblFind t.arbiters a with
  | some y => exact hentry a y ha hfind
  | none =>
    rw [Option.getD_none, State.freshArb, tblGet]
    cases htemplate : tblFind t.arbiters (templateOf a) with
    | some y => exact hentry _ y ((templateOf_spec a).1.trans ha) htemplate
    | none => rfl

theorem accruePkg_vds (s : State) (pkg : Nat) : (s.accruePkg pkg).vds = s.vds ∧ (s.accruePkg pkg).mem = s.mem := by
  have h := accruePkg_onlyArbiters s pkg
  rw [OnlyArbiters] at h
  rw [h]
  exact ⟨rfl, rfl⟩

section
variable {s : State} {vk : Nat}

theorem vdCreate_completes (hpkg : (tblFind s.pkgs (vk / 16)).isSome) (hvd : (s.vd vk).isVd = false) :
    Completes (.vdCreate vk) s fun t => t.mem = s.mem ∧ (t.vd vk).isVd = true ∧ (t.vd vk).quar = false ∧ (t.vd vk).ways = 0 ∧
      (t.vd vk).qpri = 0xFAC688 ∧ (t.vd vk).lrate = 0 ∧ (t.vd vk).tensors = [] ∧ (∀ k, k ≠ vk → t.vd k = s.vd k) ∧
      t.fn (fnOfVd vk) = Function.blank ∧ ∀ a, arbPkg a = vk / 16 → tblFind (t.arb a).buckets (vk % 16) = none := by
  obtain ⟨hvds, hmem⟩ := accruePkg_vds s (vk / 16)
  let u := dropBuckets vk (s.accruePkg (vk / 16))
  let v : State := { u with fns := tblPut u.fns (fnOfVd vk) Function.blank }
  have hset := modVd_setsVd v vk fun _ => { Vd.blank with isVd := true, trig := Config.trigAddr vk &&& 0x7FFFFFFFF8#52 }
  have hno : ¬ ((tblFind s.pkgs (vk / 16)).isNone || (s.vd vk).isVd) = true := by
    rw [hvd, Bool.or_false]
    exact fun h => absurd hpkg (by rw [Option.isNone_iff_eq_none.1 h]; exact Bool.false_ne_true)
  refine ⟨_, congrArg Host.Outcome.next (if_neg hno), hmem, ?_, ?_, ?_, ?_, ?_, ?_, fun k hk => ?_, (tblGet_put ..).trans (if_pos rfl),
    fun a ha => dropBuckets_none vk (s := s.accruePkg (vk / 16)) rfl ha⟩
  iterate 6 exact (congrArg _ hset.value).trans rfl
  exact (hset.others k hk).trans (congrArg (tblGet · k Vd.blank) hvds)

theorem eraseVd_world (hvd : (s.vd vk).isVd = true) (h : ∀ y ∈ teamsOn s vk, y.st ≠ .bound ∧ y.away = false) :
    exec (.vdDestroy vk) s = .next (eraseVd vk s) := by
  refine congrArg Host.Outcome.next (if_neg ?_)
  rw [hvd, Bool.not_true, Bool.false_or, Bool.not_eq_true, List.any_eq_false]
  intro y hy
  obtain ⟨hst, haway⟩ := h y hy
  simp [hst, haway]

theorem eraseVd_memory (x : Nat) : memRead (eraseVd vk s).mem x =
    if l2Loc vk 0 0 ≤ x ∧ x < l2Loc (vk + 1) 0 0 then 0 else memRead s.mem x := by
  have hmem : (eraseVd vk s).mem = s.mem.filter fun c => decide (c.1 < l2Loc vk 0 0) || decide (l2Loc (vk + 1) 0 0 ≤ c.1) :=
    congrArg (List.filter _) (accruePkg_vds s (vk / 16)).2
  rw [hmem, memRead_filter s.mem fun l => decide (l < l2Loc vk 0 0) || decide (l2Loc (vk + 1) 0 0 ≤ l)]
  by_cases hin : l2Loc vk 0 0 ≤ x ∧ x < l2Loc (vk + 1) 0 0
  · rw [if_pos hin, if_neg]
    simp only [Bool.or_eq_true, decide_eq_true_eq]
    omega
  · rw [if_neg hin, if_pos]
    simp only [Bool.or_eq_true, decide_eq_true_eq]
    omega

theorem eraseVd_tlb (r : Nat) : ∀ e ∈ ((eraseVd vk s).router r).tlb, e.vk ≠ vk := by
  have hrouters : (eraseVd vk s).routers = (s.accruePkg (vk / 16)).routers.map fun e => (e.1,
      { e.2 with tlb := e.2.tlb.filter fun e => e.vk != vk, misses := e.2.misses.filter fun m => m.vk != vk }) := rfl
  rw [State.router, tblGet, hrouters, tblFind_map fun _ (x : Router) =>
    { x with tlb := x.tlb.filter fun e => e.vk != vk, misses := x.misses.filter fun m => m.vk != vk }]
  cases tblFind (s.accruePkg (vk / 16)).routers r with
  | none => exact fun e he => absurd he List.not_mem_nil
  | some x =>
    intro e he
    exact bne_iff_ne.1 (List.mem_filter.1 he).2

theorem vdDestroy_completes (hvd : (s.vd vk).isVd = true) (h : ∀ y ∈ teamsOn s vk, y.st ≠ .bound ∧ y.away = false) :
    Completes (.vdDestroy vk) s fun t => (t.vd vk).isVd = false ∧ (∀ k, k ≠ vk → t.vd k = s.vd k) ∧
      (∀ r, ∀ e ∈ (t.router r).tlb, e.vk ≠ vk) ∧
      ∀ x, memRead t.mem x = if l2Loc vk 0 0 ≤ x ∧ x < l2Loc (vk + 1) 0 0 then 0 else memRead s.mem x := by
  have hvds : ∀ k, (eraseVd vk s).vd k = if k = vk then Vd.blank else s.vd k := fun k => by
    have hdel : (eraseVd vk s).vds = tblDel s.vds vk := congrArg (tblDel · vk) (accruePkg_vds s (vk / 16)).1
    rw [State.vd, hdel, tblGet, tblFind_del]
    split <;> rfl
  refine ⟨_, eraseVd_world hvd h, ?_, fun k hk => (hvds k).trans (if_neg hk), eraseVd_tlb, eraseVd_memory⟩
  rw [hvds, if_pos rfl]; rfl

/-- A VD with a bound team stays. -/
theorem vdDestroy_refused {y : Team} (hy : y ∈ teamsOn s vk) (hst : y.st = .bound) : Completes (.vdDestroy vk) s fun t => t = s := by
  refine ⟨s, congrArg Host.Outcome.next (if_pos ?_), rfl⟩
  have hany : ((teamsOn s vk).any fun t => t.st == .bound || t.away) = true :=
    List.any_eq_true.2 ⟨y, hy, by rw [hst]; rfl⟩
  rw [hany, Bool.or_true]

/-! ### Ways, priorities and modes -/

section
variable (hvd : (s.vd vk).isVd = true)
include hvd

theorem vdReenable_sets : Completes (.vdReenable vk) s fun t => SetsVd s t vk { s.vd vk with quar := false } :=
  ⟨_, congrArg Host.Outcome.next (if_pos hvd), modVd_setsVd s vk _⟩

theorem qpriWrite_sets (w : Word) : Completes (.qpriWrite vk w) s fun t => SetsVd s t vk { s.vd vk with qpri := w.setWidth 24 } :=
  ⟨_, congrArg Host.Outcome.next (if_pos hvd), modVd_setsVd s vk _⟩

end

/-- A split of this many ways fits: none, or within SMAX with a cache way left. -/
def SplitFits (ways smax n : Nat) : Prop := n = 0 ∨ n ≤ smax ∧ n < ways

theorem splitOk_iff {ways smax n : Nat} : splitOk ways smax n = true ↔ SplitFits ways smax n := by
  rw [splitOk, SplitFits, Bool.or_eq_true, Bool.and_eq_true, beq_iff_eq, decide_eq_true_eq, decide_eq_true_eq]

theorem field_low5 (w : Word) : field w 4 0 = w.toNat % 32 ∧ field w 12 8 = w.toNat / 256 % 32 := by
  simp [field, fieldN]

theorem l2useWrite_sets (hvd : (s.vd vk).isVd = true) {w : Word} (h : SplitFits (s.vd vk).ways (s.vd vk).smax (w.toNat % 32)) :
    Completes (.l2useWrite vk w) s fun t => SetsVd s t vk { s.vd vk with newSways := some (w.toNat % 32) } := by
  have hset := modVd_setsVd s vk fun v => { v with newSways := some (w.toNat % 32) }
  refine ⟨_, ?_, hset⟩
  change execL2useWrite vk w s = _
  rw [execL2useWrite, (field_low5 w).1]
  exact congrArg Host.Outcome.next (if_neg (by rw [hvd, splitOk_iff.2 h]; exact Bool.false_ne_true))

theorem l2useWrite_refused {w : Word} (h : ¬ SplitFits (s.vd vk).ways (s.vd vk).smax (w.toNat % 32)) :
    Completes (.l2useWrite vk w) s fun t => t = s := by
  refine ⟨s, ?_, rfl⟩
  change execL2useWrite vk w s = _
  rw [execL2useWrite, (field_low5 w).1]
  exact congrArg Host.Outcome.next (if_pos (by rw [Bool.eq_false_iff.2 (mt splitOk_iff.1 h)]; exact Bool.or_true _))

/-! ### The grant of ways -/

/-- Lines have left caches: what is to be written back, and the errors in their words, have become no more. -/
def LeftCache (s t : State) : Prop :=
  t = { s with back := t.back, free := t.free, ue := t.ue, ce := t.ce } ∧ (∀ e ∈ t.back, e ∈ s.back) ∧ ∀ e ∈ t.ue, e ∈ s.ue

theorem LeftCache.trans {s t u : State} (h : LeftCache s t) (h' : LeftCache t u) : LeftCache s u := by
  obtain ⟨hw, hb, hu⟩ := h
  obtain ⟨hw', hb', hu'⟩ := h'
  exact ⟨by rw [hw'.trans (by rw [hw])], fun e he => hb e (hb' e he), fun e he => hu e (hu' e he)⟩

theorem cleanTile_leftCache (s : State) (vk : Nat) (x : Tile) : LeftCache s (s.cleanTile vk x) := by
  rw [State.cleanTile]
  split
  · exact ⟨rfl, fun e he => (List.mem_filter.1 he).1, fun e he => he⟩
  · exact ⟨rfl, fun e he => he, fun e he => (List.mem_filter.1 he).1⟩

theorem leaveCache_leftCache (vk lines : Nat) (s : State) : LeftCache s (leaveCache vk lines s) :=
  List.foldlRecOn (motive := LeftCache s) _ _ ⟨rfl, fun _ he => he, fun _ he => he⟩ fun t ht x _ => ht.trans (cleanTile_leftCache t vk x)

/-- The ways of a package's VDs in sum, where this VD has `ways`. -/
def waysSum (s : State) (vk ways : Nat) : Nat :=
  ((List.range 16).map fun i => if i = vk % 16 then ways else (s.vd (vdKey (vk / 16) i)).ways).sum

/-- The VD's own ways count once. -/
theorem waysSum_eq (s : State) (vk ways : Nat) : waysSum s vk ways = ways + waysSum s vk 0 := by
  have hself : (List.range 16).filter (fun i => decide (i = vk % 16)) = [vk % 16] := by
    have hlt : vk % 16 < 16 := Nat.mod_lt _ (by decide)
    generalize vk % 16 = v at hlt
    revert v
    decide
  rw [waysSum, waysSum, List.sum_map_ite, List.sum_map_ite, hself]
  simp

section
variable {w : Word}

/-- The grant of ways that a word asks for is admitted. -/
structure WaysFit (s : State) (vk ways smax : Nat) : Prop where
  sum : waysSum s vk ways ≤ 16
  within : smax ≤ ways
  asked : SplitFits ways smax ((s.vd vk).newSways.getD (s.vd vk).sways)
  split : SplitFits ways smax (s.vd vk).sways
  idle : (s.vd vk).ways ≤ ways ∧ (s.vd vk).smax ≤ smax ∨ ∀ y ∈ teamsOn s vk, y.st ≠ .bound

theorem exec_l2limWrite (hvd : (s.vd vk).isVd = true) (h : WaysFit s vk (w.toNat % 32) (w.toNat / 256 % 32)) :
    exec (.l2limWrite vk w) s = .next ((if w.toNat % 32 < (s.vd vk).ways then leaveCache vk (384 * (w.toNat % 32 - (s.vd vk).sways)) s
      else s).modVd vk fun v => { v with ways := w.toNat % 32, smax := w.toNat / 256 % 32 }) := by
  obtain ⟨hsum, hwithin, hasked, hsplit, hidle⟩ := h
  rw [waysSum_eq, waysSum] at hsum
  change execL2limWrite vk w s = _
  rw [execL2limWrite, (field_low5 w).1, (field_low5 w).2]
  refine congrArg Host.Outcome.next (if_neg ?_)
  have hbusy : ¬ ((decide (w.toNat % 32 < (s.vd vk).ways) || decide (w.toNat / 256 % 32 < (s.vd vk).smax)) &&
      (teamsOn s vk).any fun t => t.st == .bound) = true := by
    rw [Bool.and_eq_true, Bool.or_eq_true, decide_eq_true_eq, decide_eq_true_eq, List.any_eq_true]
    rintro ⟨hlower, y, hy, hst⟩
    obtain ⟨hw, hs⟩ | hnone := hidle
    · omega
    · exact hnone y hy (beq_iff_eq.1 hst)
  rw [hvd, splitOk_iff.2 hasked, splitOk_iff.2 hsplit]
  simp only [Bool.not_true, Bool.false_or, Bool.or_false, Bool.or_eq_true, decide_eq_true_eq, not_or]
  exact ⟨⟨Nat.not_lt.2 hsum, Nat.not_lt.2 hwithin⟩, by simpa only [Bool.and_eq_true, Bool.or_eq_true, decide_eq_true_eq] using hbusy⟩

theorem l2limWrite_sets (hvd : (s.vd vk).isVd = true) (h : WaysFit s vk (w.toNat % 32) (w.toNat / 256 % 32)) :
    Completes (.l2limWrite vk w) s fun t => t = { s with vds := t.vds, back := t.back, free := t.free, ue := t.ue, ce := t.ce } ∧
      t.vd vk = { s.vd vk with ways := w.toNat % 32, smax := w.toNat / 256 % 32 } ∧ (∀ k, k ≠ vk → t.vd k = s.vd k) ∧
      (∀ e ∈ t.back, e ∈ s.back) ∧ (∀ e ∈ t.ue, e ∈ s.ue) ∧
      ((s.vd vk).ways ≤ w.toNat % 32 → t.back = s.back ∧ t.free = s.free ∧ t.ue = s.ue ∧ t.ce = s.ce) := by
  refine ⟨_, exec_l2limWrite hvd h, ?_⟩
  have hleft : LeftCache s (if w.toNat % 32 < (s.vd vk).ways then leaveCache vk (384 * (w.toNat % 32 - (s.vd vk).sways)) s else s) := by
    split
    · exact leaveCache_leftCache ..
    · exact ⟨rfl, fun _ he => he, fun _ he => he⟩
  have hsame : (s.vd vk).ways ≤ w.toNat % 32 →
      (if w.toNat % 32 < (s.vd vk).ways then leaveCache vk (384 * (w.toNat % 32 - (s.vd vk).sways)) s else s) = s :=
    fun hle => if_neg (Nat.not_lt.2 hle)
  generalize (if w.toNat % 32 < (s.vd vk).ways then leaveCache vk (384 * (w.toNat % 32 - (s.vd vk).sways)) s else s) = u at hleft hsame
  obtain ⟨hworld, hback, hue⟩ := hleft
  have hset := modVd_setsVd u vk fun v => { v with ways := w.toNat % 32, smax := w.toNat / 256 % 32 }
  have hvdu : ∀ k, u.vd k = s.vd k := fun k => by rw [hworld]; rfl
  refine ⟨?_, by rw [hset.value, hvdu], fun k hk => (hset.others k hk).trans (hvdu k), hback, hue, fun hle => ?_⟩
  · rw [hset.world, hworld]
  · rw [hsame hle]; exact ⟨rfl, rfl, rfl, rfl⟩

theorem l2limWrite_refused (h : 16 < waysSum s vk (w.toNat % 32) ∨ w.toNat % 32 < w.toNat / 256 % 32) :
    Completes (.l2limWrite vk w) s fun t => t = s := by
  rw [waysSum_eq, waysSum] at h
  refine ⟨s, ?_, rfl⟩
  change execL2limWrite vk w s = _
  rw [execL2limWrite, (field_low5 w).1, (field_low5 w).2]
  refine congrArg Host.Outcome.next (if_pos ?_)
  simp only [Bool.or_eq_true, decide_eq_true_eq]
  obtain h | h := h
  · exact .inl (.inl (.inl (.inl (.inr h))))
  · exact .inl (.inl (.inl (.inr h)))

theorem rmodeWrite_pkg {pkg : Nat} (hpkg : (tblFind s.pkgs pkg).isSome) : Completes (.rmodeWrite pkg none w) s fun t =>
    SetsPkg s t pkg { s.pkg pkg with newRmode := some (BitVec.ofNat 3 (w.toNat / 16)) } := by
  have hfield : BitVec.ofNat 3 (field w 6 4) = BitVec.ofNat 3 (w.toNat / 16) := by
    apply BitVec.eq_of_toNat_eq
    simp [field, fieldN]
  refine ⟨_, congrArg Host.Outcome.next (if_pos hpkg), ?_⟩
  rw [hfield]
  exact modPkg_setsPkg rfl

theorem rmodeWrite_vd {pkg v : Nat} (hvd : (s.vd (vdKey pkg v)).isVd = true) : Completes (.rmodeWrite pkg (some v) w) s fun t =>
    SetsVd s t (vdKey pkg v) { s.vd (vdKey pkg v) with newRmode := some (w.setWidth 4) } :=
  ⟨_, congrArg Host.Outcome.next (if_pos hvd), modVd_setsVd s _ _⟩

end

end

end Sys2Proof.Machine
end

section
/-! SUPPORT. Slot maps and grants (R388, R459). -/

namespace Sys2Proof.Machine

section
variable {s : State} {vk core : Nat}

/-- No thread of the VD has a slot of the core. -/
theorem coreFree_iff {vd gc : Nat} : coreFree s vd gc = true ↔
    ∀ k < 8, (s.thread (gc * 8 + k)).st = .absent ∨ (s.thread (gc * 8 + k)).vd ≠ vd := by
  rw [coreFree, List.all_eq_true]
  simp only [List.mem_range, Bool.or_eq_true, beq_iff_eq, bne_iff_ne]

theorem mem_otherVds {v : Nat} : v ∈ otherVds vk ↔ v < 16 ∧ v ≠ vk % 16 := by
  rw [otherVds, List.mem_filter, List.mem_range, bne_iff_ne]

/-- The slots of a VD of the package on the core. -/
abbrev slotsOf (s : State) (vk core v : Nat) : BitVec 8 := tblGet (s.vd (vdKey (vk / 16) v)).slotMap core 0

theorem slotMapWrite_sets {mask : BitVec 8} (hvd : (s.vd vk).isVd = true) (hcore : core < 16384)
    (hfree : coreFree s (vk % 16) (vk / 16 * 16384 + core) = true)
    (hslots : ∀ v < 16, v ≠ vk % 16 → slotsOf s vk core v &&& mask = 0)
    (hunit : mask = 0 ∨ (∀ v < 16, v ≠ vk % 16 → onDefault s (vk / 16) v core = false) ∧ unitWornOut s (vk / 16) core = false) :
    Completes (.slotMapWrite vk core mask) s fun t => SetsVd s t vk { s.vd vk with slotMap := tblPut (s.vd vk).slotMap core mask } := by
  refine ⟨_, congrArg Host.Outcome.next (if_neg ?_), modVd_setsVd s vk _⟩
  have hothers : (otherVds vk).any (fun v => slotsOf s vk core v &&& mask != 0) = false :=
    List.any_eq_false.2 fun v hv => by
      obtain ⟨hlt, hne⟩ := mem_otherVds.1 hv
      simp [hslots v hlt hne]
  have hkept : (mask != 0 && ((otherVds vk).any (fun v => onDefault s (vk / 16) v core) || unitWornOut s (vk / 16) core)) = false := by
    obtain rfl | ⟨hdefault, hworn⟩ := hunit
    · rfl
    · have hnone : (otherVds vk).any (fun v => onDefault s (vk / 16) v core) = false :=
        List.any_eq_false.2 fun v hv => by
          obtain ⟨hlt, hne⟩ := mem_otherVds.1 hv
          rw [hdefault v hlt hne]
          exact Bool.false_ne_true
      rw [hnone, hworn, Bool.or_false, Bool.and_false]
  have hlow : decide (16384 ≤ core) = false := decide_eq_false (Nat.not_le.2 hcore)
  simp only [hvd, hlow, hfree, hothers, hkept, Bool.not_true, Bool.or_false, Bool.false_eq_true, not_false_eq_true]

theorem slotMapWrite_busy {mask : BitVec 8} (hbusy : ¬ coreFree s (vk % 16) (vk / 16 * 16384 + core) = true) :
    Completes (.slotMapWrite vk core mask) s fun t => t = s := by
  refine ⟨s, congrArg Host.Outcome.next (if_pos ?_), rfl⟩
  rw [Bool.not_eq_true] at hbusy
  simp only [hbusy, Bool.not_false, Bool.or_true, Bool.true_or]

/-- Another VD holds a slot of the mask. -/
theorem slotMapWrite_met {mask : BitVec 8} {v : Nat} (hlt : v < 16) (hne : v ≠ vk % 16) (hmet : slotsOf s vk core v &&& mask ≠ 0) :
    Completes (.slotMapWrite vk core mask) s fun t => t = s := by
  refine ⟨s, congrArg Host.Outcome.next (if_pos ?_), rfl⟩
  have hany : (otherVds vk).any (fun v => slotsOf s vk core v &&& mask != 0) = true :=
    List.any_eq_true.2 ⟨v, mem_otherVds.2 ⟨hlt, hne⟩, bne_iff_ne.2 hmet⟩
  simp only [hany, Bool.or_true, Bool.true_or]

theorem grantMapWrite_refused {val : BitVec 32} (h : grantRefused s vk core val = true) :
    Completes (.grantMapWrite vk core val) s fun t => t = s :=
  ⟨s, congrArg Host.Outcome.next (if_pos (by rw [h, Bool.or_true])), rfl⟩

theorem grantRefused_busy (val : BitVec 32) (hbusy : ¬ coreFree s (vk % 16) (vk / 16 * 16384 + core) = true) :
    grantRefused s vk core val = true := by
  rw [Bool.not_eq_true] at hbusy
  simp only [grantRefused, hbusy, Bool.not_false, Bool.or_true]

/-- A grant beyond the scratchpad, with its ends crossed, or with a reserved bit. -/
theorem grantRefused_malformed {val : BitVec 32} (h : 48 < val.toNat / 2 ^ 8 % 2 ^ 6 ∨ val.toNat / 2 ^ 8 % 2 ^ 6 < val.toNat % 2 ^ 6 ∨
    val.toNat / 2 ^ 28 ≠ 0) : grantRefused s vk core val = true := by
  have hhi : fieldN val.toNat 13 8 = val.toNat / 2 ^ 8 % 2 ^ 6 := rfl
  have hlo : fieldN val.toNat 5 0 = val.toNat % 2 ^ 6 := by rw [fieldN, Nat.pow_zero, Nat.div_one]
  have htop : fieldN val.toNat 31 28 = val.toNat / 2 ^ 28 := by
    have hlt := val.isLt
    rw [fieldN]
    omega
  simp only [grantRefused, hhi, hlo, htop]
  obtain h | h | h := h
  · simp only [h, decide_true, Bool.or_true, Bool.true_or]
  · simp only [h, decide_true, Bool.or_true, Bool.true_or]
  · simp only [bne_iff_ne.2 h, Bool.true_or]

theorem grantMapWrite_sets {val : BitVec 32} (hvd : (s.vd vk).isVd = true) (hcore : core < 16384) (h : grantRefused s vk core val = false) :
    Completes (.grantMapWrite vk core val) s fun t => SetsVd s t vk { s.vd vk with grantMap := tblPut (s.vd vk).grantMap core val } := by
  refine ⟨_, congrArg Host.Outcome.next (if_neg ?_), modVd_setsVd s vk _⟩
  have hlow : decide (16384 ≤ core) = false := decide_eq_false (Nat.not_le.2 hcore)
  simp only [hvd, hlow, h, Bool.not_true, Bool.or_false, Bool.false_eq_true, not_false_eq_true]

end

/-- Settles O50: each write by its own equation, a VD's creation and destruction by the tables that they change. -/
theorem virtualDevicesAndMaps : Obligations.VirtualDevicesAndMaps := by
  unfold Obligations.VirtualDevicesAndMaps
  refine ⟨fun vk pkg w s => ⟨vdCreate_completes, fun hvd => ⟨vdDestroy_completes hvd, fun y hy hst => vdDestroy_refused hy hst,
    vdReenable_sets hvd, qpriWrite_sets hvd w, l2useWrite_sets hvd, l2useWrite_refused, ?_, l2limWrite_refused⟩, rmodeWrite_pkg,
    fun vd hvd => rmodeWrite_vd hvd⟩, fun vk core v mask val s hvd hcore => ?_⟩
  · intro hsum hwithin hasked hsplit hidle
    exact l2limWrite_sets hvd ⟨hsum, hwithin, hasked, hsplit, hidle⟩
  · refine ⟨fun hfree hslots hunit => ?_, fun hlt hne hmet => slotMapWrite_met hlt hne hmet, fun hbusy => ?_,
      fun h => grantMapWrite_refused (grantRefused_malformed h), fun h => ?_⟩
    · obtain ⟨t, ht, hset⟩ := slotMapWrite_sets hvd hcore (coreFree_iff.2 hfree) hslots hunit
      have hmap := congrArg Vd.slotMap hset.value
      exact ⟨t, ht, by rw [hmap]; exact hset, fun k => by rw [hmap]; exact tblFind_put ..⟩
    · have hnot := mt coreFree_iff.1 hbusy
      exact ⟨slotMapWrite_busy hnot, grantMapWrite_refused (grantRefused_busy val hnot)⟩
    · obtain ⟨t, ht, hset⟩ := grantMapWrite_sets hvd hcore h
      have hmap := congrArg Vd.grantMap hset.value
      exact ⟨t, ht, by rw [hmap]; exact hset, fun k => by rw [hmap]; exact tblFind_put ..⟩

end Sys2Proof.Machine
end

section
/-! SUPPORT. What stopping, dropping and releasing a team leaves of other teams, threads and VDs (R337, R356, R364, R431). -/

namespace Sys2Proof.Machine

/-! ### Threads that are to stop -/

/-- A thread that is to stop at its next boundary. -/
def Thread.stopping (x : Thread) : Thread := if x.stop = 0 then { x with stop := 1 } else x

theorem stopping_spec (x : Thread) : x.stopping.stop ≠ 0 ∧ x.stopping.pc = x.pc ∧ x.stopping.id = x.id ∧ x.stopping.nextTurn = x.nextTurn := by
  rw [Thread.stopping]
  split
  · exact ⟨Nat.one_ne_zero, rfl, rfl, rfl⟩
  · rename_i h; exact ⟨h, rfl, rfl, rfl⟩

theorem stopping_stopping (x : Thread) : x.stopping.stopping = x.stopping := by
  rw [Thread.stopping, if_neg (stopping_spec x).1]

/-- A change of some threads that is no other the second time. -/
theorem foldl_modThread {s : State} (hk : s.Keyed) {f : Thread → Thread} (hid : ∀ x, (f x).id = x.id) (hf : ∀ x, f (f x) = f x)
    (ids : List Nat) : (ids.foldl (fun s id => s.modThread id f) s).Keyed ∧
      ∀ k, (ids.foldl (fun s id => s.modThread id f) s).thread k = if k ∈ ids then f (s.thread k) else s.thread k := by
  induction ids generalizing s with
  | nil => exact ⟨hk, fun k => by simp⟩
  | cons id ids ih =>
    rw [List.foldl_cons]
    obtain ⟨hkeyed, hthread⟩ := ih (modThread_keyed hk id f)
    refine ⟨hkeyed, fun k => ?_⟩
    rw [hthread]
    by_cases hne : k = id
    · subst hne
      rw [modThread_thread hk (hid _), hf, ite_self, if_pos List.mem_cons_self]
    · rw [modThread_other hk hne (hid _)]
      simp only [List.mem_cons, hne, false_or]

theorem beginStop_thread {s : State} (hk : s.Keyed) (t : Team) : (beginStop s t).Keyed ∧
    ∀ k, (beginStop s t).thread k = if k ∈ t.tids then (s.thread k).stopping else s.thread k :=
  foldl_modThread hk (f := Thread.stopping) (fun x => (stopping_spec x).2.2.1) stopping_stopping t.tids

/-! ### Teams of other names -/

theorem findTeam_modTeam_other {s : State} {vd num vd' num' : Nat} (hne : ¬ (vd' = vd ∧ num' = num)) {f : Team → Team}
    (hf : ∀ t, (f t).vd = t.vd ∧ (f t).num = t.num) : (s.modTeam vd' num' f).findTeam vd num = s.findTeam vd num := by
  have his : ∀ (v n : Nat) (t : Team), Team.is v n t = true ↔ t.vd = v ∧ t.num = n := fun v n t => by
    rw [Team.is, Bool.and_eq_true, beq_iff_eq, beq_iff_eq]
  rw [State.findTeam, State.findTeam, State.modTeam_teams, List.find?_map]
  have hcomp : Team.is vd num ∘ (fun t => if t.is vd' num' then f t else t) = Team.is vd num := by
    funext t
    rw [Function.comp_apply]
    split
    case isTrue h =>
      rw [Team.is, Team.is, (hf t).1, (hf t).2]
    case isFalse => rfl
  rw [hcomp]
  cases hfind : s.teams.find? (Team.is vd num) with
  | none => rfl
  | some t =>
    have ht := (his vd num t).1 (List.find?_some hfind)
    have hnot : ¬ t.is vd' num' = true := fun h => by
      obtain ⟨hv, hn⟩ := (his vd' num' t).1 h
      exact hne ⟨hv.symm.trans ht.1, hn.symm.trans ht.2⟩
    rw [Option.map_some, if_neg hnot]

theorem findTeam_congr {s t : State} (h : t.teams = s.teams) (vd num : Nat) : t.findTeam vd num = s.findTeam vd num := by
  rw [State.findTeam, h]; rfl

/-! ### What a team holds beside its cores -/

/-- VDs alone have changed, and none of them in whether it exists or is quarantined. -/
structure OnlyVds (s t : State) : Prop where
  world : t = { s with vds := t.vds }
  flags : ∀ k, (t.vd k).quar = (s.vd k).quar

theorem OnlyVds.refl (s : State) : OnlyVds s s := ⟨rfl, fun _ => rfl⟩

theorem OnlyVds.trans {s t u : State} (h : OnlyVds s t) (h' : OnlyVds t u) : OnlyVds s u where
  world := by rw [h'.world, h.world]
  flags k := (h'.flags k).trans (h.flags k)

theorem modVd_onlyVds (s : State) (vk : Nat) {f : Vd → Vd} (hf : ∀ v, (f v).quar = v.quar) : OnlyVds s (s.modVd vk f) where
  world := rfl
  flags k := by
    have hset := modVd_setsVd s vk f
    by_cases hk : k = vk
    · subst hk; rw [hset.value, hf]
    · rw [hset.others k hk]

/-- A team's plans and windows are gone. -/
def dropTables (t : Team) (s : State) : State :=
  s.vds.foldl (fun s (k, v) => if k % 16 != t.vd then s else
    ((v.plans.filter fun p => p.2.team == t.num).foldl (fun s p => dropPlan k p.1 s) s).modVd k fun v =>
      { v with remaps := v.remaps.filter fun r => r.2.team != t.num }) s

theorem dropTables_onlyVds (t : Team) (s : State) : OnlyVds s (dropTables t s) :=
  List.foldlRecOn (motive := OnlyVds s) _ _ (.refl s) fun u hu e _ => by
    refine hu.trans ?_
    obtain ⟨k, v⟩ := e
    dsimp only
    split
    · exact .refl u
    · have hplans : OnlyVds u ((v.plans.filter fun p => p.2.team == t.num).foldl (fun s p => dropPlan k p.1 s) u) :=
        List.foldlRecOn (motive := OnlyVds u) _ _ (.refl u) fun w hw p _ => hw.trans (modVd_onlyVds w k fun _ => rfl)
      exact hplans.trans (modVd_onlyVds _ k fun _ => rfl)

/-- What a team holds beside its cores has been given back, and of the teams this one alone has changed. -/
structure GivesBack (t : Team) (s u : State) : Prop where
  world : u = { s with vds := u.vds, disps := u.disps, posted := u.posted, routers := u.routers, teams := u.teams }
  flags : ∀ k, (u.vd k).quar = (s.vd k).quar
  teams : u.teams = (s.modTeam t.vd t.num fun x => { x with segs := [], pins := [] }).teams

theorem releaseShared_givesBack (t : Team) (s : State) : GivesBack t s (releaseShared t s) := by
  obtain ⟨hworld, hflags⟩ := dropTables_onlyVds t s
  rw [releaseShared]
  change GivesBack t s (State.modTeam (dropLog { dropTables t s with
    disps := _, posted := _, routers := _ } t.vd t.num none) t.vd t.num _)
  generalize dropTables t s = u at hworld hflags
  refine ⟨?_, hflags, ?_⟩
  · rw [hworld]; rfl
  · rw [hworld]; rfl

end Sys2Proof.Machine
end

section
/-! SUPPORT. Alarms, quarantine, erased keys and outputs of the controller (R431, R453). -/

namespace Sys2Proof.Machine

/-! ### Links that go down -/

/-- Links of packages have gone down and routes have been rewritten; nothing else has changed. -/
structure LosesLinks (s t : State) : Prop where
  world : t = { s with pkgs := t.pkgs }
  find : ∀ k q, tblFind s.pkgs k = some q → ∃ up gen, tblFind t.pkgs k = some { q with linksUp := up, routeGen := gen } ∧
    ∀ l ∈ up, l ∈ q.linksUp

theorem LosesLinks.refl (s : State) : LosesLinks s s := ⟨rfl, fun _ q hq => ⟨q.linksUp, q.routeGen, hq, fun _ hl => hl⟩⟩

theorem LosesLinks.trans {s t u : State} (h : LosesLinks s t) (h' : LosesLinks t u) : LosesLinks s u where
  world := by rw [h'.world, h.world]
  find k q hq := by
    obtain ⟨up, gen, ht, hsub⟩ := h.find k q hq
    obtain ⟨up', gen', hu, hsub'⟩ := h'.find k _ ht
    exact ⟨up', gen', hu, fun l hl => hsub l (hsub' l hl)⟩

theorem setLink_down_losesLinks (pkg link : Nat) (s : State) : LosesLinks s (setLink false pkg link s) where
  world := rfl
  find k q hq := by
    rw [setLink, State.modPkg_pkgs, tblFind_put]
    by_cases hk : k = pkg
    · subst hk
      rw [if_pos rfl, pkg_of_find hq]
      refine ⟨_, q.routeGen, rfl, fun l hl => ?_⟩
      rw [if_neg Bool.false_ne_true, List.append_nil] at hl
      exact (List.mem_filter.1 hl).1
    · rw [if_neg hk]; exact ⟨q.linksUp, q.routeGen, hq, fun _ hl => hl⟩

theorem advanceRoutes_losesLinks (domain : Nat) (s : State) : LosesLinks s (advanceRoutes domain s) where
  world := rfl
  find k q hq := by
    rw [advanceRoutes_find, hq, Option.map_some]
    split
    · exact ⟨q.linksUp, q.routeGen + 1, rfl, fun _ hl => hl⟩
    · exact ⟨q.linksUp, q.routeGen, rfl, fun _ hl => hl⟩

theorem failLink_losesLinks (pkg : Nat) (s : State) (link : Nat) : LosesLinks s (failLink pkg s link) := by
  rw [failLink]
  split
  · have hfar : LosesLinks s (match farLink s pkg link true with
        | some (q, l) => setLink false q l s
        | none => s) := by
      split
      · exact setLink_down_losesLinks ..
      · exact .refl s
    exact (hfar.trans (setLink_down_losesLinks ..)).trans (advanceRoutes_losesLinks ..)
  · exact .refl s

theorem failLink_drops (pkg : Nat) (s : State) (link : Nat) : link ∉ ((failLink pkg s link).pkg pkg).linksUp := by
  rw [failLink]
  split
  · simp [mem_setLink]
  · rename_i h
    exact fun hl => h (List.contains_iff_mem.2 hl)

section
variable {s t : State} {pkg : Nat} {p : Pkg} (hp : tblFind s.pkgs pkg = some p)
include hp

theorem losesLinks_pkg (h : LosesLinks s t) : ∃ up gen, tblFind t.pkgs pkg = some { p with linksUp := up, routeGen := gen } ∧
    t.pkg pkg = { p with linksUp := up, routeGen := gen } ∧ ∀ l ∈ up, l ∈ p.linksUp := by
  obtain ⟨up, gen, ht, hsub⟩ := h.find pkg p hp
  exact ⟨up, gen, ht, pkg_of_find ht, hsub⟩

/-- Once every link of a package has failed, none is up. -/
theorem failLinks_none : LosesLinks s (p.linksUp.foldl (failLink pkg) s) ∧ ∃ gen,
    tblFind (p.linksUp.foldl (failLink pkg) s).pkgs pkg = some { p with linksUp := [], routeGen := gen } := by
  have hloses : LosesLinks s (p.linksUp.foldl (failLink pkg) s) :=
    List.foldlRecOn (motive := LosesLinks s) _ _ (.refl s) fun t ht l _ => ht.trans (failLink_losesLinks pkg t l)
  obtain ⟨up, gen, hfind, hpkg, hsub⟩ := losesLinks_pkg hp hloses
  have hgone : ∀ l ∈ p.linksUp, l ∉ up := fun l hl => by
    have hdown : l ∉ ((p.linksUp.foldl (failLink pkg) s).pkg pkg).linksUp ∧ LosesLinks s (p.linksUp.foldl (failLink pkg) s) := by
      refine foldl_reaches (P := LosesLinks s) (Q := fun t => l ∉ (t.pkg pkg).linksUp ∧ LosesLinks s t) (x := l)
        (fun t m _ ht _ => ht.trans (failLink_losesLinks pkg t m))
        (fun t ht => ⟨failLink_drops pkg t l, ht.trans (failLink_losesLinks pkg t l)⟩) (fun t m _ ht => ?_) hl (.refl s)
      obtain ⟨hnot, hlost⟩ := ht
      refine ⟨fun hmem => hnot ?_, hlost.trans (failLink_losesLinks pkg t m)⟩
      obtain ⟨upt, gent, hfindt, hpkgt, -⟩ := losesLinks_pkg hp hlost
      obtain ⟨_, _, _, hpkg', hsub'⟩ := losesLinks_pkg hfindt (failLink_losesLinks pkg t m)
      rw [hpkg'] at hmem
      rw [hpkgt]
      exact hsub' l hmem
    rw [hpkg] at hdown
    exact hdown.1
  have hnil : up = [] := List.eq_nil_iff_forall_not_mem.2 fun l hl => hgone l (hsub l hl) hl
  subst hnil
  exact ⟨hloses, gen, hfind⟩

/-- The keys are erased and every link is down; the package's latch, its rings and the threads are as they were. -/
theorem eraseKeys_dark : let t := eraseKeys pkg s
    t = { s with pkgs := t.pkgs } ∧ (t.pkg pkg).erased = true ∧ (t.pkg pkg).linksUp = [] ∧ (t.pkg pkg).latch = p.latch := by
  obtain ⟨hloses, gen, hfind⟩ := failLinks_none hp
  have hworld := hloses.world
  rw [eraseKeys, pkg_of_find hp]
  generalize p.linksUp.foldl (failLink pkg) s = t at hworld hfind
  intro u
  have hpkg : u.pkg pkg = { p with linksUp := [], routeGen := gen, erased := true } := by
    rw [modPkg_pkg_same, pkg_of_find hfind]
  refine ⟨?_, by rw [hpkg], by rw [hpkg], by rw [hpkg]⟩
  change t.modPkg pkg _ = { s with pkgs := (t.modPkg pkg _).pkgs }
  rw [hworld]
  rfl

end

/-! ### Quarantine -/

/-- A team has been stopped or dropped: no VD's quarantine, no other team, and no stop of a thread has changed. -/
structure Disturbs (vd num : Nat) (s t : State) : Prop where
  flags : ∀ k, (t.vd k).quar = (s.vd k).quar
  keyed : s.Keyed → t.Keyed
  stops : s.Keyed → ∀ k, (s.thread k).stop ≠ 0 → (t.thread k).stop ≠ 0
  teams : ∀ vd' num', ¬ (vd = vd' ∧ num = num') → t.findTeam vd' num' = s.findTeam vd' num'

section
variable {vd num : Nat} {s t u : State}

theorem Disturbs.trans (h : Disturbs vd num s t) (h' : Disturbs vd num t u) : Disturbs vd num s u where
  flags k := (h'.flags k).trans (h.flags k)
  keyed hk := h'.keyed (h.keyed hk)
  stops hk k hstop := h'.stops (h.keyed hk) k (h.stops hk k hstop)
  teams vd' num' hne := (h'.teams vd' num' hne).trans (h.teams vd' num' hne)

theorem Disturbs.of_eq (hvds : t.vds = s.vds) (hthr : t.thr = s.thr) (hthreads : t.threads = s.threads) (hteams : t.teams = s.teams) :
    Disturbs vd num s t where
  flags k := by rw [State.vd, hvds]; rfl
  keyed hk e he := hk e (hthreads ▸ he)
  stops _ k hstop := by rw [thread_congr hthr hthreads]; exact hstop
  teams vd' num' _ := findTeam_congr hteams vd' num'

theorem modTeam_disturbs (s : State) {f : Team → Team} (hf : ∀ t, (f t).vd = t.vd ∧ (f t).num = t.num) :
    Disturbs vd num s (s.modTeam vd num f) where
  flags _ := rfl
  keyed hk := hk
  stops _ _ hstop := hstop
  teams _ _ hne := findTeam_modTeam_other hne hf

theorem beginStop_disturbs (s : State) (x : Team) : Disturbs vd num s (beginStop s x) where
  flags k := by
    have hworld := beginStop_onlyThreads s x
    rw [OnlyThreads] at hworld
    rw [hworld]; rfl
  keyed hk := (beginStop_thread hk x).1
  stops hk k hstop := by
    rw [(beginStop_thread hk x).2]
    split
    · exact (stopping_spec _).1
    · exact hstop
  teams vd' num' _ := by
    have hworld := beginStop_onlyThreads s x
    rw [OnlyThreads] at hworld
    rw [hworld]; rfl

/-- A request to discard a team, as it begins. -/
def State.beginDiscard (s : State) (x : Team) (r : PreReq) : State :=
  beginStop ((dropCase x.vd x.num s).modTeam x.vd x.num fun t => { t with pre := some r }) x

theorem beginDiscard_disturbs (s : State) (x : Team) (r : PreReq) : Disturbs x.vd x.num s (s.beginDiscard x r) := by
  refine Disturbs.trans (t := dropCase x.vd x.num s) (.of_eq rfl rfl rfl rfl) ?_
  exact (modTeam_disturbs _ (f := fun t => { t with pre := some r }) fun _ => ⟨rfl, rfl⟩).trans (beginStop_disturbs ..)

theorem forceDiscard_disturbs (action : Nat) (s : State) (x : Team) : Disturbs x.vd x.num s (forceDiscard action s x) := by
  have hrefl : Disturbs x.vd x.num s s := .of_eq rfl rfl rfl rfl
  rw [forceDiscard]
  split
  · exact hrefl
  split
  · exact beginDiscard_disturbs ..
  · split
    · exact hrefl
    · exact beginDiscard_disturbs ..

theorem dropSaved_disturbs (s : State) (x : Team) : Disturbs x.vd x.num s (dropSaved s x) := by
  obtain ⟨hworld, hflags, hteams⟩ := releaseShared_givesBack { x with seats := [] } s
  rw [dropSaved]
  generalize releaseShared { x with seats := [] } s = u at hworld hflags hteams
  have hback : Disturbs x.vd x.num s u := by
    have hteam : Disturbs x.vd x.num s _ := modTeam_disturbs s (f := fun x => { x with segs := [], pins := [] }) fun _ => ⟨rfl, rfl⟩
    refine ⟨hflags, fun hk => ?_, fun hk k hstop => ?_, fun vd' num' hne => ?_⟩
    · rw [hworld]; exact hk
    · rw [hworld]; exact hstop
    · rw [findTeam_congr hteams]; exact hteam.teams vd' num' hne
  let f : Team → Team := fun t =>
    { t with st := .discarded, pre := none, shadows := [], heldLists := [], savedCores := [], counts := [] }
  have hdrop : ∀ w : State, w.vds = u.vds → w.thr = u.thr → w.threads = u.threads → w.teams = u.teams →
      Disturbs x.vd x.num u (w.modTeam x.vd x.num f) := fun w hvds hthr hthreads hteams =>
    Disturbs.trans (.of_eq hvds hthr hthreads hteams) (modTeam_disturbs w (f := f) fun _ => ⟨rfl, rfl⟩)
  exact hback.trans (hdrop _ rfl rfl rfl rfl)

theorem passHead_disturbs (s : State) (fn q : Nat) : Disturbs vd num s (s.passHead fn q) := .of_eq rfl rfl rfl rfl

theorem dropUnbound_disturbs (vk : Nat) (s : State) (x : Team) : Disturbs x.vd x.num s (dropUnbound vk s x) := by
  have hleave : Disturbs x.vd x.num s (leaveFront (leaveRing s x) x) := by
    refine Disturbs.trans (t := leaveRing s x) ?_ (.of_eq rfl rfl rfl rfl)
    rw [leaveRing]
    split
    · exact passHead_disturbs ..
    · exact .of_eq rfl rfl rfl rfl
  rw [dropUnbound]
  refine hleave.trans ?_
  generalize leaveFront (leaveRing s x) x = u
  split
  · refine (dropSaved_disturbs u x).trans ?_
    have hpost : ∀ (w : State) (r : PreReq), Disturbs x.vd x.num w (postRequest w vk x.num r 2 0) := fun w r => by
      rw [postRequest, postCp_world]
      exact .of_eq rfl rfl rfl rfl
    exact hpost _ _
  · exact modTeam_disturbs u (f := fun t => { t with st := .discarded, inRing := false, pre := none }) fun _ => ⟨rfl, rfl⟩

/-- What a quarantine does to one team. -/
def quarantineTeam (vk : Nat) (s : State) (x : Team) : State :=
  match x.st with
  | .bound => forceDiscard 5 s x
  | .saved | .selected | .reposted => dropUnbound vk s x
  | .completed | .refused | .stopped | .discarded => s

theorem quarantineTeam_disturbs (vk : Nat) (s : State) (x : Team) : Disturbs x.vd x.num s (quarantineTeam vk s x) := by
  rw [quarantineTeam]
  cases x.st with
  | bound => exact forceDiscard_disturbs ..
  | saved | selected | reposted => exact dropUnbound_disturbs ..
  | completed | refused | stopped | discarded => exact .of_eq rfl rfl rfl rfl

theorem quarantine_eq (vk : Nat) (s : State) : quarantine vk s =
    (teamsOn (s.modVd vk fun v => { v with quar := true }) vk).foldl (quarantineTeam vk) (s.modVd vk fun v => { v with quar := true }) := by
  rw [quarantine]
  refine congrArg (fun f => List.foldl f _ _) (funext fun s => funext fun x => ?_)
  rw [quarantineTeam] <;>
  (cases x.st <;> rfl)

/-- A VD's quarantine stands once its teams have been stopped and dropped. -/
theorem quarantine_flag (vk : Nat) (s : State) : ((quarantine vk s).vd vk).quar = true := by
  rw [quarantine_eq]
  refine List.foldlRecOn (motive := fun t : State => (t.vd vk).quar = true) _ _ ?_ fun t ht x _ => ?_
  · rw [(modVd_setsVd s vk fun v => { v with quar := true }).value]
  · rw [(quarantineTeam_disturbs vk t x).flags]; exact ht

/-- The discard without reposting of a bound team has begun. -/
def Discarding (y : Team) (t : State) : Prop :=
  t.Keyed ∧ (∃ z r, t.findTeam y.vd y.num = some z ∧ z.pre = some r ∧ r.action = 5) ∧ ∀ k ∈ y.tids, (t.thread k).stop ≠ 0

theorem forceDiscard_discarding {y : Team} (hst : y.st = .bound) (hpre : y.pre = none) (hk : s.Keyed)
    (hsome : (s.findTeam y.vd y.num).isSome) : Discarding y (forceDiscard 5 s y) := by
  obtain ⟨z, hz⟩ := Option.isSome_iff_exists.1 hsome
  have hbegin : forceDiscard 5 s y = s.beginDiscard y ⟨0, 0, 0, 0, 0, 5, false, false, none⟩ := by
    rw [forceDiscard, hst, hpre]; rfl
  rw [hbegin, State.beginDiscard]
  have hfound : ((dropCase y.vd y.num s).modTeam y.vd y.num fun t =>
      { t with pre := some ⟨0, 0, 0, 0, 0, 5, false, false, none⟩ }).findTeam y.vd y.num =
      some { z with pre := some ⟨0, 0, 0, 0, 0, 5, false, false, none⟩ } :=
    findTeam_modTeam (s := dropCase y.vd y.num s) hz fun _ => rfl
  have hk' : ((dropCase y.vd y.num s).modTeam y.vd y.num fun t =>
      { t with pre := some ⟨0, 0, 0, 0, 0, 5, false, false, none⟩ }).Keyed := hk
  generalize ((dropCase y.vd y.num s).modTeam y.vd y.num fun t =>
      { t with pre := some ⟨0, 0, 0, 0, 0, 5, false, false, none⟩ }) = u at hfound hk'
  obtain ⟨hkeyed, hthread⟩ := beginStop_thread hk' y
  have hworld := beginStop_onlyThreads u y
  rw [OnlyThreads] at hworld
  refine ⟨hkeyed, ⟨{ z with pre := some _ }, ⟨0, 0, 0, 0, 0, 5, false, false, none⟩, ?_, rfl, rfl⟩, fun k hmem => ?_⟩
  · rw [← hfound, hworld]; rfl
  · rw [hthread, if_pos hmem]; exact (stopping_spec _).1

theorem quarantine_discards {vk : Nat} {y : Team} (hk : s.Keyed) (hy : y ∈ teamsOn s vk) (hst : y.st = .bound) (hpre : y.pre = none)
    (huniq : ∀ x ∈ s.teams, x.vd = y.vd → x.num = y.num → x = y) : Discarding y (quarantine vk s) := by
  rw [quarantine_eq]
  have hsame : teamsOn (s.modVd vk fun v => { v with quar := true }) vk = teamsOn s vk := rfl
  have hmember : ∀ x ∈ teamsOn s vk, x ∈ s.teams := fun x hx => (List.mem_filter.1 hx).1
  have hfound : (s.findTeam y.vd y.num).isSome := by
    rw [State.findTeam, List.find?_isSome]
    exact ⟨y, hmember y hy, by simp [Team.is]⟩
  have hquar : quarantineTeam vk = fun t x => quarantineTeam vk t x := rfl
  rw [hsame]
  refine foldl_reaches (P := fun t : State => t.Keyed ∧ (t.findTeam y.vd y.num).isSome) (Q := Discarding y) (x := y)
    (fun t x hx ht hne => ?_) (fun t ht => ?_) (fun t x hx ht => ?_) hy ⟨hk, hfound⟩
  · have hd := quarantineTeam_disturbs vk t x
    have hother : ¬ (x.vd = y.vd ∧ x.num = y.num) := fun h => hne (huniq x (hmember x hx) h.1 h.2)
    exact ⟨hd.keyed ht.1, by rw [hd.teams _ _ hother]; exact ht.2⟩
  · rw [quarantineTeam, hst]
    exact forceDiscard_discarding hst hpre ht.1 ht.2
  · obtain ⟨hkeyed, ⟨z, r, hz, hrest⟩, hstops⟩ := ht
    by_cases hother : x.vd = y.vd ∧ x.num = y.num
    · obtain rfl := huniq x (hmember x hx) hother.1 hother.2
      rw [quarantineTeam, hst]
      exact forceDiscard_discarding hst hpre hkeyed (by rw [hz]; rfl)
    · have hd := quarantineTeam_disturbs vk t x
      exact ⟨hd.keyed hkeyed, ⟨z, r, (hd.teams _ _ hother).trans hz, hrest⟩, fun k hmem => hd.stops hkeyed k (hstops k hmem)⟩

end

end Sys2Proof.Machine
end

section
/-! SUPPORT. Each source's alarm, the controller's outputs, and what a package reset leaves (R430, R431, R453, R455). -/

namespace Sys2Proof.Machine

section
variable {s : State} {pkg : Nat} {p : Pkg} (hp : tblFind s.pkgs pkg = some p)
include hp

theorem pkg_listed : ¬ (tblFind s.pkgs pkg).isNone = true := by rw [hp]; exact Bool.false_ne_true

/-! ### Alarms -/

theorem alarm_link (vd : Option Nat) : Completes (.securityAlarm pkg .linkAuthentication vd) s fun t =>
    t = postOlush s pkg 0 21 (1 + 3 * 256) 0xFF :=
  ⟨_, congrArg Host.Outcome.next (if_neg (pkg_listed hp)), rfl⟩

theorem alarm_temperature (vd : Option Nat) : Completes (.securityAlarm pkg .temperature vd) s fun t =>
    t = postOlush s pkg 0 21 (1 + 4 * 256) 0xFF :=
  ⟨_, congrArg Host.Outcome.next (if_neg (pkg_listed hp)), rfl⟩

theorem alarm_role (v : Nat) : Completes (.securityAlarm pkg .roleSignature (some v)) s fun t =>
    t = postOlush s pkg v 21 (1 + 256) v :=
  ⟨_, congrArg Host.Outcome.next (if_neg (pkg_listed hp)), rfl⟩

theorem alarm_record (vd : Option Nat) : Completes (.securityAlarm pkg .firmwareOrRecord vd) s fun t =>
    t.pkg pkg = { p with booted := false } ∧ Alarmed s t pkg 0 21 (1 + 2 * 256) 0xFF := by
  refine ⟨_, congrArg Host.Outcome.next (if_neg (pkg_listed hp)), ?_, rfl, rfl⟩
  rw [modPkg_pkg_same]
  exact congrArg (fun q : Pkg => { q with booted := false }) ((postOlush_pkg ..).trans (pkg_of_find hp))

theorem alarm_quarantine {v : Nat} {y : Team} (hk : s.Keyed) : Completes (.securityAlarm pkg .debugNamingVd (some v)) s fun t =>
    (t.vd (vdKey pkg v)).quar = true ∧
      (y ∈ teamsOn s (vdKey pkg v) → y.st = .bound → y.pre = none → (∀ x ∈ s.teams, x.vd = y.vd → x.num = y.num → x = y) →
        Discarding y t) := by
  have hworld := postOlush_world s pkg v 21 (2 + 5 * 256) v
  refine ⟨_, congrArg Host.Outcome.next (if_neg (pkg_listed hp)), ?_⟩
  change (State.vd (quarantine (vdKey pkg v) (postOlush s pkg v 21 (2 + 5 * 256) v)) (vdKey pkg v)).quar = true ∧ (_ → _ → _ → _ →
    Discarding y (quarantine (vdKey pkg v) (postOlush s pkg v 21 (2 + 5 * 256) v)))
  refine ⟨quarantine_flag .., fun hy hst hpre huniq => quarantine_discards ?_ ?_ hst hpre ?_⟩
  · rw [hworld]; exact hk
  · rw [hworld]; exact hy
  · rw [hworld]; exact huniq

/-- The keys are erased after an event of the controller. -/
theorem erase_after_event (type i0 i1 : Nat) : let t := eraseKeys pkg (postOlush s pkg 0 type i0 i1)
    Alarmed s t pkg 0 type i0 i1 ∧ (t.pkg pkg).erased = true ∧ (t.pkg pkg).linksUp = [] ∧ (t.pkg pkg).latch = p.latch := by
  have hp' : tblFind (postOlush s pkg 0 type i0 i1).pkgs pkg = some p := by rw [postOlush_pkgs]; exact hp
  obtain ⟨hworld, herased, hlinks, hlatch⟩ := eraseKeys_dark hp'
  exact ⟨⟨(congrArg State.fns hworld :), (congrArg State.mem hworld :)⟩, herased, hlinks, hlatch⟩

theorem alarm_debug (vd : Option Nat) : Completes (.securityAlarm pkg .debugNoVd vd) s fun t =>
    ((t.pkg pkg).erased = true ∧ (t.pkg pkg).linksUp = []) ∧ (t.pkg pkg).latch = p.latch ∧ Alarmed s t pkg 0 21 (3 + 6 * 256) 0xFF := by
  obtain ⟨halarm, herased, hlinks, hlatch⟩ := erase_after_event hp 21 (3 + 6 * 256) 0xFF
  exact ⟨_, congrArg Host.Outcome.next (if_neg (pkg_listed hp)), ⟨herased, hlinks⟩, hlatch, halarm⟩

/-- The keys are erased and the latch is set, after the event of a source. -/
theorem latch_after_event (i0 : Nat) :
    let t := (eraseKeys pkg (postOlush s pkg 0 21 i0 0xFF)).modPkg pkg fun p => { p with latch := true }
    ((t.pkg pkg).erased = true ∧ (t.pkg pkg).linksUp = []) ∧ (t.pkg pkg).latch = true ∧ Alarmed s t pkg 0 21 i0 0xFF := by
  obtain ⟨halarm, herased, hlinks, -⟩ := erase_after_event hp 21 i0 0xFF
  generalize eraseKeys pkg (postOlush s pkg 0 21 i0 0xFF) = u at halarm herased hlinks
  intro t
  have hpkg : t.pkg pkg = { u.pkg pkg with latch := true } := modPkg_pkg_same ..
  rw [hpkg]
  exact ⟨⟨herased, hlinks⟩, rfl, halarm⟩

theorem alarm_glitch (vd : Option Nat) : Completes (.securityAlarm pkg .glitch vd) s fun t =>
    ((t.pkg pkg).erased = true ∧ (t.pkg pkg).linksUp = []) ∧ (t.pkg pkg).latch = true ∧ Alarmed s t pkg 0 21 (3 + 7 * 256) 0xFF :=
  ⟨_, congrArg Host.Outcome.next (if_neg (pkg_listed hp)), latch_after_event hp (3 + 7 * 256)⟩

theorem alarm_tamper (vd : Option Nat) : Completes (.securityAlarm pkg .tamper vd) s fun t =>
    ((t.pkg pkg).erased = true ∧ (t.pkg pkg).linksUp = []) ∧ (t.pkg pkg).latch = true ∧ Alarmed s t pkg 0 21 (3 + 8 * 256) 0xFF :=
  ⟨_, congrArg Host.Outcome.next (if_neg (pkg_listed hp)), latch_after_event hp (3 + 8 * 256)⟩

/-! ### Outputs of the controller -/

section
variable (cluster val : Nat)

theorem output_erase (hlatch : p.latch = true) : Completes (.olushOutput pkg true cluster val) s fun t =>
    ((t.pkg pkg).erased = true ∧ (t.pkg pkg).linksUp = []) ∧ t.thr = s.thr := by
  obtain ⟨hworld, herased, hlinks, -⟩ := eraseKeys_dark hp
  have hl : (s.pkg pkg).latch = true := by rw [pkg_of_find hp]; exact hlatch
  refine ⟨eraseKeys pkg s, ?_, ⟨herased, hlinks⟩, (congrArg State.thr hworld :)⟩
  change execOlushOutput pkg true cluster val s = _
  rw [execOlushOutput, if_neg (pkg_listed hp), if_pos rfl, if_pos hl]

theorem output_erase_refused (hlatch : p.latch = false) : Completes (.olushOutput pkg true cluster val) s fun t =>
    t = postOlush s pkg 0 24 1 val := by
  have hl : ¬ (s.pkg pkg).latch = true := by rw [pkg_of_find hp, hlatch]; exact Bool.false_ne_true
  refine ⟨_, ?_, rfl⟩
  change execOlushOutput pkg true cluster val s = _
  rw [execOlushOutput, if_neg (pkg_listed hp), if_pos rfl, if_neg hl]

/-- A setpoint stands within the window, and at most 20 guard steps above its base. -/
def SetpointFits (p : Pkg) (cluster val : Nat) : Prop :=
  p.window.1 ≤ val ∧ val ≤ p.window.2 ∧ val ≤ Config.baseSetpoint cluster + 500

omit hp in
theorem setpointFits_iff : (decide (p.window.1 ≤ val) && decide (val ≤ p.window.2) &&
    decide (val ≤ Config.baseSetpoint cluster + marginOf 20)) = true ↔ SetpointFits p cluster val := by
  rw [SetpointFits, marginOf, Bool.and_eq_true, Bool.and_eq_true, decide_eq_true_eq, decide_eq_true_eq, decide_eq_true_eq, and_assoc]

theorem output_setpoint (hfits : SetpointFits p cluster val) : Completes (.olushOutput pkg false cluster val) s fun t =>
    t = { s with pkgs := t.pkgs } ∧
      tblGet (t.pkg pkg).wear cluster Wear.blank = { tblGet p.wear cluster Wear.blank with setpoint := val } := by
  rw [← setpointFits_iff, ← pkg_of_find hp] at hfits
  refine ⟨s.modPkg pkg fun p => { p with wear := tblPut p.wear cluster { tblGet p.wear cluster Wear.blank with setpoint := val } },
    ?_, rfl, ?_⟩
  · change execOlushOutput pkg false cluster val s = _
    rw [execOlushOutput, if_neg (pkg_listed hp), if_neg Bool.false_ne_true, if_pos hfits]
  · rw [modPkg_pkg_same, pkg_of_find hp]
    exact (tblGet_put ..).trans (if_pos rfl)

theorem output_setpoint_refused (hfits : ¬ SetpointFits p cluster val) : Completes (.olushOutput pkg false cluster val) s fun t =>
    t = postOlush s pkg 0 24 0 val := by
  rw [← setpointFits_iff, ← pkg_of_find hp] at hfits
  refine ⟨_, ?_, rfl⟩
  change execOlushOutput pkg false cluster val s = _
  rw [execOlushOutput, if_neg (pkg_listed hp), if_neg Bool.false_ne_true, if_neg hfits]

end

end

/-! ### A wiped package -/

theorem tblGet_filter {α : Type} (t : Tbl α) (P : Nat → Bool) (k : Nat) (d : α) :
    tblGet (t.filter fun e => P e.1) k d = if P k then tblGet t k d else d := by
  induction t with
  | nil => simp [tblGet, tblFind]
  | cons e t ih =>
    rw [tblGet] at ih
    rw [List.filter_cons, tblGet, tblGet]
    by_cases hk : e.1 = k
    · by_cases hP : P k = true
      · have he : P e.1 = true := hk ▸ hP
        rw [if_pos he]
        simp [hP, tblFind, hk]
      · have he : ¬ P e.1 = true := hk ▸ hP
        rw [if_neg he, ih, if_neg hP, if_neg hP]
    · split
      · simpa [tblFind, hk, tblGet] using ih
      · simpa [tblFind, hk, tblGet] using ih

/-- What of a package is gone once it has been wiped: threads, VDs, cores and memory. -/
structure Wiped (pkg : Nat) (s t : State) : Prop where
  thread : ∀ k, t.thread k = if pkgOfThread k = pkg then Thread.blank k else s.thread k
  vd : ∀ k, t.vd k = if k / 16 = pkg then Vd.blank else s.vd k
  core : ∀ gc, t.core gc = if pkgOf gc = pkg then Core.blank else s.core gc
  mem : ∀ x, memRead t.mem x = if (massifAt x).map (fun y => y.1) = some pkg then 0 else memRead s.mem x

theorem wipePackage_wiped (pkg : Nat) (s : State) : Wiped pkg s (wipePackage pkg s) where
  thread k := by
    have hthr : (wipePackage pkg s).thr = if pkgOfThread s.thr.id = pkg then Thread.blank s.thr.id else s.thr := by
      change (if (pkgOfThread s.thr.id == pkg) = true then Thread.blank s.thr.id else s.thr) = _
      simp only [beq_iff_eq]
    have hid : (wipePackage pkg s).thr.id = s.thr.id := by rw [hthr]; split <;> rfl
    rw [State.thread, State.thread, hid]
    by_cases hk : s.thr.id = k
    · rw [if_pos hk, if_pos hk, hthr, hk]
    · rw [if_neg hk, if_neg hk]
      refine (tblGet_filter s.threads (fun k => !(pkgOfThread k == pkg)) k (Thread.blank k)).trans ?_
      by_cases hhere : pkgOfThread k = pkg <;> simp [hhere]
  vd k := by
    refine (tblGet_filter s.vds (fun k => k / 16 != pkg) k Vd.blank).trans ?_
    rw [State.vd]
    by_cases hhere : k / 16 = pkg <;> simp [hhere]
  core gc := by
    refine (tblGet_filter s.cores (fun k => pkgOf k != pkg) gc Core.blank).trans ?_
    rw [State.core]
    by_cases hhere : pkgOf gc = pkg <;> simp [hhere]
  mem x := by
    refine (memRead_filter s.mem (fun l => !((massifAt l).map (fun x => x.1) == some pkg)) x).trans ?_
    by_cases hhere : (massifAt x).map (fun y => y.1) = some pkg <;> simp [hhere]

theorem Wiped.of_same {pkg : Nat} {s t u : State} (h : Wiped pkg s t) (hu : u = { t with fns := u.fns, pkgs := u.pkgs }) : Wiped pkg s u where
  thread k := by rw [hu]; exact h.thread k
  vd k := by rw [hu]; exact h.vd k
  core gc := by rw [hu]; exact h.core gc
  mem x := by rw [hu]; exact h.mem x

theorem wipePackage_fn (pkg : Nat) (s : State) : (wipePackage pkg s).fn (pkg * 32) = Function.blank :=
  (tblGet_put ..).trans (if_pos rfl)

/-! ### The event after a reset -/

theorem evRecord_type (time type cause vd kind num team fab i0 i1 : Nat) :
    ((evRecord time type cause vd kind num team fab i0 i1).drop 8).take 2 = toBytes 2 type := rfl

/-- An event of a package whose rings are blank is held. -/
theorem postOlush_held {s : State} {pkg type : Nat} (hfn : s.fn (pkg * 32) = Function.blank) (htype : 21 ≤ type ∧ type ≤ 26) (i0 i1 : Nat) :
    let t := postOlush s pkg 0 type i0 i1
    t = { s with fns := t.fns } ∧ (t.fn (pkg * 32)).queues = Vector.replicate 8 Queue.blank ∧
      ∃ rec_ : List Byte, (t.fn (pkg * 32)).rings[0]? = some { Ring.blank with hold := [rec_] } ∧ (rec_.drop 8).take 2 = toBytes 2 type := by
  have hring : ringOf pkg 0 type 2 = (pkg * 32, 0) := by
    rw [ringOf, if_pos (by simp [htype])]; rfl
  have hg : (s.fn (pkg * 32)).rings[0]? = some Ring.blank := by rw [hfn]; rfl
  obtain ⟨hmem, hset⟩ := ringPost_keeps hg (.inl rfl) (evRecord (s.time pkg) type 0 0 2 0 0 noFab i0 i1)
  have hpost : postOlush s pkg 0 type i0 i1 = ringPost s (pkg * 32) 0 (evRecord (s.time pkg) type 0 0 2 0 0 noFab i0 i1) := by
    rw [postOlush, postEvent, hring]
  rw [hpost]
  refine ⟨?_, ?_, _, hset.value, evRecord_type ..⟩
  · have hworld := hset.world
    rw [hmem] at hworld
    exact hworld
  · rw [hset.kept.1, hfn]; rfl

/-! ### A package reset -/

section
variable {s : State} {pkg : Nat} {p : Pkg} (hp : tblFind s.pkgs pkg = some p)

theorem recordsOk_iff : p.recordsOk = true ↔ (∀ x ∈ p.images, x.verifies = true) ∧ p.rollback ≤ p.configVersion ∧ p.mirrorSeq ≤ p.healthSeq := by
  rw [Pkg.recordsOk, Bool.and_eq_true, Bool.and_eq_true, List.all_eq_true, decide_eq_true_eq, decide_eq_true_eq, and_assoc]

/-- What a reset leaves with its event: nothing of the package but `q`, and what the other packages had. -/
structure ResetTo (s t : State) (pkg type : Nat) (q : Pkg) : Prop where
  gone : Wiped pkg s t
  queues : (t.fn (pkg * 32)).queues = Vector.replicate 8 Queue.blank
  event : ∃ rec_ : List Byte, (t.fn (pkg * 32)).rings[0]? = some { Ring.blank with hold := [rec_] } ∧ (rec_.drop 8).take 2 = toBytes 2 type
  pkg : t.pkg pkg = q

/-- The package has lost its links and everything that it held. -/
def State.emptied (s : State) (pkg : Nat) (p : Pkg) : State := wipePackage pkg (p.linksUp.foldl (failLink pkg) s)

include hp in
theorem emptied_resets {type : Nat} (htype : 21 ≤ type ∧ type ≤ 26) (q : Pkg) (i0 i1 : Nat) :
    ResetTo s (postOlush ((s.emptied pkg p).modPkg pkg fun _ => q) pkg 0 type i0 i1) pkg type q ∧ (s.emptied pkg p).cycle = s.cycle := by
  obtain ⟨hloses, -⟩ := failLinks_none hp
  have hworld := hloses.world
  have hwiped : Wiped pkg s (s.emptied pkg p) := by
    have h := wipePackage_wiped pkg (p.linksUp.foldl (failLink pkg) s)
    rw [State.emptied]
    generalize p.linksUp.foldl (failLink pkg) s = u at hworld h
    exact ⟨fun k => (h.thread k).trans (by rw [hworld]; rfl), fun k => (h.vd k).trans (by rw [hworld]; rfl),
      fun gc => (h.core gc).trans (by rw [hworld]; rfl), fun x => (h.mem x).trans (by rw [hworld])⟩
  have hfn : (s.emptied pkg p).fn (pkg * 32) = Function.blank := wipePackage_fn ..
  have hcycle : (s.emptied pkg p).cycle = s.cycle := by
    change (p.linksUp.foldl (failLink pkg) s).cycle = s.cycle
    rw [hworld]
  generalize s.emptied pkg p = u at hwiped hfn hcycle
  have hpkg : (u.modPkg pkg fun _ => q).pkg pkg = q := modPkg_pkg_same ..
  have hmod : u.modPkg pkg (fun _ => q) = { u with pkgs := (u.modPkg pkg fun _ => q).pkgs } := rfl
  generalize u.modPkg pkg (fun _ => q) = v at hpkg hmod
  obtain ⟨hworldv, hqueues, hevent⟩ := postOlush_held (s := v) (pkg := pkg) (by rw [hmod]; exact hfn) htype i0 i1
  refine ⟨⟨hwiped.of_same ?_, hqueues, hevent, (postOlush_pkg ..).trans hpkg⟩, hcycle⟩
  rw [hworldv, hmod]

include hp in
theorem packageReset_boots (hok : p.recordsOk = true) : Completes (.packageReset pkg) s fun t => ∃ gen,
    ResetTo s t pkg 26 { p.afterReset s.cycle with routeGen := gen, measured := p.images.map fun x => extendMeasure 0 x.digest } := by
  let u := s.emptied pkg p
  let q := p.afterReset s.cycle
  let gen := if (q.shape == p.shape && q.cores == p.cores && q.phys == p.phys && q.slicesOut == p.slicesOut) = true
    then (u.pkg pkg).routeGen else (u.pkg pkg).routeGen + 1
  let v := u.modPkg pkg fun _ => { q with routeGen := gen, measured := p.images.map fun x => extendMeasure 0 x.digest }
  obtain ⟨hreset, hcycle⟩ := emptied_resets hp (type := 26) (by decide)
    { q with routeGen := gen, measured := p.images.map fun x => extendMeasure 0 x.digest }
    (shapeWord v (pkg * 16384)).toNat (shapexWord (v.pkg pkg)).toNat
  refine ⟨_, ?_, gen, hreset⟩
  change execPackageReset pkg s = _
  rw [execPackageReset, if_neg (pkg_listed hp), pkg_of_find hp]
  simp only [hok, Bool.not_true, Bool.false_eq_true, if_false]
  have hc : (wipePackage pkg (p.linksUp.foldl (failLink pkg) s)).cycle = s.cycle := hcycle
  rw [hc]
  rfl

include hp in
theorem packageReset_stops (hok : ¬ p.recordsOk = true) : Completes (.packageReset pkg) s fun t =>
    ResetTo s t pkg 21 { p.afterReset s.cycle with booted := false, rollback := p.rollback } := by
  obtain ⟨hreset, hcycle⟩ := emptied_resets hp (type := 21) (by decide)
    { p.afterReset s.cycle with booted := false, rollback := p.rollback } (1 + 2 * 256) 0xFF
  refine ⟨_, ?_, hreset⟩
  change execPackageReset pkg s = _
  rw [execPackageReset, if_neg (pkg_listed hp), pkg_of_find hp]
  have hc : (wipePackage pkg (p.linksUp.foldl (failLink pkg) s)).cycle = s.cycle := hcycle
  rw [Bool.not_eq_true] at hok
  simp only [hok, Bool.not_false, if_true, hc]
  rfl

end

/-- Settles O54: each source by its level, a quarantine by its fold over teams, and a reset by what it wipes and posts. -/
theorem alarmsAndReset : Obligations.AlarmsAndReset := by
  unfold Obligations.AlarmsAndReset
  refine ⟨fun pkg v cluster val vd y p s hp hk => ?_, fun pkg p s hp => ?_⟩
  · refine ⟨alarm_link hp vd, alarm_temperature hp vd, ?_, alarm_record hp vd, ?_, alarm_debug hp vd, alarm_glitch hp vd, alarm_tamper hp vd,
      output_erase hp cluster val, output_erase_refused hp cluster val, output_setpoint hp cluster val,
      output_setpoint_refused hp cluster val⟩
    · rintro rfl; exact alarm_role hp v
    · rintro rfl -
      obtain ⟨t, ht, hflag, hdiscards⟩ := alarm_quarantine hp (v := v) (y := y) hk
      refine ⟨t, ht, hflag, fun hy hst hpre huniq => ?_⟩
      obtain ⟨-, hfound, hstops⟩ := hdiscards hy hst hpre huniq
      exact ⟨hfound, hstops⟩
  · refine ⟨fun himages hversion hseq => ?_, fun hfails => ?_⟩
    · obtain ⟨t, ht, gen, hgone, hqueues, hevent, hpkg⟩ := packageReset_boots hp (recordsOk_iff.2 ⟨himages, hversion, hseq⟩)
      refine ⟨t, ht, ⟨hgone.thread, hgone.vd, hgone.core, hqueues, hgone.mem⟩, hevent, ?_⟩
      rw [hpkg]
      exact ⟨rfl, rfl, rfl, rfl, rfl, rfl, rfl, rfl⟩
    · have hok : ¬ p.recordsOk = true := fun h => by
        obtain ⟨himages, hversion, hseq⟩ := recordsOk_iff.1 h
        obtain ⟨x, hx, hfalse⟩ | hlow | hlow := hfails
        · exact Bool.false_ne_true (hfalse.symm.trans (himages x hx))
        · exact absurd hversion (Nat.not_le.2 hlow)
        · exact absurd hseq (Nat.not_le.2 hlow)
      obtain ⟨t, ht, hgone, hqueues, hevent, hpkg⟩ := packageReset_stops hp hok
      refine ⟨t, ht, ⟨hgone.thread, hgone.vd, hgone.core, hqueues, hgone.mem⟩, hevent, ?_⟩
      rw [hpkg]
      exact ⟨rfl, rfl⟩

end Sys2Proof.Machine
end

section
/-! SUPPORT. The choice of a queue, the numbering of a launch, and its refusal or selection (R28, R333, R334, R426, R431). -/

namespace Sys2Proof.Machine

/-! ### The choice of a queue -/

theorem foldl_max_le {α : Type} {f : α → Nat} {xs : List α} {n M : Nat} :
    xs.foldl (fun m x => max m (f x)) n ≤ M ↔ n ≤ M ∧ ∀ x ∈ xs, f x ≤ M := by
  induction xs generalizing n with
  | nil => simp
  | cons x xs ih =>
    rw [List.foldl_cons, ih, Nat.max_le, List.forall_mem_cons, and_assoc]

/-- The greatest value is that of an element which no other exceeds. -/
theorem foldl_max_of_mem {α : Type} {f : α → Nat} {xs : List α} {x : α} (hx : x ∈ xs) (hle : ∀ y ∈ xs, f y ≤ f x) :
    xs.foldl (fun m x => max m (f x)) 0 = f x := by
  refine Nat.le_antisymm (foldl_max_le.2 ⟨Nat.zero_le _, hle⟩) ?_
  exact (foldl_max_le.1 (Nat.le_refl _)).2 x hx

theorem find?_unique {α : Type} {xs : List α} {p : α → Bool} {x : α} (hx : x ∈ xs) (hp : ∀ y ∈ xs, p y = true ↔ y = x) :
    xs.find? p = some x := by
  obtain ⟨y, hy⟩ : ∃ y, xs.find? p = some y := by
    rw [← Option.isSome_iff_exists, List.find?_isSome]
    exact ⟨x, hx, (hp x hx).2 rfl⟩
  rw [hy, (hp y (List.mem_of_find?_eq_some hy)).1 (List.find?_some hy)]

section
variable {s : State} {vk q : Nat}

/-- The eligible queue of highest priority is taken. -/
theorem chooseQueue_best (hq : q < 8) (hel : eligible s vk q = true)
    (hbest : ∀ k < 8, k ≠ q → eligible s vk k = true → queuePri (s.vd vk) k < queuePri (s.vd vk) q) : chooseQueue s vk = some q := by
  have hmem : ∀ k, k ∈ (List.range 8).filter (eligible s vk) ↔ k < 8 ∧ eligible s vk k = true := fun k => by
    rw [List.mem_filter, List.mem_range]
  have htop : ((List.range 8).filter (eligible s vk)).foldl (fun p q => max p (queuePri (s.vd vk) q)) 0 = queuePri (s.vd vk) q := by
    refine foldl_max_of_mem ((hmem q).2 ⟨hq, hel⟩) fun k hk => ?_
    obtain ⟨hlt, helk⟩ := (hmem k).1 hk
    by_cases hkq : k = q
    · rw [hkq]
    · exact (hbest k hlt hkq helk).le
  rw [chooseQueue, htop]
  generalize ((s.vd vk).lastSel[queuePri (s.vd vk) q]?).getD 7 = last
  refine find?_unique (List.mem_map.2 ⟨(q + 7 * (last + 1)) % 8, List.mem_range.2 (Nat.mod_lt _ (by decide)), by omega⟩) fun k hk => ?_
  obtain ⟨i, -, rfl⟩ := List.mem_map.1 hk
  rw [Bool.and_eq_true, List.contains_iff_mem, hmem, beq_iff_eq]
  constructor
  · rintro ⟨⟨hlt, helk⟩, hpri⟩
    by_contra hne
    exact absurd hpri (hbest _ hlt hne helk).ne
  · intro heq
    rw [heq]
    exact ⟨⟨hq, hel⟩, rfl⟩

/-! ### Numbers of launches -/

/-- An entry of a table stays when another value is put, but for the one that it replaces. -/
theorem mem_tblPut_or {α : Type} {t : Tbl α} {k : Nat} {b : α} {e : Nat × α} (h : e ∈ t) :
    e ∈ tblPut t k b ∨ e.1 = k ∧ tblFind t k = some e.2 := by
  induction t with
  | nil => exact absurd h List.not_mem_nil
  | cons c t ih =>
    obtain ⟨k', a⟩ := c
    rw [tblPut, tblFind]
    by_cases hlt : k < k'
    · rw [if_pos hlt]; exact .inl (List.mem_cons_of_mem _ h)
    · rw [if_neg hlt]
      by_cases hk : k' = k
      · rw [if_pos hk, if_pos hk]
        obtain rfl | h := List.mem_cons.1 h
        · exact .inr ⟨hk, rfl⟩
        · exact .inl (List.mem_cons_of_mem _ h)
      · rw [if_neg hk, if_neg hk]
        obtain rfl | h := List.mem_cons.1 h
        · exact .inl List.mem_cons_self
        · exact (ih h).imp_left (List.mem_cons_of_mem _)

theorem vdSelections_le {vd M : Nat} : vdSelections s vd ≤ M ↔ ∀ e ∈ s.vds, e.1 % 16 = vd → e.2.selections ≤ M := by
  have hfold : ∀ (t : Tbl Vd) (n : Nat), t.foldl (fun n (k, v) => if k % 16 = vd then max n v.selections else n) n ≤ M ↔
      n ≤ M ∧ ∀ e ∈ t, e.1 % 16 = vd → e.2.selections ≤ M := fun t => by
    induction t with
    | nil => simp
    | cons c t ih =>
      intro n
      obtain ⟨k, v⟩ := c
      rw [List.foldl_cons, ih, List.forall_mem_cons]
      by_cases hk : k % 16 = vd <;> simp [hk, and_assoc]
  rw [vdSelections, hfold]
  simp

/-- A change of a VD that keeps its count of selections keeps the VD's over all packages. -/
theorem vdSelections_modVd (hvd : (s.vd vk).isVd = true) {f : Vd → Vd} (hf : (f (s.vd vk)).selections = (s.vd vk).selections) (vd : Nat) :
    vdSelections (s.modVd vk f) vd = vdSelections s vd := by
  have hfind : tblFind s.vds vk = some (s.vd vk) := by
    rw [State.vd, tblGet] at hvd ⊢
    cases h : tblFind s.vds vk with
    | some x => rfl
    | none =>
      rw [h] at hvd
      exact absurd hvd Bool.false_ne_true
  refine eq_of_forall_ge_iff fun M => ?_
  rw [vdSelections_le, vdSelections_le, State.modVd_vds]
  constructor
  · intro h e he hv
    obtain hput | ⟨hk, hsome⟩ := mem_tblPut_or (k := vk) (b := f (s.vd vk)) he
    · exact h e hput hv
    · have hvalue := Option.some.inj (hfind.symm.trans hsome)
      rw [← hvalue, ← hf]
      have hnew : (vk, f (s.vd vk)) ∈ tblPut s.vds vk (f (s.vd vk)) := mem_of_tblFind ((tblFind_put ..).trans (if_pos rfl))
      exact h _ hnew (hk ▸ hv)
  · intro h e he hv
    obtain rfl | hold := mem_tblPut he
    · exact hf ▸ h _ (mem_of_tblFind hfind) hv
    · exact h e hold hv

end

end Sys2Proof.Machine
end

section
/-! SUPPORT. A launch is taken, refused or selected (R334, R424, R426, R431). -/

namespace Sys2Proof.Machine

theorem SetsVd.trans {s t u : State} {vk : Nat} {x y : Vd} (h : SetsVd s t vk x) (h' : SetsVd t u vk y) : SetsVd s u vk y where
  value := h'.value
  others k hk := (h'.others k hk).trans (h.others k hk)
  world := by
    have hu := h'.world
    rw [h.world] at hu
    exact hu

/-! ### Posting leaves queues alone -/

theorem ringPost_queue (s : State) (fn r : Nat) (rec_ : List Byte) (f q : Nat) : (ringPost s fn r rec_).queue f q = s.queue f q := by
  cases hg : (s.fn fn).rings[r]? with
  | none =>
    have hsame : ringPost s fn r rec_ = s := by rw [ringPost]; simp only [hg]
    rw [hsame]
  | some g =>
    have hset : ∃ x, SetsRing s (ringPost s fn r rec_) fn r x := by
      by_cases hkeep : g.en = false ∨ g.isFull = true ∨ g.hold ≠ []
      · exact ⟨_, (ringPost_keeps hg hkeep rec_).2⟩
      · simp only [not_or, Bool.not_eq_false, Bool.not_eq_true, not_not] at hkeep
        obtain ⟨hen, hroom, hhold⟩ := hkeep
        exact ⟨_, (ringPost_writes hg hen hroom hhold rec_).1⟩
    obtain ⟨x, hset⟩ := hset
    rw [State.queue, State.queue]
    by_cases hf : f = fn
    · subst hf; rw [hset.kept.1]
    · rw [hset.others f hf]

theorem postRefusal_vd (s : State) (vk team reason info : Nat) :
    postRefusal s (fnOfVd vk) team reason info = postCp s vk 4 team reason info := by
  have hpf : ¬ isPf (fnOfVd vk) = true := by rw [isPf, fnOfVd, beq_iff_eq]; omega
  have hvk : vkOfFn (fnOfVd vk) = vk := by rw [vkOfFn, fnOfVd]; omega
  rw [postRefusal, if_neg hpf, hvk]

theorem postCp_keeps (s : State) (vk type team i0 i1 : Nat) : (postCp s vk type team i0 i1).teams = s.teams ∧
    ∀ f q, (postCp s vk type team i0 i1).queue f q = s.queue f q :=
  ⟨by rw [postCp_world], fun f q => ringPost_queue ..⟩

/-- An event of a command processor rests on rings, memory and time alone. -/
theorem postCp_reported {s t : State} {vk : Nat} (hfns : t.fns = s.fns) (hmem : t.mem = s.mem) (htime : t.time (vk / 16) = s.time (vk / 16))
    (type team i0 i1 : Nat) : Reported s (postCp t vk type team i0 i1) vk type team i0 i1 := by
  rw [Reported, postCp, postEvent, postCp, postEvent, htime]
  exact ringPost_congr hfns hmem ..

/-! ### A launch that is taken -/

/-- A VD as a selection of a queue leaves it: a token spent, and the queue last taken at its priority. -/
def Vd.taking (v : Vd) (q : Nat) : Vd := { v.spend q with lastSel := v.lastSel.setIfInBounds (queuePri v q) q }

theorem spend_keeps (v : Vd) (q : Nat) : (v.spend q).lastSel = v.lastSel ∧ (v.spend q).selections = v.selections ∧
    (v.spend q).isVd = v.isVd ∧ (v.spend q).quar = v.quar := by
  rw [Vd.spend]
  split
  · exact ⟨rfl, rfl, rfl, rfl⟩
  · exact ⟨rfl, rfl, rfl, rfl⟩

/-- The command processor has accrued its buckets and taken a queue. -/
def State.takeQueue (s : State) (vk q : Nat) : State :=
  (s.modVd vk fun v => v.refill (s.time (vk / 16))).modVd vk fun v => v.taking q

/-- A selection may take this queue: the VD may launch, and the queue is the eligible one of highest priority. -/
structure Takes (s : State) (vk q : Nat) : Prop where
  isVd : (s.vd vk).isVd = true
  quar : (s.vd vk).quar = false
  ways : (s.vd vk).ways ≠ 0
  opened : launchesOpen s (vk / 16) = true
  idle : vdSelecting s (vk % 16) = false
  inRange : q < 8
  eligible : eligible (s.modVd vk fun v => v.refill (s.time (vk / 16))) vk q = true
  best : ∀ k < 8, k ≠ q → Machine.eligible (s.modVd vk fun v => v.refill (s.time (vk / 16))) vk k = true →
    queuePri ((s.vd vk).refill (s.time (vk / 16))) k < queuePri ((s.vd vk).refill (s.time (vk / 16))) q

section
variable {s : State} {vk q : Nat}

theorem takeQueue_setsVd (s : State) (vk q : Nat) : SetsVd s (s.takeQueue vk q) vk (((s.vd vk).refill (s.time (vk / 16))).taking q) := by
  have hrefill := modVd_setsVd s vk fun v => v.refill (s.time (vk / 16))
  have htake := modVd_setsVd (s.modVd vk fun v => v.refill (s.time (vk / 16))) vk fun v => v.taking q
  rw [hrefill.value] at htake
  exact hrefill.trans htake

variable (h : Takes s vk q)
include h

theorem Takes.chosen : chooseQueue (s.modVd vk fun v => v.refill (s.time (vk / 16))) vk = some q := by
  have hvd := (modVd_setsVd s vk fun v => v.refill (s.time (vk / 16))).value
  refine chooseQueue_best h.inRange h.eligible fun k hk hne hel => ?_
  rw [hvd]
  exact h.best k hk hne hel

omit h in
theorem takeQueue_headEntry (hvd : (s.vd vk).isVd = true) (hquar : (s.vd vk).quar = false) (q' : Nat) :
    headEntry (s.takeQueue vk q) (fnOfVd vk) q' = headEntry s (fnOfVd vk) q' := by
  obtain ⟨hvalue, -, hworld⟩ := takeQueue_setsVd s vk q
  have hvk : vkOfFn (fnOfVd vk) = vk := by rw [vkOfFn, fnOfVd]; omega
  have hflags : ((s.takeQueue vk q).vd vk).isVd = true ∧ ((s.takeQueue vk q).vd vk).quar = false := by
    rw [hvalue]
    obtain ⟨-, -, his, hq⟩ := spend_keeps ((s.vd vk).refill (s.time (vk / 16))) q
    exact ⟨his.trans hvd, hq.trans hquar⟩
  have hactive : fnActive (s.takeQueue vk q) (fnOfVd vk) = fnActive s (fnOfVd vk) := by
    rw [fnActive, fnActive, hvk, hflags.1, hflags.2, hvd, hquar]
  rw [headEntry, headEntry, hactive]
  generalize s.takeQueue vk q = u at hworld
  rw [hworld]
  rfl

/-- What a selection does once it has taken the queue. -/
theorem Takes.launchSelect : exec (.launchSelect vk) s = .next (match ((s.takeQueue vk q).queue (fnOfVd vk) q).front with
    | num :: rest =>
      let t := (s.takeQueue vk q).modQueue (fnOfVd vk) q fun x => { x with front := rest }
      match t.findTeam (vk % 16) num with
      | none => t
      | some y => if (t.pkg (vk / 16)).erased then refuseTaken t y else t.modTeam y.vd y.num fun y => { y with st := .selected }
    | [] => match headEntry (s.takeQueue vk q) (fnOfVd vk) q with
      | none => s.takeQueue vk q
      | some e => if entFlags e = 1 then selectSaved (s.takeQueue vk q) vk q e else selectFresh (s.takeQueue vk q) vk q e) := by
  change execLaunchSelect vk s = _
  have hno : ¬ (!(s.vd vk).isVd || (s.vd vk).quar || decide ((s.vd vk).ways = 0) || !launchesOpen s (vk / 16) || vdSelecting s (vk % 16)) = true := by
    simp [h.isVd, h.quar, h.ways, h.opened, h.idle]
  rw [execLaunchSelect]
  refine congrArg Host.Outcome.next ?_
  dsimp only
  rw [if_neg hno, h.chosen] <;> rfl

/-- The queue's front is taken, and its launch is selected where it is still there. -/
theorem Takes.takesFront {num : Nat} {rest : List Nat} (hfront : (s.queue (fnOfVd vk) q).front = num :: rest)
    (herased : (s.pkg (vk / 16)).erased = false) : Completes (.launchSelect vk) s fun t => t.mem = s.mem ∧
      t.queue (fnOfVd vk) q = { s.queue (fnOfVd vk) q with front := rest } ∧
      ∀ y, s.findTeam (vk % 16) num = some y → t.findTeam (vk % 16) num = some { y with st := .selected } := by
  have hexec := h.launchSelect
  have hfront' : ((s.takeQueue vk q).queue (fnOfVd vk) q).front = num :: rest := hfront
  have hqueue := (modQueue_setsQueue (s.takeQueue vk q) h.inRange (fn := fnOfVd vk) fun x => { x with front := rest }).value
  have herased' : (((s.takeQueue vk q).modQueue (fnOfVd vk) q fun x => { x with front := rest }).pkg (vk / 16)).erased = false := herased
  cases hy : s.findTeam (vk % 16) num with
  | none =>
    have hy' : ((s.takeQueue vk q).modQueue (fnOfVd vk) q fun x => { x with front := rest }).findTeam (vk % 16) num = none := hy
    simp only [hfront', hy'] at hexec
    exact ⟨_, hexec, rfl, hqueue, fun y hsome => nomatch hsome⟩
  | some y =>
    have hy' : ((s.takeQueue vk q).modQueue (fnOfVd vk) q fun x => { x with front := rest }).findTeam (vk % 16) num = some y := hy
    simp only [hfront', hy', herased', Bool.false_eq_true, if_false] at hexec
    rw [(findTeam_named hy).1, (findTeam_named hy).2] at hexec
    refine ⟨_, hexec, rfl, hqueue, fun x hx => ?_⟩
    obtain rfl : y = x := Option.some.inj hx
    exact findTeam_modTeam hy' fun _ => rfl

/-- An entry without flags makes a fresh launch. -/
theorem Takes.takesEntry {e : List Byte} (hfront : (s.queue (fnOfVd vk) q).front = []) (hhead : headEntry s (fnOfVd vk) q = some e)
    (hflags : entFlags e = 0) : exec (.launchSelect vk) s = .next (selectFresh (s.takeQueue vk q) vk q e) := by
  have hfront' : ((s.takeQueue vk q).queue (fnOfVd vk) q).front = [] := hfront
  have hhead' := (takeQueue_headEntry (q := q) h.isVd h.quar q).trans hhead
  have hfresh : ¬ entFlags e = 1 := by rw [hflags]; decide
  refine h.launchSelect.trans (congrArg _ ?_)
  simp only [hfront', hhead', if_neg hfresh]

end

/-! ### A fresh launch -/

/-- The queue taken, and the launch numbered over all of the VD's packages. -/
def State.numbered (s : State) (vk q : Nat) : State :=
  (s.takeQueue vk q).modVd vk fun v => { v with selections := nextNumber (vdSelections s (vk % 16)) }

/-- The state with the refused launch on its list and its entry gone. -/
def State.refusedLaunch (s : State) (vk q : Nat) (y : Team) : State :=
  ({ s with teams := s.teams ++ [{ y with st := .refused, inRing := false }] } : State).passHead (fnOfVd vk) q

section
variable {s : State} {vk q : Nat}

theorem takeQueue_selections (hvd : (s.vd vk).isVd = true) (vd : Nat) : vdSelections (s.takeQueue vk q) vd = vdSelections s vd := by
  have hrefill := (modVd_setsVd s vk fun v => v.refill (s.time (vk / 16))).value
  have htake : vdSelections (s.takeQueue vk q) vd = vdSelections (s.modVd vk fun v => v.refill (s.time (vk / 16))) vd :=
    vdSelections_modVd (by rw [hrefill]; exact hvd) (spend_keeps _ q).2.1 vd
  rw [htake]
  exact vdSelections_modVd hvd rfl vd

theorem numbered_setsVd (s : State) (vk q : Nat) : SetsVd s (s.numbered vk q) vk
    { ((s.vd vk).refill (s.time (vk / 16))).taking q with selections := nextNumber (vdSelections s (vk % 16)) } := by
  have htake := takeQueue_setsVd s vk q
  have hnumber := modVd_setsVd (s.takeQueue vk q) vk fun v => { v with selections := nextNumber (vdSelections s (vk % 16)) }
  rw [htake.value] at hnumber
  exact htake.trans hnumber

theorem readsModule_of_noErrors (hue : s.ue = []) (hce : s.ce = []) (va : Nat) : readsModule s vk va = s := by
  rw [readsModule, hue, hce]
  rfl

/-- The number that the launch takes, and its team. -/
abbrev State.launchNumber (s : State) (vk : Nat) : Nat := nextNumber (vdSelections s (vk % 16))

theorem selectFresh_erased (hvd : (s.vd vk).isVd = true) (herased : (s.pkg (vk / 16)).erased = true) (e : List Byte) :
    selectFresh (s.takeQueue vk q) vk q e =
      refuseErased ((s.numbered vk q).refusedLaunch vk q (newTeam vk (s.launchNumber vk) q e)) (fnOfVd vk) (s.launchNumber vk % 2 ^ 32)
        (numAt e 8 8) := by
  rw [selectFresh, takeQueue_selections hvd]
  exact if_pos herased

section
variable (hvd : (s.vd vk).isVd = true) (hue : s.ue = []) (hce : s.ce = []) (herased : (s.pkg (vk / 16)).erased = false) {e : List Byte}
include hvd hue hce herased

theorem selectFresh_refused {reason : Nat} (hreason : reason ≠ 5) (hvalid : validate (s.numbered vk q) vk (numAt e 8 8) = .inl reason) :
    selectFresh (s.takeQueue vk q) vk q e =
      postRefusal ((s.numbered vk q).refusedLaunch vk q (newTeam vk (s.launchNumber vk) q e)) (fnOfVd vk) (s.launchNumber vk % 2 ^ 32) reason
        (numAt e 8 8) := by
  have hreads : readsModule (s.numbered vk q) vk (numAt e 8 8) = s.numbered vk q :=
    readsModule_of_noErrors (s := s.numbered vk q) hue hce _
  have herased' : ((s.numbered vk q).pkg (vk / 16)).erased = false := herased
  have hdesc : (newTeam vk (s.launchNumber vk) q e).descAddr = numAt e 8 8 := rfl
  rw [selectFresh, takeQueue_selections hvd]
  dsimp only
  rw [← State.numbered, herased', hdesc, hreads, hvalid]
  exact congrArg (fun u : State => postRefusal (u.refusedLaunch vk q _) _ _ _ _) (if_neg hreason)

theorem selectFresh_selected {p : Plan0} (hvalid : validate (s.numbered vk q) vk (numAt e 8 8) = .inr p) :
    selectFresh (s.takeQueue vk q) vk q e =
      noteUses ((newTeam vk (s.launchNumber vk) q e).withPlan p)
        { s.numbered vk q with teams := s.teams ++ [(newTeam vk (s.launchNumber vk) q e).withPlan p] } := by
  have hreads : readsModule (s.numbered vk q) vk (numAt e 8 8) = s.numbered vk q :=
    readsModule_of_noErrors (s := s.numbered vk q) hue hce _
  have herased' : ((s.numbered vk q).pkg (vk / 16)).erased = false := herased
  have hdesc : (newTeam vk (s.launchNumber vk) q e).descAddr = numAt e 8 8 := rfl
  rw [selectFresh, takeQueue_selections hvd]
  dsimp only
  rw [← State.numbered, herased', hdesc, hreads, hvalid]
  rfl

end

end

/-! ### What a fresh launch leaves -/

theorem refusedLaunch_keeps {u t : State} {vk q : Nat} {y : Team} (hq : q < 8) (hteams : t.teams = u.teams) (hfns : t.fns = u.fns)
    (type team i0 i1 : Nat) : (postCp (t.refusedLaunch vk q y) vk type team i0 i1).teams = u.teams ++ [{ y with st := .refused, inRing := false }] ∧
      ((postCp (t.refusedLaunch vk q y) vk type team i0 i1).queue (fnOfVd vk) q).head =
        ((u.queue (fnOfVd vk) q).head + 1) % 2 ^ (u.queue (fnOfVd vk) q).log := by
  obtain ⟨hkteams, hkqueue⟩ := postCp_keeps (t.refusedLaunch vk q y) vk type team i0 i1
  have hpassed : (t.refusedLaunch vk q y).queue (fnOfVd vk) q = (t.queue (fnOfVd vk) q).passed :=
    (passHead_setsQueue ({ t with teams := t.teams ++ [{ y with st := .refused, inRing := false }] } : State) hq).value
  rw [hkteams, hkqueue, hpassed, queue_congr hfns]
  exact ⟨congrArg (· ++ _) hteams, rfl⟩

/-- VDs alone have changed, and of none the numbers of its selections. -/
structure KeepsSelections (s t : State) : Prop where
  world : t = { s with vds := t.vds }
  selections : ∀ k, (t.vd k).selections = (s.vd k).selections ∧ (t.vd k).lastSel = (s.vd k).lastSel

theorem KeepsSelections.modVd {s t : State} (h : KeepsSelections s t) {vk : Nat} {f : Vd → Vd}
    (hf : ∀ v, (f v).selections = v.selections ∧ (f v).lastSel = v.lastSel) : KeepsSelections s (t.modVd vk f) := by
  obtain ⟨hvalue, hothers, hworld⟩ := modVd_setsVd t vk f
  refine ⟨?_, fun k => ?_⟩
  · have ht := h.world
    rw [hworld]
    generalize (t.modVd vk f).vds = vds
    rw [ht]
  · by_cases hk : k = vk
    · rw [hk, hvalue, (hf _).1, (hf _).2]
      exact h.selections vk
    · rw [hothers k hk]
      exact h.selections k

theorem KeepsSelections.kept {s t : State} (h : KeepsSelections s t) : t.teams = s.teams ∧ t.mem = s.mem ∧ t.fns = s.fns := by
  rw [h.world]
  exact ⟨rfl, rfl, rfl⟩

/-- Only the handles of the team's VD take a note of its uses. -/
theorem noteUses_keeps (y : Team) (s : State) : KeepsSelections s (noteUses y s) := by
  refine List.foldlRecOn y.uses _ (motive := KeepsSelections s) ⟨rfl, fun _ => ⟨rfl, rfl⟩⟩ fun t ht x _ => ht.modVd fun v => ?_
  cases tblFind v.handles x.1 with
  | none => exact ⟨rfl, rfl⟩
  | some _ => exact ⟨rfl, rfl⟩

end Sys2Proof.Machine
end

section
/-! PROOF of an obligation. -/

namespace Sys2Proof.Machine

/-- Settles O44, by the steps of a selection: the queue chosen, the launch numbered over the VD's packages, then refused or selected. -/
theorem launchesAreSelected : Obligations.LaunchesAreSelected := by
  unfold Obligations.LaunchesAreSelected
  intro vk q num rest e s v fn ready last n hvd hquar hways hopen hue hce hidle hq hel hbest
  have htakes : Takes s vk q := ⟨hvd, hquar, hways, hopen, hidle, hq, hel, hbest⟩
  refine ⟨fun herased hfront hhead hflags => ?_, fun herased => ⟨fun hfront => htakes.takesFront hfront herased, fun hfront hhead hflags => ?_⟩⟩
  · refine ⟨_, (htakes.takesEntry hfront hhead hflags).trans (congrArg _ (selectFresh_erased hvd herased e)), ?_⟩
    rw [refuseErased, postRefusal_vd]
    exact refusedLaunch_keeps (u := s) (t := { s.numbered vk q with free := s.free + 1 }) (y := newTeam vk n q e) hq rfl rfl ..
  · have hsets := numbered_setsVd s vk q
    refine ⟨s.numbered vk q, ?_, fun reason hreason hvalid => ?_, fun p hvalid => ?_⟩
    · rw [Vd.taking, ← (spend_keeps v q).1] at hsets
      exact hsets
    · refine ⟨_, (htakes.takesEntry hfront hhead hflags).trans (congrArg _ (selectFresh_refused hvd hue hce herased hreason hvalid)), ?_⟩
      rw [postRefusal_vd]
      obtain ⟨hteams, hhead⟩ := refusedLaunch_keeps (u := s) (t := s.numbered vk q) (vk := vk) (y := newTeam vk n q e) hq rfl rfl 4
        (n % 2 ^ 32) reason (numAt e 8 8)
      exact ⟨hteams, hhead, postCp_reported (s := (s.numbered vk q).passHead (fnOfVd vk) q)
        (t := (s.numbered vk q).refusedLaunch vk q (newTeam vk n q e)) rfl rfl rfl ..⟩
    · have hnotes := noteUses_keeps ((newTeam vk n q e).withPlan p)
        { s.numbered vk q with teams := s.teams ++ [(newTeam vk n q e).withPlan p] }
      obtain ⟨hteams, hmem, hfns⟩ := hnotes.kept
      refine ⟨_, (htakes.takesEntry hfront hhead hflags).trans (congrArg _ (selectFresh_selected hvd hue hce herased hvalid)),
        hteams, hmem, hfns, (hnotes.selections vk).1.trans ?_, (hnotes.selections vk).2.trans ?_⟩
      · exact congrArg Vd.selections hsets.value
      · refine (congrArg Vd.lastSel hsets.value).trans ?_
        exact congrArg (fun l : Vector Nat 8 => l.setIfInBounds (queuePri v q) q) (spend_keeps v q).1.symm

end Sys2Proof.Machine
end

section
/-! SUPPORT. The end of a team leaves every thread's next turn, and every team, where they are (R262, R365, R426). -/

namespace Sys2Proof.Machine

/-- What a team's end leaves of a thread: its number and its next turn. -/
def Thread.slot (x : Thread) : Nat × Nat := (x.id, x.nextTurn)

/-- Threads stay under their numbers with their next turns, and every team that was there is there. -/
structure KeepsTurns (s t : State) : Prop where
  keyed : t.Keyed
  turns : ∀ k, (t.thread k).nextTurn = (s.thread k).nextTurn
  teams : ∀ vd num, (s.findTeam vd num).isSome = true → (t.findTeam vd num).isSome = true

theorem putReg_slot (t : Thread) (w : RegWrite) : (t.putReg w).slot = t.slot := by
  cases w with
  | s r x => rfl
  | v r x => rfl
  | p r x => rw [putP_shape]; rfl

theorem addCause_slot (t : Thread) (p : Pending) : (t.addCause p).slot = t.slot := by
  rw [Thread.addCause]
  split
  · rw [cutPark_shape]; rfl
  · rfl

theorem landTest_slot {t y : Thread} {held : List Landing} {l : Landing} (h : landTest t held l = .land y) : y.slot = t.slot := by
  rw [landTest] at h
  split at h
  · cases h
  · next w _ =>
    have hland {x : Thread} (hx : LandResult.land x = .land y) (hput : x = t.putReg w) : y.slot = t.slot := by
      cases hx; rw [hput, putReg_slot]
    dsimp only at h
    split at h
    · cases h
    split at h
    · cases h
    split at h
    · cases h
    split at h
    · exact hland h rfl
    split at h
    · cases h
    · exact hland h rfl
    · cases h

namespace KeepsTurns

variable {s₀ s : State}

theorem refl (hk : s.Keyed) : KeepsTurns s s := ⟨hk, fun _ => rfl, fun _ _ h => h⟩

/-- A change of other tables. -/
theorem update {cores routers arbiters vds disps posted forwards retraces fns pkgs cases invs mem back full ue ce iommu cycle seq
    free token agenda} (h : KeepsTurns s₀ s) : KeepsTurns s₀ ⟨s.thr, s.threads, cores, routers, arbiters, vds, s.teams, disps, posted,
    forwards, retraces, fns, pkgs, cases, invs, mem, back, full, ue, ce, iommu, cycle, seq, free, token, agenda⟩ :=
  ⟨h.keyed, h.turns, h.teams⟩

/-- The state of a pair that a function answers. -/
theorem of_eq {α : Type} {p : State × α} {x : α} (h : KeepsTurns s₀ p.1) (hp : p = (s, x)) : KeepsTurns s₀ s := by
  rw [hp] at h; exact h

theorem pair {α : Type} {x : α} (h : KeepsTurns s₀ s) : KeepsTurns s₀ (s, x).1 := h

theorem ite {c : Prop} [Decidable c] {a b : State} (ha : KeepsTurns s₀ a) (hb : KeepsTurns s₀ b) :
    KeepsTurns s₀ (if c then a else b) := by split <;> assumption

theorem foldl {α : Type} {xs : List α} {f : State → α → State} (h : KeepsTurns s₀ s)
    (hf : ∀ s x, KeepsTurns s₀ s → KeepsTurns s₀ (f s x)) : KeepsTurns s₀ (xs.foldl f s) :=
  List.foldlRecOn (motive := KeepsTurns s₀) xs f h fun t ht x _ => hf t x ht

theorem setThread {id : Nat} {x : Thread} (h : KeepsTurns s₀ s) (hx : x.slot = (s.thread id).slot) : KeepsTurns s₀ (s.setThread x) := by
  obtain ⟨hid, hturn⟩ := Prod.mk.inj hx
  rw [thread_id h.keyed] at hid
  refine ⟨setThread_keyed h.keyed x, fun k => ?_, fun vd num hsome => ?_⟩
  · rw [setThread_thread]
    split
    case isTrue hk => rw [hk, hid, hturn, h.turns]
    case isFalse => exact h.turns k
  · rw [findTeam_congr (by rw [setThread_world])]
    exact h.teams vd num hsome

theorem modThread {id : Nat} {f : Thread → Thread} (h : KeepsTurns s₀ s) (hf : ∀ x, (f x).slot = x.slot) :
    KeepsTurns s₀ (s.modThread id f) := h.setThread (hf _)

theorem pend {id code : Nat} {v : Word} (h : KeepsTurns s₀ s) : KeepsTurns s₀ (s.pend id code v) :=
  h.modThread fun x => addCause_slot x _

theorem modTeam {vd num : Nat} {f : Team → Team} (h : KeepsTurns s₀ s) (hf : ∀ t, (f t).vd = t.vd ∧ (f t).num = t.num) :
    KeepsTurns s₀ (s.modTeam vd num f) := by
  refine ⟨h.keyed, h.turns, fun vd' num' hsome => ?_⟩
  obtain ⟨x, hx⟩ := Option.isSome_iff_exists.1 (h.teams vd' num' hsome)
  have hcomp : Team.is vd' num' ∘ (fun t => if t.is vd num then f t else t) = Team.is vd' num' := by
    funext t
    rw [Function.comp_apply]
    split
    case isTrue => rw [Team.is, Team.is, (hf t).1, (hf t).2]
    case isFalse => rfl
  rw [State.findTeam] at hx
  rw [State.findTeam, State.modTeam_teams, List.find?_map, hcomp, hx]
  rfl

theorem modCore {gc : Nat} {f : Core → Core} (h : KeepsTurns s₀ s) : KeepsTurns s₀ (s.modCore gc f) := h.update

theorem modVd {vk : Nat} {f : Vd → Vd} (h : KeepsTurns s₀ s) : KeepsTurns s₀ (s.modVd vk f) := h.update

theorem modCopy {gc id : Nat} {f : CopyReq → CopyReq} (h : KeepsTurns s₀ s) : KeepsTurns s₀ (s.modCopy gc id f) := h.update

theorem modPlan {vk idx : Nat} {f : Plan → Plan} (h : KeepsTurns s₀ s) : KeepsTurns s₀ (s.modPlan vk idx f) := h.update

theorem modRetrace {id : Nat} {f : Retrace → Retrace} (h : KeepsTurns s₀ s) : KeepsTurns s₀ (s.modRetrace id f) := h.update

theorem bump (h : KeepsTurns s₀ s) : KeepsTurns s₀ s.bump := h.update

theorem unlock {gc owner : Nat} (h : KeepsTurns s₀ s) : KeepsTurns s₀ (s.unlock gc owner) := h.update

theorem dropUnits {gone : Nat → Offer → Bool} (h : KeepsTurns s₀ s) : KeepsTurns s₀ (s.dropUnits gone) := h.update

theorem scramble {locs : List Nat} (h : KeepsTurns s₀ s) : KeepsTurns s₀ (s.scramble locs) := by
  have honly := scramble_onlyMemory s locs
  rw [OnlyMemory] at honly
  rw [honly]; exact h.update

theorem forgetAt {op r : Nat} (h : KeepsTurns s₀ s) : KeepsTurns s₀ (State.forgetAt op s r) := .ite h h.update

theorem forgetWalks {op gc : Nat} (h : KeepsTurns s₀ s) : KeepsTurns s₀ (s.forgetWalks op gc) := h.forgetAt

theorem dropWalks {op : Nat} (h : KeepsTurns s₀ s) : KeepsTurns s₀ (s.dropWalks op) := h.foldl fun _ _ h => h.forgetAt

/-! ### Tags and arrivals -/

theorem evalTagWait {gc vk t : Nat} (h : KeepsTurns s₀ s) : KeepsTurns s₀ (Machine.evalTagWait gc vk s t) := by
  unfold Machine.evalTagWait
  split
  · split
    · exact h
    · exact h.modCore.modThread fun _ => rfl
  · exact h

theorem setTag {gc vk n status : Nat} (h : KeepsTurns s₀ s) : KeepsTurns s₀ (s.setTag gc vk n status) :=
  foldl h.modCore fun _ _ h => h.evalTagWait

theorem arrive {l : Landing} (h : KeepsTurns s₀ s) : KeepsTurns s₀ (s.arrive l).1 := by
  unfold State.arrive
  dsimp only
  split
  · exact h.bump
  · split
    case h_1 htest => exact h.bump.setThread (id := l.tid) (landTest_slot htest)
    case h_2 => exact h.bump
    case h_3 =>
      split
      · exact h.bump
      · exact .pair (h.bump.setThread (id := l.tid) rfl).modCore
    case h_4 =>
      split
      · exact h.bump
      · exact .pair (h.bump.setThread (id := l.tid) (addCause_slot ..)).modCore

theorem landWord {engine tid reg ended : Nat} {w : Word} (h : KeepsTurns s₀ s) : KeepsTurns s₀ (s.landWord engine tid reg ended w).1 := by
  unfold State.landWord
  dsimp only
  split
  · exact h
  · split
    · exact h
    · split <;> exact h.arrive.of_eq ‹_›

/-! ### Operations that are cancelled -/

theorem cancelCopy {gc : Nat} {req : CopyReq} (h : KeepsTurns s₀ s) : KeepsTurns s₀ (Machine.cancelCopy s gc req) := by
  unfold Machine.cancelCopy settleCopy
  refine .ite ?_ h.dropUnits.forgetWalks.scramble.unlock.bump.modCopy.setTag.modCopy
  split
  exact .ite (h.dropUnits.forgetWalks.scramble.unlock.bump.modCopy.setTag.landWord.of_eq ‹_›).modCopy
    h.dropUnits.forgetWalks.scramble.unlock.bump.modCopy.setTag

theorem cancelEntry {gc : Nat} {e : MEntry} (h : KeepsTurns s₀ s) : KeepsTurns s₀ (Machine.cancelEntry s gc e) := by
  have hdelivered : KeepsTurns s₀ (cancelDeliveries gc e.id s) := h.update
  exact (ite hdelivered.modCore.scramble hdelivered.modCore).dropUnits.forgetWalks.unlock.setTag

theorem cancelGather {gc : Nat} {a : Access} (h : KeepsTurns s₀ s) : KeepsTurns s₀ (Machine.cancelGather s gc a) := by
  refine h.foldl fun s p h => ?_
  have hfree : KeepsTurns s₀ { s with free := s.free + 1 } := h.update
  have htaken : KeepsTurns s₀ (({ s with free := s.free + 1 } : State).takeValue a p (some (Config.freeWord s.free).toNat) 0) := by
    simp only [State.takeValue, Option.isNone_some, Bool.false_eq_true, if_false]
    exact hfree.modThread fun _ => rfl
  exact .ite htaken.modCore (htaken.modCore.modThread fun _ => rfl)

theorem cancelForward {f : Forward} (h : KeepsTurns s₀ s) : KeepsTurns s₀ (Machine.cancelForward s f) :=
  (update h.scramble.dropUnits.dropWalks).setTag

theorem cancelRetrace {r : Retrace} (h : KeepsTurns s₀ s) : KeepsTurns s₀ (Machine.cancelRetrace s r) :=
  (update h.scramble.dropUnits.dropWalks.bump.modRetrace).setTag

theorem planLanding {vk plan member m : Nat} {d : List Byte} {seq : BitVec 32} {status ended : Nat} (h : KeepsTurns s₀ s) :
    KeepsTurns s₀ (Machine.planLanding vk plan member m d seq status ended s) := by
  unfold Machine.planLanding
  refine .ite ?_ h.modPlan
  split
  exact .ite (h.landWord.of_eq ‹_›).modPlan h

theorem cancelPart {vk idx : Nat} {p : Plan} {f : Firing} {k : Nat} (h : KeepsTurns s₀ s) :
    KeepsTurns s₀ (Machine.cancelPart vk idx p f s k) := by
  unfold Machine.cancelPart
  split
  · exact h
  · dsimp only
    split
    · exact h
    · exact h.scramble.setTag.modPlan.bump.planLanding

theorem cancelFiring {vk idx : Nat} {p : Plan} (h : KeepsTurns s₀ s) : KeepsTurns s₀ (Machine.cancelFiring vk idx p s) := by
  unfold Machine.cancelFiring
  split
  · exact h
  · exact h.dropUnits.dropWalks.foldl fun _ _ h => h.cancelPart

theorem cancelTeam {t : Team} (h : KeepsTurns s₀ s) : KeepsTurns s₀ (Machine.cancelTeam t s) := by
  unfold Machine.cancelTeam
  refine foldl (update (foldl (foldl (foldl h fun u gc hu => ?_) fun _ _ h => h.cancelForward) fun _ _ h => h.cancelRetrace)) fun u x hu => ?_
  · exact foldl (foldl (foldl hu fun _ _ h => h.cancelCopy) fun _ _ h => h.cancelEntry) fun _ _ h => h.cancelGather
  · exact .ite hu (hu.foldl fun _ _ h => h.cancelFiring)

/-! ### Threads that retire, and what a team gives back -/

theorem dropHeld {id : Nat} (h : KeepsTurns s₀ s) : KeepsTurns s₀ (s.dropHeld id) :=
  foldl (ite h.modCore (h.modCore.modTeam fun _ => ⟨rfl, rfl⟩)) fun _ _ h => ite h.pend h

theorem retire {id : Nat} (h : KeepsTurns s₀ s) : KeepsTurns s₀ (s.retire id) := by
  unfold State.retire
  exact dropHeld (modThread h fun _ => rfl)

theorem dropTeamUnits {t : Team} (h : KeepsTurns s₀ s) : KeepsTurns s₀ (Machine.dropTeamUnits t s) := h.foldl fun _ _ h => h.dropUnits

theorem releaseShared {t : Team} (h : KeepsTurns s₀ s) : KeepsTurns s₀ (Machine.releaseShared t s) := by
  obtain ⟨hworld, -, hteams⟩ := releaseShared_givesBack t s
  have hteam : KeepsTurns s₀ (s.modTeam t.vd t.num fun x => { x with segs := [], pins := [] }) := h.modTeam fun _ => ⟨rfl, rfl⟩
  rw [hworld, hteams]
  exact hteam.update

theorem leaveWaits {t : Team} (h : KeepsTurns s₀ s) : KeepsTurns s₀ (Machine.leaveWaits t s) := h.update

theorem freeCore {t : Team} {gc : Nat} (h : KeepsTurns s₀ s) : KeepsTurns s₀ (Machine.freeCore t s gc) := by
  unfold Machine.freeCore
  exact modCore (modVd h)

end KeepsTurns

end Sys2Proof.Machine
end

section
/-! SUPPORT. Requests of pre-emption, the actions that they take, and the stop of a team that refuses capabilities (R224, R356, R357, R362). -/

namespace Sys2Proof.Machine

/-! ### The end of a team (R337, R365) -/

theorem freeThreads_thread {s : State} (hk : s.Keyed) (ids : List Nat) :
    let u := ids.foldl (fun s tid => s.setThread { Thread.blank tid with nextTurn := (s.thread tid).nextTurn }) s
    u.teams = s.teams ∧ ∀ k, u.thread k = if k ∈ ids then { Thread.blank k with nextTurn := (s.thread k).nextTurn } else s.thread k := by
  induction ids generalizing s with
  | nil => exact ⟨rfl, fun k => (if_neg List.not_mem_nil).symm⟩
  | cons id ids ih =>
    obtain ⟨hteams, hthread⟩ := ih (setThread_keyed hk { Thread.blank id with nextTurn := (s.thread id).nextTurn })
    refine ⟨hteams.trans (by rw [setThread_world]), fun k => ?_⟩
    rw [List.foldl_cons, hthread]
    simp only [setThread_thread, List.mem_cons]
    by_cases hne : k = id
    · subst hne
      simp only [Thread.blank, if_true, true_or, ite_self]
    · simp only [hne, Thread.blank, if_false, false_or]

theorem dropTeamUnits_onlyArbiters (t : Team) (s : State) : dropTeamUnits t s = { s with arbiters := (dropTeamUnits t s).arbiters } := by
  refine List.foldlRecOn (motive := fun u : State => u = { s with arbiters := u.arbiters }) _ _ rfl fun u hu p _ => ?_
  rw [State.dropIdle, State.dropUnits]
  generalize u.arbiters.map _ = arbiters
  rw [hu]

/-- A team's slots are free: its threads are blank but for their next turns, and no team has gone. -/
theorem releaseTeam_empties {s₀ s : State} (h : KeepsTurns s₀ s) (t : Team) :
    (∀ k ∈ t.tids, (releaseTeam t s).thread k = { Thread.blank k with nextTurn := (s₀.thread k).nextTurn }) ∧
      ∀ vd num, (s₀.findTeam vd num).isSome = true → ((releaseTeam t s).findTeam vd num).isSome = true := by
  have hcores : KeepsTurns s₀ (t.coreList.foldl (freeCore t) (leaveWaits t (releaseShared t s))) :=
    h.releaseShared.leaveWaits.foldl fun _ _ h => h.freeCore
  obtain ⟨hteams, hthread⟩ := freeThreads_thread hcores.keyed t.tids
  rw [releaseTeam, freeSlots, dropTeamUnits_onlyArbiters]
  refine ⟨fun k hmem => (hthread k).trans ?_, fun vd num hsome => ?_⟩
  · rw [if_pos hmem, hcores.turns]
  · have hfound := hcores.teams vd num hsome
    rw [← findTeam_congr hteams] at hfound
    exact hfound

/-- A stop that ends: the threads have stopped, and no write of the team is in flight (R365). -/
theorem finishStop_ends {s : State} {t : Team} (hhalted : allHalted s t = true) (hwrites : writesLeft (cancelTeam t s) t = false) :
    finishStop s t = (releaseTeam t (t.tids.foldl State.retire (dropTeamUnits t (cancelTeam t s))), true) := by
  have hsame : writesLeft (dropTeamUnits t (cancelTeam t s)) t = writesLeft (cancelTeam t s) t := by
    rw [dropTeamUnits_onlyArbiters]; rfl
  rw [finishStop, hhalted]
  simp only [Bool.not_true, Bool.false_eq_true, if_false, hsame, hwrites]

/-! ### A choice and its stop (R357, R362) -/

/-- A request's choice has been carried out: the team has it, its threads are to stop, but for a drain, and heads and memory are as
they were. -/
def Chosen (s t : State) (y : Team) (vd num : Nat) (r : PreReq) : Prop :=
  (∃ z, t.findTeam vd num = some z ∧ z.pre = some r ∧ z.st = y.st) ∧
    (r.action ≠ 1 → ∀ k ∈ y.tids, (t.thread k).stop ≠ 0) ∧ (∀ k, (t.thread k).pc = (s.thread k).pc) ∧ t.mem = s.mem

theorem beginStop_stops {s : State} (hk : s.Keyed) (y : Team) :
    (∀ k ∈ y.tids, ((beginStop s y).thread k).stop ≠ 0) ∧ ∀ k, ((beginStop s y).thread k).pc = (s.thread k).pc := by
  obtain ⟨-, hthread⟩ := beginStop_thread hk y
  refine ⟨fun k hmem => ?_, fun k => ?_⟩
  · rw [hthread, if_pos hmem]
    exact (stopping_spec _).1
  · rw [hthread]
    split
    · exact (stopping_spec _).2.1
    · rfl

theorem beginStop_keeps (s : State) (y : Team) : (beginStop s y).teams = s.teams ∧ (beginStop s y).mem = s.mem ∧
    (beginStop s y).fns = s.fns ∧ (beginStop s y).cases = s.cases := by
  have hworld := beginStop_onlyThreads s y
  rw [OnlyThreads] at hworld
  rw [hworld]
  exact ⟨rfl, rfl, rfl, rfl⟩

section
variable {s : State} (hk : s.Keyed) {vd num : Nat} {y : Team} (hy : s.findTeam vd num = some y)
include hk hy

/-- A choice is carried out as R357 says, and the host's case of the request is closed. -/
theorem startAction_chosen (p : PreReq) (c : Nat × Bool) (byHost : Bool) :
    Chosen s (startAction s y p c byHost) y vd num { p with action := c.1, late := c.2, byHost := byHost, token := none } ∧
      (startAction s y p c byHost).fns = s.fns ∧
      (startAction s y p c byHost).cases = s.cases.filter fun x => x.kind != .preempt vd num := by
  obtain ⟨hvd, hnum⟩ := findTeam_named hy
  by_cases hc : c.1 = 1
  · have hdrain : startAction s y p c byHost =
        s.decidePre vd num { p with action := c.1, late := c.2, byHost := byHost, token := none } := by
      rw [startAction, if_pos hc, hvd, hnum]; rfl
    rw [hdrain]
    generalize hr : ({ p with action := c.1, late := c.2, byHost := byHost, token := none } : PreReq) = r
    have hfind : (s.decidePre vd num r).findTeam vd num = some { y with pre := some r } :=
      findTeam_modTeam (s := dropCase vd num s) hy fun _ => rfl
    exact ⟨⟨⟨_, hfind, rfl, rfl⟩, fun hne => absurd (hr ▸ hc) hne, fun _ => rfl, rfl⟩, rfl, rfl⟩
  · rw [startAction_eq s y p hc, hvd, hnum]
    generalize ({ p with action := c.1, late := c.2, byHost := byHost, token := none } : PreReq) = r
    have hfind : (s.decidePre vd num r).findTeam vd num = some { y with pre := some r } :=
      findTeam_modTeam (s := dropCase vd num s) hy fun _ => rfl
    have hkeyed : (s.decidePre vd num r).Keyed := hk
    obtain ⟨hstop, hpc⟩ := beginStop_stops hkeyed y
    obtain ⟨hteams, hmem, hfns, hcases⟩ := beginStop_keeps (s.decidePre vd num r) y
    exact ⟨⟨⟨_, (findTeam_congr hteams vd num).trans hfind, rfl, rfl⟩, fun _ => hstop, hpc, hmem⟩, hfns, hcases⟩

/-! ### A request goes to the host (R357, R368) -/

omit hk in
theorem askPre_asks (p : PreReq) : (askPre s y p).token = s.token ∧
    (askPre s y p).cases = s.cases ++ [⟨p.entTok, fnOfVd (vdKey y.pkg vd), .preempt vd num, p.deadline, none⟩] ∧
    ∃ z, (askPre s y p).findTeam vd num = some z ∧ z.pre = some { p with token := some p.entTok } := by
  obtain ⟨hvd, hnum⟩ := findTeam_named hy
  rw [askPre, hvd, hnum]
  dsimp only
  generalize hu : postCp s (vdKey y.pkg vd) 17 num _ _ = u
  have hposted := hu.symm.trans (postCp_world ..)
  rw [hu] at hposted
  have hpended : OnlyThreads u (y.tids.foldl (fun s x => s.pend x cPreempt (ofN p.deadline)) u) :=
    foldl_onlyThreads u y.tids id fun _ x => x.pendCause cPreempt (ofN p.deadline)
  rw [OnlyThreads] at hpended
  rw [hpended]
  have hfind : u.findTeam vd num = some y := (findTeam_congr (by rw [hposted]) vd num).trans hy
  have htoken : u.token = s.token := by rw [hposted]
  have hcases : u.cases = s.cases := by rw [hposted]
  refine ⟨htoken, congrArg (· ++ _) hcases, _, findTeam_modTeam hfind fun _ => rfl, rfl⟩

end

/-! ### The team that refuses capabilities (R224) -/

/-- The request that a team's refusals make. -/
def refusalStop : PreReq := ⟨0, 0, 0, 0, 0, 4, false, false, none⟩

section
variable {s : State} (hk : s.Keyed) {vd num : Nat} {y : Team} (hy : s.findTeam vd num = some y) (hbound : y.st = .bound)
  (hcount : 4096 ≤ y.capbads)
include hk hy hbound hcount

theorem capbadStop_begins (hpre : y.pre = none) : Completes (.capbadStop vd num) s fun t => Chosen s t y vd num refusalStop := by
  refine ⟨(beginStop s y).modTeam vd num fun t => { t with pre := some refusalStop }, ?_, ?_⟩
  · change execCapbadStop vd num s = _
    simp only [execCapbadStop, hy, hbound, hpre]
    rw [if_neg (by simpa using hcount)]
    rfl
  · obtain ⟨hstop, hpc⟩ := beginStop_stops hk y
    obtain ⟨hteams, hmem, -, -⟩ := beginStop_keeps s y
    exact ⟨⟨_, findTeam_modTeam ((findTeam_congr hteams vd num).trans hy) fun _ => rfl, rfl, rfl⟩, fun _ => hstop, hpc, hmem⟩

theorem capbadStop_ends (hpre : y.pre = some refusalStop) (hhalted : allHalted s y = true) (hwrites : writesLeft (cancelTeam y s) y = false) :
    Completes (.capbadStop vd num) s fun t =>
      (∀ k ∈ y.tids, t.thread k = { Thread.blank k with nextTurn := (s.thread k).nextTurn }) ∧
        ∃ z, t.findTeam vd num = some z ∧ z.st = .stopped ∧ z.pre = none := by
  have hkept : KeepsTurns s (y.tids.foldl State.retire (dropTeamUnits y (cancelTeam y s))) :=
    (KeepsTurns.refl hk).cancelTeam.dropTeamUnits.foldl fun _ _ h => h.retire
  obtain ⟨hblank, hteams⟩ := releaseTeam_empties hkept y
  have hend := finishStop_ends hhalted hwrites
  generalize releaseTeam y (y.tids.foldl State.retire (dropTeamUnits y (cancelTeam y s))) = u at hblank hteams hend
  have hposted := postCp_world u (vdKey y.pkg vd) 5 num y.capbads 0
  refine ⟨(postCp u (vdKey y.pkg vd) 5 num y.capbads 0).modTeam vd num fun t => { t with st := .stopped, pre := none }, ?_, ?_, ?_⟩
  · change execCapbadStop vd num s = _
    simp only [execCapbadStop, hy, hbound, hpre, refusalStop, hend]
    rw [if_neg (by simpa using hcount)]
    rfl
  · intro k hmem
    refine Eq.trans ?_ (hblank k hmem)
    rw [hposted]; rfl
  · obtain ⟨z, hz⟩ := Option.isSome_iff_exists.1 (hteams vd num (by rw [hy]; rfl))
    have hz' : (postCp u (vdKey y.pkg vd) 5 num y.capbads 0).findTeam vd num = some z := by
      rw [findTeam_congr (by rw [hposted])]
      exact hz
    exact ⟨_, findTeam_modTeam hz' fun _ => rfl, rfl, rfl⟩

end

/-! ### A deadline, and a request's entry (R356, R357, R420) -/

section
variable {s : State} {vd num : Nat} {y : Team} (hy : s.findTeam vd num = some y) (hbound : y.st = .bound) {p : PreReq}
  (hpre : y.pre = some p) (hdue : p.deadline ≤ s.time y.pkg)
include hy hbound hpre hdue

theorem preemptDeadline_chooses (haction : p.action = 0) :
    exec (.preemptDeadline vd num) s = .next (startAction s y p (choosePre s y p.allow p.deadline true) false) := by
  change execPreemptDeadline vd num s = _
  simp only [execPreemptDeadline, hy, hpre, hbound, haction]
  rw [if_neg (by simpa using hdue)]
  rfl

theorem preemptDeadline_again (haction : p.action = 1) (hallow : p.allow.getLsbD 1 = true) :
    exec (.preemptDeadline vd num) s = .next (startAction s y p (choosePre s y p.allow p.deadline false) false) := by
  have hmay : mayDiscard p.allow = true := hallow
  change execPreemptDeadline vd num s = _
  simp only [execPreemptDeadline, hy, hpre, hbound, haction, hmay]
  rw [if_neg (by simpa using hdue)]
  rfl

end

theorem preemptEntry_begins {fn q : Nat} {e : List Byte} {y : Team} {s : State} (hhead : headEntry s fn q = some e)
    (hfront : (s.queue fn q).front = []) (hok : entryOk fn e = true) (htype : entType e = 2)
    (hy : s.findTeam (vkOfFn fn % 16) (numAt e 8 4) = some y) (hbound : y.st = .bound) (hpre : y.pre = none)
    (hallow : BitVec.ofNat 3 (numAt e 12 1) ≠ 0) : exec (.preemptEntry fn q) s =
      .next (beginPre (s.passHead fn q) y ⟨fn, q, entToken e, numAt e 16 8, BitVec.ofNat 3 (numAt e 12 1), 0, false, false, none⟩) := by
  have hy' : (s.passHead fn q).findTeam (vkOfFn fn % 16) (numAt e 8 4) = some y := hy
  change execPreemptEntry fn q s = _
  simp only [execPreemptEntry, hhead, hfront, htype, hok, hy', hbound, hpre, if_neg hallow]
  rfl

end Sys2Proof.Machine
end

section
/-! PROOF of an obligation. -/

namespace Sys2Proof.Machine

/-- Settles O46, by the choice that each request carries out, and by what the end of a team leaves of its threads. -/
theorem preemptionRequests : Obligations.PreemptionRequests := by
  unfold Obligations.PreemptionRequests
  intro fn q vd num e y p s hk chosen
  refine ⟨?_,
    fun hy hbound hpre hdue => ⟨fun haction => ?_, fun haction hdiscard => ?_⟩,
    fun hy hbound hcount hpre => capbadStop_begins hk hy hbound hcount hpre,
    fun hy hbound hcount hpre hhalted hwrites => capbadStop_ends hk hy hbound hcount hpre hhalted hwrites⟩
  · intro hhead hfront hok htype hq hvd hnum hy hbound hpre allow deadline hallow hany
    subst hvd hnum
    have hbegin := preemptEntry_begins hhead hfront hok htype hy hbound hpre hallow
    obtain ⟨hvd, hnum⟩ := findTeam_named hy
    have hno : ¬ (!anyPermitted y allow) = true := by rw [hany]; decide
    refine ⟨fun hhost => ?_, fun hhost => ?_⟩
    · have hhost' : ¬ hostPre (s.passHead fn q) (vdKey y.pkg y.vd) = true := by
        rw [hvd]; exact fun h => Bool.false_ne_true (hhost.symm.trans h)
      rw [beginPre] at hbegin
      dsimp only at hbegin
      rw [if_neg hno, if_neg hhost'] at hbegin
      obtain ⟨hchosen, hfns, -⟩ := startAction_chosen (s := s.passHead fn q) hk hy
        ⟨fn, q, entToken e, deadline, allow, 0, false, false, none⟩ (choosePre s y allow deadline true) false
      refine ⟨_, hbegin, hchosen, ?_⟩
      have hqueue := queue_congr hfns fn q
      rw [(passHead_setsQueue s hq).value] at hqueue
      exact congrArg Queue.head hqueue
    · have hhost' : hostPre (s.passHead fn q) (vdKey y.pkg y.vd) = true := by rw [hvd]; exact hhost
      rw [beginPre] at hbegin
      dsimp only at hbegin
      rw [if_neg hno, if_pos hhost'] at hbegin
      exact ⟨_, hbegin, askPre_asks (s := s.passHead fn q) hy ⟨fn, q, entToken e, deadline, allow, 0, false, false, none⟩⟩
  · obtain ⟨hchosen, -, hcases⟩ := startAction_chosen hk hy p (choosePre s y p.allow p.deadline true) false
    exact ⟨_, preemptDeadline_chooses hy hbound hpre hdue haction, hchosen, hcases⟩
  · obtain ⟨hchosen, -, -⟩ := startAction_chosen hk hy p (choosePre s y p.allow p.deadline false) false
    exact ⟨_, preemptDeadline_again hy hbound hpre hdue haction hdiscard, hchosen⟩

end Sys2Proof.Machine
end
